-- ==== Sys2Proof/Word.lean ====
section
/-! DEFINITION. The word type of the KQ-192's code and registers, and the plainest arithmetic on it
(04 R78: code is made of 32-bit words; 01 R14: cells are 32 bits). -/

namespace Sys2Proof

/-- A 32-bit word: an instruction word, or the contents of one cell in one lane. -/
abbrev Word := BitVec 32

/-- Bits `lo + n - 1` to `lo` of a word, as in a field map (00 R12). -/
def Word.field (w : Word) (lo n : Nat) : BitVec n := BitVec.ofNat n (w.toNat / 2 ^ lo)

/-- One bit of a word. -/
def Word.flag (w : Word) (i : Nat) : Bool := w.toNat / 2 ^ i % 2 == 1

end Sys2Proof
end

