-- ==== Sys2Proof/Syntax.lean ====
section
/-! DEFINITION. The instructions of the KQ-192: ONE inductive with one constructor per row of
`spec/opcode_table.json`: the words of 04 Tables 04-6 to 04-12 with every field their encoding holds, then
the device events and host operations of the table. -/

namespace Sys2Proof

/-- The EXT word (04 Table 04-2), field by field; bit 31 and the major are not fields. -/
structure Ext where
  dh : BitVec 2
  ah : BitVec 2
  bh : BitVec 2
  wo : Bool
  aw : BitVec 3
  bw : BitVec 3
  sa : Bool
  sb : Bool
  pe : Bool
  pk : BitVec 3
  pn : Bool
  ix : BitVec 5
  deriving DecidableEq, Repr, Inhabited

/-- What every main word carries beside its own fields: the chain bit (04 R81) and the EXT word, if any. -/
structure Hdr where
  chain : Bool
  ext : Option Ext
  deriving DecidableEq, Repr, Inhabited

/-- The TAIL fields common to COPY and COPYT (09 Table 09-5). -/
structure CopyTail where
  skind : BitVec 2
  dkind : BitVec 2
  bq : BitVec 2
  boff : BitVec 16
  deriving DecidableEq, Repr, Inhabited

/-- The ROUTE TAIL (10 Table 10-7). -/
structure RouteTail where
  km1 : BitVec 3
  dm1 : BitVec 4
  bq : BitVec 2
  boff : BitVec 16
  deriving DecidableEq, Repr, Inhabited

/-- One sequencer slot of one group: the placed workgroup's number, the hardware group within it, the slot. -/
structure SlotRef where
  wg : Nat
  g : Nat
  slot : Bool
  deriving DecidableEq, Repr, Inhabited

/-- A queue with an overflow ring (08 Table 08-8). -/
inductive RingRef where
  | matrix (core : BitVec 8)
  | copy (die : BitVec 2)
  | launch (prio : BitVec 2)
  deriving DecidableEq, Repr, Inhabited

/-- How many bytes a host register write carries. -/
inductive WriteSize where
  | b1 | b2 | b4 | b8
  deriving DecidableEq, Repr, Inhabited

/-- A host access through the aperture: a read of `n` bytes, or a write (23 R355). -/
inductive ApertureAccess where
  | read (n : Nat)
  | write (bytes : List (BitVec 8))
  deriving DecidableEq, Repr, Inhabited

/-- An access arriving on a peer port, at a physical address, with the sender's world and, for an element of a reduce-add,
the sender's ordered-reduction bit (23 R359, R360). -/
inductive PeerAccess where
  | read (sec : Bool) (addr : Nat) (n : Nat)
  | write (sec : Bool) (addr : Nat) (bytes : List (BitVec 8))
  | reduceAdd (sec ordr : Bool) (addr : Nat) (efmt : BitVec 4) (elem : Word)
  deriving DecidableEq, Repr, Inhabited

/-- What a transient fault strikes (21 Tables 21-1 and 21-2, R334): work in flight in its own engine or array, a transfer
of a request whose check fails in a named block (a link, a port or a translation unit), a log or save write, or stored
state, with a single bit that is corrected. -/
inductive FaultTarget where
  | burst (req : Nat)
  | matrix (core : BitVec 8) (col : BitVec 8)
  | route (req : Nat)
  | crossing (req : Nat) (block : Word)
  | logWrite (block : Word)
  | singleBit (block : Word)
  deriving DecidableEq, Repr, Inhabited

/-- A place of stored state (21 R333): a byte of a workgroup's shared memory in a segment, of a scratchpad, of a
workgroup's tiles or follower tiles, or of HBM, or a cell of a group. Workgroups go by the model's own names. -/
inductive StoredPlace where
  | shared (wg : Nat) (q : BitVec 2) (off : Nat)
  | spad (addr : Nat)
  | tile (wg : Nat) (q : BitVec 2) (off : Nat)
  | follower (wg : Nat) (off : Nat)
  | hbm (addr : Nat)
  | cell (wg g k : Nat)
  deriving DecidableEq, Repr, Inhabited

/-- The stored state an uncorrectable error lies in (21 R333): what a retained record of a block can supply, a place of a
context's state, state of a block that no context owns, or what a log writer or the save engine, in a block, writes for a
context (Table 21-3a). -/
inductive StoredState where
  | record (block : Word)
  | owned (p : StoredPlace)
  | unowned (block : Word)
  | writer (c : BitVec 6) (block : Word)
  deriving DecidableEq, Repr, Inhabited

/-- What firmware may assign to a world (23 R362). -/
inductive WorldTarget where
  | block (id : Word)
  | range (base size : Nat)
  deriving DecidableEq, Repr, Inhabited

/-- What the boot steps find (24 Table 24-1): the outside world's answers to steps 2 to 6, with the digests of the
firmware, the world policy and the repair map that the controller measures (23 Table 23-8). -/
structure BootInputs where
  firmware : BitVec 512
  policy : BitVec 512
  repairMap : BitVec 512
  firmwareOk : Bool
  policyOk : Bool
  secureBlocks : List Word
  secureRanges : List (Nat × Nat)
  stacksOk : List Bool
  repairOk : Bool
  fenced : List (BitVec 8)
  remapped : List (BitVec 8 × BitVec 8)
  selfTestFailed : List (BitVec 8)
  deriving DecidableEq, Repr, Inhabited

/-- The instructions and events of the opcode table, one constructor per row. -/
inductive Instr where
  /-- NOP (04 R80). -/
  | nop (chain : Bool)
  /-- IADD: `x` is the .s bit (05 R99). -/
  | iadd (h : Hdr) (w : BitVec 3) (d a b : BitVec 7) (x : Bool)
  /-- ISUB: `x` is the .s bit (05 R99). -/
  | isub (h : Hdr) (w : BitVec 3) (d a b : BitVec 7) (x : Bool)
  /-- IMUL: `x` is the .s bit (05 R99). -/
  | imul (h : Hdr) (w : BitVec 3) (d a b : BitVec 7) (x : Bool)
  /-- IMULH: `x` is the .s bit (05 R99). -/
  | imulh (h : Hdr) (w : BitVec 3) (d a b : BitVec 7) (x : Bool)
  /-- IMAD: `x` is the .s bit (05 R99). -/
  | imad (h : Hdr) (w : BitVec 3) (d a b : BitVec 7) (x : Bool)
  /-- IMIN: `x` is the .s bit (05 R99). -/
  | imin (h : Hdr) (w : BitVec 3) (d a b : BitVec 7) (x : Bool)
  /-- IMAX: `x` is the .s bit (05 R99). -/
  | imax (h : Hdr) (w : BitVec 3) (d a b : BitVec 7) (x : Bool)
  /-- ISAD: `x` is the .s bit (05 R99). -/
  | isad (h : Hdr) (w : BitVec 3) (d a b : BitVec 7) (x : Bool)
  /-- AND (05 R101). -/
  | and (h : Hdr) (w : BitVec 3) (d a b : BitVec 7)
  /-- OR (05 R101). -/
  | or (h : Hdr) (w : BitVec 3) (d a b : BitVec 7)
  /-- XOR (05 R101). -/
  | xor (h : Hdr) (w : BitVec 3) (d a b : BitVec 7)
  /-- ANDN (05 R101). -/
  | andn (h : Hdr) (w : BitVec 3) (d a b : BitVec 7)
  /-- SHL (05 R102). -/
  | shl (h : Hdr) (w : BitVec 3) (d a b : BitVec 7)
  /-- SHR: `x` selects the arithmetic shift (05 R102). -/
  | shr (h : Hdr) (w : BitVec 3) (d a b : BitVec 7) (x : Bool)
  /-- ROTL (05 R102). -/
  | rotl (h : Hdr) (w : BitVec 3) (d a b : BitVec 7)
  /-- BFE: `x` is the .s bit (05 R103). -/
  | bfe (h : Hdr) (w : BitVec 3) (d a b : BitVec 7) (x : Bool)
  /-- BFI (05 R103). -/
  | bfi (h : Hdr) (w : BitVec 3) (d a b : BitVec 7)
  /-- SEL by mask `k` (05 R104). -/
  | sel (h : Hdr) (k : BitVec 3) (d a b : BitVec 7)
  /-- ICMP into mask `k` under condition `q` (05 R105). -/
  | icmp (h : Hdr) (w : BitVec 3) (k : BitVec 3) (q : BitVec 4) (a b : BitVec 7)
  /-- IABS (05 R106). -/
  | iabs (h : Hdr) (w : BitVec 3) (d a : BitVec 7)
  /-- INEG (05 R106). -/
  | ineg (h : Hdr) (w : BitVec 3) (d a : BitVec 7)
  /-- NOT (05 R106). -/
  | not (h : Hdr) (w : BitVec 3) (d a : BitVec 7)
  /-- POPC (05 R106). -/
  | popc (h : Hdr) (w : BitVec 3) (d a : BitVec 7)
  /-- CLZ (05 R106). -/
  | clz (h : Hdr) (w : BitVec 3) (d a : BitVec 7)
  /-- BREV (05 R106). -/
  | brev (h : Hdr) (w : BitVec 3) (d a : BitVec 7)
  /-- MOV (05 R106). -/
  | mov (h : Hdr) (w : BitVec 3) (d a : BitVec 7)
  /-- TAG (05 R107). -/
  | tag (h : Hdr) (w : BitVec 3) (d a : BitVec 7)
  /-- RDSP of special value `n` (05 R108). -/
  | rdsp (h : Hdr) (w : BitVec 3) (d : BitVec 7) (n : BitVec 5)
  /-- WRSP to special value `n` (05 R108). -/
  | wrsp (h : Hdr) (w : BitVec 3) (a : BitVec 7) (n : BitVec 5)
  /-- IADDI (05 R109). -/
  | iaddi (h : Hdr) (w : BitVec 3) (d a : BitVec 7) (i : BitVec 8)
  /-- SHLI by `n` (05 R109). -/
  | shli (h : Hdr) (w : BitVec 3) (d a : BitVec 7) (n : BitVec 7)
  /-- SHRI by `n`, arithmetic when `x` (05 R109). -/
  | shri (h : Hdr) (w : BitVec 3) (d a : BitVec 7) (x : Bool) (n : BitVec 7)
  /-- ANDI (05 R109). -/
  | andi (h : Hdr) (w : BitVec 3) (d a : BitVec 7) (i : BitVec 8)
  /-- ICMPI (05 R109). -/
  | icmpi (h : Hdr) (w : BitVec 3) (k : BitVec 3) (q : BitVec 4) (a : BitVec 7) (i : BitVec 8)
  /-- MOVI (05 R110). -/
  | movi (h : Hdr) (d : BitVec 7) (i : BitVec 18)
  /-- MOVHI (05 R110). -/
  | movhi (h : Hdr) (d : BitVec 7) (i : BitVec 16)
  /-- FADD; `w` is the type code (05 R112). -/
  | fadd (h : Hdr) (w : BitVec 3) (d a b : BitVec 7)
  /-- FSUB; `w` is the type code (05 R112). -/
  | fsub (h : Hdr) (w : BitVec 3) (d a b : BitVec 7)
  /-- FMUL; `w` is the type code (05 R112). -/
  | fmul (h : Hdr) (w : BitVec 3) (d a b : BitVec 7)
  /-- FFMA; `w` is the type code (05 R112). -/
  | ffma (h : Hdr) (w : BitVec 3) (d a b : BitVec 7)
  /-- FMIN; `w` is the type code (05 R113). -/
  | fmin (h : Hdr) (w : BitVec 3) (d a b : BitVec 7)
  /-- FMAX; `w` is the type code (05 R113). -/
  | fmax (h : Hdr) (w : BitVec 3) (d a b : BitVec 7)
  /-- FCMP; `w` is the type code (05 R114). -/
  | fcmp (h : Hdr) (w : BitVec 3) (k : BitVec 3) (q : BitVec 4) (a b : BitVec 7)
  /-- FABS; `w` is the type code (05 R115). -/
  | fabs (h : Hdr) (w : BitVec 3) (d a : BitVec 7)
  /-- FNEG; `w` is the type code (05 R115). -/
  | fneg (h : Hdr) (w : BitVec 3) (d a : BitVec 7)
  /-- FRND; `w` is the type code (05 R115). -/
  | frnd (h : Hdr) (w : BitVec 3) (d a : BitVec 7)
  /-- RCP; `w` is the type code (05 R115). -/
  | rcp (h : Hdr) (w : BitVec 3) (d a : BitVec 7)
  /-- RSQRT; `w` is the type code (05 R115). -/
  | rsqrt (h : Hdr) (w : BitVec 3) (d a : BitVec 7)
  /-- SQRT; `w` is the type code (05 R115). -/
  | sqrt (h : Hdr) (w : BitVec 3) (d a : BitVec 7)
  /-- EXP2; `w` is the type code (05 R115). -/
  | exp2 (h : Hdr) (w : BitVec 3) (d a : BitVec 7)
  /-- LOG2; `w` is the type code (05 R115). -/
  | log2 (h : Hdr) (w : BitVec 3) (d a : BitVec 7)
  /-- SIN; `w` is the type code (05 R115). -/
  | sin (h : Hdr) (w : BitVec 3) (d a : BitVec 7)
  /-- COS; `w` is the type code (05 R115). -/
  | cos (h : Hdr) (w : BitVec 3) (d a : BitVec 7)
  /-- TANH; `w` is the type code (05 R115). -/
  | tanh (h : Hdr) (w : BitVec 3) (d a : BitVec 7)
  /-- CVT from format `sf` to format `df`, rounding field `r` (05 R116). -/
  | cvt (h : Hdr) (sf : BitVec 4) (d a : BitVec 7) (df : BitVec 4) (r : BitVec 3)
  /-- CVQ from format `sf` to format `df`, rounding field `r` (05 R116). -/
  | cvq (h : Hdr) (sf : BitVec 4) (d a : BitVec 7) (df : BitVec 4) (r : BitVec 3)
  /-- CBLD into cb0 or cb1 (05 R117). -/
  | cbld (h : Hdr) (a : BitVec 7) (n : Bool)
  /-- CBX through codebook selector `s` (05 R118). -/
  | cbx (h : Hdr) (w : BitVec 3) (d a : BitVec 7) (s : BitVec 2)
  /-- SHFL (05 R120). -/
  | shfl (h : Hdr) (w : BitVec 3) (d a b : BitVec 7)
  /-- SHFLP (05 R120). -/
  | shflp (h : Hdr) (w : BitVec 3) (d a b : BitVec 7)
  /-- SHFLX (05 R121). -/
  | shflx (h : Hdr) (w : BitVec 3) (d a : BitVec 7) (m : BitVec 5)
  /-- VOTE.ANY (05 R122). -/
  | voteAny (h : Hdr) (w : BitVec 3) (k : BitVec 3) (a : BitVec 7)
  /-- VOTE.ALL (05 R122). -/
  | voteAll (h : Hdr) (w : BitVec 3) (k : BitVec 3) (a : BitVec 7)
  /-- VOTE.BAL (05 R122). -/
  | voteBal (h : Hdr) (w : BitVec 3) (k : BitVec 3) (a : BitVec 7)
  /-- REDU over integers, operation `o` (05 R123). -/
  | reduInt (h : Hdr) (w : BitVec 3) (d a : BitVec 7) (o : BitVec 3) (x : Bool)
  /-- REDU over floats, operation `o` (05 R123). -/
  | reduFloat (h : Hdr) (w : BitVec 3) (d a : BitVec 7) (o : BitVec 2)
  /-- SCAN over integers (05 R124). -/
  | scanInt (h : Hdr) (w : BitVec 3) (d a : BitVec 7) (o : BitVec 3) (x : Bool)
  /-- SCAN over floats (05 R124). -/
  | scanFloat (h : Hdr) (w : BitVec 3) (d a : BitVec 7) (o : BitVec 2)
  /-- NZSCAN (05 R125). -/
  | nzscan (h : Hdr) (w : BitVec 3) (d a : BitVec 7) (k : BitVec 3)
  /-- SEG (05 R126). -/
  | seg (h : Hdr) (w : BitVec 3) (d : BitVec 7)
  /-- LDS (09 R193). -/
  | lds (h : Hdr) (w : BitVec 3) (d a : BitVec 7) (i : BitVec 8)
  /-- STS (09 R193). -/
  | sts (h : Hdr) (w : BitVec 3) (d a : BitVec 7) (i : BitVec 8)
  /-- LDX (09 R193). -/
  | ldx (h : Hdr) (w : BitVec 3) (d a : BitVec 7) (i : BitVec 8)
  /-- STX (09 R193). -/
  | stx (h : Hdr) (w : BitVec 3) (d a : BitVec 7) (i : BitVec 8)
  /-- LDK (09 R193). -/
  | ldk (h : Hdr) (w : BitVec 3) (d a : BitVec 7) (i : BitVec 7)
  /-- STK (09 R193). -/
  | stk (h : Hdr) (w : BitVec 3) (d a : BitVec 7) (i : BitVec 7)
  /-- ATOM.S, operation `o` of Table 04-10 (09 R196). -/
  | atomS (h : Hdr) (o : BitVec 5) (d a : BitVec 7) (b : BitVec 6)
  /-- ATOM.X (09 R196). -/
  | atomX (h : Hdr) (o : BitVec 4) (d a : BitVec 7) (b : BitVec 6)
  /-- RED (09 R196, R197). -/
  | red (h : Hdr) (o : BitVec 4) (a : BitVec 7) (b : BitVec 6)
  /-- COPY (09 R200-R203). -/
  | copy (h : Hdr) (d a : BitVec 7) (b : BitVec 6) (t : CopyTail)
  /-- COPYT with transform `xf` (09 R200-R203). -/
  | copyt (h : Hdr) (d a : BitVec 7) (b : BitVec 6) (xf : BitVec 3) (t : CopyTail)
  /-- TMAP (09 R204). -/
  | tmap (h : Hdr) (a : BitVec 7) (b : BitVec 6)
  /-- BARINIT (09 R206). -/
  | barinit (h : Hdr) (a : BitVec 7) (b : BitVec 6)
  /-- BARARR (09 R206). -/
  | bararr (h : Hdr) (d : BitVec 7) (b : BitVec 6)
  /-- BARWAIT (09 R207). -/
  | barwait (h : Hdr) (d : BitVec 7) (b : BitVec 6)
  /-- BARARRW (09 R206). -/
  | bararrw (h : Hdr) (d : BitVec 7) (b : BitVec 6)
  /-- FENCE at scope `s` (09 R209). -/
  | fence (h : Hdr) (s : BitVec 3)
  /-- FETCHW (09 R210). -/
  | fetchw (h : Hdr) (b : BitVec 6)
  /-- SLEEPUNTIL (08 R182). -/
  | sleepuntil (h : Hdr) (d a : BitVec 7) (b : BitVec 6)
  /-- CWAIT (09 R207). -/
  | cwait (h : Hdr) (d : BitVec 7) (b : BitVec 6)
  /-- MMA (10 R217). -/
  | mma (h : Hdr) (d a : BitVec 7) (b : BitVec 6) (t : BitVec 7) (z : Bool)
  /-- MMAP (10 R217). -/
  | mmap (h : Hdr) (d a : BitVec 7) (b : BitVec 6) (t : BitVec 7) (z : Bool)
  /-- MMAG.A (10 R217). -/
  | mmagA (h : Hdr) (a : BitVec 7) (b : BitVec 6) (t : BitVec 7) (cg : BitVec 6)
  /-- MMAG.K (10 R217). -/
  | mmagK (h : Hdr) (d : BitVec 7) (b : BitVec 6) (t : BitVec 7) (z : Bool) (cg : BitVec 6)
  /-- MBATCH (10 R218). -/
  | mbatch (h : Hdr) (d : BitVec 7) (b : BitVec 6)
  /-- MWAIT (10 R219). -/
  | mwait (h : Hdr) (a : BitVec 7)
  /-- TLD (10 R221). -/
  | tld (h : Hdr) (d t : BitVec 7) (b : BitVec 6)
  /-- TST (10 R221). -/
  | tst (h : Hdr) (d t : BitVec 7) (b : BitVec 6)
  /-- TZERO (10 R221). -/
  | tzero (h : Hdr) (t : BitVec 7)
  /-- TSTS (10 R221). -/
  | tsts (h : Hdr) (d t : BitVec 7) (b : BitVec 6)
  /-- TLD.P: the pair form (10 R221). -/
  | tldP (h : Hdr) (d t : BitVec 7) (b : BitVec 6)
  /-- TST.P: the pair form (10 R221). -/
  | tstP (h : Hdr) (d t : BitVec 7) (b : BitVec 6)
  /-- TZERO.P (10 R221). -/
  | tzeroP (h : Hdr) (t : BitVec 7)
  /-- TSTS.P (10 R221). -/
  | tstsP (h : Hdr) (d t : BitVec 7) (b : BitVec 6)
  /-- ROUTE (10 R222-R225). -/
  | route (h : Hdr) (d a : BitVec 7) (t : RouteTail)
  /-- XSLOT (10 R228). -/
  | xslot (h : Hdr) (d a : BitVec 7)
  /-- XREL (10 R229). -/
  | xrel (h : Hdr) (a : BitVec 7)
  /-- SPAN of block `k` (07 R157). -/
  | span (h : Hdr) (k : BitVec 12)
  /-- NEXT (07 R160). -/
  | next (h : Hdr)
  /-- JMP (07 R159). -/
  | jmp (h : Hdr) (b : BitVec 12)
  /-- BR on mask `k`, negated by `n` (07 R159). -/
  | br (h : Hdr) (k : BitVec 3) (n : Bool) (b : BitVec 12)
  /-- BRX (07 R159). -/
  | brx (h : Hdr) (s : BitVec 7)
  /-- CALL (07 R159). -/
  | call (h : Hdr) (b : BitVec 12)
  /-- RET (07 R159). -/
  | ret (h : Hdr)
  /-- EXIT (07 R159). -/
  | exit (h : Hdr)
  /-- ELECT (07 R162). -/
  | elect (h : Hdr) (k : BitVec 3)
  /-- SLEEP for `d` CYC (07 R163). -/
  | sleep (h : Hdr) (d : BitVec 21)
  /-- YIELD (07 R164). -/
  | yield (h : Hdr)
  /-- KAND (07 R165). -/
  | kand (h : Hdr) (d a b : BitVec 3)
  /-- KOR (07 R165). -/
  | kor (h : Hdr) (d a b : BitVec 3)
  /-- KXOR (07 R165). -/
  | kxor (h : Hdr) (d a b : BitVec 3)
  /-- KNOT (07 R165). -/
  | knot (h : Hdr) (d a : BitVec 3)
  /-- KMOV mode 0b00 (07 R165). -/
  | kmovMask (h : Hdr) (d a : BitVec 3)
  /-- KMOV mode 0b01 (07 R166). -/
  | kmovFromCell (h : Hdr) (d : BitVec 3) (s : BitVec 7)
  /-- KMOV mode 0b10 (07 R166). -/
  | kmovToSlices (h : Hdr) (a : BitVec 3) (s : BitVec 7)
  /-- KPOP (07 R166). -/
  | kpop (h : Hdr) (a : BitVec 3) (s : BitVec 7)
  /-- GATE (07 R167). -/
  | gate (h : Hdr) (i : BitVec 8)
  /-- GRET (07 R169). -/
  | gret (h : Hdr)
  /-- TRAP (18 R310). -/
  | trap (h : Hdr) (k : BitVec 16)
  /-- TRET (18 R311). -/
  | tret (h : Hdr)
  /-- CSRR (18 R313). -/
  | csrr (h : Hdr) (d : BitVec 7) (n : BitVec 6)
  /-- CSRW (18 R313). -/
  | csrw (h : Hdr) (a : BitVec 7) (n : BitVec 6)
  /-- MARK (18 R315). -/
  | mark (h : Hdr)
  /-- LOGW (18 R316). -/
  | logw (h : Hdr) (d a : BitVec 7)
  /-- BRK (18 R317). -/
  | brk (h : Hdr) (k : BitVec 13)
  /-- ICINV (18 R318). -/
  | icinv (h : Hdr)
  /-- TLBINV of a page (18 R319). -/
  | tlbinv (h : Hdr) (a : BitVec 7)
  /-- TLBINV.all (18 R319). -/
  | tlbinvAll (h : Hdr)
  /-- QPOST (18 R320). -/
  | qpost (h : Hdr) (b : BitVec 6)
  /-- CYC reaches a sleeping slot's wake time (07 R163). -/
  | sleepExpire (r : SlotRef)
  /-- A SLEEPUNTIL reaches its deadline (08 R182). -/
  | sleepuntilDeadline (r : SlotRef)
  /-- A waiting slot's object or batch completes (09 R207; 10 R219). -/
  | waitWake (r : SlotRef)
  /-- The oldest outstanding register write completes or is dropped (01 R36). -/
  | registerWriteback 
  /-- An evicted cell is refilled (01 R30). -/
  | cellRefill (wg g cell : Nat)
  /-- A queue slot is refilled from its ring (08 R191). -/
  | ringRefill (q : RingRef)
  /-- A copy's next burst commits (21 R328). -/
  | copyBurstCommit (req : Nat)
  /-- A copy retires (08 R179). -/
  | copyRetire (req : Nat)
  /-- The array executes the head of its queue (03 R65; 10 R217). -/
  | matrixExecute (core : BitVec 8)
  /-- A routing pass finishes (10 R224). -/
  | routePassRetire (req : Nat)
  /-- The distributor serves a FETCHW (06 R153). -/
  | fetchwHandover (req : Nat)
  /-- A launch becomes ready (15 R257). -/
  | launchReady (ctx : BitVec 6) (tag : Word)
  /-- The distributor places one workgroup (15 R261). -/
  | placement 
  /-- A launch completes (15 R258). -/
  | launchComplete (ctx : BitVec 6) (tag : Word)
  /-- A patch record takes effect (16 R286). -/
  | patchApply (ctx : BitVec 6) (id : Nat)
  /-- Host command LOAD in the context's mailbox (16 R275). -/
  | load (ctx : BitVec 6)
  /-- Host command START (15 R254). -/
  | start (ctx : BitVec 6)
  /-- Host command PATCH (16 R285). -/
  | patch (ctx : BitVec 6)
  /-- Host command STOP (17 R302). -/
  | stop (ctx : BitVec 6)
  /-- The save of a stopping context completes (17 R302). -/
  | stopComplete (ctx : BitVec 6)
  /-- Host command RESUME (17 R303). -/
  | resume (ctx : BitVec 6)
  /-- Host command UNLOAD (16 R284). -/
  | unload (ctx : BitVec 6)
  /-- Host command QUERY of an item with no row of its own (15 R254). -/
  | query (ctx : BitVec 6)
  /-- QUERY of the spill region or save area (16 R271). -/
  | queryRegion (ctx : BitVec 6)
  /-- QUERY of a block's counters (21 R336). -/
  | queryErrorCounters (ctx : BitVec 6)
  /-- QUERY of a lane-cycle bin (22 R341). -/
  | queryLaneCycleBin (ctx : BitVec 6)
  /-- QUERY of the sleep counter (22 R341). -/
  | querySleepCounter (ctx : BitVec 6)
  /-- QUERY that sets a lane-cycle bin (22 R341). -/
  | querySetBin (ctx : BitVec 6)
  /-- Host write of state active to a free block (17 R289). -/
  | contextCreate (ctx : BitVec 6)
  /-- Host write of state free to a stopped or ended block (17 R289). -/
  | contextDestroy (ctx : BitVec 6)
  /-- Host write to a window register (17 R288; 23 R355). -/
  | registerWrite (off : Nat) (size : WriteSize) (v : BitVec 64)
  /-- Host access through the aperture (23 R355). -/
  | hostApertureAccess (off : BitVec 32) (acc : ApertureAccess)
  /-- Host sets lcr (22 R341). -/
  | lcrEnable (ctx : BitVec 6)
  /-- Host writes a log tail (22 R339). -/
  | logTailWrite (ctx : BitVec 6) (k : BitVec 2) (v : Word)
  /-- Debug command STOPWG (22 R345). -/
  | stopwg (ctx : BitVec 6)
  /-- Debug command CONT (22 R346). -/
  | cont (ctx : BitVec 6)
  /-- Debug command STEP (22 R348). -/
  | step (ctx : BitVec 6)
  /-- Debug command PORT, reading (22 R347). -/
  | portRead (ctx : BitVec 6)
  /-- Debug command PORT, writing (22 R347). -/
  | portWrite (ctx : BitVec 6)
  /-- The target workgroup has halted (22 R345). -/
  | workgroupHalt (ctx : BitVec 6)
  /-- Host writes the message tail (23 R356). -/
  | messageTailWrite (v : Word)
  /-- SPDM GET_VERSION (23 R364). -/
  | getVersion 
  /-- SPDM GET_CAPABILITIES (23 R364). -/
  | getCapabilities 
  /-- SPDM NEGOTIATE_ALGORITHMS (23 R364). -/
  | negotiateAlgorithms 
  /-- SPDM GET_DIGESTS (23 R364). -/
  | getDigests 
  /-- SPDM GET_CERTIFICATE (23 R364). -/
  | getCertificate 
  /-- SPDM CHALLENGE (23 R364). -/
  | challenge (nonce : BitVec 256)
  /-- SPDM GET_MEASUREMENTS of one index (23 R365). -/
  | getMeasurements (index : BitVec 8)
  /-- Any other SPDM request (23 R364). -/
  | unsupportedRequest (code : BitVec 8)
  /-- An access arrives on a peer port (23 R360). -/
  | peerInboundAccess (port : BitVec 5) (acc : PeerAccess)
  /-- A peer port fails (23 R358). -/
  | peerPortDown (port : BitVec 5)
  /-- A transient fault strikes work in flight (21 R328-R331). -/
  | transientFault (t : FaultTarget)
  /-- An uncorrectable error in stored state is met (21 R333). -/
  | uncorrectableError (t : StoredState)
  /-- Firmware fences the core of a block (21 R338). -/
  | coreFence (block : Word)
  /-- A held arrival is admitted in replay mode (22 R353). -/
  | arrivalAdmit (ctx : BitVec 6) (unit : BitVec 10)
  /-- Reset, and the boot steps it runs (24 R366). -/
  | reset (b : BootInputs)
  /-- A die's clock steps down or up (24 R368). -/
  | throttle (die : BitVec 2) (lower : Bool)
  /-- Power is removed (24 R369). -/
  | powerRemove 
  /-- A peer port comes up (23 R358). -/
  | peerPortUp (port : BitVec 5)
  /-- A partition clock with no chain issued (22 R340). -/
  | partitionClock (core : BitVec 8) (part : BitVec 5)
  /-- Firmware changes a world (23 R362). -/
  | worldAssignmentChange (t : WorldTarget) (sec : Bool)
  deriving DecidableEq, Repr

end Sys2Proof
end

