-- ==== Sys2Proof/Machine/State.lean ====
section
/-! DEFINITION. The state of the KQ-192 as plain data, by span (00 R7, Table 00-3), what a step can stop with,
and the state right after reset (24 R366). Sparse tables are lists of keys and values: a key that is not listed
holds the table's default, which the field's docstring names. -/

namespace Sys2Proof.Machine

/-- Byte memory: (address, byte) pairs with strictly rising addresses, no byte equal to the value an unlisted
address reads as (which is 0, log entry 1). -/
abbrev Memory := List Host.Cell

/-- A table of values by a numeric key; an unlisted key holds the table's default. -/
abbrev Table (α : Type) := List (Nat × α)

/-! ## The issue span -/

/-- The operation result tag of a write (01 R26, R27): uniform, affine with its base and stride, or general. A write of
64 or 128 bits judges the cells that it covers whole by the sources instead (01 Table 01-3), so two more say where that
differs: `mixed`, a result tag U of which some source is not U, and `flat`, a result tag G whose sources are all U. -/
inductive OpTag where
  | u
  | a (base stride : Word)
  | g
  | mixed
  | flat
  deriving DecidableEq, Repr, Inhabited

/-- A register write on its way to the slices (01 R36): the group it belongs to with that group's generation, the
start slice and width in bits, each lane's value, the lanes it writes and the operation result tag. -/
structure RegWrite where
  wg : Nat
  g : Nat
  gen : BitVec 4
  slice : Nat
  width : Nat
  vals : List Nat
  lanes : Word
  tag : OpTag
  deriving DecidableEq, Repr, Inhabited

/-- The chain in issue: who issues it, where it starts, where the next chain starts, which instruction of the chain is
being executed (04 R81, R370), whether its issue has flipped the alternation bit (06 R142), and the watchpoints that the
instruction has hit so far (22 R344). -/
structure Issue where
  wg : Nat
  g : Nat
  slot : Bool
  addr : Word
  next : Word
  index : Nat
  offset : Nat
  flips : Bool
  fired : List Nat
  deriving DecidableEq, Repr, Inhabited

/-! ## The group span -/

/-- A 32-bit cell with its shape tag (01 R25): uniform, affine, or general with one value per lane. -/
inductive Cell where
  | u (v : Word)
  | a (base stride : Word)
  | g (lanes : List Word)
  deriving DecidableEq, Repr, Inhabited

/-- A cell in the register store: whether it has been evicted to its spill slot, and when it was last accessed
(01 R30). -/
structure StoredCell where
  cell : Cell
  evicted : Bool
  used : Nat
  deriving DecidableEq, Repr, Inhabited

/-- The SPAN in force in a slot (07 R157): its block and its predicate, if any, as mask number and negation. -/
structure SpanInfo where
  block : BitVec 12
  pred : Option (BitVec 3 × Bool)
  deriving DecidableEq, Repr, Inhabited

/-- What a slot sleeps in (06 R150). -/
inductive Wait where
  | awake
  | sleep
  | bar (obj : Word) (tok : Bool)
  | copy (obj : Word) (tok : Bool)
  | until (obj : Word) (tok : Bool)
  | matrix (batch : Word)
  deriving DecidableEq, Repr, Inhabited

/-- A sequencer slot (06 R134). `addr` is the next chain; a slot asleep in a wait keeps the wait's own chain in
`addr` and the chain after it in `resume` (06 R150). `span` and `afterTerm` are the SPAN in force at `addr` and
whether a terminator has followed it (07 R156). -/
structure Slot where
  state : BitVec 12
  addr : Word
  mask : Word
  moved : Word
  join : Option (BitVec 12)
  wake : BitVec 64
  wait : Wait
  resume : Word
  span : Option SpanInfo
  afterTerm : Bool
  deriving DecidableEq, Repr, Inhabited

/-- The trap record (17 Table 17-6). -/
structure TrapRec where
  lib : Bool
  slot : Bool
  word : BitVec 2
  cause : BitVec 8
  state : BitVec 12
  resume : Word
  lanes : Word
  detail : BitVec 64
  cyc : BitVec 64
  deriving DecidableEq, Repr, Inhabited

/-- A batch that MBATCH has closed and that has not retired (10 R213, R218): its number, its object, if any, and
whether the host has been told that a full log holds its arrival (22 R352). -/
structure Batch where
  number : Word
  obj : Option Word
  told : Bool
  deriving DecidableEq, Repr, Inhabited

/-- The library a group runs in (06 R145): its kernel, the lanes that are present to it, and the stack depth at the
GATE or trap delivery, where its frame lies (07 R168). `frame` holds the upper hardware group's share of the frame in
width mode 64, for which the frame in memory has no room (log entry 19). -/
structure Library where
  handle : BitVec 16
  kernel : Nat
  lanes : Word
  depth : Nat
  frame : List (BitVec 8)
  deriving DecidableEq, Repr, Inhabited

/-- What one agent of a hardware group holds: the group itself in width modes 32 and 64, one half-group in mode 16
(16 R280, R282). -/
structure Agent where
  seg : Word
  batch : Word
  openOps : Word
  closed : List Batch
  phases : Word
  trap : TrapRec
  tcause : Word
  depth : Nat
  library : Option Library
  logSeq : Nat
  engSeq : Nat
  reqSeq : Nat
  deriving DecidableEq, Repr, Inhabited

/-- An arrival that a unit has admitted in replay, while others of the chain that makes it are held (22 R353): the chain's
slot, whether it is a library's, and the register writes of the lanes that arrived there, which wait for the rest of the chain
(log entry 76). -/
structure Admitted where
  slot : Bool
  lib : Bool
  writes : List RegWrite
  deriving DecidableEq, Repr, Inhabited

/-- A resident hardware group (06 R134, 01 R35, R36). `cells` holds one cell for every eight slices of its budget (01 R13).
`index` counts hardware groups of the workgroup; `pair` says how the group stands in a paired group of mode 64: `none`, or
whether it is the upper one (16 R281). `entryMasks` holds, for an upper group, its lanes in the paired group's divergence-stack
entries, lowest entry first (log entry 19). `admitted` holds what units have admitted of its slots' next chains. -/
structure Group where
  index : Nat
  part : BitVec 5
  rslot : Nat
  core : BitVec 8
  gen : BitVec 4
  present : Word
  cells : List StoredCell
  masks : List Word
  cb0 : List (BitVec 16)
  cb1 : List (BitVec 16)
  lbr : List (BitVec 12)
  link : List (BitVec 12)
  parked : Word
  exited : Word
  slot0 : Option Slot
  slot1 : Option Slot
  alt : Bool
  agent0 : Agent
  agent1 : Agent
  spill : Nat
  pair : Option Bool
  entryMasks : List Word
  yielded : Bool
  admitted : List Admitted
  retired : Bool
  deriving DecidableEq, Repr, Inhabited

/-- A barrier lock of a workgroup (08 R185) with its arrival record (22 R347): the groups that have arrived in the
current phase, and the count of engine arrivals. -/
structure BarLock where
  addr : Word
  groups : BitVec 96
  engines : BitVec 16
  deriving DecidableEq, Repr, Inhabited

/-- How a debugger has stopped a workgroup (22 Table 22-1): st and why; the `cause` for which a stop is under way, which
becomes why when the workgroup has halted (R345); `prior`, the st and why that the debug block showed before; the object of a
STEP with the phase it was accepted in, and the groups that have halted in it, by `haltKey` (R348); and the group and slot whose
next chain is the BRK that stopped it, which CONT passes (R346). -/
structure DebugStop where
  st : BitVec 2
  why : BitVec 4
  cause : BitVec 4
  prior : BitVec 2 × BitVec 4
  stepObj : Option (Word × Bool)
  halted : List Nat
  brkAt : Option (Nat × Bool)
  deriving DecidableEq, Repr, Inhabited

/-- A workgroup that no debugger has stopped or steps. -/
def DebugStop.running : DebugStop :=
  { st := 0, why := 0, cause := 0, prior := (0, 0), stepObj := none, halted := [], brkAt := none }

/-- A placed workgroup (15 R262-R264). `uid` is the model's own name for it. Segments and tiles are held per core of the
workgroup in qcore order, the first alone used by a workgroup of one core; a tile is 4,096 bytes of `tiles`, at 4,096 times
its number. `follower` holds the follower halves of the pair tiles (03 R77). -/
structure Workgroup where
  uid : Nat
  ctx : BitVec 6
  tag : Word
  ordinal : Word
  coord : BitVec 64
  core : BitVec 8
  quad : Bool
  handle : BitVec 16
  kernel : Nat
  groups : List Group
  shared : Vector Memory 4
  tiles : Vector Memory 4
  follower : Memory
  bars : List BarLock
  stopped : DebugStop
  gone : Bool
  deriving DecidableEq, Repr, Inhabited

/-! ## Engine requests -/

/-- The kind of a range lock (08 R184). -/
inductive LockKind where
  | read | write | barrier
  deriving DecidableEq, Repr, Inhabited

/-- Who owns a range lock: an engine request, a matrix operation, or a workgroup's barrier object. -/
inductive LockOwner where
  | request (id : Nat)
  | matrix (id : Nat)
  | object (wg : Nat) (addr : Word)
  deriving DecidableEq, Repr, Inhabited

/-- The space of a byte: a shared segment of a workgroup by qcore, the scratchpad, a context's main memory by virtual
address, or the memory of a device number by physical address. -/
inductive Space where
  | shared (wg : Nat) (q : BitVec 2)
  | spad
  | main (ctx : BitVec 6)
  | phys (dev : Nat)
  deriving DecidableEq, Repr, Inhabited

/-- An entry of a core's range-lock table (08 R184): an inclusive byte range. -/
structure RangeLock where
  core : BitVec 8
  space : Space
  lo : Nat
  hi : Nat
  kind : LockKind
  owner : LockOwner
  deriving DecidableEq, Repr, Inhabited

/-- An endpoint of a copy as read at issue (09 R201): a tensor-map box, or a dense run. The space code is that of
the tensor map: 0 main, 1 scratchpad, 2 shared. -/
inductive Endpoint where
  | box (map : BitVec 1024) (origin : List Word)
  | dense (space : BitVec 2) (addr : Nat) (efmt : BitVec 4) (count : Nat)
  deriving DecidableEq, Repr, Inhabited

/-- The transform of a copy with its auxiliary endpoints as read at issue (09 R202). -/
inductive Transform where
  | plain
  | expand (space : BitVec 2) (aux : Nat)
  | scaled (sspace dspace : BitVec 2) (sauxs dauxs : Nat) (blen sfmt : BitVec 2)
  | convert (sat : Bool)
  | reduceAdd
  deriving DecidableEq, Repr, Inhabited

/-- What an engine request does. -/
inductive Work where
  | copy (src dst : Endpoint) (xf : Transform)
  | route (map : BitVec 1024) (cells : List Word) (k depth : Nat)
  | fetch (obj : Word)
  deriving DecidableEq, Repr, Inhabited

/-- Where a request stands: in its queue, in the overflow ring, parked on a translation fault with its kind, finished with its
retirement held by a full copy-completion log, or retired with its arrival held at the object's unit, where `told` says
whether the host has been told that a full log holds it (22 R352, R353). -/
inductive ReqStatus where
  | queued
  | ring
  | parked (kind : BitVec 8)
  | finished
  | retired (told : Bool)
  deriving DecidableEq, Repr, Inhabited

/-- A cached translation of a die (17 R293): context, 64 KiB virtual page, and the leaf it maps to with the page
shift of that leaf. -/
structure Cached where
  die : BitVec 2
  ctx : BitVec 6
  page : Nat
  leaf : BitVec 64
  shift : Nat
  deriving DecidableEq, Repr, Inhabited

/-- An engine request in flight with its record (21 R327). `done` counts the elements committed; `fails` the
successive failures of the current replay unit (21 R331); `fired` lists the watchpoints it has hit (22 R344); `leaves`
holds the translations that an invalidation after its issue has left to it (18 R319). -/
structure Request where
  id : Nat
  ctx : BitVec 6
  wg : Nat
  tag : Word
  ordinal : Word
  group : Nat
  agent : Bool
  core : BitVec 8
  die : BitVec 2
  bar : Word
  promise : BitVec 64
  cells : List Word
  work : Work
  done : Nat
  fails : Nat
  fired : List Nat
  seq : Nat
  status : ReqStatus
  leaves : List Cached
  deriving DecidableEq, Repr, Inhabited

/-- The gather data of MMAG.A and MMAG.K as read at issue (10 R216). -/
structure Gather where
  rbase : Word
  rstride : Nat
  list : List (BitVec 16)
  weights : Option (List Word)
  rowbase : Nat
  deriving DecidableEq, Repr, Inhabited

/-- A matrix operation in its core's queue with everything read at issue (21 Table 21-1). `group` and `agent` name the
hardware group and half that issued it, `batch` is the number its batch is closed under, `sub` is sub5. The fragments hold 512
bits a lane; `sa` and `sb` are the scale elements row by row, for MMAG.A by list position; `failCols` lists the columns that
failed its executions so far, by block identifier (21 R331, R337); `fired` lists the watchpoints it has hit (22 R344). -/
structure MatOp where
  id : Nat
  ctx : BitVec 6
  wg : Nat
  tag : Word
  ordinal : Word
  group : Nat
  agent : Bool
  core : BitVec 8
  batch : Word
  sub : BitVec 5
  tile : Nat
  z : Bool
  fblock : List Word
  gcells : List Word
  afrag : List (BitVec 512)
  bfrag : List (BitVec 512)
  bfrag2 : List (BitVec 512)
  cbA : List (BitVec 16)
  cbB : List (BitVec 16)
  sa : List (BitVec 16)
  sb : List (BitVec 16)
  gather : Option Gather
  failCols : List Word
  fired : List Nat
  inRing : Bool
  deriving DecidableEq, Repr, Inhabited

/-- An exact accumulator (09 R197): the context that holds it, and the space, address and format of the word or element
it stands for. `sum` counts units of 2^-149. -/
structure Accumulator where
  ctx : BitVec 6
  space : Space
  addr : Nat
  efmt : BitVec 4
  sum : Int
  nan : Bool
  posInf : Bool
  negInf : Bool
  allNegZero : Bool
  deriving DecidableEq, Repr, Inhabited

/-! ## The context span -/

/-- A role class of a kernel header (16 Table 16-4). -/
structure Role where
  first : Nat
  last : Nat
  budget : Nat
  deriving DecidableEq, Repr, Inhabited

/-- A block-table entry (06 Table 06-1). -/
structure BlockEntry where
  join : Bool
  fall : BitVec 12
  single : BitVec 12
  deriving DecidableEq, Repr, Inhabited

/-- A state record (06 Table 06-2): its code as 32-bit words, its join, its candidates, its sorted set and its
mapped successors by vote pattern. -/
structure StateRec where
  code : List Word
  join : Option (BitVec 12)
  cands : List (BitVec 12)
  set : List (BitVec 12)
  succ : Table (BitVec 12)
  deriving DecidableEq, Repr, Inhabited

/-- A kernel as loaded (16 Table 16-4; 06 R130-R132). -/
structure Kernel where
  wmode : BitVec 2
  quad : Bool
  ordr : Bool
  cb0 : Bool
  cb1 : Bool
  slices : Nat
  dstack : Nat
  roles : List Role
  shared : Nat
  tiles : Nat
  ptiles : Nat
  nbar : Nat
  stack : Nat
  widths : List Nat
  entry : BitVec 12
  blocks : List BlockEntry
  states : List StateRec
  sets : List (Option (BitVec 12))
  deriving DecidableEq, Repr, Inhabited

/-- A launch record (15 Table 15-3) without its must-be-zero fields. -/
structure LaunchRec where
  queue : Nat
  prio : BitVec 2
  op : BitVec 4
  handle : BitVec 16
  kernel : Nat
  ext : List Nat
  threads : Nat
  preds : List Word
  tag : Word
  deriving DecidableEq, Repr, Inhabited

/-- A region record (16 Table 16-2). `base` is the virtual address, or the byte in the die's scratchpad, at which
the region lies once placed, and `phys` the physical address in this device's HBM that the loader has mapped there. -/
structure Region where
  kind : BitVec 8
  sub : BitVec 8
  sec : Bool
  r : Bool
  w : Bool
  size : Nat
  base : Nat
  phys : Nat
  handle : Option (BitVec 16)
  bytes : List (BitVec 8)
  deriving DecidableEq, Repr, Inhabited

/-- A loaded Locket (16 R267): its image as loaded, and what the loader read from it. -/
structure Locket where
  handle : BitVec 16
  dbg : Bool
  image : List (BitVec 8)
  kernels : List Kernel
  graphs : List (List LaunchRec)
  deriving DecidableEq, Repr, Inhabited

/-- The state of a launch (15 R258). A patch operation is a launch record of op 0x2. -/
inductive LaunchState where
  | waiting | ready | running | complete
  deriving DecidableEq, Repr, Inhabited

/-- A queue operation of a context (15 R256-R258, R265). `taken` counts the ordinals taken; `order` is its place in
its queue, `graph` the graph it belongs to, `patch` the bytes of a patch operation with their image offset, and `ringAt`
when it was appended to the launch ring. -/
structure Launch where
  record : LaunchRec
  state : LaunchState
  taken : Nat
  order : Nat
  graph : Option Nat
  patch : Option (Nat × List (BitVec 8))
  inRing : Bool
  ringAt : Nat
  readyAt : Nat
  deriving DecidableEq, Repr, Inhabited

/-- A graph that START has entered (15 R255): Locket, graph index, and the tags of its launches. -/
structure GraphRun where
  id : Nat
  handle : BitVec 16
  index : Nat
  tags : List Word
  deriving DecidableEq, Repr, Inhabited

/-- A log of a context (18 Table 18-3; 22 R350-R354): records written, records drained, records available for
replay and records consumed in replay (by index). -/
structure Log where
  head : Word
  tail : Word
  rcount : Word
  used : List Nat
  ended : Bool
  deriving DecidableEq, Repr, Inhabited

/-- An expert slot (10 R227). -/
structure ExpertSlot where
  valid : Bool
  layer : BitVec 16
  expert : BitVec 16
  pins : BitVec 16
  deriving DecidableEq, Repr, Inhabited

/-- A lane-cycle bin (22 R341): its range and its five class counters. -/
structure Bin where
  range : BitVec 64
  counts : List (BitVec 64)
  deriving DecidableEq, Repr, Inhabited

/-- The debug block (22 Table 22-1), less st, why and widx, which the target workgroup's stop gives. -/
structure Debug where
  lcr : Bool
  hold : Bool
  cmd : BitVec 4
  wtag : Word
  word : Word
  err : Bool
  widx : BitVec 8
  st : BitVec 2
  why : BitVec 4
  sobj : Word
  paddr : BitVec 64
  pdata : BitVec 64
  wps : List (BitVec 128)
  hits : List Word
  tbytes : BitVec 64
  ebytes : BitVec 64
  trbytes : BitVec 64
  deriving DecidableEq, Repr, Inhabited

/-- The state of a context (17 R287). -/
inductive CtxState where
  | free | active | stopped | ended
  deriving DecidableEq, Repr, Inhabited

/-- The command mailbox of a context number (15 Table 15-1): bytes 0 to 63 as written, the response, the 64 bytes of the
command that runs, if one does, and whether a doorbell has been dropped since it was accepted. -/
structure Mailbox where
  cmd : List (BitVec 8)
  status : BitVec 16
  seq : BitVec 8
  code : BitVec 8
  ovr : Bool
  results : List (BitVec 8)
  running : Option (List (BitVec 8))
  dropped : Bool
  deriving DecidableEq, Repr, Inhabited

/-- One context number: its control block (17 Table 17-1), gate table, debug block and mailbox, and what the context holds.
Tensor maps, gate entries and tables of bins list only entries that are not zero. `rings` counts the records appended to the
matrix, copy and launch rings (08 R191), `fcyc` is the CYC of the last context fault (17 R301), `tables` lists the translation
tables that the loader has made, by physical address and size (16 R268). -/
structure Context where
  state : CtxState
  sec : Bool
  replay : Bool
  ordr : Bool
  root : BitVec 64
  fcause : BitVec 8
  fdetail : Word
  faddr : BitVec 64
  fcyc : BitVec 64
  pmiss : BitVec 64
  taddr : BitVec 64
  tdie : BitVec 2
  tkind : BitVec 8
  attest : BitVec 512
  fmode : Word
  fflags : Word
  layer : Word
  tmaps : Table (BitVec 1024)
  gates : Table (BitVec 64)
  dbgBlock : Debug
  mailbox : Mailbox
  lockets : List Locket
  regions : List Region
  experts : Table (List ExpertSlot)
  launches : List Launch
  graphs : List GraphRun
  nextOrder : Nat
  logP : Log
  logA : Log
  logC : Log
  logT : Log
  bins : Table Bin
  waitCounts : List (BitVec 64)
  rings : List Nat
  tables : List (Nat × Nat)
  stopping : Bool
  saved : List Workgroup
  savedReqs : List Request
  deriving DecidableEq, Repr, Inhabited

/-! ## The device span -/

/-- A packet that a core has cached (18 R318): the Locket, kernel, state and packet number it was fetched from, and its
words. -/
structure CachedPacket where
  core : BitVec 8
  ctx : BitVec 6
  handle : BitVec 16
  kernel : Nat
  state : BitVec 12
  packet : Nat
  words : List Word
  deriving DecidableEq, Repr, Inhabited

/-- A host message (23 Table 23-3). -/
structure Message where
  type : BitVec 8
  ctx : BitVec 6
  code : BitVec 16
  detail : Word
  cyc : BitVec 64
  deriving DecidableEq, Repr, Inhabited

/-- Boot progress (24 R366, R367): the step running, or that halted; 15 when the boot has ended. `found` is what the steps
find, once a reset has given it. -/
structure Boot where
  step : BitVec 4
  halt : Bool
  found : Option BootInputs
  deriving DecidableEq, Repr, Inhabited

/-- The last answer of the SPDM responder (23 R364). -/
inductive SpdmAnswer where
  | none
  | version (bytes : List (BitVec 8))
  | capabilities (bytes : List (BitVec 8))
  | algorithms (signature hash : String)
  | digests (bytes : List (BitVec 8))
  | certificate (bytes : List (BitVec 8))
  | challengeAuth (signature : List (BitVec 8))
  | measurements (index : BitVec 8) (raw : BitVec 512)
  | unsupportedRequest (code : BitVec 8)
  deriving DecidableEq, Repr, Inhabited

/-- The part of an array that repair changes (21 R337): the columns remapped, each to a spare of its own, and whether it
runs in reduced-array mode (03 R75). -/
structure ArrayState where
  columns : List (BitVec 8)
  reduced : Bool
  deriving DecidableEq, Repr, Inhabited

/-- A launch record posted by QPOST in the current CYC, with the place of its group (18 R320). -/
structure Post where
  ctx : BitVec 6
  core : BitVec 8
  part : BitVec 5
  record : LaunchRec
  deriving DecidableEq, Repr, Inhabited

/-- Error counters of a block (21 R336). -/
structure Counters where
  corrected : BitVec 64
  replays : BitVec 64
  uncorrectable : BitVec 64
  deriving DecidableEq, Repr, Inhabited

/-- The device. `tick` is the model's own: it indexes free values. `cyc` is the counter of all four dies (00 R5; log entry 68).
`outbox` holds the messages and `posts` the posted records of the current CYC, `irqs` the new heads that interrupt messages
carried to the host when the last messages were written (23 R356), and `lost` the places whose stored state an error has
made unreadable (21 R333). `powers` holds the package power of the last 2^20 CYC, newest first: from and to which CYC, and
the mW, whose mean is the register `power` (24 Table 24-2). `released` and `releasedOps` hold the requests and the executing
matrix operations of the contexts that have ended in the current CYC, which a second fault of that CYC may still strike
(21 Table 21-3a). `throttled` counts the CYC spent throttled, whose bits
47:16 are the register thr (24 Table 24-2); `apData` is what the last read through the aperture gave, and `inbound` what the
last access on a peer port was answered with, `none` when it was refused. Defaults of the tables: `pointers` 11 (06 R149),
`gens` 0, `arrays` no spare in use and not reduced, `counters` zero, `windows` zero. Core numbers are those of
%core bits 7:0. -/
structure Device where
  tick : Nat
  cyc : BitVec 64
  powered : Bool
  boot : Boot
  power : BitVec 64
  powers : List (Nat × Nat × Nat)
  temp : List (BitVec 16)
  clk : List (BitVec 16)
  throttled : BitVec 64
  enabled : List (BitVec 8)
  fenced : List (BitVec 8)
  arrays : Table ArrayState
  counters : Table Counters
  secBlocks : List Word
  secRanges : List (Nat × Nat)
  firmware : BitVec 512
  policy : BitVec 512
  repairMap : BitVec 512
  hbm : Memory
  host : Memory
  peers : Table Memory
  spad : Memory
  pointers : Table Nat
  gens : Table (BitVec 4)
  writes : List RegWrite
  tlb : List Cached
  packets : List CachedPacket
  locks : List RangeLock
  requests : List Request
  matrix : List MatOp
  released : List Request
  releasedOps : List MatOp
  accs : List Accumulator
  wgs : List Workgroup
  ready : List (List (BitVec 6 × Word))
  ring : BitVec 64
  msgHead : Word
  msgTail : Word
  held : List Message
  outbox : List Message
  irqs : List Word
  posts : List Post
  lost : List StoredPlace
  aperture : BitVec 64
  apData : List (BitVec 8)
  inbound : Option (List (BitVec 8))
  ports : Word
  windows : Table (BitVec 256)
  spdm : SpdmAnswer
  contexts : Table Context
  nextId : Nat
  deriving DecidableEq, Repr, Inhabited

/-- Which agent moves in the next step (the model's own): the host, a partition of a core, the CYC clock, or a
device event. -/
inductive Turn where
  | host
  | partition (core : BitVec 8) (part : BitVec 5)
  | clock
  | event (i : Instr)
  deriving DecidableEq, Repr, Inhabited

/-- The machine: the device, the chain in issue (the issue span), the operands a chain of several instructions
reads (the device as it stood before the chain, 01 R23), the agent that moves next and the host's inputs, oldest
first. -/
structure State where
  dev : Device
  issue : Option Issue
  latch : Option Device
  turn : Turn
  inputs : List Instr
  deriving DecidableEq, Repr, Inhabited

/-! ## How a step can stop -/

/-- Why a step stops with a fault. -/
inductive Fault where
  /-- `exec` of an instruction word when no resident group is issuing it. Safe: the hardware has no such event, so no
  claim about a run can rest on it. -/
  | noIssuer
  /-- A step of a device whose power has been removed (24 R369). Safe: the device span has ended, and only the next
  power-on, a RESET, starts it again. -/
  | noPower
  deriving DecidableEq, Repr, Inhabited

/-- Why an instruction has no meaning here. -/
inductive Refusal where
  /-- Raised by `exec` for an instruction that has no meaning in the model yet. Safe: the machine stops. -/
  | notModelled (mnemonic : String)
  deriving DecidableEq, Repr, Inhabited

/-! ## Reset -/

/-- An empty log. -/
def Log.empty : Log := { head := 0, tail := 0, rcount := 0, used := [], ended := false }

/-- The debug block as destruction leaves it (22 R339). -/
def Debug.zero : Debug :=
  { lcr := false, hold := false, cmd := 0, wtag := 0, word := 0, err := false, widx := 0, st := 0, why := 0,
    sobj := 0, paddr := 0, pdata := 0, wps := [0, 0, 0, 0], hits := [0, 0, 0, 0], tbytes := 0, ebytes := 0,
    trbytes := 0 }

/-- An empty mailbox. -/
def Mailbox.zero : Mailbox :=
  { cmd := [], status := 0, seq := 0, code := 0, ovr := false, results := [], running := none, dropped := false }

/-- A context number that holds no context (17 R287). -/
def Context.free : Context :=
  { state := .free, sec := false, replay := false, ordr := false, root := 0, fcause := 0, fdetail := 0, faddr := 0, fcyc := 0,
    pmiss := 0, taddr := 0, tdie := 0, tkind := 0, attest := 0, fmode := 0, fflags := 0, layer := 0, tmaps := [],
    gates := [], dbgBlock := Debug.zero, mailbox := Mailbox.zero, lockets := [], regions := [], experts := [],
    launches := [], graphs := [], nextOrder := 0, logP := Log.empty, logA := Log.empty, logC := Log.empty,
    logT := Log.empty, bins := [], waitCounts := [0, 0, 0], rings := [0, 0, 0],
    tables := [], stopping := false, saved := [], savedReqs := [] }

/-- The device when reset is released: CYC 0, boot step 1 running (24 R366), nothing enabled, loaded or placed. -/
def Device.reset : Device :=
  { tick := 0, cyc := 0, powered := true, boot := { step := 1, halt := false, found := none }, power := 0, powers := [], temp := [0, 0, 0, 0],
    clk := [1900, 1900, 1900, 1900], throttled := 0, enabled := [], fenced := [], arrays := [], counters := [],
    secBlocks := [], secRanges := [], firmware := 0, policy := 0, repairMap := 0, hbm := [], host := [], peers := [],
    spad := [], pointers := [], gens := [], writes := [], tlb := [], packets := [], locks := [],
    requests := [], matrix := [], released := [], releasedOps := [], accs := [], wgs := [], ready := [[], [], [], []], ring := 0, msgHead := 0,
    msgTail := 0, held := [], outbox := [], irqs := [], posts := [], lost := [], aperture := 0, apData := [], inbound := none, ports := 0, windows := [], spdm := .none, contexts := [], nextId := 0 }

/-- The machine right after reset. The boot has not ended, so the first thing that can happen is the boot itself
(`Instr.reset`, whose operands say what its steps find), and nothing issues before a context is created, a Locket
loaded, a graph started and a workgroup placed. -/
def State.reset : State :=
  { dev := Device.reset, issue := none, latch := none, turn := .host, inputs := [] }

end Sys2Proof.Machine
end

