-- ==== Sys2Proof/Machine/Bits.lean ====
section
/-! DEFINITION. Bits, lanes, widths and tables: the small helpers every operation uses. -/

namespace Sys2Proof.Machine

/-! ## Numbers as fields -/

/-- The low `w` bits of a natural number. -/
def lowN (v w : Nat) : Nat := v % 2 ^ w

/-- The low `w` bits of an integer (02 R40: the result without .sat). -/
def lowI (v : Int) (w : Nat) : Nat := (v % (2 ^ w : Nat)).toNat

/-- The exact integer of a `w`-bit field, signed or not (05 R98, `ext`). -/
def extI (v w : Nat) (signed : Bool) : Int :=
  if signed && decide (2 ^ (w - 1) ≤ lowN v w) then (lowN v w : Int) - (2 ^ w : Nat) else (lowN v w : Int)

/-- Bit `i` of a number. -/
def bitN (v i : Nat) : Bool := v / 2 ^ i % 2 == 1

/-- Bits `lo + n - 1` to `lo` of a number. -/
def bitsN (v lo n : Nat) : Nat := v / 2 ^ lo % 2 ^ n

/-- `v` with bit `i` made `b`. -/
def setBitN (v i : Nat) (b : Bool) : Nat :=
  v - (if bitN v i then 2 ^ i else 0) + (if b then 2 ^ i else 0)

/-- `v` with the `n` bits from `lo` replaced by the low `n` bits of `x`. -/
def putBitsN (v lo n x : Nat) : Nat := v - bitsN v lo n * 2 ^ lo + lowN x n * 2 ^ lo

/-- A value clamped to the signed or unsigned range of width `w` (01 R20). -/
def clampI (v : Int) (w : Nat) (signed : Bool) : Int :=
  if signed then max (-(2 ^ (w - 1) : Nat)) (min v ((2 ^ (w - 1) : Nat) - 1))
  else max 0 (min v ((2 ^ w : Nat) - 1))

/-- The number of 1 bits among the low `w` bits of `v` (05 Table 05-6). -/
def popcountN (v : Nat) : Nat → Nat
  | 0 => 0
  | w + 1 => popcountN v w + (if bitN v w then 1 else 0)

/-- The number of leading zero bits of `v` at width `w`; `w` when `v` is 0 (05 Table 05-6). -/
def clzN (v : Nat) : Nat → Nat
  | 0 => 0
  | w + 1 => if bitN v w then 0 else 1 + clzN v w

/-- `v` at width `w` with bit `j` moved to bit `w - 1 - j` (05 Table 05-6): the bits below `n` are placed. -/
def brevN (v w : Nat) : Nat → Nat
  | 0 => 0
  | n + 1 => brevN v w n + (if bitN v n then 2 ^ (w - 1 - n) else 0)

/-- `n` rounded up to a multiple of `m`. -/
def roundUp (n m : Nat) : Nat := (n + m - 1) / m * m

/-! ## Width codes -/

/-- The width in bits of a width code (01 Table 01-1). -/
def widthOf (w : BitVec 3) : Nat :=
  match w.toNat with
  | 0 => 4
  | 1 => 8
  | 2 => 12
  | 3 => 16
  | 4 => 24
  | 5 => 32
  | 6 => 64
  | _ => 128

/-- The effective slice number of an operand: its high field above its 7-bit field (01 R17). -/
def sliceOf (hi : BitVec 2) (lo : BitVec 7) : Nat := hi.toNat * 128 + lo.toNat

/-! ## Lanes -/

/-- The lane numbers of a group. -/
def allLanes : List Nat := List.range 32

/-- Whether a mask holds lane `i`. -/
def hasLane (m : Word) (i : Nat) : Bool := bitN m.toNat i

/-- The lanes of a mask, in increasing order. -/
def lanesOf (m : Word) : List Nat := allLanes.filter (hasLane m)

/-- The mask of the lanes that satisfy `p`. -/
def maskOf (p : Nat → Bool) : Word :=
  BitVec.ofNat 32 (allLanes.foldl (fun acc i => if p i then acc + 2 ^ i else acc) 0)

/-- The lowest lane of a mask. -/
def lowestLane (m : Word) : Option Nat := (lanesOf m).head?

/-- The value of lane `i` in a list of lane values. -/
def laneVal (vals : List Nat) (i : Nat) : Nat := vals.getD i 0

/-- One value for every lane. -/
def everyLane (v : Nat) : List Nat := allLanes.map (fun _ => v)

/-- A per-lane value for every lane. -/
def perLane (f : Nat → Nat) : List Nat := allLanes.map f

/-! ## Lists and tables -/

/-- The list with its element `n` replaced. -/
def setAt {α : Type} : List α → Nat → α → List α
  | [], _, _ => []
  | _ :: t, 0, v => v :: t
  | h :: t, n + 1, v => h :: setAt t n v

/-- The list with `f` applied to its element `n`. -/
def modAt {α : Type} : List α → Nat → (α → α) → List α
  | [], _, _ => []
  | h :: t, 0, f => f h :: t
  | h :: t, n + 1, f => h :: modAt t n f

/-- The entry of a core of a workgroup, by its qcore index. -/
def perCore {α : Type} (v : Vector α 4) (q : Nat) : α := v.get (Fin.ofNat 4 q)

/-- The entry of a core changed. -/
def modCore {α : Type} (v : Vector α 4) (q : Nat) (f : α → α) : Vector α 4 :=
  v.set (q % 4) (f (perCore v q)) (Nat.mod_lt q (by decide))

/-- The value of a key in a table, or the default. -/
def tableGet {α : Type} (d : α) : Table α → Nat → α
  | [], _ => d
  | (k, v) :: t, n => if k = n then v else tableGet d t n

/-- The table with the value of a key set. -/
def tableSet {α : Type} : Table α → Nat → α → Table α
  | [], n, v => [(n, v)]
  | (k, w) :: t, n, v =>
    if k = n then (k, v) :: t else if n < k then (n, v) :: (k, w) :: t else (k, w) :: tableSet t n v

/-- The first `n` elements, filled up with `d`. -/
def takePad {α : Type} (d : α) (l : List α) (n : Nat) : List α := (List.range n).map (fun i => l.getD i d)

/-- The elements of `l` from position `i`, `n` of them, filled up with `d`. -/
def slicePad {α : Type} (d : α) (l : List α) (i n : Nat) : List α := takePad d (l.drop i) n

/-- `l` with the elements from position `i` replaced by `new` (within the length of `l`). -/
def overwrite {α : Type} : List α → Nat → List α → List α
  | [], _, _ => []
  | l, _, [] => l
  | _ :: t, 0, n :: ns => n :: overwrite t 0 ns
  | h :: t, i + 1, ns => h :: overwrite t i ns

/-! ## Bytes -/

/-- The little-endian number of a list of bytes (02 R39). -/
def bytesToNat : List (BitVec 8) → Nat
  | [] => 0
  | b :: t => b.toNat + 256 * bytesToNat t

/-- The `n` little-endian bytes of a number (02 R39). -/
def natToBytes (v : Nat) : Nat → List (BitVec 8)
  | 0 => []
  | n + 1 => BitVec.ofNat 8 v :: natToBytes (v / 256) n

/-- The `n`-byte little-endian number at an offset of a list of bytes; bytes beyond its end read 0. -/
def leAt (l : List (BitVec 8)) (off n : Nat) : Nat := bytesToNat (slicePad 0 l off n)

end Sys2Proof.Machine
end

