-- ==== Sys2Proof/WellFormed.lean ====
section
/-! DEFINITION. Well-formed instructions: every check that an instruction's own words decide (04 R371) by their
fields alone: the must-be-zero fields and reserved codes of 04 R85 to R89, the widths and types of 05 Table 05-1,
and the ILLEGAL checks that the entries make on fields of their words. A check that needs the kernel, the group or
the privilege stands in the instruction's meaning. -/

namespace Sys2Proof

open Sys2Proof.Machine (widthOf)

/-! ## Parts of an instruction -/

/-- The four pipes (04 R82). -/
inductive Pipe where
  | alu | lx | eng | seq
  deriving DecidableEq, Repr, Inhabited

/-- The header of an instruction word; `none` for NOP, which takes no EXT, and for events. -/
def Instr.hdr (i : Instr) : Option Hdr :=
  match i with
  | .nop _ => none
  | .iadd h .. | .isub h .. | .imul h .. | .imulh h .. | .imad h .. | .imin h .. | .imax h .. | .isad h ..
  | .and h .. | .or h .. | .xor h .. | .andn h .. | .shl h .. | .shr h .. | .rotl h .. | .bfe h .. | .bfi h ..
  | .sel h .. | .icmp h .. | .iabs h .. | .ineg h .. | .not h .. | .popc h .. | .clz h .. | .brev h .. | .mov h ..
  | .tag h .. | .rdsp h .. | .wrsp h .. | .iaddi h .. | .shli h .. | .shri h .. | .andi h .. | .icmpi h ..
  | .movi h .. | .movhi h .. | .fadd h .. | .fsub h .. | .fmul h .. | .ffma h .. | .fmin h .. | .fmax h ..
  | .fcmp h .. | .fabs h .. | .fneg h .. | .frnd h .. | .rcp h .. | .rsqrt h .. | .sqrt h .. | .exp2 h ..
  | .log2 h .. | .sin h .. | .cos h .. | .tanh h .. | .cvt h .. | .cvq h .. | .cbld h .. | .cbx h .. | .shfl h ..
  | .shflp h .. | .shflx h .. | .voteAny h .. | .voteAll h .. | .voteBal h .. | .reduInt h .. | .reduFloat h ..
  | .scanInt h .. | .scanFloat h .. | .nzscan h .. | .seg h .. | .lds h .. | .sts h .. | .ldx h .. | .stx h ..
  | .ldk h .. | .stk h .. | .atomS h .. | .atomX h .. | .red h .. | .copy h .. | .copyt h .. | .tmap h ..
  | .barinit h .. | .bararr h .. | .barwait h .. | .bararrw h .. | .fence h .. | .fetchw h .. | .sleepuntil h ..
  | .cwait h .. | .mma h .. | .mmap h .. | .mmagA h .. | .mmagK h .. | .mbatch h .. | .mwait h .. | .tld h ..
  | .tst h .. | .tzero h .. | .tsts h .. | .tldP h .. | .tstP h .. | .tzeroP h .. | .tstsP h .. | .route h ..
  | .xslot h .. | .xrel h .. | .span h .. | .next h | .jmp h .. | .br h .. | .brx h .. | .call h .. | .ret h
  | .exit h | .elect h .. | .sleep h .. | .yield h | .kand h .. | .kor h .. | .kxor h .. | .knot h ..
  | .kmovMask h .. | .kmovFromCell h .. | .kmovToSlices h .. | .kpop h .. | .gate h .. | .gret h | .trap h ..
  | .tret h | .csrr h .. | .csrw h .. | .mark h | .logw h .. | .brk h .. | .icinv h | .tlbinv h .. | .tlbinvAll h
  | .qpost h .. => some h
  | .sleepExpire .. | .sleepuntilDeadline .. | .waitWake .. | .registerWriteback | .cellRefill .. | .ringRefill ..
  | .copyBurstCommit .. | .copyRetire .. | .matrixExecute .. | .routePassRetire .. | .fetchwHandover ..
  | .launchReady .. | .placement | .launchComplete .. | .patchApply .. | .load .. | .start .. | .patch ..
  | .stop .. | .stopComplete .. | .resume .. | .unload .. | .query .. | .queryRegion .. | .queryErrorCounters ..
  | .queryLaneCycleBin .. | .querySleepCounter .. | .querySetBin .. | .contextCreate .. | .contextDestroy ..
  | .registerWrite .. | .hostApertureAccess .. | .lcrEnable .. | .logTailWrite .. | .stopwg .. | .cont ..
  | .step .. | .portRead .. | .portWrite .. | .workgroupHalt .. | .messageTailWrite .. | .getVersion
  | .getCapabilities | .negotiateAlgorithms | .getDigests | .getCertificate | .challenge .. | .getMeasurements ..
  | .unsupportedRequest .. | .peerInboundAccess .. | .peerPortDown .. | .transientFault ..
  | .uncorrectableError .. | .coreFence .. | .arrivalAdmit .. | .reset .. | .throttle .. | .powerRemove
  | .peerPortUp .. | .partitionClock .. | .worldAssignmentChange .. => none

/-- Whether the opcode-table row is an instruction word, and not an event (95). -/
def Instr.isWord (i : Instr) : Bool :=
  match i with
  | .nop _ => true
  | .iadd .. | .isub .. | .imul .. | .imulh .. | .imad .. | .imin .. | .imax .. | .isad .. | .and .. | .or ..
  | .xor .. | .andn .. | .shl .. | .shr .. | .rotl .. | .bfe .. | .bfi .. | .sel .. | .icmp .. | .iabs ..
  | .ineg .. | .not .. | .popc .. | .clz .. | .brev .. | .mov .. | .tag .. | .rdsp .. | .wrsp .. | .iaddi ..
  | .shli .. | .shri .. | .andi .. | .icmpi .. | .movi .. | .movhi .. | .fadd .. | .fsub .. | .fmul .. | .ffma ..
  | .fmin .. | .fmax .. | .fcmp .. | .fabs .. | .fneg .. | .frnd .. | .rcp .. | .rsqrt .. | .sqrt .. | .exp2 ..
  | .log2 .. | .sin .. | .cos .. | .tanh .. | .cvt .. | .cvq .. | .cbld .. | .cbx .. | .shfl .. | .shflp ..
  | .shflx .. | .voteAny .. | .voteAll .. | .voteBal .. | .reduInt .. | .reduFloat .. | .scanInt ..
  | .scanFloat .. | .nzscan .. | .seg .. | .lds .. | .sts .. | .ldx .. | .stx .. | .ldk .. | .stk .. | .atomS ..
  | .atomX .. | .red .. | .copy .. | .copyt .. | .tmap .. | .barinit .. | .bararr .. | .barwait .. | .bararrw ..
  | .fence .. | .fetchw .. | .sleepuntil .. | .cwait .. | .mma .. | .mmap .. | .mmagA .. | .mmagK .. | .mbatch ..
  | .mwait .. | .tld .. | .tst .. | .tzero .. | .tsts .. | .tldP .. | .tstP .. | .tzeroP .. | .tstsP ..
  | .route .. | .xslot .. | .xrel .. | .span .. | .next .. | .jmp .. | .br .. | .brx .. | .call .. | .ret ..
  | .exit .. | .elect .. | .sleep .. | .yield .. | .kand .. | .kor .. | .kxor .. | .knot .. | .kmovMask ..
  | .kmovFromCell .. | .kmovToSlices .. | .kpop .. | .gate .. | .gret .. | .trap .. | .tret .. | .csrr ..
  | .csrw .. | .mark .. | .logw .. | .brk .. | .icinv .. | .tlbinv .. | .tlbinvAll .. | .qpost .. => true
  | .sleepExpire .. | .sleepuntilDeadline .. | .waitWake .. | .registerWriteback | .cellRefill .. | .ringRefill ..
  | .copyBurstCommit .. | .copyRetire .. | .matrixExecute .. | .routePassRetire .. | .fetchwHandover ..
  | .launchReady .. | .placement | .launchComplete .. | .patchApply .. | .load .. | .start .. | .patch ..
  | .stop .. | .stopComplete .. | .resume .. | .unload .. | .query .. | .queryRegion .. | .queryErrorCounters ..
  | .queryLaneCycleBin .. | .querySleepCounter .. | .querySetBin .. | .contextCreate .. | .contextDestroy ..
  | .registerWrite .. | .hostApertureAccess .. | .lcrEnable .. | .logTailWrite .. | .stopwg .. | .cont ..
  | .step .. | .portRead .. | .portWrite .. | .workgroupHalt .. | .messageTailWrite .. | .getVersion
  | .getCapabilities | .negotiateAlgorithms | .getDigests | .getCertificate | .challenge .. | .getMeasurements ..
  | .unsupportedRequest .. | .peerInboundAccess .. | .peerPortDown .. | .transientFault ..
  | .uncorrectableError .. | .coreFence .. | .arrivalAdmit .. | .reset .. | .throttle .. | .powerRemove
  | .peerPortUp .. | .partitionClock .. | .worldAssignmentChange .. => false

/-- The chain bit C (04 R81). -/
def Instr.chain (i : Instr) : Bool :=
  match i with
  | .nop c => c
  | i => match i.hdr with | some h => h.chain | none => false

/-- The pipe of a main word (04 Table 04-5); NOP takes none (04 R80). -/
def Instr.pipe (i : Instr) : Option Pipe :=
  match i with
  | .nop _ => none
  | .iadd .. | .isub .. | .imul .. | .imulh .. | .imad .. | .imin .. | .imax .. | .isad .. | .and .. | .or ..
  | .xor .. | .andn .. | .shl .. | .shr .. | .rotl .. | .bfe .. | .bfi .. | .sel .. | .icmp .. | .iabs ..
  | .ineg .. | .not .. | .popc .. | .clz .. | .brev .. | .mov .. | .tag .. | .rdsp .. | .wrsp .. | .iaddi ..
  | .shli .. | .shri .. | .andi .. | .icmpi .. | .movi .. | .movhi .. | .fadd .. | .fsub .. | .fmul .. | .ffma ..
  | .fmin .. | .fmax .. | .fcmp .. | .fabs .. | .fneg .. | .frnd .. | .rcp .. | .rsqrt .. | .sqrt .. | .exp2 ..
  | .log2 .. | .sin .. | .cos .. | .tanh .. | .cvt .. | .cvq .. | .cbx .. => some .alu
  | .cbld .. | .shfl .. | .shflp .. | .shflx .. | .voteAny .. | .voteAll .. | .voteBal .. | .reduInt ..
  | .reduFloat .. | .scanInt .. | .scanFloat .. | .nzscan .. | .seg .. | .lds .. | .sts .. | .ldx .. | .stx ..
  | .ldk .. | .stk .. | .atomS .. | .atomX .. | .red .. => some .lx
  | .copy .. | .copyt .. | .tmap .. | .barinit .. | .bararr .. | .barwait .. | .bararrw .. | .fence ..
  | .fetchw .. | .sleepuntil .. | .cwait .. | .mma .. | .mmap .. | .mmagA .. | .mmagK .. | .mbatch .. | .mwait ..
  | .tld .. | .tst .. | .tzero .. | .tsts .. | .tldP .. | .tstP .. | .tzeroP .. | .tstsP .. | .route ..
  | .xslot .. | .xrel .. => some .eng
  | .span .. | .next .. | .jmp .. | .br .. | .brx .. | .call .. | .ret .. | .exit .. | .elect .. | .sleep ..
  | .yield .. | .kand .. | .kor .. | .kxor .. | .knot .. | .kmovMask .. | .kmovFromCell .. | .kmovToSlices ..
  | .kpop .. | .gate .. | .gret .. | .trap .. | .tret .. | .csrr .. | .csrw .. | .mark .. | .logw .. | .brk ..
  | .icinv .. | .tlbinv .. | .tlbinvAll .. | .qpost .. => some .seq
  | .sleepExpire .. | .sleepuntilDeadline .. | .waitWake .. | .registerWriteback | .cellRefill .. | .ringRefill ..
  | .copyBurstCommit .. | .copyRetire .. | .matrixExecute .. | .routePassRetire .. | .fetchwHandover ..
  | .launchReady .. | .placement | .launchComplete .. | .patchApply .. | .load .. | .start .. | .patch ..
  | .stop .. | .stopComplete .. | .resume .. | .unload .. | .query .. | .queryRegion .. | .queryErrorCounters ..
  | .queryLaneCycleBin .. | .querySleepCounter .. | .querySetBin .. | .contextCreate .. | .contextDestroy ..
  | .registerWrite .. | .hostApertureAccess .. | .lcrEnable .. | .logTailWrite .. | .stopwg .. | .cont ..
  | .step .. | .portRead .. | .portWrite .. | .workgroupHalt .. | .messageTailWrite .. | .getVersion
  | .getCapabilities | .negotiateAlgorithms | .getDigests | .getCertificate | .challenge .. | .getMeasurements ..
  | .unsupportedRequest .. | .peerInboundAccess .. | .peerPortDown .. | .transientFault ..
  | .uncorrectableError .. | .coreFence .. | .arrivalAdmit .. | .reset .. | .throttle .. | .powerRemove
  | .peerPortUp .. | .partitionClock .. | .worldAssignmentChange .. => none

/-- Whether the word is of format E or Q, in which bh must be zero (04 Table 04-2). -/
def Instr.isEQ (i : Instr) : Bool :=
  match i with
  | .nop _ => false
  | .atomS .. | .atomX .. | .red .. | .copy .. | .copyt .. | .tmap .. | .barinit .. | .bararr .. | .barwait ..
  | .bararrw .. | .fence .. | .fetchw .. | .sleepuntil .. | .cwait .. | .mma .. | .mmap .. | .mmagA .. | .mmagK ..
  | .mbatch .. | .mwait .. | .tld .. | .tst .. | .tzero .. | .tsts .. | .tldP .. | .tstP .. | .tzeroP ..
  | .tstsP .. | .route .. | .xslot .. | .xrel .. | .csrr .. | .csrw .. | .mark .. | .logw .. | .brk .. | .icinv ..
  | .tlbinv .. | .tlbinvAll .. | .qpost .. | .span .. | .next .. | .jmp .. | .br .. | .brx .. | .call .. | .ret ..
  | .exit .. | .elect .. | .sleep .. | .yield .. | .kand .. | .kor .. | .kxor .. | .knot .. | .kmovMask ..
  | .kmovFromCell .. | .kmovToSlices .. | .kpop .. | .gate .. | .gret .. | .trap .. | .tret .. => true
  | .iadd .. | .isub .. | .imul .. | .imulh .. | .imad .. | .imin .. | .imax .. | .isad .. | .and .. | .or ..
  | .xor .. | .andn .. | .shl .. | .shr .. | .rotl .. | .bfe .. | .bfi .. | .sel .. | .icmp .. | .iabs ..
  | .ineg .. | .not .. | .popc .. | .clz .. | .brev .. | .mov .. | .tag .. | .rdsp .. | .wrsp .. | .iaddi ..
  | .shli .. | .shri .. | .andi .. | .icmpi .. | .movi .. | .movhi .. | .fadd .. | .fsub .. | .fmul .. | .ffma ..
  | .fmin .. | .fmax .. | .fcmp .. | .fabs .. | .fneg .. | .frnd .. | .rcp .. | .rsqrt .. | .sqrt .. | .exp2 ..
  | .log2 .. | .sin .. | .cos .. | .tanh .. | .cvt .. | .cvq .. | .cbld .. | .cbx .. | .shfl .. | .shflp ..
  | .shflx .. | .voteAny .. | .voteAll .. | .voteBal .. | .reduInt .. | .reduFloat .. | .scanInt ..
  | .scanFloat .. | .nzscan .. | .seg .. | .lds .. | .sts .. | .ldx .. | .stx .. | .ldk .. | .stk .. => false
  | .sleepExpire .. | .sleepuntilDeadline .. | .waitWake .. | .registerWriteback | .cellRefill .. | .ringRefill ..
  | .copyBurstCommit .. | .copyRetire .. | .matrixExecute .. | .routePassRetire .. | .fetchwHandover ..
  | .launchReady .. | .placement | .launchComplete .. | .patchApply .. | .load .. | .start .. | .patch ..
  | .stop .. | .stopComplete .. | .resume .. | .unload .. | .query .. | .queryRegion .. | .queryErrorCounters ..
  | .queryLaneCycleBin .. | .querySleepCounter .. | .querySetBin .. | .contextCreate .. | .contextDestroy ..
  | .registerWrite .. | .hostApertureAccess .. | .lcrEnable .. | .logTailWrite .. | .stopwg .. | .cont ..
  | .step .. | .portRead .. | .portWrite .. | .workgroupHalt .. | .messageTailWrite .. | .getVersion
  | .getCapabilities | .negotiateAlgorithms | .getDigests | .getCertificate | .challenge .. | .getMeasurements ..
  | .unsupportedRequest .. | .peerInboundAccess .. | .peerPortDown .. | .transientFault ..
  | .uncorrectableError .. | .coreFence .. | .arrivalAdmit .. | .reset .. | .throttle .. | .powerRemove
  | .peerPortUp .. | .partitionClock .. | .worldAssignmentChange .. => false

/-- The instructions that issue alone (04 R83). -/
def Instr.alone (i : Instr) : Bool :=
  match i with
  | .nop _ => false
  | .span .. | .next .. | .sleep .. | .yield .. | .gate .. | .gret .. | .trap .. | .tret .. | .brk ..
  | .sleepuntil .. | .cwait .. | .barwait .. | .bararrw .. | .mwait .. => true
  | .iadd .. | .isub .. | .imul .. | .imulh .. | .imad .. | .imin .. | .imax .. | .isad .. | .and .. | .or ..
  | .xor .. | .andn .. | .shl .. | .shr .. | .rotl .. | .bfe .. | .bfi .. | .sel .. | .icmp .. | .iabs ..
  | .ineg .. | .not .. | .popc .. | .clz .. | .brev .. | .mov .. | .tag .. | .rdsp .. | .wrsp .. | .iaddi ..
  | .shli .. | .shri .. | .andi .. | .icmpi .. | .movi .. | .movhi .. | .fadd .. | .fsub .. | .fmul .. | .ffma ..
  | .fmin .. | .fmax .. | .fcmp .. | .fabs .. | .fneg .. | .frnd .. | .rcp .. | .rsqrt .. | .sqrt .. | .exp2 ..
  | .log2 .. | .sin .. | .cos .. | .tanh .. | .cvt .. | .cvq .. | .cbld .. | .cbx .. | .shfl .. | .shflp ..
  | .shflx .. | .voteAny .. | .voteAll .. | .voteBal .. | .reduInt .. | .reduFloat .. | .scanInt ..
  | .scanFloat .. | .nzscan .. | .seg .. | .lds .. | .sts .. | .ldx .. | .stx .. | .ldk .. | .stk .. | .atomS ..
  | .atomX .. | .red .. | .copy .. | .copyt .. | .tmap .. | .barinit .. | .bararr .. | .fence .. | .fetchw ..
  | .mma .. | .mmap .. | .mmagA .. | .mmagK .. | .mbatch .. | .tld .. | .tst .. | .tzero .. | .tsts .. | .tldP ..
  | .tstP .. | .tzeroP .. | .tstsP .. | .route .. | .xslot .. | .xrel .. | .jmp .. | .br .. | .brx .. | .call ..
  | .ret .. | .exit .. | .elect .. | .kand .. | .kor .. | .kxor .. | .knot .. | .kmovMask .. | .kmovFromCell ..
  | .kmovToSlices .. | .kpop .. | .csrr .. | .csrw .. | .mark .. | .logw .. | .icinv .. | .tlbinv ..
  | .tlbinvAll .. | .qpost .. => false
  | .sleepExpire .. | .sleepuntilDeadline .. | .waitWake .. | .registerWriteback | .cellRefill .. | .ringRefill ..
  | .copyBurstCommit .. | .copyRetire .. | .matrixExecute .. | .routePassRetire .. | .fetchwHandover ..
  | .launchReady .. | .placement | .launchComplete .. | .patchApply .. | .load .. | .start .. | .patch ..
  | .stop .. | .stopComplete .. | .resume .. | .unload .. | .query .. | .queryRegion .. | .queryErrorCounters ..
  | .queryLaneCycleBin .. | .querySleepCounter .. | .querySetBin .. | .contextCreate .. | .contextDestroy ..
  | .registerWrite .. | .hostApertureAccess .. | .lcrEnable .. | .logTailWrite .. | .stopwg .. | .cont ..
  | .step .. | .portRead .. | .portWrite .. | .workgroupHalt .. | .messageTailWrite .. | .getVersion
  | .getCapabilities | .negotiateAlgorithms | .getDigests | .getCertificate | .challenge .. | .getMeasurements ..
  | .unsupportedRequest .. | .peerInboundAccess .. | .peerPortDown .. | .transientFault ..
  | .uncorrectableError .. | .coreFence .. | .arrivalAdmit .. | .reset .. | .throttle .. | .powerRemove
  | .peerPortUp .. | .partitionClock .. | .worldAssignmentChange .. => false

/-! ## The header's fields; without an EXT every field is zero (04 R17, R86) -/

/-- The EXT with every field zero. -/
def Ext.zero : Ext :=
  { dh := 0, ah := 0, bh := 0, wo := false, aw := 0, bw := 0, sa := false, sb := false, pe := false, pk := 0,
    pn := false, ix := 0 }

/-- The EXT of a word, or the one with every field zero. -/
def Hdr.e (h : Hdr) : Ext := h.ext.getD Ext.zero

/-- The rules of an EXT's own fields (04 Table 04-2): a field that its enable does not enable is zero. -/
def Ext.fieldsOk (e : Ext) : Bool :=
  (e.wo || (e.aw == 0 && e.bw == 0 && !e.sa && !e.sb)) && (e.pe || (e.pk == 0 && !e.pn))

/-- Whether the EXT word obeys Table 04-2, bh of formats E and Q included. -/
def Instr.extOk (i : Instr) : Bool :=
  match i.hdr with
  | none => true
  | some h => h.e.fieldsOk && (!i.isEQ || h.e.bh == 0)

/-! ## Widths and types -/

/-- The integer widths (05 Table 05-1). -/
def intWidths : List Nat := [4, 8, 12, 16, 24, 32, 64]

/-- Every width of 01 Table 01-1. -/
def allWidths : List Nat := [4, 8, 12, 16, 24, 32, 64, 128]

/-- The widths of BFE and BFI. -/
def fieldWidths : List Nat := [16, 24, 32, 64]

/-- The widths of TAG, loads and stores. -/
def cellWidths : List Nat := [4, 8, 16, 32, 64, 128]

/-- The widths of NZSCAN and SEG. -/
def rankWidths : List Nat := [8, 16, 32]

/-- Whether a width code names one of the widths. -/
def inWidths (l : List Nat) (w : BitVec 3) : Bool := l.contains (widthOf w)

/-- Formats A3 and A2: ix bit 0 is .sat, legal where Table 04-6 marks it, and bits 4:1 are zero (04 R87). -/
def Hdr.satOk (h : Hdr) (sat : Bool) : Bool := h.e.ix == 0 || (sat && h.e.ix == 1)

/-- Format A3: the destination width and, under an override, both source widths are accepted (05 R96). -/
def Hdr.widths3 (h : Hdr) (w : BitVec 3) (l : List Nat) : Bool :=
  inWidths l w && (!h.e.wo || (inWidths l h.e.aw && inWidths l h.e.bw))

/-- Neither source has a sign: as and bs are unused and so zero (04 R85; 05 R103, R104). -/
def Hdr.unsigned (h : Hdr) : Bool := !h.e.sa && !h.e.sb

/-- Formats A2 and AI: the same for source a; bh, bw3 and bs are unused (04 R85, R87). -/
def Hdr.widths2 (h : Hdr) (w : BitVec 3) (l : List Nat) : Bool :=
  inWidths l w && (!h.e.wo || inWidths l h.e.aw) && h.e.bh == 0 && h.e.bw == 0 && !h.e.sb

/-- A2 and AI words that take no override. -/
def Hdr.fixed2 (h : Hdr) (w : BitVec 3) (l : List Nat) : Bool :=
  inWidths l w && !h.e.wo && h.e.bh == 0

/-- A type code is f32, f16, bf16, t16 or t32 (02 R41). -/
def isType (w : BitVec 3) : Bool := decide (w.toNat < 5)

/-- Whether a type code is tapered. -/
def isTapType (w : BitVec 3) : Bool := w == 3 || w == 4

/-- Format A3 floating point: all types valid and of one class, as and bs zero (05 R111). -/
def Hdr.types3 (h : Hdr) (w : BitVec 3) : Bool :=
  isType w && (!h.e.wo || (isType h.e.aw && isType h.e.bw && isTapType h.e.aw == isTapType w &&
    isTapType h.e.bw == isTapType w && !h.e.sa && !h.e.sb))

/-- FCMP: the two sources are of one class (05 R114; log entry 15). -/
def Hdr.typesCmp (h : Hdr) (w : BitVec 3) : Bool :=
  isType w && (!h.e.wo || (isType h.e.aw && isType h.e.bw && isTapType h.e.aw == isTapType h.e.bw &&
    !h.e.sa && !h.e.sb))

/-- Format A2 floating point (05 R111, R115). -/
def Hdr.types2 (h : Hdr) (w : BitVec 3) : Bool :=
  isType w && (!h.e.wo || (isType h.e.aw && isTapType h.e.aw == isTapType w && !h.e.sa)) &&
    h.e.bh == 0 && h.e.bw == 0 && !h.e.sb

/-- Floating point without an override (REDU and SCAN). -/
def Hdr.typesFixed (h : Hdr) (w : BitVec 3) : Bool := isType w && !h.e.wo && h.e.bh == 0

/-- What a memory word may carry in ix (04 Table 04-9). -/
inductive AccessKind where
  | load | store | atomic | stack
  deriving DecidableEq, Repr, Inhabited

/-- The order and scope rules of 04 Table 04-9. -/
def orderOk (ix : BitVec 5) (k : AccessKind) : Bool :=
  let ord := ix.toNat / 8
  let scope := ix.toNat % 8
  decide (scope < 5) && (decide (ord ≠ 0) || decide (scope = 0)) &&
    (match k with
     | .load => decide (ord < 2)
     | .store => decide (ord = 0) || decide (ord = 2)
     | .atomic => true
     | .stack => decide (ord = 0))

/-- Loads and stores (09 R192). -/
def Hdr.memOk (h : Hdr) (w : BitVec 3) (k : AccessKind) : Bool :=
  h.fixed2 w cellWidths && orderOk h.e.ix k && (k != .stack || w != 0)

/-- Atomics (09 R195): 64 bits only under wo with aw3 0b110, and not for floating operations. -/
def Hdr.atomOk (h : Hdr) (isFloat : Bool) (k : AccessKind) : Bool :=
  orderOk h.e.ix k && (!h.e.wo || (h.e.aw == 6 && h.e.bw == 0 && !h.e.sa && !h.e.sb && !isFloat))

/-- Formats E and Q outside the atomics: no override and no ix (04 R87). -/
def Hdr.plain (h : Hdr) : Bool := !h.e.wo && h.e.ix == 0

/-- No predicate (04 R87). -/
def Hdr.unpredicated (h : Hdr) : Bool := !h.e.pe

/-- Format Q: dh zero too, and ah except on BRX, KMOV and KPOP (04 R87). -/
def Hdr.q (h : Hdr) (slices : Bool) : Bool := h.plain && h.e.dh == 0 && (slices || h.e.ah == 0)

/-- The fields of CVT and CVQ (04 Table 04-8). -/
def Hdr.cvtOk (h : Hdr) (sf df : BitVec 4) (r : BitVec 3) : Bool :=
  h.satOk false && !h.e.wo && h.e.bh == 0 && sf != 8 && df != 8 && decide (r.toNat < 5)

/-! ## The checks of R78 to R90 -/

/-- The fields of the main word, and of the EXT as the word allows them (04 R85 to R90; 05 Table 05-1). -/
def Instr.formOk (i : Instr) : Bool :=
  match i with
  | .nop _ => true
  | .iadd h w _ _ _ _ | .isub h w _ _ _ _ | .imul h w _ _ _ _ | .imad h w _ _ _ _ | .isad h w _ _ _ _ =>
    h.satOk true && h.widths3 w intWidths
  | .imulh h w _ _ _ _ | .imin h w _ _ _ _ | .imax h w _ _ _ _ => h.satOk false && h.widths3 w intWidths
  | .and h w _ _ _ | .or h w _ _ _ | .xor h w _ _ _ | .andn h w _ _ _ | .rotl h w _ _ _ =>
    h.satOk false && h.widths3 w allWidths
  | .shl h w _ _ _ => h.satOk true && h.widths3 w allWidths
  | .shr h w _ _ _ _ => h.satOk false && h.widths3 w allWidths
  | .bfe h w _ _ _ _ => h.satOk false && h.widths3 w fieldWidths && h.unsigned
  | .bfi h w _ _ _ => h.satOk false && h.widths3 w fieldWidths && h.unsigned
  | .sel h _ _ _ _ => h.satOk false && (!h.e.wo || h.e.bw == h.e.aw) && h.unsigned
  | .icmp h w _ q _ _ => h.satOk false && h.widths3 w intWidths && h.e.dh == 0 && decide (q.toNat < 10)
  | .iabs h w _ _ | .ineg h w _ _ => h.satOk true && h.widths2 w intWidths
  | .not h w _ _ | .popc h w _ _ | .clz h w _ _ | .brev h w _ _ | .mov h w _ _ =>
    h.satOk false && h.widths2 w allWidths
  | .tag h w _ _ => h.satOk false && h.fixed2 w cellWidths
  | .rdsp h w _ n => h.satOk false && h.fixed2 w allWidths && h.e.ah == 0 && decide (n.toNat < 18)
  | .wrsp h w _ n => h.satOk false && h.fixed2 w allWidths && h.e.dh == 0 && decide (n.toNat < 18)
  | .iaddi h w _ _ _ => h.widths2 w intWidths
  | .andi h w _ _ _ => h.widths2 w allWidths
  | .shli h w _ _ _ => h.widths2 w allWidths && h.e.ix == 0
  | .shri h w _ _ _ _ => h.widths2 w allWidths && h.e.ix == 0
  | .icmpi h w _ q _ _ => h.widths2 w intWidths && h.e.dh == 0 && decide (q.toNat < 10)
  | .movi h _ _ => h.e.ah == 0 && h.e.bh == 0 && h.e.bw == 0 && !h.e.sa && !h.e.sb
  | .movhi h _ _ =>
    h.e.ah == 0 && h.e.bh == 0 && h.e.bw == 0 && !h.e.sa && !h.e.sb && h.e.ix == 0 && (!h.e.wo || h.e.aw == 5)
  | .fadd h w _ _ _ | .fsub h w _ _ _ | .fmul h w _ _ _ | .ffma h w _ _ _ | .fmin h w _ _ _ | .fmax h w _ _ _ =>
    h.satOk false && h.types3 w
  | .fcmp h w _ q _ _ => h.satOk false && h.typesCmp w && h.e.dh == 0 && decide (q.toNat < 8)
  | .fabs h w _ _ | .fneg h w _ _ | .frnd h w _ _ | .rcp h w _ _ | .rsqrt h w _ _ | .sqrt h w _ _
  | .exp2 h w _ _ | .log2 h w _ _ | .sin h w _ _ | .cos h w _ _ | .tanh h w _ _ => h.satOk false && h.types2 w
  | .cvt h sf _ _ df r => h.cvtOk sf df r
  | .cvq h sf _ _ df r => h.cvtOk sf df r && (df == 6 || df == 7)
  | .cbld h _ _ => h.satOk false && h.plain && h.e.dh == 0 && h.e.bh == 0
  | .cbx h w _ _ _ => h.satOk false && h.fixed2 w [4, 8, 16, 32]
  | .shfl h w _ _ _ | .shflp h w _ _ _ =>
    h.satOk false && (!h.e.wo || (h.e.aw == w && !h.e.sa && !h.e.sb))
  | .shflx h w _ _ _ => h.fixed2 w allWidths && h.e.ix == 0
  | .voteAny h w _ _ | .voteAll h w _ _ | .voteBal h w _ _ => h.satOk false && h.fixed2 w allWidths && h.e.dh == 0
  | .reduInt h w _ _ o x | .scanInt h w _ _ o x =>
    h.satOk false && h.fixed2 w intWidths && decide (o.toNat < 6) && (!x || o == 1 || o == 2)
  | .reduFloat h w _ _ o | .scanFloat h w _ _ o => h.satOk false && h.typesFixed w && decide (o.toNat < 3)
  | .nzscan h w _ _ _ => h.satOk false && h.fixed2 w rankWidths
  | .seg h w _ => h.satOk false && h.fixed2 w rankWidths && h.e.ah == 0
  | .lds h w _ _ _ | .ldx h w _ _ _ => h.memOk w .load
  | .sts h w _ _ _ | .stx h w _ _ _ => h.memOk w .store
  | .ldk h w _ _ _ | .stk h w _ _ _ => h.memOk w .stack
  | .atomS h o _ _ _ => h.atomOk (decide (10 ≤ o.toNat)) .atomic && decide (o.toNat < 13)
  | .atomX h o _ _ _ => h.atomOk (decide (10 ≤ o.toNat)) .atomic && decide (o.toNat < 13)
  | .red h o _ _ => h.atomOk (decide (8 ≤ o.toNat)) .store && decide (o.toNat < 11) && h.e.dh == 0
  | .copy h _ _ _ _ | .copyt h _ _ _ _ _ => h.plain
  | .tmap h _ _ | .barinit h _ _ | .xrel h _ => h.plain && h.e.dh == 0
  | .bararr h _ _ | .mbatch h _ _ => h.plain && h.e.ah == 0
  | .barwait h _ _ | .bararrw h _ _ | .cwait h _ _ => h.plain && h.e.ah == 0 && !h.chain
  | .fence h s => h.plain && h.e.dh == 0 && h.e.ah == 0 && decide (s.toNat < 5)
  | .fetchw h _ => h.plain && h.e.dh == 0 && h.e.ah == 0
  | .sleepuntil h _ _ _ => h.plain && !h.chain
  | .mma h _ _ _ _ _ | .mmap h _ _ _ _ _ | .route h _ _ _ | .xslot h _ _ => h.plain
  | .mmagA h _ _ _ _ => h.plain && h.e.dh == 0
  | .mmagK h _ _ _ _ _ => h.plain && h.e.ah == 0
  | .mwait h _ => h.plain && h.e.dh == 0 && !h.chain
  | .tld h _ _ _ | .tst h _ _ _ | .tsts h _ _ _ | .tldP h _ _ _ | .tstP h _ _ _ | .tstsP h _ _ _ =>
    h.plain && h.e.ah == 0
  | .tzero h _ | .tzeroP h _ => h.plain && h.e.dh == 0 && h.e.ah == 0
  | .span h _ => h.q false && !h.chain
  | .jmp h _ | .br h _ _ _ | .call h _ | .ret h | .exit h | .elect h _ => h.q false
  | .brx h _ => h.q true
  | .next h | .sleep h _ | .yield h | .gate h _ | .gret h | .trap h _ | .tret h =>
    h.q false && h.unpredicated && !h.chain
  | .kand h _ _ _ | .kor h _ _ _ | .kxor h _ _ _ | .knot h _ _ | .kmovMask h _ _ => h.q false && h.unpredicated
  | .kmovFromCell h _ _ | .kmovToSlices h _ _ | .kpop h _ _ => h.q true && h.unpredicated
  | .csrr h _ _ => h.plain && h.unpredicated && h.e.ah == 0
  | .csrw h _ _ | .tlbinv h _ => h.plain && h.unpredicated && h.e.dh == 0
  | .logw h _ _ => h.plain && h.unpredicated
  | .mark h | .icinv h | .tlbinvAll h | .qpost h _ => h.plain && h.unpredicated && h.e.dh == 0 && h.e.ah == 0
  | .brk h _ => h.plain && h.unpredicated && h.e.dh == 0 && h.e.ah == 0 && !h.chain
  | .sleepExpire .. | .sleepuntilDeadline .. | .waitWake .. | .registerWriteback | .cellRefill .. | .ringRefill ..
  | .copyBurstCommit .. | .copyRetire .. | .matrixExecute .. | .routePassRetire .. | .fetchwHandover ..
  | .launchReady .. | .placement | .launchComplete .. | .patchApply .. | .load .. | .start .. | .patch ..
  | .stop .. | .stopComplete .. | .resume .. | .unload .. | .query .. | .queryRegion .. | .queryErrorCounters ..
  | .queryLaneCycleBin .. | .querySleepCounter .. | .querySetBin .. | .contextCreate .. | .contextDestroy ..
  | .registerWrite .. | .hostApertureAccess .. | .lcrEnable .. | .logTailWrite .. | .stopwg .. | .cont ..
  | .step .. | .portRead .. | .portWrite .. | .workgroupHalt .. | .messageTailWrite .. | .getVersion
  | .getCapabilities | .negotiateAlgorithms | .getDigests | .getCertificate | .challenge .. | .getMeasurements ..
  | .unsupportedRequest .. | .peerInboundAccess .. | .peerPortDown .. | .transientFault ..
  | .uncorrectableError .. | .coreFence .. | .arrivalAdmit .. | .reset .. | .throttle .. | .powerRemove
  | .peerPortUp .. | .partitionClock .. | .worldAssignmentChange .. => true

/-! ## The checks that the entries make on their own words -/

/-- Whether a special value may be written (01 Table 01-8): %link, %seg, %fmode, %fflags, %layer. -/
def specialWritable (n : BitVec 5) : Bool :=
  n == 0x02 || n == 0x0A || n == 0x0E || n == 0x0F || n == 0x11

/-- Whether a system register may be written (18 Table 18-3). -/
def csrWritable (n : BitVec 6) : Bool :=
  n == 0x02 || n == 0x08 || n == 0x21 || n == 0x23 || n == 0x25 || n == 0x27

/-- Whether a slice field is a multiple of 8; its high bits cannot change that. -/
def cellAligned (s : BitVec 7) : Bool := decide (s.toNat % 8 = 0)

/-- The ILLEGAL checks outside R78 to R90 that the fields of the words decide (04 R371). -/
def Instr.entryOk (i : Instr) : Bool :=
  match i with
  | .shl h .. | .shr h .. | .rotl h .. | .icmp h .. => !h.e.sa && !h.e.sb
  | .shli h .. | .shri h .. | .icmpi h .. => !h.e.sa
  | .iabs h .. | .ineg h .. => !h.e.wo || h.e.sa
  | .tag _ _ _ a => cellAligned a
  | .wrsp _ _ _ n => specialWritable n
  | .cvt _ sf _ _ df r | .cvq _ sf _ _ df r =>
    (!(df == 3 || df == 4 || df == 5) || r == 0 || r == 1) &&
      (!(decide (9 ≤ sf.toNat) && decide (9 ≤ df.toNat)) || r == 0)
  | .copy _ d a _ _ | .copyt _ d a _ _ _ | .route _ d a _ => cellAligned d && cellAligned a
  | .tsts _ d _ _ | .tstsP _ d _ _ => cellAligned d
  | .kmovFromCell _ _ s => cellAligned s
  | .csrr _ _ n => decide (n.toNat < 0x28)
  | .csrw _ _ n => decide (n.toNat < 0x28) && csrWritable n
  | .nop .. | .iadd .. | .isub .. | .imul .. | .imulh .. | .imad .. | .imin .. | .imax .. | .isad .. | .and ..
  | .or .. | .xor .. | .andn .. | .bfe .. | .bfi .. | .sel .. | .not .. | .popc .. | .clz .. | .brev .. | .mov ..
  | .rdsp .. | .iaddi .. | .andi .. | .movi .. | .movhi .. | .fadd .. | .fsub .. | .fmul .. | .ffma .. | .fmin ..
  | .fmax .. | .fcmp .. | .fabs .. | .fneg .. | .frnd .. | .rcp .. | .rsqrt .. | .sqrt .. | .exp2 .. | .log2 ..
  | .sin .. | .cos .. | .tanh .. | .cbld .. | .cbx .. | .shfl .. | .shflp .. | .shflx .. | .voteAny ..
  | .voteAll .. | .voteBal .. | .reduInt .. | .reduFloat .. | .scanInt .. | .scanFloat .. | .nzscan .. | .seg ..
  | .lds .. | .sts .. | .ldx .. | .stx .. | .ldk .. | .stk .. | .atomS .. | .atomX .. | .red .. | .tmap ..
  | .barinit .. | .bararr .. | .barwait .. | .bararrw .. | .fence .. | .fetchw .. | .sleepuntil .. | .cwait ..
  | .mma .. | .mmap .. | .mmagA .. | .mmagK .. | .mbatch .. | .mwait .. | .tld .. | .tst .. | .tzero .. | .tldP ..
  | .tstP .. | .tzeroP .. | .xslot .. | .xrel .. | .span .. | .next .. | .jmp .. | .br .. | .brx .. | .call ..
  | .ret .. | .exit .. | .elect .. | .sleep .. | .yield .. | .kand .. | .kor .. | .kxor .. | .knot ..
  | .kmovMask .. | .kmovToSlices .. | .kpop .. | .gate .. | .gret .. | .trap .. | .tret .. | .mark .. | .logw ..
  | .brk .. | .icinv .. | .tlbinv .. | .tlbinvAll .. | .qpost .. => true
  | .sleepExpire .. | .sleepuntilDeadline .. | .waitWake .. | .registerWriteback | .cellRefill .. | .ringRefill ..
  | .copyBurstCommit .. | .copyRetire .. | .matrixExecute .. | .routePassRetire .. | .fetchwHandover ..
  | .launchReady .. | .placement | .launchComplete .. | .patchApply .. | .load .. | .start .. | .patch ..
  | .stop .. | .stopComplete .. | .resume .. | .unload .. | .query .. | .queryRegion .. | .queryErrorCounters ..
  | .queryLaneCycleBin .. | .querySleepCounter .. | .querySetBin .. | .contextCreate .. | .contextDestroy ..
  | .registerWrite .. | .hostApertureAccess .. | .lcrEnable .. | .logTailWrite .. | .stopwg .. | .cont ..
  | .step .. | .portRead .. | .portWrite .. | .workgroupHalt .. | .messageTailWrite .. | .getVersion
  | .getCapabilities | .negotiateAlgorithms | .getDigests | .getCertificate | .challenge .. | .getMeasurements ..
  | .unsupportedRequest .. | .peerInboundAccess .. | .peerPortDown .. | .transientFault ..
  | .uncorrectableError .. | .coreFence .. | .arrivalAdmit .. | .reset .. | .throttle .. | .powerRemove
  | .peerPortUp .. | .partitionClock .. | .worldAssignmentChange .. => true

/-- The payload of the TAIL (04 R88; 09 Table 09-5; 10 Tables 10-2 and 10-7); its must-be-zero bits are checked as
it is read. -/
def Instr.tailOk (i : Instr) : Bool :=
  match i with
  | .copyt _ _ _ _ xf _ => decide (1 ≤ xf.toNat) && decide (xf.toNat ≤ 4)
  | .route _ _ _ t => decide (t.km1.toNat ≤ t.dm1.toNat)
  | .nop .. | .iadd .. | .isub .. | .imul .. | .imulh .. | .imad .. | .imin .. | .imax .. | .isad .. | .and ..
  | .or .. | .xor .. | .andn .. | .shl .. | .shr .. | .rotl .. | .bfe .. | .bfi .. | .sel .. | .icmp .. | .iabs ..
  | .ineg .. | .not .. | .popc .. | .clz .. | .brev .. | .mov .. | .tag .. | .rdsp .. | .wrsp .. | .iaddi ..
  | .shli .. | .shri .. | .andi .. | .icmpi .. | .movi .. | .movhi .. | .fadd .. | .fsub .. | .fmul .. | .ffma ..
  | .fmin .. | .fmax .. | .fcmp .. | .fabs .. | .fneg .. | .frnd .. | .rcp .. | .rsqrt .. | .sqrt .. | .exp2 ..
  | .log2 .. | .sin .. | .cos .. | .tanh .. | .cvt .. | .cvq .. | .cbld .. | .cbx .. | .shfl .. | .shflp ..
  | .shflx .. | .voteAny .. | .voteAll .. | .voteBal .. | .reduInt .. | .reduFloat .. | .scanInt ..
  | .scanFloat .. | .nzscan .. | .seg .. | .lds .. | .sts .. | .ldx .. | .stx .. | .ldk .. | .stk .. | .atomS ..
  | .atomX .. | .red .. | .copy .. | .tmap .. | .barinit .. | .bararr .. | .barwait .. | .bararrw .. | .fence ..
  | .fetchw .. | .sleepuntil .. | .cwait .. | .mma .. | .mmap .. | .mmagA .. | .mmagK .. | .mbatch .. | .mwait ..
  | .tld .. | .tst .. | .tzero .. | .tsts .. | .tldP .. | .tstP .. | .tzeroP .. | .tstsP .. | .xslot .. | .xrel ..
  | .span .. | .next .. | .jmp .. | .br .. | .brx .. | .call .. | .ret .. | .exit .. | .elect .. | .sleep ..
  | .yield .. | .kand .. | .kor .. | .kxor .. | .knot .. | .kmovMask .. | .kmovFromCell .. | .kmovToSlices ..
  | .kpop .. | .gate .. | .gret .. | .trap .. | .tret .. | .csrr .. | .csrw .. | .mark .. | .logw .. | .brk ..
  | .icinv .. | .tlbinv .. | .tlbinvAll .. | .qpost .. => true
  | .sleepExpire .. | .sleepuntilDeadline .. | .waitWake .. | .registerWriteback | .cellRefill .. | .ringRefill ..
  | .copyBurstCommit .. | .copyRetire .. | .matrixExecute .. | .routePassRetire .. | .fetchwHandover ..
  | .launchReady .. | .placement | .launchComplete .. | .patchApply .. | .load .. | .start .. | .patch ..
  | .stop .. | .stopComplete .. | .resume .. | .unload .. | .query .. | .queryRegion .. | .queryErrorCounters ..
  | .queryLaneCycleBin .. | .querySleepCounter .. | .querySetBin .. | .contextCreate .. | .contextDestroy ..
  | .registerWrite .. | .hostApertureAccess .. | .lcrEnable .. | .logTailWrite .. | .stopwg .. | .cont ..
  | .step .. | .portRead .. | .portWrite .. | .workgroupHalt .. | .messageTailWrite .. | .getVersion
  | .getCapabilities | .negotiateAlgorithms | .getDigests | .getCertificate | .challenge .. | .getMeasurements ..
  | .unsupportedRequest .. | .peerInboundAccess .. | .peerPortDown .. | .transientFault ..
  | .uncorrectableError .. | .coreFence .. | .arrivalAdmit .. | .reset .. | .throttle .. | .powerRemove
  | .peerPortUp .. | .partitionClock .. | .worldAssignmentChange .. => true

/-- A well-formed instruction: no check of its own words fails. -/
def Instr.wf (i : Instr) : Bool := i.extOk && i.formOk && i.entryOk && i.tailOk

end Sys2Proof
end

