-- ==== Sys2Proof/Decode.lean ====
section
/-! DEFINITION. The decoder and the encoder of Plele 3 code (04 R78 to R91). `decodeItem` reads the next instruction
of a packet: its EXT, main word and tail; what names no instruction is rejected by name, with the failing word
(04 R370). `encode` gives an instruction's words. -/

namespace Sys2Proof

/-! ## The encoder -/

/-- A bit as a number. -/
def bit (b : Bool) : Nat := if b then 1 else 0

/-- Format A3 (04 Table 04-1). -/
def packA3 (c : Bool) (major : Nat) (w : BitVec 3) (d a b : BitVec 7) (x : Bool) : Word :=
  BitVec.ofNat 32 (bit c * 2 ^ 31 + major * 2 ^ 25 + w.toNat * 2 ^ 22 + d.toNat * 2 ^ 15 + a.toNat * 2 ^ 8 +
    b.toNat * 2 + bit x)

/-- Format A2 (04 Table 04-1). -/
def packA2 (c : Bool) (major : Nat) (w : BitVec 3) (d a : BitVec 7) (minor : Nat) (x : Bool) : Word :=
  BitVec.ofNat 32 (bit c * 2 ^ 31 + major * 2 ^ 25 + w.toNat * 2 ^ 22 + d.toNat * 2 ^ 15 + a.toNat * 2 ^ 8 +
    minor * 2 + bit x)

/-- Format AI (04 Table 04-1). -/
def packAI (c : Bool) (major : Nat) (w : BitVec 3) (d a : BitVec 7) (i : Nat) : Word :=
  BitVec.ofNat 32 (bit c * 2 ^ 31 + major * 2 ^ 25 + w.toNat * 2 ^ 22 + d.toNat * 2 ^ 15 + a.toNat * 2 ^ 8 + i)

/-- Format I (04 Table 04-1). -/
def packI (c : Bool) (major : Nat) (d : BitVec 7) (i : Nat) : Word :=
  BitVec.ofNat 32 (bit c * 2 ^ 31 + major * 2 ^ 25 + d.toNat * 2 ^ 18 + i)

/-- Format Q (04 Table 04-1). -/
def packQ (c : Bool) (major sub operand : Nat) : Word :=
  BitVec.ofNat 32 (bit c * 2 ^ 31 + major * 2 ^ 25 + sub * 2 ^ 21 + operand)

/-- Format E (04 Table 04-1). -/
def packE (c : Bool) (major sub : Nat) (d a : BitVec 7) (b : BitVec 6) : Word :=
  BitVec.ofNat 32 (bit c * 2 ^ 31 + major * 2 ^ 25 + sub * 2 ^ 20 + d.toNat * 2 ^ 13 + a.toNat * 2 ^ 6 + b.toNat)

/-- The operand of the mask instructions (04 Table 04-12). -/
def maskOperand (d a b : BitVec 3) (mode : Nat) (s : BitVec 7) : Nat :=
  d.toNat * 2 ^ 18 + a.toNat * 2 ^ 15 + b.toNat * 2 ^ 12 + mode * 2 ^ 10 + s.toNat * 2 ^ 3

/-- An EXT word (04 Table 04-2). -/
def Ext.pack (e : Ext) : Word :=
  BitVec.ofNat 32 (0x3F * 2 ^ 25 + e.dh.toNat * 2 ^ 23 + e.ah.toNat * 2 ^ 21 + e.bh.toNat * 2 ^ 19 + bit e.wo * 2 ^ 18 +
    e.aw.toNat * 2 ^ 15 + e.bw.toNat * 2 ^ 12 + bit e.sa * 2 ^ 11 + bit e.sb * 2 ^ 10 + bit e.pe * 2 ^ 9 +
    e.pk.toNat * 2 ^ 6 + bit e.pn * 2 ^ 5 + e.ix.toNat)

/-- The TAIL of COPY and COPYT (09 Table 09-5). -/
def CopyTail.pack (t : CopyTail) (xf : BitVec 3) : Word :=
  BitVec.ofNat 32 (0x3E * 2 ^ 25 + t.skind.toNat * 2 ^ 23 + t.dkind.toNat * 2 ^ 21 + xf.toNat * 2 ^ 18 +
    t.bq.toNat * 2 ^ 16 + t.boff.toNat)

/-- The TAIL of ROUTE (10 Table 10-7). -/
def RouteTail.pack (t : RouteTail) : Word :=
  BitVec.ofNat 32 (0x3E * 2 ^ 25 + t.km1.toNat * 2 ^ 22 + t.dm1.toNat * 2 ^ 18 + t.bq.toNat * 2 ^ 16 + t.boff.toNat)

/-- The TAIL of the matrix operations (10 Table 10-2). -/
def packMatrixTail (t : BitVec 7) (z : Bool) (cg : BitVec 6) : Word :=
  BitVec.ofNat 32 (0x3E * 2 ^ 25 + t.toNat * 2 ^ 18 + bit z * 2 ^ 17 + cg.toNat * 2 ^ 11)

/-- The main word of an instruction; events have none and give the all-zero word. -/
def Instr.mainWord (i : Instr) : Word :=
  match i with
  | .nop c => packQ c 0x35 0 0
  | .iadd h w d a b x => packA3 h.chain 0x01 w d a b x
  | .isub h w d a b x => packA3 h.chain 0x02 w d a b x
  | .imul h w d a b x => packA3 h.chain 0x03 w d a b x
  | .imulh h w d a b x => packA3 h.chain 0x04 w d a b x
  | .imad h w d a b x => packA3 h.chain 0x05 w d a b x
  | .imin h w d a b x => packA3 h.chain 0x06 w d a b x
  | .imax h w d a b x => packA3 h.chain 0x07 w d a b x
  | .isad h w d a b x => packA3 h.chain 0x08 w d a b x
  | .and h w d a b => packA3 h.chain 0x09 w d a b false
  | .or h w d a b => packA3 h.chain 0x0A w d a b false
  | .xor h w d a b => packA3 h.chain 0x0B w d a b false
  | .andn h w d a b => packA3 h.chain 0x0C w d a b false
  | .shl h w d a b => packA3 h.chain 0x0D w d a b false
  | .shr h w d a b x => packA3 h.chain 0x0E w d a b x
  | .rotl h w d a b => packA3 h.chain 0x0F w d a b false
  | .bfe h w d a b x => packA3 h.chain 0x10 w d a b x
  | .bfi h w d a b => packA3 h.chain 0x11 w d a b false
  | .sel h k d a b => packA3 h.chain 0x12 k d a b false
  | .icmp h w k q a b => packA3 h.chain 0x13 w (BitVec.ofNat 7 (k.toNat * 16 + q.toNat)) a b false
  | .fadd h w d a b => packA3 h.chain 0x1C w d a b false
  | .fsub h w d a b => packA3 h.chain 0x1D w d a b false
  | .fmul h w d a b => packA3 h.chain 0x1E w d a b false
  | .ffma h w d a b => packA3 h.chain 0x1F w d a b false
  | .fmin h w d a b => packA3 h.chain 0x20 w d a b false
  | .fmax h w d a b => packA3 h.chain 0x21 w d a b false
  | .fcmp h w k q a b => packA3 h.chain 0x22 w (BitVec.ofNat 7 (k.toNat * 16 + q.toNat)) a b false
  | .iabs h w d a => packA2 h.chain 0x14 w d a 0x00 false
  | .ineg h w d a => packA2 h.chain 0x14 w d a 0x01 false
  | .not h w d a => packA2 h.chain 0x14 w d a 0x02 false
  | .popc h w d a => packA2 h.chain 0x14 w d a 0x03 false
  | .clz h w d a => packA2 h.chain 0x14 w d a 0x04 false
  | .brev h w d a => packA2 h.chain 0x14 w d a 0x05 false
  | .mov h w d a => packA2 h.chain 0x14 w d a 0x06 false
  | .tag h w d a => packA2 h.chain 0x14 w d a 0x07 false
  | .fabs h w d a => packA2 h.chain 0x23 w d a 0x00 false
  | .fneg h w d a => packA2 h.chain 0x23 w d a 0x01 false
  | .frnd h w d a => packA2 h.chain 0x23 w d a 0x02 false
  | .rcp h w d a => packA2 h.chain 0x23 w d a 0x10 false
  | .rsqrt h w d a => packA2 h.chain 0x23 w d a 0x11 false
  | .sqrt h w d a => packA2 h.chain 0x23 w d a 0x12 false
  | .exp2 h w d a => packA2 h.chain 0x23 w d a 0x13 false
  | .log2 h w d a => packA2 h.chain 0x23 w d a 0x14 false
  | .sin h w d a => packA2 h.chain 0x23 w d a 0x15 false
  | .cos h w d a => packA2 h.chain 0x23 w d a 0x16 false
  | .tanh h w d a => packA2 h.chain 0x23 w d a 0x17 false
  | .rdsp h w d n => packA2 h.chain 0x14 w d 0 (0x40 + n.toNat) false
  | .wrsp h w a n => packA2 h.chain 0x14 w 0 a (0x60 + n.toNat) false
  | .iaddi h w d a i => packAI h.chain 0x15 w d a i.toNat
  | .shli h w d a n => packAI h.chain 0x16 w d a n.toNat
  | .shri h w d a x n => packAI h.chain 0x17 w d a (bit x * 2 ^ 7 + n.toNat)
  | .andi h w d a i => packAI h.chain 0x18 w d a i.toNat
  | .icmpi h w k q a i => packAI h.chain 0x19 w (BitVec.ofNat 7 (k.toNat * 16 + q.toNat)) a i.toNat
  | .movi h d i => packI h.chain 0x1A d i.toNat
  | .movhi h d i => packI h.chain 0x1B d i.toNat
  | .cvt h sf d a df r =>
    packA2 h.chain 0x24 (BitVec.ofNat 3 sf.toNat) d a (df.toNat * 8 + r.toNat) (decide (8 ≤ sf.toNat))
  | .cvq h sf d a df r =>
    packA2 h.chain 0x25 (BitVec.ofNat 3 sf.toNat) d a (df.toNat * 8 + r.toNat) (decide (8 ≤ sf.toNat))
  | .cbld h a n => packA2 h.chain 0x26 0 0 a (bit n) false
  | .cbx h w d a s => packA2 h.chain 0x26 w d a (4 + s.toNat) false
  | .shfl h w d a b => packA3 h.chain 0x27 w d a b false
  | .shflp h w d a b => packA3 h.chain 0x27 w d a b true
  | .shflx h w d a m => packAI h.chain 0x28 w d a m.toNat
  | .voteAny h w k a => packA2 h.chain 0x29 w (BitVec.ofNat 7 k.toNat) a 0 false
  | .voteAll h w k a => packA2 h.chain 0x29 w (BitVec.ofNat 7 k.toNat) a 1 false
  | .voteBal h w k a => packA2 h.chain 0x29 w (BitVec.ofNat 7 k.toNat) a 2 false
  | .reduInt h w d a o x => packA2 h.chain 0x29 w d a (0x10 + o.toNat) x
  | .reduFloat h w d a o => packA2 h.chain 0x29 w d a (0x18 + o.toNat) false
  | .scanInt h w d a o x => packA2 h.chain 0x29 w d a (0x20 + o.toNat) x
  | .scanFloat h w d a o => packA2 h.chain 0x29 w d a (0x28 + o.toNat) false
  | .nzscan h w d a k => packA2 h.chain 0x29 w d a (0x30 + k.toNat) false
  | .seg h w d => packA2 h.chain 0x29 w d 0 0x38 false
  | .lds h w d a i => packAI h.chain 0x2A w d a i.toNat
  | .sts h w d a i => packAI h.chain 0x2B w d a i.toNat
  | .ldx h w d a i => packAI h.chain 0x2C w d a i.toNat
  | .stx h w d a i => packAI h.chain 0x2D w d a i.toNat
  | .ldk h w d a i => packAI h.chain 0x2E w d a i.toNat
  | .stk h w d a i => packAI h.chain 0x2E w d a (2 ^ 7 + i.toNat)
  | .atomS h o d a b => packE h.chain 0x2F o.toNat d a b
  | .atomX h o d a b => packE h.chain 0x30 o.toNat d a b
  | .red h o a b => packE h.chain 0x30 (0x10 + o.toNat) 0 a b
  | .copy h d a b _ => packE h.chain 0x31 0 d a b
  | .copyt h d a b _ _ => packE h.chain 0x31 1 d a b
  | .fence h s => packE h.chain 0x32 4 (BitVec.ofNat 7 s.toNat) 0 0
  | .mma h d a b _ _ => packE h.chain 0x33 0 d a b
  | .mmap h d a b _ _ => packE h.chain 0x33 1 d a b
  | .mmagA h a b _ _ => packE h.chain 0x33 2 0 a b
  | .mmagK h d b _ _ _ => packE h.chain 0x33 3 d 0 b
  | .route h d a _ => packE h.chain 0x34 0 d a 0
  | .tmap h a b => packE h.chain 0x34 3 0 a b
  | .barinit h a b => packE h.chain 0x32 0 0 a b
  | .bararr h d b => packE h.chain 0x32 1 d 0 b
  | .barwait h d b => packE h.chain 0x32 2 d 0 b
  | .bararrw h d b => packE h.chain 0x32 3 d 0 b
  | .sleepuntil h d a b => packE h.chain 0x32 6 d a b
  | .cwait h d b => packE h.chain 0x32 7 d 0 b
  | .fetchw h b => packE h.chain 0x32 5 0 0 b
  | .mbatch h d b => packE h.chain 0x33 4 d 0 b
  | .mwait h a => packE h.chain 0x33 5 0 a 0
  | .tld h d t b => packE h.chain 0x33 8 d t b
  | .tst h d t b => packE h.chain 0x33 9 d t b
  | .tzero h t => packE h.chain 0x33 10 0 t 0
  | .tsts h d t b => packE h.chain 0x33 11 d t b
  | .tldP h d t b => packE h.chain 0x33 12 d t b
  | .tstP h d t b => packE h.chain 0x33 13 d t b
  | .tzeroP h t => packE h.chain 0x33 14 0 t 0
  | .tstsP h d t b => packE h.chain 0x33 15 d t b
  | .xslot h d a => packE h.chain 0x34 1 d a 0
  | .xrel h a => packE h.chain 0x34 2 0 a 0
  | .mark h => packE h.chain 0x38 2 0 0 0
  | .logw h d a => packE h.chain 0x38 3 d a 0
  | .icinv h => packE h.chain 0x38 5 0 0 0
  | .qpost h b => packE h.chain 0x38 7 0 0 b
  | .csrr h d n => packE h.chain 0x38 0 d 0 n
  | .csrw h a n => packE h.chain 0x38 1 0 a n
  | .brk h k => packE h.chain 0x38 4 0 (BitVec.ofNat 7 (k.toNat / 64)) (BitVec.ofNat 6 k.toNat)
  | .tlbinv h a => packE h.chain 0x38 6 0 a 0
  | .tlbinvAll h => packE h.chain 0x38 6 0 0 1
  | .span h k => packQ h.chain 0x35 1 k.toNat
  | .next h => packQ h.chain 0x35 2 0
  | .jmp h b => packQ h.chain 0x35 3 b.toNat
  | .br h k n b => packQ h.chain 0x35 4 (k.toNat * 2 ^ 18 + bit n * 2 ^ 17 + b.toNat)
  | .brx h s => packQ h.chain 0x35 5 (s.toNat * 2 ^ 14)
  | .call h b => packQ h.chain 0x35 6 b.toNat
  | .ret h => packQ h.chain 0x35 7 0
  | .exit h => packQ h.chain 0x35 8 0
  | .elect h k => packQ h.chain 0x35 9 k.toNat
  | .sleep h d => packQ h.chain 0x35 10 d.toNat
  | .yield h => packQ h.chain 0x35 11 0
  | .kand h d a b => packQ h.chain 0x36 0 (maskOperand d a b 0 0)
  | .kor h d a b => packQ h.chain 0x36 1 (maskOperand d a b 0 0)
  | .kxor h d a b => packQ h.chain 0x36 2 (maskOperand d a b 0 0)
  | .knot h d a => packQ h.chain 0x36 3 (maskOperand d a 0 0 0)
  | .kmovMask h d a => packQ h.chain 0x36 4 (maskOperand d a 0 0 0)
  | .kmovFromCell h d s => packQ h.chain 0x36 4 (maskOperand d 0 0 1 s)
  | .kmovToSlices h a s => packQ h.chain 0x36 4 (maskOperand 0 a 0 2 s)
  | .kpop h a s => packQ h.chain 0x36 5 (maskOperand 0 a 0 0 s)
  | .gate h i => packQ h.chain 0x37 0 i.toNat
  | .gret h => packQ h.chain 0x37 1 0
  | .trap h k => packQ h.chain 0x37 2 k.toNat
  | .tret h => packQ h.chain 0x37 3 0
  | .sleepExpire .. | .sleepuntilDeadline .. | .waitWake .. | .registerWriteback | .cellRefill .. | .ringRefill ..
  | .copyBurstCommit .. | .copyRetire .. | .matrixExecute .. | .routePassRetire .. | .fetchwHandover ..
  | .launchReady .. | .placement | .launchComplete .. | .patchApply .. | .load .. | .start .. | .patch ..
  | .stop .. | .stopComplete .. | .resume .. | .unload .. | .query .. | .queryRegion .. | .queryErrorCounters ..
  | .queryLaneCycleBin .. | .querySleepCounter .. | .querySetBin .. | .contextCreate .. | .contextDestroy ..
  | .registerWrite .. | .hostApertureAccess .. | .lcrEnable .. | .logTailWrite .. | .stopwg .. | .cont ..
  | .step .. | .portRead .. | .portWrite .. | .workgroupHalt .. | .messageTailWrite .. | .getVersion
  | .getCapabilities | .negotiateAlgorithms | .getDigests | .getCertificate | .challenge .. | .getMeasurements ..
  | .unsupportedRequest .. | .peerInboundAccess .. | .peerPortDown .. | .transientFault ..
  | .uncorrectableError .. | .coreFence .. | .arrivalAdmit .. | .reset .. | .throttle .. | .powerRemove
  | .peerPortUp .. | .partitionClock .. | .worldAssignmentChange .. => 0

/-- The TAIL of an instruction, for the words that Table 04-6 marks tail. -/
def Instr.tailWord (i : Instr) : Option Word :=
  match i with
  | .copy _ _ _ _ t => some (t.pack 0)
  | .copyt _ _ _ _ xf t => some (t.pack xf)
  | .mma _ _ _ _ t z | .mmap _ _ _ _ t z => some (packMatrixTail t z 0)
  | .mmagA _ _ _ t cg => some (packMatrixTail t false cg)
  | .mmagK _ _ _ t z cg => some (packMatrixTail t z cg)
  | .route _ _ _ t => some t.pack
  | .nop .. | .iadd .. | .isub .. | .imul .. | .imulh .. | .imad .. | .imin .. | .imax .. | .isad .. | .and ..
  | .or .. | .xor .. | .andn .. | .shl .. | .shr .. | .rotl .. | .bfe .. | .bfi .. | .sel .. | .icmp .. | .iabs ..
  | .ineg .. | .not .. | .popc .. | .clz .. | .brev .. | .mov .. | .tag .. | .rdsp .. | .wrsp .. | .iaddi ..
  | .shli .. | .shri .. | .andi .. | .icmpi .. | .movi .. | .movhi .. | .fadd .. | .fsub .. | .fmul .. | .ffma ..
  | .fmin .. | .fmax .. | .fcmp .. | .fabs .. | .fneg .. | .frnd .. | .rcp .. | .rsqrt .. | .sqrt .. | .exp2 ..
  | .log2 .. | .sin .. | .cos .. | .tanh .. | .cvt .. | .cvq .. | .cbld .. | .cbx .. | .shfl .. | .shflp ..
  | .shflx .. | .voteAny .. | .voteAll .. | .voteBal .. | .reduInt .. | .reduFloat .. | .scanInt ..
  | .scanFloat .. | .nzscan .. | .seg .. | .lds .. | .sts .. | .ldx .. | .stx .. | .ldk .. | .stk .. | .atomS ..
  | .atomX .. | .red .. | .tmap .. | .barinit .. | .bararr .. | .barwait .. | .bararrw .. | .fence .. | .fetchw ..
  | .sleepuntil .. | .cwait .. | .mbatch .. | .mwait .. | .tld .. | .tst .. | .tzero .. | .tsts .. | .tldP ..
  | .tstP .. | .tzeroP .. | .tstsP .. | .xslot .. | .xrel .. | .span .. | .next .. | .jmp .. | .br .. | .brx ..
  | .call .. | .ret .. | .exit .. | .elect .. | .sleep .. | .yield .. | .kand .. | .kor .. | .kxor .. | .knot ..
  | .kmovMask .. | .kmovFromCell .. | .kmovToSlices .. | .kpop .. | .gate .. | .gret .. | .trap .. | .tret ..
  | .csrr .. | .csrw .. | .mark .. | .logw .. | .brk .. | .icinv .. | .tlbinv .. | .tlbinvAll .. | .qpost .. => none
  | .sleepExpire .. | .sleepuntilDeadline .. | .waitWake .. | .registerWriteback | .cellRefill .. | .ringRefill ..
  | .copyBurstCommit .. | .copyRetire .. | .matrixExecute .. | .routePassRetire .. | .fetchwHandover ..
  | .launchReady .. | .placement | .launchComplete .. | .patchApply .. | .load .. | .start .. | .patch ..
  | .stop .. | .stopComplete .. | .resume .. | .unload .. | .query .. | .queryRegion .. | .queryErrorCounters ..
  | .queryLaneCycleBin .. | .querySleepCounter .. | .querySetBin .. | .contextCreate .. | .contextDestroy ..
  | .registerWrite .. | .hostApertureAccess .. | .lcrEnable .. | .logTailWrite .. | .stopwg .. | .cont ..
  | .step .. | .portRead .. | .portWrite .. | .workgroupHalt .. | .messageTailWrite .. | .getVersion
  | .getCapabilities | .negotiateAlgorithms | .getDigests | .getCertificate | .challenge .. | .getMeasurements ..
  | .unsupportedRequest .. | .peerInboundAccess .. | .peerPortDown .. | .transientFault ..
  | .uncorrectableError .. | .coreFence .. | .arrivalAdmit .. | .reset .. | .throttle .. | .powerRemove
  | .peerPortUp .. | .partitionClock .. | .worldAssignmentChange .. => none

/-- The words of an instruction in order: its EXT, if any, its main word, its TAIL, if any (04 R79). -/
def encode (i : Instr) : List Word :=
  (match i.hdr with
   | some h => match h.ext with | some e => [e.pack] | none => []
   | none => []) ++ [i.mainWord] ++ (match i.tailWord with | some t => [t] | none => [])

/-! ## The decoder -/

/-- Why words name no instruction. -/
inductive Reject where
  /-- The EXT's bit 31 is 1 (04 R86). -/
  | extBit31
  /-- An EXT with a field set that its enable, or the format of the word after it, bars (04 Table 04-2), before a word that
  names no instruction. -/
  | extField
  /-- An EXT followed by an EXT, a TAIL, a NOP or nothing (04 R86). -/
  | extAlone
  /-- A TAIL that follows no word marked tail (04 R88). -/
  | tailAlone
  /-- A word marked tail with no TAIL after it (04 R88). -/
  | tailMissing
  /-- A TAIL whose bit 31 or must-be-zero payload is not zero (04 R88). -/
  | tailField
  /-- A major, minor, sub4, sub5 or mode that names no instruction, or a must-be-zero field (04 R89). -/
  | reserved
  deriving DecidableEq, Repr, Inhabited

/-- An instruction as it stands in its packet: the word offsets of its first and main word, how many words it has,
its C bit, what it decodes to, and the failing word with the reason when it names no instruction. -/
structure Item where
  start : Nat
  main : Nat
  len : Nat
  chain : Bool
  instr : Option Instr
  reject : Option (Nat × Reject)
  deriving DecidableEq, Repr, Inhabited

/-- The major of a word (04 R85). -/
def Word.major (w : Word) : Nat := (w.field 25 6).toNat

/-- The fields of an EXT word (04 Table 04-2). -/
def Ext.read (w : Word) : Ext :=
  { dh := w.field 23 2, ah := w.field 21 2, bh := w.field 19 2, wo := w.flag 18, aw := w.field 15 3,
    bw := w.field 12 3, sa := w.flag 11, sb := w.flag 10, pe := w.flag 9, pk := w.field 6 3, pn := w.flag 5,
    ix := w.field 0 5 }

/-- `some i` when the must-be-zero fields are zero. -/
def onlyIf (c : Bool) (i : Instr) : Option Instr := if c then some i else none

/-- Majors 0x01 to 0x13 and 0x1C to 0x22 and 0x27: format A3 (04 Table 04-6). -/
def decodeA3 (h : Hdr) (w : Word) : Option Instr :=
  let k := w.field 22 3
  let d := w.field 15 7
  let a := w.field 8 7
  let b := w.field 1 7
  let x := w.flag 0
  match w.major with
  | 0x01 => some (.iadd h k d a b x)
  | 0x02 => some (.isub h k d a b x)
  | 0x03 => some (.imul h k d a b x)
  | 0x04 => some (.imulh h k d a b x)
  | 0x05 => some (.imad h k d a b x)
  | 0x06 => some (.imin h k d a b x)
  | 0x07 => some (.imax h k d a b x)
  | 0x08 => some (.isad h k d a b x)
  | 0x09 => onlyIf (!x) (.and h k d a b)
  | 0x0A => onlyIf (!x) (.or h k d a b)
  | 0x0B => onlyIf (!x) (.xor h k d a b)
  | 0x0C => onlyIf (!x) (.andn h k d a b)
  | 0x0D => onlyIf (!x) (.shl h k d a b)
  | 0x0E => some (.shr h k d a b x)
  | 0x0F => onlyIf (!x) (.rotl h k d a b)
  | 0x10 => some (.bfe h k d a b x)
  | 0x11 => onlyIf (!x) (.bfi h k d a b)
  | 0x12 => onlyIf (!x) (.sel h k d a b)
  | 0x13 => onlyIf (!x) (.icmp h k (w.field 19 3) (w.field 15 4) a b)
  | 0x1C => onlyIf (!x) (.fadd h k d a b)
  | 0x1D => onlyIf (!x) (.fsub h k d a b)
  | 0x1E => onlyIf (!x) (.fmul h k d a b)
  | 0x1F => onlyIf (!x) (.ffma h k d a b)
  | 0x20 => onlyIf (!x) (.fmin h k d a b)
  | 0x21 => onlyIf (!x) (.fmax h k d a b)
  | 0x22 => onlyIf (!x) (.fcmp h k (w.field 19 3) (w.field 15 4) a b)
  | 0x27 => if x then some (.shflp h k d a b) else some (.shfl h k d a b)
  | _ => none

/-- Major 0x14: integer unary instructions, moves and special values (04 Table 04-7). -/
def decodeUnary (h : Hdr) (w : Word) : Option Instr :=
  let k := w.field 22 3
  let d := w.field 15 7
  let a := w.field 8 7
  let m := (w.field 1 7).toNat
  if w.flag 0 then none
  else if 0x60 ≤ m then onlyIf (d == 0) (.wrsp h k a (w.field 1 5))
  else if 0x40 ≤ m then onlyIf (a == 0) (.rdsp h k d (w.field 1 5))
  else match m with
  | 0x00 => some (.iabs h k d a)
  | 0x01 => some (.ineg h k d a)
  | 0x02 => some (.not h k d a)
  | 0x03 => some (.popc h k d a)
  | 0x04 => some (.clz h k d a)
  | 0x05 => some (.brev h k d a)
  | 0x06 => some (.mov h k d a)
  | 0x07 => some (.tag h k d a)
  | _ => none

/-- Major 0x23: floating-point unary instructions (04 Table 04-7). -/
def decodeFloatUnary (h : Hdr) (w : Word) : Option Instr :=
  let k := w.field 22 3
  let d := w.field 15 7
  let a := w.field 8 7
  if w.flag 0 then none
  else match (w.field 1 7).toNat with
  | 0x00 => some (.fabs h k d a)
  | 0x01 => some (.fneg h k d a)
  | 0x02 => some (.frnd h k d a)
  | 0x10 => some (.rcp h k d a)
  | 0x11 => some (.rsqrt h k d a)
  | 0x12 => some (.sqrt h k d a)
  | 0x13 => some (.exp2 h k d a)
  | 0x14 => some (.log2 h k d a)
  | 0x15 => some (.sin h k d a)
  | 0x16 => some (.cos h k d a)
  | 0x17 => some (.tanh h k d a)
  | _ => none

/-- Majors 0x24 and 0x25: conversions (04 Table 04-8). -/
def decodeConvert (h : Hdr) (w : Word) (quant : Bool) : Option Instr :=
  let sf : BitVec 4 := BitVec.ofNat 4 ((w.field 22 3).toNat + bit (w.flag 0) * 8)
  if quant then some (.cvq h sf (w.field 15 7) (w.field 8 7) (w.field 4 4) (w.field 1 3))
  else some (.cvt h sf (w.field 15 7) (w.field 8 7) (w.field 4 4) (w.field 1 3))

/-- Major 0x26: codebooks (04 Table 04-7). -/
def decodeCodebook (h : Hdr) (w : Word) : Option Instr :=
  let k := w.field 22 3
  let d := w.field 15 7
  let a := w.field 8 7
  if w.flag 0 then none
  else match (w.field 1 7).toNat with
  | 0 => onlyIf (k == 0 && d == 0) (.cbld h a false)
  | 1 => onlyIf (k == 0 && d == 0) (.cbld h a true)
  | 4 | 5 | 6 | 7 => some (.cbx h k d a (w.field 1 2))
  | _ => none

/-- Major 0x29: votes, reductions and scans (04 Table 04-7). -/
def decodeExchange (h : Hdr) (w : Word) : Option Instr :=
  let k := w.field 22 3
  let d := w.field 15 7
  let a := w.field 8 7
  let x := w.flag 0
  match (w.field 1 7).toNat with
  | 0x00 => onlyIf (!x && (w.field 18 4) == 0) (.voteAny h k (w.field 15 3) a)
  | 0x01 => onlyIf (!x && (w.field 18 4) == 0) (.voteAll h k (w.field 15 3) a)
  | 0x02 => onlyIf (!x && (w.field 18 4) == 0) (.voteBal h k (w.field 15 3) a)
  | 0x10 | 0x11 | 0x12 | 0x13 | 0x14 | 0x15 | 0x16 | 0x17 => some (.reduInt h k d a (w.field 1 3) x)
  | 0x18 | 0x19 | 0x1A | 0x1B => onlyIf (!x) (.reduFloat h k d a (w.field 1 2))
  | 0x20 | 0x21 | 0x22 | 0x23 | 0x24 | 0x25 | 0x26 | 0x27 => some (.scanInt h k d a (w.field 1 3) x)
  | 0x28 | 0x29 | 0x2A | 0x2B => onlyIf (!x) (.scanFloat h k d a (w.field 1 2))
  | 0x30 | 0x31 | 0x32 | 0x33 | 0x34 | 0x35 | 0x36 | 0x37 => onlyIf (!x) (.nzscan h k d a (w.field 1 3))
  | 0x38 => onlyIf (!x && a == 0) (.seg h k d)
  | _ => none

/-- Majors 0x15 to 0x19, 0x28 and 0x2A to 0x2E: format AI (04 Table 04-6). -/
def decodeAI (h : Hdr) (w : Word) : Option Instr :=
  let k := w.field 22 3
  let d := w.field 15 7
  let a := w.field 8 7
  let i := w.field 0 8
  match w.major with
  | 0x15 => some (.iaddi h k d a i)
  | 0x16 => onlyIf (!w.flag 7) (.shli h k d a (w.field 0 7))
  | 0x17 => some (.shri h k d a (w.flag 7) (w.field 0 7))
  | 0x18 => some (.andi h k d a i)
  | 0x19 => some (.icmpi h k (w.field 19 3) (w.field 15 4) a i)
  | 0x28 => onlyIf ((w.field 5 3) == 0) (.shflx h k d a (w.field 0 5))
  | 0x2A => some (.lds h k d a i)
  | 0x2B => some (.sts h k d a i)
  | 0x2C => some (.ldx h k d a i)
  | 0x2D => some (.stx h k d a i)
  | 0x2E => if w.flag 7 then some (.stk h k d a (w.field 0 7)) else some (.ldk h k d a (w.field 0 7))
  | _ => none

/-- Majors 0x2F and 0x30: atomics (04 Table 04-10). -/
def decodeAtomic (h : Hdr) (w : Word) : Option Instr :=
  let d := w.field 13 7
  let a := w.field 6 7
  let b := w.field 0 6
  if w.major = 0x2F then some (.atomS h (w.field 20 5) d a b)
  else if w.flag 24 then onlyIf (d == 0) (.red h (w.field 20 4) a b)
  else some (.atomX h (w.field 20 4) d a b)

/-- Major 0x32: barriers, waits, fences and work fetch (04 Table 04-11; 09 Table 09-8). -/
def decodeBarrier (h : Hdr) (w : Word) : Option Instr :=
  let d := w.field 13 7
  let a := w.field 6 7
  let b := w.field 0 6
  match (w.field 20 5).toNat with
  | 0 => onlyIf (d == 0) (.barinit h a b)
  | 1 => onlyIf (a == 0) (.bararr h d b)
  | 2 => onlyIf (a == 0) (.barwait h d b)
  | 3 => onlyIf (a == 0) (.bararrw h d b)
  | 4 => onlyIf ((w.field 16 4) == 0 && a == 0 && b == 0) (.fence h (w.field 13 3))
  | 5 => onlyIf (d == 0 && a == 0) (.fetchw h b)
  | 6 => some (.sleepuntil h d a b)
  | 7 => onlyIf (a == 0) (.cwait h d b)
  | _ => none

/-- Major 0x33 without the tailed words, and major 0x34 likewise (04 Table 04-11; 10 Table 10-4). -/
def decodeEngine (h : Hdr) (w : Word) : Option Instr :=
  let d := w.field 13 7
  let a := w.field 6 7
  let b := w.field 0 6
  if w.major = 0x33 then
    match (w.field 20 5).toNat with
    | 4 => onlyIf (a == 0) (.mbatch h d b)
    | 5 => onlyIf (d == 0 && b == 0) (.mwait h a)
    | 8 => some (.tld h d a b)
    | 9 => some (.tst h d a b)
    | 10 => onlyIf (d == 0 && b == 0) (.tzero h a)
    | 11 => some (.tsts h d a b)
    | 12 => some (.tldP h d a b)
    | 13 => some (.tstP h d a b)
    | 14 => onlyIf (d == 0 && b == 0) (.tzeroP h a)
    | 15 => some (.tstsP h d a b)
    | _ => none
  else
    match (w.field 20 5).toNat with
    | 1 => onlyIf (b == 0) (.xslot h d a)
    | 2 => onlyIf (d == 0 && b == 0) (.xrel h a)
    | 3 => onlyIf (d == 0) (.tmap h a b)
    | _ => none

/-- Major 0x38: system (04 Table 04-11; 18 Table 18-2). -/
def decodeSystem (h : Hdr) (w : Word) : Option Instr :=
  let d := w.field 13 7
  let a := w.field 6 7
  let b := w.field 0 6
  match (w.field 20 5).toNat with
  | 0 => onlyIf (a == 0) (.csrr h d b)
  | 1 => onlyIf (d == 0) (.csrw h a b)
  | 2 => onlyIf (d == 0 && a == 0 && b == 0) (.mark h)
  | 3 => onlyIf (b == 0) (.logw h d a)
  | 4 => onlyIf (d == 0) (.brk h (w.field 0 13))
  | 5 => onlyIf (d == 0 && a == 0 && b == 0) (.icinv h)
  | 6 =>
    if b == 0 then onlyIf (d == 0) (.tlbinv h a) else onlyIf (d == 0 && a == 0 && b == 1) (.tlbinvAll h)
  | 7 => onlyIf (d == 0 && a == 0) (.qpost h b)
  | _ => none

/-- Major 0x35: sequencer (04 Table 04-12). -/
def decodeSequencer (h : Hdr) (w : Word) : Option Instr :=
  let block : BitVec 12 := w.field 0 12
  match (w.field 21 4).toNat with
  | 0x1 => onlyIf ((w.field 12 9) == 0) (.span h block)
  | 0x2 => onlyIf ((w.field 0 21) == 0) (.next h)
  | 0x3 => onlyIf ((w.field 12 9) == 0) (.jmp h block)
  | 0x4 => onlyIf ((w.field 12 5) == 0) (.br h (w.field 18 3) (w.flag 17) block)
  | 0x5 => onlyIf ((w.field 0 14) == 0) (.brx h (w.field 14 7))
  | 0x6 => onlyIf ((w.field 12 9) == 0) (.call h block)
  | 0x7 => onlyIf ((w.field 0 21) == 0) (.ret h)
  | 0x8 => onlyIf ((w.field 0 21) == 0) (.exit h)
  | 0x9 => onlyIf ((w.field 3 18) == 0) (.elect h (w.field 0 3))
  | 0xA => some (.sleep h (w.field 0 21))
  | 0xB => onlyIf ((w.field 0 21) == 0) (.yield h)
  | _ => none

/-- Major 0x36: masks (04 Table 04-12; 07 Table 07-5). -/
def decodeMask (h : Hdr) (w : Word) : Option Instr :=
  let d := w.field 18 3
  let a := w.field 15 3
  let b := w.field 12 3
  let mode := (w.field 10 2).toNat
  let s := w.field 3 7
  let plain := (w.field 0 12) == 0
  let low := (w.field 0 3) == 0
  match (w.field 21 4).toNat with
  | 0x0 => onlyIf plain (.kand h d a b)
  | 0x1 => onlyIf plain (.kor h d a b)
  | 0x2 => onlyIf plain (.kxor h d a b)
  | 0x3 => onlyIf (plain && b == 0) (.knot h d a)
  | 0x4 =>
    match mode with
    | 0 => onlyIf (plain && b == 0) (.kmovMask h d a)
    | 1 => onlyIf (low && a == 0 && b == 0) (.kmovFromCell h d s)
    | 2 => onlyIf (low && d == 0 && b == 0) (.kmovToSlices h a s)
    | _ => none
  | 0x5 => onlyIf (low && d == 0 && b == 0 && mode == 0) (.kpop h a s)
  | _ => none

/-- Major 0x37: GATE, GRET, TRAP, TRET (04 Table 04-12). -/
def decodeGate (h : Hdr) (w : Word) : Option Instr :=
  match (w.field 21 4).toNat with
  | 0x0 => onlyIf ((w.field 8 13) == 0) (.gate h (w.field 0 8))
  | 0x1 => onlyIf ((w.field 0 21) == 0) (.gret h)
  | 0x2 => onlyIf ((w.field 16 5) == 0) (.trap h (w.field 0 16))
  | 0x3 => onlyIf ((w.field 0 21) == 0) (.tret h)
  | _ => none

/-- Whether a main word is marked tail (04 Table 04-11). -/
def Word.tailed (w : Word) : Bool :=
  let sub := (w.field 20 5).toNat
  (w.major == 0x31 && decide (sub < 2)) || (w.major == 0x33 && decide (sub < 4)) || (w.major == 0x34 && sub == 0)

/-- Whether a main word is a NOP by its major and sub4. -/
def Word.isNop (w : Word) : Bool := w.major == 0x35 && (w.field 21 4) == 0

/-- A main word that takes no tail; NOP apart. -/
def decodeMain (h : Hdr) (w : Word) : Option Instr :=
  let m := w.major
  if m = 0x14 then decodeUnary h w
  else if m = 0x1A then some (.movi h (w.field 18 7) (w.field 0 18))
  else if m = 0x1B then onlyIf ((w.field 16 2) == 0) (.movhi h (w.field 18 7) (w.field 0 16))
  else if m < 0x14 then decodeA3 h w
  else if m < 0x1A then decodeAI h w
  else if m < 0x23 then decodeA3 h w
  else if m = 0x23 then decodeFloatUnary h w
  else if m = 0x24 then decodeConvert h w false
  else if m = 0x25 then decodeConvert h w true
  else if m = 0x26 then decodeCodebook h w
  else if m = 0x27 then decodeA3 h w
  else if m = 0x29 then decodeExchange h w
  else if m < 0x2F then decodeAI h w
  else if m < 0x31 then decodeAtomic h w
  else if m = 0x32 then decodeBarrier h w
  else if m = 0x33 || m = 0x34 then decodeEngine h w
  else if m = 0x35 then decodeSequencer h w
  else if m = 0x36 then decodeMask h w
  else if m = 0x37 then decodeGate h w
  else if m = 0x38 then decodeSystem h w
  else none

/-- A main word marked tail with its TAIL. -/
def decodeTailed (h : Hdr) (w t : Word) : Option Instr :=
  let d := w.field 13 7
  let a := w.field 6 7
  let b := w.field 0 6
  let ct : CopyTail := { skind := t.field 23 2, dkind := t.field 21 2, bq := t.field 16 2, boff := t.field 0 16 }
  let rt : RouteTail := { km1 := t.field 22 3, dm1 := t.field 18 4, bq := t.field 16 2, boff := t.field 0 16 }
  let tile : BitVec 7 := t.field 18 7
  let z := t.flag 17
  let cg : BitVec 6 := t.field 11 6
  if w.major = 0x31 then
    if (w.field 20 5).toNat = 0 then some (.copy h d a b ct) else some (.copyt h d a b (t.field 18 3) ct)
  else if w.major = 0x33 then
    match (w.field 20 5).toNat with
    | 0 => some (.mma h d a b tile z)
    | 1 => some (.mmap h d a b tile z)
    | 2 => onlyIf (d == 0) (.mmagA h a b tile cg)
    | _ => onlyIf (a == 0) (.mmagK h d b tile z cg)
  else onlyIf (b == 0) (.route h d a rt)

/-- Whether the TAIL's bit 31 and its must-be-zero payload bits are zero (09 Table 09-5; 10 Tables 10-2, 10-7). -/
def tailZero (w t : Word) : Bool :=
  let sub := (w.field 20 5).toNat
  !t.flag 31 &&
    (if w.major = 0x31 then decide (sub = 1) || (t.field 18 3) == 0
     else if w.major = 0x33 then
       (t.field 0 11) == 0 && (decide (2 ≤ sub) || (t.field 11 6) == 0) && (decide (sub ≠ 2) || !t.flag 17)
     else true)

/-- A main word and what follows it in its packet. `start` is the offset of the instruction's first word and `main`
that of its main word. -/
def decodeFrom (start main : Nat) (ext : Option Ext) (w : Word) (rest : List Word) : Item :=
  let h : Hdr := { chain := w.flag 31, ext := ext }
  let n := main - start + 1
  if w.isNop then
    if (w.field 0 21) == 0 then
      { start := start, main := main, len := n, chain := w.flag 31, instr := some (.nop (w.flag 31)), reject := none }
    else
      { start := start, main := main, len := n, chain := w.flag 31, instr := none,
        reject := some (main, .reserved) }
  else if w.tailed then
    match rest with
    | t :: _ =>
      if t.major = 0x3E then
        match decodeTailed h w t with
        | some i =>
          { start := start, main := main, len := n + 1, chain := w.flag 31, instr := some i,
            reject := if tailZero w t then none else some (main + 1, .tailField) }
        | none =>
          { start := start, main := main, len := n + 1, chain := w.flag 31, instr := none,
            reject := some (main, .reserved) }
      else
        { start := start, main := main, len := n, chain := w.flag 31, instr := none,
          reject := some (main, .tailMissing) }
    | [] =>
      { start := start, main := main, len := n, chain := w.flag 31, instr := none,
        reject := some (main, .tailMissing) }
  else
    match decodeMain h w with
    | some i => { start := start, main := main, len := n, chain := w.flag 31, instr := some i, reject := none }
    | none =>
      { start := start, main := main, len := n, chain := w.flag 31, instr := none,
        reject := some (main, .reserved) }

/-- Whether a main word's format is E or Q (04 Table 04-6). -/
def Word.isEQ (w : Word) : Bool := decide (0x2F ≤ w.major) && decide (w.major ≤ 0x38)

/-- Whether an EXT obeys Table 04-2 before a main word, whatever that word names (04 R86, R370). -/
def Ext.fits (e : Ext) (m : Word) : Bool := e.fieldsOk && (!m.isEQ || e.bh == 0)

/-- The next instruction of a packet, whose remaining words are given and start at word offset `off`. -/
def decodeItem (off : Nat) (ws : List Word) : Option Item :=
  match ws with
  | [] => none
  | w :: rest =>
    if w.major = 0x3F then
      match rest with
      | m :: rest' =>
        if m.major = 0x3F || m.major = 0x3E || m.isNop then
          some { start := off, main := off, len := 1, chain := false, instr := none, reject := some (off, .extAlone) }
        else
          let it := decodeFrom off (off + 1) (some (Ext.read w)) m rest'
          some (if w.flag 31 then { it with reject := some (off, .extBit31) }
            else if it.instr.isNone && !(Ext.read w).fits m then { it with reject := some (off, .extField) }
            else it)
      | [] =>
        some { start := off, main := off, len := 1, chain := false, instr := none, reject := some (off, .extAlone) }
    else if w.major = 0x3E then
      some { start := off, main := off, len := 1, chain := false, instr := none, reject := some (off, .tailAlone) }
    else some (decodeFrom off off none w rest)

/-- The word of an item that fails first by the item's own words (04 R370, Table 04-17; log entry 15), or none. -/
def Item.failing (it : Item) : Option Nat :=
  let byFields : Option Nat :=
    match it.instr with
    | none => none
    | some i =>
      if !i.extOk then some it.start
      else if !(i.formOk && i.entryOk) then some it.main
      else if !i.tailOk then some (it.main + 1)
      else none
  match it.reject, byFields with
  | none, f => f
  | some r, none => some r.1
  | some r, some f => some (min r.1 f)

/-- The instruction in the words that hold `w`, `nbits` of them given and zeros above, each word as it is stored
little-endian in the first packet of a state's code. -/
def tableWords (w : Nat) : List Word :=
  [BitVec.ofNat 32 w, BitVec.ofNat 32 (w / 2 ^ 32), BitVec.ofNat 32 (w / 2 ^ 64)]

/-- The instruction that the decoder reads from an instruction whose bits are `w`. -/
def decodeTableWord (nbits w : Nat) : Option Instr :=
  match decodeItem 0 (tableWords (w % 2 ^ nbits)) with
  | some it => if it.reject = none then it.instr else none
  | none => none

end Sys2Proof
end

