-- ==== Sys2Proof/Machine/Mem.lean ====
section
/-! DEFINITION. Byte memory in canonical form: reading and writing bytes, nibbles and little-endian numbers
(02 R39; 08 R174 for the nibble write enables). -/

namespace Sys2Proof.Machine

/-- What a byte of memory that nothing has written reads as (log entry 1). -/
def Memory.unlisted : BitVec 8 := 0

/-- The byte at an address. -/
def Memory.byte : Memory → Nat → BitVec 8
  | [], _ => Memory.unlisted
  | (k, v) :: t, a => if k = a then v else Memory.byte t a

/-- The memory with an entry listed at its place. -/
def Memory.list : Memory → Nat → BitVec 8 → Memory
  | [], a, v => [(a, v)]
  | (k, w) :: t, a, v =>
    if a < k then (a, v) :: (k, w) :: t else if k = a then (a, v) :: t else (k, w) :: Memory.list t a v

/-- The memory with one byte written: a byte that reads as an unlisted one is not listed. -/
def Memory.put (m : Memory) (a : Nat) (v : BitVec 8) : Memory :=
  if v = Memory.unlisted then m.filter (fun c => c.1 != a) else Memory.list m a v

/-- Canonical form: addresses strictly rising from `lo` on, and no listed byte equal to an unlisted one. -/
def Memory.wfFrom : Nat → Memory → Bool
  | _, [] => true
  | lo, (k, v) :: t => decide (lo ≤ k) && decide (v ≠ Memory.unlisted) && Memory.wfFrom (k + 1) t

/-- The canonical form of memory. -/
def Memory.wf (m : Memory) : Bool := Memory.wfFrom 0 m

/-- The `n` bytes from an address. -/
def Memory.bytes (m : Memory) (a : Nat) : Nat → List (BitVec 8)
  | 0 => []
  | n + 1 => Memory.byte m a :: Memory.bytes m (a + 1) n

/-- The memory with bytes written from an address on, lowest address first. -/
def Memory.putBytes (m : Memory) (a : Nat) : List (BitVec 8) → Memory
  | [] => m
  | b :: t => Memory.putBytes (Memory.put m a b) (a + 1) t

/-- The little-endian number of `n` bytes at an address. -/
def Memory.num (m : Memory) (a n : Nat) : Nat := bytesToNat (Memory.bytes m a n)

/-- The memory with the `n` little-endian bytes of a number written at an address. -/
def Memory.putNum (m : Memory) (a n v : Nat) : Memory := Memory.putBytes m a (natToBytes v n)

/-- A nibble of the byte at an address: the high one, or the low one. -/
def Memory.nibble (m : Memory) (a : Nat) (hi : Bool) : Nat :=
  bitsN (Memory.byte m a).toNat (if hi then 4 else 0) 4

/-- The memory with one nibble written; the byte's other nibble is unchanged (08 R174). -/
def Memory.putNibble (m : Memory) (a : Nat) (hi : Bool) (v : Nat) : Memory :=
  Memory.put m a (BitVec.ofNat 8 (putBitsN (Memory.byte m a).toNat (if hi then 4 else 0) 4 v))

/-- A memory with a range cleared, in canonical form. -/
def Memory.clear (m : Memory) (a n : Nat) : Memory := m.filter (fun c => !(decide (a ≤ c.1) && decide (c.1 < a + n)))

/-- A memory that holds some bytes from an address on and nothing else. -/
def Memory.ofBytes : Nat → List (BitVec 8) → Memory
  | _, [] => []
  | a, b :: t => if b = 0 then Memory.ofBytes (a + 1) t else (a, b) :: Memory.ofBytes (a + 1) t

end Sys2Proof.Machine
end

