-- ==== Sys2Proof/Machine/Num.lean ====
section
/-! DEFINITION. Number formats to the bit (02): exact values, the IEEE, OCP 8-bit and tapered encodings, rounding,
conversion, and the exact arithmetic the float instructions share. A result is a pair of the bits and the flags it
raises. -/

namespace Sys2Proof.Machine

/-! ## Flags (02 Table 02-3) -/

def flagNV : Nat := 1
def flagDZ : Nat := 2
def flagOF : Nat := 4
def flagUF : Nat := 8
def flagNX : Nat := 16

/-- The bits of a result and the flags it raises. -/
abbrev Rounded := Nat × Nat

/-! ## Exact values -/

/-- The exact value of a float code: a NaN (signalling or not; NaR counts as quiet), an infinity, or
(-1)^neg * m * 2^e, a signed zero when `m` is 0. -/
inductive Val where
  | nan (signalling : Bool)
  | inf (neg : Bool)
  | num (neg : Bool) (m : Nat) (e : Int)
  deriving DecidableEq, Repr, Inhabited

/-- m * 2^k for a non-negative k given as an integer. -/
def scaleUp (m : Nat) (k : Int) : Nat := m * 2 ^ k.toNat

/-- The order of the magnitudes m1 * 2^e1 and m2 * 2^e2. -/
def cmpMag (m1 : Nat) (e1 : Int) (m2 : Nat) (e2 : Int) : Ordering :=
  let e := min e1 e2
  compare (scaleUp m1 (e1 - e)) (scaleUp m2 (e2 - e))

/-- The signed integer of a sign and a magnitude. -/
def signed (neg : Bool) (m : Nat) : Int := if neg then -(m : Int) else (m : Int)

/-- The order of two exact values, neither a NaN; the two zeros are equal. -/
def cmpVal : Val → Val → Ordering
  | .inf n1, .inf n2 => if n1 == n2 then .eq else if n1 then .lt else .gt
  | .inf n1, _ => if n1 then .lt else .gt
  | _, .inf n2 => if n2 then .gt else .lt
  | .num n1 m1 e1, .num n2 m2 e2 =>
    let e := min e1 e2
    compare (signed n1 (scaleUp m1 (e1 - e))) (signed n2 (scaleUp m2 (e2 - e)))
  | _, _ => .eq

/-! ## Rounding modes (01 Table 01-8) -/

inductive Rounding where
  | rne | rz | ru | rd
  deriving DecidableEq, Repr, Inhabited

/-- The mode that bits 1:0 of %fmode name. -/
def Rounding.ofCode (c : Nat) : Rounding :=
  match c % 4 with
  | 0 => .rne
  | 1 => .rz
  | 2 => .ru
  | _ => .rd

/-- m / 2^s rounded to an integer in a mode, for a value of sign `neg`. -/
def roundShift (r : Rounding) (neg : Bool) (m s : Nat) : Nat :=
  let k := m / 2 ^ s
  let rem := m % 2 ^ s
  let up := match r with
    | .rne => decide (2 ^ s < 2 * rem) || (decide (2 * rem = 2 ^ s) && k % 2 == 1 && decide (0 < s))
    | .rz => false
    | .ru => !neg && decide (rem ≠ 0)
    | .rd => neg && decide (rem ≠ 0)
  if up then k + 1 else k

/-! ## IEEE binary formats and the OCP 8-bit formats (02 R42, R47, R48) -/

/-- A binary format: exponent and fraction widths, bias, the first magnitude code that overflows, the magnitude code
an overflow to infinity gives, the canonical NaN. -/
structure Binary where
  eb : Nat
  fb : Nat
  bias : Int
  overCode : Nat
  infCode : Nat
  nanCode : Nat
  deriving DecidableEq, Repr, Inhabited

def fmtF32 : Binary := ⟨8, 23, 127, 0x7F800000, 0x7F800000, 0x7FC00000⟩
def fmtF16 : Binary := ⟨5, 10, 15, 0x7C00, 0x7C00, 0x7E00⟩
def fmtBF16 : Binary := ⟨8, 7, 127, 0x7F80, 0x7F80, 0x7FC0⟩
def fmtE4M3 : Binary := ⟨4, 3, 7, 0x7F, 0x7F, 0x7F⟩
def fmtE5M2 : Binary := ⟨5, 2, 15, 0x7C, 0x7C, 0x7E⟩

/-- The width of a binary format. -/
def Binary.width (f : Binary) : Nat := 1 + f.eb + f.fb

/-- The exact value of an IEEE code (02 Table 02-2). -/
def Binary.value (f : Binary) (x : Nat) : Val :=
  let neg := bitN x (f.eb + f.fb)
  let ex := bitsN x f.fb f.eb
  let fr := bitsN x 0 f.fb
  if ex = 2 ^ f.eb - 1 then
    if fr = 0 then .inf neg else .nan (!bitN x (f.fb - 1))
  else if ex = 0 then .num neg fr (1 - f.bias - f.fb)
  else .num neg (2 ^ f.fb + fr) ((ex : Int) - f.bias - f.fb)

/-- The sign bit of a binary format. -/
def Binary.signBit (f : Binary) (neg : Bool) : Nat := if neg then 2 ^ (f.eb + f.fb) else 0

/-- The result of an overflow (02 R42; 02 R48 for the 8-bit formats, whose codes stand in `infCode`). -/
def Binary.overflow (f : Binary) (r : Rounding) (neg : Bool) : Rounded :=
  let toInf := match r with
    | .rne => true
    | .rz => false
    | .ru => !neg
    | .rd => neg
  (f.signBit neg + (if toInf then f.infCode else f.overCode - 1), flagOF + flagNX)

/-- Whether a nonzero magnitude is tiny after rounding (02 R42): rounded to the format's precision with no limit on
the exponent, it stays below the smallest normal value. -/
def Binary.tiny (f : Binary) (r : Rounding) (neg : Bool) (m : Nat) (e : Int) : Bool :=
  let top : Int := (Nat.log2 m : Int) + e
  let emin : Int := 1 - f.bias
  if emin ≤ top then false
  else
    let s : Int := top - f.fb - e
    let k := if s ≤ 0 then scaleUp m (-s) else roundShift r neg m s.toNat
    !(decide (k = 2 ^ (f.fb + 1)) && decide (top + 1 = emin))

/-- A nonzero exact value rounded to a binary format (02 R42). -/
def Binary.round (f : Binary) (r : Rounding) (neg : Bool) (m : Nat) (e : Int) : Rounded :=
  let top : Int := (Nat.log2 m : Int) + e
  let q : Int := max (top - f.fb) (1 - f.bias - f.fb)
  let s : Int := q - e
  let k := if s ≤ 0 then scaleUp m (-s) else roundShift r neg m s.toNat
  let exact := decide (s ≤ 0) || decide (m % 2 ^ s.toNat = 0)
  let code := ((q + f.fb + f.bias) * (2 ^ f.fb : Nat) + (k : Int) - (2 ^ f.fb : Nat)).toNat
  if f.overCode ≤ code then f.overflow r neg
  else
    (f.signBit neg + code,
      if exact then 0 else if f.tiny r neg m e then flagUF + flagNX else flagNX)

/-- An exact value in a binary format (02 R42, R43): rounded, with NaNs canonical. -/
def Binary.encode (f : Binary) (r : Rounding) : Val → Rounded
  | .nan sig => (f.nanCode, if sig then flagNV else 0)
  | .inf neg => (f.signBit neg + f.infCode, 0)
  | .num neg m e => if m = 0 then (f.signBit neg, 0) else f.round r neg m e

/-! ## The tapered formats (02 R53 to R57) -/

/-- A tapered format (02 Table 02-7): width, exponent bits, regime cap. -/
structure Tapered where
  n : Nat
  es : Nat
  cap : Nat
  deriving DecidableEq, Repr, Inhabited

def fmtT8 : Tapered := ⟨8, 1, 6⟩
def fmtT16 : Tapered := ⟨16, 1, 12⟩
def fmtT32 : Tapered := ⟨32, 2, 24⟩

/-- The NaR code. -/
def Tapered.nar (t : Tapered) : Nat := 2 ^ (t.n - 1)

/-- The length of the run of bits equal to `b` from position `pos` down, at most `fuel` (02 R54). -/
def runLength (x : Nat) (b : Bool) : Nat → Nat → Nat
  | _, 0 => 0
  | pos, fuel + 1 =>
    if bitN x pos == b then (if pos = 0 then 1 else 1 + runLength x b (pos - 1) fuel) else 0

/-- The magnitude m * 2^e of a positive code (02 R54, `t_decode`). -/
def Tapered.magnitude (t : Tapered) (x : Nat) : Nat × Int :=
  let b := bitN x (t.n - 2)
  let r := runLength x b (t.n - 2) t.cap
  -- bits left below the run and, below the cap, below its terminating bit
  let left := (t.n - 1 - r) - (if r < t.cap then 1 else 0)
  let k : Int := if b then (r : Int) - 1 else -(r : Int)
  let fw := left - t.es
  let e := if t.es ≤ left then bitsN x fw t.es else bitsN x 0 left * 2 ^ (t.es - left)
  let fr := bitsN x 0 fw
  (2 ^ fw + fr, k * (2 ^ t.es : Nat) + e - fw)

/-- The exact value of a tapered code (02 R54). -/
def Tapered.value (t : Tapered) (x : Nat) : Val :=
  let x := lowN x t.n
  if x = 0 then .num false 0 0
  else if x = t.nar then .nan false
  else
    let neg := bitN x (t.n - 1)
    let me := t.magnitude (if neg then 2 ^ t.n - x else x)
    .num neg me.1 me.2

/-- Whether the magnitude of code `c` is at most m * 2^e. -/
def Tapered.below (t : Tapered) (c m : Nat) (e : Int) : Bool :=
  let d := t.magnitude c
  cmpMag d.1 d.2 m e != .gt

/-- The greatest positive code whose value is at most m * 2^e, found bit by bit: decoding is monotonic (02 R54). -/
def Tapered.floorCode (t : Tapered) (m : Nat) (e : Int) : Nat → Nat → Nat
  | 0, c => c
  | i + 1, c =>
    let c' := if t.below (c + 2 ^ i) m e then c + 2 ^ i else c
    t.floorCode m e i c'

/-- A nonzero exact value rounded to a tapered format (02 R57). -/
def Tapered.round (t : Tapered) (neg : Bool) (m : Nat) (e : Int) : Rounded :=
  let out (c fl : Nat) : Rounded := (if neg then 2 ^ t.n - c else c, fl)
  let lo := t.magnitude 1
  let hi := t.magnitude (2 ^ (t.n - 1) - 1)
  if cmpMag m e lo.1 lo.2 == .lt then out 1 (flagUF + flagNX)
  else if cmpMag m e hi.1 hi.2 == .gt then out (2 ^ (t.n - 1) - 1) (flagOF + flagNX)
  else
    let c := t.floorCode m e (t.n - 1) 0
    let a := t.magnitude c
    if cmpMag m e a.1 a.2 == .eq then out c 0
    else
      let b := t.magnitude (c + 1)
      let x := min e (min a.2 b.2)
      let v2 := 2 * scaleUp m (e - x)
      let ab := scaleUp a.1 (a.2 - x) + scaleUp b.1 (b.2 - x)
      let c' := if v2 < ab then c else if ab < v2 then c + 1 else if c % 2 = 0 then c else c + 1
      out c' flagNX

/-- An exact value in a tapered format: NaN gives NaR, an infinity NaR with NV (02 Table 02-11), zero 0. -/
def Tapered.encode (t : Tapered) : Val → Rounded
  | .nan sig => (t.nar, if sig then flagNV else 0)
  | .inf _ => (t.nar, flagNV)
  | .num neg m e => if m = 0 then (0, 0) else t.round neg m e

/-! ## Format codes (02 Table 02-1) -/

/-- A float format: a binary one or a tapered one. -/
inductive FloatFmt where
  | bin (f : Binary)
  | tap (t : Tapered)
  deriving DecidableEq, Repr, Inhabited

/-- The float format of a format code 0x0 to 0x7; `none` for codes and integers. -/
def floatFmt (c : Nat) : Option FloatFmt :=
  match c with
  | 0 => some (.bin fmtF32)
  | 1 => some (.bin fmtF16)
  | 2 => some (.bin fmtBF16)
  | 3 => some (.tap fmtT16)
  | 4 => some (.tap fmtT32)
  | 5 => some (.tap fmtT8)
  | 6 => some (.bin fmtE4M3)
  | 7 => some (.bin fmtE5M2)
  | _ => none

/-- The bits of an element of a format code (02 Table 02-1). -/
def fmtBits (c : Nat) : Nat :=
  match c with
  | 0 => 32 | 1 => 16 | 2 => 16 | 3 => 16 | 4 => 32 | 5 => 8 | 6 => 8 | 7 => 8
  | 8 => 4 | 9 => 4 | 10 => 8 | 11 => 8 | 12 => 16 | 13 => 16 | _ => 32

/-- Whether an integer format is signed (02 Table 02-1). -/
def fmtSigned (c : Nat) : Bool := c = 9 || c = 10 || c = 12 || c = 14

/-- Whether a code names an integer format. -/
def fmtIsInt (c : Nat) : Bool := decide (9 ≤ c)

/-- Whether a code names a tapered format. -/
def fmtIsTapered (c : Nat) : Bool := c = 3 || c = 4 || c = 5

/-- The width of a float format. -/
def FloatFmt.width : FloatFmt → Nat
  | .bin f => f.width
  | .tap t => t.n

/-- Whether the format is e4m3 or e5m2. -/
def FloatFmt.isOcp : FloatFmt → Bool
  | .bin f => f = fmtE4M3 || f = fmtE5M2
  | .tap _ => false

/-- The exact value of a float code. e4m3 has no infinity and one NaN magnitude, and the NaNs of both 8-bit formats
are quiet (02 R47). -/
def FloatFmt.value : FloatFmt → Nat → Val
  | .tap t, x => t.value x
  | .bin f, x =>
    if f = fmtE4M3 then
      let neg := bitN x 7
      if bitsN x 0 7 = 0x7F then .nan false
      else if bitsN x 3 4 = 0 then .num neg (bitsN x 0 3) (-9)
      else .num neg (8 + bitsN x 0 3) ((bitsN x 3 4 : Int) - 10)
    else
      match f.value x with
      | .nan sig => .nan (sig && !decide (f = fmtE5M2))
      | v => v

/-- An exact value in a float format; tapered results ignore the mode (02 R44). -/
def FloatFmt.encode (r : Rounding) : FloatFmt → Val → Rounded
  | .bin f, v => f.encode r v
  | .tap t, v => t.encode v

/-- The canonical NaN, or NaR. -/
def FloatFmt.nan : FloatFmt → Nat
  | .bin f => f.nanCode
  | .tap t => t.nar

/-- Whether the format is tapered. -/
def FloatFmt.isTapered : FloatFmt → Bool
  | .bin _ => false
  | .tap _ => true

/-! ## Exact arithmetic (05 R111, R112; 02 R58) -/

/-- Whether a value is a signalling NaN. -/
def Val.isSig : Val → Bool
  | .nan s => s
  | _ => false

/-- Whether a value is a NaN. -/
def Val.isNan : Val → Bool
  | .nan _ => true
  | _ => false

/-- Whether a value is an infinity. -/
def Val.isInf : Val → Bool
  | .inf _ => true
  | _ => false

/-- Whether a value is a zero. -/
def Val.isZero : Val → Bool
  | .num _ m _ => m = 0
  | _ => false

/-- The sign of a value; a NaN counts as positive. -/
def Val.neg : Val → Bool
  | .nan _ => false
  | .inf n => n
  | .num n _ _ => n

/-- The value with its sign flipped. -/
def Val.negate : Val → Val
  | .nan s => .nan s
  | .inf n => .inf (!n)
  | .num n m e => .num (!n) m e

/-- The exact product of two values, with NV for a zero by an infinity. A NaN factor gives a NaN. -/
def mulExact (a b : Val) : Val × Nat :=
  match a, b with
  | .nan s, y => (.nan false, if s || y.isSig then flagNV else 0)
  | _, .nan s => (.nan false, if s then flagNV else 0)
  | .num n1 m1 e1, .num n2 m2 e2 => (.num (n1 != n2) (m1 * m2) (e1 + e2), 0)
  | x, y =>
    if x.isZero || y.isZero then (.nan false, flagNV) else (.inf (x.neg != y.neg), 0)

/-- The least exponent of the finite values of a list. -/
def minExp (l : List Val) : Int :=
  l.foldl (fun acc v => match v with | .num _ m e => if m = 0 then acc else min acc e | _ => acc) 0

/-- The exact sum of the finite values of a list, in units of 2^e for an e at most each of their exponents. -/
def sumExact (l : List Val) (e : Int) : Int :=
  l.foldl (fun acc v => match v with | .num n m x => acc + signed n (scaleUp m (x - e)) | _ => acc) 0

/-- The exact sum of values as a value, with the zero-sign rule of 05 R112 and NV for a signalling NaN or infinities
of both signs; a quiet NaN beside infinities of both signs raises none (log entry 73). `r` decides only the sign of an
exact zero. -/
def addExact (r : Rounding) (l : List Val) : Val × Nat :=
  let nv := if l.any Val.isSig then flagNV else 0
  if l.any Val.isNan then (.nan false, nv)
  else if l.any (fun v => v.isInf && v.neg) && l.any (fun v => v.isInf && !v.neg) then (.nan false, flagNV)
  else if l.any Val.isInf then (.inf (l.any (fun v => v.isInf && v.neg)), 0)
  else
    let e := minExp l
    let s := sumExact l e
    if s = 0 then
      if l.all (fun v => v.isZero && v.neg) then (.num true 0 0, 0)
      else if l.all (fun v => v.isZero && !v.neg) then (.num false 0 0, 0)
      else (.num (r = .rd) 0 0, 0)
    else (.num (decide (s < 0)) s.natAbs e, 0)

/-- A value and its flags, rounded into a format; the flags of both are joined. -/
def finish (f : FloatFmt) (r : Rounding) (v : Val × Nat) : Rounded :=
  let x := f.encode r v.1
  (x.1, v.2 ||| x.2)

/-- Addition in a destination format (05 R112). -/
def fadd (f : FloatFmt) (r : Rounding) (a b : Val) : Rounded := finish f r (addExact r [a, b])

/-- Subtraction: b is negated first (05 R112). -/
def fsub (f : FloatFmt) (r : Rounding) (a b : Val) : Rounded := finish f r (addExact r [a, b.negate])

/-- Multiplication. -/
def fmul (f : FloatFmt) (r : Rounding) (a b : Val) : Rounded := finish f r (mulExact a b)

/-- Fused multiply-add: one rounding of a * b + c; a zero by an infinity is invalid whatever c holds. -/
def ffma (f : FloatFmt) (r : Rounding) (a b c : Val) : Rounded :=
  let p := mulExact a b
  let s := addExact r [p.1, c]
  finish f r (s.1, p.2 ||| s.2)

/-- The exact sum of many operands rounded once (05 R123). -/
def fsum (f : FloatFmt) (r : Rounding) (l : List Val) : Rounded := finish f r (addExact r l)

/-- Whether `a` orders below `b` for minimumNumber and maximumNumber: -0 below +0 (05 R113). -/
def numberBelow (a b : Val) : Bool :=
  match cmpVal a b with
  | .lt => true
  | .gt => false
  | .eq => a.neg && !b.neg

/-- minimumNumber or maximumNumber of two values (05 R113), with NV for a signalling NaN. -/
def minMaxNumber (isMax : Bool) (a b : Val) : Val × Nat :=
  let nv := if a.isSig || b.isSig then flagNV else 0
  if a.isNan then (if b.isNan then .nan false else b, nv)
  else if b.isNan then (a, nv)
  else (if numberBelow a b != isMax then a else b, nv)

/-- The signed integer of a tapered code (02 R59). -/
def Tapered.asInt (t : Tapered) (x : Nat) : Int := extI x t.n true

/-- An exact value rounded to an integer in a mode (05 R115, FRND; 02 Table 02-11). -/
def roundToInt (r : Rounding) (neg : Bool) (m : Nat) (e : Int) : Nat :=
  if 0 ≤ e then scaleUp m e else roundShift r neg m (-e).toNat

/-- Whether m * 2^e is an integer. -/
def isInteger (m : Nat) (e : Int) : Bool := decide (0 ≤ e) || decide (m % 2 ^ (-e).toNat = 0)

/-! ## Conversion (02 R48, R60; 05 R116) -/

/-- An exact value converted to an integer format (02 Table 02-11); the rounded integer is held against the range (log
entry 74). -/
def toIntFmt (r : Rounding) (c : Nat) (v : Val) : Rounded :=
  let w := fmtBits c
  let lo : Int := if fmtSigned c then -(2 ^ (w - 1) : Nat) else 0
  let hi : Int := if fmtSigned c then (2 ^ (w - 1) : Nat) - 1 else (2 ^ w : Nat) - 1
  match v with
  | .nan _ => (0, flagNV)
  | .inf neg => (lowI (if neg then lo else hi) w, flagNV)
  | .num neg m e =>
    let i := signed neg (roundToInt r neg m e)
    if i < lo then (lowI lo w, flagNV)
    else if hi < i then (lowI hi w, flagNV)
    else (lowI i w, if isInteger m e then 0 else flagNX)

/-- A float value converted to e4m3 or e5m2 (02 R48), saturating (CVQ) or not (CVT). A NaN gives the canonical NaN. -/
def toOcp (r : Rounding) (sat : Bool) (f : Binary) (v : Val) : Rounded :=
  match v with
  | .nan s => (f.nanCode, if s then flagNV else 0)
  | .inf neg =>
    if f = fmtE4M3 then
      if sat then (f.signBit neg + 0x7E, 0) else (f.signBit neg + f.nanCode, flagNV)
    else (f.signBit neg + f.infCode, 0)
  | .num neg m e =>
    if m = 0 then (f.signBit neg, 0)
    else
      let x := f.round r neg m e
      if sat && bitN x.2 2 then (f.signBit neg + (f.overCode - 1), flagOF + flagNX) else x

/-- Conversion of a `sf` element to a `df` element (02 Table 02-11). `sat` selects CVQ's rules. -/
def convert (r : Rounding) (sat : Bool) (sf df : Nat) (x : Nat) : Rounded :=
  match floatFmt sf, floatFmt df with
  | some f, some g =>
    if sf = df && f.isTapered then (x, 0)
    else if sf = df then
      match f.value x with
      | .nan s => (f.nan, if s then flagNV else 0)
      | _ => (x, 0)
    else
      match g with
      | .bin b => if g.isOcp then toOcp r sat b (f.value x) else b.encode r (f.value x)
      -- an infinity, e5m2's too, becomes NaR with NV (Tables 02-3 and 02-11, 02 R48; log entry 14)
      | .tap t => t.encode (f.value x)
  | some f, none =>
    -- an 8-bit NaN raises nothing (02 R47; log entry 14)
    if f.isOcp && (f.value x).isNan then (0, 0) else toIntFmt r df (f.value x)
  | none, some g =>
    let i := extI x (fmtBits sf) (fmtSigned sf)
    let v : Val := .num (decide (i < 0)) i.natAbs 0
    match g with
    | .bin b => if g.isOcp then toOcp r sat b v else b.encode r v
    | .tap t => t.encode v
  | none, none => (lowI (extI x (fmtBits sf) (fmtSigned sf)) (fmtBits df), 0)

/-! ## Codebooks (02 R50 to R52) -/

/-- Built-in table 0, E2M1 (02 Table 02-6). -/
def tableE2M1 : List (BitVec 16) :=
  [0x0000, 0x3F00, 0x3F80, 0x3FC0, 0x4000, 0x4040, 0x4080, 0x40C0,
   0x8000, 0xBF00, 0xBF80, 0xBFC0, 0xC000, 0xC040, 0xC080, 0xC0C0]

/-- Built-in table 1, integers -8 to 7 (02 Table 02-6). -/
def tableInt4 : List (BitVec 16) :=
  [0x0000, 0x3F80, 0x4000, 0x4040, 0x4080, 0x40A0, 0x40C0, 0x40E0,
   0xC100, 0xC0E0, 0xC0C0, 0xC0A0, 0xC080, 0xC040, 0xC000, 0xBF80]

/-- The codebook a selector names (02 Table 02-5). -/
def codebook (cb0 cb1 : List (BitVec 16)) (sel : Nat) : List (BitVec 16) :=
  match sel with
  | 0 => cb0
  | 1 => cb1
  | 2 => tableE2M1
  | _ => tableInt4

/-- The value of an e8m0 scale (02 R49). -/
def e8m0Value (x : Nat) : Val := if x = 0xFF then .nan false else .num false 1 ((x : Int) - 127)

end Sys2Proof.Machine
end

