-- ==== Sys2Proof/Machine/Operands.lean ====
section
/-! DEFINITION. Register operands: cells and their tags (01 R25 to R28), slices read and written (01 R14, R21, R22),
the tag a write leaves (01 R26, Table 01-3), the spill slot of a cell (01 R33), and what an instruction reads of the
group that issues it (`View`). -/

namespace Sys2Proof.Machine

open Sys2Proof

/-! ## Cells -/

/-- The value of lane `i` in a cell (01 R25): an absent lane's value is the one the tag implies, or the one the G
form holds. -/
def Cell.lane (c : Cell) (i : Nat) : Word :=
  match c with
  | .u v => v
  | .a b s => b + BitVec.ofNat 32 (i * s.toNat)
  | .g l => l.getD i 0

/-- The tag code of a cell (01 R28). -/
def Cell.code (c : Cell) : Nat :=
  match c with
  | .u _ => 0
  | .a _ _ => 1
  | .g _ => 2

/-- The tag of a cell as an operation result tag. -/
def Cell.tag (c : Cell) : OpTag :=
  match c with
  | .u _ => .u
  | .a b s => .a b s
  | .g _ => .g

/-- The G cell with the given value in each lane of a mask and the cell's own value in every other lane. -/
def Cell.general (c : Cell) (lanes : Word) (f : Nat → Word) : Cell :=
  .g (allLanes.map (fun i => if hasLane lanes i then f i else c.lane i))

/-- A tag without the note on its sources; an affine result with stride 0 is tagged U (01 R25). -/
def OpTag.result (t : OpTag) : OpTag :=
  match t with
  | .u | .mixed => .u
  | .a b s => if s = 0 then .u else .a b s
  | .g | .flat => .g

/-- The tag of a cell that a write of 64 or 128 bits covers whole: U when every source is U (01 Table 01-3). -/
def OpTag.sources (t : OpTag) : OpTag :=
  match t with
  | .u | .flat => .u
  | .a _ _ | .g | .mixed => .g

/-- A result tag that an entry states, with whether every source is U: a stated U with a source that is not U is `mixed`. -/
def OpTag.noting (t : OpTag) (src : Bool) : OpTag :=
  match t with
  | .u => if src then .u else .mixed
  | t => t

/-- The result tag of an operation that no rule of R27 admits: G, and of U sources `flat`. -/
def OpTag.excluded (src : Bool) : OpTag := if src then .flat else .g

/-- A whole cell with an operation result tag (01 Table 01-3). -/
def Cell.whole (c : Cell) (tag : OpTag) (lanes : Word) (f : Nat → Word) : Cell :=
  match tag with
  | .a b s => .a b s
  | .u | .mixed => .u (f ((lowestLane lanes).getD 0))
  | .g | .flat => c.general lanes f

/-- Cell `k` of a list of cells; a cell beyond the budget reads as U 0. -/
def cellAt (cells : List StoredCell) (k : Nat) : Cell := (cells.getD k { cell := .u 0, evicted := false, used := 0 }).cell

/-- The slices of a lane, as one number: slice `s` is bits 4s + 3 to 4s (01 R14). Cell by cell from cell `k`. -/
def laneBits (cells : List StoredCell) (i : Nat) (k : Nat) : Nat → Nat
  | 0 => 0
  | n + 1 => ((cellAt cells k).lane i).toNat + 2 ^ 32 * laneBits cells i (k + 1) n

/-- The `w`-bit value of lane `i` at slice `s` (04 R94, `slice_read`). -/
def sliceRead (cells : List StoredCell) (i s w : Nat) : Nat :=
  bitsN (laneBits cells i (s / 8) ((s % 8 * 4 + w + 31) / 32)) (s % 8 * 4) w

/-- The cells that `w` bits at slice `s` touch. -/
def touched (s w : Nat) : List Nat := (List.range ((s % 8 * 4 + w + 31) / 32)).map (fun j => s / 8 + j)

/-- The tag of a `w`-bit operand at slice `s`: the cell's own for a whole cell; otherwise U when every cell it
touches is U (01 R27; log entry 17), else G. -/
def operandTag (cells : List StoredCell) (s w : Nat) : OpTag :=
  if s % 8 = 0 && w = 32 then (cellAt cells (s / 8)).tag
  else if (touched s w).all (fun k => (cellAt cells k).code = 0) then .u
  else .g

/-- Whether an operand is marked U by its tag (04 R95). -/
def isU (cells : List StoredCell) (s w : Nat) : Bool := operandTag cells s w == .u

/-! ## Writing -/

/-- What a write of `w` bits at slice `s` puts into cell `k`: the first bit within the cell, the number of bits, and
the first bit of the value that lands there. -/
def cellPart (s w k : Nat) : Nat × Nat × Nat :=
  let lo := 4 * s
  let hi := 4 * s + w
  let a := max lo (32 * k)
  let b := min hi (32 * k + 32)
  (a - 32 * k, b - a, a - lo)

/-- The cell `k` after a write (01 R26, Table 01-3). `vals` holds each lane's value, `lanes` the lanes written,
`full` says whether every present lane is written. -/
def writeCell (c : Cell) (k s w : Nat) (vals : List Nat) (lanes : Word) (full : Bool) (tag : OpTag) : Cell :=
  let p := cellPart s w k
  let t := tag.result
  let merged (i : Nat) : Word :=
    BitVec.ofNat 32 (putBitsN (c.lane i).toNat p.1 p.2.1 (bitsN (laneVal vals i) p.2.2 p.2.1))
  if full then
    if p.2.1 = 32 then
      c.whole (if w = 32 then t else tag.sources) lanes merged
    else
      match c, t with
      | .u _, .u => .u (merged ((lowestLane lanes).getD 0))
      | _, _ => c.general lanes merged
  else
    match c, t with
    | .u v, .u => if merged ((lowestLane lanes).getD 0) = v then .u v else c.general lanes merged
    | _, _ => c.general lanes merged

/-- The cells after a write; a cell written is resident and accessed at `now` (01 R30). -/
def writeCells (cells : List StoredCell) (present : Word) (now : Nat) (s w : Nat) (vals : List Nat) (lanes : Word)
    (tag : OpTag) : List StoredCell :=
  if lanes = 0 then cells
  else
    let full := present &&& lanes == present
    (touched s w).foldl (fun cs k => modAt cs k (fun c =>
      { cell := writeCell c.cell k s w vals lanes full tag, evicted := false, used := now })) cells

/-- A group after a register write (01 R21, R26). -/
def Group.write (g : Group) (now s w : Nat) (vals : List Nat) (lanes : Word) (tag : OpTag) : Group :=
  { g with cells := writeCells g.cells g.present now s w vals lanes tag }

/-! ## Spill slots (01 R33) -/

/-- Whether a word is the sign extension of its own low `n` bits. -/
def fitsSigned (v : Word) (n : Nat) : Bool := decide (extI v.toNat n true = v.toInt)

/-- The 132 bytes of a cell's spill slot: the first format that holds it, zeros in the bytes it does not use. -/
def Cell.slot (c : Cell) : List (BitVec 8) :=
  let lanes := allLanes.map (fun i => c.lane i)
  let pad (l : List (BitVec 8)) : List (BitVec 8) := takePad 0 l 132
  match c with
  | .u v => pad (natToBytes 0 4 ++ natToBytes v.toNat 4)
  | .a b s => pad (natToBytes 1 4 ++ natToBytes b.toNat 4 ++ natToBytes s.toNat 4)
  | .g _ =>
    if lanes.all (fun v => fitsSigned v 8) then
      pad (natToBytes 2 4 ++ (lanes.map (fun v => natToBytes v.toNat 1)).flatten)
    else if lanes.all (fun v => fitsSigned v 16) then
      pad (natToBytes 3 4 ++ (lanes.map (fun v => natToBytes v.toNat 2)).flatten)
    else pad (natToBytes 4 4 ++ (lanes.map (fun v => natToBytes v.toNat 4)).flatten)

/-- The cell that a spill slot holds; `none` for a reserved format or a must-be-zero bit (01 R33). -/
def Cell.ofSlot (b : List (BitVec 8)) : Option Cell :=
  let sext (v n : Nat) : Word := BitVec.ofInt 32 (extI v n true)
  match leAt b 0 4 with
  | 0 => some (.u (BitVec.ofNat 32 (leAt b 4 4)))
  | 1 => some (.a (BitVec.ofNat 32 (leAt b 4 4)) (BitVec.ofNat 32 (leAt b 8 4)))
  | 2 => some (.g (allLanes.map (fun i => sext (leAt b (4 + i) 1) 8)))
  | 3 => some (.g (allLanes.map (fun i => sext (leAt b (4 + 2 * i) 2) 16)))
  | 4 => some (.g (allLanes.map (fun i => BitVec.ofNat 32 (leAt b (4 + 4 * i) 4))))
  | _ => none

/-- The bytes a cell takes in the register store (01 R29): 4, 8, or the smallest G form whose deltas from lane 0
fit. -/
def Cell.size (c : Cell) : Nat :=
  match c with
  | .u _ => 4
  | .a _ _ => 8
  | .g l =>
    let d := l.map (fun v => v - l.getD 0 0)
    if d.all (fun v => fitsSigned v 8) then 36 else if d.all (fun v => fitsSigned v 16) then 68 else 128

/-! ## The issuing group -/

/-- A context number's state; an unlisted number is free. -/
def Device.ctx (d : Device) (c : BitVec 6) : Context := tableGet Context.free d.contexts c.toNat

/-- The device with a context replaced. -/
def Device.setCtx (d : Device) (c : BitVec 6) (x : Context) : Device :=
  { d with contexts := tableSet d.contexts c.toNat x }

/-- The device with a context changed. -/
def Device.modCtx (d : Device) (c : BitVec 6) (f : Context → Context) : Device := d.setCtx c (f (d.ctx c))

/-- A placed workgroup. -/
def Device.wg (d : Device) (uid : Nat) : Option Workgroup := d.wgs.find? (fun w => w.uid == uid)

/-- The device with a workgroup changed. -/
def Device.modWg (d : Device) (uid : Nat) (f : Workgroup → Workgroup) : Device :=
  { d with wgs := d.wgs.map (fun w => if w.uid == uid then f w else w) }

/-- The device with a group changed. -/
def Device.modGroup (d : Device) (uid g : Nat) (f : Group → Group) : Device :=
  d.modWg uid (fun w => { w with groups := modAt w.groups g f })

/-- A Locket of a context. -/
def Context.locket (c : Context) (handle : BitVec 16) : Option Locket :=
  c.lockets.find? (fun l => l.handle == handle)

/-- A kernel of a context. -/
def Context.kernel (c : Context) (handle : BitVec 16) (k : Nat) : Option Kernel :=
  match c.locket handle with
  | some l => l.kernels[k]?
  | none => none

/-- What an instruction reads of the group that issues it: the device, the issue, the workgroup, the hardware group,
the slot and the agent that issue (half 1 of mode 16 when `half`), the workgroup's kernel and the kernel whose
automaton runs (a library's while the group is in it). -/
structure View where
  dev : Device
  iss : Issue
  wg : Workgroup
  g : Nat
  grp : Group
  half : Bool
  agent : Agent
  slot : Slot
  ctx : Context
  kern : Kernel
  auto : Kernel
  deriving DecidableEq, Repr, Inhabited

/-- The slice budget of a group (01 R13): eight slices for each of its cells. -/
def Group.budget (g : Group) : Nat := 8 * g.cells.length

/-- The slot of a group. -/
def Group.slot (g : Group) (n : Bool) : Option Slot := if n then g.slot1 else g.slot0

/-- The group with a slot replaced. -/
def Group.setSlot (g : Group) (n : Bool) (s : Option Slot) : Group :=
  if n then { g with slot1 := s } else { g with slot0 := s }

/-- The agent of a group. -/
def Group.agent (g : Group) (half : Bool) : Agent := if half then g.agent1 else g.agent0

/-- The group with an agent changed. -/
def Group.modAgent (g : Group) (half : Bool) (f : Agent → Agent) : Group :=
  if half then { g with agent1 := f g.agent1 } else { g with agent0 := f g.agent0 }

/-- Whether a kernel is of width mode 16 (16 R280). -/
def Kernel.mode16 (k : Kernel) : Bool := k.wmode == 0

/-- Whether a kernel is of width mode 64 (16 R281). -/
def Kernel.mode64 (k : Kernel) : Bool := k.wmode == 2

/-- The group index of an agent of the hardware group number `j` (06 R128; 16 R280): in mode 16 every half is a group of its own.
The halves of a hardware group are groups 2j and 2j + 1; in a quad, where group g lies on core g mod 4 (15 R263), they are the
two of each eight groups that share the hardware group's core (log entry 59). -/
def Kernel.indexAt (k : Kernel) (j : Nat) (half : Bool) : Nat :=
  if !k.mode16 then j
  else if k.quad then 8 * (j / 4) + j % 4 + (if half then 4 else 0)
  else 2 * j + (if half then 1 else 0)

/-- The hardware group of a group index. -/
def Kernel.hwGroup (k : Kernel) (g : Nat) : Nat :=
  if !k.mode16 then g else if k.quad then 4 * (g / 8) + g % 4 else g / 2

/-- The hardware group and half of an agent named by its group index. -/
def Kernel.agentAt (k : Kernel) (g : Nat) : Nat × Bool :=
  (k.hwGroup g, k.mode16 && (if k.quad then decide (4 ≤ g % 8) else g % 2 == 1))

/-- The hardware group that keeps the agent of group `g`: in mode 64 the lower one of the pair (16 R281). -/
def Group.home (x : Group) (g : Nat) : Nat := if x.pair = some true then g - 1 else g

/-- The agent that hardware group `g` is part of: a paired group of mode 64 is one agent, of which each half has a %seg of
its own and its own lanes of a library (16 R281; log entry 23). -/
def Workgroup.agentOf (w : Workgroup) (x : Group) (g : Nat) (half : Bool) : Agent :=
  if x.pair = some true then
    match w.groups[g - 1]? with
    | some lower => { lower.agent half with seg := (x.agent half).seg, library := (x.agent half).library }
    | none => x.agent half
  else x.agent half

/-- The view of hardware group `g` of the issuing workgroup. -/
def viewOf (d : Device) (iss : Issue) (g : Nat) : Option View :=
  match d.wg iss.wg with
  | none => none
  | some w =>
    match w.groups[g]? with
    | none => none
    | some grp =>
      let ctx := d.ctx w.ctx
      match ctx.kernel w.handle w.kernel, grp.slot iss.slot with
      | some k, some s =>
        let half := k.mode16 && iss.slot
        let ag := w.agentOf grp g half
        let auto := match ag.library with
          | some l => (ctx.kernel l.handle l.kernel).getD k
          | none => k
        some { dev := d, iss := iss, wg := w, g := g, grp := grp, half := half, agent := ag, slot := s, ctx := ctx,
               kern := k, auto := auto }
      | _, _ => none

/-- The hardware group that keeps the issuing agent. -/
def View.home (v : View) : Nat := v.grp.home v.g

/-- The views an instruction acts on: the issuing group's, and in mode 64 the upper group's after it (16 R281). -/
def viewsOf (d : Device) (iss : Issue) : List View :=
  match viewOf d iss iss.g with
  | none => []
  | some v =>
    if v.grp.pair = some false then
      match viewOf d iss (iss.g + 1) with
      | some u => [v, u]
      | none => [v]
    else [v]

/-- Whether the group runs at library privilege (06 R145). -/
def View.library (v : View) : Bool := v.agent.library.isSome

/-- The lanes present to the issuing agent (01 R25; 16 R280: the other half's lanes are absent to a half). -/
def View.present (v : View) : Word :=
  if v.kern.mode16 then v.grp.present &&& (if v.half then 0xFFFF0000 else 0x0000FFFF) else v.grp.present

/-- A lane mask of the group. -/
def View.mask (v : View) (k : BitVec 3) : Word := v.grp.masks.getD k.toNat 0

/-- The lanes of a set that a predicate keeps (04 R87). -/
def View.predicate (v : View) (lanes : Word) (k : BitVec 3) (neg : Bool) : Word :=
  lanes &&& (if neg then ~~~(v.mask k) else v.mask k)

/-- The base set that the SPAN in force fixes, narrowed by its predicate (06 R135; 07 R156): present lanes only. -/
def View.base (v : View) : Word :=
  match v.slot.span with
  | none => 0
  | some sp =>
    if v.slot.afterTerm then 0
    else
      let live := v.slot.mask &&& v.present &&& ~~~v.slot.moved &&& ~~~v.grp.parked &&& ~~~v.grp.exited
      let lanes := maskOf (fun i => hasLane live i && v.grp.lbr.getD i 0 == sp.block)
      match sp.pred with
      | none => lanes
      | some p => v.predicate lanes p.1 p.2

/-- The active lanes of an instruction (07 R156). -/
def View.active (v : View) (h : Hdr) : Word :=
  if h.e.pe then v.predicate v.base h.e.pk h.e.pn else v.base

/-- A slice value of lane `i`. -/
def View.read (v : View) (i s w : Nat) : Nat := sliceRead v.grp.cells i s w

/-- A slice value in the lowest of some lanes (09 R199). -/
def View.readLowest (v : View) (lanes : Word) (s w : Nat) : Nat := v.read ((lowestLane lanes).getD 0) s w

/-- The slice values of every lane. -/
def View.readAll (v : View) (s w : Nat) : List Nat := perLane (fun i => v.read i s w)

/-- Whether an operand is U (04 R95). -/
def View.isU (v : View) (s w : Nat) : Bool := Sys2Proof.Machine.isU v.grp.cells s w

/-- The tag of an operand. -/
def View.tag (v : View) (s w : Nat) : OpTag := operandTag v.grp.cells s w

/-- The segment length (05, lane exchange). -/
def View.seg (v : View) : Nat := v.agent.seg.toNat

/-- The context number. -/
def View.c (v : View) : BitVec 6 := v.wg.ctx

/-- The die of the issuing core (01 Table 01-8, %core). -/
def dieOf (core : BitVec 8) : BitVec 2 := BitVec.ofNat 2 (core.toNat / 64)

/-- The rounding mode of %fmode (01 Table 01-8). -/
def View.rounding (v : View) : Rounding := Rounding.ofCode v.ctx.fmode.toNat

end Sys2Proof.Machine

namespace Sys2Proof

open Sys2Proof.Machine

/-! ## Operand fields -/

/-- The destination slice of a word (01 R17). -/
def Hdr.d (h : Hdr) (d : BitVec 7) : Nat := sliceOf h.e.dh d

/-- The slice of source a (01 R17). -/
def Hdr.a (h : Hdr) (a : BitVec 7) : Nat := sliceOf h.e.ah a

/-- The slice of source b (01 R17). -/
def Hdr.b (h : Hdr) (b : BitVec 7) : Nat := sliceOf h.e.bh b

/-- The first slice of cell b6 of format E (04 R85). -/
def Machine.cellSlice (b : BitVec 6) : Nat := 8 * b.toNat

/-- The width of source a: aw3 under an override, else the word's (01 R20). -/
def Hdr.widthA (h : Hdr) (w : BitVec 3) : Nat := widthOf (if h.e.wo then h.e.aw else w)

/-- The width of source b. -/
def Hdr.widthB (h : Hdr) (w : BitVec 3) : Nat := widthOf (if h.e.wo then h.e.bw else w)

/-- The width in bits of a type code (02 R41). -/
def Machine.typeWidth (w : BitVec 3) : Nat := fmtBits w.toNat

/-- The float format of a type code (02 R41). -/
def Machine.typeFmt (w : BitVec 3) : FloatFmt := (floatFmt w.toNat).getD (.bin fmtF32)

/-- The type code of source a: aw3 under an override (05 R111). -/
def Hdr.typeA (h : Hdr) (w : BitVec 3) : BitVec 3 := if h.e.wo then h.e.aw else w

/-- The type code of source b. -/
def Hdr.typeB (h : Hdr) (w : BitVec 3) : BitVec 3 := if h.e.wo then h.e.bw else w

/-- The .sat bit of formats A3 and A2 (04 R87). -/
def Hdr.sat (h : Hdr) : Bool := h.e.ix == 1

/-- The immediate of format AI: imm8, or ix:imm8 with an EXT (04 R85). -/
def Hdr.imm8 (h : Hdr) (i : BitVec 8) (signed : Bool) : Int :=
  if h.ext.isSome then extI (h.e.ix.toNat * 2 ^ 8 + i.toNat) 13 signed else extI i.toNat 8 signed

/-- The immediate of MOVI: imm18, or ix:imm18 with an EXT, sign-extended (05 R110). -/
def Hdr.imm18 (h : Hdr) (i : BitVec 18) : Int :=
  if h.ext.isSome then extI (h.e.ix.toNat * 2 ^ 18 + i.toNat) 23 true else extI i.toNat 18 true

/-- An operand span: start slice and slices spanned (01 R19). -/
def Machine.span (s w : Nat) : Nat × Nat := (s, w / 4)

end Sys2Proof
end

