-- ==== Sys2Proof/Machine/Fetch.lean ====
section
/-! DEFINITION. A program of one instruction placed where the next step fetches. It stands for the host's commands and the
distributor's placement that bring a program to run (log entry 28): from reset, the boot (24 R366), the creation of a
context (17 R289), LOAD, START and one placement. -/

namespace Sys2Proof.Machine

open Sys2Proof

/-- The code of the placed program: a packet with SPAN B0, then the instruction, filled up with NOP. -/
def placedCode (words : List Word) : List Word :=
  [0x6A200000, 0x6A000000, 0x6A000000] ++ takePad 0 words 3

/-- A kernel of one state and one block with the widest budget. -/
def placedKernel (words : List Word) : Kernel :=
  { wmode := 1, quad := false, ordr := false, cb0 := true, cb1 := true, slices := 512, dstack := 64, roles := [],
    shared := 65536, tiles := 4, ptiles := 0, nbar := 8, stack := 64, widths := [7, 0, 0, 0, 0], entry := 0,
    blocks := [{ join := false, fall := 0, single := 0 }],
    states := [{ code := placedCode words, join := none, cands := [0], set := [0], succ := [(1, 0)] }], sets := [] }

/-- An agent as a placement leaves it (01 R35). -/
def Agent.start (seg : Word) : Agent :=
  { seg := seg, batch := 0, openOps := 0, closed := [], phases := 0,
    trap := { lib := false, slot := false, word := 0, cause := 0, state := 0, resume := 0, lanes := 0, detail := 0, cyc := 0 },
    tcause := 0, depth := 0, library := none, logSeq := 0, engSeq := 0, reqSeq := 0 }

/-- A hardware group as a placement leaves it (01 R35; 06 R134): `slots` are its occupied slots. Its cells count as not accessed
yet, so that they are evicted before any other, in slot and cell order (log entry 78). -/
def Group.start (index : Nat) (part : BitVec 5) (rslot : Nat) (core : BitVec 8) (gen : BitVec 4) (present : Word)
    (budget : Nat) (block : BitVec 12) (slot0 slot1 : Option Slot) (seg : Word) (spill : Nat) (pair : Option Bool) :
    Group :=
  { index := index, part := part, rslot := rslot, core := core, gen := gen, present := present,
    cells := List.replicate (budget / 8) { cell := .u 0, evicted := false, used := 0 },
    masks := present :: List.replicate 7 0, cb0 := List.replicate 16 0, cb1 := List.replicate 16 0,
    lbr := allLanes.map (fun i => if hasLane present i then block else 0), link := List.replicate 32 0, parked := 0,
    exited := 0, slot0 := slot0, slot1 := slot1, alt := false, agent0 := Agent.start seg, agent1 := Agent.start seg,
    spill := spill, pair := pair, entryMasks := [], yielded := false, admitted := [], retired := false }

/-- The slot of the placed program: at its second packet, with the SPAN of the first in force. -/
def placedSlot : Slot :=
  { state := 0, addr := 12, mask := 0xFFFFFFFF, moved := 0, join := none, wake := 0, wait := .awake, resume := 0,
    span := some { block := 0, pred := none }, afterTerm := false }

/-- The workgroup of the placed program: one group of 32 lanes on partition 0 of core 0. -/
def placedWorkgroup (uid : Nat) : Workgroup :=
  { uid := uid, ctx := 0, tag := 1, ordinal := 0, coord := 0, core := 0, quad := false, handle := 1, kernel := 0,
    groups := [Group.start 0 0 0 0 0 0xFFFFFFFF 512 0 (some placedSlot) none 32 0 none], shared := Vector.replicate 4 [],
    tiles := Vector.replicate 4 [], follower := [], bars := [], stopped := DebugStop.running, gone := false }

/-- The state with a program of one instruction loaded and placed, so that the next step issues it. -/
def State.placed (s : State) (words : List Word) : State :=
  let d := s.dev
  let ctx : Context := { d.ctx 0 with
    state := .active, stopping := false, fcause := 0,
    lockets := [{ handle := 1, dbg := false, image := [], kernels := [placedKernel words], graphs := [] }] }
  { dev := { d.setCtx 0 ctx with
      powered := true, boot := { step := 15, halt := false, found := d.boot.found }, pointers := [], packets := [], writes := [],
      wgs := [placedWorkgroup d.nextId], nextId := d.nextId + 1 },
    issue := none, latch := none, turn := .partition 0 0, inputs := s.inputs }

end Sys2Proof.Machine
end

