-- ==== Sys2Proof/Config.lean ====
section
/-! DEFINITION. What an implementation of the KQ-192 fixes and the free values: constants with no body, so that no
proof can see what they are. A field `Device.tick`, which every step advances, indexes the values that may differ
from one time to the next. -/

namespace Sys2Proof.Config

open Sys2Proof.Machine

/-- The special functions, as an index of `sfuDelta` (02 Table 02-12). -/
inductive Fn where
  | rcp | rsqrt | sqrt | exp2 | log2 | sin | cos | tanh
  deriving DecidableEq, Repr, Inhabited

/-- Where inside its bound a special function's result falls (02 R61): a signed fraction of the bound in units of
2^-31. A fixed function of the function, the source and destination types, the mode and the operand's bits
(log entry 7). -/
opaque sfuDelta : Fn → BitVec 3 → BitVec 3 → BitVec 2 → Word → Word

/-- The result of SIN or COS at an operand outside the domain of its bound (02 R61, Table 02-12), as a code of the
destination type, by function, source and destination types, mode and operand; `specialFn` admits it only inside
[-1, 1] (log entry 7). -/
opaque sfuWild : Fn → BitVec 3 → BitVec 3 → BitVec 2 → Word → Word

/-- The f32 a core's array in reduced-array mode proposes for a sum whose exact rounded value is given: a fixed
function of the remap state and the operands (03 R75); `dotReduced` admits it only inside the bound (log entry 8). -/
opaque reducedSum : (core : BitVec 8) → (columns : List (BitVec 8)) → (operands : List Nat) → Word

/-- The agent that moves next after the step numbered by the tick (log entry 2). -/
opaque nextTurn : Nat → Turn

/-- Whether a fetch of a packet whose code has changed since it was cached returns the old packet (16 R286; 18 R318), by
tick. -/
opaque packetStale : Nat → Bool

/-- Whether an access uses a cached translation although the page tables have changed since (17 R293), by tick, die,
context and page (log entry 18). -/
opaque translationStale : Nat → BitVec 2 → BitVec 6 → Nat → Bool

/-- How many CYC after its issue a request is promised (08 R181), by tick and word of the chain (log entry 9). -/
opaque promiseDelay : Nat → Nat → BitVec 32

/-- The CYC elapsed in one advance of the counter, less one (00 R5; log entry 2). -/
opaque elapsed : Nat → BitVec 16

/-- A virtual address, as a multiple of 64 KiB, that the loader would choose for a region (16 R268, R271); one that
overlaps is not taken (log entry 10). -/
opaque regionPage : Nat → Nat → Nat

/-- A physical page number the loader would choose for a page or a table (16 R268; log entry 10). -/
opaque physicalPage : Nat → Nat → Nat

/-- The scratchpad place, in 4 KiB units, of a layer-order or expert-slot table (16 R270; log entry 10). -/
opaque tablePlace : Nat → Nat → Nat

/-- The handle the loader would give a Locket (16; log entry 10). -/
opaque handle : Nat → BitVec 16

/-- The result bytes of a QUERY of fenced cores, reduced-array cores or launch states, whose item numbers and layout
the spec does not give (15 R254; log entry 11). -/
opaque queryBytes : Nat → Nat → BitVec 8

/-- The bytes of SPDM answers whose contents the spec does not give, by request, tick and place (log entry 12). -/
opaque spdmByte : Nat → Nat → Nat → BitVec 8

/-- The number of bytes of such an answer. -/
opaque spdmLength : Nat → Nat → BitVec 16

/-- Which of the copy engines of its die and its world runs a request that names none (09 R203), by request number (log
entry 38). -/
opaque engineOf : Nat → Nat

/-- Whether the device on a peer port refuses an access to one of its 64 KiB pages (23 R360), by tick, port, page, and
whether the access is of the secure world and writes: that device's windows are its own (log entry 35). -/
opaque peerRefuses : (tick port page : Nat) → (sec write : Bool) → Bool

/-- Whether the window of a peer over one of its 64 KiB pages names a context, whose reduction area then serves ordered
reduce-adds (23 R359), by tick, port and page (log entry 35). -/
opaque peerReduces : (tick port page : Nat) → Bool

/-- The private part of the device identity key, a Falcon-1024 key that the controller holds (23 R363). -/
opaque identityKey : List (BitVec 8)

/-- The bytes of the signature that a key makes over the nonce of a CHALLENGE, by tick (23 R364; log entry 12). -/
opaque signatureByte : (key : List (BitVec 8)) → (nonce : BitVec 256) → Nat → Nat → BitVec 8

/-- The bytes of the certificate that carries the public part of a key (23 R364; log entry 12). -/
opaque certificateByte : (key : List (BitVec 8)) → Nat → BitVec 8

/-- Whether the boot step that runs ends in this advance of the counter (24 R366), by tick (log entry 58). -/
opaque bootAdvance : Nat → Bool

/-- What a byte of a workgroup's shared memory beyond the Locket's image holds at placement, or any byte where there is no
image (14 R250), by tick, segment and offset (log entry 69). -/
opaque placedByte : Nat → Nat → Nat → BitVec 8

/-- The bytes that hold a written-back accumulator in the reduction area, 48 each (09 R198; 17 R302), whose layout the
spec does not give (log entry 70). -/
opaque accByte : Accumulator → Nat → BitVec 8

/-- The die and stack of the byte at an HBM address (00 Table 00-1), which the spec does not give: bits 3:2 are the die,
bits 1:0 the stack (log entry 71). -/
opaque hbmStack : Nat → BitVec 4

/-- What a group record holds in the slot of a cell that its save could not refill (17 R300, R305; log entry 81), by cell and
byte. -/
opaque unsavedByte : Nat → Nat → BitVec 8

/-- What a read of the host gets for a byte of HBM that an error has lost (21 R333; log entry 82), by step and address. -/
opaque lostByte : Nat → Nat → BitVec 8

/-- The telemetry the controller reports (24 R367): the package power since the last advance of CYC, and the temperatures (log
entry 13). -/
opaque telemetry : Nat → Nat → BitVec 64

end Sys2Proof.Config
end

