-- ==== Sys2Proof/Machine/Record.lean ====
section
/-! DEFINITION. Chains of a state's code as they are fetched (04 R370), the SPAN in force at an address (07 R156), and
the sequencer record and divergence-stack entries as bytes (06 Tables 06-4, 06-6, 06-7). -/

namespace Sys2Proof.Machine

open Sys2Proof

/-! ## Code -/

/-- The three words of a packet of a state's code; words beyond the code are zero (04 R78). -/
def packetOf (code : List Word) (n : Nat) : List Word := slicePad 0 code (3 * n) 3

/-- The instructions of the chain that starts at word offset `off` of a packet (04 R81, R370): up to the first whose
C bit is 0, or the end of the packet. -/
def chainItems (ws : List Word) (off : Nat) : Nat → List Item
  | 0 => []
  | n + 1 =>
    match decodeItem off (ws.drop off) with
    | none => []
    | some it => if it.chain then it :: chainItems ws (off + it.len) n else [it]

/-- All instructions of a packet, in order. -/
def packetItems (ws : List Word) (off : Nat) : Nat → List Item
  | 0 => []
  | n + 1 =>
    match decodeItem off (ws.drop off) with
    | none => []
    | some it => it :: packetItems ws (off + it.len) n

/-- The byte address of the chain after the one whose items are given (04 R370). -/
def nextChain (addr : Nat) (items : List Item) : Nat :=
  match items.getLast? with
  | some it => addr / 12 * 12 + 4 * (it.start + it.len)
  | none => addr / 12 * 12 + 12

/-- The instruction of a chain that is no NOP, for a chain whose other words are NOPs (04 R80, R81). -/
def workItem (items : List Item) : Option Item :=
  items.find? (fun it => match it.instr with | some (.nop _) => false | _ => true)

/-- Whether an item holds a main word: an EXT or a TAIL that stands alone does not. -/
def hasMain (it : Item) : Bool :=
  match it.reject with
  | some (_, .extAlone) => false
  | some (_, .tailAlone) => false
  | _ => true

/-- Whether a word offset of a packet is a chain boundary (18 R311): word 0, or the word after an instruction whose main word
has a C bit of 0, unless it is a TAIL. -/
def isBoundary (ws : List Word) (off : Nat) : Bool :=
  off == 0 ||
    ((packetItems ws 0 3).any (fun it => hasMain it && !it.chain && it.start + it.len == off) && (ws.getD off 0).major != 0x3E)

/-- Whether a byte address is a chain boundary of a state's code (18 R311). -/
def chainBoundary (code : List Word) (addr : Nat) : Bool :=
  decide (addr % 4 = 0) && decide (addr / 4 < code.length) && isBoundary (packetOf code (addr / 12)) (addr % 12 / 4)

/-! ## The SPAN in force -/

/-- The span state at a point of the code: the SPAN in force and whether a terminator has followed it. -/
abbrev SpanState := Option SpanInfo × Bool

/-- Whether an instruction is a terminator (07 R158). -/
def isTerminator (i : Instr) : Bool :=
  match i with
  | .jmp _ _ => true
  | .br _ _ _ _ => true
  | .brx _ _ => true
  | .call _ _ => true
  | .ret _ => true
  | .exit _ => true
  | _ => false

/-- The span that a SPAN word begins (07 R157). -/
def spanInfo (h : Hdr) (k : BitVec 12) : SpanInfo :=
  { block := k, pred := if h.e.pe then some (h.e.pk, h.e.pn) else none }

/-- The span state after an instruction. -/
def spanStep (st : SpanState) (i : Instr) : SpanState :=
  match i with
  | .span h k => (some (spanInfo h k), false)
  | i => if isTerminator i then (st.1, true) else st

/-- The span state after the items of a packet that start below a word offset. -/
def spanPacket (st : SpanState) (ws : List Word) (below : Nat) : SpanState :=
  (packetItems ws 0 3).foldl (fun st it =>
    if it.start < below then (match it.instr with | some i => spanStep st i | none => st) else st) st

/-- The span state at a byte address of a state's code, as a function of the position alone (07 R156). -/
def spanAt (code : List Word) (addr : Nat) : SpanState :=
  let full := (List.range (addr / 12)).foldl (fun st n => spanPacket st (packetOf code n) 3) (none, false)
  spanPacket full (packetOf code (addr / 12)) (addr % 12 / 4)

/-! ## Slot records (06 Table 06-7) -/

/-- Whether a slot sleeps in a wait (06 R150). -/
def Slot.waiting (s : Slot) : Bool :=
  match s.wait with
  | .awake => false
  | .sleep => false
  | _ => true

/-- The 24 bytes of a slot record. -/
def slotBytes (s : Option Slot) : List (BitVec 8) :=
  match s with
  | none => natToBytes 0 24
  | some s =>
    let w0 := 2 ^ 31 + (if s.join.isSome then 2 ^ 30 else 0) + (if s.waiting then 2 ^ 29 else 0) +
      (s.join.getD 0).toNat * 2 ^ 12 + s.state.toNat
    natToBytes w0 4 ++ natToBytes s.addr.toNat 4 ++ natToBytes s.mask.toNat 4 ++ natToBytes s.moved.toNat 4 ++
      natToBytes s.wake.toNat 8

/-- A slot record read back: `none` when a must-be-zero bit is set. An occupied slot's span state and wait are not in
the record: they are found again from its code and cells. -/
def slotOf (b : List (BitVec 8)) : Option (Option Slot × Bool) :=
  let w0 := leAt b 0 4
  if bitsN w0 24 5 ≠ 0 then none
  else if !bitN w0 31 then some (none, false)
  else
    some (some { state := BitVec.ofNat 12 w0, addr := BitVec.ofNat 32 (leAt b 4 4), mask := BitVec.ofNat 32 (leAt b 8 4),
                 moved := BitVec.ofNat 32 (leAt b 12 4),
                 join := if bitN w0 30 then some (BitVec.ofNat 12 (w0 / 2 ^ 12)) else none,
                 wake := BitVec.ofNat 64 (leAt b 16 8),
                 wait := if decide (leAt b 16 8 ≠ 0) && !bitN w0 29 then .sleep else .awake,
                 resume := BitVec.ofNat 32 (leAt b 4 4), span := none, afterTerm := false }, bitN w0 29)

/-! ## Trap records (17 Table 17-6) -/

/-- The 32 bytes of a trap record. -/
def TrapRec.bytes (r : TrapRec) : List (BitVec 8) :=
  natToBytes (r.cause.toNat + r.word.toNat * 2 ^ 8 + (if r.slot then 2 ^ 10 else 0) + (if r.lib then 2 ^ 11 else 0)) 4 ++
    natToBytes r.state.toNat 4 ++ natToBytes r.resume.toNat 4 ++ natToBytes r.lanes.toNat 4 ++
    natToBytes r.detail.toNat 8 ++ natToBytes r.cyc.toNat 8

/-- A trap record read back; `none` when a must-be-zero bit is set. -/
def TrapRec.ofBytes (b : List (BitVec 8)) : Option TrapRec :=
  let w := leAt b 0 4
  if bitsN w 12 20 ≠ 0 || bitsN (leAt b 4 4) 12 20 ≠ 0 then none
  else some { lib := bitN w 11, slot := bitN w 10, word := BitVec.ofNat 2 (bitsN w 8 2), cause := BitVec.ofNat 8 w,
              state := BitVec.ofNat 12 (leAt b 4 4), resume := BitVec.ofNat 32 (leAt b 8 4),
              lanes := BitVec.ofNat 32 (leAt b 12 4), detail := BitVec.ofNat 64 (leAt b 16 8),
              cyc := BitVec.ofNat 64 (leAt b 24 8) }

/-! ## Sequencer records (06 Table 06-6) -/

/-- The 2-byte entries of %lbr or %link, lanes 0 to 31. -/
def blockBytes (l : List (BitVec 12)) : List (BitVec 8) := (takePad 0 l 32).flatMap (fun b => natToBytes b.toNat 2)

/-- The parts of a sequencer record. -/
structure SeqRec where
  slot0 : Option Slot
  slot1 : Option Slot
  wait0 : Bool
  wait1 : Bool
  parked : Word
  exited : Word
  depth : Nat
  depth1 : Nat
  alt : Bool
  lib : Option Nat
  lbr : List (BitVec 12)
  link : List (BitVec 12)
  deriving DecidableEq, Repr, Inhabited

/-- The 224 bytes of a sequencer record. `lib` holds the caller's depth while the group is in a library. -/
def SeqRec.bytes (r : SeqRec) : List (BitVec 8) :=
  slotBytes r.slot0 ++ slotBytes r.slot1 ++ natToBytes r.parked.toNat 4 ++ natToBytes r.exited.toNat 4 ++
    natToBytes (lowN r.depth 16 + (if r.alt then 2 ^ 16 else 0) + (if r.lib.isSome then 2 ^ 17 else 0)) 4 ++
    natToBytes (lowN r.depth1 16) 4 ++ blockBytes r.lbr ++ blockBytes r.link ++
    (match r.lib with
     | some d => natToBytes (8448 + 32 * d) 4 ++ natToBytes (lowN d 16) 4 ++ natToBytes 0 24
     | none => natToBytes 0 32)

/-- The 32 blocks of 64 bytes, or `none` when bits 15:12 of one are not zero. -/
def blocksOf (b : List (BitVec 8)) : Option (List (BitVec 12)) :=
  let l := allLanes.map (fun i => leAt b (2 * i) 2)
  if l.all (fun v => decide (v < 4096)) then some (l.map (fun v => BitVec.ofNat 12 v)) else none

/-- A sequencer record read back; `none` when a field is malformed (06 R151). `mode16` admits half 1's depth. -/
def SeqRec.ofBytes (b : List (BitVec 8)) (mode16 : Bool) : Option SeqRec :=
  match slotOf (b.take 24), slotOf (slicePad 0 b 24 24), blocksOf (slicePad 0 b 64 64), blocksOf (slicePad 0 b 128 64) with
  | some (s0, w0), some (s1, w1), some lbr, some link =>
    let w := leAt b 56 4
    let h := leAt b 60 4
    let inLib := bitN w 17
    let caller := leAt b 196 4
    let tail := if inLib then leAt b 200 24 = 0 && leAt b 192 4 = 8448 + 32 * caller && caller < 65536
      else leAt b 192 32 = 0
    if bitsN w 18 14 ≠ 0 || (!mode16 && h ≠ 0) || 65536 ≤ h || !tail then none
    else
      some { slot0 := s0, slot1 := s1, wait0 := w0, wait1 := w1, parked := BitVec.ofNat 32 (leAt b 48 4),
             exited := BitVec.ofNat 32 (leAt b 52 4), depth := bitsN w 0 16, depth1 := h, alt := bitN w 16,
             lib := if inLib then some caller else none, lbr := lbr, link := link }
  | _, _, _, _ => none

/-! ## Divergence-stack entries (06 Table 06-4) -/

/-- A stack entry. -/
inductive StackEntry where
  | work (join : Option (BitVec 12)) (mask : Word)
  | merge (join : BitVec 12) (outer : Option (BitVec 12)) (mask : Word)
  deriving DecidableEq, Repr, Inhabited

/-- The 32 bytes of a stack entry. -/
def StackEntry.bytes (e : StackEntry) : List (BitVec 8) :=
  match e with
  | .work j m =>
    natToBytes (2 ^ 30 + (if j.isSome then 2 ^ 29 else 0) + (j.getD 0).toNat * 2 ^ 16) 4 ++ natToBytes m.toNat 4 ++
      natToBytes 0 24
  | .merge j o m =>
    natToBytes (2 ^ 31 + 2 ^ 29 + (if o.isSome then 2 ^ 28 else 0) + j.toNat * 2 ^ 16 + (o.getD 0).toNat * 2 ^ 4) 4 ++
      natToBytes m.toNat 4 ++ natToBytes 0 24

/-- A stack entry read back; `none` when malformed (06 R139). -/
def StackEntry.ofBytes (b : List (BitVec 8)) : Option StackEntry :=
  let w := leAt b 0 4
  let jv := bitN w 29
  let ov := bitN w 28
  let join : BitVec 12 := BitVec.ofNat 12 (w / 2 ^ 16)
  let outer : BitVec 12 := BitVec.ofNat 12 (w / 2 ^ 4)
  let m : Word := BitVec.ofNat 32 (leAt b 4 4)
  if bitsN w 0 4 ≠ 0 || leAt b 8 24 ≠ 0 || (!ov && outer ≠ 0) then none
  else if bitsN w 30 2 = 1 then (if ov then none else some (.work (if jv then some join else none) m))
  else if bitsN w 30 2 = 2 then (if jv then some (.merge join (if ov then some outer else none) m) else none)
  else none

end Sys2Proof.Machine
end

