-- ==== Sys2Proof/Machine/Trans.lean ====
section
/-! DEFINITION. Context faults and their causes (17 Table 17-5), the memories by space, exact accumulators (09 R197), what an
error has lost (21 R333), translation (17 R290 to R293), and main memory: device HBM, host memory and peer memory by device
number (23 Table 23-5), read and written through a die's translation unit. -/

namespace Sys2Proof.Machine

open Sys2Proof

/-! ## Cause codes (17 Table 17-5) -/

def causeIllegal : Nat := 0x01
def causeSrange : Nat := 0x02
def causeTile : Nat := 0x03
def causeLock : Nat := 0x04
def causeBound : Nat := 0x05
def causeAlign : Nat := 0x06
def causePromise : Nat := 0x07
def causeLogfull : Nat := 0x08
def causeDstack : Nat := 0x09
def causeGate : Nat := 0x0A
def causeBrk : Nat := 0x0B
def causeSwtrap : Nat := 0x0C
def causeQuota : Nat := 0x80
def causeCopyfault : Nat := 0x81
def causeIntegrity : Nat := 0x82
def causeCodegone : Nat := 0x83

/-! ## Context faults (17 R299, R300) -/

/-- A context fault: cause, detail, address and, for a translation fault, the die it was met on. -/
structure CtxFault where
  code : Nat
  detail : Nat
  addr : Nat
  die : BitVec 2 := 0
  deriving DecidableEq, Repr, Inhabited

/-- An access to main memory that failed: the kind and the virtual address. -/
abbrev TransFault := Nat × Nat

/-- The kind by which a walk answers that an error has lost the table entry it reads: 256 times the block's identifier. -/
def lostKind (block : Nat) : Nat := 256 * block

/-- Whether a failed access has met a lost table entry. -/
def TransFault.isLost (f : TransFault) : Bool := decide (256 ≤ f.1)

/-- COPYFAULT for a failed translation on a die (17 Table 17-5), or INTEGRITY for a lost table entry (21 R333). -/
def copyFault (die : BitVec 2) (f : TransFault) : CtxFault :=
  if TransFault.isLost f then { code := causeIntegrity, detail := f.1 / 256, addr := f.2 } else
  { code := causeCopyfault, detail := f.1, addr := f.2, die := die }

/-- A block identifier of a core's unit (21 Table 21-3). -/
def blockId (kind : Nat) (core : BitVec 8) : Nat := kind * 2 ^ 16 + core.toNat / 64 * 2 ^ 14 + core.toNat % 64 * 2 ^ 8

/-! ## Physical memory -/

/-- A physical byte: a device number (23 Table 23-5) and an address there. -/
structure Phys where
  dev : Nat
  addr : Nat
  deriving DecidableEq, Repr, Inhabited

/-- The byte at a physical place. Peer memory is kept by port number. -/
def Device.physByte (d : Device) (p : Phys) : BitVec 8 :=
  if p.dev = 0 then Memory.byte d.hbm p.addr
  else if p.dev = 1 then Memory.byte d.host p.addr
  else Memory.byte (tableGet [] d.peers (p.dev - 1)) p.addr

/-- The device with a physical byte written, which makes good what an error had lost there (21 R333). -/
def Device.physPut (d : Device) (p : Phys) (b : BitVec 8) : Device :=
  if p.dev = 0 then { d with hbm := Memory.put d.hbm p.addr b, lost := d.lost.filter (· != .hbm p.addr) }
  else if p.dev = 1 then { d with host := Memory.put d.host p.addr b }
  else
    let m := Memory.put (tableGet [] d.peers (p.dev - 1)) p.addr b
    { d with peers := tableSet d.peers (p.dev - 1) m }

/-! ## Places -/

/-- A byte place: a space and an address in it (an offset in a shared segment, a scratchpad address, or a virtual
address). -/
structure Place where
  space : Space
  addr : Nat
  deriving DecidableEq, Repr, Inhabited

/-- A workgroup's shared memory in a segment. -/
def Device.segment (d : Device) (uid : Nat) (q : BitVec 2) : Memory :=
  match d.wg uid with
  | some w => perCore w.shared q.toNat
  | none => []

/-- A byte of shared memory, of the scratchpad or of a physical memory; a virtual address goes through translation
first. -/
def Device.byteAt (d : Device) (sp : Space) (a : Nat) : BitVec 8 :=
  match sp with
  | .shared uid q => Memory.byte (d.segment uid q) a
  | .spad => Memory.byte d.spad a
  | .main _ => 0
  | .phys n => d.physByte { dev := n, addr := a }

/-- The device with the memory of a space changed at an address. -/
def Device.modSpace (d : Device) (sp : Space) (a : Nat) (f : Memory → Nat → Memory) : Device :=
  match sp with
  | .shared uid q => d.modWg uid (fun w => { w with shared := modCore w.shared q.toNat (fun m => f m a) })
  | .spad => { d with spad := f d.spad a }
  | .main _ => d
  | .phys n =>
    if n = 0 then { d with hbm := f d.hbm a }
    else if n = 1 then { d with host := f d.host a }
    else { d with peers := tableSet d.peers (n - 1) (f (tableGet [] d.peers (n - 1)) a) }

/-- The little-endian number of `n` bytes. -/
def Device.num (d : Device) (sp : Space) (a : Nat) : Nat → Nat
  | 0 => 0
  | n + 1 => (d.byteAt sp a).toNat + 256 * Device.num d sp (a + 1) n

/-- The place of a byte of a space as stored state; `none` outside the device. -/
def Space.stored (sp : Space) (a : Nat) : Option StoredPlace :=
  match sp with
  | .shared uid q => some (.shared uid q a)
  | .spad => some (.spad a)
  | .main _ => none
  | .phys n => if n = 0 then some (.hbm a) else none

/-- Whether a stored place is one of the `n` bytes at an address of a space. -/
def storedWithin (p : StoredPlace) (sp : Space) (a n : Nat) : Bool :=
  match p, sp with
  | .shared u q x, .shared uid r => u == uid && q == r && decide (a ≤ x) && decide (x < a + n)
  | .spad x, .spad => decide (a ≤ x) && decide (x < a + n)
  | .hbm x, .phys m => m == 0 && decide (a ≤ x) && decide (x < a + n)
  | _, _ => false

/-- The device with the `n` little-endian bytes of a number written, which makes good what an error had lost there. -/
def Device.putNum (d : Device) (sp : Space) (a n v : Nat) : Device :=
  { d.modSpace sp a (fun m x => Memory.putNum m x n v) with lost := d.lost.filter (fun p => !storedWithin p sp a n) }

/-! ## Stored state that an error has lost (21 R333) -/

/-- The block identifier of a stack of HBM (log entry 71). -/
def hbmBlock (addr : Nat) : Nat :=
  let s := Config.hbmStack addr
  8 * 2 ^ 16 + s.toNat / 4 * 2 ^ 14 + s.toNat % 4 % 3 * 2 ^ 8

/-- The core that holds a segment. -/
def Workgroup.coreOf (w : Workgroup) (q : Nat) : BitVec 8 := w.core + BitVec.ofNat 8 (q % 2 + 8 * (q / 2))

/-- The block that holds a stored place (21 Table 21-3). -/
def Device.blockOf (d : Device) (p : StoredPlace) : Nat :=
  let core (uid q : Nat) : BitVec 8 := match d.wg uid with | some w => w.coreOf q | none => 0
  match p with
  | .shared uid q _ => blockId 2 (core uid q.toNat)
  | .spad a => 7 * 2 ^ 16 + a / 2 ^ 27 % 4 * 2 ^ 14
  | .tile uid q _ => blockId 3 (core uid q.toNat)
  | .follower uid _ => blockId 3 (core uid 0 + 1)
  | .hbm a => hbmBlock a
  | .cell uid g _ =>
    blockId 1 (match d.wg uid with
      | some w => (match w.groups[g]? with | some x => x.core | none => w.core)
      | none => 0)

/-- INTEGRITY for a lost place that is read, with the address it was read at. -/
def Device.lostFault (d : Device) (p : StoredPlace) (addr : Nat) : CtxFault :=
  { code := causeIntegrity, detail := d.blockOf p, addr := addr }

/-- The fault of reading `n` bytes at an address of a space, if an error has lost one of them. -/
def Device.lostIn (d : Device) (sp : Space) (a n : Nat) : Option CtxFault :=
  match d.lost.find? (fun p => storedWithin p sp a n) with
  | some p => some (d.lostFault p (match p with
    | .shared _ q x => q.toNat * 2 ^ 19 + x
    | .spad x => x
    | .hbm x => x
    | _ => 0))
  | none => none

/-! ## Exact accumulators (09 R197) -/

/-- The float format of an accumulator. -/
def Accumulator.fmt (x : Accumulator) : FloatFmt := (floatFmt x.efmt.toNat).getD (.bin fmtF32)

/-- The bytes of an accumulator's word. -/
def Accumulator.bytes (x : Accumulator) : Nat := fmtBits x.efmt.toNat / 8

/-- An accumulator with an operand added exactly. -/
def Accumulator.add (x : Accumulator) (v : Nat) : Accumulator :=
  match x.fmt.value v with
  | .nan _ => { x with nan := true, allNegZero := false }
  | .inf n => { x with posInf := x.posInf || !n, negInf := x.negInf || n, allNegZero := false }
  | .num n m e =>
    { x with sum := x.sum + signed n (scaleUp m (e + 149)), allNegZero := x.allNegZero && n && m == 0 }

/-- An accumulator for a word that holds the given value. -/
def Accumulator.start (c : BitVec 6) (sp : Space) (a : Nat) (efmt : BitVec 4) (v : Nat) : Accumulator :=
  let z : Accumulator := { ctx := c, space := sp, addr := a, efmt := efmt, sum := 0, nan := false, posInf := false,
                           negInf := false, allNegZero := true }
  z.add v

/-- The value that an accumulator settles to (09 R197). -/
def Accumulator.value (x : Accumulator) : Nat :=
  if x.nan || (x.posInf && x.negInf) then x.fmt.nan
  else if x.posInf || x.negInf then (x.fmt.encode .rne (.inf x.negInf)).1
  else if x.sum = 0 then (x.fmt.encode .rne (.num x.allNegZero 0 0)).1
  else (x.fmt.encode .rne (.num (decide (x.sum < 0)) x.sum.natAbs (-149))).1

/-- Whether an accumulator's word meets `n` bytes at an address of a space. -/
def Accumulator.meets (x : Accumulator) (sp : Space) (a n : Nat) : Bool :=
  x.space == sp && decide (x.addr < a + n) && decide (a < x.addr + x.bytes)

/-- Settles the accumulators that an access of `n` bytes reaches. A store that covers the whole word discards its
accumulator; every other access writes the settled value first. -/
def Device.settle (d : Device) (sp : Space) (a n : Nat) (store : Bool) : Device :=
  let hit := d.accs.filter (fun x => x.meets sp a n)
  let d1 := hit.foldl (fun d x =>
    if store && decide (a ≤ x.addr) && decide (x.addr + x.bytes ≤ a + n) then d
    else d.putNum x.space x.addr x.bytes x.value) d
  { d1 with accs := d.accs.filter (fun x => !x.meets sp a n) }

/-- The device with `n` bytes of a space new, `bytes` at their start and zeros behind them: what an error had lost there is good
again (21 R333), and an accumulator over them is discarded as a store discards it. -/
def Device.renew (d : Device) (sp : Space) (a n : Nat) (bytes : List (BitVec 8)) : Device :=
  { (d.settle sp a n true).modSpace sp a (fun m x => Memory.putBytes (Memory.clear m x n) x bytes) with
    lost := (d.settle sp a n true).lost.filter (fun p => !storedWithin p sp a n) }

/-! ## The walk (17 R290, R291) -/

/-- Translation-fault kinds (17 Table 17-3). -/
def kindInvalid : Nat := 1
def kindRight : Nat := 2
def kindWorld : Nat := 3
def kindMalformed : Nat := 4
def kindDevice : Nat := 5

/-- A level of the walk: its lowest index bit and the number of its index bits (17 Table 17-2). -/
def walkLevels : List (Nat × Nat) := [(39, 18), (30, 9), (21, 9), (16, 5)]

/-- Whether a table entry is malformed (17 R291): `top` and `last` say whether it stands at L3 or at L0, `pageShift`
the size of a page that it maps, `tableSize` the size of the table it names. -/
def entryMalformed (e : Nat) (top last : Bool) (pageShift tableSize : Nat) : Bool :=
  let leaf := bitN e 1
  let addr := bitsN e 8 48 * 256
  bitN e 63 || decide (bitsN e 5 3 ≠ 0) || (leaf && top) || (!leaf && last) || (!leaf && decide (bitsN e 56 7 ≠ 0)) ||
    (if leaf then decide (addr % 2 ^ pageShift ≠ 0) else decide (addr % tableSize ≠ 0))

/-- The walk from a table: the leaf and its page shift, or the fault kind; the first entry that an error has lost ends it. -/
def walkFrom (d : Device) (va : Nat) (table : Nat) (top : Bool) : List (Nat × Nat) → Except Nat (Nat × Nat)
  | [] => .error kindMalformed
  | (shift, n) :: rest =>
    let a := table + 8 * bitsN va shift n
    let e := Memory.num d.hbm a 8
    let nextSize := match rest with | (_, k) :: _ => 8 * 2 ^ k | [] => 1
    if (d.lostIn (.phys 0) a 8).isSome then .error (lostKind (hbmBlock a))
    else if !bitN e 0 then .error kindInvalid
    else if entryMalformed e top rest.isEmpty shift nextSize then .error kindMalformed
    else if bitN e 1 then .ok (e, shift)
    else walkFrom d va (bitsN e 8 48 * 256) false rest

/-- Whether a peer port is up (23 Table 23-2). -/
def Device.portUp (d : Device) (p : Nat) : Bool := bitN d.ports.toNat p

/-- What a leaf gives an access, or its fault kind (17 Table 17-3, in the order of its rows; log entry 18). An access that the
peer refuses has kind 0x02 (23 R360). -/
def useLeaf (d : Device) (sec : Bool) (leaf shift va : Nat) (write : Bool) : Except Nat Phys :=
  let dev := bitsN leaf 56 7
  if !bitN leaf (if write then 3 else 2) then .error kindRight
  else if bitN leaf 4 != sec then .error kindWorld
  else if 18 ≤ dev || (2 ≤ dev && !d.portUp (dev - 1)) then .error kindDevice
  else
    let a := bitsN leaf 8 48 * 256 + va % 2 ^ shift
    if 2 ≤ dev && Config.peerRefuses d.tick (dev - 1) (a / 65536) sec write then .error kindRight
    else .ok { dev := dev, addr := a }

/-- The device with a translation cached on a die, the most recent first; a die holds 4,096 (17 R293, log entry 18). -/
def Device.cacheLeaf (d : Device) (t : Cached) : Device :=
  let rest := d.tlb.filter (fun u => !(u.die == t.die && u.ctx == t.ctx && u.page == t.page))
  { d with tlb := t :: (rest.filter (·.die == t.die)).take 4095 ++ rest.filter (·.die != t.die) }

/-- Translation on a die (17 R290 to R293): a walk caches the leaf that an access uses; faults are not cached. A leaf that an
invalidation has left to the access is used as it is (18 R319). Where the tables still say what a cached translation says, it
is used; where they have changed since, a free value says whether the access uses the cached translation, as it may until an
invalidation, or walks again (log entry 18). -/
def Device.translate (d : Device) (die : BitVec 2) (c : BitVec 6) (va : Nat) (write : Bool)
    (held : List Cached := []) : Except Nat (Phys × Device) :=
  let page := va / 65536
  let use (leaf shift : Nat) : Except Nat Phys := useLeaf d (d.ctx c).sec leaf shift va write
  let walked := walkFrom d va (d.ctx c).root.toNat true walkLevels
  let walk : Except Nat (Phys × Device) := walked.bind fun (leaf, shift) =>
    (use leaf shift).map
      (·, d.cacheLeaf { die := die, ctx := c, page := page, leaf := BitVec.ofNat 64 leaf, shift := shift })
  let here (t : Cached) : Bool := t.die == die && t.ctx == c && t.page == page
  match held.find? here, d.tlb.find? here with
  | some t, _ => (use t.leaf.toNat t.shift).map (·, d)
  | none, some t =>
    if walked.toOption == some (t.leaf.toNat, t.shift) || Config.translationStale d.tick die c page then
      (use t.leaf.toNat t.shift).map (·, d)
    else walk
  | none, none => walk

/-- A range cut at page boundaries: the address and length of each piece. -/
def pagePieces (va n : Nat) : Nat → List (Nat × Nat)
  | 0 => []
  | f + 1 =>
    if n = 0 then []
    else
      let k := min n (65536 - va % 65536)
      (va, k) :: pagePieces (va + k) (n - k) f

/-- The physical place and length of every piece, each translated once; the first that fails names its address. -/
def Device.pieces (die : BitVec 2) (c : BitVec 6) (write : Bool) :
    List (Nat × Nat) → Device → Except TransFault (List (Phys × Nat) × Device)
  | [], d => .ok ([], d)
  | (va, k) :: rest, d =>
    match d.translate die c va write with
    | .error kind => .error (kind, va)
    | .ok (p, d1) =>
      match Device.pieces die c write rest d1 with
      | .error f => .error f
      | .ok (l, d2) => .ok ((p, k) :: l, d2)

/-- The pieces settled before an access (09 R197). -/
def Device.settlePieces (d : Device) (store : Bool) (l : List (Phys × Nat)) : Device :=
  l.foldl (fun d p => d.settle (.phys p.1.dev) p.1.addr p.2 store) d

/-- The `n` bytes of a context's main memory from an address on: COPYFAULT where a page does not translate, INTEGRITY where
an error has lost a byte. -/
def Device.mainRead (d : Device) (die : BitVec 2) (c : BitVec 6) (va n : Nat) :
    Except CtxFault (List (BitVec 8) × Device) :=
  match Device.pieces die c false (pagePieces va n (n / 65536 + 2)) d with
  | .error f => .error (copyFault die f)
  | .ok (l, d1) =>
    match l.findSome? (fun (p, k) => d1.lostIn (.phys p.dev) p.addr k) with
    | some f => .error f
    | none =>
      let d2 := d1.settlePieces false l
      .ok (l.flatMap (fun (p, k) => (List.range k).map (fun i => d2.physByte { p with addr := p.addr + i })), d2)

/-- Writes bytes at consecutive physical places. -/
def Device.physPuts (d : Device) (p : Phys) : List (BitVec 8) → Device
  | [] => d
  | b :: t => Device.physPuts (d.physPut p b) { p with addr := p.addr + 1 } t

/-- Writes bytes over the pieces of a range. -/
def Device.putPieces (d : Device) : List (Phys × Nat) → List (BitVec 8) → Device
  | [], _ => d
  | (p, k) :: rest, b => Device.putPieces (d.physPuts p (b.take k)) rest (b.drop k)

/-- A write to main memory: every page is translated before a byte is written. -/
def Device.mainWrite (d : Device) (die : BitVec 2) (c : BitVec 6) (va : Nat) (bytes : List (BitVec 8)) :
    Except CtxFault Device :=
  match Device.pieces die c true (pagePieces va bytes.length (bytes.length / 65536 + 2)) d with
  | .error f => .error (copyFault die f)
  | .ok (l, d1) => .ok ((d1.settlePieces true l).putPieces l bytes)

/-- Whether an invalidation of a context, or of one of its pages, drops a cached translation. -/
def Cached.dropped (t : Cached) (c : BitVec 6) (page : Option Nat) : Bool :=
  t.ctx == c && (match page with
    | none => true
    | some va => t.page * 65536 / 2 ^ t.shift == va / 2 ^ t.shift)

/-- Drops cached translations (17 R293): those of a context, or of one of its pages. -/
def Device.dropTranslations (d : Device) (c : BitVec 6) (page : Option Nat) : Device :=
  { d with tlb := d.tlb.filter (fun t => !t.dropped c page) }

/-- TLBINV's drop (18 R319): the requests that the context has issued, but for those that are parked, keep theirs. -/
def Device.invalidate (d : Device) (c : BitVec 6) (page : Option Nat) : Device :=
  let gone := d.tlb.filter (fun t => t.dropped c page)
  let keeps (r : Request) : Bool := r.ctx == c && (match r.status with | .parked _ => false | _ => true)
  { d.dropTranslations c page with
    requests := d.requests.map (fun r =>
      if keeps r then { r with leaves := r.leaves ++ gone.filter (·.die == r.die) } else r) }

/-! ## Regions of the memory plan (16 Table 16-3) -/

/-- The region of a kind and sub in a context's plan. -/
def Context.region (c : Context) (kind sub : Nat) : Option Region :=
  c.regions.find? (fun r => r.kind.toNat == kind && r.sub.toNat == sub)

/-- The largest spill-area size among the context's kernels (16 R269). -/
def Kernel.spillSize (k : Kernel) : Nat :=
  roundUp (8448 + 32 * (if k.mode16 then 2 else 1) * k.dstack) 256 + roundUp (32 * k.stack) 256

/-- The size A of a spill area of the context (16 R269). -/
def Context.spillSize (c : Context) : Nat :=
  c.lockets.foldl (fun m l => l.kernels.foldl (fun m k => max m k.spillSize) m) 0

/-- The virtual address of a group's spill area (16 R269), cut from the region by the size A of the Lockets that the context
holds at this moment, so that a LOAD or an UNLOAD that changes A moves the areas in use (log entry 86). -/
def Context.spillBase (c : Context) (index : Nat) : Nat :=
  match c.region 4 0 with
  | some r => r.base + c.spillSize * index
  | none => 0

/-- The offset of the explicit group stack in a spill area (01 Table 01-5; 16 R282). -/
def Kernel.stackOffset (k : Kernel) : Nat := roundUp (8448 + 32 * (if k.mode16 then 2 else 1) * k.dstack) 256

end Sys2Proof.Machine
end

