-- ==== Sys2Proof/Machine/Ops.lean ====
section
/-! DEFINITION. The named operations of the machine: messages, context faults, logs, spaces and their checks, locks,
barrier objects, taking a precise trap (17 R298, R299) and returning from one (07 R169; 18 R311), and `runWord`, which
every instruction word goes through: its checks in the order of 04 R84 and R371, then its effect. -/

namespace Sys2Proof.Machine

open Sys2Proof

/-! ## Messages (23 R356) -/

/-- The 16 bytes of a message entry (23 Table 23-3). -/
def Message.bytes (m : Message) : List (BitVec 8) :=
  natToBytes (m.type.toNat + m.ctx.toNat * 2 ^ 8 + m.code.toNat * 2 ^ 16) 4 ++ natToBytes m.detail.toNat 4 ++
    natToBytes m.cyc.toNat 8

/-- The device with a message written at the head of the ring, and the new head sent in an interrupt message. -/
def Device.putMsg (d : Device) (m : Message) : Device :=
  { d with host := Memory.putBytes d.host (d.ring.toNat + 16 * (d.msgHead.toNat % 4096)) m.bytes,
           msgHead := d.msgHead + 1, irqs := d.irqs ++ [d.msgHead + 1] }

/-- Whether the ring has room for another entry. -/
def Device.ringHasRoom (d : Device) : Bool := decide ((d.msgHead - d.msgTail).toNat < 4096)

/-- Sends a message. It waits in the outbox for the end of its CYC, and none is sent before the boot has ended (24 R366). -/
def Device.sendMsg (d : Device) (type : BitVec 8) (ctx : BitVec 6) (code : BitVec 16) (detail : Word) : Device :=
  if d.boot.step = 15 then
    { d with outbox := d.outbox ++ [{ type := type, ctx := ctx, code := code, detail := detail, cyc := d.cyc }] }
  else d

/-- The key by which the messages of one CYC enter the ring: context number, then type. -/
def Message.key (m : Message) : Nat := m.ctx.toNat * 256 + m.type.toNat

/-- A message put behind the sorted messages that do not go after it. -/
def Message.insert (m : Message) : List Message → List Message
  | [] => [m]
  | n :: t => if n.key ≤ m.key then n :: Message.insert m t else m :: n :: t

/-- Messages in the order in which those of one CYC enter the ring. -/
def sortMessages (l : List Message) : List Message := l.foldl (fun t m => m.insert t) []

/-- A message enters the ring, or is held, in order, while the ring is full. -/
def Device.enterMsg (d : Device) (m : Message) : Device :=
  if d.held.isEmpty && d.ringHasRoom then d.putMsg m else { d with held := d.held ++ [m] }

/-- The end of a CYC: its messages enter the ring. -/
def Device.flushMessages (d : Device) : Device :=
  (sortMessages d.outbox).foldl Device.enterMsg { d with outbox := [], irqs := [] }

/-- Writes held messages, oldest first, while the ring has room. -/
def Device.drainHeld (d : Device) : Nat → Device
  | 0 => d
  | n + 1 =>
    match d.held with
    | [] => d
    | m :: rest => if d.ringHasRoom then Device.drainHeld ({ d with held := rest }.putMsg m) n else d

/-! ## Context faults (17 R299, R300) -/

/-- Whether a range lock belongs to a context. -/
def Device.lockOf (d : Device) (c : BitVec 6) (l : RangeLock) : Bool :=
  match l.owner with
  | .request id => d.requests.any (fun r => r.id == id && r.ctx == c)
  | .matrix id => d.matrix.any (fun m => m.id == id && m.ctx == c)
  | .object uid _ => d.wgs.any (fun w => w.uid == uid && w.ctx == c)

/-- The fault fields of the control block (17 Table 17-1), with the CYC of the fault. -/
def Context.setFault (x : Context) (f : CtxFault) (now : BitVec 64) : Context :=
  { x with fcause := BitVec.ofNat 8 f.code, fdetail := BitVec.ofNat 32 f.detail, faddr := BitVec.ofNat 64 f.addr, fcyc := now }

/-- Whether the fields of the context give a fault of this CYC. -/
def Context.faultedAt (x : Context) (now : BitVec 64) : Bool := x.fcause != 0 && x.fcyc == now

/-- Of two faults of one effect in one CYC the lower code goes to the fields (17 Table 17-7); of two INTEGRITY, the lower
block identifier (21 Table 21-3a). -/
def Context.yields (x : Context) (f : CtxFault) : Bool :=
  decide (f.code < x.fcause.toNat) || (decide (f.code = x.fcause.toNat) && decide (f.detail < x.fdetail.toNat))

/-- The fields of the latest translation fault (17 Table 17-1). -/
def Context.noteTranslation (x : Context) (f : CtxFault) : Context :=
  if f.code = causeCopyfault && decide (f.detail ≠ 0xFF) then
    { x with taddr := BitVec.ofNat 64 f.addr, tkind := BitVec.ofNat 8 f.detail, tdie := f.die }
  else x

/-- The context-fault message; the one of a fault of the same CYC that has given way to it is withdrawn. -/
def Device.faultMsg (d : Device) (c : BitVec 6) (f : CtxFault) (instead : Bool) : Device :=
  let d1 := if instead then { d with outbox := d.outbox.filter (fun m => !(m.type == 4 && m.ctx == c)) } else d
  d1.sendMsg 4 c (BitVec.ofNat 16 f.code) (BitVec.ofNat 32 f.detail)

/-- Whether an accumulator stands in a peer's memory, and so is the peer's own (23 R359). -/
def Accumulator.peer (a : Accumulator) : Bool :=
  match a.space with
  | .phys n => decide (2 ≤ n)
  | _ => false

/-- Whether an accumulator stands for a word of HBM or of host memory. -/
def Accumulator.inMain (a : Accumulator) : Bool :=
  match a.space with
  | .phys n => decide (n < 2)
  | _ => false

/-- The exact accumulators of a context on words of HBM and of host memory settled: a host that reads them after the fault's
message finds what has arrived (09 R197; 11 R237). -/
def Device.settleMain (d : Device) (c : BitVec 6) : Device :=
  (d.accs.filter (fun a => a.ctx == c && a.inMain)).foldl (fun d a => d.settle a.space a.addr a.bytes false) d

/-! ### What executes in an array (03 R76) -/

/-- Whether a core's array is slaved to a pair operation of its leader (03 R76). -/
def Device.slaved (d : Device) (core : BitVec 8) : Bool :=
  core.toNat % 2 == 1 && d.matrix.any (fun op => op.sub == 1 && op.core + 1 == core)

/-- The operation at the head of a core's matrix queue. -/
def Device.matrixHead (d : Device) (core : BitVec 8) : Option MatOp :=
  d.matrix.find? (fun op => op.core == core && !op.inRing)

/-- The operation that executes in a core's array: a pair operation at its leader's head when the array is slaved. -/
def Device.executing (d : Device) (core : BitVec 8) : Option MatOp :=
  if d.slaved core then (d.matrixHead (core - 1)).filter (fun op => op.sub == 1) else d.matrixHead core

/-- Frees everything a context's work holds: requests and matrix operations without arrival, locks, outstanding
writes, ready launches; its workgroups no longer hold their cores (17 R300). Only its accumulators of shared memory go without
effect (09 R198). -/
def Device.releaseAll (d0 : Device) (c : BitVec 6) : Device :=
  let d := d0.settleMain c
  { d with
    released := d.released ++ d.requests.filter (fun r => r.ctx == c)
    releasedOps := d.releasedOps ++
      d.matrix.filter (fun m => m.ctx == c && ((d.executing m.core).map (fun x => x.id)) == some m.id)
    locks := d.locks.filter (fun l => !d.lockOf c l)
    requests := d.requests.filter (fun r => r.ctx != c)
    matrix := d.matrix.filter (fun m => m.ctx != c)
    writes := d.writes.filter (fun w => !d.wgs.any (fun x => x.uid == w.wg && x.ctx == c))
    accs := d.accs.filter (fun a => a.ctx != c || a.space == .spad || a.peer)
    ready := d.ready.map (fun l => l.filter (fun e => e.1 != c))
    wgs := d.wgs.map (fun w => if w.ctx == c then { w with gone := true } else w) }

/-- Ends a context with a cause (17 R299, R300). An ending fault wins over a stopping one of the same CYC (17 Table 17-7). -/
def Device.endContext (d : Device) (c : BitVec 6) (f : CtxFault) : Device :=
  let x := d.ctx c
  match x.state with
  | .free => d
  | .ended =>
    if x.faultedAt d.cyc && x.yields f then (d.setCtx c (x.setFault f d.cyc)).faultMsg c f true else d
  | _ =>
    ((d.releaseAll c).setCtx c { (x.noteTranslation f).setFault f d.cyc with state := .ended, stopping := false }).faultMsg c f
      (x.faultedAt d.cyc)

/-- The bytes of a workgroup's record in the save area (17 Table 17-9; log entry 33 for a quad's tiles). -/
def Kernel.recordSize (k : Kernel) (cores groups : Nat) : Nat :=
  576 + cores * (4096 * k.tiles + k.shared) + 8192 * k.ptiles + groups * (if k.mode16 then 8896 else 8832)

/-- The workgroups of a context that hold cores. -/
def Device.placedOf (d : Device) (c : BitVec 6) : List Workgroup := d.wgs.filter (fun w => w.ctx == c && !w.gone)

/-- Whether a request has a record in the save area: a FETCHW not yet served is issued again instead (17 R302), and a request
that has retired, with its arrival held at a unit, is no request in flight any more (log entry 34). -/
def Request.isSaved (r : Request) : Bool :=
  match r.work, r.status with
  | .fetch _, _ => false
  | _, .retired _ => false
  | _, _ => true

/-- The number of cores of a workgroup. -/
def Workgroup.coreCount (w : Workgroup) : Nat := if w.quad then 4 else 1

/-- The size that a save of a context needs (17 R304). -/
def Device.saveSize (d : Device) (c : BitVec 6) : Nat :=
  256 + ((d.placedOf c).map (fun w =>
    match (d.ctx c).kernel w.handle w.kernel with
    | some k => k.recordSize w.coreCount w.groups.length
    | none => 0)).foldl (· + ·) 0 +
    512 * (d.requests.filter (fun r => r.ctx == c && r.isSaved)).length

/-- The save area of a context (16 Table 16-3). -/
def Context.saveArea (x : Context) : Option Region := x.regions.find? (fun r => r.kind == 10)

/-- Whether the save area holds a save of the context; a context with nothing to save needs none. -/
def Device.saveFits (d : Device) (c : BitVec 6) : Bool :=
  match (d.ctx c).saveArea with
  | some r => decide (d.saveSize c ≤ r.size)
  | none => (d.placedOf c).isEmpty && d.requests.all (fun r => r.ctx != c)

/-- A stopping context fault (17 R300): the context stops as by STOP, or ends when its save area cannot hold it; one that is
met at RESUME leaves it stopped. Of two such faults in one CYC the lower code stays (Table 17-7); the fields of the latest
translation fault are written whichever stays (Table 17-1). -/
def Device.stopContext (d : Device) (c : BitVec 6) (f : CtxFault) : Device :=
  let x := d.ctx c
  let met := x.stopping && x.faultedAt d.cyc
  let x1 := x.noteTranslation f
  if x.state = .free || x.state = .ended then d
  else if met && !x.yields f then d.setCtx c x1
  else if x.state = .active && !d.saveFits c then d.endContext c f
  else (d.setCtx c { x1.setFault f d.cyc with stopping := x.state == .active }).faultMsg c f met

/-- A context fault takes effect (17 R300). -/
def Device.contextFault (d : Device) (c : BitVec 6) (f : CtxFault) : Device :=
  if f.code = causeIntegrity || f.code = causeCodegone then d.endContext c f else d.stopContext c f

/-- INTEGRITY found in a core's register store (01 R33; log entry 20). -/
def integrityFault (core : BitVec 8) (addr : Nat) : CtxFault :=
  { code := causeIntegrity, detail := blockId 1 core, addr := addr }

/-! ## Precise traps: what a check answers -/

/-- A precise trap: its cause, its detail and, for a memory trap, the lanes that failed (17 Tables 17-5, 17-6). The
detail of ILLEGAL is counted from the instruction's own main word; `runWord` makes it the failing word's offset. -/
structure Trap where
  cause : Nat
  detail : Nat
  lanes : Option Word
  deriving DecidableEq, Repr, Inhabited

/-- What a check answers: go on, a precise trap, or not ready (06 R148). -/
inductive Check where
  | ok
  | trap (t : Trap)
  | wait
  deriving DecidableEq, Repr, Inhabited

/-- A trap without failing lanes of its own. -/
def Check.fail (cause detail : Nat) : Check := .trap { cause := cause, detail := detail, lanes := none }

/-- ILLEGAL for the main word. -/
def Check.illegal : Check := .fail causeIllegal 0

/-- The first check that does not answer ok. -/
def Check.seq : List Check → Check
  | [] => .ok
  | .ok :: t => Check.seq t
  | c :: _ => c

/-- ILLEGAL unless the condition holds. -/
def Check.need (b : Bool) : Check := if b then .ok else .illegal

/-- A trap unless every one of some lanes passes: `bad` says which fail, the detail is that of the lowest of them. -/
def Check.lanes (cause : Nat) (lanes : Word) (bad : Nat → Bool) (detail : Nat → Nat) : Check :=
  let failing := maskOf (fun i => hasLane lanes i && bad i)
  match lowestLane failing with
  | none => .ok
  | some i => .trap { cause := cause, detail := detail i, lanes := some failing }

/-! ## Spaces -/

/-- The number of a core of a workgroup's quad in segment order: column parity, then row parity (08 Table 08-2). -/
def quadIndex (origin core : BitVec 8) : Nat :=
  (core.toNat % 8 - origin.toNat % 8) % 2 + 2 * ((core.toNat / 8 % 8 - origin.toNat / 8 % 8) % 2)

/-- A shared address as seen from a core, for an access of `n` bytes: its place, or none when it breaks 08 R171. -/
def sharedPlace (w : Workgroup) (segment : Nat) (core : BitVec 8) (addr n : Nat) : Option Place :=
  let q := bitsN addr 19 2
  let off := bitsN addr 0 19
  if 2 ^ 21 ≤ addr || segment < off + n || (q ≠ 0 && !w.quad) then none
  else some { space := .shared w.uid (BitVec.ofNat 2 (Nat.xor (quadIndex w.core core) q)), addr := off }

/-- The place of a shared address of the issuing group. -/
def View.shared (v : View) (addr n : Nat) : Option Place := sharedPlace v.wg v.kern.shared v.grp.core addr n

/-- A scratchpad window (08 R172): base as a 29-bit address, length, rights. -/
def Context.windows (c : Context) : List (Nat × Nat × Bool × Bool) :=
  (c.regions.filter (fun r => r.kind.toNat == 3)).map (fun r => (r.sub.toNat * 2 ^ 27 + r.base, r.size, r.r, r.w))

/-- Whether the bytes from `a` up to `b` lie in windows with the right, at most `n` windows deep. -/
def coveredBy (ws : List (Nat × Nat × Bool × Bool)) (write : Bool) (a b : Nat) : Nat → Bool
  | 0 => decide (b ≤ a)
  | n + 1 =>
    if b ≤ a then true
    else
      match ws.find? (fun w => decide (w.1 ≤ a) && decide (a < w.1 + w.2.1) && (if write then w.2.2.2 else w.2.2.1)) with
      | none => false
      | some w => coveredBy ws write (w.1 + w.2.1) b n

/-- Whether a scratchpad access of `n` bytes keeps 08 R172. -/
def Context.spadOk (c : Context) (addr n : Nat) (write : Bool) : Bool :=
  decide (addr + n ≤ 2 ^ 29) && coveredBy c.windows write addr (addr + n) 17

/-- Adds operands of a float format to exact accumulators, allotting one for a word that has none (09 R197). An
accumulator of another format over the word is settled first. -/
def accumulate (c : BitVec 6) (efmt : BitVec 4) : List (Place × Nat) → Device → Device
  | [], d => d
  | (p, x) :: t, d =>
    let n := fmtBits efmt.toNat / 8
    let here (a : Accumulator) : Bool := a.space == p.space && a.addr == p.addr && a.efmt == efmt
    let d0 := if d.accs.any here then d else d.settle p.space p.addr n false
    let accs := if d.accs.any here then d.accs
      else Accumulator.start c p.space p.addr efmt (d0.num p.space p.addr n) :: d0.accs
    accumulate c efmt t { d0 with accs := accs.map (fun a => if here a then a.add x else a) }

/-- QUOTA for a region of the memory plan (17 Table 17-5; log entry 26 for the layout of the detail). -/
def Context.quotaFault (c : Context) (kind sub : Nat) : CtxFault :=
  { code := causeQuota, detail := kind * 256 + sub, addr := match c.region kind sub with | some r => r.base | none => 0 }

/-- The accumulators that the reduction area of a context must hold: a peer holds its own (23 R359). -/
def Device.reductions (d : Device) (c : BitVec 6) : List Accumulator := d.accs.filter (fun a => a.ctx == c && !a.peer)

/-- Whether the reduction area holds the accumulators of a context, at 48 bytes each (09 R198). -/
def Device.reductionFits (d : Device) (c : BitVec 6) : Bool :=
  match (d.ctx c).region 6 0 with
  | some r => decide (48 * (d.reductions c).length ≤ r.size)
  | none => (d.reductions c).isEmpty

/-! ## Range locks (08 R184 to R187) -/

/-- The core whose table a thread access meets: the core that holds the byte for shared memory, the issuing core for
the scratchpad (08 R186). -/
def Device.lockCore (d : Device) (sp : Space) (issuing : BitVec 8) : BitVec 8 :=
  match sp with
  | .shared uid q => match d.wg uid with | some w => w.coreOf q.toNat | none => issuing
  | _ => issuing

/-- Whether `n` bytes at a place meet a lock that `hit` selects. -/
def Device.meetsLock (d : Device) (p : Place) (n : Nat) (issuing : BitVec 8) (hit : RangeLock → Bool) : Bool :=
  let core := d.lockCore p.space issuing
  d.locks.any (fun l => l.core == core && l.space == p.space && decide (l.lo < p.addr + n) &&
    decide (p.addr ≤ l.hi) && hit l)

/-- Loads and CBLD meet write locks (08 Table 08-6). -/
def hitsLoad (l : RangeLock) : Bool := l.kind == .write

/-- Stores, atomics and RED meet every lock. -/
def hitsStore (_ : RangeLock) : Bool := true

/-- Barrier instructions meet read and write locks. -/
def hitsBarrier (l : RangeLock) : Bool := l.kind != .barrier

/-- Whether a workgroup occupies a core. -/
def Workgroup.occupies (w : Workgroup) (core : BitVec 8) : Bool :=
  !w.gone && (if w.quad then (List.range 4).any (fun q => w.coreOf q == core) else w.core == core)

/-- The barrier-lock entries that the distributor has reserved on a core (15 R262). -/
def Device.reservedLocks (d : Device) (core : BitVec 8) : Nat :=
  (d.wgs.map (fun w =>
    if w.occupies core then
      match (d.ctx w.ctx).kernel w.handle w.kernel with
      | some k => k.nbar
      | none => 0
    else 0)).foldl (· + ·) 0

/-- The entries of a core's table that hold or are reserved for locks. -/
def Device.lockCount (d : Device) (core : BitVec 8) : Nat :=
  (d.locks.filter (fun l => l.core == core && l.kind != .barrier)).length + d.reservedLocks core

/-- Whether the tables, of 64 entries each, have room for some new locks, all of them or none (08 R184, R185). -/
def Device.roomFor (d : Device) (ls : List RangeLock) : Bool :=
  ls.all (fun l => decide (d.lockCount l.core + (ls.filter (fun x => x.core == l.core)).length ≤ 64))

/-- Releases the locks of an owner. -/
def Device.unlock (d : Device) (o : LockOwner) : Device :=
  { d with locks := d.locks.filter (fun l => l.owner != o) }

/-! ## Watchpoints and traffic counters (22 R343, R344) -/

/-- A range an access reaches, as a watchpoint sees it: space code, address, bytes. -/
abbrev Watched := Nat × Nat × Nat

/-- The watchpoint view of a place: shared places by segment offset and qcore. -/
def Place.watched (p : Place) (n : Nat) : Watched :=
  match p.space with
  | .shared _ q => (0, q.toNat * 2 ^ 19 + p.addr, n)
  | .spad => (1, p.addr, n)
  | _ => (2, p.addr, n)

/-- Whether a watchpoint fires on an access (22 Table 22-3): one of main memory covers only addresses below 2^32. -/
def watchFires (wp : BitVec 128) (a : Watched) (write : Bool) : Bool :=
  let x := wp.toNat
  bitN x 68 && bitN x (if write then 67 else 66) && bitsN x 64 2 == a.1 &&
    decide (bitsN x 0 32 < a.2.1 + a.2.2) && decide (a.2.1 < min (bitsN x 0 32 + bitsN x 32 32) (2 ^ 32))

/-- Begins to stop a workgroup (22 R345, R346), of which why will tell the cause once it has halted. A workgroup that is
already stopping or stopped keeps its cause, except that BRK prevails over a watchpoint (Table 22-6). -/
def Device.beginStop (d : Device) (uid : Nat) (cause : BitVec 4) : Device :=
  match d.wg uid with
  | none => d
  | some w =>
    let b := (d.ctx w.ctx).dbgBlock
    if w.stopped.st = 0 then
      (d.modWg uid (fun w => { w with stopped := { w.stopped with
        st := 1, cause := cause, prior := (b.st, b.why), stepObj := none, halted := [] } })).modCtx w.ctx
          (fun x => { x with dbgBlock := { x.dbgBlock with st := 1 } })
    else if w.stopped.st = 1 && cause == 2 && w.stopped.cause == 3 then
      d.modWg uid (fun w => { w with stopped := { w.stopped with cause := cause } })
    else d

/-- Counts a hit of each of some watchpoints and, under hold, stops the workgroup (22 R344). -/
def Device.watchHits (d : Device) (c : BitVec 6) (uid : Nat) (fired : List Nat) : Device :=
  if fired.isEmpty then d
  else
    let d1 := d.modCtx c (fun x => { x with dbgBlock := { x.dbgBlock with
      hits := fired.foldl (fun h k => modAt h k (· + 1)) x.dbgBlock.hits } })
    if (d.ctx c).dbgBlock.hold then
      let d2 := d1.beginStop uid 3
      match d1.wg uid with
      | some w =>
        if w.stopped.st = 0 then
          d2.modCtx c (fun x => { x with dbgBlock := { x.dbgBlock with widx := BitVec.ofNat 8 (fired.headD 0) } })
        else d2
      | none => d2
    else d1

/-- The watchpoints of a context that some accesses fire. -/
def Device.firedBy (d : Device) (c : BitVec 6) (accs : List Watched) (write : Bool) : List Nat :=
  (List.range 4).filter (fun k => accs.any (fun a => watchFires ((d.ctx c).dbgBlock.wps.getD k 0) a write))

/-- Counts the hits of some accesses of one kind. -/
def Device.watch (d : Device) (c : BitVec 6) (uid : Nat) (accs : List Watched) (write : Bool) : Device :=
  d.watchHits c uid (d.firedBy c accs write)

/-- Adds to the bytes moved by thread accesses. -/
def Device.countThread (d : Device) (c : BitVec 6) (n : Nat) : Device :=
  d.modCtx c (fun x => { x with dbgBlock := { x.dbgBlock with tbytes := x.dbgBlock.tbytes + BitVec.ofNat 64 n } })

/-- Adds to the bytes moved by engine requests. -/
def Device.countEngine (d : Device) (c : BitVec 6) (n : Nat) : Device :=
  d.modCtx c (fun x => { x with dbgBlock := { x.dbgBlock with ebytes := x.dbgBlock.ebytes + BitVec.ofNat 64 n } })

/-! ## Logs (22 R350 to R354) -/

/-- The log of a kind: 0 placement, 1 arrival order, 2 copy completion, 3 trace. -/
def Context.log (c : Context) (k : Nat) : Log :=
  match k with
  | 0 => c.logP
  | 1 => c.logA
  | 2 => c.logC
  | _ => c.logT

/-- The context with a log changed. -/
def Context.modLog (c : Context) (k : Nat) (f : Log → Log) : Context :=
  match k with
  | 0 => { c with logP := f c.logP }
  | 1 => { c with logA := f c.logA }
  | 2 => { c with logC := f c.logC }
  | _ => { c with logT := f c.logT }

/-- Whether a log of the context is written now: its region exists, and the replay bit is 0 or it is the trace log
(22 R350, R353). -/
def Context.logs (c : Context) (k : Nat) : Bool := (c.region 7 k).isSome && (!c.replay || k == 3)

/-- The capacity of a log in records. -/
def Context.logCap (c : Context) (k : Nat) : Nat :=
  match c.region 7 k with
  | some r => r.size / 32
  | none => 0

/-- Whether a log has no room for `n` more records: of an instruction, for which 64 records of the arrival-order and
copy-completion logs stay reserved, or of an engine (22 R352). -/
def Context.logFull (c : Context) (k : Nat) (engine : Bool) (n : Nat) : Bool :=
  let used := ((c.log k).head - (c.log k).tail).toNat
  decide (c.logCap k < used + n + (if !engine && (k == 1 || k == 2) then 64 else 0))

/-- Writes a record at the head of a log through a die's translation unit. -/
def Device.logPut (d : Device) (die : BitVec 2) (c : BitVec 6) (k : Nat) (rec : List (BitVec 8)) :
    Except CtxFault Device :=
  let x := d.ctx c
  match x.region 7 k with
  | none => .ok d
  | some r =>
    match d.mainWrite die c (r.base + 32 * ((x.log k).head.toNat % x.logCap k)) rec with
    | .error f => .error f
    | .ok d1 =>
      .ok (d1.modCtx c (fun x =>
        let x1 := x.modLog k (fun l => { l with head := l.head + 1 })
        { x1 with dbgBlock := { x1.dbgBlock with trbytes := x1.dbgBlock.trbytes + 32 } }))

/-- Who makes an arrival-order record: workgroup tag and ordinal, group index, the eng bit and the sequence. -/
structure Arriver where
  tag : Word
  ordinal : Word
  group : Nat
  eng : Bool
  seq : Nat
  deriving DecidableEq, Repr, Inhabited

/-- The unit an arrival reaches (22 Table 22-7): its die, core index and type. -/
structure ArrivalUnit where
  die : BitVec 2
  core : Nat
  unit : Nat
  deriving DecidableEq, Repr, Inhabited

/-- The number of a unit: bits 27:18 of an arrival record's first word. -/
def ArrivalUnit.number (u : ArrivalUnit) : BitVec 10 := BitVec.ofNat 10 (u.die.toNat * 256 + u.core * 4 + u.unit)

/-- The shared-memory unit of a core. -/
def unitShared (core : BitVec 8) : ArrivalUnit := { die := dieOf core, core := core.toNat % 64, unit := 0 }

/-- The scratchpad unit of a die. -/
def unitSpad (die : Nat) : ArrivalUnit := { die := BitVec.ofNat 2 die, core := 0, unit := 1 }

/-- The Clasp unit of a die. -/
def unitClasp (die : BitVec 2) : ArrivalUnit := { die := die, core := 0, unit := 2 }

/-- The distributor's unit; log entry 21 for its die. -/
def unitDist : ArrivalUnit := { die := 0, core := 0, unit := 3 }

/-- The unit of a place. -/
def Device.unitOf (d : Device) (p : Place) (issuing : BitVec 8) : ArrivalUnit :=
  match p.space with
  | .spad => unitSpad (p.addr / 2 ^ 27)
  | _ => unitShared (d.lockCore p.space issuing)

/-- An arrival-order record (22 Table 22-7). -/
def arrivalRecord (kind : Nat) (u : ArrivalUnit) (a : Arriver) (value : Nat) : List (BitVec 8) :=
  natToBytes (kind * 2 ^ 28 + u.number.toNat * 2 ^ 18) 4 ++ natToBytes a.tag.toNat 4 ++ natToBytes a.ordinal.toNat 4 ++
    natToBytes (a.group + (if a.eng then 128 else 0)) 4 ++ natToBytes a.seq 4 ++ natToBytes 0 4 ++ natToBytes value 8

/-- Record `n` of a log as it stands in its region, or the fault of the read. -/
def Device.logRead (d : Device) (die : BitVec 2) (c : BitVec 6) (k n : Nat) : Except CtxFault (List (BitVec 8)) :=
  let x := d.ctx c
  match x.region 7 k with
  | none => .ok (natToBytes 0 32)
  | some r =>
    match d.mainRead die c (r.base + 32 * (n % x.logCap k)) 32 with
    | .error f => .error f
    | .ok (b, _) => .ok b

/-- How replay treats an arrival (22 R353, R354): not replayed, admitted as record `n`, held for that record, or
diverged. -/
inductive Replay where
  | off
  | accept (n : Nat) (rec : List (BitVec 8))
  | hold (n : Nat)
  | diverged
  | failed (f : CtxFault)
  deriving DecidableEq, Repr, Inhabited

/-- Whether a record is one of an agent's sequence. -/
def recordOf (rec : List (BitVec 8)) (a : Arriver) : Bool :=
  leAt rec 4 4 == a.tag.toNat && leAt rec 8 4 == a.ordinal.toNat &&
    leAt rec 12 1 == a.group + (if a.eng then 128 else 0) && leAt rec 16 4 == a.seq

/-- Whether a record names a kind and a unit. -/
def recordNames (rec : List (BitVec 8)) (kind : Nat) (u : ArrivalUnit) : Bool :=
  bitsN (leAt rec 0 4) 28 4 == kind && bitsN (leAt rec 0 4) 18 10 == u.number.toNat

/-- The record an arrival takes in replay, among the records not yet consumed, oldest first. -/
def replayFind (d : Device) (die : BitVec 2) (c : BitVec 6) (kind : Nat) (u : ArrivalUnit) (a : Arriver)
    (unitBusy : Bool) : List Nat → Replay
  | [] => .diverged
  | n :: rest =>
    match d.logRead die c 1 n with
    | .error f => .failed f
    | .ok rec =>
      if recordOf rec a then
        if !recordNames rec kind u then .diverged else if unitBusy then .hold n else .accept n rec
      else replayFind d die c kind u a (unitBusy || bitsN (leAt rec 0 4) 18 10 == u.number.toNat) rest

/-- The records of a log not yet consumed in replay, oldest first. -/
def Log.left (l : Log) : List Nat := (List.range l.rcount.toNat).filter (fun n => !l.used.contains n)

/-- How replay treats an arrival of a kind at a unit. -/
def Device.replay (d : Device) (die : BitVec 2) (c : BitVec 6) (kind : Nat) (u : ArrivalUnit) (a : Arriver) :
    Replay :=
  let x := d.ctx c
  if !x.replay || x.logA.ended then .off
  else replayFind d die c kind u a false x.logA.left

/-- Ends the replay of the logs whose records are consumed: a message for each, and the replay bit clears when the
three have ended (22 R354). -/
def Device.replayEnds (d : Device) (c : BitVec 6) : Device :=
  let d1 := [0, 1, 2].foldl (fun (d : Device) k =>
    let x := d.ctx c
    let l := x.log k
    if x.replay && !l.ended && l.left.isEmpty then
      (d.modCtx c (fun x => x.modLog k (fun l => { l with ended := true }))).sendMsg 8 c (BitVec.ofNat 16 k) l.rcount
    else d) d
  let x := d1.ctx c
  if x.replay && x.logP.ended && x.logA.ended && x.logC.ended then
    d1.modCtx c (fun x =>
      let fix (l : Log) : Log := { l with head := l.rcount, tail := l.rcount, used := [] }
      { x with replay := false, logP := fix x.logP, logA := fix x.logA, logC := fix x.logC })
  else d1

/-- Consumes a record of a log in replay. -/
def Device.consume (d : Device) (c : BitVec 6) (k n : Nat) : Device :=
  (d.modCtx c (fun x => x.modLog k (fun l => { l with used := n :: l.used }))).replayEnds c

/-- INTEGRITY for an arrival that has diverged: the die's trace unit (22 R354; 21 Table 21-3). -/
def divergedFault (die : BitVec 2) : CtxFault :=
  { code := causeIntegrity, detail := 0xB * 2 ^ 16 + die.toNat * 2 ^ 14, addr := 0 }

/-! ## Barrier objects (08 R188, R189) -/

/-- The value of a barrier object with one arrival added, and whether its phase flipped (08 R189). -/
def arriveValue (v : Nat) : Nat × Bool :=
  let expected := bitsN v 0 16
  let arrived := bitsN v 16 16 + 1
  if expected ≤ arrived then
    (expected + (if bitN v 32 then 0 else 2 ^ 32) + lowN (bitsN v 33 31 + 1) 31 * 2 ^ 33, true)
  else (putBitsN v 16 16 arrived, false)

/-- A barrier object's place: the segment of its workgroup and the offset. -/
structure ObjRef where
  wg : Nat
  q : BitVec 2
  off : Nat
  deriving DecidableEq, Repr, Inhabited

/-- The space an object lies in. -/
def ObjRef.space (o : ObjRef) : Space := .shared o.wg o.q

/-- The object's shared address seen from the workgroup's first core. -/
def ObjRef.addr (o : ObjRef) : Word := BitVec.ofNat 32 (o.q.toNat * 2 ^ 19 + o.off)

/-- The object at a shared address seen from a core; `none` when it leaves the shared memory (08 R188). -/
def objectAt (w : Workgroup) (segment : Nat) (core : BitVec 8) (addr : Nat) : Option ObjRef :=
  match sharedPlace w segment core addr 8 with
  | some { space := .shared uid q, addr := off } => some { wg := uid, q := q, off := off }
  | _ => none

/-- The object at a shared address of the issuing group. -/
def View.object (v : View) (addr : Nat) : Option ObjRef := objectAt v.wg v.kern.shared v.grp.core addr

/-- The value of an object. -/
def Device.objectValue (d : Device) (o : ObjRef) : Nat := (d.settle o.space o.off 8 false).num o.space o.off 8

/-- The phase bit of an object. -/
def Device.phase (d : Device) (o : ObjRef) : Bool := bitN (d.objectValue o) 32

/-- One arrival on an object, by a group or by an engine, with the arrival record of its barrier lock (22 R347),
which a flip clears. -/
def Device.arrive (d : Device) (o : ObjRef) (by_ : Option Nat) : Device :=
  let d0 := d.settle o.space o.off 8 false
  let r := arriveValue (d0.objectValue o)
  let d1 := d0.putNum o.space o.off 8 r.1
  d1.modWg o.wg (fun w => { w with bars := w.bars.map (fun b =>
    if b.addr == o.addr then
      if r.2 then { b with groups := 0, engines := 0 }
      else match by_ with
        | some g => { b with groups := b.groups ||| BitVec.ofNat 96 (2 ^ g) }
        | none => { b with engines := b.engines + 1 }
    else b) })

/-! ## Groups and slots -/

/-- Changes the issuing slot of a group. -/
def Device.modSlot (d : Device) (uid g : Nat) (slot : Bool) (f : Slot → Slot) : Device :=
  d.modGroup uid g (fun x => x.setSlot slot ((x.slot slot).map f))

/-- The group index of an agent within its workgroup (06 R128; 16 R280: mode 16 counts half-groups; R281). -/
def View.index (v : View) : Nat := v.kern.indexAt v.grp.index v.half

/-- The index of the agent's group (06 R128): a paired group of mode 64 has that of its lower hardware group (16 R281;
log entry 23). -/
def View.groupIndex (v : View) : Nat := if v.grp.pair = some true then v.index - 1 else v.index

/-- The agent as the maker of its next arrival-order record, as it stands in a device. -/
def View.arriver (v : View) (d : Device) : Arriver :=
  let a := match d.wg v.wg.uid with
    | some w => match w.groups[v.home]? with
      | some x => x.agent v.half
      | none => v.agent
    | none => v.agent
  { tag := v.wg.tag, ordinal := v.wg.ordinal, group := v.groupIndex, eng := false, seq := a.logSeq }

/-- An arrival that an instruction makes: the kind of its record and the unit it reaches (22 Table 22-7). -/
abbrev Arrival := Nat × ArrivalUnit

/-- The arrival of a group at a unit, made when a lane of it is active (22 Table 22-7). -/
def unitArrival (h : Hdr) (kind : Nat) (u : ArrivalUnit) (vs : List View) : List Arrival :=
  if vs.any (fun v => decide (v.active h ≠ 0)) then [(kind, u)] else []

/-- Whether replay holds one of some arrivals that an agent makes in order; each one that it admits consumes its record for
those after it. -/
def View.heldIn (v : View) (a : Arriver) : List Arrival → Device → Bool
  | [], _ => false
  | (kind, u) :: rest, d =>
    match d.replay u.die v.c kind u a with
    | .hold _ => true
    | .accept n _ =>
      v.heldIn { a with seq := a.seq + 1 } rest
        (d.modCtx v.c (fun x => { x with logA := { x.logA with used := n :: x.logA.used } }))
    | _ => false

/-- The check that an instruction's arrivals make in a device, after those of the instructions before it in its chain: LOGFULL
in record mode (22 R352); in replay mode the arrivals wait for their records (22 R353; log entry 76). -/
def View.arrivalCheck (v : View) (d : Device) (earlier own : List Arrival) : Check :=
  let x := d.ctx v.c
  if own.isEmpty then .ok
  else if x.replay then (if v.heldIn (v.arriver d) (earlier ++ own) d then .wait else .ok)
  else if x.logs 1 && x.logFull 1 false (earlier.length + own.length) then .fail causeLogfull 1
  else .ok

/-- The record of an instruction's arrival at one unit: written in record mode, consumed in replay mode, where an arrival that
its record does not admit has been held by the check. -/
def View.arrival (v : View) (d : Device) (kind : Nat) (u : ArrivalUnit) (value : Nat) : Except CtxFault Device :=
  let count (d : Device) : Device :=
    d.modGroup v.wg.uid v.home (fun g => g.modAgent v.half (fun a => { a with logSeq := a.logSeq + 1 }))
  let x := d.ctx v.c
  if x.replay then
    match d.replay u.die v.c kind u (v.arriver d) with
    | .accept n _ => .ok (count (d.consume v.c 1 n))
    | .hold _ => .error (divergedFault u.die)
    | .diverged => .error (divergedFault u.die)
    | .failed f => .error f
    | .off => .ok d
  else if x.logs 1 then
    match d.logPut u.die v.c 1 (arrivalRecord kind u (v.arriver d) value) with
    | .ok d1 => .ok (count d1)
    | .error f => .error f
  else .ok d

/-- The records of some arrivals, one each (22 R351), with the CYC of the arrival as their value. -/
def View.arrivals (v : View) : List Arrival → Device → Except CtxFault Device
  | [], d => .ok d
  | (kind, u) :: rest, d =>
    match v.arrival d kind u v.dev.cyc.toNat with
    | .ok d1 => v.arrivals rest d1
    | .error f => .error f

/-! ## The divergence stack (06 R139) -/

/-- The virtual address of a divergence-stack entry of the agent (01 R32; 16 R282). -/
def View.entryAddr (v : View) (j : Nat) : Nat :=
  v.ctx.spillBase v.grp.spill + 8448 + 32 * (j + (if v.half then v.kern.dstack else 0))

/-! ## Sequencer records of a group -/

/-- The lanes of %lbr or %link that belong to some lanes, zero elsewhere. -/
def keepLanes (l : List (BitVec 12)) (lanes : Word) : List (BitVec 12) :=
  allLanes.map (fun i => if hasLane lanes i then l.getD i 0 else 0)

/-- The lanes a frame of the agent covers: half of the group's in mode 16. -/
def View.frameLanes (v : View) : Word :=
  if v.kern.mode16 then (if v.half then 0xFFFF0000 else 0x0000FFFF) else 0xFFFFFFFF

/-- The sequencer record of a gate frame (07 R167): of the whole group, or in mode 16 of the half alone (16 R280; log
entry 22). The issuing slot's address is the given one. -/
def View.frame (v : View) (resume : Word) : SeqRec :=
  let fix (n : Bool) (s : Option Slot) : Option Slot :=
    if v.kern.mode16 && n != v.half then none
    else if n = v.iss.slot then s.map (fun s => { s with addr := resume, wait := .awake, wake := 0 }) else s
  { slot0 := fix false v.grp.slot0, slot1 := fix true v.grp.slot1, wait0 := false, wait1 := false,
    parked := v.grp.parked &&& v.frameLanes, exited := v.grp.exited &&& v.frameLanes, depth := v.agent.depth,
    depth1 := 0, alt := v.grp.alt, lib := none, lbr := keepLanes v.grp.lbr v.frameLanes,
    link := keepLanes v.grp.link v.frameLanes }

/-- A slot that starts a state (06 R134). -/
def Slot.start (state : BitVec 12) (mask : Word) (join : Option (BitVec 12)) : Slot :=
  { state := state, addr := 0, mask := mask, moved := 0, join := join, wake := 0, wait := .awake, resume := 0,
    span := none, afterTerm := false }

/-! ## Gates (07 R167, R168; 18 R308, R309) -/

/-- A gate-table entry that is valid for a caller (18 R309): the library's handle, kernel and entry state. -/
def View.gateEntry (v : View) (i : Nat) : Option (BitVec 16 × Nat × BitVec 12) :=
  let e := (tableGet (0 : BitVec 64) v.ctx.gates i).toNat
  let handle : BitVec 16 := BitVec.ofNat 16 (e / 2 ^ 40)
  let k := bitsN e 24 12
  let st := bitsN e 0 12
  if !bitN e 63 || bitsN e 56 7 ≠ 0 || bitsN e 36 4 ≠ 0 || bitsN e 12 12 ≠ 0 then none
  else
    match v.ctx.kernel handle k with
    | none => none
    | some kern =>
      match kern.states[st]? with
      | none => none
      | some r =>
        if r.set.length = 1 && kern.wmode == v.kern.wmode then some (handle, k, BitVec.ofNat 12 st) else none

/-- A hardware group as it enters a library (06 R145): the library's lanes take the entry block and run in slot 0,
or in mode 16 in the half's own slot. -/
def Group.enter (g : Group) (mode16 half : Bool) (entry : BitVec 12) (block : BitVec 12) (lanes : Word)
    (lib : Library) : Group :=
  let g1 := { g with
    lbr := allLanes.map (fun i => if hasLane lanes i then block else g.lbr.getD i 0)
    parked := g.parked &&& ~~~lanes
    exited := g.exited &&& ~~~lanes }
  let s := some (Slot.start entry lanes none)
  let g2 := if mode16 then g1.setSlot half s else { g1 with slot0 := s, slot1 := none, alt := false }
  g2.modAgent half (fun a => { a with library := some lib, depth := lib.depth + 7 })

/-- Enters a library: the frame goes to the stack and each view's group enters with its own lanes. -/
def enterLibrary (d : Device) (vs : List View) (entry : BitVec 16 × Nat × BitVec 12) (resume : Word)
    (lanes : View → Word) : Except CtxFault Device :=
  match vs with
  | [] => .ok d
  | v :: rest =>
    match d.mainWrite (dieOf v.grp.core) v.c (v.entryAddr v.agent.depth) (v.frame resume).bytes with
    | .error f => .error f
    | .ok d1 =>
      let block : BitVec 12 := match v.ctx.kernel entry.1 entry.2.1 with
        | some k => match k.states[entry.2.2.toNat]? with | some r => r.set.headD 0 | none => 0
        | none => 0
      let upper := match rest with | u :: _ => (u.frame resume).bytes | [] => []
      let lib (v : View) : Library :=
        { handle := entry.1, kernel := entry.2.1, lanes := lanes v, depth := v.agent.depth, frame := upper }
      .ok (vs.foldl (fun d u => d.modGroup u.wg.uid u.g (fun g =>
        g.enter u.kern.mode16 u.half entry.2.2 block (lanes u) (lib u))) d1)

/-! ## Taking a trap (17 R296 to R299) -/

/-- The trap record and %tcause of a trap (17 Table 17-6, R296). -/
def trapRecord (v : View) (t : Trap) (word : Nat) (lanes resume : Word) (lib : Bool) : TrapRec × Word :=
  ({ lib := lib, slot := v.iss.slot, word := BitVec.ofNat 2 word, cause := BitVec.ofNat 8 t.cause,
     state := v.slot.state, resume := resume, lanes := lanes, detail := BitVec.ofNat 64 t.detail, cyc := v.dev.cyc },
   BitVec.ofNat 32 (v.iss.addr.toNat / 4 % 2 ^ 24 * 256 + t.cause))

/-- Where TRET resumes (17 Table 17-5). -/
def trapResume (iss : Issue) (cause : Nat) : Word :=
  if cause = causePromise || cause = causeSwtrap then iss.next else iss.addr

/-- Writes the trap record and %tcause of the issuing agent, of which a paired group of mode 64 has one (16 R281). -/
def Device.setTrap (d : Device) (v : View) (r : TrapRec × Word) : Device :=
  d.modGroup v.wg.uid v.home (fun g => g.modAgent v.half (fun a => { a with trap := r.1, tcause := r.2 }))

/-- Takes a precise trap (17 R298): the trap record and %tcause are written and the group enters gate entry 0, with
the active lanes of the instruction at fault as the library's lanes. At library privilege, with no room for the frame
(17 R299; a DSTACK never has it, log entry 80), or with no valid entry 0 (18 R309) the context ends with the trap's code. -/
def takeTrap (d : Device) (vs : List View) (t : Trap) (word : Nat) (active : View → Word) : Device :=
  match vs with
  | [] => d
  | v :: _ =>
    let none_ := vs.all (fun u => active u == 0)
    let lanes (u : View) : Word := if none_ then u.slot.mask else active u
    let resume := trapResume v.iss t.cause
    let room := decide (v.agent.depth + 7 ≤ v.kern.dstack)
    let rec_ := trapRecord v t word (t.lanes.getD (lanes v)) resume (v.library || !room)
    let d1 := d.setTrap v rec_
    let ends : CtxFault := { code := t.cause, detail := t.detail, addr := v.iss.addr.toNat }
    if v.library || !room then d1.endContext v.c ends
    else
      match v.gateEntry 0 with
      | none => d1.endContext v.c ends
      | some e =>
        match enterLibrary d1 vs e resume lanes with
        | .ok d2 => d2
        | .error f =>
          (d.modSlot v.wg.uid v.g v.iss.slot (fun s => { s with addr := v.iss.addr })).contextFault v.c f

/-! ## Waits -/

/-- The wait that a chain's instruction makes, with its operands read in the lowest lane of the active set (06 R150):
the wait, and whether it is a SLEEPUNTIL. -/
def View.waitOf (v : View) (i : Instr) : Wait :=
  let low (h : Hdr) (s w : Nat) : Nat := v.readLowest (v.active h) s w
  let word (n : Nat) : Word := BitVec.ofNat 32 n
  match i with
  | .barwait h d b => .bar (word (low h (cellSlice b) 32)) (bitN (low h (h.d d) 32) 0)
  | .bararrw h d b => .bar (word (low h (cellSlice b) 32)) (bitN (low h (h.d d) 32) 0)
  | .cwait h d b => .copy (word (low h (cellSlice b) 32)) (bitN (low h (h.d d) 32) 0)
  | .sleepuntil h d _ b => .until (word (low h (cellSlice b) 32)) (bitN (low h (h.d d) 32) 0)
  | .mwait h a => .matrix (word (low h (h.a a) 32))
  | _ => .awake

/-- The slices that a wait reads of its object, its token or its batch. -/
def Instr.waitSpans (i : Instr) : List (Nat × Nat) :=
  match i with
  | .barwait h d b => [span (cellSlice b) 32, span (h.d d) 32]
  | .bararrw h d b => [span (cellSlice b) 32, span (h.d d) 32]
  | .cwait h d b => [span (cellSlice b) 32, span (h.d d) 32]
  | .sleepuntil h d _ b => [span (cellSlice b) 32, span (h.d d) 32]
  | .mwait h a => [span (h.a a) 32]
  | _ => []

/-- The code of a state of a kernel. -/
def Kernel.code (k : Kernel) (state : BitVec 12) : List Word :=
  match k.states[state.toNat]? with
  | some r => r.code
  | none => []

/-- The active lanes of an instruction word. -/
def Instr.lanes (i : Instr) (v : View) : Word :=
  match i.hdr with
  | some h => v.active h
  | none => v.base

/-- The one view in which an instruction acts that acts once for its group: of a pair, the half that holds the lowest active
lane, or the lower half where no lane is active (16 R281; log entry 23). -/
def actingView (i : Instr) (vs : List View) : Option View :=
  match vs.find? (fun v => decide (Instr.lanes i v ≠ 0)) with
  | some v => some v
  | none => vs.head?

/-- A slot read from a record, with the SPAN in force at its address (06 R151). -/
def Slot.withSpan (s : Slot) (code : List Word) : Slot :=
  let st := spanAt code s.addr.toNat
  { s with span := st.1, afterTerm := st.2 }

/-! ## Refills (01 R30, R33) -/

/-- The virtual address of a cell's spill slot (01 R32). -/
def spillSlot (x : Context) (g : Group) (cell : Nat) : Nat := x.spillBase g.spill + 132 * cell

/-- Refills a cell that is evicted: COPYFAULT when its slot cannot be read, INTEGRITY when the slot is malformed; then the
cell stays evicted. -/
def Device.refill (d : Device) (uid g cell : Nat) : Except (BitVec 6 × CtxFault) Device :=
  match d.wg uid with
  | none => .ok d
  | some w =>
    match w.groups[g]? with
    | none => .ok d
    | some grp =>
      match grp.cells[cell]? with
      | none => .ok d
      | some c =>
        if !c.evicted then .ok d
        else
          match d.mainRead (dieOf grp.core) w.ctx (spillSlot (d.ctx w.ctx) grp cell) 132 with
          | .error f => .error (w.ctx, f)
          | .ok (b, d1) =>
            match Cell.ofSlot b with
            | none => .error (w.ctx, integrityFault grp.core (spillSlot (d.ctx w.ctx) grp cell))
            | some x =>
              let c1 : StoredCell := { cell := x, evicted := false, used := d.tick }
              .ok (d1.modGroup uid g (fun y => { y with cells := setAt y.cells cell c1 }))

/-- Refills some cells of a group. -/
def Device.refills (d : Device) (uid g : Nat) : List Nat → Except (BitVec 6 × CtxFault) Device
  | [] => .ok d
  | k :: rest =>
    match d.refill uid g k with
    | .error e => .error e
    | .ok d1 => d1.refills uid g rest

/-! ## Slots put back to sleep (06 R150, R151) -/

/-- The wait at a slot: its instruction, the view it acts in, and the address of the chain after it. -/
def Device.waitAt (d : Device) (iss : Issue) : Option (Instr × View × Word) :=
  match viewsOf d iss with
  | [] => none
  | v :: rest =>
    let addr := v.slot.addr.toNat
    let items := chainItems (packetOf (v.auto.code v.slot.state) (addr / 12)) (addr % 12 / 4) 3
    match workItem items with
    | some { instr := some i, .. } => (actingView i (v :: rest)).map (fun u => (i, u, BitVec.ofNat 32 (nextChain addr items)))
    | _ => none

/-- The evicted cells that a slot put back to sleep reads, refilled; INTEGRITY for one that an error has lost (01 R30;
21 R333). -/
def Device.refillWait (d : Device) (iss : Issue) : Except CtxFault Device :=
  match d.waitAt iss with
  | none => .ok d
  | some (i, u, _) =>
    let cells := (Instr.waitSpans i).flatMap (fun p => touched p.1 (4 * p.2))
    match cells.find? (fun k => d.lost.contains (.cell u.wg.uid u.g k)) with
    | some k => .error (d.lostFault (.cell u.wg.uid u.g k) (spillSlot u.ctx u.grp k))
    | none =>
      match d.refills u.wg.uid u.g cells with
      | .ok d1 => .ok d1
      | .error (_, f) => .error f

/-- A slot that its record says waits, put back to sleep in the wait that its chain makes (06 R150, R151). -/
def Device.sleepAgain (d : Device) (iss : Issue) : Device :=
  match d.waitAt iss with
  | some (i, u, next) => d.modSlot iss.wg iss.g iss.slot (fun s => { s with wait := u.waitOf i, resume := next })
  | none => d

/-- Some slots of an issuing group put back to sleep, their waits' cells refilled first. -/
def Device.sleepAll (d : Device) (iss : Issue) : List Bool → Except CtxFault Device
  | [] => .ok d
  | n :: rest =>
    match d.refillWait { iss with slot := n } with
    | .ok d1 => (d1.sleepAgain { iss with slot := n }).sleepAll iss rest
    | .error f => .error f

/-! ## Returning from a library (07 R169; 18 R311) -/

/-- A hardware group with the sequencer state of a frame restored. -/
def Group.restoreFrame (g : Group) (r : SeqRec) (mode16 half : Bool) (lanes : Word) : Group :=
  let pick (old new : List (BitVec 12)) : List (BitVec 12) :=
    allLanes.map (fun i => if hasLane lanes i then new.getD i 0 else old.getD i 0)
  let g1 := { g with
    parked := (g.parked &&& ~~~lanes) ||| (r.parked &&& lanes)
    exited := (g.exited &&& ~~~lanes) ||| (r.exited &&& lanes)
    lbr := pick g.lbr r.lbr
    link := pick g.link r.link }
  if mode16 then g1.setSlot half (if half then r.slot1 else r.slot0)
  else { g1 with slot0 := r.slot0, slot1 := r.slot1, alt := r.alt }

/-- Whether the library's divergence has not merged: slot 1 is occupied, a library lane is parked, or the stack stands
above the frame (06 R145). -/
def View.unmerged (vs : List View) : Bool :=
  match vs with
  | [] => false
  | v :: _ =>
    (!v.kern.mode16 && v.grp.slot1.isSome) ||
      vs.any (fun u => match u.agent.library with
        | some l => decide (u.grp.parked &&& l.lanes ≠ 0)
        | none => false) ||
      (match v.agent.library with
       | some l => decide (v.agent.depth ≠ l.depth + 7)
       | none => false)

/-- Restores the frame below the stack top (07 R169): slots, masks, %lbr and %link, with user privilege; slots asleep in a
wait are put back to sleep, which reads their cells. A frame that cannot be read raises COPYFAULT, a malformed one INTEGRITY:
a frame holds no library's fields. -/
def restoreFrame (d : Device) (vs : List View) : Except CtxFault Device :=
  match vs with
  | [] => .ok d
  | v :: rest =>
    let base := v.agent.depth - 7
    match d.mainRead (dieOf v.grp.core) v.c (v.entryAddr base) 224 with
    | .error f => .error f
    | .ok (b, d1) =>
      match (SeqRec.ofBytes b false).filter (·.lib.isNone) with
      | none => .error (integrityFault v.grp.core (v.entryAddr base))
      | some r =>
        let leave (g : Group) : Group := g.modAgent v.half (fun a => { a with library := none, depth := base })
        let d2 := d1.modGroup v.wg.uid v.g (fun g =>
          leave (g.restoreFrame r v.kern.mode16 v.half v.frameLanes))
        let d3 := match rest, v.agent.library with
          | u :: _, some l =>
            match SeqRec.ofBytes l.frame false with
            | some ru => d2.modGroup u.wg.uid u.g (fun g => leave (g.restoreFrame ru false false 0xFFFFFFFF))
            | none => d2
          | _, _ => d2
        let slots := [false, true].filter (fun n => !v.kern.mode16 || n == v.half)
        let d4 := vs.foldl (fun d u => slots.foldl (fun d n =>
          d.modSlot v.wg.uid u.g n (fun s => s.withSpan (v.kern.code s.state))) d) d3
        d4.sleepAll v.iss (slots.filter (fun n => if n then r.wait1 else r.wait0))

/-! ## Running an instruction word -/

/-- The meaning of an instruction word in the terms of 04 R371: the operand spans that SRANGE checks, the slices, masks and
special values it writes (01 R23; 05 R98), the written slices that are read too, with the spans and written slices that a cell
decides, the slices that it reads beside its operands, the operand slices that it does not read, the ILLEGAL checks that the
words decide with the kernel and the privilege, the other checks that the words decide, whether it acts whatever the active
lanes, whether it acts once for both hardware groups of a pair, the checks that read operands, the arrivals it makes, recorded
before its effect where `records` says so, those of some lanes that reach a unit, and its effect. -/
structure Meaning where
  spans : List (Nat × Nat) := []
  dests : List (Nat × Nat) := []
  reads : List (Nat × Nat) := []
  kdests : List Nat := []
  sdests : List Nat := []
  cellSpans : View → List (Nat × Nat) := fun _ => []
  cellDests : View → List (Nat × Nat) := fun _ => []
  alsoReads : View → List (Nat × Nat) := fun _ => []
  unread : View → List (Nat × Nat) := fun _ => []
  illegal : View → Bool := fun _ => false
  words : View → Check := fun _ => .ok
  always : Bool := false
  once : Bool := false
  operands : View → Word → Check := fun _ _ => .ok
  arrives : List View → List Arrival := fun _ => []
  records : Bool := false
  unitLanes : View → ArrivalUnit → Word → Word := fun _ _ act => act
  effect : View → Word → State → Except CtxFault State

/-- The slices that a meaning writes. -/
def Meaning.written (m : Meaning) (v : View) : List (Nat × Nat) := m.dests ++ m.cellDests v

/-- The number of words before the main word. -/
def Instr.extLen (i : Instr) : Nat :=
  match i.hdr with
  | some h => if h.ext.isSome then 1 else 0
  | none => 0

/-- The offset, from the instruction's first word, of the word that is ill-formed. -/
def Instr.badWord (i : Instr) : Nat :=
  if !i.extOk then 0 else if !(i.formOk && i.entryOk) then Instr.extLen i else Instr.extLen i + 1

/-- First checks: an ILLEGAL that the words decide (04 R84). -/
def Meaning.checkIllegal (m : Meaning) (i : Instr) (v : View) : Check :=
  if !i.wf then .fail causeIllegal (Instr.badWord i)
  else if m.illegal v then .fail causeIllegal (Instr.extLen i)
  else .ok

/-- Second checks: SRANGE, whatever the active lanes (01 R19). -/
def Meaning.checkSrange (m : Meaning) (v : View) : Check :=
  match (m.spans ++ m.cellSpans v).find? (fun p => decide (v.grp.budget < p.1 + p.2)) with
  | some p => .fail causeSrange (p.1 + p.2 * 2 ^ 32)
  | none => .ok

/-- The views in which an instruction acts. -/
def Meaning.acts (m : Meaning) (i : Instr) (vs : List View) : List View :=
  if m.once then (actingView i vs).toList else vs

/-- The remaining checks: the words' own, then those that read operands, made when a lane is active or the
instruction acts whatever the active lanes (04 R371). -/
def Meaning.checkRest (m : Meaning) (i : Instr) (v : View) (act : Word) : Check :=
  match m.words v with
  | .ok =>
    if m.always || decide (act ≠ 0) then
      match m.operands v act with
      | .trap t => .trap (if t.cause = causeIllegal then { t with detail := Instr.extLen i } else t)
      | c => c
    else .ok
  | c => c

/-- The remaining checks in every view in which the instruction acts, then those of its arrivals in a device, after the
arrivals of its chain before it. -/
def Meaning.checkActs (m : Meaning) (i : Instr) (vs : List View) (d : Device) (earlier : List Arrival) : Check :=
  Check.seq ((m.acts i vs).map (fun v => m.checkRest i v (Instr.lanes i v)) ++
    vs.head?.toList.map (fun v => v.arrivalCheck d earlier (m.arrives vs)))

/-- The checks of an instruction in every view it acts on, in the order of 04 R84. -/
def Meaning.check (m : Meaning) (i : Instr) (vs : List View) (d : Device) : Check :=
  Check.seq (vs.map (m.checkIllegal i) ++ vs.map m.checkSrange ++ [m.checkActs i vs d []])

/-- The effects on each view in turn. -/
def runEffects (f : View → Word → State → Except CtxFault State) (i : Instr) (always : Bool) :
    List View → State → Except CtxFault State
  | [], s => .ok s
  | v :: t, s =>
    if always || decide (Instr.lanes i v ≠ 0) then
      match f v (Instr.lanes i v) s with
      | .ok s1 => runEffects f i always t s1
      | .error e => .error e
    else runEffects f i always t s

/-- The cells that an instruction reads: those of its sources, those it writes in part, and, where a present lane keeps its
value, those it writes. -/
def Meaning.cellsRead (m : Meaning) (v : View) (act : Word) : List Nat :=
  let partOf (p : Nat × Nat) : List Nat :=
    (touched p.1 (4 * p.2)).filter (fun k =>
      v.grp.present &&& act != v.grp.present || (cellPart p.1 (4 * p.2) k).2.1 != 32)
  ((((m.spans ++ m.cellSpans v).diff (m.written v)).diff (m.unread v)) ++ m.reads ++ m.alsoReads v).flatMap (fun p => touched p.1 (4 * p.2)) ++
    (m.written v).flatMap partOf

/-- INTEGRITY where an instruction reads a cell that an error has lost (21 R333), in a view in which it acts or, beside its
operands, in the other view of a pair. -/
def Meaning.lostCell (m : Meaning) (i : Instr) (vs : List View) (d : Device) : Option CtxFault :=
  let lost (v : View) (cells : List Nat) : Option CtxFault :=
    (cells.find? (fun k => d.lost.contains (.cell v.wg.uid v.g k))).map (fun k =>
      d.lostFault (.cell v.wg.uid v.g k) (spillSlot v.ctx v.grp k))
  if d.lost.isEmpty then none
  else
    match (m.acts i vs).findSome? (fun v =>
        if m.always || decide (Instr.lanes i v ≠ 0) then lost v (m.cellsRead v (Instr.lanes i v)) else none) with
    | some f => some f
    | none =>
      if vs.any (fun v => m.always || decide (Instr.lanes i v ≠ 0)) then
        vs.findSome? (fun v => lost v ((m.alsoReads v).flatMap (fun p => touched p.1 (4 * p.2))))
      else none

/-- The records of an instruction's arrivals, made before its effect. -/
def Meaning.recordArrivals (m : Meaning) (vs : List View) (s : State) : Except CtxFault State :=
  match m.records, vs with
  | true, v :: _ => (v.arrivals (m.arrives vs) s.dev).map (fun d => { s with dev := d })
  | _, _ => .ok s

/-- The effect of an instruction in every view in which it acts. -/
def Meaning.run (m : Meaning) (i : Instr) (vs : List View) (s : State) : Except CtxFault State :=
  match m.recordArrivals vs s with
  | .ok s1 => runEffects m.effect i m.always (m.acts i vs) s1
  | .error f => .error f

/-- An instruction as far as the spans that its words give: without those that a cell decides, and without its results. -/
def Meaning.byWords (m : Meaning) : Meaning :=
  { m with cellSpans := fun _ => [], cellDests := fun _ => [], dests := [], reads := [], alsoReads := fun _ => [] }

/-- The checks of an instruction that read no operand: those of its words, then SRANGE of the spans that they give (04 R84). -/
def Meaning.checkFirst (m : Meaning) (i : Instr) (vs : List View) : Check :=
  Check.seq (vs.map (m.checkIllegal i) ++ vs.map m.byWords.checkSrange)

/-- INTEGRITY for a cell that an instruction is about to read and that an error has lost (21 R333): what its words refuse reads
nothing, and what SRANGE refuses by a cell reads that cell. -/
def Meaning.readsLost (m : Meaning) (i : Instr) (vs : List View) (d : Device) : Option CtxFault :=
  if m.checkFirst i vs ≠ .ok then none
  else if vs.all (fun v => m.checkSrange v == .ok) then m.lostCell i vs d
  else m.byWords.lostCell i vs d

/-- The device as if the chain in issue had not issued: its slot stands at the chain, and the alternation bit is as it
was (06 R142). -/
def State.before (s : State) (iss : Issue) : Device :=
  let undo (d : Device) (g : Nat) : Device :=
    (d.modSlot iss.wg g iss.slot (fun x => { x with addr := iss.addr })).modGroup iss.wg g
      (fun x => { x with alt := x.alt != iss.flips })
  let d := s.latch.getD s.dev
  (viewsOf d iss).foldl (fun d v => undo d v.g) d

/-- The state in which the chain in issue has had no effect and its slot stands at the chain again. -/
def State.back (s : State) (iss : Issue) : State := { s with dev := s.before iss, issue := none, latch := none }

/-- The state after the chain in issue raises a precise trap: no effect of the chain, and the trap is taken (04 R84;
17 R298). ILLEGAL's detail counts words from the chain's first. -/
def State.trap (s : State) (iss : Issue) (i : Instr) (t : Trap) : State :=
  let t1 := if t.cause = causeIllegal then { t with detail := iss.offset + t.detail } else t
  let d := s.before iss
  { s with dev := takeTrap d (viewsOf d iss) t1 iss.index (Instr.lanes i), issue := none, latch := none }

/-- Runs an instruction word of the chain in issue: its checks, then its effect. The operands are those of the device
before the chain (01 R23). -/
def runWord (i : Instr) (m : Meaning) (s : State) : Host.Outcome State Fault Refusal :=
  match s.issue with
  | none => .fault .noIssuer
  | some iss =>
    match viewsOf (s.latch.getD s.dev) iss with
    | [] => .fault .noIssuer
    | v :: rest =>
      let ends (f : CtxFault) : State := { s.back iss with dev := (s.back iss).dev.contextFault v.c f }
      match m.readsLost i (v :: rest) s.dev with
      | some f => .next (ends f)
      | none =>
        match m.check i (v :: rest) s.dev with
        | .trap t => .next (s.trap iss i t)
        | .wait => .next (s.back iss)
        | .ok =>
          match m.run i (v :: rest) s with
          | .ok s1 => .next s1
          | .error f => .next (ends f)

/-! ## Effects on registers -/

/-- The device with a register write of a group made (01 R21 to R24). A cell written whole in every present lane is made
good if an error had lost it (21 R333). -/
def Device.writeGroup (d : Device) (uid g slice w : Nat) (vals : List Nat) (lanes : Word) (tag : OpTag) : Device :=
  let d1 := d.modGroup uid g (fun x => x.write d.tick slice w vals lanes tag)
  if d.lost.isEmpty then d1
  else
    let whole := match d.wg uid with
      | some x => (match x.groups[g]? with | some y => y.present &&& lanes == y.present | none => false)
      | none => false
    let good (k : Nat) : Bool := whole && (touched slice w).contains k && (cellPart slice w k).2.1 == 32
    { d1 with lost := d1.lost.filter (fun p => match p with
      | .cell u h k => !(u == uid && h == g && good k)
      | _ => true) }

/-- A register write of the instruction in issue: made at once when the chain is one instruction, else when the chain's
instructions have all read. -/
def State.write (s : State) (v : View) (slice w : Nat) (vals : List Nat) (lanes : Word) (tag : OpTag) : State :=
  if s.latch.isSome then
    { s with dev := { s.dev with writes := s.dev.writes ++
        [{ wg := v.wg.uid, g := v.g, gen := v.grp.gen, slice := slice, width := w, vals := vals, lanes := lanes,
           tag := tag }] } }
  else { s with dev := s.dev.writeGroup v.wg.uid v.g slice w vals lanes tag }

/-- The views of the hardware groups of the issuing group: its own, or both of a pair of mode 64 (16 R281). -/
def View.halves (v : View) : List View := if v.grp.pair.isNone then [v] else viewsOf v.dev v.iss

/-- One value of `w` bits written to the active lanes of the issuing group, those of both halves of a pair, with tag U: the
result of an instruction that acts once. -/
def State.writeOne (s : State) (v : View) (h : Hdr) (slice w : Nat) (x : Nat) : State :=
  v.halves.foldl (fun s u =>
    if u.active h = 0 then s
    else s.write u slice w (allLanes.map (fun i => if hasLane (u.active h) i then x else 0)) (u.active h) .u) s

/-- The device with the issuing hardware group changed. -/
def State.modGroup (s : State) (v : View) (f : Group → Group) : State :=
  { s with dev := s.dev.modGroup v.wg.uid v.g f }

/-- The device with the issuing agent changed, where it is kept. -/
def State.modAgent (s : State) (v : View) (f : Agent → Agent) : State :=
  { s with dev := s.dev.modGroup v.wg.uid v.home (fun g => g.modAgent v.half f) }

/-- The device with the issuing slot changed. -/
def State.modSlot (s : State) (v : View) (f : Slot → Slot) : State :=
  s.modGroup v (fun g => g.setSlot v.iss.slot ((g.slot v.iss.slot).map f))

/-- The device with the slot that the issuing agent sleeps in changed: of a pair, that of the lower hardware group. -/
def State.modHomeSlot (s : State) (v : View) (f : Slot → Slot) : State :=
  { s with dev := s.dev.modSlot v.wg.uid v.home v.iss.slot f }

/-- A mask register written whole. -/
def State.setMask (s : State) (v : View) (k : BitVec 3) (m : Word) : State :=
  s.modGroup v (fun g => { g with masks := setAt g.masks k.toNat m })

/-- The bits of some lanes of a mask register written. -/
def State.setMaskLanes (s : State) (v : View) (k : BitVec 3) (lanes m : Word) : State :=
  s.modGroup v (fun g => { g with masks := modAt g.masks k.toNat (fun old => (old &&& ~~~lanes) ||| (m &&& lanes)) })

/-- Per-lane values, computed in some lanes only. -/
def valuesOf (act : Word) (f : Nat → Nat) : List Nat := allLanes.map (fun i => if hasLane act i then f i else 0)

/-- Flags ORed into %fflags (02 R45). -/
def State.raise (s : State) (v : View) (flags : Nat) : State :=
  { s with dev := s.dev.modCtx v.c (fun x => { x with fflags := x.fflags ||| BitVec.ofNat 32 flags }) }

/-! ## Shapes of meanings -/

/-- An instruction that writes one value per active lane to `w` bits at slice `d` and does nothing else (01 R21). -/
def Meaning.lanewise (srcs : List (Nat × Nat)) (d w : Nat) (f : View → Nat → Nat) (tag : View → OpTag) : Meaning :=
  { spans := srcs ++ [span d w]
    dests := [span d w]
    effect := fun v act s => .ok (s.write v d w (valuesOf act (f v)) act (tag v)) }

/-- The same for an operation that raises flags in the active lanes (02 R45). -/
def Meaning.floating (srcs : List (Nat × Nat)) (d w : Nat) (f : View → Nat → Rounded) (tag : View → OpTag) :
    Meaning :=
  { spans := srcs ++ [span d w]
    dests := [span d w]
    effect := fun v act s =>
      let rs := allLanes.map (fun i => if hasLane act i then f v i else (0, 0))
      .ok ((s.write v d w (rs.map Prod.fst) act (tag v)).raise v (rs.foldl (fun acc r => Nat.lor acc r.2) 0)) }

/-- A compare: the bits of the active lanes of mask `k` (05 R105), with the flags raised. -/
def Meaning.compare (srcs : List (Nat × Nat)) (k : BitVec 3) (f : View → Nat → Bool × Nat) : Meaning :=
  { spans := srcs
    kdests := [k.toNat]
    effect := fun v act s =>
      let rs := allLanes.map (fun i => if hasLane act i then f v i else (false, 0))
      .ok ((s.setMaskLanes v k act (maskOf (fun i => (rs.getD i (false, 0)).1))).raise v
        (rs.foldl (fun acc r => Nat.lor acc r.2) 0)) }

/-- The tag of a lane-wise operation whose sources are no wider than a cell (01 R27): U when every source is U, else G. -/
def View.uniformTag (v : View) (srcs : List (Nat × Nat)) : OpTag :=
  if srcs.all (fun p => v.isU p.1 p.2) then .u else .g

end Sys2Proof.Machine
end

