-- ==== Sys2Proof/Machine/Barrier.lean ====
section
/-! DEFINITION. The barrier family (08 R182, R185, R188, R189; 09 R205 to R210): BARINIT, BARARR, BARARRW, the waits,
FENCE and FETCHW. -/

namespace Sys2Proof.Machine

open Sys2Proof

/-! ## Checks of a barrier object -/

/-- The object address of an instruction: cell b6 in the lowest active lane. -/
def View.objectCell (v : View) (act : Word) (b : BitVec 6) : Nat := v.readLowest act (cellSlice b) 32

/-- The place of an object. -/
def ObjRef.place (o : ObjRef) : Place := { space := o.space, addr := o.off }

/-- The checks of a barrier object in their order: its cell is U, then ALIGN, BOUND and LOCK (09 R205; 08 R186, R188). -/
def View.objectCheck (v : View) (act : Word) (b : BitVec 6) (hit : ObjRef → RangeLock → Bool) : Check :=
  let x := v.objectCell act b
  Check.seq
    [ Check.need (v.isU (cellSlice b) 32)
    , if x % 8 = 0 then .ok else .fail causeAlign x
    , match v.object x with
      | none => .fail causeBound x
      | some o => if v.dev.meetsLock o.place 8 v.grp.core (hit o) then .fail causeLock x else .ok ]

/-- Whether a lock is the write lock of a request whose completion arrives on the object (09 R208). -/
def Device.ownWrite (d : Device) (o : ObjRef) (l : RangeLock) : Bool :=
  l.kind == .write &&
    (match l.owner with
     | .request id => d.requests.any (fun r => r.id == id &&
        (match d.wg r.wg with
         | some w => match (d.ctx w.ctx).kernel w.handle w.kernel with
           | some k => objectAt w k.shared r.core r.bar.toNat == some o
           | none => false
         | none => false))
     | _ => false)

/-- The locks that a wait meets (09 R208). -/
def View.hitsWait (v : View) (o : ObjRef) (l : RangeLock) : Bool := hitsBarrier l && !v.dev.ownWrite o l

/-- A token: the generation in bits 31:1 and the phase in bit 0 (09 R205). -/
def Device.token (d : Device) (o : ObjRef) : Nat := bitsN (d.objectValue o) 32 32

/-- Counts a wait that has returned (22 R342). -/
def State.countPhase (s : State) (v : View) : State := s.modAgent v (fun a => { a with phases := a.phases + 1 })

/-- Puts the issuing slot to sleep in a wait: the wait's own chain stays in `addr` (06 R150). -/
def State.sleepIn (s : State) (v : View) (w : Wait) (wake : BitVec 64) : State :=
  s.modHomeSlot v (fun sl => { sl with wait := w, wake := wake, addr := v.iss.addr, resume := v.iss.next })

/-- A wait on an object at issue: it returns when the phase already differs from the token (09 R207). -/
def State.waitOn (s : State) (v : View) (o : ObjRef) (tok : Bool) (w : Wait) : State :=
  if s.dev.phase o != tok then s.countPhase v else s.sleepIn v w 0

/-! ## BARINIT, BARARR, BARARRW (09 R206) -/

/-- The barrier locks of a workgroup on a core. -/
def Device.barrierLocks (d : Device) (uid : Nat) (core : BitVec 8) : Nat :=
  (d.locks.filter (fun l => l.core == core && l.kind == .barrier &&
    (match l.owner with | .object u _ => u == uid | _ => false))).length

/-- Whether a workgroup holds no barrier lock at an address and may hold no more: 32 on the object's core, `nbar` in
all (08 R185; 16 R272). -/
def View.barriersFull (v : View) (o : ObjRef) : Bool :=
  !v.wg.bars.any (fun x => x.addr == o.addr) &&
    (decide (32 ≤ v.dev.barrierLocks v.wg.uid (v.dev.lockCore o.space v.grp.core)) ||
      decide (v.kern.nbar ≤ v.wg.bars.length))

/-- The device with an object's barrier lock registered or reused, and its arrival record cleared. -/
def Device.barrierLock (d : Device) (v : View) (o : ObjRef) : Device :=
  let fresh := match d.wg v.wg.uid with
    | some w => w.bars.all (fun x => x.addr != o.addr)
    | none => false
  let clear : BarLock := { addr := o.addr, groups := 0, engines := 0 }
  let d1 := d.modWg v.wg.uid (fun w => { w with
    bars := if fresh then w.bars ++ [clear] else w.bars.map (fun x => if x.addr == o.addr then clear else x) })
  if fresh then
    { d1 with locks := d1.locks ++
        [{ core := d.lockCore o.space v.grp.core, space := o.space, lo := o.off, hi := o.off + 7, kind := .barrier,
           owner := .object v.wg.uid o.addr }] }
  else d1

/-- BARINIT: the object anew with its barrier lock (09 R206). -/
def meaningBarinit (h : Hdr) (a : BitVec 7) (b : BitVec 6) : Meaning :=
  let count (v : View) (act : Word) : Nat := v.readLowest act (h.a a) 32
  { spans := [span (h.a a) 32, span (cellSlice b) 32]
    once := true
    operands := fun v act => Check.seq
      [ Check.need (v.isU (h.a a) 32 && v.isU (cellSlice b) 32)
      , Check.need (decide (1 ≤ count v act) && decide (count v act < 2 ^ 16))
      , v.objectCheck act b (fun _ => hitsBarrier)
      , match v.object (v.objectCell act b) with
        | some o => if v.barriersFull o then .fail causeLock (v.objectCell act b) else .ok
        | none => .ok ]
    effect := fun v act s =>
      match v.object (v.objectCell act b) with
      | none => .ok s
      | some o =>
        let d := (s.dev.settle o.space o.off 8 true).putNum o.space o.off 8 (count v act)
        .ok { s with dev := d.barrierLock v o } }

/-- BARINIT run (`meaningBarinit`). -/
def execBarinit (h : Hdr) (a : BitVec 7) (b : BitVec 6) (s : State) : Host.Outcome State Fault Refusal :=
  runWord (.barinit h a b) (meaningBarinit h a b) s

/-- The unit of a barrier object. -/
def Device.objectUnit (d : Device) (o : ObjRef) (core : BitVec 8) : ArrivalUnit := unitShared (d.lockCore o.space core)

/-- The fault of reading an object that an error has lost (21 R333). -/
def Device.objectLost (d : Device) (o : ObjRef) : Option CtxFault := d.lostIn o.space o.off 8

/-- The arrival of a group at the object that the lowest active lane names (22 Table 22-7). -/
def objectArrival (i : Instr) (h : Hdr) (b : BitVec 6) (vs : List View) : List Arrival :=
  match actingView i vs with
  | some v =>
    if v.active h = 0 then []
    else match v.object (v.objectCell (v.active h) b) with
      | some o => [(2, v.dev.objectUnit o v.grp.core)]
      | none => []
  | none => []

/-- A group's arrival (09 R206): the record, the token of the phase it arrives in, and the arrival; then what `after`
does with the token. -/
def groupArrival (i : Instr) (h : Hdr) (d : BitVec 7) (b : BitVec 6) (after : View → ObjRef → Nat → State → State) : Meaning :=
  { spans := [span (cellSlice b) 32, span (h.d d) 32]
    dests := [span (h.d d) 32]
    once := true
    operands := fun v act => v.objectCheck act b (fun _ => hitsBarrier)
    arrives := objectArrival i h b
    records := true
    effect := fun v act s =>
      match v.object (v.objectCell act b) with
      | none => .ok s
      | some o =>
        match s.dev.objectLost o with
        | some f => .error f
        | none =>
          let t := (s.dev.settle o.space o.off 8 false).token o
          .ok (after v o t (State.writeOne { s with dev := s.dev.arrive o (some v.groupIndex) } v h (h.d d) 32 t)) }

/-- BARARR. -/
def meaningBararr (h : Hdr) (d : BitVec 7) (b : BitVec 6) : Meaning :=
  groupArrival (.bararr h d b) h d b (fun _ _ _ s => s)

/-- BARARR run (`meaningBararr`). -/
def execBararr (h : Hdr) (d : BitVec 7) (b : BitVec 6) (s : State) : Host.Outcome State Fault Refusal :=
  runWord (.bararr h d b) (meaningBararr h d b) s

/-- BARARRW: the arrival, then the wait with its token. -/
def meaningBararrw (h : Hdr) (d : BitVec 7) (b : BitVec 6) : Meaning :=
  groupArrival (.bararrw h d b) h d b (fun v o t s =>
    s.waitOn v o (bitN t 0) (.bar (BitVec.ofNat 32 (v.objectCell (v.active h) b)) (bitN t 0)))

/-- BARARRW run (`meaningBararrw`). -/
def execBararrw (h : Hdr) (d : BitVec 7) (b : BitVec 6) (s : State) : Host.Outcome State Fault Refusal :=
  runWord (.bararrw h d b) (meaningBararrw h d b) s

/-! ## BARWAIT, CWAIT, SLEEPUNTIL -/

/-- A wait without a deadline (09 R207). -/
def objectWait (h : Hdr) (d : BitVec 7) (b : BitVec 6) (w : Word → Bool → Wait) : Meaning :=
  { spans := [span (cellSlice b) 32, span (h.d d) 32]
    once := true
    operands := fun v act => v.objectCheck act b v.hitsWait
    effect := fun v act s =>
      match v.object (v.objectCell act b) with
      | none => .ok s
      | some o =>
        match s.dev.objectLost o with
        | some f => .error f
        | none =>
        let tok := bitN (v.readLowest act (h.d d) 32) 0
        .ok (s.waitOn v o tok (w (BitVec.ofNat 32 (v.objectCell act b)) tok)) }

/-- BARWAIT. -/
def meaningBarwait (h : Hdr) (d : BitVec 7) (b : BitVec 6) : Meaning :=
  objectWait h d b .bar

/-- BARWAIT run (`meaningBarwait`). -/
def execBarwait (h : Hdr) (d : BitVec 7) (b : BitVec 6) (s : State) : Host.Outcome State Fault Refusal :=
  runWord (.barwait h d b) (meaningBarwait h d b) s

/-- CWAIT. -/
def meaningCwait (h : Hdr) (d : BitVec 7) (b : BitVec 6) : Meaning :=
  objectWait h d b .copy

/-- CWAIT run (`meaningCwait`). -/
def execCwait (h : Hdr) (d : BitVec 7) (b : BitVec 6) (s : State) : Host.Outcome State Fault Refusal :=
  runWord (.cwait h d b) (meaningCwait h d b) s

/-- What a SLEEPUNTIL whose deadline has passed does: sleep on (in replay mode), go on, raise PROMISE or LOGFULL, or end
in a context fault. -/
inductive UntilEnd where
  | sleep
  | pass (d : Device)
  | trap (cause : Nat) (d : Device)
  | fault (f : CtxFault)
  deriving DecidableEq, Repr, Inhabited

/-- The one phase check of a SLEEPUNTIL (08 R182), with its outcome record (22 Table 22-7). In replay mode the slot
sleeps on until its own record is the next, and the record decides (22 R353). -/
def View.untilEnd (v : View) (d : Device) (o : ObjRef) (tok : Bool) : UntilEnd :=
  let left := d.phase o != tok
  let count (d : Device) : Device := d.modGroup v.wg.uid v.home (fun g =>
    g.modAgent v.half (fun a => { a with phases := a.phases + 1 }))
  let next_ (d : Device) (miss : Bool) : UntilEnd := if miss then .trap causePromise d else .pass (count d)
  if v.ctx.replay then
    match d.replay unitDist.die v.c 7 unitDist (v.arriver d) with
    | .off => next_ d (!left)
    | .accept n rec =>
      let d1 := (d.consume v.c 1 n).modGroup v.wg.uid v.home (fun g =>
        g.modAgent v.half (fun a => { a with logSeq := a.logSeq + 1 }))
      next_ d1 (leAt rec 24 8 == 1)
    | .hold _ => .sleep
    | .diverged => if left then .fault (divergedFault unitDist.die) else .sleep
    | .failed f => .fault f
  else if v.ctx.logs 1 && v.ctx.logFull 1 false 1 then .trap causeLogfull d
  else
    match v.arrival d 7 unitDist (if left then 0 else 1) with
    | .ok d1 => next_ d1 (!left)
    | .error f => .fault f

/-- The trap that ends a SLEEPUNTIL: PROMISE with its deadline, or LOGFULL. -/
def untilTrap (cause deadline : Nat) : Trap :=
  { cause := cause, detail := if cause = causePromise then deadline else 1, lanes := none }

/-- SLEEPUNTIL (08 R182): the slot sleeps until the deadline; a deadline already reached is checked at once. -/
def meaningSleepuntil (h : Hdr) (d a : BitVec 7) (b : BitVec 6) : Meaning :=
  let i : Instr := .sleepuntil h d a b
  { spans := [span (h.a a) 64, span (cellSlice b) 32, span (h.d d) 32]
    once := true
    operands := fun v act => Check.seq
      [ v.objectCheck act b v.hitsWait
      , if !v.ctx.replay && v.ctx.logs 1 && v.ctx.logFull 1 false 1 then .fail causeLogfull 1 else .ok ]
    effect := fun v act s =>
      match v.object (v.objectCell act b) with
      | none => .ok s
      | some o =>
        let tok := bitN (v.readLowest act (h.d d) 32) 0
        let t := v.readLowest act (h.a a) 64
        match s.dev.objectLost o with
        | some f => .error f
        | none =>
        let asleep := s.sleepIn v (.until (BitVec.ofNat 32 (v.objectCell act b)) tok) (BitVec.ofNat 64 t)
        if v.dev.cyc.toNat < t then .ok asleep
        else
          match v.untilEnd s.dev o tok with
          | .sleep => .ok asleep
          | .pass d1 => .ok { s with dev := d1 }
          | .trap c d1 => .ok (State.trap { s with dev := d1, latch := none } v.iss i (untilTrap c t))
          | .fault f => .error f }

/-- SLEEPUNTIL run (`meaningSleepuntil`). -/
def execSleepuntil (h : Hdr) (d a : BitVec 7) (b : BitVec 6) (s : State) : Host.Outcome State Fault Refusal :=
  runWord (.sleepuntil h d a b) (meaningSleepuntil h d a b) s

/-! ## FENCE -/

/-- FENCE (09 R209): every access of the model takes effect in its own step, so the accesses before the fence are already
ordered before those after it, at every scope (log entry 6). -/
def meaningFence (_ : Hdr) (_ : BitVec 3) : Meaning :=
  { once := true
    effect := fun _ _ st => .ok st }

/-- FENCE run (`meaningFence`). -/
def execFence (h : Hdr) (s : BitVec 3) (st : State) : Host.Outcome State Fault Refusal :=
  runWord (.fence h s) (meaningFence h s) st

/-! ## FETCHW -/

/-- The locks that a FETCHW meets: all but the barrier lock of the object in bytes 0 to 7 (09 R210). -/
def hitsMailbox (off : Nat) (l : RangeLock) : Bool := !(l.kind == .barrier && l.lo == off)

/-- The write lock of a mailbox. -/
def mailboxLock (d : Device) (core : BitVec 8) (p : Place) (id : Nat) : RangeLock :=
  { core := d.lockCore p.space core, space := p.space, lo := p.addr, hi := p.addr + 31, kind := .write,
    owner := .request id }

/-- The request of a FETCHW. -/
def View.fetchRequest (v : View) (id : Nat) (addr : Word) : Request :=
  { id := id, ctx := v.c, wg := v.wg.uid, tag := v.wg.tag, ordinal := v.wg.ordinal, group := v.groupIndex,
    agent := v.half, core := v.grp.core, die := dieOf v.grp.core, bar := addr, promise := 0, cells := [],
    work := .fetch addr, done := 0, fails := 0, fired := [], seq := 0, status := .queued, leaves := [] }

/-- FETCHW (09 R210): its 32-byte mailbox is write-locked and the request goes to the distributor (06 R153). -/
def meaningFetchw (_ : Hdr) (b : BitVec 6) : Meaning :=
  { spans := [span (cellSlice b) 32]
    once := true
    operands := fun v act =>
      let x := v.objectCell act b
      Check.seq
        [ Check.need (v.isU (cellSlice b) 32)
        , if x % 32 = 0 then .ok else .fail causeAlign x
        , match v.shared x 32 with
          | none => .fail causeBound x
          | some p =>
            if v.dev.meetsLock p 32 v.grp.core (hitsMailbox p.addr) then .fail causeLock x
            else if v.ctx.logs 0 && v.ctx.logFull 0 false 1 then .fail causeLogfull 0
            else if v.dev.roomFor [mailboxLock v.dev v.grp.core p 0] then .ok else .wait ]
    effect := fun v act s =>
      match v.shared (v.objectCell act b) 32 with
      | none => .ok s
      | some p =>
        let id := s.dev.nextId
        .ok { s with dev := { s.dev with
          nextId := id + 1
          locks := s.dev.locks ++ [mailboxLock s.dev v.grp.core p id]
          requests := s.dev.requests ++ [v.fetchRequest id (BitVec.ofNat 32 (v.objectCell act b))] } } }

/-- FETCHW run (`meaningFetchw`). -/
def execFetchw (h : Hdr) (b : BitVec 6) (s : State) : Host.Outcome State Fault Refusal :=
  runWord (.fetchw h b) (meaningFetchw h b) s

end Sys2Proof.Machine
end

