-- ==== Sys2Proof/Machine/Special.lean ====
section
/-! DEFINITION. The special-function lanes (02 R61, R62): the exact results of Table 02-13, an exact or
high-precision value of each function, and a free result inside the bound of Table 02-12. -/

namespace Sys2Proof.Machine

open Sys2Proof.Config (Fn)

/-! ## Fixed-point values with `prec` fraction bits -/

/-- The fraction bits of the fixed-point values below. -/
def prec : Nat := 400

/-- 1.0 in fixed point. -/
def fixOne : Int := (2 ^ prec : Nat)

/-- The fixed-point product. -/
def fixMul (a b : Int) : Int := a * b / fixOne

/-- The natural logarithm of 2, as the sum of 1 / (k * 2^k). -/
def fixLn2 : Int := (List.range prec).foldl (fun acc k => acc + fixOne / (((k + 1) * 2 ^ (k + 1) : Nat) : Int)) 0

/-- Sum of t^k / k! from the term `t` numbered `k` on. -/
def expTail (r : Int) : Nat → Nat → Int → Int
  | 0, _, _ => 0
  | n + 1, k, t => t + expTail r n (k + 1) (fixMul t r / ((k : Int) + 1))

/-- e^r for a fixed-point r of magnitude at most 1. -/
def fixExp (r : Int) : Int := expTail r 120 0 fixOne

/-- Sum of the odd powers of a ratio over their exponents: artanh, or arctan with alternating signs. -/
def oddSeries (sq : Int) (alternate : Bool) : Nat → Nat → Int → Int
  | 0, _, _ => 0
  | n + 1, k, t =>
    t / ((2 * k + 1 : Nat) : Int) + oddSeries sq alternate n (k + 1) (fixMul (if alternate then -t else t) sq)

/-- pi by Machin's formula. -/
def fixPi : Int :=
  let atanInv (d : Int) : Int := oddSeries (fixOne / (d * d)) true 180 0 (fixOne / d)
  16 * atanInv 5 - 4 * atanInv 239

/-- The alternating Taylor sum of sine (from k = 1) or cosine (from k = 0). -/
def trigTail (sq : Int) : Nat → Nat → Int → Int
  | 0, _, _ => 0
  | n + 1, k, t => t + trigTail sq n (k + 2) (-(fixMul t sq) / (((k + 1) * (k + 2) : Nat) : Int))

/-- The fixed-point value of m * 2^e. -/
def toFix (m : Nat) (e : Int) : Int :=
  let s : Int := e + prec
  if 0 ≤ s then ((scaleUp m s : Nat) : Int) else ((m / 2 ^ (-s).toNat : Nat) : Int)

/-- A fixed-point value as a sign and magnitude. -/
def ofFix (v : Int) (e : Int) : Val := .num (decide (v < 0)) v.natAbs (e - prec)

/-- The integer square root, bit by bit from bit `i - 1` down. -/
def isqrt (n : Nat) : Nat → Nat → Nat
  | 0, r => r
  | i + 1, r => isqrt n i (if (r + 2 ^ i) * (r + 2 ^ i) ≤ n then r + 2 ^ i else r)

/-- sqrt(m * 2^e) with its inexactness in the lowest bit: exact when the root is exact, else strictly between two
values of the last place. -/
def sqrtExact (m : Nat) (e : Int) : Val :=
  let odd := decide (e % 2 ≠ 0)
  let m' := (if odd then 2 * m else m) * 2 ^ 200
  let e' : Int := (if odd then e - 1 else e) - 200
  let s := isqrt m' (Nat.log2 m' / 2 + 1) 0
  if s * s = m' then .num false s (e' / 2) else .num false (2 * s + 1) (e' / 2 - 1)

/-! ## The functions -/

/-- The value of a function at a finite nonzero operand, exact or to about 2^-200 of itself. -/
def fnValue (fn : Fn) (neg : Bool) (m : Nat) (e : Int) : Val :=
  match fn with
  | .rcp =>
    let k := Nat.log2 m + 300
    .num neg (2 ^ k / m) (-(k : Int) - e)
  | .rsqrt =>
    let odd := decide (e % 2 ≠ 0)
    let m' := if odd then 2 * m else m
    let e' : Int := if odd then e - 1 else e
    let k := Nat.log2 m' + 300
    let q := 2 ^ (2 * k) / m'
    .num false (isqrt q (Nat.log2 q / 2 + 1) 0) (-(k : Int) - e' / 2)
  | .sqrt => sqrtExact m e
  | .exp2 =>
    if (Nat.log2 m : Int) + e ≥ 13 then .num false 1 (if neg then -8192 else 8192)
    else
      let x := signed neg (toFix m e).natAbs
      let n := x / fixOne
      ofFix (fixExp (fixMul (x - n * fixOne) fixLn2)) n
  | .log2 =>
    let l := Nat.log2 m
    let mant : Int := ((m * 2 ^ (prec - l) : Nat) : Int)
    let t := (mant - fixOne) * fixOne / (mant + fixOne)
    let ln := 2 * oddSeries (fixMul t t) false 150 0 t
    ofFix (((l : Int) + e) * fixOne + ln * fixOne / fixLn2) 0
  | .sin =>
    let r := toFix m e % (2 * fixPi)
    let v := trigTail (fixMul r r) 110 1 r
    ofFix (if neg then -v else v) 0
  | .cos =>
    let r := toFix m e % (2 * fixPi)
    ofFix (trigTail (fixMul r r) 110 0 fixOne) 0
  | .tanh =>
    if (Nat.log2 m : Int) + e ≥ 8 then ofFix (if neg then 1 - fixOne else fixOne - 1) 0
    else
      let y := 2 * (toFix m e) * fixOne / fixLn2
      let n := y / fixOne
      let ex := fixExp (fixMul (y - n * fixOne) fixLn2) * (2 ^ n.toNat : Nat)
      let v := (ex - fixOne) * fixOne / (ex + fixOne)
      ofFix (if neg then -v else v) 0

/-- The bound of a function in ulp (02 Table 02-12). -/
def fnBound : Fn → Nat
  | .rcp => 1
  | .rsqrt => 1
  | .sqrt => 0
  | _ => 2

/-- The results of Table 02-13 at special operands, in exact values with flags; `none` at any other operand. EXP2 of
an integer and LOG2 of 1 are exact (Table 02-12; of the first see `fnFixed`). -/
def fnSpecial (fn : Fn) (v : Val) : Option (Val × Nat) :=
  match v with
  | .nan s => some (.nan false, if s then flagNV else 0)
  | .inf neg =>
    match fn with
    | .rcp => some (.num neg 0 0, 0)
    | .rsqrt => some (if neg then (.nan false, flagNV) else (.num false 0 0, 0))
    | .sqrt => some (if neg then (.nan false, flagNV) else (.inf false, 0))
    | .exp2 => some (if neg then .num false 0 0 else .inf false, 0)
    | .log2 => some (if neg then (.nan false, flagNV) else (.inf false, 0))
    | .sin => some (.nan false, flagNV)
    | .cos => some (.nan false, flagNV)
    | .tanh => some (.num neg 1 0, 0)
  | .num neg m e =>
    if m = 0 then
      match fn with
      | .rcp => some (.inf neg, flagDZ)
      | .rsqrt => some (.inf neg, flagDZ)
      | .sqrt => some (.num neg 0 0, 0)
      | .exp2 => some (.num false 1 0, 0)
      | .log2 => some (.inf true, flagDZ)
      | .sin => some (.num neg 0 0, 0)
      | .cos => some (.num false 1 0, 0)
      | .tanh => some (.num neg 0 0, 0)
    else
      match fn with
      | .rsqrt => if neg then some (.nan false, flagNV) else none
      | .sqrt => if neg then some (.nan false, flagNV) else none
      | .log2 =>
        if neg then some (.nan false, flagNV)
        else if cmpMag m e 1 0 == .eq then some (.num false 0 0, 0) else none
      | .exp2 =>
        if isInteger m e && decide ((Nat.log2 m : Int) + e < 13) then
          some (.num false 1 (signed neg (roundToInt .rz false m e)), 0)
        else none
      | _ => none

/-- Whether `r` is exactly the function's value at m * 2^e. -/
def fnExactAt (fn : Fn) (neg : Bool) (m : Nat) (e : Int) (r : Val) : Bool :=
  match r with
  | .num n k x =>
    match fn with
    | .rcp => n == neg && cmpMag (k * m) (x + e) 1 0 == .eq
    | .rsqrt => cmpMag (k * k * m) (2 * x + e) 1 0 == .eq
    | .log2 => isInteger k x && cmpMag m e 1 (signed n (roundToInt .rz false k x)) == .eq
    | _ => false
  | _ => false

/-- A value moved by `d` units of 2^u, keeping its sign when it reaches zero. -/
def nudge (v : Val) (d : Int) (u : Int) : Val :=
  match v with
  | .num neg m e =>
    let x := min e u
    let s := signed neg (scaleUp m (e - x)) + d * (2 ^ (u - x).toNat : Nat)
    .num (if s = 0 then neg else decide (s < 0)) s.natAbs x
  | w => w

/-- The value limited to the range -1 to 1. -/
def clampOne (v : Val) : Val :=
  match v with
  | .num neg m e => if cmpMag m e 1 0 == .gt then .num neg 1 0 else v
  | w => w

/-- Whether two values differ by at most `b` units of 2^u. -/
def withinUlps (v w : Val) (b : Nat) (u : Int) : Bool :=
  match v, w with
  | .num n1 m1 e1, .num n2 m2 e2 =>
    let x := min u (min e1 e2)
    let d := (signed n1 (scaleUp m1 (e1 - x)) - signed n2 (scaleUp m2 (e2 - x))).natAbs
    decide (d ≤ b * scaleUp 1 (u - x))
  | _, _ => false

/-- The flags of an inexact result whose code is given: NX, and UF when an IEEE result is tiny (02 Table 02-3). -/
def inexactFlags (f : FloatFmt) (code : Nat) : Nat :=
  match f with
  | .bin b => if decide (bitsN code 0 (b.width - 1) < 2 ^ b.fb) then flagUF + flagNX else flagNX
  | .tap _ => flagNX

/-- SIN and COS outside the domain of their bound: the given code where its value is finite and in [-1, 1], else zero
(02 Table 02-12). -/
def wildResult (f : FloatFmt) (code : Nat) : Rounded :=
  let ok : Bool := match f.value (lowN code f.width) with
    | .num _ m e => cmpMag m e 1 0 != .gt
    | _ => false
  let c := if ok then lowN code f.width else 0
  (c, inexactFlags f c)

/-- The result that Tables 02-12 and 02-13 fix at an operand, as an exact value with flags: EXP2 of an integer is among
them only where its result is representable in the destination; a bound alone holds at any other operand. -/
def fnFixed (fn : Fn) (f : FloatFmt) (v : Val) : Option (Val × Nat) :=
  match fnSpecial fn v with
  | some (.num neg m e, fl) =>
    let r := f.value (finish f .rne (.num neg m e, 0)).1
    if fn = .exp2 && !withinUlps (.num neg m e) r 0 0 then none else some (.num neg m e, fl)
  | r => r

/-- A special function of an exact operand (02 R61, R62). `st` and `dt` are the source and destination type codes,
`x` the operand's bits: with the mode, where the destination rounds in one, they index where inside the bound the result
falls (02 R44, R57). -/
def specialFn (fn : Fn) (st dt : BitVec 3) (mode : BitVec 2) (x : Word) (f : FloatFmt) (v : Val) : Rounded :=
  let r := Rounding.ofCode mode.toNat
  match fnFixed fn f v with
  | some (w, fl) =>
    if f.isTapered && (w.isInf || w.isNan) then (f.nan, fl) else finish f r (w, fl)
  | none =>
    match v with
    | .num neg m e =>
      let a := fnValue fn neg m e
      let k : BitVec 2 := if f.isTapered then 0 else mode
      let d : Int := (Config.sfuDelta fn st dt k x).toInt
      let top : Int := match a with | .num _ k z => (Nat.log2 k : Int) + z | _ => 0
      let u : Int := (if f.isTapered then top else max top (-126)) - 23
      let near := nudge a (d * fnBound fn) (u - 31)
      let y := if fn = .tanh then clampOne near else near
      if fn = .sqrt then finish f r (a, 0)
      else if (fn = .sin || fn = .cos) && cmpMag m e 1 20 == .gt then
        wildResult f (Config.sfuWild fn st dt k x).toNat
      else if f = .bin fmtF32 then
        -- an f32 result is any f32 inside the bound; an overflowing one is R42's
        let rounded := fmtF32.encode r a
        if bitN rounded.2 2 then rounded
        else
          let p := fmtF32.value (fmtF32.encode .rne y).1
          let res := if withinUlps p a (fnBound fn) u then p else fmtF32.value rounded.1
          let bits := (fmtF32.encode .rne res).1
          (bits, if fnExactAt fn neg m e res then 0 else inexactFlags f bits)
      else
        -- an intermediate inside the bound, rounded once; inexact unless the result is f(x) itself (Table 02-3)
        let z := finish f r (y, 0)
        (z.1, if fnExactAt fn neg m e (f.value z.1) then 0 else z.2 ||| inexactFlags f z.1)
    | w => finish f r (w, 0)

end Sys2Proof.Machine
end

