-- ==== Sys2Proof/Machine/Flags.lean ====
section
/-! DEFINITION. Flag and condition computations: the conditions of compares (04 Table 04-3), the float operations
with the flags they raise (02 R45), and the operations of the reductions. -/

namespace Sys2Proof.Machine

open Sys2Proof.Config (Fn)

/-- Integer conditions of ICMP and ICMPI (04 Table 04-3). -/
def condInt (q : Nat) (a b : Int) : Bool :=
  match q with
  | 0 => decide (a = b)
  | 1 => decide (a ≠ b)
  | 2 => decide (a < b)
  | 3 => decide (a ≤ b)
  | 4 => decide (b < a)
  | 5 => decide (b ≤ a)
  | 6 => decide (a < b)
  | 7 => decide (a ≤ b)
  | 8 => decide (b < a)
  | _ => decide (b ≤ a)

/-- Whether an integer condition reads its sources signed (05 R105). -/
def condSigned (q : Nat) : Bool := decide (2 ≤ q) && decide (q ≤ 5)

/-- A condition on an order that is known (04 Table 04-3). -/
def condOrd (q : Nat) (o : Ordering) : Bool :=
  match q with
  | 0 => o == .eq
  | 1 => o != .eq
  | 2 => o == .lt
  | 3 => o != .gt
  | 4 => o == .gt
  | 5 => o != .lt
  | 6 => false
  | _ => true

/-- FCMP (05 R114): the condition and the flags. On IEEE types unordered operands satisfy NE and UN alone; tapered
codes compare as integers after widening to one type (02 R59). -/
def condFloat (q : Nat) (a b : FloatFmt) (x y : Nat) : Bool × Nat :=
  let u := a.value x
  let v := b.value y
  if a.isTapered then
    let o := match u.isNan, v.isNan with
      | true, true => Ordering.eq
      | true, false => .lt
      | false, true => .gt
      | false, false => cmpVal u v
    (condOrd q o, 0)
  else if u.isNan || v.isNan then
    (q = 1 || q = 6, if u.isSig || v.isSig then flagNV else 0)
  else (condOrd q (cmpVal u v), 0)

/-- The minimum or maximum of two tapered operands in signed-code order, NaR lowest (02 R59), as a value. -/
def minMaxTapered (isMax : Bool) (u v : Val) : Val :=
  if u.isNan then (if isMax then v else u)
  else if v.isNan then (if isMax then u else v)
  else if (cmpVal u v == .lt) != isMax then u else v

/-- FMIN and FMAX into a destination format (05 R113); on tapered types no flag is raised (02 R59). -/
def fminmax (isMax : Bool) (f : FloatFmt) (r : Rounding) (u v : Val) : Rounded :=
  if f.isTapered then ((f.encode r (minMaxTapered isMax u v)).1, 0)
  else finish f r (minMaxNumber isMax u v)

/-- The binary float operations of majors 0x1C to 0x21. -/
inductive FOp where
  | add | sub | mul | fma | min | max
  deriving DecidableEq, Repr, Inhabited

/-- A binary float operation on exact operands (05 R112, R113); `c` is the addend of FFMA. -/
def FOp.eval (op : FOp) (f : FloatFmt) (r : Rounding) (a b c : Val) : Rounded :=
  match op with
  | .add => fadd f r a b
  | .sub => fsub f r a b
  | .mul => fmul f r a b
  | .fma => ffma f r a b c
  | .min => fminmax false f r a b
  | .max => fminmax true f r a b

/-- FABS or FNEG (05 R115): on one IEEE type only the sign bit changes; on one tapered type the code is kept or
negated; otherwise the value is converted. -/
def fsign (negate : Bool) (st dt : Nat) (f g : FloatFmt) (r : Rounding) (x : Nat) : Rounded :=
  if st = dt then
    match f with
    | .bin b =>
      let neg := bitN x (b.width - 1)
      (bitsN x 0 (b.width - 1) + b.signBit (if negate then !neg else false), 0)
    | .tap t =>
      let neg := bitN x (t.n - 1)
      (if negate || neg then lowN (2 ^ t.n - lowN x t.n) t.n else x, 0)
  else
    let v := f.value x
    match v with
    | .nan s => (g.nan, if s then flagNV else 0)
    | w => g.encode r (if negate then w.negate else if w.neg then w.negate else w)

/-- FRND (05 R115; 02 R58): the integral value in the mode, then in the destination type. On IEEE types a change
raises NX. -/
def fround (g : FloatFmt) (r : Rounding) (v : Val) : Rounded :=
  match v with
  | .nan s => (g.nan, if s then flagNV else 0)
  | .inf n => g.encode r (.inf n)
  | .num n m e =>
    let x := g.encode r (.num n (roundToInt r n m e) 0)
    (x.1, if g.isTapered || isInteger m e then x.2 else x.2 ||| flagNX)

/-- The integer operations of REDU and SCAN (05 R123), on exact operands of width `w`. -/
def reduInt (o : Nat) (l : List Int) (w : Nat) : Nat :=
  match o with
  | 0 => lowI (l.foldl (· + ·) 0) w
  | 1 => lowI (l.foldl min (l.headD 0)) w
  | 2 => lowI (l.foldl max (l.headD 0)) w
  | 3 => l.foldl (fun acc v => Nat.land acc (lowI v w)) (2 ^ w - 1)
  | 4 => l.foldl (fun acc v => Nat.lor acc (lowI v w)) 0
  | _ => l.foldl (fun acc v => Nat.xor acc (lowI v w)) 0

/-- The float operations of REDU and SCAN (05 R123). A NaN among the operands of FADD gives the canonical NaN; FMIN
and FMAX apply R113 or R59 across the segment. -/
def reduFloat (o : Nat) (f : FloatFmt) (r : Rounding) (l : List Val) : Rounded :=
  match o with
  | 0 => fsum f r l
  | _ =>
    let isMax := o != 1
    let sig := if l.any Val.isSig then flagNV else 0
    match l with
    | [] => (0, 0)
    | v :: t =>
      let w := t.foldl (fun acc u => if f.isTapered then minMaxTapered isMax acc u
        else (minMaxNumber isMax acc u).1) v
      let x := f.encode r w
      (x.1, if f.isTapered then 0 else sig ||| x.2)

end Sys2Proof.Machine
end

