-- ==== Sys2Proof/Machine/Memory.lean ====
section
/-! DEFINITION. The memory family: CBLD (05 R117), loads and stores (09 R192 to R194), atomics and reductions (09 R195
to R198), with the checks of 08 R174 in their order. -/

namespace Sys2Proof.Machine

open Sys2Proof

/-! ## Addresses and checks -/

/-- The address of a lane's access: the address slice plus an offset in bytes, mod 2^32 (09 R193). -/
def View.effective (v : View) (a : Nat) (off : Int) (i : Nat) : Nat := lowI ((v.read i a 32 : Int) + off) 32

/-- The byte offset of an immediate for an access of `w` bits: in nibbles when `w` is 4 (09 R193). -/
def accessOffset (w : Nat) (i : BitVec 8) : Int :=
  if w = 4 then extI i.toNat 8 true / 2 else extI i.toNat 8 true * (w / 8 : Nat)

/-- The bytes of an access of `w` bits. -/
def accessBytes (w : Nat) : Nat := if w = 4 then 1 else w / 8

/-- A space that threads address (08 Table 08-1). -/
inductive ThreadSpace where
  | shared | spad
  deriving DecidableEq, Repr, Inhabited

/-- The place of an access of `n` bytes with the rights it needs, or none when it raises BOUND (08 R171, R172). -/
def View.place (v : View) (sp : ThreadSpace) (reads writes : Bool) (n addr : Nat) : Option Place :=
  match sp with
  | .shared => v.shared addr n
  | .spad =>
    if (!reads || v.ctx.spadOk addr n false) && (!writes || v.ctx.spadOk addr n true) then
      some { space := .spad, addr := addr }
    else none

/-- ALIGN, BOUND and LOCK of every active lane's access, in this order (08 R174). -/
def View.accessCheck (v : View) (act : Word) (n align : Nat) (ea : Nat → Nat) (place : Nat → Option Place)
    (hit : RangeLock → Bool) : Check :=
  Check.seq
    [ Check.lanes causeAlign act (fun i => decide (ea i % align ≠ 0)) ea
    , Check.lanes causeBound act (fun i => (place i).isNone) ea
    , Check.lanes causeLock act (fun i =>
        match place i with
        | some p => v.dev.meetsLock p n v.grp.core hit
        | none => false) ea ]

/-- The places of the active lanes, in increasing lane order. -/
def placesOf (act : Word) (place : Nat → Option Place) : List (Nat × Place) :=
  (lanesOf act).filterMap (fun i => (place i).map (fun p => (i, p)))

/-- Settles the accumulators that some accesses reach. -/
def Device.settleAll (d : Device) (ps : List (Nat × Place)) (n : Nat) : Device :=
  if d.accs.isEmpty then d else ps.foldl (fun d p => d.settle p.2.space p.2.addr n false) d

/-- What a thread access leaves beside its data: the watchpoints it fires, each once for an instruction (22 R344), and the
bytes it moves (log entry 24). -/
def State.accessed (s : State) (v : View) (ps : List (Nat × Place)) (n : Nat) (reads writes : Bool) : State :=
  let w := ps.map (fun p => p.2.watched n)
  let dbg := (s.dev.ctx v.c).dbgBlock
  let before := match s.issue with | some x => x.fired | none => []
  let fires (k : Nat) : Bool := !before.contains k && w.any (fun a =>
    (reads && watchFires (dbg.wps.getD k 0) a false) || (writes && watchFires (dbg.wps.getD k 0) a true))
  let hit := (List.range 4).filter fires
  { s with dev := (s.dev.watchHits v.c v.wg.uid hit).countThread v.c (n * ps.length)
           issue := s.issue.map (fun x => { x with fired := before ++ hit }) }

/-- The fault of reading `n` bytes at each of some places, if an error has lost one of them (21 R333). -/
def Device.lostAt (d : Device) (ps : List (Nat × Place)) (n : Nat) : Option CtxFault :=
  if d.lost.isEmpty then none else ps.findSome? (fun p => d.lostIn p.2.space p.2.addr n)

/-! ## Loads and stores (09 R192, R193) -/

/-- The value of `w` bits at a place; a nibble is the high one when `hi`. -/
def Device.load (d : Device) (p : Place) (w : Nat) (hi : Bool) : Nat :=
  if w = 4 then bitsN (d.byteAt p.space p.addr).toNat (if hi then 4 else 0) 4 else d.num p.space p.addr (w / 8)

/-- The device with `w` bits stored at a place; a nibble store leaves the byte's other nibble (08 R174). -/
def Device.store (d : Device) (p : Place) (w : Nat) (hi : Bool) (x : Nat) : Device :=
  let d1 := d.settle p.space p.addr (accessBytes w) (w != 4)
  if w = 4 then d1.modSpace p.space p.addr (fun m a => Memory.putNibble m a hi x)
  else d1.putNum p.space p.addr (w / 8) x

/-- A load from shared memory or the scratchpad. -/
def loadFrom (sp : ThreadSpace) (h : Hdr) (w : BitVec 3) (d a : BitVec 7) (i : BitVec 8) : Meaning :=
  let wd := widthOf w
  let n := accessBytes wd
  let ea (v : View) : Nat → Nat := v.effective (h.a a) (accessOffset wd i)
  let place (v : View) (j : Nat) : Option Place := v.place sp true false n (ea v j)
  let hi := i.toNat % 2 == 1
  { spans := [span (h.a a) 32, span (h.d d) wd]
    dests := [span (h.d d) wd]
    operands := fun v act => v.accessCheck act n n (ea v) (place v) hitsLoad
    effect := fun v act s =>
      let ps := placesOf act (place v)
      let from_ := v.dev.settleAll ps n
      match v.dev.lostAt ps n with
      | some f => .error f
      | none => .ok ((State.accessed { s with dev := s.dev.settleAll ps n } v ps n true false).write v (h.d d) wd
        (valuesOf act (fun j => match place v j with | some p => from_.load p wd hi | none => 0)) act
        (if v.isU (h.a a) 32 then .u else .g)) }

/-- A store to shared memory or the scratchpad: in increasing lane order, so a higher lane overwrites. -/
def storeTo (sp : ThreadSpace) (h : Hdr) (w : BitVec 3) (d a : BitVec 7) (i : BitVec 8) : Meaning :=
  let wd := widthOf w
  let n := accessBytes wd
  let ea (v : View) : Nat → Nat := v.effective (h.a a) (accessOffset wd i)
  let place (v : View) (j : Nat) : Option Place := v.place sp false true n (ea v j)
  let hi := i.toNat % 2 == 1
  { spans := [span (h.a a) 32, span (h.d d) wd]
    operands := fun v act => v.accessCheck act n n (ea v) (place v) hitsStore
    effect := fun v act s =>
      let ps := placesOf act (place v)
      let d1 := ps.foldl (fun dv p => dv.store p.2 wd hi (v.read p.1 (h.d d) wd)) s.dev
      .ok (State.accessed { s with dev := d1 } v ps n false true) }

/-- LDS (09 R193). -/
def meaningLds (h : Hdr) (w : BitVec 3) (d a : BitVec 7) (i : BitVec 8) : Meaning :=
  loadFrom .shared h w d a i

/-- LDS run (`meaningLds`). -/
def execLds (h : Hdr) (w : BitVec 3) (d a : BitVec 7) (i : BitVec 8) (s : State) : Host.Outcome State Fault Refusal :=
  runWord (.lds h w d a i) (meaningLds h w d a i) s

/-- STS (09 R193). -/
def meaningSts (h : Hdr) (w : BitVec 3) (d a : BitVec 7) (i : BitVec 8) : Meaning :=
  storeTo .shared h w d a i

/-- STS run (`meaningSts`). -/
def execSts (h : Hdr) (w : BitVec 3) (d a : BitVec 7) (i : BitVec 8) (s : State) : Host.Outcome State Fault Refusal :=
  runWord (.sts h w d a i) (meaningSts h w d a i) s

/-- LDX (09 R193). -/
def meaningLdx (h : Hdr) (w : BitVec 3) (d a : BitVec 7) (i : BitVec 8) : Meaning :=
  loadFrom .spad h w d a i

/-- LDX run (`meaningLdx`). -/
def execLdx (h : Hdr) (w : BitVec 3) (d a : BitVec 7) (i : BitVec 8) (s : State) : Host.Outcome State Fault Refusal :=
  runWord (.ldx h w d a i) (meaningLdx h w d a i) s

/-- STX (09 R193). -/
def meaningStx (h : Hdr) (w : BitVec 3) (d a : BitVec 7) (i : BitVec 8) : Meaning :=
  storeTo .spad h w d a i

/-- STX run (`meaningStx`). -/
def execStx (h : Hdr) (w : BitVec 3) (d a : BitVec 7) (i : BitVec 8) (s : State) : Host.Outcome State Fault Refusal :=
  runWord (.stx h w d a i) (meaningStx h w d a i) s

/-! ## The group stack (08 R175) -/

/-- The bytes of a lane's stack access, each by its virtual address. -/
def View.stackBytes (v : View) (lane o n : Nat) : List Nat :=
  let base := v.ctx.spillBase v.grp.spill + v.kern.stackOffset
  (List.range n).map (fun j => base + 128 * ((o + j) / 4) + 4 * lane + (o + j) % 4)

/-- The bytes that the active lanes of a stack access reach, with their lanes. -/
def View.stackPlaces (v : View) (act : Word) (n : Nat) (ea : Nat → Nat) : List (Nat × Place) :=
  (lanesOf act).flatMap (fun j => (v.stackBytes j (ea j) n).map (fun a => (j, { space := .main v.c, addr := a })))

/-- Reads bytes at some virtual addresses through the die's translation unit, each as main memory is read. -/
def Device.gatherBytes (die : BitVec 2) (c : BitVec 6) : List Nat → Device → Except CtxFault (List (BitVec 8) × Device)
  | [], d => .ok ([], d)
  | a :: t, d =>
    match d.mainRead die c a 1 with
    | .error f => .error f
    | .ok (b, d1) =>
      match Device.gatherBytes die c t d1 with
      | .error f => .error f
      | .ok (l, d2) => .ok (b ++ l, d2)

/-- The physical places of some virtual addresses that are written. -/
def Device.scatterPlaces (die : BitVec 2) (c : BitVec 6) : List Nat → Device → Except TransFault (List Phys × Device)
  | [], d => .ok ([], d)
  | a :: t, d =>
    match d.translate die c a true with
    | .error k => .error (k, a)
    | .ok (p, d1) =>
      match Device.scatterPlaces die c t d1 with
      | .error f => .error f
      | .ok (l, d2) => .ok (p :: l, d2)

/-- Writes bytes at some virtual addresses; every address is translated before a byte is written. -/
def Device.scatterBytes (die : BitVec 2) (c : BitVec 6) (l : List (Nat × BitVec 8)) (d : Device) :
    Except CtxFault Device :=
  match Device.scatterPlaces die c (l.map Prod.fst) d with
  | .error f => .error (copyFault die f)
  | .ok (ps, d1) =>
    .ok ((ps.zip (l.map Prod.snd)).foldl (fun e x => e.physPut x.1 x.2) (d1.settlePieces true (ps.map (fun p => (p, 1)))))

/-- ALIGN and BOUND of a stack access; it meets no lock. -/
def View.stackCheck (v : View) (act : Word) (n : Nat) (ea : Nat → Nat) : Check :=
  Check.seq
    [ Check.lanes causeAlign act (fun i => decide (ea i % n ≠ 0)) ea
    , Check.lanes causeBound act (fun i => decide (v.kern.stack < ea i + n)) ea ]

/-- The values that the lanes of a stack load read. -/
def stackLoad (v : View) (n : Nat) (ea : Nat → Nat) : List Nat → Device → Except CtxFault (List (Nat × Nat) × Device)
  | [], d => .ok ([], d)
  | j :: t, d =>
    match Device.gatherBytes (dieOf v.grp.core) v.c (v.stackBytes j (ea j) n) d with
    | .error f => .error f
    | .ok (b, d1) =>
      match stackLoad v n ea t d1 with
      | .error f => .error f
      | .ok (l, d2) => .ok ((j, bytesToNat b) :: l, d2)

/-- LDK: a failed translation is COPYFAULT (08 R175). -/
def meaningLdk (h : Hdr) (w : BitVec 3) (d a i : BitVec 7) : Meaning :=
  let wd := widthOf w
  let n := wd / 8
  let ea (v : View) : Nat → Nat := v.effective (h.a a) (i.toNat * n : Nat)
  { spans := [span (h.a a) 32, span (h.d d) wd]
    dests := [span (h.d d) wd]
    operands := fun v act => v.stackCheck act n (ea v)
    effect := fun v act s =>
      match stackLoad v n (ea v) (lanesOf act) s.dev with
      | .error f => .error f
      | .ok (l, d1) =>
        .ok ((State.accessed { s with dev := d1 } v (v.stackPlaces act n (ea v)) 1 true false).write v (h.d d) wd
          (valuesOf act (fun j => tableGet 0 l j)) act .g) }

/-- LDK run (`meaningLdk`). -/
def execLdk (h : Hdr) (w : BitVec 3) (d a i : BitVec 7) (s : State) : Host.Outcome State Fault Refusal :=
  runWord (.ldk h w d a i) (meaningLdk h w d a i) s

/-- STK (08 R175): nothing is stored when a lane fails translation. -/
def meaningStk (h : Hdr) (w : BitVec 3) (d a i : BitVec 7) : Meaning :=
  let wd := widthOf w
  let n := wd / 8
  let ea (v : View) : Nat → Nat := v.effective (h.a a) (i.toNat * n : Nat)
  { spans := [span (h.a a) 32, span (h.d d) wd]
    operands := fun v act => v.stackCheck act n (ea v)
    effect := fun v act s =>
      let cells := (lanesOf act).flatMap (fun j =>
        (v.stackBytes j (ea v j) n).zip (natToBytes (v.read j (h.d d) wd) n))
      match Device.scatterBytes (dieOf v.grp.core) v.c cells s.dev with
      | .error f => .error f
      | .ok d1 => .ok (State.accessed { s with dev := d1 } v (v.stackPlaces act n (ea v)) 1 false true) }

/-- STK run (`meaningStk`). -/
def execStk (h : Hdr) (w : BitVec 3) (d a i : BitVec 7) (s : State) : Host.Outcome State Fault Refusal :=
  runWord (.stk h w d a i) (meaningStk h w d a i) s

/-! ## CBLD (05 R117) -/

/-- CBLD: 32 bytes of shared memory into cb0 or cb1, declared by the Locket's header or not (log entry 92). -/
def meaningCbld (h : Hdr) (a : BitVec 7) (n : Bool) : Meaning :=
  let addr (v : View) (act : Word) : Nat := v.readLowest act (h.a a) 32
  { spans := [span (h.a a) 32]
    once := true
    operands := fun v act =>
      let x := addr v act
      Check.seq
        [ Check.need (v.isU (h.a a) 32)
        , if x % 32 = 0 then .ok else .fail causeAlign x
        , match v.shared x 32 with
          | none => .fail causeBound x
          | some p => if v.dev.meetsLock p 32 v.grp.core hitsLoad then .fail causeLock x else .ok ]
    effect := fun v act s =>
      match v.shared (addr v act) 32 with
      | none => .ok s
      | some p =>
        let ps := [(0, p)]
        let from_ := v.dev.settleAll ps 32
        let book : List (BitVec 16) :=
          (List.range 16).map (fun j => BitVec.ofNat 16 (from_.num p.space (p.addr + 2 * j) 2))
        let s1 := State.accessed { s with dev := s.dev.settleAll ps 32 } v ps 32 true false
        match v.dev.lostAt ps 32 with
        | some f => .error f
        | none => .ok (v.halves.foldl (fun s u =>
            s.modGroup u (fun g => if n then { g with cb1 := book } else { g with cb0 := book })) s1) }

/-- CBLD run (`meaningCbld`). -/
def execCbld (h : Hdr) (a : BitVec 7) (n : Bool) (s : State) : Host.Outcome State Fault Refusal :=
  runWord (.cbld h a n) (meaningCbld h a n) s

/-! ## Atomics and reductions (09 R195 to R198) -/

/-- The operations of 04 Table 04-10, in the order of ATOM's codes. -/
inductive AtomicOp where
  | add | minS | minU | maxS | maxU | and | or | xor | xchg | cas | fadd | fmin | fmax
  deriving DecidableEq, Repr, Inhabited

/-- The operation of an ATOM code. -/
def AtomicOp.ofAtom (o : Nat) : AtomicOp :=
  match o with
  | 0 => .add
  | 1 => .minS
  | 2 => .minU
  | 3 => .maxS
  | 4 => .maxU
  | 5 => .and
  | 6 => .or
  | 7 => .xor
  | 8 => .xchg
  | 9 => .cas
  | 10 => .fadd
  | 11 => .fmin
  | _ => .fmax

/-- The operation of a RED code, as the constructor holds it: 0 to 7 integer, 8 to 10 floating. -/
def AtomicOp.ofRed (o : Nat) : AtomicOp :=
  if o < 8 then AtomicOp.ofAtom o else AtomicOp.ofAtom (o + 2)

/-- Whether an operation is floating. -/
def AtomicOp.isFloat (o : AtomicOp) : Bool := o == .fadd || o == .fmin || o == .fmax

/-- The new value of an atomic operation at width `w` (09 R196): `x` is the data, `y` CAS's new value. -/
def AtomicOp.eval (o : AtomicOp) (w old x y : Nat) : Nat :=
  let f := FloatFmt.bin fmtF32
  match o with
  | .add => lowN (old + x) w
  | .minS => if extI old w true ≤ extI x w true then old else x
  | .minU => min old x
  | .maxS => if extI x w true ≤ extI old w true then old else x
  | .maxU => max old x
  | .and => Nat.land old x
  | .or => Nat.lor old x
  | .xor => Nat.xor old x
  | .xchg => x
  | .cas => if old = x then y else old
  | .fadd => (Sys2Proof.Machine.fadd f .rne (f.value old) (f.value x)).1
  | .fmin => (fminmax false f .rne (f.value old) (f.value x)).1
  | .fmax => (fminmax true f .rne (f.value old) (f.value x)).1

/-- The operations of the lanes in increasing order, each atomic; every lane's old value (09 R196). -/
def atomicLanes (v : View) (o : AtomicOp) (w b : Nat) : List (Nat × Place) → Device → List (Nat × Nat) × Device
  | [], d => ([], d)
  | (i, p) :: t, d =>
    let d1 := d.settle p.space p.addr (w / 8) false
    let old := d1.num p.space p.addr (w / 8)
    let d2 := d1.putNum p.space p.addr (w / 8) (o.eval w old (v.read i b w) (v.read i (b + w / 4) w))
    let r := atomicLanes v o w b t d2
    ((i, old) :: r.1, r.2)

/-- The arrivals of an atomic instruction: one at each unit that its active lanes reach, of both hardware groups in mode 64
(22 R351), in the order they are reached. -/
def atomicArrivals (h : Hdr) (place : View → Nat → Option Place) (vs : List View) : List Arrival :=
  ((vs.flatMap (fun v => (placesOf (v.active h) (place v)).map (fun p => v.dev.unitOf p.2 v.grp.core))).eraseDups).map
    (fun u => (1, u))

/-- The lanes of an atomic instruction that reach a unit. -/
def atomicUnitLanes (place : View → Nat → Option Place) (v : View) (u : ArrivalUnit) (act : Word) : Word :=
  maskOf (fun i => hasLane act i && (match place v i with | some p => v.dev.unitOf p v.grp.core == u | none => false))

/-- The width of an atomic: 64 under its override. -/
def Hdr.atomWidth (h : Hdr) : Nat := if h.e.wo then 64 else 32

/-- The spans of an atomic's data: two values for CAS. -/
def atomData (o : AtomicOp) (w : Nat) (b : BitVec 6) : Nat × Nat := span (cellSlice b) (if o = .cas then 2 * w else w)

/-- An atomic operation that returns the old values. Under the ordered-reduction bit the floating ones are ILLEGAL
(09 R197). -/
def atomic3 (sp : ThreadSpace) (h : Hdr) (o : AtomicOp) (d a : BitVec 7) (b : BitVec 6) : Meaning :=
  let w := Hdr.atomWidth h
  let ea (v : View) : Nat → Nat := v.effective (h.a a) 0
  let place (v : View) (i : Nat) : Option Place := v.place sp true true (w / 8) (ea v i)
  { spans := [span (h.a a) 32, atomData o w b, span (h.d d) w]
    dests := [span (h.d d) w]
    illegal := fun v => o.isFloat && v.ctx.ordr
    operands := fun v act => v.accessCheck act (w / 8) (w / 8) (ea v) (place v) hitsStore
    arrives := atomicArrivals h place
    records := true
    unitLanes := atomicUnitLanes place
    effect := fun v act s =>
      let ps := placesOf act (place v)
      match s.dev.lostAt ps (w / 8) with
      | some f => .error f
      | none =>
        let r := atomicLanes v o w (cellSlice b) ps s.dev
        .ok ((State.accessed { s with dev := r.2 } v ps (w / 8) true true).write v (h.d d) w
          (valuesOf act (fun i => tableGet 0 r.1 i)) act .g) }

/-- ATOM.S: shared memory (09 R195, R196). -/
def meaningAtomS (h : Hdr) (o : BitVec 5) (d a : BitVec 7) (b : BitVec 6) : Meaning :=
  atomic3 .shared h (AtomicOp.ofAtom o.toNat) d a b

/-- ATOM_S run (`meaningAtomS`). -/
def execAtomS (h : Hdr) (o : BitVec 5) (d a : BitVec 7) (b : BitVec 6)
    (s : State) : Host.Outcome State Fault Refusal :=
  runWord (.atomS h o d a b) (meaningAtomS h o d a b) s

/-- ATOM.X: the scratchpad (09 R195, R196). -/
def meaningAtomX (h : Hdr) (o : BitVec 4) (d a : BitVec 7) (b : BitVec 6) : Meaning :=
  atomic3 .spad h (AtomicOp.ofAtom o.toNat) d a b

/-- ATOM_X run (`meaningAtomX`). -/
def execAtomX (h : Hdr) (o : BitVec 4) (d a : BitVec 7) (b : BitVec 6)
    (s : State) : Host.Outcome State Fault Refusal :=
  runWord (.atomX h o d a b) (meaningAtomX h o d a b) s

/-- RED: the scratchpad, no result (09 R196). Under the ordered-reduction bit RED.FADD accumulates exactly and logs no
arrival (09 R197; 22 R351); with the reduction area full it is not applied (09 R198). -/
def meaningRed (h : Hdr) (o : BitVec 4) (a : BitVec 7) (b : BitVec 6) : Meaning :=
  let op := AtomicOp.ofRed o.toNat
  let w := Hdr.atomWidth h
  let ea (v : View) : Nat → Nat := v.effective (h.a a) 0
  let place (v : View) (i : Nat) : Option Place := v.place .spad false true (w / 8) (ea v i)
  let exact (v : View) : Bool := op == .fadd && v.ctx.ordr
  { spans := [span (h.a a) 32, atomData op w b]
    operands := fun v act => v.accessCheck act (w / 8) (w / 8) (ea v) (place v) hitsStore
    arrives := fun vs => atomicArrivals h place (vs.filter (fun v => !exact v))
    records := true
    unitLanes := atomicUnitLanes place
    effect := fun v act s =>
      let ps := placesOf act (place v)
      match s.dev.lostAt ps (w / 8) with
      | some f => .error f
      | none =>
      if exact v then
        let d1 := accumulate v.c 0 (ps.map (fun p => (p.2, v.read p.1 (cellSlice b) w))) s.dev
        if d1.reductionFits v.c then .ok (State.accessed { s with dev := d1 } v ps (w / 8) false true)
        else .error (v.ctx.quotaFault 6 0)
      else
        .ok (State.accessed { s with dev := (atomicLanes v op w (cellSlice b) ps s.dev).2 } v ps (w / 8) false true) }

/-- RED run (`meaningRed`). -/
def execRed (h : Hdr) (o : BitVec 4) (a : BitVec 7) (b : BitVec 6) (s : State) : Host.Outcome State Fault Refusal :=
  runWord (.red h o a b) (meaningRed h o a b) s

end Sys2Proof.Machine
end

