-- ==== Sys2Proof/Machine/Tensor.lean ====
section
/-! DEFINITION. Tensor maps and the geometry of an engine's endpoints (08 R176, R177; 09 R201): elements, their
addresses in nibbles, the bytes they reach and the places of those bytes. -/

namespace Sys2Proof.Machine

open Sys2Proof

/-! ## Tensor-map entries (08 Table 08-3) -/

/-- The base address of an entry. -/
def tmBase (m : BitVec 1024) : Nat := bitsN m.toNat 0 64

/-- The rank. -/
def tmRank (m : BitVec 1024) : Nat := bitsN m.toNat 64 3

/-- The element format. -/
def tmFmt (m : BitVec 1024) : BitVec 4 := BitVec.ofNat 4 (m.toNat / 2 ^ 68)

/-- The space code: 0 main, 1 scratchpad, 2 shared, 3 reserved. -/
def tmSpace (m : BitVec 1024) : BitVec 2 := BitVec.ofNat 2 (m.toNat / 2 ^ 72)

/-- The extent of a dimension. -/
def tmExt (m : BitVec 1024) (j : Nat) : Nat := bitsN m.toNat (96 + 32 * j) 32

/-- The byte stride of dimension 1 to 6. -/
def tmStride (m : BitVec 1024) (j : Nat) : Nat := bitsN m.toNat (320 + 64 * (j - 1)) 64

/-- The box shape of a dimension. -/
def tmBox (m : BitVec 1024) (j : Nat) : Nat := bitsN m.toNat (704 + 16 * j) 16

/-- The element size in whole bytes, at least 1. -/
def fmtBytes (efmt : BitVec 4) : Nat := max 1 (fmtBits efmt.toNat / 8)

/-- The checks of TMAP, the loader and START on new contents (08 R176). -/
def tmOk (m : BitVec 1024) : Bool :=
  let rank := tmRank m
  bitsN m.toNat 67 1 = 0 && bitsN m.toNat 74 22 = 0 && bitsN m.toNat 816 208 = 0 && tmSpace m != 3 &&
    decide (1 ≤ rank) &&
    (List.range 7).all (fun j => if rank ≤ j then tmExt m j = 0 && tmBox m j = 0 else tmExt m j ≠ 0 && tmBox m j ≠ 0) &&
    (List.range 6).all (fun j => decide (tmStride m (j + 1) % fmtBytes (tmFmt m) = 0)) &&
    !(fmtBits (tmFmt m).toNat = 4 && tmBox m 0 % 2 = 1)

/-- An entry with its base rewritten (15 Table 15-2, START). -/
def tmRebase (m : BitVec 1024) (base : Nat) : BitVec 1024 := BitVec.ofNat 1024 (putBitsN m.toNat 0 64 base)

/-- An entry of a context. -/
def Context.tmap (c : Context) (n : Nat) : BitVec 1024 := tableGet 0 c.tmaps n

/-- The context with an entry written; an entry of zeros is not listed. -/
def Context.setTmap (c : Context) (n : Nat) (m : BitVec 1024) : Context :=
  { c with tmaps := if m = 0 then c.tmaps.filter (fun p => p.1 != n) else tableSet c.tmaps n m }

/-! ## Endpoints -/

/-- Whether an endpoint is a tensor-map box. -/
def Endpoint.boxed : Endpoint → Bool
  | .box _ _ => true
  | .dense _ _ _ _ => false

/-- The element format of an endpoint. -/
def Endpoint.efmt : Endpoint → BitVec 4
  | .box m _ => tmFmt m
  | .dense _ _ f _ => f

/-- The space code of an endpoint. -/
def Endpoint.space : Endpoint → BitVec 2
  | .box m _ => tmSpace m
  | .dense s _ _ _ => s

/-- The number of elements (09 R201). -/
def Endpoint.count : Endpoint → Nat
  | .box m _ => (List.range (tmRank m)).foldl (fun n j => n * tmBox m j) 1
  | .dense _ _ _ n => n

/-- The address that ALIGN checks (09 R203). -/
def Endpoint.base : Endpoint → Nat
  | .box m _ => tmBase m
  | .dense _ a _ _ => a

/-- The nibbles of an element. -/
def Endpoint.nibbles (e : Endpoint) : Nat := fmtBits e.efmt.toNat / 4

/-- The nibbles from one element to the next along a dimension: dimension 0 is packed. -/
def tmStep (m : BitVec 1024) (j : Nat) : Nat := if j = 0 then fmtBits (tmFmt m).toNat / 4 else 2 * tmStride m j

/-- The address in nibbles of element `i` of a box from dimension `j` on, `none` when it is out of range; `i` counts
in box order, dimension 0 fastest (08 R177). -/
def boxNibble (m : BitVec 1024) : List Word → Nat → Nat → Nat → Option Nat
  | [], _, _, acc => some acc
  | o :: rest, j, i, acc =>
    let c : Int := o.toInt + (i % tmBox m j : Nat)
    if 0 ≤ c && c < (tmExt m j : Int) then boxNibble m rest (j + 1) (i / tmBox m j) (acc + c.toNat * tmStep m j) else none

/-- The address in nibbles of element `i`. -/
def Endpoint.nibble (e : Endpoint) (i : Nat) : Option Nat :=
  match e with
  | .box m o => boxNibble m (o.take (tmRank m)) 0 i (2 * tmBase m)
  | .dense _ a f _ => some (2 * a + i * (fmtBits f.toNat / 4))

/-- The lowest and highest addresses in nibbles of a box's in-range elements, less the size of one element; `none` when
no element is in range. -/
def boxBounds (m : BitVec 1024) : List Word → Nat → Nat × Nat → Option (Nat × Nat)
  | [], _, acc => some acc
  | o :: rest, j, acc =>
    let lo : Int := max o.toInt 0
    let hi : Int := min (o.toInt + (tmBox m j : Int) - 1) ((tmExt m j : Int) - 1)
    if lo ≤ hi then
      boxBounds m rest (j + 1) (acc.1 + lo.toNat * tmStep m j, acc.2 + hi.toNat * tmStep m j)
    else none

/-- A range of bytes: its first byte and its length. -/
abbrev ByteRange := Nat × Nat

/-- The bounding range in bytes of the in-range elements; `none` when there is no such element (08 R178). -/
def Endpoint.range (e : Endpoint) : Option ByteRange :=
  match e with
  | .box m o =>
    match boxBounds m (o.take (tmRank m)) 0 (2 * tmBase m, 2 * tmBase m) with
    | some (lo, hi) => some (lo / 2, (hi + e.nibbles - 1) / 2 - lo / 2 + 1)
    | none => none
  | .dense _ a _ n => if n = 0 then none else some (a, n * e.nibbles / 2)

/-! ## Places of an endpoint's bytes -/

/-- The place of a byte range of an endpoint's space as a workgroup on a core names it; `none` when it breaks 08 R171
to R173. A main-memory range is named by its virtual addresses. -/
def rangePlace (w : Workgroup) (segment : Nat) (core : BitVec 8) (ctx : Context) (space : BitVec 2) (write : Bool)
    (r : ByteRange) : Option Place :=
  match space.toNat with
  | 0 => if r.1 + r.2 ≤ 2 ^ 57 then some { space := .main w.ctx, addr := r.1 } else none
  | 1 => if ctx.spadOk r.1 r.2 write then some { space := .spad, addr := r.1 } else none
  | 2 => sharedPlace w segment core r.1 r.2
  | _ => none

/-- The place of a byte range for the issuing group. -/
def View.range (v : View) (space : BitVec 2) (write : Bool) (r : ByteRange) : Option Place :=
  rangePlace v.wg v.kern.shared v.grp.core v.ctx space write r

/-- A range lock over a registered range: main-memory ranges are never registered (08 R184). -/
def rangeLock (d : Device) (core : BitVec 8) (p : Place) (n : Nat) (kind : LockKind) (owner : LockOwner) :
    List RangeLock :=
  match p.space with
  | .main _ => []
  | _ =>
    if n = 0 then []
    else [{ core := d.lockCore p.space core, space := p.space, lo := p.addr, hi := p.addr + n - 1, kind := kind,
            owner := owner }]

/-- Whether two ranges of places overlap; those of main memory by their virtual addresses. -/
def placesOverlap (p : Place) (n : Nat) (q : Place) (m : Nat) : Bool :=
  p.space == q.space && decide (p.addr < q.addr + m) && decide (q.addr < p.addr + n)

/-- A bare address of an endpoint's space resolved by an engine: a shared or scratchpad address to its place, a
main-memory address through the die's translation unit to a physical place, with the translations that are left to the
request. -/
def Device.resolve (d : Device) (die : BitVec 2) (w : Workgroup) (core : BitVec 8) (space : BitVec 2) (addr : Nat)
    (write : Bool) (held : List Cached := []) : Except TransFault (Place × Device) :=
  match space.toNat with
  | 0 =>
    match d.translate die w.ctx addr write held with
    | .error k => .error (k, addr)
    | .ok (p, d1) => .ok ({ space := .phys p.dev, addr := p.addr }, d1)
  | 1 => .ok ({ space := .spad, addr := addr }, d)
  | _ =>
    let q := Nat.xor (quadIndex w.core core) (bitsN addr 19 2)
    .ok ({ space := .shared w.uid (BitVec.ofNat 2 q), addr := bitsN addr 0 19 }, d)

/-- A byte range as a watchpoint sees it: main memory by virtual address, of which a tensor map that names addresses from
2^32 on shows bits 31:0 (22 R344; log entry 77). -/
def watchedAt (space : BitVec 2) (boxed : Bool) (p : Place) (addr n : Nat) : Watched :=
  if space = 0 then (2, if boxed then addr % 2 ^ 32 else addr, n) else p.watched n

end Sys2Proof.Machine
end

