-- ==== Sys2Proof/Machine/Engine.lean ====
section
/-! DEFINITION. Engine requests in flight (21 R327): their queues and rings (08 R190, R191), parking (17 R294), burst
commits (21 R328) and retirement (08 Table 08-5; 22 R350 to R353). -/

namespace Sys2Proof.Machine

open Sys2Proof

/-! ## Requests -/

/-- A request of the device. -/
def Device.request (d : Device) (id : Nat) : Option Request := d.requests.find? (fun r => r.id == id)

/-- The device with a request changed. -/
def Device.modRequest (d : Device) (id : Nat) (f : Request → Request) : Device :=
  { d with requests := d.requests.map (fun r => if r.id == id then f r else r) }

/-- The device with a request gone. -/
def Device.dropRequest (d : Device) (id : Nat) : Device := { d with requests := d.requests.filter (fun r => r.id != id) }

/-- Whether a request is parked. -/
def Request.isParked (r : Request) : Bool :=
  match r.status with
  | .parked _ => true
  | _ => false

/-- Whether a request is a FETCHW. -/
def Request.isFetch (r : Request) : Bool :=
  match r.work with
  | .fetch _ => true
  | _ => false

/-- Whether a request is a reduce-add copy. -/
def Request.isReduceAdd (r : Request) : Bool :=
  match r.work with
  | .copy _ _ .reduceAdd => true
  | _ => false

/-- The elements, or for a routing pass the passes, that a request must finish. -/
def Request.total (r : Request) : Nat :=
  match r.work with
  | .copy _ dst _ => dst.count
  | .route _ _ _ _ => 1
  | .fetch _ => 1

/-- The tensor-map entry of an endpoint, or zero (17 R306). -/
def Endpoint.map : Endpoint → BitVec 1024
  | .box m _ => m
  | .dense _ _ _ _ => 0

/-- The 512-byte record of a request (17 R306), with the workgroup record's index, or for the copy ring (08 R191) with
zero there and in the elements finished, and with the workgroup's tag and ordinal. -/
def Request.record (r : Request) (index : Nat) (ring : Bool) : List (BitVec 8) :=
  let kind := match r.work with | .route _ _ _ _ => 2 | _ => 1
  let maps := match r.work with
    | .copy s t _ => (s.map, t.map)
    | .route m _ _ _ => (m, 0)
    | .fetch _ => (0, 0)
  natToBytes (kind + (if ring then 0 else lowN index 16 * 2 ^ 16)) 4 ++ natToBytes r.bar.toNat 4 ++
    natToBytes r.promise.toNat 8 ++ natToBytes (if ring then 0 else r.done) 8 ++
    natToBytes (if ring then r.tag.toNat else 0) 4 ++ natToBytes (if ring then r.ordinal.toNat else 0) 4 ++
    (takePad 0 r.cells 24).flatMap (fun w => natToBytes w.toNat 4) ++ natToBytes maps.1.toNat 128 ++
    natToBytes maps.2.toNat 128 ++ natToBytes 0 128

/-! ## Overflow rings (08 R191) -/

/-- The number of a ring's kind: 0 matrix, 1 copy, 2 launch. -/
abbrev RingKind := Nat

/-- The size of a ring's records. -/
def ringRecordSize (k : RingKind) : Nat := if k = 0 then 12288 else if k = 1 then 512 else 64

/-- The records a context's ring has room for. -/
def Context.ringCap (c : Context) (k : RingKind) : Nat :=
  match c.region 5 k with
  | some r => r.size / ringRecordSize k
  | none => 0

/-- Appends a record to a context's ring that holds `n` records; QUOTA when it would exceed the ring's quota. -/
def Device.ringAppend (d : Device) (die : BitVec 2) (c : BitVec 6) (k : RingKind) (n : Nat) (rec : List (BitVec 8)) :
    Except CtxFault Device :=
  let x := d.ctx c
  match x.region 5 k with
  | none => .error (x.quotaFault 5 k)
  | some r =>
    if x.ringCap k ≤ n then .error (x.quotaFault 5 k)
    else
      match d.mainWrite die c (r.base + ringRecordSize k * (x.rings.getD k 0 % x.ringCap k)) rec with
      | .error f => .error f
      | .ok d1 => .ok (d1.modCtx c (fun x => { x with rings := modAt x.rings k (· + 1) }))

/-- Whether a request stands in the copy queue of a die. -/
def Request.inQueue (r : Request) (die : BitVec 2) : Bool := r.die == die && r.status == .queued && !r.isFetch

/-- The requests of a context that stand in its copy ring. -/
def Device.ringRequests (d : Device) (c : BitVec 6) : List Request :=
  d.requests.filter (fun r => r.ctx == c && r.status == .ring)

/-- Enters a request into the copy queue of its die, or into the context's ring when the queue is full or the ring is
not empty (08 R190, R191). -/
def Device.enqueue (d : Device) (r : Request) : Except CtxFault Device :=
  let waiting := d.ringRequests r.ctx
  if waiting.isEmpty && decide ((d.requests.filter (fun x => x.inQueue r.die)).length < 256) then
    .ok { d with requests := d.requests ++ [r] }
  else
    match d.ringAppend r.die r.ctx 1 waiting.length (r.record 0 true) with
    | .error f => .error f
    | .ok d1 => .ok { d1 with requests := d1.requests ++ [{ r with status := .ring }] }

/-! ## Parking (17 R294) -/

/-- Parks a request on a translation fault: the fault fields, a message, and COPYFAULT when the context already holds 64
parked requests. -/
def Device.park (d : Device) (r : Request) (f : TransFault) : Device :=
  let held := (d.requests.filter (fun x => x.ctx == r.ctx && x.isParked)).length
  let d1 := d.modRequest r.id (fun x => { x with status := .parked (BitVec.ofNat 8 f.1) })
  let d2 := d1.modCtx r.ctx (fun x => x.noteTranslation (copyFault r.die f))
  let d3 := d2.sendMsg 3 r.ctx (BitVec.ofNat 16 f.1) (BitVec.ofNat 32 r.die.toNat)
  if 64 ≤ held then d3.contextFault r.ctx { code := causeCopyfault, detail := 0xFF, addr := f.2 } else d3

/-! ## Arrivals of engines (22 R350 to R353) -/

/-- What an engine's arrival or record meets: done, held by a full log, held by replay, or a context fault. -/
inductive EngineEnd where
  | done (d : Device)
  | full (kind : Nat) (die : BitVec 2)
  | hold
  | fault (f : CtxFault)
  deriving DecidableEq, Repr, Inhabited

/-- The record of an engine's arrival on an object, in the engine sequence of the group that issued the work. -/
def Device.engineRecord (d : Device) (w : Workgroup) (k : Kernel) (g : Nat) (o : ObjRef) : EngineEnd :=
  let x := d.ctx w.ctx
  let u := unitShared (w.coreOf o.q.toNat)
  let hg := k.agentAt g
  match w.groups[hg.1]? with
  | none => .done d
  | some grp =>
    let a : Arriver := { tag := w.tag, ordinal := w.ordinal, group := g, eng := true, seq := (grp.agent hg.2).engSeq }
    let count (d : Device) : Device := d.modGroup w.uid hg.1 (fun y =>
      y.modAgent hg.2 (fun b => { b with engSeq := b.engSeq + 1 }))
    if x.replay then
      match d.replay u.die w.ctx 3 u a with
      | .off => .done d
      | .accept n _ => .done (count (d.consume w.ctx 1 n))
      | .hold _ => .hold
      | .diverged => .fault (divergedFault u.die)
      | .failed f => .fault f
    else if x.logs 1 then
      if x.logFull 1 true 1 then .full 1 u.die
      else
        match d.logPut u.die w.ctx 1 (arrivalRecord 3 u a d.cyc.toNat) with
        | .ok d1 => .done (count d1)
        | .error f => .fault f
    else .done d

/-- A copy-completion record (22 Table 22-8). -/
def Request.completion (r : Request) (cyc : BitVec 64) : List (BitVec 8) :=
  let kind := match r.work with
    | .copy _ _ .plain => 1
    | .copy _ _ _ => 2
    | _ => 3
  natToBytes cyc.toNat 8 ++ natToBytes r.tag.toNat 4 ++ natToBytes r.ordinal.toNat 4 ++
    natToBytes (r.group + kind * 2 ^ 28) 4 ++ natToBytes r.seq 4 ++ natToBytes (r.die.toNat * 4) 4 ++
    natToBytes (if r.isReduceAdd then 1 else 0) 4

/-- Whether a copy-completion record names a request. -/
def Request.named (r : Request) (rec : List (BitVec 8)) : Bool :=
  leAt rec 8 4 == r.tag.toNat && leAt rec 12 4 == r.ordinal.toNat && bitsN (leAt rec 16 4) 0 7 == r.group &&
    leAt rec 20 4 == r.seq

/-- The destination of a copy, as its workgroup names it, and its length. -/
def Device.destination (d : Device) (r : Request) : Option (Place × Nat) :=
  match r.work, d.wg r.wg with
  | .copy _ dst _, some w =>
    match (d.ctx r.ctx).kernel w.handle w.kernel, dst.range with
    | some k, some b => (rangePlace w k.shared r.core (d.ctx r.ctx) dst.space true b).map (·, b.2)
    | _, _ => none
  | _, _ => none

/-- Whether the copy that a record names may write what a request writes: one that has not been issued yet may. -/
def Device.mayMeet (d : Device) (r : Request) (rec : List (BitVec 8)) : Bool :=
  match d.requests.find? (fun x => x.ctx == r.ctx && x.named rec) with
  | none => true
  | some x =>
    match d.destination x, d.destination r with
    | some p, some q => placesOverlap p.1 p.2 q.1 q.2
    | _, _ => false

/-- Whether the copy-completion log lets a reduce-add copy go on in replay mode: no earlier record not yet consumed is
of a reduce-add copy whose destination overlaps (22 R353). -/
def Device.radTurn (d : Device) (r : Request) : List Nat → Except CtxFault Bool
  | [] => .ok true
  | n :: rest =>
    match d.logRead r.die r.ctx 2 n with
    | .error f => .error f
    | .ok rec =>
      if r.named rec then .ok true
      else if bitN (leAt rec 28 4) 0 && d.mayMeet r rec then .ok false
      else d.radTurn r rest

/-- Whether replay of the copy-completion log holds a request back. -/
def Device.heldByLog (d : Device) (r : Request) : Except CtxFault Bool :=
  let x := d.ctx r.ctx
  if x.replay && !x.logC.ended && r.isReduceAdd && !x.ordr then (d.radTurn r x.logC.left).map (!·) else .ok false

/-- The record of a log that names a request, among those not yet consumed. -/
def Device.completionOf (d : Device) (r : Request) : List Nat → Except CtxFault (Option Nat)
  | [] => .ok none
  | n :: rest =>
    match d.logRead r.die r.ctx 2 n with
    | .error f => .error f
    | .ok rec => if r.named rec then .ok (some n) else d.completionOf r rest

/-- The copy-completion record of a request that retires: written in record mode, consumed in replay mode. -/
def Device.completionRecord (d : Device) (r : Request) : EngineEnd :=
  let x := d.ctx r.ctx
  if x.replay then
    if x.logC.ended then .done d
    else
      match d.completionOf r x.logC.left with
      | .error f => .fault f
      | .ok (some n) => .done (d.consume r.ctx 2 n)
      | .ok none => .done d
  else if x.logs 2 then
    if x.logFull 2 true 1 then .full 2 r.die
    else
      match d.logPut r.die r.ctx 2 (r.completion d.cyc) with
      | .ok d1 => .done d1
      | .error f => .fault f
  else .done d

/-! ## Retirement (08 R179, Table 08-5; 21 R327) -/

/-- Tells the host that a full log holds a record back (22 R352). -/
def Device.logHolds (d : Device) (c : BitVec 6) (kind : Nat) (die : BitVec 2) : Device :=
  d.sendMsg 6 c (BitVec.ofNat 16 kind) (BitVec.ofNat 32 die.toNat)

/-- Marks a request whose completion record a full log holds, and its retirement with it, and tells the host once
(22 R352). -/
def Device.holdRequest (d : Device) (r : Request) (kind : Nat) (die : BitVec 2) : Device :=
  if r.status = .finished then d
  else (d.modRequest r.id (fun x => { x with status := .finished })).logHolds r.ctx kind die

/-- Whether a request has retired and waits for its arrival only. -/
def Request.isRetired (r : Request) : Bool :=
  match r.status with
  | .retired _ => true
  | _ => false

/-- Marks a retired request whose arrival its unit holds, for a log record: one that a full log holds is told to the host
once (22 R352, R353). -/
def Device.holdArrival (d : Device) (r : Request) (full : Option (Nat × BitVec 2)) : Device :=
  let d1 := d.modRequest r.id (fun x => { x with status := .retired (full.isSome || r.status == .retired true) })
  match full with
  | some (kind, die) => if r.status = .retired true then d1 else d1.logHolds r.ctx kind die
  | none => d1

/-- The one arrival of a request on its object (08 R189): INTEGRITY when an error has lost the object. -/
def Device.arriveFor (d : Device) (r : Request) (o : ObjRef) : Device :=
  match (d.dropRequest r.id).lostIn o.space o.off 8 with
  | some f => (d.dropRequest r.id).contextFault r.ctx f
  | none => (d.dropRequest r.id).arrive o none

/-- A retired request arrives when its unit makes the record of its arrival. -/
def Device.arriveRequest (d : Device) (r : Request) (w : Workgroup) (k : Kernel) : Device :=
  match objectAt w k.shared r.core r.bar.toNat with
  | none => d.dropRequest r.id
  | some o =>
    match d.engineRecord w k r.group o with
    | .full kind die => d.holdArrival r (some (kind, die))
    | .hold => d.holdArrival r none
    | .fault f => d.contextFault r.ctx f
    | .done d1 => d1.arriveFor r o

/-- A request retires: its completion record, then its locks, and then it arrives on its object, as soon as the unit there can
record that. Under the ordered-reduction bit a reduce-add copy makes no records (22 R351). -/
def Device.retireRequest (d : Device) (r : Request) : Device :=
  match d.wg r.wg with
  | none => d.dropRequest r.id
  | some w =>
    match (d.ctx r.ctx).kernel w.handle w.kernel with
    | none => d.dropRequest r.id
    | some k =>
      if r.isRetired then d.arriveRequest r w k
      else if r.isReduceAdd && (d.ctx r.ctx).ordr then
        match objectAt w k.shared r.core r.bar.toNat with
        | some o => (d.unlock (.request r.id)).arriveFor r o
        | none => (d.unlock (.request r.id)).dropRequest r.id
      else
        match d.heldByLog r, d.completionRecord r with
        | .error f, _ => d.contextFault r.ctx f
        | .ok true, _ => d
        | .ok false, .full kind die => d.holdRequest r kind die
        | .ok false, .hold => d
        | .ok false, .fault f => d.contextFault r.ctx f
        | .ok false, .done d1 => (d1.unlock (.request r.id)).arriveRequest r w k

/-! ## Burst commits (21 R328) -/

/-- An element as an engine reaches it: its place, which nibble of a byte, and what a watchpoint sees. -/
structure Element where
  place : Place
  hi : Bool
  seen : Watched
  deriving DecidableEq, Repr, Inhabited

/-- Why an engine cannot go on: a translation fault, which parks the request, or a context fault. -/
inductive EngineFault where
  | walk (f : TransFault)
  | fault (f : CtxFault)
  deriving DecidableEq, Repr, Inhabited

/-- What an engine fault does to the context and the request. -/
def Device.engineFault (d : Device) (r : Request) (f : EngineFault) : Device :=
  match f with
  | .walk t => if t.isLost then d.contextFault r.ctx (copyFault r.die t) else d.park r t
  | .fault c => d.contextFault r.ctx c

/-- Element `i` of an endpoint resolved, `none` when it is out of range. -/
def Device.element (d : Device) (r : Request) (w : Workgroup) (e : Endpoint) (write : Bool) (i : Nat) :
    Except EngineFault (Option Element × Device) :=
  match e.nibble i with
  | none => .ok (none, d)
  | some n =>
    match d.resolve r.die w r.core e.space (n / 2) write r.leaves with
    | .error f => .error (.walk f)
    | .ok (p, d1) =>
      .ok (some { place := p, hi := n % 2 == 1,
                  seen := watchedAt e.space e.boxed p (n / 2) (max 1 (e.nibbles / 2)) }, d1)

/-- What a burst has gathered: the device, the ranges read, and the writes to make. -/
structure Burst where
  dev : Device
  reads : List Watched
  writes : List (Element × Nat × Nat × Bool)
  deriving DecidableEq, Repr, Inhabited

/-- The value of element `i` of an endpoint; code 0 when it is out of range (08 R177). -/
def Burst.read (b : Burst) (r : Request) (w : Workgroup) (e : Endpoint) (i : Nat) :
    Except EngineFault (Nat × Burst) :=
  match b.dev.element r w e false i with
  | .error f => .error f
  | .ok (none, d) => .ok (0, { b with dev := d })
  | .ok (some x, d) =>
    match d.lostIn x.place.space x.place.addr (max 1 (e.nibbles / 2)) with
    | some f => .error (.fault f)
    | none =>
    let d1 := d.settle x.place.space x.place.addr (max 1 (e.nibbles / 2)) false
    .ok (d1.load x.place (4 * e.nibbles) x.hi, { b with dev := d1, reads := x.seen :: b.reads })

/-- Whether a peer turns an ordered reduce-add away, because its window names no context (23 R359). -/
def Device.peerTurnsAway (d : Device) (c : BitVec 6) (efmt : BitVec 4) (p : Place) : Bool :=
  match p.space with
  | .phys n => decide (2 ≤ n) && (d.ctx c).ordr && (floatFmt efmt.toNat).isSome &&
      !Config.peerReduces d.tick (n - 1) (p.addr / 65536)
  | _ => false

/-- A write of a value to element `i` of an endpoint, or an addition; nothing when it is out of range. An addition reads the
element. -/
def Burst.write (b : Burst) (r : Request) (w : Workgroup) (e : Endpoint) (i v : Nat) (add : Bool) :
    Except EngineFault Burst :=
  match b.dev.element r w e true i with
  | .error f => .error f
  | .ok (none, d) => .ok { b with dev := d }
  | .ok (some x, d) =>
    match (if add then d.lostIn x.place.space x.place.addr (max 1 (e.nibbles / 2)) else none) with
    | some f => .error (.fault f)
    | none =>
    if add && d.peerTurnsAway r.ctx e.efmt x.place then .error (.walk (kindRight, x.seen.2.1))
    else .ok { b with dev := d, writes := b.writes ++ [(x, 4 * e.nibbles, v, add)] }

/-- The dense run of scales or metadata of an auxiliary address: 4, 8 or 16 bits each. -/
def auxRun (space : BitVec 2) (addr bits n : Nat) : Endpoint :=
  .dense space addr (if bits = 4 then 9 else if bits = 8 then 0xB else 0xD) n

/-- The block length of a block-scaled move (09 Table 09-7). -/
def blenOf (blen : BitVec 2) : Nat := 4 * 2 ^ blen.toNat

/-- The bits of a block scale (03 Table 03-2). -/
def scaleBits (sfmt : BitVec 2) : Nat := if sfmt = 3 then 16 else 8

/-- The movement of destination element `i` under a transform (08 Table 08-4). -/
def Burst.move (b : Burst) (r : Request) (w : Workgroup) (src dst : Endpoint) (xf : Transform) (i : Nat) :
    Except EngineFault Burst :=
  match xf with
  | .plain =>
    match b.read r w src i with
    | .error f => .error f
    | .ok (v, b1) => b1.write r w dst i v false
  | .expand space aux =>
    match b.read r w (auxRun space aux 4 (dst.count / 4)) (i / 4) with
    | .error f => .error f
    | .ok (meta_, b1) =>
      let pos := i % 4
      if pos = bitsN meta_ 2 2 || pos = bitsN meta_ 0 2 then
        match b1.read r w src (i / 4 * 2 + (if pos = bitsN meta_ 2 2 then 1 else 0)) with
        | .error f => .error f
        | .ok (v, b2) => b2.write r w dst i v false
      else b1.write r w dst i 0 false
  | .scaled ss ds sa da blen sfmt =>
    let l := blenOf blen
    let run (sp : BitVec 2) (a : Nat) : Endpoint := auxRun sp a (scaleBits sfmt) (dst.count / l)
    match b.read r w src i with
    | .error f => .error f
    | .ok (v, b1) =>
      match b1.write r w dst i v false with
      | .error f => .error f
      | .ok b2 =>
        if i % l ≠ 0 then .ok b2
        else
          match b2.read r w (run ss sa) (i / l) with
          | .error f => .error f
          | .ok (s, b3) => b3.write r w (run ds da) (i / l) s false
  | .convert sat =>
    match b.read r w src i with
    | .error f => .error f
    | .ok (v, b1) => b1.write r w dst i (convert .rne sat src.efmt.toNat dst.efmt.toNat v).1 false
  | .reduceAdd =>
    match b.read r w src i with
    | .error f => .error f
    | .ok (v, b1) => b1.write r w dst i v true

/-- The movements of some destination elements. -/
def Burst.moves (b : Burst) (r : Request) (w : Workgroup) (src dst : Endpoint) (xf : Transform) :
    List Nat → Except EngineFault Burst
  | [] => .ok b
  | i :: rest =>
    match b.move r w src dst xf i with
    | .error f => .error f
    | .ok b1 => b1.moves r w src dst xf rest

/-- The sum that a reduce-add writes (08 Table 08-4). -/
def reduceSum (efmt : BitVec 4) (old v : Nat) : Nat :=
  match floatFmt efmt.toNat with
  | some f => (fadd f .rne (f.value old) (f.value v)).1
  | none => lowN (old + v) (fmtBits efmt.toNat)

/-- Commits the writes of a burst. Under the ordered-reduction bit floating elements accumulate exactly (09 R197). -/
def commitWrites (c : BitVec 6) (ordr : Bool) (efmt : BitVec 4) :
    List (Element × Nat × Nat × Bool) → Device → Device
  | [], d => d
  | (x, bits, v, add) :: t, d =>
    let d1 :=
      if !add then d.store x.place bits x.hi v
      else if ordr && (floatFmt efmt.toNat).isSome then accumulate c efmt [(x.place, v)] d
      else
        let d0 := d.settle x.place.space x.place.addr (bits / 8) false
        d0.store x.place bits x.hi (reduceSum efmt (d0.load x.place bits x.hi) v)
    commitWrites c ordr efmt t d1

/-- The elements of a burst: 512 bytes of destination (21 Table 21-1). -/
def Endpoint.perBurst (e : Endpoint) : Nat := 4096 / (4 * max 1 e.nibbles)

/-- What a request's reads and writes leave beside the data: the watchpoints they fire, once each, and the bytes moved
(22 R343, R344). -/
def Device.accounted (d : Device) (r : Request) (reads writes : List Watched) (bytes : Nat) : Device :=
  let fired := (List.range 4).filter (fun k => !r.fired.contains k &&
    ((d.firedBy r.ctx reads false).contains k || (d.firedBy r.ctx writes true).contains k))
  ((d.modRequest r.id (fun x => { x with fired := x.fired ++ fired })).watchHits r.ctx r.wg fired).countEngine r.ctx
    bytes

/-- A copy's next burst (21 R328): it commits whole, parks the copy on a translation fault, or meets a full reduction
area, which stops the context and leaves the burst unapplied (09 R198). -/
def Device.burst (d : Device) (r : Request) (w : Workgroup) (src dst : Endpoint) (xf : Transform) : Device :=
  let n := min dst.perBurst (dst.count - r.done)
  match Burst.moves { dev := d, reads := [], writes := [] } r w src dst xf ((List.range n).map (r.done + ·)) with
  | .error f => d.engineFault r f
  | .ok b =>
    let d1 := commitWrites r.ctx (d.ctx r.ctx).ordr dst.efmt b.writes b.dev
    if !d1.reductionFits r.ctx then d.contextFault r.ctx ((d.ctx r.ctx).quotaFault 6 0)
    else
      (d1.accounted r b.reads (b.writes.map (fun x => x.1.seen))
        ((b.writes.map (fun x => x.2.1)).foldl (· + ·) 0 / 8)).modRequest r.id
          (fun x => { x with done := r.done + n, fails := 0 })

/-! ## Engines and worlds (17 R307) -/

/-- The copy engine that a source descriptor names. -/
def namedEngine (ws : List Word) : Option Nat :=
  let w := (ws.getD 0 0).toNat
  if bitN w 15 then some (bitsN w 12 3) else none

/-- The block identifier of a copy engine (21 Table 21-3). -/
def engineBlock (die : BitVec 2) (e : Nat) : Word := BitVec.ofNat 32 (4 * 2 ^ 16 + die.toNat * 2 ^ 14 + e * 2 ^ 8)

/-- The block identifier of a die's Clasp engine. -/
def claspBlock (die : BitVec 2) : Word := BitVec.ofNat 32 (5 * 2 ^ 16 + die.toNat * 2 ^ 14)

/-- Whether a block is of a context's world. -/
def Device.ofWorld (d : Device) (c : BitVec 6) (block : Word) : Bool := d.secBlocks.contains block == (d.ctx c).sec

/-- The block that runs a request: the engine its descriptor names, or one of the copy engines of its die and its context's
world, or Clasp for a routing pass; `none` when that world has no such block. -/
def Device.engineOf (d : Device) (r : Request) : Option Word :=
  match r.work with
  | .route _ _ _ _ => some (claspBlock r.die)
  | _ =>
    match namedEngine r.cells with
    | some e => some (engineBlock r.die e)
    | none =>
      let l := ((List.range 8).map (engineBlock r.die)).filter (d.ofWorld r.ctx)
      l[Config.engineOf r.id % l.length]?

/-- The block identifier of the engine of a request, for the error counters and fdetail. -/
def Device.requestBlock (d : Device) (r : Request) : Nat := ((d.engineOf r).getD (engineBlock r.die 0)).toNat

/-- Whether a request stands in its queue, or behind it, and has an engine of its context's world. -/
def Device.hasEngine (d : Device) (r : Request) : Bool :=
  (r.status == .queued || r.status == .finished || r.isRetired) &&
    (r.isFetch || (match d.engineOf r with | some b => d.ofWorld r.ctx b | none => false))

/-- Whether an engine may act on a request: it stands in its queue, its context is active, and its engine is of the context's
world. -/
def Device.canServe (d : Device) (r : Request) : Bool := (d.ctx r.ctx).state == .active && d.hasEngine r

/-- COPY_BURST_COMMIT: nothing happens unless the request is a copy in its queue with elements left. -/
def execCopyBurstCommit (req : Nat) (s : State) : Host.Outcome State Fault Refusal :=
  match s.dev.request req with
  | some r =>
    match r.work, s.dev.wg r.wg with
    | .copy src dst xf, some w =>
      if s.dev.canServe r && decide (r.done < dst.count) then
        match s.dev.heldByLog r with
        | .error f => .next { s with dev := s.dev.contextFault r.ctx f }
        | .ok true => .next s
        | .ok false => .next { s with dev := s.dev.burst r w src dst xf }
      else .next s
    | _, _ => .next s
  | none => .next s

/-- COPY_RETIRE: a copy whose last burst has committed retires (08 R179). -/
def execCopyRetire (req : Nat) (s : State) : Host.Outcome State Fault Refusal :=
  match s.dev.request req with
  | some r =>
    match r.work with
    | .copy _ dst _ =>
      if s.dev.canServe r && decide (dst.count ≤ r.done) then .next { s with dev := s.dev.retireRequest r } else .next s
    | _ => .next s
  | none => .next s

end Sys2Proof.Machine
end

