-- ==== Sys2Proof/Machine/Copy.lean ====
section
/-! DEFINITION. The copy family: COPY and COPYT at issue (09 R200 to R203) and TMAP (09 R204). -/

namespace Sys2Proof.Machine

open Sys2Proof

/-! ## Descriptors (09 R201, R202) -/

/-- The words of `n` cells from a slice, in the lowest of some lanes. -/
def View.cellWords (v : View) (act : Word) (s n : Nat) : List Word :=
  (List.range n).map (fun j => BitVec.ofNat 32 (v.readLowest act (s + 8 * j) 32))

/-- Whether `n` cells from a slice are U. -/
def View.cellsU (v : View) (s n : Nat) : Bool := (List.range n).all (fun j => v.isU (s + 8 * j) 32)

/-- Word `j` of some words, as a number. -/
def wordAt (ws : List Word) (j : Nat) : Nat := (ws.getD j 0).toNat

/-- The cells of an endpoint descriptor. -/
def descCells (kind : BitVec 2) : Nat := if kind = 0 then 8 else 4

/-- An endpoint descriptor read (09 Table 09-6); `none` when a field breaks it. -/
def parseEndpoint (ctx : Context) (kind : BitVec 2) (source : Bool) (ws : List Word) : Option Endpoint :=
  let w0 := wordAt ws 0
  let en := bitN w0 15
  let eng := bitsN w0 12 3
  if 2 ^ 16 ≤ w0 || (en && !source) || (!en && decide (eng ≠ 0)) then none
  else if kind = 0 then
    let m := ctx.tmap (bitsN w0 0 8)
    if bitsN w0 8 4 ≠ 0 || tmRank m = 0 || (List.range 7).any (fun j => decide (tmRank m ≤ j && wordAt ws (j + 1) ≠ 0))
    then none
    else some (.box m ((ws.drop 1).take 7))
  else
    let efmt : BitVec 4 := BitVec.ofNat 4 (w0 / 2 ^ 8)
    let n := wordAt ws 3
    if bitsN w0 0 8 ≠ 0 || (kind ≠ 1 && wordAt ws 2 ≠ 0) || (fmtBits efmt.toNat = 4 && n % 2 = 1) then none
    else some (.dense (kind - 1) (wordAt ws 1 + wordAt ws 2 * 2 ^ 32) efmt n)

/-- A transform block read (09 R202, Table 09-7); `none` when a field breaks it. -/
def parseTransform (xf : Nat) (ws : List Word) : Option Transform :=
  let w0 := wordAt ws 0
  let auxS := wordAt ws 2 + wordAt ws 3 * 2 ^ 32
  let auxD := wordAt ws 4 + wordAt ws 5 * 2 ^ 32
  let space (lo : Nat) : BitVec 2 := BitVec.ofNat 2 (bitsN w0 lo 2) - 1
  if wordAt ws 1 ≠ 0 then none
  else
    match xf with
    | 1 => if 4 ≤ w0 || w0 = 0 || auxD ≠ 0 then none else some (.expand (space 0) auxS)
    | 2 =>
      if 2 ^ 8 ≤ w0 || bitsN w0 0 2 = 0 || bitsN w0 2 2 = 0 || bitsN w0 4 2 = 0 then none
      else some (.scaled (space 0) (space 2) auxS auxD (BitVec.ofNat 2 (w0 / 2 ^ 4)) (BitVec.ofNat 2 (w0 / 2 ^ 6)))
    | 3 => if 2 ≤ w0 || auxS ≠ 0 || auxD ≠ 0 then none else some (.convert (bitN w0 0))
    | 4 => if w0 ≠ 0 || auxS ≠ 0 || auxD ≠ 0 then none else some .reduceAdd
    | _ => none

/-- The count and format rules of a copy (08 R178; 09 Table 09-7). -/
def copyRules (src dst : Endpoint) (xf : Transform) : Bool :=
  let same := src.efmt == dst.efmt
  let equal := src.count == dst.count
  match xf with
  | .plain => same && equal
  | .expand _ _ => same && dst.count % 4 == 0 && 2 * src.count == dst.count
  | .scaled _ _ _ _ blen _ => same && equal && dst.count % blenOf blen == 0
  | .convert _ => equal && src.efmt != 8 && dst.efmt != 8
  | .reduceAdd => same && equal && (decide (dst.efmt.toNat < 5) || dst.efmt == 0xE)

/-! ## Ranges -/

/-- A range that a request reads or writes: its space, the address ALIGN checks and its alignment, the bytes, and
whether they are written. -/
structure Reach where
  space : BitVec 2
  addr : Nat
  align : Nat
  range : Option ByteRange
  write : Bool
  deriving DecidableEq, Repr, Inhabited

/-- The reach of an endpoint. -/
def Endpoint.reach (e : Endpoint) (write : Bool) : Reach :=
  { space := e.space, addr := e.base, align := fmtBytes e.efmt, range := e.range, write := write }

/-- The reach of the auxiliary endpoints of a transform. -/
def Transform.reaches (xf : Transform) (count : Nat) : List Reach :=
  match xf with
  | .expand space aux => [(auxRun space aux 4 (count / 4)).reach false].map (fun r =>
      { r with range := if count / 4 = 0 then none else some (aux, (count / 4 + 1) / 2) })
  | .scaled ss ds sa da blen sfmt =>
    let n := count / blenOf blen
    [(auxRun ss sa (scaleBits sfmt) n).reach false, (auxRun ds da (scaleBits sfmt) n).reach true]
  | _ => []

/-- A request's own ranges, the places of those with bytes. -/
def View.reachPlaces (v : View) (rs : List Reach) : List (Place × Nat × Bool) :=
  rs.filterMap (fun r =>
    match r.range with
    | none => none
    | some b => (v.range r.space r.write b).map (fun p => (p, b.2, r.write)))

/-- Whether the address of a range that reaches no byte breaks 08 R171 to R173 by itself: it is too high, or names a core that
the workgroup does not have or an offset past the segment (log entry 43). -/
def View.badAddr (v : View) (r : Reach) : Bool :=
  match r.space.toNat with
  | 0 => decide (2 ^ 57 ≤ r.addr)
  | 1 => decide (2 ^ 29 ≤ r.addr)
  | _ => (v.shared r.addr 0).isNone

/-- The ALIGN and BOUND checks of some ranges (09 R203). -/
def View.reachCheck (v : View) (rs : List Reach) : Check :=
  Check.seq (rs.map (fun r => if r.addr % r.align = 0 then .ok else .fail causeAlign r.addr) ++
    rs.map (fun r =>
      match r.range with
      | none => if v.badAddr r then .fail causeBound r.addr else .ok
      | some b => if (v.range r.space r.write b).isSome then .ok else .fail causeBound b.1))

/-- The barrier object of a tail (09 Table 09-5). -/
def tailObject (bq : BitVec 2) (boff : BitVec 16) : Nat := bq.toNat * 2 ^ 19 + boff.toNat * 8

/-- BOUND for a tail's barrier object outside the workgroup's shared memory. -/
def View.tailCheck (v : View) (bq : BitVec 2) (boff : BitVec 16) : Check :=
  if (v.object (tailObject bq boff)).isSome then .ok else .fail causeBound (tailObject bq boff)

/-- LOCK when two ranges overlap of which `meet` says so (08 R185), with the address of the later one. -/
def ownOverlap (meet : Bool → Bool → Bool) : List (Place × Nat × Bool) → Check
  | [] => .ok
  | (p, n, w) :: t =>
    match t.find? (fun q => meet w q.2.2 && placesOverlap p n q.1 q.2.1) with
    | some q => .fail causeLock q.1.addr
    | none => ownOverlap meet t

/-- The locks of a request's ranges: a write lock on each destination, a read lock on each source (08 R185). -/
def requestLocks (d : Device) (core : BitVec 8) (id : Nat) (ps : List (Place × Nat × Bool)) : List RangeLock :=
  ps.flatMap (fun p => rangeLock d core p.1 p.2.1 (if p.2.2 then .write else .read) (.request id))

/-- Not ready while the tables have no room for a request's locks (08 R185). -/
def View.lockRoom (v : View) (ps : List (Place × Nat × Bool)) : Check :=
  if v.dev.roomFor (requestLocks v.dev v.grp.core 0 ps) then .ok else .wait

/-- BOUND when a named engine is of the other world (17 R307). -/
def View.engineCheck (v : View) (e : Option Nat) : Check :=
  match e with
  | none => .ok
  | some n =>
    if v.dev.ofWorld v.c (engineBlock (dieOf v.grp.core) n) then .ok else .fail causeBound 0

/-! ## Issue -/

/-- Issues a request: its locks, its place in the copy queue and its promise in every active lane, tag U. A request
that moves no bytes retires at once, promised for the CYC of issue (08 R181). -/
def State.issueRequest (s : State) (v : View) (h : Hdr) (d : Nat) (r : Request) (ps : List (Place × Nat × Bool))
    (empty : Bool) : Except CtxFault State :=
  let id := s.dev.nextId
  let promise := if empty then v.dev.cyc else
    v.dev.cyc + BitVec.ofNat 64 (Config.promiseDelay s.dev.tick v.iss.index).toNat
  let seq := match s.dev.wg v.wg.uid with
    | some w => match w.groups[v.home]? with
      | some g => (g.agent v.half).reqSeq
      | none => 0
    | none => 0
  let r1 := { r with id := id, promise := promise, seq := seq, done := if empty then r.total else 0 }
  let d0 := s.dev.modGroup v.wg.uid v.home (fun g => g.modAgent v.half (fun a => { a with reqSeq := a.reqSeq + 1 }))
  let d1 := { d0 with nextId := id + 1 }
  let out (dv : Device) : State := State.writeOne { s with dev := dv } v h d 64 promise.toNat
  if empty then .ok (out ({ d1 with requests := d1.requests ++ [r1] }.retireRequest r1))
  else
    match { d1 with locks := d1.locks ++ requestLocks d1 v.grp.core id ps }.enqueue r1 with
    | .error f => .error f
    | .ok d2 => .ok (out d2)

/-- The request of an instruction of the issuing group, before it has a number and a promise. -/
def View.newRequest (v : View) (bar : Nat) (cells : List Word) (work : Work) : Request :=
  { id := 0, ctx := v.c, wg := v.wg.uid, tag := v.wg.tag, ordinal := v.wg.ordinal, group := v.groupIndex,
    agent := v.half, core := v.grp.core, die := dieOf v.grp.core, bar := BitVec.ofNat 32 bar, promise := 0,
    cells := cells, work := work, done := 0, fails := 0, fired := [], seq := 0, status := .queued, leaves := [] }

/-- What a copy reads at issue: the source and destination words and those of the transform block. -/
structure CopyWords where
  src : List Word
  xf : List Word
  dst : List Word
  deriving DecidableEq, Repr, Inhabited

/-- The cells of a copy. -/
def View.copyWords (v : View) (act : Word) (a : Nat) (b : BitVec 6) (xf : Nat) (t : CopyTail) : CopyWords :=
  { src := v.cellWords act a (descCells t.skind)
    xf := if xf = 0 then [] else v.cellWords act (a + 8 * descCells t.skind) 6
    dst := v.cellWords act (cellSlice b) (descCells t.dkind) }

/-- A copy read whole, or none when a field, kind, count or format breaks R200 to R202 or R178. -/
def View.parseCopy (v : View) (c : CopyWords) (xf : Nat) (t : CopyTail) : Option (Endpoint × Endpoint × Transform) :=
  match parseEndpoint v.ctx t.skind true c.src, parseEndpoint v.ctx t.dkind false c.dst with
  | some s, some e =>
    match (if xf = 0 then some .plain else parseTransform xf c.xf) with
    | some x => if copyRules s e x then some (s, e, x) else none
    | none => none
  | _, _ => none

/-- Whether a copy moves nothing: an endpoint holds no element in range (08 R177, R181). -/
def movesNothing (s e : Endpoint) : Bool := s.range.isNone || e.range.isNone

/-- The ranges of a copy: source, destination, auxiliary source and destination. -/
def copyReaches (s e : Endpoint) (x : Transform) : List Reach := [s.reach false, e.reach true] ++ x.reaches e.count

/-- COPY (`xf` 0) and COPYT at issue (09 R203). -/
def copyIssue (h : Hdr) (d a : BitVec 7) (b : BitVec 6) (xf : Nat) (t : CopyTail) : Meaning :=
  let nsrc := descCells t.skind + (if xf = 0 then 0 else 6)
  { spans := [span (h.a a) (32 * nsrc), span (cellSlice b) (32 * descCells t.dkind), span (h.d d) 64]
    dests := [span (h.d d) 64]
    once := true
    operands := fun v act =>
      let c := v.copyWords act (h.a a) b xf t
      if !(v.cellsU (h.a a) nsrc && v.cellsU (cellSlice b) (descCells t.dkind)) then .illegal
      else
        match v.parseCopy c xf t with
        | none => .illegal
        | some (s, e, x) =>
          let ps := if movesNothing s e then [] else v.reachPlaces (copyReaches s e x)
          Check.seq
            [ v.reachCheck (copyReaches s e x)
            , v.engineCheck (namedEngine c.src)
            , v.tailCheck t.bq t.boff
            , ownOverlap (fun w1 w2 => w1 != w2) ps
            , v.lockRoom ps ]
    effect := fun v act st =>
      let c := v.copyWords act (h.a a) b xf t
      match v.parseCopy c xf t with
      | none => .ok st
      | some (s, e, x) =>
        st.issueRequest v h (h.d d) (v.newRequest (tailObject t.bq t.boff) (c.src ++ c.xf ++ c.dst) (.copy s e x))
          (v.reachPlaces (copyReaches s e x)) (movesNothing s e) }

/-- COPY. -/
def meaningCopy (h : Hdr) (d a : BitVec 7) (b : BitVec 6) (t : CopyTail) : Meaning :=
  copyIssue h d a b 0 t

/-- COPY run (`meaningCopy`). -/
def execCopy (h : Hdr) (d a : BitVec 7) (b : BitVec 6) (t : CopyTail)
    (s : State) : Host.Outcome State Fault Refusal :=
  runWord (.copy h d a b t) (meaningCopy h d a b t) s

/-- COPYT. -/
def meaningCopyt (h : Hdr) (d a : BitVec 7) (b : BitVec 6) (xf : BitVec 3) (t : CopyTail) : Meaning :=
  copyIssue h d a b xf.toNat t

/-- COPYT run (`meaningCopyt`). -/
def execCopyt (h : Hdr) (d a : BitVec 7) (b : BitVec 6) (xf : BitVec 3) (t : CopyTail)
    (s : State) : Host.Outcome State Fault Refusal :=
  runWord (.copyt h d a b xf t) (meaningCopyt h d a b xf t) s

/-! ## TMAP (09 R204) -/

/-- The 1,024 bits of 32 cells. -/
def View.mapCells (v : View) (act : Word) (b : BitVec 6) : BitVec 1024 :=
  BitVec.ofNat 1024 (v.readLowest act (cellSlice b) 1024)

/-- TMAP: an entry written whole after the checks of 08 R176. -/
def meaningTmap (h : Hdr) (a : BitVec 7) (b : BitVec 6) : Meaning :=
  { spans := [span (h.a a) 32, span (cellSlice b) 1024]
    once := true
    operands := fun v act => Check.seq
      [ Check.need (v.isU (h.a a) 32 && v.cellsU (cellSlice b) 32)
      , Check.need (decide (v.readLowest act (h.a a) 32 < 256) && tmOk (v.mapCells act b)) ]
    effect := fun v act s =>
      .ok { s with dev := s.dev.modCtx v.c (fun c => c.setTmap (v.readLowest act (h.a a) 32) (v.mapCells act b)) } }

/-- TMAP run (`meaningTmap`). -/
def execTmap (h : Hdr) (a : BitVec 7) (b : BitVec 6) (s : State) : Host.Outcome State Fault Refusal :=
  runWord (.tmap h a b) (meaningTmap h a b) s

end Sys2Proof.Machine
end

