-- ==== Sys2Proof/Machine/Exchange.lean ====
section
/-! DEFINITION. The lane-exchange family: majors 0x27 to 0x29 (05 R119 to R126): shuffles, votes, reductions, scans,
NZSCAN and SEG, within segments of %seg lanes. -/

namespace Sys2Proof.Machine

open Sys2Proof

/-- The first lane of the segment of lane `i` (05, lane exchange). -/
def segBase (seg i : Nat) : Nat := i - i % seg

/-- The active lanes of the segment of lane `i`, in increasing order. -/
def segLanes (seg : Nat) (act : Word) (i : Nat) : List Nat :=
  (lanesOf act).filter (fun j => segBase seg j == segBase seg i)

/-- The result tag of SHFL and SHFLX: U when a is U, else G (05 Table 05-2); `index` says whether the lane index is U. -/
def View.pullTag (v : View) (s w : Nat) (index : Bool) : OpTag := if v.isU s w then OpTag.noting .u index else .g

/-- The lanes that a push gives a value, with that value: the highest source wins (05 R120). -/
def pushTarget (seg : Nat) (act : Word) (idx : Nat → Nat) (t : Nat) : Option Nat :=
  (segLanes seg act t).reverse.find? (fun i => segBase seg i + idx i % seg == t)

/-- SHFL: each active lane pulls from the lane its index names (05 R120). -/
def meaningShfl (h : Hdr) (w : BitVec 3) (d a b : BitVec 7) : Meaning :=
  let wd := widthOf w
  let wb := h.widthB w
  Meaning.lanewise [span (h.a a) wd, span (h.b b) wb] (h.d d) wd
    (fun v i => v.read (segBase v.seg i + v.read i (h.b b) wb % v.seg) (h.a a) wd)
    (fun v => v.pullTag (h.a a) wd (v.isU (h.b b) wb))

/-- SHFL run (`meaningShfl`). -/
def execShfl (h : Hdr) (w : BitVec 3) (d a b : BitVec 7) (s : State) : Host.Outcome State Fault Refusal :=
  runWord (.shfl h w d a b) (meaningShfl h w d a b) s

/-- SHFLP: each active lane pushes; only active lanes that some source names are written (05 R120). -/
def meaningShflp (h : Hdr) (w : BitVec 3) (d a b : BitVec 7) : Meaning :=
  let wd := widthOf w
  let wb := h.widthB w
  { spans := [span (h.a a) wd, span (h.b b) wb, span (h.d d) wd]
    dests := [span (h.d d) wd]
    effect := fun v act s =>
      let from_ := allLanes.map (pushTarget v.seg act (fun i => v.read i (h.b b) wb))
      let named := maskOf (fun t => hasLane act t && (from_.getD t none).isSome)
      .ok (s.write v (h.d d) wd (valuesOf named (fun t => v.read ((from_.getD t none).getD 0) (h.a a) wd)) named .g) }

/-- SHFLP run (`meaningShflp`). -/
def execShflp (h : Hdr) (w : BitVec 3) (d a b : BitVec 7) (s : State) : Host.Outcome State Fault Refusal :=
  runWord (.shflp h w d a b) (meaningShflp h w d a b) s

/-- SHFLX: the pull with the index (i mod %seg) XOR (m mod %seg) (05 R121). -/
def meaningShflx (h : Hdr) (w : BitVec 3) (d a : BitVec 7) (m : BitVec 5) : Meaning :=
  let wd := widthOf w
  Meaning.lanewise [span (h.a a) wd] (h.d d) wd
    (fun v i => v.read (segBase v.seg i + Nat.xor (i % v.seg) (m.toNat % v.seg)) (h.a a) wd)
    (fun v => v.pullTag (h.a a) wd true)

/-- SHFLX run (`meaningShflx`). -/
def execShflx (h : Hdr) (w : BitVec 3) (d a : BitVec 7) (m : BitVec 5)
    (s : State) : Host.Outcome State Fault Refusal :=
  runWord (.shflx h w d a m) (meaningShflx h w d a m) s

/-- The votes of the lanes: active with a nonzero operand (05 R122). -/
def View.votes (v : View) (act : Word) (s w : Nat) : Word := maskOf (fun i => hasLane act i && v.read i s w != 0)

/-- A vote that every active lane receives for its segment. -/
def voteSegment (k : BitVec 3) (src : Nat × Nat) (s w : Nat) (f : List Bool → Bool) : Meaning :=
  { spans := [src]
    kdests := [k.toNat]
    effect := fun v act st =>
      let votes := v.votes act s w
      .ok (st.setMaskLanes v k act (maskOf (fun i => f ((segLanes v.seg act i).map (hasLane votes))))) }

/-- VOTE.ANY (05 R122). -/
def meaningVoteAny (h : Hdr) (w k : BitVec 3) (a : BitVec 7) : Meaning :=
  voteSegment k (span (h.a a) (widthOf w)) (h.a a) (widthOf w) (fun l => l.any id)

/-- VOTE_ANY run (`meaningVoteAny`). -/
def execVoteAny (h : Hdr) (w k : BitVec 3) (a : BitVec 7) (s : State) : Host.Outcome State Fault Refusal :=
  runWord (.voteAny h w k a) (meaningVoteAny h w k a) s

/-- VOTE.ALL (05 R122). -/
def meaningVoteAll (h : Hdr) (w k : BitVec 3) (a : BitVec 7) : Meaning :=
  voteSegment k (span (h.a a) (widthOf w)) (h.a a) (widthOf w) (fun l => l.all id)

/-- VOTE_ALL run (`meaningVoteAll`). -/
def execVoteAll (h : Hdr) (w k : BitVec 3) (a : BitVec 7) (s : State) : Host.Outcome State Fault Refusal :=
  runWord (.voteAll h w k a) (meaningVoteAll h w k a) s

/-- VOTE.BAL: all 32 bits of the mask, which are 0 when no lane is active (05 R122; log entry 72). -/
def meaningVoteBal (h : Hdr) (w k : BitVec 3) (a : BitVec 7) : Meaning :=
  { spans := [span (h.a a) (widthOf w)]
    kdests := [k.toNat]
    always := true
    effect := fun v act s => .ok (s.setMask v k (v.votes act (h.a a) (widthOf w))) }

/-- VOTE_BAL run (`meaningVoteBal`). -/
def execVoteBal (h : Hdr) (w k : BitVec 3) (a : BitVec 7) (s : State) : Host.Outcome State Fault Refusal :=
  runWord (.voteBal h w k a) (meaningVoteBal h w k a) s

/-! ## Reductions and scans (05 R123, R124) -/

/-- The lanes a lane's result combines: its segment's, or those up to the lane itself for a scan. -/
def combineLanes (scan : Bool) (seg : Nat) (act : Word) (i : Nat) : List Nat :=
  let l := segLanes seg act i
  if scan then l.filter (fun j => decide (j ≤ i)) else l

/-- The result tag (05 Table 05-2): SCAN gives G, REDU U when %seg is 32; `src` says whether the source is U. -/
def combineTag (scan : Bool) (v : View) (src : Bool) : OpTag :=
  OpTag.noting (if !scan && v.seg = 32 then .u else .g) src

/-- An integer reduction or scan. -/
def combineInt (scan : Bool) (h : Hdr) (w : BitVec 3) (d a : BitVec 7) (o : BitVec 3) (x : Bool) : Meaning :=
  let wd := widthOf w
  { spans := [span (h.a a) wd, span (h.d d) wd]
    dests := [span (h.d d) wd]
    effect := fun v act s =>
      .ok (s.write v (h.d d) wd
        (valuesOf act (fun i =>
          reduInt o.toNat ((combineLanes scan v.seg act i).map (fun j => extI (v.read j (h.a a) wd) wd x)) wd))
        act (combineTag scan v (v.isU (h.a a) wd))) }

/-- A floating reduction or scan; the flags of all active lanes are ORed (02 R45). -/
def combineFloat (scan : Bool) (h : Hdr) (w : BitVec 3) (d a : BitVec 7) (o : BitVec 2) : Meaning :=
  let wd := typeWidth w
  { spans := [span (h.a a) wd, span (h.d d) wd]
    dests := [span (h.d d) wd]
    effect := fun v act s =>
      let rs := allLanes.map (fun i =>
        if hasLane act i then
          reduFloat o.toNat (typeFmt w) v.rounding
            ((combineLanes scan v.seg act i).map (fun j => (typeFmt w).value (v.read j (h.a a) wd)))
        else (0, 0))
      .ok ((s.write v (h.d d) wd (rs.map Prod.fst) act (combineTag scan v (v.isU (h.a a) wd))).raise v
        (rs.foldl (fun acc r => Nat.lor acc r.2) 0)) }

/-- REDU over integers (05 R123). -/
def meaningReduInt (h : Hdr) (w : BitVec 3) (d a : BitVec 7) (o : BitVec 3) (x : Bool) : Meaning :=
  combineInt false h w d a o x

/-- REDU_INT run (`meaningReduInt`). -/
def execReduInt (h : Hdr) (w : BitVec 3) (d a : BitVec 7) (o : BitVec 3) (x : Bool)
    (s : State) : Host.Outcome State Fault Refusal :=
  runWord (.reduInt h w d a o x) (meaningReduInt h w d a o x) s

/-- REDU over floats (05 R123). -/
def meaningReduFloat (h : Hdr) (w : BitVec 3) (d a : BitVec 7) (o : BitVec 2) : Meaning :=
  combineFloat false h w d a o

/-- REDU_FLOAT run (`meaningReduFloat`). -/
def execReduFloat (h : Hdr) (w : BitVec 3) (d a : BitVec 7) (o : BitVec 2)
    (s : State) : Host.Outcome State Fault Refusal :=
  runWord (.reduFloat h w d a o) (meaningReduFloat h w d a o) s

/-- SCAN over integers: inclusive (05 R124). -/
def meaningScanInt (h : Hdr) (w : BitVec 3) (d a : BitVec 7) (o : BitVec 3) (x : Bool) : Meaning :=
  combineInt true h w d a o x

/-- SCAN_INT run (`meaningScanInt`). -/
def execScanInt (h : Hdr) (w : BitVec 3) (d a : BitVec 7) (o : BitVec 3) (x : Bool)
    (s : State) : Host.Outcome State Fault Refusal :=
  runWord (.scanInt h w d a o x) (meaningScanInt h w d a o x) s

/-- SCAN over floats: each result is the exact running result, rounded once (05 R124). -/
def meaningScanFloat (h : Hdr) (w : BitVec 3) (d a : BitVec 7) (o : BitVec 2) : Meaning :=
  combineFloat true h w d a o

/-- SCAN_FLOAT run (`meaningScanFloat`). -/
def execScanFloat (h : Hdr) (w : BitVec 3) (d a : BitVec 7) (o : BitVec 2)
    (s : State) : Host.Outcome State Fault Refusal :=
  runWord (.scanFloat h w d a o) (meaningScanFloat h w d a o) s

/-- NZSCAN: ranks to d, counts to the slices that follow, the nonzero lanes to the mask (05 R125). A cell that
holds parts of both is G (05 Table 05-2); with no active lane the mask becomes 0 (log entry 72). -/
def meaningNzscan (h : Hdr) (w : BitVec 3) (d a : BitVec 7) (k : BitVec 3) : Meaning :=
  let wd := widthOf w
  { spans := [span (h.a a) wd, span (h.d d) (2 * wd)]
    dests := [span (h.d d) (2 * wd)]
    kdests := [k.toNat]
    always := true
    effect := fun v act s =>
      let nz := v.votes act (h.a a) wd
      let count (i : Nat) (below : Bool) : Nat :=
        ((segLanes v.seg nz i).filter (fun j => !below || decide (j < i))).length
      let s1 := s.write v (h.d d) wd (valuesOf act (fun i => count i true)) act .g
      let s2 := s1.write v (h.d d + wd / 4) wd (valuesOf act (fun i => count i false)) act
        (OpTag.noting (if v.seg = 32 then .u else .g) (v.isU (h.a a) wd))
      .ok (s2.setMask v k nz) }

/-- NZSCAN run (`meaningNzscan`). -/
def execNzscan (h : Hdr) (w : BitVec 3) (d a : BitVec 7) (k : BitVec 3)
    (s : State) : Host.Outcome State Fault Refusal :=
  runWord (.nzscan h w d a k) (meaningNzscan h w d a k) s

/-- SEG: the position within the segment (05 R126). -/
def meaningSeg (h : Hdr) (w : BitVec 3) (d : BitVec 7) : Meaning :=
  let wd := widthOf w
  Meaning.lanewise [] (h.d d) wd (fun v i => lowN (i % v.seg) wd)
    (fun v => if v.seg = 32 then .a 0 1 else .g)

/-- SEG run (`meaningSeg`). -/
def execSeg (h : Hdr) (w : BitVec 3) (d : BitVec 7) (s : State) : Host.Outcome State Fault Refusal :=
  runWord (.seg h w d) (meaningSeg h w d) s

end Sys2Proof.Machine
end

