-- ==== Sys2Proof/Machine/Float.lean ====
section
/-! DEFINITION. The floating-point family: majors 0x1C to 0x26 (05 R111 to R118): arithmetic, compares, unary
operations and special functions on IEEE and tapered types, conversions, and the codebooks. -/

namespace Sys2Proof.Machine

open Sys2Proof
open Sys2Proof.Config (Fn)

/-! ## Arithmetic (05 R111 to R113) -/

/-- A three-operand float operation: exact sources, one rounding to the destination type; FFMA reads d as the
addend. -/
def float3 (op : FOp) (h : Hdr) (w : BitVec 3) (d a b : BitVec 7) : Meaning :=
  let wd := typeWidth w
  let ta := h.typeA w
  let tb := h.typeB w
  let srcs := [span (h.a a) (typeWidth ta), span (h.b b) (typeWidth tb)]
  let acc := if op = .fma then [(h.d d, wd)] else []
  { Meaning.floating srcs (h.d d) wd
    (fun v i => op.eval (typeFmt w) v.rounding ((typeFmt ta).value (v.read i (h.a a) (typeWidth ta)))
      ((typeFmt tb).value (v.read i (h.b b) (typeWidth tb))) ((typeFmt w).value (v.read i (h.d d) wd)))
    (fun v => v.uniformTag ([(h.a a, typeWidth ta), (h.b b, typeWidth tb)] ++ acc)) with
    reads := acc.map (fun p => span p.1 p.2) }

/-- FADD (05 R112). -/
def meaningFadd (h : Hdr) (w : BitVec 3) (d a b : BitVec 7) : Meaning :=
  float3 .add h w d a b

/-- FADD run (`meaningFadd`). -/
def execFadd (h : Hdr) (w : BitVec 3) (d a b : BitVec 7) (s : State) : Host.Outcome State Fault Refusal :=
  runWord (.fadd h w d a b) (meaningFadd h w d a b) s

/-- FSUB (05 R112). -/
def meaningFsub (h : Hdr) (w : BitVec 3) (d a b : BitVec 7) : Meaning :=
  float3 .sub h w d a b

/-- FSUB run (`meaningFsub`). -/
def execFsub (h : Hdr) (w : BitVec 3) (d a b : BitVec 7) (s : State) : Host.Outcome State Fault Refusal :=
  runWord (.fsub h w d a b) (meaningFsub h w d a b) s

/-- FMUL (05 R112). -/
def meaningFmul (h : Hdr) (w : BitVec 3) (d a b : BitVec 7) : Meaning :=
  float3 .mul h w d a b

/-- FMUL run (`meaningFmul`). -/
def execFmul (h : Hdr) (w : BitVec 3) (d a b : BitVec 7) (s : State) : Host.Outcome State Fault Refusal :=
  runWord (.fmul h w d a b) (meaningFmul h w d a b) s

/-- FFMA (05 R112). -/
def meaningFfma (h : Hdr) (w : BitVec 3) (d a b : BitVec 7) : Meaning :=
  float3 .fma h w d a b

/-- FFMA run (`meaningFfma`). -/
def execFfma (h : Hdr) (w : BitVec 3) (d a b : BitVec 7) (s : State) : Host.Outcome State Fault Refusal :=
  runWord (.ffma h w d a b) (meaningFfma h w d a b) s

/-- FMIN (05 R113). -/
def meaningFmin (h : Hdr) (w : BitVec 3) (d a b : BitVec 7) : Meaning :=
  float3 .min h w d a b

/-- FMIN run (`meaningFmin`). -/
def execFmin (h : Hdr) (w : BitVec 3) (d a b : BitVec 7) (s : State) : Host.Outcome State Fault Refusal :=
  runWord (.fmin h w d a b) (meaningFmin h w d a b) s

/-- FMAX (05 R113). -/
def meaningFmax (h : Hdr) (w : BitVec 3) (d a b : BitVec 7) : Meaning :=
  float3 .max h w d a b

/-- FMAX run (`meaningFmax`). -/
def execFmax (h : Hdr) (w : BitVec 3) (d a b : BitVec 7) (s : State) : Host.Outcome State Fault Refusal :=
  runWord (.fmax h w d a b) (meaningFmax h w d a b) s

/-- FCMP (05 R114). -/
def meaningFcmp (h : Hdr) (w k : BitVec 3) (q : BitVec 4) (a b : BitVec 7) : Meaning :=
  let ta := h.typeA w
  let tb := h.typeB w
  Meaning.compare [span (h.a a) (typeWidth ta), span (h.b b) (typeWidth tb)] k
    (fun v i => condFloat q.toNat (typeFmt ta) (typeFmt tb) (v.read i (h.a a) (typeWidth ta))
      (v.read i (h.b b) (typeWidth tb)))

/-- FCMP run (`meaningFcmp`). -/
def execFcmp (h : Hdr) (w k : BitVec 3) (q : BitVec 4) (a b : BitVec 7)
    (s : State) : Host.Outcome State Fault Refusal :=
  runWord (.fcmp h w k q a b) (meaningFcmp h w k q a b) s

/-! ## Unary operations and special functions (05 R115) -/

/-- A unary float operation on the operand's bits. -/
def float2 (h : Hdr) (w : BitVec 3) (d a : BitVec 7) (f : View → Nat → Rounded) : Meaning :=
  let ta := h.typeA w
  Meaning.floating [span (h.a a) (typeWidth ta)] (h.d d) (typeWidth w)
    (fun v i => f v (v.read i (h.a a) (typeWidth ta))) (fun v => v.uniformTag [(h.a a, typeWidth ta)])

/-- A special function (02 R61, R62). -/
def special2 (fn : Fn) (h : Hdr) (w : BitVec 3) (d a : BitVec 7) : Meaning :=
  let ta := h.typeA w
  float2 h w d a (fun v x =>
    specialFn fn ta w (BitVec.ofNat 2 v.ctx.fmode.toNat) (BitVec.ofNat 32 x) (typeFmt w) ((typeFmt ta).value x))

/-- FABS (05 R115). -/
def meaningFabs (h : Hdr) (w : BitVec 3) (d a : BitVec 7) : Meaning :=
  let ta := h.typeA w
  float2 h w d a (fun v x => fsign false ta.toNat w.toNat (typeFmt ta) (typeFmt w) v.rounding x)

/-- FABS run (`meaningFabs`). -/
def execFabs (h : Hdr) (w : BitVec 3) (d a : BitVec 7) (s : State) : Host.Outcome State Fault Refusal :=
  runWord (.fabs h w d a) (meaningFabs h w d a) s

/-- FNEG (05 R115). -/
def meaningFneg (h : Hdr) (w : BitVec 3) (d a : BitVec 7) : Meaning :=
  let ta := h.typeA w
  float2 h w d a (fun v x => fsign true ta.toNat w.toNat (typeFmt ta) (typeFmt w) v.rounding x)

/-- FNEG run (`meaningFneg`). -/
def execFneg (h : Hdr) (w : BitVec 3) (d a : BitVec 7) (s : State) : Host.Outcome State Fault Refusal :=
  runWord (.fneg h w d a) (meaningFneg h w d a) s

/-- FRND (05 R115). -/
def meaningFrnd (h : Hdr) (w : BitVec 3) (d a : BitVec 7) : Meaning :=
  float2 h w d a (fun v x => fround (typeFmt w) v.rounding ((typeFmt (h.typeA w)).value x))

/-- FRND run (`meaningFrnd`). -/
def execFrnd (h : Hdr) (w : BitVec 3) (d a : BitVec 7) (s : State) : Host.Outcome State Fault Refusal :=
  runWord (.frnd h w d a) (meaningFrnd h w d a) s

/-- RCP (05 R115; 02 R61, R62). -/
def meaningRcp (h : Hdr) (w : BitVec 3) (d a : BitVec 7) : Meaning :=
  special2 .rcp h w d a

/-- RCP run (`meaningRcp`). -/
def execRcp (h : Hdr) (w : BitVec 3) (d a : BitVec 7) (s : State) : Host.Outcome State Fault Refusal :=
  runWord (.rcp h w d a) (meaningRcp h w d a) s

/-- RSQRT (05 R115; 02 R61, R62). -/
def meaningRsqrt (h : Hdr) (w : BitVec 3) (d a : BitVec 7) : Meaning :=
  special2 .rsqrt h w d a

/-- RSQRT run (`meaningRsqrt`). -/
def execRsqrt (h : Hdr) (w : BitVec 3) (d a : BitVec 7) (s : State) : Host.Outcome State Fault Refusal :=
  runWord (.rsqrt h w d a) (meaningRsqrt h w d a) s

/-- SQRT (05 R115; 02 R61, R62). -/
def meaningSqrt (h : Hdr) (w : BitVec 3) (d a : BitVec 7) : Meaning :=
  special2 .sqrt h w d a

/-- SQRT run (`meaningSqrt`). -/
def execSqrt (h : Hdr) (w : BitVec 3) (d a : BitVec 7) (s : State) : Host.Outcome State Fault Refusal :=
  runWord (.sqrt h w d a) (meaningSqrt h w d a) s

/-- EXP2 (05 R115; 02 R61, R62). -/
def meaningExp2 (h : Hdr) (w : BitVec 3) (d a : BitVec 7) : Meaning :=
  special2 .exp2 h w d a

/-- EXP2 run (`meaningExp2`). -/
def execExp2 (h : Hdr) (w : BitVec 3) (d a : BitVec 7) (s : State) : Host.Outcome State Fault Refusal :=
  runWord (.exp2 h w d a) (meaningExp2 h w d a) s

/-- LOG2 (05 R115; 02 R61, R62). -/
def meaningLog2 (h : Hdr) (w : BitVec 3) (d a : BitVec 7) : Meaning :=
  special2 .log2 h w d a

/-- LOG2 run (`meaningLog2`). -/
def execLog2 (h : Hdr) (w : BitVec 3) (d a : BitVec 7) (s : State) : Host.Outcome State Fault Refusal :=
  runWord (.log2 h w d a) (meaningLog2 h w d a) s

/-- SIN (05 R115; 02 R61, R62). -/
def meaningSin (h : Hdr) (w : BitVec 3) (d a : BitVec 7) : Meaning :=
  special2 .sin h w d a

/-- SIN run (`meaningSin`). -/
def execSin (h : Hdr) (w : BitVec 3) (d a : BitVec 7) (s : State) : Host.Outcome State Fault Refusal :=
  runWord (.sin h w d a) (meaningSin h w d a) s

/-- COS (05 R115; 02 R61, R62). -/
def meaningCos (h : Hdr) (w : BitVec 3) (d a : BitVec 7) : Meaning :=
  special2 .cos h w d a

/-- COS run (`meaningCos`). -/
def execCos (h : Hdr) (w : BitVec 3) (d a : BitVec 7) (s : State) : Host.Outcome State Fault Refusal :=
  runWord (.cos h w d a) (meaningCos h w d a) s

/-- TANH (05 R115; 02 R61, R62). -/
def meaningTanh (h : Hdr) (w : BitVec 3) (d a : BitVec 7) : Meaning :=
  special2 .tanh h w d a

/-- TANH run (`meaningTanh`). -/
def execTanh (h : Hdr) (w : BitVec 3) (d a : BitVec 7) (s : State) : Host.Outcome State Fault Refusal :=
  runWord (.tanh h w d a) (meaningTanh h w d a) s

/-! ## Conversions (05 R116) -/

/-- The rounding of a conversion: the rnd field, or %fmode (02 R44). -/
def View.convertRounding (v : View) (r : BitVec 3) : Rounding :=
  if r = 0 then v.rounding else Rounding.ofCode (r.toNat - 1)

/-- A conversion; `sat` selects CVQ's rules. -/
def convert2 (sat : Bool) (h : Hdr) (sf : BitVec 4) (d a : BitVec 7) (df : BitVec 4) (r : BitVec 3) : Meaning :=
  let ws := fmtBits sf.toNat
  Meaning.floating [span (h.a a) ws] (h.d d) (fmtBits df.toNat)
    (fun v i => convert (v.convertRounding r) sat sf.toNat df.toNat (v.read i (h.a a) ws))
    (fun v => v.uniformTag [(h.a a, ws)])

/-- CVT (05 R116). -/
def meaningCvt (h : Hdr) (sf : BitVec 4) (d a : BitVec 7) (df : BitVec 4) (r : BitVec 3) : Meaning :=
  convert2 false h sf d a df r

/-- CVT run (`meaningCvt`). -/
def execCvt (h : Hdr) (sf : BitVec 4) (d a : BitVec 7) (df : BitVec 4) (r : BitVec 3)
    (s : State) : Host.Outcome State Fault Refusal :=
  runWord (.cvt h sf d a df r) (meaningCvt h sf d a df r) s

/-- CVQ: the saturating conversion (05 R116; 02 R48). -/
def meaningCvq (h : Hdr) (sf : BitVec 4) (d a : BitVec 7) (df : BitVec 4) (r : BitVec 3) : Meaning :=
  convert2 true h sf d a df r

/-- CVQ run (`meaningCvq`). -/
def execCvq (h : Hdr) (sf : BitVec 4) (d a : BitVec 7) (df : BitVec 4) (r : BitVec 3)
    (s : State) : Host.Outcome State Fault Refusal :=
  runWord (.cvq h sf d a df r) (meaningCvq h sf d a df r) s

/-! ## Codebooks (05 R118; CBLD stands with the memory instructions) -/

/-- The bf16 entries of the codes of a field, lowest first, as one number. -/
def expandCodes (book : List (BitVec 16)) (x : Nat) : Nat → Nat
  | 0 => 0
  | n + 1 => (book.getD (bitsN x 0 4) 0).toNat + 2 ^ 16 * expandCodes book (x / 16) n

/-- CBX (05 R118). -/
def meaningCbx (h : Hdr) (w : BitVec 3) (d a : BitVec 7) (s : BitVec 2) : Meaning :=
  let wa := widthOf w
  Meaning.lanewise [span (h.a a) wa] (h.d d) (4 * wa)
    (fun v i => expandCodes (codebook v.grp.cb0 v.grp.cb1 s.toNat) (v.read i (h.a a) wa) (wa / 4))
    (fun v => v.uniformTag [(h.a a, wa)])

/-- CBX run (`meaningCbx`). -/
def execCbx (h : Hdr) (w : BitVec 3) (d a : BitVec 7) (s : BitVec 2)
    (st : State) : Host.Outcome State Fault Refusal :=
  runWord (.cbx h w d a s) (meaningCbx h w d a s) st

end Sys2Proof.Machine
end

