-- ==== Sys2Proof/Machine/Integer.lean ====
section
/-! DEFINITION. The integer family: majors 0x01 to 0x1B (05 R99 to R110): arithmetic, logic, shifts, bit fields,
selection, compares, unary operations, tags, special values and immediates, with the tag rules of 01 R27. -/

namespace Sys2Proof.Machine

open Sys2Proof

/-- NOP: no effect (04 R80). -/
def meaningNop (_ : Bool) : Meaning := { effect := fun _ _ s => .ok s }

/-- NOP run (`meaningNop`). -/
def execNop (chain : Bool) (s : State) : Host.Outcome State Fault Refusal := runWord (.nop chain) (meaningNop chain) s

/-! ## Tags (01 R27) -/

/-- How an operation treats affine sources (01 R27). -/
inductive Affine where
  | none | add | sub | mul | shl
  deriving DecidableEq, Repr, Inhabited

/-- The result of an operation on affine and uniform sources, if R27 makes it affine. -/
def Affine.tag (k : Affine) (a b : OpTag) (va vb : Word) : OpTag :=
  match k, a, b with
  | .add, .a p q, .u => .a (p + vb) q
  | .add, .u, .a p q => .a (va + p) q
  | .sub, .a p q, .u => .a (p - vb) q
  | .mul, .a p q, .u => .a (p * vb) (q * vb)
  | .mul, .u, .a p q => .a (va * p) (va * q)
  | .shl, .a p q, .u => .a (p <<< vb.toNat) (q <<< vb.toNat)
  | _, _, _ => .g

/-- A source of an integer operation: its slice, its width, and whether it is read signed. -/
structure Source where
  slice : Nat
  width : Nat
  signed : Bool
  deriving DecidableEq, Repr, Inhabited

/-- The slice and width of a source. -/
def Source.at (a : Source) : Nat × Nat := (a.slice, a.width)

/-- The value of a source, extended to 32 bits (01 R20). -/
def View.word (v : View) (i : Nat) (a : Source) : Word := BitVec.ofInt 32 (extI (v.read i a.slice a.width) a.width a.signed)

/-- Whether no rule of R27 admits an integer operation into `wd` bits from some sources (log entry 17): one with .sat, and one
that leaves a cell at an operation width above 32, which a wider source gives it (01 R20). -/
def excluded (sat : Bool) (wd : Nat) (srcs : List (Nat × Nat)) : Bool :=
  sat || (wd = 32 && srcs.any (fun p => decide (32 < p.2)))

/-- The tag of a lane-wise integer operation into `wd` bits (01 R27): U from U sources and else G, where R27 admits it. -/
def View.laneTag (v : View) (sat : Bool) (wd : Nat) (srcs : List (Nat × Nat)) : OpTag :=
  if excluded sat wd srcs then OpTag.excluded (v.uniformTag srcs == .u) else v.uniformTag srcs

/-- The tag of an integer operation on a and b into `wd` bits: that of a lane-wise operation, or by the affine rules when the
destination and the operation have width 32. -/
def View.tagTwo (v : View) (k : Affine) (sat : Bool) (wd : Nat) (a b : Source) (more : List (Nat × Nat)) : OpTag :=
  let srcs := a.at :: b.at :: more
  if v.uniformTag srcs = .u || excluded sat wd srcs || wd ≠ 32 || !more.isEmpty then v.laneTag sat wd srcs
  else k.tag (v.tag a.slice a.width) (v.tag b.slice b.width) (v.word 0 a) (v.word 0 b)

/-- The tag of an operation on a and an immediate, which counts as U. -/
def View.tagImm (v : View) (k : Affine) (wd : Nat) (a : Source) (imm : Word) : OpTag :=
  if v.isU a.slice a.width || excluded false wd [a.at] || wd ≠ 32 then v.laneTag false wd [a.at]
  else k.tag (v.tag a.slice a.width) .u 0 imm

/-! ## Three operands (05 R99, R100) -/

/-- Arithmetic on the exact integers a, b and c, c being d when `acc` (05 R100). `f` takes the operation width. -/
def arith3 (h : Hdr) (w : BitVec 3) (d a b : BitVec 7) (x acc : Bool) (k : Affine)
    (f : Nat → Int → Int → Int → Int) : Meaning :=
  let wd := widthOf w
  let wa := h.widthA w
  let wb := h.widthB w
  let sa := if h.e.wo then h.e.sa else x
  let sb := if h.e.wo then h.e.sb else x
  let more := if acc then [(h.d d, wd)] else []
  { Meaning.lanewise [span (h.a a) wa, span (h.b b) wb] (h.d d) wd
    (fun v i =>
      let r := f (max wd (max wa wb)) (extI (v.read i (h.a a) wa) wa sa) (extI (v.read i (h.b b) wb) wb sb)
        (extI (v.read i (h.d d) wd) wd x)
      lowI (if h.sat then clampI r wd x else r) wd)
    (fun v => v.tagTwo k h.sat wd ⟨h.a a, wa, sa⟩ ⟨h.b b, wb, sb⟩ more) with
    reads := if acc then [span (h.d d) wd] else [] }

/-- IADD (05 Table 05-4). -/
def meaningIadd (h : Hdr) (w : BitVec 3) (d a b : BitVec 7) (x : Bool) : Meaning :=
  arith3 h w d a b x false .add (fun _ a b _ => a + b)

/-- IADD run (`meaningIadd`). -/
def execIadd (h : Hdr) (w : BitVec 3) (d a b : BitVec 7) (x : Bool) (s : State) : Host.Outcome State Fault Refusal :=
  runWord (.iadd h w d a b x) (meaningIadd h w d a b x) s

/-- ISUB (05 Table 05-4). -/
def meaningIsub (h : Hdr) (w : BitVec 3) (d a b : BitVec 7) (x : Bool) : Meaning :=
  arith3 h w d a b x false .sub (fun _ a b _ => a - b)

/-- ISUB run (`meaningIsub`). -/
def execIsub (h : Hdr) (w : BitVec 3) (d a b : BitVec 7) (x : Bool) (s : State) : Host.Outcome State Fault Refusal :=
  runWord (.isub h w d a b x) (meaningIsub h w d a b x) s

/-- IMUL (05 Table 05-4). -/
def meaningImul (h : Hdr) (w : BitVec 3) (d a b : BitVec 7) (x : Bool) : Meaning :=
  arith3 h w d a b x false .mul (fun _ a b _ => a * b)

/-- IMUL run (`meaningImul`). -/
def execImul (h : Hdr) (w : BitVec 3) (d a b : BitVec 7) (x : Bool) (s : State) : Host.Outcome State Fault Refusal :=
  runWord (.imul h w d a b x) (meaningImul h w d a b x) s

/-- IMULH: the high half of the product at the operation width (05 Table 05-4). -/
def meaningImulh (h : Hdr) (w : BitVec 3) (d a b : BitVec 7) (x : Bool) : Meaning :=
  arith3 h w d a b x false .none (fun w a b _ => a * b / (2 ^ w : Nat))

/-- IMULH run (`meaningImulh`). -/
def execImulh (h : Hdr) (w : BitVec 3) (d a b : BitVec 7) (x : Bool) (s : State) : Host.Outcome State Fault Refusal :=
  runWord (.imulh h w d a b x) (meaningImulh h w d a b x) s

/-- IMAD: d is the addend (05 Table 05-4). -/
def meaningImad (h : Hdr) (w : BitVec 3) (d a b : BitVec 7) (x : Bool) : Meaning :=
  arith3 h w d a b x true .none (fun _ a b c => a * b + c)

/-- IMAD run (`meaningImad`). -/
def execImad (h : Hdr) (w : BitVec 3) (d a b : BitVec 7) (x : Bool) (s : State) : Host.Outcome State Fault Refusal :=
  runWord (.imad h w d a b x) (meaningImad h w d a b x) s

/-- IMIN (05 Table 05-4). -/
def meaningImin (h : Hdr) (w : BitVec 3) (d a b : BitVec 7) (x : Bool) : Meaning :=
  arith3 h w d a b x false .none (fun _ a b _ => min a b)

/-- IMIN run (`meaningImin`). -/
def execImin (h : Hdr) (w : BitVec 3) (d a b : BitVec 7) (x : Bool) (s : State) : Host.Outcome State Fault Refusal :=
  runWord (.imin h w d a b x) (meaningImin h w d a b x) s

/-- IMAX (05 Table 05-4). -/
def meaningImax (h : Hdr) (w : BitVec 3) (d a b : BitVec 7) (x : Bool) : Meaning :=
  arith3 h w d a b x false .none (fun _ a b _ => max a b)

/-- IMAX run (`meaningImax`). -/
def execImax (h : Hdr) (w : BitVec 3) (d a b : BitVec 7) (x : Bool) (s : State) : Host.Outcome State Fault Refusal :=
  runWord (.imax h w d a b x) (meaningImax h w d a b x) s

/-- ISAD: d is the addend (05 Table 05-4). -/
def meaningIsad (h : Hdr) (w : BitVec 3) (d a b : BitVec 7) (x : Bool) : Meaning :=
  arith3 h w d a b x true .none (fun _ a b c => (a - b).natAbs + c)

/-- ISAD run (`meaningIsad`). -/
def execIsad (h : Hdr) (w : BitVec 3) (d a b : BitVec 7) (x : Bool) (s : State) : Host.Outcome State Fault Refusal :=
  runWord (.isad h w d a b x) (meaningIsad h w d a b x) s

/-! ## Logic (05 R101) -/

/-- A bitwise operation on the two's complement of the extended sources, taken at 128 bits. -/
def logic3 (h : Hdr) (w : BitVec 3) (d a b : BitVec 7) (f : Nat → Nat → Nat) : Meaning :=
  let wd := widthOf w
  let wa := h.widthA w
  let wb := h.widthB w
  Meaning.lanewise [span (h.a a) wa, span (h.b b) wb] (h.d d) wd
    (fun v i => lowN (f (lowI (extI (v.read i (h.a a) wa) wa h.e.sa) 128) (lowI (extI (v.read i (h.b b) wb) wb h.e.sb) 128)) wd)
    (fun v => v.laneTag false wd [(h.a a, wa), (h.b b, wb)])

/-- AND (05 R101). -/
def meaningAnd (h : Hdr) (w : BitVec 3) (d a b : BitVec 7) : Meaning :=
  logic3 h w d a b Nat.land

/-- AND run (`meaningAnd`). -/
def execAnd (h : Hdr) (w : BitVec 3) (d a b : BitVec 7) (s : State) : Host.Outcome State Fault Refusal :=
  runWord (.and h w d a b) (meaningAnd h w d a b) s

/-- OR (05 R101). -/
def meaningOr (h : Hdr) (w : BitVec 3) (d a b : BitVec 7) : Meaning :=
  logic3 h w d a b Nat.lor

/-- OR run (`meaningOr`). -/
def execOr (h : Hdr) (w : BitVec 3) (d a b : BitVec 7) (s : State) : Host.Outcome State Fault Refusal :=
  runWord (.or h w d a b) (meaningOr h w d a b) s

/-- XOR (05 R101). -/
def meaningXor (h : Hdr) (w : BitVec 3) (d a b : BitVec 7) : Meaning :=
  logic3 h w d a b Nat.xor

/-- XOR run (`meaningXor`). -/
def execXor (h : Hdr) (w : BitVec 3) (d a b : BitVec 7) (s : State) : Host.Outcome State Fault Refusal :=
  runWord (.xor h w d a b) (meaningXor h w d a b) s

/-- ANDN (05 R101). -/
def meaningAndn (h : Hdr) (w : BitVec 3) (d a b : BitVec 7) : Meaning :=
  logic3 h w d a b (fun p q => Nat.land p (2 ^ 128 - 1 - q))

/-- ANDN run (`meaningAndn`). -/
def execAndn (h : Hdr) (w : BitVec 3) (d a b : BitVec 7) (s : State) : Host.Outcome State Fault Refusal :=
  runWord (.andn h w d a b) (meaningAndn h w d a b) s

/-! ## Shifts (05 R102) -/

/-- The result of SHL at width `w`: unsigned saturation when `sat`. An amount of 256 or more acts as 256, which leaves
nothing of a 128-bit value. -/
def shiftLeft (a n w : Nat) (sat : Bool) : Nat :=
  let r := a * 2 ^ min n 256
  if sat && decide (2 ^ w ≤ r) then 2 ^ w - 1 else lowN r w

/-- The result of SHR on the exact integer at width `w`. -/
def shiftRight (a : Int) (n w : Nat) : Nat := lowI (a / (2 ^ min n 256 : Nat)) w

/-- The result of ROTL at width `w`. -/
def rotateLeft (a n w : Nat) : Nat := lowN (lowN a w * 2 ^ (n % w)) w + lowN a w / 2 ^ (w - n % w)

/-- A shift of slice a by the unsigned slice b. -/
def shift3 (h : Hdr) (w : BitVec 3) (d a b : BitVec 7) (k : Affine) (f : Nat → Nat → Nat → Nat → Nat) : Meaning :=
  let wd := widthOf w
  let wa := h.widthA w
  let wb := h.widthB w
  Meaning.lanewise [span (h.a a) wa, span (h.b b) wb] (h.d d) wd
    (fun v i => f (v.read i (h.a a) wa) wa (v.read i (h.b b) wb) wd)
    (fun v => v.tagTwo k h.sat wd ⟨h.a a, wa, false⟩ ⟨h.b b, wb, false⟩ [])

/-- SHL (05 R102); .sat is unsigned. -/
def meaningShl (h : Hdr) (w : BitVec 3) (d a b : BitVec 7) : Meaning :=
  shift3 h w d a b .shl (fun p _ n wd => shiftLeft p n wd h.sat)

/-- SHL run (`meaningShl`). -/
def execShl (h : Hdr) (w : BitVec 3) (d a b : BitVec 7) (s : State) : Host.Outcome State Fault Refusal :=
  runWord (.shl h w d a b) (meaningShl h w d a b) s

/-- SHR, arithmetic when `x` (05 R102). -/
def meaningShr (h : Hdr) (w : BitVec 3) (d a b : BitVec 7) (x : Bool) : Meaning :=
  shift3 h w d a b .none (fun p wa n wd => shiftRight (extI p wa x) n wd)

/-- SHR run (`meaningShr`). -/
def execShr (h : Hdr) (w : BitVec 3) (d a b : BitVec 7) (x : Bool) (s : State) : Host.Outcome State Fault Refusal :=
  runWord (.shr h w d a b x) (meaningShr h w d a b x) s

/-- ROTL (05 R102). -/
def meaningRotl (h : Hdr) (w : BitVec 3) (d a b : BitVec 7) : Meaning :=
  shift3 h w d a b .none (fun p _ n wd => rotateLeft p n wd)

/-- ROTL run (`meaningRotl`). -/
def execRotl (h : Hdr) (w : BitVec 3) (d a b : BitVec 7) (s : State) : Host.Outcome State Fault Refusal :=
  runWord (.rotl h w d a b) (meaningRotl h w d a b) s

/-! ## Bit fields (05 R103) -/

/-- The field of BFE at width `w`: bits p to p + l - 1 of a, sign-extended when `x`. -/
def extractField (a p l w : Nat) (x : Bool) : Nat := if l = 0 then 0 else lowI (extI (bitsN a p l) l x) w

/-- The result of BFI: bits p to min (p + l) w - 1 of the base replaced by the low bits of a. -/
def insertField (old a p l w : Nat) : Nat := if w ≤ p then old else putBitsN old p (min l (w - p)) a

/-- BFE (05 R103). -/
def meaningBfe (h : Hdr) (w : BitVec 3) (d a b : BitVec 7) (x : Bool) : Meaning :=
  let wd := widthOf w
  let wa := h.widthA w
  let wb := h.widthB w
  Meaning.lanewise [span (h.a a) wa, span (h.b b) wb] (h.d d) wd
    (fun v i =>
      let ctl := v.read i (h.b b) wb
      extractField (v.read i (h.a a) wa) (bitsN ctl 0 8) (bitsN ctl 8 8) wd x)
    (fun v => v.laneTag false wd [(h.a a, wa), (h.b b, wb)])

/-- BFE run (`meaningBfe`). -/
def execBfe (h : Hdr) (w : BitVec 3) (d a b : BitVec 7) (x : Bool) (s : State) : Host.Outcome State Fault Refusal :=
  runWord (.bfe h w d a b x) (meaningBfe h w d a b x) s

/-- BFI: d is the base (05 R103). -/
def meaningBfi (h : Hdr) (w : BitVec 3) (d a b : BitVec 7) : Meaning :=
  let wd := widthOf w
  let wa := h.widthA w
  let wb := h.widthB w
  { Meaning.lanewise [span (h.a a) wa, span (h.b b) wb] (h.d d) wd
    (fun v i =>
      let ctl := v.read i (h.b b) wb
      insertField (v.read i (h.d d) wd) (v.read i (h.a a) wa) (bitsN ctl 0 8) (bitsN ctl 8 8) wd)
    (fun v => v.laneTag false wd [(h.a a, wa), (h.b b, wb), (h.d d, wd)]) with
    reads := [span (h.d d) wd] }

/-- BFI run (`meaningBfi`). -/
def execBfi (h : Hdr) (w : BitVec 3) (d a b : BitVec 7) (s : State) : Host.Outcome State Fault Refusal :=
  runWord (.bfi h w d a b) (meaningBfi h w d a b) s

/-! ## SEL (05 R104) -/

/-- The result tag of SEL (05 Table 05-2). -/
def View.selTag (v : View) (m : Word) (a b w : Nat) : OpTag :=
  let present := v.grp.present
  let one (p : Nat) : OpTag := if p % 8 = 0 && w = 32 then v.tag p w else if v.isU p w then .u else .g
  let both := v.isU a w && v.isU b w
  if both && v.read 0 a w == v.read 0 b w then .u
  else if m &&& present = present then (one a).noting both
  else if m &&& present = 0 then (one b).noting both
  else .g

/-- SEL (05 R104). -/
def meaningSel (h : Hdr) (k : BitVec 3) (d a b : BitVec 7) : Meaning :=
  let wd := if h.e.wo then widthOf h.e.aw else 32
  Meaning.lanewise [span (h.a a) wd, span (h.b b) wd] (h.d d) wd
    (fun v i => if hasLane (v.mask k) i then v.read i (h.a a) wd else v.read i (h.b b) wd)
    (fun v => v.selTag (v.mask k) (h.a a) (h.b b) wd)

/-- SEL run (`meaningSel`). -/
def execSel (h : Hdr) (k : BitVec 3) (d a b : BitVec 7) (s : State) : Host.Outcome State Fault Refusal :=
  runWord (.sel h k d a b) (meaningSel h k d a b) s

/-! ## Compares (05 R105) -/

/-- ICMP (05 R105). -/
def meaningIcmp (h : Hdr) (w k : BitVec 3) (q : BitVec 4) (a b : BitVec 7) : Meaning :=
  let wa := h.widthA w
  let wb := h.widthB w
  let g := condSigned q.toNat
  Meaning.compare [span (h.a a) wa, span (h.b b) wb] k
    (fun v i => (condInt q.toNat (extI (v.read i (h.a a) wa) wa g) (extI (v.read i (h.b b) wb) wb g), 0))

/-- ICMP run (`meaningIcmp`). -/
def execIcmp (h : Hdr) (w k : BitVec 3) (q : BitVec 4) (a b : BitVec 7)
    (s : State) : Host.Outcome State Fault Refusal :=
  runWord (.icmp h w k q a b) (meaningIcmp h w k q a b) s

/-! ## Unary operations (05 R106) -/

/-- A unary operation on the extended source; .sat clamps to the signed range. -/
def unary2 (h : Hdr) (w : BitVec 3) (d a : BitVec 7) (signed : Bool) (tag : View → OpTag) (f : Nat → Int → Int) :
    Meaning :=
  let wd := widthOf w
  let wa := h.widthA w
  Meaning.lanewise [span (h.a a) wa] (h.d d) wd
    (fun v i =>
      let r := f wd (extI (v.read i (h.a a) wa) wa signed)
      lowI (if h.sat then clampI r wd true else r) wd)
    tag

/-- The tag of a unary operation (01 R27). -/
def tagOne (h : Hdr) (w : BitVec 3) (a : BitVec 7) (v : View) : OpTag :=
  v.laneTag h.sat (widthOf w) [(h.a a, h.widthA w)]

/-- IABS (05 Table 05-6). -/
def meaningIabs (h : Hdr) (w : BitVec 3) (d a : BitVec 7) : Meaning :=
  unary2 h w d a true (tagOne h w a) (fun _ p => p.natAbs)

/-- IABS run (`meaningIabs`). -/
def execIabs (h : Hdr) (w : BitVec 3) (d a : BitVec 7) (s : State) : Host.Outcome State Fault Refusal :=
  runWord (.iabs h w d a) (meaningIabs h w d a) s

/-- INEG (05 Table 05-6). -/
def meaningIneg (h : Hdr) (w : BitVec 3) (d a : BitVec 7) : Meaning :=
  unary2 h w d a true (tagOne h w a) (fun _ p => -p)

/-- INEG run (`meaningIneg`). -/
def execIneg (h : Hdr) (w : BitVec 3) (d a : BitVec 7) (s : State) : Host.Outcome State Fault Refusal :=
  runWord (.ineg h w d a) (meaningIneg h w d a) s

/-- NOT (05 Table 05-6). -/
def meaningNot (h : Hdr) (w : BitVec 3) (d a : BitVec 7) : Meaning :=
  unary2 h w d a h.e.sa (tagOne h w a) (fun _ p => -p - 1)

/-- NOT run (`meaningNot`). -/
def execNot (h : Hdr) (w : BitVec 3) (d a : BitVec 7) (s : State) : Host.Outcome State Fault Refusal :=
  runWord (.not h w d a) (meaningNot h w d a) s

/-- POPC (05 Table 05-6). -/
def meaningPopc (h : Hdr) (w : BitVec 3) (d a : BitVec 7) : Meaning :=
  let wd := widthOf w
  let wa := h.widthA w
  Meaning.lanewise [span (h.a a) wa] (h.d d) wd
    (fun v i => lowN (popcountN (v.read i (h.a a) wa) wa) wd) (tagOne h w a)

/-- POPC run (`meaningPopc`). -/
def execPopc (h : Hdr) (w : BitVec 3) (d a : BitVec 7) (s : State) : Host.Outcome State Fault Refusal :=
  runWord (.popc h w d a) (meaningPopc h w d a) s

/-- CLZ (05 Table 05-6). -/
def meaningClz (h : Hdr) (w : BitVec 3) (d a : BitVec 7) : Meaning :=
  let wd := widthOf w
  let wa := h.widthA w
  Meaning.lanewise [span (h.a a) wa] (h.d d) wd
    (fun v i => lowN (clzN (v.read i (h.a a) wa) wa) wd) (tagOne h w a)

/-- CLZ run (`meaningClz`). -/
def execClz (h : Hdr) (w : BitVec 3) (d a : BitVec 7) (s : State) : Host.Outcome State Fault Refusal :=
  runWord (.clz h w d a) (meaningClz h w d a) s

/-- BREV (05 Table 05-6). -/
def meaningBrev (h : Hdr) (w : BitVec 3) (d a : BitVec 7) : Meaning :=
  let wd := widthOf w
  let wa := h.widthA w
  Meaning.lanewise [span (h.a a) wa] (h.d d) wd
    (fun v i => lowN (brevN (lowI (extI (v.read i (h.a a) wa) wa h.e.sa) wd) wd wd) wd) (tagOne h w a)

/-- BREV run (`meaningBrev`). -/
def execBrev (h : Hdr) (w : BitVec 3) (d a : BitVec 7) (s : State) : Host.Outcome State Fault Refusal :=
  runWord (.brev h w d a) (meaningBrev h w d a) s

/-- MOV (05 Table 05-6): a full-cell MOV copies the tag (01 R27). -/
def meaningMov (h : Hdr) (w : BitVec 3) (d a : BitVec 7) : Meaning :=
  unary2 h w d a h.e.sa
    (fun v => if widthOf w = 32 && h.widthA w = 32 then v.tag (h.a a) 32 else tagOne h w a v) (fun _ p => p)

/-- MOV run (`meaningMov`). -/
def execMov (h : Hdr) (w : BitVec 3) (d a : BitVec 7) (s : State) : Host.Outcome State Fault Refusal :=
  runWord (.mov h w d a) (meaningMov h w d a) s

/-- The tag codes that TAG returns (05 R107): bits 2j + 1 to 2j are the code of cell `c` + j. -/
def tagCodes (cells : List StoredCell) (c : Nat) : Nat → Nat
  | 0 => 0
  | n + 1 => (cellAt cells c).code + 4 * tagCodes cells (c + 1) n

/-- TAG (05 R107): its source spans W_d/2 cells. -/
def meaningTag (h : Hdr) (w : BitVec 3) (d a : BitVec 7) : Meaning :=
  let wd := widthOf w
  Meaning.lanewise [(h.a a, 4 * wd)] (h.d d) wd
    (fun v _ => tagCodes v.grp.cells (h.a a / 8) (wd / 2))
    (fun v => OpTag.noting .u (v.isU (h.a a) (16 * wd)))

/-- TAG run (`meaningTag`). -/
def execTag (h : Hdr) (w : BitVec 3) (d a : BitVec 7) (s : State) : Host.Outcome State Fault Refusal :=
  runWord (.tag h w d a) (meaningTag h w d a) s

/-! ## Special values (01 R38, Table 01-8; 05 R108) -/

/-- The width of field 0 of %wid (06 R127; 16 R280, R281). -/
def Kernel.laneBits (k : Kernel) : Nat := if k.mode16 then 4 else if k.mode64 then 6 else 5

/-- The lane within its group (06 R127): within the half in mode 16, within the pair in mode 64. -/
def View.laneInGroup (v : View) (i : Nat) : Nat :=
  if v.kern.mode16 then i % 16 else if v.grp.pair = some true then 32 + i else i

/-- %wid of a lane (06 R127 to R129). -/
def View.wid (v : View) (i : Nat) : Nat :=
  Nat.lor v.wg.coord.toNat
    (Nat.lor (v.laneInGroup i) (lowN v.groupIndex (v.kern.widths.getD 0 0) * 2 ^ v.kern.laneBits))

/-- Field `j` of %wid; a field that the header does not declare reads 0 (05 R108). -/
def View.widField (v : View) (i j : Nat) : Nat :=
  let ws := v.kern.laneBits :: v.kern.widths
  bitsN (v.wid i) ((ws.take j).foldl (· + ·) 0) (ws.getD j 0)

/-- A special value of a lane and the tag it is read with (01 Table 01-8). -/
def View.special (v : View) (n : Nat) (i : Nat) : Nat × OpTag :=
  match n with
  | 0x00 => (i, .a 0 1)
  | 0x01 => ((v.grp.lbr.getD i 0).toNat, .g)
  | 0x02 => ((v.grp.link.getD i 0).toNat, .g)
  | 0x03 => (v.wid i, .g)
  | 0x04 => (v.laneInGroup i, .a (if v.half then -16 else if v.grp.pair = some true then 32 else 0) 1)
  | 0x05 => (v.widField i 1, .u)
  | 0x06 => (v.widField i 2, .u)
  | 0x07 => (v.widField i 3, .u)
  | 0x08 => (v.widField i 4, .u)
  | 0x09 => (v.widField i 5, .u)
  | 0x0A => (v.seg, .u)
  | 0x0B => (v.dev.cyc.toNat, .u)
  | 0x0C => (v.grp.core.toNat, .u)
  | 0x0D => (v.grp.part.toNat, .u)
  | 0x0E => (v.ctx.fmode.toNat, .u)
  | 0x0F => (v.ctx.fflags.toNat, .u)
  | 0x10 => (v.agent.tcause.toNat, .u)
  | _ => (v.ctx.layer.toNat, .u)

/-- Whether WRSP accepts a value (01 Table 01-8, 02 Table 02-3; 16 R280: %seg is at most 16 in mode 16). -/
def View.specialAccepts (v : View) (n x : Nat) : Bool :=
  match n with
  | 0x02 => decide (x < 4096)
  | 0x0A => (x == 2 || x == 4 || x == 8 || x == 16 || x == 32) && (!v.kern.mode16 || decide (x ≤ 16))
  | 0x0E => decide (x < 4)
  | 0x0F => decide (x < 32)
  | _ => decide (x < 2 ^ 32)

/-- Writes a special value (05 R108) for a hardware group: %link in the given lanes. -/
def State.putSpecial (s : State) (v : View) (n x : Nat) (lanes : Word) : State :=
  let word : Word := BitVec.ofNat 32 x
  let inCtx (f : Context → Context) : State := { s with dev := s.dev.modCtx v.c f }
  match n with
  | 0x02 => s.modGroup v (fun g => { g with
      link := allLanes.map (fun i => if hasLane lanes i then BitVec.ofNat 12 x else g.link.getD i 0) })
  | 0x0A => s.modGroup v (fun g => g.modAgent v.half (fun a => { a with seg := word }))
  | 0x0E => inCtx (fun c => { c with fmode := word })
  | 0x0F => inCtx (fun c => { c with fflags := word })
  | _ => inCtx (fun c => { c with layer := word })

/-- RDSP (05 R108). -/
def meaningRdsp (h : Hdr) (w : BitVec 3) (d : BitVec 7) (n : BitVec 5) : Meaning :=
  let wd := widthOf w
  Meaning.lanewise [] (h.d d) wd (fun v i => lowN (v.special n.toNat i).1 wd) (fun v => (v.special n.toNat 0).2)

/-- RDSP run (`meaningRdsp`). -/
def execRdsp (h : Hdr) (w : BitVec 3) (d : BitVec 7) (n : BitVec 5) (s : State) : Host.Outcome State Fault Refusal :=
  runWord (.rdsp h w d n) (meaningRdsp h w d n) s

/-- WRSP (05 R108): the value of the lowest active lane, in mode 64 of both hardware groups, or for %seg of each (16 R281); a
value outside its range is ILLEGAL (01 R38). -/
def meaningWrsp (h : Hdr) (w : BitVec 3) (a : BitVec 7) (n : BitVec 5) : Meaning :=
  let wd := widthOf w
  { spans := [span (h.a a) wd]
    sdests := [n.toNat]
    once := n != 0x0A
    operands := fun v act => Check.need (v.specialAccepts n.toNat (v.readLowest act (h.a a) wd))
    effect := fun v act s =>
      .ok ((if n = 0x0A then [v] else v.halves).foldl (fun s u => s.putSpecial u n.toNat (v.readLowest act (h.a a) wd) (u.active h)) s) }

/-- WRSP run (`meaningWrsp`). -/
def execWrsp (h : Hdr) (w : BitVec 3) (a : BitVec 7) (n : BitVec 5) (s : State) : Host.Outcome State Fault Refusal :=
  runWord (.wrsp h w a n) (meaningWrsp h w a n) s

/-! ## Immediates (05 R109, R110) -/

/-- An operation on slice a and an immediate. -/
def immediate2 (h : Hdr) (w : BitVec 3) (d a : BitVec 7) (k : Affine) (imm : Word) (f : Nat → Nat → Nat → Nat) :
    Meaning :=
  let wd := widthOf w
  let wa := h.widthA w
  Meaning.lanewise [span (h.a a) wa] (h.d d) wd (fun v i => f (v.read i (h.a a) wa) wa wd)
    (fun v => v.tagImm k wd ⟨h.a a, wa, h.e.sa⟩ imm)

/-- IADDI: the immediate is sign-extended (05 R109). -/
def meaningIaddi (h : Hdr) (w : BitVec 3) (d a : BitVec 7) (i : BitVec 8) : Meaning :=
  immediate2 h w d a .add (BitVec.ofInt 32 (Hdr.imm8 h i true))
    (fun p wa wd => lowI (extI p wa h.e.sa + Hdr.imm8 h i true) wd)

/-- IADDI run (`meaningIaddi`). -/
def execIaddi (h : Hdr) (w : BitVec 3) (d a : BitVec 7) (i : BitVec 8)
    (s : State) : Host.Outcome State Fault Refusal :=
  runWord (.iaddi h w d a i) (meaningIaddi h w d a i) s

/-- SHLI (05 R109). -/
def meaningShli (h : Hdr) (w : BitVec 3) (d a n : BitVec 7) : Meaning :=
  immediate2 h w d a .shl (BitVec.ofNat 32 n.toNat) (fun p _ wd => shiftLeft p n.toNat wd false)

/-- SHLI run (`meaningShli`). -/
def execShli (h : Hdr) (w : BitVec 3) (d a n : BitVec 7) (s : State) : Host.Outcome State Fault Refusal :=
  runWord (.shli h w d a n) (meaningShli h w d a n) s

/-- SHRI, arithmetic when `x` (05 R109). -/
def meaningShri (h : Hdr) (w : BitVec 3) (d a : BitVec 7) (x : Bool) (n : BitVec 7) : Meaning :=
  immediate2 h w d a .none 0 (fun p wa wd => shiftRight (extI p wa x) n.toNat wd)

/-- SHRI run (`meaningShri`). -/
def execShri (h : Hdr) (w : BitVec 3) (d a : BitVec 7) (x : Bool) (n : BitVec 7)
    (s : State) : Host.Outcome State Fault Refusal :=
  runWord (.shri h w d a x n) (meaningShri h w d a x n) s

/-- ANDI: the immediate is zero-extended (05 R109). -/
def meaningAndi (h : Hdr) (w : BitVec 3) (d a : BitVec 7) (i : BitVec 8) : Meaning :=
  immediate2 h w d a .none 0
    (fun p wa wd => lowN (Nat.land (lowI (extI p wa h.e.sa) 128) (Hdr.imm8 h i false).toNat) wd)

/-- ANDI run (`meaningAndi`). -/
def execAndi (h : Hdr) (w : BitVec 3) (d a : BitVec 7) (i : BitVec 8)
    (s : State) : Host.Outcome State Fault Refusal :=
  runWord (.andi h w d a i) (meaningAndi h w d a i) s

/-- ICMPI: the immediate is extended as the condition reads it (05 R109). -/
def meaningIcmpi (h : Hdr) (w k : BitVec 3) (q : BitVec 4) (a : BitVec 7) (i : BitVec 8) : Meaning :=
  let wa := h.widthA w
  let g := condSigned q.toNat
  Meaning.compare [span (h.a a) wa] k
    (fun v j => (condInt q.toNat (extI (v.read j (h.a a) wa) wa g) (Hdr.imm8 h i g), 0))

/-- ICMPI run (`meaningIcmpi`). -/
def execIcmpi (h : Hdr) (w k : BitVec 3) (q : BitVec 4) (a : BitVec 7) (i : BitVec 8)
    (s : State) : Host.Outcome State Fault Refusal :=
  runWord (.icmpi h w k q a i) (meaningIcmpi h w k q a i) s

/-- MOVI (05 R110): width 32, or aw3 under an override. -/
def meaningMovi (h : Hdr) (d : BitVec 7) (i : BitVec 18) : Meaning :=
  let wd := if h.e.wo then widthOf h.e.aw else 32
  Meaning.lanewise [] (h.d d) wd (fun _ _ => lowI (Hdr.imm18 h i) wd) (fun _ => .u)

/-- MOVI run (`meaningMovi`). -/
def execMovi (h : Hdr) (d : BitVec 7) (i : BitVec 18) (s : State) : Host.Outcome State Fault Refusal :=
  runWord (.movi h d i) (meaningMovi h d i) s

/-- MOVHI: slices d + 4 to d + 7; the range check spans 32 bits at d (05 R110). -/
def meaningMovhi (h : Hdr) (d : BitVec 7) (i : BitVec 16) : Meaning :=
  { Meaning.lanewise [span (h.d d) 32] (h.d d + 4) 16 (fun _ _ => i.toNat) (fun _ => .u) with
    spans := [span (h.d d) 32] }

/-- MOVHI run (`meaningMovhi`). -/
def execMovhi (h : Hdr) (d : BitVec 7) (i : BitVec 16) (s : State) : Host.Outcome State Fault Refusal :=
  runWord (.movhi h d i) (meaningMovhi h d i) s

end Sys2Proof.Machine
end

