-- ==== Sys2Proof/Machine/Dot.lean ====
section
/-! DEFINITION. The arithmetic of the matrix array: format-block descriptors (03 R66 to R68), scaled elements
(R69, R70), the summing procedure (R71, R72) and reduced-array mode (R75). -/

namespace Sys2Proof.Machine

open Sys2Proof

/-! ## The format block (03 R66 to R68) -/

/-- What a descriptor cell and its address cell say of one operand. `saddr` is the scale array's shared address. -/
structure MatFormat where
  efmt : Nat
  cbsel : Nat
  blen : Nat
  sfmt : Nat
  tscale : Nat
  saddr : Nat
  deriving DecidableEq, Repr, Inhabited

/-- A descriptor and address cell read; `none` when a field breaks R67 or R68. -/
def parseFormat (desc addr : Word) : Option MatFormat :=
  let w := desc.toNat
  let efmt := bitsN w 0 4
  let blen := bitsN w 6 2
  if bitsN w 10 6 ≠ 0 || (blen = 0 && bitsN w 8 2 ≠ 0) || (efmt ≠ 8 && bitsN w 4 2 ≠ 0) ||
      !([1, 2, 3, 5, 6, 7, 8].contains efmt) || 2 ^ 21 ≤ addr.toNat || (blen = 0 && addr ≠ 0) then none
  else
    some { efmt := efmt, cbsel := bitsN w 4 2, blen := blen, sfmt := bitsN w 8 2, tscale := bitsN w 16 16,
           saddr := addr.toNat }

/-- The descriptors of A and B; `none` also when their width classes differ (R68). -/
def parseFormats (ws : List Word) : Option (MatFormat × MatFormat) :=
  match parseFormat (ws.getD 0 0) (ws.getD 1 0), parseFormat (ws.getD 2 0) (ws.getD 3 0) with
  | some a, some b => if fmtBits a.efmt = fmtBits b.efmt then some (a, b) else none
  | _, _ => none

/-- The element width of an operand's class in bits. -/
def MatFormat.bits (f : MatFormat) : Nat := fmtBits f.efmt

/-- K of a width class (03 Table 03-1). -/
def MatFormat.k (f : MatFormat) : Nat := 512 / f.bits

/-- The alignment-group length G of a width class (03 Table 03-1). -/
def MatFormat.g (f : MatFormat) : Nat := 256 / f.bits

/-- The block length L; K when there are no blocks. -/
def MatFormat.block (f : MatFormat) : Nat := if f.blen = 0 then f.k else 4 * 2 ^ f.blen

/-- The bytes of a scale element (R69). -/
def MatFormat.scaleBytes (f : MatFormat) : Nat := if f.sfmt = 3 then 2 else 1

/-- The scale elements of a row; none without blocks. -/
def MatFormat.scales (f : MatFormat) : Nat := if f.blen = 0 then 0 else f.k / f.block

/-- The exact value of an element code (R68). -/
def MatFormat.element (f : MatFormat) (book : List (BitVec 16)) (x : Nat) : Val :=
  if f.efmt = 8 then (FloatFmt.bin fmtBF16).value (book.getD x 0).toNat
  else ((floatFmt f.efmt).getD (.bin fmtF32)).value x

/-- The exact value of a block scale (03 Table 03-2). -/
def MatFormat.scale (f : MatFormat) (x : Nat) : Val :=
  match f.sfmt with
  | 0 => e8m0Value x
  | 1 => (FloatFmt.bin fmtE5M2).value x
  | 2 => (FloatFmt.bin fmtE4M3).value x
  | _ => (FloatFmt.bin fmtBF16).value x

/-- The exact product of some factors: a NaN factor or a zero by an infinity gives a NaN (R70, R72). -/
def prodExact (l : List Val) : Val := l.foldl (fun a b => (mulExact a b).1) (.num false 1 0)

/-- The factors of a row along K: each element with its block scale and the tensor scale (R70). `n` elements are taken
from the packed bits, element 0 lowest. -/
def MatFormat.factors (f : MatFormat) (book : List (BitVec 16)) (packed n : Nat) (scales : List Nat) : List Val :=
  let t := (FloatFmt.bin fmtBF16).value f.tscale
  (List.range n).map (fun k =>
    let x := f.element book (bitsN packed (k * f.bits) f.bits)
    prodExact (if f.blen = 0 then [x, t] else [x, f.scale (scales.getD (k / f.block) 0), t]))

/-- The terms of a pair of factor rows. -/
def termsOf (a b : List Val) : List Val := (a.zip b).map (fun p => (mulExact p.1 p.2).1)

/-! ## Summing in alignment groups (03 R71) -/

/-- floor(log2 |v|) of the largest of some values; `none` when all are zero. -/
def topExponent (l : List Val) : Option Int :=
  l.foldl (fun acc v =>
    match v with
    | .num _ m e =>
      if m = 0 then acc
      else
        let x : Int := (Nat.log2 m : Int) + e
        some (match acc with | some y => max x y | none => x)
    | _ => acc) none

/-- A term in units of 2^q, truncated toward zero. -/
def truncated (q : Int) : Val → Int
  | .num n m e => signed n (if q ≤ e then m * 2 ^ (e - q).toNat else m / 2 ^ (q - e).toNat)
  | _ => 0

/-- One alignment group: the running accumulator and the group's terms make the next accumulator. A NaN accumulator stays
a NaN in every later group. A negative sum that rounds to zero gives +0: only zero terms give -0 (log entry 75). -/
def dotGroup (acc : Nat) (ps : List Val) : Nat :=
  let f := FloatFmt.bin fmtF32
  let ts := f.value acc :: ps
  if ts.any Val.isNan then f.nan
  else if ts.any (fun v => v.isInf && v.neg) && ts.any (fun v => v.isInf && !v.neg) then f.nan
  else if ts.any Val.isInf then (f.encode .rne (.inf (ts.any (fun v => v.isInf && v.neg)))).1
  else
    match topExponent ts with
    | none => if ts.all Val.neg then 0x80000000 else 0
    | some top =>
      let q := top - 40
      let s := (ts.map (truncated q)).foldl (· + ·) 0
      let x := (f.encode .rne (.num (decide (s < 0)) s.natAbs q)).1
      if s = 0 || x = 0x80000000 then 0 else x

/-- The groups of length `g` in order; the first argument bounds their number. -/
def dotGroups (g : Nat) : Nat → Nat → List Val → Nat
  | 0, acc, _ => acc
  | n + 1, acc, ps => if ps.isEmpty then acc else dotGroups g n (dotGroup acc (ps.take g)) (ps.drop g)

/-- The procedure dot of R71 on an incoming f32 and the terms. -/
def dot (g acc : Nat) (ps : List Val) : Nat := dotGroups g ps.length acc ps

/-! ## Reduced-array mode (03 R75) -/

/-- A value as numbers. -/
def Val.numbers : Val → List Nat
  | .nan _ => [2]
  | .inf n => [3, if n then 1 else 0]
  | .num n m e => [if n then 1 else 0, m, if e < 0 then 1 else 0, e.natAbs]

/-- Whether a proposed f32 keeps the bound of R75 for an accumulator and terms that are all finite: a finite result within
the bound, or an infinity when the magnitudes reach the overflow threshold of f32 (log entry 8). -/
def reducedOk (g acc : Nat) (ps : List Val) (x : Nat) : Bool :=
  let f := FloatFmt.bin fmtF32
  let ts := f.value acc :: ps
  let e := minExp (f.value x :: ts)
  let mags := (ts.map (fun v => (sumExact [v] e).natAbs)).foldl (· + ·) 0
  match f.value x with
  | .nan _ => false
  | .inf _ => decide ((2 ^ 128 - 2 ^ 103) * 2 ^ (-e).toNat ≤ mags)
  | v => decide ((sumExact [v] e - sumExact ts e).natAbs * 2 ^ 23 ≤ ((ps.length + g - 1) / g + 1) * mags)

/-- The result of an array in reduced-array mode: the sum that the array proposes, inside the bound of R75; the result of
R71 where the proposal breaks it, or where a term is not finite. -/
def dotReduced (core : BitVec 8) (columns : List (BitVec 8)) (m n g acc : Nat) (ps : List Val) : Nat :=
  let f := FloatFmt.bin fmtF32
  let x := (Config.reducedSum core columns (m :: n :: acc :: ps.flatMap Val.numbers)).toNat
  if (f.value acc :: ps).any (fun v => v.isNan || v.isInf) then dot g acc ps
  else if reducedOk g acc ps x then x
  else dot g acc ps

end Sys2Proof.Machine
end

