-- ==== Sys2Proof/Machine/Matrix.lean ====
section
/-! DEFINITION. The matrix family (10 R211 to R221): MMA, MMAP, MMAG.A, MMAG.K, MBATCH, MWAIT and the tile moves, with the
execution of the matrix queue (10 R217) and the retirement of batches (10 R213, R218). -/

namespace Sys2Proof.Machine

open Sys2Proof

/-! ## Tiles (10 R211) -/

/-- The tile rule: `pair` for MMAP and the pair forms. -/
def View.tileCheck (v : View) (t : BitVec 7) (pair : Bool) : Check :=
  let t := t.toNat
  if v.kern.tiles + v.kern.ptiles ≤ t || (decide (v.kern.tiles ≤ t) && v.grp.core.toNat % 2 == 1) ||
      (pair && decide (t < v.kern.tiles)) then .fail causeTile t
  else .ok

/-- Which copy of the tiles an operation names: those of a core of the workgroup, or the follower halves (03 R77). -/
structure TileSide where
  wg : Nat
  q : Nat
  follower : Bool
  deriving DecidableEq, Repr, Inhabited

/-- The tiles that an instruction of a view reaches. -/
def View.tileSide (v : View) (follower : Bool) : TileSide :=
  { wg := v.wg.uid, q := quadIndex v.wg.core v.grp.core, follower := follower }

/-- The memory of a side's tiles. -/
def Device.tiles (d : Device) (t : TileSide) : Memory :=
  match d.wg t.wg with
  | some w => if t.follower then w.follower else perCore w.tiles t.q
  | none => []

/-- The byte of a side's tiles that a stored place is, if it is one. -/
def TileSide.byte (t : TileSide) (p : StoredPlace) : Option Nat :=
  match p with
  | .tile uid q x => if uid == t.wg && q.toNat == t.q && !t.follower then some x else none
  | .follower uid x => if uid == t.wg && t.follower then some x else none
  | _ => none

/-- The device with the memory of a side's tiles changed, which makes good what an error had lost of the bytes that `good`
selects (21 R333). -/
def Device.modTiles (d : Device) (t : TileSide) (good : Nat → Bool) (f : Memory → Memory) : Device :=
  { d.modWg t.wg (fun w =>
      if t.follower then { w with follower := f w.follower } else { w with tiles := modCore w.tiles t.q f }) with
    lost := d.lost.filter (fun p => match t.byte p with | some x => !good x | none => true) }

/-- INTEGRITY for the first byte of a side's tiles that is read and that an error has lost. -/
def Device.tileLost (d : Device) (t : TileSide) (read : Nat → Bool) : Option CtxFault :=
  (d.lost.find? (fun p => match t.byte p with | some x => read x | none => false)).map (fun p => d.lostFault p 0)

/-- Whether a byte of the tiles lies in tile `t`, in a row and a column that the functions select. -/
def tileWithin (t : Nat) (row col : Nat → Bool) (x : Nat) : Bool :=
  x / 4096 == t && row (x / 128 % 32) && col (x / 4 % 32)

/-- The byte of element (m, n) of tile `t` in the memory of a side's tiles. -/
def tileByte (t m n : Nat) : Nat := 4096 * t + 128 * m + 4 * n

/-- An element of a tile, as its 32 bits. -/
def tileGet (mem : Memory) (t m n : Nat) : Nat := Memory.num mem (tileByte t m n) 4

/-- The tiles with an element written. -/
def tilePut (mem : Memory) (t m n x : Nat) : Memory := Memory.putNum mem (tileByte t m n) 4 x

/-- Whether a matrix operation was issued by the agent of a view (01 R24: the group's own). -/
def View.issued (v : View) (op : MatOp) : Bool := op.wg == v.wg.uid && op.group == v.home && op.agent == v.half

/-- Not ready while an earlier matrix operation of the group on the tile is outstanding (10 R214; 01 R24). -/
def View.tileReady (v : View) (t : BitVec 7) : Check :=
  if v.dev.matrix.any (fun op => v.issued op && op.tile == t.toNat) then .wait else .ok

/-! ## Matrix operations at issue (10 R215 to R217) -/

/-- The operand fields of a matrix operation: sub5, the tile, z, the fragments' start slices, the format block's cell
and the gather block's. -/
structure MatWords where
  sub : BitVec 5
  tile : BitVec 7
  z : Bool
  a : Option Nat
  b : Option Nat
  cf : BitVec 6
  cg : Option (BitVec 6)
  deriving DecidableEq, Repr, Inhabited

/-- The gather block (10 Table 10-3). -/
structure GatherDesc where
  rbase : Nat
  rstride : Nat
  list : Nat
  wts : Nat
  wv : Bool
  n : Nat
  rowbase : Nat
  deriving DecidableEq, Repr, Inhabited

/-- The gather block read from its five cells; `none` when a field or the count breaks R216. -/
def parseGather (kForm : Bool) (k : Nat) (ws : List Word) : Option GatherDesc :=
  let w4 := wordAt ws 4
  let n := bitsN w4 16 8
  let wv := bitN w4 24
  if 2 ^ 19 ≤ wordAt ws 1 || 2 ^ 25 ≤ w4 || (kForm && (wv || bitsN w4 0 16 ≠ 0)) || (!wv && wordAt ws 3 ≠ 0) ||
      (if kForm then k else 32) < n then none
  else
    some { rbase := wordAt ws 0, rstride := wordAt ws 1, list := wordAt ws 2, wts := wordAt ws 3, wv := wv, n := n,
           rowbase := bitsN w4 0 16 }

/-- A matrix operation with its cells read. -/
structure MatPlan where
  fa : MatFormat
  fb : MatFormat
  gather : Option GatherDesc
  list : List (BitVec 16)
  deriving DecidableEq, Repr, Inhabited

/-- `n` little-endian elements of some bytes each at a place. -/
def Device.elements (d : Device) (p : Place) (bytes n : Nat) : List Nat :=
  (List.range n).map (fun i => d.num p.space (p.addr + i * bytes) bytes)

/-- The device with the accumulators settled that some reads of shared ranges reach. -/
def Device.settleRanges (d : Device) (ps : List (Place × Nat)) : Device :=
  ps.foldl (fun d p => d.settle p.1.space p.1.addr p.2 false) d

/-- A range of shared memory: `size` bytes that stand `skip` bytes behind a shared address, on the same core. -/
structure SharedRange where
  base : Nat
  skip : Nat
  size : Nat
  deriving DecidableEq, Repr, Inhabited

/-- The first address of a range. -/
def SharedRange.addr (r : SharedRange) : Nat := r.base + r.skip

/-- The place of a range, or none when it passes the segment that its address names (08 R171). -/
def SharedRange.place (r : SharedRange) (w : Workgroup) (segment : Nat) (core : BitVec 8) : Option Place :=
  (sharedPlace w segment core r.base (r.skip + r.size)).map (fun p => { p with addr := p.addr + r.skip })

/-- The place of a range of the issuing group. -/
def View.rangeOf (v : View) (r : SharedRange) : Option Place := r.place v.wg v.kern.shared v.grp.core

/-- The elements, of `bytes` bytes each, of a range as the issuing group reads them; zeros where it leaves its shared
memory. -/
def View.sharedElements (v : View) (r : SharedRange) (bytes : Nat) : List Nat :=
  match v.rangeOf r with
  | some p => (v.dev.settleRanges [(p, r.size)]).elements p bytes (r.size / bytes)
  | none => List.replicate (r.size / bytes) 0

/-- The range of an index list. -/
def GatherDesc.listRange (g : GatherDesc) : SharedRange := { base := g.list, skip := 0, size := 2 * g.n }

/-- The range of the weights. -/
def GatherDesc.weightRange (g : GatherDesc) : SharedRange := { base := g.wts, skip := 0, size := 4 * g.n }

/-- The range of `n` rows of a scale array from row `m` on (03 R69). -/
def MatFormat.scaleRange (f : MatFormat) (m n : Nat) : SharedRange :=
  { base := f.saddr, skip := m * (f.scales * f.scaleBytes), size := n * (f.scales * f.scaleBytes) }

/-- The cells, and for a gathered form the list, of a matrix operation; `none` when a cell field breaks R66 to R68, R74 or
R216. -/
def View.matPlan (v : View) (m : MatWords) (act : Word) : Option MatPlan :=
  match parseFormats (v.cellWords act (cellSlice m.cf) 4) with
  | none => none
  | some (fa, fb) =>
    match m.cg with
    | none => some { fa := fa, fb := fb, gather := none, list := [] }
    | some cg =>
      let kForm := m.sub == 3
      if kForm && (fa.blen ≠ 0 || fb.blen ≠ 0) then none
      else
        match parseGather kForm fa.k (v.cellWords act (cellSlice cg) 5) with
        | none => none
        | some g =>
          some { fa := fa, fb := fb, gather := some g,
                 list := (v.sharedElements g.listRange 2).map (fun x => BitVec.ofNat 16 x) }

/-- The length of a gathered row in bytes. -/
def MatPlan.rowBytes (p : MatPlan) (kForm : Bool) : Nat := if kForm then 4 * p.fb.bits else 64

/-- The indices of the gathered rows: MMAG.A skips 0xFFFF. -/
def MatPlan.rows (p : MatPlan) (kForm : Bool) : List Nat :=
  (p.list.filter (fun x => kForm || x != 0xFFFF)).map BitVec.toNat

/-- The shared ranges of the gathered rows. -/
def MatPlan.rowRanges (p : MatPlan) (kForm : Bool) : List SharedRange :=
  match p.gather with
  | none => []
  | some g => (p.rows kForm).map (fun x => { base := g.rbase, skip := x * g.rstride, size := p.rowBytes kForm })

/-- The ranges of the list and the weights. -/
def MatPlan.listRanges (p : MatPlan) : List SharedRange :=
  match p.gather with
  | none => []
  | some g => [g.listRange] ++ (if g.wv then [g.weightRange] else [])

/-- The rows of A's scale array that are read: for MMAG.A those of the list (10 R217). -/
def MatPlan.scaleRowsA (p : MatPlan) : List Nat :=
  match p.gather with
  | none => List.range 32
  | some _ => p.list.map BitVec.toNat

/-- The ranges of the scale arrays: A's, then B's of `n` columns (03 R69). -/
def MatPlan.scaleRanges (p : MatPlan) (n : Nat) : List SharedRange :=
  (if p.fa.blen = 0 then []
   else match p.gather with
     | none => [p.fa.scaleRange 0 32]
     | some _ => (p.rows false).map (fun x => p.fa.scaleRange x 1)) ++
    (if p.fb.blen = 0 then [] else [p.fb.scaleRange 0 n])

/-- The first misaligned address or stride, in the order of R217. -/
def MatPlan.misaligned (p : MatPlan) : Option Nat :=
  let bad (a n : Nat) : List Nat := if a % n = 0 then [] else [a]
  let scale (f : MatFormat) : List Nat := if f.blen = 0 then [] else bad f.saddr f.scaleBytes
  let gather := match p.gather with
    | none => []
    | some g => bad g.rbase 4 ++ bad g.rstride 4 ++ bad g.list 2 ++ bad g.wts 4
  (gather ++ scale p.fa ++ scale p.fb).head?

/-- The places of some shared ranges. -/
def View.sharedPlaces (v : View) (rs : List SharedRange) : List (Place × Nat) :=
  rs.filterMap (fun r => if r.size = 0 then none else (v.rangeOf r).map (fun p => (p, r.size)))

/-- The bounding ranges of some places, one for each segment that they lie in. -/
def boundingPlaces (ps : List (Place × Nat)) : List (Place × Nat) :=
  let join (acc : List (Place × Nat)) (p : Place × Nat) : List (Place × Nat) :=
    match acc.find? (fun x => x.1.space == p.1.space) with
    | none => acc ++ [p]
    | some y =>
      let lo := min y.1.addr p.1.addr
      let hi := max (y.1.addr + y.2) (p.1.addr + p.2)
      acc.map (fun x => if x.1.space == p.1.space then ({ x.1 with addr := lo }, hi - lo) else x)
  ps.foldl join []

/-- The places that a gathered form read-locks: list, weights, and the bounding range of the rows (08 R185). -/
def View.gatherPlaces (v : View) (p : MatPlan) (kForm : Bool) : List (Place × Nat) :=
  v.sharedPlaces p.listRanges ++ boundingPlaces (v.sharedPlaces (p.rowRanges kForm))

/-- The read locks of a gathered form. -/
def matrixLocks (d : Device) (core : BitVec 8) (id : Nat) (ps : List (Place × Nat)) : List RangeLock :=
  ps.flatMap (fun p => rangeLock d core p.1 p.2 .read (.matrix id))

/-- Whether the index list can be read: one outside the workgroup's shared memory is BOUND before its entries are looked at
(log entry 44), and one that an error has lost ends the context. -/
def View.listReadable (v : View) (p : MatPlan) : Bool :=
  match p.gather with
  | some g =>
    g.n == 0 || (match v.rangeOf g.listRange with
      | some x => (v.dev.lostIn x.space x.addr (2 * g.n)).isNone
      | none => false)
  | none => true

/-- The checks of a matrix operation that read operands, in the order of R217. A scale array under a write lock, and a lock
table without room, make it wait (08 R180, R185). -/
def View.matCheck (v : View) (m : MatWords) (act : Word) : Check :=
  let kForm := m.sub == 3
  let u := v.cellsU (cellSlice m.cf) 4 && (match m.cg with | some cg => v.cellsU (cellSlice cg) 5 | none => true)
  if !u then .illegal
  else
    match v.matPlan m act with
    | none => .illegal
    | some p =>
      let base := match p.gather with | some g => g.rowbase | none => 0
      let scales := p.scaleRanges (if m.sub == 1 then 64 else 32)
      let off := if m.sub == 2 && v.listReadable p then
        (p.rows false).find? (fun x => decide (x < base) || decide (base + 31 < x)) else none
      let ranges := if v.listReadable p then p.rowRanges kForm ++ p.listRanges ++ scales else p.listRanges
      let locked := (v.gatherPlaces p kForm).find? (fun x =>
        v.dev.meetsLock x.1 x.2 v.grp.core (fun l => l.kind != .read))
      Check.seq
        [ match off with | some _ => .fail causeTile m.tile.toNat | none => .ok
        , match p.misaligned with | some a => .fail causeAlign a | none => .ok
        , match ranges.find? (fun r => decide (r.size ≠ 0) && (v.rangeOf r).isNone) with
          | some r => .fail causeBound r.addr
          | none => .ok
        , match locked with | some x => .fail causeLock (sharedAddr v x.1) | none => .ok
        , if (v.sharedPlaces scales).any (fun x => v.dev.meetsLock x.1 x.2 v.grp.core (fun l => l.kind == .write)) ||
              !v.dev.roomFor (matrixLocks v.dev v.grp.core 0 (v.gatherPlaces p kForm)) then .wait
          else .ok ]
where
  /-- The shared address of a place as the issuing core names it. -/
  sharedAddr (v : View) (p : Place) : Nat :=
    match p.space with
    | .shared _ q => Nat.xor (quadIndex v.wg.core v.grp.core) q.toNat * 2 ^ 19 + p.addr
    | _ => p.addr

/-- A fragment: 512 bits of every lane at a slice (03 R64). -/
def View.fragment (v : View) (s : Option Nat) : List (BitVec 512) :=
  match s with
  | some s => allLanes.map (fun i => BitVec.ofNat 512 (v.read i s 512))
  | none => []

/-- The scale elements of some rows of an array, row by row; zeros for a row that is skipped. -/
def View.scaleElements (v : View) (f : MatFormat) (rows : List Nat) (skip : Bool) : List (BitVec 16) :=
  rows.flatMap (fun x =>
    if skip && x = 0xFFFF then List.replicate f.scales 0
    else (v.sharedElements (f.scaleRange x 1) f.scaleBytes).map (fun y => BitVec.ofNat 16 y))

/-- The matrix operation as it captures everything at issue. -/
def View.matOp (v : View) (m : MatWords) (p : MatPlan) (act : Word) (id : Nat) : MatOp :=
  let book (f : MatFormat) (n : Nat) (cb : List (BitVec 16)) : Bool × List (BitVec 16) := (f.efmt = 8 && f.cbsel = n, cb)
  let keep (n : Nat) (cb : List (BitVec 16)) : List (BitVec 16) :=
    if (book p.fa n cb).1 || (book p.fb n cb).1 then takePad 0 cb 16 else []
  { id := id, ctx := v.c, wg := v.wg.uid, tag := v.wg.tag, ordinal := v.wg.ordinal, group := v.home, agent := v.half,
    core := v.grp.core, batch := v.agent.batch + 1, sub := m.sub, tile := m.tile.toNat, z := m.z
    fblock := v.cellWords act (cellSlice m.cf) 4
    gcells := match m.cg with | some cg => v.cellWords act (cellSlice cg) 5 | none => []
    afrag := v.fragment m.a
    bfrag := v.fragment m.b
    bfrag2 := if m.sub == 1 then v.fragment (m.b.map (· + 128)) else []
    cbA := keep 0 v.grp.cb0
    cbB := keep 1 v.grp.cb1
    sa := v.scaleElements p.fa p.scaleRowsA p.gather.isSome
    sb := v.scaleElements p.fb (List.range (if m.sub == 1 then 64 else 32)) false
    gather := p.gather.map (fun g =>
      { rbase := BitVec.ofNat 32 g.rbase, rstride := g.rstride, list := p.list,
        weights := if g.wv then some ((v.sharedElements g.weightRange 4).map (fun x => BitVec.ofNat 32 x)) else none,
        rowbase := g.rowbase })
    failCols := [], fired := [], inRing := false }

/-- Some elements of `bytes` bytes each as one list of bytes, filled with zeros to a length. -/
def packTo (n bytes : Nat) (l : List Nat) : List (BitVec 8) := takePad 0 (l.flatMap (fun x => natToBytes x bytes)) n

/-- The 12,288-byte record of a matrix operation in its ring (08 Table 08-10). -/
def MatOp.record (op : MatOp) (cg : BitVec 6) (index : Nat) (part : BitVec 5) : List (BitVec 8) :=
  let scaleBytes (j : Nat) : Nat := if bitsN (op.fblock.getD j 0).toNat 8 2 = 3 then 2 else 1
  let pairs (x y : List (BitVec 512)) : List (BitVec 8) :=
    allLanes.flatMap (fun i => natToBytes (x.getD i 0).toNat 64 ++ natToBytes (y.getD i 0).toNat 64)
  natToBytes op.sub.toNat 4 ++
    natToBytes (op.tile * 2 ^ 18 + (if op.z then 2 ^ 17 else 0) + cg.toNat * 2 ^ 11) 4 ++
    natToBytes op.ordinal.toNat 4 ++ natToBytes op.tag.toNat 4 ++ natToBytes index 1 ++ natToBytes part.toNat 1 ++
    natToBytes 0 2 ++ natToBytes op.batch.toNat 4 ++ natToBytes 0 40 ++
    packTo 16 4 (op.fblock.map BitVec.toNat) ++ packTo 20 4 (op.gcells.map BitVec.toNat) ++ natToBytes 0 28 ++
    packTo 32 2 (op.cbA.map BitVec.toNat) ++ packTo 32 2 (op.cbB.map BitVec.toNat) ++
    packTo 256 2 (match op.gather with | some g => g.list.map BitVec.toNat | none => []) ++
    packTo 128 4 (match op.gather with | some g => (g.weights.getD []).map BitVec.toNat | none => []) ++
    packTo 2048 64 (op.afrag.map BitVec.toNat) ++ pairs op.bfrag op.bfrag2 ++
    packTo 1024 (scaleBytes 0) (op.sa.map BitVec.toNat) ++ packTo 2048 (scaleBytes 2) (op.sb.map BitVec.toNat) ++
    natToBytes 0 2496

/-- Enters an operation into its core's matrix queue, or into the context's ring when the queue is full or the ring is not
empty (08 R190, R191). -/
def Device.enqueueMatrix (d : Device) (op : MatOp) (record : List (BitVec 8)) : Except CtxFault Device :=
  let waiting := d.matrix.filter (fun x => x.ctx == op.ctx && x.inRing)
  if waiting.isEmpty && decide ((d.matrix.filter (fun x => x.core == op.core && !x.inRing)).length < 64) then
    .ok { d with matrix := d.matrix ++ [op] }
  else
    match d.ringAppend (dieOf op.core) op.ctx 0 waiting.length record with
    | .error f => .error f
    | .ok d1 => .ok { d1 with matrix := d1.matrix ++ [{ op with inRing := true }] }

/-- The reads that a matrix operation makes at issue: list, weights and scale arrays. -/
def View.matReads (v : View) (m : MatWords) (p : MatPlan) : List (Place × Nat) :=
  v.sharedPlaces (p.listRanges ++ p.scaleRanges (if m.sub == 1 then 64 else 32))

/-- Counts what an operation reads: each watchpoint once, and the bytes moved (22 R343, R344). -/
def Device.matrixRead (d : Device) (op : MatOp) (ps : List (Place × Nat)) : Device × List Nat :=
  let fired := (d.firedBy op.ctx (ps.map (fun p => p.1.watched p.2)) false).filter (fun k => !op.fired.contains k)
  ((d.watchHits op.ctx op.wg fired).countEngine op.ctx ((ps.map Prod.snd).foldl (· + ·) 0), op.fired ++ fired)

/-- The fault of reading some places, if an error has lost a byte of them (21 R333). -/
def Device.lostOf (d : Device) (ps : List (Place × Nat)) : Option CtxFault :=
  if d.lost.isEmpty then none else ps.findSome? (fun p => d.lostIn p.1.space p.1.addr p.2)

/-- The issue of a matrix operation (10 R217), once for its group (10 R212). -/
def matrixIssue (m : MatWords) : Meaning :=
  { spans := (match m.a with | some a => [(a, 128)] | none => []) ++
      (match m.b with | some b => [(b, if m.sub == 1 then 256 else 128)] | none => []) ++
      [span (cellSlice m.cf) 128] ++ (match m.cg with | some cg => [span (cellSlice cg) 160] | none => [])
    words := fun v => v.tileCheck m.tile (m.sub == 1)
    once := true
    operands := fun v act => v.matCheck m act
    effect := fun v act s =>
      match v.matPlan m act with
      | none => .ok s
      | some p =>
        match s.dev.lostOf (v.matReads m p) with
        | some f => .error f
        | none =>
        let id := s.dev.nextId
        let op := v.matOp m p act id
        let d0 := { s.dev.settleRanges (v.matReads m p) with nextId := id + 1 }
        let d1 := (d0.matrixRead op (v.matReads m p)).1
        let op1 := { op with fired := (d0.matrixRead op (v.matReads m p)).2 }
        let d2 := { d1 with locks := d1.locks ++ matrixLocks d1 v.grp.core id (v.gatherPlaces p (m.sub == 3)) }
        match d2.enqueueMatrix op1 (op1.record (m.cg.getD 0) v.groupIndex v.grp.part) with
        | .error f => .error f
        | .ok d3 =>
          .ok ({ s with dev := d3 }.modAgent v (fun a =>
            { a with openOps := a.openOps + 1, reqSeq := a.reqSeq + 1 })) }

/-- MMA. -/
def meaningMma (h : Hdr) (d a : BitVec 7) (b : BitVec 6) (t : BitVec 7) (z : Bool) : Meaning :=
  matrixIssue { sub := 0, tile := t, z := z, a := some (h.d d), b := some (h.a a), cf := b, cg := none }

/-- MMA run (`meaningMma`). -/
def execMma (h : Hdr) (d a : BitVec 7) (b : BitVec 6) (t : BitVec 7) (z : Bool)
    (s : State) : Host.Outcome State Fault Refusal :=
  runWord (.mma h d a b t z) (meaningMma h d a b t z) s

/-- MMAP. -/
def meaningMmap (h : Hdr) (d a : BitVec 7) (b : BitVec 6) (t : BitVec 7) (z : Bool) : Meaning :=
  matrixIssue { sub := 1, tile := t, z := z, a := some (h.d d), b := some (h.a a), cf := b, cg := none }

/-- MMAP run (`meaningMmap`). -/
def execMmap (h : Hdr) (d a : BitVec 7) (b : BitVec 6) (t : BitVec 7) (z : Bool)
    (s : State) : Host.Outcome State Fault Refusal :=
  runWord (.mmap h d a b t z) (meaningMmap h d a b t z) s

/-- MMAG.A. -/
def meaningMmagA (h : Hdr) (a : BitVec 7) (b : BitVec 6) (t : BitVec 7) (cg : BitVec 6) : Meaning :=
  matrixIssue { sub := 2, tile := t, z := false, a := none, b := some (h.a a), cf := b, cg := some cg }

/-- MMAG_A run (`meaningMmagA`). -/
def execMmagA (h : Hdr) (a : BitVec 7) (b : BitVec 6) (t : BitVec 7) (cg : BitVec 6)
    (s : State) : Host.Outcome State Fault Refusal :=
  runWord (.mmagA h a b t cg) (meaningMmagA h a b t cg) s

/-- MMAG.K. -/
def meaningMmagK (h : Hdr) (d : BitVec 7) (b : BitVec 6) (t : BitVec 7) (z : Bool) (cg : BitVec 6) : Meaning :=
  matrixIssue { sub := 3, tile := t, z := z, a := some (h.d d), b := none, cf := b, cg := some cg }

/-- MMAG_K run (`meaningMmagK`). -/
def execMmagK (h : Hdr) (d : BitVec 7) (b : BitVec 6) (t : BitVec 7) (z : Bool) (cg : BitVec 6)
    (s : State) : Host.Outcome State Fault Refusal :=
  runWord (.mmagK h d b t z cg) (meaningMmagK h d b t z cg) s

/-! ## Batches (10 R213, R218) -/

/-- The group index of an agent of a placed workgroup (16 R280, R281). -/
def Kernel.indexOf (k : Kernel) (grp : Group) (half : Bool) : Nat :=
  if grp.pair = some true then grp.index - 1 else k.indexAt grp.index half

/-- Retires the closed batches of an agent whose operations have all retired, in number order; `n` bounds their number. A
batch whose arrival record a full log holds stays, and the host is told once (22 R352). -/
def Device.retireBatches (d : Device) (uid g : Nat) (half : Bool) : Nat → Device
  | 0 => d
  | n + 1 =>
    match d.wg uid with
    | none => d
    | some w =>
      match w.groups[g]?, (d.ctx w.ctx).kernel w.handle w.kernel with
      | some grp, some k =>
        match (grp.agent half).closed with
        | [] => d
        | b :: rest =>
          let set (d : Device) (l : List Batch) : Device :=
            d.modGroup uid g (fun x => x.modAgent half (fun a => { a with closed := l }))
          if d.matrix.any (fun op => op.wg == uid && op.group == g && op.agent == half && op.batch == b.number) then d
          else
            match b.obj with
            | none => (set d rest).retireBatches uid g half n
            | some x =>
              match objectAt w k.shared grp.core x.toNat with
              | none => (set d rest).retireBatches uid g half n
              | some o =>
                match d.objectLost o with
                | some f => d.contextFault w.ctx f
                | none =>
                  match d.engineRecord w k (k.indexOf grp half) o with
                  | .done d1 => ((set d1 rest).arrive o none).retireBatches uid g half n
                  | .full kind die =>
                    if b.told then d
                    else (set d ({ b with told := true } :: rest)).sendMsg 6 w.ctx (BitVec.ofNat 16 kind)
                      (BitVec.ofNat 32 die.toNat)
                  | .hold => d
                  | .fault f => d.contextFault w.ctx f
      | _, _ => d

/-- Retires whatever batches of an agent can retire. -/
def Device.batches (d : Device) (uid g : Nat) (half : Bool) : Device :=
  match d.wg uid with
  | some w => match w.groups[g]? with
    | some grp => d.retireBatches uid g half (grp.agent half).closed.length
    | none => d
  | none => d

/-- Retires whatever batches of a context's groups can retire. -/
def Device.allBatches (d : Device) (c : BitVec 6) : Device :=
  (d.wgs.filter (fun w => w.ctx == c && !w.gone)).foldl (fun d w =>
    (List.range w.groups.length).foldl (fun d g => (d.batches w.uid g false).batches w.uid g true) d) d

/-- MBATCH (10 R218). -/
def meaningMbatch (h : Hdr) (d : BitVec 7) (b : BitVec 6) : Meaning :=
  { spans := [span (h.d d) 32] ++ (if b = 0 then [] else [span (cellSlice b) 32])
    dests := [span (h.d d) 32]
    once := true
    operands := fun v act => if b = 0 then .ok else v.objectCheck act b (fun _ => hitsBarrier)
    effect := fun v act s =>
      let n := v.agent.batch + 1
      let obj : Option Word := if b = 0 then none else some (BitVec.ofNat 32 (v.objectCell act b))
      let s1 := s.modAgent v (fun a =>
        { a with batch := n, openOps := 0, closed := a.closed ++ [{ number := n, obj := obj, told := false }] })
      .ok (State.writeOne { s1 with dev := s1.dev.batches v.wg.uid v.home v.half } v h (h.d d) 32 n.toNat) }

/-- MBATCH run (`meaningMbatch`). -/
def execMbatch (h : Hdr) (d : BitVec 7) (b : BitVec 6) (s : State) : Host.Outcome State Fault Refusal :=
  runWord (.mbatch h d b) (meaningMbatch h d b) s

/-- Whether a batch of an agent, and every earlier one, has retired (10 R219). -/
def Agent.batchDone (a : Agent) (b : Word) : Bool := a.closed.all (fun e => decide (2 ^ 31 ≤ (b - e.number).toNat))

/-- MWAIT (10 R219). -/
def meaningMwait (h : Hdr) (a : BitVec 7) : Meaning :=
  let number (v : View) (act : Word) : Word := BitVec.ofNat 32 (v.readLowest act (h.a a) 32)
  { spans := [span (h.a a) 32]
    once := true
    operands := fun v act => Check.seq
      [ Check.need (v.isU (h.a a) 32)
      , Check.need (decide ((v.agent.batch - number v act).toNat < 2 ^ 31)) ]
    effect := fun v act s =>
      if v.agent.batchDone (number v act) then .ok s else .ok (s.sleepIn v (.matrix (number v act)) 0) }

/-- MWAIT run (`meaningMwait`). -/
def execMwait (h : Hdr) (a : BitVec 7) (s : State) : Host.Outcome State Fault Refusal :=
  runWord (.mwait h a) (meaningMwait h a) s

/-! ## Execution (10 R217; 03 R65, R70 to R76) -/

/-- The codebook of an operand of a queued operation. -/
def MatOp.book (op : MatOp) (f : MatFormat) : List (BitVec 16) := codebook op.cbA op.cbB f.cbsel

/-- The factor rows of a fragment, `k` elements along K: row `i` takes the scale elements from position `i * scales`. -/
def MatOp.rowsOf (op : MatOp) (f : MatFormat) (frag : List (BitVec 512)) (k from_ : Nat) (scales : List (BitVec 16)) :
    List (List Val) :=
  allLanes.map (fun i => f.factors (op.book f) (frag.getD i 0).toNat k
    ((slicePad 0 scales ((from_ + i) * f.scales) f.scales).map BitVec.toNat))

/-- The dot procedure of a core's array, which runs reduced until the boot has ended (03 R71, R75). -/
def Device.arrayDot (d : Device) (core : BitVec 8) (m n g acc : Nat) (ps : List Val) : Nat :=
  let a := tableGet { columns := [], reduced := false } d.arrays core.toNat
  if d.boot.step != 15 || a.reduced then dotReduced core a.columns m n g acc ps else dot g acc ps

/-- The tiles after an operation on every element of tile `t`. -/
def runTile (mem : Memory) (t : Nat) (z : Bool) (rows cols : List (List Val)) (f : Nat → Nat → Nat → List Val → Nat) :
    Memory :=
  allLanes.foldl (fun acc m => allLanes.foldl (fun acc n =>
    tilePut acc t m n (f m n (if z then 0 else tileGet mem t m n) (termsOf (rows.getD m []) (cols.getD n [])))) acc) mem

/-- The place and bytes of gathered row `v`. -/
def MatOp.rowPlace (op : MatOp) (w : Workgroup) (segment : Nat) (g : Gather) (v n : Nat) : Option (Place × Nat) :=
  (SharedRange.place { base := g.rbase.toNat, skip := v * g.rstride, size := n } w segment op.core).map (fun p => (p, n))

/-- The bits of a gathered row as they stand at execution. -/
def Device.rowBits (d : Device) (p : Option (Place × Nat)) : Nat :=
  match p with
  | some p => d.num p.1.space p.1.addr p.2
  | none => 0

/-- One entry of an MMAG.A: list position, row index and weight. -/
def Device.gatherEntry (d : Device) (op : MatOp) (w : Workgroup) (segment : Nat) (fa : MatFormat) (g : Gather)
    (cols : List (List Val)) (mem : Memory) (pos : Nat) : Memory :=
  let x := (g.list.getD pos 0).toNat
  if x = 0xFFFF then mem
  else
    let r := x - g.rowbase
    let row := fa.factors (op.book fa) (d.rowBits (op.rowPlace w segment g x 64)) fa.k
      ((slicePad 0 op.sa (pos * fa.scales) fa.scales).map BitVec.toNat)
    let weight : Val := match g.weights with
      | some ws => (FloatFmt.bin fmtF32).value (ws.getD pos 0).toNat
      | none => .num false 1 0
    let weighted := row.map (fun y => (mulExact weight y).1)
    allLanes.foldl (fun acc n =>
      tilePut acc op.tile r n
        (d.arrayDot op.core r n fa.g (tileGet mem op.tile r n) (termsOf weighted (cols.getD n [])))) mem

/-- The shared ranges that an operation reads at execution. -/
def MatOp.rowReads (op : MatOp) (w : Workgroup) (segment : Nat) (fb : MatFormat) : List (Place × Nat) :=
  match op.gather with
  | none => []
  | some g =>
    (g.list.filter (fun x => op.sub == 3 || x != 0xFFFF)).filterMap (fun x =>
      op.rowPlace w segment g x.toNat (if op.sub == 3 then 4 * fb.bits else 64))

/-- Whether a byte of the tiles belongs to the elements that an operation writes: all of its tile, or for MMAG.A the rows that
its entries target; none with a count of 0. -/
def MatOp.writes (op : MatOp) : Nat → Bool :=
  tileWithin op.tile (fun r => match op.gather with
    | none => true
    | some g =>
      if op.sub = 3 then !g.list.isEmpty
      else g.list.any (fun x => x != 0xFFFF && x.toNat == g.rowbase + r)) (fun _ => true)

/-- INTEGRITY of an operation that reads what an error has lost: an incoming accumulator, or a gathered row (21 R333). -/
def MatOp.lost (op : MatOp) (d : Device) (side : TileSide) (reads : List (Place × Nat)) : Option CtxFault :=
  if d.lost.isEmpty then none
  else
    match d.lostOf reads with
    | some f => some f
    | none =>
      if op.z then none
      else
        match d.tileLost side op.writes with
        | some f => some f
        | none => if op.sub = 1 then d.tileLost { side with follower := true } op.writes else none

/-- The tiles that an operation writes, on its own core. -/
def MatOp.side (op : MatOp) (w : Workgroup) : TileSide := { wg := w.uid, q := quadIndex w.core op.core, follower := false }

/-- The device after the array has executed an operation: its tiles written (10 R217). -/
def Device.runMatrix (d : Device) (op : MatOp) (w : Workgroup) (k : Kernel) (fa fb : MatFormat) : Device :=
  let side := op.side w
  let mem := d.tiles side
  let rows := op.rowsOf fa op.afrag fa.k 0 op.sa
  let cols := op.rowsOf fb op.bfrag fb.k 0 op.sb
  match op.sub.toNat, op.gather with
  | 3, some g =>
    let n := g.list.length
    if n = 0 then d
    else
      let brows := g.list.map (fun x => fb.factors (op.book fb)
        (d.rowBits (op.rowPlace w k.shared g x.toNat (4 * fb.bits))) 32 [])
      let cols := allLanes.map (fun j => brows.map (fun r => r.getD j (.num false 0 0)))
      let rows := op.rowsOf fa op.afrag n 0 []
      d.modTiles side op.writes (fun _ => runTile mem op.tile op.z rows cols (fun m n => d.arrayDot op.core m n fa.g))
  | 2, some g =>
    d.modTiles side op.writes (fun _ => (List.range g.list.length).foldl (d.gatherEntry op w k.shared fa g cols) mem)
  | 1, _ =>
    let d1 := d.modTiles side op.writes (fun _ =>
      runTile mem op.tile op.z rows cols (fun m n => d.arrayDot op.core m n fa.g))
    let other : TileSide := { side with follower := true }
    let cols2 := op.rowsOf fb op.bfrag2 fb.k 32 op.sb
    d1.modTiles other op.writes (fun mem2 =>
      runTile mem2 op.tile op.z rows cols2 (fun m n => d.arrayDot (op.core + 1) m n fa.g))
  | _, _ => d.modTiles side op.writes (fun _ => runTile mem op.tile op.z rows cols (fun m n => d.arrayDot op.core m n fa.g))

/-- An operation retires: its tiles are written, its read locks released, and then the batches that are complete retire. -/
def Device.retireMatrix (d : Device) (op : MatOp) : Device :=
  let drop (d : Device) : Device :=
    (({ d with matrix := d.matrix.filter (fun x => x.id != op.id) }).unlock (.matrix op.id)).batches op.wg op.group op.agent
  match d.wg op.wg with
  | none => drop d
  | some w =>
    match (d.ctx w.ctx).kernel w.handle w.kernel, parseFormats op.fblock with
    | some k, some (fa, fb) =>
      let reads := op.rowReads w k.shared fb
      match op.lost d (op.side w) reads with
      | some f => d.contextFault op.ctx f
      | none => drop ((((d.settleRanges reads).runMatrix op w k fa fb).matrixRead op reads).1)
    | _, _ => drop d

/-- MATRIX_EXECUTE: the head of the queue executes and retires, unless the array is slaved or the context is not
active. -/
def execMatrixExecute (core : BitVec 8) (s : State) : Host.Outcome State Fault Refusal :=
  match s.dev.matrixHead core with
  | none => .next s
  | some op =>
    if s.dev.slaved core || (s.dev.ctx op.ctx).state != .active then .next s
    else .next { s with dev := s.dev.retireMatrix op }

/-! ## Tile moves (10 R220, R221) -/

/-- A tile control cell. -/
structure TileControl where
  rstride : Nat
  efmt : Nat
  ncol : Nat
  col0 : Nat
  deriving DecidableEq, Repr, Inhabited

/-- A control cell read; `none` when it breaks R220. `store` for TSTS. -/
def parseControl (store : Bool) (w : Word) : Option TileControl :=
  let x := w.toNat
  let efmt := bitsN x 11 4
  let ncol := bitsN x 5 6
  let col0 := bitsN x 0 5
  let rstride := bitsN x 16 16
  if bitN x 15 || 4 < efmt || ncol = 0 || 32 < col0 + ncol || (!store && rstride ≠ 0) ||
      (store && rstride % (fmtBits efmt / 8) ≠ 0) then none
  else some { rstride := rstride, efmt := efmt, ncol := ncol, col0 := col0 }

/-- The element width. -/
def TileControl.ew (c : TileControl) : Nat := fmtBits c.efmt

/-- Whether a move takes a column. -/
def TileControl.takes (c : TileControl) (n : Nat) : Bool := decide (c.col0 ≤ n) && decide (n < c.col0 + c.ncol)

/-- A tile element in the format of a move: f32 moves whole. -/
def TileControl.out (c : TileControl) (x : Nat) : Nat := if c.efmt = 0 then x else (convert .rne false 0 c.efmt x).1

/-- An element of a move's format as a tile element. -/
def TileControl.in_ (c : TileControl) (x : Nat) : Nat := if c.efmt = 0 then x else (convert .rne false c.efmt 0 x).1

/-- The control cell of a move in some active lanes. -/
def View.control (v : View) (act : Word) (b : BitVec 6) (store : Bool) : Option TileControl :=
  parseControl store (BitVec.ofNat 32 (v.readLowest act (cellSlice b) 32))

/-- The slices that a move to or from the register file spans by its control cell, ncol elements of the width of efmt: checked
by SRANGE whatever the active lanes and whatever else the cell breaks (04 R84, R371; 10 R221). A cell that is not U has no one
value, and a format that R220 does not admit no width. -/
def View.controlSpan (v : View) (h : Hdr) (d : BitVec 7) (b : BitVec 6) : List (Nat × Nat) :=
  if v.grp.budget < 8 * b.toNat + 8 || !v.isU (cellSlice b) 32 then []
  else
    let x := v.readLowest (if v.active h = 0 then v.grp.present else v.active h) (cellSlice b) 32
    if 4 < bitsN x 11 4 then [] else [(h.d d, bitsN x 5 6 * fmtBits (bitsN x 11 4) / 4)]

/-- TLD: tile elements to slices. -/
def tileLoad (h : Hdr) (d t : BitVec 7) (b : BitVec 6) (pair : Bool) : Meaning :=
  { spans := [span (cellSlice b) 32]
    cellSpans := fun v => v.controlSpan h d b
    cellDests := fun v => v.controlSpan h d b
    words := fun v => v.tileCheck t pair
    operands := fun v act => Check.seq
      [ v.tileReady t, Check.need (v.isU (cellSlice b) 32), Check.need (v.control act b false).isSome ]
    effect := fun v act s =>
      match v.control act b false with
      | none => .ok s
      | some c =>
        match s.dev.tileLost (v.tileSide pair) (tileWithin t.toNat (hasLane act) c.takes) with
        | some f => .error f
        | none =>
        let mem := v.dev.tiles (v.tileSide pair)
        let lane (i : Nat) : Nat := (List.range c.ncol).foldl (fun acc j =>
          acc + c.out (tileGet mem t.toNat i (c.col0 + j)) * 2 ^ (j * c.ew)) 0
        .ok (s.write v (h.d d) (c.ncol * c.ew) (valuesOf act lane) act .g) }

/-- TST: slices to tile elements. -/
def tileStore (h : Hdr) (d t : BitVec 7) (b : BitVec 6) (pair : Bool) : Meaning :=
  { spans := [span (cellSlice b) 32]
    cellSpans := fun v => v.controlSpan h d b
    words := fun v => v.tileCheck t pair
    operands := fun v act => Check.seq
      [ v.tileReady t, Check.need (v.isU (cellSlice b) 32), Check.need (v.control act b false).isSome ]
    effect := fun v act s =>
      match v.control act b false with
      | none => .ok s
      | some c =>
        let put (mem : Memory) (i : Nat) : Memory := (List.range c.ncol).foldl (fun mem j =>
          tilePut mem t.toNat i (c.col0 + j) (c.in_ (bitsN (v.read i (h.d d) (c.ncol * c.ew)) (j * c.ew) c.ew))) mem
        let good := tileWithin t.toNat (hasLane act) c.takes
        .ok { s with dev := s.dev.modTiles (v.tileSide pair) good (fun mem => (lanesOf act).foldl put mem) } }

/-- TZERO: every element +0. -/
def tileZero (t : BitVec 7) (pair : Bool) : Meaning :=
  { words := fun v => v.tileCheck t pair
    once := true
    operands := fun v _ => v.tileReady t
    effect := fun v _ s =>
      .ok { s with dev := s.dev.modTiles (v.tileSide pair) (fun x => x / 4096 == t.toNat) (fun mem =>
        mem.filter (fun c => decide (c.1 < 4096 * t.toNat) || decide (4096 * t.toNat + 4096 ≤ c.1))) } }

/-- The bounding range of a TSTS: its address, and the bytes from the first row's first element to the last row's last. -/
def TileControl.extent (c : TileControl) : Nat := 31 * c.rstride + c.ncol * c.ew / 8

/-- The bytes of the rows of a TSTS, written in increasing row order, so a later row overwrites. -/
def tileRows (c : TileControl) (mem : Memory) (t : Nat) (p : Place) (d : Device) : Device :=
  (List.range 32).foldl (fun d r => (List.range c.ncol).foldl (fun d j =>
    d.putNum p.space (p.addr + r * c.rstride + j * (c.ew / 8)) (c.ew / 8) (c.out (tileGet mem t r (c.col0 + j)))) d) d

/-- TSTS: a tile to shared memory, a plain store of its range. -/
def tileStoreShared (h : Hdr) (d t : BitVec 7) (b : BitVec 6) (pair : Bool) : Meaning :=
  let addr (v : View) (act : Word) : Nat := v.readLowest act (h.d d) 32
  { spans := [span (h.d d) 32, span (cellSlice b) 32]
    words := fun v => v.tileCheck t pair
    once := true
    operands := fun v act =>
      if !(v.isU (h.d d) 32 && v.isU (cellSlice b) 32) then .illegal
      else
        match v.control act b true with
        | none => .illegal
        | some c => Check.seq
          [ v.tileReady t
          , if addr v act % (c.ew / 8) = 0 then .ok else .fail causeAlign (addr v act)
          , match v.shared (addr v act) c.extent with
            | none => .fail causeBound (addr v act)
            | some p => if v.dev.meetsLock p c.extent v.grp.core hitsStore then .fail causeLock (addr v act) else .ok ]
    effect := fun v act s =>
      match v.control act b true with
      | none => .ok s
      | some c =>
        match v.shared (addr v act) c.extent with
        | none => .ok s
        | some p =>
          match s.dev.tileLost (v.tileSide pair) (tileWithin t.toNat (fun _ => true) c.takes) with
          | some f => .error f
          | none =>
            let mem := v.dev.tiles (v.tileSide pair)
            let rows := (List.range 32).map (fun r => (r, ({ p with addr := p.addr + r * c.rstride } : Place)))
            .ok (State.accessed { s with dev := tileRows c mem t.toNat p (s.dev.settle p.space p.addr c.extent false) } v
              rows (c.ncol * c.ew / 8) false true) }

/-- TLD. -/
def meaningTld (h : Hdr) (d t : BitVec 7) (b : BitVec 6) : Meaning :=
  tileLoad h d t b false

/-- TLD run (`meaningTld`). -/
def execTld (h : Hdr) (d t : BitVec 7) (b : BitVec 6) (s : State) : Host.Outcome State Fault Refusal :=
  runWord (.tld h d t b) (meaningTld h d t b) s

/-- TST. -/
def meaningTst (h : Hdr) (d t : BitVec 7) (b : BitVec 6) : Meaning :=
  tileStore h d t b false

/-- TST run (`meaningTst`). -/
def execTst (h : Hdr) (d t : BitVec 7) (b : BitVec 6) (s : State) : Host.Outcome State Fault Refusal :=
  runWord (.tst h d t b) (meaningTst h d t b) s

/-- TZERO. -/
def meaningTzero (_ : Hdr) (t : BitVec 7) : Meaning :=
  tileZero t false

/-- TZERO run (`meaningTzero`). -/
def execTzero (h : Hdr) (t : BitVec 7) (s : State) : Host.Outcome State Fault Refusal :=
  runWord (.tzero h t) (meaningTzero h t) s

/-- TSTS. -/
def meaningTsts (h : Hdr) (d t : BitVec 7) (b : BitVec 6) : Meaning :=
  tileStoreShared h d t b false

/-- TSTS run (`meaningTsts`). -/
def execTsts (h : Hdr) (d t : BitVec 7) (b : BitVec 6) (s : State) : Host.Outcome State Fault Refusal :=
  runWord (.tsts h d t b) (meaningTsts h d t b) s

/-- TLD.P, on the follower half. -/
def meaningTldP (h : Hdr) (d t : BitVec 7) (b : BitVec 6) : Meaning :=
  tileLoad h d t b true

/-- TLD_P run (`meaningTldP`). -/
def execTldP (h : Hdr) (d t : BitVec 7) (b : BitVec 6) (s : State) : Host.Outcome State Fault Refusal :=
  runWord (.tldP h d t b) (meaningTldP h d t b) s

/-- TST.P, on the follower half. -/
def meaningTstP (h : Hdr) (d t : BitVec 7) (b : BitVec 6) : Meaning :=
  tileStore h d t b true

/-- TST_P run (`meaningTstP`). -/
def execTstP (h : Hdr) (d t : BitVec 7) (b : BitVec 6) (s : State) : Host.Outcome State Fault Refusal :=
  runWord (.tstP h d t b) (meaningTstP h d t b) s

/-- TZERO.P, on the follower half. -/
def meaningTzeroP (_ : Hdr) (t : BitVec 7) : Meaning :=
  tileZero t true

/-- TZERO_P run (`meaningTzeroP`). -/
def execTzeroP (h : Hdr) (t : BitVec 7) (s : State) : Host.Outcome State Fault Refusal :=
  runWord (.tzeroP h t) (meaningTzeroP h t) s

/-- TSTS.P, on the follower half. -/
def meaningTstsP (h : Hdr) (d t : BitVec 7) (b : BitVec 6) : Meaning :=
  tileStoreShared h d t b true

/-- TSTS_P run (`meaningTstsP`). -/
def execTstsP (h : Hdr) (d t : BitVec 7) (b : BitVec 6) (s : State) : Host.Outcome State Fault Refusal :=
  runWord (.tstsP h d t b) (meaningTstsP h d t b) s

end Sys2Proof.Machine
end

