-- ==== Sys2Proof/Machine/Routing.lean ====
section
/-! DEFINITION. The routing family: ROUTE at issue and its pass (10 R222 to R225), and the expert slots: XSLOT and XREL
(10 R226 to R230). -/

namespace Sys2Proof.Machine

open Sys2Proof

/-! ## ROUTE at issue (10 R223, R225) -/

/-- A route descriptor with its score map. -/
structure RouteDesc where
  map : BitVec 1024
  space : BitVec 2
  cap : Nat
  lists : Nat
  weights : Nat
  hist : Nat
  deriving DecidableEq, Repr, Inhabited

/-- The experts of a score map. -/
def routeExperts (m : BitVec 1024) : Nat := tmExt m 0

/-- The tokens of a score map. -/
def routeTokens (m : BitVec 1024) : Nat := tmExt m 1

/-- The scores as an endpoint: the map's box is ignored, and every element is read, token by token (10 R223). -/
def routeScores (m : BitVec 1024) : Endpoint :=
  .box (BitVec.ofNat 1024 (putBitsN (putBitsN m.toNat 704 16 (tmExt m 0)) 720 16 (tmExt m 1))) [0, 0]

/-- The route descriptor read from its five cells (10 Table 10-8), with the map `m` that it names; `none` when a field or
the map breaks R223. -/
def parseRoute (m : BitVec 1024) (ws : List Word) : Option RouteDesc :=
  let w0 := wordAt ws 0
  if 2 ^ 10 ≤ w0 || bitsN w0 8 2 < 2 || 2 ^ 16 ≤ wordAt ws 1 || tmRank m ≠ 2 || tmFmt m ≠ 0 ||
      tmExt m 0 < 1 || 1024 < tmExt m 0 || tmExt m 1 < 1 || 65535 < tmExt m 1 then none
  else
    some { map := m, space := BitVec.ofNat 2 (bitsN w0 8 2) - 1, cap := wordAt ws 1, lists := wordAt ws 2,
           weights := wordAt ws 3, hist := wordAt ws 4 }

/-- The map that a route descriptor names. -/
def Context.routeMap (c : Context) (ws : List Word) : BitVec 1024 := c.tmap (bitsN (wordAt ws 0) 0 8)

/-- A destination of a pass. -/
def routeDest (space : BitVec 2) (addr align n : Nat) : Reach :=
  { space := space, addr := addr, align := align, range := if n = 0 then none else some (addr, n), write := true }

/-- The ranges of a pass: scores, lists, weights, histogram. -/
def RouteDesc.reaches (r : RouteDesc) : List Reach :=
  let e := routeExperts r.map
  [(routeScores r.map).reach false, routeDest r.space r.lists 2 (2 * r.cap * e),
   routeDest r.space r.weights 4 (4 * r.cap * e), routeDest r.space r.hist 4 (4 * (e + 1))]

/-- ROUTE (10 R225). -/
def meaningRoute (h : Hdr) (d a : BitVec 7) (t : RouteTail) : Meaning :=
  let words (v : View) (act : Word) : List Word := v.cellWords act (h.a a) 5
  { spans := [span (h.a a) 160, span (h.d d) 64]
    dests := [span (h.d d) 64]
    once := true
    operands := fun v act =>
      if !v.cellsU (h.a a) 5 then .illegal
      else
        match parseRoute (v.ctx.routeMap (words v act)) (words v act) with
        | none => .illegal
        | some r =>
          let ps := v.reachPlaces r.reaches
          Check.seq [v.reachCheck r.reaches, v.tailCheck t.bq t.boff, ownOverlap (fun _ _ => true) ps, v.lockRoom ps]
    effect := fun v act s =>
      let ws := words v act
      match parseRoute (v.ctx.routeMap ws) ws with
      | none => .ok s
      | some r =>
        s.issueRequest v h (h.d d)
          (v.newRequest (tailObject t.bq t.boff) ws (.route r.map ws (t.km1.toNat + 1) (t.dm1.toNat + 1)))
          (v.reachPlaces r.reaches) false }

/-- ROUTE run (`meaningRoute`). -/
def execRoute (h : Hdr) (d a : BitVec 7) (t : RouteTail) (s : State) : Host.Outcome State Fault Refusal :=
  runWord (.route h d a t) (meaningRoute h d a t) s

/-! ## The pass (10 R224) -/

/-- Whether a score ranks above another: a NaN below every number, equal scores by the lower expert. -/
def ranksAbove (x y : Nat × Val) : Bool :=
  if x.2.isNan then y.2.isNan && decide (x.1 < y.1)
  else if y.2.isNan then true
  else
    match cmpVal x.2 y.2 with
    | .gt => true
    | .lt => false
    | .eq => decide (x.1 < y.1)

/-- A ranked list with one more expert. -/
def rankInsert (x : Nat × Val) : List (Nat × Val) → List (Nat × Val)
  | [] => [x]
  | y :: t => if ranksAbove x y then x :: y :: t else y :: rankInsert x t

/-- The experts of a token in rank order. -/
def rankScores (scores : List Nat) : List Nat :=
  ((List.range scores.length).foldl (fun l e =>
    rankInsert (e, (FloatFmt.bin fmtF32).value (scores.getD e 0)) l) []).map Prod.fst

/-- A token's walk: the experts held with their list positions, in rank order, and the counts. -/
def routeWalk (k cap : Nat) : List Nat → List (Nat × Nat) → List Nat → List (Nat × Nat) × List Nat
  | [], held, cnt => (held, cnt)
  | e :: rest, held, cnt =>
    if held.length = k then (held, cnt)
    else if cnt.getD e 0 < cap then
      routeWalk k cap rest (held ++ [(e, cnt.getD e 0)]) (modAt cnt e (· + 1))
    else routeWalk k cap rest held cnt

/-- The quotient of two f32 values, rounded once in RNE. -/
def divF32 (a b : Nat) : Nat :=
  let f := FloatFmt.bin fmtF32
  match f.value a, f.value b with
  | .num n1 m1 e1, .num n2 m2 e2 =>
    if m2 = 0 then f.nan
    else
      let q := m1 * 2 ^ 200 / m2
      let sticky := if m1 * 2 ^ 200 % m2 = 0 then 0 else 1
      (f.encode .rne (.num (n1 != n2) (2 * q + sticky) (e1 - e2 - 201))).1
  | .num n _ _, .inf m => (f.encode .rne (.num (n != m) 0 0)).1
  | _, _ => f.nan

/-- The weights of a token's held scores, in rank order. -/
def routeWeights (held : List Nat) : List Nat :=
  let f := FloatFmt.bin fmtF32
  let m := held.foldl (fun m s => (fminmax true f .rne (f.value m) (f.value s)).1) (held.headD 0)
  let us := held.map (fun s =>
    let x := (fmul f .rne (f.value (fsub f .rne (f.value s) (f.value m)).1) (f.value 0x3FB8AA3B)).1
    (specialFn .exp2 0 0 0 (BitVec.ofNat 32 x) f (f.value x)).1)
  let total := (fsum f .rne (us.map f.value)).1
  us.map (fun u => divF32 u total)

/-- What a pass has assigned so far: counts, and per assignment the expert, list position, token and weight. -/
structure RouteState where
  counts : List Nat
  dropped : Nat
  assigned : List (Nat × Nat × Nat × Nat)
  deriving DecidableEq, Repr, Inhabited

/-- The pass over one token. -/
def routeToken (k depth cap : Nat) (scores : List Nat) (t : Nat) (s : RouteState) : RouteState :=
  let w := routeWalk k cap ((rankScores scores).take depth) [] s.counts
  let ws := routeWeights (w.1.map (fun p => scores.getD p.1 0))
  { counts := w.2
    dropped := s.dropped + (k - w.1.length)
    assigned := s.assigned ++ (w.1.zip ws).map (fun p => (p.1.1, p.1.2, t, p.2)) }

/-- The pass over all tokens. -/
def routeAll (k depth cap e : Nat) (scores : List Nat) (tokens : Nat) : RouteState :=
  (List.range tokens).foldl (fun s t => routeToken k depth cap (slicePad 0 scores (t * e) e) t s)
    { counts := List.replicate e 0, dropped := 0, assigned := [] }

/-- The assignment of a list slot. -/
def RouteState.slot (s : RouteState) (e pos : Nat) : Option (Nat × Nat) :=
  (s.assigned.find? (fun x => x.1 == e && x.2.1 == pos)).map (fun x => x.2.2)

/-- The device with bytes written from an address of a space on. -/
def Device.putList (d : Device) (sp : Space) (a : Nat) : List (BitVec 8) → Device
  | [] => d
  | b :: t => (d.putNum sp a 1 b.toNat).putList sp (a + 1) t

/-- The device with a destination of a pass written. -/
def Device.putRoute (d : Device) (r : Request) (w : Workgroup) (space : BitVec 2) (addr : Nat) (bytes : List (BitVec 8)) :
    Device :=
  match d.resolve r.die w r.core space addr true r.leaves with
  | .ok (p, d1) => (d1.settle p.space p.addr bytes.length true).putList p.space p.addr bytes
  | .error _ => d

/-- Reads `n` scores of a pass. -/
def Burst.scores (b : Burst) (r : Request) (w : Workgroup) (e : Endpoint) :
    List Nat → Except EngineFault (List Nat × Burst)
  | [] => .ok ([], b)
  | i :: rest =>
    match b.read r w e i with
    | .error f => .error f
    | .ok (x, b1) =>
      match b1.scores r w e rest with
      | .error f => .error f
      | .ok (l, b2) => .ok (x :: l, b2)

/-- A routing pass, whole: it parks on a translation fault, else every destination is written and the request retires. -/
def Device.routePass (d : Device) (r : Request) (w : Workgroup) (q : RouteDesc) (k depth : Nat) : Device :=
  let e := routeExperts q.map
  let n := routeTokens q.map
  match Burst.scores { dev := d, reads := [], writes := [] } r w (routeScores q.map) (List.range (e * n)) with
  | .error f => d.engineFault r f
  | .ok (scores, b) =>
    let s := routeAll k (min depth e) q.cap e scores n
    let places := (List.range e).flatMap (fun x => (List.range q.cap).map (fun p => s.slot x p))
    let lists := places.flatMap (fun p => natToBytes (match p with | some a => a.1 | none => 0xFFFF) 2)
    let weights := places.flatMap (fun p => natToBytes (match p with | some a => a.2 | none => 0) 4)
    let hist := (s.counts ++ [s.dropped]).flatMap (fun c => natToBytes c 4)
    let d1 := ((b.dev.putRoute r w q.space q.lists lists).putRoute r w q.space q.weights weights).putRoute r w q.space
      q.hist hist
    let seen (addr m : Nat) : List Watched :=
      match d1.resolve r.die w r.core q.space addr true r.leaves with
      | .ok (p, _) => [watchedAt q.space false p addr m]
      | .error _ => []
    let d2 := d1.accounted r b.reads
      (seen q.lists lists.length ++ seen q.weights weights.length ++ seen q.hist hist.length)
      (lists.length + weights.length + hist.length)
    (d2.modRequest r.id (fun x => { x with done := 1, fails := 0 })).retireRequest { r with done := 1 }

/-- ROUTE_PASS_RETIRE: the pass of a routing request in its queue. A pass whose record a log or replay holds back only
retires. -/
def execRoutePassRetire (req : Nat) (s : State) : Host.Outcome State Fault Refusal :=
  match s.dev.request req with
  | some r =>
    match r.work, s.dev.wg r.wg with
    | .route m ws k depth, some w =>
      match parseRoute m ws with
      | none => .next s
      | some q =>
        if !s.dev.canServe r then .next s
        else if r.done = 0 then .next { s with dev := s.dev.routePass r w q k depth }
        else .next { s with dev := s.dev.retireRequest r }
    | _, _ => .next s
  | none => .next s

/-! ## Expert slots (10 R226 to R230) -/

/-- An invalid expert slot. -/
def ExpertSlot.free : ExpertSlot := { valid := false, layer := 0, expert := 0, pins := 0 }

/-- The slots of a die's expert-slot table; `none` when the plan declares none for that die, whatever it declares for another
(log entry 89). -/
def Context.slots (c : Context) (die : Nat) : Option (List ExpertSlot) :=
  (c.region 9 die).map (fun r => takePad ExpertSlot.free (tableGet [] c.experts die) (r.size / 16))

/-- The layer-order table of a die, in execution order. -/
def Device.layerOrder (d : Device) (c : Context) (die : Nat) : List Nat :=
  match c.region 8 die with
  | some r => (List.range (r.size / 2)).map (fun j => Memory.num d.spad (2 ^ 27 * die + r.base + 2 * j) 2)
  | none => []

/-- The distance to a layer's next use, `none` when infinite (10 R228). -/
def layerDist (order : List Nat) (p layer : Nat) : Option Nat :=
  (List.range order.length).find? (fun j => order.getD ((p + j) % order.length) 0 == layer)

/-- Whether a distance is at least another; none is infinite. -/
def distGe (a b : Option Nat) : Bool :=
  match a, b with
  | none, _ => true
  | some _, none => false
  | some x, some y => decide (y ≤ x)

/-- The unpinned slot of greatest distance among some slots, ties to the highest. -/
def evictSlot (slots : List ExpertSlot) (dist : Nat → Option Nat) : Option Nat :=
  (List.range slots.length).foldl (fun best j =>
    let s := slots.getD j ExpertSlot.free
    if !s.valid || s.pins ≠ 0 then best
    else
      match best with
      | none => some j
      | some b => if distGe (dist s.layer.toNat) (dist (slots.getD b ExpertSlot.free).layer.toNat) then some j else best)
    none

/-- The slot that a key takes and the status of Table 10-11. -/
def chooseSlot (slots : List ExpertSlot) (dist : Nat → Option Nat) (layer expert : BitVec 16) : Nat × Nat :=
  let at_ (p : ExpertSlot → Bool) : Option Nat := (List.range slots.length).find? (fun j => p (slots.getD j ExpertSlot.free))
  match at_ (fun s => s.valid && s.layer == layer && s.expert == expert) with
  | some j => (j, 0)
  | none =>
    match at_ (fun s => !s.valid) with
    | some j => (j, 1)
    | none =>
      match evictSlot slots dist with
      | some j => (j, 2)
      | none => (0, 3)

/-- What XSLOT chooses in a device for the issuing group's die, with the slots as they stand there. -/
def View.xslot (v : View) (d : Device) (key : Nat) : Option (Nat × Nat × List ExpertSlot) :=
  let die := (dieOf v.grp.core).toNat
  let c := d.ctx v.c
  match c.slots die with
  | none => none
  | some slots =>
    let order := d.layerOrder v.ctx die
    let r := chooseSlot slots (layerDist order (v.ctx.layer.toNat % order.length)) (BitVec.ofNat 16 (key / 2 ^ 16))
      (BitVec.ofNat 16 key)
    some (r.1, r.2, slots)

/-- The arrival of XSLOT and XREL at the Clasp engine of the issuing die (10 R229). -/
def claspArrival (h : Hdr) (vs : List View) : List Arrival :=
  match vs with
  | v :: _ => unitArrival h 4 (unitClasp (dieOf v.grp.core)) vs
  | [] => []

/-- XSLOT (10 R228). -/
def meaningXslot (h : Hdr) (d a : BitVec 7) : Meaning :=
  let key (v : View) (act : Word) : Nat := v.readLowest act (h.a a) 32
  { spans := [span (h.a a) 32, span (h.d d) 32]
    dests := [span (h.d d) 32]
    once := true
    operands := fun v act => Check.seq
      [ Check.need (v.isU (h.a a) 32)
      , match v.xslot v.dev (key v act) with
        | none => .illegal
        | some (j, st, slots) => Check.need (st == 3 || (slots.getD j ExpertSlot.free).pins != 0xFFFF || st == 1) ]
    arrives := claspArrival h
    records := true
    effect := fun v act s =>
        let d1 := s.dev
        match v.xslot d1 (key v act) with
        | none => .ok s
        | some (j, st, slots) =>
          let k : Word := BitVec.ofNat 32 (key v act)
          let taken (x : ExpertSlot) : ExpertSlot :=
            { valid := true, layer := k.extractLsb' 16 16, expert := k.extractLsb' 0 16,
              pins := (if st = 0 then x.pins else 0) + 1 }
          let d2 := if st = 3 then d1 else d1.modCtx v.c (fun c => { c with
            experts := tableSet c.experts (dieOf v.grp.core).toNat (modAt slots j taken) })
          .ok (State.writeOne { s with dev := d2 } v h (h.d d) 32 (j + st * 2 ^ 8)) }

/-- XSLOT run (`meaningXslot`). -/
def execXslot (h : Hdr) (d a : BitVec 7) (s : State) : Host.Outcome State Fault Refusal :=
  runWord (.xslot h d a) (meaningXslot h d a) s

/-- XREL (10 R229). -/
def meaningXrel (h : Hdr) (a : BitVec 7) : Meaning :=
  let slot (v : View) (act : Word) : Nat := v.readLowest act (h.a a) 32
  { spans := [span (h.a a) 32]
    once := true
    operands := fun v act => Check.seq
      [ Check.need (v.isU (h.a a) 32)
      , match v.ctx.slots (dieOf v.grp.core).toNat with
        | none => .illegal
        | some l =>
          let x := l.getD (slot v act) ExpertSlot.free
          Check.need (decide (slot v act < l.length) && x.valid && x.pins != 0) ]
    arrives := claspArrival h
    records := true
    effect := fun v act s =>
        let d1 := s.dev
        match (d1.ctx v.c).slots (dieOf v.grp.core).toNat with
        | none => .ok s
        | some l =>
          .ok { s with dev := d1.modCtx v.c (fun c => { c with
            experts := tableSet c.experts (dieOf v.grp.core).toNat
              (modAt l (slot v act) (fun x => { x with pins := x.pins - 1 })) }) } }

/-- XREL run (`meaningXrel`). -/
def execXrel (h : Hdr) (a : BitVec 7) (s : State) : Host.Outcome State Fault Refusal :=
  runWord (.xrel h a) (meaningXrel h a) s

end Sys2Proof.Machine
end

