-- ==== Sys2Proof/Machine/Sequencer.lean ====
section
/-! DEFINITION. The sequencer family (06 R130 to R147; 07 R154 to R169): the automaton's lookups, NEXT with its splits,
stack and merges, SPAN, the terminators, ELECT, SLEEP, YIELD, the mask instructions, GATE and GRET. -/

namespace Sys2Proof.Machine

open Sys2Proof

/-! ## The automaton (06 R130 to R132) -/

/-- A list of blocks with one inserted, strictly increasing. -/
def insertBlock (b : BitVec 12) : List (BitVec 12) → List (BitVec 12)
  | [] => [b]
  | c :: t => if b = c then c :: t else if b.toNat < c.toNat then b :: c :: t else c :: insertBlock b t

/-- The sorted set of some blocks. -/
def blockSet (l : List (BitVec 12)) : List (BitVec 12) := l.foldl (fun s b => insertBlock b s) []

/-- The hash of a set (06 R132). -/
def setHash (x : List (BitVec 12)) : Nat := x.foldl (fun hv b => (hv * 31 + b.toNat + 1) % 2 ^ 32) 0

/-- The probes of the set table from an index, at most the given number. -/
def Kernel.probe (k : Kernel) (x : List (BitVec 12)) : Nat → Nat → Option (BitVec 12)
  | _, 0 => none
  | idx, n + 1 =>
    match k.sets.getD idx none with
    | none => none
    | some st =>
      if (match k.states[st.toNat]? with | some r => r.set == x | none => false) then some st
      else k.probe x ((idx + 1) % k.sets.length) n

/-- The singleton state of a block (06 R130). -/
def Kernel.single (k : Kernel) (b : BitVec 12) : BitVec 12 :=
  match k.blocks[b.toNat]? with
  | some e => e.single
  | none => 0

/-- The fallthrough of a block (06 R130). -/
def Kernel.fall (k : Kernel) (b : BitVec 12) : BitVec 12 :=
  match k.blocks[b.toNat]? with
  | some e => e.fall
  | none => b + 1

/-- The state that holds a set, if the automaton has one (06 R132). -/
def Kernel.lookup (k : Kernel) (x : List (BitVec 12)) : Option (BitVec 12) :=
  match x with
  | [] => none
  | [b] => some (k.single b)
  | _ => if k.sets.length = 0 then none else k.probe x (setHash x % k.sets.length) k.sets.length

/-! ## The sequencer of a group as NEXT sees it

In width mode 64 the lanes of the upper hardware group are lanes 32 to 63 (16 R281); in mode 16 the sequencer is that of
one half (16 R280). -/

/-- A slot with its masks over all the lanes of the sequencer. -/
structure SeqSlot where
  base : Slot
  mask : Nat
  moved : Nat
  deriving DecidableEq, Repr, Inhabited

/-- The sequencer state; `own` is the slot of a half in mode 16, none otherwise. -/
structure Seq where
  own : Option Bool
  lanes : Nat
  slot0 : Option SeqSlot
  slot1 : Option SeqSlot
  parked : Nat
  exited : Nat
  lbr : List (BitVec 12)
  depth : Nat
  alt : Bool
  high : List Word
  retired : Bool
  deriving DecidableEq, Repr, Inhabited

/-- How NEXT fails: a check, or a context fault. -/
inductive SeqFail where
  | check (c : Check)
  | fault (f : CtxFault)
  deriving DecidableEq, Repr, Inhabited

/-- The lanes of a mask. -/
def Seq.lanesIn (q : Seq) (m : Nat) : List Nat := (List.range q.lanes).filter (bitN m)

/-- The blocks of the lanes of a mask, sorted. -/
def Seq.setOf (q : Seq) (m : Nat) : List (BitVec 12) := blockSet ((q.lanesIn m).map (fun i => q.lbr.getD i 0))

/-- The lanes of a mask whose block is in a list. -/
def Seq.inBlocks (q : Seq) (m : Nat) (bs : List (BitVec 12)) : Nat :=
  (q.lanesIn m).foldl (fun acc i => if bs.contains (q.lbr.getD i 0) then acc + 2 ^ i else acc) 0

/-- A mask without some lanes. -/
def without (m x : Nat) : Nat := m - Nat.land m x

/-- A slot of the sequencer. -/
def Seq.slot (q : Seq) (n : Bool) : Option SeqSlot := if n then q.slot1 else q.slot0

/-- The sequencer with a slot replaced. -/
def Seq.setSlot (q : Seq) (n : Bool) (s : Option SeqSlot) : Seq := if n then { q with slot1 := s } else { q with slot0 := s }

/-- A slot that takes a state at address 0 with an empty moved mask. -/
def SeqSlot.take (state : BitVec 12) (mask : Nat) (join : Option (BitVec 12)) : Option SeqSlot :=
  some { base := Slot.start state 0 join, mask := mask, moved := 0 }

/-- Parks the lanes of a mask whose block is the join; the mask that is left. -/
def Seq.park (q : Seq) (m : Nat) (join : Option (BitVec 12)) : Seq × Nat :=
  match join with
  | none => (q, m)
  | some j =>
    let at_ := q.inBlocks m [j]
    ({ q with parked := Nat.lor q.parked at_ }, without m at_)

/-! ## The divergence stack (06 R139, R140) -/

/-- Pushes an entry for some lanes; DSTACK when the stack is full. -/
def Seq.push (v : View) (e : Word → StackEntry) (mask : Nat) (q : Seq) (d : Device) : Except SeqFail (Seq × Device) :=
  if v.kern.dstack ≤ q.depth then .error (.check (.fail causeDstack q.depth))
  else
    match d.mainWrite (dieOf v.grp.core) v.c (v.entryAddr q.depth) (e (BitVec.ofNat 32 mask)).bytes with
    | .error f => .error (.fault f)
    | .ok d1 =>
      .ok ({ q with depth := q.depth + 1, high := takePad 0 q.high q.depth ++ [BitVec.ofNat 32 (mask / 2 ^ 32)] }, d1)

/-- Reads the top entry, with its lanes. -/
def Seq.top (v : View) (q : Seq) (d : Device) : Except SeqFail (StackEntry × Nat × Device) :=
  let j := q.depth - 1
  match d.mainRead (dieOf v.grp.core) v.c (v.entryAddr j) 32 with
  | .error f => .error (.fault f)
  | .ok (b, d1) =>
    match StackEntry.ofBytes b with
    | none => .error (.fault (integrityFault v.grp.core (v.entryAddr j)))
    | some e =>
      let low := match e with | .work _ m => m.toNat | .merge _ _ m => m.toNat
      .ok (e, low + (q.high.getD j 0).toNat * 2 ^ 32, d1)

/-- The sequencer with the top entry gone. -/
def Seq.pop (q : Seq) : Seq := { q with depth := q.depth - 1, high := q.high.take (q.depth - 1) }

/-! ## Splitting (06 R138) -/

/-- Deals out the lanes of an unmapped set X = b1 < b2 < ... with n ≥ 2, for slot `s` under join `j`. -/
def Seq.deal (v : View) (s : Bool) (mask : Nat) (j : Option (BitVec 12)) (q : Seq) (d : Device) :
    Except SeqFail (Seq × Device) :=
  match q.setOf mask with
  | b1 :: b2 :: _ =>
    let first := q.inBlocks mask [b1]
    let rest := without mask first
    let otherEmpty := q.own.isNone && (q.slot (!s)).isNone
    if otherEmpty then
      let q0 := { q with slot0 := SeqSlot.take (v.auto.single b1) first j, alt := false }
      match v.auto.lookup (q.setOf rest) with
      | some st => .ok ({ q0 with slot1 := SeqSlot.take st rest j }, d)
      | none =>
        let second := q.inBlocks rest [b2]
        Seq.push v (StackEntry.work j) (without rest second)
          { q0 with slot1 := SeqSlot.take (v.auto.single b2) second j } d
    else
      Seq.push v (StackEntry.work j) rest (q.setSlot s (SeqSlot.take (v.auto.single b1) first j)) d
  | _ => .ok (q, d)

/-- Resolves the lanes of a mask for slot `s` under join `j`: parked at the join, then the state of their set, or the
split when no state holds it; the slot is empty when no lane is left. -/
def Seq.resolve (v : View) (s : Bool) (mask : Nat) (j : Option (BitVec 12)) (q : Seq) (d : Device) :
    Except SeqFail (Seq × Device) :=
  let p := q.park mask j
  if p.2 = 0 then .ok (p.1.setSlot s none, d)
  else
    match v.auto.lookup (p.1.setOf p.2) with
    | some st => .ok (p.1.setSlot s (SeqSlot.take st p.2 j), d)
    | none => Seq.deal v s p.2 j p.1 d

/-- The split of slot `s`, whose mask and join are given, on an unmapped set (06 R138). -/
def Seq.split (v : View) (s : Bool) (sl : SeqSlot) (mask : Nat) (q : Seq) (d : Device) :
    Except SeqFail (Seq × Device) :=
  let declared := match v.auto.states[sl.base.state.toNat]? with | some r => r.join | none => none
  match declared with
  | some j =>
    if sl.base.join = some j then Seq.resolve v s mask (some j) q d
    else
      match Seq.push v (StackEntry.merge j sl.base.join) mask q d with
      | .error e => .error e
      | .ok (q1, d1) => Seq.resolve v s mask (some j) q1 d1
  | none => Seq.resolve v s mask sl.base.join q d

/-! ## Both slots empty (06 R141) -/

/-- Whether the sequencer's slots are empty: its own slot in mode 16. -/
def Seq.idle (q : Seq) : Bool :=
  match q.own with
  | some s => (q.slot s).isNone
  | none => q.slot0.isNone && q.slot1.isNone

/-- Pops a second work entry into slot 1, when its join is that of the first. -/
def Seq.popSecond (v : View) (j : Option (BitVec 12)) (floor : Nat) (q : Seq) (d : Device) :
    Except SeqFail (Seq × Device) :=
  if q.own.isSome || q.slot1.isSome || q.depth ≤ floor then .ok (q, d)
  else
    match Seq.top v q d with
    | .error e => .error e
    | .ok (.work j2 _, mask, d1) =>
      if j2 = j then Seq.resolve v true mask j { q.pop with alt := false } d1 else .ok (q, d1)
    | .ok (.merge _ _ _, _, d1) => .ok (q, d1)

/-- Acts on the top of the stack while the slots are empty; `floor` is the depth below which lies a gate frame, when
the group is in a library. -/
def Seq.act (v : View) (floor : Option Nat) : Nat → Seq → Device → Except SeqFail (Seq × Device)
  | 0, q, d => .ok (q, d)
  | n + 1, q, d =>
    if !q.idle then .ok (q, d)
    else if floor = some q.depth then .error (.check .illegal)
    else if q.depth = 0 then .ok ({ q with retired := true }, d)
    else
      let s := q.own.getD false
      match Seq.top v q d with
      | .error e => .error e
      | .ok (.work j _, mask, d1) =>
        match Seq.resolve v s mask j q.pop d1 with
        | .error e => .error e
        | .ok (q2, d2) =>
          if q2.idle then Seq.act v floor n q2 d2 else Seq.popSecond v j (floor.getD 0) q2 d2
      | .ok (.merge j o _, mask, d1) =>
        let back := Nat.land q.parked mask
        let q1 := { q.pop with parked := without q.parked back }
        if back = 0 then Seq.act v floor n q1 d1
        else .ok (q1.setSlot s (SeqSlot.take (v.auto.single j) back o), d1)

/-! ## NEXT (06 R137) -/

/-- The successor that the direct path gives, when every lane's block is a candidate: the map entry for the pattern, or
none when it is unmapped. -/
def StateRec.direct (r : StateRec) (blocks : List (BitVec 12)) : Option (Option (BitVec 12)) :=
  if blocks.all (fun b => r.cands.contains b) then
    let pattern := (List.range r.cands.length).foldl (fun acc j =>
      if blocks.contains (r.cands.getD j 0) then acc + 2 ^ j else acc) 0
    some ((r.succ.find? (fun p => p.1 == pattern)).map Prod.snd)
  else none

/-- NEXT in slot `s` (06 R137), and the rule of 06 R141 when the slots are then empty. -/
def Seq.next (v : View) (s : Bool) (floor : Option Nat) (q : Seq) (d : Device) : Except SeqFail (Seq × Device) :=
  match q.slot s with
  | none => .ok (q, d)
  | some sl =>
    let live := without sl.mask q.exited
    let p := q.park live sl.base.join
    let finish (r : Except SeqFail (Seq × Device)) : Except SeqFail (Seq × Device) :=
      match r with
      | .error e => .error e
      | .ok (q1, d1) => Seq.act v floor (q1.depth + 1) q1 d1
    if p.2 = 0 then finish (.ok (p.1.setSlot s none, d))
    else
      let x := p.1.setOf p.2
      let direct := match v.auto.states[sl.base.state.toNat]? with | some r => r.direct x | none => none
      match (match direct with | some r => r | none => v.auto.lookup x) with
      | some st => .ok (p.1.setSlot s (SeqSlot.take st p.2 sl.base.join), d)
      | none => finish (Seq.split v s sl p.2 p.1 d)

/-! ## From and to the hardware groups -/

/-- A mask over the lanes of one or two hardware groups. -/
def joinMasks (a b : Word) : Nat := a.toNat + b.toNat * 2 ^ 32

/-- The sequencer of some views: one hardware group, one half, or a pair. -/
def seqOf (vs : List View) : Seq :=
  match vs with
  | [] => default
  | v :: rest =>
    let up : Option Group := match rest with | u :: _ => some u.grp | [] => none
    let upMask (f : Group → Word) : Word := match up with | some g => f g | none => 0
    let slotOf_ (n : Bool) : Option SeqSlot :=
      if v.kern.mode16 && n != v.half then none
      else (v.grp.slot n).map (fun s =>
        { base := s, mask := joinMasks s.mask (upMask (fun g => match g.slot n with | some x => x.mask | none => 0)),
          moved := joinMasks s.moved (upMask (fun g => match g.slot n with | some x => x.moved | none => 0)) })
    { own := if v.kern.mode16 then some v.half else none
      lanes := if up.isSome then 64 else 32
      slot0 := slotOf_ false
      slot1 := slotOf_ true
      parked := joinMasks (v.grp.parked &&& v.frameLanes) (upMask (fun g => g.parked))
      exited := joinMasks (v.grp.exited &&& v.frameLanes) (upMask (fun g => g.exited))
      lbr := takePad 0 v.grp.lbr 32 ++ (match up with | some g => takePad 0 g.lbr 32 | none => [])
      depth := v.agent.depth
      alt := v.grp.alt
      high := match up with | some g => g.entryMasks | none => []
      retired := false }

/-- The share of a hardware group in a slot: its 32 lanes from lane `base`. -/
def SeqSlot.share (s : SeqSlot) (base : Nat) : Slot :=
  { s.base with mask := BitVec.ofNat 32 (s.mask / 2 ^ base), moved := BitVec.ofNat 32 (s.moved / 2 ^ base) }

/-- A hardware group with its share of a sequencer. -/
def Group.withSeq (g : Group) (q : Seq) (base : Nat) (half : Bool) (lanes : Word) : Group :=
  let share (s : Option SeqSlot) : Option Slot := s.map (fun s => s.share base)
  let g1 := { g with
    parked := (g.parked &&& ~~~lanes) ||| (BitVec.ofNat 32 (q.parked / 2 ^ base) &&& lanes)
    exited := (g.exited &&& ~~~lanes) ||| (BitVec.ofNat 32 (q.exited / 2 ^ base) &&& lanes)
    entryMasks := if base = 0 then g.entryMasks else q.high }
  let g2 := match q.own with
    | some s => g1.setSlot s (share (q.slot s))
    | none => { g1 with slot0 := share q.slot0, slot1 := share q.slot1, alt := q.alt }
  g2.modAgent half (fun a => { a with depth := q.depth })

/-- The device with a sequencer written back to its hardware groups. -/
def Device.putSeq (d : Device) (vs : List View) (q : Seq) : Device :=
  match vs with
  | [] => d
  | v :: rest =>
    let d1 := d.modGroup v.wg.uid v.g (fun g => g.withSeq q 0 v.half v.frameLanes)
    match rest with
    | u :: _ => d1.modGroup u.wg.uid u.g (fun g => g.withSeq q 32 false 0xFFFFFFFF)
    | [] => d1

/-! ## Retirement (06 R141) -/

/-- Whether a hardware group has nothing left to run. -/
def Group.finished (g : Group) : Bool := g.slot0.isNone && g.slot1.isNone && g.agent0.depth = 0 && g.agent1.depth = 0

/-- Releases what the last exit of a workgroup's groups releases: its barrier locks, and the accumulators of its shared
memory (08 Table 08-5; 09 R198). -/
def Device.lastExit (d : Device) (uid : Nat) : Device :=
  match d.wg uid with
  | none => d
  | some w =>
    if w.groups.all (fun g => g.retired) then
      { d with
        locks := d.locks.filter (fun l => match l.owner with | .object u _ => u != uid | _ => true)
        accs := d.accs.filter (fun a => match a.space with | .shared u _ => u != uid | _ => true) }
    else d

/-- A hardware group that has finished retires. -/
def Device.retireGroup (d : Device) (uid g : Nat) : Device :=
  (d.modGroup uid g (fun x => if x.finished then { x with retired := true } else x)).lastExit uid

/-- The device after NEXT of some views, or how it fails. -/
def runNext (vs : List View) (d : Device) : Except SeqFail Device :=
  match vs with
  | [] => .ok d
  | v :: _ =>
    let floor := v.agent.library.map (fun l => l.depth + 7)
    match Seq.next v v.iss.slot floor (seqOf vs) d with
    | .error e => .error e
    | .ok (q, d1) =>
      let d2 := d1.putSeq vs q
      .ok (if q.retired then vs.foldl (fun d u => d.retireGroup u.wg.uid u.g) d2 else d2)

/-- NEXT (07 R160): its checks are those of the pushes it makes; it acts once for a pair. -/
def meaningNext (_ : Hdr) : Meaning :=
  { always := true
    once := true
    operands := fun v _ =>
      match runNext (viewsOf v.dev v.iss) v.dev with
      | .error (.check c) => c
      | _ => .ok
    effect := fun v _ s =>
      match runNext (viewsOf v.dev v.iss) s.dev with
      | .error (.fault f) => .error f
      | .error (.check _) => .ok s
      | .ok d => .ok { s with dev := d } }

/-- NEXT run (`meaningNext`). -/
def execNext (h : Hdr) (s : State) : Host.Outcome State Fault Refusal :=
  runWord (.next h) (meaningNext h) s

/-! ## SPAN and the terminators (07 R157 to R159) -/

/-- SPAN: a block of the state's set, or ILLEGAL (07 R155, R157). -/
def meaningSpan (h : Hdr) (k : BitVec 12) : Meaning :=
  { always := true
    illegal := fun v => decide (v.auto.blocks.length ≤ k.toNat) ||
      (match v.auto.states[v.slot.state.toNat]? with | some r => !r.set.contains k | none => true)
    effect := fun v _ s => .ok (s.modSlot v (fun sl => { sl with span := some (spanInfo h k), afterTerm := false })) }

/-- SPAN run (`meaningSpan`). -/
def execSpan (h : Hdr) (k : BitVec 12) (s : State) : Host.Outcome State Fault Refusal :=
  runWord (.span h k) (meaningSpan h k) s

/-- A terminator (07 R158): in each active lane %lbr becomes what `f` gives and the lane has moved. With no active lane
only `afterTerm` changes, which is a matter of the position alone (07 R156). -/
def terminator (illegal : View → Bool) (operands : View → Word → Check) (spans : List (Nat × Nat)) (sdests : List Nat)
    (f : View → Nat → BitVec 12) (more : View → Word → Group → Group) : Meaning :=
  { spans := spans
    sdests := sdests
    illegal := illegal
    always := true
    operands := operands
    effect := fun v act s =>
      let s1 := s.modGroup v (fun g =>
        more v act { g with lbr := allLanes.map (fun i => if hasLane act i then f v i else g.lbr.getD i 0) })
      .ok (s1.modSlot v (fun sl => { sl with moved := sl.moved ||| act, afterTerm := true })) }

/-- Whether a block number is not one of the kernel's (07 R155). -/
def View.noBlock (v : View) (b : BitVec 12) : Bool := decide (v.auto.blocks.length ≤ b.toNat)

/-- ILLEGAL when the target of some active lane is not a block of the kernel. -/
def View.targetsOk (v : View) (act : Word) (f : Nat → Nat) : Check :=
  Check.need ((lanesOf act).all (fun i => decide (f i < v.auto.blocks.length)))

/-- JMP (07 Table 07-2). -/
def meaningJmp (_ : Hdr) (b : BitVec 12) : Meaning :=
  terminator (fun v => v.noBlock b) (fun _ _ => .ok) [] [] (fun _ _ => b) (fun _ _ g => g)

/-- JMP run (`meaningJmp`). -/
def execJmp (h : Hdr) (b : BitVec 12) (s : State) : Host.Outcome State Fault Refusal :=
  runWord (.jmp h b) (meaningJmp h b) s

/-- BR: the block where the lane's bit of `k`, negated by `n`, is 1; else the fallthrough (07 Table 07-2). -/
def meaningBr (_ : Hdr) (k : BitVec 3) (n : Bool) (b : BitVec 12) : Meaning :=
  terminator (fun v => v.noBlock b) (fun _ _ => .ok) [] []
    (fun v i => if hasLane (v.mask k) i != n then b else v.auto.fall (v.grp.lbr.getD i 0)) (fun _ _ g => g)

/-- BR run (`meaningBr`). -/
def execBr (h : Hdr) (k : BitVec 3) (n : Bool) (b : BitVec 12) (s : State) : Host.Outcome State Fault Refusal :=
  runWord (.br h k n b) (meaningBr h k n b) s

/-- BRX: the 12-bit target of each lane (07 Table 07-2). -/
def meaningBrx (h : Hdr) (s : BitVec 7) : Meaning :=
  terminator (fun _ => false) (fun v act => v.targetsOk act (fun i => v.read i (h.a s) 12)) [span (h.a s) 12] []
    (fun v i => BitVec.ofNat 12 (v.read i (h.a s) 12)) (fun _ _ g => g)

/-- BRX run (`meaningBrx`). -/
def execBrx (h : Hdr) (s : BitVec 7) (st : State) : Host.Outcome State Fault Refusal :=
  runWord (.brx h s) (meaningBrx h s) st

/-- CALL: %link takes the fallthrough (07 Table 07-2). -/
def meaningCall (_ : Hdr) (b : BitVec 12) : Meaning :=
  terminator (fun v => v.noBlock b) (fun _ _ => .ok) [] [2] (fun _ _ => b)
    (fun v act g => { g with
      link := allLanes.map (fun i => if hasLane act i then v.auto.fall (v.grp.lbr.getD i 0) else g.link.getD i 0) })

/-- CALL run (`meaningCall`). -/
def execCall (h : Hdr) (b : BitVec 12) (s : State) : Host.Outcome State Fault Refusal :=
  runWord (.call h b) (meaningCall h b) s

/-- RET: to %link, which must name a block (07 Table 07-2, R155). -/
def meaningRet (_ : Hdr) : Meaning :=
  terminator (fun _ => false) (fun v act => v.targetsOk act (fun i => (v.grp.link.getD i 0).toNat)) [] []
    (fun v i => v.grp.link.getD i 0) (fun _ _ g => g)

/-- RET run (`meaningRet`). -/
def execRet (h : Hdr) (s : State) : Host.Outcome State Fault Refusal :=
  runWord (.ret h) (meaningRet h) s

/-- EXIT: the exited bit; ILLEGAL at library privilege (07 R159; 06 R145). -/
def meaningExit (_ : Hdr) : Meaning :=
  terminator (fun v => v.library) (fun _ _ => .ok) [] [] (fun v i => v.grp.lbr.getD i 0)
    (fun _ act g => { g with exited := g.exited ||| act })

/-- EXIT run (`meaningExit`). -/
def execExit (h : Hdr) (s : State) : Host.Outcome State Fault Refusal :=
  runWord (.exit h) (meaningExit h) s

/-! ## ELECT, SLEEP and YIELD (07 R162 to R164) -/

/-- ELECT: the lowest active lane, or 0 (07 R162). -/
def meaningElect (_ : Hdr) (k : BitVec 3) : Meaning :=
  { always := true
    kdests := [k.toNat]
    effect := fun v act s =>
      .ok (s.setMask v k (match lowestLane act with | some i => BitVec.ofNat 32 (2 ^ i) | none => 0)) }

/-- ELECT run (`meaningElect`). -/
def execElect (h : Hdr) (k : BitVec 3) (s : State) : Host.Outcome State Fault Refusal :=
  runWord (.elect h k) (meaningElect h k) s

/-- SLEEP: the wake time is CYC plus the duration; one already reached leaves the slot awake (07 R163). -/
def meaningSleep (_ : Hdr) (d : BitVec 21) : Meaning :=
  { always := true
    once := true
    effect := fun v _ s =>
      .ok (s.modHomeSlot v (fun sl => { sl with
        wait := if d = 0 then sl.wait else .sleep
        wake := v.dev.cyc + BitVec.ofNat 64 d.toNat })) }

/-- SLEEP run (`meaningSleep`). -/
def execSleep (h : Hdr) (d : BitVec 21) (s : State) : Host.Outcome State Fault Refusal :=
  runWord (.sleep h d) (meaningSleep h d) s

/-- YIELD: the group is marked (07 R164). In width mode 16 the mark is the hardware group's, whichever half yields (log entry
87). -/
def meaningYield (_ : Hdr) : Meaning :=
  { always := true
    once := true
    effect := fun v _ s =>
      .ok { s with dev := s.dev.modGroup v.wg.uid v.home (fun g => { g with yielded := true }) } }

/-- YIELD run (`meaningYield`). -/
def execYield (h : Hdr) (s : State) : Host.Outcome State Fault Refusal :=
  runWord (.yield h) (meaningYield h) s

/-! ## Masks (07 R165, R166) -/

/-- A mask computed from masks: all 32 bits, whatever the active lanes. -/
def maskOp (d : BitVec 3) (f : View → Word) : Meaning :=
  { always := true
    kdests := [d.toNat]
    effect := fun v _ s => .ok (s.setMask v d (f v)) }

/-- KAND. -/
def meaningKand (_ : Hdr) (d a b : BitVec 3) : Meaning :=
  maskOp d (fun v => v.mask a &&& v.mask b)

/-- KAND run (`meaningKand`). -/
def execKand (h : Hdr) (d a b : BitVec 3) (s : State) : Host.Outcome State Fault Refusal :=
  runWord (.kand h d a b) (meaningKand h d a b) s

/-- KOR. -/
def meaningKor (_ : Hdr) (d a b : BitVec 3) : Meaning :=
  maskOp d (fun v => v.mask a ||| v.mask b)

/-- KOR run (`meaningKor`). -/
def execKor (h : Hdr) (d a b : BitVec 3) (s : State) : Host.Outcome State Fault Refusal :=
  runWord (.kor h d a b) (meaningKor h d a b) s

/-- KXOR. -/
def meaningKxor (_ : Hdr) (d a b : BitVec 3) : Meaning :=
  maskOp d (fun v => v.mask a ^^^ v.mask b)

/-- KXOR run (`meaningKxor`). -/
def execKxor (h : Hdr) (d a b : BitVec 3) (s : State) : Host.Outcome State Fault Refusal :=
  runWord (.kxor h d a b) (meaningKxor h d a b) s

/-- KNOT. -/
def meaningKnot (_ : Hdr) (d a : BitVec 3) : Meaning :=
  maskOp d (fun v => ~~~(v.mask a))

/-- KNOT run (`meaningKnot`). -/
def execKnot (h : Hdr) (d a : BitVec 3) (s : State) : Host.Outcome State Fault Refusal :=
  runWord (.knot h d a) (meaningKnot h d a) s

/-- KMOV of a mask. -/
def meaningKmovMask (_ : Hdr) (d a : BitVec 3) : Meaning :=
  maskOp d (fun v => v.mask a)

/-- KMOV_MASK run (`meaningKmovMask`). -/
def execKmovMask (h : Hdr) (d a : BitVec 3) (s : State) : Host.Outcome State Fault Refusal :=
  runWord (.kmovMask h d a) (meaningKmovMask h d a) s

/-- KMOV from a U cell (07 R166). -/
def meaningKmovFromCell (h : Hdr) (d : BitVec 3) (s : BitVec 7) : Meaning :=
  { maskOp d (fun v => BitVec.ofNat 32 (v.read 0 (h.a s) 32)) with
    spans := [span (h.a s) 32]
    operands := fun v _ => Check.need (v.isU (h.a s) 32) }

/-- KMOV_FROM_CELL run (`meaningKmovFromCell`). -/
def execKmovFromCell (h : Hdr) (d : BitVec 3) (s : BitVec 7) (st : State) : Host.Outcome State Fault Refusal :=
  runWord (.kmovFromCell h d s) (meaningKmovFromCell h d s) st

/-- A 32-bit value that every active lane receives, with result tag U. -/
def maskValue (s : Nat) (f : View → Nat) : Meaning :=
  { Meaning.lanewise [] s 32 (fun v _ => f v) (fun _ => .u) with always := true }

/-- KMOV to slices (07 R166). -/
def meaningKmovToSlices (h : Hdr) (a : BitVec 3) (s : BitVec 7) : Meaning :=
  maskValue (h.a s) (fun v => (v.mask a).toNat)

/-- KMOV_TO_SLICES run (`meaningKmovToSlices`). -/
def execKmovToSlices (h : Hdr) (a : BitVec 3) (s : BitVec 7) (st : State) : Host.Outcome State Fault Refusal :=
  runWord (.kmovToSlices h a s) (meaningKmovToSlices h a s) st

/-- KPOP (07 R166). -/
def meaningKpop (h : Hdr) (a : BitVec 3) (s : BitVec 7) : Meaning :=
  maskValue (h.a s) (fun v => popcountN (v.mask a).toNat 32)

/-- KPOP run (`meaningKpop`). -/
def execKpop (h : Hdr) (a : BitVec 3) (s : BitVec 7) (st : State) : Host.Outcome State Fault Refusal :=
  runWord (.kpop h a s) (meaningKpop h a s) st

/-! ## GATE and GRET (07 R167, R169) -/

/-- GATE: the GATE trap first, which the words and the gate table decide; then DSTACK; then the frame is pushed and the
library entered (07 R167). -/
def meaningGate (h : Hdr) (i : BitVec 8) : Meaning :=
  { once := true
    words := fun v => if v.library || i = 0 || (v.gateEntry i.toNat).isNone then .fail causeGate i.toNat else .ok
    operands := fun v _ => if v.kern.dstack < v.agent.depth + 7 then .fail causeDstack v.agent.depth else .ok
    effect := fun v _ s =>
      match v.gateEntry i.toNat with
      | none => .ok s
      | some e =>
        match enterLibrary s.dev (viewsOf v.dev v.iss) e v.iss.next (fun u => u.active h) with
        | .ok d => .ok { s with dev := d }
        | .error f => .error f }

/-- GATE run (`meaningGate`). -/
def execGate (h : Hdr) (i : BitVec 8) (s : State) : Host.Outcome State Fault Refusal :=
  runWord (.gate h i) (meaningGate h i) s

/-- GRET: ILLEGAL at user privilege or with the divergence unmerged; else the frame is restored (07 R169). -/
def meaningGret (_ : Hdr) : Meaning :=
  { always := true
    once := true
    illegal := fun v => !v.library
    operands := fun v _ => Check.need (!View.unmerged (viewsOf v.dev v.iss))
    effect := fun v _ s =>
      match restoreFrame s.dev (viewsOf v.dev v.iss) with
      | .ok d => .ok { s with dev := d }
      | .error f => .error f }

/-- GRET run (`meaningGret`). -/
def execGret (h : Hdr) (s : State) : Host.Outcome State Fault Refusal :=
  runWord (.gret h) (meaningGret h) s

end Sys2Proof.Machine
end

