-- ==== Sys2Proof/Machine/Launch.lean ====
section
/-! DEFINITION. Launch records and launch queues (15 R256 to R259): the checks of a record, those of 06 R128, and
entering a queue. -/

namespace Sys2Proof.Machine

open Sys2Proof

/-- A 64-byte launch record read (15 Table 15-3); `none` when it breaks the table by itself. -/
def launchOf (b : List (BitVec 8)) : Option LaunchRec :=
  let w := leAt b 0 4
  let t := leAt b 24 4
  let ext := [leAt b 8 4, leAt b 12 4, leAt b 16 4, leAt b 20 4]
  if bitsN w 12 20 ≠ 0 || bitsN w 6 2 ≠ 0 || (bitsN w 0 4 ≠ 1 && bitsN w 0 4 ≠ 2) || ext.any (· == 0) ||
      bitsN t 12 20 ≠ 0 || t = 0 || 3072 < t || leAt b 44 4 = 0 || leAt b 48 16 ≠ 0 then none
  else
    some { queue := bitsN w 8 4, prio := BitVec.ofNat 2 (bitsN w 4 2), op := BitVec.ofNat 4 w,
           handle := BitVec.ofNat 16 (leAt b 6 2), kernel := leAt b 4 2, ext := ext, threads := t,
           preds := (List.range 4).map (fun j => BitVec.ofNat 32 (leAt b (28 + 4 * j) 4)),
           tag := BitVec.ofNat 32 (leAt b 44 4) }

/-- The 64 bytes of a launch record. -/
def LaunchRec.bytes (r : LaunchRec) : List (BitVec 8) :=
  natToBytes (r.op.toNat + r.prio.toNat * 2 ^ 4 + r.queue * 2 ^ 8) 4 ++ natToBytes r.kernel 2 ++
    natToBytes r.handle.toNat 2 ++ (takePad 0 r.ext 4).flatMap (fun e => natToBytes e 4) ++ natToBytes r.threads 4 ++
    (takePad 0 r.preds 4).flatMap (fun p => natToBytes p.toNat 4) ++ natToBytes r.tag.toNat 4 ++ natToBytes 0 16

/-- The lanes of a group in a kernel's width mode (16 R280, R281). -/
def Kernel.lanesPerGroup (k : Kernel) : Nat := if k.mode16 then 16 else if k.mode64 then 64 else 32

/-- The group count of a workgroup of some threads (06 R128): mode 16 counts half-groups, and a paired group of mode 64
counts as two (16 R280, R281). -/
def Kernel.groupCount (k : Kernel) (threads : Nat) : Nat :=
  let n := (threads + k.lanesPerGroup - 1) / k.lanesPerGroup
  if k.mode64 then 2 * n else n

/-- The checks of 06 R128 on a launch of a kernel. -/
def Kernel.launchOk (k : Kernel) (r : LaunchRec) : Bool :=
  decide (k.groupCount r.threads ≤ 2 ^ k.widths.getD 0 0) && decide (k.groupCount r.threads ≤ 96) &&
    (List.range 4).all (fun j => decide (r.ext.getD j 1 ≤ 2 ^ k.widths.getD (j + 1) 0))

/-- Whether a launch is still live (15 R256). -/
def Launch.live (l : Launch) : Bool := l.state != .complete

/-- Whether a tag is live in a context (15 R256). -/
def Context.tagLive (c : Context) (tag : Word) : Bool :=
  c.launches.any (fun l => l.live && l.record.tag == tag)

/-- Enters an operation into its launch queue, behind every earlier one (15 R257). A completed operation of the same tag
is forgotten. The spec gives the launch queues no depth, so they never overflow (log entry 27). -/
def Context.enter (c : Context) (r : LaunchRec) (graph : Option Nat) (patch : Option (Nat × List (BitVec 8))) :
    Context :=
  { c with
    launches := c.launches.filter (fun l => l.live || l.record.tag != r.tag) ++
      [{ record := r, state := .waiting, taken := 0, order := c.nextOrder, graph := graph, patch := patch,
         inRing := false, ringAt := 0, readyAt := 0 }]
    nextOrder := c.nextOrder + 1 }

/-! ## Records posted in one CYC (18 R320) -/

/-- Whether a tag is live in a context, or will be once the records posted in this CYC have entered. -/
def Device.tagTaken (d : Device) (c : BitVec 6) (tag : Word) : Bool :=
  (d.ctx c).tagLive tag || d.posts.any (fun p => p.ctx == c && p.record.tag == tag)

/-- The refusal cases of a record that QPOST reads. -/
def Device.postOk (d : Device) (c : BitVec 6) (r : LaunchRec) : Bool :=
  r.op == 1 && !d.tagTaken c r.tag &&
    (match (d.ctx c).kernel r.handle r.kernel with
     | some k => k.launchOk r
     | none => false)

/-- The place of the group that posted a record: die, row, column, partition. -/
def Post.place (p : Post) : Nat := p.core.toNat * 32 + p.part.toNat

/-- A posted record put behind the sorted records that do not go after it. -/
def Post.insert (p : Post) : List Post → List Post
  | [] => [p]
  | q :: t => if q.place ≤ p.place then q :: Post.insert p t else p :: q :: t

/-- The end of a CYC: the records posted in it enter their queues in increasing place of their groups. -/
def Device.flushPosts (d : Device) : Device :=
  (d.posts.foldl (fun l p => p.insert l) []).foldl
    (fun d p => d.modCtx p.ctx (fun x => x.enter p.record none none)) { d with posts := [] }

end Sys2Proof.Machine
end

