-- ==== Sys2Proof/Machine/System.lean ====
section
/-! DEFINITION. The system family: TRAP and TRET (18 R310, R311) and the words of major 0x38 (18 R312 to R320): the
system registers, MARK, LOGW, BRK, ICINV, TLBINV and QPOST. -/

namespace Sys2Proof.Machine

open Sys2Proof

/-! ## TRAP and TRET -/

/-- ILLEGAL at user privilege, for the words of Table 18-2 marked "library" (18 R312). -/
def View.userMode (v : View) : Bool := !v.library

/-- TRAP: SWTRAP with the code when a lane is active (18 R310). -/
def meaningTrap (_ : Hdr) (k : BitVec 16) : Meaning :=
  { once := true
    operands := fun _ _ => .fail causeSwtrap k.toNat
    effect := fun _ _ s => .ok s }

/-- TRAP run (`meaningTrap`). -/
def execTrap (h : Hdr) (k : BitVec 16) (s : State) : Host.Outcome State Fault Refusal :=
  runWord (.trap h k) (meaningTrap h k) s

/-- The slot that TRET resumes: the state and address of the trap record (18 R311). -/
def Slot.resumeAt (s : Slot) (code : List Word) (r : TrapRec) : Slot :=
  let st := spanAt code r.resume.toNat
  { s with state := r.state, addr := r.resume, resume := r.resume, span := st.1, afterTerm := st.2 }

/-- The device after TRET: the frame restored as GRET does, then the resume point of the trap record in the slot it
names; an empty slot stays empty. -/
def tretDevice (d : Device) (vs : List View) (v : View) : Except CtxFault Device :=
  match restoreFrame d vs with
  | .error f => .error f
  | .ok d1 =>
    let r := v.agent.trap
    .ok (vs.foldl (fun d u =>
      d.modSlot u.wg.uid u.g r.slot (fun s => s.resumeAt (v.kern.code r.state) r)) d1)

/-- TRET (18 R311): the checks of GRET; a DSTACK delivery ends the context (06 R140); the resume point must be a chain
boundary of the state's code. -/
def meaningTret (_ : Hdr) : Meaning :=
  { always := true
    once := true
    illegal := View.userMode
    operands := fun v _ =>
      let r := v.agent.trap
      Check.need (!View.unmerged (viewsOf v.dev v.iss) &&
        (decide (r.cause.toNat = causeDstack) || chainBoundary (v.kern.code r.state) r.resume.toNat))
    effect := fun v _ s =>
      let r := v.agent.trap
      if r.cause.toNat = causeDstack then
        let f : CtxFault := { code := causeDstack, detail := r.detail.toNat, addr := v.iss.addr.toNat }
        .ok { s with dev := s.dev.endContext v.c f }
      else
        match tretDevice s.dev (viewsOf v.dev v.iss) v with
        | .ok d => .ok { s with dev := d }
        | .error f => .error f }

/-- TRET run (`meaningTret`). -/
def execTret (h : Hdr) (s : State) : Host.Outcome State Fault Refusal :=
  runWord (.tret h) (meaningTret h) s

/-! ## System registers (18 Table 18-3) -/

/-- The requests of a context that are parked (17 R294). -/
def Device.parkedCount (d : Device) (c : BitVec 6) : Nat :=
  (d.requests.filter (fun r => r.ctx == c && (match r.status with | .parked _ => true | _ => false))).length +
    ((d.ctx c).savedReqs.filter (fun r => match r.status with | .parked _ => true | _ => false)).length

/-- Bytes 48 to 51 of a control block (17 Table 17-1). -/
def Device.faultStatus (d : Device) (c : BitVec 6) : Nat :=
  lowN (d.parkedCount c) 16 * 2 ^ 16 + (d.ctx c).tdie.toNat * 2 ^ 8 + (d.ctx c).tkind.toNat

/-- Register 0x0D. -/
def View.contextWord (v : View) : Nat :=
  v.c.toNat + (if v.ctx.sec then 2 ^ 8 else 0) + (if v.ctx.replay then 2 ^ 9 else 0) +
    (if v.ctx.ordr then 2 ^ 10 else 0) + (if v.library then 2 ^ 11 else 0)

/-- The lowest lane of the trap record's lanes field, with its hardware group's view; where a pair's field is empty, the lane
lies in the upper half (log entry 23). -/
def View.trapLane (v : View) : View × Word :=
  match viewsOf v.dev v.iss with
  | [lower, upper] =>
    if v.agent.trap.lanes = 0 then
      (upper, match upper.agent.library with | some l => l.lanes | none => 0)
    else (lower, v.agent.trap.lanes)
  | _ => (v, v.agent.trap.lanes)

/-- The slice of the object or token cell of the SLEEPUNTIL that raised PROMISE; `none` for any other cause. -/
def View.waitSlice (v : View) (token : Bool) : Option Nat :=
  let r := v.agent.trap
  if r.cause.toNat ≠ causePromise then none
  else
    let addr := 4 * (v.agent.tcause.toNat / 256)
    match workItem (chainItems (packetOf (v.kern.code r.state) (addr / 12)) (addr % 12 / 4) 3) with
    | some { instr := some (.sleepuntil h d _ b), .. } => some (if token then h.d d else cellSlice b)
    | _ => none

/-- Registers 0x0E and 0x0F: the object or token cell of the SLEEPUNTIL that raised PROMISE, as it now stands in the
lowest lane of the trap record's lanes; 0 for any other cause. -/
def View.waitWord (v : View) (token : Bool) : Nat :=
  match v.waitSlice token with
  | some s => v.trapLane.1.readLowest v.trapLane.2 s 32
  | none => 0

/-- The cell that a read of register `n` reads in a view: that of 0x0E or 0x0F, in the view that holds its lane. -/
def View.csrReads (v : View) (n : Nat) : List (Nat × Nat) :=
  if (n = 0x0E ∨ n = 0x0F) ∧ v.trapLane.1.g = v.g then
    match v.waitSlice (decide (n = 0x0F)) with
    | some s => [span s 32]
    | none => []
  else []

/-- The value of a system register. -/
def View.csr (v : View) (n : Nat) : Nat :=
  if n < 8 then leAt v.agent.trap.bytes (4 * n) 4
  else if n = 0x08 then lowN v.ctx.pmiss.toNat 32
  else if n = 0x09 then bitsN v.ctx.pmiss.toNat 32 32
  else if n = 0x0A then lowN v.ctx.taddr.toNat 32
  else if n = 0x0B then bitsN v.ctx.taddr.toNat 32 32
  else if n = 0x0C then v.dev.faultStatus v.c
  else if n = 0x0D then v.contextWord
  else if n = 0x0E then v.waitWord false
  else if n = 0x0F then v.waitWord true
  else if n < 0x20 then bitsN v.ctx.attest.toNat (32 * (n - 0x10)) 32
  else
    let k := (n - 0x20) / 2
    if (v.ctx.region 7 k).isNone then 0
    else if n % 2 = 0 then (v.ctx.log k).head.toNat
    else (v.ctx.log k).tail.toNat

/-- Whether a value may become the tail of a log: from the old tail to the head, or 0 for a log with no region
(18 R314). -/
def Context.tailOk (c : Context) (k : Nat) (x : Word) : Bool :=
  if (c.region 7 k).isNone then x == 0
  else decide ((x - (c.log k).tail).toNat ≤ ((c.log k).head - (c.log k).tail).toNat)

/-- The context with a log's tail moved. -/
def Context.setTail (c : Context) (k : Nat) (x : Word) : Context :=
  if (c.region 7 k).isNone then c else c.modLog k (fun l => { l with tail := x })

/-- CSRR (18 R313): the register as it stood before the chain, in every active lane, tag U. -/
def meaningCsrr (h : Hdr) (d : BitVec 7) (n : BitVec 6) : Meaning :=
  { spans := [span (h.d d) 32]
    dests := [span (h.d d) 32]
    once := true
    alsoReads := fun v => v.csrReads n.toNat
    effect := fun v _ s => .ok (s.writeOne v h (h.d d) 32 (v.csr n.toNat)) }

/-- CSRR run (`meaningCsrr`). -/
def execCsrr (h : Hdr) (d : BitVec 7) (n : BitVec 6) (s : State) : Host.Outcome State Fault Refusal :=
  runWord (.csrr h d n) (meaningCsrr h d n) s

/-- CSRW (18 R313, R314): the resume field of the trap record, an addition to the promise-miss counter, or a log tail. -/
def meaningCsrw (h : Hdr) (a : BitVec 7) (n : BitVec 6) : Meaning :=
  let value (v : View) (act : Word) : Word := BitVec.ofNat 32 (v.readLowest act (h.a a) 32)
  { spans := [span (h.a a) 32]
    once := true
    illegal := View.userMode
    operands := fun v act =>
      Check.need (decide (n.toNat < 0x20) || v.ctx.tailOk ((n.toNat - 0x20) / 2) (value v act))
    effect := fun v act s =>
      let x := value v act
      .ok (if n = 0x02 then s.modAgent v (fun g => { g with trap := { g.trap with resume := x } })
        else if n = 0x08 then
          { s with dev := s.dev.modCtx v.c (fun c => { c with pmiss := c.pmiss + BitVec.ofNat 64 x.toNat }) }
        else { s with dev := s.dev.modCtx v.c (fun c => c.setTail ((n.toNat - 0x20) / 2) x) }) }

/-- CSRW run (`meaningCsrw`). -/
def execCsrw (h : Hdr) (a : BitVec 7) (n : BitVec 6) (s : State) : Host.Outcome State Fault Refusal :=
  runWord (.csrw h a n) (meaningCsrw h a n) s

/-! ## MARK and LOGW -/

/-- A trace record (22 Table 22-5). -/
def View.traceRecord (v : View) : List (BitVec 8) :=
  natToBytes v.dev.cyc.toNat 8 ++ natToBytes v.wg.coord.toNat 8 ++ natToBytes v.wg.tag.toNat 4 ++
    natToBytes v.agent.phases.toNat 4 ++
    natToBytes (match v.slot.span with | some sp => sp.block.toNat | none => 0) 2 ++ natToBytes v.groupIndex 1 ++
    natToBytes (if v.iss.slot then 1 else 0) 1 ++ natToBytes (v.grp.core.toNat + v.grp.part.toNat * 2 ^ 8) 4

/-- MARK (18 R315): one trace record, or nothing with no trace region. -/
def meaningMark (_ : Hdr) : Meaning :=
  { once := true
    operands := fun v _ =>
      if v.ctx.logs 3 && v.ctx.logFull 3 false 1 then .fail causeLogfull 3 else .ok
    effect := fun v _ s =>
      if v.ctx.logs 3 then
        match s.dev.logPut (dieOf v.grp.core) v.c 3 v.traceRecord with
        | .ok d => .ok { s with dev := d }
        | .error f => .error f
      else .ok s }

/-- MARK run (`meaningMark`). -/
def execMark (h : Hdr) (s : State) : Host.Outcome State Fault Refusal :=
  runWord (.mark h) (meaningMark h) s

/-- The value that LOGW writes in replay mode: that of the group's next user record (18 R316). -/
def View.replayedValue (v : View) (d : Device) : Option Nat :=
  match d.replay unitDist.die v.c 6 unitDist (v.arriver d) with
  | .accept _ rec => some (leAt rec 24 8)
  | _ => none

/-- Whether LOGW takes its value from the log: in replay mode, until the arrival-order log has ended, it does not read its
operand (18 R316; 22 R354). -/
def View.logsReplayed (v : View) : Bool := v.ctx.replay && !v.ctx.logA.ended

/-- LOGW (18 R316): the value in the lowest active lane to every active lane, tag U, with a user record; in replay mode
the value of the record. -/
def meaningLogw (h : Hdr) (d a : BitVec 7) : Meaning :=
  { spans := [span (h.a a) 64, span (h.d d) 64]
    dests := [span (h.d d) 64]
    once := true
    unread := fun v => if v.logsReplayed then [span (h.a a) 64] else []
    arrives := unitArrival h 6 unitDist
    effect := fun v act s =>
      let x := (v.replayedValue s.dev).getD (v.readLowest act (h.a a) 64)
      match v.arrival s.dev 6 unitDist x with
      | .ok d1 => .ok (State.writeOne { s with dev := d1 } v h (h.d d) 64 x)
      | .error f => .error f }

/-- LOGW run (`meaningLogw`). -/
def execLogw (h : Hdr) (d a : BitVec 7) (s : State) : Host.Outcome State Fault Refusal :=
  runWord (.logw h d a) (meaningLogw h d a) s

/-! ## BRK -/

/-- The device with the BRK chain of a slot recorded as what stopped its workgroup, unless it is already stopping. -/
def Device.brkStop (d : Device) (v : View) : Device :=
  (d.beginStop v.wg.uid 2).modWg v.wg.uid (fun w =>
    { w with stopped := { w.stopped with brkAt := some (v.home, v.iss.slot) } })

/-- BRK (18 R317): the BRK trap whatever the active lanes; under hold it stops the workgroup, and its chain does not
execute (22 R346). -/
def meaningBrk (_ : Hdr) (k : BitVec 13) : Meaning :=
  { always := true
    once := true
    operands := fun v _ => if v.ctx.dbgBlock.hold then .ok else .fail causeBrk k.toNat
    effect := fun v _ s => .ok { s with dev := (s.before v.iss).brkStop v } }

/-- BRK run (`meaningBrk`). -/
def execBrk (h : Hdr) (k : BitVec 13) (s : State) : Host.Outcome State Fault Refusal :=
  runWord (.brk h k) (meaningBrk h k) s

/-! ## ICINV and TLBINV -/

/-- ICINV (18 R318): every cached packet of the context is dropped, on every die. -/
def meaningIcinv (_ : Hdr) : Meaning :=
  { once := true
    illegal := View.userMode
    effect := fun v _ s => .ok { s with dev := { s.dev with packets := s.dev.packets.filter (fun p => p.ctx != v.c) } } }

/-- ICINV run (`meaningIcinv`). -/
def execIcinv (h : Hdr) (s : State) : Host.Outcome State Fault Refusal :=
  runWord (.icinv h) (meaningIcinv h) s

/-- TLBINV of the page that holds an address (18 R319). -/
def meaningTlbinv (h : Hdr) (a : BitVec 7) : Meaning :=
  { spans := [span (h.a a) 64]
    once := true
    illegal := View.userMode
    operands := fun v act => Check.need (decide (v.readLowest act (h.a a) 64 < 2 ^ 57))
    effect := fun v act s =>
      .ok { s with dev := s.dev.invalidate v.c (some (v.readLowest act (h.a a) 64)) } }

/-- TLBINV run (`meaningTlbinv`). -/
def execTlbinv (h : Hdr) (a : BitVec 7) (s : State) : Host.Outcome State Fault Refusal :=
  runWord (.tlbinv h a) (meaningTlbinv h a) s

/-- TLBINV.all (18 R319): every translation of the context. -/
def meaningTlbinvAll (_ : Hdr) : Meaning :=
  { once := true
    illegal := View.userMode
    effect := fun v _ s => .ok { s with dev := s.dev.invalidate v.c none } }

/-- TLBINV_ALL run (`meaningTlbinvAll`). -/
def execTlbinvAll (h : Hdr) (s : State) : Host.Outcome State Fault Refusal :=
  runWord (.tlbinvAll h) (meaningTlbinvAll h) s

/-! ## QPOST (18 R320) -/

/-- The 64 bytes that 16 cells of a view hold. -/
def View.recordCells (v : View) (act : Word) (b : BitVec 6) : List (BitVec 8) :=
  natToBytes (v.readLowest act (cellSlice b) 512) 64

/-- QPOST: a launch record from 16 U cells, for its queue; a release at package scope (15 R259). The records of one CYC enter
their queues at its end (`Device.flushPosts`). -/
def meaningQpost (h : Hdr) (b : BitVec 6) : Meaning :=
  { spans := [span (cellSlice b) 512]
    once := true
    operands := fun v act => Check.seq
      [ Check.need ((List.range 16).all (fun j => v.isU (cellSlice b + 8 * j) 32))
      , match launchOf (v.recordCells act b) with
        | none => .illegal
        | some r => Check.need (v.dev.postOk v.c r) ]
    arrives := unitArrival h 5 unitDist
    records := true
    effect := fun v act s =>
      match launchOf (v.recordCells act b) with
      | none => .ok s
      | some r =>
        let p : Post := { ctx := v.c, core := v.grp.core, part := v.grp.part, record := r }
        .ok { s with dev := { s.dev with posts := s.dev.posts ++ [p] } } }

/-- QPOST run (`meaningQpost`). -/
def execQpost (h : Hdr) (b : BitVec 6) (s : State) : Host.Outcome State Fault Refusal :=
  runWord (.qpost h b) (meaningQpost h b) s

end Sys2Proof.Machine
end

