-- ==== Sys2Proof/Machine/Chain.lean ====
section
/-! DEFINITION. A chain before it issues: the meaning of every instruction word, fetching packets (18 R318), the checks of a
chain in their rank (04 R81 to R84, R370, R371; 01 R23; 05 R98), and the choice of the chain that a partition issues
(06 R142, R148, R149; 07 R164). -/

namespace Sys2Proof.Machine

open Sys2Proof

/-- The meaning of an instruction word; none for an event. -/
def meaningOf (i : Instr) : Option Meaning :=
  match i with
  | .nop chain => some (meaningNop chain)
  | .iadd h w d a b x => some (meaningIadd h w d a b x)
  | .isub h w d a b x => some (meaningIsub h w d a b x)
  | .imul h w d a b x => some (meaningImul h w d a b x)
  | .imulh h w d a b x => some (meaningImulh h w d a b x)
  | .imad h w d a b x => some (meaningImad h w d a b x)
  | .imin h w d a b x => some (meaningImin h w d a b x)
  | .imax h w d a b x => some (meaningImax h w d a b x)
  | .isad h w d a b x => some (meaningIsad h w d a b x)
  | .and h w d a b => some (meaningAnd h w d a b)
  | .or h w d a b => some (meaningOr h w d a b)
  | .xor h w d a b => some (meaningXor h w d a b)
  | .andn h w d a b => some (meaningAndn h w d a b)
  | .shl h w d a b => some (meaningShl h w d a b)
  | .shr h w d a b x => some (meaningShr h w d a b x)
  | .rotl h w d a b => some (meaningRotl h w d a b)
  | .bfe h w d a b x => some (meaningBfe h w d a b x)
  | .bfi h w d a b => some (meaningBfi h w d a b)
  | .sel h k d a b => some (meaningSel h k d a b)
  | .icmp h w k q a b => some (meaningIcmp h w k q a b)
  | .iabs h w d a => some (meaningIabs h w d a)
  | .ineg h w d a => some (meaningIneg h w d a)
  | .not h w d a => some (meaningNot h w d a)
  | .popc h w d a => some (meaningPopc h w d a)
  | .clz h w d a => some (meaningClz h w d a)
  | .brev h w d a => some (meaningBrev h w d a)
  | .mov h w d a => some (meaningMov h w d a)
  | .tag h w d a => some (meaningTag h w d a)
  | .rdsp h w d n => some (meaningRdsp h w d n)
  | .wrsp h w a n => some (meaningWrsp h w a n)
  | .iaddi h w d a im => some (meaningIaddi h w d a im)
  | .shli h w d a n => some (meaningShli h w d a n)
  | .shri h w d a x n => some (meaningShri h w d a x n)
  | .andi h w d a im => some (meaningAndi h w d a im)
  | .icmpi h w k q a im => some (meaningIcmpi h w k q a im)
  | .movi h d im => some (meaningMovi h d im)
  | .movhi h d im => some (meaningMovhi h d im)
  | .fadd h w d a b => some (meaningFadd h w d a b)
  | .fsub h w d a b => some (meaningFsub h w d a b)
  | .fmul h w d a b => some (meaningFmul h w d a b)
  | .ffma h w d a b => some (meaningFfma h w d a b)
  | .fmin h w d a b => some (meaningFmin h w d a b)
  | .fmax h w d a b => some (meaningFmax h w d a b)
  | .fcmp h w k q a b => some (meaningFcmp h w k q a b)
  | .fabs h w d a => some (meaningFabs h w d a)
  | .fneg h w d a => some (meaningFneg h w d a)
  | .frnd h w d a => some (meaningFrnd h w d a)
  | .rcp h w d a => some (meaningRcp h w d a)
  | .rsqrt h w d a => some (meaningRsqrt h w d a)
  | .sqrt h w d a => some (meaningSqrt h w d a)
  | .exp2 h w d a => some (meaningExp2 h w d a)
  | .log2 h w d a => some (meaningLog2 h w d a)
  | .sin h w d a => some (meaningSin h w d a)
  | .cos h w d a => some (meaningCos h w d a)
  | .tanh h w d a => some (meaningTanh h w d a)
  | .cvt h sf d a df r => some (meaningCvt h sf d a df r)
  | .cvq h sf d a df r => some (meaningCvq h sf d a df r)
  | .cbld h a n => some (meaningCbld h a n)
  | .cbx h w d a sc => some (meaningCbx h w d a sc)
  | .shfl h w d a b => some (meaningShfl h w d a b)
  | .shflp h w d a b => some (meaningShflp h w d a b)
  | .shflx h w d a m => some (meaningShflx h w d a m)
  | .voteAny h w k a => some (meaningVoteAny h w k a)
  | .voteAll h w k a => some (meaningVoteAll h w k a)
  | .voteBal h w k a => some (meaningVoteBal h w k a)
  | .reduInt h w d a o x => some (meaningReduInt h w d a o x)
  | .reduFloat h w d a o => some (meaningReduFloat h w d a o)
  | .scanInt h w d a o x => some (meaningScanInt h w d a o x)
  | .scanFloat h w d a o => some (meaningScanFloat h w d a o)
  | .nzscan h w d a k => some (meaningNzscan h w d a k)
  | .seg h w d => some (meaningSeg h w d)
  | .lds h w d a im => some (meaningLds h w d a im)
  | .sts h w d a im => some (meaningSts h w d a im)
  | .ldx h w d a im => some (meaningLdx h w d a im)
  | .stx h w d a im => some (meaningStx h w d a im)
  | .ldk h w d a im => some (meaningLdk h w d a im)
  | .stk h w d a im => some (meaningStk h w d a im)
  | .atomS h o d a b => some (meaningAtomS h o d a b)
  | .atomX h o d a b => some (meaningAtomX h o d a b)
  | .red h o a b => some (meaningRed h o a b)
  | .copy h d a b t => some (meaningCopy h d a b t)
  | .copyt h d a b xf t => some (meaningCopyt h d a b xf t)
  | .tmap h a b => some (meaningTmap h a b)
  | .barinit h a b => some (meaningBarinit h a b)
  | .bararr h d b => some (meaningBararr h d b)
  | .barwait h d b => some (meaningBarwait h d b)
  | .bararrw h d b => some (meaningBararrw h d b)
  | .fence h sc => some (meaningFence h sc)
  | .fetchw h b => some (meaningFetchw h b)
  | .sleepuntil h d a b => some (meaningSleepuntil h d a b)
  | .cwait h d b => some (meaningCwait h d b)
  | .mma h d a b t z => some (meaningMma h d a b t z)
  | .mmap h d a b t z => some (meaningMmap h d a b t z)
  | .mmagA h a b t cg => some (meaningMmagA h a b t cg)
  | .mmagK h d b t z cg => some (meaningMmagK h d b t z cg)
  | .mbatch h d b => some (meaningMbatch h d b)
  | .mwait h a => some (meaningMwait h a)
  | .tld h d t b => some (meaningTld h d t b)
  | .tst h d t b => some (meaningTst h d t b)
  | .tzero h t => some (meaningTzero h t)
  | .tsts h d t b => some (meaningTsts h d t b)
  | .tldP h d t b => some (meaningTldP h d t b)
  | .tstP h d t b => some (meaningTstP h d t b)
  | .tzeroP h t => some (meaningTzeroP h t)
  | .tstsP h d t b => some (meaningTstsP h d t b)
  | .route h d a t => some (meaningRoute h d a t)
  | .xslot h d a => some (meaningXslot h d a)
  | .xrel h a => some (meaningXrel h a)
  | .span h k => some (meaningSpan h k)
  | .next h => some (meaningNext h)
  | .jmp h b => some (meaningJmp h b)
  | .br h k n b => some (meaningBr h k n b)
  | .brx h sc => some (meaningBrx h sc)
  | .call h b => some (meaningCall h b)
  | .ret h => some (meaningRet h)
  | .exit h => some (meaningExit h)
  | .elect h k => some (meaningElect h k)
  | .sleep h d => some (meaningSleep h d)
  | .yield h => some (meaningYield h)
  | .kand h d a b => some (meaningKand h d a b)
  | .kor h d a b => some (meaningKor h d a b)
  | .kxor h d a b => some (meaningKxor h d a b)
  | .knot h d a => some (meaningKnot h d a)
  | .kmovMask h d a => some (meaningKmovMask h d a)
  | .kmovFromCell h d sc => some (meaningKmovFromCell h d sc)
  | .kmovToSlices h a sc => some (meaningKmovToSlices h a sc)
  | .kpop h a sc => some (meaningKpop h a sc)
  | .gate h im => some (meaningGate h im)
  | .gret h => some (meaningGret h)
  | .trap h k => some (meaningTrap h k)
  | .tret h => some (meaningTret h)
  | .csrr h d n => some (meaningCsrr h d n)
  | .csrw h a n => some (meaningCsrw h a n)
  | .mark h => some (meaningMark h)
  | .logw h d a => some (meaningLogw h d a)
  | .brk h k => some (meaningBrk h k)
  | .icinv h => some (meaningIcinv h)
  | .tlbinv h a => some (meaningTlbinv h a)
  | .tlbinvAll h => some (meaningTlbinvAll h)
  | .qpost h b => some (meaningQpost h b)
  | .sleepExpire .. | .sleepuntilDeadline .. | .waitWake .. | .registerWriteback | .cellRefill ..
  | .ringRefill .. | .copyBurstCommit .. | .copyRetire .. | .matrixExecute .. | .routePassRetire ..
  | .fetchwHandover .. | .launchReady .. | .placement | .launchComplete .. | .patchApply .. | .load ..
  | .start .. | .patch .. | .stop .. | .stopComplete .. | .resume .. | .unload .. | .query .. | .queryRegion ..
  | .queryErrorCounters .. | .queryLaneCycleBin .. | .querySleepCounter .. | .querySetBin ..
  | .contextCreate .. | .contextDestroy .. | .registerWrite .. | .hostApertureAccess .. | .lcrEnable ..
  | .logTailWrite .. | .stopwg .. | .cont .. | .step .. | .portRead .. | .portWrite .. | .workgroupHalt ..
  | .messageTailWrite .. | .getVersion | .getCapabilities | .negotiateAlgorithms | .getDigests
  | .getCertificate | .challenge .. | .getMeasurements .. | .unsupportedRequest .. | .peerInboundAccess ..
  | .peerPortDown .. | .transientFault .. | .uncorrectableError .. | .coreFence .. | .arrivalAdmit ..
  | .reset .. | .throttle .. | .powerRemove | .peerPortUp .. | .partitionClock .. | .worldAssignmentChange .. => none

/-! ## Fetching (18 R318; 16 R286) -/

/-- Locket, kernel, state and packet of the code a slot of a view runs. -/
abbrev CodeKey := BitVec 16 × Nat × BitVec 12 × Nat

/-- The key of the packet at a slot's address. -/
def View.codeKey (v : View) : CodeKey :=
  match v.agent.library with
  | some l => (l.handle, l.kernel, v.slot.state, v.slot.addr.toNat / 12)
  | none => (v.wg.handle, v.wg.kernel, v.slot.state, v.slot.addr.toNat / 12)

/-- Whether a cached packet is the one of a key on a core. -/
def CachedPacket.is (p : CachedPacket) (core : BitVec 8) (c : BitVec 6) (k : CodeKey) : Bool :=
  p.core == core && p.ctx == c && p.handle == k.1 && p.kernel == k.2.1 && p.state == k.2.2.1 && p.packet == k.2.2.2

/-- The words of the packet that a view fetches: a packet cached on its core (log entry 40) that differs from the code may be
returned whole, old or new. -/
def View.packet (v : View) : List Word :=
  let now := packetOf (v.auto.code v.slot.state) (v.slot.addr.toNat / 12)
  match v.dev.packets.find? (fun p => p.is v.grp.core v.c v.codeKey) with
  | some p => if p.words = now then now else if Config.packetStale v.dev.tick then p.words else now
  | none => now

/-- The device with a view's packet cached as it was fetched. -/
def Device.cachePacket (d : Device) (v : View) : Device :=
  let k := v.codeKey
  { d with packets :=
      { core := v.grp.core, ctx := v.c, handle := k.1, kernel := k.2.1, state := k.2.2.1, packet := k.2.2.2, words := v.packet } ::
        d.packets.filter (fun p => !p.is v.grp.core v.c k) }

/-- The chain at a view's slot. -/
def View.chain (v : View) : List Item := chainItems v.packet (v.slot.addr.toNat % 12 / 4) 3

/-- A view with its slot at an address. -/
def View.atAddr (v : View) (a : Word) : View := { v with slot := { v.slot with addr := a } }

/-- Whether a chain holds only NOPs and so issues nothing; a NOP that chains past its packet's end is ILLEGAL (04 R81). -/
def onlyNops (items : List Item) : Bool :=
  (workItem items).isNone && items.all (fun it => !(it.chain && decide (3 ≤ it.start + it.len)))

/-- The view at the first chain from its slot's address on that holds more than NOPs, among `n` chains within the code. -/
def View.pastNops (v : View) : Nat → Option View
  | 0 => none
  | n + 1 =>
    if (v.auto.code v.slot.state).length ≤ v.slot.addr.toNat / 4 then none
    else if onlyNops v.chain then (v.atAddr (BitVec.ofNat 32 (nextChain v.slot.addr.toNat v.chain))).pastNops n
    else some v

/-- The view at the chain that its slot issues next. NOPs issue nothing and are passed; where the code holds nothing else to its
end, they are what issues (log entry 50). -/
def View.atWork (v : View) : View := (v.pastNops ((v.auto.code v.slot.state).length + 1)).getD v

/-! ## The checks of a chain -/

/-- Whether two slice spans overlap. -/
def spansMeet (a b : Nat × Nat) : Bool := decide (a.1 < b.1 + b.2) && decide (b.1 < a.1 + a.2)

/-- Whether two instructions of a chain write overlapping slices, the same mask or the same special value (01 R23;
05 R98). -/
def Meaning.clash (m n : Meaning) (v : View) : Bool :=
  (m.written v).any (fun a => (n.written v).any (spansMeet a)) || m.kdests.any n.kdests.contains ||
    m.sdests.any n.sdests.contains

/-- The meaning of an item. -/
def itemMeaning (it : Item) : Option Meaning :=
  match it.instr with
  | some i => meaningOf i
  | none => none

/-- The pipe of an item. -/
def itemPipe (it : Item) : Option Pipe :=
  match it.instr with
  | some i => i.pipe
  | none => none

/-- Whether an item must issue alone (04 R83). -/
def itemAlone (it : Item) : Bool :=
  match it.instr with
  | some i => i.alone
  | none => false

/-- The failing words of an item by itself and with the kernel and privilege, as packet offsets. -/
def ownFailing (it : Item) (vs : List View) : List Nat :=
  (match it.failing with | some f => [f] | none => []) ++
    (match itemMeaning it with
     | some m => if vs.any m.illegal then [it.main] else []
     | none => [])

/-- Whether an item fails by standing in its chain after some earlier items (04 Table 04-17). -/
def chainFails (it : Item) (earlier : List Item) (count : Nat) (vs : List View) : Bool :=
  (it.chain && decide (3 ≤ it.start + it.len)) || (itemAlone it && decide (1 < count)) ||
    earlier.any (fun e =>
      (match itemPipe it, itemPipe e with | some p, some q => p == q | _, _ => false) ||
      (match itemMeaning e, itemMeaning it with | some m, some n => vs.any (m.clash n) | _, _ => false))

/-- The failing words of a chain, each with the index of the instruction that holds it. -/
def failingWords (vs : List View) (count : Nat) : List Item → List Item → List (Nat × Nat)
  | _, [] => []
  | earlier, it :: rest =>
    ((ownFailing it vs ++ (if chainFails it earlier count vs then [it.main] else [])).map (fun w =>
      (w, earlier.length))) ++ failingWords vs count (earlier ++ [it]) rest

/-- The lowest failing word. -/
def lowestWord : List (Nat × Nat) → Option (Nat × Nat)
  | [] => none
  | p :: t =>
    match lowestWord t with
    | some q => if q.1 < p.1 then some q else some p
    | none => some p

/-- What the checks of a chain answer: it issues, it is not ready, an instruction, by its index, raises a trap, one reads a cell
that an error has lost, or in replay the next of its arrivals, with its instruction's index, is admitted while a later one may be
held; `none` when all have been admitted. -/
inductive ChainEnd where
  | issue
  | wait
  | trap (t : Trap) (n : Nat)
  | lost (f : CtxFault)
  | takes (next : Option (Nat × Arrival))
  deriving DecidableEq, Repr, Inhabited

/-- The first SRANGE of a chain. -/
def chainSrange (vs : List View) : Nat → List Item → Option (Trap × Nat)
  | _, [] => none
  | n, it :: rest =>
    match (match itemMeaning it with | some m => Check.seq (vs.map m.checkSrange) | none => .ok) with
    | .trap t => some (t, n)
    | _ => chainSrange vs (n + 1) rest

/-- The arrivals that an item makes. -/
def itemArrivals (vs : List View) (it : Item) : List Arrival :=
  match itemMeaning it with
  | some m => m.arrives vs
  | none => []

/-- The remaining checks of an item after some arrivals of its chain; ILLEGAL's detail is counted from the chain's first
word. -/
def itemRest (vs : List View) (d : Device) (first : Nat) (earlier : List Arrival) (it : Item) : Check :=
  match it.instr with
  | none => .ok
  | some i =>
    match meaningOf i with
    | none => .ok
    | some m =>
      match m.checkActs i vs d earlier with
      | .trap t => .trap (if t.cause = causeIllegal then { t with detail := t.detail + (it.start - first) } else t)
      | c => c

/-- The remaining checks of every item, in order. -/
def chainRest (vs : List View) (d : Device) (first : Nat) : List Arrival → List Item → List Check
  | _, [] => []
  | earlier, it :: rest => itemRest vs d first earlier it :: chainRest vs d first (earlier ++ itemArrivals vs it) rest

/-- The first trap of some checks, with its index. -/
def firstTrap : Nat → List Check → Option (Trap × Nat)
  | _, [] => none
  | n, c :: rest =>
    match c with
    | .trap t => some (t, n)
    | _ => firstTrap (n + 1) rest

/-- INTEGRITY for the first cell that a chain reads and that an error has lost (21 R333). -/
def chainLost (vs : List View) (items : List Item) : Option CtxFault :=
  items.findSome? (fun it =>
    match it.instr, itemMeaning it, vs with
    | some i, some m, v :: _ => m.lostCell i vs v.dev
    | _, _, _ => none)

/-- The arrivals of a chain in order, each with its instruction's index. -/
def chainArrivals (vs : List View) (items : List Item) : List (Nat × Arrival) :=
  ((List.range items.length).zip items).flatMap (fun p => (itemArrivals vs p.2).map (fun a => (p.1, a)))

/-- What units have admitted of the chain at a view's slot. -/
def View.admitted (v : View) : List Admitted :=
  v.grp.admitted.filter (fun a => a.slot == v.iss.slot && a.lib == v.library)

/-- What replay answers for a chain of which some arrivals are admitted, or for whose first one the unit has its record: the units
take their arrivals one by one, in the order of their records in the group's sequence (22 R353, R354). -/
def chainAdmits (vs : List View) (items : List Item) : ChainEnd :=
  match chainLost vs items, vs with
  | some f, _ => .lost f
  | none, [] => .wait
  | none, v :: _ =>
    match (chainArrivals vs items).drop v.admitted.length with
    | [] => .takes none
    | (n, kind, u) :: _ =>
      match v.dev.replay u.die v.c kind u (v.arriver v.dev) with
      | .hold _ => .wait
      | _ => .takes (some (n, kind, u))

/-- Whether nothing but its arrivals holds a chain back. -/
def chainFree (vs : List View) (items : List Item) : Bool :=
  items.all (fun it =>
    match it.instr, itemMeaning it with
    | some i, some m => (m.acts i vs).all (fun v => m.checkRest i v (Instr.lanes i v) == .ok)
    | _, _ => true)

/-- Every check of a chain, made before any instruction takes effect: an ILLEGAL that the words decide, then SRANGE, then what
an error has lost of its operands, then the lowest word's trap; a chain with an instruction that is not ready waits, though in
replay its arrivals are taken as far as their units admit them. -/
def chainCheck (vs : List View) (items : List Item) : ChainEnd :=
  let first := match items with | it :: _ => it.start | [] => 0
  match lowestWord (failingWords vs items.length [] items) with
  | some (w, n) => .trap { cause := causeIllegal, detail := w - first, lanes := none } n
  | none =>
    match chainSrange vs 0 items with
    | some (t, n) => .trap t n
    | none =>
      match chainLost vs items with
      | some f => .lost f
      | none =>
        let rest := match vs with | v :: _ => chainRest vs v.dev first [] items | [] => []
        if rest.any (· == .wait) then
          (if vs.any (fun v => v.ctx.replay) && chainFree vs items then chainAdmits vs items else .wait)
        else
          match firstTrap 0 rest with
          | some (t, n) => .trap t n
          | none => .issue

/-! ## The choice of a chain -/

/-- An issue of a slot at an address, before its chain is known. -/
def Issue.start (wg g : Nat) (slot : Bool) (addr : Word) : Issue :=
  { wg := wg, g := g, slot := slot, addr := addr, next := 0, index := 0, offset := 0, flips := false, fired := [] }

/-- The issue of a slot, whose address moves when its chain issues. -/
def Device.issueAt (d : Device) (w : Workgroup) (g : Nat) (slot : Bool) : Option (Issue × View × List Item) :=
  let iss := Issue.start w.uid g slot 0
  match viewOf d iss g with
  | none => none
  | some v0 =>
    let v := v0.atWork
    let items := v.chain
    let iss1 := { iss with addr := v.slot.addr, next := BitVec.ofNat 32 (nextChain v.slot.addr.toNat items) }
    some (iss1, { v with iss := iss1 }, items)

/-- The views that an issue acts on, with their slots at its chain. -/
def viewsAt (d : Device) (iss : Issue) : List View := (viewsOf d iss).map (·.atAddr iss.addr)

/-- Whether every slot that an issue acts on is awake: in width mode 64 both hardware groups' (16 R281). -/
def awakeAll (vs : List View) : Bool := !vs.isEmpty && vs.all (fun v => v.slot.wait == .awake)

/-- Whether a STEP halts the group before a chain: a BARWAIT on the step object whose token, in the lowest active lane of either
half of a pair, is not the phase in which the STEP was accepted (22 R348). -/
def View.stepHalts (vs : List View) (items : List Item) : Bool :=
  match items with
  | [] => false
  | it :: _ =>
    match it.instr with
    | some (.barwait h d b) =>
      (match actingView (.barwait h d b) vs with
       | some v =>
         (match v.wg.stopped.stepObj with
          | some (obj, p) =>
            let act := v.active h
            decide (act ≠ 0) && bitN (v.readLowest act (h.d d) 32) 0 != p &&
              (match v.object (v.readLowest act (cellSlice b) 32), objectAt v.wg v.kern.shared v.wg.core obj.toNat with
               | some o, some q => o == q
               | _, _ => false)
          | none => false)
       | none => false)
    | _ => false

/-- The key of the group of a slot in `DebugStop.halted`: that of its hardware group, or of its half in width mode 16. -/
def Kernel.haltKey (k : Kernel) (g : Nat) (slot : Bool) : Nat := 2 * g + (if k.mode16 && slot then 1 else 0)

/-- A chain that may issue: its issue, its items, the views it acts on, and what its checks answer. -/
structure Ready where
  iss : Issue
  items : List Item
  views : List View
  answer : ChainEnd
  deriving DecidableEq, Repr, Inhabited

/-- The chain of a slot when it is ready (06 R148). -/
def Device.slotReady (d : Device) (w : Workgroup) (g : Nat) (slot : Bool) : Option Ready :=
  match d.issueAt w g slot with
  | none => none
  | some (iss, v, items) =>
    let vs := viewsAt d iss
    if !awakeAll vs || w.stopped.halted.contains (v.kern.haltKey g slot) || View.stepHalts vs items then none
    else
      match (if vs.any (fun u => !u.admitted.isEmpty) then chainAdmits vs items else chainCheck vs items) with
      | .wait => none
      | a => some { iss := iss, items := items, views := vs, answer := a }

/-- The chain that a group may issue: of two ready slots the one that the alternation bit names, which then flips
(06 R142). -/
def Device.groupReady (d : Device) (w : Workgroup) (g : Nat) : Option Ready :=
  match d.slotReady w g false, d.slotReady w g true with
  | some r, none => some r
  | none, some r => some r
  | some r, some q =>
    let alt := match w.groups[g]? with | some x => x.alt | none => false
    let c := if alt then q else r
    some { c with iss := { c.iss with flips := true } }
  | none, none => none

/-- The groups resident on a partition: workgroup, group, resident-group slot. -/
def Device.residents (d : Device) (core : BitVec 8) (part : BitVec 5) : List (Workgroup × Nat × Nat) :=
  (d.wgs.filter (fun w => !w.gone)).flatMap (fun w =>
    (List.range w.groups.length).filterMap (fun g =>
      match w.groups[g]? with
      | some x => if x.core == core && x.part == part && !x.retired then some (w, g, x.rslot) else none
      | none => none))

/-- Whether the groups of a workgroup may issue: its context is active and not stopping, and no debugger stops it. -/
def Device.runs (d : Device) (w : Workgroup) : Bool :=
  (d.ctx w.ctx).state == .active && !(d.ctx w.ctx).stopping && w.stopped.st == 0

/-- The key of a partition in `Device.pointers`. -/
def partKey (core : BitVec 8) (part : BitVec 5) : Nat := core.toNat * 32 + part.toNat

/-- The key of a resident-group slot in `Device.gens`. -/
def slotKey (core : BitVec 8) (part : BitVec 5) (rslot : Nat) : Nat := partKey core part * 12 + rslot

/-- The ready chain nearest after a pointer in slot order, wrapping around. -/
def nearest (pointer : Nat) : List (Nat × Ready) → Option (Nat × Ready)
  | [] => none
  | p :: t =>
    match nearest pointer t with
    | some q => if (q.1 + 11 - pointer) % 12 < (p.1 + 11 - pointer) % 12 then some q else some p
    | none => some p

/-- The ready groups of a partition: resident-group slot, YIELD mark, chain. -/
def Device.readyGroups (d : Device) (core : BitVec 8) (part : BitVec 5) : List (Nat × Bool × Ready) :=
  (d.residents core part).filterMap (fun x =>
    match x.1.groups[x.2.1]? with
    | some grp =>
      if !d.runs x.1 || grp.pair = some true then none
      else (d.groupReady x.1 x.2.1).map (fun r => (x.2.2, grp.yielded, r))
    | none => none)

/-- The chain that a partition issues in a clock (06 R149; 07 R164): a marked group waits while another is ready. -/
def Device.pick (d : Device) (core : BitVec 8) (part : BitVec 5) : Option (Nat × Ready) :=
  let ready := d.readyGroups core part
  let free := ready.filter (fun x => !x.2.1)
  let pool := if free.isEmpty then ready else free
  nearest (tableGet 11 d.pointers (partKey core part)) (pool.map (fun x => (x.1, x.2.2)))

end Sys2Proof.Machine
end

