-- ==== Sys2Proof/Machine/Clock.lean ====
section
/-! DEFINITION. The events of a partition beside the chains it issues: waking slots (06 R150; 07 R163; 08 R182; 09 R207;
10 R219), register writes that complete (01 R36), eviction and refill of cells (01 R29 to R33), and the lane-cycle record
(22 R340, R341) with the idle clock. -/

namespace Sys2Proof.Machine

open Sys2Proof

/-! ## Register writes (01 R36) -/

/-- The oldest outstanding register write completes; one whose generation is not its slot's current one is dropped. -/
def Device.writeback (d : Device) : Device :=
  match d.writes with
  | [] => d
  | x :: rest =>
    let d1 := { d with writes := rest }
    match d.wg x.wg with
    | none => d1
    | some w =>
      match w.groups[x.g]? with
      | none => d1
      | some g =>
        if !w.gone && x.gen == tableGet 0 d.gens (slotKey g.core g.part g.rslot) then
          d1.writeGroup x.wg x.g x.slice x.width x.vals x.lanes x.tag
        else d1

/-- Completes the oldest `n` outstanding writes. -/
def Device.writebacks (d : Device) : Nat → Device
  | 0 => d
  | n + 1 => d.writeback.writebacks n

/-- REGISTER_WRITEBACK. -/
def execRegisterWriteback (s : State) : Host.Outcome State Fault Refusal :=
  .next { s with dev := s.dev.writeback }

/-! ## Eviction (01 R29 to R33) -/

/-- A resident cell of a partition: when it was last accessed, its group's slot, its number, its group. -/
structure Resident where
  used : Nat
  rslot : Nat
  cell : Nat
  size : Nat
  wg : Nat
  g : Nat
  deriving DecidableEq, Repr, Inhabited

/-- The cells of a partition's groups that are in its register store. -/
def Device.residentCells (d : Device) (core : BitVec 8) (part : BitVec 5) : List Resident :=
  (d.residents core part).flatMap (fun x =>
    match x.1.groups[x.2.1]? with
    | some g => (List.range g.cells.length).filterMap (fun k =>
        match g.cells[k]? with
        | some c =>
          if c.evicted then none
          else some { used := c.used, rslot := x.2.2, cell := k, size := c.cell.size, wg := x.1.uid, g := x.2.1 }
        | none => none)
    | none => [])

/-- Whether a cell is evicted before another: the least recently accessed, then the lower slot, then the lower cell. -/
def Resident.before (a b : Resident) : Bool :=
  if a.used ≠ b.used then decide (a.used < b.used)
  else if a.rslot ≠ b.rslot then decide (a.rslot < b.rslot)
  else decide (a.cell < b.cell)

/-- The cell that is evicted first. -/
def firstEvicted : List Resident → Option Resident
  | [] => none
  | a :: t =>
    match firstEvicted t with
    | some b => if b.before a then some b else some a
    | none => some a

/-- Writes a cell to its spill slot and marks it evicted; INTEGRITY for one that an error has lost (21 R333). -/
def Device.evictCell (d : Device) (r : Resident) : Except (BitVec 6 × CtxFault) Device :=
  match d.wg r.wg with
  | none => .ok d
  | some w =>
    match w.groups[r.g]? with
    | none => .ok d
    | some grp =>
      if d.lost.contains (.cell r.wg r.g r.cell) then
        .error (w.ctx, d.lostFault (.cell r.wg r.g r.cell) (spillSlot (d.ctx w.ctx) grp r.cell))
      else
      match d.mainWrite (dieOf grp.core) w.ctx (spillSlot (d.ctx w.ctx) grp r.cell) (cellAt grp.cells r.cell).slot with
      | .error f => .error (w.ctx, f)
      | .ok d1 =>
        let out (y : Group) : Group := { y with cells := modAt y.cells r.cell (fun c => { c with evicted := true }) }
        .ok (d1.modGroup r.wg r.g out)

/-- Evicts cells of a partition, `n` at most, until its 64 KiB store holds the rest (01 R30). A store with room whatever the
cells hold is not counted. -/
def Device.evict (d : Device) (core : BitVec 8) (part : BitVec 5) : Nat → Device
  | 0 => d
  | n + 1 =>
    let cells := d.residentCells core part
    if cells.length ≤ 512 || (cells.map (fun c => c.size)).foldl (· + ·) 0 ≤ 65536 then d
    else
      match firstEvicted cells with
      | none => d
      | some r =>
        match d.evictCell r with
        | .ok d1 => d1.evict core part n
        | .error (c, f) => d.contextFault c f

/-- Evicts what a group's partition has no room for. -/
def Device.evictFor (d : Device) (uid g : Nat) : Device :=
  match d.wg uid with
  | some w => match w.groups[g]? with
    | some x => d.evict x.core x.part 768
    | none => d
  | none => d

/-- CELL_REFILL: the cell comes back, and others leave when the store has no room for it (01 R30). -/
def execCellRefill (wg g cell : Nat) (s : State) : Host.Outcome State Fault Refusal :=
  match s.dev.refill wg g cell with
  | .ok d => .next { s with dev := d.evictFor wg g }
  | .error (c, f) => .next { s with dev := s.dev.contextFault c f }

/-- The slices that the instructions of a chain reach. -/
def chainSpans (items : List Item) (v : View) : List (Nat × Nat) :=
  items.flatMap (fun it =>
    match itemMeaning it with
    | some m => (m.spans ++ m.dests ++ m.cellSpans v ++ m.cellDests v).diff (m.unread v) ++ m.alsoReads v
    | none => [])

/-- The cells that a chain reaches. -/
def chainCells (items : List Item) (v : View) : List Nat :=
  ((chainSpans items v).flatMap (fun p => touched p.1 (4 * p.2))).filter (fun k => decide (k < v.grp.cells.length))

/-- The evicted cells that the next chain of an awake slot reaches, by hardware group. -/
def Device.missing (d : Device) (w : Workgroup) (g : Nat) (slot : Bool) : List (Nat × List Nat) :=
  match d.issueAt w g slot with
  | none => []
  | some (iss, _, items) =>
    (viewsAt d iss).filterMap (fun v =>
      let ks := (chainCells items v).filter (fun k => match v.grp.cells[k]? with | some c => c.evicted | none => false)
      if v.slot.wait = .awake && !ks.isEmpty then some (v.g, ks) else none)

/-- Brings back the evicted cells that a slot's next chain reaches. A chain that reads its operands in cells that a cell
decides has those refilled in its next clock. -/
def Device.bringBack (d : Device) (w : Workgroup) (g : Nat) (slot : Bool) : Device :=
  match d.missing w g slot with
  | [] => d
  | l =>
    match l.foldl (fun r p => r.bind (fun d => d.refills w.uid p.1 p.2)) (Except.ok d) with
    | .ok d1 => d1.evictFor w.uid g
    | .error (c, f) => d.contextFault c f

/-- A partition as its groups' next accesses find it: the evicted cells they reach are refilled before the accesses proceed
(01 R30), behind the scoreboard, so that the checks of a chain read them. -/
def Device.refillWaiting (d : Device) (core : BitVec 8) (part : BitVec 5) : Device :=
  (d.residents core part).foldl (fun d x =>
    if !d.runs x.1 || (match x.1.groups[x.2.1]? with | some grp => grp.pair == some true | none => true) then d
    else (d.bringBack x.1 x.2.1 false).bringBack x.1 x.2.1 true) d

/-! ## Waking slots -/

/-- A slot named by a reference, with its workgroup and group, when its group may run. -/
def Device.slotOf (d : Device) (r : SlotRef) : Option (Workgroup × Group × Slot) :=
  match d.wg r.wg with
  | none => none
  | some w =>
    match w.groups[r.g]? with
    | none => none
    | some g =>
      match g.slot r.slot with
      | some s => if d.runs w && !w.gone then some (w, g, s) else none
      | none => none

/-- SLEEP_EXPIRE: a slot in SLEEP whose wake time CYC has reached is ready again (07 R163). -/
def execSleepExpire (r : SlotRef) (s : State) : Host.Outcome State Fault Refusal :=
  match s.dev.slotOf r with
  | some (_, _, x) =>
    if x.wait == .sleep && decide (x.wake.toNat ≤ s.dev.cyc.toNat) then
      .next { s with dev := s.dev.modSlot r.wg r.g r.slot (fun y => { y with wait := .awake, wake := 0 }) }
    else .next s
  | none => .next s

/-- Whether the wait of a slot is over: its object has left the token's phase, or its batch has retired. -/
def Device.waitOver (d : Device) (w : Workgroup) (g : Group) (slot : Bool) (x : Wait) : Bool :=
  match (d.ctx w.ctx).kernel w.handle w.kernel with
  | none => false
  | some k =>
    let left (obj : Word) (tok : Bool) : Bool :=
      match objectAt w k.shared g.core obj.toNat with
      | some o => d.phase o != tok
      | none => false
    match x with
    | .bar obj tok => left obj tok
    | .copy obj tok => left obj tok
    | .matrix b => (g.agent (k.mode16 && slot)).batchDone b
    | _ => false

/-- Whether a wait counts in the barrier-phase count when it returns (22 R342). -/
def Wait.counted : Wait → Bool
  | .bar _ _ => true
  | .copy _ _ => true
  | _ => false

/-- INTEGRITY for the object of a slot's BARWAIT or CWAIT, if an error has lost it: its phase is read (21 R333). -/
def Device.waitLost (d : Device) (w : Workgroup) (g : Group) (x : Wait) : Option CtxFault :=
  let read (obj : Word) : Option CtxFault :=
    match (d.ctx w.ctx).kernel w.handle w.kernel with
    | some k => (match objectAt w k.shared g.core obj.toNat with | some o => d.objectLost o | none => none)
    | none => none
  match x with
  | .bar obj _ => read obj
  | .copy obj _ => read obj
  | _ => none

/-- A slot goes on after its wait. -/
def Slot.goOn (s : Slot) : Slot := { s with wait := .awake, wake := 0, addr := s.resume }

/-- The active lanes of the wait's own chain, for a view whose slot stands at it. -/
def View.waitLanes (v : View) : Word :=
  match v.chain with
  | it :: _ => (match it.instr with | some i => Instr.lanes i v | none => v.base)
  | [] => v.base

/-- Whether a slot belongs to half 1 of a mode-16 group. -/
def Device.halfOf (d : Device) (w : Workgroup) (slot : Bool) : Bool :=
  match (d.ctx w.ctx).kernel w.handle w.kernel with
  | some k => k.mode16 && slot
  | none => false

/-- A slot's wait returns: the phases of its agent count it, and the slot goes on. -/
def Device.returnWait (d : Device) (w : Workgroup) (g : Nat) (slot : Bool) (x : Wait) : Device :=
  let d1 := d.modGroup w.uid g (fun y =>
    y.modAgent (d.halfOf w slot) (fun a => if x.counted then { a with phases := a.phases + 1 } else a))
  d1.modSlot w.uid g slot Slot.goOn

/-- WAIT_WAKE: a wait on an object or a batch returns when it is over (09 R207; 10 R219). -/
def execWaitWake (r : SlotRef) (s : State) : Host.Outcome State Fault Refusal :=
  match s.dev.slotOf r with
  | some (w, g, x) =>
    match s.dev.waitLost w g x.wait with
    | some f => .next { s with dev := s.dev.contextFault w.ctx f }
    | none =>
      if s.dev.waitOver w g r.slot x.wait then .next { s with dev := s.dev.returnWait w r.g r.slot x.wait }
      else .next s
  | none => .next s

/-- SLEEPUNTIL_DEADLINE: the one phase check when CYC reaches the deadline (08 R182; 22 R353). -/
def execSleepuntilDeadline (r : SlotRef) (s : State) : Host.Outcome State Fault Refusal :=
  match s.dev.slotOf r with
  | some (_, g, x) =>
    match x.wait with
    | .until obj tok =>
      let iss : Issue := { Issue.start r.wg (g.home r.g) r.slot x.addr with next := x.resume }
      if s.dev.cyc.toNat < x.wake.toNat then .next s
      else
        match viewOf s.dev iss r.g with
        | none => .next s
        | some v =>
          match v.object obj.toNat with
          | none => .next s
          | some o =>
            match s.dev.objectLost o with
            | some f => .next { s with dev := s.dev.contextFault v.c f }
            | none =>
            match v.untilEnd s.dev o tok with
            | .sleep => .next s
            | .pass d => .next { s with dev := d.modSlot r.wg r.g r.slot Slot.goOn }
            | .fault f => .next { s with dev := s.dev.contextFault v.c f }
            | .trap c d =>
              let d1 := d.modSlot r.wg r.g r.slot (fun y => { y with wait := .awake, wake := 0 })
              .next { s with dev := takeTrap d1 (viewsAt d1 iss) (untilTrap c x.wake.toNat) 0 (fun u => u.waitLanes) }
    | _ => .next s
  | none => .next s

/-! ## The lane-cycle record (22 R340, R341) -/

/-- A bin that counts nothing yet. -/
def Bin.empty : Bin := { range := 0, counts := [0, 0, 0, 0, 0] }

/-- Whether a bin's range holds a packet (22 R341). -/
def Bin.holds (b : Bin) (k : CodeKey) : Bool :=
  let r := b.range.toNat
  bitsN r 48 16 == k.1.toNat && bitsN r 36 12 == k.2.1 && bitsN r 24 12 == k.2.2.1.toNat &&
    decide (bitsN r 12 12 ≤ k.2.2.2) && decide (k.2.2.2 ≤ bitsN r 0 12)

/-- The bin that counts a chain: the lowest that the host has set and that holds it, else bin 64. -/
def Context.binOf (c : Context) (k : CodeKey) : Nat :=
  match (List.range 64).find? (fun j => match c.bins.find? (fun p => p.1 == j) with
    | some p => p.2.holds k
    | none => false) with
  | some j => j
  | none => 64

/-- The context with lanes added to the class counters of a bin, in the order of Table 22-4. -/
def Context.countLanes (c : Context) (j : Nat) (counts : List Nat) : Context :=
  let b := tableGet Bin.empty c.bins j
  let sum (i : Nat) : BitVec 64 := b.counts.getD i 0 + BitVec.ofNat 64 (counts.getD i 0)
  { c with bins := tableSet c.bins j { b with counts := (List.range 5).map sum } }

/-- The number of lanes of a mask. -/
def laneCount (m : Word) : Nat := (lanesOf m).length

/-- The active lanes of an item of a chain; a NOP has none of its own. -/
def itemLanes (it : Item) (v : View) : Word :=
  match it.instr with
  | some (.nop _) => 0
  | some i => Instr.lanes i v
  | none => 0

/-- The lanes of a view in the classes active, predicated off, masked by divergence and absent for a chain. A chain that issues
with nothing but NOPs has the base set active. -/
def View.laneClasses (v : View) (items : List Item) : List Nat :=
  let live := v.present &&& ~~~v.grp.exited
  let bare (x : Slot) : Slot := { x with span := x.span.map (fun s => { s with pred := none }) }
  let wide (v : View) : Word := { v with slot := bare v.slot }.base
  let spanned (h : Hdr) (k : BitVec 12) : View :=
    { v with slot := { v.slot with span := some (spanInfo h k), afterTerm := false } }
  let pair := match items with
    | it :: _ =>
      (match it.instr with
       | some (.span h k) => ((spanned h k).base, wide (spanned h k))
       | some (.next _) => (v.slot.mask &&& live, 0)
       | _ =>
         (if (workItem items).isNone then v.base else items.foldl (fun m it => m ||| itemLanes it v) 0, wide v))
    | [] => (0, 0)
  let act := pair.1 &&& live
  let off := pair.2 &&& live &&& ~~~act
  [laneCount act, laneCount off, laneCount (live &&& ~~~act &&& ~~~off), 32 - laneCount live, 0]

/-- Counts the lanes of a chain that issues, in each hardware group that it issues in. -/
def Device.countChain (d : Device) (vs : List View) (items : List Item) : Device :=
  vs.foldl (fun d v =>
    if v.ctx.dbgBlock.lcr then d.modCtx v.c (fun x => x.countLanes (x.binOf v.codeKey) (v.laneClasses items)) else d) d

/-- The counter that a wait counts in (22 R341): barrier wait, copy wait, sleep. -/
def Wait.counter : Wait → Option Nat
  | .awake => none
  | .bar _ _ => some 0
  | .copy _ _ => some 1
  | .until _ _ => some 1
  | .matrix _ => some 1
  | .sleep => some 2

/-- Counts one group, or one half-group, of some slots in a wait counter when all its occupied slots sleep. -/
def Device.countAsleep (d : Device) (c : BitVec 6) (slots : List (Option Slot)) (present : Word) : Device :=
  let occupied := slots.filterMap id
  match occupied with
  | [] => d
  | s :: _ =>
    match s.wait.counter with
    | some k =>
      if (d.ctx c).dbgBlock.lcr && occupied.all (fun s => s.wait != .awake) then
        d.modCtx c (fun x =>
          { x with waitCounts := modAt x.waitCounts k (· + BitVec.ofNat 64 (laneCount present)) })
      else d
    | none => d

/-- The wait counters of a partition clock. The upper hardware group of a pair waits with the lower one, whose slots hold the
pair's waits (16 R281; log entry 23). -/
def Device.countWaits (d : Device) (core : BitVec 8) (part : BitVec 5) : Device :=
  (d.residents core part).foldl (fun d x =>
    match x.1.groups[x.2.1]? with
    | some g =>
      if g.pair = some true then
        match x.1.groups[x.2.1 - 1]? with
        | some low => d.countAsleep x.1.ctx [low.slot0, low.slot1] g.present
        | none => d
      else
      if d.halfOf x.1 true then
        (d.countAsleep x.1.ctx [g.slot0] (g.present &&& 0x0000FFFF)).countAsleep x.1.ctx [g.slot1]
          (g.present &&& 0xFFFF0000)
      else d.countAsleep x.1.ctx [g.slot0, g.slot1] g.present
    | none => d) d

/-- Clears the YIELD marks of a partition's groups, but for one of them (07 R164). -/
def Device.unmark (d : Device) (core : BitVec 8) (part : BitVec 5) (keep : Option (Nat × Nat)) : Device :=
  (d.residents core part).foldl (fun d x =>
    if keep = some (x.1.uid, x.2.1) then d else d.modGroup x.1.uid x.2.1 (fun g => { g with yielded := false })) d

/-- The context that idle lanes go to: that of the group in the slot the pointer names. -/
def Device.idleContext (d : Device) (core : BitVec 8) (part : BitVec 5) : Option (BitVec 6) :=
  ((d.residents core part).find? (fun x =>
    x.2.2 == tableGet 11 d.pointers (partKey core part))).map (fun x => x.1.ctx)

/-- A clock in which a partition issues no chain: its 32 lanes are idle, and the waits are counted. -/
def Device.idleLanes (d : Device) (core : BitVec 8) (part : BitVec 5) : Device :=
  let d1 := match d.idleContext core part with
    | some c => if (d.ctx c).dbgBlock.lcr then d.modCtx c (fun x => x.countLanes 64 [0, 0, 0, 0, 32]) else d
    | none => d
  d1.countWaits core part

/-- A clock in which no group of a partition is ready: no YIELD mark is left. -/
def Device.idleClock (d : Device) (core : BitVec 8) (part : BitVec 5) : Device :=
  (d.idleLanes core part).unmark core part none

/-- PARTITION_CLOCK: nothing happens when a chain is ready to issue. -/
def execPartitionClock (core : BitVec 8) (part : BitVec 5) (s : State) : Host.Outcome State Fault Refusal :=
  if (s.dev.pick core part).isSome then .next s else .next { s with dev := s.dev.idleClock core part }

end Sys2Proof.Machine
end

