-- ==== Sys2Proof/Machine/Image.lean ====
section
/-! DEFINITION. The Locket image (16 R267 to R277, R283): its tables read, its kernels built from them, and the loader's
checks 1 and 3 to 8 (16 R275). All numbers in an image are little-endian (02 R39). -/

namespace Sys2Proof.Machine

open Sys2Proof

/-- The bytes of an image. -/
abbrev Image := List (BitVec 8)

/-- Whether a table lies inside an image of a size, aligned (16 R267). An empty table lies anywhere. -/
def inside (size off len align : Nat) : Bool := len == 0 || (decide (off % align = 0) && decide (off + len ≤ size))

/-! ## The Locket header (16 Table 16-1) -/

/-- The Locket header. -/
structure Header where
  dbg : Bool
  nk : Nat
  ng : Nat
  nr : Nat
  nt : Nat
  ktab : Nat
  gtab : Nat
  plan : Nat
  rtab : Nat
  nrel : Nat
  ttab : Nat
  deriving DecidableEq, Repr, Inhabited

/-- The header of an image. -/
def headerOf (img : Image) : Header :=
  { dbg := bitN (leAt img 0 4) 0, nk := leAt img 8 2, ng := leAt img 10 2, nr := leAt img 12 2, nt := leAt img 14 2,
    ktab := leAt img 16 4, gtab := leAt img 20 4, plan := leAt img 24 4, rtab := leAt img 28 4, nrel := leAt img 32 4,
    ttab := leAt img 36 4 }

/-- Where the records of each graph lie and how many they are, or `none` when the table leaves the image. -/
def graphPlaces (img : Image) (off : Nat) : Nat → Option (List (Nat × Nat))
  | 0 => some []
  | n + 1 =>
    let count := leAt img off 4
    if img.length < off + 4 + 64 * count then none
    else (graphPlaces img (off + 4 + 64 * count) n).map (fun l => (off + 4, count) :: l)

/-- The offset of a kernel header. -/
def kernelAt (img : Image) (k : Nat) : Nat := leAt img ((headerOf img).ktab + 4 * k) 4

/-! ## Kernel headers (16 Table 16-4) -/

/-- The fields of a kernel header that say where its tables lie. -/
structure Tables where
  nb : Nat
  ns : Nat
  h : Nat
  code : Nat
  btab : Nat
  stab : Nat
  mtab : Nat
  settab : Nat
  lists : Nat
  port : Nat
  psize : Nat
  csize : Nat
  deriving DecidableEq, Repr, Inhabited

/-- The table fields of the header at an offset. -/
def tablesAt (img : Image) (o : Nat) : Tables :=
  { nb := leAt img (o + 46) 2, ns := leAt img (o + 48) 2, h := bitsN (leAt img (o + 50) 1) 0 4,
    code := leAt img (o + 52) 4, btab := leAt img (o + 56) 4, stab := leAt img (o + 60) 4, mtab := leAt img (o + 64) 4,
    settab := leAt img (o + 68) 4, lists := leAt img (o + 72) 4, port := leAt img (o + 76) 4,
    psize := leAt img (o + 80) 4, csize := leAt img (o + 84) 4 }

/-- The role classes of a header: those that are not all zero (16 Table 16-4). -/
def rolesAt (img : Image) (o : Nat) : List Role :=
  ((List.range 4).map (fun j => leAt img (o + 12 + 4 * j) 4)).filterMap (fun w =>
    if w = 0 then none else some { first := bitsN w 24 8, last := bitsN w 16 8, budget := bitsN w 0 10 })

/-- Whether a slice budget is one (01 R13). -/
def budgetOk (b : Nat) : Bool := decide (8 ≤ b) && decide (b ≤ 512) && b % 8 == 0

/-- Whether the role classes neither overlap nor pass 95. -/
def rolesOk : List Role → Bool
  | [] => true
  | r :: rest =>
    decide (r.first ≤ r.last) && decide (r.last ≤ 95) && budgetOk r.budget &&
      rest.all (fun q => decide (r.last < q.first) || decide (q.last < r.first)) && rolesOk rest

/-- The bits of %wid field 0 in a width mode (06 R127). -/
def laneBitsOf (wmode : Nat) : Nat := if wmode = 0 then 4 else if wmode = 2 then 6 else 5

/-- The widths of %wid fields 1 to 5. -/
def widthsAt (img : Image) (o : Nat) : List Nat :=
  let w := leAt img (o + 40) 4
  (List.range 5).map (fun j => bitsN w (6 * j) 6)

/-- Check 3 of 16 R275 for the header at an offset. -/
def kernelHeaderOk (img : Image) (o : Nat) : Bool :=
  let f := leAt img (o + 4) 4
  let t := tablesAt img o
  let rawRoles := (List.range 4).map (fun j => leAt img (o + 12 + 4 * j) 4)
  let shared := leAt img (o + 28) 4
  let tiles := leAt img (o + 32) 2
  let ptiles := leAt img (o + 34) 2
  leAt img o 4 == 0x03000060 && bitsN f 8 24 == 0 && bitsN f 4 2 == 0 && bitsN f 0 2 != 3 &&
    budgetOk (leAt img (o + 8) 2) && decide (7 ≤ leAt img (o + 10) 2) &&
    rawRoles.all (fun w => bitsN w 10 6 == 0) && rolesOk (rolesAt img o) &&
    shared % 8 == 0 && decide (shared ≤ 524288) && decide (tiles + ptiles ≤ 128) &&
    decide (leAt img (o + 36) 2 ≤ 32) && leAt img (o + 38) 2 % 4 == 0 && bitsN (leAt img (o + 40) 4) 30 2 == 0 &&
    (widthsAt img o).all (fun w => decide (w ≤ 32)) &&
    decide ((widthsAt img o).foldl (· + ·) (laneBitsOf (bitsN f 0 2)) ≤ 64) &&
    decide (1 ≤ t.nb) && decide (t.nb ≤ 4096) && decide (1 ≤ t.ns) && decide (t.ns ≤ 4096) && decide (t.h ≤ 12) &&
    bitsN (leAt img (o + 50) 1) 4 4 == 0 && leAt img (o + 51) 1 == 0 && t.csize % 12 == 0 &&
    (t.port != 0 || t.psize == 0) && leAt img (o + 88) 8 == 0 && !(bitN f 3 && ptiles != 0)

/-! ## The automaton's tables (06 R130 to R132) -/

/-- A block-table entry; its must-be-zero bits are for check 4. -/
def blockAt (img : Image) (t : Tables) (k : Nat) : BlockEntry :=
  let w := leAt img (t.btab + 4 * k) 4
  { join := bitN w 31, fall := BitVec.ofNat 12 (w / 2 ^ 12), single := BitVec.ofNat 12 w }

/-- A sorted list of blocks. -/
def blocksAt (img : Image) (off n : Nat) : List (BitVec 12) :=
  (List.range n).map (fun j => BitVec.ofNat 12 (leAt img (off + 2 * j) 2))

/-- The three words of a packet of code. -/
def packetAt (img : Image) (off : Nat) : List Word :=
  (List.range 3).map (fun j => BitVec.ofNat 32 (leAt img (off + 4 * j) 4))

/-- Whether an instruction is NEXT. -/
def isNext (i : Instr) : Bool :=
  match i with
  | .next _ => true
  | _ => false

/-- Whether a packet holds NEXT. -/
def packetEnds (ws : List Word) : Bool :=
  (packetItems ws 0 3).any (fun it => match it.instr with | some i => isNext i | none => false)

/-- The code from a place up to and with the packet that holds NEXT, at most `n` packets. -/
def codeFrom (img : Image) (off : Nat) : Nat → List Word
  | 0 => []
  | n + 1 =>
    let ws := packetAt img off
    if packetEnds ws then ws else ws ++ codeFrom img (off + 12) n

/-- A state record (06 Table 06-2). -/
def stateAt (img : Image) (t : Tables) (s : Nat) : StateRec :=
  let o := t.stab + 32 * s
  let w := leAt img (o + 4) 4
  let ncand := bitsN (leAt img (o + 24) 4) 0 4
  let map := t.mtab + 512 * s
  { code := codeFrom img (t.code + leAt img o 4) ((t.csize - leAt img o 4) / 12)
    join := if bitN w 15 then some (BitVec.ofNat 12 (w / 2 ^ 16)) else none
    cands := (List.range ncand).map (fun j => BitVec.ofNat 12 (leAt img (o + 8 + 2 * j) 2))
    set := blocksAt img (t.lists + leAt img (o + 28) 4) (bitsN w 0 6)
    succ := (List.range 256).filterMap (fun p =>
      let e := leAt img (map + 2 * p) 2
      if bitN e 15 then some (p, BitVec.ofNat 12 e) else none) }

/-- Whether a state record and its map keep 06 R131 by themselves. -/
def stateRecordOk (img : Image) (t : Tables) (s : Nat) : Bool :=
  let o := t.stab + 32 * s
  let w := leAt img (o + 4) 4
  let c := leAt img (o + 24) 4
  let n := bitsN c 0 4
  leAt img o 4 % 12 == 0 && bitsN w 28 4 == 0 && bitsN w 6 9 == 0 && decide (1 ≤ bitsN w 0 6) &&
    decide (bitsN w 0 6 ≤ 32) && bitsN c 4 28 == 0 && decide (n ≤ 8) &&
    (List.range 8).all (fun j =>
      let x := leAt img (o + 8 + 2 * j) 2
      if j < n then decide (x < 4096) else x == 0) &&
    (List.range 256).all (fun p =>
      let e := leAt img (t.mtab + 512 * s + 2 * p) 2
      if p = 0 || 2 ^ n ≤ p then e == 0 else bitsN e 12 3 == 0) &&
    (List.range (bitsN w 0 6)).all (fun j => decide (leAt img (t.lists + leAt img (o + 28) 4 + 2 * j) 2 < 4096))

/-- The set table (06 R132). -/
def setsAt (img : Image) (t : Tables) : List (Option (BitVec 12)) :=
  (List.range (2 ^ t.h)).map (fun j =>
    let e := leAt img (t.settab + 4 * j) 4
    if bitN e 31 then some (BitVec.ofNat 12 e) else none)

/-! ## The portable form (16 R283) -/

/-- The SPAN word of a block. -/
def spanWord (k : Nat) : Word := BitVec.ofNat 32 (0x6A200000 + k)

/-- The code of a block of a portable form as packets. -/
def portCode (img : Image) (t : Tables) (k : Nat) : List Word :=
  let off := leAt img (t.port + 4 + 8 * k) 4
  (List.range (leAt img (t.port + 8 + 8 * k) 4 / 12)).flatMap (fun n => packetAt img (off + 12 * n))

/-- The instructions of some packets of code, in order. -/
def codeItems (code : List Word) : List Item :=
  (List.range (code.length / 3)).flatMap (fun n => packetItems (packetOf code n) 0 3)

/-- The block that a terminator names. -/
def targetOf (i : Instr) : List (BitVec 12) :=
  match i with
  | .jmp _ m => [m]
  | .br _ _ _ m => [m]
  | .call _ m => [m]
  | _ => []

/-- The block field of an instruction (04 Table 04-12). -/
def blockField (i : Instr) : List (BitVec 12) :=
  match i with
  | .span _ b => [b]
  | i => targetOf i

/-- The native code of a kernel. -/
def nativeCode (img : Image) (t : Tables) : List Word :=
  (List.range (t.csize / 12)).flatMap (fun n => packetAt img (t.code + 12 * n))

/-- Whether every block field in some code is below a bound. -/
def fieldsBelow (n : Nat) (code : List Word) : Bool :=
  (codeItems code).all (fun it => match it.instr with
    | some i => (blockField i).all (fun b => decide (b.toNat < n))
    | none => true)

/-- The code of the state that lowering gives a block: SPAN, the block's code, and NEXT, each in packets of their own. -/
def loweredCode (img : Image) (t : Tables) (k : Nat) : List Word :=
  [spanWord k, 0x6A000000, 0x6A000000] ++ portCode img t k ++ [0x6A400000, 0x6A000000, 0x6A000000]

/-- The state that lowering gives a block: the candidates are the targets of its terminator and its fallthrough, and each
of them alone is mapped to its own state. -/
def loweredState (img : Image) (t : Tables) (k : Nat) : StateRec :=
  let targets := (codeItems (portCode img t k)).flatMap (fun it =>
    match it.instr with | some i => targetOf i | none => [])
  let fall := (blockAt img t k).fall
  let cands := (targets ++ (if fall.toNat < t.nb then [fall] else [])).eraseDups
  { code := loweredCode img t k, join := none, cands := cands, set := [BitVec.ofNat 12 k],
    succ := (List.range cands.length).map (fun j => (2 ^ j, cands.getD j 0)) }

/-- Whether a portable form keeps its layout: each block's code lies inside the image, holds no SPAN and no NEXT, and ends
in its one terminator. -/
def portOk (img : Image) (t : Tables) : Bool :=
  t.port != 0 && leAt img t.port 4 == t.nb && decide (4 + 8 * t.nb ≤ t.psize) &&
    (List.range t.nb).all (fun k =>
      let size := leAt img (t.port + 8 + 8 * k) 4
      let items := codeItems (portCode img t k)
      let real := items.filterMap (fun it =>
        match it.instr with | some (.nop _) => none | some i => some i | none => none)
      size % 12 == 0 && decide (leAt img (t.port + 4 + 8 * k) 4 + size ≤ img.length) &&
        real.all (fun i => match i with | .span _ _ => false | .next _ => false | _ => true) &&
        (real.filter isTerminator).length == 1 &&
        (match real.getLast? with | some i => isTerminator i | none => false))

/-! ## Kernels -/

/-- The kernel of the header at an offset (16 R272); the automaton of native code, or that of the portable form lowered. -/
def kernelOf (img : Image) (o : Nat) : Kernel :=
  let f := leAt img (o + 4) 4
  let t := tablesAt img o
  let lowered := t.csize == 0
  { wmode := BitVec.ofNat 2 f, quad := bitN f 3, ordr := bitN f 2, cb0 := bitN f 6, cb1 := bitN f 7,
    slices := leAt img (o + 8) 2, dstack := leAt img (o + 10) 2, roles := rolesAt img o,
    shared := bitsN (leAt img (o + 28) 4) 0 20, tiles := leAt img (o + 32) 2, ptiles := leAt img (o + 34) 2,
    nbar := leAt img (o + 36) 2, stack := leAt img (o + 38) 2, widths := widthsAt img o,
    entry := BitVec.ofNat 12 (leAt img (o + 44) 2),
    blocks := (List.range t.nb).map (fun k =>
      if lowered then { blockAt img t k with single := BitVec.ofNat 12 k } else blockAt img t k)
    states :=
      if lowered then (List.range t.nb).map (loweredState img t) else (List.range t.ns).map (stateAt img t)
    sets := if lowered then [] else setsAt img t }

/-- The kernels of an image. -/
def kernelsOf (img : Image) : List Kernel := (List.range (headerOf img).nk).map (fun k => kernelOf img (kernelAt img k))

/-! ## Check 1: the header and the tables (16 R267) -/

/-- Whether the tables that a kernel header points to lie inside the image, whether or not the kernel has native code. -/
def tablesInside (img : Image) (o : Nat) : Bool :=
  let t := tablesAt img o
  let n := img.length
  inside n t.btab (4 * t.nb) 4 && inside n t.port t.psize 4 && inside n t.code t.csize 4 &&
    inside n t.stab (32 * t.ns) 32 && inside n t.mtab (512 * t.ns) 4 && inside n t.settab (4 * 2 ^ t.h) 4 &&
    (List.range t.ns).all (fun s =>
      decide (t.lists + leAt img (t.stab + 32 * s + 28) 4 + 2 * bitsN (leAt img (t.stab + 32 * s + 4) 4) 0 6 ≤ n)) &&
    t.lists % 4 == 0

/-- Check 1 of 16 R275: `size` is the size that LOAD names. -/
def checkHeader (img : Image) : Bool :=
  let x := headerOf img
  let w := leAt img 0 4
  let n := img.length
  decide (64 ≤ n) && bitsN w 24 8 == 3 && bitsN w 1 23 == 0 && leAt img 4 4 == n && decide (1 ≤ x.nk) &&
    decide (x.nk ≤ 4096) && decide (x.ng ≤ 4096) && decide (x.nr ≤ 1024) && decide (x.nt ≤ 256) &&
    leAt img 40 24 == 0 && inside n x.ktab (4 * x.nk) 4 && inside n x.plan (32 * x.nr) 4 &&
    inside n x.rtab (8 * x.nrel) 4 && inside n x.ttab (132 * x.nt) 4 && (x.ng == 0 || x.gtab % 4 == 0) &&
    (graphPlaces img x.gtab x.ng).isSome &&
    (List.range x.nk).all (fun k =>
      let o := kernelAt img k
      inside n o 96 32 && tablesInside img o)

/-! ## Check 4: the automaton (06 R133) -/

/-- Whether the instructions of a packet form lawful chains (04 R81 to R83); `earlier` are those of the current chain. -/
def chainsOk (earlier : List Item) : List Item → Bool
  | [] => true
  | it :: rest =>
    !(it.chain && decide (3 ≤ it.start + it.len)) && !(itemAlone it && (it.chain || !earlier.isEmpty)) &&
      earlier.all (fun e => match itemPipe it, itemPipe e with | some p, some q => p != q | _, _ => true) &&
      chainsOk (if it.chain then earlier ++ [it] else []) rest

/-- Whether a packet is well formed under 04 R78 to R90. -/
def packetOk (ws : List Word) : Bool :=
  let items := packetItems ws 0 3
  items.all (fun it => it.failing.isNone) && chainsOk [] items

/-- What a walk over a state's code has found: the block of the span, the blocks that have had a SPAN and a terminator,
whether NEXT has come, and whether every rule has held. -/
structure Scan where
  cur : Option (BitVec 12)
  seen : List (BitVec 12)
  ended : List (BitVec 12)
  next : Bool
  ok : Bool
  deriving DecidableEq, Repr, Inhabited

/-- One instruction of the walk. -/
def Scan.step (k : Kernel) (set : List (BitVec 12)) (x : Scan) (i : Instr) : Scan :=
  let below (b : BitVec 12) : Bool := decide (b.toNat < k.blocks.length)
  match i with
  | .nop _ => x
  | .next _ => { x with next := true, ok := x.ok && !x.next }
  | .span _ b =>
    { x with cur := some b, seen := b :: x.seen,
             ok := x.ok && !x.next && below b && set.contains b && !x.ended.contains b }
  | i =>
    if isTerminator i then
      let falls := match i, x.cur with
        | .br _ _ _ _, some b => below (k.fall b)
        | _, _ => true
      match x.cur with
      | none => { x with ok := x.ok && !x.next && (targetOf i).all below }
      | some b =>
        { x with ended := b :: x.ended,
                 ok := x.ok && !x.next && (targetOf i).all below && falls && !x.ended.contains b }
    else { x with ok := x.ok && !x.next }

/-- Whether a state's code keeps 06 R133 and the block-number checks. -/
def stateCodeOk (k : Kernel) (r : StateRec) : Bool :=
  let items := codeItems r.code
  let x := items.foldl (fun x it => match it.instr with | some i => Scan.step k r.set x i | none => { x with ok := false })
    { cur := none, seen := [], ended := [], next := false, ok := true }
  decide (4 * r.code.length ≤ 64 * 2 ^ 20) && decide (0 < r.code.length) &&
    (List.range (r.code.length / 3)).all (fun n => packetOk (packetOf r.code n)) &&
    x.ok && x.next && r.set.all (fun b => x.seen.contains b && x.ended.contains b)

/-- Whether a list of blocks is strictly rising and below a bound. -/
def sortedBelow (n : Nat) (l : List (BitVec 12)) : Bool := blockSet l == l && l.all (fun b => decide (b.toNat < n))

/-- The candidates that a vote pattern selects. -/
def selected (cands : List (BitVec 12)) (p : Nat) : List (BitVec 12) :=
  (List.range cands.length).filterMap (fun j => if bitN p j then cands[j]? else none)

/-- The automaton's part of check 4 of 16 R275 for a kernel. -/
def automatonOk (k : Kernel) : Bool :=
  let setOf (s : BitVec 12) : Option (List (BitVec 12)) := (k.states[s.toNat]?).map (fun r => r.set)
  (List.range k.blocks.length).all (fun b => setOf (k.single (BitVec.ofNat 12 b)) == some [BitVec.ofNat 12 b]) &&
    (match setOf k.entry with | some [_] => true | _ => false) &&
    k.states.all (fun r =>
      sortedBelow k.blocks.length r.set && stateCodeOk k r &&
        r.succ.all (fun e => setOf e.2 == some (blockSet (selected r.cands e.1))) &&
        (match r.join with
         | some b => (match k.blocks[b.toNat]? with | some e => e.join | none => false)
         | none => true)) &&
    (k.sets.filterMap id).all (fun s =>
      match setOf s with
      | some x => k.lookup x == some s && decide (((k.sets.filterMap id).filter (fun u => setOf u == some x)).length = 1)
      | none => false)

/-- Whether every packet of some code is well formed. -/
def packetsOk (code : List Word) : Bool := (List.range (code.length / 3)).all (fun n => packetOk (packetOf code n))

/-- Check 4 of 16 R275 for the kernel at an offset: its tables' fields, the entry state, the block fields and the packets of all
its native code, a portable form's layout, whether or not it is lowered, and the automaton. -/
def checkAutomaton (img : Image) (o : Nat) : Bool :=
  let t := tablesAt img o
  (List.range t.nb).all (fun b => bitsN (leAt img (t.btab + 4 * b) 4) 24 7 == 0) &&
    decide (leAt img (o + 44) 2 < 4096) && fieldsBelow t.nb (nativeCode img t) &&
    packetsOk (nativeCode img t) &&
    (if t.csize = 0 then portOk img t
     else (t.port == 0 || portOk img t) && (List.range t.ns).all (stateRecordOk img t) &&
       (List.range (2 ^ t.h)).all (fun j => bitsN (leAt img (t.settab + 4 * j) 4) 12 19 == 0)) &&
    automatonOk (kernelOf img o)

/-! ## Check 6: relocation (16 R276, R277) -/

/-- A relocation record. -/
structure Reloc where
  off : Nat
  rel : Bool
  kind : Nat
  pos : Nat
  zero : Bool
  deriving DecidableEq, Repr, Inhabited

/-- A relocation record read; `zero` says whether its must-be-zero bits are zero. -/
def relocAt (img : Image) (j : Nat) : Reloc :=
  let o := (headerOf img).rtab + 8 * j
  let w := leAt img (o + 4) 4
  { off := leAt img o 4, rel := bitN w 31, kind := bitsN w 8 3, pos := bitsN w 0 5,
    zero := bitsN w 11 20 == 0 && bitsN w 5 3 == 0 }

/-- The relocation records. -/
def relocsOf (img : Image) : List Reloc := (List.range (headerOf img).nrel).map (relocAt img)

/-- The bits of a field of a kind. -/
def Reloc.bits (r : Reloc) : Nat :=
  match r.kind with
  | 0 => 8 | 1 => 8 | 2 => 2 | 3 => 3 | 4 => 2 | 5 => 6 | _ => 0

/-- The bytes that a field reaches. -/
def Reloc.bytes (r : Reloc) : Nat := (r.pos + r.bits + 7) / 8

/-- The field as it stands in an image. -/
def Reloc.value (r : Reloc) (img : Image) : Nat := bitsN (leAt img r.off r.bytes) r.pos r.bits

/-- An image with a field rewritten. -/
def Reloc.put (r : Reloc) (img : Image) (v : Nat) : Image :=
  overwrite img r.off (natToBytes (putBitsN (leAt img r.off r.bytes) r.pos r.bits v) r.bytes)

/-- Whether two byte ranges meet. -/
def rangesMeet (a m b n : Nat) : Bool := decide (a < b + n) && decide (b < a + m)

/-- The native code of an image, as ranges. -/
def codeRanges (img : Image) : List (Nat × Nat) :=
  (List.range (headerOf img).nk).map (fun k =>
    let t := tablesAt img (kernelAt img k)
    (t.code, t.csize))

/-- The code of the blocks of the portable forms of an image, as ranges (16 R283). -/
def portBlocks (img : Image) : List (Nat × Nat) :=
  (List.range (headerOf img).nk).flatMap (fun k =>
    let t := tablesAt img (kernelAt img k)
    if t.port = 0 then []
    else (List.range t.nb).map (fun b => (leAt img (t.port + 4 + 8 * b) 4, leAt img (t.port + 8 + 8 * b) 4)))

/-- The portable forms of an image, as ranges with the width mode of their kernel: each list of blocks, and the code of each
block wherever it lies (16 R283). -/
def portRanges (img : Image) : List (Nat × Nat × Nat) :=
  (List.range (headerOf img).nk).flatMap (fun k =>
    let t := tablesAt img (kernelAt img k)
    let mode := bitsN (leAt img (kernelAt img k + 4) 4) 0 2
    if t.port = 0 then []
    else (t.port, t.psize, mode) ::
      (List.range t.nb).map (fun b => (leAt img (t.port + 4 + 8 * b) 4, leAt img (t.port + 8 + 8 * b) 4, mode)))

/-- The cores of a die that are enabled and not fenced, in (row, column) order. -/
def Device.liveCores (d : Device) (die : Nat) : List (BitVec 8) :=
  ((List.range 56).map (fun i => BitVec.ofNat 8 (die * 64 + i))).filter (fun c =>
    d.enabled.contains c && !d.fenced.contains c)

/-- The pair leaders of a die whose two cores are live, in (row, column) order. -/
def Device.livePairs (d : Device) (die : Nat) : List (BitVec 8) :=
  (d.liveCores die).filter (fun c => c.toNat % 2 == 0 && (d.liveCores die).contains (c + 1))

/-- The physical form of a logical value, or `none` when it names nothing enabled (16 R277). -/
def Device.physical (d : Device) (kind v : Nat) : Option Nat :=
  let die := v / 64
  let i := v % 64
  match kind with
  | 0 => if 48 ≤ i then none else (d.liveCores die)[i]?.map (fun c => c.toNat)
  | 1 => if 48 ≤ i || i % 2 = 1 then none else (d.livePairs die)[i / 2]?.map (fun c => c.toNat)
  | _ => some v

/-- Check 6 of 16 R275 for a record. -/
def relocOk (d : Device) (img : Image) (r : Reloc) : Bool :=
  r.zero && decide (r.kind ≤ 5) && decide (r.off + r.bytes ≤ img.length) &&
    !(codeRanges img).any (fun c => rangesMeet r.off r.bytes c.1 c.2) &&
    !((portRanges img).any (fun c => rangesMeet r.off r.bytes c.1 c.2.1) && !(r.rel && r.kind == 5)) &&
    (if r.rel then r.kind == 4 || r.kind == 5 else (d.physical r.kind (r.value img)).isSome)

/-- The group width that a width field takes (16 R277). -/
def groupWidth (wmode : Nat) : Nat := if wmode = 0 then 16 else if wmode = 2 then 64 else 32

/-- An image with a record applied. -/
def relocate (d : Device) (img : Image) (r : Reloc) : Image :=
  if r.rel then
    if r.kind = 5 then
      match (portRanges img).find? (fun c => rangesMeet r.off r.bytes c.1 c.2.1) with
      | some c => r.put img (groupWidth c.2.2)
      | none => img
    else img
  else
    match d.physical r.kind (r.value img) with
    | some v => r.put img v
    | none => img

/-! ## Check 7: graphs -/

/-- The records of a graph: `none` when one breaks 15 Table 15-3. -/
def graphRecords (img : Image) (p : Nat × Nat) : Option (List LaunchRec) :=
  (List.range p.2).mapM (fun j => launchOf (slicePad 0 img (p.1 + 64 * j) 64))

/-- Check 7 of 16 R275 for a graph with its records as the image holds them: handles and the high half of tags are zero
(16 R267), the tags differ, kernels exist and pass 06 R128, predecessors name records of the graph. -/
def graphOk (kernels : List Kernel) (rs : List LaunchRec) : Bool :=
  let tags := rs.map (fun r => r.tag)
  decide (tags.Nodup) &&
    rs.all (fun r =>
      r.handle == 0 && decide (r.tag.toNat < 2 ^ 16) &&
        (r.op != 1 || (match kernels[r.kernel]? with | some k => k.launchOk r | none => false)) &&
        r.preds.all (fun p => p == 0 || tags.contains p))

/-- Check 7 of 16 R275. -/
def checkGraphs (img : Image) (kernels : List Kernel) : Bool :=
  match graphPlaces img (headerOf img).gtab (headerOf img).ng with
  | none => false
  | some ps =>
    ps.all (fun p => match graphRecords img p with | some rs => graphOk kernels rs | none => false)

/-- An image with a handle written into its graph records (16 R267). -/
def withHandle (img : Image) (handle : Nat) : Image :=
  match graphPlaces img (headerOf img).gtab (headerOf img).ng with
  | none => img
  | some ps =>
    (ps.flatMap (fun p => (List.range p.2).map (fun j => p.1 + 64 * j))).foldl (fun img o =>
      let tag (img : Image) (x : Nat) : Image :=
        if leAt img x 4 = 0 then img else overwrite img (x + 2) (natToBytes handle 2)
      let img1 := overwrite img (o + 6) (natToBytes handle 2)
      [28, 32, 36, 40, 44].foldl (fun img k => tag img (o + k)) img1) img

/-- The graphs of a loaded image. -/
def graphsOf (img : Image) : List (List LaunchRec) :=
  match graphPlaces img (headerOf img).gtab (headerOf img).ng with
  | none => []
  | some ps => ps.map (fun p => (graphRecords img p).getD [])

/-! ## Check 8: initial tensor maps -/

/-- The initial tensor maps: entry numbers and contents. -/
def mapsOf (img : Image) : List (Nat × BitVec 1024) :=
  (List.range (headerOf img).nt).map (fun j =>
    let o := (headerOf img).ttab + 132 * j
    (leAt img o 4, BitVec.ofNat 1024 (leAt img (o + 4) 128)))

/-- Check 8 of 16 R275. -/
def checkMaps (img : Image) : Bool := (mapsOf img).all (fun m => decide (m.1 < 256) && tmOk m.2)

end Sys2Proof.Machine
end

