-- ==== Sys2Proof/Machine/Keccak.lean ====
section
/-! DEFINITION. SHAKE256 (FIPS 202), which measurement uses (16 R278). The spec names the function and does not define it
(log entry 29). -/

namespace Sys2Proof.Machine

/-- The 25 lanes of the sponge, lane (x, y) at 5 * y + x. -/
abbrev Sponge := List (BitVec 64)

/-- The bit generator of the round constants, an eight-bit register over x^8 + x^6 + x^5 + x^4 + 1, after some steps. -/
def feedback : Nat → Nat
  | 0 => 1
  | n + 1 =>
    let r := 2 * feedback n
    if 256 ≤ r then Nat.xor r 0x171 else r

/-- The constant of a round: bit 2^j - 1 is output 7 * round + j of the generator. -/
def iotaWord (round : Nat) : BitVec 64 :=
  (List.range 7).foldl (fun w j =>
    if feedback (7 * round + j) % 2 = 1 then w ||| BitVec.ofNat 64 (2 ^ (2 ^ j - 1)) else w) 0

/-- The path along which rho and pi carry the lanes other than lane 0: from (1, 0), each (x, y) goes to (y, 2x + 3y). -/
def lanePath : Nat → Nat × Nat
  | 0 => (1, 0)
  | t + 1 =>
    let p := lanePath t
    (p.2, (2 * p.1 + 3 * p.2) % 5)

/-- The place of a lane in the sponge. -/
def laneIndex (p : Nat × Nat) : Nat := 5 * p.2 + p.1

/-- A lane of a sponge, with the coordinate x taken mod 5. -/
def laneOf (s : Sponge) (x y : Nat) : BitVec 64 := s.getD (laneIndex (x % 5, y)) 0

/-- A sponge whose lane at each place is changed by its coordinates. -/
def mapLanes (s : Sponge) (f : Nat → Nat → BitVec 64 → BitVec 64) : Sponge :=
  (List.range 25).map (fun i => f (i % 5) (i / 5) (s.getD i 0))

/-- Theta: every lane takes in the parity of the column before it and, rotated, of the column after it. -/
def theta (s : Sponge) : Sponge :=
  let parity (x : Nat) : BitVec 64 := (List.range 5).foldl (fun w y => w ^^^ laneOf s x y) 0
  let columns := (List.range 5).map parity
  mapLanes s (fun x _ w => w ^^^ (columns.getD ((x + 4) % 5) 0 ^^^ (columns.getD ((x + 1) % 5) 0).rotateLeft 1))

/-- Rho and pi: lane t of the path, rotated by the triangular number of t + 1, takes the place of the next. -/
def rhoPi (s : Sponge) : Sponge :=
  (List.range 24).foldl (fun r t =>
    setAt r (laneIndex (lanePath (t + 1))) ((s.getD (laneIndex (lanePath t)) 0).rotateLeft ((t + 1) * (t + 2) / 2 % 64))) s

/-- Chi: every lane is flipped where the next lane of its row is 0 and the one after it 1. -/
def chi (s : Sponge) : Sponge := mapLanes s (fun x y w => w ^^^ (~~~ laneOf s (x + 1) y &&& laneOf s (x + 2) y))

/-- The 24 rounds. -/
def keccak (s : Sponge) : Sponge :=
  (List.range 24).foldl (fun s round => modAt (chi (rhoPi (theta s))) 0 (· ^^^ iotaWord round)) s

/-- Absorbs `n` blocks of 136 bytes. -/
def absorb : Nat → List (BitVec 8) → Sponge → Sponge
  | 0, _, a => a
  | n + 1, m, a =>
    let word (x y : Nat) : BitVec 64 :=
      if laneIndex (x, y) < 17 then BitVec.ofNat 64 (leAt m (8 * laneIndex (x, y)) 8) else 0
    absorb n (m.drop 136) (keccak (mapLanes a (fun x y w => w ^^^ word x y)))

/-- The first 512 bits of SHAKE256 of some bytes. -/
def shake256 (m : List (BitVec 8)) : List (BitVec 8) :=
  let k := 136 - m.length % 136
  let pad : List (BitVec 8) := if k = 1 then [0x9F] else 0x1F :: List.replicate (k - 2) 0 ++ [0x80]
  let a := absorb (m.length / 136 + 1) (m ++ pad) (List.replicate 25 0)
  (a.take 8).flatMap (fun l => natToBytes l.toNat 8)

/-- The attestation register extended over some bytes (16 R278). -/
def extendAttest (reg : BitVec 512) (m : List (BitVec 8)) : BitVec 512 :=
  BitVec.ofNat 512 (bytesToNat (shake256 (natToBytes reg.toNat 64 ++ shake256 m)))

end Sys2Proof.Machine
end

