-- ==== Sys2Proof/Machine/Loader.lean ====
section
/-! DEFINITION. The loader (16 R267 to R278): the memory plan checked and allocated in the context's space, and a Locket
loaded whole. Where the loader chooses, it takes a free value that fits (log entry 10). -/

namespace Sys2Proof.Machine

open Sys2Proof

/-! ## The memory plan (16 Tables 16-2, 16-3) -/

/-- Whether a region of a kind lies in main memory. -/
def mainKind (kind : Nat) : Bool := kind == 1 || kind == 4 || kind == 5 || kind == 6 || kind == 7 || kind == 10

/-- The region of a record; the record does not say how many initial bytes it has (log entry 30). -/
def planRegion (img : Image) (handle : Option (BitVec 16)) (j : Nat) : Region :=
  let o := (headerOf img).plan + 32 * j
  let w := leAt img o 4
  let size := leAt img (o + 8) 8
  let init := leAt img (o + 24) 8
  { kind := BitVec.ofNat 8 (w / 2 ^ 24), sub := BitVec.ofNat 8 (w / 2 ^ 16), sec := bitN w 10, r := bitN w 8,
    w := bitN w 9, size := size, base := leAt img (o + 16) 8, phys := 0, handle := handle,
    bytes := if init = 0 then [] else (img.drop init).take size }

/-- The regions of a plan. -/
def planOf (img : Image) (handle : Option (BitVec 16)) : List Region :=
  (List.range (headerOf img).nr).map (planRegion img handle)

/-- Whether the must-be-zero fields of a region record are zero and its initial bytes lie in the image. -/
def planFieldsOk (img : Image) (j : Nat) : Bool :=
  let o := (headerOf img).plan + 32 * j
  let w := leAt img o 4
  bitsN w 11 5 == 0 && bitsN w 0 8 == 0 && leAt img (o + 4) 4 == 0 && decide (leAt img (o + 24) 8 ≤ img.length)

/-- Whether a region by itself keeps 16 R268 to R270, 08 R172, 10 R227, 14 R250 and 17 R307. -/
def regionOk (sec : Bool) (kernels : List Kernel) (r : Region) : Bool :=
  let sub := r.sub.toNat
  let pages := r.size % 65536 == 0
  r.sec == sec && decide (0 < r.size) &&
    (match r.kind.toNat with
     | 1 => sub == 0 && pages && r.base % 65536 == 0 && decide (r.base + r.size ≤ 2 ^ 57)
     | 2 => sub == 0 && r.base == 0 && r.size % 8 == 0 && kernels.all (fun k => decide (r.size ≤ k.shared))
     | 3 => decide (sub ≤ 3) && r.size % 4096 == 0 && r.base % 4096 == 0 && decide (r.base + r.size ≤ 2 ^ 27)
     | 5 => decide (sub ≤ 2) && pages && r.base == 0
     | 7 => decide (sub ≤ 3) && pages && r.base == 0
     | 8 => decide (sub ≤ 3) && r.base == 0 && r.size % 2 == 0 && decide (r.size ≤ 2 * 4096)
     | 9 => decide (sub ≤ 3) && r.base == 0 && r.size % 16 == 0 && decide (r.size ≤ 16 * 256)
     | 4 => sub == 0 && pages && r.base == 0
     | 6 => sub == 0 && pages && r.base == 0
     | 10 => sub == 0 && pages && r.base == 0
     | _ => false)

/-- Whether the regions of a kind are within its limit (16 Table 16-3). -/
def limitOk (all : List Region) (r : Region) : Bool :=
  let same := all.filter (fun q => q.kind == r.kind)
  let one := decide ((same.filter (fun q => q.sub == r.sub)).length ≤ 1)
  match r.kind.toNat with
  | 1 => true
  | 3 => decide (same.length ≤ 16)
  | 5 => one
  | 7 => one
  | 8 => one
  | 9 => one
  | _ => decide (same.length ≤ 1)

/-- Whether a virtual page of a context is not mapped. -/
def Device.pageFree (d : Device) (c : BitVec 6) (va : Nat) : Bool :=
  match walkFrom d va (d.ctx c).root.toNat true walkLevels with
  | .error k => k == kindInvalid
  | .ok _ => false

/-- Whether no page of a virtual range is mapped. -/
def Device.rangeFree (d : Device) (c : BitVec 6) (va size : Nat) : Bool :=
  (List.range (size / 65536)).all (fun n => d.pageFree c (va + 65536 * n))

/-- The data regions of a plan that name their address. -/
def fixedRegions (rs : List Region) : List Region := rs.filter (fun r => r.kind == 1 && decide (r.base ≠ 0))

/-- Whether the regions of a list of ranges do not meet. -/
def disjoint : List (Nat × Nat) → Bool
  | [] => true
  | r :: rest => rest.all (fun q => !rangesMeet r.1 r.2 q.1 q.2) && disjoint rest

/-- Whether no window of a context meets its layer-order and expert-slot tables (10 R227). -/
def windowsOk (rs : List Region) (old : List Region) : Bool :=
  (rs.filter (fun r => r.kind == 3)).all (fun r =>
    (old.filter (fun t => t.kind == 8 || t.kind == 9)).all (fun t =>
      t.sub != r.sub || !rangesMeet r.base r.size t.base t.size))

/-- The hardware groups of a context that hold a spill area. -/
def Device.areasInUse (d : Device) (c : BitVec 6) : List Nat :=
  ((d.wgs.filter (fun w => w.ctx == c && !w.gone)) ++ (d.ctx c).saved).flatMap (fun w =>
    (w.groups.filter (fun g => !g.retired)).map (fun g => g.spill))

/-- The area size with some kernels added (16 R269). -/
def Context.spillSizeWith (x : Context) (kernels : List Kernel) : Nat :=
  kernels.foldl (fun m k => max m k.spillSize) x.spillSize

/-- Whether a LOAD leaves room for the areas in use in an existing spill region (16 R269). -/
def Device.spillOk (d : Device) (c : BitVec 6) (kernels : List Kernel) : Bool :=
  let x := d.ctx c
  match x.region 4 0 with
  | none => true
  | some r =>
    let n := (d.areasInUse c).length
    decide (x.spillSizeWith kernels ≤ x.spillSize) || n == 0 || decide (x.spillSizeWith kernels ≤ r.size / n)

/-- Check 2 of 16 R275. -/
def Device.checkPlan (d : Device) (c : BitVec 6) (img : Image) : Bool :=
  let x := d.ctx c
  let kernels := kernelsOf img
  let rs := planOf img none
  let fixed := fixedRegions rs
  (List.range (headerOf img).nr).all (planFieldsOk img) && rs.all (regionOk x.sec kernels) &&
    rs.all (limitOk (x.regions ++ rs)) && fixed.all (fun r => d.rangeFree c r.base r.size) &&
    disjoint (fixed.map (fun r => (r.base, r.size))) && windowsOk rs x.regions && d.spillOk c kernels

/-! ## Allocation (16 R268, R270, R271) -/

/-- The first number from `p` on, among `n`, that passes a test. -/
def searchFrom (test : Nat → Bool) : Nat → Nat → Option Nat
  | 0, _ => none
  | n + 1, p => if test p then some p else searchFrom test n (p + 1)

/-- A choice of the loader: the first of some free values that fits, else the first number that does. -/
def choose (free : List Nat) (n : Nat) (test : Nat → Bool) : Option Nat :=
  match free.find? test with
  | some p => some p
  | none => searchFrom test n 0

/-- The HBM of the device: 12 stacks of 64 GiB, in 64 KiB pages (00 Table 00-1). -/
def hbmPages : Nat := 12 * 64 * 2 ^ 14

/-- The physical ranges that contexts hold: their regions, their translation tables and their roots. -/
def Device.physTaken (d : Device) : List (Nat × Nat) :=
  d.contexts.flatMap (fun e =>
    ((e.2.regions.filter (fun r => mainKind r.kind.toNat)).map (fun r => (r.phys, r.size))) ++ e.2.tables ++
      (if e.2.state = .free then [] else [(e.2.root.toNat, 2 ^ 21)]))

/-- Whether a physical range is of a world: inside a secure range, or meeting none (23 R362). -/
def Device.rangeInWorld (d : Device) (sec : Bool) (a n : Nat) : Bool :=
  if sec then d.secRanges.any (fun r => decide (r.1 ≤ a) && decide (a + n ≤ r.1 + r.2))
  else d.secRanges.all (fun r => !rangesMeet a n r.1 r.2)

/-- A physical place of a size for the loader. -/
def Device.choosePhys (d : Device) (sec : Bool) (size n : Nat) : Option Nat :=
  let fits (p : Nat) : Bool :=
    decide (65536 * p + size ≤ 65536 * hbmPages) && d.rangeInWorld sec (65536 * p) size &&
      d.physTaken.all (fun r => !rangesMeet (65536 * p) size r.1 r.2)
  (choose ((List.range 64).map (fun k => Config.physicalPage d.tick (64 * n + k))) hbmPages fits).map (65536 * ·)

/-- The table that the entry at a physical address names, made when the entry is not valid. -/
def Device.tableUnder (d : Device) (c : BitVec 6) (ea size n : Nat) : Option (Nat × Device) :=
  let e := Memory.num d.hbm ea 8
  if bitN e 0 then (if bitN e 1 then none else some (bitsN e 8 48 * 256, d))
  else
    match d.choosePhys (d.ctx c).sec size n with
    | none => none
    | some p =>
      some (p, ((d.renew (.phys 0) p size []).putNum (.phys 0) ea 8 (p + 1)).modCtx c
        (fun x => { x with tables := (p, size) :: x.tables }))

/-- The leaf of a page of a region (17 Table 17-4). -/
def leafEntry (r : Region) (pa : Nat) : Nat :=
  pa + 3 + (if r.r then 4 else 0) + (if r.w then 8 else 0) + (if r.sec then 16 else 0)

/-- Maps a 64 KiB page of a context (17 R290, R291). -/
def Device.mapPage (d : Device) (c : BitVec 6) (va leaf n : Nat) : Option Device :=
  match d.tableUnder c ((d.ctx c).root.toNat + 8 * bitsN va 39 18) 4096 (4 * n) with
  | none => none
  | some (t2, d1) =>
    match d1.tableUnder c (t2 + 8 * bitsN va 30 9) 4096 (4 * n + 1) with
    | none => none
    | some (t1, d2) =>
      match d2.tableUnder c (t1 + 8 * bitsN va 21 9) 256 (4 * n + 2) with
      | none => none
      | some (t0, d3) => some (d3.putNum (.phys 0) (t0 + 8 * bitsN va 16 5) 8 leaf)

/-- Maps the pages of a region from page `k` on, `n` of them. -/
def Device.mapPages (d : Device) (c : BitVec 6) (r : Region) (index k : Nat) : Nat → Option Device
  | 0 => some d
  | n + 1 =>
    match d.mapPage c (r.base + 65536 * k) (leafEntry r (r.phys + 65536 * k)) (65536 * index + k) with
    | none => none
    | some d1 => d1.mapPages c r index (k + 1) n

/-- The virtual address of a main-memory region: its own, or one that the loader chooses outside the given ranges. -/
def Device.chooseVa (d : Device) (c : BitVec 6) (r : Region) (avoid : List (Nat × Nat)) (n : Nat) : Option Nat :=
  if r.kind == 1 && decide (r.base ≠ 0) then some r.base
  else
    let fits (p : Nat) : Bool :=
      decide (65536 * p + r.size ≤ 2 ^ 57) && avoid.all (fun q => !rangesMeet (65536 * p) r.size q.1 q.2) &&
        d.rangeFree c (65536 * p) r.size
    let chunks := (List.range 64).map (fun k => Config.regionPage d.tick (64 * n + k)) ++
      (List.range (2 ^ 18)).map (fun i => 2 ^ 23 * i + 1)
    (chunks.find? fits).map (65536 * ·)

/-- Places a main-memory region: its pages are mapped and hold its initial bytes and zeros. -/
def Device.placeMain (d : Device) (c : BitVec 6) (r : Region) (avoid : List (Nat × Nat)) (n : Nat) : Option Device :=
  match d.chooseVa c r avoid n, d.choosePhys r.sec r.size (2 ^ 20 + n) with
  | some va, some pa =>
    let r1 := { r with base := va, phys := pa, bytes := [] }
    let d1 := (d.renew (.phys 0) pa r.size r.bytes).modCtx c (fun x => { x with regions := x.regions ++ [r1] })
    d1.mapPages c r1 n 0 (r.size / 65536)
  | _, _ => none

/-- The scratchpad ranges of a die that contexts hold: windows and tables. -/
def Device.spadTaken (d : Device) (die : Nat) : List (Nat × Nat) :=
  d.contexts.flatMap (fun e =>
    (e.2.regions.filter (fun r => (r.kind == 3 || r.kind == 8 || r.kind == 9) && r.sub.toNat == die)).map (fun r =>
      (r.base, r.size)))

/-- Puts a region at a place of a die's scratchpad, with its initial bytes and zeros. -/
def Device.placeSpad (d : Device) (c : BitVec 6) (r : Region) (base : Nat) : Device :=
  let a := 2 ^ 27 * r.sub.toNat + base
  (d.renew .spad a r.size r.bytes).modCtx c
    (fun x => { x with regions := x.regions ++ [{ r with base := base, bytes := [] }] })

/-- Places one region of a plan, a table outside the windows of its own die; `none` when the loader finds no room. -/
def Device.placeRegion (d : Device) (c : BitVec 6) (avoid : List (Nat × Nat)) (windows : List Region) (n : Nat) (r : Region) :
    Option Device :=
  if mainKind r.kind.toNat then d.placeMain c r avoid n
  else if r.kind = 2 then some (d.modCtx c (fun x => { x with regions := x.regions ++ [r] }))
  else if r.kind = 3 then some (d.placeSpad c r r.base)
  else
    let fits (p : Nat) : Bool :=
      decide (4096 * p + r.size ≤ 2 ^ 27) &&
        (d.spadTaken r.sub.toNat ++ (windows.filter (fun q => q.sub == r.sub)).map (fun q => (q.base, q.size))).all (fun q => !rangesMeet (4096 * p) r.size q.1 q.2)
    match choose ((List.range 64).map (fun k => Config.tablePlace d.tick (64 * n + k))) (2 ^ 15) fits with
    | some p => some (d.placeSpad c r (4096 * p))
    | none => none

/-- Places some regions in order. -/
def Device.placeRegions (d : Device) (c : BitVec 6) (avoid : List (Nat × Nat)) (windows : List Region) (n : Nat) :
    List Region → Option Device
  | [] => some d
  | r :: rest =>
    match d.placeRegion c avoid windows n r with
    | none => none
    | some d1 => d1.placeRegions c avoid windows (n + 1) rest

/-- The spill region and save area that the loader adds when the context would lack them (16 R271). -/
def Context.addedRegions (x : Context) (kernels : List Kernel) (rs : List Region) : List Region :=
  let has (kind : Nat) : Bool := (x.regions ++ rs).any (fun r => r.kind.toNat == kind)
  let added (kind size : Nat) : Region :=
    { kind := BitVec.ofNat 8 kind, sub := 0, sec := x.sec, r := true, w := true, size := size, base := 0, phys := 0,
      handle := none, bytes := [] }
  (if has 4 then [] else [added 4 (roundUp (x.spillSizeWith kernels * 4096) 65536)]) ++
    (if has 10 then [] else [added 10 (64 * 2 ^ 20)])

/-! ## LOAD (15 Table 15-2; 16 R275, R278) -/

/-- Check 5 of 16 R275: the ordered-reduction rule (R273). -/
def ordrOk (x : Context) (kernels : List Kernel) : Bool :=
  kernels.all (fun k => k.ordr == (match x.lockets with | [] => (kernels.headD default).ordr | _ => x.ordr))

/-- The first check of 16 R275 that fails, if one does. -/
def Device.failedCheck (d : Device) (c : BitVec 6) (img : Image) : Option Nat :=
  let heads := (List.range (headerOf img).nk).map (kernelAt img)
  if !checkHeader img then some 1
  else if !d.checkPlan c img then some 2
  else if !heads.all (kernelHeaderOk img) then some 3
  else if !heads.all (checkAutomaton img) then some 4
  else if !ordrOk (d.ctx c) (kernelsOf img) then some 5
  else if !(relocsOf img).all (relocOk d img) then some 6
  else if !checkGraphs img (kernelsOf img) then some 7
  else if !checkMaps img then some 8
  else none

/-- A handle that names no Locket of the context. -/
def Device.freshHandle (d : Device) (c : BitVec 6) : Option Nat :=
  let used (h : Nat) : Bool := (d.ctx c).lockets.any (fun l => l.handle.toNat == h)
  choose [(Config.handle d.tick).toNat] 65536 (fun h => decide (0 < h) && decide (h < 65536) && !used h)

/-- The Locket of an image as loaded: its handle written and its records relocated. -/
def Device.locketOf (d : Device) (img : Image) (handle : Nat) : Locket :=
  let img1 := (relocsOf img).foldl (relocate d) (withHandle img handle)
  { handle := BitVec.ofNat 16 handle, dbg := (headerOf img).dbg, image := img1, kernels := kernelsOf img1,
    graphs := graphsOf img1 }

/-- Loads an image that passes every check: the attestation register is extended over the image as supplied, the regions are
placed and the initial tensor maps written from the image as relocated (16 R277, R278). `none` when there is no room for a region, which refuses the LOAD at check 2. -/
def Device.loadImage (d : Device) (c : BitVec 6) (img : Image) : Option (Device × Nat) :=
  match d.freshHandle c with
  | none => none
  | some h =>
    let x := d.ctx c
    let l := d.locketOf img h
    let rs := planOf l.image (some l.handle)
    let added := x.addedRegions l.kernels rs
    let avoid := (fixedRegions rs).map (fun r => (r.base, r.size))
    let windows := rs.filter (fun r => r.kind == 3)
    let d1 := d.modCtx c (fun x =>
      { x with
        attest := extendAttest x.attest img
        ordr := if x.lockets.isEmpty then (l.kernels.headD default).ordr else x.ordr
        lockets := x.lockets ++ [l] })
    match d1.placeRegions c avoid windows 0 (rs ++ added) with
    | none => none
    | some d2 => some (d2.modCtx c (fun x => (mapsOf l.image).foldl (fun x m => x.setTmap m.1 m.2) x), h)

/-- What a command answers: its status and its result bytes (15 Table 15-1). -/
structure Reply where
  status : Nat
  results : List (BitVec 8)
  deriving DecidableEq, Repr, Inhabited

def statusOk : Nat := 0
def statusBusy : Nat := 1
def statusRefused : Nat := 2
def statusBadcmd : Nat := 3

/-- An answer without results. -/
def Reply.plain (status : Nat) : Reply := { status := status, results := [] }

/-- A LOAD refused at a check. -/
def Reply.failed (check : Nat) : Reply := { status := statusRefused, results := [0, 0] ++ natToBytes check 2 }

/-- LOAD of the image at a host address. An address that is not a multiple of 64, or an image that runs past 2^64, is REFUSED
with check number 0 (log entry 90). -/
def Device.loadLocket (d : Device) (c : BitVec 6) (addr size : Nat) : Reply × Device :=
  if addr % 64 ≠ 0 || 2 ^ 64 < addr + size then (Reply.failed 0, d)
  else
    let img := Memory.bytes d.host addr size
    match d.failedCheck c img with
    | some n => (Reply.failed n, d)
    | none =>
      match d.loadImage c img with
      | none => (Reply.failed 2, d)
      | some (d1, h) => ({ status := statusOk, results := natToBytes h 2 }, d1)

/-! ## UNLOAD (16 R284) -/

/-- Clears the leaves of a region's pages. -/
def Device.unmapPages (d : Device) (c : BitVec 6) (r : Region) (k : Nat) : Nat → Device
  | 0 => d
  | n + 1 =>
    let va := r.base + 65536 * k
    let entry (table shift bits : Nat) : Nat := table + 8 * bitsN va shift bits
    let next (e : Nat) : Nat := bitsN (Memory.num d.hbm e 8) 8 48 * 256
    let e0 := entry (next (entry (next (entry (next (entry (d.ctx c).root.toNat 39 18)) 30 9)) 21 9)) 16 5
    Device.unmapPages (d.putNum (.phys 0) e0 8 0) c r (k + 1) n

/-- The Locket that takes over a region of a Locket that goes: a spill region or a save area, of which the context holds one as
long as it holds a Locket, passes to the first that stays (16 R271; log entry 84). -/
def Context.heir (x : Context) (handle : BitVec 16) (r : Region) : Option (BitVec 16) :=
  if r.kind == 4 || r.kind == 10 then (x.lockets.find? (fun l => l.handle != handle)).map (fun l => l.handle) else none

/-- Takes a Locket's regions away, but for those that pass to another Locket. -/
def Device.dropRegions (d : Device) (c : BitVec 6) (handle : BitVec 16) : Device :=
  let mine := (d.ctx c).regions.filter (fun r => r.handle == some handle && ((d.ctx c).heir handle r).isNone)
  let d1 := (mine.filter (fun r => mainKind r.kind.toNat)).foldl (fun d r => d.unmapPages c r 0 (r.size / 65536)) d
  d1.modCtx c (fun x =>
    { x with
      regions := x.regions.filterMap (fun r =>
        if r.handle == some handle then (x.heir handle r).map (fun h => { r with handle := some h }) else some r)
      experts := x.experts.filter (fun e => !mine.any (fun r => r.kind == 9 && r.sub.toNat == e.1)) })

/-- Whether a launch of a Locket is waiting, ready or running, posted records among them. A launch whose workgroups are saved in
a stopped context is left to the force bit (log entry 31). -/
def Device.locketLive (d : Device) (c : BitVec 6) (handle : BitVec 16) : Bool :=
  let x := d.ctx c
  let saved (tag : Word) : Bool := x.state == .stopped && x.saved.any (fun w => w.handle == handle && w.tag == tag)
  x.launches.any (fun l => l.live && l.record.handle == handle && !saved l.record.tag) ||
    d.posts.any (fun p => p.ctx == c && p.record.handle == handle)

/-- UNLOAD: BUSY while a launch of the Locket is live, or its workgroups are saved and the force bit is 0; the force bit takes
a stopped context's Locket away and marks its saved workgroups. The spec names no drop of cached packets, so those of the Locket
stay until an ICINV (18 R318; log entry 85), and the spill region is cut anew for the kernels that stay (log entry 86). -/
def Device.unloadLocket (d : Device) (c : BitVec 6) (handle : BitVec 16) (force : Bool) : Reply × Device :=
  let x := d.ctx c
  let saved := decide (x.state = .stopped) && x.saved.any (fun w => w.handle == handle)
  if (x.locket handle).isNone then (Reply.plain statusRefused, d)
  else if (saved && !force) || d.locketLive c handle then (Reply.plain statusBusy, d)
  else
    let d1 := d.dropRegions c handle
    (Reply.plain statusOk, d1.modCtx c (fun x =>
      { x with
        lockets := x.lockets.filter (fun l => l.handle != handle)
        saved := x.saved.map (fun w => if w.handle == handle then { w with gone := true } else w) }))

/-! ## PATCH (16 R285, R286) -/

/-- A Locket with bytes written into its image. -/
def Locket.patched (l : Locket) (off : Nat) (bytes : List (BitVec 8)) : Locket :=
  let img := overwrite l.image off bytes
  { l with image := img, kernels := kernelsOf img, graphs := graphsOf img }

/-- Whether a patch covers whole packets of all the code that it touches, native or portable. -/
def patchWhole (img : Image) (off len : Nat) : Bool :=
  (codeRanges img ++ portBlocks img).all (fun c =>
    !rangesMeet off len c.1 c.2 ||
      ((max off c.1 - c.1) % 12 == 0 && (min (off + len) (c.1 + c.2) - c.1) % 12 == 0))

/-- Whether the kernels of a patched image pass the checks of 16 R275 that concern kernels. -/
def kernelsPass (img : Image) : Bool :=
  let heads := (List.range (headerOf img).nk).map (kernelAt img)
  checkHeader img && heads.all (kernelHeaderOk img) && heads.all (checkAutomaton img)

/-- The patches of a context that have not taken effect. -/
def Context.pendingPatches (x : Context) : Nat := (x.launches.filter (fun l => l.live && l.patch.isSome)).length

/-- The record of a patch operation. -/
def patchRecord (queue : Nat) (handle : BitVec 16) : LaunchRec :=
  { queue := queue, prio := 0, op := 2, handle := handle, kernel := 0, ext := [], threads := 0, preds := [], tag := 0 }

/-- PATCH with its 64 command bytes. -/
def Device.patchLocket (d : Device) (c : BitVec 6) (cmd : List (BitVec 8)) : Reply × Device :=
  let x := d.ctx c
  let handle : BitVec 16 := BitVec.ofNat 16 (leAt cmd 4 2)
  let off := leAt cmd 8 4
  let len := leAt cmd 12 2
  let bytes := slicePad 0 cmd 16 len
  match x.locket handle with
  | none => (Reply.plain statusRefused, d)
  | some l =>
    if !l.dbg || len = 0 || 48 < len || l.image.length < off + len || !patchWhole l.image off len ||
        !kernelsPass (overwrite l.image off bytes) || !ordrOk x (kernelsOf (overwrite l.image off bytes)) then (Reply.plain statusRefused, d)
    else if 16 ≤ x.pendingPatches then (Reply.plain statusBusy, d)
    else
      (Reply.plain statusOk, d.modCtx c (fun x =>
        { x with attest := extendAttest x.attest cmd }.enter (patchRecord (bitsN (leAt cmd 6 1) 0 4) handle) none
          (some (off, bytes))))

end Sys2Proof.Machine
end

