-- ==== Sys2Proof/Machine/Place.lean ====
section
/-! DEFINITION. Where a workgroup fits and where it is placed (15 R262 to R264; 16 R269, R280, R281), and the workgroup that
a placement makes (01 R35; 06 R127 to R134; 14 R250). -/

namespace Sys2Proof.Machine

open Sys2Proof

/-! ## Shape of a workgroup -/

/-- The hardware groups of a workgroup of some threads: in mode 16 those whose lower half is a group. -/
def Kernel.hwCount (k : Kernel) (threads : Nat) : Nat :=
  let n := (threads + 15) / 16
  if k.mode64 then 2 * ((threads + 63) / 64)
  else if k.mode16 && k.quad then 4 * (n / 8) + min 4 (n % 8)
  else (threads + 31) / 32

/-- The lanes of a hardware group that are present (06 R128). -/
def Kernel.presentLanes (k : Kernel) (threads j : Nat) : Word :=
  maskOf (fun i =>
    decide ((if k.mode16 then 16 * k.indexAt j (decide (16 ≤ i)) + i % 16 else 32 * j + i) < threads))

/-- The slice budget of a group index (06 R146). -/
def Kernel.budgetOf (k : Kernel) (g : Nat) : Nat :=
  match k.roles.find? (fun r => decide (r.first ≤ g) && decide (g ≤ r.last)) with
  | some r => r.budget
  | none => k.slices

/-- The group index that a hardware group's budget follows: that of its lower half in mode 16, and that of the pair in mode 64
(log entry 59). -/
def Kernel.firstIndex (k : Kernel) (j : Nat) : Nat := if k.mode64 then j / 2 * 2 else k.indexAt j false

/-- The core of a quad, by qcore, that a hardware group lies on (15 R263): its group's index mod 4, which for a pair of mode 64 is
that of the lower hardware group (log entry 59). -/
def Kernel.quadOf (k : Kernel) (j : Nat) : Nat := if k.quad then k.firstIndex j % 4 else 0

/-- The coordinate value of a number of coordinate fields packed from a bit up (06 R127, R129): number `n` in increasing
order. -/
def packCoord (shift n : Nat) : List (Nat × Nat) → Nat
  | [] => 0
  | (ext, w) :: rest => n % max 1 ext * 2 ^ shift + packCoord (shift + w) (n / max 1 ext) rest

/-- The `n`-th lowest coordinate value of a launch. -/
def Kernel.coordAt (k : Kernel) (r : LaunchRec) (n : Nat) : BitVec 64 :=
  BitVec.ofNat 64 (packCoord (laneBitsOf k.wmode.toNat + k.widths.getD 0 0) n
    ((List.range 4).map (fun j => (r.ext.getD j 1, k.widths.getD (j + 1) 0))))

/-- The workgroups of a launch. -/
def LaunchRec.total (r : LaunchRec) : Nat := r.ext.foldl (· * ·) 1

/-! ## What a core holds -/

/-- A resident-group slot of a core: partition and slot number. -/
abbrev Seat := BitVec 5 × Nat

/-- The resident-group slots in use on a core. -/
def Device.usedSeats (d : Device) (core : BitVec 8) : List Seat :=
  (d.wgs.filter (fun w => !w.gone)).flatMap (fun w =>
    (w.groups.filter (fun g => g.core == core && !g.retired)).map (fun g => (g.part, g.rslot)))

/-- The kernel of a workgroup. -/
def Device.kernelOf (d : Device) (w : Workgroup) : Option Kernel := (d.ctx w.ctx).kernel w.handle w.kernel

/-- What the workgroups on a core use of something. -/
def Device.usedOn (d : Device) (core : BitVec 8) (f : Kernel → Nat) : Nat :=
  (d.wgs.map (fun w =>
    if w.occupies core then (match d.kernelOf w with | some k => f k | none => 0) else 0)).foldl (· + ·) 0

/-- The tiles in use on a core, with the follower tiles that leaders hold there (03 R77). -/
def Device.usedTiles (d : Device) (core : BitVec 8) : Nat :=
  d.usedOn core (fun k => k.tiles + k.ptiles) +
    (if core.toNat % 2 = 1 then d.usedOn (core - 1) (fun k => k.ptiles) else 0)

/-- Whether a core is enabled and not fenced. -/
def Device.coreLive (d : Device) (core : BitVec 8) : Bool := d.enabled.contains core && !d.fenced.contains core

/-- Whether a core is of a world: its array's block identifier is among the secure blocks (log entry 32). -/
def Device.coreWorld (d : Device) (core : BitVec 8) (sec : Bool) : Bool :=
  d.secBlocks.contains (BitVec.ofNat 32 (blockId 0 core)) == sec

/-- Whether a segment fits a core, seats and spill areas apart (15 R262). -/
def Device.segmentFits (d : Device) (k : Kernel) (sec : Bool) (core : BitVec 8) : Bool :=
  d.coreLive core && d.coreWorld core sec && decide (d.usedOn core (fun k => k.shared) + k.shared ≤ 524288) &&
    decide (d.usedTiles core + k.tiles + k.ptiles ≤ 128) && decide (d.lockCount core + k.nbar ≤ 64) &&
    (k.ptiles == 0 ||
      (core.toNat % 2 == 0 && d.coreLive (core + 1) && decide (d.usedTiles (core + 1) + k.ptiles ≤ 128)))

/-! ## Seats (15 R264) -/

/-- The groups of a partition among some seats. -/
def seatCount (used : List Seat) (p : BitVec 5) : Nat := (used.filter (fun s => s.1 == p)).length

/-- Whether a write of a generation is outstanding for a resident-group slot (01 R36). -/
def Device.genBusy (d : Device) (core : BitVec 8) (s : Seat) : Bool :=
  d.writes.any (fun w =>
    w.gen == tableGet 0 d.gens (slotKey core s.1 s.2) + 1 &&
      (match d.wg w.wg with
       | some x => (match x.groups[w.g]? with
         | some g => g.core == core && g.part == s.1 && g.rslot == s.2
         | none => false)
       | none => false))

/-- The free slots of a partition, lowest first. -/
def Device.openSlots (d : Device) (core : BitVec 8) (used : List Seat) (p : BitVec 5) : List Nat :=
  (List.range 12).filter (fun n => !used.contains (p, n) && !d.genBusy core (p, n))

/-- The partition with the fewest groups among those with room for `n` more, the lowest first. -/
def Device.pickPart (d : Device) (core : BitVec 8) (used : List Seat) (n : Nat) : Option (BitVec 5) :=
  ((List.range 32).map (BitVec.ofNat 5)).foldl (fun best p =>
    if (d.openSlots core used p).length < n then best
    else
      match best with
      | none => some p
      | some q => if seatCount used p < seatCount used q then some p else some q) none

/-- Seats for some hardware groups of a core in increasing order; the two groups of a pair take one partition. -/
def Device.seat (d : Device) (core : BitVec 8) (pairs : Bool) : List Nat → List Seat → Option (List (Nat × Seat))
  | [], _ => some []
  | j :: rest, used =>
    match d.pickPart core used (if pairs && j % 2 = 0 then 2 else 1) with
    | none => none
    | some p0 =>
      let p := if pairs && j % 2 = 1 then (match used with | s :: _ => s.1 | [] => p0) else p0
      match d.openSlots core used p with
      | [] => none
      | n :: _ => (d.seat core pairs rest ((p, n) :: used)).map (fun l => (j, (p, n)) :: l)

/-- The cores of a placement: the core, or the four of a quad in qcore order. -/
def placeCores (quad : Bool) (origin : BitVec 8) : List (BitVec 8) :=
  if quad then [origin, origin + 1, origin + 8, origin + 9] else [origin]

/-- A seat with its core, for a hardware group. -/
abbrev Placing := Nat × BitVec 8 × Seat

/-- The seats of every hardware group on some cores by qcore, or `none` when they do not fit. -/
def Device.seatAll (d : Device) (k : Kernel) (n : Nat) : Nat → List (BitVec 8) → Option (List Placing)
  | _, [] => some []
  | q, core :: rest =>
    match d.seat core k.mode64 ((List.range n).filter (fun j => k.quadOf j == q)) (d.usedSeats core),
        d.seatAll k n (q + 1) rest with
    | some l, some m => some (l.map (fun x => (x.1, core, x.2)) ++ m)
    | _, _ => none

/-- The seats of a workgroup at an origin, when its segments and groups fit there. -/
def Device.fitAt (d : Device) (k : Kernel) (sec : Bool) (threads : Nat) (origin : BitVec 8) : Option (List Placing) :=
  let cores := placeCores k.quad origin
  if cores.all (d.segmentFits k sec) then d.seatAll k (k.hwCount threads) 0 cores else none

/-- The places a workgroup may have, in (die, row, column) order: cores, or quad origins (15 R263). -/
def placeOrigins (quad : Bool) : List (BitVec 8) :=
  if quad then
    (List.range 4).flatMap (fun die => [0, 2, 4].flatMap (fun r => [0, 2, 4, 6].map (fun c =>
      BitVec.ofNat 8 (die * 64 + r * 8 + c))))
  else (List.range 4).flatMap (fun die => (List.range 56).map (fun i => BitVec.ofNat 8 (die * 64 + i)))

/-- The free spill areas of a context, lowest first (16 R269). -/
def Device.freeAreas (d : Device) (c : BitVec 6) : List Nat :=
  let x := d.ctx c
  let n := match x.region 4 0 with
    | some r => if x.spillSize = 0 then 0 else r.size / x.spillSize
    | none => 0
  let used := d.areasInUse c
  (List.range n).filter (fun a => !used.contains a)

/-- Where a workgroup is placed (15 R264): the fitting place with the fewest resident groups, the lowest first. -/
def Device.bestPlace (d : Device) (k : Kernel) (sec : Bool) (threads : Nat) : Option (BitVec 8 × List Placing) :=
  let load (o : BitVec 8) : Nat := ((placeCores k.quad o).map (fun c => (d.usedSeats c).length)).foldl (· + ·) 0
  (placeOrigins k.quad).foldl (fun best o =>
    match d.fitAt k sec threads o with
    | none => best
    | some l =>
      match best with
      | none => some (o, l)
      | some b => if load o < load b.1 then some (o, l) else best) none

/-! ## The placed workgroup -/

/-- A hardware group as it is placed. -/
def Kernel.newGroup (k : Kernel) (d : Device) (threads spill : Nat) (p : Placing) : Group :=
  let j := p.1
  let core := p.2.1
  let present := k.presentLanes threads j
  let block : BitVec 12 := match k.states[k.entry.toNat]? with | some r => r.set.headD 0 | none => 0
  let gen := tableGet 0 d.gens (slotKey core p.2.2.1 p.2.2.2) + 1
  let at_ (m : Word) : Option Slot := if m = 0 then none else some (Slot.start k.entry m none)
  let slot0 := if k.mode16 then at_ (present &&& 0xFFFF) else some (Slot.start k.entry present none)
  let slot1 := if k.mode16 then at_ (present &&& 0xFFFF0000) else none
  Group.start j p.2.2.1 p.2.2.2 core gen present (k.budgetOf (k.firstIndex j)) block slot0 slot1
    (if k.mode16 then 16 else 32) spill (if k.mode64 then some (j % 2 == 1) else none)

/-- The seat of a hardware group among some placings. -/
def placingOf (ps : List Placing) (j : Nat) : Placing := (ps.find? (fun p => p.1 == j)).getD (j, 0, 0, 0)

/-- The image that every segment of a Locket's workgroups starts with (14 R250). -/
def Context.sharedImage (x : Context) (handle : BitVec 16) : List (BitVec 8) :=
  match x.regions.find? (fun r => r.kind == 2 && r.handle == some handle) with
  | some r => takePad 0 r.bytes r.size
  | none => []

/-- A segment as it is placed: the image, and beyond it contents that the spec leaves open (log entry 69). -/
def Device.newSegment (d : Device) (image : List (BitVec 8)) (size q : Nat) : Memory :=
  Memory.ofBytes 0 (image.take size ++
    (List.range (size - image.length)).map (fun j => Config.placedByte d.tick q (image.length + j)))

/-- A workgroup as it is placed. -/
def Device.newWorkgroup (d : Device) (c : BitVec 6) (k : Kernel) (r : LaunchRec) (n : Nat) (origin : BitVec 8)
    (ps : List Placing) (areas : List Nat) : Workgroup :=
  let image := (d.ctx c).sharedImage r.handle
  { uid := d.nextId, ctx := c, tag := r.tag, ordinal := BitVec.ofNat 32 n, coord := k.coordAt r n, core := origin,
    quad := k.quad, handle := r.handle, kernel := r.kernel
    groups := (List.range (k.hwCount r.threads)).map (fun j =>
      k.newGroup d r.threads (areas.getD j 0) (placingOf ps j))
    shared := (List.range (if k.quad then 4 else 1)).foldl (fun v q => modCore v q (fun _ => d.newSegment image k.shared q))
      (Vector.replicate 4 [])
    tiles := Vector.replicate 4 [], follower := [],
    bars := [], stopped := DebugStop.running, gone := false }

/-- The device with a workgroup placed: the generations of its resident-group slots have moved on (01 R36). -/
def Device.addWorkgroup (d : Device) (w : Workgroup) : Device :=
  { d with
    wgs := d.wgs ++ [w]
    gens := w.groups.foldl (fun t g => tableSet t (slotKey g.core g.part g.rslot) g.gen) d.gens
    nextId := d.nextId + 1 }

end Sys2Proof.Machine
end

