-- ==== Sys2Proof/Machine/Preempt.lean ====
section
/-! DEFINITION. Pre-emption (17 R302 to R306; 16 R282): the save of a context's workgroups and requests as bytes in its save
area, and their restore from those bytes. What the records do not hold (seats, libraries' handles, sequence counters)
stays in the context (log entry 34). -/

namespace Sys2Proof.Machine

open Sys2Proof

/-! ## Group records (17 R305) -/

/-- The sequencer record of a group record (06 R150; 16 R282). The upper group of a pair has none of the pair's fields. In width
mode 16 the library fields are those of half 0; half 1's stay in the context (log entry 88). -/
def Group.seqRecord (g : Group) : SeqRec :=
  let waits (s : Option Slot) : Bool := match s with | some x => x.waiting | none => false
  if g.pair = some true then
    { slot0 := none, slot1 := none, wait0 := false, wait1 := false, parked := 0, exited := 0, depth := 0, depth1 := 0,
      alt := false, lib := none, lbr := g.lbr, link := g.link }
  else
    { slot0 := g.slot0, slot1 := g.slot1, wait0 := waits g.slot0, wait1 := waits g.slot1, parked := g.parked,
      exited := g.exited, depth := g.agent0.depth, depth1 := 0, alt := g.alt,
      lib := g.agent0.library.map (fun l => l.depth), lbr := g.lbr, link := g.link }

/-- Codebook values as bytes. -/
def codebookBytes (l : List (BitVec 16)) : List (BitVec 8) := (takePad 0 l 16).flatMap (fun x => natToBytes x.toNat 2)

/-- The slot of a cell in a group record. A cell that is still evicted at the save, because its spill slot faults (17 R300), has
nothing to put there: the bytes are free values (log entry 81). -/
def StoredCell.saved (c : StoredCell) (n : Nat) : List (BitVec 8) :=
  if c.evicted then (List.range 132).map (Config.unsavedByte n) else c.cell.slot

/-- The bytes of a group record. -/
def Group.record (g : Group) (k : Kernel) : List (BitVec 8) :=
  let word (w : Word) : List (BitVec 8) := natToBytes w.toNat 4
  let rec_ := { g.seqRecord with depth1 := if k.mode16 then g.agent1.depth else 0 }
  (List.range 64).flatMap (fun n => match g.cells[n]? with | some c => c.saved n | none => natToBytes 0 132) ++
    rec_.bytes ++ (takePad 0 g.masks 8).flatMap word ++ codebookBytes (if k.cb0 then g.cb0 else []) ++
    codebookBytes (if k.cb1 then g.cb1 else []) ++ word g.agent0.seg ++ word g.agent0.batch ++ natToBytes g.spill 4 ++
    word g.agent0.phases ++ g.agent0.trap.bytes ++ word g.agent0.openOps ++ natToBytes 0 12 ++
    (if k.mode16 then
      g.agent1.trap.bytes ++ word g.agent1.seg ++ word g.agent1.batch ++ word g.agent1.openOps ++ word g.agent1.phases ++
        natToBytes 0 16
     else [])

/-- A word of some bytes. -/
def wordOf (b : List (BitVec 8)) (off : Nat) : Word := BitVec.ofNat 32 (leAt b off 4)

/-- The words of an agent in a group record, where its trap record, its open operations and its other words lie. -/
def Agent.ofRecord (a : Agent) (b : List (BitVec 8)) (trap seg batch ops phases : Nat) : Option Agent :=
  (TrapRec.ofBytes (slicePad 0 b trap 32)).map (fun t =>
    { a with trap := t, seg := wordOf b seg, batch := wordOf b batch, openOps := wordOf b ops, phases := wordOf b phases })

/-- Whether the bytes of a group record that hold nothing are zero (17 R305): the slots of cells beyond the budget, the bytes
behind the open batch's count, and the end of a mode-16 record. -/
def Group.recordZeros (g : Group) (k : Kernel) (b : List (BitVec 8)) : Bool :=
  leAt b (132 * g.cells.length) (8448 - 132 * g.cells.length) == 0 && leAt b 8820 12 == 0 &&
    (!k.mode16 || leAt b 8880 16 == 0)

/-- A hardware group restored from a group record; `none` when the record is malformed (17 R306; 16 R282). A codebook register
that the header does not declare is not restored (16 R274). A restored cell counts as not accessed yet, so that the restored cells
of a partition are evicted before any other, in slot and cell order (log entry 78). One that was evicted still is, so that its
refill is repeated (17 R300). The waits of its slots are found again afterwards. -/
def Group.ofRecord (g : Group) (k : Kernel) (b : List (BitVec 8)) : Option Group :=
  let cells := (List.range g.cells.length).mapM (fun n =>
    match g.cells[n]? with
    | some c =>
      if c.evicted then some { c with used := 0 }
      else (Cell.ofSlot (slicePad 0 b (132 * n) 132)).map (fun x => { cell := x, evicted := false, used := 0 })
    | none => none)
  let agent1 := if k.mode16 then g.agent1.ofRecord b 8832 8864 8868 8872 8876 else some g.agent1
  let codebook (off : Nat) : List (BitVec 16) := (List.range 16).map (fun j => BitVec.ofNat 16 (leAt b (off + 2 * j) 2))
  match cells, SeqRec.ofBytes (slicePad 0 b 8448 224) k.mode16, g.agent0.ofRecord b 8784 8768 8772 8816 8780, agent1 with
  | some cs, some r, some a0, some a1 =>
    let upper := decide (g.pair = some true)
    if !g.recordZeros k b then none
    else if upper && (r.slot0.isSome || r.slot1.isSome || leAt b 8448 64 != 0) then none
    else if r.lib.isSome != (!upper && g.agent0.library.isSome) then none
    else
      let g1 := { g with
        cells := cs
        masks := (List.range 8).map (fun j => wordOf b (8672 + 4 * j))
        cb0 := if k.cb0 then codebook 8704 else List.replicate 16 0
        cb1 := if k.cb1 then codebook 8736 else List.replicate 16 0
        lbr := r.lbr, link := r.link, spill := leAt b 8776 4 }
      if upper then some { g1 with agent0 := a0, agent1 := a1 }
      else
        some { g1 with
          slot0 := r.slot0, slot1 := r.slot1, parked := r.parked, exited := r.exited, alt := r.alt
          agent0 := { a0 with depth := r.depth, library := a0.library.map (fun l => { l with depth := r.lib.getD l.depth }) }
          agent1 := if k.mode16 then { a1 with depth := r.depth1 } else a1 }
  | _, _, _, _ => none

/-! ## Workgroup records (17 Table 17-9) -/

/-- The barrier-lock records. -/
def barBytes (bars : List BarLock) : List (BitVec 8) :=
  (List.range 32).flatMap (fun j =>
    match bars[j]? with
    | some b => natToBytes b.addr.toNat 8 ++ natToBytes 1 4 ++ natToBytes 0 4
    | none => natToBytes 0 16)

/-- The bytes of a workgroup record (17 Table 17-9). Of bytes 20-23 the kernel's index lies in the lower two and the Locket's
handle in the upper two (log entry 93). -/
def Workgroup.record (w : Workgroup) (k : Kernel) : List (BitVec 8) :=
  natToBytes w.tag.toNat 4 ++ natToBytes w.ordinal.toNat 4 ++ natToBytes w.coord.toNat 8 ++ natToBytes w.core.toNat 2 ++
    natToBytes (if w.quad then 1 else 0) 1 ++ natToBytes w.groups.length 1 ++ natToBytes w.kernel 2 ++
    natToBytes w.handle.toNat 2 ++ natToBytes (k.recordSize w.coreCount w.groups.length) 4 ++ natToBytes 0 36 ++
    barBytes w.bars ++ (List.range w.coreCount).flatMap (fun q => Memory.bytes (perCore w.tiles q) 0 (4096 * k.tiles)) ++
    (List.range k.ptiles).flatMap (fun p =>
      Memory.bytes (perCore w.tiles 0) (4096 * (k.tiles + p)) 4096 ++ Memory.bytes w.follower (4096 * (k.tiles + p)) 4096) ++
    (List.range w.coreCount).flatMap (fun q => Memory.bytes (perCore w.shared q) 0 k.shared) ++ w.groups.flatMap (fun g => g.record k)

/-- A memory with a range replaced by bytes. -/
def Memory.fill (m : Memory) (a : Nat) (bytes : List (BitVec 8)) : Memory :=
  Memory.putBytes (Memory.clear m a bytes.length) a bytes

/-- Whether the barrier-lock records of a workgroup record are well formed: a valid one names an object (08 R188). -/
def Workgroup.barsOk (w : Workgroup) (k : Kernel) (b : List (BitVec 8)) : Bool :=
  (List.range 32).all (fun j =>
    let o := 64 + 16 * j
    leAt b (o + 12) 4 == 0 &&
      (leAt b (o + 8) 4 == 0 ||
        (leAt b (o + 8) 4 == 1 && leAt b o 8 % 8 == 0 && (objectAt w k.shared w.core (leAt b o 8)).isSome)))

/-- The barrier locks of a record: those of the skeleton, which hold their arrival records, where the addresses agree. -/
def barsOf (old : List BarLock) (b : List (BitVec 8)) : List BarLock :=
  (List.range 32).filterMap (fun j =>
    if leAt b (64 + 16 * j + 8) 4 = 1 then
      let a := wordOf b (64 + 16 * j)
      some ((old.find? (fun o => o.addr == a)).getD { addr := a, groups := 0, engines := 0 })
    else none)

/-- Whether the header of a workgroup record is that of a workgroup saved on a core. -/
def Workgroup.headerIs (w : Workgroup) (k : Kernel) (core : BitVec 8) (b : List (BitVec 8)) : Bool :=
  leAt b 0 4 == w.tag.toNat && leAt b 4 4 == w.ordinal.toNat && leAt b 16 2 == core.toNat && leAt b 19 1 == w.groups.length &&
    leAt b 20 2 == w.kernel && leAt b 22 2 == w.handle.toNat && leAt b 18 1 == (if w.quad then 1 else 0) &&
    leAt b 24 4 == k.recordSize w.coreCount w.groups.length && leAt b 28 36 == 0 &&
    w.barsOk k b

/-- A memory for each core of a workgroup. -/
def eachCore (cores : Nat) (f : Nat → Memory) : Vector Memory 4 :=
  (List.range cores).foldl (fun v q => modCore v q (fun _ => f q)) (Vector.replicate 4 [])

/-- A workgroup restored from the record of its save on a core; `none` when it is malformed. -/
def Workgroup.ofRecord (w : Workgroup) (k : Kernel) (core : BitVec 8) (b : List (BitVec 8)) : Option Workgroup :=
  let cores := w.coreCount
  let pairAt := 576 + cores * 4096 * k.tiles
  let sharedAt := pairAt + 8192 * k.ptiles
  let groupsAt := sharedAt + cores * k.shared
  let size := if k.mode16 then 8896 else 8832
  let groups := (List.range w.groups.length).mapM (fun j =>
    match w.groups[j]? with
    | some g => if g.retired then some g else g.ofRecord k (slicePad 0 b (groupsAt + size * j) size)
    | none => none)
  let pairHalf (half : Nat) (m : Memory) : Memory :=
    (List.range k.ptiles).foldl (fun m p =>
      Memory.fill m (4096 * (k.tiles + p)) (slicePad 0 b (pairAt + 8192 * p + 4096 * half) 4096)) m
  if !w.headerIs k core b then none
  else
    groups.map (fun gs =>
      let tiles := eachCore cores (fun q =>
        let m := Memory.fill [] 0 (slicePad 0 b (576 + q * 4096 * k.tiles) (4096 * k.tiles))
        if q = 0 then pairHalf 0 m else m)
      { w with
        coord := BitVec.ofNat 64 (leAt b 8 8), groups := gs, bars := barsOf w.bars b, tiles := tiles,
        follower := pairHalf 1 []
        shared := eachCore cores (fun q =>
          Memory.fill [] 0 (slicePad 0 b (sharedAt + q * k.shared) k.shared)) })

/-! ## The save (17 R302, R304) -/

/-- Refills some cells of a group, but for those whose spill slots cannot be reached: their refill is repeated at RESUME
(17 R300). -/
def Device.refillSome (d : Device) (uid g : Nat) : List Nat → Except (BitVec 6 × CtxFault) Device
  | [] => .ok d
  | k :: rest =>
    match d.refill uid g k with
    | .ok d1 => d1.refillSome uid g rest
    | .error e => if e.2.code = causeCopyfault then d.refillSome uid g rest else .error e

/-- Refills the evicted cells of some groups, where their spill slots can be reached. -/
def Device.refillAll (d : Device) : List (Nat × Nat) → Except (BitVec 6 × CtxFault) Device
  | [] => .ok d
  | (uid, g) :: rest =>
    let n := match d.wg uid with
      | some w => (match w.groups[g]? with | some x => if x.retired then 0 else x.cells.length | none => 0)
      | none => 0
    match d.refillSome uid g (List.range n) with
    | .error e => .error e
    | .ok d1 => d1.refillAll rest

/-- The hardware groups of the workgroups of a context. -/
def Device.groupsOf (d : Device) (c : BitVec 6) : List (Nat × Nat) :=
  (d.placedOf c).flatMap (fun w => (List.range w.groups.length).map (fun g => (w.uid, g)))

/-- Writes some pieces one after another from an address of a context's main memory, each through a die. -/
def Device.writePieces (d : Device) (c : BitVec 6) (a : Nat) : List (BitVec 2 × List (BitVec 8)) →
    Except CtxFault Device
  | [] => .ok d
  | (die, b) :: rest =>
    match d.mainWrite die c a b with
    | .error f => .error f
    | .ok d1 => d1.writePieces c (a + b.length) rest

/-- The exact accumulators that a context's units write back to its reduction area, 48 bytes each (09 R198; 17 R302 step 5; log
entry 70). They stay the context's: a later reduce-add goes on with them. -/
def Device.writeAccumulators (d : Device) (c : BitVec 6) : Except CtxFault Device :=
  match (d.ctx c).region 6 0 with
  | none => .ok d
  | some r =>
    d.writePieces c r.base ((d.reductions c).map (fun a => (0, (List.range 48).map (Config.accByte a))))

/-- A request as it is saved: parked, a routing pass back at its first token (17 R294). Its failures so far count on at RESUME
(21 Table 21-3a). -/
def Request.saved (r : Request) : Request :=
  let r1 := match r.work with | .route _ _ _ _ => { r with done := 0 } | _ => r
  if r.isRetired then r else if r.isFetch || r.isParked then r1 else { r1 with status := .parked 0 }

/-- The index of a request's workgroup among some. -/
def indexOfWg (ws : List Workgroup) (uid : Nat) : Nat := (ws.map (fun w => w.uid)).idxOf uid

/-- The last 248 bytes of the header of a save (17 Table 17-8): the counts of workgroup and request records, and where the first
request record lies. -/
def saveHeader (workgroups requests first : Nat) : List (BitVec 8) :=
  natToBytes workgroups 4 ++ natToBytes requests 4 ++ natToBytes first 8 ++ natToBytes 0 232

/-- The pieces of a save: header, workgroup records, request records. -/
def Device.savePieces (d : Device) (c : BitVec 6) : List (BitVec 2 × List (BitVec 8)) :=
  let ws := d.placedOf c
  let rs := (d.requests.filter (fun r => r.ctx == c && r.isSaved)).map Request.saved
  let recs := ws.map (fun w =>
    (dieOf w.core, match (d.ctx c).kernel w.handle w.kernel with | some k => w.record k | none => []))
  let first := 256 + (recs.map (fun p => p.2.length)).foldl (· + ·) 0
  (0, natToBytes d.cyc.toNat 8 ++ saveHeader ws.length rs.length first) :: recs ++ rs.map (fun r => (r.die, r.record (indexOfWg ws r.wg) false))

/-- A context after its save: its workgroups and requests leave the device, its locks are freed (17 R302 step 6). -/
def Device.stopped (d : Device) (c : BitVec 6) : Device :=
  let ws := d.placedOf c
  let rs := (d.requests.filter (fun r => r.ctx == c)).map Request.saved
  let d1 := { d with
    locks := d.locks.filter (fun l => !d.lockOf c l)
    requests := d.requests.filter (fun r => r.ctx != c)
    wgs := d.wgs.filter (fun w => w.ctx != c || w.gone) }
  d1.modCtx c (fun x => { x with state := .stopped, stopping := false, saved := ws, savedReqs := rs })

/-- Whether a stopping context has drained (17 R302 steps 2 and 3; 22 Table 22-6): no matrix operation and no batch of it is
left, and no debugger's stop is under way. -/
def Device.drained (d : Device) (c : BitVec 6) : Bool :=
  d.matrix.all (fun m => m.ctx != c) &&
    (d.placedOf c).all (fun w => w.stopped.st != 1 &&
      w.groups.all (fun g => g.agent0.closed.isEmpty && g.agent1.closed.isEmpty))

/-- Whether a save of a context reads a place that an error has lost: shared memory, tiles or cells of its workgroups. -/
def Device.savedPlace (d : Device) (c : BitVec 6) (p : StoredPlace) : Bool :=
  let held (uid : Nat) (read : Workgroup → Kernel → Bool) : Bool :=
    (d.placedOf c).any (fun w => w.uid == uid && (match d.kernelOf w with | some k => read w k | none => false))
  match p with
  | .shared uid q x => held uid (fun w k => decide (q.toNat < w.coreCount) && decide (x < k.shared))
  | .tile uid q x =>
    held uid (fun w k => decide (q.toNat < w.coreCount) && decide (x < 4096 * (k.tiles + (if q = 0 then k.ptiles else 0))))
  | .follower uid x => held uid (fun _ k => decide (4096 * k.tiles ≤ x) && decide (x < 4096 * (k.tiles + k.ptiles)))
  | .cell uid g n => held uid (fun w _ => match w.groups[g]? with
    | some x => !x.retired && (match x.cells[n]? with | some y => !y.evicted | none => false)
    | none => false)
  | _ => false

/-- The save of a stopping context that has drained: a save that fails to reach its area (17 R300), or that reads what an error
has lost (21 R333), ends the context. -/
def Device.save (d : Device) (c : BitVec 6) : Device :=
  match d.lost.find? (d.savedPlace c) with
  | some p => d.endContext c (d.lostFault p 0)
  | none =>
  match d.refillAll (d.groupsOf c) with
  | .error (_, f) => d.endContext c f
  | .ok d0 =>
    match d0.writeAccumulators c with
    | .error f => d0.endContext c f
    | .ok d1 =>
      match (d1.ctx c).saveArea with
      | none => d1.stopped c
      | some r =>
        match d1.writePieces c r.base (d1.savePieces c) with
        | .error f => d1.endContext c f
        | .ok d2 => d2.stopped c

/-! ## The restore (17 R303) -/

/-- INTEGRITY for a malformed record of the save area (17 R306): no block is at fault. -/
def malformedRecord (a : Nat) : CtxFault := { code := causeIntegrity, detail := 0, addr := a }

/-- The hardware groups of a workgroup that have not retired, by number. -/
def Workgroup.liveGroups (w : Workgroup) : List Nat :=
  (List.range w.groups.length).filter (fun j => match w.groups[j]? with | some g => !g.retired | none => false)

/-- Where a saved workgroup goes: its own cores and seats when its cores stand, the follower core of its pair tiles among them,
else a place of 15 R262 to R264; `none`
while that place is not free. -/
def Device.restorePlace (d : Device) (w : Workgroup) (k : Kernel) (sec : Bool) :
    Option (BitVec 8 × List Placing) :=
  let cores := placeCores w.quad w.core
  let held := cores ++ (if k.ptiles = 0 then [] else [w.core + 1])
  if held.all d.coreLive then
    let own := w.liveGroups.filterMap (fun j => (w.groups[j]?).map (fun g => (j, g.core, (g.part, g.rslot))))
    if cores.all (d.segmentFits k sec) && own.all (fun p => !(d.usedSeats p.2.1).contains p.2.2) then some (w.core, own)
    else none
  else d.bestPlace k sec (32 * w.groups.length)

/-- A workgroup moved to a place, with the generations its seats take. -/
def Workgroup.moveTo (w : Workgroup) (d : Device) (origin : BitVec 8) (ps : List Placing) : Workgroup :=
  { w with
    core := origin
    groups := (List.range w.groups.length).zip w.groups |>.map (fun e =>
      if e.2.retired then e.2
      else
        let p := placingOf ps e.1
        { e.2 with core := p.2.1, part := p.2.2.1, rslot := p.2.2.2,
                   gen := tableGet 0 d.gens (slotKey p.2.1 p.2.2.1 p.2.2.2) + 1 }) }

/-- The device with a restored workgroup. -/
def Device.rejoin (d : Device) (w : Workgroup) : Device :=
  { d with
    wgs := d.wgs ++ [w]
    gens := (w.groups.filter (fun g => !g.retired)).foldl (fun t g =>
      tableSet t (slotKey g.core g.part g.rslot) g.gen) d.gens }

/-- The barrier locks of a workgroup (08 R185). -/
def Device.barLocks (d : Device) (w : Workgroup) (k : Kernel) : List RangeLock :=
  w.bars.filterMap (fun b =>
    (objectAt w k.shared w.core b.addr.toNat).map (fun o =>
      { core := d.lockCore o.space w.core, space := o.space, lo := o.off, hi := o.off + 7, kind := .barrier,
        owner := .object w.uid b.addr }))

/-- The ranges of a request, from its record (08 R185). -/
def Request.reaches (r : Request) : List Reach :=
  match r.work with
  | .copy s e x => copyReaches s e x
  | .route m ws _ _ => (match parseRoute m ws with | some q => q.reaches | none => [])
  | .fetch a => [{ space := 2, addr := a.toNat, align := 32, range := some (a.toNat, 32), write := true }]

/-- The locks of a saved request on its workgroup's present cores. -/
def Device.requestLocksOf (d : Device) (w : Workgroup) (k : Kernel) (r : Request) : List RangeLock :=
  requestLocks d r.core r.id (r.reaches.filterMap (fun x =>
    match x.range with
    | none => none
    | some b => (rangePlace w k.shared r.core (d.ctx r.ctx) x.space x.write b).map (fun p => (p, b.2, x.write))))

/-- The slots of a restored group with the SPANs in force at their addresses (06 R151). -/
def Device.spanSlots (d : Device) (uid g : Nat) : Device :=
  [false, true].foldl (fun d n =>
    match viewOf d (Issue.start uid g n 0) g with
    | some v => d.modSlot uid g n (fun s => s.withSpan (v.auto.code s.state))
    | none => d) d

/-- The slots of a restored group that its record says wait, asleep in their waits again (06 R150). A pair's are those of its
lower hardware group. -/
def Device.sleepSlots (d : Device) (uid g : Nat) (rec : List (BitVec 8)) : Device :=
  let upper := match d.wg uid with
    | some w => (match w.groups[g]? with | some x => x.pair == some true | none => true)
    | none => true
  [(false, 8448), (true, 8472)].foldl (fun d n =>
    if !upper && bitN (leAt rec n.2 4) 29 then d.sleepAgain (Issue.start uid g n.1 0) else d) d

/-- Places the saved workgroups in order; `none` while one has no place. -/
def Device.rejoinAll (d : Device) (c : BitVec 6) : List Workgroup → Option Device
  | [] => some d
  | w :: rest =>
    match (d.ctx c).kernel w.handle w.kernel with
    | none => none
    | some k =>
      match d.restorePlace w k (d.ctx c).sec with
      | none => none
      | some (o, ps) => (d.rejoin (w.moveTo d o ps)).rejoinAll c rest

/-- Restores the contents of the workgroups, each with the core it was saved on, from their records, the first at an
address. -/
def Device.restoreRecords (d : Device) (c : BitVec 6) (a : Nat) : List (Nat × BitVec 8) → Except CtxFault Device
  | [] => .ok d
  | (uid, core) :: rest =>
    match d.wg uid with
    | none => d.restoreRecords c a rest
    | some w =>
      match (d.ctx c).kernel w.handle w.kernel with
      | none => .error (malformedRecord a)
      | some k =>
        let size := k.recordSize w.coreCount w.groups.length
        match d.mainRead (dieOf w.core) c a size with
        | .error f => .error f
        | .ok (b, d1) =>
          match w.ofRecord k core b with
          | none => .error (malformedRecord a)
          | some w1 =>
            let each := if k.mode16 then 8896 else 8832
            let groupRec (g : Nat) : List (BitVec 8) := b.drop (size - (w.groups.length - g) * each)
            let d2 := w1.liveGroups.foldl (fun d g => d.spanSlots uid g) (d1.modWg uid (fun _ => w1))
            (w1.liveGroups.foldl (fun d g => d.sleepSlots uid g (groupRec g)) d2).restoreRecords c (a + size) rest

/-- An endpoint restored from its words and its tensor-map entry, which is zero for a dense run; `none` when they break 08 R176 or
09 R201. -/
def Endpoint.ofRecord (x : Context) (e : Endpoint) (source : Bool) (ws : List Word) (map : Nat) : Option Endpoint :=
  let m : BitVec 1024 := BitVec.ofNat 1024 map
  match e with
  | .box _ _ => if tmOk m then parseEndpoint (x.setTmap (bitsN (wordAt ws 0) 0 8) m) 0 source ws else none
  | .dense space _ _ _ => if map = 0 then parseEndpoint x (space + 1) source ws else none

/-- The number of a transform (09 Table 09-7). -/
def Transform.number (x : Transform) : Nat :=
  match x with
  | .plain => 0
  | .expand _ _ => 1
  | .scaled _ _ _ _ _ _ => 2
  | .convert _ => 3
  | .reduceAdd => 4

/-- The work of a request read from its record's cells and tensor-map entries; `none` when they break the rules of its
instruction. -/
def Work.ofRecord (x : Context) (b : List (BitVec 8)) (work : Work) : Option Work :=
  let cells := (List.range 24).map (fun j => wordOf b (32 + 4 * j))
  match work with
  | .copy s e xf =>
    let ns := descCells (if s.boxed then 0 else 1)
    let nx := if xf.number = 0 then 0 else 6
    (match s.ofRecord x true (cells.take ns) (leAt b 128 128),
        (if xf.number = 0 then some .plain else parseTransform xf.number ((cells.drop ns).take nx)),
        e.ofRecord x false ((cells.drop (ns + nx)).take (descCells (if e.boxed then 0 else 1))) (leAt b 256 128) with
     | some s1, some x1, some e1 => if copyRules s1 e1 x1 then some (.copy s1 e1 x1) else none
     | _, _, _ => none)
  | .route _ _ k depth =>
    let m : BitVec 1024 := BitVec.ofNat 1024 (leAt b 128 128)
    if (parseRoute m (cells.take 5)).isSome && leAt b 256 128 == 0 then some (.route m (cells.take 5) k depth) else none
  | .fetch a => some (.fetch a)

/-- A request restored from its record (17 R306), for a context whose workgroup records are those of some workgroups; `none` when
the record is malformed. What the record has no field for is the request's own (log entry 34). -/
def Request.ofRecord (d : Device) (ws : List Workgroup) (r : Request) (b : List (BitVec 8)) : Option Request :=
  let kind := match r.work with | .route _ _ _ _ => 2 | _ => 1
  let bar := leAt b 4 4
  let object := match d.wg r.wg with
    | some w => (match d.kernelOf w with | some k => bar % 8 == 0 && (objectAt w k.shared r.core bar).isSome | none => false)
    | none => false
  match Work.ofRecord (d.ctx r.ctx) b r.work with
  | none => none
  | some work =>
    let cells := (List.range r.cells.length).map (fun j => wordOf b (32 + 4 * j))
    let r1 := { r with bar := BitVec.ofNat 32 bar, promise := BitVec.ofNat 64 (leAt b 8 8), cells := cells, work := work,
                       done := leAt b 16 8, status := .queued, leaves := [] }
    if leAt b 0 4 ≠ kind + indexOfWg ws r.wg * 2 ^ 16 || !object || leAt b 24 8 ≠ 0 || leAt b 384 128 ≠ 0 ||
        leAt b (32 + 4 * cells.length) (96 - 4 * cells.length) ≠ 0 || r1.total < r1.done then none
    else some r1

/-- The requests of a context restored from their records, the first at an address. -/
def Device.restoreRequests (d : Device) (c : BitVec 6) (ws : List Workgroup) (a : Nat) :
    List Request → Except CtxFault (List Request × Device)
  | [] => .ok ([], d)
  | r :: rest =>
    if !r.isSaved then
      match d.restoreRequests c ws a rest with
      | .ok (l, d1) => .ok (r :: l, d1)
      | .error f => .error f
    else
      match d.mainRead r.die c a 512 with
      | .error f => .error f
      | .ok (b, d1) =>
        match Request.ofRecord d1 ws r b with
        | none => .error (malformedRecord a)
        | some r1 =>
          match d1.restoreRequests c ws (a + 512) rest with
          | .ok (l, d2) => .ok (r1 :: l, d2)
          | .error f => .error f

/-- A request on the present core of its group. -/
def Device.relocateRequest (d : Device) (r : Request) : Request :=
  match d.wg r.wg with
  | some w => (match d.kernelOf w with
    | some k => (match w.groups[(k.agentAt r.group).1]? with
      | some g => { r with core := g.core, die := dieOf g.core }
      | none => r)
    | none => r)
  | none => r

/-- The locks of a restored context: those of barrier objects and of requests. -/
def Device.contextLocks (d : Device) (c : BitVec 6) (rs : List Request) : List RangeLock :=
  (d.placedOf c).flatMap (fun w => match d.kernelOf w with | some k => d.barLocks w k | none => []) ++
    (rs.filter (fun r => !r.isRetired)).flatMap (fun r =>
      match d.wg r.wg with
      | some w => (match d.kernelOf w with | some k => d.requestLocksOf w k r | none => [])
      | none => [])

/-- Whether the tables have room for locks, barrier locks being reserved already (15 R262). -/
def Device.roomForRequests (d : Device) (ls : List RangeLock) : Bool :=
  d.roomFor (ls.filter (fun l => l.kind != .barrier))

/-- The partitions that the groups of a context lie on. -/
def Device.partsOf (d : Device) (c : BitVec 6) : List (BitVec 8 × BitVec 5) :=
  ((d.placedOf c).flatMap (fun w => w.groups.map (fun g => (g.core, g.part)))).eraseDups

/-- What RESUME of a stopped context comes to: it waits for its cores and table room, it fails, or it has restored
everything. -/
inductive Restore where
  | wait
  | fail (f : CtxFault)
  | done (d : Device)
  deriving DecidableEq, Repr, Inhabited

/-- Whether the header of a save area is that of a context's save; a context with nothing saved has none to read. -/
def Device.saveHeaderOk (d : Device) (c : BitVec 6) (base : Nat) (ws rs first : Nat) : Except CtxFault Device :=
  if ws + rs = 0 then .ok d
  else
    match d.mainRead 0 c base 256 with
    | .error f => .error f
    | .ok (b, d1) => if b.drop 8 = saveHeader ws rs first then .ok d1 else .error (malformedRecord base)

/-- Restores a stopped context whole (17 R303). The context is active again when its partitions' stores evict what they have no
room for, so that a spill that faults stops it as any other does. -/
def Device.restore (d : Device) (c : BitVec 6) : Restore :=
  let x := d.ctx c
  match x.saved.find? (fun w => w.gone) with
  | some w => .fail { code := causeCodegone, detail := w.handle.toNat, addr := 0 }
  | none =>
    let d0 := d.dropTranslations c none
    match d0.rejoinAll c x.saved with
    | none => .wait
    | some d1 =>
      let rs := x.savedReqs.map d1.relocateRequest
      if !d1.roomForRequests (d1.contextLocks c rs) then .wait
      else
        let base := match x.saveArea with | some r => r.base | none => 0
        let first := 256 + (x.saved.map (fun w =>
          match x.kernel w.handle w.kernel with
          | some k => k.recordSize w.coreCount w.groups.length
          | none => 0)).foldl (· + ·) 0
        match d1.saveHeaderOk c base x.saved.length (rs.filter (·.isSaved)).length first with
        | .error f => .fail f
        | .ok d1 =>
          match d1.restoreRecords c (base + 256) (x.saved.map (fun w => (w.uid, w.core))) with
          | .error f => .fail f
          | .ok d2 =>
            match d2.restoreRequests c x.saved (base + first) rs with
            | .error f => .fail f
            | .ok (rs1, d3) =>
              let d4 := { d3 with locks := d3.locks ++ d3.contextLocks c rs1, requests := d3.requests ++ rs1 }
              let d5 := d4.modCtx c (fun x => { x with state := .active, saved := [], savedReqs := [] })
              .done ((d5.partsOf c).foldl (fun d p => d.evict p.1 p.2 768) d5)

/-- RESUME of an active context (17 R293, Table 17-7): every translation of it is invalid, those left to a request among them,
and its parked requests stand in their queues again. -/
def Device.unpark (d : Device) (c : BitVec 6) : Device :=
  let d1 := d.dropTranslations c none
  { d1 with requests := d1.requests.map (fun r =>
      if r.ctx != c then r
      else if r.isParked then
        { r with status := .queued, leaves := [], done := (match r.work with | .route _ _ _ _ => 0 | _ => r.done) }
      else { r with leaves := [] }) }

end Sys2Proof.Machine
end

