-- ==== Sys2Proof/Machine/Distributor.lean ====
section
/-! DEFINITION. Rings, launches and the distributor: RING_REFILL (08 R191), LAUNCH_READY, PLACEMENT, LAUNCH_COMPLETE
(15 R257 to R266), FETCHW_HANDOVER (06 R153) and PATCH_APPLY (16 R286). -/

namespace Sys2Proof.Machine

open Sys2Proof

/-! ## Overflow rings (08 R191) -/

/-- The records that stand in a context's ring. -/
def Device.ringLength (d : Device) (c : BitVec 6) (k : RingKind) : Nat :=
  if k = 0 then (d.matrix.filter (fun m => m.ctx == c && m.inRing)).length
  else if k = 1 then (d.ringRequests c).length
  else ((d.ctx c).launches.filter (fun l => l.live && l.inRing)).length

/-- Reads the record at the head of a context's ring; its contents are those of the request it was made from. -/
def Device.ringRead (d : Device) (die : BitVec 2) (c : BitVec 6) (k : RingKind) : Except CtxFault Device :=
  let x := d.ctx c
  match x.region 5 k with
  | none => .ok d
  | some r =>
    let n := x.rings.getD k 0 - d.ringLength c k
    match d.mainRead die c (r.base + ringRecordSize k * (n % max 1 (x.ringCap k))) (ringRecordSize k) with
    | .error f => .error f
    | .ok (_, d1) => .ok d1

/-- Whether a context is active and not stopping. -/
def Context.serving (x : Context) : Bool := x.state == .active && !x.stopping

/-- The matrix operation at the head of its context's ring, for a core. -/
def Device.matrixRingHead (d : Device) (core : BitVec 8) : Option MatOp :=
  d.matrix.find? (fun m => m.core == core && m.inRing && (d.ctx m.ctx).state == .active &&
    (match d.matrix.find? (fun y => y.ctx == m.ctx && y.inRing) with | some h => h.id == m.id | none => false))

/-- The request at the head of its context's ring, for a die. -/
def Device.copyRingHead (d : Device) (die : BitVec 2) : Option Request :=
  d.requests.find? (fun r => r.die == die && r.status == .ring && (d.ctx r.ctx).serving &&
    (match d.ringRequests r.ctx with | h :: _ => h.id == r.id | [] => false))

/-- Whether a launch stands before another in their context's ring: it became ready before, or in the same CYC in a lower
queue (15 R260). -/
def Launch.ringBefore (l m : Launch) : Bool :=
  if l.readyAt ≠ m.readyAt then decide (l.readyAt < m.readyAt)
  else if l.record.queue ≠ m.record.queue then decide (l.record.queue < m.record.queue)
  else decide (l.ringAt < m.ringAt)

/-- The first of some launches in ring order. -/
def ringFirst : List Launch → Option Launch
  | [] => none
  | l :: t =>
    match ringFirst t with
    | some m => if m.ringBefore l then some m else some l
    | none => some l

/-- The launch at the head of a context's ring. -/
def Context.ringHead (x : Context) : Option Launch := ringFirst (x.launches.filter (fun l => l.live && l.inRing))

/-- The launch at the head of its context's ring, for a priority, among the contexts in increasing number. -/
def Device.launchRingHead (d : Device) (prio : BitVec 2) : Option (BitVec 6 × Launch) :=
  ((List.range 64).filterMap (fun n =>
    let c : BitVec 6 := BitVec.ofNat 6 n
    if (d.ctx c).serving then
      match (d.ctx c).ringHead with
      | some l => if l.record.prio == prio then some (c, l) else none
      | none => none
    else none)).head?

/-- Refills a queue from the ring head it serves next, if it has a free slot. -/
def Device.refillQueue (d : Device) (q : RingRef) : Device :=
  match q with
  | .matrix core =>
    match d.matrixRingHead core with
    | none => d
    | some m =>
      if 64 ≤ (d.matrix.filter (fun x => x.core == core && !x.inRing)).length then d
      else
        match d.ringRead (dieOf core) m.ctx 0 with
        | .error f => d.contextFault m.ctx f
        | .ok d1 => { d1 with matrix := d1.matrix.map (fun x => if x.id == m.id then { x with inRing := false } else x) }
  | .copy die =>
    match d.copyRingHead die with
    | none => d
    | some r =>
      if 256 ≤ (d.requests.filter (fun x => x.inQueue die)).length then d
      else
        match d.ringRead die r.ctx 1 with
        | .error f => d.contextFault r.ctx f
        | .ok d1 => d1.modRequest r.id (fun x => { x with status := .queued })
  | .launch prio =>
    match d.launchRingHead prio with
    | none => d
    | some (c, l) =>
      if 128 ≤ (d.ready.getD prio.toNat []).length then d
      else
        match d.ringRead 0 c 2 with
        | .error f => d.contextFault c f
        | .ok d1 =>
          { d1.modCtx c (fun x => { x with launches := x.launches.map (fun y =>
              if y.record.tag == l.record.tag && y.live then { y with inRing := false } else y) }) with
            ready := modAt d1.ready prio.toNat (fun t => t ++ [(c, l.record.tag)]) }

/-- RING_REFILL. -/
def execRingRefill (q : RingRef) (s : State) : Host.Outcome State Fault Refusal :=
  .next { s with dev := s.dev.refillQueue q }

/-! ## Launches (15 R257, R258) -/

/-- The live launch of a tag. -/
def Context.launch (x : Context) (tag : Word) : Option Launch :=
  x.launches.find? (fun l => l.live && l.record.op == 1 && l.record.tag == tag)

/-- The context with a live launch changed. -/
def Context.modLaunch (x : Context) (tag : Word) (f : Launch → Launch) : Context :=
  { x with launches := x.launches.map (fun l =>
      if l.live && l.record.op == 1 && l.record.tag == tag then f l else l) }

/-- Whether every earlier operation of an operation's queue has completed. -/
def Context.queueDone (x : Context) (l : Launch) : Bool :=
  x.launches.all (fun e => !e.live || e.record.queue != l.record.queue || decide (l.order ≤ e.order))

/-- Whether the readiness conditions of an operation hold (15 R257). -/
def Context.conditionsMet (x : Context) (l : Launch) : Bool :=
  x.queueDone l && l.record.preds.all (fun p => p == 0 || !x.tagLive p)

/-- Inserts a launch that becomes ready now behind those that became ready before, and among those of the same CYC by
context number and queue (15 R260). -/
def Device.insertReady (d : Device) (now : Nat) (c : BitVec 6) (l : Launch) :
    List (BitVec 6 × Word) → List (BitVec 6 × Word)
  | [] => [(c, l.record.tag)]
  | e :: rest =>
    let later := match (d.ctx e.1).launch e.2 with
      | some y => y.readyAt == now &&
          (decide (c.toNat < e.1.toNat) || (c == e.1 && decide (l.record.queue < y.record.queue)))
      | none => false
    if later then (c, l.record.tag) :: e :: rest else e :: d.insertReady now c l rest

/-- A ready launch goes to its context's ring. -/
def Device.toRing (d : Device) (c : BitVec 6) (l : Launch) : Except CtxFault Device :=
  match d.ringAppend 0 c 2 (d.ringLength c 2) l.record.bytes with
  | .error f => .error f
  | .ok d1 => .ok (d1.modCtx c (fun x => x.modLaunch l.record.tag (fun y =>
      { y with inRing := true, ringAt := (d.ctx c).rings.getD 2 0 })))

/-- Whether a context's ring holds a launch that stands before one that becomes ready now, so that this one follows it there
(08 R191; 15 R260). -/
def Context.ringLeads (x : Context) (l : Launch) (now : Nat) : Bool :=
  x.launches.any (fun m => m.live && m.inRing && m.ringBefore { l with readyAt := now, ringAt := x.rings.getD 2 0 })

/-- A waiting launch whose conditions hold becomes ready: it enters its ready list, or its context's launch ring when the
ring holds a launch that stands before it. Of a list that is full, the launch that stands last goes to its context's ring: the
new one, or one that became ready in the same CYC and enters after it (15 R260; 08 R191). -/
def Device.makeReady (d : Device) (c : BitVec 6) (l : Launch) : Device :=
  let prio := l.record.prio.toNat
  let now := d.cyc.toNat
  let d1 := d.modCtx c (fun x => x.modLaunch l.record.tag (fun y => { y with state := .ready, inRing := false, readyAt := now }))
  let orFault (c : BitVec 6) (r : Except CtxFault Device) : Device :=
    match r with
    | .ok d2 => d2
    | .error f => d.contextFault c f
  if (d.ctx c).ringLeads l now then orFault c (d1.toRing c l)
  else
    let list := d1.insertReady now c l (d1.ready.getD prio [])
    if list.length ≤ 128 then { d1 with ready := setAt d1.ready prio list }
    else
      match list.getLast? with
      | none => d
      | some (c2, tag) =>
        let d2 := { d1 with ready := setAt d1.ready prio list.dropLast }
        match (d2.ctx c2).launch tag with
        | some m => orFault c2 (d2.toRing c2 m)
        | none => d

/-- Whether a context may have launches become ready: an ended one has none in any list (15 R257, R261). -/
def Context.takesLaunches (x : Context) : Bool := x.state == .active || x.state == .stopped

/-- LAUNCH_READY: nothing happens unless the launch is waiting and its conditions hold. -/
def execLaunchReady (c : BitVec 6) (tag : Word) (s : State) : Host.Outcome State Fault Refusal :=
  match (s.dev.ctx c).launch tag with
  | some l =>
    if (s.dev.ctx c).takesLaunches && l.state == .waiting && (s.dev.ctx c).conditionsMet l then
      .next { s with dev := s.dev.makeReady c l }
    else .next s
  | none => .next s

/-- Ends the graphs of a context whose operations have all completed, with a message each (15 R255). -/
def Device.endGraphs (d : Device) (c : BitVec 6) : Device :=
  let x := d.ctx c
  let allOver (g : GraphRun) : Bool := x.launches.all (fun l => !l.live || l.graph != some g.id)
  let ended := x.graphs.filter allOver
  let d1 := d.modCtx c (fun x => { x with graphs := x.graphs.filter (fun g => !allOver g) })
  ended.foldl (fun d g => d.sendMsg 2 c (BitVec.ofNat 16 g.index) (BitVec.ofNat 32 g.handle.toNat)) d1

/-- Whether a placed or saved workgroup of a launch is left. -/
def Device.launchBusy (d : Device) (c : BitVec 6) (tag : Word) : Bool :=
  (d.wgs ++ (d.ctx c).saved).any (fun w => w.ctx == c && w.tag == tag)

/-- LAUNCH_COMPLETE: a running launch none of whose workgroups is left. -/
def execLaunchComplete (c : BitVec 6) (tag : Word) (s : State) : Host.Outcome State Fault Refusal :=
  match (s.dev.ctx c).launch tag with
  | some l =>
    if l.state == .running && !s.dev.launchBusy c tag then
      .next { s with dev := (s.dev.modCtx c (fun x =>
        x.modLaunch tag (fun y => { y with state := .complete }))).endGraphs c }
    else .next s
  | none => .next s

/-- PATCH_APPLY: a patch operation whose turn has come writes its bytes, drops the Locket's cached packets and completes.
`id` is its place in its queue. -/
def execPatchApply (c : BitVec 6) (id : Nat) (s : State) : Host.Outcome State Fault Refusal :=
  let x := s.dev.ctx c
  match x.launches.find? (fun l => l.live && l.record.op == 2 && l.order == id) with
  | some l =>
    if x.takesLaunches && x.conditionsMet l then
      let bytes := l.patch.getD (0, [])
      let write (k : Locket) : Locket :=
        if k.handle == l.record.handle && !bytes.2.isEmpty then k.patched bytes.1 bytes.2 else k
      let d1 := s.dev.modCtx c (fun x =>
        { x with
          lockets := x.lockets.map write
          launches := x.launches.map (fun y => if y.order == id then { y with state := .complete } else y) })
      let d2 := { d1 with packets := d1.packets.filter (fun p => p.ctx != c || p.handle != l.record.handle) }
      .next { s with dev := d2.endGraphs c }
    else .next s
  | none => .next s

/-! ## The placement log (15 R265, R266) -/

/-- A placement-log record (15 Table 15-4). Its callers give 0 as core and quad bit of kinds 1 and 2 (log entry 91). -/
def placementRecord (cyc coord : BitVec 64) (tag : Word) (ordinal core kind : Nat) (quad : Bool) (fetcher : Nat) :
    List (BitVec 8) :=
  natToBytes cyc.toNat 8 ++ natToBytes coord.toNat 8 ++ natToBytes tag.toNat 4 ++ natToBytes ordinal 4 ++
    natToBytes core 2 ++ natToBytes kind 1 ++ natToBytes (if quad then 1 else 0) 1 ++ natToBytes fetcher 4

/-- The next record of a placement log in replay: `none` when the log does not decide. -/
def Device.nextDecision (d : Device) (c : BitVec 6) : Option (Except CtxFault (Nat × List (BitVec 8))) :=
  let x := d.ctx c
  if !x.replay || x.logP.ended then none
  else
    match x.logP.left with
    | [] => none
    | n :: _ =>
      match d.logRead 0 c 0 n with
      | .error f => some (.error f)
      | .ok b => some (.ok (n, b))

/-- Logs a decision, in record mode, or consumes the record that named it, in replay. -/
def Device.logDecision (d : Device) (c : BitVec 6) (rec : List (BitVec 8)) : Except CtxFault Device :=
  match d.nextDecision c with
  | some (.ok (n, _)) => .ok (d.consume c 0 n)
  | some (.error f) => .error f
  | none => if (d.ctx c).logs 0 then d.logPut 0 c 0 rec else .ok d

/-- Whether a full placement log holds a decision back. -/
def Device.decisionHeld (d : Device) (c : BitVec 6) : Bool := (d.ctx c).logs 0 && (d.ctx c).logFull 0 false 1

/-- A launch with one more ordinal taken: it is running, and leaves its list, when no workgroup is left. -/
def Device.takeOrdinal (d : Device) (c : BitVec 6) (l : Launch) : Device :=
  let full := decide (l.record.total ≤ l.taken + 1)
  let d1 := d.modCtx c (fun x => x.modLaunch l.record.tag (fun y =>
    { y with taken := y.taken + 1, state := if full then .running else y.state, inRing := y.inRing && !full }))
  if full then { d1 with ready := d1.ready.map (fun t => t.filter (fun e => e != (c, l.record.tag))) } else d1

/-! ## Placement (15 R261) -/

/-- The launch that the distributor serves: the first of an active context in the highest list that has one. -/
def Device.served (d : Device) : Option (BitVec 6 × Word) :=
  (((List.range 4).reverse.map (fun p =>
    (d.ready.getD p []).find? (fun e => (d.ctx e.1).serving))).filterMap id).head?

/-- Where a decision puts a workgroup: the best place, or in replay the logged one. -/
def Device.choosePlace (d : Device) (k : Kernel) (sec : Bool) (threads : Nat) (core : Option (BitVec 8)) :
    Option (BitVec 8 × List Placing) :=
  match core with
  | none => d.bestPlace k sec threads
  | some o => (d.fitAt k sec threads o).map (fun l => (o, l))

/-- Evicts what the partitions of a workgroup have no room for (01 R30). -/
def Device.evictWg (d : Device) (w : Workgroup) : Device :=
  ((w.groups.map (fun g => (g.core, g.part))).eraseDups).foldl (fun d p => d.evict p.1 p.2 768) d

/-- Places the lowest workgroup left of a launch, if it fits and its log has room; the cells of its groups make the store of their
partitions evict others (01 R30). -/
def Device.placeNext (d : Device) (c : BitVec 6) (tag : Word) (core : Option (BitVec 8)) : Device :=
  let x := d.ctx c
  match x.launch tag with
  | none => d
  | some l =>
    match x.kernel l.record.handle l.record.kernel with
    | none => d
    | some k =>
      if d.decisionHeld c then d
      else
        match d.choosePlace k x.sec l.record.threads core with
        | none => d
        | some (o, ps) =>
          let areas := d.freeAreas c
          let n := k.hwCount l.record.threads
          if areas.length < n then d
          else
            let w := d.newWorkgroup c k l.record l.taken o ps areas
            match d.logDecision c (placementRecord d.cyc w.coord tag l.taken o.toNat 0 k.quad 0) with
            | .error f => d.contextFault c f
            | .ok d1 => ((d1.addWorkgroup w).takeOrdinal c l).evictWg w

/-- Whether a launch is ready to be placed. -/
def Context.placeable (x : Context) (tag : Word) : Bool :=
  match x.launch tag with
  | some l => l.state == .ready && !l.inRing
  | none => false

/-- A decision of the distributor: the served launch, or for a context in replay the one its log names. -/
def Device.place (d : Device) : Device :=
  match d.served with
  | none => d
  | some (c, tag) =>
    match d.nextDecision c with
    | none => d.placeNext c tag none
    | some (.error f) => d.contextFault c f
    | some (.ok (_, b)) =>
      let t : Word := BitVec.ofNat 32 (leAt b 16 4)
      if leAt b 26 1 = 0 && (d.ctx c).placeable t then d.placeNext c t (some (BitVec.ofNat 8 (leAt b 24 2))) else d

/-! ## A RESUME that waits (17 R303) -/

/-- The command that a mailbox runs: its code, or 0 when it runs none. -/
def Mailbox.command (m : Mailbox) : Nat :=
  match m.running with
  | some b => leAt b 0 1
  | none => 0

/-- Writes the response of the running command and tells the host (15 R253, R254). -/
def Device.answer (d : Device) (c : BitVec 6) (status : Nat) (results : List (BitVec 8)) : Device :=
  let m := (d.ctx c).mailbox
  let w := leAt (m.running.getD []) 0 4
  let seq := bitsN w 8 8
  let code := bitsN w 0 8
  let m1 := { m with
    status := BitVec.ofNat 16 status, seq := BitVec.ofNat 8 seq, code := BitVec.ofNat 8 code, ovr := m.dropped,
    results := takePad 0 results 56, running := none, dropped := false }
  (d.modCtx c (fun x => { x with mailbox := m1 })).sendMsg 1 c (BitVec.ofNat 16 (seq * 256 + code)) (BitVec.ofNat 32 status)

/-- Tries to restore a stopped context whose RESUME is running. A translation fault that it meets leaves the context stopped
(17 R300). -/
def Device.tryResume (d : Device) (c : BitVec 6) : Device :=
  match d.restore c with
  | .wait => d
  | .fail f => (d.contextFault c f).answer c 2 []
  | .done d1 => (d1.replayEnds c).answer c 0 []

/-- Tries the RESUMEs that are running. -/
def Device.resumes (d : Device) : Device :=
  (List.range 64).foldl (fun d n =>
    let c : BitVec 6 := BitVec.ofNat 6 n
    let x := d.ctx c
    if x.state == .stopped && x.mailbox.command == 5 then d.tryResume c else d) d

/-- PLACEMENT: waiting RESUMEs are tried, then one decision is made. -/
def execPlacement (s : State) : Host.Outcome State Fault Refusal := .next { s with dev := s.dev.resumes.place }

/-! ## FETCHW (06 R152, R153; 15 R265, R266) -/

/-- What a FETCHW hands over: status, coordinate, the ordinal field, and the ordinal and kind that are logged. -/
structure Handover where
  status : Nat
  coord : BitVec 64
  field : Nat
  ordinal : Nat
  kind : Nat
  deriving DecidableEq, Repr, Inhabited

/-- The handover that a launch makes next. -/
def handoverOf (k : Kernel) (l : Launch) : Handover :=
  if l.taken < l.record.total then
    { status := 0, coord := k.coordAt l.record l.taken, field := l.taken, ordinal := l.taken, kind := 1 }
  else { status := 1, coord := 0, field := 0xFFFFFFFF, ordinal := l.taken, kind := 2 }

/-- Whether replay lets a FETCHW be served: the next decision is a handover, or none, to its workgroup. -/
def Device.fetchTurn (d : Device) (r : Request) (h : Handover) : Bool :=
  match d.nextDecision r.ctx with
  | none => true
  | some (.error _) => true
  | some (.ok (_, b)) => leAt b 26 1 == h.kind && leAt b 16 4 == r.tag.toNat && leAt b 28 4 == r.ordinal.toNat

/-- Writes a mailbox and arrives on its object. -/
def Device.handOver (d : Device) (w : Workgroup) (k : Kernel) (r : Request) (h : Handover) : Device :=
  match objectAt w k.shared r.core r.bar.toNat with
  | none => (d.unlock (.request r.id)).dropRequest r.id
  | some o =>
    match d.objectLost o with
    | some f => d.contextFault r.ctx f
    | none =>
    let put (off n v : Nat) (d : Device) : Device := d.putNum o.space (o.off + off) n v
    let d1 := d.settle o.space (o.off + 8) 24 true
    let d2 := put 24 8 0 (put 20 4 h.field (put 16 4 h.status (put 8 8 h.coord.toNat d1)))
    ((d2.unlock (.request r.id)).dropRequest r.id).arrive o none

/-- Serves a FETCHW of an active context, unless its log or replay holds it. -/
def Device.serveFetch (d : Device) (r : Request) : Device :=
  match d.wg r.wg with
  | none => d
  | some w =>
    match d.kernelOf w, (d.ctx r.ctx).launch r.tag with
    | some k, some l =>
      let h := handoverOf k l
      if d.decisionHeld r.ctx || !d.fetchTurn r h then d
      else
        match d.logDecision r.ctx (placementRecord d.cyc h.coord r.tag h.ordinal 0 h.kind false r.ordinal.toNat) with
        | .error f => d.contextFault r.ctx f
        | .ok d1 =>
          let d2 := if h.kind = 1 then d1.takeOrdinal r.ctx l else d1
          d2.handOver w k r h
    | _, _ => d

/-- FETCHW_HANDOVER. -/
def execFetchwHandover (req : Nat) (s : State) : Host.Outcome State Fault Refusal :=
  match s.dev.request req with
  | some r =>
    if r.isFetch && (s.dev.ctx r.ctx).serving then .next { s with dev := s.dev.serveFetch r } else .next s
  | none => .next s

/-! ## Workgroups that are done (09 R203; 15 R258) -/

/-- Whether work of a workgroup is left: an engine request, a matrix operation, or a batch. -/
def Device.workLeft (d : Device) (w : Workgroup) : Bool :=
  d.requests.any (fun r => r.wg == w.uid) || d.matrix.any (fun m => m.wg == w.uid) ||
    w.groups.any (fun g => !g.agent0.closed.isEmpty || !g.agent1.closed.isEmpty)

/-- Whether a workgroup's groups have all exited and its work has retired, so that its cores are free. -/
def Device.isDone (d : Device) (w : Workgroup) : Bool := !w.gone && w.groups.all (fun g => g.retired) && !d.workLeft w

/-- The debug block and the host told that a workgroup has halted for a cause (22 R345). -/
def Device.tellStopped (d : Device) (c : BitVec 6) (w : Workgroup) (cause : BitVec 4) : Device :=
  (d.modCtx c (fun x => { x with dbgBlock := { x.dbgBlock with st := 2, why := cause } })).sendMsg 5 c
    (BitVec.ofNat 16 cause.toNat) w.ordinal

/-- A debugger's stop of a workgroup that is done: a STEP whose groups have all exited is complete (22 R348); of any other stop the
status is what it was before, and a STOPWG is refused (Table 22-6). -/
def Device.stopLost (d : Device) (w : Workgroup) : Device :=
  if w.stopped.st = 1 && w.stopped.cause == 4 then d.tellStopped w.ctx w 4
  else if w.stopped.st = 1 then
    d.modCtx w.ctx (fun x => { x with dbgBlock := { x.dbgBlock with
      st := w.stopped.prior.1, why := w.stopped.prior.2, err := x.dbgBlock.err || w.stopped.cause == 1 } })
  else d

/-- Frees the cores of the workgroups that are done. -/
def Device.sweep (d : Device) : Device :=
  let done := d.wgs.filter d.isDone
  let d1 := done.foldl (fun d w => d.stopLost w) d
  { d1 with wgs := d1.wgs.filter (fun w => !d.isDone w) }

end Sys2Proof.Machine
end

