-- ==== Sys2Proof/Machine/Debug.lean ====
section
/-! DEFINITION. Debug commands (22 R339, R345 to R348): STOPWG, CONT, STEP and the port, and the halt of a stopping
workgroup. -/

namespace Sys2Proof.Machine

open Sys2Proof

/-! ## The target -/

/-- The workgroup that a debug block names (22 Table 22-1). -/
def Device.target (d : Device) (c : BitVec 6) : Option Workgroup :=
  (d.placedOf c).find? (fun w => w.tag == (d.ctx c).dbgBlock.wtag && w.ordinal == (d.ctx c).dbgBlock.word)

/-- A debug block changed. -/
def Device.modDebug (d : Device) (c : BitVec 6) (f : Debug → Debug) : Device :=
  d.modCtx c (fun x => { x with dbgBlock := f x.dbgBlock })

/-- The last command refused, or accepted. -/
def Device.debugErr (d : Device) (c : BitVec 6) (err : Bool) : Device := d.modDebug c (fun b => { b with err := err })

/-- Whether a debug command is in progress: a STOPWG whose target has not halted. -/
def Device.debugBusy (d : Device) (c : BitVec 6) : Bool :=
  (d.placedOf c).any (fun w => w.stopped.st == 1 && w.stopped.cause == 1)

/-! ## STOPWG, CONT and STEP -/

/-- STOPWG (22 R345). -/
def Device.stopTarget (d : Device) (c : BitVec 6) (w : Workgroup) : Device := (d.debugErr c false).beginStop w.uid 1

/-- The slot before a BRK that stopped its workgroup passes that chain (22 R346). -/
def Device.passBrk (d : Device) (w : Workgroup) : Device :=
  match w.stopped.brkAt with
  | none => d
  | some (g, n) =>
    match d.issueAt w g n with
    | none => d
    | some (iss, _, _) => (viewsOf d iss).foldl (fun d v => d.modSlot w.uid v.g n (fun s => { s with addr := iss.next })) d

/-- A stopped workgroup goes on, toward the end of a STEP if one is given. -/
def Device.release (d : Device) (c : BitVec 6) (w : Workgroup) (step : Option (Word × Bool)) : Device :=
  let d1 := (d.passBrk w).modWg w.uid (fun w => { w with stopped := { DebugStop.running with stepObj := step } })
  d1.modDebug c (fun b => { b with st := 0, why := 0, err := false })

/-- CONT (22 R346): refused unless the target is stopped. -/
def Device.contTarget (d : Device) (c : BitVec 6) (w : Workgroup) : Device :=
  if w.stopped.st = 2 then d.release c w none else d.debugErr c true

/-- STEP (22 R348): refused unless the target is stopped and the step object lies in its shared memory, aligned; INTEGRITY when an
error has lost the object, whose phase is read (21 R333). -/
def Device.stepTarget (d : Device) (c : BitVec 6) (w : Workgroup) : Device :=
  let a := (d.ctx c).dbgBlock.sobj
  match d.kernelOf w with
  | none => d.debugErr c true
  | some k =>
    match objectAt w k.shared w.core a.toNat with
    | none => d.debugErr c true
    | some o =>
      if w.stopped.st = 2 && a.toNat % 8 = 0 then
        match d.objectLost o with
        | some f => d.contextFault c f
        | none => d.release c w (some (a, d.phase o))
      else d.debugErr c true

/-! ## The port (22 R347, Table 22-2) -/

/-- What a port address names: a shared word, a cell's lane, a mask, a tile element, or a word of the barrier dump. -/
inductive PortPlace where
  | shared (p : Place)
  | cell (g lane cell : Nat)
  | mask (g k : Nat)
  | tile (addr : Nat)
  | dump (n word : Nat)
  deriving DecidableEq, Repr, Inhabited

/-- A hardware group of a workgroup that a port address may name. -/
def Workgroup.liveGroup (w : Workgroup) (k : Kernel) (g : Nat) : Option (Nat × Group) :=
  match w.groups[k.hwGroup g]? with
  | some x => if x.retired then none else some (k.hwGroup g, x)
  | none => none

/-- The place of a port address, or `none` when it is refused for its form or its extent. -/
def portPlace (w : Workgroup) (k : Kernel) (a : BitVec 64) : Option PortPlace :=
  let loc := bitsN a.toNat 0 21
  let f (lo n : Nat) : Nat := bitsN loc lo n
  if bitsN a.toNat 21 38 ≠ 0 then none
  else
    match bitsN a.toNat 60 4 with
    | 0 => if loc % 8 = 0 then (sharedPlace w k.shared w.core loc 8).map PortPlace.shared else none
    | 1 =>
      match w.liveGroup k (f 0 7) with
      | some (g, x) => if f 12 6 < x.cells.length && f 18 3 = 0 then some (.cell g (f 7 5) (f 12 6)) else none
      | none => none
    | 2 =>
      match w.liveGroup k (f 0 7) with
      | some (g, _) => if f 10 11 = 0 then some (.mask g (f 7 3)) else none
      | none => none
    | 3 => if f 0 7 < k.tiles + k.ptiles && f 17 4 = 0 then some (.tile (tileByte (f 0 7) (f 7 5) (f 12 5))) else none
    | 4 => if f 0 5 < w.bars.length && f 7 14 = 0 then some (.dump (f 0 5) (f 5 2)) else none
    | _ => none

/-- A word of the barrier dump. -/
def Device.dumpWord (d : Device) (w : Workgroup) (k : Kernel) (n word : Nat) : Nat :=
  match w.bars[n]? with
  | none => 0
  | some b =>
    match word with
    | 0 => b.addr.toNat
    | 1 => (match objectAt w k.shared w.core b.addr.toNat with | some o => d.objectValue o | none => 0)
    | 2 => bitsN b.groups.toNat 0 64
    | _ => bitsN b.groups.toNat 64 32 + b.engines.toNat * 2 ^ 32

/-- The memory that a tile element of the port lies in: the tiles of the workgroup's first core. -/
def Workgroup.portTiles (w : Workgroup) : TileSide := { wg := w.uid, q := 0, follower := false }

/-- INTEGRITY of a port read of what an error has lost (21 R333). -/
def Device.portLost (d : Device) (w : Workgroup) (p : PortPlace) : Option CtxFault :=
  if d.lost.isEmpty then none
  else
    match p with
    | .shared p => d.lostIn p.space p.addr 8
    | .cell g _ cell => if d.lost.contains (.cell w.uid g cell) then some (d.lostFault (.cell w.uid g cell) 0) else none
    | .tile a => d.tileLost w.portTiles (fun x => decide (a ≤ x) && decide (x < a + 4))
    | .dump n 1 =>
      (match w.bars[n]?, d.kernelOf w with
       | some b, some k => (match objectAt w k.shared w.core b.addr.toNat with | some o => d.objectLost o | none => none)
       | _, _ => none)
    | _ => none

/-- A stopped workgroup's state read through the port: `none` when a write lock holds shared bytes. A cell that is evicted
comes back for it, and others leave when the store has no room (01 R30). -/
def Device.portRead (d : Device) (w : Workgroup) (k : Kernel) (p : PortPlace) : Option (Nat × Device) :=
  match p with
  | .shared p =>
    if d.meetsLock p 8 w.core hitsLoad then none
    else
      let d1 := d.settle p.space p.addr 8 false
      some (d1.num p.space p.addr 8, d1)
  | .cell g lane cell =>
    match d.refill w.uid g cell with
    | .error (c, f) => some (0, d.contextFault c f)
    | .ok d1 =>
      some (match d1.wg w.uid with
        | some w1 => (match w1.groups[g]? with | some x => ((cellAt x.cells cell).lane lane).toNat | none => 0)
        | none => 0, d1.evictFor w.uid g)
  | .mask g n => some (match w.groups[g]? with | some x => (x.masks.getD n 0).toNat | none => 0, d)
  | .tile a => some (Memory.num (perCore w.tiles 0) a 4, d)
  | .dump n word => some (d.dumpWord w k n word, d)

/-- The same written: `none` when any lock holds shared bytes, and for the dump. -/
def Device.portWrite (d : Device) (w : Workgroup) (p : PortPlace) (v : Nat) : Option Device :=
  match p with
  | .shared p =>
    if d.meetsLock p 8 w.core hitsStore then none
    else some ((d.settle p.space p.addr 8 true).putNum p.space p.addr 8 v)
  | .cell g lane cell =>
    match d.refill w.uid g cell with
    | .error (c, f) => some (d.contextFault c f)
    | .ok d1 =>
      some ((d1.writeGroup w.uid g (8 * cell) 32 (everyLane (lowN v 32)) (BitVec.ofNat 32 (2 ^ lane)) .g).evictFor w.uid g)
  | .mask g n => some (d.modGroup w.uid g (fun x => { x with masks := setAt x.masks n (BitVec.ofNat 32 v) }))
  | .tile a => some (d.modTiles w.portTiles (fun x => decide (a ≤ x) && decide (x < a + 4)) (fun m => Memory.putNum m a 4 (lowN v 32)))
  | .dump _ _ => none

/-- PORT: bit 59 of the address says whether it writes. -/
def Device.portTarget (d : Device) (c : BitVec 6) (w : Workgroup) : Device :=
  let b := (d.ctx c).dbgBlock
  match d.kernelOf w with
  | none => d.debugErr c true
  | some k =>
    if w.stopped.st ≠ 2 then d.debugErr c true
    else
      match portPlace w k (b.paddr &&& ~~~(0x0800000000000000 : BitVec 64)) with
      | none => d.debugErr c true
      | some p =>
        if bitN b.paddr.toNat 59 then
          match d.portWrite w p b.pdata.toNat with
          | none => d.debugErr c true
          | some d1 => d1.debugErr c false
        else
          match d.portLost w p, d.portRead w k p with
          | some f, _ => d.contextFault c f
          | none, none => d.debugErr c true
          | none, some (v, d1) => d1.modDebug c (fun b => { b with pdata := BitVec.ofNat 64 v, err := false })

/-! ## Commands -/

/-- Runs a debug command, whose number has been written to `cmd` (22 R339). -/
def Device.debugCommand (d : Device) (c : BitVec 6) (cmd : Nat) : Device :=
  let d0 := d.modDebug c (fun b => { b with cmd := BitVec.ofNat 4 cmd })
  if d0.debugBusy c then d0.debugErr c true
  else
    match d0.target c with
    | none => d0.debugErr c true
    | some w =>
      match cmd with
      | 1 => d0.stopTarget c w
      | 2 => d0.contTarget c w
      | 3 => d0.stepTarget c w
      | 4 => d0.portTarget c w
      | _ => d0.debugErr c true

/-- Whether the host window is open: the boot has ended (24 R366). -/
def Device.booted (d : Device) : Bool := d.boot.step == 15 && !d.boot.halt

/-- STOPWG. -/
def execStopwg (c : BitVec 6) (s : State) : Host.Outcome State Fault Refusal :=
  if s.dev.booted then .next { s with dev := s.dev.debugCommand c 1 } else .next s

/-- CONT. -/
def execCont (c : BitVec 6) (s : State) : Host.Outcome State Fault Refusal :=
  if s.dev.booted then .next { s with dev := s.dev.debugCommand c 2 } else .next s

/-- STEP. -/
def execStep (c : BitVec 6) (s : State) : Host.Outcome State Fault Refusal :=
  if s.dev.booted then .next { s with dev := s.dev.debugCommand c 3 } else .next s

/-- PORT with bit 59 of the port address clear; with it set this event is not there. -/
def execPortRead (c : BitVec 6) (s : State) : Host.Outcome State Fault Refusal :=
  if s.dev.booted && !bitN (s.dev.ctx c).dbgBlock.paddr.toNat 59 then .next { s with dev := s.dev.debugCommand c 4 }
  else .next s

/-- PORT with bit 59 of the port address set. -/
def execPortWrite (c : BitVec 6) (s : State) : Host.Outcome State Fault Refusal :=
  if s.dev.booted && bitN (s.dev.ctx c).dbgBlock.paddr.toNat 59 then .next { s with dev := s.dev.debugCommand c 4 }
  else .next s

/-! ## The halt (22 R345) -/

/-- A stopping workgroup has halted: its chains have retired and its writes have drained; why tells the cause, and so is the
host told. -/
def Device.halt (d : Device) (c : BitVec 6) (w : Workgroup) : Device :=
  let why := w.stopped.cause
  (d.modWg w.uid (fun w => { w with stopped := { w.stopped with st := 2, why := why } })).tellStopped c w why

/-- WORKGROUP_HALT: a workgroup of the context that is stopping, with no register write outstanding. -/
def execWorkgroupHalt (c : BitVec 6) (s : State) : Host.Outcome State Fault Refusal :=
  match (s.dev.placedOf c).find? (fun w => w.stopped.st == 1) with
  | some w =>
    if s.dev.writes.any (fun x => x.wg == w.uid) then .next s else .next { s with dev := s.dev.halt c w }
  | none => .next s

end Sys2Proof.Machine
end

