-- ==== Sys2Proof/Machine/Host.lean ====
section
/-! DEFINITION. The host's side of the device: commands of the mailbox (15 R253 to R255; 16 R271, R275 to R286; 17 R302,
R303; 21 R336; 22 R341), context creation and destruction (17 R288, R289), and writes and reads through the host window
(18 R308; 22 R339; 23 R355 to R360). -/

namespace Sys2Proof.Machine

open Sys2Proof

/-! ## START (15 Table 15-2, R255) -/

/-- The records of a graph of a loaded Locket; `none` when there is no such graph or a record breaks 15 Table 15-3,
as one that a PATCH has written may. -/
def Locket.graph (l : Locket) (g : Nat) : Option (List LaunchRec) :=
  let x := headerOf l.image
  match graphPlaces l.image x.gtab x.ng with
  | none => none
  | some ps => (ps[g]?).bind (graphRecords l.image)

/-- The arguments of a START: tensor-map numbers and new bases. -/
def startArgs (b : List (BitVec 8)) : List (Nat × Nat) :=
  (List.range (min 3 (leAt b 9 1))).map (fun j => (leAt b (12 + 16 * j) 1, leAt b (20 + 16 * j) 8))

/-- Whether an argument names a set entry whose new contents are lawful (08 R176). -/
def Context.argOk (x : Context) (a : Nat × Nat) : Bool :=
  x.tmap a.1 != 0 && tmOk (tmRebase (x.tmap a.1) a.2)

/-- Whether a record of a graph may be entered: its kernel exists and passes 06 R128, and its tag is not live. -/
def Device.recordOk (d : Device) (c : BitVec 6) (r : LaunchRec) : Bool :=
  !d.tagTaken c r.tag && (r.op != 1 || (match (d.ctx c).kernel r.handle r.kernel with | some k => k.launchOk r | none => false))

/-- The context with a graph's operations in their queues, at the priority that START names. -/
def Context.enterGraph (x : Context) (handle : BitVec 16) (g : Nat) (prio : BitVec 2) (rs : List LaunchRec) : Context :=
  let id := x.nextOrder
  let run : GraphRun := { id := id, handle := handle, index := g, tags := rs.map (fun r => r.tag) }
  let x1 := rs.foldl (fun x r => x.enter { r with prio := prio } (some id) none) x
  if rs.isEmpty then x1 else { x1 with graphs := x1.graphs ++ [run] }

/-- Whether the records of a graph may be entered together: each may, and their tags differ (15 R256). -/
def Device.recordsOk (d : Device) (c : BitVec 6) (rs : List LaunchRec) : Bool :=
  decide ((rs.map (fun r => r.tag)).Nodup) && rs.all (d.recordOk c)

/-- START with its 64 command bytes: nothing is rewritten or entered unless everything passes. -/
def Device.startGraph (d : Device) (c : BitVec 6) (b : List (BitVec 8)) : Reply × Device :=
  let x := d.ctx c
  let handle : BitVec 16 := BitVec.ofNat 16 (leAt b 4 2)
  let g := leAt b 6 2
  let args := startArgs b
  match (x.locket handle).bind (fun l => l.graph g) with
  | none => (Reply.plain statusRefused, d)
  | some rs =>
    if 3 < leAt b 8 1 || 3 < leAt b 9 1 || !args.all x.argOk || !d.recordsOk c rs then (Reply.plain statusRefused, d)
    else
      (Reply.plain statusOk, d.modCtx c (fun x =>
        (args.foldl (fun x a => x.setTmap a.1 (tmRebase (x.tmap a.1) a.2)) x).enterGraph handle g
          (BitVec.ofNat 2 (leAt b 8 1)) rs))

/-! ## QUERY (16 R271; 21 R336; 22 R341) -/

/-- Whether a word is a block identifier (21 Table 21-3). -/
def isBlockId (id : Nat) : Bool :=
  let kind := bitsN id 16 4
  let index := bitsN id 8 6
  bitsN id 20 12 == 0 && decide (kind ≤ 0xB) && (kind != 0xA || bitsN id 14 2 == 0) &&
    (if kind = 0 then decide (bitsN id 0 8 ≤ 131) else bitsN id 0 8 == 0) &&
    (if kind ≤ 3 then decide (index < 56)
     else if kind = 4 then decide (index ≤ 7)
     else if kind = 8 then decide (index ≤ 2)
     else if kind = 0xA then decide (index ≤ 16)
     else index == 0)

/-- The core of a block identifier. -/
def blockCore (id : Nat) : BitVec 8 := BitVec.ofNat 8 (bitsN id 14 2 * 64 + bitsN id 8 6)

/-- Counters that have counted nothing. -/
def Counters.zero : Counters := { corrected := 0, replays := 0, uncorrectable := 0 }

/-- The counters of a block; every column of an array counts in the array's block. -/
def Device.counter (d : Device) (id : Nat) : Counters := tableGet Counters.zero d.counters (id / 256 * 256)

/-- The device with a block's counters changed. -/
def Device.count (d : Device) (id : Nat) (f : Counters → Counters) : Device :=
  { d with counters := tableSet d.counters (id / 256 * 256) (f (d.counter id)) }

/-- The state of a core's array. -/
def Device.array (d : Device) (core : BitVec 8) : ArrayState :=
  tableGet { columns := [], reduced := false } d.arrays core.toNat

/-- QUERY of a block's counters, by identifier (21 R336). -/
def Device.queryCounters (d : Device) (id : Nat) : Reply :=
  if !isBlockId id then Reply.plain statusBadcmd
  else
    let core := blockCore id
    let kind := bitsN id 16 4
    let x := d.counter id
    let a := d.array core
    let fenced := decide (kind ≤ 3) && d.fenced.contains core
    let remapped := kind == 0 && a.columns.contains (BitVec.ofNat 8 id)
    { status := statusOk
      results := natToBytes x.corrected.toNat 8 ++ natToBytes x.replays.toNat 8 ++ natToBytes x.uncorrectable.toNat 8 ++
        natToBytes ((if fenced then 1 else 0) + (if remapped then 2 else 0) +
          (if kind = 0 then a.columns.length * 256 else 0)) 4 }

/-- QUERY of a lane-cycle bin (22 R341). -/
def Context.queryBin (x : Context) (j : Nat) : Reply :=
  if 64 < j then Reply.plain statusBadcmd
  else
    let b := tableGet Bin.empty x.bins j
    let counts := (takePad 0 b.counts 5).flatMap (fun v => natToBytes v.toNat 8)
    { status := statusOk
      results := counts ++
        (if j = 64 then natToBytes (x.waitCounts.getD 0 0).toNat 8 ++ natToBytes (x.waitCounts.getD 1 0).toNat 8
         else natToBytes b.range.toNat 8) }

/-- QUERY of the sleep counter (22 R341). -/
def Context.querySleep (x : Context) : Reply :=
  { status := statusOk, results := natToBytes (x.waitCounts.getD 2 0).toNat 8 }

/-- QUERY of the spill region or save area: its base and size, zero when the context has none (16 R271). -/
def Context.queryRegion (x : Context) (kind : Nat) : Reply :=
  if kind ≠ 4 && kind ≠ 0xA then Reply.plain statusBadcmd
  else
    match x.regions.find? (fun r => r.kind.toNat == kind) with
    | some r => { status := statusOk, results := natToBytes r.base 8 ++ natToBytes r.size 8 }
    | none => { status := statusOk, results := [] }

/-- QUERY that sets a lane-cycle bin, which counts anew (22 R341). -/
def Device.setBin (d : Device) (c : BitVec 6) (j : Nat) (range : BitVec 64) : Reply × Device :=
  if 63 < j then (Reply.plain statusBadcmd, d)
  else
    (Reply.plain statusOk, d.modCtx c (fun x =>
      { x with bins := tableSet x.bins j { Bin.empty with range := range } }))

/-- QUERY of an item that the spec names and gives no number: its results are free values (log entry 11). -/
def Device.queryOther (d : Device) (item : Nat) : Reply :=
  { status := statusOk, results := (List.range 56).map (Config.queryBytes (d.tick * 2 ^ 32 + item)) }

/-- The row of the opcode table that a QUERY item belongs to. -/
inductive QueryItem where
  | counters (id : Nat)
  | bin (j : Nat)
  | sleep
  | setBin (j : Nat)
  | region (kind : Nat)
  | other
  deriving DecidableEq, Repr, Inhabited

/-- A QUERY item number read. -/
def queryItem (item : Nat) : QueryItem :=
  let low := item % 2 ^ 24
  match item / 2 ^ 24 with
  | 1 => .counters low
  | 2 => if low = 0x41 then .sleep else .bin low
  | 3 => .setBin low
  | 4 => .region low
  | _ => .other

/-- QUERY with its 64 command bytes. -/
def Device.runQuery (d : Device) (c : BitVec 6) (b : List (BitVec 8)) : Reply × Device :=
  let x := d.ctx c
  match queryItem (leAt b 4 4) with
  | .counters id => (d.queryCounters id, d)
  | .bin j => (x.queryBin j, d)
  | .sleep => (x.querySleep, d)
  | .setBin j => d.setBin c j (BitVec.ofNat 64 (leAt b 8 8))
  | .region k => (x.queryRegion k, d)
  | .other => (d.queryOther (leAt b 4 4), d)

/-! ## STOP and RESUME (15 R254; 17 R302 to R304) -/

/-- STOP: a context that its save area cannot hold is not stopped; an active one answers when its save is over. -/
def Device.stopCommand (d : Device) (c : BitVec 6) : Device :=
  match (d.ctx c).state with
  | .stopped => d.answer c statusOk []
  | .active =>
    if (d.ctx c).stopping then d
    else if d.saveFits c then d.modCtx c (fun x => { x with stopping := true })
    else d.answer c statusRefused []
  | _ => d.answer c statusRefused []

/-- RESUME: an active context replays its parked requests; a stopped one is restored, now or as soon as its cores are free
(17 R303); one that is stopping is restored after its save. -/
def Device.resumeCommand (d : Device) (c : BitVec 6) : Device :=
  match (d.ctx c).state with
  | .stopped => d.tryResume c
  | .active => if (d.ctx c).stopping then d else (d.unpark c).answer c statusOk []
  | _ => d.answer c statusRefused []

/-- The save of a stopping context that has drained; then a STOP that waits for it is answered, and so is a STOP or a RESUME
whose context has ended meanwhile. -/
def Device.completeStop (d : Device) (c : BitVec 6) : Device :=
  let x := d.ctx c
  let d1 := if x.state == .active && x.stopping && d.drained c then d.save c else d
  let y := d1.ctx c
  if y.state == .stopped && y.mailbox.command == 4 then d1.answer c statusOk []
  else if y.state == .ended && (y.mailbox.command == 4 || y.mailbox.command == 5) then d1.answer c statusRefused []
  else d1

/-! ## The mailbox (15 R253, R254) -/

/-- Whether the operand bytes that a command does not use are zero (15 Table 15-1; 16 R285). -/
def unusedZero (code : Nat) (b : List (BitVec 8)) : Bool :=
  let zero (o n : Nat) : Bool := leAt b o n == 0
  match code with
  | 1 => zero 4 4 && zero 20 44
  | 2 =>
    zero 10 2 && zero 60 4 && (List.range 3).all (fun j =>
      zero (13 + 16 * j) 7 && (decide (j < leAt b 9 1) || zero (12 + 16 * j) 16))
  | 3 => decide (leAt b 6 1 < 16) && zero 7 1 && zero 14 2
  | 4 => zero 4 60
  | 5 => zero 4 60
  | 6 => decide (leAt b 6 1 < 2) && zero 7 57
  | 7 => (match queryItem (leAt b 4 4) with | .setBin _ => true | _ => zero 8 8) && zero 16 48
  | _ => true

/-- A command answered at once. -/
def Device.reply (c : BitVec 6) (r : Reply × Device) : Device := r.2.answer c r.1.status r.1.results

/-- Runs the command that a mailbox has accepted. -/
def Device.runCommand (d : Device) (c : BitVec 6) (b : List (BitVec 8)) : Device :=
  let code := leAt b 0 1
  if leAt b 2 2 ≠ 0 || code = 0 || 7 < code || !unusedZero code b then d.answer c statusBadcmd []
  else if (d.ctx c).state = .free then d.answer c statusRefused []
  else
    match code with
    | 1 => Device.reply c (d.loadLocket c (leAt b 8 8) (leAt b 16 4))
    | 2 => Device.reply c (d.startGraph c b)
    | 3 => Device.reply c (d.patchLocket c b)
    | 4 => d.stopCommand c
    | 5 => d.resumeCommand c
    | 6 => Device.reply c (d.unloadLocket c (BitVec.ofNat 16 (leAt b 4 2)) (bitN (leAt b 6 1) 0))
    | _ => Device.reply c (d.runQuery c b)

/-- A write of a doorbell: the command in bytes 0 to 63 is accepted, or the doorbell is dropped while another command runs.
Before the boot has ended every write is dropped (24 R366). -/
def Device.doorbell (d : Device) (c : BitVec 6) : Device :=
  let m := (d.ctx c).mailbox
  if !d.booted then d
  else if m.running.isSome then d.modCtx c (fun x => { x with mailbox := { x.mailbox with dropped := true } })
  else
    let b := takePad 0 m.cmd 64
    (d.modCtx c (fun x => { x with mailbox := { x.mailbox with running := some b, dropped := false } })).runCommand c b

/-- The code of the command that a doorbell would start. -/
def Device.pendingCode (d : Device) (c : BitVec 6) : Nat := leAt (d.ctx c).mailbox.cmd 0 1

/-- The QUERY item that a doorbell would start. -/
def Device.pendingItem (d : Device) (c : BitVec 6) : QueryItem := queryItem (leAt (d.ctx c).mailbox.cmd 4 4)

/-- A doorbell whose mailbox holds what a row of the opcode table stands for; with anything else the row's event is not
there. -/
def hostCommand (c : BitVec 6) (here : Device → Bool) (s : State) : Host.Outcome State Fault Refusal :=
  if here s.dev then .next { s with dev := s.dev.doorbell c } else .next s

/-- LOAD (16 R275). -/
def execLoad (c : BitVec 6) (s : State) : Host.Outcome State Fault Refusal :=
  hostCommand c (fun d => d.pendingCode c == 1) s

/-- START (15 R254). -/
def execStart (c : BitVec 6) (s : State) : Host.Outcome State Fault Refusal :=
  hostCommand c (fun d => d.pendingCode c == 2) s

/-- PATCH (16 R285). -/
def execPatch (c : BitVec 6) (s : State) : Host.Outcome State Fault Refusal :=
  hostCommand c (fun d => d.pendingCode c == 3) s

/-- STOP (17 R302). -/
def execStop (c : BitVec 6) (s : State) : Host.Outcome State Fault Refusal :=
  hostCommand c (fun d => d.pendingCode c == 4) s

/-- STOP_COMPLETE (17 R302): nothing happens unless the context is stopping and has drained. -/
def execStopComplete (c : BitVec 6) (s : State) : Host.Outcome State Fault Refusal :=
  .next { s with dev := s.dev.completeStop c }

/-- RESUME (17 R303). -/
def execResume (c : BitVec 6) (s : State) : Host.Outcome State Fault Refusal :=
  hostCommand c (fun d => d.pendingCode c == 5) s

/-- UNLOAD (16 R284). -/
def execUnload (c : BitVec 6) (s : State) : Host.Outcome State Fault Refusal :=
  hostCommand c (fun d => d.pendingCode c == 6) s

/-- QUERY of an item with no row of its own (15 R254). -/
def execQuery (c : BitVec 6) (s : State) : Host.Outcome State Fault Refusal :=
  hostCommand c (fun d => d.pendingCode c == 7 && d.pendingItem c == .other) s

/-- QUERY_REGION (16 R271). -/
def execQueryRegion (c : BitVec 6) (s : State) : Host.Outcome State Fault Refusal :=
  hostCommand c (fun d => d.pendingCode c == 7 && (match d.pendingItem c with | .region _ => true | _ => false)) s

/-- QUERY_ERROR_COUNTERS (21 R336). -/
def execQueryErrorCounters (c : BitVec 6) (s : State) : Host.Outcome State Fault Refusal :=
  hostCommand c (fun d => d.pendingCode c == 7 && (match d.pendingItem c with | .counters _ => true | _ => false)) s

/-- QUERY_LANE_CYCLE_BIN (22 R341). -/
def execQueryLaneCycleBin (c : BitVec 6) (s : State) : Host.Outcome State Fault Refusal :=
  hostCommand c (fun d => d.pendingCode c == 7 && (match d.pendingItem c with | .bin _ => true | _ => false)) s

/-- QUERY_SLEEP_COUNTER (22 R341). -/
def execQuerySleepCounter (c : BitVec 6) (s : State) : Host.Outcome State Fault Refusal :=
  hostCommand c (fun d => d.pendingCode c == 7 && d.pendingItem c == .sleep) s

/-- QUERY_SET_BIN (22 R341). -/
def execQuerySetBin (c : BitVec 6) (s : State) : Host.Outcome State Fault Refusal :=
  hostCommand c (fun d => d.pendingCode c == 7 && (match d.pendingItem c with | .setBin _ => true | _ => false)) s

/-! ## Creation and destruction of contexts (17 R289) -/

/-- A free block becomes a context, with the root and world already written. -/
def Device.createContext (d : Device) (c : BitVec 6) : Device :=
  d.modCtx c (fun x =>
    { x with
      state := .active, attest := 0, pmiss := 0, fcause := 0, fdetail := 0, faddr := 0, fcyc := 0, taddr := 0, tdie := 0, tkind := 0,
      fmode := 0, fflags := 0, layer := 0, tmaps := [] })

/-- Writes the accumulators of a context back and forgets them. -/
def Device.writeBackAccs (d : Device) (c : BitVec 6) : Device :=
  (d.accs.filter (fun a => a.ctx == c)).foldl (fun d a => d.settle a.space a.addr a.bytes false) d

/-- A stopped or ended context goes, and with it the state of its span (00 R7, Table 00-3): its saved workgroups and parked
requests are discarded, its Lockets unloaded, its translations dropped, its gate table and debug block cleared, and its
attestation register and fault fields with them (log entry 54). The root and the world stay as the host wrote them, and so
does the mailbox of the number. A RESUME that still waits is answered REFUSED. -/
def Device.destroyContext (d : Device) (c : BitVec 6) : Device :=
  let d0 := if (d.ctx c).mailbox.running.isSome then d.answer c statusRefused [] else d
  let d1 := (d0.writeBackAccs c).releaseAll c
  let mains := (d1.ctx c).regions.filter (fun r => mainKind r.kind.toNat)
  let d2 := mains.foldl (fun d r => d.unmapPages c r 0 (r.size / 65536)) d1
  let d3 := d2.dropTranslations c none
  let d4 := { d3 with
    wgs := d3.wgs.filter (fun w => w.ctx != c)
    packets := d3.packets.filter (fun p => p.ctx != c)
    posts := d3.posts.filter (fun p => p.ctx != c) }
  d4.modCtx c (fun x => { Context.free with sec := x.sec, root := x.root, mailbox := x.mailbox })

/-- Replay mode is entered: no record has been consumed (22 R353). -/
def Context.enterReplay (x : Context) : Context :=
  let fresh (l : Log) : Log := { l with used := [], ended := false }
  { x with replay := true, logP := fresh x.logP, logA := fresh x.logA, logC := fresh x.logC }

/-- The two state bits of a control block (17 Table 17-1). -/
def CtxState.code : CtxState → Nat
  | .free => 0
  | .active => 1
  | .stopped => 2
  | .ended => 3

/-- The first word of a control block. -/
def Context.word0 (x : Context) : Nat :=
  x.state.code * 2 ^ 30 + (if x.sec then 2 ^ 29 else 0) + (if x.replay then 2 ^ 28 else 0) + (if x.ordr then 2 ^ 27 else 0)

/-- A write of the first word of a control block (17 R288, R289): dropped whole when bits 26:0 are not zero or the change of
state is not lawful; sec is written while the block is free, and replay while it is stopped. -/
def Device.writeWord0 (d : Device) (c : BitVec 6) (v : Nat) : Device :=
  let x := d.ctx c
  let next := bitsN v 30 2
  if bitsN v 0 27 ≠ 0 then d
  else
    let d1 := if x.state = .free then d.modCtx c (fun x => { x with sec := bitN v 29 }) else d
    if x.state = .free && next = 1 then d1.createContext c
    else if (x.state = .stopped || x.state = .ended) && next = 0 then d.destroyContext c
    else if next ≠ x.state.code then d
    else if x.state = .stopped then
      if bitN v 28 && !x.replay then d1.modCtx c Context.enterReplay
      else d1.modCtx c (fun x => { x with replay := bitN v 28 })
    else d1

/-- CONTEXT_CREATE: a host write of state active, with the block's own world, to a free block. -/
def execContextCreate (c : BitVec 6) (s : State) : Host.Outcome State Fault Refusal :=
  if s.dev.booted && (s.dev.ctx c).state == .free then .next { s with dev := s.dev.createContext c } else .next s

/-- CONTEXT_DESTROY: a host write of state free to a stopped or ended block. -/
def execContextDestroy (c : BitVec 6) (s : State) : Host.Outcome State Fault Refusal :=
  if s.dev.booted && ((s.dev.ctx c).state == .stopped || (s.dev.ctx c).state == .ended) then
    .next { s with dev := s.dev.destroyContext c }
  else .next s

/-! ## Fields of the window -/

/-- A write of `n` bytes at an offset of a block. -/
structure BlockWrite where
  at_ : Nat
  n : Nat
  v : Nat
  deriving DecidableEq, Repr, Inhabited

/-- Whether a write reaches a field of some bytes. -/
def BlockWrite.reaches (w : BlockWrite) (field bytes : Nat) : Bool :=
  decide (w.at_ < field + bytes) && decide (field < w.at_ + w.n)

/-- The value of a field with the bytes that a write reaches replaced. -/
def BlockWrite.merge (w : BlockWrite) (cur field : Nat) : Nat → Nat
  | 0 => 0
  | n + 1 =>
    let k := field + n
    let byte := if w.at_ ≤ k && k < w.at_ + w.n then bitsN w.v (8 * (k - w.at_)) 8 else bitsN cur (8 * n) 8
    BlockWrite.merge w cur field n + byte * 256 ^ n

/-- A field changed by a write, if the write reaches it. -/
def BlockWrite.field {α : Type} (w : BlockWrite) (cur field bytes : Nat) (f : Nat → α → α) (x : α) : α :=
  if w.reaches field bytes then f (w.merge cur field bytes) x else x

/-- A write to a control block (17 Table 17-1). -/
def Device.writeControl (d : Device) (c : BitVec 6) (w : BlockWrite) : Device :=
  let x := d.ctx c
  let d1 := w.field x.root.toNat 8 8 (fun v d =>
    if x.state = .free && v % 2 ^ 21 = 0 then d.modCtx c (fun x => { x with root := BitVec.ofNat 64 v }) else d) d
  w.field x.word0 0 4 (fun v d => d.writeWord0 c v) d1

/-- A write to a gate table (18 R308). -/
def Device.writeGate (d : Device) (c : BitVec 6) (w : BlockWrite) : Device :=
  let x := d.ctx c
  let j := w.at_ / 8
  if x.state = .free || x.state = .stopped then
    let v := w.merge (tableGet 0 x.gates j).toNat (8 * j) 8
    d.modCtx c (fun x =>
      { x with gates := if v = 0 then x.gates.filter (fun p => p.1 != j) else tableSet x.gates j (BitVec.ofNat 64 v) })
  else d

/-! ## The debug block (22 Table 22-1) -/

/-- The bits lcr and hold written: all counters are cleared when lcr goes from 0 to 1 (22 R341). -/
def Context.setLcr (x : Context) (lcr hold : Bool) : Context :=
  let x1 := { x with dbgBlock := { x.dbgBlock with lcr := lcr, hold := hold } }
  if lcr && !x.dbgBlock.lcr then
    { x1 with bins := x1.bins.map (fun p => (p.1, { p.2 with counts := [0, 0, 0, 0, 0] })), waitCounts := [0, 0, 0] }
  else x1

/-- Whether a watchpoint may be written (22 R344). -/
def watchpointOk (v : Nat) : Bool := bitsN v 64 2 != 3 && !(bitN v 68 && bitsN v 32 32 == 0)

/-- A log tail written by the host, under the rule of CSRW (18 R314). -/
def Context.hostTail (x : Context) (k : Nat) (v : Word) : Context := if x.tailOk k v then x.setTail k v else x

/-- Whether a write to a debug block sets a must-be-zero bit. -/
def Debug.badWrite (b : Debug) (w : BlockWrite) : Bool :=
  let new (cur f n : Nat) (bad : Nat → Bool) : Bool := w.reaches f n && bad (w.merge cur f n)
  new 0 0 4 (fun v => decide (4 ≤ v)) || new 0 4 4 (fun v => decide (16 ≤ v)) ||
    new b.paddr.toNat 24 8 (fun v => bitsN v 21 38 != 0) ||
    (List.range 4).any (fun j => new (b.wps.getD j 0).toNat (48 + 16 * j) 16 (fun v => bitsN v 69 59 != 0))

/-- The fields of a debug block that a write changes without starting anything. -/
def Context.writeDebug (x : Context) (w : BlockWrite) : Context :=
  let b := x.dbgBlock
  let dbg (f : Nat → Debug → Debug) (v : Nat) (x : Context) : Context := { x with dbgBlock := f v x.dbgBlock }
  let x1 := w.field ((if b.lcr then 2 else 0) + (if b.hold then 1 else 0)) 0 4 (fun v x => x.setLcr (bitN v 1) (bitN v 0)) x
  let x2 := w.field b.wtag.toNat 8 4 (dbg (fun v b => { b with wtag := BitVec.ofNat 32 v })) x1
  let x3 := w.field b.word.toNat 12 4 (dbg (fun v b => { b with word := BitVec.ofNat 32 v })) x2
  let x4 := w.field b.sobj.toNat 20 4 (dbg (fun v b => { b with sobj := BitVec.ofNat 32 v })) x3
  let x5 := w.field b.paddr.toNat 24 8 (dbg (fun v b => { b with paddr := BitVec.ofNat 64 v })) x4
  let x6 := w.field b.pdata.toNat 32 8 (dbg (fun v b => { b with pdata := BitVec.ofNat 64 v })) x5
  let x7 := (List.range 4).foldl (fun x j =>
    w.field (b.wps.getD j 0).toNat (48 + 16 * j) 16 (dbg (fun v b =>
      if watchpointOk v then { b with wps := setAt b.wps j (BitVec.ofNat 128 v) } else b)) x) x6
  let x8 := (List.range 4).foldl (fun x k =>
    w.field (x.log k).rcount.toNat (152 + 4 * k) 4 (fun v x =>
      x.modLog k (fun l => { l with rcount := BitVec.ofNat 32 v })) x) x7
  (List.range 4).foldl (fun x k =>
    w.field (x.log k).tail.toNat (168 + 4 * k) 4 (fun v x => x.hostTail k (BitVec.ofNat 32 v)) x) x8

/-- A write to a debug block: dropped when it sets a must-be-zero bit; a write of cmd starts a command. -/
def Device.writeDebugBlock (d : Device) (c : BitVec 6) (w : BlockWrite) : Device :=
  if (d.ctx c).dbgBlock.badWrite w then d
  else
    let d1 := d.modCtx c (fun x => x.writeDebug w)
    if w.reaches 4 1 then d1.debugCommand c (w.merge 0 4 4) else d1

/-- LCR_ENABLE: a host write of lcr 1, hold as it is. -/
def execLcrEnable (c : BitVec 6) (s : State) : Host.Outcome State Fault Refusal :=
  if s.dev.booted then
    .next { s with dev := s.dev.modCtx c (fun x => x.setLcr true x.dbgBlock.hold) }
  else .next s

/-- LOG_TAIL_WRITE. -/
def execLogTailWrite (c : BitVec 6) (k : BitVec 2) (v : Word) (s : State) : Host.Outcome State Fault Refusal :=
  if s.dev.booted then .next { s with dev := s.dev.modCtx c (fun x => x.hostTail k.toNat v) } else .next s

/-! ## Link registers (23 Table 23-2) -/

/-- The message tail written: outside tail to head the write is dropped; held messages follow as the ring has room. -/
def Device.writeMsgTail (d : Device) (v : Word) : Device :=
  if (v - d.msgTail).toNat ≤ (d.msgHead - d.msgTail).toNat then
    ({ d with msgTail := v }).drainHeld d.held.length
  else d

/-- Whether some context is active. -/
def Device.anyActive (d : Device) : Bool := d.contexts.any (fun e => e.2.state == .active)

/-- A write to the link registers. -/
def Device.writeLink (d : Device) (w : BlockWrite) : Device :=
  let d1 := w.field d.ring.toNat 0 8 (fun v d =>
    if !d.anyActive && v % 65536 = 0 then { d with ring := BitVec.ofNat 64 v } else d) d
  let d2 := w.field d.msgTail.toNat 0x0C 4 (fun v d => d.writeMsgTail (BitVec.ofNat 32 v)) d1
  w.field d.aperture.toNat 0x10 8 (fun v d =>
    if v % 2 ^ 32 = 0 && v < 2 ^ 40 then { d with aperture := BitVec.ofNat 64 v } else d) d2

/-- MESSAGE_TAIL_WRITE. -/
def execMessageTailWrite (v : Word) (s : State) : Host.Outcome State Fault Refusal :=
  if s.dev.booted then .next { s with dev := s.dev.writeMsgTail v } else .next s

/-- Whether an inbound window may be written (23 Table 23-6). -/
def inboundOk (v : Nat) : Bool :=
  bitsN v 0 16 == 0 && bitsN v 64 16 == 0 && !(bitN v 128 && bitsN v 64 64 == 0) && bitsN v 133 27 == 0 &&
    bitsN v 166 26 == 0 && bitsN v 192 64 == 0

/-- A write to the inbound windows; the window of entry `j` of port `p` has key 16 p + j. -/
def Device.writeWindow (d : Device) (w : BlockWrite) : Device :=
  let e := w.at_ / 32
  let v := w.merge (tableGet 0 d.windows (16 + e)).toNat (32 * e) 32
  if inboundOk v then { d with windows := tableSet d.windows (16 + e) (BitVec.ofNat 256 v) } else d

/-! ## The aperture (23 R355) -/

/-- Whether the host reaches a physical byte through the aperture: it is HBM, and of no secure range. -/
def Device.hostReaches (d : Device) (a : Nat) : Bool :=
  decide (a < 65536 * hbmPages) && !d.secRanges.any (fun r => decide (r.1 ≤ a) && decide (a < r.1 + r.2))

/-- Whether a context holds a byte of HBM, in a region of its plan or a table. -/
def Context.holdsByte (x : Context) (a : Nat) : Bool :=
  x.regions.any (fun r => mainKind r.kind.toNat && decide (r.phys ≤ a) && decide (a < r.phys + r.size)) ||
    x.tables.any (fun t => decide (t.1 ≤ a) && decide (a < t.1 + t.2)) ||
    (x.state != .free && decide (x.root.toNat ≤ a) && decide (a < x.root.toNat + 2 ^ 21))

/-- INTEGRITY in the contexts that hold a lost byte of HBM, if one of some bytes that the host or a peer reads is lost
(21 R333). -/
def Device.readLost (d : Device) (a n : Nat) : Device :=
  match d.lostIn (.phys 0) a n with
  | none => d
  | some f => (d.contexts.filter (fun e => e.2.holdsByte f.addr)).foldl (fun d e => d.contextFault (BitVec.ofNat 6 e.1) f) d

/-- The bytes that a read of the aperture gives; a lost byte gives a free value (log entry 82). -/
def Device.apertureBytes (d : Device) (off n : Nat) : List (BitVec 8) :=
  (List.range n).map (fun k =>
    let a := d.aperture.toNat + off + k
    if off + k < 2 ^ 32 && d.hostReaches a then
      (if d.lost.contains (.hbm a) then Config.lostByte d.tick a else Memory.byte d.hbm a)
    else 0)

/-- The device after a write through the aperture. -/
def Device.apertureWrite (d : Device) (off : Nat) (bytes : List (BitVec 8)) : Device :=
  ((List.range bytes.length).zip bytes).foldl (fun d p =>
    let a := d.aperture.toNat + off + p.1
    if off + p.1 < 2 ^ 32 && d.hostReaches a then d.physPut { dev := 0, addr := a } p.2 else d) d

/-- The exact accumulators over the bytes that an access through the aperture reaches settled (09 R197). -/
def Device.apertureSettle (d : Device) (off n : Nat) : Device :=
  (List.range n).foldl (fun d k =>
    let a := d.aperture.toNat + off + k
    if off + k < 2 ^ 32 && d.hostReaches a then d.settle (.phys 0) a 1 false else d) d

/-- What a read through the aperture does to the contexts whose lost bytes it reaches. -/
def Device.apertureLost (d : Device) (off n : Nat) : Device :=
  if d.lost.isEmpty then d
  else (List.range n).foldl (fun d k =>
    let a := d.aperture.toNat + off + k
    if off + k < 2 ^ 32 && d.hostReaches a then d.readLost a 1 else d) d

/-- An access through the aperture. -/
def Device.apertureAccess (d : Device) (off : Nat) (acc : ApertureAccess) : Device :=
  match acc with
  | .read n =>
    let d1 := d.apertureSettle off n
    { d1.apertureLost off n with apData := d1.apertureBytes off n }
  | .write bytes => (d.apertureSettle off bytes.length).apertureWrite off bytes

/-- HOST_APERTURE_ACCESS: before the boot has ended reads give zeros and writes are dropped. -/
def execHostApertureAccess (off : BitVec 32) (acc : ApertureAccess) (s : State) : Host.Outcome State Fault Refusal :=
  if s.dev.booted then .next { s with dev := s.dev.apertureAccess off.toNat acc }
  else
    match acc with
    | .read n => .next { s with dev := { s.dev with apData := List.replicate n 0 } }
    | .write _ => .next s

/-! ## Reads of the window (23 Table 23-1; 24 R366) -/

/-- A byte of a block whose fields are given by offset, length in bytes and value; the rest of the block reads as zero. -/
def fieldsByte (k : Nat) : List (Nat × Nat × Nat) → BitVec 8
  | [] => 0
  | f :: t => if f.1 ≤ k && k < f.1 + f.2.1 then BitVec.ofNat 8 (bitsN f.2.2 (8 * (k - f.1)) 8) else fieldsByte k t

/-- A byte of a command mailbox (15 Table 15-1). -/
def Mailbox.byte (m : Mailbox) (k : Nat) : BitVec 8 :=
  if k < 64 then m.cmd.getD k 0
  else if 72 ≤ k && k < 128 then m.results.getD (k - 72) 0
  else
    fieldsByte k
      [(64, 4, m.status.toNat * 2 ^ 16 + m.seq.toNat * 2 ^ 8 + m.code.toNat), (68, 4, if m.ovr then 2 ^ 31 else 0)]

/-- A byte of a context control block (17 Table 17-1). -/
def Device.controlByte (d : Device) (c : BitVec 6) (k : Nat) : BitVec 8 :=
  let x := d.ctx c
  fieldsByte k
    [(0, 4, x.word0), (8, 8, x.root.toNat), (16, 4, x.fcause.toNat), (20, 4, x.fdetail.toNat), (24, 8, x.faddr.toNat),
     (32, 8, x.pmiss.toNat), (40, 8, x.taddr.toNat), (48, 4, d.faultStatus c), (64, 64, x.attest.toNat)]

/-- A byte of a gate table (18 R308). -/
def Context.gateByte (x : Context) (k : Nat) : BitVec 8 :=
  fieldsByte (k % 8) [(0, 8, (tableGet 0 x.gates (k / 8)).toNat)]

/-- A byte of a debug block (22 Table 22-1). -/
def Context.debugByte (x : Context) (k : Nat) : BitVec 8 :=
  let b := x.dbgBlock
  let four (at_ n : Nat) (f : Nat → Nat) : List (Nat × Nat × Nat) := (List.range 4).map (fun j => (at_ + n * j, n, f j))
  fieldsByte k
    ([(0, 4, (if b.lcr then 2 else 0) + (if b.hold then 1 else 0)), (4, 4, b.cmd.toNat), (8, 4, b.wtag.toNat),
      (12, 4, b.word.toNat),
      (16, 4, (if b.err then 2 ^ 16 else 0) + b.widx.toNat * 2 ^ 8 + b.why.toNat * 2 ^ 4 + b.st.toNat),
      (20, 4, b.sobj.toNat), (24, 8, b.paddr.toNat), (32, 8, b.pdata.toNat), (128, 8, b.tbytes.toNat),
      (136, 8, b.ebytes.toNat), (144, 8, b.trbytes.toNat)] ++
      four 48 16 (fun j => (b.wps.getD j 0).toNat) ++ four 112 4 (fun j => (b.hits.getD j 0).toNat) ++
      four 152 4 (fun j => (x.log j).rcount.toNat) ++ four 168 4 (fun j => (x.log j).tail.toNat))

/-- The boot-status register (24 Table 24-2). -/
def Boot.status (b : Boot) : Nat := (if b.halt then 2 ^ 31 else 0) + b.step.toNat

/-- A byte of the link registers (23 Table 23-2; 24 Table 24-2). -/
def Device.linkByte (d : Device) (k : Nat) : BitVec 8 :=
  let four (at_ : Nat) (l : List (BitVec 16)) : List (Nat × Nat × Nat) :=
    (List.range 4).map (fun j => (at_ + 2 * j, 2, (l.getD j 0).toNat))
  fieldsByte k
    ([(0x00, 8, d.ring.toNat), (0x08, 4, d.msgHead.toNat), (0x0C, 4, d.msgTail.toNat), (0x10, 8, d.aperture.toNat),
      (0x18, 4, d.ports.toNat), (0x20, 4, d.boot.status), (0x28, 8, d.power.toNat),
      (0x40, 4, bitsN d.throttled.toNat 16 32)] ++ four 0x30 d.temp ++ four 0x38 d.clk)

/-- A byte of the host window, read. An offset that the table does not list reads as zero, and before the boot has ended so
does everything but the boot status and the SPDM mailbox, whose contents the spec does not lay out (log entry 12). -/
def Device.windowByte (d : Device) (off : Nat) : BitVec 8 :=
  let ctx (base size : Nat) : BitVec 6 := BitVec.ofNat 6 ((off - base) / size)
  if 0x2B000 ≤ off && off < 0x2C000 then Config.spdmByte 0 d.tick (off - 0x2B000)
  else if !d.booted && !(decide (0x2A020 ≤ off) && decide (off < 0x2A024)) then 0
  else if off < 0x4000 then (d.ctx (ctx 0 256)).mailbox.byte (off % 256)
  else if off < 0x6000 then d.controlByte (ctx 0x4000 128) ((off - 0x4000) % 128)
  else if off < 0x26000 then (d.ctx (ctx 0x6000 2048)).gateByte ((off - 0x6000) % 2048)
  else if off < 0x2A000 then (d.ctx (ctx 0x26000 256)).debugByte ((off - 0x26000) % 256)
  else if off < 0x2B000 then d.linkByte (off - 0x2A000)
  else if 0x100000 ≤ off && off < 0x102000 then
    fieldsByte ((off - 0x100000) % 32) [(0, 32, (tableGet 0 d.windows (16 + (off - 0x100000) / 32)).toNat)]
  else if 2 ^ 32 ≤ off && off < 2 ^ 33 then ((d.apertureSettle (off - 2 ^ 32) 1).apertureBytes (off - 2 ^ 32) 1).getD 0 0
  else 0

/-! ## REGISTER_WRITE (23 Table 23-1) -/

/-- The bytes of a register write. -/
def writeBytes (z : WriteSize) : Nat :=
  match z with
  | .b1 => 1
  | .b2 => 2
  | .b4 => 4
  | .b8 => 8

/-- A write to a mailbox: command bytes, or the doorbell. -/
def Device.writeMailbox (d : Device) (c : BitVec 6) (w : BlockWrite) : Device :=
  if w.at_ + w.n ≤ 64 then
    d.modCtx c (fun x => { x with mailbox := { x.mailbox with
      cmd := overwrite (takePad 0 x.mailbox.cmd 64) w.at_ (natToBytes w.v w.n) } })
  else if w.reaches 128 4 then d.doorbell c
  else d

/-- A write of `n` bytes at an offset of the window. An offset that the table does not list drops it, and so does the SPDM
mailbox, whose requests have rows of their own. -/
def Device.windowWrite (d : Device) (off n v : Nat) : Device :=
  let ctx (base size : Nat) : BitVec 6 := BitVec.ofNat 6 ((off - base) / size)
  let write (base size : Nat) : BlockWrite := { at_ := (off - base) % size, n := n, v := v }
  if off < 0x4000 then d.writeMailbox (ctx 0 256) (write 0 256)
  else if off < 0x6000 then d.writeControl (ctx 0x4000 128) (write 0x4000 128)
  else if off < 0x26000 then d.writeGate (ctx 0x6000 2048) (write 0x6000 2048)
  else if off < 0x2A000 then d.writeDebugBlock (ctx 0x26000 256) (write 0x26000 256)
  else if off < 0x2B000 then d.writeLink (write 0x2A000 0x1000)
  else if 0x100000 ≤ off && off < 0x102000 then d.writeWindow (write 0x100000 0x2000)
  else if 2 ^ 32 ≤ off && off < 2 ^ 33 then d.apertureAccess (off - 2 ^ 32) (.write (natToBytes v n))
  else d

/-- REGISTER_WRITE: dropped before the boot has ended, and when it is not aligned to its size (log entry 36). -/
def execRegisterWrite (off : Nat) (z : WriteSize) (v : BitVec 64) (s : State) : Host.Outcome State Fault Refusal :=
  if s.dev.booted && off % writeBytes z == 0 then
    .next { s with dev := s.dev.windowWrite off (writeBytes z) (lowN v.toNat (8 * writeBytes z)) }
  else .next s

end Sys2Proof.Machine
end

