-- ==== Sys2Proof/Machine/Fabric.lean ====
section
/-! DEFINITION. What comes from outside the host window: the boot (24 R366), the counter of CYC, power and clocks (24 R367 to R369), faults, replays
and repair (21 R327 to R338), peer ports (23 R358 to R360), worlds (23 R362), the SPDM responder (23 R364, R365), and the
admission of held arrivals (22 R352, R353). -/

namespace Sys2Proof.Machine

open Sys2Proof

/-! ## Reset and boot (24 R366) -/

/-- The 56 positions of a die (00 Table 00-1). -/
def positions (die : Nat) : List (BitVec 8) := (List.range 56).map (fun i => BitVec.ofNat 8 (die * 64 + i))

/-- Whether a repair map keeps its form: no array has more than its four spares in use, and a column is remapped once. -/
def repairForm (remapped : List (BitVec 8 × BitVec 8)) : Bool :=
  decide remapped.Nodup &&
    remapped.all (fun p =>
      decide (p.2.toNat < 128) && decide ((remapped.filter (fun q => q.1 == p.1)).length ≤ 4))

/-- The arrays as a repair map leaves them. -/
def repaired (remapped : List (BitVec 8 × BitVec 8)) : Table ArrayState :=
  (remapped.map (fun p => p.1)).eraseDups.map (fun core =>
    (core.toNat, { columns := (remapped.filter (fun q => q.1 == core)).map (fun q => q.2), reduced := true }))

/-- The cores that are not fenced. -/
def unfenced (fenced : List (BitVec 8)) : List (BitVec 8) :=
  (List.range 4).flatMap (fun die => (positions die).filter (fun c => !fenced.contains c))

/-- Whether every die keeps 48 cores and 24 pairs. -/
def enoughCores (enabled : List (BitVec 8)) : Bool :=
  (List.range 4).all (fun die =>
    let cores := enabled.filter (fun c => c.toNat / 64 == die)
    decide (48 ≤ cores.length) &&
      decide (24 ≤ (cores.filter (fun c => c.toNat % 2 == 0 && cores.contains (c + 1))).length))

/-- The device halted at a boot step. -/
def Device.haltAt (d : Device) (step : BitVec 4) : Device := { d with boot := { d.boot with step := step, halt := true } }

/-- What a reset keeps: the model's counter of steps and numbers, and the memory outside the device. -/
def Device.restart (d : Device) : Device :=
  { Device.reset with tick := d.tick, nextId := d.nextId, host := d.host, peers := d.peers }

/-- Ends the boot step that is running and begins the next, or halts there (24 Table 24-1). -/
def Device.bootStep (d : Device) (b : BootInputs) : Device :=
  let next (d : Device) (step : BitVec 4) : Device := { d with boot := { d.boot with step := step } }
  match d.boot.step.toNat with
  | 1 => next d 2
  | 2 => if b.firmwareOk then next { d with firmware := b.firmware } 3 else d.haltAt 2
  | 3 =>
    if b.policyOk then
      next { d with policy := b.policy, secBlocks := b.secureBlocks, secRanges := b.secureRanges } 4
    else d.haltAt 3
  | 4 => if b.stacksOk.length = 12 && b.stacksOk.all id then next d 5 else d.haltAt 4
  | 5 =>
    if b.repairOk && repairForm b.remapped then
      next { d with repairMap := b.repairMap, arrays := repaired b.remapped, fenced := b.fenced } 6
    else d.haltAt 5
  | 6 =>
    let fenced := (d.fenced ++ b.selfTestFailed).eraseDups
    let d1 := { d with fenced := fenced }
    if enoughCores (unfenced fenced) then next { d1 with enabled := unfenced fenced } 7 else d1.haltAt 6
  | 7 => next { d with counters := [] } 15
  | _ => d

/-- Whether a boot step is running, and what the steps find. -/
def Device.bootRuns (d : Device) : Option BootInputs :=
  if d.boot.step = 15 || d.boot.halt then none else d.boot.found

/-- Ends up to `n` boot steps. -/
def Device.bootSteps (d : Device) : Nat → Device
  | 0 => d
  | n + 1 => match d.bootRuns with | some b => (d.bootStep b).bootSteps n | none => d

/-- The CYC at which the boot ends (24 R369). -/
def bootEnd : Nat := 4000000000

/-- The boot as the counter has advanced: a step before the last ends when the device's timing has it, and the boot ends at its
CYC (log entry 58). -/
def Device.bootTurn (d : Device) : Device :=
  match d.bootRuns with
  | none => d
  | some b =>
    if d.cyc.toNat = bootEnd then d.bootSteps 7
    else if d.boot.step ≠ 7 && Config.bootAdvance d.tick then d.bootStep b
    else d

/-- RESET: the device starts again at step 1, with CYC 0; `b` is what the boot steps will find. -/
def execReset (b : BootInputs) (s : State) : Host.Outcome State Fault Refusal :=
  let d := s.dev.restart
  .next { s with dev := { d with boot := { d.boot with found := some b } }, issue := none, latch := none }

/-- The device with its power removed (24 R369): the device span ends. -/
def Device.powerOff (d : Device) : Device := { d.restart with powered := false }

/-- POWER_REMOVE: a supply fault, or a junction that is too hot. -/
def execPowerRemove (s : State) : Host.Outcome State Fault Refusal :=
  .next { s with dev := s.dev.powerOff, issue := none, latch := none }

/-! ## Clocks (24 R367 to R369) -/

/-- The unit of the junction temperatures: sixteenths of a degree. -/
def degrees (n : Nat) : Nat := 16 * n

/-- Whether the package power or a die's junction is over its limit (24 R368). -/
def Device.overLimit (d : Device) (die : BitVec 2) : Bool :=
  decide (3400000 < d.power.toNat) || decide (degrees 105 < (d.temp.getD die.toNat 0).toNat)

/-- THROTTLE: while a limit does not hold, the controller lowers a die's arithmetic clock by 100 MHz; while both hold it raises
it, to at most 1,900 MHz (24 R368; log entry 13). Anything else is not this event. -/
def execThrottle (die : BitVec 2) (lower : Bool) (s : State) : Host.Outcome State Fault Refusal :=
  let d := s.dev
  let next (m : BitVec 16) : BitVec 16 :=
    if lower then (if 100 < m.toNat then m - 100 else m) else (if m.toNat + 100 ≤ 1900 then m + 100 else m)
  if d.overLimit die == lower then .next { s with dev := { d with clk := modAt d.clk die.toNat next } } else .next s

/-- The CYC to which the counter advances: some counts on (log entry 2), and not past the CYC at which a running boot ends. -/
def Device.nextCyc (d : Device) : BitVec 64 :=
  let t := d.cyc + 1 + BitVec.ofNat 64 (Config.elapsed d.tick).toNat
  if d.bootRuns.isSome && decide (d.cyc.toNat < bootEnd) && decide (bootEnd < t.toNat) then BitVec.ofNat 64 bootEnd else t

/-- The time that the power register averages over (24 Table 24-2). -/
def powerSpan : Nat := 2 ^ 20

/-- The mean of some powers, each over the CYC that it names, in the last 2^20 CYC up to `t`, or in all since the reset. -/
def meanPower (t : Nat) (l : List (Nat × Nat × Nat)) : Nat :=
  (l.map (fun p => (p.2.1 - max p.1 (t - powerSpan)) * p.2.2)).foldl (· + ·) 0 / min t powerSpan

/-- The powers of the last 2^20 CYC up to `t`, with that of the CYC since `from_` first. -/
def Device.powersTo (d : Device) (from_ t : Nat) : List (Nat × Nat × Nat) :=
  (from_, t, (Config.telemetry d.tick 0).toNat) :: d.powers.filter (fun p => decide (t < p.2.1 + powerSpan))

/-- The device with its counter at a later CYC: the time spent throttled is counted, the power register averages the package
power (24 Table 24-2), and the rest of the telemetry is that of the controller (24 R367; log entry 13). -/
def Device.countTo (d : Device) (t : BitVec 64) : Device :=
  { d with
    cyc := t
    powers := d.powersTo d.cyc.toNat t.toNat
    released := []
    releasedOps := []
    throttled := if d.clk.any (fun m => m.toNat < 1900) then d.throttled + (t - d.cyc) else d.throttled
    power := BitVec.ofNat 64 (meanPower t.toNat (d.powersTo d.cyc.toNat t.toNat))
    temp := (List.range 4).map (fun j => BitVec.ofNat 16 (Config.telemetry d.tick (1 + j)).toNat) }

/-- The counter of all four dies advances (00 R5; the dies' counters never differ here, log entry 68): the messages and the
posted records of the CYC enter their rings and queues, a boot moves on, and a junction above 115 °C removes the power. -/
def Device.clock (d : Device) : Device :=
  let d1 := ((d.flushMessages.flushPosts).countTo d.nextCyc).bootTurn
  if d1.temp.any (fun t => decide (degrees 115 < t.toNat)) then d1.powerOff else d1

/-! ## Peer ports (23 R358 to R360) -/

/-- Whether a number names a peer port. -/
def isPeerPort (port : BitVec 5) : Bool := decide (1 ≤ port.toNat) && decide (port.toNat ≤ 16)

/-- The bit of a port in the register ports. -/
def portBit (port : BitVec 5) : Word := BitVec.ofNat 32 (2 ^ port.toNat)

/-- PEER_PORT_DOWN: bursts that reach the port's device park from now on. -/
def execPeerPortDown (port : BitVec 5) (s : State) : Host.Outcome State Fault Refusal :=
  if isPeerPort port then .next { s with dev := { s.dev with ports := s.dev.ports &&& ~~~portBit port } } else .next s

/-- PEER_PORT_UP. -/
def execPeerPortUp (port : BitVec 5) (s : State) : Host.Outcome State Fault Refusal :=
  if isPeerPort port then .next { s with dev := { s.dev with ports := s.dev.ports ||| portBit port } } else .next s

/-- The block identifier of a port (21 Table 21-3). -/
def portBlock (port : BitVec 5) : Nat := 0xA * 2 ^ 16 + port.toNat * 2 ^ 8

/-- An inbound window that admits an access of `n` bytes at an address (23 Table 23-6). -/
def windowAdmits (v : BitVec 256) (sec write : Bool) (a n : Nat) : Bool :=
  let x := v.toNat
  bitN x 128 && (if write then bitN x 130 else bitN x 129) && bitN x 131 == sec && decide (bitsN x 0 64 ≤ a) &&
    decide (a + n ≤ bitsN x 0 64 + bitsN x 64 64)

/-- The window of a port that admits an access, if the bytes lie in HBM and one does. -/
def Device.inboundWindow (d : Device) (port : BitVec 5) (sec write : Bool) (a n : Nat) : Option (BitVec 256) :=
  if 65536 * hbmPages < a + n then none
  else
    ((List.range 16).map (fun j => tableGet 0 d.windows (16 * port.toNat + j))).find? (fun v => windowAdmits v sec write a n)

/-- An access refused at the receiver's port: nothing changes but its counter (log entry 37). -/
def Device.refuseInbound (d : Device) (port : BitVec 5) : Device :=
  { d.count (portBlock port) (fun c => { c with uncorrectable := c.uncorrectable + 1 }) with inbound := none }

/-- An element of a reduce-add that a window admits; under the sender's ordered-reduction bit it accumulates exactly for the
context that the window names, and is refused when it names none or its reduction area is full (23 R359). -/
def Device.inboundAdd (d : Device) (port : BitVec 5) (v : BitVec 256) (ordr : Bool) (a : Nat) (efmt : BitVec 4) (x : Nat) :
    Device :=
  let n := fmtBytes efmt
  if ordr && (floatFmt efmt.toNat).isSome then
    let c : BitVec 6 := BitVec.ofNat 6 (bitsN v.toNat 160 6)
    let d1 := accumulate c efmt [({ space := .phys 0, addr := a }, x)] d
    if !bitN v.toNat 132 then d.refuseInbound port
    else if !d1.reductionFits c then (d.refuseInbound port).contextFault c ((d.ctx c).quotaFault 6 0)
    else { d1 with inbound := some [] }
  else
    let d1 := d.settle (.phys 0) a n false
    { d1.putNum (.phys 0) a n (reduceSum efmt (d1.num (.phys 0) a n) x) with inbound := some [] }

/-- An access that arrives on a peer port. One that reads bytes that an error has lost, a reduce-add among them, has no
effect. -/
def Device.inboundAccess (d : Device) (port : BitVec 5) (acc : PeerAccess) : Device :=
  match acc with
  | .read sec a n =>
    (match d.inboundWindow port sec false a n with
     | none => d.refuseInbound port
     | some _ =>
       if (d.lostIn (.phys 0) a n).isSome then { d.readLost a n with inbound := none }
       else
         let d1 := d.settle (.phys 0) a n false
         { d1 with inbound := some (Memory.bytes d1.hbm a n) })
  | .write sec a bytes =>
    (match d.inboundWindow port sec true a bytes.length with
     | none => d.refuseInbound port
     | some _ =>
       let d1 := d.settle (.phys 0) a bytes.length true
       { ((List.range bytes.length).zip bytes).foldl (fun d p => d.physPut { dev := 0, addr := a + p.1 } p.2) d1 with
         inbound := some [] })
  | .reduceAdd sec ordr a efmt elem =>
    (match d.inboundWindow port sec true a (fmtBytes efmt) with
     | none => d.refuseInbound port
     | some v =>
       if (d.lostIn (.phys 0) a (fmtBytes efmt)).isSome then { d.readLost a (fmtBytes efmt) with inbound := none }
       else d.inboundAdd port v ordr a efmt (lowN elem.toNat (8 * fmtBytes efmt)))

/-- PEER_INBOUND_ACCESS: nothing arrives on a port that is down. -/
def execPeerInboundAccess (port : BitVec 5) (acc : PeerAccess) (s : State) : Host.Outcome State Fault Refusal :=
  if isPeerPort port && s.dev.portUp port.toNat then .next { s with dev := s.dev.inboundAccess port acc } else .next s

/-! ## Faults and replays (21 R328 to R333) -/

/-- One more replay of a block. -/
def Device.countReplay (d : Device) (id : Nat) : Device := d.count id (fun c => { c with replays := c.replays + 1 })

/-- One more uncorrectable error of a block. -/
def Device.countError (d : Device) (id : Nat) : Device :=
  d.count id (fun c => { c with uncorrectable := c.uncorrectable + 1 })

/-- INTEGRITY that names a block. -/
def blockFault (id : Nat) : CtxFault := { code := causeIntegrity, detail := id, addr := 0 }

/-- A request's replay unit fails in a block: it is tried again from its record, a burst from the elements committed and a
routing pass from its first token; the third failure in succession ends the context (21 R331). -/
def Device.requestFails (d : Device) (r : Request) (block : Nat) : Device :=
  if 2 ≤ r.fails then (d.countError block).endContext r.ctx (blockFault block)
  else (d.countReplay block).modRequest r.id (fun x => { x with fails := x.fails + 1 })

/-- Whether a context has work on a core: a workgroup, or a matrix operation or an engine request of its core. -/
def Device.workOn (d : Device) (c : BitVec 6) (core : BitVec 8) : Bool :=
  d.wgs.any (fun w => w.ctx == c && !w.gone &&
      (w.occupies core || (match d.kernelOf w with | some k => k.ptiles != 0 && w.core + 1 == core | none => false))) ||
    d.matrix.any (fun m => m.ctx == c && m.core == core) || d.requests.any (fun r => r.ctx == c && r.core == core)

/-- A context with work on a fenced core is stopped as by STOP, its cause left as it is; it ends with INTEGRITY when its
save area cannot hold it (21 R338; log entry 39). -/
def Device.stopForFence (d : Device) (id : Nat) (c : BitVec 6) : Device :=
  if (d.ctx c).state ≠ .active || (d.ctx c).stopping then d
  else if d.saveFits c then d.modCtx c (fun x => { x with stopping := true })
  else d.endContext c (blockFault id)

/-- Fences the core of a block: the host is told, and the contexts with work there stop. -/
def Device.fence (d : Device) (id : Nat) : Device :=
  let core := blockCore id
  let d1 := { d with fenced := d.fenced ++ [core] }.sendMsg 9 0 0 (BitVec.ofNat 32 id)
  ((List.range 64).filter (fun n => d.workOn (BitVec.ofNat 6 n) core)).foldl
    (fun d n => d.stopForFence id (BitVec.ofNat 6 n)) d1

/-- CORE_FENCE: nothing happens unless the boot has ended and the block is one of a core that is not fenced yet. -/
def execCoreFence (block : Word) (s : State) : Host.Outcome State Fault Refusal :=
  let id := block.toNat
  if s.dev.booted && isBlockId id && decide (bitsN id 16 4 ≤ 3) && !s.dev.fenced.contains (blockCore id) then
    .next { s with dev := s.dev.fence id }
  else .next s

/-- The device with a column of a core's array remapped to a spare: the array runs in reduced-array mode from now on, and
the host is told (21 R337). -/
def Device.remap (d : Device) (core col : BitVec 8) : Device :=
  let a := d.array core
  { d with arrays := tableSet d.arrays core.toNat { columns := a.columns ++ [col], reduced := true } }.sendMsg 7 0 0
    (BitVec.ofNat 32 (blockId 0 core + col.toNat))

/-- Whether a column of a core's array is in service: one of the 128 that no spare has replaced, or a spare in use (21 R337). -/
def Device.inServiceCol (d : Device) (core col : BitVec 8) : Bool :=
  let used := (d.array core).columns
  decide (col.toNat < 128 + used.length) && decide (col.toNat ≤ 131) && !used.contains col

/-- The execution of a matrix operation fails in a column of a core's array, its own or its follower's. After three successive
failures of one column a spare takes its place, or, with no spare left, the core is fenced; three failures of several columns
end the context (21 R331, R337, R338). -/
def Device.matrixFails (d : Device) (op : MatOp) (core col : BitVec 8) : Device :=
  let id := blockId 0 core + col.toNat
  let cols := BitVec.ofNat 32 id :: op.failCols
  let set (l : List Word) (d : Device) : Device :=
    { d with matrix := d.matrix.map (fun x => if x.id == op.id then { x with failCols := l } else x) }
  if cols.length < 3 then set cols (d.countReplay id)
  else if cols.all (· == BitVec.ofNat 32 id) then
    let d1 := set [] (d.countReplay id)
    if (d.array core).columns.length < 4 then d1.remap core col else if d.fenced.contains core then d1 else d1.fence id
  else (d.countError id).endContext op.ctx (blockFault id)

/-- Whether a transient fault may strike a request: its engine serves it and its work is not done. -/
def Device.inService (d : Device) (r : Request) : Bool := d.canServe r && decide (r.done < r.total)

/-- Whether a block checks what crosses it with a code of the link, or by parity: a translation unit, a die-to-die link or a
Breip port (21 Table 21-2). -/
def isCrossing (id : Nat) : Bool := isBlockId id && [6, 9, 0xA].contains (bitsN id 16 4)

/-- Whether a block holds stored state under SECDED: a register store, shared memory, a tile store, the scratchpad, a stack of
HBM, or the queue of an array, a copy engine or Clasp with its overflow buffer (21 Table 21-2; log entry 83). -/
def isStore (id : Nat) : Bool :=
  isBlockId id && ([1, 2, 3, 4, 5, 7, 8].contains (bitsN id 16 4) || (bitsN id 16 4 == 0 && bitsN id 0 8 == 0))

/-- The blocks that a log or a save write runs through: a trace unit, or a crossing. -/
def isWriter (id : Nat) : Bool := isBlockId id && bitsN id 16 4 == 0xB || isCrossing id

/-- A request that a transient fault may strike: one in service, or one that was when its context ended in this CYC (21 Table
21-3a). -/
def Device.struck (d : Device) (req : Nat) : Option Request :=
  match d.request req with
  | some r => if d.inService r then some r else none
  | none => d.released.find? (fun r => r.id == req && d.hasEngine r && decide (r.done < r.total))

/-- The operation that a transient fault strikes in a core's array: the one that executes there, in an active context, or one that
did when its context ended in this CYC (21 Table 21-3a). -/
def Device.struckOp (d : Device) (core : BitVec 8) : Option MatOp :=
  match d.releasedOps.find? (fun op => op.core == core || (op.sub == 1 && op.core + 1 == core)) with
  | some op => some op
  | none => (d.executing core).filter (fun op => (d.ctx op.ctx).state == .active)

/-- The device after a transient fault; nothing happens unless the work is in flight (21 R328 to R334). -/
def Device.transient (d : Device) (t : FaultTarget) : Device :=
  let strike (req : Nat) (block : Request → Option Nat) : Device :=
    match d.struck req with
    | some r => (match block r with | some b => d.requestFails r b | none => d)
    | none => d
  match t with
  | .burst req => strike req (fun r => match r.work with | .copy _ _ _ => some (d.requestBlock r) | _ => none)
  | .route req => strike req (fun r => match r.work with | .route _ _ _ _ => some (d.requestBlock r) | _ => none)
  | .crossing req b => strike req (fun _ => if isCrossing b.toNat then some b.toNat else none)
  | .matrix core col =>
    (match d.struckOp core with
     | some op => if d.inServiceCol core col then d.matrixFails op core col else d
     | none => d)
  | .logWrite b => if isWriter b.toNat then d.countReplay b.toNat else d
  | .singleBit b => if isStore b.toNat then d.count b.toNat (fun c => { c with corrected := c.corrected + 1 }) else d

/-- TRANSIENT_FAULT. -/
def execTransientFault (t : FaultTarget) (s : State) : Host.Outcome State Fault Refusal :=
  .next { s with dev := s.dev.transient t }

/-! ## Uncorrectable errors (21 R333) -/

/-- The physical ranges of HBM that a table of a context maps, from a table on: a table entry of zero maps nothing, so only the
entries with a listed byte are read. -/
def leavesFrom (m : Memory) (table : Nat) : List (Nat × Nat) → List (Nat × Nat)
  | [] => []
  | (shift, n) :: rest =>
    (((m.filter (fun c => decide (table ≤ c.1) && decide (c.1 < table + 8 * 2 ^ n))).map (fun c => (c.1 - table) / 8)).eraseDups).flatMap
      (fun i =>
        let e := Memory.num m (table + 8 * i) 8
        let addr := bitsN e 8 48 * 256
        if !bitN e 0 then []
        else if bitN e 1 then (if bitsN e 56 7 = 0 then [(addr, 2 ^ shift)] else [])
        else leavesFrom m addr rest)

/-- The physical ranges of HBM that contexts map: by their plans and tables, by the leaves of the tables, and by translations
that are cached or kept for a request. -/
def Device.mapped (d : Device) : List (Nat × Nat) :=
  let kept (t : Cached) : List (Nat × Nat) :=
    if bitsN t.leaf.toNat 56 7 = 0 then [(bitsN t.leaf.toNat 8 48 * 256, 2 ^ t.shift)] else []
  d.physTaken ++
    d.contexts.flatMap (fun e => if e.2.state = .free then [] else leavesFrom d.hbm e.2.root.toNat walkLevels) ++
    d.tlb.flatMap kept ++ d.requests.flatMap (fun r => r.leaves.flatMap kept)

/-- Whether a context maps bytes of a physical range of HBM. -/
def Device.rangeBusy (d : Device) (a n : Nat) : Bool := d.mapped.any (fun r => rangesMeet a n r.1 r.2)

/-- Whether a context owns a place of stored state. -/
def Device.owned (d : Device) (p : StoredPlace) : Bool :=
  let placed (uid : Nat) : Bool := d.wgs.any (fun w => w.uid == uid && !w.gone)
  match p with
  | .shared uid _ _ => placed uid
  | .tile uid _ _ => placed uid
  | .follower uid _ => placed uid
  | .cell uid g n => (match d.wg uid with
    | some w => !w.gone && (match w.groups[g]? with
      | some x => !x.retired && (match x.cells[n]? with | some c => !c.evicted | none => false)
      | none => false)
    | none => false)
  | .spad a => d.contexts.any (fun e => e.2.windows.any (fun w => decide (w.1 ≤ a) && decide (a < w.1 + w.2.1)))
  | .hbm a => d.rangeBusy a 1

/-- The device after an uncorrectable error in stored state (21 R333): a retained record supplies the value again; state that a
context owns is lost, and ends it when it is next read; other state is counted; and a log or save write that fails so ends its
context (Table 21-3a). -/
def Device.uncorrectable (d : Device) (t : StoredState) : Device :=
  match t with
  | .record b => if isBlockId b.toNat then (d.countError b.toNat).countReplay b.toNat else d
  | .owned p =>
    let d1 := d.countError (d.blockOf p)
    if d.owned p && !d.lost.contains p then { d1 with lost := p :: d1.lost } else d1
  | .unowned b => if isBlockId b.toNat then d.countError b.toNat else d
  | .writer c b => if isWriter b.toNat then (d.countError b.toNat).endContext c (blockFault b.toNat) else d

/-- UNCORRECTABLE_ERROR. -/
def execUncorrectableError (t : StoredState) (s : State) : Host.Outcome State Fault Refusal :=
  .next { s with dev := s.dev.uncorrectable t }

/-! ## Held arrivals (22 R352, R353) -/

/-- Whether an object lies in the unit of a number. -/
def Device.objectIn (d : Device) (uid : Nat) (addr : Word) (issuing : BitVec 8) (unit : BitVec 10) : Bool :=
  match d.wg uid with
  | some w => (match d.kernelOf w with
    | some k => (match objectAt w k.shared issuing addr.toNat with
      | some o => (d.unitOf { space := o.space, addr := o.off } issuing).number == unit
      | none => false)
    | none => false)
  | none => false

/-- The requests of a context whose work is done and whose arrival waits at a unit. -/
def Device.heldAt (d : Device) (c : BitVec 6) (unit : BitVec 10) : List Request :=
  d.requests.filter (fun r => r.ctx == c && !r.isFetch && d.canServe r && decide (r.total ≤ r.done) &&
    d.objectIn r.wg r.bar r.core unit)

/-- The agents of a context whose oldest closed batch waits to arrive at a unit. -/
def Device.batchesAt (d : Device) (c : BitVec 6) (unit : BitVec 10) : List (Nat × Nat × Bool) :=
  (d.placedOf c).flatMap (fun w => (List.range w.groups.length).flatMap (fun g => [false, true].filterMap (fun half =>
    match w.groups[g]? with
    | some x => (match (x.agent half).closed with
      | b :: _ => (match b.obj with
        | some a => if d.objectIn w.uid a x.core unit then some (w.uid, g, half) else none
        | none => none)
      | [] => none)
    | none => none)))

/-- ARRIVAL_ADMIT: a unit of an active context makes the arrivals held there that their logs let it make, in replay and when
a full log has room again. -/
def execArrivalAdmit (c : BitVec 6) (unit : BitVec 10) (s : State) : Host.Outcome State Fault Refusal :=
  if (s.dev.ctx c).state == .active then
    let d1 := (s.dev.heldAt c unit).foldl (fun d r => match d.request r.id with | some x => d.retireRequest x | none => d) s.dev
    .next { s with dev := (d1.batchesAt c unit).foldl (fun d p => d.batches p.1 p.2.1 p.2.2) d1 }
  else .next s

/-! ## Worlds (23 R362) -/

/-- Whether some context has work on a block: a core by its array's identifier, or an engine or the trace unit of a die. -/
def Device.blockBusy (d : Device) (id : Nat) : Bool :=
  let die := bitsN id 14 2
  if bitsN id 16 4 = 0 then (List.range 64).any (fun n => d.workOn (BitVec.ofNat 6 n) (blockCore id))
  else if bitsN id 16 4 = 0xB then
    d.requests.any (fun r => r.die.toNat == die && !r.isFetch) || d.wgs.any (fun w => !w.gone && (dieOf w.core).toNat == die)
  else d.requests.any (fun r => !r.isFetch && d.requestBlock r == id)

/-- A range taken out of some ranges. -/
def cutRange (a n : Nat) (rs : List (Nat × Nat)) : List (Nat × Nat) :=
  rs.flatMap (fun r =>
    if !rangesMeet a n r.1 r.2 then [r]
    else
      (if r.1 < a then [(r.1, a - r.1)] else []) ++
        (if a + n < r.1 + r.2 then [(a + n, r.1 + r.2 - (a + n))] else []))

/-- WORLD_ASSIGNMENT_CHANGE: nothing happens to a block or a range in use, nor to a block that has no world. -/
def execWorldAssignmentChange (t : WorldTarget) (sec : Bool) (s : State) : Host.Outcome State Fault Refusal :=
  let d := s.dev
  match t with
  | .block b =>
    let kind := bitsN b.toNat 16 4
    if isBlockId b.toNat && (kind == 0 || kind == 4 || kind == 5 || kind == 0xB) && bitsN b.toNat 0 8 == 0 &&
        !d.blockBusy b.toNat then
      let rest := d.secBlocks.filter (· != b)
      .next { s with dev := { d with secBlocks := if sec then rest ++ [b] else rest } }
    else .next s
  | .range a n =>
    if d.rangeBusy a n then .next s
    else
      let rest := cutRange a n d.secRanges
      .next { s with dev := { d with secRanges := if sec && decide (0 < n) then rest ++ [(a, n)] else rest } }

/-! ## The SPDM responder (23 R364, R365; 24 R366) -/

/-- The bytes of an answer whose contents the spec does not give (log entry 12). -/
def Device.spdmBytes (d : Device) (req : Nat) : List (BitVec 8) :=
  (List.range (Config.spdmLength req d.tick).toNat).map (Config.spdmByte req d.tick)

/-- An answer of the responder; before the boot has ended it answers GET_VERSION only. -/
def State.spdm (s : State) (early : Bool) (a : SpdmAnswer) : Host.Outcome State Fault Refusal :=
  if early || s.dev.booted then .next { s with dev := { s.dev with spdm := a } } else .next s

/-- GET_VERSION. -/
def execGetVersion (s : State) : Host.Outcome State Fault Refusal := s.spdm true (.version (s.dev.spdmBytes 0x84))

/-- GET_CAPABILITIES. -/
def execGetCapabilities (s : State) : Host.Outcome State Fault Refusal := s.spdm false (.capabilities (s.dev.spdmBytes 0xE1))

/-- NEGOTIATE_ALGORITHMS: the signature algorithm and the hash. -/
def execNegotiateAlgorithms (s : State) : Host.Outcome State Fault Refusal :=
  s.spdm false (.algorithms "Falcon-1024" "SHAKE256-512")

/-- GET_DIGESTS. -/
def execGetDigests (s : State) : Host.Outcome State Fault Refusal := s.spdm false (.digests (s.dev.spdmBytes 0x81))

/-- GET_CERTIFICATE: the certificate of the device identity key (23 R363). -/
def execGetCertificate (s : State) : Host.Outcome State Fault Refusal :=
  s.spdm false (.certificate ((List.range (Config.spdmLength 0x82 s.dev.tick).toNat).map
    (Config.certificateByte Config.identityKey)))

/-- CHALLENGE: a signature over the nonce with the device identity key (23 R363). -/
def execChallenge (nonce : BitVec 256) (s : State) : Host.Outcome State Fault Refusal :=
  s.spdm false (.challengeAuth ((List.range (Config.spdmLength 0x83 s.dev.tick).toNat).map
    (Config.signatureByte Config.identityKey nonce s.dev.tick)))

/-- A measurement (23 Table 23-8); `none` for an index that the table does not list. -/
def Device.measurement (d : Device) (index : Nat) : Option (BitVec 512) :=
  if index = 1 then some d.firmware
  else if index = 2 then some d.policy
  else if index = 3 then some d.repairMap
  else if 0x10 ≤ index && index ≤ 0x4F then
    let x := d.ctx (BitVec.ofNat 6 (index - 0x10))
    some (if x.state = .free then 0 else x.attest)
  else none

/-- GET_MEASUREMENTS of one index; an index with no measurement is answered as an unsupported request. -/
def execGetMeasurements (index : BitVec 8) (s : State) : Host.Outcome State Fault Refusal :=
  s.spdm false (match s.dev.measurement index.toNat with
    | some m => .measurements index m
    | none => .unsupportedRequest 0xE0)

/-- Any other request. -/
def execUnsupportedRequest (code : BitVec 8) (s : State) : Host.Outcome State Fault Refusal :=
  s.spdm false (.unsupportedRequest code)

end Sys2Proof.Machine
end

