-- ==== Sys2Proof/Machine/Dispatch.lean ====
section
/-! DEFINITION. One arm for each instruction and event of the opcode table: a direct call of its meaning. -/

namespace Sys2Proof.Machine

open Sys2Proof

/-- What an instruction or event does to a state. -/
def exec (i : Instr) (s : State) : Host.Outcome State Fault Refusal :=
  match i with
  | .nop chain => Sys2Proof.Machine.execNop chain s
  | .iadd h w d a b x => Sys2Proof.Machine.execIadd h w d a b x s
  | .isub h w d a b x => Sys2Proof.Machine.execIsub h w d a b x s
  | .imul h w d a b x => Sys2Proof.Machine.execImul h w d a b x s
  | .imulh h w d a b x => Sys2Proof.Machine.execImulh h w d a b x s
  | .imad h w d a b x => Sys2Proof.Machine.execImad h w d a b x s
  | .imin h w d a b x => Sys2Proof.Machine.execImin h w d a b x s
  | .imax h w d a b x => Sys2Proof.Machine.execImax h w d a b x s
  | .isad h w d a b x => Sys2Proof.Machine.execIsad h w d a b x s
  | .and h w d a b => Sys2Proof.Machine.execAnd h w d a b s
  | .or h w d a b => Sys2Proof.Machine.execOr h w d a b s
  | .xor h w d a b => Sys2Proof.Machine.execXor h w d a b s
  | .andn h w d a b => Sys2Proof.Machine.execAndn h w d a b s
  | .shl h w d a b => Sys2Proof.Machine.execShl h w d a b s
  | .shr h w d a b x => Sys2Proof.Machine.execShr h w d a b x s
  | .rotl h w d a b => Sys2Proof.Machine.execRotl h w d a b s
  | .bfe h w d a b x => Sys2Proof.Machine.execBfe h w d a b x s
  | .bfi h w d a b => Sys2Proof.Machine.execBfi h w d a b s
  | .sel h k d a b => Sys2Proof.Machine.execSel h k d a b s
  | .icmp h w k q a b => Sys2Proof.Machine.execIcmp h w k q a b s
  | .iabs h w d a => Sys2Proof.Machine.execIabs h w d a s
  | .ineg h w d a => Sys2Proof.Machine.execIneg h w d a s
  | .not h w d a => Sys2Proof.Machine.execNot h w d a s
  | .popc h w d a => Sys2Proof.Machine.execPopc h w d a s
  | .clz h w d a => Sys2Proof.Machine.execClz h w d a s
  | .brev h w d a => Sys2Proof.Machine.execBrev h w d a s
  | .mov h w d a => Sys2Proof.Machine.execMov h w d a s
  | .tag h w d a => Sys2Proof.Machine.execTag h w d a s
  | .rdsp h w d n => Sys2Proof.Machine.execRdsp h w d n s
  | .wrsp h w a n => Sys2Proof.Machine.execWrsp h w a n s
  | .iaddi h w d a im => Sys2Proof.Machine.execIaddi h w d a im s
  | .shli h w d a n => Sys2Proof.Machine.execShli h w d a n s
  | .shri h w d a x n => Sys2Proof.Machine.execShri h w d a x n s
  | .andi h w d a im => Sys2Proof.Machine.execAndi h w d a im s
  | .icmpi h w k q a im => Sys2Proof.Machine.execIcmpi h w k q a im s
  | .movi h d im => Sys2Proof.Machine.execMovi h d im s
  | .movhi h d im => Sys2Proof.Machine.execMovhi h d im s
  | .fadd h w d a b => Sys2Proof.Machine.execFadd h w d a b s
  | .fsub h w d a b => Sys2Proof.Machine.execFsub h w d a b s
  | .fmul h w d a b => Sys2Proof.Machine.execFmul h w d a b s
  | .ffma h w d a b => Sys2Proof.Machine.execFfma h w d a b s
  | .fmin h w d a b => Sys2Proof.Machine.execFmin h w d a b s
  | .fmax h w d a b => Sys2Proof.Machine.execFmax h w d a b s
  | .fcmp h w k q a b => Sys2Proof.Machine.execFcmp h w k q a b s
  | .fabs h w d a => Sys2Proof.Machine.execFabs h w d a s
  | .fneg h w d a => Sys2Proof.Machine.execFneg h w d a s
  | .frnd h w d a => Sys2Proof.Machine.execFrnd h w d a s
  | .rcp h w d a => Sys2Proof.Machine.execRcp h w d a s
  | .rsqrt h w d a => Sys2Proof.Machine.execRsqrt h w d a s
  | .sqrt h w d a => Sys2Proof.Machine.execSqrt h w d a s
  | .exp2 h w d a => Sys2Proof.Machine.execExp2 h w d a s
  | .log2 h w d a => Sys2Proof.Machine.execLog2 h w d a s
  | .sin h w d a => Sys2Proof.Machine.execSin h w d a s
  | .cos h w d a => Sys2Proof.Machine.execCos h w d a s
  | .tanh h w d a => Sys2Proof.Machine.execTanh h w d a s
  | .cvt h sf d a df r => Sys2Proof.Machine.execCvt h sf d a df r s
  | .cvq h sf d a df r => Sys2Proof.Machine.execCvq h sf d a df r s
  | .cbld h a n => Sys2Proof.Machine.execCbld h a n s
  | .cbx h w d a sc => Sys2Proof.Machine.execCbx h w d a sc s
  | .shfl h w d a b => Sys2Proof.Machine.execShfl h w d a b s
  | .shflp h w d a b => Sys2Proof.Machine.execShflp h w d a b s
  | .shflx h w d a m => Sys2Proof.Machine.execShflx h w d a m s
  | .voteAny h w k a => Sys2Proof.Machine.execVoteAny h w k a s
  | .voteAll h w k a => Sys2Proof.Machine.execVoteAll h w k a s
  | .voteBal h w k a => Sys2Proof.Machine.execVoteBal h w k a s
  | .reduInt h w d a o x => Sys2Proof.Machine.execReduInt h w d a o x s
  | .reduFloat h w d a o => Sys2Proof.Machine.execReduFloat h w d a o s
  | .scanInt h w d a o x => Sys2Proof.Machine.execScanInt h w d a o x s
  | .scanFloat h w d a o => Sys2Proof.Machine.execScanFloat h w d a o s
  | .nzscan h w d a k => Sys2Proof.Machine.execNzscan h w d a k s
  | .seg h w d => Sys2Proof.Machine.execSeg h w d s
  | .lds h w d a im => Sys2Proof.Machine.execLds h w d a im s
  | .sts h w d a im => Sys2Proof.Machine.execSts h w d a im s
  | .ldx h w d a im => Sys2Proof.Machine.execLdx h w d a im s
  | .stx h w d a im => Sys2Proof.Machine.execStx h w d a im s
  | .ldk h w d a im => Sys2Proof.Machine.execLdk h w d a im s
  | .stk h w d a im => Sys2Proof.Machine.execStk h w d a im s
  | .atomS h o d a b => Sys2Proof.Machine.execAtomS h o d a b s
  | .atomX h o d a b => Sys2Proof.Machine.execAtomX h o d a b s
  | .red h o a b => Sys2Proof.Machine.execRed h o a b s
  | .copy h d a b t => Sys2Proof.Machine.execCopy h d a b t s
  | .copyt h d a b xf t => Sys2Proof.Machine.execCopyt h d a b xf t s
  | .tmap h a b => Sys2Proof.Machine.execTmap h a b s
  | .barinit h a b => Sys2Proof.Machine.execBarinit h a b s
  | .bararr h d b => Sys2Proof.Machine.execBararr h d b s
  | .barwait h d b => Sys2Proof.Machine.execBarwait h d b s
  | .bararrw h d b => Sys2Proof.Machine.execBararrw h d b s
  | .fence h sc => Sys2Proof.Machine.execFence h sc s
  | .fetchw h b => Sys2Proof.Machine.execFetchw h b s
  | .sleepuntil h d a b => Sys2Proof.Machine.execSleepuntil h d a b s
  | .cwait h d b => Sys2Proof.Machine.execCwait h d b s
  | .mma h d a b t z => Sys2Proof.Machine.execMma h d a b t z s
  | .mmap h d a b t z => Sys2Proof.Machine.execMmap h d a b t z s
  | .mmagA h a b t cg => Sys2Proof.Machine.execMmagA h a b t cg s
  | .mmagK h d b t z cg => Sys2Proof.Machine.execMmagK h d b t z cg s
  | .mbatch h d b => Sys2Proof.Machine.execMbatch h d b s
  | .mwait h a => Sys2Proof.Machine.execMwait h a s
  | .tld h d t b => Sys2Proof.Machine.execTld h d t b s
  | .tst h d t b => Sys2Proof.Machine.execTst h d t b s
  | .tzero h t => Sys2Proof.Machine.execTzero h t s
  | .tsts h d t b => Sys2Proof.Machine.execTsts h d t b s
  | .tldP h d t b => Sys2Proof.Machine.execTldP h d t b s
  | .tstP h d t b => Sys2Proof.Machine.execTstP h d t b s
  | .tzeroP h t => Sys2Proof.Machine.execTzeroP h t s
  | .tstsP h d t b => Sys2Proof.Machine.execTstsP h d t b s
  | .route h d a t => Sys2Proof.Machine.execRoute h d a t s
  | .xslot h d a => Sys2Proof.Machine.execXslot h d a s
  | .xrel h a => Sys2Proof.Machine.execXrel h a s
  | .span h k => Sys2Proof.Machine.execSpan h k s
  | .next h => Sys2Proof.Machine.execNext h s
  | .jmp h b => Sys2Proof.Machine.execJmp h b s
  | .br h k n b => Sys2Proof.Machine.execBr h k n b s
  | .brx h sc => Sys2Proof.Machine.execBrx h sc s
  | .call h b => Sys2Proof.Machine.execCall h b s
  | .ret h => Sys2Proof.Machine.execRet h s
  | .exit h => Sys2Proof.Machine.execExit h s
  | .elect h k => Sys2Proof.Machine.execElect h k s
  | .sleep h d => Sys2Proof.Machine.execSleep h d s
  | .yield h => Sys2Proof.Machine.execYield h s
  | .kand h d a b => Sys2Proof.Machine.execKand h d a b s
  | .kor h d a b => Sys2Proof.Machine.execKor h d a b s
  | .kxor h d a b => Sys2Proof.Machine.execKxor h d a b s
  | .knot h d a => Sys2Proof.Machine.execKnot h d a s
  | .kmovMask h d a => Sys2Proof.Machine.execKmovMask h d a s
  | .kmovFromCell h d sc => Sys2Proof.Machine.execKmovFromCell h d sc s
  | .kmovToSlices h a sc => Sys2Proof.Machine.execKmovToSlices h a sc s
  | .kpop h a sc => Sys2Proof.Machine.execKpop h a sc s
  | .gate h im => Sys2Proof.Machine.execGate h im s
  | .gret h => Sys2Proof.Machine.execGret h s
  | .trap h k => Sys2Proof.Machine.execTrap h k s
  | .tret h => Sys2Proof.Machine.execTret h s
  | .csrr h d n => Sys2Proof.Machine.execCsrr h d n s
  | .csrw h a n => Sys2Proof.Machine.execCsrw h a n s
  | .mark h => Sys2Proof.Machine.execMark h s
  | .logw h d a => Sys2Proof.Machine.execLogw h d a s
  | .brk h k => Sys2Proof.Machine.execBrk h k s
  | .icinv h => Sys2Proof.Machine.execIcinv h s
  | .tlbinv h a => Sys2Proof.Machine.execTlbinv h a s
  | .tlbinvAll h => Sys2Proof.Machine.execTlbinvAll h s
  | .qpost h b => Sys2Proof.Machine.execQpost h b s
  | .sleepExpire r => Sys2Proof.Machine.execSleepExpire r s
  | .sleepuntilDeadline r => Sys2Proof.Machine.execSleepuntilDeadline r s
  | .waitWake r => Sys2Proof.Machine.execWaitWake r s
  | .registerWriteback => Sys2Proof.Machine.execRegisterWriteback s
  | .cellRefill wg g cell => Sys2Proof.Machine.execCellRefill wg g cell s
  | .ringRefill q => Sys2Proof.Machine.execRingRefill q s
  | .copyBurstCommit req => Sys2Proof.Machine.execCopyBurstCommit req s
  | .copyRetire req => Sys2Proof.Machine.execCopyRetire req s
  | .matrixExecute core => Sys2Proof.Machine.execMatrixExecute core s
  | .routePassRetire req => Sys2Proof.Machine.execRoutePassRetire req s
  | .fetchwHandover req => Sys2Proof.Machine.execFetchwHandover req s
  | .launchReady ctx tag => Sys2Proof.Machine.execLaunchReady ctx tag s
  | .placement => Sys2Proof.Machine.execPlacement s
  | .launchComplete ctx tag => Sys2Proof.Machine.execLaunchComplete ctx tag s
  | .patchApply ctx id => Sys2Proof.Machine.execPatchApply ctx id s
  | .load ctx => Sys2Proof.Machine.execLoad ctx s
  | .start ctx => Sys2Proof.Machine.execStart ctx s
  | .patch ctx => Sys2Proof.Machine.execPatch ctx s
  | .stop ctx => Sys2Proof.Machine.execStop ctx s
  | .stopComplete ctx => Sys2Proof.Machine.execStopComplete ctx s
  | .resume ctx => Sys2Proof.Machine.execResume ctx s
  | .unload ctx => Sys2Proof.Machine.execUnload ctx s
  | .query ctx => Sys2Proof.Machine.execQuery ctx s
  | .queryRegion ctx => Sys2Proof.Machine.execQueryRegion ctx s
  | .queryErrorCounters ctx => Sys2Proof.Machine.execQueryErrorCounters ctx s
  | .queryLaneCycleBin ctx => Sys2Proof.Machine.execQueryLaneCycleBin ctx s
  | .querySleepCounter ctx => Sys2Proof.Machine.execQuerySleepCounter ctx s
  | .querySetBin ctx => Sys2Proof.Machine.execQuerySetBin ctx s
  | .contextCreate ctx => Sys2Proof.Machine.execContextCreate ctx s
  | .contextDestroy ctx => Sys2Proof.Machine.execContextDestroy ctx s
  | .registerWrite off size v => Sys2Proof.Machine.execRegisterWrite off size v s
  | .hostApertureAccess off acc => Sys2Proof.Machine.execHostApertureAccess off acc s
  | .lcrEnable ctx => Sys2Proof.Machine.execLcrEnable ctx s
  | .logTailWrite ctx k v => Sys2Proof.Machine.execLogTailWrite ctx k v s
  | .stopwg ctx => Sys2Proof.Machine.execStopwg ctx s
  | .cont ctx => Sys2Proof.Machine.execCont ctx s
  | .step ctx => Sys2Proof.Machine.execStep ctx s
  | .portRead ctx => Sys2Proof.Machine.execPortRead ctx s
  | .portWrite ctx => Sys2Proof.Machine.execPortWrite ctx s
  | .workgroupHalt ctx => Sys2Proof.Machine.execWorkgroupHalt ctx s
  | .messageTailWrite v => Sys2Proof.Machine.execMessageTailWrite v s
  | .getVersion => Sys2Proof.Machine.execGetVersion s
  | .getCapabilities => Sys2Proof.Machine.execGetCapabilities s
  | .negotiateAlgorithms => Sys2Proof.Machine.execNegotiateAlgorithms s
  | .getDigests => Sys2Proof.Machine.execGetDigests s
  | .getCertificate => Sys2Proof.Machine.execGetCertificate s
  | .challenge nonce => Sys2Proof.Machine.execChallenge nonce s
  | .getMeasurements index => Sys2Proof.Machine.execGetMeasurements index s
  | .unsupportedRequest code => Sys2Proof.Machine.execUnsupportedRequest code s
  | .peerInboundAccess port acc => Sys2Proof.Machine.execPeerInboundAccess port acc s
  | .peerPortDown port => Sys2Proof.Machine.execPeerPortDown port s
  | .transientFault t => Sys2Proof.Machine.execTransientFault t s
  | .uncorrectableError t => Sys2Proof.Machine.execUncorrectableError t s
  | .coreFence block => Sys2Proof.Machine.execCoreFence block s
  | .arrivalAdmit ctx unit => Sys2Proof.Machine.execArrivalAdmit ctx unit s
  | .reset b => Sys2Proof.Machine.execReset b s
  | .throttle die lower => Sys2Proof.Machine.execThrottle die lower s
  | .powerRemove => Sys2Proof.Machine.execPowerRemove s
  | .peerPortUp port => Sys2Proof.Machine.execPeerPortUp port s
  | .partitionClock core part => Sys2Proof.Machine.execPartitionClock core part s
  | .worldAssignmentChange t sec => Sys2Proof.Machine.execWorldAssignmentChange t sec s

end Sys2Proof.Machine
end

