-- ==== Sys2Proof/Machine/Issue.lean ====
section
/-! DEFINITION. Issuing a chain on a partition (04 R81, R84; 06 R142, R149): its evicted cells are refilled and its packet is
cached, its instructions take effect on what they read before the chain (01 R23), and the clock is counted. -/

namespace Sys2Proof.Machine

open Sys2Proof

/-! ## Before the chain -/

/-- Refills and marks as accessed the cells that a chain reaches in some views (01 R30). -/
def Device.reach (items : List Item) : List View → Device → Except (BitVec 6 × CtxFault) Device
  | [], d => .ok d
  | v :: rest, d =>
    let ks := chainCells items v
    match d.refills v.wg.uid v.g ks with
    | .error e => .error e
    | .ok d1 =>
      let mark (g : Group) : Group :=
        { g with cells := ks.foldl (fun cs k => modAt cs k (fun c => { c with used := d.tick })) g.cells }
      Device.reach items rest (d1.modGroup v.wg.uid v.g mark)

/-- The device as a chain begins: its slots stand after it, and the alternation bit has flipped if it does. -/
def Device.advance (iss : Issue) (vs : List View) (d : Device) : Device :=
  vs.foldl (fun d v =>
    (d.modSlot v.wg.uid v.g iss.slot (fun s => { s with addr := iss.next })).modGroup v.wg.uid v.g
      (fun g => { g with alt := g.alt != iss.flips, yielded := false })) d

/-- The state in which a ready chain's instructions run: several instructions read the device as it stood before them. -/
def State.begin (s : State) (r : Ready) (d : Device) : State :=
  let d1 := d.advance r.iss r.views
  { s with dev := d1, issue := some r.iss, latch := if r.items.length = 1 then none else some d1 }

/-! ## The instructions of the chain -/

/-- Whether an item writes %fflags whole. -/
def writesFflags (it : Item) : Bool :=
  match it.instr with
  | some (.wrsp _ _ _ n) => n == 0x0F
  | _ => false

/-- The items with their indices in the order in which they take effect: a write of %fflags before the flags that the other
instructions OR into it (02 R45). -/
def effectOrder (items : List Item) : List (Nat × Item) :=
  let l := (List.range items.length).zip items
  l.filter (fun p => writesFflags p.2) ++ l.filter (fun p => !writesFflags p.2)

/-- Runs the instructions of a chain one after another; one that ends the issue ends the chain. -/
def runItems (first : Nat) : List (Nat × Item) → State → Host.Outcome State Fault Refusal
  | [], s => .next s
  | (n, it) :: rest, s =>
    match it.instr with
    | none => runItems first rest s
    | some i =>
      let at_ (x : Issue) : Issue := { x with index := n, offset := it.start - first, fired := [] }
      match exec i { s with issue := s.issue.map at_ } with
      | .next s1 => if s1.issue.isNone then .next s1 else runItems first rest s1
      | .fault f => .fault f
      | .refused r => .refused r

/-- The outcome of a chain's instructions: one instruction is its `exec`. -/
def runChain (items : List Item) (s : State) : Host.Outcome State Fault Refusal :=
  match items with
  | [it] => (match it.instr with | some i => exec i s | none => .next s)
  | _ => runItems (match items with | it :: _ => it.start | [] => 0) (effectOrder items) s

/-! ## After the chain -/

/-- Whether a chain is a BRK, which issues only to stop its held workgroup (22 R346). -/
def isBrk (items : List Item) : Bool :=
  match items with
  | [it] => (match it.instr with | some (.brk _ _) => true | _ => false)
  | _ => false

/-- The waits of a chain's clock counted; a chain of a pair takes two clocks (16 R281). -/
def Device.countClocks (d : Device) (core : BitVec 8) (part : BitVec 5) (vs : List View) : Device :=
  let d1 := d.countWaits core part
  if vs.length = 2 then d1.countWaits core part else d1

/-- The device after a chain has issued: its register writes are complete, its lanes are counted, the pointer names its
group, and the store is within its size. -/
def Device.chainDone (d : Device) (core : BitVec 8) (part : BitVec 5) (rslot : Nat) (r : Ready) : Device :=
  let d1 := (d.writebacks d.writes.length).countChain r.views r.items
  let d2 := { d1 with pointers := tableSet d1.pointers (partKey core part) rslot }
  ((d2.unmark core part (some (r.iss.wg, r.iss.g))).countClocks core part r.views).evict core part 768

/-- A clock in which a group's chain was chosen and did not issue: the lanes are idle (22 R340), and the group's YIELD mark clears
if no other group was ready (07 R164). -/
def Device.noIssue (d : Device) (core : BitVec 8) (part : BitVec 5) (r : Ready) (lone : Bool) : Device :=
  let d1 := d.idleLanes core part
  if lone then d1.modGroup r.iss.wg r.iss.g (fun g => { g with yielded := false }) else d1

/-- The state after a chain's instructions: an issue that a trap, a fault or a held BRK ended counts as none. -/
def State.finish (s : State) (core : BitVec 8) (part : BitVec 5) (rslot : Nat) (r : Ready) (lone : Bool) : State :=
  if s.issue.isNone || isBrk r.items then { s with dev := s.dev.noIssue core part r lone, issue := none, latch := none }
  else { s with dev := s.dev.chainDone core part rslot r, issue := none, latch := none }

/-- The active lanes of the instruction of a chain that a trap names. -/
def faultLanes (items : List Item) (n : Nat) (v : View) : Word :=
  match items[n]? with
  | some it => (match it.instr with | some i => Instr.lanes i v | none => v.base)
  | none => v.base

/-! ### Arrivals that replay takes one by one (22 R353) -/

/-- The effect of an instruction on the lanes that reach a unit, in some views. -/
def runPart (m : Meaning) (i : Instr) (u : ArrivalUnit) : List View → State → Except CtxFault State
  | [], s => .ok s
  | v :: rest, s =>
    let lanes := m.unitLanes v u (Instr.lanes i v)
    if m.always || decide (lanes ≠ 0) then
      match m.effect v lanes s with
      | .ok s1 => runPart m i u rest s1
      | .error f => .error f
    else runPart m i u rest s

/-- A unit admits an arrival of a chain, with the effect of the lanes that arrive there; their register writes wait for the rest of
the chain. -/
def State.admitPart (s : State) (r : Ready) (d : Device) (n kind : Nat) (u : ArrivalUnit) : Except CtxFault Device :=
  match r.items[n]?, viewsAt d { r.iss with index := n } with
  | some { instr := some i, .. }, v :: rest =>
    match meaningOf i with
    | none => .ok d
    | some m =>
      match (if m.records then v.arrival d kind u v.dev.cyc.toNat else .ok d) with
      | .error f => .error f
      | .ok d1 =>
        match runPart m i u (m.acts i (v :: rest))
            { s with dev := d1, issue := some { r.iss with index := n, fired := [] }, latch := some d } with
        | .error f => .error f
        | .ok s1 =>
          let part : Admitted := { slot := r.iss.slot, lib := v.library, writes := s1.dev.writes.drop d.writes.length }
          .ok (({ s1.dev with writes := d.writes }).modGroup v.wg.uid v.home (fun g =>
            { g with admitted := g.admitted ++ [part] }))
  | _, _ => .ok d

/-- The device with the register writes of a chain's admitted arrivals on their way. -/
def Device.takeAdmitted (d : Device) (v : View) : Device :=
  ({ d with writes := d.writes ++ v.admitted.flatMap (fun (a : Admitted) => a.writes) }).modGroup v.wg.uid v.home (fun g =>
    { g with admitted := g.admitted.filter (fun a => !(a.slot == v.iss.slot && a.lib == v.library)) })

/-- The rest of a chain whose arrivals have all been admitted: its other instructions run, and its writes go on. -/
def State.restOfChain (s : State) (core : BitVec 8) (part : BitVec 5) (rslot : Nat) (r : Ready) (lone : Bool) (d : Device) :
    Host.Outcome State Fault Refusal :=
  let vs := viewsAt d r.iss
  let s0 := s.begin r d
  let rest := (effectOrder r.items).filter (fun p => (itemArrivals vs p.2).isEmpty)
  match runItems (match r.items with | it :: _ => it.start | [] => 0) rest { s0 with latch := some s0.dev } with
  | .next s1 =>
    if s1.issue.isNone then .next (s1.finish core part rslot r lone)
    else
      .next (({ s1 with dev := match vs with | v :: _ => s1.dev.takeAdmitted v | [] => s1.dev }).finish core part rslot r lone)
  | .fault f => .fault f
  | .refused x => .refused x

/-- A unit admits the next arrival of a chain in replay; after the last one the chain issues. -/
def State.admitChain (s : State) (core : BitVec 8) (part : BitVec 5) (rslot : Nat) (r : Ready) (lone : Bool)
    (next : Option (Nat × Arrival)) (d0 d : Device) : Host.Outcome State Fault Refusal :=
  let admitted : Except CtxFault Device :=
    match next with
    | none => .ok d
    | some (n, kind, u) => s.admitPart r d n kind u
  match admitted, r.views with
  | .error f, v :: _ => .next { s with dev := (d0.noIssue core part r lone).contextFault v.c f }
  | .ok d1, v :: _ =>
    let done := v.admitted.length + (if next.isSome then 1 else 0)
    if done < (chainArrivals r.views r.items).length then .next { s with dev := d1.noIssue core part r lone }
    else s.restOfChain core part rslot r lone d1
  | _, [] => .next s

/-- A partition issues a ready chain. -/
def State.issueChain (s : State) (core : BitVec 8) (part : BitVec 5) (rslot : Nat) (r : Ready) :
    Host.Outcome State Fault Refusal :=
  let d0 := match r.views with | v :: _ => s.dev.cachePacket v | [] => s.dev
  let lone := (s.dev.readyGroups core part).length == 1
  match r.answer with
  | .wait => .next s
  | .lost f =>
    (match r.views with
     | v :: _ => .next { s with dev := (d0.noIssue core part r lone).contextFault v.c f }
     | [] => .next s)
  | .trap t n => .next { s with dev := takeTrap (d0.noIssue core part r lone) r.views t n (faultLanes r.items n) }
  | .issue =>
    match Device.reach r.items r.views d0 with
    | .error (c, f) => .next { s with dev := (d0.noIssue core part r lone).contextFault c f }
    | .ok d1 =>
      match runChain r.items (s.begin r d1) with
      | .next s1 => .next (s1.finish core part rslot r lone)
      | .fault f => .fault f
      | .refused x => .refused x
  | .takes next =>
    match Device.reach r.items r.views d0 with
    | .error (c, f) => .next { s with dev := (d0.noIssue core part r lone).contextFault c f }
    | .ok d1 => s.admitChain core part rslot r lone next d0 d1

/-- A clock of a partition: the cells that its groups' next chains miss come back, and then it issues a chain, or none. -/
def State.partition (s : State) (core : BitVec 8) (part : BitVec 5) : Host.Outcome State Fault Refusal :=
  let s1 := { s with dev := s.dev.refillWaiting core part }
  match s1.dev.pick core part with
  | some (rslot, r) => s1.issueChain core part rslot r
  | none => exec (.partitionClock core part) s1

/-! ## After every step -/

/-- The slots of a hardware group that belong to one group, with its key: both, or one in width mode 16. -/
def Kernel.stepGroups (k : Kernel) (g : Nat) : List (Nat × List Bool) :=
  if k.mode16 then [(k.haltKey g false, [false]), (k.haltKey g true, [true])] else [(k.haltKey g false, [false, true])]

/-- The groups of a workgroup that run in a STEP, each with its hardware group and its slots: those that have not exited. -/
def Workgroup.stepping (w : Workgroup) (k : Kernel) : List (Nat × Nat × List Bool) :=
  (List.range w.groups.length).flatMap (fun g =>
    match w.groups[g]? with
    | some x =>
      if x.retired || x.pair == some true then []
      else ((k.stepGroups g).filter (fun p => p.2.any (fun n => (x.slot n).isSome))).map (fun p => (p.1, g, p.2))
    | none => [])

/-- Halts the groups of a workgroup whose next chain a STEP stops at (22 R348): the whole group, both slots of it. -/
def Device.haltGroups (d : Device) (w : Workgroup) (k : Kernel) : Device :=
  let stops (g : Nat) (n : Bool) : Bool :=
    match d.issueAt w g n with
    | some (iss, v, items) => v.slot.wait == .awake && View.stepHalts (viewsAt d iss) items
    | none => false
  let more := ((w.stepping k).filter (fun p => p.2.2.any (stops p.2.1))).map (fun p => p.1)
  if more.isEmpty then d
  else d.modWg w.uid (fun w => { w with stopped := { w.stopped with halted := (w.stopped.halted ++ more).eraseDups } })

/-- Whether every group of a workgroup has halted in a STEP, or exited. -/
def Workgroup.allHalted (w : Workgroup) (k : Kernel) : Bool := (w.stepping k).all (fun p => w.stopped.halted.contains p.1)

/-- The waits on an object that has left its phase return: those groups halt after them (22 R348). -/
def Device.returnAll (d : Device) (w : Workgroup) (k : Kernel) (o : ObjRef) : Device :=
  (List.range w.groups.length).foldl (fun d g => [false, true].foldl (fun d n =>
    match w.groups[g]? with
    | some x =>
      (match x.slot n with
       | some s =>
         (match s.wait with
          | .bar a tok =>
            if objectAt w k.shared x.core a.toNat == some o && d.phase o != tok then d.returnWait w g n s.wait else d
          | _ => d)
       | none => d)
    | none => d) d) d

/-- A STEP whose object has left its phase, or whose groups have all halted, stops its workgroup (22 R348); the phase of an object
that an error has lost cannot be read (21 R333). -/
def Device.endStep (d : Device) (w : Workgroup) : Device :=
  match w.stopped.stepObj, (d.ctx w.ctx).kernel w.handle w.kernel with
  | some (obj, p), some k =>
    if w.stopped.st ≠ 0 then d
    else
      match objectAt w k.shared w.core obj.toNat with
      | none => d.beginStop w.uid 4
      | some o =>
        match d.objectLost o with
        | some f => d.contextFault w.ctx f
        | none =>
        if d.phase o != p then (d.returnAll w k o).beginStop w.uid 4
        else
          let d1 := d.haltGroups w k
          match d1.wg w.uid with
          | some w1 => if w1.allHalted k then d1.beginStop w.uid 4 else d1
          | none => d1
  | _, _ => d

/-- What every step leaves: STEPs that are over stop, workgroups that are done leave their cores, the counter of steps has moved, and the next agent is chosen. -/
def State.after (s : State) : State :=
  let d := (s.dev.wgs.foldl (fun d w => if w.stopped.stepObj.isNone then d else d.endStep w) s.dev).sweep
  { s with dev := { d with tick := d.tick + 1 }, turn := Config.nextTurn (d.tick + 1) }

/-- Whether an event is the device's own, which happens when its turn comes; the other rows come from outside. -/
def isDeviceEvent (i : Instr) : Bool :=
  match i with
  | .sleepExpire _ => true
  | .sleepuntilDeadline _ => true
  | .waitWake _ => true
  | .registerWriteback => true
  | .cellRefill _ _ _ => true
  | .ringRefill _ => true
  | .copyBurstCommit _ => true
  | .copyRetire _ => true
  | .matrixExecute _ => true
  | .routePassRetire _ => true
  | .fetchwHandover _ => true
  | .launchReady _ _ => true
  | .placement => true
  | .launchComplete _ _ => true
  | .patchApply _ _ => true
  | .stopComplete _ => true
  | .workgroupHalt _ => true
  | .arrivalAdmit _ _ => true
  | _ => false

/-- Whether an input is a row that comes from outside the device. -/
def isInput (i : Instr) : Bool := !i.isWord && !isDeviceEvent i

/-- Whether the machine can move: it has power, or it is the host's turn and the input is a RESET. -/
def State.canMove (s : State) : Bool :=
  s.dev.powered ||
    (s.turn == .host && (match s.inputs with | .reset _ :: _ => true | _ => false))

/-- The agent whose turn it is moves. -/
def State.move (s : State) : Host.Outcome State Fault Refusal :=
  match s.turn with
  | .host =>
    match s.inputs with
    | [] => .next s
    | i :: rest => if isInput i then exec i { s with inputs := rest } else .next { s with inputs := rest }
  | .partition core part => s.partition core part
  | .clock => .next { s with dev := s.dev.clock }
  | .event i => if isDeviceEvent i then exec i s else .next s

end Sys2Proof.Machine
end

