-- ==== Sys2Proof/Machine/Step.lean ====
section
/-! DEFINITION. One step of the machine: the agent that `turn` names moves, and the next one is chosen. -/

namespace Sys2Proof.Machine

open Sys2Proof

/-- A step. While the power is off only the next power-on, a RESET, moves the machine (24 R369). -/
def step (s : State) : Host.Outcome State Fault Refusal :=
  if s.canMove then
    match s.move with
    | .next t => .next t.after
    | .fault f => .fault f
    | .refused r => .refused r
  else .fault .noPower

/-- A state with an instruction placed where the next step fetches (`State.placed`). -/
def State.withFetchWord (s : State) (nbits w : Nat) : State := s.placed (tableWords (w % 2 ^ nbits))

end Sys2Proof.Machine
end

