-- ==== Sys2Proof/Safety.lean ====
section
/-! DEFINITION. The terms of the statements about the machine: a chain in issue and what it acts on, operands within the
budget, what a register write leaves, and what holds between steps. -/

namespace Sys2Proof.Machine

open Sys2Proof

/-! ## A chain in issue -/

/-- A chain is in issue, and `vs` are the hardware groups it acts on, the issuing one first: what they hold is what its
instructions read (01 R23). None of their register cells is lost to an error: a read of one ends the context instead
(21 R333). -/
structure Issuing (s : State) (iss : Issue) (vs : List View) : Prop where
  issue : s.issue = some iss
  views : viewsOf (s.latch.getD s.dev) iss = vs
  acts : vs ≠ []
  intact : ∀ v ∈ vs, ∀ k, StoredPlace.cell v.wg.uid v.g k ∉ s.dev.lost

/-- Some operand spans, each a start slice and a count of slices, lie in the slice budget of every group (01 R13, R19). -/
def InBudget (vs : List View) (spans : List (Nat × Nat)) : Prop := ∀ v ∈ vs, ∀ p ∈ spans, p.1 + p.2 ≤ v.grp.budget

/-- The groups in which an instruction has an active lane (07 R156). -/
def actives (i : Instr) (vs : List View) : List View := vs.filter (fun v => decide (Instr.lanes i v ≠ 0))

/-- The one group in which an instruction acts that acts once for both hardware groups of a pair (16 R281): the one that holds
the lowest active lane (log entry 23); none where no lane is active. -/
def activeOnce (i : Instr) (vs : List View) : List View := (actives i vs).take 1

/-! ## Register results -/

/-- The values that the active lanes write carry the tag of the write (01 R26, R27): U, as a result or of all the sources, says
that they are equal, A that lane `i` writes base + i * stride in 32 bits. -/
def OpTag.Fits (tag : OpTag) (lanes : Word) (w : Nat) (val : Nat → Nat) : Prop :=
  match tag with
  | .u | .mixed | .flat => ∀ i j, i < 32 → j < 32 → hasLane lanes i = true → hasLane lanes j = true → val i = val j
  | .a b s =>
    (w = 32 → ∀ i, i < 32 → hasLane lanes i = true → BitVec.ofNat 32 (val i) = b + BitVec.ofNat 32 (i * s.toNat)) ∧
      (s = 0 → w = 32)
  | .g => True

/-- The tag of a cell after a write of `w` bits at slice `d` that reaches it (01 R26, Table 01-3). `full` says whether every
present lane is active; `new` is the cell after the write, which under a partial mask tells whether a uniform value equals what
the active lanes held. -/
def tagAfter (old new : Cell) (k d w : Nat) (lanes : Word) (full : Bool) (tag : OpTag) : OpTag :=
  if full then
    if 4 * d ≤ 32 * k ∧ 32 * k + 32 ≤ 4 * d + w then (if w = 32 then tag.result else tag.sources)
    else if old.tag = .u ∧ tag.result = .u then .u else .g
  else if old.tag = .u ∧ tag.result = .u ∧
      allLanes.all (fun i => !hasLane lanes i || new.lane i == old.lane i) then .u else .g

/-- The register cells after `w` bits at slice `d` were written with an operation result tag: in an active lane the slices read
back the value, and every other slice, and every slice of a lane that is not active, reads as before (01 R21, R22); the cells
written have the tags of Table 01-3, and every other cell is as it was (01 R26). -/
structure ReadsBack (g : Group) (cells : List StoredCell) (lanes : Word) (d w : Nat) (val : Nat → Nat) (tag : OpTag) :
    Prop where
  written : ∀ i, i < 32 → hasLane g.present i = true → hasLane lanes i = true → sliceRead cells i d w = val i % 2 ^ w
  kept : ∀ i, i < 32 → hasLane g.present i = true → ∀ p n,
    (hasLane lanes i = false ∨ 4 * p + n ≤ 4 * d ∨ 4 * d + w ≤ 4 * p) → sliceRead cells i p n = sliceRead g.cells i p n
  tags : lanes ≠ 0 → ∀ k, k < g.cells.length → 32 * k < 4 * d + w → 4 * d < 32 * k + 32 →
    (cellAt cells k).tag =
      tagAfter (cellAt g.cells k) (cellAt cells k) k d w lanes (g.present &&& lanes == g.present) tag
  rest : ∀ k, lanes = 0 ∨ 4 * d + w ≤ 32 * k ∨ 32 * k + 32 ≤ 4 * d → cells[k]? = g.cells[k]?
  size : cells.length = g.cells.length

/-- A register write on its way: what an instruction of a chain of several leaves for the chain's end (01 R23, R36). -/
def View.pendingWrite (v : View) (d w : Nat) (val : Nat → Nat) (lanes : Word) (tag : OpTag) : RegWrite :=
  { wg := v.wg.uid, g := v.g, gen := v.grp.gen, slice := d, width := w, vals := valuesOf lanes val, lanes := lanes,
    tag := tag }

/-- The state with a register write left for the chain's end. -/
def State.queue (s : State) (r : RegWrite) : State := { s with dev := { s.dev with writes := s.dev.writes ++ [r] } }

/-- The state with the loss of some cells of a group made good (21 R333). -/
def State.mend (s : State) (v : View) (good : Nat → Bool) : State :=
  { s with dev := { s.dev with lost := s.dev.lost.filter (fun p => match p with
      | .cell u h k => !(u == v.wg.uid && h == v.g && good k)
      | _ => true) } }

/-- The whole effect on one group of writing one value per lane of `lanes` to `w` bits at slice `d`, with an operation result tag
(01 R26, R27): an instruction that issues alone changes those slices of its group, and makes good the cells that it writes
whole; one of a chain of several leaves the write pending. The values carry the tag. -/
def WroteOne (lanes : View → Word) (d w : Nat) (val : View → Nat → Nat) (tag : View → OpTag) (v : View) (s t : State) : Prop :=
  (tag v).Fits (lanes v) w (val v) ∧
  (s.latch = none → ∃ (f : Group → List StoredCell) (good : Nat → Bool),
    t = (s.modGroup v (fun g => { g with cells := f g })).mend v good ∧
    (∀ k, good k = true → 4 * d ≤ 32 * k ∧ 32 * k + 32 ≤ 4 * d + w) ∧
    ∀ g : Group, d + w / 4 ≤ g.budget → ReadsBack g (f g) (lanes v) d w (val v) (tag v)) ∧
  (s.latch.isSome = true → t = s.queue (v.pendingWrite d w (val v) (lanes v) (tag v)))

/-- One effect after another on some groups. -/
def Each (P : View → State → State → Prop) : List View → State → State → Prop
  | [], s, t => t = s
  | v :: l, s, t => ∃ r, P v s r ∧ Each P l r t

/-- One value given to every active lane of the issuing group, those of both hardware groups of a pair, as a uniform result: what
an instruction that acts once writes (16 R281). -/
def WroteAll (h : Hdr) (d w : Nat) (x : Nat) (v : View) (s t : State) : Prop :=
  Each (WroteOne (fun u => u.active h) d w (fun _ _ => x) (fun _ => .u)) (v.halves.filter (fun u => decide (u.active h ≠ 0))) s t


/-- An instruction word completes: `exec` answers a next state in which `P` has happened on each group with an active lane,
one after another, and nothing else. -/
def Completes (i : Instr) (s : State) (vs : List View) (P : View → State → State → Prop) : Prop :=
  ∃ t, exec i s = .next t ∧ Each P (actives i vs) s t

/-- The same for an instruction that acts once for both hardware groups of a pair (16 R281). -/
def CompletesOnce (i : Instr) (s : State) (vs : List View) (P : View → State → State → Prop) : Prop :=
  ∃ t, exec i s = .next t ∧ Each P (activeOnce i vs) s t

/-- The state after a context fault of the chain in issue: the chain has had no effect, and the context takes the fault
(17 R300). -/
def State.faulted (s : State) (iss : Issue) (c : BitVec 6) (f : CtxFault) : State :=
  { s.back iss with dev := (s.back iss).dev.contextFault c f }

/-- The number whose bit `j`, below `n`, is `f j`. -/
def ofBits (n : Nat) (f : Nat → Bool) : Nat := (List.range n).foldl (fun acc j => acc + if f j then 2 ^ j else 0) 0

/-- Bit `j` of an integer in two's complement. -/
def intBit (v : Int) (j : Nat) : Bool := v / (2 ^ j : Nat) % 2 == 1

/-! ## Between steps -/

/-- What a step answers when its agent has moved: `f` of the next state, and a stop as it is. -/
def stepped (f : State → State) (o : Host.Outcome State Fault Refusal) : Host.Outcome State Fault Refusal :=
  match o with
  | .next s => .next (f s)
  | .fault x => .fault x
  | .refused x => .refused x

/-- Between two steps no chain is in issue: a chain takes effect whole or not at all (04 R84). -/
def State.Settled (s : State) : Prop := s.issue = none ∧ s.latch = none

end Sys2Proof.Machine
end

