-- ==== Sys2Proof/Safety/Control.lean ====
section
/-! DEFINITION. What the entries of the sequencer and system families say (07 R157 to R169; 18 R310 to R320), apart from the
meanings of the machine. -/

namespace Sys2Proof.Claims

open Sys2Proof Sys2Proof.Machine

/-- An instruction word that acts whatever its active lanes completes: `P` happens on every group it acts on. -/
def CompletesAll (i : Instr) (s : State) (vs : List View) (P : View → State → State → Prop) : Prop :=
  ∃ t, exec i s = .next t ∧ Each P vs s t

/-- The same for an instruction that acts once for both hardware groups of a pair: `P` happens once, on the half with the lowest
active lane, or on the lower half where none is active (16 R281; log entry 23). -/
def CompletesActing (i : Instr) (s : State) (vs : List View) (P : View → State → State → Prop) : Prop :=
  ∃ t, exec i s = .next t ∧ Each P ((actives i vs ++ vs).take 1) s t

/-- A group of a device. -/
def groupAt (d : Device) (uid g : Nat) : Option Group :=
  match d.wg uid with
  | some w => w.groups[g]?
  | none => none

/-! ## Masks (07 R162, R165, R166) -/

/-- The mask instructions that write all 32 bits of a mask whatever the active lanes: the mask and each bit of it. -/
def maskResult (i : Instr) : Option (BitVec 3 × (View → Nat → Bool)) :=
  match i with
  | .elect h k => some (k, fun v j => hasLane (v.active h) j && (List.range j).all (fun n => !hasLane (v.active h) n))
  | .kand _ d a b => some (d, fun v j => hasLane (v.mask a) j && hasLane (v.mask b) j)
  | .kor _ d a b => some (d, fun v j => hasLane (v.mask a) j || hasLane (v.mask b) j)
  | .kxor _ d a b => some (d, fun v j => hasLane (v.mask a) j != hasLane (v.mask b) j)
  | .knot _ d a => some (d, fun v j => !hasLane (v.mask a) j)
  | .kmovMask _ d a => some (d, fun v j => hasLane (v.mask a) j)
  | _ => none

/-- The effect of writing a mask whole: every other register of the group stays. -/
def WroteWholeMask (k : BitVec 3) (f : View → Nat → Bool) (v : View) (s t : State) : Prop :=
  t = s.modGroup v (fun g => { g with masks := setAt g.masks k.toNat (maskOf (f v)) })

/-- The instructions that give a mask to slices: every active lane of the group receives one 32-bit value. -/
def maskToSlices (i : Instr) : Option (Nat × (View → Nat)) :=
  match i with
  | .kmovToSlices h a s => some (h.a s, fun v => (v.mask a).toNat)
  | .kpop h a s => some (h.a s, fun v => (List.range 32).countP (fun j => hasLane (v.mask a) j))
  | _ => none

/-! ## Terminators (07 R158, R159) -/

/-- A terminator as Table 07-2 gives it: the slices read, when its targets are blocks of the kernel, each active lane's new
block, and what else changes. -/
structure Terminator where
  srcs : List (Nat × Nat)
  ok : View → Prop
  target : View → Nat → BitVec 12
  link : Bool
  exits : Bool

/-- A block number of the kernel that runs. -/
def isBlock (v : View) (b : Nat) : Prop := b < v.auto.blocks.length

/-- The block after a lane's block on the fallthrough path (06 Table 06-1). -/
def fallOf (v : View) (j : Nat) : BitVec 12 := v.auto.fall (v.grp.lbr.getD j 0)

/-- Table 07-2. -/
def terminatorOf (i : Instr) : Option Terminator :=
  match i with
  | .jmp _ b => some ⟨[], fun v => isBlock v b.toNat, fun _ _ => b, false, false⟩
  | .br _ k n b =>
    some ⟨[], fun v => isBlock v b.toNat, fun v j => if hasLane (v.mask k) j = !n then b else fallOf v j, false, false⟩
  | .brx h c =>
    some ⟨[(h.a c, 3)], fun v => ∀ j, j < 32 → hasLane (v.active h) j = true → isBlock v (v.read j (h.a c) 12),
      fun v j => BitVec.ofNat 12 (v.read j (h.a c) 12), false, false⟩
  | .call _ b => some ⟨[], fun v => isBlock v b.toNat, fun _ _ => b, true, false⟩
  | .ret h =>
    some ⟨[], fun v => ∀ j, j < 32 → hasLane (v.active h) j = true → isBlock v (v.grp.link.getD j 0).toNat,
      fun v j => v.grp.link.getD j 0, false, false⟩
  | .exit _ => some ⟨[], fun v => v.library = false, fun v j => v.grp.lbr.getD j 0, false, true⟩
  | _ => none

/-- The effect of a terminator on one group: in each active lane %lbr takes the target, and the lane has moved; CALL gives
%link the fallthrough, EXIT sets the exited bit, and nothing else changes. -/
def Branched (x : Terminator) (act : View → Word) (v : View) (s t : State) : Prop :=
  let pick (l : List (BitVec 12)) (f : Nat → BitVec 12) : List (BitVec 12) :=
    (List.range 32).map (fun j => if hasLane (act v) j then f j else l.getD j 0)
  t = (s.modGroup v (fun g => { g with
        lbr := pick g.lbr (x.target v)
        link := if x.link then pick g.link (fallOf v) else g.link
        exited := if x.exits then g.exited ||| act v else g.exited })).modSlot v
      (fun sl => { sl with moved := sl.moved ||| act v, afterTerm := true })

/-! ## The divergence stack at NEXT (06 R138 to R141) -/

/-- The lanes of a mask that stand at a join. -/
def atJoin (q : Seq) (m : Nat) (j : Option (BitVec 12)) : Nat :=
  match j with
  | some j => q.inBlocks m [j]
  | none => 0

/-- A sequencer with the lanes of a mask that stand at a join parked. -/
def parkedAt (q : Seq) (m : Nat) (j : Option (BitVec 12)) : Seq := { q with parked := Nat.lor q.parked (atJoin q m j) }

/-- A slot that takes a state at address 0, awake, with some lanes, none of them moved. -/
def taking (st : BitVec 12) (lanes : Nat) (j : Option (BitVec 12)) : Option SeqSlot :=
  some { base := { state := st, addr := 0, mask := 0, moved := 0, join := j, wake := 0, wait := .awake, resume := 0,
                   span := none, afterTerm := false }, mask := lanes, moved := 0 }

/-- NEXT meets a set that the automaton does not map: in the slot's state the lanes `rest` are left after those at the slot's
join have parked, and no state holds their blocks. -/
structure Unmapped (v : View) (iss : Issue) (q : Seq) (sl : SeqSlot) (r : StateRec) (rest : Nat) : Prop where
  slot : q.slot iss.slot = some sl
  record : v.auto.states[sl.base.state.toNat]? = some r
  left : rest = without (without sl.mask q.exited) (atJoin q (without sl.mask q.exited) sl.base.join)
  some_ : rest ≠ 0
  direct : r.direct (q.setOf rest) = some none ∨ r.direct (q.setOf rest) = none
  unheld : v.auto.lookup (q.setOf rest) = none

/-- An entry pushed on the divergence stack: 32 bytes at its next place in the group's spill area, and of a pair the lanes of
the upper half beside it (06 R139; log entry 19). -/
def Pushed (v : View) (e : Word → StackEntry) (lanes : Nat) (q : Seq) (d : Device) (q' : Seq) (d' : Device) : Prop :=
  q.depth < v.kern.dstack ∧
  d.mainWrite (dieOf v.grp.core) v.c (v.entryAddr q.depth) (e (BitVec.ofNat 32 lanes)).bytes = .ok d' ∧
  q' = { q with depth := q.depth + 1, high := takePad 0 q.high q.depth ++ [BitVec.ofNat 32 (lanes / 2 ^ 32)] }

/-- The top entry of the divergence stack, read with its lanes. -/
def TopEntry (v : View) (q : Seq) (d : Device) (e : Word → StackEntry) (lanes : Nat) (d' : Device) : Prop :=
  ∃ b low, d.mainRead (dieOf v.grp.core) v.c (v.entryAddr (q.depth - 1)) 32 = .ok (b, d') ∧
    StackEntry.ofBytes b = some (e low) ∧ lanes = low.toNat + (q.high.getD (q.depth - 1) 0).toNat * 2 ^ 32

/-- A sequencer without the top entry of its stack. -/
def popped (q : Seq) : Seq := { q with depth := q.depth - 1, high := q.high.take (q.depth - 1) }

/-- NEXT leaves its slot without lanes while the other slot is empty, so that the top of the stack is acted on (06 R141). -/
structure Emptied (iss : Issue) (q : Seq) (sl : SeqSlot) : Prop where
  slot : q.slot iss.slot = some sl
  other : q.own.isNone = true → (q.slot (!iss.slot)).isNone = true
  left : without (without sl.mask q.exited) (atJoin q (without sl.mask q.exited) sl.base.join) = 0

/-! ## System registers (18 Table 18-3) -/

/-- The value of a system register. -/
def systemRegister (v : View) (n : Nat) : Nat :=
  let r := v.agent.trap
  let bit (b : Bool) (k : Nat) : Nat := if b then 2 ^ k else 0
  match n with
  | 0x00 => r.cause.toNat + 2 ^ 8 * r.word.toNat + bit r.slot 10 + bit r.lib 11
  | 0x01 => r.state.toNat
  | 0x02 => r.resume.toNat
  | 0x03 => r.lanes.toNat
  | 0x04 => r.detail.toNat % 2 ^ 32
  | 0x05 => r.detail.toNat / 2 ^ 32
  | 0x06 => r.cyc.toNat % 2 ^ 32
  | 0x07 => r.cyc.toNat / 2 ^ 32
  | 0x08 => v.ctx.pmiss.toNat % 2 ^ 32
  | 0x09 => v.ctx.pmiss.toNat / 2 ^ 32
  | 0x0A => v.ctx.taddr.toNat % 2 ^ 32
  | 0x0B => v.ctx.taddr.toNat / 2 ^ 32
  | 0x0C => v.ctx.tkind.toNat + 2 ^ 8 * v.ctx.tdie.toNat + 2 ^ 16 * (v.dev.parkedCount v.c % 2 ^ 16)
  | 0x0D => v.c.toNat + bit v.ctx.sec 8 + bit v.ctx.replay 9 + bit v.ctx.ordr 10 + bit v.library 11
  | 0x0E => v.waitWord false
  | 0x0F => v.waitWord true
  | _ =>
    if n < 0x20 then v.ctx.attest.toNat / 2 ^ (32 * (n - 0x10)) % 2 ^ 32
    else
      let log := v.ctx.log ((n - 0x20) / 2)
      if (v.ctx.region 7 ((n - 0x20) / 2)).isNone then 0 else if n % 2 = 0 then log.head.toNat else log.tail.toNat

/-- The arrivals of a group in a device leave no record and wait for none: no arrival-order log, no replay (22 R350, R353). -/
def Quiet (d : Device) (v : View) : Prop := (d.ctx v.c).replay = false ∧ (d.ctx v.c).logs 1 = false

/-- Determined completion: whatever state the effects `P` on the groups with an active lane lead to, that state is the
answer. -/
def Runs (i : Instr) (s : State) (vs : List View) (P : View → State → State → Prop) : Prop :=
  ∀ t, Each P (actives i vs) s t → exec i s = .next t

/-- The same for an instruction that acts once for both hardware groups of a pair. -/
def RunsOnce (i : Instr) (s : State) (vs : List View) (P : View → State → State → Prop) : Prop :=
  ∀ t, Each P (activeOnce i vs) s t → exec i s = .next t

/-- The device with the message of a context's fault of this CYC withdrawn, where it gives way to another (17 Table 17-7). -/
def withdrawn (gives : Bool) (c : BitVec 6) (d : Device) : Device :=
  { d with outbox := if gives then d.outbox.filter (fun m => !(m.type == 4 && m.ctx == c)) else d.outbox }

/-- The device with the translations that `p` names dropped on every die, and left to the context's requests of their die that are
not parked (18 R319). -/
def untranslated (d : Device) (p : Cached → Bool) (c : BitVec 6) : Device :=
  { d with
    tlb := d.tlb.filter (fun x => !p x)
    requests := d.requests.map (fun r =>
      if r.ctx = c ∧ ∀ k, r.status ≠ .parked k then
        { r with leaves := r.leaves ++ d.tlb.filter (fun x => p x && x.die == r.die) }
      else r) }

/-! ## Frames (07 R167 to R169) and traps (17 R296 to R298) -/

/-- The entry block of a gate entry: the block of its one-block state (18 R309). -/
def entryBlock (v : View) (e : BitVec 16 × Nat × BitVec 12) : BitVec 12 :=
  match v.ctx.kernel e.1 e.2.1 with
  | some k => match k.states[e.2.2.toNat]? with | some r => r.set.headD 0 | none => 0
  | none => 0

/-- A group as it enters a library with some of its lanes: they take the entry block, the slot takes the entry state at address
0, and the other slot is empty; in width mode 16 only the half's own slot changes. -/
def entered (v : View) (e : BitVec 16 × Nat × BitVec 12) (lanes : Word) (upper : List (BitVec 8)) (g : Group) : Group :=
  let start : Slot := { state := e.2.2, addr := 0, mask := lanes, moved := 0, join := none, wake := 0, wait := .awake,
                        resume := 0, span := none, afterTerm := false }
  let into (a : Agent) : Agent :=
    { a with
      library := some { handle := e.1, kernel := e.2.1, lanes := lanes, depth := v.agent.depth, frame := upper }
      depth := v.agent.depth + 7 }
  let g1 := { g with
    lbr := (List.range 32).map (fun j => if hasLane lanes j then entryBlock v e else g.lbr.getD j 0)
    parked := g.parked &&& ~~~lanes
    exited := g.exited &&& ~~~lanes
    agent0 := if v.half then g.agent0 else into g.agent0
    agent1 := if v.half then into g.agent1 else g.agent1 }
  if v.kern.wmode = 0 then
    (if v.half then { g1 with slot1 := some start } else { g1 with slot0 := some start })
  else { g1 with slot0 := some start, slot1 := none, alt := false }

/-- The upper hardware group's share of a frame, which a paired group keeps in its library state (log entry 19). -/
def upperFrame (rest : List View) (resume : Word) : List (BitVec 8) :=
  match rest with
  | u :: _ => (u.frame resume).bytes
  | [] => []

/-- The parts of a slot that its record holds (06 Table 06-7). -/
def slotParts (s : Option Slot) : Option (BitVec 12 × Word × Word × Word × Option (BitVec 12) × BitVec 64) :=
  s.map (fun s => (s.state, s.addr, s.mask, s.moved, s.join, s.wake))

/-- A group after a frame has been restored: the lanes of the frame and its slots hold what the frame holds, the agent is at
user privilege, and the stack stands where it stood at the call (07 R169). -/
structure FrameRestored (v : View) (r : SeqRec) (g : Group) : Prop where
  parked : g.parked = (v.grp.parked &&& ~~~v.frameLanes) ||| (r.parked &&& v.frameLanes)
  exited : g.exited = (v.grp.exited &&& ~~~v.frameLanes) ||| (r.exited &&& v.frameLanes)
  lbr : ∀ j, j < 32 → g.lbr.getD j 0 = if hasLane v.frameLanes j then r.lbr.getD j 0 else v.grp.lbr.getD j 0
  link : ∀ j, j < 32 → g.link.getD j 0 = if hasLane v.frameLanes j then r.link.getD j 0 else v.grp.link.getD j 0
  slot0 : slotParts g.slot0 = slotParts (if v.kern.wmode = 0 ∧ v.half then v.grp.slot0 else r.slot0)
  slot1 : slotParts g.slot1 = slotParts (if v.kern.wmode = 0 ∧ !v.half then v.grp.slot1 else r.slot1)
  agent : g.agent v.half = { v.agent with library := none, depth := v.agent.depth - 7 }
  cells : g.cells = v.grp.cells
  masks : g.masks = v.grp.masks

/-- No slot of a frame sleeps, or the cells that its waits read are resident and intact: putting the slots back to sleep needs no
refill (01 R30; 06 R150). -/
def WaitsReadable (d : Device) (v : View) (r : SeqRec) : Prop :=
  (r.wait0 = false ∧ r.wait1 = false) ∨ ((∀ c ∈ v.grp.cells, c.evicted = false) ∧ d.lost = [])

/-- The trap record of a precise trap (17 Table 17-6) and its %tcause (17 R296): the code, and the chain's word address. -/
def trapOf (v : View) (t : Trap) (word : Nat) (lanes resume : Word) (undelivered : Bool) : TrapRec × Word :=
  ({ lib := undelivered, slot := v.iss.slot, word := BitVec.ofNat 2 word, cause := BitVec.ofNat 8 t.cause,
     state := v.slot.state, resume := resume, lanes := t.lanes.getD lanes, detail := BitVec.ofNat 64 t.detail,
     cyc := v.dev.cyc },
   BitVec.ofNat 32 (t.cause + 2 ^ 8 * (v.iss.addr.toNat / 4 % 2 ^ 24)))

/-- A group with the trap record and %tcause of its agent replaced. -/
def withTrap (v : View) (r : TrapRec × Word) (g : Group) : Group :=
  let put (a : Agent) : Agent := { a with trap := r.1, tcause := r.2 }
  if v.half then { g with agent1 := put g.agent1 } else { g with agent0 := put g.agent0 }

end Sys2Proof.Claims
end

