-- ==== Sys2Proof/Safety/Barrier.lean ====
section
/-! DEFINITION. Barrier objects, their tokens and waits as the spec gives them (08 R182, R188, R189; 09 R205 to R210), apart from
the meanings of the machine. -/

namespace Sys2Proof.Claims

open Sys2Proof Sys2Proof.Machine

/-- The address of the object that an instruction names: cell b6 in the lowest active lane. -/
def objectAddr (h : Hdr) (b : BitVec 6) (v : View) : Nat := v.readLowest (v.active h) (8 * b.toNat) 32

/-- The checks of an object pass: its cell is U, and it is aligned, in the shared memory and clear of the locks that meet the
instruction (09 R205; 08 R188, Table 08-6). -/
def ObjectClear (h : Hdr) (b : BitVec 6) (v : View) (hit : ObjRef → RangeLock → Bool) : Prop :=
  v.isU (8 * b.toNat) 32 = true ∧ objectAddr h b v % 8 = 0 ∧
    ∃ o, v.object (objectAddr h b v) = some o ∧
      v.dev.meetsLock { space := o.space, addr := o.off } 8 v.grp.core (hit o) = false

/-- The checks of an object pass, and no error has lost it in the device (21 R333). -/
def ObjectOk (d : Device) (h : Hdr) (b : BitVec 6) (v : View) (hit : ObjRef → RangeLock → Bool) : Prop :=
  ObjectClear h b v hit ∧ ∀ o, v.object (objectAddr h b v) = some o → d.lostIn o.space o.off 8 = none

/-- An object's value in 08 Table 08-7: expected, arrived, phase and generation. -/
structure ObjectIs (x expected arrived : Nat) (phase : Bool) (gen : Nat) : Prop where
  expected : x % 2 ^ 16 = expected
  arrived : x / 2 ^ 16 % 2 ^ 16 = arrived
  phase : x.testBit 32 = phase
  gen : x / 2 ^ 33 = gen

/-- A device that differs from another only in its workgroups' shared memory and barrier records, the accumulators, and the locks
that `more` adds: every byte outside 8 bytes of a space that no accumulator stands for is unchanged. -/
def KeepsOtherBytes (o : ObjRef) (d e : Device) : Prop :=
  ∀ (sp : Space) (a : Nat), (sp ≠ o.space ∨ a < o.off ∨ o.off + 8 ≤ a) → (∀ q ∈ d.accs, q.meets sp a 1 = false) →
    e.byteAt sp a = d.byteAt sp a

/-- A wait on an object whose token has phase `tok`: it returns at once when the object's phase differs, and its agent has passed
one phase more; else its slot, of a pair that of the lower half, sleeps at its own chain (09 R207; 06 R150). -/
def Waited (v : View) (o : ObjRef) (tok : Bool) (w : Wait) (s t : State) : Prop :=
  if s.dev.phase o ≠ tok then t = s.modAgent v (fun a => { a with phases := a.phases + 1 })
  else t = s.modHomeSlot v (fun sl => { sl with wait := w, wake := 0, addr := v.iss.addr, resume := v.iss.next })

/-- The arrival of a group on an object: every active lane, in both halves of a pair, receives the upper half of the object before
the arrival. -/
def Arrived (h : Hdr) (d : BitVec 7) (o : ObjRef) (v : View) (s t : State) : Prop :=
  WroteAll h (h.d d) 32 ((s.dev.settle o.space o.off 8 false).objectValue o / 2 ^ 32) v
    { s with dev := s.dev.arrive o (some v.groupIndex) } t

/-! ## The clock of a partition (22 R340, R341) -/

/-- The lanes that the groups of one hardware group add to wait counter `k`: a group, in width mode 16 each half of it, adds its
present lanes when all its occupied slots sleep and the first of them in that counter; the upper hardware group of a pair waits
with the lower one. -/
def asleepLanes (d : Device) (k : Nat) (x : Workgroup × Nat × Nat) : Nat :=
  let add (slots : List (Option Slot)) (present : Word) : Nat :=
    let occupied := slots.filterMap id
    if (occupied.head?.bind (fun s => s.wait.counter)) = some k ∧ (∀ s ∈ occupied, s.wait ≠ .awake) then
      (List.range 32).countP (hasLane present)
    else 0
  match x.1.groups[x.2.1]? with
  | none => 0
  | some g =>
    if g.pair = some true then
      match x.1.groups[x.2.1 - 1]? with
      | some low => add [low.slot0, low.slot1] g.present
      | none => 0
    else if d.halfOf x.1 true then add [g.slot0] (g.present &&& 0x0000FFFF) + add [g.slot1] (g.present &&& 0xFFFF0000)
    else add [g.slot0, g.slot1] g.present

/-- The bins of a context whose partition was idle for a clock: 32 lanes more in class idle of bin 64, where they are counted. -/
def IdleCounted (counted : Bool) (x y : Context) : Prop :=
  let old := tableGet Bin.empty x.bins 64
  if counted then
    tableGet Bin.empty y.bins 64 =
        { old with counts := (List.range 5).map (fun i => old.counts.getD i 0 + if i = 4 then 32 else 0) } ∧
      ∀ j, j ≠ 64 → tableGet Bin.empty y.bins j = tableGet Bin.empty x.bins j
  else y.bins = x.bins

end Sys2Proof.Claims
end

