-- ==== Sys2Proof/Safety/Memory.lean ====
section
/-! DEFINITION. What the entries of the memory family say (09 R192 to R198; 08 R174, R175), bit by bit and byte by byte, apart
from the meanings of the machine. -/

namespace Sys2Proof.Claims

open Sys2Proof Sys2Proof.Machine

/-! ## Thread accesses -/

/-- Every active lane's access is aligned, keeps the rules of its space, and meets no lock (08 R174). -/
def Passes (v : View) (act : Word) (n align : Nat) (ea : Nat → Nat) (place : Nat → Option Place) (hit : RangeLock → Bool) : Prop :=
  ∀ j, j < 32 → hasLane act j = true →
    ea j % align = 0 ∧ ∃ p, place j = some p ∧ v.dev.meetsLock p n v.grp.core hit = false

/-- No byte that an active lane's access of `n` bytes reaches is lost to an error: a read of one ends the context instead
(21 R333). -/
def IntactAt (d : Device) (act : Word) (n : Nat) (place : Nat → Option Place) : Prop :=
  ∀ j, j < 32 → hasLane act j = true → ∀ p, place j = some p → d.lostIn p.space p.addr n = none

/-- An access of one width to one space: the header, the width, the data slice, the address slice and the byte offset. -/
structure Access where
  space : ThreadSpace
  h : Hdr
  w : Nat
  d : Nat
  a : Nat
  off : Int
  hi : Bool

/-- The bytes of an access. -/
def Access.n (x : Access) : Nat := if x.w = 4 then 1 else x.w / 8

/-- A lane's address (09 R193). -/
def Access.ea (x : Access) (v : View) (j : Nat) : Nat := ((v.read j x.a 32 : Int) + x.off) % (2 ^ 32 : Nat) |>.toNat

/-- A lane's place for a load. -/
def Access.from (x : Access) (v : View) (j : Nat) : Option Place := v.place x.space true false x.n (x.ea v j)

/-- A lane's place for a store. -/
def Access.into (x : Access) (v : View) (j : Nat) : Option Place := v.place x.space false true x.n (x.ea v j)

/-- The first bit of the access within its first byte: 4 for the high nibble. -/
def Access.bit (x : Access) : Nat := if x.w = 4 ∧ x.hi then 4 else 0

/-- The operands of the access. -/
def Access.spans (x : Access) : List (Nat × Nat) := [(x.a, 8), (x.d, x.w / 4)]

/-- An immediate in units of the access (09 R193): nibbles at width 4, else bytes of the access. -/
def accessOf (sp : ThreadSpace) (h : Hdr) (w : BitVec 3) (d a : BitVec 7) (i : BitVec 8) : Access :=
  { space := sp, h := h, w := widthOf w, d := h.d d, a := h.a a,
    off := if widthOf w = 4 then i.toInt / 2 else i.toInt * (widthOf w / 8 : Nat), hi := i.getLsbD 0 }

/-- The loads of Table 09-2 that translate nothing. -/
def loadOf (i : Instr) : Option Access :=
  match i with
  | .lds h w d a i => some (accessOf .shared h w d a i)
  | .ldx h w d a i => some (accessOf .spad h w d a i)
  | _ => none

/-- The stores. -/
def storeOf (i : Instr) : Option Access :=
  match i with
  | .sts h w d a i => some (accessOf .shared h w d a i)
  | .stx h w d a i => some (accessOf .spad h w d a i)
  | _ => none

/-- Bit `k` of the value at a place: bit `k` counts from the access's first bit, little-endian (02 R39). -/
def Access.bitAt (x : Access) (d : Device) (p : Place) (k : Nat) : Bool :=
  (d.byteAt p.space (p.addr + (x.bit + k) / 8)).getLsbD ((x.bit + k) % 8)

/-- The value a lane loads; accumulators that the lanes reach have settled (09 R197). -/
def Access.value (x : Access) (act : View → Word) (v : View) (j : Nat) : Nat :=
  match x.from v j with
  | some p => ofBits x.w (x.bitAt (v.dev.settleAll (placesOf (act v) (x.from v)) x.n) p)
  | none => 0

/-- The bits of a byte that a lane's store covers. -/
def Access.covers (x : Access) (v : View) (j : Nat) (sp : Space) (a k : Nat) : Bool :=
  match x.into v j with
  | some p => p.space == sp && decide (8 * p.addr + x.bit ≤ 8 * a + k) && decide (8 * a + k < 8 * p.addr + x.bit + x.w)
  | none => false

/-- The lane that a stored bit comes from: the highest active lane that covers it (09 R193). -/
def Access.writer (x : Access) (v : View) (act : Word) (sp : Space) (a k : Nat) : Option Nat :=
  ((List.range 32).filter (fun j => hasLane act j && x.covers v j sp a k)).getLast?

/-- The bit that a lane stores there. -/
def Access.stored (x : Access) (v : View) (j a k : Nat) : Bool :=
  match x.into v j with
  | some p => (v.read j x.d x.w).testBit (8 * a + k - (8 * p.addr + x.bit))
  | none => false

/-- A device that differs from another only in its shared memory and scratchpad, their accumulators, and the lost places that
the writes make good (21 R333). -/
def SameButMemory (d e : Device) : Prop :=
  ∃ m : Workgroup → Vector Memory 4, ∃ spad : Memory, ∃ accs : List Accumulator, ∃ lost : List StoredPlace,
    (∀ p ∈ lost, p ∈ d.lost) ∧
    e = { d with wgs := d.wgs.map (fun w => { w with shared := m w }), spad := spad, accs := accs, lost := lost }

/-- The bytes after the stores of a group: a covered bit holds the highest lane's, and every bit that no lane covers and no
accumulator stands for keeps its value. -/
def StoredBits (x : Access) (v : View) (act : Word) (d e : Device) : Prop :=
  ∀ (sp : Space) (a k : Nat), k < 8 →
    match x.writer v act sp a k with
    | some j => (e.byteAt sp a).getLsbD k = x.stored v j a k
    | none => (∀ q ∈ d.accs, q.meets sp a 1 = false) → (e.byteAt sp a).getLsbD k = (d.byteAt sp a).getLsbD k

/-- The effect of a load on one group: the traffic of the access, then the values, U from a U address (09 R193; 22 R344;
01 R27). -/
def Loaded (x : Access) (act : View → Word) (v : View) (s t : State) : Prop :=
  ∃ r, r = State.accessed { s with dev := s.dev.settleAll (placesOf (act v) (x.from v)) x.n } v (placesOf (act v) (x.from v))
      x.n true false ∧
    WroteOne act x.d x.w (x.value act) (fun v => if v.isU x.a 32 then .u else .g) v r t

/-- The effect of a store on one group whose workgroup stands: the bytes, then the traffic of the access. -/
def StoredTo (x : Access) (act : View → Word) (v : View) (s t : State) : Prop :=
  ∃ e, t = State.accessed { s with dev := e } v (placesOf (act v) (x.into v)) x.n false true ∧ SameButMemory s.dev e ∧
    ((s.dev.wg v.wg.uid).isSome = true → StoredBits x v (act v) s.dev e)

/-! ## The group stack (08 R175) -/

/-- The virtual address of byte `o` of a lane's stack: byte j of word w of lane i lies at 128 w + 4 i + j. -/
def stackByte (v : View) (lane o : Nat) : Nat :=
  v.ctx.spillBase v.grp.spill + v.kern.stackOffset + (128 * (o / 4) + 4 * lane + o % 4)

/-- A lane's byte offset: the address slice plus the immediate in units of the access. -/
def stackOffset (h : Hdr) (w : BitVec 3) (a i : BitVec 7) (v : View) (j : Nat) : Nat :=
  (v.read j (h.a a) 32 + i.toNat * (widthOf w / 8)) % 2 ^ 32

/-- Every active lane's stack access is aligned and lies in the stack. -/
def StackFits (h : Hdr) (w : BitVec 3) (a i : BitVec 7) (v : View) (act : Word) : Prop :=
  ∀ j, j < 32 → hasLane act j = true →
    stackOffset h w a i v j % (widthOf w / 8) = 0 ∧ stackOffset h w a i v j + widthOf w / 8 ≤ v.kern.stack

/-- The die's translation unit holds the translation of an address for an access (17 R293). -/
def Cached (d : Device) (v : View) (write : Bool) (a : Nat) (p : Phys) : Prop :=
  d.translate (dieOf v.grp.core) v.c a write = .ok (p, d)

/-- The bytes of a lane's access, each with the bits that go there. -/
def stackCells (h : Hdr) (w : BitVec 3) (d a i : BitVec 7) (v : View) (j : Nat) : List (Nat × BitVec 8) :=
  (List.range (widthOf w / 8)).map (fun k =>
    (stackByte v j (stackOffset h w a i v j + k), BitVec.ofNat 8 (v.read j (h.d d) (widthOf w) / 256 ^ k)))

/-- The bytes that the active lanes of a stack access reach, with their lanes, in increasing lane order. -/
def stackPlaces (h : Hdr) (w : BitVec 3) (a i : BitVec 7) (v : View) : List (Nat × Place) :=
  (lanesOf (v.active h)).flatMap (fun j => (List.range (widthOf w / 8)).map (fun k =>
    (j, { space := .main v.c, addr := stackByte v j (stackOffset h w a i v j + k) })))

/-! ## Atomics (09 R195, R196; 04 Table 04-10) -/

/-- An atomic operation of 04 Table 04-10 at width `w` by its code: the new value of memory from the old value, the data, and
CAS's new value. -/
def newValue (o w old x y : Nat) : Nat :=
  let f := FloatFmt.bin fmtF32
  match o with
  | 0 => (old + x) % 2 ^ w
  | 1 => if extI old w true ≤ extI x w true then old else x
  | 2 => if old ≤ x then old else x
  | 3 => if extI old w true ≥ extI x w true then old else x
  | 4 => if old ≥ x then old else x
  | 5 => old &&& x
  | 6 => old ||| x
  | 7 => old ^^^ x
  | 8 => x
  | 9 => if old = x then y else old
  | 10 => (finish f .rne (addExact .rne [f.value old, f.value x])).1
  | 11 => (fminmax false f .rne (f.value old) (f.value x)).1
  | _ => (fminmax true f .rne (f.value old) (f.value x)).1

/-- The atomic operations of some lanes, lane after lane: what each finds and what they leave. -/
def atomicsRun (v : View) (o w b : Nat) : List (Nat × Place) → Device → List (Nat × Nat) × Device
  | [], d => ([], d)
  | (j, p) :: rest, d =>
    let d1 := d.settle p.space p.addr (w / 8) false
    let old := d1.num p.space p.addr (w / 8)
    let d2 := d1.putNum p.space p.addr (w / 8) (newValue o w old (v.read j b w) (v.read j (b + w / 4) w))
    ((j, old) :: (atomicsRun v o w b rest d2).1, (atomicsRun v o w b rest d2).2)

/-- An atomic instruction: the space, whether it returns the old value, the code in Table 04-10, and its operands. -/
structure Atomic where
  space : ThreadSpace
  reads : Bool
  o : Nat
  h : Hdr
  d : Nat
  a : Nat
  b : Nat

/-- The atomics of Tables 09-3 and 04-10. RED has no swap and no compare. -/
def atomicOf (i : Instr) : Option Atomic :=
  match i with
  | .atomS h o d a b => some ⟨.shared, true, o.toNat, h, h.d d, h.a a, 8 * b.toNat⟩
  | .atomX h o d a b => some ⟨.spad, true, o.toNat, h, h.d d, h.a a, 8 * b.toNat⟩
  | .red h o a b => some ⟨.spad, false, if o.toNat < 8 then o.toNat else o.toNat + 2, h, 0, h.a a, 8 * b.toNat⟩
  | _ => none

/-- The width: 64 under EXT.wo, else 32. -/
def Atomic.w (x : Atomic) : Nat := if x.h.e.wo then 64 else 32

/-- Whether an atomic adds, or compares, floats. -/
def Atomic.float (x : Atomic) : Bool := decide (10 ≤ x.o)

/-- The operands in the budget. -/
def Atomic.spans (x : Atomic) : List (Nat × Nat) :=
  [(x.a, 8), (x.b, if x.o = 9 then x.w / 2 else x.w / 4)] ++ if x.reads then [(x.d, x.w / 4)] else []

/-- A lane's place. -/
def Atomic.place (x : Atomic) (v : View) (j : Nat) : Option Place :=
  v.place x.space x.reads true (x.w / 8) (v.read j x.a 32 % 2 ^ 32)

/-- The effect of an atomic on one group that logs nothing: memory, the traffic, and the old values. -/
def Performed (x : Atomic) (act : View → Word) (v : View) (s t : State) : Prop :=
  let ps := placesOf (act v) (x.place v)
  let r := atomicsRun v x.o x.w x.b ps s.dev
  let q := State.accessed { s with dev := r.2 } v ps (x.w / 8) x.reads true
  if x.reads then
    WroteOne act x.d x.w (fun v j => tableGet 0 (atomicsRun v x.o x.w x.b (placesOf (act v) (x.place v)) s.dev).1 j)
      (fun _ => .g) v q t
  else t = q

/-- The lanes that fail a check. -/
def failing (act : Word) (bad : Nat → Bool) : Word := maskOf (fun j => hasLane act j && bad j)

/-- A memory trap of an instruction whose lanes `act` make an access: its cause, the address of the lowest failing lane, and the
failing lanes (17 Tables 17-5, 17-6). -/
def memoryTrap (cause : Nat) (act : Word) (bad : Nat → Bool) (ea : Nat → Nat) : Trap :=
  { cause := cause, detail := ea ((lowestLane (failing act bad)).getD 0), lanes := some (failing act bad) }

end Sys2Proof.Claims
end

