-- ==== Sys2Proof/Safety/Engine.lean ====
section
/-! DEFINITION. Requests of the copy engines and the matrix array as the spec gives them (08 R178 to R191; 09 R200 to R204;
10 R215 to R230), apart from the meanings of the machine. -/

namespace Sys2Proof.Claims

open Sys2Proof Sys2Proof.Machine

/-! ## Requests at issue (09 R203; 10 R225) -/

/-- The ranges and the object of a request pass its checks: aligned, within their spaces, and the places `ps` of those that move
apart where they must be, with room for their locks. An address that breaks its space's rule is out of bounds whatever it
moves (08 R171 to R173). -/
structure RangesOk (v : View) (rs : List Reach) (ps : List (Place × Nat × Bool)) (bar : Nat) (meet : Bool → Bool → Bool) : Prop where
  aligned : ∀ r ∈ rs, r.addr % r.align = 0
  inside : ∀ r ∈ rs, ∀ b, r.range = some b → (v.range r.space r.write b).isSome = true
  low : ∀ r ∈ rs, r.range = none →
    (r.space = 0 → r.addr < 2 ^ 57) ∧ (r.space = 1 → r.addr < 2 ^ 29) ∧
      (r.space ≠ 0 → r.space ≠ 1 → (v.shared r.addr 0).isSome = true)
  object : (v.object bar).isSome = true
  apart : ps.Pairwise (fun p q => meet p.2.2 q.2.2 = true → placesOverlap p.1 p.2.1 q.1 q.2.1 = false)
  room : v.dev.roomFor (requestLocks v.dev v.grp.core 0 ps) = true

/-- The copy queue of a die has room for one more request of a context whose ring is empty (08 R190, R191). -/
def CopyRoom (d : Device) (die : BitVec 2) (c : BitVec 6) : Prop :=
  d.ringRequests c = [] ∧ (d.requests.filter (fun r => r.inQueue die)).length < 256

/-- The sequence number that a group's next engine request takes (22 Table 22-8), its matrix operations counted (11 R231). -/
def nextRequest (d : Device) (v : View) : Nat :=
  match groupAt d v.wg.uid v.home with
  | some g => (g.agent v.half).reqSeq
  | none => 0

/-- The effect of issuing a request: its locks, its place at the tail of the copy queue, and its promise, at least the CYC of
issue, in every active lane, of both halves of a pair. How far the promise lies beyond the CYC is free. -/
def Issued (h : Hdr) (slice bar : Nat) (cells : View → List Word) (work : View → Work) (rs : View → List Reach)
    (v : View) (s t : State) : Prop :=
  ∃ delay : BitVec 32,
    let promise := v.dev.cyc + delay.setWidth 64
    let request : Request :=
      { id := s.dev.nextId, ctx := v.c, wg := v.wg.uid, tag := v.wg.tag, ordinal := v.wg.ordinal, group := v.groupIndex,
        agent := v.half, core := v.grp.core, die := dieOf v.grp.core, bar := BitVec.ofNat 32 bar, promise := promise,
        cells := cells v, work := work v, done := 0, fails := 0, fired := [], seq := nextRequest s.dev v,
        status := .queued, leaves := [] }
    let counted := s.dev.modGroup v.wg.uid v.home (fun g => g.modAgent v.half (fun a => { a with reqSeq := a.reqSeq + 1 }))
    let dev := { counted with
      nextId := s.dev.nextId + 1
      locks := s.dev.locks ++ requestLocks s.dev v.grp.core s.dev.nextId (v.reachPlaces (rs v))
      requests := s.dev.requests ++ [request] }
    WroteAll h slice 64 promise.toNat v { s with dev := dev } t

/-- COPY, and COPYT with its transform code. -/
def copyOf (i : Instr) : Option (Hdr × BitVec 7 × BitVec 7 × BitVec 6 × Nat × CopyTail) :=
  match i with
  | .copy h d a b t => some (h, d, a, b, 0, t)
  | .copyt h d a b x t => some (h, d, a, b, x.toNat, t)
  | _ => none

/-- The cells of a descriptor: 8 for a tensor-map endpoint and 4 for a dense one (09 R201). -/
def descriptorCells (kind : BitVec 2) : Nat := if kind = 0 then 8 else 4

/-- The cells that a copy reads from its source descriptor on: the descriptor, and the transform block (09 R202). -/
def sourceCells (xf : Nat) (t : CopyTail) : Nat := descriptorCells t.skind + if xf = 0 then 0 else 6

/-- Whether a copy moves nothing: its source or its destination has no element in range (08 R177, R181). -/
def isEmptyCopy (rs : List Reach) : Prop := ∃ r ∈ rs.take 2, r.range = none

/-- The fields of a tensor-map entry keep the rules of 08 R176. -/
structure MapOk (m : BitVec 1024) : Prop where
  zero : ∀ j, j = 67 ∨ 74 ≤ j ∧ j < 96 ∨ 816 ≤ j → m.getLsbD j = false
  space : m.extractLsb' 72 2 ≠ 3
  rank : m.extractLsb' 64 3 ≠ 0
  dims : ∀ j, j < 7 →
    if (m.extractLsb' 64 3).toNat ≤ j then m.extractLsb' (96 + 32 * j) 32 = 0 ∧ m.extractLsb' (704 + 16 * j) 16 = 0
    else m.extractLsb' (96 + 32 * j) 32 ≠ 0 ∧ m.extractLsb' (704 + 16 * j) 16 ≠ 0
  strides : ∀ j, j < 6 → (m.extractLsb' (320 + 64 * j) 64).toNat % fmtBytes (m.extractLsb' 68 4) = 0
  even : fmtBits (m.extractLsb' 68 4).toNat = 4 → (m.extractLsb' 704 16).toNat % 2 = 0

/-- A routing pass's outcome is a fair one: no list longer than the capacity, and every token's k assignments either held or
counted as dropped (10 R224). -/
structure RouteOutcome (k cap experts tokens : Nat) (r : RouteState) : Prop where
  size : r.counts.length = experts
  capacity : ∀ n ∈ r.counts, n ≤ cap
  accounted : r.counts.sum + r.dropped = k * tokens

/-! ## The matrix queue (10 R215 to R217) -/

/-- A matrix instruction: sub5, tile, z, fragment slices with the slices they span, format block and gather block. -/
def matrixOf (i : Instr) : Option (MatWords × List (Nat × Nat)) :=
  match i with
  | .mma h d a b t z =>
    some ({ sub := 0, tile := t, z := z, a := some (h.d d), b := some (h.a a), cf := b, cg := none },
      [(h.d d, 128), (h.a a, 128), (8 * b.toNat, 32)])
  | .mmap h d a b t z =>
    some ({ sub := 1, tile := t, z := z, a := some (h.d d), b := some (h.a a), cf := b, cg := none },
      [(h.d d, 128), (h.a a, 256), (8 * b.toNat, 32)])
  | .mmagA h a b t cg =>
    some ({ sub := 2, tile := t, z := false, a := none, b := some (h.a a), cf := b, cg := some cg },
      [(h.a a, 128), (8 * b.toNat, 32), (8 * cg.toNat, 40)])
  | .mmagK h d b t z cg =>
    some ({ sub := 3, tile := t, z := z, a := some (h.d d), b := none, cf := b, cg := some cg },
      [(h.d d, 128), (8 * b.toNat, 32), (8 * cg.toNat, 40)])
  | _ => none

/-- The tile rule of 10 R211 holds: a tile of the kernel, a pair tile on a leader core, and for the pair forms a pair tile. -/
def TileOk (v : View) (t : BitVec 7) (pair : Bool) : Prop :=
  t.toNat < v.kern.tiles + v.kern.ptiles ∧ (v.kern.tiles ≤ t.toNat → v.grp.core.toNat % 2 = 0) ∧
    (pair = true → v.kern.tiles ≤ t.toNat)

/-- The matrix queue of a core has room for one more operation of a context whose ring is empty. -/
def MatrixRoom (d : Device) (core : BitVec 8) (c : BitVec 6) : Prop :=
  d.matrix.filter (fun m => m.ctx == c && m.inRing) = [] ∧ (d.matrix.filter (fun m => m.core == core && !m.inRing)).length < 64

/-- What the issue of a matrix operation leaves: the operation at the tail, with the fragments of every lane of the half that acts
and the number of the open batch, the batch and the group's engine requests one operation longer, and no register changed. -/
structure QueuedMatrix (m : MatWords) (p : MatPlan) (v : View) (s t : State) : Prop where
  queue : ∃ op : MatOp, t.dev.matrix = s.dev.matrix ++ [op] ∧ op.id = s.dev.nextId ∧ op.ctx = v.c ∧ op.wg = v.wg.uid ∧
    op.group = v.home ∧ op.agent = v.half ∧ op.core = v.grp.core ∧ op.sub = m.sub ∧ op.tile = m.tile.toNat ∧ op.z = m.z ∧ op.batch = v.agent.batch + 1 ∧
    (∀ a, m.a = some a → op.afrag = (List.range 32).map (fun i => BitVec.ofNat 512 (v.read i a 512))) ∧
    (∀ b, m.b = some b → op.bfrag = (List.range 32).map (fun i => BitVec.ofNat 512 (v.read i b 512))) ∧
    (∀ b, m.b = some b → m.sub = 1 → op.bfrag2 = (List.range 32).map (fun i => BitVec.ofNat 512 (v.read i (b + 128) 512)))
  locks : t.dev.locks = s.dev.locks ++ matrixLocks s.dev v.grp.core s.dev.nextId (v.gatherPlaces p (m.sub == 3))
  next : t.dev.nextId = s.dev.nextId + 1
  rest : t.dev.requests = s.dev.requests ∧ t.dev.spad = s.dev.spad ∧ t.dev.hbm = s.dev.hbm ∧ t.dev.writes = s.dev.writes
  groups : ∀ uid g x, groupAt s.dev uid g = some x → groupAt t.dev uid g = some
    (if uid = v.wg.uid ∧ g = v.home then x.modAgent v.half (fun a => { a with openOps := a.openOps + 1, reqSeq := a.reqSeq + 1 })
     else x)

/-! ## Tile moves (10 R220, R221) -/

/-- An element of a move: a tile's f32 value in the format of the control cell, rounded once in RNE. -/
def tileOut (c : TileControl) (x : Nat) : Nat := if c.efmt = 0 then x else (convert .rne false 0 c.efmt x).1

/-- An element of the control cell's format as a tile's f32 value. -/
def tileIn (c : TileControl) (x : Nat) : Nat := if c.efmt = 0 then x else (convert .rne false c.efmt 0 x).1

/-- The tile moves between slices and tiles: the header, the slice operand, the tile, the control cell and whether the
follower half is named. -/
def tileMoveOf (i : Instr) : Option (Hdr × BitVec 7 × BitVec 7 × BitVec 6 × Bool × Bool) :=
  match i with
  | .tld h d t b => some (h, d, t, b, false, false)
  | .tldP h d t b => some (h, d, t, b, true, false)
  | .tst h d t b => some (h, d, t, b, false, true)
  | .tstP h d t b => some (h, d, t, b, true, true)
  | _ => none

/-- Element (m, n) of a tile on a side of a workgroup (10 R211; 03 R77). -/
def tileElement (d : Device) (side : TileSide) (t m n : Nat) : Nat := tileGet (d.tiles side) t m n

/-- Whether two sides name the same tiles: the follower halves of a workgroup are one set, whatever the core. -/
def sameSide (x y : TileSide) : Bool := x.wg == y.wg && x.follower == y.follower && (x.follower || x.q % 4 == y.q % 4)

/-- No earlier matrix operation of the issuing group on a tile is outstanding (10 R214). -/
def TileFree (v : View) (t : BitVec 7) : Prop := ∀ op ∈ v.dev.matrix, v.issued op = true → op.tile ≠ t.toNat

/-- A device that differs from another only in the tiles of one workgroup, and in lost elements that have been made good. -/
def SameButTiles (uid : Nat) (d e : Device) : Prop :=
  ∃ tiles : Workgroup → Vector Memory 4, ∃ follower : Workgroup → Memory, ∃ lost : List StoredPlace,
    (∀ p ∈ lost, p ∈ d.lost) ∧
    e = { d with
      wgs := d.wgs.map (fun w => if w.uid == uid then { w with tiles := tiles w, follower := follower w } else w)
      lost := lost }

/-- No element of a tile that a move reads, in the rows and columns given, is lost to an error (21 R333). -/
def TileIntact (d : Device) (side : TileSide) (t : Nat) (row col : Nat → Bool) : Prop :=
  d.tileLost side (tileWithin t row col) = none

/-- The elements of a TSTS in the order in which they are written, row by row. -/
def storeOrder (c : TileControl) : List (Nat × Nat) :=
  (List.range 32).flatMap (fun r => (List.range c.ncol).map (fun j => (r, j)))

/-- The element that a byte of a TSTS's range keeps: the last one written that covers it (10 R221). -/
def storedElement (c : TileControl) (k : Nat) : Option (Nat × Nat) :=
  ((storeOrder c).filter (fun x =>
    decide (x.1 * c.rstride + x.2 * (fmtBits c.efmt / 8) ≤ k) &&
      decide (k < x.1 * c.rstride + x.2 * (fmtBits c.efmt / 8) + fmtBits c.efmt / 8))).getLast?

/-- The bytes of shared memory after a TSTS of a tile at a place. -/
def StoredTile (c : TileControl) (v : View) (side : TileSide) (t : Nat) (p : Place) (d e : Device) : Prop :=
  ∀ (sp : Space) (a : Nat),
    match (if sp = p.space ∧ p.addr ≤ a then storedElement c (a - p.addr) else none) with
    | some x => e.byteAt sp a =
        BitVec.ofNat 8 (tileOut c (tileElement v.dev side t x.1 (c.col0 + x.2)) /
          256 ^ (a - p.addr - (x.1 * c.rstride + x.2 * (fmtBits c.efmt / 8))))
    | none => (∀ q ∈ d.accs, q.meets sp a 1 = false) → e.byteAt sp a = d.byteAt sp a

/-! ## Expert slots (10 R227 to R229) -/

/-- The slot and the status that XSLOT answers for a key (10 R228, Table 10-11). -/
def SlotChosen (slots : List ExpertSlot) (dist : Nat → Option Nat) (layer expert : BitVec 16) (j status : Nat) : Prop :=
  let here (x : ExpertSlot) : Prop := x.valid = true ∧ x.layer = layer ∧ x.expert = expert
  match status with
  | 0 => ∃ x, slots[j]? = some x ∧ here x ∧ ∀ i y, i < j → slots[i]? = some y → ¬ here y
  | 1 => ∃ x, slots[j]? = some x ∧ x.valid = false ∧ (∀ y ∈ slots, ¬ here y) ∧
      ∀ i y, i < j → slots[i]? = some y → y.valid = true
  | 2 => ∃ x, slots[j]? = some x ∧ x.pins = 0 ∧ (∀ y ∈ slots, y.valid = true ∧ ¬ here y) ∧
      ∀ i y, slots[i]? = some y → y.pins = 0 →
        (match dist x.layer.toNat, dist y.layer.toNat with
         | none, none => i ≤ j
         | none, some _ => True
         | some _, none => False
         | some m, some n => n < m ∨ n = m ∧ i ≤ j)
  | _ => status = 3 ∧ j = 0 ∧ ∀ y ∈ slots, y.valid = true ∧ y.pins ≠ 0 ∧ ¬ here y

/-- The distance in the layer order to a layer's next use, none when it is not in the order (10 R228). -/
def nextUse (order : List Nat) (now layer : Nat) : Option Nat :=
  (List.range order.length).find? (fun j => order.getD ((now + j) % order.length) 0 == layer)

end Sys2Proof.Claims
end

