-- ==== Sys2Proof/Safety/Float.lean ====
section
/-! DEFINITION. Numbers as the spec gives them (02 R42 to R62; 05 R111 to R116; 03 R71): rounding, its flags, the exact
operations, conversions, the special functions and the accumulation of the matrix array, as rational numbers and apart from the
arithmetic of the machine. -/

namespace Sys2Proof.Claims

open Sys2Proof Sys2Proof.Machine

/-! ## Rounding (02 R42, R57) -/

/-- Whether a value is a number. -/
def isFinite (v : Val) : Bool :=
  match v with
  | .num _ _ _ => true
  | _ => false

/-- The number that a finite value is. -/
def ratio (v : Val) : ℚ :=
  match v with
  | .num n m e => (if n then -1 else 1) * m * 2 ^ e
  | _ => 0

/-- The magnitude from which a round to nearest overflows: half a unit above the greatest finite value (02 R42). -/
def overflowFrom (b : Binary) : ℚ := (2 ^ (b.fb + 2) - 1) * 2 ^ (b.bias - b.fb - 1)

/-- A code is what an exact number rounds to: in a binary format the nearest value, ties to the even code, or the nearest one on
the side that the mode names, with the overflow of R42; in a tapered format the nearest nonzero code, whatever the mode, and
0 for 0 alone (02 R57). -/
def RoundsTo (f : FloatFmt) (r : Rounding) (x : ℚ) (c : Nat) : Prop :=
  let y := ratio (f.value c)
  let each (P : ℚ → Prop) : Prop := ∀ k, k < 2 ^ f.width → isFinite (f.value k) = true → P (ratio (f.value k))
  let nearest (z : ℚ) : Prop := |y - x| ≤ |z - x| ∧ (|y - x| = |z - x| → z ≠ y → c % 2 = 0)
  c < 2 ^ f.width ∧
    match f, r with
    | .tap _, _ =>
      isFinite (f.value c) = true ∧ (x = 0 → c = 0) ∧ (x ≠ 0 → y ≠ 0 ∧ each (fun z => z ≠ 0 → nearest z))
    | .bin b, .rne =>
      if |x| < overflowFrom b then isFinite (f.value c) = true ∧ each nearest else f.value c = .inf (decide (x < 0))
    | .bin _, .rz => isFinite (f.value c) = true ∧ 0 ≤ x * y ∧ |y| ≤ |x| ∧ each (fun z => |z| ≤ |x| → |z| ≤ |y|)
    | .bin _, .ru =>
      if isFinite (f.value c) then x ≤ y ∧ each (fun z => x ≤ z → y ≤ z) else f.value c = .inf false ∧ each (fun z => z < x)
    | .bin _, .rd =>
      if isFinite (f.value c) then y ≤ x ∧ each (fun z => z ≤ x → z ≤ y) else f.value c = .inf true ∧ each (fun z => x < z)

/-- A number rounded to an integer in a mode; to nearest, a tie goes to the even one. -/
def roundQ (r : Rounding) (x : ℚ) : ℤ :=
  match r with
  | .rne => if x - ⌊x⌋ < 1 / 2 ∨ x - ⌊x⌋ = 1 / 2 ∧ ⌊x⌋ % 2 = 0 then ⌊x⌋ else ⌊x⌋ + 1
  | .rz => if 0 ≤ x then ⌊x⌋ else ⌈x⌉
  | .ru => ⌈x⌉
  | .rd => ⌊x⌋

/-- A number rounded to the precision of a binary format, its exponent at least `low` where a limit is given: in units of
2^(exponent - fraction bits). -/
def atPrecision (b : Binary) (r : Rounding) (low : Option ℤ) (x : ℚ) : ℚ :=
  let order : ℤ := match low with | some l => max (Int.log 2 |x|) l | none => Int.log 2 |x|
  let unit : ℚ := 2 ^ (order - b.fb)
  roundQ r (x / unit) * unit

/-- The greatest finite value of a binary format (02 Tables 02-2 and 02-4). -/
def greatest (b : Binary) : ℚ := if b = fmtE4M3 then 448 else (2 ^ (b.fb + 1) - 1) * 2 ^ (b.bias - b.fb)

/-- The flags of a rounding of `x` to the code `c` (02 R42, R57, Table 02-3): none when it is exact, else NX; with OF when the
number, rounded with no limit on its exponent, exceeds the greatest finite value, and with UF when it so stays below the smallest
normal one; in a tapered format beyond maxpos and below minpos. -/
def roundingFlags (f : FloatFmt) (r : Rounding) (x : ℚ) (c : Nat) : Nat :=
  let tooBig : Bool := match f with
    | .bin b => decide (greatest b < |atPrecision b r none x|)
    | .tap t => decide (ratio (t.value (2 ^ (t.n - 1) - 1)) < |x|)
  let tooSmall : Bool := match f with
    | .bin b => decide (|atPrecision b r none x| < 2 ^ (1 - b.bias))
    | .tap t => decide (|x| < ratio (t.value 1))
  if isFinite (f.value c) = true ∧ ratio (f.value c) = x then 0
  else 16 + (if tooBig then 4 else 0) + (if tooSmall then 8 else 0)

/-- The canonical NaN of a format code, NaR for a tapered one (02 Tables 02-2, 02-4 and 02-7). -/
def canonicalNan (code : Nat) : Nat := [0x7FC00000, 0x7E00, 0x7FC0, 0x8000, 0x80000000, 0x80, 0x7F, 0x7E].getD code 0

/-- NV where a condition holds. -/
def invalid (p : Prop) [Decidable p] : Nat := if p then 1 else 0

/-! ## Exact operations (05 R112, R113, R123; 02 R58, R59) -/

/-- The exact sum of some values, with the flags of its operands (05 R112): a NaN of a NaN operand or of infinities of both signs,
else the infinity among them, else the sum, whose sign, when it is zero, is that of operands that are all zeros of one sign, and
minus in RD alone otherwise. -/
def SumOf (r : Rounding) (l : List Val) (p : Val × Nat) : Prop :=
  if ∃ v ∈ l, v.isNan = true then p = (.nan false, invalid (∃ v ∈ l, v = .nan true))
  else if Val.inf true ∈ l ∧ Val.inf false ∈ l then p = (.nan false, 1)
  else if Val.inf true ∈ l then p = (.inf true, 0)
  else if Val.inf false ∈ l then p = (.inf false, 0)
  else
    isFinite p.1 = true ∧ p.2 = 0 ∧ ratio p.1 = (l.map ratio).sum ∧ ((l.map ratio).sum = 0 →
      p.1.neg = if ∀ v ∈ l, v.isZero = true ∧ v.neg = true then true
                else if ∀ v ∈ l, v.isZero = true ∧ v.neg = false then false
                else decide (r = .rd))

/-- The exact product of two values, with the flags of its operands: zero by an infinity is invalid. -/
def ProductOf (x y : Val) (p : Val × Nat) : Prop :=
  if x.isNan = true ∨ y.isNan = true then p = (.nan false, invalid (x = .nan true ∨ y = .nan true))
  else if x.isInf = true ∧ y.isZero = true ∨ x.isZero = true ∧ y.isInf = true then p = (.nan false, 1)
  else if x.isInf = true ∨ y.isInf = true then p = (.inf (x.neg != y.neg), 0)
  else isFinite p.1 = true ∧ p.2 = 0 ∧ ratio p.1 = ratio x * ratio y ∧ p.1.neg = (x.neg != y.neg)

/-- A value orders at or below another, -0 below +0 (05 R113). -/
def AtMost (x y : Val) : Prop :=
  match x, y with
  | .inf true, _ => True
  | _, .inf false => True
  | .inf false, _ => False
  | _, .inf true => False
  | x, y => ratio x < ratio y ∨ ratio x = ratio y ∧ (x.neg = true ∨ y.neg = false)

/-- The least or greatest of some operands. On a binary type a NaN gives way to the numbers (05 R113); on a tapered one NaR lies
below every real (02 R59). -/
def Extreme (f : FloatFmt) (greatest : Bool) (l : List Val) (z : Val) : Prop :=
  let ordered (x y : Val) : Prop := if greatest then AtMost y x else AtMost x y
  if f.isTapered then
    if (if greatest then ∀ y ∈ l, y.isNan = true else ∃ y ∈ l, y.isNan = true) then z.isNan = true
    else z ∈ l ∧ z.isNan = false ∧ ∀ y ∈ l, y.isNan = false → ordered z y
  else if ∀ y ∈ l, y.isNan = true then z = .nan false
  else z ∈ l ∧ z.isNan = false ∧ ∀ y ∈ l, y.isNan = false → ordered z y

/-- The rounded minimum or maximum of some operands: NV for a signalling NaN among them, and no flag on a tapered type. -/
def ExtremeResult (f : FloatFmt) (r : Rounding) (greatest : Bool) (l : List Val) (p : Rounded) : Prop :=
  ∃ z, Extreme f greatest l z ∧
    if f.isTapered then p.1 = (finish f r (z, 0)).1 ∧ p.2 = 0
    else p = finish f r (z, invalid (∃ v ∈ l, v = .nan true))

/-! ## Conversions (02 R48, R60; 05 R115, R116) -/

/-- A value in e4m3 (code 6) or e5m2 (code 7), saturating or not (02 R48). -/
def ToOcp (r : Rounding) (sat : Bool) (code : Nat) (v : Val) (p : Rounded) : Prop :=
  let b := if code = 6 then fmtE4M3 else fmtE5M2
  let most := if code = 6 then 0x7E else 0x7B
  let sign := if v.neg then 0x80 else 0
  match v with
  | .nan s => p = (canonicalNan code, invalid (s = true))
  | .inf _ =>
    p = if code = 7 then (sign + 0x7C, 0) else if sat then (sign + most, 0) else (sign + 0x7F, 1)
  | v =>
    let x := ratio v
    let away := match r with | .rne => true | .rz => false | .ru => decide (0 < x) | .rd => decide (x < 0)
    if x ≠ 0 ∧ greatest b < |atPrecision b r none x| then
      p = (sign + (if sat = false ∧ away = true then (if code = 6 then 0x7F else 0x7C) else most), 4 + 16)
    else
      isFinite ((FloatFmt.bin b).value p.1) = true ∧ p.1 < 2 ^ 8 ∧ ((FloatFmt.bin b).value p.1).neg = v.neg ∧
        ratio ((FloatFmt.bin b).value p.1) = (if x = 0 then 0 else atPrecision b r (some (1 - b.bias)) x) ∧
        p.2 = roundingFlags (.bin b) r x p.1

/-- The least and the greatest integer of an integer format (02 Table 02-1). -/
def intRange (code : Nat) : ℤ × ℤ :=
  if fmtSigned code then (-2 ^ (fmtBits code - 1), 2 ^ (fmtBits code - 1) - 1) else (0, 2 ^ fmtBits code - 1)

/-- A value in an integer format (02 Table 02-11): rounded in the mode, and an extreme with NV outside the range. -/
def ToInt (r : Rounding) (code : Nat) (quiet : Bool) (v : Val) (p : Rounded) : Prop :=
  let bits (i : ℤ) : Nat := lowI i (fmtBits code)
  match v with
  | .nan _ => p = (0, if quiet then 0 else 1)
  | .inf n => p = (bits (if n then (intRange code).1 else (intRange code).2), 1)
  | v =>
    let i := roundQ r (ratio v)
    p = if i < (intRange code).1 then (bits (intRange code).1, 1)
        else if (intRange code).2 < i then (bits (intRange code).2, 1)
        else (bits i, if (i : ℚ) = ratio v then 0 else 16)

/-- A conversion of a `sf` element to a `df` element (02 Table 02-11, R48, R60; 05 R116). -/
def Converted (r : Rounding) (sat : Bool) (sf df : Nat) (x : Nat) (p : Rounded) : Prop :=
  let toFloat (g : FloatFmt) (v : Val) : Prop := if g.isOcp then ToOcp r sat df v p else p = finish g r (v, 0)
  match floatFmt sf, floatFmt df with
  | some f, some g =>
    if sf = df then
      p = match f, f.value x with
        | .bin _, .nan s => (canonicalNan sf, invalid (s = true))
        | _, _ => (x, 0)
    else toFloat g (f.value x)
  | some f, none => ToInt r df f.isOcp (f.value x) p
  | none, some g => ∃ v, isFinite v = true ∧ ratio v = extI x (fmtBits sf) (fmtSigned sf) ∧
      v.neg = decide (extI x (fmtBits sf) (fmtSigned sf) < 0) ∧ toFloat g v
  | none, none => p = (lowI (extI x (fmtBits sf) (fmtSigned sf)) (fmtBits df), 0)

/-- FABS or FNEG of the code `x` of one type into another, or the same (05 R115; 02 R43, R58). -/
def SignChanged (negate : Bool) (st dt : Nat) (f g : FloatFmt) (r : Rounding) (x : Nat) (p : Rounded) : Prop :=
  if st = dt then
    match f with
    | .bin b =>
      let top := 2 ^ (b.width - 1)
      p = (x % top + (if negate = true ∧ x < top then top else 0), 0)
    | .tap t => p = (if negate = true ∨ 2 ^ (t.n - 1) ≤ x then (2 ^ t.n - x) % 2 ^ t.n else x, 0)
  else
    match f.value x with
    | .nan s => p = (canonicalNan dt, invalid (s = true))
    | v => ∃ w, (w.isInf = v.isInf ∧ isFinite w = isFinite v) ∧ w.neg = (if negate then !v.neg else false) ∧ |ratio w| = |ratio v| ∧
        p = finish g r (w, 0)

/-- FRND (05 R115; 02 R58): the integral value in the mode, rounded into the type; NX on a binary type where it differs. -/
def RoundedToInteger (code : Nat) (g : FloatFmt) (r : Rounding) (v : Val) (p : Rounded) : Prop :=
  match v with
  | .nan s => p = (canonicalNan code, invalid (s = true))
  | .inf n => p = finish g r (.inf n, 0)
  | v =>
    let i := roundQ r (ratio v)
    ∃ w, isFinite w = true ∧ ratio w = i ∧ w.neg = v.neg ∧
      p = finish g r (w, if g.isTapered = false ∧ (i : ℚ) ≠ ratio v then 16 else 0)

/-! ## The special functions (02 R61, R62) -/

/-- The unit of the error bounds (02 R61): an f32 ulp of a number, with f32's lower exponent limit or without it. -/
def ulpOf (limited : Bool) (y : ℚ) : ℚ := 2 ^ ((if limited then max (Int.log 2 |y|) (-126) else Int.log 2 |y|) - 23)

/-- The rows of Table 02-13, with the two results that Table 02-12 states to be exact: an operand, its result and flags. -/
inductive SpecialRow (f : FloatFmt) : Config.Fn → Val → Val → Nat → Prop where
  | rcpZero (n e) : SpecialRow f .rcp (.num n 0 e) (.inf n) 2
  | rcpInf (n) : SpecialRow f .rcp (.inf n) (.num n 0 0) 0
  | rsqrtZero (n e) : SpecialRow f .rsqrt (.num n 0 e) (.inf n) 2
  | rsqrtNeg (m e) (h : m ≠ 0) : SpecialRow f .rsqrt (.num true m e) (.nan false) 1
  | rsqrtMinus : SpecialRow f .rsqrt (.inf true) (.nan false) 1
  | rsqrtInf : SpecialRow f .rsqrt (.inf false) (.num false 0 0) 0
  | sqrtZero (n e) : SpecialRow f .sqrt (.num n 0 e) (.num n 0 0) 0
  | sqrtNeg (m e) (h : m ≠ 0) : SpecialRow f .sqrt (.num true m e) (.nan false) 1
  | sqrtMinus : SpecialRow f .sqrt (.inf true) (.nan false) 1
  | sqrtInf : SpecialRow f .sqrt (.inf false) (.inf false) 0
  | exp2Minus : SpecialRow f .exp2 (.inf true) (.num false 0 0) 0
  | exp2Inf : SpecialRow f .exp2 (.inf false) (.inf false) 0
  | exp2Exact (n m e) (k : ℤ) (c : Nat) (int : ratio (.num n m e) = k) (fits : isFinite (f.value c) = true)
      (exact : ratio (f.value c) = 2 ^ k) : SpecialRow f .exp2 (.num n m e) (.num false 1 k) 0
  | log2Zero (n e) : SpecialRow f .log2 (.num n 0 e) (.inf true) 2
  | log2Neg (m e) (h : m ≠ 0) : SpecialRow f .log2 (.num true m e) (.nan false) 1
  | log2Minus : SpecialRow f .log2 (.inf true) (.nan false) 1
  | log2Inf : SpecialRow f .log2 (.inf false) (.inf false) 0
  | log2One (m e) (h : ratio (.num false m e) = 1) : SpecialRow f .log2 (.num false m e) (.num false 0 0) 0
  | sinZero (n e) : SpecialRow f .sin (.num n 0 e) (.num n 0 0) 0
  | cosZero (n e) : SpecialRow f .cos (.num n 0 e) (.num false 1 0) 0
  | sinInf (n) : SpecialRow f .sin (.inf n) (.nan false) 1
  | cosInf (n) : SpecialRow f .cos (.inf n) (.nan false) 1
  | tanhZero (n e) : SpecialRow f .tanh (.num n 0 e) (.num n 0 0) 0
  | tanhInf (n) : SpecialRow f .tanh (.inf n) (.num n 1 0) 0
  | ofNan (fn) (s : Bool) : SpecialRow f fn (.nan s) (.nan false) (if s then 1 else 0)

end Sys2Proof.Claims
end

