-- ==== Sys2Proof/Safety/Dot.lean ====
section
/-! DEFINITION. The arithmetic of the matrix array as the spec gives it (03 R65 to R76; 10 R217): factors, terms, alignment
groups and the tiles that an operation leaves, as rational numbers and apart from the arithmetic of the machine. -/

namespace Sys2Proof.Claims

open Sys2Proof Sys2Proof.Machine

/-! ## Terms (03 R70, R72) -/

/-- The exact product of some factors, none rounded (03 R70, R72): NaN with a NaN factor or with a zero beside an infinity, else
an infinity where a factor is one, else the product; the signs multiply. -/
def Product (fs : List Val) (p : Val) : Prop :=
  let sign : Bool := (fs.filter (fun x => x.neg)).length % 2 == 1
  if (∃ x ∈ fs, x.isNan = true) ∨ (∃ x ∈ fs, x.isZero = true) ∧ ∃ x ∈ fs, x.isInf = true then p.isNan = true
  else if ∃ x ∈ fs, x.isInf = true then p = .inf sign
  else isFinite p = true ∧ ratio p = (fs.map ratio).prod ∧ p.neg = sign

/-- The factors of element `k` of a packed row (03 R69, R70): the element, the tensor scale and, with blocks, the scale of its
block of 8, 16 or 32. -/
def factorsAt (f : MatFormat) (book : List (BitVec 16)) (packed : Nat) (scales : List Nat) (k : Nat) : List Val :=
  [f.element book (packed / 2 ^ (k * f.bits) % 2 ^ f.bits), (FloatFmt.bin fmtBF16).value f.tscale] ++
    (if f.blen = 0 then [] else [f.scale (scales.getD (k / (4 * 2 ^ f.blen)) 0)])

/-! ## Alignment groups (03 R71) -/

/-- The value of an f32 code. -/
def f32Value (x : Nat) : Val := (FloatFmt.bin fmtF32).value x

/-- One alignment group (03 R71): the accumulator and the terms, each truncated toward zero to units of 2^(E - 40), are summed
exactly and the sum rounded to f32. Only terms that are all -0 give -0 (log entry 75). -/
def GroupSum (acc : Nat) (ps : List Val) (out : Nat) : Prop :=
  let ts := f32Value acc :: ps
  if ∃ t ∈ ts, t.isNan = true then out = 0x7FC00000
  else if Val.inf true ∈ ts ∧ Val.inf false ∈ ts then out = 0x7FC00000
  else if Val.inf true ∈ ts then out = 0xFF800000
  else if Val.inf false ∈ ts then out = 0x7F800000
  else if ∀ t ∈ ts, t.isZero = true then out = if ∀ t ∈ ts, t.neg = true then 0x80000000 else 0
  else
    ∃ E : ℤ, (∀ t ∈ ts, |ratio t| < 2 ^ (E + 1)) ∧ (∃ t ∈ ts, 2 ^ E ≤ |ratio t|) ∧
      let q : ℚ := 2 ^ (E - 40)
      RoundsTo (.bin fmtF32) .rne (ts.map (fun t => roundQ .rz (ratio t / q) * q)).sum out ∧ out ≠ 0x80000000

/-- The procedure dot (03 R71): the groups of `g` terms in order, each rounded sum the accumulator of the next; without terms the
accumulator stays. -/
inductive DotOf (g : Nat) : Nat → List Val → Nat → Prop where
  | done (acc) : DotOf g acc [] acc
  | group (acc ps x out) (some : ps ≠ []) (first : GroupSum acc (ps.take g) x) (rest : DotOf g x (ps.drop g) out) :
      DotOf g acc ps out

/-- A sum of an array in reduced-array mode (03 R75): of finite terms, one within the bound, or an infinity where the magnitudes
reach the overflow threshold (log entry 8); else, or where the array has nothing of the kind to propose, that of dot. -/
def ReducedDot (g acc : Nat) (ps : List Val) (out : Nat) : Prop :=
  let ts := f32Value acc :: ps
  let magnitudes : ℚ := (ts.map (fun t => |ratio t|)).sum
  DotOf g acc ps out ∨
    out < 2 ^ 32 ∧ (∀ t ∈ ts, isFinite t = true) ∧
      if isFinite (f32Value out) then
        |ratio (f32Value out) - (ts.map ratio).sum| ≤ (((ps.length + g - 1) / g : ℕ) + 1) * (2 ^ 23)⁻¹ * magnitudes
      else (f32Value out).isInf = true ∧ overflowFrom fmtF32 ≤ magnitudes

/-! ## Execution (10 R217; 03 R65, R71, R74 to R76) -/

/-- The sum of element (m, n) on a core's array: reduced until the boot has ended, and wherever the core says so (03 R75). -/
def arraySum (d : Device) (core : BitVec 8) (g m n acc : Nat) (ps : List Val) : Nat :=
  let array := tableGet { columns := [], reduced := false } d.arrays core.toNat
  if array.reduced = true ∨ d.boot.step ≠ 15 then dotReduced core array.columns m n g acc ps else dot g acc ps

/-- What an operation at the head of its queue executes on: its workgroup's kernel, valid formats, an array that no pair
operation holds, an active context, and nothing lost that it reads. -/
structure MatrixRuns (d : Device) (op : MatOp) (w : Workgroup) (k : Kernel) (fa fb : MatFormat) : Prop where
  group : d.wg op.wg = some w
  kernel : (d.ctx w.ctx).kernel w.handle w.kernel = some k
  formats : parseFormats op.fblock = some (fa, fb)
  free : d.slaved op.core = false
  active : (d.ctx op.ctx).state = .active
  intact : op.lost d { wg := op.wg, q := quadIndex w.core op.core, follower := false } (op.rowReads w k.shared fb) = none

/-- Element (m, n) that an operation of the leader's array (`second` false), or of the follower's, leaves in its tile. MMA and
MMAP: the row of A by the column of B, the follower's columns from 32 on (03 R65, R76). MMAG.K: the terms in list order
(03 R74). MMAG.A: the entries that target the row, in list order, each on the result of the one before. Gathered rows are those
that stand in memory as the operation executes. -/
def tileResult (d : Device) (op : MatOp) (w : Workgroup) (k : Kernel) (fa fb : MatFormat) (side : TileSide) (second : Bool)
    (m n : Nat) : Nat :=
  let sum (acc : Nat) (ps : List Val) : Nat := arraySum d (if second then op.core + 1 else op.core) fa.g m n acc ps % 2 ^ 32
  let old := tileElement d side op.tile m n
  let acc := if op.z then 0 else old
  let fresh := d.settleRanges (op.rowReads w k.shared fb)
  let stored (g : Gather) (x size : Nat) : Nat := fresh.rowBits (op.rowPlace w k.shared g x size)
  let col : List Val :=
    if second then (op.rowsOf fb op.bfrag2 fb.k 32 op.sb).getD n [] else (op.rowsOf fb op.bfrag fb.k 0 op.sb).getD n []
  match op.sub.toNat, op.gather with
  | 2, some g =>
    (List.range g.list.length).foldl (fun acc pos =>
      let x := (g.list.getD pos 0).toNat
      let weight : Val := match g.weights with | some ws => f32Value (ws.getD pos 0).toNat | none => .num false 1 0
      let row := fa.factors (op.book fa) (stored g x 64) fa.k ((slicePad 0 op.sa (pos * fa.scales) fa.scales).map BitVec.toNat)
      if x ≠ 0xFFFF ∧ x = g.rowbase + m then sum acc (termsOf (row.map (fun y => (mulExact weight y).1)) col) else acc) old
  | 3, some g =>
    if g.list.length = 0 then old
    else
      sum acc (termsOf ((op.rowsOf fa op.afrag g.list.length 0 []).getD m [])
        (g.list.map (fun x =>
          (fb.factors (op.book fb) (stored g x.toNat (4 * fb.bits)) 32 []).getD n (.num false 0 0))))
  | _, _ => sum acc (termsOf ((op.rowsOf fa op.afrag fa.k 0 op.sa).getD m []) col)

/-- The form of an operation: a plain one has no gather data, a gathered one has, and the entries of MMAG.A target rows of the
tile (10 R217). -/
def MatrixForm (op : MatOp) : Prop :=
  match op.sub.toNat, op.gather with
  | 0, none => True
  | 1, none => True
  | 2, some g => ∀ x ∈ g.list, x ≠ 0xFFFF → g.rowbase ≤ x.toNat ∧ x.toNat < g.rowbase + 32
  | 3, some _ => True
  | _, _ => False

/-- The tiles after an operation: its own tile holds its results on its own core and, for MMAP, on the follower's half; every
other element of every tile stays. -/
def TilesAfter (d e : Device) (op : MatOp) (w : Workgroup) (k : Kernel) (fa fb : MatFormat) : Prop :=
  let own : TileSide := { wg := op.wg, q := quadIndex w.core op.core, follower := false }
  let other : TileSide := { own with follower := true }
  ∀ (x : TileSide) (t m n : Nat), m < 32 → n < 32 →
    tileElement e x t m n =
      if t = op.tile ∧ sameSide x own = true then tileResult d op w k fa fb own false m n
      else if t = op.tile ∧ op.sub = 1 ∧ sameSide x other = true then tileResult d op w k fa fb other true m n
      else tileElement d x t m n

end Sys2Proof.Claims
end

