-- ==== Sys2Proof/Safety/Host.lean ====
section
/-! DEFINITION. Launches, host commands, debug commands and what comes from outside the device, as the spec gives them (15 R253
to R266; 16 R275 to R286; 17 R287 to R306; 21 R331 to R338; 22 R339 to R348; 23 R355 to R365), apart from the meanings of the
machine. -/

namespace Sys2Proof.Claims

open Sys2Proof Sys2Proof.Machine

/-! ## Launches (15 R256 to R260) -/

/-- The turn of an operation has come: every earlier operation of its queue has completed, and so has every predecessor it
names (15 R257). -/
def TurnCome (x : Context) (l : Launch) : Prop :=
  (∀ e ∈ x.launches, e.state ≠ .complete → e.record.queue = l.record.queue → l.order ≤ e.order) ∧
    ∀ p ∈ l.record.preds, p = 0 ∨ ∀ e ∈ x.launches, e.record.tag = p → e.state = .complete

/-- A launch of a ready list enters after one that becomes ready now: it became ready in the same CYC, and its context's number or
its queue is higher (15 R260). -/
def ReadyAfter (d : Device) (c : BitVec 6) (l : Launch) (e : BitVec 6 × Word) : Prop :=
  ∃ y, (d.ctx e.1).launch e.2 = some y ∧ y.readyAt = d.cyc.toNat ∧
    (c.toNat < e.1.toNat ∨ c = e.1 ∧ l.record.queue < y.record.queue)

/-- Whether every operation of a graph has completed (15 R255). -/
def graphOver (x : Context) (g : GraphRun) : Bool :=
  x.launches.all (fun l => l.state == .complete || l.graph != some g.id)

/-- The graphs of a context that are over have ended, each with its message, and no other (15 R255; 23 Table 23-3). -/
structure GraphsEnded (c : BitVec 6) (d e : Device) : Prop where
  left : (e.ctx c).graphs = (d.ctx c).graphs.filter (fun g => !graphOver (e.ctx c) g)
  told : d.boot.step = 15 → e.outbox = d.outbox ++ ((d.ctx c).graphs.filter (graphOver (e.ctx c))).map (fun g =>
    { type := 2, ctx := c, code := BitVec.ofNat 16 g.index, detail := BitVec.ofNat 32 g.handle.toNat, cyc := d.cyc })

/-- The thread of lane `i` of hardware group `j` of a workgroup: in width mode 16 a hardware group holds two groups of 16 lanes, in
a quad those of numbers 8 (j / 4) + j mod 4 and 4 more (15 R263; 16 R280). -/
def threadOf (k : Kernel) (j i : Nat) : Nat :=
  if k.wmode = 0 ∧ k.quad = true then 16 * (8 * (j / 4) + j % 4 + 4 * (i / 16)) + i % 16 else 32 * j + i

/-- The resident groups of the cores of a place (15 R264). -/
def residents (d : Device) (k : Kernel) (origin : BitVec 8) : Nat :=
  ((placeCores k.quad origin).map (fun c => (d.usedSeats c).length)).sum

/-- A core has what a segment of a kernel needs (15 R262; 17 R307): it is enabled, not fenced and of the world, and its shared memory,
tiles and range locks have room. -/
structure CoreHolds (d : Device) (k : Kernel) (sec : Bool) (core : BitVec 8) : Prop where
  enabled : core ∈ d.enabled
  unfenced : core ∉ d.fenced
  world : BitVec.ofNat 32 (blockId 0 core) ∈ d.secBlocks ↔ sec = true
  shared : d.usedOn core (fun k => k.shared) + k.shared ≤ 524288
  tiles : d.usedTiles core + k.tiles + k.ptiles ≤ 128
  locks : d.lockCount core + k.nbar ≤ 64

/-! ## The mailbox (15 R253, R254) -/

/-- A doorbell finds a well-formed command: the boot has ended, no command runs, the context is not free, and bytes 0 to 63 hold
the command with its must-be-zero bytes zero. -/
structure Commanded (d : Device) (c : BitVec 6) (b : List (BitVec 8)) (code : Nat) : Prop where
  booted : d.boot.step = 15 ∧ d.boot.halt = false
  idle : (d.ctx c).mailbox.running = none
  bytes : takePad 0 (d.ctx c).mailbox.cmd 64 = b
  command : leAt b 0 1 = code
  form : leAt b 2 2 = 0 ∧ unusedZero code b = true
  lives : (d.ctx c).state ≠ .free

/-- A device whose mailbox holds an answer: the status, sequence number, code, overrun bit and 56 result bytes, with the message
that tells the host (15 Table 15-1; 23 Table 23-3). -/
def answeredWith (ovr : Bool) (d : Device) (c : BitVec 6) (b : List (BitVec 8)) (status : Nat) (results : List (BitVec 8)) :
    Device :=
  (d.modCtx c (fun x => { x with mailbox := { x.mailbox with
    status := BitVec.ofNat 16 status, seq := BitVec.ofNat 8 (leAt b 1 1), code := BitVec.ofNat 8 (leAt b 0 1), ovr := ovr
    results := takePad 0 results 56, running := none, dropped := false } })).sendMsg 1 c
      (BitVec.ofNat 16 (leAt b 0 2)) (BitVec.ofNat 32 status)

/-- An answer given at the doorbell: no other doorbell has been dropped meanwhile. -/
def answered : Device → BitVec 6 → List (BitVec 8) → Nat → List (BitVec 8) → Device := answeredWith false

/-- An answer given later, to the command that runs. -/
def answeredLate (d : Device) (c : BitVec 6) (b : List (BitVec 8)) (status : Nat) : Device :=
  answeredWith (d.ctx c).mailbox.dropped d c b status []

/-- A mailbox runs a command. -/
def RunsCommand (d : Device) (c : BitVec 6) (b : List (BitVec 8)) (code : Nat) : Prop :=
  (d.ctx c).mailbox.running = some b ∧ leAt b 0 1 = code

/-- A device whose mailbox runs a command. -/
def accepted (d : Device) (c : BitVec 6) (b : List (BitVec 8)) : Device :=
  d.modCtx c (fun x => { x with mailbox := { x.mailbox with running := some b, dropped := false } })

/-- The command rows, with their codes (15 Table 15-2); a QUERY row by its item. -/
def commandOf (i : Instr) (b : List (BitVec 8)) : Option (BitVec 6 × Nat) :=
  let q (c : BitVec 6) (p : Nat → Bool) : Option (BitVec 6 × Nat) := if p (leAt b 4 4) then some (c, 7) else none
  match i with
  | .load c => some (c, 1)
  | .start c => some (c, 2)
  | .patch c => some (c, 3)
  | .stop c => some (c, 4)
  | .resume c => some (c, 5)
  | .unload c => some (c, 6)
  | .queryErrorCounters c => q c (fun n => n / 2 ^ 24 == 1)
  | .querySleepCounter c => q c (fun n => n == 0x02000041)
  | .queryLaneCycleBin c => q c (fun n => n / 2 ^ 24 == 2 && n != 0x02000041)
  | .querySetBin c => q c (fun n => n / 2 ^ 24 == 3)
  | .queryRegion c => q c (fun n => n / 2 ^ 24 == 4)
  | .query c => q c (fun n => n / 2 ^ 24 == 0 || decide (5 ≤ n / 2 ^ 24))
  | _ => none

/-- Whether a word is a block identifier of 21 Table 21-3: the kind, the die, the index and, for an array, the column. -/
def isBlock21 (id : Nat) : Prop :=
  let kind := id / 2 ^ 16 % 16
  let die := id / 2 ^ 14 % 4
  let index := id / 2 ^ 8 % 64
  let sub := id % 2 ^ 8
  id < 2 ^ 20 ∧ kind ≤ 11 ∧ (if kind = 0 then sub ≤ 131 else sub = 0) ∧
    (if kind ≤ 3 then index < 56 else if kind = 4 then index ≤ 7 else if kind = 8 then index ≤ 2
     else if kind = 10 then die = 0 ∧ index ≤ 16 else index = 0)

/-- The counters of a block, and of an array whatever the column (21 R336). -/
def countersOf (d : Device) (id : Nat) : Counters :=
  tableGet { corrected := 0, replays := 0, uncorrectable := 0 } d.counters (id - id % 256)

/-! ## Debug targets (22 R339, R345) -/

/-- A debug command finds its target: the boot has ended, no STOPWG is in progress, and the block's tag and ordinal name a placed
workgroup. -/
structure Targeted (d : Device) (c : BitVec 6) (cmd : BitVec 4) (w : Workgroup) : Prop where
  booted : d.boot.step = 15 ∧ d.boot.halt = false
  idle : ∀ x ∈ d.wgs, x.ctx = c → x.gone = false → ¬ (x.stopped.st = 1 ∧ x.stopped.cause = 1)
  named : (d.wgs.filter (fun x => x.ctx == c && !x.gone)).find? (fun x =>
    x.tag == (d.ctx c).dbgBlock.wtag && x.ordinal == (d.ctx c).dbgBlock.word) = some w

/-- A device with the debug block of a context changed. -/
def withDebug (d : Device) (c : BitVec 6) (f : Debug → Debug) : Device := d.modCtx c (fun x => { x with dbgBlock := f x.dbgBlock })

/-! ## Held arrivals (22 R352, R353) -/

/-- Some requests retire one after another, those that are left when their turn comes. -/
def RetireInOrder : List Request → Device → Device → Prop
  | [], d, e => e = d
  | r :: l, d, e =>
    match d.request r.id with
    | some x => RetireInOrder l (d.retireRequest x) e
    | none => RetireInOrder l d e

/-- The closed batches of some agents arrive one after another. -/
def BatchesInOrder : List (Nat × Nat × Bool) → Device → Device → Prop
  | [], d, e => e = d
  | p :: l, d, e => BatchesInOrder l (d.batches p.1 p.2.1 p.2.2) e

/-! ## Errors (21 R331, R333) -/

/-- A device with the counters of a block changed. -/
def counted (d : Device) (id : Nat) (f : Counters → Counters) : Device :=
  { d with counters := tableSet d.counters (id - id % 256) (f (countersOf d id)) }

/-- One more replay. -/
def replayed (n : Counters) : Counters := { n with replays := n.replays + 1 }

/-- One more uncorrectable error. -/
def uncorrected (n : Counters) : Counters := { n with uncorrectable := n.uncorrectable + 1 }

/-- A request that a transient fault can strike: its engine serves it and its work is not done, or that was so when its context
ended in this CYC (21 Table 21-3a). -/
def InFlight (d : Device) (r : Request) : Prop :=
  d.request r.id = some r ∧ d.canServe r = true ∧ r.done < r.total ∨
    d.request r.id = none ∧ d.released.find? (fun x => x.id == r.id && d.hasEngine x && decide (x.done < x.total)) = some r

/-- The operation that a transient fault strikes in a core's array, its own or, for a pair operation, its leader's: the one that
executes there in an active context, or one that did when its context ended in this CYC (21 Table 21-3a). -/
def Executes (d : Device) (core : BitVec 8) (op : MatOp) : Prop :=
  let late := d.releasedOps.find? (fun x => x.core == core || (x.sub == 1 && x.core + 1 == core))
  late = some op ∨ late = none ∧ d.executing core = some op ∧ (d.ctx op.ctx).state = .active

/-- What a transient fault of a request strikes: its own engine, or a link, port or translation unit that its burst crosses; and
the block that it is counted in (21 Table 21-2). -/
inductive Struck (d : Device) (r : Request) : FaultTarget → Nat → Prop where
  | burst (s e x) (h : r.work = .copy s e x) : Struck d r (.burst r.id) (d.requestBlock r)
  | route (m ws k n) (h : r.work = .route m ws k n) : Struck d r (.route r.id) (d.requestBlock r)
  | crossing (b : Word) (h : isBlock21 b.toNat) (kind : b.toNat / 2 ^ 16 = 6 ∨ b.toNat / 2 ^ 16 = 9 ∨ b.toNat / 2 ^ 16 = 10) :
      Struck d r (.crossing r.id b) b.toNat

/-! ## Boot (24 Table 24-1) -/

/-- The cores that a boot leaves enabled: of the 56 positions of each die those that are neither fenced nor fail their test. -/
def bootCores (b : BootInputs) : List (BitVec 8) :=
  (List.range 4).flatMap (fun die => ((List.range 56).map (fun i => BitVec.ofNat 8 (64 * die + i))).filter (fun c =>
    !b.fenced.contains c && !b.selfTestFailed.contains c))

/-- Every die keeps at least 48 cores and 24 pairs. -/
def EnoughCores (l : List (BitVec 8)) : Prop :=
  ∀ die, die < 4 →
    let cores := l.filter (fun c => c.toNat / 64 == die)
    48 ≤ cores.length ∧ 24 ≤ (cores.filter (fun c => c.toNat % 2 == 0 && cores.contains (c + 1))).length

/-- The first boot step that finds a fault, if one does. -/
def bootHalt (b : BootInputs) : Option (BitVec 4) :=
  if b.firmwareOk = false then some 2
  else if b.policyOk = false then some 3
  else if b.stacksOk.length ≠ 12 ∨ false ∈ b.stacksOk then some 4
  else if b.repairOk = false ∨ repairForm b.remapped = false then some 5
  else if enoughCores (bootCores b) = false then some 6
  else none

end Sys2Proof.Claims
end

