-- ==== Sys2Proof/Safety/Registers.lean ====
section
/-! DEFINITION. What the entries of the integer, floating and lane-exchange families say (05), as tables from an instruction to
its operand spans and its result: written from the spec's formulas, apart from the meanings of the machine. -/

namespace Sys2Proof.Claims

open Sys2Proof Sys2Proof.Machine

/-! ## Register results of the integer family (05 R99 to R110) -/

/-- A lane-wise result as an entry of the spec gives it: the source spans, the destination slice and width in bits, the
value that each active lane of a group writes, and the operation result tag (01 R27; 05 R97). -/
structure LaneOp where
  srcs : List (Nat × Nat)
  d : Nat
  w : Nat
  val : View → Nat → Nat
  tag : View → OpTag

/-! ## Operation result tags (01 R26, R27; 05 R97, Table 05-2) -/

/-- Whether every source of an operation is U; each is a slice and a width in bits (01 R25). What a misaligned or narrow source
needs to count as U, and that a source under an override counts by the cells it touches, is the model's reading (log entry 17). -/
def allUniform (srcs : List (Nat × Nat)) (v : View) : Bool := srcs.all (fun p => v.isU p.1 p.2)

/-- The rule of R27 for a lane-wise operation at width 32 or less: U from U sources, and G otherwise. -/
def laneTag (srcs : List (Nat × Nat)) (v : View) : OpTag := if allUniform srcs v then .u else .g

/-- A result tag that an entry states, with whether the sources are all U: a U whose sources are not all U leaves G in the cells
that a write of 64 or 128 bits covers whole (01 Table 01-3). -/
def statedTag (t : OpTag) (all : Bool) : OpTag :=
  match t with
  | .u => if all then .u else .mixed
  | t => t

/-- IADD on an affine and a uniform value (01 R27). -/
def addTag (a b : OpTag) (x y : Word) : OpTag :=
  match a, b with
  | .a p q, .u => .a (p + y) q
  | .u, .a p q => .a (x + p) q
  | _, _ => .g

/-- ISUB of a uniform from an affine value. -/
def subTag (a b : OpTag) (_ y : Word) : OpTag :=
  match a, b with
  | .a p q, .u => .a (p - y) q
  | _, _ => .g

/-- IMUL of an affine and a uniform value. -/
def mulTag (a b : OpTag) (x y : Word) : OpTag :=
  match a, b with
  | .a p q, .u => .a (p * y) (q * y)
  | .u, .a p q => .a (x * p) (x * q)
  | _, _ => .g

/-- SHL of an affine value by a uniform amount. -/
def shlTag (a b : OpTag) (_ y : Word) : OpTag :=
  match a, b with
  | .a p q, .u => .a (p <<< y.toNat) (q <<< y.toNat)
  | _, _ => .g

/-- No affine rule. -/
def noTag (_ _ : OpTag) (_ _ : Word) : OpTag := .g

/-- A source of an integer operation read at width 32: its value in lane 0, extended. -/
def word32 (v : View) (s w : Nat) (sgn : Bool) : Word := BitVec.ofInt 32 (extI (v.read 0 s w) w sgn)

/-- Source a of a word, as the exact integer that the entry reads (05 R98, `ext`). -/
def srcA (h : Hdr) (w : BitVec 3) (a : BitVec 7) (sgn : Bool) (v : View) (i : Nat) : Int :=
  extI (v.read i (h.a a) (h.widthA w)) (h.widthA w) sgn

/-- Source b of a word. -/
def srcB (h : Hdr) (w : BitVec 3) (b : BitVec 7) (sgn : Bool) (v : View) (i : Nat) : Int :=
  extI (v.read i (h.b b) (h.widthB w)) (h.widthB w) sgn

/-- The slices and widths of sources a and b. -/
def bothOf (h : Hdr) (w : BitVec 3) (a b : BitVec 7) : List (Nat × Nat) := [(h.a a, h.widthA w), (h.b b, h.widthB w)]

/-- The tag of an operation into `wd` bits that may be one which the rules of R27 exclude, one with .sat or one that leaves a cell
at an operation width above 32 (01 R20; log entry 17): G, but of U sources U in the cells that a write of 64 or 128 bits covers
whole (01 Table 01-3). -/
def satTag (h : Hdr) (wd : Nat) (srcs : List (Nat × Nat)) (rest : View → OpTag) (v : View) : OpTag :=
  if h.sat = true ∨ (wd = 32 ∧ ∃ p ∈ srcs, 32 < p.2) then (if allUniform srcs v then .flat else .g) else rest v

/-- The three-operand form: slices d, a and b at their widths. -/
def three (h : Hdr) (w : BitVec 3) (d a b : BitVec 7) (val : View → Nat → Nat) : LaneOp :=
  { srcs := [(h.a a, h.widthA w / 4), (h.b b, h.widthB w / 4)], d := h.d d, w := widthOf w, val := val,
    tag := satTag h (widthOf w) (bothOf h w a b) (laneTag (bothOf h w a b)) }

/-- The two-operand form: slices d and a. -/
def two (h : Hdr) (w : BitVec 3) (d a : BitVec 7) (val : View → Nat → Nat) : LaneOp :=
  { srcs := [(h.a a, h.widthA w / 4)], d := h.d d, w := widthOf w, val := val,
    tag := satTag h (widthOf w) [(h.a a, h.widthA w)] (laneTag [(h.a a, h.widthA w)]) }

/-- The tag of an operation with an affine rule: U sources give U, the rule holds at operation width 32 (01 R20), and every other
case gives G (01 R27). -/
def affineTag (h : Hdr) (w : BitVec 3) (a b : BitVec 7) (sa sb : Bool) (rule : OpTag → OpTag → Word → Word → OpTag) (v : View) :
    OpTag :=
  if allUniform (bothOf h w a b) v then .u
  else if max (widthOf w) (max (h.widthA w) (h.widthB w)) = 32 ∧ widthOf w = 32 then
    rule (v.tag (h.a a) (h.widthA w)) (v.tag (h.b b) (h.widthB w)) (word32 v (h.a a) (h.widthA w) sa)
      (word32 v (h.b b) (h.widthB w) sb)
  else .g

/-- The same for an immediate in place of b, which counts as U. -/
def affineImm (h : Hdr) (w : BitVec 3) (a : BitVec 7) (rule : OpTag → OpTag → Word → Word → OpTag) (imm : Word) (v : View) :
    OpTag :=
  if v.isU (h.a a) (h.widthA w) then (if widthOf w = 32 ∧ 32 < h.widthA w then .flat else .u)
  else if max (widthOf w) (h.widthA w) = 32 ∧ widthOf w = 32 then rule (v.tag (h.a a) (h.widthA w)) .u 0 imm
  else .g

/-- Whether a source is read signed: x, or EXT.as and EXT.bs under an override (05 R100). -/
def signA (h : Hdr) (x : Bool) : Bool := if h.e.wo then h.e.sa else x

/-- The same for source b. -/
def signB (h : Hdr) (x : Bool) : Bool := if h.e.wo then h.e.sb else x

/-- Without .sat the low bits of the exact result; with it, the result clamped to the range that `x` names (05 R100). -/
def narrow (h : Hdr) (x : Bool) (w : Nat) (r : Int) : Nat :=
  if h.sat then
    (if x then lowI (min (max r (-(2 ^ (w - 1) : Nat))) ((2 ^ (w - 1) : Nat) - 1)) w
     else lowI (min (max r 0) ((2 ^ w : Nat) - 1)) w)
  else lowI r w

/-- Table 05-4: an operation on the exact integers a, b and, for IMAD and ISAD, the addend c in d. -/
def arith (h : Hdr) (w : BitVec 3) (d a b : BitVec 7) (x : Bool) (f : Nat → Int → Int → Int → Int)
    (rule : OpTag → OpTag → Word → Word → OpTag) : LaneOp :=
  { three h w d a b (fun v i =>
      narrow h x (widthOf w)
        (f (max (widthOf w) (max (h.widthA w) (h.widthB w))) (srcA h w a (signA h x) v i) (srcB h w b (signB h x) v i)
          (extI (v.read i (h.d d) (widthOf w)) (widthOf w) x))) with
    tag := satTag h (widthOf w) (bothOf h w a b) (affineTag h w a b (signA h x) (signB h x) rule) }

/-- IMAD and ISAD: d is a source too. -/
def withAddend (h : Hdr) (w : BitVec 3) (d a b : BitVec 7) (op : LaneOp) : LaneOp :=
  let srcs := bothOf h w a b ++ [(h.d d, widthOf w)]
  { op with tag := satTag h (widthOf w) srcs (laneTag srcs) }

/-- R101: each bit from the two's complement of the extended sources. -/
def bitwise (h : Hdr) (w : BitVec 3) (d a b : BitVec 7) (f : Bool → Bool → Bool) : LaneOp :=
  three h w d a b (fun v i =>
    ofBits (widthOf w) (fun j => f (intBit (srcA h w a h.e.sa v i) j) (intBit (srcB h w b h.e.sb v i) j)))

/-- The low `n` bits of a number (05 R98, `low`). -/
def low (v n : Nat) : Nat := v % 2 ^ n

/-- The tag that SEL takes over from the source it selects (05 Table 05-2). -/
def sourceTag (v : View) (s w : Nat) : OpTag := if s % 8 = 0 ∧ w = 32 then v.tag s w else if v.isU s w then .u else .g

/-- Table 05-4 and R101 to R110: the register results of the integer family. -/
def integerResult (i : Instr) : Option LaneOp :=
  match i with
  | .iadd h w d a b x => some (arith h w d a b x (fun _ a b _ => a + b) addTag)
  | .isub h w d a b x => some (arith h w d a b x (fun _ a b _ => a - b) subTag)
  | .imul h w d a b x => some (arith h w d a b x (fun _ a b _ => a * b) mulTag)
  | .imulh h w d a b x => some (arith h w d a b x (fun w a b _ => a * b / (2 ^ w : Nat)) noTag)
  | .imad h w d a b x => some (withAddend h w d a b (arith h w d a b x (fun _ a b c => a * b + c) noTag))
  | .imin h w d a b x => some (arith h w d a b x (fun _ a b _ => if a ≤ b then a else b) noTag)
  | .imax h w d a b x => some (arith h w d a b x (fun _ a b _ => if b ≤ a then a else b) noTag)
  | .isad h w d a b x => some (withAddend h w d a b (arith h w d a b x (fun _ a b c => |a - b| + c) noTag))
  | .and h w d a b => some (bitwise h w d a b (fun p q => p && q))
  | .or h w d a b => some (bitwise h w d a b (fun p q => p || q))
  | .xor h w d a b => some (bitwise h w d a b (fun p q => p != q))
  | .andn h w d a b => some (bitwise h w d a b (fun p q => p && !q))
  | .shl h w d a b =>
    some { three h w d a b (fun v i =>
        let r := v.read i (h.a a) (h.widthA w) * 2 ^ v.read i (h.b b) (h.widthB w)
        if h.sat ∧ 2 ^ widthOf w ≤ r then 2 ^ widthOf w - 1 else low r (widthOf w)) with
      tag := satTag h (widthOf w) (bothOf h w a b) (affineTag h w a b false false shlTag) }
  | .shr h w d a b x =>
    some (three h w d a b (fun v i =>
      lowI (srcA h w a x v i / (2 ^ v.read i (h.b b) (h.widthB w) : Nat)) (widthOf w)))
  | .rotl h w d a b =>
    some (three h w d a b (fun v i =>
      let p := low (v.read i (h.a a) (h.widthA w)) (widthOf w)
      let n := v.read i (h.b b) (h.widthB w) % widthOf w
      low (p * 2 ^ n) (widthOf w) + p / 2 ^ (widthOf w - n)))
  | .bfe h w d a b x =>
    some (three h w d a b (fun v i =>
      let ctl := v.read i (h.b b) (h.widthB w)
      let p := ctl % 256
      let l := ctl / 256 % 256
      let f := v.read i (h.a a) (h.widthA w) / 2 ^ p % 2 ^ l
      lowI (if x ∧ 0 < l ∧ 2 ^ (l - 1) ≤ f then (f : Int) - (2 ^ l : Nat) else f) (widthOf w)))
  | .bfi h w d a b =>
    some (withAddend h w d a b (three h w d a b (fun v i =>
      let ctl := v.read i (h.b b) (h.widthB w)
      let p := ctl % 256
      let l := ctl / 256 % 256
      ofBits (widthOf w) (fun j =>
        if p ≤ j ∧ j < p + l then (v.read i (h.a a) (h.widthA w)).testBit (j - p)
        else (v.read i (h.d d) (widthOf w)).testBit j))))
  | .sel h k d a b =>
    let w := if h.e.wo then widthOf h.e.aw else 32
    some { srcs := [(h.a a, w / 4), (h.b b, w / 4)], d := h.d d, w := w,
           val := fun v i => if (v.mask k).getLsbD i then v.read i (h.a a) w else v.read i (h.b b) w
           tag := fun v =>
             let all := allUniform [(h.a a, w), (h.b b, w)] v
             if all = true ∧ v.read 0 (h.a a) w = v.read 0 (h.b b) w then .u
             else if v.mask k &&& v.grp.present = v.grp.present then statedTag (sourceTag v (h.a a) w) all
             else if v.mask k &&& v.grp.present = 0 then statedTag (sourceTag v (h.b b) w) all
             else .g }
  | .iabs h w d a => some (two h w d a (fun v i => narrow h true (widthOf w) |srcA h w a true v i|))
  | .ineg h w d a => some (two h w d a (fun v i => narrow h true (widthOf w) (-srcA h w a true v i)))
  | .not h w d a => some (two h w d a (fun v i => ofBits (widthOf w) (fun j => !intBit (srcA h w a h.e.sa v i) j)))
  | .popc h w d a =>
    some (two h w d a (fun v i =>
      low ((List.range (h.widthA w)).countP (fun j => (v.read i (h.a a) (h.widthA w)).testBit j)) (widthOf w)))
  | .clz h w d a =>
    some (two h w d a (fun v i =>
      let p := v.read i (h.a a) (h.widthA w)
      low (if p = 0 then h.widthA w else h.widthA w - 1 - Nat.log2 p) (widthOf w)))
  | .brev h w d a =>
    some (two h w d a (fun v i => ofBits (widthOf w) (fun j => intBit (srcA h w a h.e.sa v i) (widthOf w - 1 - j))))
  | .mov h w d a =>
    some { two h w d a (fun v i => lowI (srcA h w a h.e.sa v i) (widthOf w)) with
      tag := fun v => if widthOf w = 32 ∧ h.widthA w = 32 then v.tag (h.a a) 32
                      else satTag h (widthOf w) [(h.a a, h.widthA w)] (laneTag [(h.a a, h.widthA w)]) v }
  | .tag h w d a =>
    some { srcs := [(h.a a, 8 * (widthOf w / 2))], d := h.d d, w := widthOf w,
           val := fun v _ => ((List.range (widthOf w / 2)).map (fun j => (cellAt v.grp.cells (h.a a / 8 + j)).code * 4 ^ j)).sum
           tag := fun v => statedTag .u (v.isU (h.a a) (16 * widthOf w)) }
  | .iaddi h w d a im =>
    some { two h w d a (fun v i => lowI (srcA h w a h.e.sa v i + h.imm8 im true) (widthOf w)) with
      tag := affineImm h w a addTag (BitVec.ofInt 32 (h.imm8 im true)) }
  | .shli h w d a n =>
    some { two h w d a (fun v i => low (v.read i (h.a a) (h.widthA w) * 2 ^ n.toNat) (widthOf w)) with
      tag := affineImm h w a shlTag (BitVec.ofNat 32 n.toNat) }
  | .shri h w d a x n =>
    some { two h w d a (fun v i => lowI (srcA h w a x v i / (2 ^ n.toNat : Nat)) (widthOf w)) with
      tag := affineImm h w a noTag 0 }
  | .andi h w d a im =>
    some { two h w d a (fun v i =>
        ofBits (widthOf w) (fun j => intBit (srcA h w a h.e.sa v i) j && intBit (h.imm8 im false) j)) with
      tag := affineImm h w a noTag 0 }
  | .movi h d im =>
    let w := if h.e.wo then widthOf h.e.aw else 32
    some { srcs := [], d := h.d d, w := w, val := fun _ _ => lowI (h.imm18 im) w, tag := fun _ => .u }
  | .movhi h d im => some { srcs := [(h.d d, 8)], d := h.d d + 4, w := 16, val := fun _ _ => im.toNat, tag := fun _ => .u }
  | _ => none

/-! ## Special values (01 Table 01-8; 05 R108) -/

/-- The value of a special for lane `i` (01 Table 01-8). -/
def specialValue (v : View) (n i : Nat) : Nat :=
  match n with
  | 0x00 => i
  | 0x01 => (v.grp.lbr.getD i 0).toNat
  | 0x02 => (v.grp.link.getD i 0).toNat
  | 0x03 => v.wid i
  | 0x04 => v.laneInGroup i
  | 0x05 => v.widField i 1
  | 0x06 => v.widField i 2
  | 0x07 => v.widField i 3
  | 0x08 => v.widField i 4
  | 0x09 => v.widField i 5
  | 0x0A => v.agent.seg.toNat
  | 0x0B => v.dev.cyc.toNat
  | 0x0C => v.grp.core.toNat
  | 0x0D => v.grp.part.toNat
  | 0x0E => v.ctx.fmode.toNat
  | 0x0F => v.ctx.fflags.toNat
  | 0x10 => v.agent.tcause.toNat
  | _ => v.ctx.layer.toNat

/-- The tag that RDSP gives a special (01 Table 01-8): %lane and %wid.f0 are affine, the others U or G. That %wid.f0 has the base
of its half in mode 16, and 32 in the upper hardware group of a pair, is the model's choice (log entry 4). -/
def specialTag (v : View) (n : Nat) : OpTag :=
  match n with
  | 0x00 => .a 0 1
  | 0x01 | 0x02 | 0x03 => .g
  | 0x04 => .a (if v.half then -16 else if v.grp.pair = some true then 32 else 0) 1
  | _ => .u

/-- Whether a value lies in the range of a writable special (01 Table 01-8; 16 R280 for %seg in mode 16). -/
def specialInRange (v : View) (n x : Nat) : Prop :=
  match n with
  | 0x02 => x < 4096
  | 0x0A => (x = 2 ∨ x = 4 ∨ x = 8 ∨ x = 16 ∨ x = 32) ∧ (v.kern.wmode = 0 → x ≤ 16)
  | 0x0E => x < 4
  | 0x0F => x < 32
  | _ => x < 2 ^ 32

/-- A special written with a value: %link in every active lane, %seg of the agent, the others of the context. -/
def putSpecial (s : State) (v : View) (n x : Nat) (lanes : Word) : State :=
  match n with
  | 0x02 => s.modGroup v (fun g => { g with
      link := allLanes.map (fun i => if hasLane lanes i then BitVec.ofNat 12 x else g.link.getD i 0) })
  | 0x0A => s.modAgent v (fun a => { a with seg := BitVec.ofNat 32 x })
  | 0x0E => { s with dev := s.dev.modCtx v.c (fun c => { c with fmode := BitVec.ofNat 32 x }) }
  | 0x0F => { s with dev := s.dev.modCtx v.c (fun c => { c with fflags := BitVec.ofNat 32 x }) }
  | _ => { s with dev := s.dev.modCtx v.c (fun c => { c with layer := BitVec.ofNat 32 x }) }

/-! ## Lane exchange (05 R119 to R126) -/

/-- The first lane of the segment of lane `i`. -/
def base (v : View) (i : Nat) : Nat := i - i % v.agent.seg.toNat

/-- The active lanes that a reduction combines for lane `i`: those of its segment, up to the lane itself in a scan. -/
def combined (scan : Bool) (v : View) (act : Word) (i : Nat) : List Nat :=
  (List.range 32).filter (fun j => hasLane act j && base v j == base v i && (!scan || decide (j ≤ i)))

/-- An integer reduction of some operands of width `w` (05 R123). -/
def reduced (o : Nat) (l : List Int) (w : Nat) : Nat :=
  match o with
  | 0 => lowI l.sum w
  | 1 => lowI (l.min?.getD 0) w
  | 2 => lowI (l.max?.getD 0) w
  | 3 => ofBits w (fun j => l.all (fun x => intBit x j))
  | 4 => ofBits w (fun j => l.any (fun x => intBit x j))
  | _ => ofBits w (fun j => l.countP (fun x => intBit x j) % 2 == 1)

/-- The lane whose data a push gives to lane `t`, if any: the highest active lane that names it (05 R120). -/
def pusher (v : View) (act : Word) (b wb t : Nat) : Option Nat :=
  ((List.range 32).filter (fun i => hasLane act i && base v i + v.read i b wb % v.agent.seg.toNat == t)).getLast?

/-- The lanes that a push writes: active, and named by an active lane. -/
def pushed (v : View) (act : Word) (b wb : Nat) : Word :=
  maskOf (fun t => hasLane act t && (pusher v act b wb t).isSome)

/-- The tag of a reduction: U when the segment is the whole group (05 Table 05-2). -/
def reduTag (s w : Nat) (v : View) : OpTag := statedTag (if v.agent.seg = 32 then .u else .g) (v.isU s w)

/-- The lane-exchange and codebook instructions that write one value per active lane (05 R118 to R121, R123, R124, R126), and
RDSP. -/
def exchangeResult (i : Instr) : Option LaneOp :=
  let act (v : View) : Word := Instr.lanes i v
  match i with
  | .rdsp h w d n =>
    some { srcs := [], d := h.d d, w := widthOf w, val := fun v j => low (specialValue v n.toNat j) (widthOf w),
           tag := fun v => specialTag v n.toNat }
  | .cbx h w d a sc =>
    some { srcs := [(h.a a, widthOf w / 4)], d := h.d d, w := 4 * widthOf w,
           val := fun v j => ofBits (4 * widthOf w) (fun q =>
             ((codebook v.grp.cb0 v.grp.cb1 sc.toNat).getD (v.read j (h.a a + q / 16) 4) 0).getLsbD (q % 16)),
           tag := laneTag [(h.a a, widthOf w)] }
  | .shfl h w d a b =>
    some { srcs := [(h.a a, widthOf w / 4), (h.b b, h.widthB w / 4)], d := h.d d, w := widthOf w,
           val := fun v j => v.read (base v j + v.read j (h.b b) (h.widthB w) % v.agent.seg.toNat) (h.a a) (widthOf w),
           tag := fun v => if v.isU (h.a a) (widthOf w) then statedTag .u (v.isU (h.b b) (h.widthB w)) else .g }
  | .shflx h w d a m =>
    some { srcs := [(h.a a, widthOf w / 4)], d := h.d d, w := widthOf w,
           val := fun v j =>
             v.read (base v j + (j % v.agent.seg.toNat ^^^ m.toNat % v.agent.seg.toNat)) (h.a a) (widthOf w)
           tag := laneTag [(h.a a, widthOf w)] }
  | .reduInt h w d a o x =>
    some { srcs := [(h.a a, widthOf w / 4)], d := h.d d, w := widthOf w,
           val := fun v j => reduced o.toNat
             ((combined false v (act v) j).map (fun n => extI (v.read n (h.a a) (widthOf w)) (widthOf w) x)) (widthOf w)
           tag := reduTag (h.a a) (widthOf w) }
  | .scanInt h w d a o x =>
    some { srcs := [(h.a a, widthOf w / 4)], d := h.d d, w := widthOf w,
           val := fun v j => reduced o.toNat
             ((combined true v (act v) j).map (fun n => extI (v.read n (h.a a) (widthOf w)) (widthOf w) x)) (widthOf w)
           tag := fun _ => .g }
  | .seg h w d =>
    some { srcs := [], d := h.d d, w := widthOf w, val := fun v j => low (j % v.agent.seg.toNat) (widthOf w),
           tag := fun v => if v.agent.seg = 32 then .a 0 1 else .g }
  | _ => none

/-! ## Masks (05 R105, R109, R114, R122) -/

/-- Table 04-3: an integer condition. -/
def condition (q : Nat) (a b : Int) : Bool :=
  match q with
  | 0 => a == b
  | 1 => a != b
  | 2 | 6 => decide (a < b)
  | 3 | 7 => decide (a ≤ b)
  | 4 | 8 => decide (a > b)
  | _ => decide (a ≥ b)

/-- Whether a condition compares signed. -/
def signedCond (q : Nat) : Bool := q == 2 || q == 3 || q == 4 || q == 5

/-- The compares that write the active lanes' bits of one mask: the spans read, the mask, each lane's bit and the
flags it raises. -/
def compareResult (i : Instr) : Option (List (Nat × Nat) × BitVec 3 × (View → Nat → Bool × Nat)) :=
  match i with
  | .icmp h w k q a b =>
    some ([(h.a a, h.widthA w / 4), (h.b b, h.widthB w / 4)], k, fun v j =>
      (condition q.toNat (srcA h w a (signedCond q.toNat) v j) (srcB h w b (signedCond q.toNat) v j), 0))
  | .icmpi h w k q a im =>
    some ([(h.a a, h.widthA w / 4)], k, fun v j =>
      (condition q.toNat (srcA h w a (signedCond q.toNat) v j) (h.imm8 im (signedCond q.toNat)), 0))
  | .fcmp h w k q a b =>
    some ([(h.a a, typeWidth (h.typeA w) / 4), (h.b b, typeWidth (h.typeB w) / 4)], k, fun v j =>
      condFloat q.toNat (typeFmt (h.typeA w)) (typeFmt (h.typeB w)) (v.read j (h.a a) (typeWidth (h.typeA w)))
        (v.read j (h.b b) (typeWidth (h.typeB w))))
  | _ => none

/-- The votes that give the active lanes' bits of one mask: each active lane's bit speaks for the active lanes of its segment. -/
def voteResult (i : Instr) : Option (List (Nat × Nat) × BitVec 3 × (View → Nat → Bool)) :=
  let act (v : View) : Word := Instr.lanes i v
  match i with
  | .voteAny h w k a =>
    some ([(h.a a, widthOf w / 4)], k, fun v j =>
      (combined false v (act v) j).any (fun n => v.read n (h.a a) (widthOf w) != 0))
  | .voteAll h w k a =>
    some ([(h.a a, widthOf w / 4)], k, fun v j =>
      (combined false v (act v) j).all (fun n => v.read n (h.a a) (widthOf w) != 0))
  | _ => none

/-- The active lanes whose operand is not zero. -/
def nonzero (v : View) (act : Word) (a w : Nat) : Word := maskOf (fun j => hasLane act j && v.read j a w != 0)

/-- The flags that the active lanes of an operation raise, ORed. -/
def flagsOf (lanes : Word) (f : Nat → Nat) : Nat :=
  (List.range 32).foldl (fun acc j => acc ||| if hasLane lanes j then f j else 0) 0

/-- The effect on one group of writing some lanes of a mask: every other lane, mask and register stays. -/
def WroteMask (lanes : View → Word) (k : BitVec 3) (f : View → Nat → Bool) (v : View) (s t : State) : Prop :=
  t = s.modGroup v (fun g => { g with
    masks := modAt g.masks k.toNat (fun old => maskOf (fun j => if hasLane (lanes v) j then f v j else hasLane old j)) })

/-- The effect on one group of a compare: the active lanes' bits of the mask, and the flags ORed into %fflags (02 R45). -/
def Compared (lanes : View → Word) (k : BitVec 3) (f : View → Nat → Bool × Nat) (v : View) (s t : State) : Prop :=
  ∃ r, WroteMask lanes k (fun v j => (f v j).1) v s r ∧ t = r.raise v (flagsOf (lanes v) (fun j => (f v j).2))

/-- A mask of the group written whole. -/
def SetMask (k : BitVec 3) (m : View → Word) (v : View) (s t : State) : Prop :=
  t = s.modGroup v (fun g => { g with masks := setAt g.masks k.toNat (m v) })

/-! ## Floating point (05 R111 to R116, R123, R124) -/

/-- A floating result as its entry gives it: value and flags of each active lane, and the operation result tag (01 R27). -/
structure FloatOp where
  srcs : List (Nat × Nat)
  d : Nat
  w : Nat
  val : View → Nat → Rounded
  tag : View → OpTag

/-- The exact value of source a. -/
def valA (h : Hdr) (w : BitVec 3) (a : BitVec 7) (v : View) (j : Nat) : Val :=
  (typeFmt (h.typeA w)).value (v.read j (h.a a) (typeWidth (h.typeA w)))

/-- The exact value of source b. -/
def valB (h : Hdr) (w : BitVec 3) (b : BitVec 7) (v : View) (j : Nat) : Val :=
  (typeFmt (h.typeB w)).value (v.read j (h.b b) (typeWidth (h.typeB w)))

/-- The slices and widths of sources a and b. -/
def bothFloat (h : Hdr) (w : BitVec 3) (a b : BitVec 7) : List (Nat × Nat) :=
  [(h.a a, typeWidth (h.typeA w)), (h.b b, typeWidth (h.typeB w))]

/-- Three operands: `f` takes the destination format, the mode, and the exact values of a, b and d. -/
def float3 (h : Hdr) (w : BitVec 3) (d a b : BitVec 7) (f : FloatFmt → Rounding → Val → Val → Val → Rounded) : FloatOp :=
  { srcs := [(h.a a, typeWidth (h.typeA w) / 4), (h.b b, typeWidth (h.typeB w) / 4)], d := h.d d, w := typeWidth w,
    val := fun v j => f (typeFmt w) v.rounding (valA h w a v j) (valB h w b v j)
      ((typeFmt w).value (v.read j (h.d d) (typeWidth w)))
    tag := laneTag (bothFloat h w a b) }

/-- Two operands: `f` takes the view and the bits of a. -/
def float2 (h : Hdr) (w : BitVec 3) (d a : BitVec 7) (f : View → Nat → Rounded) : FloatOp :=
  { srcs := [(h.a a, typeWidth (h.typeA w) / 4)], d := h.d d, w := typeWidth w,
    val := fun v j => f v (v.read j (h.a a) (typeWidth (h.typeA w)))
    tag := laneTag [(h.a a, typeWidth (h.typeA w))] }

/-- A special function (02 R61, R62) of the bits of a. -/
def floatFn (fn : Config.Fn) (h : Hdr) (w : BitVec 3) (d a : BitVec 7) : FloatOp :=
  float2 h w d a (fun v x => specialFn fn (h.typeA w) w (BitVec.ofNat 2 v.ctx.fmode.toNat) (BitVec.ofNat 32 x) (typeFmt w)
    ((typeFmt (h.typeA w)).value x))

/-- The operands that a floating reduction or scan combines for a lane. -/
def floatOperands (scan : Bool) (h : Hdr) (w : BitVec 3) (a : BitVec 7) (v : View) (act : Word) (j : Nat) : List Val :=
  (combined scan v act j).map (fun n => (typeFmt w).value (v.read n (h.a a) (typeWidth w)))

/-- The floating results of 05 R112 to R116, R123 and R124. -/
def floatResult (i : Instr) : Option FloatOp :=
  let act (v : View) : Word := Instr.lanes i v
  match i with
  | .fadd h w d a b => some (float3 h w d a b (fun f r x y _ => finish f r (addExact r [x, y])))
  | .fsub h w d a b => some (float3 h w d a b (fun f r x y _ => finish f r (addExact r [x, y.negate])))
  | .fmul h w d a b => some (float3 h w d a b (fun f r x y _ => finish f r (mulExact x y)))
  | .ffma h w d a b =>
    some { float3 h w d a b (fun f r x y z =>
        finish f r ((addExact r [(mulExact x y).1, z]).1, (mulExact x y).2 ||| (addExact r [(mulExact x y).1, z]).2)) with
      tag := laneTag (bothFloat h w a b ++ [(h.d d, typeWidth w)]) }
  | .fmin h w d a b => some (float3 h w d a b (fun f r x y _ => fminmax false f r x y))
  | .fmax h w d a b => some (float3 h w d a b (fun f r x y _ => fminmax true f r x y))
  | .fabs h w d a =>
    some (float2 h w d a (fun v x =>
      fsign false (h.typeA w).toNat w.toNat (typeFmt (h.typeA w)) (typeFmt w) v.rounding x))
  | .fneg h w d a =>
    some (float2 h w d a (fun v x =>
      fsign true (h.typeA w).toNat w.toNat (typeFmt (h.typeA w)) (typeFmt w) v.rounding x))
  | .frnd h w d a => some (float2 h w d a (fun v x => fround (typeFmt w) v.rounding ((typeFmt (h.typeA w)).value x)))
  | .rcp h w d a => some (floatFn .rcp h w d a)
  | .rsqrt h w d a => some (floatFn .rsqrt h w d a)
  | .sqrt h w d a => some (floatFn .sqrt h w d a)
  | .exp2 h w d a => some (floatFn .exp2 h w d a)
  | .log2 h w d a => some (floatFn .log2 h w d a)
  | .sin h w d a => some (floatFn .sin h w d a)
  | .cos h w d a => some (floatFn .cos h w d a)
  | .tanh h w d a => some (floatFn .tanh h w d a)
  | .cvt h sf d a df r =>
    some { srcs := [(h.a a, fmtBits sf.toNat / 4)], d := h.d d, w := fmtBits df.toNat,
           val := fun v j => convert (if r = 0 then v.rounding else Rounding.ofCode (r.toNat - 1)) false sf.toNat df.toNat
             (v.read j (h.a a) (fmtBits sf.toNat))
           tag := laneTag [(h.a a, fmtBits sf.toNat)] }
  | .cvq h sf d a df r =>
    some { srcs := [(h.a a, fmtBits sf.toNat / 4)], d := h.d d, w := fmtBits df.toNat,
           val := fun v j => convert (if r = 0 then v.rounding else Rounding.ofCode (r.toNat - 1)) true sf.toNat df.toNat
             (v.read j (h.a a) (fmtBits sf.toNat))
           tag := laneTag [(h.a a, fmtBits sf.toNat)] }
  | .reduFloat h w d a o =>
    some { srcs := [(h.a a, typeWidth w / 4)], d := h.d d, w := typeWidth w,
           val := fun v j => reduFloat o.toNat (typeFmt w) v.rounding (floatOperands false h w a v (act v) j)
           tag := reduTag (h.a a) (typeWidth w) }
  | .scanFloat h w d a o =>
    some { srcs := [(h.a a, typeWidth w / 4)], d := h.d d, w := typeWidth w,
           val := fun v j => reduFloat o.toNat (typeFmt w) v.rounding (floatOperands true h w a v (act v) j)
           tag := fun _ => .g }
  | _ => none

/-- The effect on one group of an operation that raises flags: the values, then the flags ORed into %fflags (02 R45). -/
def WroteFloat (lanes : View → Word) (d w : Nat) (val : View → Nat → Rounded) (tag : View → OpTag) (v : View) (s t : State) :
    Prop :=
  ∃ r, WroteOne lanes d w (fun v j => (val v j).1) tag v s r ∧ t = r.raise v (flagsOf (lanes v) (fun j => (val v j).2))

end Sys2Proof.Claims
end

