-- ==== Sys2Proof/Safety/Save.lean ====
section
/-! DEFINITION. What a save and a restore keep (17 R303 to R306): hardware groups, workgroups and requests read back from their
records, apart from the meanings of the machine. -/

namespace Sys2Proof.Claims

open Sys2Proof Sys2Proof.Machine

/-! ## Group records (17 R305; 06 Table 06-6) -/

/-- A hardware group that its record has room for: at most 64 cells, depths of 16 bits, a spill area of 32 bits, and no half of a
group that is one of a pair. -/
structure Recordable (k : Kernel) (g : Group) : Prop where
  cells : g.cells.length ≤ 64
  depth0 : g.agent0.depth < 2 ^ 16
  depth1 : g.agent1.depth < 2 ^ 16
  caller : ∀ l, g.agent0.library = some l → l.depth < 2 ^ 16
  spill : g.spill < 2 ^ 32
  width : g.pair = some true → k.mode16 = false

/-- A group at another seat: a core, a partition, a slot and its generation. -/
def seated (g : Group) (core : BitVec 8) (part : BitVec 5) (rslot : Nat) (gen : BitVec 4) : Group :=
  { g with core := core, part := part, rslot := rslot, gen := gen }

/-- A group `h` that a record has restored as `g`: every lane of each cell with its tag, the masks, the declared codebooks, the
slots, the block registers; and all else of the group as it was, the parked and exited lanes, the stack depths, the trap
records and the counters among it. -/
structure GroupReadBack (k : Kernel) (g h : Group) : Prop where
  count : h.cells.length = g.cells.length
  cell : ∀ (n : Nat) (x : StoredCell), g.cells[n]? = some x → ∃ y, h.cells[n]? = some y ∧ y.evicted = x.evicted ∧ y.cell.code = x.cell.code ∧
    ∀ j, j < 32 → y.cell.lane j = x.cell.lane j
  masks : ∀ j, j < 8 → h.masks.getD j 0 = g.masks.getD j 0
  cb0 : k.cb0 = true → ∀ j, j < 16 → h.cb0.getD j 0 = g.cb0.getD j 0
  cb1 : k.cb1 = true → ∀ j, j < 16 → h.cb1.getD j 0 = g.cb1.getD j 0
  lbr : ∀ j, j < 32 → h.lbr.getD j 0 = g.lbr.getD j 0
  link : ∀ j, j < 32 → h.link.getD j 0 = g.link.getD j 0
  slot0 : slotParts h.slot0 = slotParts g.slot0
  slot1 : slotParts h.slot1 = slotParts g.slot1
  rest : h = { g with cells := h.cells, masks := h.masks, cb0 := h.cb0, cb1 := h.cb1, lbr := h.lbr, link := h.link,
                      slot0 := h.slot0, slot1 := h.slot1 }

/-! ## Workgroup records (17 Table 17-9) -/

/-- A workgroup that its record has room for: each live group, at most 32 barrier locks on different aligned objects, and the
sizes of the fields. -/
structure RecordableWorkgroup (k : Kernel) (w : Workgroup) : Prop where
  live : ∀ g ∈ w.groups, g.retired = false → Recordable k g
  kernel : w.kernel < 2 ^ 16
  groups : w.groups.length < 2 ^ 8
  size : k.recordSize w.coreCount w.groups.length < 2 ^ 32
  bars : w.bars.length ≤ 32
  apart : (w.bars.map (fun b => b.addr)).Nodup
  aligned : ∀ b ∈ w.bars, b.addr.toNat % 8 = 0

/-- A workgroup `w` that a record has restored at the place of `m`: its live groups, tiles and shared segments; all else, its
coordinate and barrier locks among it, as `m` has it. -/
structure WorkgroupReadBack (k : Kernel) (m w : Workgroup) : Prop where
  count : w.groups.length = m.groups.length
  group : ∀ (j : Nat) (g : Group), m.groups[j]? = some g → ∃ h, w.groups[j]? = some h ∧ if g.retired then h = g else GroupReadBack k g h
  tiles : ∀ q x, q < m.coreCount → x < 4096 * (k.tiles + if q = 0 then k.ptiles else 0) →
    Memory.byte (perCore w.tiles q) x = Memory.byte (perCore m.tiles q) x
  follower : ∀ x, 4096 * k.tiles ≤ x → x < 4096 * (k.tiles + k.ptiles) → Memory.byte w.follower x = Memory.byte m.follower x
  shared : ∀ q x, q < m.coreCount → x < k.shared → Memory.byte (perCore w.shared q) x = Memory.byte (perCore m.shared q) x
  rest : w = { m with groups := w.groups, tiles := w.tiles, follower := w.follower, shared := w.shared }

/-! ## Request records (17 R306) -/

/-- A request as its issue left its cells and its work (09 R200 to R202; 10 R222, R223), with its progress within its work. -/
inductive IssuedWork (r : Request) : Prop where
  | copy (x : Context) (skind dkind : BitVec 2) (xf : Nat) (src xfc dst : List Word) (s e : Endpoint) (t : Transform)
      (cells : r.cells = src ++ xfc ++ dst)
      (lengths : src.length = descriptorCells skind ∧ xfc.length = (if xf = 0 then 0 else 6) ∧ dst.length = descriptorCells dkind)
      (source : parseEndpoint x skind true src = some s) (dest : parseEndpoint x dkind false dst = some e)
      (transform : (if xf = 0 then some .plain else parseTransform xf xfc) = some t) (rules : copyRules s e t = true)
      (maps : ∀ y ∈ [s, e], y.boxed = true → MapOk y.map) (work : r.work = .copy s e t)
      (progress : r.done ≤ e.count ∧ r.done < 2 ^ 64)
  | route (m : BitVec 1024) (k depth : Nat) (five : r.cells.length = 5) (parsed : (parseRoute m r.cells).isSome = true)
      (work : r.work = .route m r.cells k depth)

end Sys2Proof.Claims
end

