-- ==== Sys2Proof/Certificates/Slice0/Obligations.lean ====
section
/-! DEFINITION. The statements for the provers. A statement of completion names the state that the instruction's own effect
leaves; the terms are those of `Sys2Proof/Safety.lean` and the files under `Sys2Proof/Safety/`. -/

open Sys2Proof Sys2Proof.Machine Sys2Proof.Claims

/-! ## Words (04 R78 to R91) -/

/-- 04 Tables 04-1, 04-2, 04-6 to 04-12: words written out from the spec's encodings decode to the instructions they stand for,
one of each format A3, A2, AI, I, Q and E, one with an EXT, one with a TAIL and one with both; a TAIL alone, an EXT before a
NOP and an unused major decode to nothing. -/
def Obligations.WordsDecode : Prop :=
  let h : Hdr := { chain := false, ext := none }
  let c : Hdr := { chain := true, ext := none }
  let read (ws : List Word) : Option Instr := (decodeItem 0 ws).bind (fun it => if it.reject = none then it.instr else none)
  read [0x03500820] = some (.iadd h 5 32 8 16 false) ∧
  read [0x27510820] = some (.icmp h 5 2 2 8 16) ∧
  read [0x34400028] = some (.movi h 16 40) ∧
  read [0xAB4400FD] = some (.iaddi c 5 8 0 0xFD) ∧
  read [0x7F800000, 0x34001380] =
    some (.movi { h with ext := some { dh := 3, ah := 0, bh := 0, wo := false, aw := 0, bw := 0, sa := false, sb := false,
                                       pe := false, pk := 0, pn := false, ix := 0 } } 0 0x1380) ∧
  read [0x294C0800] = some (.iabs h 5 24 8) ∧
  read [0x6A200002] = some (.span h 2) ∧
  read [0x6400180A] = some (.barinit h 96 10) ∧
  read [0x62080004, 0x7CE00098] = some (.copy h 64 0 4 { skind := 1, dkind := 3, bq := 0, boff := 0x98 }) ∧
  read [0x7E200000, 0x66000020, 0x7C020000] =
    some (.mma { h with ext := some { dh := 0, ah := 1, bh := 0, wo := false, aw := 0, bw := 0, sa := false, sb := false,
                                      pe := false, pk := 0, pn := false, ix := 0 } } 0 0 32 0 true) ∧
  read [0x6A000000] = some (.nop false) ∧
  read [0x7C000000] = none ∧ read [0x7E000000, 0x6A000000] = none ∧ read [0x72000000] = none

/-- 04 R79, R85, R88: the decoder reads back every well-formed instruction word from the words that encode it, whatever follows
them: no field of an encoding is dropped, and EXT, main word and TAIL are taken together. -/
def Obligations.EncodeRoundTrip : Prop :=
  ∀ (i : Instr), i.isWord = true → i.wf = true → ∀ (off : Nat) (rest : List Word),
    ∃ it, decodeItem off (encode i ++ rest) = some it ∧ it.instr = some i ∧ it.reject = none ∧ it.start = off ∧
      it.len = (encode i).length ∧ it.chain = i.chain

/-- 04 R80: 0x6A000000 and 0xEA000000 are NOP; it has no pipe and no TAIL, an EXT before it and an operand that is not zero are
ILLEGAL, it may stand anywhere in a chain, at the packet's end only without a chain bit, and it changes no state. -/
def Obligations.NopWord : Prop :=
  (∀ (off : Nat) (rest : List Word),
    decodeItem off (0x6A000000 :: rest) =
      some { start := off, main := off, len := 1, chain := false, instr := some (.nop false), reject := none } ∧
    decodeItem off (0xEA000000 :: rest) =
      some { start := off, main := off, len := 1, chain := true, instr := some (.nop true), reject := none }) ∧
  (∀ (w : Word), w.isNop = true → ∀ (off : Nat) (rest : List Word),
    ((w.field 0 21) ≠ 0 → ∃ it, decodeItem off (w :: rest) = some it ∧ it.instr = none ∧ it.failing = some off) ∧
    (∀ e : Word, e.major = 0x3F → ∃ it, decodeItem off (e :: w :: rest) = some it ∧ it.instr = none ∧ it.failing = some off)) ∧
  (∀ (vs : List View) (items : List Item), (∃ it ∈ items, it.failing.isSome = true) →
    ∃ t n, chainCheck vs items = .trap t n ∧ t.cause = 0x01) ∧
  (∀ c, (Instr.nop c).pipe = none ∧ (Instr.nop c).tailWord = none ∧
    ∀ (it : Item) (earlier : List Item) (count : Nat) (vs : List View), it.instr = some (.nop c) → it.chain = c →
      (chainFails it earlier count vs = false ↔ c = false ∨ it.start + it.len < 3)) ∧
  (∀ (c : Bool) (s : State) (iss : Issue) (vs : List View), Issuing s iss vs → exec (.nop c) s = .next s)

/-- 04 R84, R370, R371; 01 R19: before an instruction word takes effect an ill-formed one raises ILLEGAL at its failing word,
one that its kernel or privilege does not admit ILLEGAL at its main word, and then one whose operands leave the slice budget
SRANGE with the start slice and the count of one such operand. -/
def Obligations.WordChecksFirst : Prop :=
  ∀ (i : Instr) (m : Meaning), meaningOf i = some m → ∀ (s : State) (iss : Issue) (vs : List View), Issuing s iss vs →
    (i.wf = false → exec i s = .next (s.trap iss i { cause := 0x01, detail := Instr.badWord i, lanes := none })) ∧
    (i.wf = true → (∃ v ∈ vs, m.illegal v = true) →
      exec i s = .next (s.trap iss i { cause := 0x01, detail := Instr.extLen i, lanes := none })) ∧
    (i.wf = true → (∀ v ∈ vs, m.illegal v = false) → ¬ InBudget vs m.spans →
      ∃ v ∈ vs, ∃ p ∈ m.spans, v.grp.budget < p.1 + p.2 ∧
        exec i s = .next (s.trap iss i { cause := 0x02, detail := p.1 + p.2 * 2 ^ 32, lanes := none }))

/-! ## Steps, reset and memory -/

/-- A step of a partition first brings back the cells that its groups' next chains miss (01 R30), and then issues the chain that
it picks, if its checks let it (a chain of NOPs alone issues nothing and is passed, 04 R81): one instruction is `exec` of that
instruction at the state in which the chain begins, finished as the chain ends; a chain issues only when each of its items is
the decoding of its words and is well formed (04 R79, R84, R370). Where no chain is ready the step is the partition's idle
clock. A device event at its turn and an input of the host are `exec` of it. -/
def Obligations.StepRunsDecoded : Prop :=
  ∀ (s : State), s.dev.powered = true →
    (∀ core part, s.turn = .partition core part →
      let ready := { s with dev := s.dev.refillWaiting core part }
      (ready.dev.pick core part = none → step s = stepped State.after (exec (.partitionClock core part) ready)) ∧
      ∀ rslot r, ready.dev.pick core part = some (rslot, r) → r.answer = .issue →
        (∀ v, r.views.head? = some v → r.items = chainItems v.packet (v.slot.addr.toNat % 12 / 4) 3) ∧
        (∀ it ∈ r.items, it.reject = none ∧ ∃ i, it.instr = some i ∧ i.wf = true) ∧
        ∀ it i d, r.items = [it] → it.instr = some i →
          Device.reach r.items r.views (match r.views with | v :: _ => ready.dev.cachePacket v | [] => ready.dev) = .ok d →
          let lone := (ready.dev.readyGroups core part).length == 1
          step s = stepped (fun t => (t.finish core part rslot r lone).after) (exec i (ready.begin r d))) ∧
    (∀ i, s.turn = .event i → isDeviceEvent i = true → step s = stepped State.after (exec i s)) ∧
    (∀ i rest, s.turn = .host → s.inputs = i :: rest → isInput i = true →
      step s = stepped State.after (exec i { s with inputs := rest }))

/-- Between steps no chain is in issue: from every state in which none is, a step that answers a next state answers one in which
none is (04 R84). -/
def Obligations.StepKeepsSettled : Prop := ∀ (s t : State), s.Settled → step s = .next t → t.Settled

/-- 24 R366; 17 R287; 15 R253: right after reset CYC is 0, boot step 1 runs, with what its steps find yet to be given, every
context number holds no context, no core is enabled and nothing is placed, queued, locked or cached; no chain is in issue, and
the host's commands are dropped until the boot has ended. What the spec states no reset value for is the model's choice (log
entry 3). -/
def Obligations.ResetState : Prop :=
  let d := State.reset.dev
  d.cyc = 0 ∧ d.boot = { step := 1, halt := false, found := none } ∧ (∀ c, (d.ctx c).state = .free) ∧ d.enabled = [] ∧ d.wgs = [] ∧
    d.requests = [] ∧ d.matrix = [] ∧ d.locks = [] ∧ d.writes = [] ∧ d.tlb = [] ∧ d.packets = [] ∧ d.accs = [] ∧
    State.reset.Settled ∧ Memory.wf d.hbm = true ∧ Memory.wf d.spad = true ∧
    ∀ c, exec (.load c) State.reset = .next State.reset ∧ exec (.start c) State.reset = .next State.reset

/-- 02 R39: a little-endian number written to memory reads back, every byte outside it reads as before; and two memories in
canonical form that read alike are the same. -/
def Obligations.MemoryReadsBack : Prop :=
  (∀ (m : Memory) (a n v : Nat), Memory.num (Memory.putNum m a n v) a n = v % 256 ^ n ∧
    ∀ b, (b < a ∨ a + n ≤ b) → Memory.byte (Memory.putNum m a n v) b = Memory.byte m b) ∧
  (∀ (m₁ m₂ : Memory), Memory.wf m₁ = true → Memory.wf m₂ = true → (∀ a, Memory.byte m₁ a = Memory.byte m₂ a) → m₁ = m₂)

/-! ## The integer, exchange and floating families (05) -/

/-- 05 R99 to R107, R109, R110: an instruction of the integer family that writes slices completes in every group it acts on,
whatever the width mode, and leaves in each active lane the value of its entry, and in the destination's cells the tag of 01
R27 and Table 01-3. 05 R108, R118 to R121, R123, R124, R126: RDSP, CBX, SHFL, SHFLX, SEG and the integer REDU and SCAN
complete and leave in each active lane the value of their entries, and the tag of Table 05-2 or Table 01-8. 05 R120: SHFLP
completes; it writes the active lanes that an active lane names, each with the data of the highest lane that names it, and
keeps every other lane. The model's readings of the tags: that %wid.f0 has the tag A(-16, 1) in the upper half of a group of
width mode 16 and A(32, 1) in the upper hardware group of a pair (log entry 4), and the tags of results with .sat, of narrow
sources and of cells written in part (log entry 17). -/
def Obligations.IntegerResults : Prop :=
  (∀ (i : Instr) (op : LaneOp), integerResult i = some op → i.wf = true →
     ∀ (s : State) (iss : Issue) (vs : List View), Issuing s iss vs → InBudget vs (op.srcs ++ [(op.d, op.w / 4)]) →
       Completes i s vs (WroteOne (Instr.lanes i) op.d op.w op.val op.tag)) ∧
  (∀ (i : Instr) (op : LaneOp), exchangeResult i = some op → i.wf = true →
     ∀ (s : State) (iss : Issue) (vs : List View), Issuing s iss vs → InBudget vs (op.srcs ++ [(op.d, op.w / 4)]) →
       Completes i s vs (WroteOne (Instr.lanes i) op.d op.w op.val op.tag)) ∧
  (∀ (h : Hdr) (w : BitVec 3) (d a b : BitVec 7), (Instr.shflp h w d a b).wf = true →
     ∀ (s : State) (iss : Issue) (vs : List View), Issuing s iss vs →
       InBudget vs [(h.a a, widthOf w / 4), (h.b b, h.widthB w / 4), (h.d d, widthOf w / 4)] →
       Completes (.shflp h w d a b) s vs
         (WroteOne (fun v => pushed v (Instr.lanes (.shflp h w d a b) v) (h.b b) (h.widthB w)) (h.d d) (widthOf w)
           (fun v t =>
             match pusher v (Instr.lanes (.shflp h w d a b) v) (h.b b) (h.widthB w) t with
             | some i => v.read i (h.a a) (widthOf w)
             | none => 0)
           (fun _ => .g)))

/-- 05 R105, R109, R114: ICMP, ICMPI and FCMP complete, write the active lanes' bits of their mask and keep the other lanes',
and raise no flag but NV of FCMP. 05 R122, R125: VOTE.ANY and VOTE.ALL give each active lane the answer of its segment;
VOTE.BAL writes the whole mask; NZSCAN writes ranks, counts and the mask of the nonzero lanes. That the last two write their
mask, to 0, when no lane is active is the model's choice (log entry 72). -/
def Obligations.CompareAndVote : Prop :=
  (∀ (i : Instr) (srcs : List (Nat × Nat)) (k : BitVec 3) (f : View → Nat → Bool × Nat), compareResult i = some (srcs, k, f) →
     i.wf = true → ∀ (s : State) (iss : Issue) (vs : List View), Issuing s iss vs → InBudget vs srcs →
       Completes i s vs (Compared (Instr.lanes i) k f)) ∧
  ((∀ (i : Instr) (srcs : List (Nat × Nat)) (k : BitVec 3) (f : View → Nat → Bool), voteResult i = some (srcs, k, f) →
     i.wf = true → ∀ (s : State) (iss : Issue) (vs : List View), Issuing s iss vs → InBudget vs srcs →
       Completes i s vs (WroteMask (Instr.lanes i) k f)) ∧
   (∀ (h : Hdr) (w k : BitVec 3) (a : BitVec 7), (Instr.voteBal h w k a).wf = true →
     ∀ (s : State) (iss : Issue) (vs : List View), Issuing s iss vs → InBudget vs [(h.a a, widthOf w / 4)] →
       CompletesAll (.voteBal h w k a) s vs (SetMask k (fun v => nonzero v (v.active h) (h.a a) (widthOf w)))) ∧
   (∀ (h : Hdr) (w : BitVec 3) (d a : BitVec 7) (k : BitVec 3), (Instr.nzscan h w d a k).wf = true →
     ∀ (s : State) (iss : Issue) (vs : List View), Issuing s iss vs →
       InBudget vs [(h.a a, widthOf w / 4), (h.d d, 2 * (widthOf w / 4))] →
       CompletesAll (.nzscan h w d a k) s vs (fun v s t =>
         let nz (v : View) : Word := nonzero v (v.active h) (h.a a) (widthOf w)
         ∃ r₁ r₂,
           WroteOne (fun v => v.active h) (h.d d) (widthOf w)
             (fun v j => ((combined false v (nz v) j).filter (fun n => decide (n < j))).length) (fun _ => .g) v s r₁ ∧
           WroteOne (fun v => v.active h) (h.d d + widthOf w / 4) (widthOf w)
             (fun v j => (combined false v (nz v) j).length) (reduTag (h.a a) (widthOf w)) v r₁ r₂ ∧
           SetMask k nz v r₂ t)))

/-- 05 R111 to R116, R123, R124: the floating instructions complete, leave in each active lane the one rounding of their exact
result, with the tag of 01 R27 or Table 05-2, and OR the flags of the active lanes into %fflags. 02 R42, R57, Table 02-3: the
rounding that ends a floating operation gives the value of the destination type that the mode or the tapered rule chooses,
with its sign and exactly the flags of the table; a NaN gives the canonical NaN, or NaR, and an infinity its own or NaR. The
exact results are, as rational numbers, the sum, the product, the least or greatest operand, the conversion of Table 02-11,
the number with its sign changed and the integral number, with the operands that are no numbers as the rules give them. 02
R62: a special operand gives the result and flags of Table 02-13. 02 R61, Table 02-12: the result of a special function at any
other operand lies within its bound of the function's value, or is the rounding of a number that does; SIN and COS beyond 2^20
give a number in [-1, 1]. Where inside the bound it falls is free. The value is the model's own, `fnValue`, exact or to about
2^-200 of itself (log entry 7). The model's readings: NV of an e5m2 infinity converted to a tapered type, none of an 8-bit NaN
converted to an integer (log entry 14), none of a quiet NaN added to infinities of both signs (log entry 73), and that the
range of a conversion to an integer is that of the rounded number (log entry 74). -/
def Obligations.FloatResults : Prop :=
  (∀ (i : Instr) (op : FloatOp), floatResult i = some op → i.wf = true →
     ∀ (s : State) (iss : Issue) (vs : List View), Issuing s iss vs → InBudget vs (op.srcs ++ [(op.d, op.w / 4)]) →
       Completes i s vs (WroteFloat (Instr.lanes i) op.d op.w op.val op.tag)) ∧
  ((∀ (w : BitVec 3), isType w = true → w.toNat < 6 ∧ floatFmt w.toNat = some (typeFmt w)) ∧
   ∀ (code : Nat) (f : FloatFmt) (r : Rounding) (nv : Nat), code < 6 → floatFmt code = some f →
     (∀ (n : Bool) (m : Nat) (e : Int),
       let x := ratio (.num n m e)
       let p := finish f r (.num n m e, nv)
       RoundsTo f r x p.1 ∧ p.2 = nv ||| roundingFlags f r x p.1 ∧ (f.isTapered = false → (f.value p.1).neg = n)) ∧
     (∀ (s : Bool), finish f r (.nan s, nv) = (canonicalNan code, nv ||| if s then 1 else 0)) ∧
     (∀ (n : Bool),
       let p := finish f r (.inf n, nv)
       if f.isTapered then p = (canonicalNan code, nv ||| 1) else p.1 < 2 ^ f.width ∧ f.value p.1 = .inf n ∧ p.2 = nv)) ∧
  ((∀ (r : Rounding) (l : List Val), SumOf r l (addExact r l)) ∧
   (∀ (x y : Val), ProductOf x y (mulExact x y)) ∧
   (∀ (v : Val), v.negate.isNan = v.isNan ∧ v.negate.isSig = v.isSig ∧ v.negate.isInf = v.isInf ∧ ratio v.negate = -ratio v ∧
     (v.isNan = false → v.negate.neg = !v.neg)) ∧
   (∀ (w : BitVec 3) (r : Rounding) (l : List Val), isType w = true →
     (∀ v ∈ l, ∃ t x, isType t = true ∧ (typeFmt t).isTapered = (typeFmt w).isTapered ∧ v = (typeFmt t).value x) →
     (∀ u v isMax, l = [u, v] → ExtremeResult (typeFmt w) r isMax l (fminmax isMax (typeFmt w) r u v)) ∧
     (∃ p, SumOf r l p ∧ reduFloat 0 (typeFmt w) r l = finish (typeFmt w) r p) ∧
     (l ≠ [] → ∀ isMax, ExtremeResult (typeFmt w) r isMax l (reduFloat (if isMax then 2 else 1) (typeFmt w) r l)))) ∧
  ((∀ (r : Rounding) (sat : Bool) (sf df x : Nat), sf < 16 → df < 16 → sf ≠ 8 → df ≠ 8 → x < 2 ^ fmtBits sf →
     Converted r sat sf df x (convert r sat sf df x)) ∧
   (∀ (negate : Bool) (st dt : BitVec 3) (r : Rounding) (x : Nat), isType st = true → isType dt = true →
     (typeFmt st).isTapered = (typeFmt dt).isTapered → x < 2 ^ (typeFmt st).width →
     SignChanged negate st.toNat dt.toNat (typeFmt st) (typeFmt dt) r x
       (fsign negate st.toNat dt.toNat (typeFmt st) (typeFmt dt) r x)) ∧
   (∀ (dt : BitVec 3) (r : Rounding) (v : Val), isType dt = true →
     RoundedToInteger dt.toNat (typeFmt dt) r v (fround (typeFmt dt) r v))) ∧
  (∀ (fn : Config.Fn) (st dt : BitVec 3) (mode : BitVec 2) (x : Word), isType dt = true →
     let f := typeFmt dt
     let r := Rounding.ofCode mode.toNat
     (∀ v z fl, SpecialRow f fn v z fl → specialFn fn st dt mode x f v =
       if f.isTapered = true ∧ isFinite z = false then (canonicalNan dt.toNat, fl) else finish f r (z, fl)) ∧
     ∀ (n : Bool) (m : Nat) (e : Int) (q : Bool) (k : Nat) (z : Int), (∀ y fl, ¬ SpecialRow f fn (.num n m e) y fl) →
       fnValue fn n m e = .num q k z → k ≠ 0 →
       let a := ratio (.num q k z)
       let p := specialFn fn st dt mode x f (.num n m e)
       p.2 % 4 = 0 ∧
       if (fn = .sin ∨ fn = .cos) ∧ 2 ^ 20 < |ratio (.num n m e)| then
         isFinite (f.value p.1) = true ∧ |ratio (f.value p.1)| ≤ 1
       else if f = .bin fmtF32 ∧ fn ≠ .sqrt ∧ p.2.testBit 2 = false then
         isFinite (f.value p.1) = true ∧ |ratio (f.value p.1) - a| ≤ fnBound fn * ulpOf true a ∧
           (fn = .tanh → |ratio (f.value p.1)| ≤ 1)
       else ∃ y, |y - a| ≤ fnBound fn * ulpOf (!f.isTapered) a ∧ RoundsTo f r y p.1 ∧
         (fn = .tanh → |ratio (f.value p.1)| ≤ 1))

/-- 05 R108 with 01 Table 01-8: WRSP completes when the value of the lowest active lane lies in the special's range, and
writes it to the special and to nothing else; in a pair of mode 64 it acts once, but writes each half's %seg from that half's
own lanes (log entry 23). -/
def Obligations.SpecialWrites : Prop :=
  ∀ (h : Hdr) (w : BitVec 3) (a : BitVec 7) (n : BitVec 5), (Instr.wrsp h w a n).wf = true →
    ∀ (s : State) (iss : Issue) (vs : List View), Issuing s iss vs → InBudget vs [(h.a a, widthOf w / 4)] →
      let x (v : View) : Nat := v.readLowest (v.active h) (h.a a) (widthOf w)
      (n ≠ 0x0A → (∀ v ∈ activeOnce (.wrsp h w a n) vs, specialInRange v n.toNat (x v)) →
        CompletesOnce (.wrsp h w a n) s vs (fun v s t =>
          Each (fun u s t => t = putSpecial s u n.toNat (x v) (u.active h)) v.halves s t)) ∧
      (n = 0x0A → (∀ v ∈ actives (.wrsp h w a n) vs, specialInRange v n.toNat (x v)) →
        Completes (.wrsp h w a n) s vs (fun v s t => t = putSpecial s v n.toNat (x v) (v.active h)))

/-! ## Memory accesses (08 R171 to R175; 09 R192 to R198) -/

/-- 09 R193 with 08 R174: LDS and LDX complete when every active lane's access is aligned, in bounds, clear of write locks and
not lost; each active lane receives the little-endian bits at its address, and memory is unchanged but for the settled
accumulators. 09 R193 with 08 R174: STS and STX complete when every active lane's access is aligned, in bounds and clear of
every lock; where lanes overlap the highest lane's bits stand, a nibble store keeps the other nibble, and every other bit of
every memory is as before. 05 R117: CBLD completes when its address is the same in every lane, a multiple of 32, in bounds and
clear of write locks; it reads sixteen 16-bit entries into cb0 or cb1 of the group, in mode 64 of both hardware groups, and
writes no register. -/
def Obligations.LoadsAndStores : Prop :=
  (∀ (i : Instr) (x : Access), loadOf i = some x → i.wf = true →
     ∀ (s : State) (iss : Issue) (vs : List View), Issuing s iss vs → InBudget vs x.spans →
       (∀ v ∈ actives i vs, Passes v (Instr.lanes i v) x.n x.n (x.ea v) (x.from v) hitsLoad ∧
         IntactAt v.dev (Instr.lanes i v) x.n (x.from v)) →
       Completes i s vs (Loaded x (Instr.lanes i))) ∧
  (∀ (i : Instr) (x : Access), storeOf i = some x → i.wf = true →
     ∀ (s : State) (iss : Issue) (vs : List View), Issuing s iss vs → InBudget vs x.spans →
       (∀ v ∈ actives i vs, Passes v (Instr.lanes i v) x.n x.n (x.ea v) (x.into v) hitsStore) →
       Completes i s vs (StoredTo x (Instr.lanes i))) ∧
  (∀ (h : Hdr) (a : BitVec 7) (n : Bool), (Instr.cbld h a n).wf = true →
     ∀ (s : State) (iss : Issue) (vs : List View), Issuing s iss vs → InBudget vs [(h.a a, 8)] →
       let addr (v : View) : Nat := v.readLowest (v.active h) (h.a a) 32
       (∀ v ∈ activeOnce (.cbld h a n) vs, v.isU (h.a a) 32 = true ∧ addr v % 32 = 0 ∧
         ∃ p, v.shared (addr v) 32 = some p ∧ v.dev.meetsLock p 32 v.grp.core hitsLoad = false ∧
           v.dev.lostIn p.space p.addr 32 = none) →
       CompletesOnce (.cbld h a n) s vs (fun v s t =>
         ∀ p, v.shared (addr v) 32 = some p →
           let byte (k : Nat) : Nat := ((v.dev.settleAll [(0, p)] 32).byteAt p.space (p.addr + k)).toNat
           let book := (List.range 16).map (fun k => BitVec.ofNat 16 (byte (2 * k) + 256 * byte (2 * k + 1)))
           Each (fun u s t => t = s.modGroup u (fun g => if n then { g with cb1 := book } else { g with cb0 := book })) v.halves
             (State.accessed { s with dev := s.dev.settleAll [(0, p)] 32 } v [(0, p)] 32 true false) t))

/-- 08 R175: LDK completes when every active lane's access is aligned and lies in the stack and the pages are translated; each
active lane receives the little-endian bytes of its stack, four of each word of 128 bytes, after the accumulators that it
reaches have settled; no other byte changes. 08 R175: STK completes under the same conditions; it writes the bytes of each
active lane in increasing lane order and no other byte, and no register. -/
def Obligations.StackAccess : Prop :=
  (∀ (h : Hdr) (w : BitVec 3) (d a i : BitVec 7), (Instr.ldk h w d a i).wf = true →
     ∀ (s : State) (iss : Issue) (vs : List View) (place : Nat → Phys), Issuing s iss vs →
       InBudget vs [(h.a a, 8), (h.d d, widthOf w / 4)] →
       (∀ v ∈ vs, StackFits h w a i v (v.active h)) →
       (∀ v ∈ vs, ∀ j, j < 32 → hasLane (v.active h) j = true → ∀ k, k < widthOf w / 8 →
         Cached s.dev v false (stackByte v j (stackOffset h w a i v j + k)) (place (stackByte v j (stackOffset h w a i v j + k)))) →
       (∀ v ∈ vs, ∀ x ∈ stackPlaces h w a i v, s.dev.lostIn (.phys (place x.2.addr).dev) (place x.2.addr).addr 1 = none) →
       Completes (.ldk h w d a i) s vs (fun v s t =>
         let settled (v : View) : Device :=
           s.dev.settlePieces false ((stackPlaces h w a i v).map (fun x => (place x.2.addr, 1)))
         ∃ r, r = State.accessed { s with dev := settled v } v (stackPlaces h w a i v) 1 true false ∧
           WroteOne (fun v => v.active h) (h.d d) (widthOf w)
             (fun v j => ofBits (widthOf w) (fun k =>
               ((settled v).physByte (place (stackByte v j (stackOffset h w a i v j + k / 8)))).getLsbD (k % 8)))
             (fun _ => .g) v r t)) ∧
  (∀ (h : Hdr) (w : BitVec 3) (d a i : BitVec 7), (Instr.stk h w d a i).wf = true →
     ∀ (s : State) (iss : Issue) (vs : List View) (place : Nat → Phys), Issuing s iss vs →
       InBudget vs [(h.a a, 8), (h.d d, widthOf w / 4)] →
       (∀ v ∈ vs, StackFits h w a i v (v.active h)) →
       (∀ v ∈ vs, ∀ j, j < 32 → hasLane (v.active h) j = true → ∀ x ∈ stackCells h w d a i v j,
         Cached s.dev v true x.1 (place x.1)) →
       Completes (.stk h w d a i) s vs (fun v s t =>
         let cells := (lanesOf (v.active h)).flatMap (stackCells h w d a i v)
         let settled := s.dev.settlePieces true (cells.map (fun x => (place x.1, 1)))
         t = State.accessed { s with dev := cells.foldl (fun e x => e.physPut (place x.1) x.2) settled } v
           (stackPlaces h w a i v) 1 false true))

/-- 08 R174, 17 Table 17-6: an access of an active lane that is misaligned raises ALIGN, else one out of bounds BOUND, else one
that meets a lock LOCK, with the address of the lowest failing lane and the failing lanes. -/
def Obligations.AccessTrapsInOrder : Prop :=
  ∀ (i : Instr) (x : Access) (load : Bool), (if load then loadOf i else storeOf i) = some x → i.wf = true →
    ∀ (s : State) (iss : Issue) (v : View), Issuing s iss [v] → InBudget [v] x.spans →
      let act := Instr.lanes i v
      let place := if load then x.from v else x.into v
      let misaligned (j : Nat) : Bool := decide (x.ea v j % x.n ≠ 0)
      let outside (j : Nat) : Bool := (place j).isNone
      let locked (j : Nat) : Bool :=
        match place j with
        | some p => v.dev.meetsLock p x.n v.grp.core (if load then hitsLoad else hitsStore)
        | none => false
      if failing act misaligned ≠ 0 then
        exec i s = .next (s.trap iss i (memoryTrap causeAlign act misaligned (x.ea v)))
      else if failing act outside ≠ 0 then exec i s = .next (s.trap iss i (memoryTrap causeBound act outside (x.ea v)))
      else
        failing act locked ≠ 0 → exec i s = .next (s.trap iss i (memoryTrap causeLock act locked (x.ea v)))

/-- 09 R195, R196; 04 Table 04-10: ATOM.S, ATOM.X and RED complete when every active lane's access is aligned, in bounds and
clear of locks, no float operation is under the ordered-reduction bit and no arrival is logged; the lanes act one after
another in increasing order, each on what the lane before it left, and ATOM returns what each lane found. -/
def Obligations.AtomicsInLaneOrder : Prop :=
  ∀ (i : Instr) (x : Atomic), atomicOf i = some x → i.wf = true →
    ∀ (s : State) (iss : Issue) (vs : List View), Issuing s iss vs → InBudget vs x.spans →
      (∀ v ∈ vs, Quiet s.dev v ∧ (x.reads = true ∨ x.o = 10 → x.float = true → v.ctx.ordr = false) ∧
        Passes v (Instr.lanes i v) (x.w / 8) (x.w / 8) (fun j => v.read j x.a 32 % 2 ^ 32) (x.place v) hitsStore ∧
        IntactAt s.dev (Instr.lanes i v) (x.w / 8) (x.place v)) →
      Completes i s vs (Performed x (Instr.lanes i))

/-- 09 R197: a float atomic that returns a value is ILLEGAL under the ordered-reduction bit; RED.FADD adds the lanes' operands
exactly to the accumulators of their words instead, and completes when the context's reduction area holds them (09 R198). 09
R197: the value that an exact accumulator settles to does not depend on the order in which its operands came. -/
def Obligations.OrderedReduction : Prop :=
  ((∀ (i : Instr) (x : Atomic), atomicOf i = some x → i.wf = true → x.float = true → x.reads = true →
     ∀ (s : State) (iss : Issue) (v : View), Issuing s iss [v] → v.ctx.ordr = true →
       exec i s = .next (s.trap iss i { cause := causeIllegal, detail := Instr.extLen i, lanes := none })) ∧
   (∀ (h : Hdr) (a : BitVec 7) (b : BitVec 6) (x : Atomic), atomicOf (.red h 8 a b) = some x → (Instr.red h 8 a b).wf = true →
     ∀ (s : State) (iss : Issue) (v : View), Issuing s iss [v] → InBudget [v] x.spans → v.ctx.ordr = true → v.active h ≠ 0 →
       Passes v (v.active h) 4 4 (fun j => v.read j x.a 32 % 2 ^ 32) (x.place v) hitsStore →
       IntactAt s.dev (v.active h) 4 (x.place v) →
       let ps := placesOf (v.active h) (x.place v)
       let d := accumulate v.c 0 (ps.map (fun p => (p.2, v.read p.1 x.b 32))) s.dev
       exec (.red h 8 a b) s = .next (if d.reductionFits v.c then State.accessed { s with dev := d } v ps 4 false true
         else { s.back iss with dev := (s.back iss).dev.contextFault v.c (v.ctx.quotaFault 6 0) }))) ∧
  (∀ (x : Accumulator) (l₁ l₂ : List Nat), l₁.Perm l₂ →
     (l₁.foldl Accumulator.add x).value = (l₂.foldl Accumulator.add x).value)

/-! ## The sequencer (06 R134 to R151; 07 R157 to R169) -/

/-- 07 R162, R165, R166: ELECT, KAND, KOR, KXOR, KNOT and KMOV complete and write all 32 bits of one mask, whatever the active
lanes; KMOV from a cell reads a cell marked U. 07 R163, R164: SLEEP gives the slot the wake time CYC plus its count and puts
it to sleep until then, and with a count of 0, whose time has passed, leaves it awake; YIELD marks the group; neither writes a
register, and each acts once for a pair. -/
def Obligations.MasksSleepYield : Prop :=
  ((∀ (i : Instr) (k : BitVec 3) (f : View → Nat → Bool), maskResult i = some (k, f) → i.wf = true →
     ∀ (s : State) (iss : Issue) (vs : List View), Issuing s iss vs → CompletesAll i s vs (WroteWholeMask k f)) ∧
   (∀ (h : Hdr) (d : BitVec 3) (c : BitVec 7), (Instr.kmovFromCell h d c).wf = true →
     ∀ (s : State) (iss : Issue) (vs : List View), Issuing s iss vs → InBudget vs [(h.a c, 8)] →
       (∀ v ∈ vs, v.isU (h.a c) 32 = true) →
       CompletesAll (.kmovFromCell h d c) s vs (WroteWholeMask d (fun v j => (v.read 0 (h.a c) 32).testBit j))) ∧
   (∀ (i : Instr) (d : Nat) (val : View → Nat), maskToSlices i = some (d, val) → i.wf = true →
     ∀ (s : State) (iss : Issue) (vs : List View), Issuing s iss vs → InBudget vs [(d, 8)] →
       CompletesAll i s vs (WroteOne (Instr.lanes i) d 32 (fun v _ => val v) (fun _ => .u)))) ∧
  ((∀ (h : Hdr) (d : BitVec 21), (Instr.sleep h d).wf = true →
     ∀ (s : State) (iss : Issue) (vs : List View), Issuing s iss vs →
       CompletesActing (.sleep h d) s vs (fun v s t => t = s.modHomeSlot v (fun sl =>
         { sl with wait := if d = 0 then sl.wait else .sleep, wake := v.dev.cyc + BitVec.ofNat 64 d.toNat }))) ∧
   (∀ (h : Hdr), (Instr.yield h).wf = true →
     ∀ (s : State) (iss : Issue) (vs : List View), Issuing s iss vs →
       CompletesActing (.yield h) s vs (fun v s t =>
         t = { s with dev := s.dev.modGroup v.wg.uid v.home (fun g => { g with yielded := true }) })))

/-- 07 R157 to R159, Table 07-2: SPAN and the terminators complete when their blocks are blocks of the kernel (SPAN's one of the
state's set; EXIT at user privilege); a terminator moves exactly its active lanes to their targets, CALL alone writes %link
and EXIT alone the exited bits. 07 R155, R157; 06 R145: SPAN outside the state's set, a terminator to a block that the kernel
lacks, and EXIT at library privilege raise ILLEGAL. -/
def Obligations.SpanAndTerminators : Prop :=
  ((∀ (h : Hdr) (k : BitVec 12), (Instr.span h k).wf = true →
     ∀ (s : State) (iss : Issue) (vs : List View), Issuing s iss vs →
       (∀ v ∈ vs, isBlock v k.toNat ∧ ∃ r, v.auto.states[v.slot.state.toNat]? = some r ∧ k ∈ r.set) →
       CompletesAll (.span h k) s vs (fun v s t => t = s.modSlot v (fun sl => { sl with
         span := some { block := k, pred := if h.e.pe then some (h.e.pk, h.e.pn) else none }, afterTerm := false }))) ∧
   (∀ (i : Instr) (x : Terminator), terminatorOf i = some x → i.wf = true →
     ∀ (s : State) (iss : Issue) (vs : List View), Issuing s iss vs → InBudget vs x.srcs → (∀ v ∈ vs, x.ok v) →
       CompletesAll i s vs (Branched x (Instr.lanes i)))) ∧
  ((∀ (h : Hdr) (k : BitVec 12), (Instr.span h k).wf = true →
     ∀ (s : State) (iss : Issue) (v : View), Issuing s iss [v] →
       (¬ isBlock v k.toNat ∨ ∀ r, v.auto.states[v.slot.state.toNat]? = some r → k ∉ r.set) →
       exec (.span h k) s = .next (s.trap iss (.span h k) { cause := causeIllegal, detail := Instr.extLen (.span h k), lanes := none })) ∧
   (∀ (i : Instr) (x : Terminator), terminatorOf i = some x → i.wf = true →
     ∀ (s : State) (iss : Issue) (v : View), Issuing s iss [v] → InBudget [v] x.srcs → ¬ x.ok v →
       exec i s = .next (s.trap iss i { cause := causeIllegal, detail := Instr.extLen i, lanes := none })))

/-- 06 R137: NEXT parks the live lanes whose block is the join, and when the automaton holds the state of the others the slot
takes that state at address 0 with those lanes, none of them moved, and the same join; the stack, the other slot and every
register stay. -/
def Obligations.NextTakesState : Prop :=
  ∀ (h : Hdr), (Instr.next h).wf = true → ∀ (s : State) (iss : Issue) (vs : List View), Issuing s iss vs → s.latch = none →
    ∀ (v : View), vs.head? = some v →
      let q := seqOf vs
      ∀ (sl : SeqSlot), q.slot iss.slot = some sl →
        let live := without sl.mask q.exited
        let joined := match sl.base.join with | some j => q.inBlocks live [j] | none => 0
        let rest := without live joined
        let q1 : Seq := { q with parked := Nat.lor q.parked joined }
        ∀ (r : StateRec) (st : BitVec 12), v.auto.states[sl.base.state.toNat]? = some r → rest ≠ 0 →
          (match r.direct (q.setOf rest) with
           | some a => a = some st
           | none => v.auto.lookup (q.setOf rest) = some st) →
          exec (.next h) s = .next { s with dev := s.dev.putSeq vs (q1.setSlot iss.slot
            (some { base := { state := st, addr := 0, mask := 0, moved := 0, join := sl.base.join, wake := 0, wait := .awake,
                              resume := 0, span := none, afterTerm := false }, mask := rest, moved := 0 })) }

/-- 06 R141: NEXT with every lane of the last slot exited or parked nowhere, the other slot empty and the stack empty, retires
the group, in width modes 32 and 16 alike. 06 R138: NEXT in a group of width mode 32 whose other slot is empty splits a set
that no state holds: slot 0 takes the lowest block's state with its lanes, and slot 1 the state of the others, both under the
slot's join. 06 R138 to R140: on a set that no state holds, NEXT of a state with a declared join other than the slot's pushes
a merge entry for the lanes and goes on under that join; a slot with no second slot to give pushes the lanes but the lowest
block's as a work entry; of two slots' worth with an unmapped remainder, the lanes of all blocks but the two lowest are
pushed; a full stack raises DSTACK with its depth. How a pair's entries hold the upper lanes is the model's choice (log entry
19). 06 R139, R141: when NEXT leaves both slots empty, the top entry of the stack is popped: a work entry whose set a state
holds gives its lanes to the slot, and a second work entry under the same join, to the other slot; a merge entry gives the
slot the state of its join with the lanes that are parked among its lanes, under the outer join. -/
def Obligations.NextRetiresAndSplits : Prop :=
  (∀ (h : Hdr), (Instr.next h).wf = true → ∀ (s : State) (iss : Issue) (v : View), Issuing s iss [v] → s.latch = none →
     v.library = false → v.agent.depth = 0 → (v.grp.slot (!iss.slot)).isNone = true → v.grp.agent0.depth = 0 →
     v.grp.agent1.depth = 0 → v.slot.mask &&& ~~~(v.grp.exited &&& v.frameLanes) = 0 →
     ∃ t, exec (.next h) s = .next t ∧
       ∃ g, groupAt t.dev v.wg.uid v.g = some g ∧ g.retired = true ∧ g.slot0 = none ∧ g.slot1 = none ∧ g.cells = v.grp.cells) ∧
  (∀ (h : Hdr), (Instr.next h).wf = true → ∀ (s : State) (iss : Issue) (v : View), Issuing s iss [v] → s.latch = none →
     v.kern.wmode ≠ 0 → (v.grp.slot (!iss.slot)).isNone = true → v.grp.pair ≠ some true →
     ∀ (r : StateRec) (b₁ b₂ : BitVec 12) (bs : List (BitVec 12)) (st : BitVec 12),
       let q := seqOf [v]
       let lanes := without v.slot.mask.toNat q.exited
       v.auto.states[v.slot.state.toNat]? = some r → r.join = none → v.slot.join = none →
       q.setOf lanes = b₁ :: b₂ :: bs →
       (r.direct (b₁ :: b₂ :: bs) = some none ∨ r.direct (b₁ :: b₂ :: bs) = none) →
       v.auto.lookup (b₁ :: b₂ :: bs) = none →
       v.auto.lookup (q.setOf (without lanes (q.inBlocks lanes [b₁]))) = some st →
       ∃ t, exec (.next h) s = .next t ∧
         ∃ g, groupAt t.dev v.wg.uid v.g = some g ∧
           slotParts g.slot0 = some (v.auto.single b₁, 0, BitVec.ofNat 32 (q.inBlocks lanes [b₁]), 0, none, 0) ∧
           slotParts g.slot1 = some (st, 0, BitVec.ofNat 32 (without lanes (q.inBlocks lanes [b₁])), 0, none, 0) ∧
           g.alt = false ∧ g.agent v.half = v.agent ∧ g.cells = v.grp.cells) ∧
  ((∀ (h : Hdr), (Instr.next h).wf = true → ∀ (s : State) (iss : Issue) (v : View) (rest : List View),
     Issuing s iss (v :: rest) → s.latch = none →
     let q := seqOf (v :: rest)
     ∀ (sl : SeqSlot) (r : StateRec) (lanes : Nat), Unmapped v iss q sl r lanes →
       let q0 := parkedAt q (without sl.mask q.exited) sl.base.join
       (∀ (j st : BitVec 12) (q1 : Seq) (d : Device), r.join = some j → sl.base.join ≠ some j →
         Pushed v (StackEntry.merge j sl.base.join) lanes q0 s.dev q1 d →
         let left := without lanes (atJoin q lanes (some j))
         left ≠ 0 → v.auto.lookup (q.setOf left) = some st →
         exec (.next h) s = .next { s with
           dev := d.putSeq (v :: rest) ((parkedAt q1 lanes (some j)).setSlot iss.slot (taking st left (some j))) }) ∧
       (r.join = none ∨ r.join = sl.base.join →
         ∀ (b₁ b₂ : BitVec 12) (bs : List (BitVec 12)), q.setOf lanes = b₁ :: b₂ :: bs →
           let first := q.inBlocks lanes [b₁]
           let others := without lanes first
           (∀ (q1 : Seq) (d : Device), (q.own.isSome = true ∨ (q.slot (!iss.slot)).isSome = true) →
             Pushed v (StackEntry.work sl.base.join) others (q0.setSlot iss.slot (taking (v.auto.single b₁) first sl.base.join))
               s.dev q1 d →
             exec (.next h) s = .next { s with dev := d.putSeq (v :: rest) q1 }) ∧
           (∀ (q1 : Seq) (d : Device), q.own = none → (q.slot (!iss.slot)).isNone = true →
             v.auto.lookup (q.setOf others) = none →
             let second := q.inBlocks others [b₂]
             Pushed v (StackEntry.work sl.base.join) (without others second)
               { q0 with slot0 := taking (v.auto.single b₁) first sl.base.join,
                         slot1 := taking (v.auto.single b₂) second sl.base.join, alt := false } s.dev q1 d →
             exec (.next h) s = .next { s with dev := d.putSeq (v :: rest) q1 }))) ∧
   (∀ (h : Hdr), (Instr.next h).wf = true → ∀ (s : State) (iss : Issue) (v : View), Issuing s iss [v] → s.latch = none →
     let q := seqOf [v]
     ∀ (sl : SeqSlot) (r : StateRec) (lanes : Nat), Unmapped v iss q sl r lanes → v.kern.dstack ≤ v.agent.depth →
       (∃ j, r.join = some j ∧ sl.base.join ≠ some j) ∨
         (r.join = none ∧ (q.own.isSome = true ∨ (q.slot (!iss.slot)).isSome = true)) →
       exec (.next h) s = .next (s.trap iss (.next h) { cause := 0x09, detail := v.agent.depth, lanes := none }))) ∧
  (∀ (h : Hdr), (Instr.next h).wf = true → ∀ (s : State) (iss : Issue) (v : View) (rest : List View),
     Issuing s iss (v :: rest) → s.latch = none →
     let q := seqOf (v :: rest)
     let slot := q.own.getD false
     let floor := match v.agent.library with | some l => l.depth + 7 | none => 0
     ∀ (sl : SeqSlot) (d : Device) (lanes : Nat), Emptied iss q sl → floor < q.depth →
       let q0 := (parkedAt q (without sl.mask q.exited) sl.base.join).setSlot iss.slot none
       (∀ (j : Option (BitVec 12)) (st : BitVec 12), TopEntry v q s.dev (StackEntry.work j) lanes d →
         let left := without lanes (atJoin q lanes j)
         left ≠ 0 → v.auto.lookup (q.setOf left) = some st →
         let q1 := (parkedAt (popped q0) lanes j).setSlot slot (taking st left j)
         ((q.own.isSome = true ∨ q.depth = floor + 1) →
           exec (.next h) s = .next { s with dev := d.putSeq (v :: rest) q1 }) ∧
         (q.own = none → floor + 1 < q.depth →
           (∀ (k o : Option (BitVec 12)) (m : BitVec 12) (w : Nat) (d2 : Device),
             ((TopEntry v (popped q) d (StackEntry.work k) w d2 ∧ k ≠ j) ∨ TopEntry v (popped q) d (StackEntry.merge m o) w d2) →
             exec (.next h) s = .next { s with dev := d2.putSeq (v :: rest) q1 }) ∧
           ∀ (w : Nat) (d2 : Device) (st2 : BitVec 12), TopEntry v (popped q) d (StackEntry.work j) w d2 →
             let left2 := without w (atJoin q w j)
             left2 ≠ 0 → v.auto.lookup (q.setOf left2) = some st2 →
             exec (.next h) s = .next { s with
               dev := d2.putSeq (v :: rest) ({ (parkedAt (popped q1) w j) with slot1 := taking st2 left2 j, alt := false }) })) ∧
       (∀ (j : BitVec 12) (o : Option (BitVec 12)), TopEntry v q s.dev (StackEntry.merge j o) lanes d →
         let back := Nat.land q0.parked lanes
         back ≠ 0 →
         let q1 : Seq := { popped q0 with parked := without q0.parked back }
         exec (.next h) s = .next { s with
           dev := d.putSeq (v :: rest) (q1.setSlot slot (taking (v.auto.single j) back o)) }))

/-- 07 R167: GATE through a valid entry other than 0, at user privilege and with room for the frame, completes: the frame goes
to the divergence stack and the active lanes enter the library; registers and masks keep their values. The model's choices in
it: the entering lanes lose their parked and exited bits (log entry 16), the upper half of a pair keeps its share of the frame
beside the stack (19), and in mode 16 the frame and the entry are the half's alone (22). 07 R167, Table 17-5: GATE through
entry 0, through an entry that is not valid, or from a library raises GATE with the entry's number. -/
def Obligations.GateEntersOrTraps : Prop :=
  (∀ (h : Hdr) (i : BitVec 8), (Instr.gate h i).wf = true →
     ∀ (s : State) (iss : Issue) (v : View) (rest : List View), Issuing s iss (v :: rest) → i ≠ 0 →
       ∀ (e : BitVec 16 × Nat × BitVec 12) (d : Device),
         (∀ u ∈ v :: rest, u.library = false ∧ u.gateEntry i.toNat = some e ∧ u.agent.depth + 7 ≤ u.kern.dstack) →
         actives (.gate h i) (v :: rest) ≠ [] →
         s.dev.mainWrite (dieOf v.grp.core) v.c (v.entryAddr v.agent.depth) (v.frame iss.next).bytes = .ok d →
         exec (.gate h i) s = .next { s with dev := (v :: rest).foldl (fun d u =>
           d.modGroup u.wg.uid u.g (entered u e (u.active h) (upperFrame rest iss.next))) d }) ∧
  (∀ (h : Hdr) (i : BitVec 8), (Instr.gate h i).wf = true →
     ∀ (s : State) (iss : Issue) (v : View), Issuing s iss [v] →
       (i = 0 ∨ v.library = true ∨ v.gateEntry i.toNat = none) →
       exec (.gate h i) s = .next (s.trap iss (.gate h i) { cause := causeGate, detail := i.toNat, lanes := none }))

/-- 07 R169: GRET from a library whose divergence has merged completes and restores the frame below the stack's top, where the
cells that its waits read need no refill; a frame that cannot be read faults and a malformed one, or one of a library, is
INTEGRITY; at user privilege, or unmerged, GRET is ILLEGAL. That the lanes outside a half's frame keep their values is the
model's choice (log entries 16, 19 and 22). 18 R311: TRET from a merged library completes when its resume point is a chain
boundary and the record's cause is not DSTACK: the frame is restored as by GRET, and the slot that the trap record names
stands in the record's state at its resume address; after DSTACK the context ends with DSTACK (06 R140). That a slot which the
frame holds empty stays empty is the model's choice (log entry 48; for halves and pairs, log entries 19 and 22). -/
def Obligations.ReturnsRestoreFrame : Prop :=
  ((∀ (h : Hdr), (Instr.gret h).wf = true →
     ∀ (s : State) (iss : Issue) (v : View), Issuing s iss [v] → s.latch = none → v.library = true →
       View.unmerged [v] = false → v.grp.pair ≠ some true →
       ∀ (b : List (BitVec 8)) (d : Device) (r : SeqRec),
         s.dev.mainRead (dieOf v.grp.core) v.c (v.entryAddr (v.agent.depth - 7)) 224 = .ok (b, d) →
         SeqRec.ofBytes b false = some r → r.lib = none → WaitsReadable s.dev v r →
         ∃ t g, exec (.gret h) s = .next t ∧ groupAt t.dev v.wg.uid v.g = some g ∧ FrameRestored v r g) ∧
   (∀ (h : Hdr), (Instr.gret h).wf = true →
     ∀ (s : State) (iss : Issue) (v : View), Issuing s iss [v] → v.library = true → View.unmerged [v] = false →
       let at_ := v.entryAddr (v.agent.depth - 7)
       (∀ f, s.dev.mainRead (dieOf v.grp.core) v.c at_ 224 = .error f → exec (.gret h) s = .next (s.faulted iss v.c f)) ∧
       ∀ b d, s.dev.mainRead (dieOf v.grp.core) v.c at_ 224 = .ok (b, d) →
         (∀ r, SeqRec.ofBytes b false = some r → r.lib ≠ none) →
         exec (.gret h) s = .next (s.faulted iss v.c (integrityFault v.grp.core at_))) ∧
   (∀ (h : Hdr), (Instr.gret h).wf = true →
     ∀ (s : State) (iss : Issue) (v : View), Issuing s iss [v] → (v.library = false ∨ View.unmerged [v] = true) →
       exec (.gret h) s = .next (s.trap iss (.gret h) { cause := causeIllegal, detail := Instr.extLen (.gret h), lanes := none }))) ∧
  ((∀ (h : Hdr), (Instr.tret h).wf = true →
     ∀ (s : State) (iss : Issue) (v : View), Issuing s iss [v] → s.latch = none → v.library = true →
       View.unmerged [v] = false → v.grp.pair ≠ some true → v.agent.trap.cause ≠ 0x09 →
       chainBoundary (v.kern.code v.agent.trap.state) v.agent.trap.resume.toNat = true →
       ∀ (b : List (BitVec 8)) (d : Device) (r : SeqRec),
         s.dev.mainRead (dieOf v.grp.core) v.c (v.entryAddr (v.agent.depth - 7)) 224 = .ok (b, d) →
         SeqRec.ofBytes b false = some r → r.lib = none → WaitsReadable s.dev v r →
         ∃ t g g', exec (.tret h) s = .next t ∧ groupAt t.dev v.wg.uid v.g = some g' ∧ FrameRestored v r g ∧
           let resumed (x : Option Slot) : Option (BitVec 12 × Word × Word × Word × Option (BitVec 12) × BitVec 64) :=
             slotParts (x.map (fun y => { y with state := v.agent.trap.state, addr := v.agent.trap.resume }))
           slotParts g'.slot0 = (if v.agent.trap.slot then slotParts g.slot0 else resumed g.slot0) ∧
           slotParts g'.slot1 = (if v.agent.trap.slot then resumed g.slot1 else slotParts g.slot1) ∧
           g'.agent v.half = g.agent v.half) ∧
   (∀ (h : Hdr), (Instr.tret h).wf = true →
     ∀ (s : State) (iss : Issue) (v : View), Issuing s iss [v] → v.library = true → View.unmerged [v] = false →
       v.agent.trap.cause = 0x09 →
       let f : CtxFault := { code := 0x09, detail := v.agent.trap.detail.toNat, addr := iss.addr.toNat }
       exec (.tret h) s = .next { s with dev := s.dev.endContext v.c f }))

/-- 18 R310: TRAP with an active lane raises SWTRAP with its code, and with none changes nothing. 18 R317; 22 R346: BRK raises
BRK with its code whatever the active lanes; under a debugger's hold it stops its workgroup instead and its chain does not
execute, and CONT later passes that chain. -/
def Obligations.TrapAndBreakpoint : Prop :=
  (∀ (h : Hdr) (k : BitVec 16), (Instr.trap h k).wf = true →
     ∀ (s : State) (iss : Issue) (vs : List View), Issuing s iss vs →
       exec (.trap h k) s = .next (if actives (.trap h k) vs = [] then s else
         { s with
           dev := takeTrap (s.before iss) (viewsOf (s.before iss) iss)
             { cause := 0x0C, detail := k.toNat, lanes := none } iss.index (Instr.lanes (.trap h k))
           issue := none, latch := none })) ∧
  (∀ (h : Hdr) (k : BitVec 13), (Instr.brk h k).wf = true →
     ∀ (s : State) (iss : Issue) (v : View), Issuing s iss [v] →
       exec (.brk h k) s = .next (
         if v.ctx.dbgBlock.hold then
           { s with dev := ((s.before iss).beginStop v.wg.uid 2).modWg v.wg.uid (fun w =>
             { w with stopped := { w.stopped with brkAt := some (v.home, iss.slot) } }) }
         else s.trap iss (.brk h k) { cause := 0x0B, detail := k.toNat, lanes := none }))

/-! ## Traps and faults (17 R296 to R301) -/

/-- 17 R296 to R298: a precise trap at user privilege with room for the frame and a valid entry 0 writes the trap record and
%tcause of the issuing group, the one record of a pair, and enters the library of entry 0 with the active lanes, or with the
slot's lanes when none is active; the register cells and masks keep their values. SWTRAP and PROMISE resume after the chain,
every other cause at it. That the entering lanes lose their parked and exited bits, and which frame a half or a pair saves, is
the model's choice (log entries 16, 19 and 22). -/
def Obligations.TrapEntersLibrary : Prop :=
  ∀ (d : Device) (v : View) (rest : List View) (t : Trap) (word : Nat) (active : View → Word)
    (e : BitVec 16 × Nat × BitVec 12) (d1 : Device),
    v.library = false → v.agent.depth + 7 ≤ v.kern.dstack → v.gateEntry 0 = some e → (∀ u ∈ rest, u.ctx = v.ctx) →
    let lanes (u : View) : Word := if (v :: rest).all (fun x => active x == 0) then u.slot.mask else active u
    let resume := if t.cause = 0x07 ∨ t.cause = 0x0C then v.iss.next else v.iss.addr
    let trapped := d.modGroup v.wg.uid v.home (withTrap v (trapOf v t word (lanes v) resume false))
    trapped.mainWrite (dieOf v.grp.core) v.c (v.entryAddr v.agent.depth) (v.frame resume).bytes = .ok d1 →
    takeTrap d (v :: rest) t word active = (v :: rest).foldl (fun d u =>
      d.modGroup u.wg.uid u.g (entered u e (lanes u) (upperFrame rest resume))) d1

/-- 17 R299; 18 R309: a trap at library privilege, one whose frame has no room, and one with no valid entry 0 are not delivered:
the trap record is kept, with lib set in the first two cases, and the context ends with the trap's code, detail and chain
address. That a trap with no valid entry 0 leaves lib clear is the model's choice (log entry 5). 17 R300, R301: ending a
context that is active or stopped gives its control block the cause, detail and address and the state ended, sends one message
of type 4, which takes the place of that of a fault of the same CYC, and leaves the context no request, matrix operation,
ready launch or range lock. A context that has ended keeps its fault, but that of two faults of one CYC the lower code stays;
of two of one code, the lower detail (the model's choice but for INTEGRITY, log entry 53). -/
def Obligations.UndeliveredTrapEnds : Prop :=
  (∀ (d : Device) (v : View) (rest : List View) (t : Trap) (word : Nat) (active : View → Word),
     (v.library = true ∨ v.kern.dstack < v.agent.depth + 7 ∨ v.gateEntry 0 = none) →
     let undelivered := v.library || decide (v.kern.dstack < v.agent.depth + 7)
     let lanes := if (v :: rest).all (fun x => active x == 0) then v.slot.mask else active v
     let resume := if t.cause = 0x07 ∨ t.cause = 0x0C then v.iss.next else v.iss.addr
     takeTrap d (v :: rest) t word active =
       (d.modGroup v.wg.uid v.home (withTrap v (trapOf v t word lanes resume undelivered))).endContext v.c
         { code := t.cause, detail := t.detail, addr := v.iss.addr.toNat }) ∧
  ((∀ (d : Device) (c : BitVec 6) (f : CtxFault), (d.ctx c).state = .active ∨ (d.ctx c).state = .stopped →
     let e := d.endContext c f
     (e.ctx c).state = .ended ∧ (e.ctx c).fcause = BitVec.ofNat 8 f.code ∧ (e.ctx c).fdetail = BitVec.ofNat 32 f.detail ∧
     (e.ctx c).faddr = BitVec.ofNat 64 f.addr ∧
     (∀ x, x ≠ c → e.ctx x = d.ctx x) ∧
     (∀ r ∈ e.requests, r.ctx ≠ c) ∧ (∀ m ∈ e.matrix, m.ctx ≠ c) ∧ (∀ l ∈ e.ready, ∀ x ∈ l, x.1 ≠ c) ∧
     (∀ w ∈ e.wgs, w.ctx = c → w.gone = true) ∧ (∀ l ∈ e.locks, d.lockOf c l = false) ∧
     (e.ctx c).fcyc = d.cyc ∧
     e = (withdrawn ((d.ctx c).faultedAt d.cyc) c ((d.releaseAll c).setCtx c (e.ctx c))).sendMsg 4 c (BitVec.ofNat 16 f.code)
       (BitVec.ofNat 32 f.detail)) ∧
   (∀ (d : Device) (c : BitVec 6) (f : CtxFault), (d.ctx c).state = .ended →
     d.endContext c f =
       if (d.ctx c).faultedAt d.cyc = true ∧ (d.ctx c).yields f = true then
         (withdrawn true c (d.modCtx c (fun x => { x with
           fcause := BitVec.ofNat 8 f.code, fdetail := BitVec.ofNat 32 f.detail, faddr := BitVec.ofNat 64 f.addr, fcyc := d.cyc }))).sendMsg
           4 c (BitVec.ofNat 16 f.code) (BitVec.ofNat 32 f.detail)
       else d))

/-! ## System words (18 R312 to R320) -/

/-- 18 R313, R314: CSRR completes at either privilege and gives every active lane the value of Table 18-3, the same in both
halves of a pair. 18 R313, R314: CSRW at library privilege completes: it writes the resume field, adds to the promise-miss
counter, or moves a log's tail between the old tail and the head; at user privilege it is ILLEGAL. -/
def Obligations.SystemRegisters : Prop :=
  (∀ (h : Hdr) (d : BitVec 7) (n : BitVec 6), (Instr.csrr h d n).wf = true →
     ∀ (s : State) (iss : Issue) (vs : List View), Issuing s iss vs → InBudget vs [(h.d d, 8)] →
       CompletesOnce (.csrr h d n) s vs (fun v => WroteAll h (h.d d) 32 (systemRegister v n.toNat) v)) ∧
  ((∀ (h : Hdr) (a : BitVec 7) (n : BitVec 6), (Instr.csrw h a n).wf = true →
     ∀ (s : State) (iss : Issue) (vs : List View), Issuing s iss vs → InBudget vs [(h.a a, 8)] →
       let x (v : View) : Word := BitVec.ofNat 32 (v.readLowest (v.active h) (h.a a) 32)
       let k := (n.toNat - 0x20) / 2
       (∀ v ∈ vs, v.library = true) →
       (∀ v ∈ activeOnce (.csrw h a n) vs, 0x20 ≤ n.toNat →
         if (v.ctx.region 7 k).isNone then x v = 0
         else (x v - (v.ctx.log k).tail).toNat ≤ ((v.ctx.log k).head - (v.ctx.log k).tail).toNat) →
       CompletesOnce (.csrw h a n) s vs (fun v s t =>
         if n = 0x02 then t = s.modAgent v (fun g => { g with trap := { g.trap with resume := x v } })
         else if n = 0x08 then
           t = { s with dev := s.dev.modCtx v.c (fun c => { c with pmiss := c.pmiss + (x v).setWidth 64 }) }
         else t = { s with dev := s.dev.modCtx v.c (fun c =>
           if (c.region 7 k).isNone then c else c.modLog k (fun l => { l with tail := x v })) })) ∧
   (∀ (h : Hdr) (a : BitVec 7) (n : BitVec 6), (Instr.csrw h a n).wf = true →
     ∀ (s : State) (iss : Issue) (v : View), Issuing s iss [v] → v.library = false →
       exec (.csrw h a n) s = .next (s.trap iss (.csrw h a n)
         { cause := causeIllegal, detail := Instr.extLen (.csrw h a n), lanes := none })))

/-- 18 R315, R316: with no trace region MARK changes nothing; with one it writes one trace record, and raises LOGFULL when the
log is full; with no arrival-order log LOGW copies the value of the lowest active lane to every active lane, in both halves of
a pair, and writes nothing else. That a pair acts once, with the half that holds its lowest active lane, is the model's
reading (log entry 23). 18 R320; 15 R257: QPOST of a valid record with a free tag from 16 cells marked U completes and posts
it, once for a pair; at the end of the CYC the posted records enter as waiting launches behind every earlier one of their
contexts, in increasing die, row, column and partition of their groups. That a launch queue has no depth is the model's choice
(log entry 27). -/
def Obligations.LogsAndPosts : Prop :=
  ((∀ (h : Hdr), (Instr.mark h).wf = true →
     ∀ (s : State) (iss : Issue) (vs : List View), Issuing s iss vs → (∀ v ∈ vs, v.ctx.logs 3 = false) →
       exec (.mark h) s = .next s) ∧
   (∀ (h : Hdr), (Instr.mark h).wf = true →
     ∀ (s : State) (iss : Issue) (vs : List View), Issuing s iss vs →
       (∀ v ∈ vs, v.ctx.logs 3 = true ∧ v.ctx.logFull 3 false 1 = false) →
       RunsOnce (.mark h) s vs (fun v s t =>
         ∃ d, s.dev.logPut (dieOf v.grp.core) v.c 3 v.traceRecord = .ok d ∧ t = { s with dev := d })) ∧
   (∀ (h : Hdr), (Instr.mark h).wf = true →
     ∀ (s : State) (iss : Issue) (v : View), Issuing s iss [v] → v.active h ≠ 0 → v.ctx.logs 3 = true →
       v.ctx.logFull 3 false 1 = true →
       exec (.mark h) s = .next (s.trap iss (.mark h) { cause := causeLogfull, detail := 3, lanes := none })) ∧
   (∀ (h : Hdr) (d a : BitVec 7), (Instr.logw h d a).wf = true →
     ∀ (s : State) (iss : Issue) (vs : List View), Issuing s iss vs → InBudget vs [(h.a a, 16), (h.d d, 16)] →
       (∀ v ∈ vs, Quiet s.dev v) →
       CompletesOnce (.logw h d a) s vs
         (fun v => WroteAll h (h.d d) 64 (v.readLowest (v.active h) (h.a a) 64) v))) ∧
  ((∀ (h : Hdr) (b : BitVec 6), (Instr.qpost h b).wf = true →
     ∀ (s : State) (iss : Issue) (vs : List View), Issuing s iss vs → InBudget vs [(8 * b.toNat, 128)] →
       (∀ v ∈ vs, Quiet s.dev v) →
       (∀ v ∈ activeOnce (.qpost h b) vs, (∀ j, j < 16 → v.isU (8 * b.toNat + 8 * j) 32 = true) ∧
         ∃ r, launchOf (natToBytes (v.readLowest (v.active h) (8 * b.toNat) 512) 64) = some r ∧ v.dev.postOk v.c r = true) →
       CompletesOnce (.qpost h b) s vs (fun v s t =>
         ∃ r, launchOf (natToBytes (v.readLowest (v.active h) (8 * b.toNat) 512) 64) = some r ∧
           t = { s with dev := { s.dev with
             posts := s.dev.posts ++ [{ ctx := v.c, core := v.grp.core, part := v.grp.part, record := r }] } })) ∧
   (∀ (d : Device), ∃ l : List Post, l.Perm d.posts ∧ (l.map (fun p => p.core.toNat * 32 + p.part.toNat)).Pairwise (· ≤ ·) ∧
     d.flushPosts = l.foldl (fun d p => d.modCtx p.ctx (fun c => { c with
       launches := c.launches.filter (fun l => l.live || l.record.tag != p.record.tag) ++
         [{ record := p.record, state := .waiting, taken := 0, order := c.nextOrder, graph := none, patch := none,
            inRing := false, ringAt := 0, readyAt := 0 }]
       nextOrder := c.nextOrder + 1 })) { d with posts := [] }))

/-- 18 R318, R319: ICINV drops every cached packet of the context, in every core, and no other; TLBINV drops the translations of
one page on every die, TLBINV.all those of every page, and leaves them to the context's requests that are not parked; none
touches memory or registers, and all need library privilege. That a core caches the packets it fetches is the model's choice
(log entry 40). -/
def Obligations.Invalidations : Prop :=
  (∀ (h : Hdr), (Instr.icinv h).wf = true →
    ∀ (s : State) (iss : Issue) (vs : List View), Issuing s iss vs → (∀ v ∈ vs, v.library = true) →
      CompletesOnce (.icinv h) s vs (fun v s t =>
        t = { s with dev := { s.dev with packets := s.dev.packets.filter (fun p => decide (p.ctx ≠ v.c)) } })) ∧
  (∀ (h : Hdr) (a : BitVec 7), (Instr.tlbinv h a).wf = true →
    ∀ (s : State) (iss : Issue) (vs : List View), Issuing s iss vs → InBudget vs [(h.a a, 16)] →
      (∀ v ∈ vs, v.library = true) → (∀ v ∈ activeOnce (.tlbinv h a) vs, v.readLowest (v.active h) (h.a a) 64 < 2 ^ 57) →
      CompletesOnce (.tlbinv h a) s vs (fun v s t => t = { s with dev := untranslated s.dev (fun x =>
        x.ctx == v.c && x.page * 65536 / 2 ^ x.shift == v.readLowest (v.active h) (h.a a) 64 / 2 ^ x.shift) v.c })) ∧
  (∀ (h : Hdr), (Instr.tlbinvAll h).wf = true →
    ∀ (s : State) (iss : Issue) (vs : List View), Issuing s iss vs → (∀ v ∈ vs, v.library = true) →
      CompletesOnce (.tlbinvAll h) s vs (fun v s t =>
        t = { s with dev := untranslated s.dev (fun x => x.ctx == v.c) v.c })) ∧
  (∀ (i : Instr), (∃ h, i = .icinv h ∨ i = .tlbinvAll h ∨ ∃ a, i = .tlbinv h a) → i.wf = true →
    ∀ (s : State) (iss : Issue) (v : View), Issuing s iss [v] → v.library = false →
      exec i s = .next (s.trap iss i { cause := causeIllegal, detail := Instr.extLen i, lanes := none }))

/-! ## Barrier objects and waits (08 R182 to R189; 09 R205 to R210) -/

/-- 08 R189: an arrival adds one to arrived; when that reaches expected, arrived becomes 0, the phase flips and the generation
increments in the same step; expected and every other byte stay. -/
def Obligations.ArrivalFlipsPhase : Prop :=
  ∀ (d : Device) (o : ObjRef) (by_ : Option Nat) (expected arrived gen : Nat) (phase : Bool), (d.wg o.wg).isSome = true →
    ObjectIs ((d.settle o.space o.off 8 false).objectValue o) expected arrived phase gen →
    KeepsOtherBytes o d (d.arrive o by_) ∧
    if arrived + 1 < expected then ObjectIs ((d.arrive o by_).objectValue o) expected (arrived + 1) phase gen
    else ObjectIs ((d.arrive o by_).objectValue o) expected 0 (!phase) ((gen + 1) % 2 ^ 31)

/-- 09 R206; 08 R185: BARINIT with a count of 1 to 65,535 on an object that is clear of read and write locks completes, once
for a pair: the object holds that count, no arrival, phase 0 and generation 0, and its barrier lock is registered. 09 R206,
R207: BARARR and BARARRW complete when the object's checks pass and no arrival is logged: every active lane receives the token
of the phase in which the group arrives, once for a pair, and BARARRW then waits with that token. That a pair arrives as the
group of its lower half, and which half acts, is the model's choice (log entry 23). -/
def Obligations.BarrierInitAndArrive : Prop :=
  (∀ (h : Hdr) (a : BitVec 7) (b : BitVec 6), (Instr.barinit h a b).wf = true →
     ∀ (s : State) (iss : Issue) (vs : List View), Issuing s iss vs → InBudget vs [(h.a a, 8), (8 * b.toNat, 8)] →
       let count (v : View) : Nat := v.readLowest (v.active h) (h.a a) 32
       (∀ v ∈ activeOnce (.barinit h a b) vs, v.isU (h.a a) 32 = true ∧ 1 ≤ count v ∧ count v < 2 ^ 16 ∧
         ObjectOk s.dev h b v (fun _ => hitsBarrier) ∧ ∀ o, v.object (objectAddr h b v) = some o → v.barriersFull o = false) →
       CompletesOnce (.barinit h a b) s vs (fun v s t =>
         ∀ o, v.object (objectAddr h b v) = some o → ∃ e, t = { s with dev := e.barrierLock v o } ∧
           ((s.dev.wg v.wg.uid).isSome = true → ObjectIs (e.objectValue o) (count v) 0 false 0 ∧ KeepsOtherBytes o s.dev e))) ∧
  (∀ (h : Hdr) (d : BitVec 7) (b : BitVec 6) (s : State) (iss : Issue) (vs : List View), Issuing s iss vs →
     InBudget vs [(8 * b.toNat, 8), (h.d d, 8)] → (∀ v ∈ vs, Quiet s.dev v ∧ ObjectOk s.dev h b v (fun _ => hitsBarrier)) →
     ((Instr.bararr h d b).wf = true →
       CompletesOnce (.bararr h d b) s vs (fun v s t => ∀ o, v.object (objectAddr h b v) = some o → Arrived h d o v s t)) ∧
     ((Instr.bararrw h d b).wf = true →
       CompletesOnce (.bararrw h d b) s vs (fun v s t => ∀ o, v.object (objectAddr h b v) = some o → ∃ r, Arrived h d o v s r ∧
         let tok := ((s.dev.settle o.space o.off 8 false).objectValue o).testBit 32
         Waited v o tok (.bar (BitVec.ofNat 32 (objectAddr h b v)) tok) r t)))

/-- 09 R207, R208: BARWAIT and CWAIT complete when the object's checks pass, the write lock of a request that arrives on the
object not counting: a slot whose object has left the token's phase goes on, and any other sleeps; no slice is written. 08
R182: SLEEPUNTIL completes when the object's checks pass: before its deadline the slot sleeps until it; at or after the
deadline the phase is checked once, and the slot goes on if it differs from the token, or raises PROMISE with the deadline. -/
def Obligations.BarrierAndPromiseWaits : Prop :=
  (∀ (h : Hdr) (d : BitVec 7) (b : BitVec 6) (s : State) (iss : Issue) (vs : List View), Issuing s iss vs →
     InBudget vs [(8 * b.toNat, 8), (h.d d, 8)] → (∀ v ∈ vs, ObjectOk s.dev h b v v.hitsWait) →
     let tok (v : View) : Bool := (v.readLowest (v.active h) (h.d d) 32).testBit 0
     ((Instr.barwait h d b).wf = true →
       CompletesOnce (.barwait h d b) s vs (fun v s t => ∀ o, v.object (objectAddr h b v) = some o →
         Waited v o (tok v) (.bar (BitVec.ofNat 32 (objectAddr h b v)) (tok v)) s t)) ∧
     ((Instr.cwait h d b).wf = true →
       CompletesOnce (.cwait h d b) s vs (fun v s t => ∀ o, v.object (objectAddr h b v) = some o →
         Waited v o (tok v) (.copy (BitVec.ofNat 32 (objectAddr h b v)) (tok v)) s t))) ∧
  (∀ (h : Hdr) (d a : BitVec 7) (b : BitVec 6), (Instr.sleepuntil h d a b).wf = true →
     ∀ (s : State) (iss : Issue) (v : View), Issuing s iss [v] → s.latch = none →
       InBudget [v] [(h.a a, 16), (8 * b.toNat, 8), (h.d d, 8)] → v.active h ≠ 0 → Quiet s.dev v → ObjectOk s.dev h b v v.hitsWait →
       ∀ o, v.object (objectAddr h b v) = some o →
         let tok := (v.readLowest (v.active h) (h.d d) 32).testBit 0
         let deadline := v.readLowest (v.active h) (h.a a) 64
         exec (.sleepuntil h d a b) s = .next (
           if v.dev.cyc.toNat < deadline then
             s.modHomeSlot v (fun sl => { sl with wait := .until (BitVec.ofNat 32 (objectAddr h b v)) tok,
                                                  wake := BitVec.ofNat 64 deadline, addr := iss.addr, resume := iss.next })
           else if s.dev.phase o ≠ tok then s.modAgent v (fun a => { a with phases := a.phases + 1 })
           else s.trap iss (.sleepuntil h d a b) { cause := 0x07, detail := deadline, lanes := none }))

/-- 06 R150; 07 R163; 08 R182; 09 R207; 10 R219: the events that wake a slot of a running group. A sleeper wakes when CYC
reaches its time, not before; a wait on an object or a batch returns when it is over, at the chain after it; a SLEEPUNTIL
whose object has left the phase at its deadline goes on, and one whose object has not raises PROMISE. 21 R333: a wait whose
object an error has lost is INTEGRITY when it reads it. 22 R352, R353: the admission of held arrivals at a unit changes
nothing of a context that is not active; of an active one it retires each request there whose work is done, in order, and then
lets each agent whose closed batch waits there arrive, in order. -/
def Obligations.WakesAndHeldArrivals : Prop :=
  (∀ (s : State) (r : SlotRef) (w : Workgroup) (g : Group) (x : Slot), s.dev.slotOf r = some (w, g, x) →
     (x.wait = .sleep → exec (.sleepExpire r) s = .next (if x.wake.toNat ≤ s.dev.cyc.toNat then
       { s with dev := s.dev.modSlot r.wg r.g r.slot (fun y => { y with wait := .awake, wake := 0 }) } else s)) ∧
     (∀ k, (s.dev.ctx w.ctx).kernel w.handle w.kernel = some k → ∀ obj tok o, (x.wait = .bar obj tok ∨ x.wait = .copy obj tok) →
       objectAt w k.shared g.core obj.toNat = some o →
       let d := (s.dev.modGroup r.wg r.g (fun y =>
         y.modAgent (k.mode16 && r.slot) (fun a => { a with phases := a.phases + 1 }))).modSlot r.wg r.g r.slot
           (fun y => { y with wait := .awake, wake := 0, addr := y.resume })
       exec (.waitWake r) s = .next (match s.dev.lostIn o.space o.off 8 with
         | some f => { s with dev := s.dev.contextFault w.ctx f }
         | none => if s.dev.phase o ≠ tok then { s with dev := d } else s)) ∧
     (∀ k, (s.dev.ctx w.ctx).kernel w.handle w.kernel = some k → ∀ n, x.wait = .matrix n →
       (g.agent (k.mode16 && r.slot)).batchDone n = true →
       ∃ t y, exec (.waitWake r) s = .next t ∧ groupAt t.dev r.wg r.g = some y ∧
         slotParts (y.slot r.slot) = slotParts (some { x with wake := 0, addr := x.resume }) ∧ y.cells = g.cells) ∧
     (∀ obj tok v o, x.wait = .until obj tok →
       let low := if g.pair = some true then r.g - 1 else r.g
       let iss : Issue := { Issue.start r.wg low r.slot x.addr with next := x.resume }
       viewOf s.dev iss r.g = some v → v.object obj.toNat = some o → Quiet s.dev v →
       (s.dev.cyc.toNat < x.wake.toNat → exec (.sleepuntilDeadline r) s = .next s) ∧
       (∀ f, x.wake.toNat ≤ s.dev.cyc.toNat → s.dev.lostIn o.space o.off 8 = some f →
         exec (.sleepuntilDeadline r) s = .next { s with dev := s.dev.contextFault v.c f }) ∧
       (x.wake.toNat ≤ s.dev.cyc.toNat → s.dev.lostIn o.space o.off 8 = none → s.dev.phase o ≠ tok →
         let d := (s.dev.modGroup r.wg low (fun y => y.modAgent v.half (fun a => { a with phases := a.phases + 1 }))).modSlot
           r.wg r.g r.slot (fun y => { y with wait := .awake, wake := 0, addr := y.resume })
         exec (.sleepuntilDeadline r) s = .next { s with dev := d }) ∧
       (x.wake.toNat ≤ s.dev.cyc.toNat → s.dev.lostIn o.space o.off 8 = none → s.dev.phase o = tok →
         let d := s.dev.modSlot r.wg r.g r.slot (fun y => { y with wait := .awake, wake := 0 })
         exec (.sleepuntilDeadline r) s = .next { s with
           dev := takeTrap d (viewsAt d iss) { cause := 0x07, detail := x.wake.toNat, lanes := none } 0 (fun u => u.waitLanes) }))) ∧
  (∀ (s : State) (c : BitVec 6) (unit : BitVec 10),
     ((s.dev.ctx c).state ≠ .active → exec (.arrivalAdmit c unit) s = .next s) ∧
     ((s.dev.ctx c).state = .active → ∃ d e, RetireInOrder (s.dev.heldAt c unit) s.dev d ∧ BatchesInOrder (d.batchesAt c unit) d e ∧
       exec (.arrivalAdmit c unit) s = .next { s with dev := e }) ∧
     (∀ r, r ∈ s.dev.heldAt c unit ↔ r ∈ s.dev.requests ∧ r.ctx = c ∧ (∀ o, r.work ≠ .fetch o) ∧ s.dev.canServe r = true ∧
       r.total ≤ r.done ∧ s.dev.objectIn r.wg r.bar r.core unit = true))

/-! ## The register store and the clock (01 R29 to R36; 06 R149) -/

/-- 01 R33: a cell read back from its spill slot has the tag and the lanes that were spilled. 01 R30, R33: a refill of an
evicted cell whose spill slot can be read and is well formed makes it resident with the value of the slot, and other cells
leave if the store has no room for it; a malformed slot is INTEGRITY; a resident cell stays as it is. 01 R30: of the resident
cells of a partition the least recently accessed is evicted first, then that of the lower slot, then the lower cell; cells
leave only while the 64 KiB store does not hold the rest. -/
def Obligations.SpillAndRefill : Prop :=
  (∀ (c : Cell), ∃ c', Cell.ofSlot c.slot = some c' ∧ c'.code = c.code ∧ ∀ j, j < 32 → c'.lane j = c.lane j) ∧
  (∀ (s : State) (w : Workgroup) (g k : Nat) (grp : Group) (c : StoredCell), s.dev.wg w.uid = some w → w.groups[g]? = some grp →
     grp.cells[k]? = some c →
     (c.evicted = false → exec (.cellRefill w.uid g k) s = .next { s with dev := s.dev.evict grp.core grp.part 768 }) ∧
     (c.evicted = true → ∀ (b : List (BitVec 8)) (d : Device),
       s.dev.mainRead (dieOf grp.core) w.ctx ((s.dev.ctx w.ctx).spillBase grp.spill + 132 * k) 132 = .ok (b, d) →
       (∀ x, Cell.ofSlot b = some x →
         let e := d.modGroup w.uid g (fun y =>
           { y with cells := setAt y.cells k { cell := x, evicted := false, used := s.dev.tick } })
         exec (.cellRefill w.uid g k) s = .next { s with dev := e.evict grp.core grp.part 768 }) ∧
       (Cell.ofSlot b = none →
         let e := s.dev.contextFault w.ctx (integrityFault grp.core ((s.dev.ctx w.ctx).spillBase grp.spill + 132 * k))
         exec (.cellRefill w.uid g k) s = .next { s with dev := e }))) ∧
  ((∀ (l : List Resident) (r : Resident), firstEvicted l = some r → r ∈ l ∧ ∀ q ∈ l,
     r.used < q.used ∨ (r.used = q.used ∧ (r.rslot < q.rslot ∨ (r.rslot = q.rslot ∧ r.cell ≤ q.cell)))) ∧
   (∀ (d : Device) (core : BitVec 8) (part : BitVec 5) (n : Nat),
     (((d.residentCells core part).map (fun c => c.size)).sum ≤ 65536 → d.evict core part n = d) ∧
     (512 < (d.residentCells core part).length → 65536 < ((d.residentCells core part).map (fun c => c.size)).sum →
       ∃ r, firstEvicted (d.residentCells core part) = some r ∧
         d.evict core part (n + 1) = match d.evictCell r with
           | .ok e => e.evict core part n
           | .error (c, f) => d.contextFault c f)))

/-- 01 R36: the oldest outstanding register write completes in the group it names when the group's slot is still of the write's
generation, and is dropped when it is not; either way it is outstanding no more. 06 R149; 22 R340, R341; 07 R164: a clock of a
partition with no ready chain counts 32 idle lanes in bin 64 of the context of the group that the pointer names, counts the
lanes of the groups that sleep in the wait counters of their contexts, both where the host has set lcr, and clears the YIELD
marks of its groups; no register, slot or memory changes. That a partition whose pointer names an empty slot beside resident
groups counts no idle lanes is the model's choice (log entry 79). -/
def Obligations.WritesAndIdleClock : Prop :=
  (∀ (s : State) (x : RegWrite) (rest : List RegWrite) (w : Workgroup) (g : Group), s.dev.writes = x :: rest →
     s.dev.wg x.wg = some w → w.groups[x.g]? = some g →
     (w.gone = false → x.gen = tableGet 0 s.dev.gens (slotKey g.core g.part g.rslot) →
       0 < x.width → x.width % 4 = 0 → x.slice + x.width / 4 ≤ g.budget → x.tag.Fits x.lanes x.width (laneVal x.vals) →
       ∃ t y, exec .registerWriteback s = .next t ∧ groupAt t.dev x.wg x.g = some y ∧
         ReadsBack g y.cells x.lanes x.slice x.width (laneVal x.vals) x.tag ∧ y = { g with cells := y.cells } ∧
         t.dev.writes = rest) ∧
     (x.gen ≠ tableGet 0 s.dev.gens (slotKey g.core g.part g.rslot) →
       exec .registerWriteback s = .next { s with dev := { s.dev with writes := rest } })) ∧
  (∀ (s : State) (core : BitVec 8) (part : BitVec 5), s.dev.pick core part = none →
     ∃ d, exec (.partitionClock core part) s = .next { s with dev := d } ∧
       d = { s.dev with wgs := d.wgs, contexts := d.contexts } ∧
       (∀ uid, d.wg uid = (s.dev.wg uid).map (fun w => { w with groups := (d.wg uid).elim [] Workgroup.groups })) ∧
       (∀ uid g y, groupAt d uid g = some y → ∃ x, groupAt s.dev uid g = some x ∧ y = { x with yielded := y.yielded }) ∧
       (∀ x ∈ s.dev.residents core part, ∀ y, groupAt d x.1.uid x.2.1 = some y → y.yielded = false) ∧
       (∀ c, d.ctx c = { s.dev.ctx c with bins := (d.ctx c).bins, waitCounts := (d.ctx c).waitCounts }) ∧
       (∀ c, IdleCounted (decide (s.dev.idleContext core part = some c) && (s.dev.ctx c).dbgBlock.lcr) (s.dev.ctx c) (d.ctx c)) ∧
       (∀ c k, (s.dev.ctx c).waitCounts.length = 3 → k < 3 → (d.ctx c).waitCounts.getD k 0 = (s.dev.ctx c).waitCounts.getD k 0 +
         if (s.dev.ctx c).dbgBlock.lcr then
           BitVec.ofNat 64 (((s.dev.residents core part).filter (fun x => x.1.ctx == c)).map (asleepLanes s.dev k)).sum
         else 0))

/-! ## Copies and routing (08 R176 to R191; 09 R199 to R204; 10 R222 to R230) -/

/-- 09 R200 to R203; 08 R181, R185, R190: COPY and COPYT complete when their cells are marked U, the descriptors keep the
rules, the ranges pass their checks and the queue has room: the group's one request takes its locks and the tail of the die's
copy queue, and every active lane receives the promise. A copy that moves nothing retires at once, promised for the CYC of
issue. That such a copy takes no lock and has no own ranges to overlap, and that a copy's two sources or two destinations may
overlap, is the model's reading (log entries 43 and 46). 09 R199, R203; 08 R171 to R173, R178: a copy with an active lane and
a cell that is not marked U, or with descriptors that break the rules, is ILLEGAL; one whose ranges break the alignment of
their elements is ALIGN at the first such address, and else one with a range outside its space, or with an address that breaks
its space's rule whatever it moves, BOUND. That the detail names the first such range in the order of 09 R203 is the model's
reading (log entry 44). -/
def Obligations.CopiesIssue : Prop :=
  (∀ (i : Instr) (h : Hdr) (d a : BitVec 7) (b : BitVec 6) (xf : Nat) (t : CopyTail), copyOf i = some (h, d, a, b, xf, t) →
     i.wf = true → ∀ (s : State) (iss : Issue) (vs : List View), Issuing s iss vs →
       InBudget vs [(h.a a, 8 * sourceCells xf t), (8 * b.toNat, 8 * descriptorCells t.dkind), (h.d d, 16)] →
       let object := t.bq.toNat * 2 ^ 19 + 8 * t.boff.toNat
       let act (v : View) : Word := v.active h
       let words (v : View) : CopyWords := v.copyWords (act v) (h.a a) b xf t
       let reaches (v : View) : List Reach :=
         match v.parseCopy (words v) xf t with | some p => copyReaches p.1 p.2.1 p.2.2 | none => []
       let work (v : View) : Work :=
         match v.parseCopy (words v) xf t with | some p => .copy p.1 p.2.1 p.2.2 | none => .fetch 0
       let places (v : View) : List (Place × Nat × Bool) :=
         if ((reaches v).take 2).any (fun r => r.range.isNone) then [] else v.reachPlaces (reaches v)
       (∀ v ∈ activeOnce i vs, v.cellsU (h.a a) (sourceCells xf t) = true ∧
         v.cellsU (8 * b.toNat) (descriptorCells t.dkind) = true ∧ (v.parseCopy (words v) xf t).isSome = true ∧
         RangesOk v (reaches v) (places v) object (fun w1 w2 => w1 != w2) ∧ v.engineCheck (namedEngine (words v).src) = .ok) →
       ((∀ v ∈ activeOnce i vs, ¬ isEmptyCopy (reaches v) ∧ CopyRoom s.dev (dieOf v.grp.core) v.c) →
         CompletesOnce i s vs (Issued h (h.d d) object (fun v => (words v).src ++ (words v).xf ++ (words v).dst) work reaches)) ∧
       (s.latch = none → (∀ v ∈ vs, Quiet s.dev v ∧ v.ctx.logs 2 = false) →
         (∀ v ∈ activeOnce i vs, isEmptyCopy (reaches v) ∧
           ∀ o, v.object object = some o → s.dev.lostIn o.space o.off 8 = none) →
         CompletesOnce i s vs (fun v s r => ∃ e o, v.object object = some o ∧
           WroteAll h (h.d d) 64 v.dev.cyc.toNat v { s with dev := Device.arrive e o none } r ∧
           (∀ sp x, e.byteAt sp x = s.dev.byteAt sp x) ∧ (∀ q ∈ e.requests, q ∈ s.dev.requests)))) ∧
  (∀ (i : Instr) (h : Hdr) (d a : BitVec 7) (b : BitVec 6) (xf : Nat) (t : CopyTail), copyOf i = some (h, d, a, b, xf, t) →
     i.wf = true → ∀ (s : State) (iss : Issue) (v : View), Issuing s iss [v] →
       InBudget [v] [(h.a a, 8 * sourceCells xf t), (8 * b.toNat, 8 * descriptorCells t.dkind), (h.d d, 16)] → v.active h ≠ 0 →
       let words := v.copyWords (v.active h) (h.a a) b xf t
       let marked := v.cellsU (h.a a) (sourceCells xf t) && v.cellsU (8 * b.toNat) (descriptorCells t.dkind)
       ((marked = false ∨ v.parseCopy words xf t = none) → exec i s = .next (s.trap iss i
         { cause := causeIllegal, detail := Instr.extLen i, lanes := none })) ∧
       (∀ src dst x, marked = true → v.parseCopy words xf t = some (src, dst, x) →
         ∀ r rest, (copyReaches src dst x).filter (fun r => decide (r.addr % r.align ≠ 0)) = r :: rest →
           exec i s = .next (s.trap iss i { cause := causeAlign, detail := r.addr, lanes := none })) ∧
       (∀ src dst x, marked = true → v.parseCopy words xf t = some (src, dst, x) →
         (∀ r ∈ copyReaches src dst x, r.addr % r.align = 0) →
         let outside (r : Reach) : Bool := match r.range with
           | none => decide (r.space = 0 ∧ 2 ^ 57 ≤ r.addr ∨ r.space = 1 ∧ 2 ^ 29 ≤ r.addr ∨
               r.space ≠ 0 ∧ r.space ≠ 1 ∧ (v.shared r.addr 0).isNone)
           | some b => (v.range r.space r.write b).isNone
         ∀ r rest, (copyReaches src dst x).filter outside = r :: rest →
           exec i s = .next (s.trap iss i
             { cause := causeBound, detail := (match r.range with | none => r.addr | some b => b.1), lanes := none })))

/-- 09 R204; 08 R176: TMAP of a U number below 256 and 32 U cells that keep the rules of a tensor map completes and writes the
128 bytes of that entry of the context, once for a pair, and no other; with contents that break them it is ILLEGAL. -/
def Obligations.TensorMapWrite : Prop :=
  (∀ m, tmOk m = true ↔ MapOk m) ∧
  (∀ (c : Context) (n k : Nat) (m : BitVec 1024), (c.setTmap n m).tmap k = if k = n then m else c.tmap k) ∧
  (∀ (h : Hdr) (a : BitVec 7) (b : BitVec 6), (Instr.tmap h a b).wf = true →
    ∀ (s : State) (iss : Issue) (vs : List View), Issuing s iss vs → InBudget vs [(h.a a, 8), (8 * b.toNat, 256)] →
      let entry (v : View) : Nat := v.readLowest (v.active h) (h.a a) 32
      let bits (v : View) : BitVec 1024 := BitVec.ofNat 1024 (v.readLowest (v.active h) (8 * b.toNat) 1024)
      let marked (v : View) : Prop := v.isU (h.a a) 32 = true ∧ v.cellsU (8 * b.toNat) 32 = true
      ((∀ v ∈ activeOnce (.tmap h a b) vs, marked v ∧ entry v < 256 ∧ MapOk (bits v)) →
        CompletesOnce (.tmap h a b) s vs (fun v s t =>
          t = { s with dev := s.dev.modCtx v.c (fun c => c.setTmap (entry v) (bits v)) })) ∧
      (∀ v, vs = [v] → v.active h ≠ 0 → (¬ marked v ∨ 256 ≤ entry v ∨ ¬ MapOk (bits v)) →
        exec (.tmap h a b) s = .next (s.trap iss (.tmap h a b)
          { cause := causeIllegal, detail := Instr.extLen (.tmap h a b), lanes := none })))

/-- 21 R328; 08 R178; 17 R294: a burst of a plain copy between dense runs of the scratchpad commits up to 512 bytes whole: the
destination bytes take the source bytes as they stood before it, and every other scratchpad byte stays. A copy whose next
burst meets a translation fault is parked with the fault's kind, its address goes to the control block, and the host is told;
the 65th parked request of a context is COPYFAULT, with detail 0xFF (the model's choice, log entry 44). 08 R179, R185, R189,
Table 08-5: a copy whose last element has committed retires, when no log or replay holds it: it leaves its queue and its locks
are released, and then its object counts one arrival. A copy with elements left does not retire. -/
def Obligations.CopiesRun : Prop :=
  ((∀ (s : State) (id a b n : Nat) (f : BitVec 4) (r : Request), s.dev.request id = some r →
     r.work = .copy (.dense 1 a f n) (.dense 1 b f n) .plain → (s.dev.wg r.wg).isSome = true → s.dev.canServe r = true →
     (s.dev.ctx r.ctx).replay = false → s.dev.accs = [] → s.dev.lost = [] → fmtBits f.toNat % 8 = 0 → r.done < n →
     let width := fmtBits f.toNat / 8
     let count := min (512 / width) (n - r.done)
     ∃ t, exec (.copyBurstCommit id) s = .next t ∧ (t.dev.request id).map Request.done = some (r.done + count) ∧
       ∀ j, t.dev.byteAt .spad j =
         if b + width * r.done ≤ j ∧ j < b + width * (r.done + count) then s.dev.byteAt .spad (a + (j - b))
         else s.dev.byteAt .spad j) ∧
   (∀ (s : State) (id : Nat) (r : Request) (w : Workgroup) (src dst : Endpoint) (xf : Transform) (kind va : Nat),
     s.dev.request id = some r → r.work = .copy src dst xf → s.dev.wg r.wg = some w → s.dev.canServe r = true →
     s.dev.heldByLog r = .ok false → r.done < dst.count → kind < 0xFF →
     Burst.moves { dev := s.dev, reads := [], writes := [] } r w src dst xf
       ((List.range (min dst.perBurst (dst.count - r.done))).map (fun k => r.done + k)) = .error (.walk (kind, va)) →
     let held := (s.dev.requests.filter (fun x => x.ctx == r.ctx && x.isParked)).length
     let parked := s.dev.modRequest id (fun x => { x with status := .parked (BitVec.ofNat 8 kind) })
     let told := parked.modCtx r.ctx (fun x => { x with
       taddr := BitVec.ofNat 64 va, tdie := r.die, tkind := BitVec.ofNat 8 kind })
     let e := told.sendMsg 3 r.ctx (BitVec.ofNat 16 kind) (BitVec.ofNat 32 r.die.toNat)
     (held < 64 → exec (.copyBurstCommit id) s = .next { s with dev := e }) ∧
     (64 ≤ held → exec (.copyBurstCommit id) s = .next { s with
       dev := e.contextFault r.ctx { code := causeCopyfault, detail := 0xFF, addr := va } }))) ∧
  (∀ (s : State) (id : Nat) (r : Request) (src dst : Endpoint) (xf : Transform), s.dev.request id = some r →
     r.work = .copy src dst xf →
     (r.done < dst.count → exec (.copyRetire id) s = .next s) ∧
     (∀ w k o, s.dev.wg r.wg = some w → (s.dev.ctx r.ctx).kernel w.handle w.kernel = some k →
       objectAt w k.shared r.core r.bar.toNat = some o → s.dev.canServe r = true → (s.dev.ctx r.ctx).replay = false →
       (s.dev.ctx w.ctx).replay = false → (s.dev.ctx w.ctx).logs 1 = false → (s.dev.ctx r.ctx).logs 2 = false →
       s.dev.lostIn o.space o.off 8 = none → (∀ h, r.status ≠ .retired h) → dst.count ≤ r.done →
       let released := { s.dev with
         locks := s.dev.locks.filter (fun l => decide (l.owner ≠ LockOwner.request id))
         requests := s.dev.requests.filter (fun x => decide (x.id ≠ id)) }
       exec (.copyRetire id) s = .next { s with dev := released.arrive o none }))

/-- 10 R222, R223, R225: ROUTE completes as a copy issues, once for a pair, when its five cells are marked U, the descriptor and
its map keep the rules, and its ranges pass their checks, no two of them overlapping. 10 R224: a routing pass with
destinations in the scratchpad fills every list slot with its token or 0xFFFF and every weight slot with its weight or zero,
and writes the counts and the dropped count; no list exceeds the capacity, and the counts and the dropped assignments of all
tokens add up. -/
def Obligations.Routing : Prop :=
  (∀ (h : Hdr) (d a : BitVec 7) (t : RouteTail), (Instr.route h d a t).wf = true →
     ∀ (s : State) (iss : Issue) (vs : List View), Issuing s iss vs → InBudget vs [(h.a a, 40), (h.d d, 16)] →
       let object := t.bq.toNat * 2 ^ 19 + 8 * t.boff.toNat
       let act (v : View) : Word := v.active h
       let cells (v : View) : List Word := (List.range 5).map (fun j => BitVec.ofNat 32 (v.readLowest (act v) (h.a a + 8 * j) 32))
       let map (v : View) : BitVec 1024 := v.ctx.tmap (((cells v).getD 0 0).toNat % 2 ^ 8)
       let reaches (v : View) : List Reach := match parseRoute (map v) (cells v) with | some q => q.reaches | none => []
       (∀ v ∈ activeOnce (.route h d a t) vs, v.cellsU (h.a a) 5 = true ∧ (parseRoute (map v) (cells v)).isSome = true ∧
         RangesOk v (reaches v) (v.reachPlaces (reaches v)) object (fun _ _ => true) ∧ CopyRoom s.dev (dieOf v.grp.core) v.c) →
       CompletesOnce (.route h d a t) s vs (Issued h (h.d d) object cells
         (fun v => .route (map v) (cells v) (t.km1.toNat + 1) (t.dm1.toNat + 1)) reaches)) ∧
  ((∀ (k depth cap experts : Nat) (scores : List Nat) (tokens : Nat),
     RouteOutcome k cap experts tokens (routeAll k depth cap experts scores tokens)) ∧
   (∀ (s : State) (id : Nat) (r : Request) (w : Workgroup) (m : BitVec 1024) (ws : List Word) (k depth : Nat) (q : RouteDesc)
     (scores : List Nat) (burst : Burst), s.dev.request id = some r → r.work = .route m ws k depth → s.dev.wg r.wg = some w →
     parseRoute m ws = some q → q.space = 1 → s.dev.canServe r = true → r.done = 0 → s.dev.accs = [] → s.dev.lost = [] →
     let experts := routeExperts m
     let tokens := routeTokens m
     let slots := q.cap * experts
     let apart (a n b k : Nat) : Prop := a + n ≤ b ∨ b + k ≤ a
     apart q.lists (2 * slots) q.weights (4 * slots) → apart q.lists (2 * slots) q.hist (4 * (experts + 1)) →
     apart q.weights (4 * slots) q.hist (4 * (experts + 1)) →
     Burst.scores { dev := s.dev, reads := [], writes := [] } r w (routeScores q.map) (List.range (experts * tokens)) =
       .ok (scores, burst) →
     let out := routeAll k (min depth experts) q.cap experts scores tokens
     ∃ t, exec (.routePassRetire id) s = .next t ∧
       (∀ e p, e < experts → p < q.cap →
         t.dev.num .spad (q.lists + 2 * (q.cap * e + p)) 2 =
           (match out.slot e p with | some x => x.1 % 2 ^ 16 | none => 0xFFFF) ∧
         t.dev.num .spad (q.weights + 4 * (q.cap * e + p)) 4 =
           (match out.slot e p with | some x => x.2 % 2 ^ 32 | none => 0)) ∧
       (∀ e, e < experts → t.dev.num .spad (q.hist + 4 * e) 4 = out.counts.getD e 0 % 2 ^ 32) ∧
       t.dev.num .spad (q.hist + 4 * experts) 4 = out.dropped % 2 ^ 32))

/-- 10 R226 to R230: XSLOT and XREL complete, once for a pair, when their cell is marked U, the die has a slot table and no
arrival is logged. XSLOT takes the slot of its key, else the lowest invalid slot, else the unpinned slot whose layer's next
use is farthest, pins it and answers the slot and the status; XREL takes one pin off a valid slot that has one. -/
def Obligations.ExpertSlots : Prop :=
  (∀ (h : Hdr) (d a : BitVec 7), (Instr.xslot h d a).wf = true →
    ∀ (s : State) (iss : Issue) (vs : List View), Issuing s iss vs → InBudget vs [(h.a a, 8), (h.d d, 8)] →
      let key (v : View) : Word := BitVec.ofNat 32 (v.readLowest (v.active h) (h.a a) 32)
      let layer (v : View) : BitVec 16 := (key v).extractLsb' 16 16
      let expert (v : View) : BitVec 16 := (key v).extractLsb' 0 16
      (∀ v ∈ vs, Quiet s.dev v) →
      (∀ v ∈ activeOnce (.xslot h d a) vs, v.isU (h.a a) 32 = true ∧
        ∃ l, v.ctx.slots (dieOf v.grp.core).toNat = some l ∧
          ∀ x ∈ l, x.valid = true → x.layer = layer v → x.expert = expert v → x.pins ≠ 0xFFFF) →
      CompletesOnce (.xslot h d a) s vs (fun v s t =>
        let die := (dieOf v.grp.core).toNat
        ∀ l, (s.dev.ctx v.c).slots die = some l →
          ∃ j status, SlotChosen l (nextUse (s.dev.layerOrder v.ctx die)
              (v.ctx.layer.toNat % (s.dev.layerOrder v.ctx die).length)) (layer v) (expert v) j status ∧
            let pinned (x : ExpertSlot) : ExpertSlot :=
              { valid := true, layer := layer v, expert := expert v, pins := (if status = 0 then x.pins else 0) + 1 }
            WroteAll h (h.d d) 32 (j + 2 ^ 8 * status) v
              { s with dev := if status = 3 then s.dev else s.dev.modCtx v.c (fun c =>
                { c with experts := tableSet c.experts die (modAt l j pinned) }) } t)) ∧
  (∀ (h : Hdr) (a : BitVec 7), (Instr.xrel h a).wf = true →
    ∀ (s : State) (iss : Issue) (vs : List View), Issuing s iss vs → InBudget vs [(h.a a, 8)] →
      let slot (v : View) : Nat := v.readLowest (v.active h) (h.a a) 32
      (∀ v ∈ vs, Quiet s.dev v) →
      (∀ v ∈ activeOnce (.xrel h a) vs, v.isU (h.a a) 32 = true ∧
        ∃ l x, v.ctx.slots (dieOf v.grp.core).toNat = some l ∧ l[slot v]? = some x ∧ x.valid = true ∧ x.pins ≠ 0) →
      CompletesOnce (.xrel h a) s vs (fun v s t =>
        let die := (dieOf v.grp.core).toNat
        ∀ l, (s.dev.ctx v.c).slots die = some l →
          t = { s with dev := s.dev.modCtx v.c (fun c => { c with
            experts := tableSet c.experts die (modAt l (slot v) (fun x => { x with pins := x.pins - 1 })) }) }))

/-! ## The matrix engine (10 R211 to R221; 03 R65 to R77) -/

/-- 10 R211, R215 to R217: MMA, MMAP, MMAG.A and MMAG.K complete when the tile rule holds, their operand checks pass and the
queue has room: the operation, with everything it captures, takes the tail of the core's matrix queue and joins the open
batch, once for a pair. A tile that breaks R211 is TILE, whatever the active lanes. -/
def Obligations.MatrixIssue : Prop :=
  ∀ (i : Instr) (m : MatWords) (spans : List (Nat × Nat)), matrixOf i = some (m, spans) → i.wf = true →
    ∀ (s : State) (iss : Issue) (vs : List View), Issuing s iss vs → InBudget vs spans →
      ((∀ v ∈ vs, TileOk v m.tile (m.sub == 1)) →
        (∀ v ∈ activeOnce i vs, v.matCheck m (Instr.lanes i v) = .ok ∧ MatrixRoom s.dev v.grp.core v.c ∧
          ∀ p, v.matPlan m (Instr.lanes i v) = some p → s.dev.lostOf (v.matReads m p) = none) →
        CompletesOnce i s vs (fun v s t => ∀ p, v.matPlan m (Instr.lanes i v) = some p → QueuedMatrix m p v s t)) ∧
      (∀ v, vs = [v] → ¬ TileOk v m.tile (m.sub == 1) →
        exec i s = .next (s.trap iss i { cause := causeTile, detail := m.tile.toNat, lanes := none }))

/-- 10 R212, R217; 03 R65, R69 to R76. Every factor of a row is the exact product of its element, block scale and tensor scale,
and every term the exact product of its factors. `dot` sums the terms in order, in alignment groups; in reduced-array mode, which
holds until the boot has ended, the sum keeps the bound of R75. (Log entries 8 and 75: what the reduced array proposes is a free
value inside the bound, and a sum that rounds to zero gives +0.) The head of a core's matrix queue executes when its context is
active and the array is not slaved to a pair operation: the tile takes the sums of MMA, of both halves of MMAP, of MMAG.A or of
MMAG.K; every other tile stays, the operation leaves the queue and its locks go. -/
def Obligations.MatrixExecutes : Prop :=
  (∀ (g acc : Nat) (ps : List Val), 0 < g → acc < 2 ^ 32 →
    DotOf g acc ps (dot g acc ps) ∧
      ∀ core columns m n, ReducedDot g acc ps (dotReduced core columns m n g acc ps)) ∧
  (∀ (f : MatFormat) (book : List (BitVec 16)) (packed n : Nat) (scales : List Nat),
    (f.factors book packed n scales).length = n ∧
      ∀ k (h : k < (f.factors book packed n scales).length),
        Product (factorsAt f book packed scales k) ((f.factors book packed n scales)[k]'h)) ∧
  (∀ (xs ys : List Val) (x y : Val), Product xs x → Product ys y → Product (xs ++ ys) (mulExact x y).1) ∧
  (∀ (s : State) (core : BitVec 8),
    (s.dev.matrixHead core = none → exec (.matrixExecute core) s = .next s) ∧
    (∀ op, s.dev.matrixHead core = some op →
      (s.dev.slaved core = true ∨ (s.dev.ctx op.ctx).state ≠ .active → exec (.matrixExecute core) s = .next s) ∧
      (∀ w k fa fb, MatrixRuns s.dev op w k fa fb → MatrixForm op →
        ∃ t, exec (.matrixExecute core) s = .next t ∧ TilesAfter s.dev t.dev op w k fa fb ∧
          (∀ x ∈ t.dev.matrix, x.id ≠ op.id) ∧ (∀ l ∈ t.dev.locks, l.owner ≠ .matrix op.id))))

/-- 10 R213, R218, R219: MBATCH completes, once for a pair, closes the open batch under the next number and gives it to every
active lane; a batch retires when its operations have, with one arrival on its object, if any. MWAIT returns at once when the
batch and every earlier one have retired, and else its slot sleeps; a number that is not closed yet is ILLEGAL. -/
def Obligations.Batches : Prop :=
  (∀ (h : Hdr) (d : BitVec 7) (b : BitVec 6), (Instr.mbatch h d b).wf = true →
    ∀ (s : State) (iss : Issue) (vs : List View), Issuing s iss vs →
      InBudget vs ((h.d d, 8) :: if b = 0 then [] else [(8 * b.toNat, 8)]) →
      (∀ v ∈ activeOnce (.mbatch h d b) vs, b = 0 ∨ ObjectClear h b v (fun _ => hitsBarrier)) →
      CompletesOnce (.mbatch h d b) s vs (fun v s t =>
        let n := v.agent.batch + 1
        let batch : Batch :=
          { number := n, obj := if b = 0 then none else some (BitVec.ofNat 32 (objectAddr h b v)), told := false }
        let closed := s.modAgent v (fun a => { a with batch := n, openOps := 0, closed := a.closed ++ [batch] })
        WroteAll h (h.d d) 32 n.toNat v { s with dev := closed.dev.batches v.wg.uid v.home v.half } t)) ∧
  (∀ (d : Device) (uid g : Nat) (half : Bool) (w : Workgroup) (x : Group) (k : Kernel) (b : Batch), d.wg uid = some w →
    w.groups[g]? = some x → (d.ctx w.ctx).kernel w.handle w.kernel = some k → (x.agent half).closed = [b] →
    (d.ctx w.ctx).replay = false → (d.ctx w.ctx).logs 1 = false →
    let left := d.matrix.any (fun op => op.wg == uid && op.group == g && op.agent == half && op.batch == b.number)
    let gone := d.modGroup uid g (fun y => y.modAgent half (fun a => { a with closed := [] }))
    (left = true → d.batches uid g half = d) ∧
    (left = false → b.obj = none → d.batches uid g half = gone) ∧
    (left = false → ∀ a o, b.obj = some a → objectAt w k.shared x.core a.toNat = some o → d.lostIn o.space o.off 8 = none →
      d.batches uid g half = gone.arrive o none)) ∧
  (∀ (h : Hdr) (a : BitVec 7), (Instr.mwait h a).wf = true →
    ∀ (s : State) (iss : Issue) (vs : List View), Issuing s iss vs → InBudget vs [(h.a a, 8)] →
      let number (v : View) : Word := BitVec.ofNat 32 (v.readLowest (v.active h) (h.a a) 32)
      let isClosed (v : View) : Prop := (v.agent.batch - number v).toNat < 2 ^ 31
      ((∀ v ∈ activeOnce (.mwait h a) vs, v.isU (h.a a) 32 = true ∧ isClosed v) →
        CompletesOnce (.mwait h a) s vs (fun v s t =>
          if ∀ e ∈ v.agent.closed, 2 ^ 31 ≤ (number v - e.number).toNat then t = s
          else t = s.modHomeSlot v (fun sl => { sl with
            wait := .matrix (number v), wake := 0, addr := v.iss.addr, resume := v.iss.next }))) ∧
      (∀ v, vs = [v] → v.active h ≠ 0 → ¬ isClosed v → exec (.mwait h a) s = .next (s.trap iss (.mwait h a)
        { cause := causeIllegal, detail := Instr.extLen (.mwait h a), lanes := none })))

/-- 10 R220, R221: TLD, TST and their pair forms complete when the tile rule holds, no earlier operation of the group on the
tile is outstanding and the control cell is marked U and keeps its map. TLD gives each active lane the chosen columns of its
row; TST writes them, and no element of another row, column, tile or core. 10 R221: TZERO and TZERO.P complete, once for a
pair, when the tile rule holds and the tile is free: every element of the tile is +0, and no other element changes. TSTS and
TSTS.P complete, once for a pair, when their cells are marked U and their range is aligned, in the shared memory and clear of
locks: each byte of the range keeps the last element written to it, row after row. -/
def Obligations.TileMoves : Prop :=
  (∀ (i : Instr) (h : Hdr) (d t : BitVec 7) (b : BitVec 6) (pair store : Bool), tileMoveOf i = some (h, d, t, b, pair, store) →
     i.wf = true → ∀ (s : State) (iss : Issue) (vs : List View) (c : TileControl), Issuing s iss vs →
       InBudget vs [(8 * b.toNat, 8)] → (∀ v ∈ vs, TileOk v t pair ∧ InBudget [v] (v.controlSpan h d b)) →
       (∀ v ∈ actives i vs, TileFree v t ∧ v.isU (8 * b.toNat) 32 = true ∧ v.control (v.active h) b false = some c ∧
         (store = false → TileIntact s.dev (v.tileSide pair) t.toNat (hasLane (v.active h))
           (fun n => decide (c.col0 ≤ n ∧ n < c.col0 + c.ncol)))) →
       if store then
         Completes i s vs (fun v s r => ∃ e, r = { s with dev := e } ∧ SameButTiles v.wg.uid s.dev e ∧
           ((s.dev.wg v.wg.uid).isSome = true → ∀ side x m n, m < 32 → n < 32 →
             tileElement e side x m n =
               if sameSide side (v.tileSide pair) = true ∧ x = t.toNat ∧ hasLane (v.active h) m = true ∧ c.col0 ≤ n ∧ n < c.col0 + c.ncol then
                 tileIn c (v.read m (h.d d) (c.ncol * fmtBits c.efmt) / 2 ^ ((n - c.col0) * fmtBits c.efmt) %
                   2 ^ fmtBits c.efmt) % 2 ^ 32
               else tileElement s.dev side x m n))
       else
         Completes i s vs (WroteOne (fun v => v.active h) (h.d d) (c.ncol * fmtBits c.efmt) (fun v m =>
           ((List.range c.ncol).map (fun j =>
             tileOut c (tileElement v.dev (v.tileSide pair) t.toNat m (c.col0 + j)) * 2 ^ (j * fmtBits c.efmt))).sum)
           (fun _ => .g))) ∧
  ((∀ (i : Instr) (h : Hdr) (t : BitVec 7) (pair : Bool), (i = .tzero h t ∧ pair = false ∨ i = .tzeroP h t ∧ pair = true) →
     i.wf = true → ∀ (s : State) (iss : Issue) (vs : List View), Issuing s iss vs → (∀ v ∈ vs, TileOk v t pair) →
       (∀ v ∈ activeOnce i vs, TileFree v t) →
       CompletesOnce i s vs (fun v s r => ∃ e, r = { s with dev := e } ∧ SameButTiles v.wg.uid s.dev e ∧
         ∀ side x m n, m < 32 → n < 32 →
           tileElement e side x m n = if sameSide side (v.tileSide pair) = true ∧ x = t.toNat then 0 else tileElement s.dev side x m n)) ∧
   (∀ (i : Instr) (h : Hdr) (d t : BitVec 7) (b : BitVec 6) (pair : Bool),
     (i = .tsts h d t b ∧ pair = false ∨ i = .tstsP h d t b ∧ pair = true) → i.wf = true →
     ∀ (s : State) (iss : Issue) (vs : List View), Issuing s iss vs → InBudget vs [(h.d d, 8), (8 * b.toNat, 8)] →
       (∀ v ∈ vs, TileOk v t pair) →
       let addr (v : View) : Nat := v.readLowest (v.active h) (h.d d) 32
       let size (c : TileControl) : Nat := 31 * c.rstride + c.ncol * fmtBits c.efmt / 8
       (∀ v ∈ activeOnce i vs, TileFree v t ∧ v.isU (h.d d) 32 = true ∧ v.isU (8 * b.toNat) 32 = true ∧
         ∃ c p, v.control (v.active h) b true = some c ∧ addr v % (fmtBits c.efmt / 8) = 0 ∧
           v.shared (addr v) (size c) = some p ∧ v.dev.meetsLock p (size c) v.grp.core hitsStore = false ∧
           TileIntact s.dev (v.tileSide pair) t.toNat (fun _ => true) (fun n => decide (c.col0 ≤ n ∧ n < c.col0 + c.ncol))) →
       CompletesOnce i s vs (fun v s r => ∀ c p, v.control (v.active h) b true = some c → v.shared (addr v) (size c) = some p →
         ∃ e, r = State.accessed { s with dev := e } v
             ((List.range 32).map (fun m => (m, { p with addr := p.addr + m * c.rstride })))
             (c.ncol * fmtBits c.efmt / 8) false true ∧
           SameButMemory s.dev e ∧
           ((s.dev.wg v.wg.uid).isSome = true → StoredTile c v (v.tileSide pair) t.toNat p s.dev e))))

/-! ## Launches and the distributor (06 R152, R153; 08 R191; 15 R255 to R266; 16 R286) -/

/-- 15 R257, R258, R260: a waiting launch of an active or a stopped context becomes ready when its turn has come, and takes its
place in the ready list of its priority: before those of the same CYC with a higher context number or, in its context, a
higher queue, behind every other, each of which keeps its order. Before its turn nothing happens. 15 R255, R258; 16 R286: a
running launch with no workgroup left completes; a patch operation whose turn has come writes its bytes into its Locket's
image, drops the packets cached from it, and completes. Each then ends the graphs of its context all of whose operations have
completed, no other, and tells the host of each (message 2). -/
def Obligations.LaunchesBecomeReadyAndComplete : Prop :=
  (∀ (s : State) (c : BitVec 6) (tag : Word) (l : Launch), (s.dev.ctx c).launch tag = some l →
     ((s.dev.ctx c).state = .active ∨ (s.dev.ctx c).state = .stopped) → l.state = .waiting →
     (¬ TurnCome (s.dev.ctx c) l → exec (.launchReady c tag) s = .next s) ∧
     (TurnCome (s.dev.ctx c) l → s.dev.ringLength c 2 = 0 → (s.dev.ready.getD l.record.prio.toNat []).length < 128 →
       s.dev.ready.length = 4 →
       ∃ t before after, exec (.launchReady c tag) s = .next t ∧
         (t.dev.ctx c).launch tag = some { l with state := .ready, inRing := false, readyAt := s.dev.cyc.toNat } ∧
         s.dev.ready.getD l.record.prio.toNat [] = before ++ after ∧
         t.dev.ready.getD l.record.prio.toNat [] = before ++ (c, tag) :: after ∧
         (∀ e ∈ before, ¬ ReadyAfter t.dev c l e) ∧ (∀ e ∈ after.head?, ReadyAfter t.dev c l e) ∧
         (∀ p, p ≠ l.record.prio.toNat → t.dev.ready.getD p [] = s.dev.ready.getD p []))) ∧
  ((∀ (s : State) (c : BitVec 6) (tag : Word) (l : Launch), (s.dev.ctx c).launch tag = some l → l.state = .running →
     let busy := (s.dev.wgs ++ (s.dev.ctx c).saved).any (fun w => w.ctx == c && w.tag == tag)
     (busy = true → exec (.launchComplete c tag) s = .next s) ∧
     (busy = false → ∃ t, exec (.launchComplete c tag) s = .next t ∧ (t.dev.ctx c).launch tag = none ∧
       (∀ x ∈ (s.dev.ctx c).launches, x.record.tag ≠ tag → x ∈ (t.dev.ctx c).launches) ∧ t.dev.wgs = s.dev.wgs ∧
       GraphsEnded c s.dev t.dev)) ∧
   (∀ (s : State) (c : BitVec 6) (id off : Nat) (bytes : List (BitVec 8)) (l : Launch) (k : Locket),
     (s.dev.ctx c).launches.find? (fun l => l.live && l.record.op == 2 && l.order == id) = some l →
     ((s.dev.ctx c).state = .active ∨ (s.dev.ctx c).state = .stopped) → l.patch = some (off, bytes) → bytes ≠ [] →
     (s.dev.ctx c).locket l.record.handle = some k →
     (¬ TurnCome (s.dev.ctx c) l → exec (.patchApply c id) s = .next s) ∧
     (TurnCome (s.dev.ctx c) l → ∃ t, exec (.patchApply c id) s = .next t ∧
       ((t.dev.ctx c).locket l.record.handle).map Locket.image = some (overwrite k.image off bytes) ∧
       (∀ p ∈ t.dev.packets, p.ctx = c → p.handle ≠ l.record.handle) ∧
       (∀ p ∈ s.dev.packets, p.ctx ≠ c → p ∈ t.dev.packets) ∧
       (∀ x ∈ (t.dev.ctx c).launches, x.order = id → x.state = .complete) ∧ GraphsEnded c s.dev t.dev)))

/-- 15 R261 to R265; 06 R128; 17 R307: with no RESUME waiting, PLACEMENT puts the lowest workgroup left of the launch it
serves on the place with the fewest resident groups among those where it fits, the lowest first, with its ordinal and
coordinate; every core of a chosen place is enabled, not fenced, of the context's world, and has room; the lanes of its
threads are present, and the partitions that it lands on evict what their stores have no room for (01 R30). With nothing ready
it does nothing. The model's choices: how the threads of a quad's half-groups are numbered (log entry 59), and that a core's
world is that of its array's block identifier (log entry 32). -/
def Obligations.Placement : Prop :=
  (∀ (d : Device) (k : Kernel) (sec : Bool) (threads : Nat) (o : BitVec 8) (ps : List Placing),
    d.bestPlace k sec threads = some (o, ps) →
    d.fitAt k sec threads o = some ps ∧ (∀ core ∈ placeCores k.quad o, CoreHolds d k sec core) ∧
    ∃ before after, placeOrigins k.quad = before ++ o :: after ∧
      (∀ q ∈ before, (d.fitAt k sec threads q).isSome = true → residents d k o < residents d k q) ∧
      ∀ q ∈ after, (d.fitAt k sec threads q).isSome = true → residents d k o ≤ residents d k q) ∧
  (∀ (s : State), (∀ c, ¬ ((s.dev.ctx c).state = .stopped ∧ (s.dev.ctx c).mailbox.command = 5)) →
    (s.dev.served = none → exec .placement s = .next s) ∧
    (∀ c tag l k o ps, s.dev.served = some (c, tag) → (s.dev.ctx c).replay = false → (s.dev.ctx c).logs 0 = false →
      (s.dev.ctx c).launch tag = some l → (s.dev.ctx c).kernel l.record.handle l.record.kernel = some k →
      s.dev.bestPlace k (s.dev.ctx c).sec l.record.threads = some (o, ps) →
      k.hwCount l.record.threads ≤ (s.dev.freeAreas c).length →
      ∃ d w, exec .placement s = .next { s with
          dev := ((w.groups.map (fun g => (g.core, g.part))).eraseDups).foldl (fun d p => d.evict p.1 p.2 768) d } ∧
        d.wgs = s.dev.wgs ++ [w] ∧ w.ctx = c ∧ w.tag = tag ∧ w.core = o ∧
        w.ordinal = BitVec.ofNat 32 l.taken ∧ w.coord = k.coordAt l.record l.taken ∧
        w.groups.length = k.hwCount l.record.threads ∧
        (∀ j g, w.groups[j]? = some g → g.index = j ∧ ∀ i, i < 32 →
          hasLane g.present i = decide (threadOf k j i < l.record.threads)) ∧
        ((d.ctx c).launch tag).map Launch.taken = some (l.taken + 1)))

/-- 09 R209, R210; 06 R153: FENCE completes and changes nothing in a machine whose accesses each take effect in their own step
(log entry 6); FETCHW completes when its mailbox is aligned, in bounds and clear of locks but its own object's: its 32 bytes
are write-locked and its request waits for the distributor; no slice is written. 08 R191; 15 R260; 06 R152, R153: a queue with
a free place takes the request at the head of a context's ring, and no other; a launch ring stands in the order in which its
launches became ready, those of one CYC by queue. A FETCHW of an active context takes the lowest workgroup left of its launch:
the mailbox holds its coordinate, status 0 and its ordinal, or zero, status 1 and no ordinal when none is left; the lock goes
and the object counts one arrival. -/
def Obligations.FenceFetchAndRings : Prop :=
  ((∀ (h : Hdr) (sc : BitVec 3), (Instr.fence h sc).wf = true →
     ∀ (s : State) (iss : Issue) (vs : List View), Issuing s iss vs → exec (.fence h sc) s = .next s) ∧
   (∀ (h : Hdr) (b : BitVec 6), (Instr.fetchw h b).wf = true →
     ∀ (s : State) (iss : Issue) (v : View) (p : Place), Issuing s iss [v] → s.latch = none → InBudget [v] [(8 * b.toNat, 8)] →
       v.active h ≠ 0 → v.isU (8 * b.toNat) 32 = true → objectAddr h b v % 32 = 0 → v.shared (objectAddr h b v) 32 = some p →
       v.dev.meetsLock p 32 v.grp.core (fun l => decide (l.kind ≠ .barrier ∨ l.lo ≠ p.addr)) = false →
       (v.ctx.logs 0 = true → v.ctx.logFull 0 false 1 = false) →
       let lock : RangeLock := { core := s.dev.lockCore p.space v.grp.core, space := p.space, lo := p.addr, hi := p.addr + 31,
                                 kind := .write, owner := .request s.dev.nextId }
       s.dev.lockCount lock.core < 64 →
       exec (.fetchw h b) s = .next { s with dev := { s.dev with
         nextId := s.dev.nextId + 1
         locks := s.dev.locks ++ [lock]
         requests := s.dev.requests ++ [v.fetchRequest s.dev.nextId (BitVec.ofNat 32 (objectAddr h b v))] } })) ∧
  ((∀ (s : State) (die : BitVec 2) (r : Request), s.dev.copyRingHead die = some r →
     (s.dev.requests.filter (fun x => x.inQueue die)).length < 256 → ∀ d, s.dev.ringRead die r.ctx 1 = .ok d →
       exec (.ringRefill (.copy die)) s = .next { s with dev := d.modRequest r.id (fun x => { x with status := .queued }) }) ∧
   (∀ (x : Context) (l : Launch), x.ringHead = some l → l ∈ x.launches ∧ l.live = true ∧ l.inRing = true ∧
     ∀ m ∈ x.launches, m.live = true → m.inRing = true → l.readyAt < m.readyAt ∨ l.readyAt = m.readyAt ∧
       (l.record.queue < m.record.queue ∨ l.record.queue = m.record.queue ∧ l.ringAt ≤ m.ringAt)) ∧
   (∀ (s : State) (prio : BitVec 2) (c : BitVec 6) (l : Launch), s.dev.launchRingHead prio = some (c, l) →
     (s.dev.ready.getD prio.toNat []).length < 128 → ∀ d, s.dev.ringRead 0 c 2 = .ok d →
     ∃ t, exec (.ringRefill (.launch prio)) s = .next t ∧
       t.dev.ready = modAt d.ready prio.toNat (fun r => r ++ [(c, l.record.tag)]) ∧
       (t.dev.ctx c).launches = (d.ctx c).launches.map (fun y =>
         if y.record.tag = l.record.tag ∧ y.state ≠ .complete then { y with inRing := false } else y)) ∧
   (∀ (s : State) (q : RingRef),
     (match q with
      | .matrix core => s.dev.matrixRingHead core = none ∨
          64 ≤ (s.dev.matrix.filter (fun x => x.core == core && !x.inRing)).length
      | .copy die => s.dev.copyRingHead die = none ∨ 256 ≤ (s.dev.requests.filter (fun x => x.inQueue die)).length
      | .launch prio => s.dev.launchRingHead prio = none ∨ 128 ≤ (s.dev.ready.getD prio.toNat []).length) →
     exec (.ringRefill q) s = .next s) ∧
   (∀ (s : State) (id : Nat) (r : Request) (a : Word) (w : Workgroup) (k : Kernel) (l : Launch) (o : ObjRef),
     s.dev.request id = some r → r.work = .fetch a → (s.dev.ctx r.ctx).serving = true → s.dev.wg r.wg = some w →
     (s.dev.ctx w.ctx).kernel w.handle w.kernel = some k → (s.dev.ctx r.ctx).launch r.tag = some l →
     objectAt w k.shared r.core r.bar.toNat = some o → s.dev.objectLost o = none → (s.dev.ctx r.ctx).replay = false → (s.dev.ctx r.ctx).logs 0 = false →
     let left := decide (l.taken < l.record.total)
     ∃ t e, exec (.fetchwHandover id) s = .next t ∧ t = { s with dev := Device.arrive e o none } ∧
       e.num o.space (o.off + 8) 8 = (if left then (k.coordAt l.record l.taken).toNat else 0) ∧
       e.num o.space (o.off + 16) 4 = (if left then 0 else 1) ∧
       e.num o.space (o.off + 20) 4 = (if left then l.taken % 2 ^ 32 else 2 ^ 32 - 1) ∧
       e.num o.space (o.off + 24) 8 = 0 ∧ (∀ x ∈ e.requests, x.id ≠ id) ∧ (∀ x ∈ e.locks, x.owner ≠ .request id) ∧
       ((t.dev.ctx r.ctx).launch r.tag).map Launch.taken = some (if left then l.taken + 1 else l.taken)))

/-! ## Host commands (15 R253, R254; 16 R271 to R286; 17 R302, R303) -/

/-- 15 R253, R254, Table 15-1: a doorbell with a malformed command is answered BADCMD, one for a context that is free REFUSED,
one while another command runs only sets the overrun bit of that command's answer, and one before the boot has ended is
dropped. That BADCMD goes before the REFUSED of a free context is the model's choice (log entry 53). -/
def Obligations.MailboxRules : Prop :=
  ∀ (i : Instr) (s : State) (c : BitVec 6) (n : Nat) (b : List (BitVec 8)), takePad 0 (s.dev.ctx c).mailbox.cmd 64 = b →
    commandOf i (s.dev.ctx c).mailbox.cmd = some (c, n) → leAt (s.dev.ctx c).mailbox.cmd 0 1 = n →
    (s.dev.booted = false → exec i s = .next s) ∧
    (s.dev.booted = true → ∀ x, (s.dev.ctx c).mailbox.running = some x →
      exec i s = .next { s with dev := s.dev.modCtx c (fun y => { y with mailbox := { y.mailbox with dropped := true } }) }) ∧
    (s.dev.booted = true → (s.dev.ctx c).mailbox.running = none →
      ((leAt b 2 2 ≠ 0 ∨ unusedZero n b = false) → exec i s = .next { s with dev := answered s.dev c b 3 [] }) ∧
      (leAt b 2 2 = 0 → unusedZero n b = true → (s.dev.ctx c).state = .free →
        exec i s = .next { s with dev := answered s.dev c b 2 [] }))

/-- 16 R275, R278, R284, R285: LOAD refuses an image with the number of the first check that fails, or with 2 when the loader
finds no place for a region, and changes nothing, and else adds the Locket under a new handle, extends the attestation
register and answers the handle. UNLOAD is BUSY while a launch of its Locket is live, and, unless forced, while a stopped
context has saved workgroups of it; else it takes the Locket away and marks those workgroups, and its regions go, but that its
spill region and save area pass to the first other Locket, if there is one, which is the model's reading (log entry 84) (which
launches count as live in a stopped context is the model's reading, log entry 31). PATCH of a debuggable Locket queues its
bytes as a patch operation and extends the attestation register. -/
def Obligations.LoadUnloadPatch : Prop :=
  (∀ (s : State) (c : BitVec 6) (b : List (BitVec 8)), Commanded s.dev c b 1 →
    leAt b 8 8 % 64 = 0 → leAt b 8 8 + leAt b 16 4 ≤ 2 ^ 64 →
    let img := Memory.bytes s.dev.host (leAt b 8 8) (leAt b 16 4)
    (∀ n, (accepted s.dev c b).failedCheck c img = some n →
      exec (.load c) s = .next { s with dev := answered s.dev c b 2 ([0, 0] ++ natToBytes n 2) }) ∧
    ((accepted s.dev c b).failedCheck c img = none → (accepted s.dev c b).loadImage c img = none →
      exec (.load c) s = .next { s with dev := answered s.dev c b 2 [0, 0, 2, 0] }) ∧
    (∀ e h, (accepted s.dev c b).failedCheck c img = none → (accepted s.dev c b).loadImage c img = some (e, h) →
      exec (.load c) s = .next { s with dev := answered e c b 0 (natToBytes h 2) } ∧ 0 < h ∧ h < 65536 ∧
        (∀ l ∈ (s.dev.ctx c).lockets, l.handle.toNat ≠ h) ∧
        (∃ l, (e.ctx c).lockets = (s.dev.ctx c).lockets ++ [l] ∧ l.handle = BitVec.ofNat 16 h) ∧
        (e.ctx c).attest = extendAttest (s.dev.ctx c).attest img ∧ (∀ x, x ≠ c → e.ctx x = s.dev.ctx x) ∧
        e.wgs = s.dev.wgs)) ∧
  (∀ (s : State) (c : BitVec 6) (b : List (BitVec 8)), Commanded s.dev c b 6 →
    let handle : BitVec 16 := BitVec.ofNat 16 (leAt b 4 2)
    ((∀ l ∈ (s.dev.ctx c).lockets, l.handle ≠ handle) → exec (.unload c) s = .next { s with dev := answered s.dev c b 2 [] }) ∧
    ((∃ l ∈ (s.dev.ctx c).lockets, l.handle = handle) →
      let saved := (s.dev.ctx c).state = .stopped ∧ ∃ w ∈ (s.dev.ctx c).saved, w.handle = handle
      let live := (∃ l ∈ (s.dev.ctx c).launches, l.record.handle = handle ∧ l.state ≠ .complete ∧
          ¬ ((s.dev.ctx c).state = .stopped ∧ ∃ w ∈ (s.dev.ctx c).saved, w.handle = handle ∧ w.tag = l.record.tag)) ∨
        ∃ p ∈ s.dev.posts, p.ctx = c ∧ p.record.handle = handle
      ((live ∨ saved ∧ leAt b 6 1 = 0) → exec (.unload c) s = .next { s with dev := answered s.dev c b 1 [] }) ∧
      (¬ live → (¬ saved ∨ leAt b 6 1 = 1) →
        ∃ e, exec (.unload c) s = .next { s with dev := answered e c b 0 [] } ∧
          (e.ctx c).lockets = (s.dev.ctx c).lockets.filter (fun l => l.handle != handle) ∧
          (e.ctx c).saved = (s.dev.ctx c).saved.map (fun w => if w.handle = handle then { w with gone := true } else w) ∧
          (e.ctx c).regions = (s.dev.ctx c).regions.filterMap (fun r =>
            if r.handle ≠ some handle then some r
            else if r.kind = 4 ∨ r.kind = 10 then
              ((s.dev.ctx c).lockets.find? (fun l => l.handle != handle)).map (fun l => { r with handle := some l.handle })
            else none) ∧
          (∀ x, x ≠ c → e.ctx x = s.dev.ctx x) ∧ e.wgs = s.dev.wgs))) ∧
  (∀ (s : State) (c : BitVec 6) (b : List (BitVec 8)) (l : Locket), Commanded s.dev c b 3 →
    (s.dev.ctx c).locket (BitVec.ofNat 16 (leAt b 4 2)) = some l →
    let off := leAt b 8 4
    let len := leAt b 12 2
    let bytes := slicePad 0 b 16 len
    (l.dbg = false → exec (.patch c) s = .next { s with dev := answered s.dev c b 2 [] }) ∧
    (l.dbg = true → 0 < len → len ≤ 48 → off + len ≤ l.image.length → patchWhole l.image off len = true →
      kernelsPass (overwrite l.image off bytes) = true →
      ordrOk (s.dev.ctx c) (kernelsOf (overwrite l.image off bytes)) = true → (s.dev.ctx c).pendingPatches < 16 →
      ∃ e op kept, exec (.patch c) s = .next { s with dev := answered e c b 0 [] } ∧
        (e.ctx c).launches = kept ++ [op] ∧ (∀ x ∈ kept, x ∈ (s.dev.ctx c).launches) ∧
        (∀ x ∈ (s.dev.ctx c).launches, x.live = true → x ∈ kept) ∧ op.record.op = 2 ∧ op.record.handle = l.handle ∧
        op.record.queue = leAt b 6 1 % 16 ∧ op.state = .waiting ∧ op.patch = some (off, bytes) ∧
        (e.ctx c).attest = extendAttest (s.dev.ctx c).attest b ∧ (e.ctx c).lockets = (s.dev.ctx c).lockets))

/-- 15 R254 to R257: START of a graph whose records and arguments are in order, no two of one tag, rewrites the base of each
tensor map that its arguments name, enters the records as waiting launches behind every earlier one, in their order and at the
command's priority, keeps the graph till it is over, and answers OK; with an argument or a record that is not, it is REFUSED
and changes nothing. That the command's priority replaces a record's is the model's reading (log entry 53), and so are that a
queue has room for any number of launches (log entry 27), and that an empty graph keeps no run and that a record of operation
code 2 enters with nothing to patch (log entry 49). -/
def Obligations.StartEntersGraph : Prop :=
  ∀ (s : State) (c : BitVec 6) (b : List (BitVec 8)) (rs : List LaunchRec), Commanded s.dev c b 2 →
    ((s.dev.ctx c).locket (BitVec.ofNat 16 (leAt b 4 2))).bind (fun l => l.graph (leAt b 6 2)) = some rs →
    let args := (List.range (leAt b 9 1)).map (fun j => (leAt b (12 + 16 * j) 1, leAt b (20 + 16 * j) 8))
    let lawful := leAt b 8 1 ≤ 3 ∧ leAt b 9 1 ≤ 3 ∧ (∀ a ∈ args, (s.dev.ctx c).argOk a = true) ∧
      (∀ r ∈ rs, s.dev.recordOk c r = true) ∧ (rs.map LaunchRec.tag).Nodup
    (¬ lawful → exec (.start c) s = .next { s with dev := answered s.dev c b 2 [] }) ∧
    (lawful → ∃ e kept, exec (.start c) s = .next { s with dev := answered e c b 0 [] } ∧
      (∀ k j, ((e.ctx c).tmap k).getLsbD j =
        match (args.filter (fun a => a.1 == k)).getLast? with
        | some a => if j < 64 then a.2.testBit j else ((s.dev.ctx c).tmap k).getLsbD j
        | none => ((s.dev.ctx c).tmap k).getLsbD j) ∧
      (∀ x ∈ kept, x ∈ (s.dev.ctx c).launches) ∧ (∀ x ∈ (s.dev.ctx c).launches, x.live = true → x ∈ kept) ∧
      (e.ctx c).launches = kept ++ rs.mapIdx (fun j r =>
        { record := { r with prio := BitVec.ofNat 2 (leAt b 8 1) }, state := .waiting, taken := 0,
          order := (s.dev.ctx c).nextOrder + j, graph := some (s.dev.ctx c).nextOrder, patch := none, inRing := false,
          ringAt := 0, readyAt := 0 }) ∧
      (e.ctx c).graphs = (s.dev.ctx c).graphs ++ (if rs = [] then [] else
        [{ id := (s.dev.ctx c).nextOrder, handle := BitVec.ofNat 16 (leAt b 4 2), index := leAt b 6 2,
           tags := rs.map LaunchRec.tag }]))

/-- 17 R302 to R304: STOP of an active context that its save area holds makes it stop; once it has drained its accumulators go
to its reduction area, its workgroups and requests to its save area and leave the device, and the STOP that waits for it is
answered OK; without room STOP is REFUSED, and a save that reads what an error has lost ends the context with INTEGRITY (21
R333). RESUME of an active context puts its parked requests back in their queues, and of a stopped one restores it; a restore
that meets a fault is answered REFUSED, and leaves the context stopped unless the fault ends it. 17 R303 to R306: from the
records that a save writes, each hardware group, workgroup and request is restored as it was: the cells, masks, codebooks,
slots, stacks and trap records of its groups, at whatever seats, its tiles, shared memory and barrier locks, at whatever
place, and its requests with their cells and progress, queued again. The model's readings: that a STOP whose context ends is
answered REFUSED (log entry 53), that a save that fails ends the context (log entry 60), and that a RESUME restores every
workgroup in one step or waits (log entry 67). -/
def Obligations.StopAndResume : Prop :=
  (∀ (s : State) (c : BitVec 6) (b : List (BitVec 8)), Commanded s.dev c b 4 →
    ((s.dev.ctx c).state = .stopped → exec (.stop c) s = .next { s with dev := answered s.dev c b 0 [] }) ∧
    ((s.dev.ctx c).state = .active → (s.dev.ctx c).stopping = false → s.dev.saveFits c = true →
      exec (.stop c) s = .next { s with dev := (accepted s.dev c b).modCtx c (fun x => { x with stopping := true }) }) ∧
    ((s.dev.ctx c).state = .active → (s.dev.ctx c).stopping = false → s.dev.saveFits c = false →
      exec (.stop c) s = .next { s with dev := answered s.dev c b 2 [] })) ∧
  (∀ (s : State) (c : BitVec 6) (d a e : Device) (r : Region), (s.dev.ctx c).state = .active → (s.dev.ctx c).stopping = true →
    s.dev.drained c = true → (∀ p ∈ s.dev.lost, s.dev.savedPlace c p = false) →
    s.dev.refillAll (s.dev.groupsOf c) = .ok d → d.writeAccumulators c = .ok a →
    (a.ctx c).saveArea = some r → a.writePieces c r.base (a.savePieces c) = .ok e →
    ∃ u : Device, (u.ctx c).state = .stopped ∧ (u.ctx c).stopping = false ∧ (u.ctx c).saved = e.placedOf c ∧
      (∀ w ∈ u.wgs, w.ctx = c → w.gone = true) ∧ (∀ q ∈ u.requests, q.ctx ≠ c) ∧ (∀ l ∈ u.locks, e.lockOf c l = false) ∧
      (∀ b, RunsCommand u c b 4 → exec (.stopComplete c) s = .next { s with dev := answeredLate u c b 0 }) ∧
      ((∀ b, ¬ RunsCommand u c b 4) → exec (.stopComplete c) s = .next { s with dev := u }) ∧
      (u.ctx c).mailbox = (e.ctx c).mailbox) ∧
  (∀ (s : State) (c : BitVec 6) (p : StoredPlace), (s.dev.ctx c).state = .active → (s.dev.ctx c).stopping = true →
    s.dev.drained c = true → s.dev.lost.find? (s.dev.savedPlace c) = some p →
    ∃ t, exec (.stopComplete c) s = .next t ∧ (t.dev.ctx c).state = .ended ∧ (t.dev.ctx c).fcause = 0x82 ∧
      (t.dev.ctx c).fdetail = BitVec.ofNat 32 (s.dev.blockOf p)) ∧
  (∀ (s : State) (c : BitVec 6), ((s.dev.ctx c).state = .active ∧ (s.dev.ctx c).stopping = true ∧ s.dev.drained c = false) →
    exec (.stopComplete c) s = .next s) ∧
  (∀ (s : State) (c : BitVec 6) (b : List (BitVec 8)), (s.dev.ctx c).state = .ended →
    (RunsCommand s.dev c b 4 ∨ RunsCommand s.dev c b 5) →
    exec (.stopComplete c) s = .next { s with dev := answeredLate s.dev c b 2 }) ∧
  (∀ (s : State) (c : BitVec 6) (b : List (BitVec 8)), Commanded s.dev c b 5 →
    ((s.dev.ctx c).state = .active → (s.dev.ctx c).stopping = false →
      ∃ e, exec (.resume c) s = .next { s with dev := answered e c b 0 [] } ∧ e.contexts = (accepted s.dev c b).contexts ∧
        e.requests.map Request.id = s.dev.requests.map Request.id ∧
        (∀ q ∈ e.requests, q.ctx = c → q.isParked = false ∧ q.leaves = []) ∧
        (∀ q ∈ s.dev.requests, q.isParked = false → (if q.ctx = c then { q with leaves := [] } else q) ∈ e.requests) ∧
        (∀ q ∈ s.dev.requests, q.ctx ≠ c → q ∈ e.requests) ∧ ∀ x ∈ e.tlb, x.ctx ≠ c) ∧
    ((s.dev.ctx c).state = .stopped →
      (∀ e, (accepted s.dev c b).restore c = .done e → (e.ctx c).replay = false →
        ∃ t, exec (.resume c) s = .next t ∧ (t.dev.ctx c).state = .active ∧ (t.dev.ctx c).saved = [] ∧ t.dev.wgs = e.wgs ∧
          t.dev.requests = e.requests ∧ (t.dev.ctx c).mailbox.running = none ∧ (t.dev.ctx c).mailbox.status = 0) ∧
      ((accepted s.dev c b).restore c = .wait → exec (.resume c) s = .next { s with dev := accepted s.dev c b }) ∧
      (∀ f, (accepted s.dev c b).restore c = .fail f →
        exec (.resume c) s = .next { s with dev := answered ((accepted s.dev c b).contextFault c f) c b 2 [] } ∧
          (f.code ≠ 0x82 → f.code ≠ 0x83 → (((accepted s.dev c b).contextFault c f).ctx c).state = .stopped)))) ∧
  ((∀ (k : Kernel) (g : Group) (core : BitVec 8) (part : BitVec 5) (rslot : Nat) (gen : BitVec 4), Recordable k g →
     ∃ h, (seated g core part rslot gen).ofRecord k (g.record k) = some h ∧
       GroupReadBack k (seated g core part rslot gen) h) ∧
   (∀ (d : Device) (k : Kernel) (w : Workgroup) (o : BitVec 8) (ps : List Placing), RecordableWorkgroup k w →
     let m := w.moveTo d o ps
     (∀ b ∈ w.bars, (objectAt m k.shared o b.addr.toNat).isSome = true) →
     ∃ v, m.ofRecord k w.core (w.record k) = some v ∧ WorkgroupReadBack k m v) ∧
   (∀ (d : Device) (ws : List Workgroup) (r : Request) (core : BitVec 8) (w : Workgroup) (k : Kernel) (o : ObjRef),
     IssuedWork r → r.isRetired = false → indexOfWg ws r.wg < 2 ^ 16 → d.wg r.wg = some w → d.kernelOf w = some k →
     r.bar.toNat % 8 = 0 → objectAt w k.shared core r.bar.toNat = some o →
     let q := { r.saved with core := core, die := dieOf core }
     Request.ofRecord d ws q (r.saved.record (indexOfWg ws r.wg) false) = some { q with status := .queued, leaves := [] }))

/-- 15 R254; 16 R271; 21 R336; 22 R341: the QUERY items answer a block's counters with its fenced and remapped bits, a
lane-cycle bin, the sleep counter and a region, and set a bin anew. That a bin number from 0x42 on, or from 64 on where a bin
is set, and a region kind other than 4 and 10 are answered BADCMD, and every other item OK, with bytes that are free, is the
model's choice (log entry 11). -/
def Obligations.Queries : Prop :=
  ∀ (s : State) (c : BitVec 6) (b : List (BitVec 8)), Commanded s.dev c b 7 →
    let item := leAt b 4 4
    let low := item % 2 ^ 24
    let x := s.dev.ctx c
    let answer (results : List (BitVec 8)) : Host.Outcome State Fault Refusal :=
      .next { s with dev := answered s.dev c b 0 results }
    let bad : Host.Outcome State Fault Refusal := .next { s with dev := answered s.dev c b 3 [] }
    let bin (j : Nat) : Bin := tableGet { range := 0, counts := [0, 0, 0, 0, 0] } x.bins j
    let words (l : List (BitVec 64)) (n : Nat) : List (BitVec 8) := (List.range n).flatMap (fun j => natToBytes (l.getD j 0).toNat 8)
    (item / 2 ^ 24 = 1 → exec (.queryErrorCounters c) s =
      if isBlockId low then
        let n := countersOf s.dev low
        let core : BitVec 8 := BitVec.ofNat 8 (low / 2 ^ 14 % 4 * 64 + low / 2 ^ 8 % 64)
        let kind := low / 2 ^ 16 % 16
        let columns := (tableGet { columns := [], reduced := false } s.dev.arrays core.toNat).columns
        answer (natToBytes n.corrected.toNat 8 ++ natToBytes n.replays.toNat 8 ++ natToBytes n.uncorrectable.toNat 8 ++
          natToBytes ((if kind ≤ 3 ∧ core ∈ s.dev.fenced then 1 else 0) +
            (if kind = 0 ∧ BitVec.ofNat 8 low ∈ columns then 2 else 0) + (if kind = 0 then columns.length * 256 else 0)) 4)
      else bad) ∧
    (∀ id, id < 2 ^ 32 → (isBlockId id = true ↔ isBlock21 id)) ∧
    (item / 2 ^ 24 = 2 → low ≠ 0x41 → exec (.queryLaneCycleBin c) s =
      if low < 64 then answer (words (bin low).counts 5 ++ natToBytes (bin low).range.toNat 8)
      else if low = 64 then answer (words (bin 64).counts 5 ++ words x.waitCounts 2)
      else bad) ∧
    (item = 0x02000041 → exec (.querySleepCounter c) s = answer (natToBytes (x.waitCounts.getD 2 0).toNat 8)) ∧
    (item / 2 ^ 24 = 3 → exec (.querySetBin c) s =
      if low < 64 then
        let range : BitVec 64 := BitVec.ofNat 64 (leAt b 8 8)
        let e := s.dev.modCtx c (fun x => { x with bins := tableSet x.bins low { range := range, counts := [0, 0, 0, 0, 0] } })
        .next { s with dev := answered e c b 0 [] }
      else bad) ∧
    (item / 2 ^ 24 = 4 → exec (.queryRegion c) s =
      if low = 4 ∨ low = 10 then
        answer (match x.regions.find? (fun r => r.kind.toNat == low) with
          | some r => natToBytes r.base 8 ++ natToBytes r.size 8
          | none => [])
      else bad) ∧
    ((item / 2 ^ 24 = 0 ∨ 5 ≤ item / 2 ^ 24) → ∃ results, exec (.query c) s = answer results)

/-! ## Contexts, the window and the debugger (17 R287 to R289; 18 R308; 22 R339 to R348) -/

/-- 17 R288, R289: a free block becomes an active context whose %fmode, %fflags, %layer, attestation register, promise-miss
counter and tensor maps are zero, and which keeps its root and world; destroying a stopped or ended context frees the block
and leaves it no Locket, launch, region, gate entry, workgroup, request or cached translation, and its attestation register,
promise-miss counter and fault fields zero. That destruction clears these and keeps the root and the world is the model's
reading (log entry 54). -/
def Obligations.ContextLifecycle : Prop :=
  (∀ (s : State) (c : BitVec 6), s.dev.booted = true → (s.dev.ctx c).state = .free →
    ∃ t, exec (.contextCreate c) s = .next t ∧ (∀ x, x ≠ c → t.dev.ctx x = s.dev.ctx x) ∧
      let x := t.dev.ctx c
      x.state = .active ∧ x.fmode = 0 ∧ x.fflags = 0 ∧ x.layer = 0 ∧ x.attest = 0 ∧ x.pmiss = 0 ∧ x.fcause = 0 ∧
        (∀ n, x.tmap n = 0) ∧ x.root = (s.dev.ctx c).root ∧ x.sec = (s.dev.ctx c).sec) ∧
  (∀ (s : State) (c : BitVec 6), (s.dev.ctx c).state ≠ .free → exec (.contextCreate c) s = .next s) ∧
  (∀ (s : State) (c : BitVec 6), s.dev.booted = true → (s.dev.ctx c).state = .stopped ∨ (s.dev.ctx c).state = .ended →
    ∃ t, exec (.contextDestroy c) s = .next t ∧ (∀ x, x ≠ c → t.dev.ctx x = s.dev.ctx x) ∧
      (let x := t.dev.ctx c
       x.state = .free ∧ x.lockets = [] ∧ x.launches = [] ∧ x.regions = [] ∧ x.gates = [] ∧ x.saved = [] ∧
        x.dbgBlock = Debug.zero ∧ x.attest = 0 ∧ x.pmiss = 0 ∧ x.fcause = 0 ∧ x.taddr = 0 ∧
        x.root = (s.dev.ctx c).root ∧ x.sec = (s.dev.ctx c).sec) ∧
      (∀ w ∈ t.dev.wgs, w.ctx ≠ c) ∧ (∀ r ∈ t.dev.requests, r.ctx ≠ c) ∧ (∀ x ∈ t.dev.tlb, x.ctx ≠ c)) ∧
  (∀ (s : State) (c : BitVec 6), (s.dev.ctx c).state = .active → exec (.contextDestroy c) s = .next s)

/-- 17 Table 17-1; 18 R308, R314; 22 R341, R352; 23 R355 to R357: a write of a gate entry of a free or stopped context takes
effect, and of any other is dropped; a log's tail moves only between its tail and its head; lcr going to 1 clears the
counters; the message tail moves only up to the head; the aperture reaches the HBM outside every secure range and nothing
else. 23 R355; 24 R366, R367: a host read of the window gives the mailboxes, control blocks, gate tables, debug blocks, link
registers and inbound windows at their offsets, and zero elsewhere; before the boot has ended it gives zero everywhere but in
the boot status. -/
def Obligations.WindowWrites : Prop :=
  ((∀ (s : State) (c : BitVec 6) (j : Nat) (v : BitVec 64), s.dev.booted = true → j < 256 →
     let entry (t : State) (k : Nat) : BitVec 64 := tableGet 0 (t.dev.ctx c).gates k
     ((s.dev.ctx c).state = .free ∨ (s.dev.ctx c).state = .stopped →
       ∃ t, exec (.registerWrite (0x6000 + 2048 * c.toNat + 8 * j) .b8 v) s = .next t ∧
         ∀ k, entry t k = if k = j then v else entry s k) ∧
     ((s.dev.ctx c).state = .active ∨ (s.dev.ctx c).state = .ended →
       exec (.registerWrite (0x6000 + 2048 * c.toNat + 8 * j) .b8 v) s = .next s)) ∧
   (∀ (s : State) (off : Nat) (z : WriteSize) (v : BitVec 64), s.dev.booted = false → exec (.registerWrite off z v) s = .next s) ∧
   (∀ (s : State) (c : BitVec 6) (k : BitVec 2) (v : Word), s.dev.booted = true → ((s.dev.ctx c).region 7 k.toNat).isSome = true →
     let l := (s.dev.ctx c).log k.toNat
     exec (.logTailWrite c k v) s = .next (if (v - l.tail).toNat ≤ (l.head - l.tail).toNat then
       { s with dev := s.dev.modCtx c (fun x => x.modLog k.toNat (fun l => { l with tail := v })) }
       else { s with dev := s.dev.modCtx c id })) ∧
   (∀ (s : State) (c : BitVec 6), s.dev.booted = true →
     ∃ t, exec (.lcrEnable c) s = .next t ∧ (t.dev.ctx c).dbgBlock = { (s.dev.ctx c).dbgBlock with lcr := true } ∧
       ((s.dev.ctx c).dbgBlock.lcr = true → (t.dev.ctx c).bins = (s.dev.ctx c).bins) ∧
       ((s.dev.ctx c).dbgBlock.lcr = false → (t.dev.ctx c).waitCounts = [0, 0, 0] ∧
         ∀ p ∈ (t.dev.ctx c).bins, p.2.counts = [0, 0, 0, 0, 0])) ∧
   (∀ (s : State) (v : Word), s.dev.booted = true →
     let room := (v - s.dev.msgTail).toNat ≤ (s.dev.msgHead - s.dev.msgTail).toNat
     (¬ room → exec (.messageTailWrite v) s = .next s) ∧
     (room → s.dev.held = [] → exec (.messageTailWrite v) s = .next { s with dev := { s.dev with msgTail := v } })) ∧
   (∀ (s : State) (off : BitVec 32) (n : Nat) (bytes : List (BitVec 8)), s.dev.booted = true → s.dev.accs = [] →
     let reach (k : Nat) : Prop := off.toNat + k < 2 ^ 32 ∧ s.dev.aperture.toNat + off.toNat + k < 12 * 64 * 2 ^ 30 ∧
       ∀ r ∈ s.dev.secRanges, ¬ (r.1 ≤ s.dev.aperture.toNat + off.toNat + k ∧ s.dev.aperture.toNat + off.toNat + k < r.1 + r.2)
     (∃ t, exec (.hostApertureAccess off (.read n)) s = .next t ∧ t.dev.apData.length = n ∧ t.dev.hbm = s.dev.hbm ∧
       ∀ k, k < n → (reach k → .hbm (s.dev.aperture.toNat + off.toNat + k) ∉ s.dev.lost →
           t.dev.apData.getD k 0 = Memory.byte s.dev.hbm (s.dev.aperture.toNat + off.toNat + k)) ∧
         (¬ reach k → t.dev.apData.getD k 0 = 0)) ∧
     (∃ t, exec (.hostApertureAccess off (.write bytes)) s = .next t ∧
       ∀ a, (∀ k, k < bytes.length → reach k → a = s.dev.aperture.toNat + off.toNat + k →
           Memory.byte t.dev.hbm a = bytes.getD k 0) ∧
         ((∀ k, k < bytes.length → reach k → a ≠ s.dev.aperture.toNat + off.toNat + k) →
           Memory.byte t.dev.hbm a = Memory.byte s.dev.hbm a)))) ∧
  (∀ (d : Device),
     (∀ k, k < 4 → d.windowByte (0x2A020 + k) =
       BitVec.ofNat 8 (((if d.boot.halt then 2 ^ 31 else 0) + d.boot.step.toNat) / 256 ^ k)) ∧
     (d.booted = false → ∀ off, (off < 0x2A020 ∨ 0x2A024 ≤ off) → (off < 0x2B000 ∨ 0x2C000 ≤ off) → d.windowByte off = 0) ∧
     (d.booted = true →
       (∀ (c : BitVec 6) k, k < 8 → d.windowByte (0x4000 + 128 * c.toNat + 8 + k) = BitVec.ofNat 8 ((d.ctx c).root.toNat / 256 ^ k)) ∧
       (∀ (c : BitVec 6) k, k < 64 → d.windowByte (0x4000 + 128 * c.toNat + 64 + k) =
         BitVec.ofNat 8 ((d.ctx c).attest.toNat / 256 ^ k)) ∧
       (∀ (c : BitVec 6) j k, j < 256 → k < 8 → d.windowByte (0x6000 + 2048 * c.toNat + 8 * j + k) =
         BitVec.ofNat 8 ((tableGet 0 (d.ctx c).gates j).toNat / 256 ^ k)) ∧
       (∀ k, k < 8 → d.windowByte (0x2A028 + k) = BitVec.ofNat 8 (d.power.toNat / 256 ^ k)) ∧
       (∀ k, k < 4 → d.windowByte (0x2A040 + k) = BitVec.ofNat 8 (d.throttled.toNat / 2 ^ 16 / 256 ^ k)) ∧
       (∀ off, 0x2C000 ≤ off → off < 0x100000 → d.windowByte off = 0)))

/-- 22 R345, R346, R348: STOPWG makes a running target stop, which shows in st; WORKGROUP_HALT stops it when its register writes
have drained, sets why to the cause and tells the host; and CONT makes a stopped target go on, past the BRK that stopped it;
CONT and STEP of a target that is not stopped, and STEP with an object that is misaligned, set err. STEP of a stopped target
lets it go on until its object leaves the phase it is in. 22 R347, Table 22-2: the port reads and writes a mask and an 8-byte
word of the shared memory of a stopped target, and refuses, with err set, a target that is not stopped. -/
def Obligations.DebugCommands : Prop :=
  (∀ (s : State) (c : BitVec 6) (w : Workgroup), s.dev.wg w.uid = some w →
     (Targeted s.dev c 1 w → w.stopped.st = 0 →
       ∃ t, exec (.stopwg c) s = .next t ∧
         (t.dev.ctx c).dbgBlock = { (s.dev.ctx c).dbgBlock with cmd := 1, err := false, st := 1 } ∧
         (t.dev.wg w.uid).map Workgroup.stopped = some { w.stopped with
           st := 1, cause := 1, prior := ((s.dev.ctx c).dbgBlock.st, (s.dev.ctx c).dbgBlock.why), stepObj := none
           halted := [] }) ∧
     (Targeted s.dev c 2 w → w.stopped.st ≠ 2 → ∃ t, exec (.cont c) s = .next t ∧ t.dev.wgs = s.dev.wgs ∧
       (t.dev.ctx c).dbgBlock = { (s.dev.ctx c).dbgBlock with cmd := 2, err := true }) ∧
     (Targeted s.dev c 2 w → w.stopped.st = 2 → w.stopped.brkAt = none →
       ∃ t, exec (.cont c) s = .next t ∧ (t.dev.ctx c).dbgBlock = { (s.dev.ctx c).dbgBlock with cmd := 2, err := false, st := 0, why := 0 } ∧
         t.dev.wgs = s.dev.wgs.map (fun x => if x.uid = w.uid then { x with stopped := DebugStop.running } else x)) ∧
     (∀ g n iss v items, Targeted s.dev c 2 w → w.stopped.st = 2 → w.stopped.brkAt = some (g, n) →
       (withDebug s.dev c (fun b => { b with cmd := 2 })).issueAt w g n = some (iss, v, items) →
       ∃ t, exec (.cont c) s = .next t ∧ (t.dev.ctx c).dbgBlock.st = 0 ∧
         ∀ u ∈ viewsOf (withDebug s.dev c (fun b => { b with cmd := 2 })) iss, ∀ x y,
           groupAt t.dev w.uid u.g = some x → x.slot n = some y → y.addr = iss.next) ∧
     (∀ k, Targeted s.dev c 3 w → (s.dev.ctx w.ctx).kernel w.handle w.kernel = some k →
       let a := (s.dev.ctx c).dbgBlock.sobj
       ((w.stopped.st ≠ 2 ∨ a.toNat % 8 ≠ 0) → ∃ t, exec (.step c) s = .next t ∧ t.dev.wgs = s.dev.wgs ∧
         (t.dev.ctx c).dbgBlock = { (s.dev.ctx c).dbgBlock with cmd := 3, err := true }) ∧
       (∀ o, objectAt w k.shared w.core a.toNat = some o → a.toNat % 8 = 0 → w.stopped.st = 2 → w.stopped.brkAt = none →
         s.dev.lostIn o.space o.off 8 = none →
         ∃ t, exec (.step c) s = .next t ∧ (t.dev.ctx c).dbgBlock.err = false ∧
           t.dev.wgs = s.dev.wgs.map (fun x => if x.uid = w.uid then
             { x with stopped := { DebugStop.running with stepObj := some (a, s.dev.phase o) } } else x))) ∧
     ((s.dev.wgs.filter (fun x => x.ctx == c && !x.gone)).find? (fun x => x.stopped.st == 1) = some w →
       ((∃ x ∈ s.dev.writes, x.wg = w.uid) → exec (.workgroupHalt c) s = .next s) ∧
       ((∀ x ∈ s.dev.writes, x.wg ≠ w.uid) →
         let why := w.stopped.cause
         let stopped := s.dev.wgs.map (fun x =>
           if x.uid = w.uid then { x with stopped := { x.stopped with st := 2, why := why } } else x)
         let told := withDebug { s.dev with wgs := stopped } c (fun b => { b with st := 2, why := why })
         exec (.workgroupHalt c) s = .next { s with dev := told.sendMsg 5 c (BitVec.ofNat 16 why.toNat) w.ordinal }))) ∧
  (∀ (s : State) (c : BitVec 6) (w : Workgroup) (k : Kernel), Targeted s.dev c 4 w →
     (s.dev.ctx w.ctx).kernel w.handle w.kernel = some k →
     let b := (s.dev.ctx c).dbgBlock
     let area := b.paddr.toNat / 2 ^ 60
     let at_ := b.paddr.toNat % 2 ^ 21
     let writes := b.paddr.toNat / 2 ^ 59 % 2 = 1
     (w.stopped.st ≠ 2 →
       (¬ writes → ∃ t, exec (.portRead c) s = .next t ∧ (t.dev.ctx c).dbgBlock = { b with cmd := 4, err := true }) ∧
       (writes → ∃ t, exec (.portWrite c) s = .next t ∧ (t.dev.ctx c).dbgBlock = { b with cmd := 4, err := true } ∧
         t.dev.wgs = s.dev.wgs)) ∧
     (w.stopped.st = 2 → b.paddr.toNat / 2 ^ 21 % 2 ^ 38 = 0 →
       (∀ g x, area = 2 → at_ / 2 ^ 10 = 0 → k.hwGroup (at_ % 2 ^ 7) = g → w.groups[g]? = some x → x.retired = false →
         let n := at_ / 2 ^ 7 % 8
         (¬ writes → ∃ t, exec (.portRead c) s = .next t ∧ (t.dev.ctx c).dbgBlock =
           { b with cmd := 4, err := false, pdata := BitVec.ofNat 64 (x.masks.getD n 0).toNat } ∧ t.dev.wgs = s.dev.wgs) ∧
         (writes → ∃ t, exec (.portWrite c) s = .next t ∧ (t.dev.ctx c).dbgBlock = { b with cmd := 4, err := false } ∧
           groupAt t.dev w.uid g = (groupAt s.dev w.uid g).map (fun y =>
             { y with masks := setAt y.masks n (BitVec.ofNat 32 b.pdata.toNat) }))) ∧
       (∀ p, area = 0 → at_ % 8 = 0 → sharedPlace w k.shared w.core at_ 8 = some p → s.dev.accs = [] →
         (¬ writes → s.dev.lostIn p.space p.addr 8 = none → s.dev.meetsLock p 8 w.core hitsLoad = false → ∃ t, exec (.portRead c) s = .next t ∧
           (t.dev.ctx c).dbgBlock = { b with cmd := 4, err := false, pdata := BitVec.ofNat 64 (s.dev.num p.space p.addr 8) }) ∧
         (writes → s.dev.meetsLock p 8 w.core hitsStore = false → ∃ t, exec (.portWrite c) s = .next t ∧
           (t.dev.ctx c).dbgBlock = { b with cmd := 4, err := false } ∧ t.dev.num p.space p.addr 8 = b.pdata.toNat ∧
           ∀ sp a, (sp ≠ p.space ∨ a < p.addr ∨ p.addr + 8 ≤ a) → t.dev.byteAt sp a = s.dev.byteAt sp a))))

/-! ## The outside world (21 R331 to R338; 23 R358 to R365; 24 R366 to R369) -/

/-- 23 R364, R365, Table 23-8: the responder answers the algorithms Falcon-1024 and SHAKE256-512 and each listed measurement,
and any other request as unsupported; before the boot has ended it answers GET_VERSION alone. -/
def Obligations.SpdmAnswers : Prop :=
  ∀ (s : State),
    let say (a : SpdmAnswer) : Host.Outcome State Fault Refusal := .next { s with dev := { s.dev with spdm := a } }
    (∃ l, exec .getVersion s = say (.version l)) ∧
    (∀ i, (i = .getCapabilities ∨ i = .negotiateAlgorithms ∨ i = .getDigests ∨ i = .getCertificate ∨ (∃ n, i = .challenge n) ∨
      (∃ n, i = .getMeasurements n) ∨ ∃ n, i = .unsupportedRequest n) → s.dev.booted = false → exec i s = .next s) ∧
    (s.dev.booted = true →
      (∃ l, exec .getCapabilities s = say (.capabilities l)) ∧
      exec .negotiateAlgorithms s = say (.algorithms "Falcon-1024" "SHAKE256-512") ∧
      (∃ l, exec .getDigests s = say (.digests l)) ∧ (∃ l, exec .getCertificate s = say (.certificate l)) ∧
      (∀ nonce, ∃ l, exec (.challenge nonce) s = say (.challengeAuth l)) ∧
      (∀ code, exec (.unsupportedRequest code) s = say (.unsupportedRequest code)) ∧
      exec (.getMeasurements 1) s = say (.measurements 1 s.dev.firmware) ∧
      exec (.getMeasurements 2) s = say (.measurements 2 s.dev.policy) ∧
      exec (.getMeasurements 3) s = say (.measurements 3 s.dev.repairMap) ∧
      ∀ c : BitVec 6, exec (.getMeasurements (0x10 + c.setWidth 8)) s = say (.measurements (0x10 + c.setWidth 8)
        (if (s.dev.ctx c).state = .free then 0 else (s.dev.ctx c).attest)))

/-- 23 R358 to R360: a port that goes down or up changes its own bit alone. An access on a port that is up, through a window
that admits it, reads or writes the HBM bytes it names, or adds to the element it names; one that no window admits changes no
byte and is answered with nothing, and is counted, which is the model's reading (log entry 37); nothing arrives on a port that
is down. -/
def Obligations.PeerPorts : Prop :=
  (∀ (s : State) (port : BitVec 5), 1 ≤ port.toNat → port.toNat ≤ 16 →
    exec (.peerPortDown port) s = .next { s with dev := { s.dev with ports := s.dev.ports &&& ~~~BitVec.ofNat 32 (2 ^ port.toNat) } } ∧
    exec (.peerPortUp port) s = .next { s with dev := { s.dev with ports := s.dev.ports ||| BitVec.ofNat 32 (2 ^ port.toNat) } }) ∧
  (∀ (s : State) (port : BitVec 5) (acc : PeerAccess), 1 ≤ port.toNat → port.toNat ≤ 16 →
    (s.dev.ports.getLsbD port.toNat = false → exec (.peerInboundAccess port acc) s = .next s) ∧
    (s.dev.ports.getLsbD port.toNat = true → s.dev.accs = [] → s.dev.lost = [] →
      let id := 0xA * 2 ^ 16 + port.toNat * 2 ^ 8
      let counted := tableSet s.dev.counters id { countersOf s.dev id with
        uncorrectable := (countersOf s.dev id).uncorrectable + 1 }
      let refused := { s.dev with counters := counted, inbound := none }
      (∀ sec a n, acc = .read sec a n →
        let e := if (s.dev.inboundWindow port sec false a n).isSome then
          { s.dev with inbound := some (Memory.bytes s.dev.hbm a n) } else refused
        exec (.peerInboundAccess port acc) s = .next { s with dev := e }) ∧
      (∀ sec a bytes, acc = .write sec a bytes →
        let e := if (s.dev.inboundWindow port sec true a bytes.length).isSome then
          { s.dev with hbm := Memory.putBytes s.dev.hbm a bytes, inbound := some [] } else refused
        exec (.peerInboundAccess port acc) s = .next { s with dev := e }) ∧
      (∀ sec a efmt (el : Word), acc = .reduceAdd sec false a efmt el →
        let n := fmtBytes efmt
        let sum := reduceSum efmt (Memory.num s.dev.hbm a n) (el.toNat % 2 ^ (8 * n))
        let e := if (s.dev.inboundWindow port sec true a n).isSome then
          { s.dev with hbm := Memory.putNum s.dev.hbm a n sum, inbound := some [] } else refused
        exec (.peerInboundAccess port acc) s = .next { s with dev := e })))

/-- 21 R331, R332, R333, R337, R338: a fault in flight is replayed and counted, and the third in succession ends the context
with INTEGRITY; what was in flight when its context ended in this CYC counts as still in flight. A single-bit error of stored
state is counted as corrected; a write of a log or a save that fails is counted, and at last ends its context. A matrix
operation's failures in one column replay it, and the third remaps that column to a spare, if one is left, and tells the host.
A lost retained record is supplied again; lost state of a context stays lost till it is read, when it ends the context and the
access has no effect; lost state of none is counted. A core fence adds the core to the fenced ones, tells the host (message 9)
and stops every context with work there. The model's readings: which failures are the third (log entry 55), that a fence
whose save finds no room ends the context (log entry 39), and which blocks hold the queues that an error can strike (log entry
83). -/
def Obligations.FaultsAndFences : Prop :=
  let answer (s : State) (d : Device) : Host.Outcome State Fault Refusal := .next { s with dev := d }
  (∀ (s : State) (r : Request) (target : FaultTarget) (block : Nat), InFlight s.dev r → Struck s.dev r target block →
    (r.fails < 2 → exec (.transientFault target) s = answer s
      ((counted s.dev block replayed).modRequest r.id (fun x => { x with fails := x.fails + 1 }))) ∧
    (2 ≤ r.fails → exec (.transientFault target) s = answer s
      ((counted s.dev block uncorrected).endContext r.ctx { code := 0x82, detail := block, addr := 0 }))) ∧
  (∀ (s : State) (b : Word), isBlock21 b.toNat →
    (b.toNat / 2 ^ 16 ∈ [1, 2, 3, 4, 5, 7, 8] ∨ b.toNat / 2 ^ 16 = 0 ∧ b.toNat % 256 = 0) →
    exec (.transientFault (.singleBit b)) s = answer s (counted s.dev b.toNat (fun n => { n with corrected := n.corrected + 1 }))) ∧
  (∀ (s : State) (core col : BitVec 8) (op : MatOp), Executes s.dev core op → s.dev.inServiceCol core col = true →
    let id := blockId 0 core + col.toNat
    let columns := (tableGet { columns := [], reduced := false } s.dev.arrays core.toNat).columns
    (op.failCols.length < 2 → exec (.transientFault (.matrix core col)) s = answer s
      { (counted s.dev id replayed) with
        matrix := s.dev.matrix.map (fun x =>
          if x.id = op.id then { x with failCols := BitVec.ofNat 32 id :: op.failCols } else x) }) ∧
    (op.failCols = [BitVec.ofNat 32 id, BitVec.ofNat 32 id] → columns.length < 4 → s.dev.boot.step = 15 →
      ∃ t, exec (.transientFault (.matrix core col)) s = .next t ∧
        tableGet { columns := [], reduced := false } t.dev.arrays core.toNat = { columns := columns ++ [col], reduced := true } ∧
        t.dev.outbox = s.dev.outbox ++
          [{ type := 7, ctx := 0, code := 0, detail := BitVec.ofNat 32 id, cyc := s.dev.cyc }])) ∧
  (∀ (s : State) (b : Word), isBlock21 b.toNat →
    exec (.uncorrectableError (.unowned b)) s = .next { s with dev := counted s.dev b.toNat uncorrected } ∧
    exec (.uncorrectableError (.record b)) s = .next { s with dev := counted (counted s.dev b.toNat uncorrected) b.toNat replayed } ∧
    (b.toNat / 2 ^ 16 ∈ [6, 9, 10, 11] →
      exec (.transientFault (.logWrite b)) s = answer s (counted s.dev b.toNat replayed) ∧
      ∀ c, exec (.uncorrectableError (.writer c b)) s = answer s ((counted s.dev b.toNat uncorrected).endContext c
        { code := 0x82, detail := b.toNat, addr := 0 }))) ∧
  (∀ (s : State) (p : StoredPlace), s.dev.owned p = true → p ∉ s.dev.lost →
    exec (.uncorrectableError (.owned p)) s = answer s
      { (counted s.dev (s.dev.blockOf p) uncorrected) with lost := p :: s.dev.lost }) ∧
  (∀ (i : Instr) (m : Meaning) (s : State) (iss : Issue) (v : View) (vs : List View) (f : CtxFault), meaningOf i = some m →
    s.issue = some iss → viewsOf (s.latch.getD s.dev) iss = v :: vs → i.wf = true → (∀ u ∈ v :: vs, m.illegal u = false) →
    (∀ u ∈ v :: vs, ∀ p ∈ m.spans ++ m.cellSpans u, p.1 + p.2 ≤ u.grp.budget) →
    m.lostCell i (v :: vs) s.dev = some f → exec i s = .next (s.faulted iss v.c f) ∧ f.code = 0x82) ∧
  (∀ (s : State) (b : Word), s.dev.booted = true → isBlock21 b.toNat → b.toNat / 2 ^ 16 ≤ 3 →
    let core : BitVec 8 := BitVec.ofNat 8 (b.toNat / 2 ^ 14 % 4 * 64 + b.toNat / 2 ^ 8 % 64)
    (core ∈ s.dev.fenced → exec (.coreFence b) s = .next s) ∧
    (core ∉ s.dev.fenced → ∃ t, exec (.coreFence b) s = .next t ∧ t.dev.fenced = s.dev.fenced ++ [core] ∧
      ({ type := 9, ctx := 0, code := 0, detail := b, cyc := s.dev.cyc } : Message) ∈ t.dev.outbox ∧
      (∀ c, s.dev.workOn c core = true → (s.dev.ctx c).state = .active →
        (t.dev.ctx c).stopping = true ∨ (t.dev.ctx c).state = .ended) ∧
      (∀ c, s.dev.workOn c core = false → t.dev.ctx c = s.dev.ctx c)))

/-- 24 R366, R369: RESET starts CYC at 0, ends every context and runs boot step 1; as the counter advances each step ends in
the next or halts the boot where it finds a fault, and the boot ends at CYC 4,000,000,000, with the cores enabled that are
neither fenced nor fail their test. POWER_REMOVE ends the device span, and a junction above 115 °C removes power. The model's
choices: what a reset leaves (log entries 3 and 56), and that what the steps find is given to RESET (log entry 58). 24 R367,
R368; 23 R362: the controller lowers a die's clock by 100 MHz while the package power is above 3,400 W or the die above 105
°C, and raises it, to 1,900 MHz at most, while both limits hold; CYC is not affected. A block in no use, and a range that
nothing maps, changes its world; in use it does not. The model's choices: a clock of 100 MHz is not lowered (log entry 13),
and what is in use (log entry 57). -/
def Obligations.ResetPowerAndWorlds : Prop :=
  ((∀ (s : State) (b : BootInputs), ∃ t, exec (.reset b) s = .next t ∧ t.dev.cyc = 0 ∧ t.dev.powered = true ∧ t.issue = none ∧
     t.latch = none ∧ t.dev.wgs = [] ∧ (∀ c, t.dev.ctx c = Context.free) ∧ t.dev.enabled = [] ∧ t.dev.arrays = [] ∧
     t.dev.boot = { step := 1, halt := false, found := some b }) ∧
   (∀ (d : Device) (b : BootInputs), d.boot = { step := 1, halt := false, found := some b } →
     let e := d.bootSteps 7
     match bootHalt b with
     | some n => e.boot = { step := n, halt := true, found := some b } ∧ e.enabled = d.enabled
     | none => e.boot = { step := 15, halt := false, found := some b } ∧ e.enabled = bootCores b ∧ e.firmware = b.firmware ∧
         e.policy = b.policy ∧ e.repairMap = b.repairMap ∧ e.secBlocks = b.secureBlocks) ∧
   (∀ (d : Device) (b : BootInputs), d.boot.halt = false → d.boot.found = some b → 1 ≤ d.boot.step.toNat → d.boot.step.toNat ≤ 7 →
     d.powered = true → d.cyc.toNat < 4000000000 →
     if ∃ t ∈ (d.countTo d.nextCyc).temp, 115 * 16 < t.toNat then d.clock.powered = false
     else d.cyc.toNat < d.clock.cyc.toNat ∧ d.clock.cyc.toNat ≤ 4000000000 ∧
       (d.clock.boot.step = 15 → d.clock.cyc.toNat = 4000000000) ∧
       (d.clock.cyc.toNat = 4000000000 → d.clock.boot.step = 15 ∨ d.clock.boot.halt = true)) ∧
   (∀ l, enoughCores l = true ↔ EnoughCores l) ∧
   (∀ (s : State), ∃ t, exec .powerRemove s = .next t ∧ t.dev.powered = false ∧ t.dev.wgs = [] ∧
     (∀ c, t.dev.ctx c = Context.free) ∧ t.dev.hbm = [] ∧ t.dev.spad = [])) ∧
  ((∀ (s : State) (die : BitVec 2) (lower : Bool), s.dev.clk.length = 4 →
     let limited := 3400000 < s.dev.power.toNat ∨ 105 * 16 < (s.dev.temp.getD die.toNat 0).toNat
     let clk (t : State) (k : Nat) : Nat := (t.dev.clk.getD k 0).toNat
     (¬ (limited ↔ lower = true) → exec (.throttle die lower) s = .next s) ∧
     ((limited ↔ lower = true) → ∃ l, exec (.throttle die lower) s = .next { s with dev := { s.dev with clk := l } } ∧
       ∀ k, k < 4 → (l.getD k 0).toNat =
         if k ≠ die.toNat then clk s k
         else if lower then (if 100 < clk s k then clk s k - 100 else clk s k)
         else if clk s k + 100 ≤ 1900 then clk s k + 100 else clk s k)) ∧
   (∀ (s : State) (b : Word) (sec : Bool), isBlock21 b.toNat → b.toNat / 2 ^ 16 % 16 ∈ [0, 4, 5, 11] → b.toNat % 256 = 0 →
     (s.dev.blockBusy b.toNat = true → exec (.worldAssignmentChange (.block b) sec) s = .next s) ∧
     (s.dev.blockBusy b.toNat = false → ∃ t, exec (.worldAssignmentChange (.block b) sec) s = .next t ∧
       (b ∈ t.dev.secBlocks ↔ sec = true) ∧ ∀ x, x ≠ b → (x ∈ t.dev.secBlocks ↔ x ∈ s.dev.secBlocks))) ∧
   (∀ (s : State) (a n : Nat) (sec : Bool),
     (s.dev.rangeBusy a n = true → exec (.worldAssignmentChange (.range a n) sec) s = .next s) ∧
     (s.dev.rangeBusy a n = false → ∃ t, exec (.worldAssignmentChange (.range a n) sec) s = .next t ∧
       ∀ x, (∃ r ∈ t.dev.secRanges, r.1 ≤ x ∧ x < r.1 + r.2) ↔
         (if a ≤ x ∧ x < a + n then sec = true else ∃ r ∈ s.dev.secRanges, r.1 ≤ x ∧ x < r.1 + r.2))))

/-- 01 R36; 04 R80; 06 R149: NOP, the completion of a register write and an idle clock complete: NOP leaves the state as it is,
the oldest outstanding write of a group that is still resident changes that group's cells and is outstanding no more, and the
clock of a partition with no ready chain has the counts and marks of its rules. -/
def Obligations.SmallStepsComplete : Prop :=
  (∀ (c : Bool) (s : State) (iss : Issue) (vs : List View), Issuing s iss vs → exec (.nop c) s = .next s) ∧
  (∀ (s : State), s.dev.writes = [] → exec .registerWriteback s = .next s) ∧
  (∀ (s : State) (x : RegWrite) (rest : List RegWrite) (w : Workgroup) (g : Group), s.dev.writes = x :: rest → s.dev.lost = [] →
    s.dev.wg x.wg = some w → w.groups[x.g]? = some g → w.gone = false →
    x.gen = tableGet 0 s.dev.gens (slotKey g.core g.part g.rslot) →
    exec .registerWriteback s = .next { s with dev := { s.dev with writes := rest }.modGroup x.wg x.g (fun y =>
      y.write s.dev.tick x.slice x.width x.vals x.lanes x.tag) }) ∧
  (∀ (s : State) (core : BitVec 8) (part : BitVec 5), s.dev.pick core part = none →
    exec (.partitionClock core part) s =
      .next { s with dev := ((s.dev.idleLanes core part).unmark core part none) }) ∧
  (∀ (s : State) (core : BitVec 8) (part : BitVec 5), (s.dev.pick core part).isSome = true →
    exec (.partitionClock core part) s = .next s)
end

