-- ==== Sys2Proof/Laws/Encoding.lean ====
section
/-! SUPPORT. The fields of encoded words: each format's word has the fields that were packed into it, and each field of an EXT or
TAIL reads back (04 Tables 04-1, 04-2; 09 Table 09-5; 10 Tables 10-2, 10-7). -/

namespace Sys2Proof

theorem bit_lt (b : Bool) : bit b < 2 := by cases b <;> decide

theorem bit_eq (b : Bool) : (bit b == 1) = b := by cases b <;> rfl

/-- A field of a word is read from its number. -/
theorem Word.field_eq {w : Word} {lo n x : Nat} (h : w.toNat / 2 ^ lo % 2 ^ n = x % 2 ^ n) :
    w.field lo n = BitVec.ofNat n x := by
  apply BitVec.eq_of_toNat_eq
  simpa [Word.field] using h

/-- A bit of a word is read from its number. -/
theorem Word.flag_eq {w : Word} {i : Nat} {b : Bool} (h : w.toNat / 2 ^ i % 2 = bit b) : w.flag i = b := by
  unfold Word.flag
  rw [h, bit_eq]

theorem packA3_major (c : Bool) (major : Nat) (w : BitVec 3) (d : BitVec 7) (a : BitVec 7) (b : BitVec 7) (x : Bool) :
    (packA3 c major w d a b x).field 25 6 = BitVec.ofNat 6 major := by
  have h_c := bit_lt c
  have h_w := w.isLt
  have h_d := d.isLt
  have h_a := a.isLt
  have h_b := b.isLt
  have h_x := bit_lt x
  apply BitVec.eq_of_toNat_eq
  simp only [Word.field, packA3, BitVec.toNat_ofNat]
  omega

theorem packA3_w (c : Bool) (major : Nat) (w : BitVec 3) (d : BitVec 7) (a : BitVec 7) (b : BitVec 7) (x : Bool) :
    (packA3 c major w d a b x).field 22 3 = w := by
  have h_c := bit_lt c
  have h_w := w.isLt
  have h_d := d.isLt
  have h_a := a.isLt
  have h_b := b.isLt
  have h_x := bit_lt x
  apply BitVec.eq_of_toNat_eq
  simp only [Word.field, packA3, BitVec.toNat_ofNat]
  omega

theorem packA3_d (c : Bool) (major : Nat) (w : BitVec 3) (d : BitVec 7) (a : BitVec 7) (b : BitVec 7) (x : Bool) :
    (packA3 c major w d a b x).field 15 7 = d := by
  have h_c := bit_lt c
  have h_w := w.isLt
  have h_d := d.isLt
  have h_a := a.isLt
  have h_b := b.isLt
  have h_x := bit_lt x
  apply BitVec.eq_of_toNat_eq
  simp only [Word.field, packA3, BitVec.toNat_ofNat]
  omega

theorem packA3_a (c : Bool) (major : Nat) (w : BitVec 3) (d : BitVec 7) (a : BitVec 7) (b : BitVec 7) (x : Bool) :
    (packA3 c major w d a b x).field 8 7 = a := by
  have h_c := bit_lt c
  have h_w := w.isLt
  have h_d := d.isLt
  have h_a := a.isLt
  have h_b := b.isLt
  have h_x := bit_lt x
  apply BitVec.eq_of_toNat_eq
  simp only [Word.field, packA3, BitVec.toNat_ofNat]
  omega

theorem packA3_b (c : Bool) (major : Nat) (w : BitVec 3) (d : BitVec 7) (a : BitVec 7) (b : BitVec 7) (x : Bool) :
    (packA3 c major w d a b x).field 1 7 = b := by
  have h_c := bit_lt c
  have h_w := w.isLt
  have h_d := d.isLt
  have h_a := a.isLt
  have h_b := b.isLt
  have h_x := bit_lt x
  apply BitVec.eq_of_toNat_eq
  simp only [Word.field, packA3, BitVec.toNat_ofNat]
  omega

theorem packA3_x (c : Bool) (major : Nat) (w : BitVec 3) (d : BitVec 7) (a : BitVec 7) (b : BitVec 7) (x : Bool) :
    (packA3 c major w d a b x).flag 0 = x := by
  apply Word.flag_eq
  have h_c := bit_lt c
  have h_w := w.isLt
  have h_d := d.isLt
  have h_a := a.isLt
  have h_b := b.isLt
  have h_x := bit_lt x
  simp only [packA3, BitVec.toNat_ofNat]
  omega

theorem packA3_chain (c : Bool) (major : Nat) (w : BitVec 3) (d : BitVec 7) (a : BitVec 7) (b : BitVec 7) (x : Bool) (hm : major < 64) :
    (packA3 c major w d a b x).flag 31 = c := by
  apply Word.flag_eq
  have h_c := bit_lt c
  have h_w := w.isLt
  have h_d := d.isLt
  have h_a := a.isLt
  have h_b := b.isLt
  have h_x := bit_lt x
  simp only [packA3, BitVec.toNat_ofNat]
  omega

theorem packA2_major (c : Bool) (major : Nat) (w : BitVec 3) (d : BitVec 7) (a : BitVec 7) (minor : Nat) (x : Bool) (hn : minor < 128) :
    (packA2 c major w d a minor x).field 25 6 = BitVec.ofNat 6 major := by
  have h_c := bit_lt c
  have h_w := w.isLt
  have h_d := d.isLt
  have h_a := a.isLt
  have h_x := bit_lt x
  apply BitVec.eq_of_toNat_eq
  simp only [Word.field, packA2, BitVec.toNat_ofNat]
  omega

theorem packA2_w (c : Bool) (major : Nat) (w : BitVec 3) (d : BitVec 7) (a : BitVec 7) (minor : Nat) (x : Bool) (hn : minor < 128) :
    (packA2 c major w d a minor x).field 22 3 = w := by
  have h_c := bit_lt c
  have h_w := w.isLt
  have h_d := d.isLt
  have h_a := a.isLt
  have h_x := bit_lt x
  apply BitVec.eq_of_toNat_eq
  simp only [Word.field, packA2, BitVec.toNat_ofNat]
  omega

theorem packA2_d (c : Bool) (major : Nat) (w : BitVec 3) (d : BitVec 7) (a : BitVec 7) (minor : Nat) (x : Bool) (hn : minor < 128) :
    (packA2 c major w d a minor x).field 15 7 = d := by
  have h_c := bit_lt c
  have h_w := w.isLt
  have h_d := d.isLt
  have h_a := a.isLt
  have h_x := bit_lt x
  apply BitVec.eq_of_toNat_eq
  simp only [Word.field, packA2, BitVec.toNat_ofNat]
  omega

theorem packA2_a (c : Bool) (major : Nat) (w : BitVec 3) (d : BitVec 7) (a : BitVec 7) (minor : Nat) (x : Bool) (hn : minor < 128) :
    (packA2 c major w d a minor x).field 8 7 = a := by
  have h_c := bit_lt c
  have h_w := w.isLt
  have h_d := d.isLt
  have h_a := a.isLt
  have h_x := bit_lt x
  apply BitVec.eq_of_toNat_eq
  simp only [Word.field, packA2, BitVec.toNat_ofNat]
  omega

theorem packA2_minor (c : Bool) (major : Nat) (w : BitVec 3) (d : BitVec 7) (a : BitVec 7) (minor : Nat) (x : Bool) :
    (packA2 c major w d a minor x).field 1 7 = BitVec.ofNat 7 minor := by
  have h_c := bit_lt c
  have h_w := w.isLt
  have h_d := d.isLt
  have h_a := a.isLt
  have h_x := bit_lt x
  apply BitVec.eq_of_toNat_eq
  simp only [Word.field, packA2, BitVec.toNat_ofNat]
  omega

theorem packA2_x (c : Bool) (major : Nat) (w : BitVec 3) (d : BitVec 7) (a : BitVec 7) (minor : Nat) (x : Bool) :
    (packA2 c major w d a minor x).flag 0 = x := by
  apply Word.flag_eq
  have h_c := bit_lt c
  have h_w := w.isLt
  have h_d := d.isLt
  have h_a := a.isLt
  have h_x := bit_lt x
  simp only [packA2, BitVec.toNat_ofNat]
  omega

theorem packA2_chain (c : Bool) (major : Nat) (w : BitVec 3) (d : BitVec 7) (a : BitVec 7) (minor : Nat) (x : Bool) (hm : major < 64) (hn : minor < 128) :
    (packA2 c major w d a minor x).flag 31 = c := by
  apply Word.flag_eq
  have h_c := bit_lt c
  have h_w := w.isLt
  have h_d := d.isLt
  have h_a := a.isLt
  have h_x := bit_lt x
  simp only [packA2, BitVec.toNat_ofNat]
  omega

theorem packAI_major (c : Bool) (major : Nat) (w : BitVec 3) (d : BitVec 7) (a : BitVec 7) (i : Nat) (hi : i < 256) :
    (packAI c major w d a i).field 25 6 = BitVec.ofNat 6 major := by
  have h_c := bit_lt c
  have h_w := w.isLt
  have h_d := d.isLt
  have h_a := a.isLt
  apply BitVec.eq_of_toNat_eq
  simp only [Word.field, packAI, BitVec.toNat_ofNat]
  omega

theorem packAI_w (c : Bool) (major : Nat) (w : BitVec 3) (d : BitVec 7) (a : BitVec 7) (i : Nat) (hi : i < 256) :
    (packAI c major w d a i).field 22 3 = w := by
  have h_c := bit_lt c
  have h_w := w.isLt
  have h_d := d.isLt
  have h_a := a.isLt
  apply BitVec.eq_of_toNat_eq
  simp only [Word.field, packAI, BitVec.toNat_ofNat]
  omega

theorem packAI_d (c : Bool) (major : Nat) (w : BitVec 3) (d : BitVec 7) (a : BitVec 7) (i : Nat) (hi : i < 256) :
    (packAI c major w d a i).field 15 7 = d := by
  have h_c := bit_lt c
  have h_w := w.isLt
  have h_d := d.isLt
  have h_a := a.isLt
  apply BitVec.eq_of_toNat_eq
  simp only [Word.field, packAI, BitVec.toNat_ofNat]
  omega

theorem packAI_a (c : Bool) (major : Nat) (w : BitVec 3) (d : BitVec 7) (a : BitVec 7) (i : Nat) (hi : i < 256) :
    (packAI c major w d a i).field 8 7 = a := by
  have h_c := bit_lt c
  have h_w := w.isLt
  have h_d := d.isLt
  have h_a := a.isLt
  apply BitVec.eq_of_toNat_eq
  simp only [Word.field, packAI, BitVec.toNat_ofNat]
  omega

theorem packAI_i (c : Bool) (major : Nat) (w : BitVec 3) (d : BitVec 7) (a : BitVec 7) (i : Nat) :
    (packAI c major w d a i).field 0 8 = BitVec.ofNat 8 i := by
  have h_c := bit_lt c
  have h_w := w.isLt
  have h_d := d.isLt
  have h_a := a.isLt
  apply BitVec.eq_of_toNat_eq
  simp only [Word.field, packAI, BitVec.toNat_ofNat]
  omega

theorem packAI_chain (c : Bool) (major : Nat) (w : BitVec 3) (d : BitVec 7) (a : BitVec 7) (i : Nat) (hm : major < 64) (hi : i < 256) :
    (packAI c major w d a i).flag 31 = c := by
  apply Word.flag_eq
  have h_c := bit_lt c
  have h_w := w.isLt
  have h_d := d.isLt
  have h_a := a.isLt
  simp only [packAI, BitVec.toNat_ofNat]
  omega

theorem packI_major (c : Bool) (major : Nat) (d : BitVec 7) (i : Nat) (hi : i < 2 ^ 18) :
    (packI c major d i).field 25 6 = BitVec.ofNat 6 major := by
  have h_c := bit_lt c
  have h_d := d.isLt
  apply BitVec.eq_of_toNat_eq
  simp only [Word.field, packI, BitVec.toNat_ofNat]
  omega

theorem packI_d (c : Bool) (major : Nat) (d : BitVec 7) (i : Nat) (hi : i < 2 ^ 18) :
    (packI c major d i).field 18 7 = d := by
  have h_c := bit_lt c
  have h_d := d.isLt
  apply BitVec.eq_of_toNat_eq
  simp only [Word.field, packI, BitVec.toNat_ofNat]
  omega

theorem packI_i (c : Bool) (major : Nat) (d : BitVec 7) (i : Nat) :
    (packI c major d i).field 0 18 = BitVec.ofNat 18 i := by
  have h_c := bit_lt c
  have h_d := d.isLt
  apply BitVec.eq_of_toNat_eq
  simp only [Word.field, packI, BitVec.toNat_ofNat]
  omega

theorem packI_chain (c : Bool) (major : Nat) (d : BitVec 7) (i : Nat) (hm : major < 64) (hi : i < 2 ^ 18) :
    (packI c major d i).flag 31 = c := by
  apply Word.flag_eq
  have h_c := bit_lt c
  have h_d := d.isLt
  simp only [packI, BitVec.toNat_ofNat]
  omega

theorem packQ_major (c : Bool) (major : Nat) (sub : Nat) (operand : Nat) (hs : sub < 16) (ho : operand < 2 ^ 21) :
    (packQ c major sub operand).field 25 6 = BitVec.ofNat 6 major := by
  have h_c := bit_lt c
  apply BitVec.eq_of_toNat_eq
  simp only [Word.field, packQ, BitVec.toNat_ofNat]
  omega

theorem packQ_sub (c : Bool) (major : Nat) (sub : Nat) (operand : Nat) (ho : operand < 2 ^ 21) :
    (packQ c major sub operand).field 21 4 = BitVec.ofNat 4 sub := by
  have h_c := bit_lt c
  apply BitVec.eq_of_toNat_eq
  simp only [Word.field, packQ, BitVec.toNat_ofNat]
  omega

theorem packQ_operand (c : Bool) (major : Nat) (sub : Nat) (operand : Nat) :
    (packQ c major sub operand).field 0 21 = BitVec.ofNat 21 operand := by
  have h_c := bit_lt c
  apply BitVec.eq_of_toNat_eq
  simp only [Word.field, packQ, BitVec.toNat_ofNat]
  omega

theorem packQ_chain (c : Bool) (major : Nat) (sub : Nat) (operand : Nat) (hm : major < 64) (hs : sub < 16) (ho : operand < 2 ^ 21) :
    (packQ c major sub operand).flag 31 = c := by
  apply Word.flag_eq
  have h_c := bit_lt c
  simp only [packQ, BitVec.toNat_ofNat]
  omega

theorem packE_major (c : Bool) (major : Nat) (sub : Nat) (d : BitVec 7) (a : BitVec 7) (b : BitVec 6) (hs : sub < 32) :
    (packE c major sub d a b).field 25 6 = BitVec.ofNat 6 major := by
  have h_c := bit_lt c
  have h_d := d.isLt
  have h_a := a.isLt
  have h_b := b.isLt
  apply BitVec.eq_of_toNat_eq
  simp only [Word.field, packE, BitVec.toNat_ofNat]
  omega

theorem packE_sub (c : Bool) (major : Nat) (sub : Nat) (d : BitVec 7) (a : BitVec 7) (b : BitVec 6) :
    (packE c major sub d a b).field 20 5 = BitVec.ofNat 5 sub := by
  have h_c := bit_lt c
  have h_d := d.isLt
  have h_a := a.isLt
  have h_b := b.isLt
  apply BitVec.eq_of_toNat_eq
  simp only [Word.field, packE, BitVec.toNat_ofNat]
  omega

theorem packE_d (c : Bool) (major : Nat) (sub : Nat) (d : BitVec 7) (a : BitVec 7) (b : BitVec 6) :
    (packE c major sub d a b).field 13 7 = d := by
  have h_c := bit_lt c
  have h_d := d.isLt
  have h_a := a.isLt
  have h_b := b.isLt
  apply BitVec.eq_of_toNat_eq
  simp only [Word.field, packE, BitVec.toNat_ofNat]
  omega

theorem packE_a (c : Bool) (major : Nat) (sub : Nat) (d : BitVec 7) (a : BitVec 7) (b : BitVec 6) :
    (packE c major sub d a b).field 6 7 = a := by
  have h_c := bit_lt c
  have h_d := d.isLt
  have h_a := a.isLt
  have h_b := b.isLt
  apply BitVec.eq_of_toNat_eq
  simp only [Word.field, packE, BitVec.toNat_ofNat]
  omega

theorem packE_b (c : Bool) (major : Nat) (sub : Nat) (d : BitVec 7) (a : BitVec 7) (b : BitVec 6) :
    (packE c major sub d a b).field 0 6 = b := by
  have h_c := bit_lt c
  have h_d := d.isLt
  have h_a := a.isLt
  have h_b := b.isLt
  apply BitVec.eq_of_toNat_eq
  simp only [Word.field, packE, BitVec.toNat_ofNat]
  omega

theorem packE_chain (c : Bool) (major : Nat) (sub : Nat) (d : BitVec 7) (a : BitVec 7) (b : BitVec 6) (hm : major < 64) (hs : sub < 32) :
    (packE c major sub d a b).flag 31 = c := by
  apply Word.flag_eq
  have h_c := bit_lt c
  have h_d := d.isLt
  have h_a := a.isLt
  have h_b := b.isLt
  simp only [packE, BitVec.toNat_ofNat]
  omega

/-- An EXT word reads back, and is one. -/
theorem Ext.read_pack (e : Ext) : Ext.read e.pack = e ∧ Word.major e.pack = 0x3F ∧ Word.flag e.pack 31 = false := by
  obtain ⟨dh, ah, bh, wo, aw, bw, sa, sb, pe, pk, pn, ix⟩ := e
  have h1 := dh.isLt
  have h2 := ah.isLt
  have h3 := bh.isLt
  have h4 := bit_lt wo
  have h5 := aw.isLt
  have h6 := bw.isLt
  have h7 := bit_lt sa
  have h8 := bit_lt sb
  have h9 := bit_lt pe
  have h10 := pk.isLt
  have h11 := bit_lt pn
  have h12 := ix.isLt
  refine ⟨?_, ?_, ?_⟩
  · simp only [Ext.read, Ext.mk.injEq]
    refine ⟨?_, ?_, ?_, ?_, ?_, ?_, ?_, ?_, ?_, ?_, ?_, ?_⟩
    all_goals first
      | (apply Word.flag_eq; simp only [Ext.pack, BitVec.toNat_ofNat]; omega)
      | (apply BitVec.eq_of_toNat_eq; simp only [Word.field, Ext.pack, BitVec.toNat_ofNat]; omega)
  · simp only [Word.major, Word.field, Ext.pack, BitVec.toNat_ofNat]
    omega
  · apply Word.flag_eq (b := false)
    simp only [Ext.pack, BitVec.toNat_ofNat, bit, Bool.false_eq_true, if_false]
    have := bit_lt wo
    simp only [bit] at *
    omega


end Sys2Proof
end

