-- ==== Sys2Proof/Laws/Image.lean ====
section
/-! SUPPORT. Bytes and headers of a Locket image under overwrites (16 R267, R277). -/

namespace Sys2Proof.Machine

open Sys2Proof

/-- A byte before the place of an overwrite is as it was. -/
theorem getD_overwrite (l : List (BitVec 8)) (o : Nat) (bs : List (BitVec 8)) (k : Nat) (h : k < o) :
    (overwrite l o bs).getD k 0 = l.getD k 0 := by
  induction l generalizing o k with
  | nil => cases bs <;> rfl
  | cons x t ih =>
    cases bs with
    | nil => cases o <;> rfl
    | cons b bs =>
    cases o with
    | zero => omega
    | succ o =>
      cases k with
      | zero => rfl
      | succ k => exact ih o k (by omega)

/-- A number that ends before the place of an overwrite is as it was. -/
theorem leAt_overwrite (l : List (BitVec 8)) (o : Nat) (bs : List (BitVec 8)) (a n : Nat) (h : a + n ≤ o) :
    leAt (overwrite l o bs) a n = leAt l a n := by
  unfold leAt slicePad takePad
  congr 1
  apply List.map_congr_left
  intro k hk
  have := List.mem_range.mp hk
  have e := getD_overwrite l o bs (a + k) (by omega)
  simpa [List.getD_eq_getElem?_getD, List.getElem?_drop] using e

/-- An overwrite beyond the header leaves the header as it was (16 Table 16-1). -/
theorem headerOf_overwrite (l : List (BitVec 8)) (o : Nat) (bs : List (BitVec 8)) (h : 64 ≤ o) :
    headerOf (overwrite l o bs) = headerOf l := by
  unfold headerOf
  have e : ∀ a n, a + n ≤ 64 → leAt (overwrite l o bs) a n = leAt l a n := fun a n k => leAt_overwrite l o bs a n (by omega)
  simp (disch := decide) only [e]

/-- Changes that each leave the header as it was leave it together. -/
theorem headerOf_fold {α : Type} (f : Image → α → Image) (l : List α) (hf : ∀ img x, x ∈ l → headerOf (f img x) = headerOf img)
    (img : Image) : headerOf (l.foldl f img) = headerOf img := by
  induction l generalizing img with
  | nil => rfl
  | cons x l ih =>
    rw [List.foldl_cons, ih (fun i y hy => hf i y (List.mem_cons_of_mem _ hy)), hf img x List.mem_cons_self]

/-- The handle is written into the graphs, which lie beyond the header (16 R267). -/
theorem headerOf_withHandle (img : Image) (h : Nat)
    (hp : ((graphPlaces img (headerOf img).gtab (headerOf img).ng).getD []).all (fun p => decide (64 ≤ p.1)) = true) :
    headerOf (withHandle img h) = headerOf img := by
  unfold withHandle
  cases hg : graphPlaces img (headerOf img).gtab (headerOf img).ng with
  | none => rfl
  | some ps =>
    rw [hg] at hp
    refine headerOf_fold _ _ ?_ img
    intro i o ho
    obtain ⟨p, hm, ho⟩ := List.mem_flatMap.mp ho
    obtain ⟨j, -, rfl⟩ := List.mem_map.mp ho
    have := of_decide_eq_true (List.all_eq_true.mp hp p hm)
    have tag : ∀ (i : Image) (k : Nat), headerOf (if leAt i (p.1 + 64 * j + k) 4 = 0 then i
        else overwrite i (p.1 + 64 * j + k + 2) (natToBytes h 2)) = headerOf i := by
      intro i k
      split
      · rfl
      · exact headerOf_overwrite _ _ _ (by omega)
    exact (headerOf_fold _ _ (fun i k _ => tag i k) _).trans (headerOf_overwrite _ _ _ (by omega))

end Sys2Proof.Machine
end

