-- ==== Sys2Proof/Laws/Memory.lean ====
section
/-! SUPPORT. The canonical form of memory: every operation on a memory keeps it, the memories at reset have it; and what one byte
of a memory reads after a write. -/

namespace Sys2Proof.Machine

open Sys2Proof

/-! ## Canonical form -/

theorem Memory.wfFrom_mono {lo lo' : Nat} {m : Memory} (h : lo ≤ lo') (hm : Memory.wfFrom lo' m = true) :
    Memory.wfFrom lo m = true := by
  cases m with
  | nil => rfl
  | cons c t =>
    simp only [Memory.wfFrom, Bool.and_eq_true, decide_eq_true_eq] at hm ⊢
    exact ⟨⟨by omega, hm.1.2⟩, hm.2⟩

theorem Memory.filter_wfFrom (p : Host.Cell → Bool) {lo : Nat} {m : Memory} (hm : Memory.wfFrom lo m = true) :
    Memory.wfFrom lo (m.filter p) = true := by
  induction m generalizing lo with
  | nil => rfl
  | cons c t ih =>
    simp only [Memory.wfFrom, Bool.and_eq_true, decide_eq_true_eq] at hm
    by_cases h : p c = true
    · simp only [List.filter_cons, h, if_true, Memory.wfFrom, Bool.and_eq_true, decide_eq_true_eq]
      exact ⟨hm.1, ih hm.2⟩
    · simp only [List.filter_cons, h]
      exact Memory.wfFrom_mono (by omega) (ih hm.2)

theorem Memory.list_wfFrom {lo a : Nat} {v : BitVec 8} {m : Memory} (hv : v ≠ Memory.unlisted) (ha : lo ≤ a)
    (hm : Memory.wfFrom lo m = true) : Memory.wfFrom lo (Memory.list m a v) = true := by
  induction m generalizing lo with
  | nil => simp [Memory.list, Memory.wfFrom, ha, hv]
  | cons c t ih =>
    obtain ⟨k, w⟩ := c
    simp only [Memory.wfFrom, Bool.and_eq_true, decide_eq_true_eq] at hm
    simp only [Memory.list]
    split
    · simp only [Memory.wfFrom, Bool.and_eq_true, decide_eq_true_eq]
      exact ⟨⟨ha, hv⟩, ⟨by omega, hm.1.2⟩, hm.2⟩
    · split
      · rename_i h
        subst h
        simp only [Memory.wfFrom, Bool.and_eq_true, decide_eq_true_eq]
        exact ⟨⟨hm.1.1, hv⟩, hm.2⟩
      · simp only [Memory.wfFrom, Bool.and_eq_true, decide_eq_true_eq]
        exact ⟨hm.1, ih (by omega) hm.2⟩

/-- A byte written keeps the canonical form. -/
theorem Memory.put_wf {m : Memory} (a : Nat) (v : BitVec 8) (hm : Memory.wf m = true) :
    Memory.wf (Memory.put m a v) = true := by
  unfold Memory.put Memory.wf
  split
  · exact Memory.filter_wfFrom _ hm
  · rename_i h
    exact Memory.list_wfFrom h (Nat.zero_le a) hm

/-- Bytes written keep the canonical form. -/
theorem Memory.putBytes_wf {m : Memory} (a : Nat) (bs : List (BitVec 8)) (hm : Memory.wf m = true) :
    Memory.wf (Memory.putBytes m a bs) = true := by
  induction bs generalizing m a with
  | nil => exact hm
  | cons b t ih => exact ih (a + 1) (Memory.put_wf a b hm)

/-- A number written keeps the canonical form. -/
theorem Memory.putNum_wf {m : Memory} (a n v : Nat) (hm : Memory.wf m = true) :
    Memory.wf (Memory.putNum m a n v) = true := Memory.putBytes_wf a _ hm

/-- A nibble written keeps the canonical form. -/
theorem Memory.putNibble_wf {m : Memory} (a : Nat) (hi : Bool) (v : Nat) (hm : Memory.wf m = true) :
    Memory.wf (Memory.putNibble m a hi v) = true := Memory.put_wf a _ hm

/-- A range cleared keeps the canonical form. -/
theorem Memory.clear_wf {m : Memory} (a n : Nat) (hm : Memory.wf m = true) : Memory.wf (Memory.clear m a n) = true :=
  Memory.filter_wfFrom _ hm

/-- A range filled keeps the canonical form. -/
theorem Memory.fill_wf {m : Memory} (a : Nat) (bs : List (BitVec 8)) (hm : Memory.wf m = true) :
    Memory.wf (Memory.fill m a bs) = true := Memory.putBytes_wf a bs (Memory.clear_wf a bs.length hm)

/-- A memory made of some bytes has canonical form. -/
theorem Memory.ofBytes_wfFrom (a : Nat) (bs : List (BitVec 8)) : Memory.wfFrom a (Memory.ofBytes a bs) = true := by
  induction bs generalizing a with
  | nil => rfl
  | cons b t ih =>
    unfold Memory.ofBytes
    split
    · exact Memory.wfFrom_mono (Nat.le_succ a) (ih (a + 1))
    · rename_i h
      simp only [Memory.wfFrom, Bool.and_eq_true, decide_eq_true_eq]
      exact ⟨⟨Nat.le_refl a, h⟩, ih (a + 1)⟩

/-- The same from address 0 on. -/
theorem Memory.ofBytes_wf (a : Nat) (bs : List (BitVec 8)) : Memory.wf (Memory.ofBytes a bs) = true :=
  Memory.wfFrom_mono (Nat.zero_le a) (Memory.ofBytes_wfFrom a bs)

/-- The memories of the device at reset are in canonical form. -/
theorem reset_memory_wf : Memory.wf State.reset.dev.hbm = true ∧ Memory.wf State.reset.dev.host = true ∧
    Memory.wf State.reset.dev.spad = true ∧ State.reset.dev.peers = [] := ⟨rfl, rfl, rfl, rfl⟩

/-! ## One byte after a write -/

theorem Memory.byte_filter_ne {m : Memory} {a b : Nat} (h : b ≠ a) :
    Memory.byte (m.filter (fun c => c.1 != a)) b = Memory.byte m b := by
  induction m with
  | nil => rfl
  | cons c t ih =>
    obtain ⟨k, w⟩ := c
    by_cases hk : k = a
    · subst hk
      have : ¬ k = b := fun e => h e.symm
      simp only [List.filter_cons, bne_self_eq_false, Bool.false_eq_true, if_false, Memory.byte, this]
      exact ih
    · have hk' : (k != a) = true := by simpa using hk
      simp only [List.filter_cons, hk', if_true, Memory.byte]
      split
      · rfl
      · exact ih

theorem Memory.byte_filter_self (m : Memory) (a : Nat) :
    Memory.byte (m.filter (fun c => c.1 != a)) a = Memory.unlisted := by
  induction m with
  | nil => rfl
  | cons c t ih =>
    obtain ⟨k, w⟩ := c
    by_cases hk : k = a
    · subst hk
      simpa only [List.filter_cons, bne_self_eq_false, Bool.false_eq_true, if_false] using ih
    · have hk' : (k != a) = true := by simpa using hk
      simp only [List.filter_cons, hk', if_true, Memory.byte, hk, if_false]
      exact ih

theorem Memory.byte_list (m : Memory) (a b : Nat) (v : BitVec 8) :
    Memory.byte (Memory.list m a v) b = if b = a then v else Memory.byte m b := by
  induction m with
  | nil =>
    by_cases h : b = a
    · simp [Memory.list, Memory.byte, h]
    · have h' : ¬ a = b := fun e => h e.symm
      simp [Memory.list, Memory.byte, h, h']
  | cons c t ih =>
    obtain ⟨k, w⟩ := c
    by_cases h : b = a
    · subst h
      simp only [Memory.list, if_true] at ih ⊢
      split
      · simp [Memory.byte]
      · split
        · simp [Memory.byte]
        · rename_i hk
          simp only [Memory.byte, hk, if_false]
          exact ih
    · have h' : ¬ a = b := fun e => h e.symm
      simp only [Memory.list, h, if_false] at ih ⊢
      split
      · simp [Memory.byte, h']
      · split
        · rename_i hk
          subst hk
          simp [Memory.byte, h']
        · simp only [Memory.byte]
          split
          · rfl
          · exact ih

/-- A byte written reads back, and every other byte reads as before. -/
theorem Memory.byte_put (m : Memory) (a b : Nat) (v : BitVec 8) :
    Memory.byte (Memory.put m a v) b = if b = a then v else Memory.byte m b := by
  unfold Memory.put
  split
  · rename_i h
    by_cases hb : b = a
    · subst hb
      rw [Memory.byte_filter_self, if_pos rfl, h]
    · rw [Memory.byte_filter_ne hb, if_neg hb]
  · exact Memory.byte_list m a b v

end Sys2Proof.Machine
end

