-- ==== Sys2Proof/Laws/Registers.lean ====
section
/-! SUPPORT. The register file bit by bit: what a lane reads at a slice (`testBit_sliceRead`) and what a write leaves in every
bit of a present lane (`regBit_writeCells`), whatever tags the cells carry (01 R14, R21, R22, R25, R26). -/

namespace Sys2Proof.Machine
open Sys2Proof

theorem testBit_bitsN (v lo n i : Nat) : (bitsN v lo n).testBit i = (decide (i < n) && v.testBit (lo + i)) := by
  simp [bitsN, Nat.testBit_mod_two_pow, Nat.testBit_div_two_pow, Nat.add_comm]
theorem testBit_lowN (v w i : Nat) : (lowN v w).testBit i = (decide (i < w) && v.testBit i) := by
  simp [lowN, Nat.testBit_mod_two_pow]
theorem putBitsN_eq (v lo n x : Nat) :
    putBitsN v lo n x = 2 ^ lo * (2 ^ n * (v / 2 ^ (lo + n)) + lowN x n) + v % 2 ^ lo := by
  have h1 : v = 2 ^ lo * (v / 2 ^ lo) + v % 2 ^ lo := (Nat.div_add_mod v (2 ^ lo)).symm
  have h2 : v / 2 ^ lo = 2 ^ n * (v / 2 ^ lo / 2 ^ n) + v / 2 ^ lo % 2 ^ n := (Nat.div_add_mod _ (2 ^ n)).symm
  have h3 : v / 2 ^ lo / 2 ^ n = v / 2 ^ (lo + n) := by rw [Nat.div_div_eq_div_mul, ← Nat.pow_add]
  unfold putBitsN bitsN
  rw [h3] at h2
  generalize v / 2 ^ (lo + n) = q at *
  generalize v / 2 ^ lo % 2 ^ n = m at *
  generalize v % 2 ^ lo = r at *
  generalize lowN x n = y at *
  rw [h2] at h1
  generalize hA : 2 ^ lo = A at *
  generalize 2 ^ n = B at *
  subst h1
  have : A * (B * q + m) + r = A * (B * q) + r + m * A := by ring
  rw [this, Nat.add_sub_cancel]; ring

theorem testBit_putBitsN (v lo n x i : Nat) :
    (putBitsN v lo n x).testBit i = if lo ≤ i ∧ i < lo + n then x.testBit (i - lo) else v.testBit i := by
  rw [putBitsN_eq, Nat.testBit_two_pow_mul_add _ (Nat.mod_lt _ (Nat.two_pow_pos _))]
  have hl : lowN x n < 2 ^ n := Nat.mod_lt _ (Nat.two_pow_pos _)
  rw [Nat.testBit_two_pow_mul_add _ hl]
  by_cases h1 : i < lo
  · have h : ¬ (lo ≤ i ∧ i < lo + n) := by omega
    simp [h1, h, Nat.testBit_mod_two_pow]
  · by_cases h2 : i - lo < n
    · have h : lo ≤ i ∧ i < lo + n := by omega
      simp [h1, h2, h, testBit_lowN]
    · have h : ¬ (lo ≤ i ∧ i < lo + n) := by omega
      have e : i - lo - n + (lo + n) = i := by omega
      simp [h1, h2, h, Nat.testBit_div_two_pow, e]

theorem bitN_eq (v i : Nat) : bitN v i = v.testBit i := by
  rw [bitN, Nat.testBit_eq_decide_div_mod_eq]; rfl

theorem hasLane_eq (m : Word) (i : Nat) : hasLane m i = m.getLsbD i := by
  rw [hasLane, bitN_eq, BitVec.getLsbD]

theorem hasLane_and (m n : Word) (i : Nat) : hasLane (m &&& n) i = (hasLane m i && hasLane n i) := by
  simp [hasLane_eq]

theorem lowestLane_spec {m : Word} (h : m ≠ 0) : ∃ l, lowestLane m = some l ∧ l < 32 ∧ hasLane m l = true := by
  obtain ⟨i, hi, hb⟩ : ∃ i, i < 32 ∧ m.getLsbD i = true := by
    by_contra hc
    apply h
    apply BitVec.eq_of_getLsbD_eq
    intro i hi
    simp only [not_exists, not_and, Bool.not_eq_true] at hc
    simpa using hc i hi
  have hmem : i ∈ lanesOf m := by
    simp [lanesOf, allLanes, hasLane_eq, hi, hb]
  cases hl : lanesOf m with
  | nil => simp [hl] at hmem
  | cons l t =>
    refine ⟨l, by simp [lowestLane, hl], ?_⟩
    have : l ∈ lanesOf m := by simp [hl]
    simpa [lanesOf, allLanes] using this

theorem laneVal_valuesOf_aux (f : Nat → Nat) {i : Nat} (hi : i < 32) : laneVal (allLanes.map f) i = f i := by
  simp [laneVal, allLanes, List.getD_eq_getElem?_getD, hi]

/-- Bit `b` of the slices of lane `i`. -/
def regBit (cells : List StoredCell) (i b : Nat) : Bool := ((cellAt cells (b / 32)).lane i).toNat.testBit (b % 32)

theorem testBit_laneBits (cells : List StoredCell) (i k n j : Nat) :
    (laneBits cells i k n).testBit j =
      (decide (j < 32 * n) && ((cellAt cells (k + j / 32)).lane i).toNat.testBit (j % 32)) := by
  induction n generalizing k j with
  | zero => simp [laneBits]
  | succ n ih =>
    have hlt : ((cellAt cells k).lane i).toNat < 2 ^ 32 := BitVec.isLt _
    rw [laneBits, Nat.add_comm, Nat.testBit_two_pow_mul_add _ hlt]
    by_cases hj : j < 32
    · have h0 : j / 32 = 0 := by omega
      have h1 : j % 32 = j := by omega
      have h2 : j < 32 * (n + 1) := by omega
      simp [hj, h0, h1, h2]
    · have h0 : (j - 32) / 32 + 1 = j / 32 := by omega
      have h1 : (j - 32) % 32 = j % 32 := by omega
      have h2 : (j - 32 < 32 * n) ↔ (j < 32 * (n + 1)) := by omega
      have h3 : k + 1 + (j - 32) / 32 = k + j / 32 := by omega
      simp [hj, ih, h1, h2, h3]

theorem testBit_sliceRead (cells : List StoredCell) (i s w j : Nat) :
    (sliceRead cells i s w).testBit j = (decide (j < w) && regBit cells i (4 * s + j)) := by
  rw [sliceRead, testBit_bitsN, testBit_laneBits, regBit]
  by_cases hj : j < w
  · have h1 : s % 8 * 4 + j < 32 * ((s % 8 * 4 + w + 31) / 32) := by omega
    have h2 : s / 8 + (s % 8 * 4 + j) / 32 = (4 * s + j) / 32 := by omega
    have h3 : (s % 8 * 4 + j) % 32 = (4 * s + j) % 32 := by omega
    simp [hj, h1, h2, h3]
  · simp [hj]

theorem sliceRead_lt (cells : List StoredCell) (i s w : Nat) : sliceRead cells i s w < 2 ^ w :=
  Nat.mod_lt _ (Nat.two_pow_pos _)

theorem modAt_length {α : Type} (l : List α) (n : Nat) (f : α → α) : (modAt l n f).length = l.length := by
  induction l generalizing n with
  | nil => rfl
  | cons h t ih => cases n <;> simp [modAt, ih]

theorem modAt_getElem? {α : Type} (l : List α) (n j : Nat) (f : α → α) :
    (modAt l n f)[j]? = if j = n then l[j]?.map f else l[j]? := by
  induction l generalizing n j with
  | nil => simp [modAt]
  | cons h t ih =>
    cases n with
    | zero => cases j <;> simp [modAt]
    | succ n => cases j <;> simp [modAt, ih]

theorem foldl_modAt_getElem? {α : Type} (F : Nat → α → α) (ks : List Nat) (hn : ks.Nodup) (l : List α) (j : Nat) :
    (ks.foldl (fun cs k => modAt cs k (F k)) l)[j]? = if j ∈ ks then l[j]?.map (F j) else l[j]? := by
  induction ks generalizing l with
  | nil => simp
  | cons k t ih =>
    rw [List.nodup_cons] at hn
    rw [List.foldl_cons, ih hn.2, modAt_getElem?]
    by_cases h1 : j = k
    · subst h1; simp [hn.1]
    · simp [h1]

theorem foldl_modAt_length {α : Type} (F : Nat → α → α) (ks : List Nat) (l : List α) :
    (ks.foldl (fun cs k => modAt cs k (F k)) l).length = l.length := by
  induction ks generalizing l with
  | nil => rfl
  | cons k t ih => rw [List.foldl_cons, ih, modAt_length]

theorem touched_nodup (s w : Nat) : (touched s w).Nodup := by
  rw [touched]
  exact (List.nodup_range).map (fun a b h => by simpa using h)

theorem mem_touched (s w k : Nat) (hw : 0 < w) : k ∈ touched s w ↔ 32 * k < 4 * s + w ∧ 4 * s < 32 * k + 32 := by
  simp only [touched, List.mem_map, List.mem_range]
  constructor
  · rintro ⟨a, h1, rfl⟩; omega
  · intro h; exact ⟨k - s / 8, by omega, by omega⟩

/-- What bit `q` of cell `k` becomes in a lane that writes `x` to `w` bits at slice `s`. -/
def mergedBit (old : Word) (k s w x q : Nat) : Bool :=
  if 4 * s ≤ 32 * k + q ∧ 32 * k + q < 4 * s + w then x.testBit (32 * k + q - 4 * s) else old.toNat.testBit q

/-- The word that a lane's cell `k` becomes. -/
def mergedWord (old : Word) (k s w x : Nat) : Word :=
  BitVec.ofNat 32 (putBitsN old.toNat (cellPart s w k).1 (cellPart s w k).2.1
    (bitsN x (cellPart s w k).2.2 (cellPart s w k).2.1))

theorem mergedWord_bit (old : Word) (k s w x q : Nat) (hq : q < 32) :
    (mergedWord old k s w x).toNat.testBit q = mergedBit old k s w x q := by
  rw [mergedWord, BitVec.toNat_ofNat, Nat.testBit_mod_two_pow, testBit_putBitsN, mergedBit]
  have e1 : (cellPart s w k).1 = max (4 * s) (32 * k) - 32 * k := rfl
  have e2 : (cellPart s w k).2.1 = min (4 * s + w) (32 * k + 32) - max (4 * s) (32 * k) := rfl
  have e3 : (cellPart s w k).2.2 = max (4 * s) (32 * k) - 4 * s := rfl
  generalize (cellPart s w k).1 = p1 at *
  generalize (cellPart s w k).2.1 = p2 at *
  generalize (cellPart s w k).2.2 = p3 at *
  simp only [hq, decide_true, Bool.true_and, testBit_bitsN]
  by_cases h : 4 * s ≤ 32 * k + q ∧ 32 * k + q < 4 * s + w
  · have h1 : p1 ≤ q ∧ q < p1 + p2 := by omega
    have h2 : q - p1 < p2 := by omega
    have h3 : p3 + (q - p1) = 32 * k + q - 4 * s := by omega
    simp [h1, h, h2, h3]
  · have h1 : ¬ (p1 ≤ q ∧ q < p1 + p2) := by omega
    rw [if_neg h1, if_neg h]

theorem word_ext {a b : Word} (h : ∀ q, q < 32 → a.toNat.testBit q = b.toNat.testBit q) : a = b := by
  apply BitVec.eq_of_getLsbD_eq
  intro q hq
  simpa [BitVec.getLsbD] using h q hq

theorem Cell.lane_general (c : Cell) (lanes : Word) (f : Nat → Word) (i : Nat) (hi : i < 32) :
    (c.general lanes f).lane i = if hasLane lanes i then f i else c.lane i := by
  simp [Cell.general, Cell.lane, allLanes, List.getD_eq_getElem?_getD, hi]

theorem writeCell_eq (c : Cell) (k s w : Nat) (vals : List Nat) (lanes : Word) (full : Bool) (tag : OpTag) :
    writeCell c k s w vals lanes full tag =
      if full = true then
        if (cellPart s w k).2.1 = 32 then
          c.whole (if w = 32 then tag.result else tag.sources) lanes (fun i => mergedWord (c.lane i) k s w (laneVal vals i))
        else
          match c, tag.result with
          | .u v, .u => .u (mergedWord v k s w (laneVal vals ((lowestLane lanes).getD 0)))
          | _, _ => c.general lanes (fun i => mergedWord (c.lane i) k s w (laneVal vals i))
      else
        match c, tag.result with
        | .u v, .u =>
          if mergedWord v k s w (laneVal vals ((lowestLane lanes).getD 0)) = v then .u v
          else c.general lanes (fun i => mergedWord (c.lane i) k s w (laneVal vals i))
        | _, _ => c.general lanes (fun i => mergedWord (c.lane i) k s w (laneVal vals i)) := by
  unfold writeCell
  cases c <;> generalize tag.result = r <;> cases r <;> rfl

/-- Only the bits of a value below the width of the write land in a cell. -/
theorem mergedWord_congr {k s w x y : Nat} (o : Word) (h : x % 2 ^ w = y % 2 ^ w) :
    mergedWord o k s w x = mergedWord o k s w y := by
  apply word_ext; intro q hq
  rw [mergedWord_bit _ _ _ _ _ _ hq, mergedWord_bit _ _ _ _ _ _ hq, mergedBit, mergedBit]
  split
  · rename_i hin
    have := congrArg (fun n => n.testBit (32 * k + q - 4 * s)) h
    simp only [Nat.testBit_mod_two_pow] at this
    simpa [show 32 * k + q - 4 * s < w by omega] using this
  · rfl

/-- An affine result with stride 0 is U (01 R25). -/
theorem OpTag.result_a (b s : Word) : (OpTag.a b s).result = if s = 0 then .u else .a b s := rfl

/-- A tag that fits and gives a U result, or U sources, says that the active lanes write one value. -/
theorem OpTag.Fits.same {tag : OpTag} {lanes : Word} {w : Nat} {val : Nat → Nat} (h : tag.Fits lanes w val)
    (ht : tag.result = .u ∨ tag.sources = .u) {i j : Nat} (hi : i < 32) (hj : j < 32) (ai : hasLane lanes i = true)
    (aj : hasLane lanes j = true) : val i % 2 ^ w = val j % 2 ^ w := by
  cases tag with
  | u => rw [h i j hi hj ai aj]
  | mixed => rw [h i j hi hj ai aj]
  | flat => rw [h i j hi hj ai aj]
  | g => simp [OpTag.result, OpTag.sources] at ht
  | a b st =>
    have hz : st = 0 := by
      by_contra hc
      rcases ht with ht | ht
      · rw [OpTag.result_a, if_neg hc] at ht; exact absurd ht (by simp)
      · exact absurd ht (by simp [OpTag.sources])
    have hw := h.2 hz
    subst hz
    have e1 := h.1 hw i hi ai
    have e2 := h.1 hw j hj aj
    simp only [BitVec.ofNat_eq_ofNat, BitVec.toNat_ofNat, Nat.zero_mod, Nat.mul_zero] at e1 e2
    have e3 := congrArg BitVec.toNat (e1.trans e2.symm)
    simpa [hw, BitVec.toNat_ofNat] using e3

/-- A tag's result, or its sources, is U, A with its base and stride, or G. -/
theorem OpTag.result_cases (t : OpTag) :
    t.result = .u ∨ (∃ b s, t = .a b s ∧ s ≠ 0 ∧ t.result = .a b s) ∨ t.result = .g := by
  cases t with
  | a b s =>
    by_cases h : s = 0
    · left; rw [OpTag.result_a, if_pos h]
    · right; left; exact ⟨b, s, rfl, h, by rw [OpTag.result_a, if_neg h]⟩
  | _ => simp [OpTag.result]

theorem OpTag.sources_cases (t : OpTag) : t.sources = .u ∨ t.sources = .g := by
  cases t <;> simp [OpTag.sources]

/-- Whether a write covers a cell whole. -/
theorem cellPart_whole {s w k : Nat} : (cellPart s w k).2.1 = 32 ↔ 4 * s ≤ 32 * k ∧ 32 * k + 32 ≤ 4 * s + w := by
  simp only [cellPart]; omega

/-- A write leaves each lane of a cell merged where it writes, and as it was elsewhere. -/
theorem writeCell_lane (c : Cell) (k s w : Nat) (val : Nat → Nat) (lanes present : Word) (tag : OpTag)
    (hl : lanes ≠ 0) (ht : tag.Fits lanes w val) (i : Nat) (hi : i < 32) (hp : hasLane present i = true) :
    (writeCell c k s w (allLanes.map (fun i => if hasLane lanes i then val i else 0)) lanes
      (present &&& lanes == present) tag).lane i =
      if hasLane lanes i then mergedWord (c.lane i) k s w (val i) else c.lane i := by
  obtain ⟨l, hlow, hl32, hlact⟩ := lowestLane_spec hl
  have hval : ∀ j, j < 32 → hasLane lanes j = true →
      laneVal (allLanes.map (fun i => if hasLane lanes i then val i else 0)) j = val j := by
    intro j hj ha; rw [laneVal_valuesOf_aux _ hj]; simp [ha]
  generalize hvs : allLanes.map (fun i => if hasLane lanes i then val i else 0) = vals at *
  have hgen : (c.general lanes (fun i => mergedWord (c.lane i) k s w (laneVal vals i))).lane i =
      if hasLane lanes i then mergedWord (c.lane i) k s w (val i) else c.lane i := by
    rw [Cell.lane_general _ _ _ _ hi]
    by_cases ha : hasLane lanes i = true
    · simp [ha, hval i hi ha]
    · simp [ha]
  have hfullact : (present &&& lanes == present) = true → hasLane lanes i = true := by
    intro hf
    have he : present &&& lanes = present := by simpa using hf
    have := hasLane_and present lanes i
    rw [he, hp] at this
    simpa using this.symm
  rw [writeCell_eq]
  simp only [hlow, Option.getD_some]
  split
  · rename_i hf
    have ha := hfullact hf
    simp only [ha, if_true] at hgen ⊢
    split
    · rename_i h32
      -- the cell is covered whole
      have hcov := cellPart_whole.mp h32
      have hind : ∀ (o o' : Word) (x : Nat), mergedWord o k s w x = mergedWord o' k s w x := by
        intro o o' x
        apply word_ext; intro q hq
        rw [mergedWord_bit _ _ _ _ _ _ hq, mergedWord_bit _ _ _ _ _ _ hq, mergedBit, mergedBit]
        have : 4 * s ≤ 32 * k + q ∧ 32 * k + q < 4 * s + w := by omega
        simp [this]
      have hu : tag.result = .u ∨ tag.sources = .u →
          mergedWord (c.lane l) k s w (laneVal vals l) = mergedWord (c.lane i) k s w (val i) := by
        intro h
        rw [hval l hl32 hlact, hind _ (c.lane i), mergedWord_congr _ (ht.same h hl32 hi hlact ha)]
      by_cases hw : w = 32
      · rw [if_pos hw]
        subst hw
        rcases tag.result_cases with h | ⟨b, st, h1, hz, h⟩ | h
        · rw [h]; simpa [Cell.whole, Cell.lane, hlow] using hu (Or.inl h)
        · rw [h]
          subst h1
          have hk : 4 * s = 32 * k := by omega
          have hv := ht.1 rfl i hi ha
          have hm : mergedWord (c.lane i) k s 32 (val i) = BitVec.ofNat 32 (val i) := by
            apply word_ext; intro q hq
            rw [mergedWord_bit _ _ _ _ _ _ hq, mergedBit]
            have h1 : 4 * s ≤ 32 * k + q ∧ 32 * k + q < 4 * s + 32 := by omega
            have h2 : 32 * k + q - 4 * s = q := by omega
            rw [if_pos h1, h2, BitVec.toNat_ofNat, Nat.testBit_mod_two_pow]; simp [hq]
          rw [hm, hv]; rfl
        · rw [h]; simpa [Cell.whole] using hgen
      · rw [if_neg hw]
        rcases tag.sources_cases with h | h
        · rw [h]; simpa [Cell.whole, Cell.lane, hlow] using hu (Or.inr h)
        · rw [h]; simpa [Cell.whole] using hgen
    · split
      · rename_i v hr
        rw [Cell.lane, hval l hl32 hlact, mergedWord_congr _ (ht.same (Or.inl hr) hl32 hi hlact ha)]
        rfl
      · exact hgen
  · split
    · rename_i v hr
      split
      · rename_i hm
        by_cases ha : hasLane lanes i = true
        · rw [hval l hl32 hlact, mergedWord_congr _ (ht.same (Or.inl hr) hl32 hi hlact ha)] at hm
          rw [if_pos ha]; exact hm.symm
        · simp [ha]
      · exact hgen
    · exact hgen

/-- The tag that a write leaves in a cell is that of Table 01-3 (01 R26). -/
theorem writeCell_tag (c : Cell) (k s w : Nat) (val : Nat → Nat) (lanes : Word) (full : Bool) (tag : OpTag)
    (hl : lanes ≠ 0) :
    (writeCell c k s w (allLanes.map (fun i => if hasLane lanes i then val i else 0)) lanes full tag).tag =
      tagAfter c (writeCell c k s w (allLanes.map (fun i => if hasLane lanes i then val i else 0)) lanes full tag)
        k s w lanes full tag := by
  obtain ⟨l, hlow, hl32, hlact⟩ := lowestLane_spec hl
  have hval : ∀ j, j < 32 → hasLane lanes j = true →
      laneVal (allLanes.map (fun i => if hasLane lanes i then val i else 0)) j = val j := by
    intro j hj ha; rw [laneVal_valuesOf_aux _ hj]; simp [ha]
  generalize allLanes.map (fun i => if hasLane lanes i then val i else 0) = vals at *
  rw [writeCell_eq]
  simp only [hlow, Option.getD_some, tagAfter]
  cases full with
  | true =>
    simp only [if_true]
    by_cases h32 : (cellPart s w k).2.1 = 32
    · rw [if_pos h32, if_pos (cellPart_whole.mp h32)]
      by_cases hw : w = 32
      · simp only [hw, if_true]
        rcases tag.result_cases with h | ⟨b, st, h1, hz, h⟩ | h <;> rw [h] <;> simp [Cell.whole, Cell.tag, Cell.general]
      · simp only [hw, if_false]
        rcases tag.sources_cases with h | h <;> rw [h] <;> simp [Cell.whole, Cell.tag, Cell.general]
    · rw [if_neg h32, if_neg (fun h => h32 (cellPart_whole.mpr h))]
      cases c <;> rcases tag.result_cases with h | ⟨b, st, h1, hz, h⟩ | h <;> simp [h, Cell.tag, Cell.general]
  | false =>
    simp only [Bool.false_eq_true, if_false]
    cases c with
    | u v =>
      by_cases h : tag.result = .u
      · simp only [h, Cell.tag, true_and]
        by_cases hm : mergedWord v k s w (laneVal vals l) = v
        · simp [hm, Cell.lane]
        · rw [if_neg hm]
          have : ¬ allLanes.all (fun i => !hasLane lanes i ||
              ((Cell.u v).general lanes (fun i => mergedWord ((Cell.u v).lane i) k s w (laneVal vals i))).lane i ==
                (Cell.u v).lane i) = true := by
            intro hc
            have := List.all_eq_true.mp hc l (by simp [allLanes, hl32])
            rw [Cell.lane_general _ _ _ _ hl32, if_pos hlact] at this
            simp only [hlact, Bool.not_true, Bool.false_or, beq_iff_eq] at this
            exact hm this
          rw [if_neg this]
          simp [Cell.general]
      · rcases tag.result_cases with h' | ⟨b, st, h1, hz, h'⟩ | h'
        · exact absurd h' h
        · simp [h', Cell.tag, Cell.general]
        · simp [h', Cell.tag, Cell.general]
    | a b st => simp [Cell.tag, Cell.general]
    | g ls => simp [Cell.tag, Cell.general]

theorem cellAt_getElem? (cells : List StoredCell) (k : Nat) :
    cellAt cells k = ((cells[k]?).getD { cell := .u 0, evicted := false, used := 0 }).cell := by
  simp [cellAt, List.getD_eq_getElem?_getD]

theorem writeCells_length (cells : List StoredCell) (present : Word) (now s w : Nat) (vals : List Nat) (lanes : Word)
    (tag : OpTag) : (writeCells cells present now s w vals lanes tag).length = cells.length := by
  rw [writeCells]
  split
  · rfl
  · exact foldl_modAt_length _ _ _

/-- Every bit of a present lane after a register write: the written bits of an active lane are those of its value, every
other bit is as it was (01 R21, R22, R26). -/
theorem regBit_writeCells (cells : List StoredCell) (present : Word) (now s w : Nat) (val : Nat → Nat) (lanes : Word)
    (tag : OpTag) (hw : 0 < w) (ht : tag.Fits lanes w val) (hb : 4 * s + w ≤ 32 * cells.length)
    (i b : Nat) (hi : i < 32) (hp : hasLane present i = true) :
    regBit (writeCells cells present now s w (valuesOf lanes val) lanes tag) i b =
      if hasLane lanes i = true ∧ 4 * s ≤ b ∧ b < 4 * s + w then (val i).testBit (b - 4 * s) else regBit cells i b := by
  rw [writeCells]
  by_cases hl : lanes = 0
  · have : hasLane lanes i = false := by subst hl; simp [hasLane_eq]
    simp [hl]
    intro h; subst hl; simp [hasLane_eq] at h
  rw [if_neg hl, regBit, cellAt_getElem?, foldl_modAt_getElem? _ _ (touched_nodup s w)]
  simp only [mem_touched s w (b / 32) hw]
  by_cases hin : 32 * (b / 32) < 4 * s + w ∧ 4 * s < 32 * (b / 32) + 32
  · have hlen : b / 32 < cells.length := by omega
    rw [if_pos hin]
    simp only [List.getElem?_eq_getElem hlen, Option.map_some, Option.getD_some]
    rw [show valuesOf lanes val = allLanes.map (fun i => if hasLane lanes i then val i else 0) from rfl, writeCell_lane _ _ _ _ _ _ present _ hl ht i hi hp]
    have hcell : regBit cells i b = ((cells[b / 32]).cell.lane i).toNat.testBit (b % 32) := by
      rw [regBit, cellAt_getElem?, List.getElem?_eq_getElem hlen]; rfl
    by_cases ha : hasLane lanes i = true
    · rw [if_pos ha, mergedWord_bit _ _ _ _ _ _ (Nat.mod_lt _ (by omega)), mergedBit]
      have e1 : 32 * (b / 32) + b % 32 = b := by omega
      rw [e1, hcell]
      simp only [ha, true_and]
    · rw [if_neg ha, hcell]
      simp [ha]
  · rw [if_neg hin]
    have : ¬ (4 * s ≤ b ∧ b < 4 * s + w) := by omega
    simp only [this, and_false, if_false]
    rw [regBit, cellAt_getElem?]

/-- What a lane reads after a register write. -/
theorem sliceRead_writeCells (cells : List StoredCell) (present : Word) (now s w : Nat) (val : Nat → Nat) (lanes : Word)
    (tag : OpTag) (hw : 0 < w) (ht : tag.Fits lanes w val) (hb : 4 * s + w ≤ 32 * cells.length)
    (i : Nat) (hi : i < 32) (hp : hasLane present i = true) (ha : hasLane lanes i = true) :
    sliceRead (writeCells cells present now s w (valuesOf lanes val) lanes tag) i s w = val i % 2 ^ w := by
  apply Nat.eq_of_testBit_eq
  intro j
  rw [testBit_sliceRead, regBit_writeCells _ _ _ _ _ _ _ _ hw ht hb _ _ hi hp, Nat.testBit_mod_two_pow]
  by_cases hj : j < w
  · have h1 : 4 * s ≤ 4 * s + j ∧ 4 * s + j < 4 * s + w := by omega
    have h2 : 4 * s + j - 4 * s = j := by omega
    rw [if_pos ⟨ha, h1⟩, h2]
  · simp [hj]

/-- Slices that a write does not reach read as before. -/
theorem sliceRead_writeCells_other (cells : List StoredCell) (present : Word) (now s w : Nat) (val : Nat → Nat)
    (lanes : Word) (tag : OpTag) (hw : 0 < w) (ht : tag.Fits lanes w val) (hb : 4 * s + w ≤ 32 * cells.length)
    (i : Nat) (hi : i < 32) (hp : hasLane present i = true) (p n : Nat)
    (ho : hasLane lanes i = false ∨ 4 * p + n ≤ 4 * s ∨ 4 * s + w ≤ 4 * p) :
    sliceRead (writeCells cells present now s w (valuesOf lanes val) lanes tag) i p n = sliceRead cells i p n := by
  apply Nat.eq_of_testBit_eq
  intro j
  rw [testBit_sliceRead, testBit_sliceRead]
  by_cases hj : j < n
  · rw [regBit_writeCells _ _ _ _ _ _ _ _ hw ht hb _ _ hi hp]
    have : ¬ (hasLane lanes i = true ∧ 4 * s ≤ 4 * p + j ∧ 4 * p + j < 4 * s + w) := by
      rintro ⟨h1, h2⟩
      rcases ho with h | h
      · simp [h1] at h
      · omega
    rw [if_neg this]
  · simp [hj]

/-- The cells after a register write, one by one. -/
theorem writeCells_getElem? (cells : List StoredCell) (present : Word) (now s w : Nat) (vals : List Nat) (lanes : Word)
    (tag : OpTag) (hl : lanes ≠ 0) (k : Nat) :
    (writeCells cells present now s w vals lanes tag)[k]? =
      if k ∈ touched s w then
        cells[k]?.map (fun c => { cell := writeCell c.cell k s w vals lanes (present &&& lanes == present) tag, evicted := false,
                                  used := now })
      else cells[k]? := by
  rw [writeCells, if_neg hl]
  exact foldl_modAt_getElem? _ _ (touched_nodup s w) _ _

/-- A register write with a tag that fits reads back (01 R21, R22, R26). -/
theorem write_readsBack (g : Group) (now d w : Nat) (val : Nat → Nat) (lanes : Word) (tag : OpTag) (hw : 0 < w)
    (h4 : w % 4 = 0) (ht : tag.Fits lanes w val) (hb : d + w / 4 ≤ g.budget) :
    ReadsBack g (g.write now d w (valuesOf lanes val) lanes tag).cells lanes d w val tag := by
  have hlen : 4 * d + w ≤ 32 * g.cells.length := by rw [Group.budget] at hb; omega
  have htags : lanes ≠ 0 → ∀ k, k < g.cells.length → 32 * k < 4 * d + w → 4 * d < 32 * k + 32 →
      (cellAt (g.write now d w (valuesOf lanes val) lanes tag).cells k).tag =
        tagAfter (cellAt g.cells k) (cellAt (g.write now d w (valuesOf lanes val) lanes tag).cells k) k d w lanes
          (g.present &&& lanes == g.present) tag := by
    intro hl k hk h1 h2
    have hin : k ∈ touched d w := (mem_touched d w k hw).mpr ⟨h1, h2⟩
    have e : cellAt (g.write now d w (valuesOf lanes val) lanes tag).cells k =
        writeCell (cellAt g.cells k) k d w (valuesOf lanes val) lanes (g.present &&& lanes == g.present) tag := by
      rw [cellAt_getElem?, cellAt_getElem?]
      simp only [Group.write]
      rw [writeCells_getElem? _ _ _ _ _ _ _ _ hl, if_pos hin]
      simp [List.getElem?_eq_getElem hk]
    rw [e]
    exact writeCell_tag _ _ _ _ _ _ _ _ hl
  have hrest : ∀ k, lanes = 0 ∨ 4 * d + w ≤ 32 * k ∨ 32 * k + 32 ≤ 4 * d →
      (g.write now d w (valuesOf lanes val) lanes tag).cells[k]? = g.cells[k]? := by
    intro k hk
    by_cases hl : lanes = 0
    · simp [Group.write, writeCells, hl]
    · simp only [Group.write]
      rw [writeCells_getElem? _ _ _ _ _ _ _ _ hl, if_neg]
      rw [mem_touched _ _ _ hw]
      rcases hk with h | h | h
      · exact absurd h hl
      · omega
      · omega
  exact
    { written := fun i hi hp ha => sliceRead_writeCells _ _ _ _ _ _ _ _ hw ht hlen i hi hp ha
      kept := fun i hi hp p n ho => sliceRead_writeCells_other _ _ _ _ _ _ _ _ hw ht hlen i hi hp p n ho
      tags := htags
      rest := hrest
      size := writeCells_length _ _ _ _ _ _ _ _ }

end Sys2Proof.Machine
end

