-- ==== Sys2Proof/Laws/State.lean ====
section
/-! SUPPORT. What the named updates of the state leave in each field: one lemma per field per update, each by unfolding the
update once, so that no proof unfolds a record update again. -/

namespace Sys2Proof.Machine

open Sys2Proof

/-! ## Updates of the device -/

@[simp] theorem Device.setCtx_tick (d : Device) (c : BitVec 6) (x : Context) :
    (d.setCtx c x).tick = d.tick := rfl

@[simp] theorem Device.setCtx_cyc (d : Device) (c : BitVec 6) (x : Context) :
    (d.setCtx c x).cyc = d.cyc := rfl

@[simp] theorem Device.setCtx_powered (d : Device) (c : BitVec 6) (x : Context) :
    (d.setCtx c x).powered = d.powered := rfl

@[simp] theorem Device.setCtx_boot (d : Device) (c : BitVec 6) (x : Context) :
    (d.setCtx c x).boot = d.boot := rfl

@[simp] theorem Device.setCtx_power (d : Device) (c : BitVec 6) (x : Context) :
    (d.setCtx c x).power = d.power := rfl

@[simp] theorem Device.setCtx_powers (d : Device) (c : BitVec 6) (x : Context) :
    (d.setCtx c x).powers = d.powers := rfl

@[simp] theorem Device.setCtx_temp (d : Device) (c : BitVec 6) (x : Context) :
    (d.setCtx c x).temp = d.temp := rfl

@[simp] theorem Device.setCtx_clk (d : Device) (c : BitVec 6) (x : Context) :
    (d.setCtx c x).clk = d.clk := rfl

@[simp] theorem Device.setCtx_throttled (d : Device) (c : BitVec 6) (x : Context) :
    (d.setCtx c x).throttled = d.throttled := rfl

@[simp] theorem Device.setCtx_enabled (d : Device) (c : BitVec 6) (x : Context) :
    (d.setCtx c x).enabled = d.enabled := rfl

@[simp] theorem Device.setCtx_fenced (d : Device) (c : BitVec 6) (x : Context) :
    (d.setCtx c x).fenced = d.fenced := rfl

@[simp] theorem Device.setCtx_arrays (d : Device) (c : BitVec 6) (x : Context) :
    (d.setCtx c x).arrays = d.arrays := rfl

@[simp] theorem Device.setCtx_counters (d : Device) (c : BitVec 6) (x : Context) :
    (d.setCtx c x).counters = d.counters := rfl

@[simp] theorem Device.setCtx_secBlocks (d : Device) (c : BitVec 6) (x : Context) :
    (d.setCtx c x).secBlocks = d.secBlocks := rfl

@[simp] theorem Device.setCtx_secRanges (d : Device) (c : BitVec 6) (x : Context) :
    (d.setCtx c x).secRanges = d.secRanges := rfl

@[simp] theorem Device.setCtx_firmware (d : Device) (c : BitVec 6) (x : Context) :
    (d.setCtx c x).firmware = d.firmware := rfl

@[simp] theorem Device.setCtx_policy (d : Device) (c : BitVec 6) (x : Context) :
    (d.setCtx c x).policy = d.policy := rfl

@[simp] theorem Device.setCtx_repairMap (d : Device) (c : BitVec 6) (x : Context) :
    (d.setCtx c x).repairMap = d.repairMap := rfl

@[simp] theorem Device.setCtx_hbm (d : Device) (c : BitVec 6) (x : Context) :
    (d.setCtx c x).hbm = d.hbm := rfl

@[simp] theorem Device.setCtx_host (d : Device) (c : BitVec 6) (x : Context) :
    (d.setCtx c x).host = d.host := rfl

@[simp] theorem Device.setCtx_peers (d : Device) (c : BitVec 6) (x : Context) :
    (d.setCtx c x).peers = d.peers := rfl

@[simp] theorem Device.setCtx_spad (d : Device) (c : BitVec 6) (x : Context) :
    (d.setCtx c x).spad = d.spad := rfl

@[simp] theorem Device.setCtx_pointers (d : Device) (c : BitVec 6) (x : Context) :
    (d.setCtx c x).pointers = d.pointers := rfl

@[simp] theorem Device.setCtx_gens (d : Device) (c : BitVec 6) (x : Context) :
    (d.setCtx c x).gens = d.gens := rfl

@[simp] theorem Device.setCtx_writes (d : Device) (c : BitVec 6) (x : Context) :
    (d.setCtx c x).writes = d.writes := rfl

@[simp] theorem Device.setCtx_tlb (d : Device) (c : BitVec 6) (x : Context) :
    (d.setCtx c x).tlb = d.tlb := rfl

@[simp] theorem Device.setCtx_packets (d : Device) (c : BitVec 6) (x : Context) :
    (d.setCtx c x).packets = d.packets := rfl

@[simp] theorem Device.setCtx_locks (d : Device) (c : BitVec 6) (x : Context) :
    (d.setCtx c x).locks = d.locks := rfl

@[simp] theorem Device.setCtx_requests (d : Device) (c : BitVec 6) (x : Context) :
    (d.setCtx c x).requests = d.requests := rfl

@[simp] theorem Device.setCtx_matrix (d : Device) (c : BitVec 6) (x : Context) :
    (d.setCtx c x).matrix = d.matrix := rfl

@[simp] theorem Device.setCtx_released (d : Device) (c : BitVec 6) (x : Context) :
    (d.setCtx c x).released = d.released := rfl

@[simp] theorem Device.setCtx_releasedOps (d : Device) (c : BitVec 6) (x : Context) :
    (d.setCtx c x).releasedOps = d.releasedOps := rfl

@[simp] theorem Device.setCtx_accs (d : Device) (c : BitVec 6) (x : Context) :
    (d.setCtx c x).accs = d.accs := rfl

@[simp] theorem Device.setCtx_wgs (d : Device) (c : BitVec 6) (x : Context) :
    (d.setCtx c x).wgs = d.wgs := rfl

@[simp] theorem Device.setCtx_ready (d : Device) (c : BitVec 6) (x : Context) :
    (d.setCtx c x).ready = d.ready := rfl

@[simp] theorem Device.setCtx_ring (d : Device) (c : BitVec 6) (x : Context) :
    (d.setCtx c x).ring = d.ring := rfl

@[simp] theorem Device.setCtx_msgHead (d : Device) (c : BitVec 6) (x : Context) :
    (d.setCtx c x).msgHead = d.msgHead := rfl

@[simp] theorem Device.setCtx_msgTail (d : Device) (c : BitVec 6) (x : Context) :
    (d.setCtx c x).msgTail = d.msgTail := rfl

@[simp] theorem Device.setCtx_held (d : Device) (c : BitVec 6) (x : Context) :
    (d.setCtx c x).held = d.held := rfl

@[simp] theorem Device.setCtx_outbox (d : Device) (c : BitVec 6) (x : Context) :
    (d.setCtx c x).outbox = d.outbox := rfl

@[simp] theorem Device.setCtx_irqs (d : Device) (c : BitVec 6) (x : Context) :
    (d.setCtx c x).irqs = d.irqs := rfl

@[simp] theorem Device.setCtx_posts (d : Device) (c : BitVec 6) (x : Context) :
    (d.setCtx c x).posts = d.posts := rfl

@[simp] theorem Device.setCtx_lost (d : Device) (c : BitVec 6) (x : Context) :
    (d.setCtx c x).lost = d.lost := rfl

@[simp] theorem Device.setCtx_aperture (d : Device) (c : BitVec 6) (x : Context) :
    (d.setCtx c x).aperture = d.aperture := rfl

@[simp] theorem Device.setCtx_apData (d : Device) (c : BitVec 6) (x : Context) :
    (d.setCtx c x).apData = d.apData := rfl

@[simp] theorem Device.setCtx_inbound (d : Device) (c : BitVec 6) (x : Context) :
    (d.setCtx c x).inbound = d.inbound := rfl

@[simp] theorem Device.setCtx_ports (d : Device) (c : BitVec 6) (x : Context) :
    (d.setCtx c x).ports = d.ports := rfl

@[simp] theorem Device.setCtx_windows (d : Device) (c : BitVec 6) (x : Context) :
    (d.setCtx c x).windows = d.windows := rfl

@[simp] theorem Device.setCtx_spdm (d : Device) (c : BitVec 6) (x : Context) :
    (d.setCtx c x).spdm = d.spdm := rfl

@[simp] theorem Device.setCtx_nextId (d : Device) (c : BitVec 6) (x : Context) :
    (d.setCtx c x).nextId = d.nextId := rfl

@[simp] theorem Device.modCtx_tick (d : Device) (c : BitVec 6) (f : Context → Context) :
    (d.modCtx c f).tick = d.tick := rfl

@[simp] theorem Device.modCtx_cyc (d : Device) (c : BitVec 6) (f : Context → Context) :
    (d.modCtx c f).cyc = d.cyc := rfl

@[simp] theorem Device.modCtx_powered (d : Device) (c : BitVec 6) (f : Context → Context) :
    (d.modCtx c f).powered = d.powered := rfl

@[simp] theorem Device.modCtx_boot (d : Device) (c : BitVec 6) (f : Context → Context) :
    (d.modCtx c f).boot = d.boot := rfl

@[simp] theorem Device.modCtx_power (d : Device) (c : BitVec 6) (f : Context → Context) :
    (d.modCtx c f).power = d.power := rfl

@[simp] theorem Device.modCtx_powers (d : Device) (c : BitVec 6) (f : Context → Context) :
    (d.modCtx c f).powers = d.powers := rfl

@[simp] theorem Device.modCtx_temp (d : Device) (c : BitVec 6) (f : Context → Context) :
    (d.modCtx c f).temp = d.temp := rfl

@[simp] theorem Device.modCtx_clk (d : Device) (c : BitVec 6) (f : Context → Context) :
    (d.modCtx c f).clk = d.clk := rfl

@[simp] theorem Device.modCtx_throttled (d : Device) (c : BitVec 6) (f : Context → Context) :
    (d.modCtx c f).throttled = d.throttled := rfl

@[simp] theorem Device.modCtx_enabled (d : Device) (c : BitVec 6) (f : Context → Context) :
    (d.modCtx c f).enabled = d.enabled := rfl

@[simp] theorem Device.modCtx_fenced (d : Device) (c : BitVec 6) (f : Context → Context) :
    (d.modCtx c f).fenced = d.fenced := rfl

@[simp] theorem Device.modCtx_arrays (d : Device) (c : BitVec 6) (f : Context → Context) :
    (d.modCtx c f).arrays = d.arrays := rfl

@[simp] theorem Device.modCtx_counters (d : Device) (c : BitVec 6) (f : Context → Context) :
    (d.modCtx c f).counters = d.counters := rfl

@[simp] theorem Device.modCtx_secBlocks (d : Device) (c : BitVec 6) (f : Context → Context) :
    (d.modCtx c f).secBlocks = d.secBlocks := rfl

@[simp] theorem Device.modCtx_secRanges (d : Device) (c : BitVec 6) (f : Context → Context) :
    (d.modCtx c f).secRanges = d.secRanges := rfl

@[simp] theorem Device.modCtx_firmware (d : Device) (c : BitVec 6) (f : Context → Context) :
    (d.modCtx c f).firmware = d.firmware := rfl

@[simp] theorem Device.modCtx_policy (d : Device) (c : BitVec 6) (f : Context → Context) :
    (d.modCtx c f).policy = d.policy := rfl

@[simp] theorem Device.modCtx_repairMap (d : Device) (c : BitVec 6) (f : Context → Context) :
    (d.modCtx c f).repairMap = d.repairMap := rfl

@[simp] theorem Device.modCtx_hbm (d : Device) (c : BitVec 6) (f : Context → Context) :
    (d.modCtx c f).hbm = d.hbm := rfl

@[simp] theorem Device.modCtx_host (d : Device) (c : BitVec 6) (f : Context → Context) :
    (d.modCtx c f).host = d.host := rfl

@[simp] theorem Device.modCtx_peers (d : Device) (c : BitVec 6) (f : Context → Context) :
    (d.modCtx c f).peers = d.peers := rfl

@[simp] theorem Device.modCtx_spad (d : Device) (c : BitVec 6) (f : Context → Context) :
    (d.modCtx c f).spad = d.spad := rfl

@[simp] theorem Device.modCtx_pointers (d : Device) (c : BitVec 6) (f : Context → Context) :
    (d.modCtx c f).pointers = d.pointers := rfl

@[simp] theorem Device.modCtx_gens (d : Device) (c : BitVec 6) (f : Context → Context) :
    (d.modCtx c f).gens = d.gens := rfl

@[simp] theorem Device.modCtx_writes (d : Device) (c : BitVec 6) (f : Context → Context) :
    (d.modCtx c f).writes = d.writes := rfl

@[simp] theorem Device.modCtx_tlb (d : Device) (c : BitVec 6) (f : Context → Context) :
    (d.modCtx c f).tlb = d.tlb := rfl

@[simp] theorem Device.modCtx_packets (d : Device) (c : BitVec 6) (f : Context → Context) :
    (d.modCtx c f).packets = d.packets := rfl

@[simp] theorem Device.modCtx_locks (d : Device) (c : BitVec 6) (f : Context → Context) :
    (d.modCtx c f).locks = d.locks := rfl

@[simp] theorem Device.modCtx_requests (d : Device) (c : BitVec 6) (f : Context → Context) :
    (d.modCtx c f).requests = d.requests := rfl

@[simp] theorem Device.modCtx_matrix (d : Device) (c : BitVec 6) (f : Context → Context) :
    (d.modCtx c f).matrix = d.matrix := rfl

@[simp] theorem Device.modCtx_released (d : Device) (c : BitVec 6) (f : Context → Context) :
    (d.modCtx c f).released = d.released := rfl

@[simp] theorem Device.modCtx_releasedOps (d : Device) (c : BitVec 6) (f : Context → Context) :
    (d.modCtx c f).releasedOps = d.releasedOps := rfl

@[simp] theorem Device.modCtx_accs (d : Device) (c : BitVec 6) (f : Context → Context) :
    (d.modCtx c f).accs = d.accs := rfl

@[simp] theorem Device.modCtx_wgs (d : Device) (c : BitVec 6) (f : Context → Context) :
    (d.modCtx c f).wgs = d.wgs := rfl

@[simp] theorem Device.modCtx_ready (d : Device) (c : BitVec 6) (f : Context → Context) :
    (d.modCtx c f).ready = d.ready := rfl

@[simp] theorem Device.modCtx_ring (d : Device) (c : BitVec 6) (f : Context → Context) :
    (d.modCtx c f).ring = d.ring := rfl

@[simp] theorem Device.modCtx_msgHead (d : Device) (c : BitVec 6) (f : Context → Context) :
    (d.modCtx c f).msgHead = d.msgHead := rfl

@[simp] theorem Device.modCtx_msgTail (d : Device) (c : BitVec 6) (f : Context → Context) :
    (d.modCtx c f).msgTail = d.msgTail := rfl

@[simp] theorem Device.modCtx_held (d : Device) (c : BitVec 6) (f : Context → Context) :
    (d.modCtx c f).held = d.held := rfl

@[simp] theorem Device.modCtx_outbox (d : Device) (c : BitVec 6) (f : Context → Context) :
    (d.modCtx c f).outbox = d.outbox := rfl

@[simp] theorem Device.modCtx_irqs (d : Device) (c : BitVec 6) (f : Context → Context) :
    (d.modCtx c f).irqs = d.irqs := rfl

@[simp] theorem Device.modCtx_posts (d : Device) (c : BitVec 6) (f : Context → Context) :
    (d.modCtx c f).posts = d.posts := rfl

@[simp] theorem Device.modCtx_lost (d : Device) (c : BitVec 6) (f : Context → Context) :
    (d.modCtx c f).lost = d.lost := rfl

@[simp] theorem Device.modCtx_aperture (d : Device) (c : BitVec 6) (f : Context → Context) :
    (d.modCtx c f).aperture = d.aperture := rfl

@[simp] theorem Device.modCtx_apData (d : Device) (c : BitVec 6) (f : Context → Context) :
    (d.modCtx c f).apData = d.apData := rfl

@[simp] theorem Device.modCtx_inbound (d : Device) (c : BitVec 6) (f : Context → Context) :
    (d.modCtx c f).inbound = d.inbound := rfl

@[simp] theorem Device.modCtx_ports (d : Device) (c : BitVec 6) (f : Context → Context) :
    (d.modCtx c f).ports = d.ports := rfl

@[simp] theorem Device.modCtx_windows (d : Device) (c : BitVec 6) (f : Context → Context) :
    (d.modCtx c f).windows = d.windows := rfl

@[simp] theorem Device.modCtx_spdm (d : Device) (c : BitVec 6) (f : Context → Context) :
    (d.modCtx c f).spdm = d.spdm := rfl

@[simp] theorem Device.modCtx_nextId (d : Device) (c : BitVec 6) (f : Context → Context) :
    (d.modCtx c f).nextId = d.nextId := rfl

@[simp] theorem Device.modWg_tick (d : Device) (uid : Nat) (f : Workgroup → Workgroup) :
    (d.modWg uid f).tick = d.tick := rfl

@[simp] theorem Device.modWg_cyc (d : Device) (uid : Nat) (f : Workgroup → Workgroup) :
    (d.modWg uid f).cyc = d.cyc := rfl

@[simp] theorem Device.modWg_powered (d : Device) (uid : Nat) (f : Workgroup → Workgroup) :
    (d.modWg uid f).powered = d.powered := rfl

@[simp] theorem Device.modWg_boot (d : Device) (uid : Nat) (f : Workgroup → Workgroup) :
    (d.modWg uid f).boot = d.boot := rfl

@[simp] theorem Device.modWg_power (d : Device) (uid : Nat) (f : Workgroup → Workgroup) :
    (d.modWg uid f).power = d.power := rfl

@[simp] theorem Device.modWg_powers (d : Device) (uid : Nat) (f : Workgroup → Workgroup) :
    (d.modWg uid f).powers = d.powers := rfl

@[simp] theorem Device.modWg_temp (d : Device) (uid : Nat) (f : Workgroup → Workgroup) :
    (d.modWg uid f).temp = d.temp := rfl

@[simp] theorem Device.modWg_clk (d : Device) (uid : Nat) (f : Workgroup → Workgroup) :
    (d.modWg uid f).clk = d.clk := rfl

@[simp] theorem Device.modWg_throttled (d : Device) (uid : Nat) (f : Workgroup → Workgroup) :
    (d.modWg uid f).throttled = d.throttled := rfl

@[simp] theorem Device.modWg_enabled (d : Device) (uid : Nat) (f : Workgroup → Workgroup) :
    (d.modWg uid f).enabled = d.enabled := rfl

@[simp] theorem Device.modWg_fenced (d : Device) (uid : Nat) (f : Workgroup → Workgroup) :
    (d.modWg uid f).fenced = d.fenced := rfl

@[simp] theorem Device.modWg_arrays (d : Device) (uid : Nat) (f : Workgroup → Workgroup) :
    (d.modWg uid f).arrays = d.arrays := rfl

@[simp] theorem Device.modWg_counters (d : Device) (uid : Nat) (f : Workgroup → Workgroup) :
    (d.modWg uid f).counters = d.counters := rfl

@[simp] theorem Device.modWg_secBlocks (d : Device) (uid : Nat) (f : Workgroup → Workgroup) :
    (d.modWg uid f).secBlocks = d.secBlocks := rfl

@[simp] theorem Device.modWg_secRanges (d : Device) (uid : Nat) (f : Workgroup → Workgroup) :
    (d.modWg uid f).secRanges = d.secRanges := rfl

@[simp] theorem Device.modWg_firmware (d : Device) (uid : Nat) (f : Workgroup → Workgroup) :
    (d.modWg uid f).firmware = d.firmware := rfl

@[simp] theorem Device.modWg_policy (d : Device) (uid : Nat) (f : Workgroup → Workgroup) :
    (d.modWg uid f).policy = d.policy := rfl

@[simp] theorem Device.modWg_repairMap (d : Device) (uid : Nat) (f : Workgroup → Workgroup) :
    (d.modWg uid f).repairMap = d.repairMap := rfl

@[simp] theorem Device.modWg_hbm (d : Device) (uid : Nat) (f : Workgroup → Workgroup) :
    (d.modWg uid f).hbm = d.hbm := rfl

@[simp] theorem Device.modWg_host (d : Device) (uid : Nat) (f : Workgroup → Workgroup) :
    (d.modWg uid f).host = d.host := rfl

@[simp] theorem Device.modWg_peers (d : Device) (uid : Nat) (f : Workgroup → Workgroup) :
    (d.modWg uid f).peers = d.peers := rfl

@[simp] theorem Device.modWg_spad (d : Device) (uid : Nat) (f : Workgroup → Workgroup) :
    (d.modWg uid f).spad = d.spad := rfl

@[simp] theorem Device.modWg_pointers (d : Device) (uid : Nat) (f : Workgroup → Workgroup) :
    (d.modWg uid f).pointers = d.pointers := rfl

@[simp] theorem Device.modWg_gens (d : Device) (uid : Nat) (f : Workgroup → Workgroup) :
    (d.modWg uid f).gens = d.gens := rfl

@[simp] theorem Device.modWg_writes (d : Device) (uid : Nat) (f : Workgroup → Workgroup) :
    (d.modWg uid f).writes = d.writes := rfl

@[simp] theorem Device.modWg_tlb (d : Device) (uid : Nat) (f : Workgroup → Workgroup) :
    (d.modWg uid f).tlb = d.tlb := rfl

@[simp] theorem Device.modWg_packets (d : Device) (uid : Nat) (f : Workgroup → Workgroup) :
    (d.modWg uid f).packets = d.packets := rfl

@[simp] theorem Device.modWg_locks (d : Device) (uid : Nat) (f : Workgroup → Workgroup) :
    (d.modWg uid f).locks = d.locks := rfl

@[simp] theorem Device.modWg_requests (d : Device) (uid : Nat) (f : Workgroup → Workgroup) :
    (d.modWg uid f).requests = d.requests := rfl

@[simp] theorem Device.modWg_matrix (d : Device) (uid : Nat) (f : Workgroup → Workgroup) :
    (d.modWg uid f).matrix = d.matrix := rfl

@[simp] theorem Device.modWg_released (d : Device) (uid : Nat) (f : Workgroup → Workgroup) :
    (d.modWg uid f).released = d.released := rfl

@[simp] theorem Device.modWg_releasedOps (d : Device) (uid : Nat) (f : Workgroup → Workgroup) :
    (d.modWg uid f).releasedOps = d.releasedOps := rfl

@[simp] theorem Device.modWg_accs (d : Device) (uid : Nat) (f : Workgroup → Workgroup) :
    (d.modWg uid f).accs = d.accs := rfl

@[simp] theorem Device.modWg_ready (d : Device) (uid : Nat) (f : Workgroup → Workgroup) :
    (d.modWg uid f).ready = d.ready := rfl

@[simp] theorem Device.modWg_ring (d : Device) (uid : Nat) (f : Workgroup → Workgroup) :
    (d.modWg uid f).ring = d.ring := rfl

@[simp] theorem Device.modWg_msgHead (d : Device) (uid : Nat) (f : Workgroup → Workgroup) :
    (d.modWg uid f).msgHead = d.msgHead := rfl

@[simp] theorem Device.modWg_msgTail (d : Device) (uid : Nat) (f : Workgroup → Workgroup) :
    (d.modWg uid f).msgTail = d.msgTail := rfl

@[simp] theorem Device.modWg_held (d : Device) (uid : Nat) (f : Workgroup → Workgroup) :
    (d.modWg uid f).held = d.held := rfl

@[simp] theorem Device.modWg_outbox (d : Device) (uid : Nat) (f : Workgroup → Workgroup) :
    (d.modWg uid f).outbox = d.outbox := rfl

@[simp] theorem Device.modWg_irqs (d : Device) (uid : Nat) (f : Workgroup → Workgroup) :
    (d.modWg uid f).irqs = d.irqs := rfl

@[simp] theorem Device.modWg_posts (d : Device) (uid : Nat) (f : Workgroup → Workgroup) :
    (d.modWg uid f).posts = d.posts := rfl

@[simp] theorem Device.modWg_lost (d : Device) (uid : Nat) (f : Workgroup → Workgroup) :
    (d.modWg uid f).lost = d.lost := rfl

@[simp] theorem Device.modWg_aperture (d : Device) (uid : Nat) (f : Workgroup → Workgroup) :
    (d.modWg uid f).aperture = d.aperture := rfl

@[simp] theorem Device.modWg_apData (d : Device) (uid : Nat) (f : Workgroup → Workgroup) :
    (d.modWg uid f).apData = d.apData := rfl

@[simp] theorem Device.modWg_inbound (d : Device) (uid : Nat) (f : Workgroup → Workgroup) :
    (d.modWg uid f).inbound = d.inbound := rfl

@[simp] theorem Device.modWg_ports (d : Device) (uid : Nat) (f : Workgroup → Workgroup) :
    (d.modWg uid f).ports = d.ports := rfl

@[simp] theorem Device.modWg_windows (d : Device) (uid : Nat) (f : Workgroup → Workgroup) :
    (d.modWg uid f).windows = d.windows := rfl

@[simp] theorem Device.modWg_spdm (d : Device) (uid : Nat) (f : Workgroup → Workgroup) :
    (d.modWg uid f).spdm = d.spdm := rfl

@[simp] theorem Device.modWg_contexts (d : Device) (uid : Nat) (f : Workgroup → Workgroup) :
    (d.modWg uid f).contexts = d.contexts := rfl

@[simp] theorem Device.modWg_nextId (d : Device) (uid : Nat) (f : Workgroup → Workgroup) :
    (d.modWg uid f).nextId = d.nextId := rfl

@[simp] theorem Device.modGroup_tick (d : Device) (uid g : Nat) (f : Group → Group) :
    (d.modGroup uid g f).tick = d.tick := rfl

@[simp] theorem Device.modGroup_cyc (d : Device) (uid g : Nat) (f : Group → Group) :
    (d.modGroup uid g f).cyc = d.cyc := rfl

@[simp] theorem Device.modGroup_powered (d : Device) (uid g : Nat) (f : Group → Group) :
    (d.modGroup uid g f).powered = d.powered := rfl

@[simp] theorem Device.modGroup_boot (d : Device) (uid g : Nat) (f : Group → Group) :
    (d.modGroup uid g f).boot = d.boot := rfl

@[simp] theorem Device.modGroup_power (d : Device) (uid g : Nat) (f : Group → Group) :
    (d.modGroup uid g f).power = d.power := rfl

@[simp] theorem Device.modGroup_powers (d : Device) (uid g : Nat) (f : Group → Group) :
    (d.modGroup uid g f).powers = d.powers := rfl

@[simp] theorem Device.modGroup_temp (d : Device) (uid g : Nat) (f : Group → Group) :
    (d.modGroup uid g f).temp = d.temp := rfl

@[simp] theorem Device.modGroup_clk (d : Device) (uid g : Nat) (f : Group → Group) :
    (d.modGroup uid g f).clk = d.clk := rfl

@[simp] theorem Device.modGroup_throttled (d : Device) (uid g : Nat) (f : Group → Group) :
    (d.modGroup uid g f).throttled = d.throttled := rfl

@[simp] theorem Device.modGroup_enabled (d : Device) (uid g : Nat) (f : Group → Group) :
    (d.modGroup uid g f).enabled = d.enabled := rfl

@[simp] theorem Device.modGroup_fenced (d : Device) (uid g : Nat) (f : Group → Group) :
    (d.modGroup uid g f).fenced = d.fenced := rfl

@[simp] theorem Device.modGroup_arrays (d : Device) (uid g : Nat) (f : Group → Group) :
    (d.modGroup uid g f).arrays = d.arrays := rfl

@[simp] theorem Device.modGroup_counters (d : Device) (uid g : Nat) (f : Group → Group) :
    (d.modGroup uid g f).counters = d.counters := rfl

@[simp] theorem Device.modGroup_secBlocks (d : Device) (uid g : Nat) (f : Group → Group) :
    (d.modGroup uid g f).secBlocks = d.secBlocks := rfl

@[simp] theorem Device.modGroup_secRanges (d : Device) (uid g : Nat) (f : Group → Group) :
    (d.modGroup uid g f).secRanges = d.secRanges := rfl

@[simp] theorem Device.modGroup_firmware (d : Device) (uid g : Nat) (f : Group → Group) :
    (d.modGroup uid g f).firmware = d.firmware := rfl

@[simp] theorem Device.modGroup_policy (d : Device) (uid g : Nat) (f : Group → Group) :
    (d.modGroup uid g f).policy = d.policy := rfl

@[simp] theorem Device.modGroup_repairMap (d : Device) (uid g : Nat) (f : Group → Group) :
    (d.modGroup uid g f).repairMap = d.repairMap := rfl

@[simp] theorem Device.modGroup_hbm (d : Device) (uid g : Nat) (f : Group → Group) :
    (d.modGroup uid g f).hbm = d.hbm := rfl

@[simp] theorem Device.modGroup_host (d : Device) (uid g : Nat) (f : Group → Group) :
    (d.modGroup uid g f).host = d.host := rfl

@[simp] theorem Device.modGroup_peers (d : Device) (uid g : Nat) (f : Group → Group) :
    (d.modGroup uid g f).peers = d.peers := rfl

@[simp] theorem Device.modGroup_spad (d : Device) (uid g : Nat) (f : Group → Group) :
    (d.modGroup uid g f).spad = d.spad := rfl

@[simp] theorem Device.modGroup_pointers (d : Device) (uid g : Nat) (f : Group → Group) :
    (d.modGroup uid g f).pointers = d.pointers := rfl

@[simp] theorem Device.modGroup_gens (d : Device) (uid g : Nat) (f : Group → Group) :
    (d.modGroup uid g f).gens = d.gens := rfl

@[simp] theorem Device.modGroup_writes (d : Device) (uid g : Nat) (f : Group → Group) :
    (d.modGroup uid g f).writes = d.writes := rfl

@[simp] theorem Device.modGroup_tlb (d : Device) (uid g : Nat) (f : Group → Group) :
    (d.modGroup uid g f).tlb = d.tlb := rfl

@[simp] theorem Device.modGroup_packets (d : Device) (uid g : Nat) (f : Group → Group) :
    (d.modGroup uid g f).packets = d.packets := rfl

@[simp] theorem Device.modGroup_locks (d : Device) (uid g : Nat) (f : Group → Group) :
    (d.modGroup uid g f).locks = d.locks := rfl

@[simp] theorem Device.modGroup_requests (d : Device) (uid g : Nat) (f : Group → Group) :
    (d.modGroup uid g f).requests = d.requests := rfl

@[simp] theorem Device.modGroup_matrix (d : Device) (uid g : Nat) (f : Group → Group) :
    (d.modGroup uid g f).matrix = d.matrix := rfl

@[simp] theorem Device.modGroup_released (d : Device) (uid g : Nat) (f : Group → Group) :
    (d.modGroup uid g f).released = d.released := rfl

@[simp] theorem Device.modGroup_releasedOps (d : Device) (uid g : Nat) (f : Group → Group) :
    (d.modGroup uid g f).releasedOps = d.releasedOps := rfl

@[simp] theorem Device.modGroup_accs (d : Device) (uid g : Nat) (f : Group → Group) :
    (d.modGroup uid g f).accs = d.accs := rfl

@[simp] theorem Device.modGroup_ready (d : Device) (uid g : Nat) (f : Group → Group) :
    (d.modGroup uid g f).ready = d.ready := rfl

@[simp] theorem Device.modGroup_ring (d : Device) (uid g : Nat) (f : Group → Group) :
    (d.modGroup uid g f).ring = d.ring := rfl

@[simp] theorem Device.modGroup_msgHead (d : Device) (uid g : Nat) (f : Group → Group) :
    (d.modGroup uid g f).msgHead = d.msgHead := rfl

@[simp] theorem Device.modGroup_msgTail (d : Device) (uid g : Nat) (f : Group → Group) :
    (d.modGroup uid g f).msgTail = d.msgTail := rfl

@[simp] theorem Device.modGroup_held (d : Device) (uid g : Nat) (f : Group → Group) :
    (d.modGroup uid g f).held = d.held := rfl

@[simp] theorem Device.modGroup_outbox (d : Device) (uid g : Nat) (f : Group → Group) :
    (d.modGroup uid g f).outbox = d.outbox := rfl

@[simp] theorem Device.modGroup_irqs (d : Device) (uid g : Nat) (f : Group → Group) :
    (d.modGroup uid g f).irqs = d.irqs := rfl

@[simp] theorem Device.modGroup_posts (d : Device) (uid g : Nat) (f : Group → Group) :
    (d.modGroup uid g f).posts = d.posts := rfl

@[simp] theorem Device.modGroup_lost (d : Device) (uid g : Nat) (f : Group → Group) :
    (d.modGroup uid g f).lost = d.lost := rfl

@[simp] theorem Device.modGroup_aperture (d : Device) (uid g : Nat) (f : Group → Group) :
    (d.modGroup uid g f).aperture = d.aperture := rfl

@[simp] theorem Device.modGroup_apData (d : Device) (uid g : Nat) (f : Group → Group) :
    (d.modGroup uid g f).apData = d.apData := rfl

@[simp] theorem Device.modGroup_inbound (d : Device) (uid g : Nat) (f : Group → Group) :
    (d.modGroup uid g f).inbound = d.inbound := rfl

@[simp] theorem Device.modGroup_ports (d : Device) (uid g : Nat) (f : Group → Group) :
    (d.modGroup uid g f).ports = d.ports := rfl

@[simp] theorem Device.modGroup_windows (d : Device) (uid g : Nat) (f : Group → Group) :
    (d.modGroup uid g f).windows = d.windows := rfl

@[simp] theorem Device.modGroup_spdm (d : Device) (uid g : Nat) (f : Group → Group) :
    (d.modGroup uid g f).spdm = d.spdm := rfl

@[simp] theorem Device.modGroup_contexts (d : Device) (uid g : Nat) (f : Group → Group) :
    (d.modGroup uid g f).contexts = d.contexts := rfl

@[simp] theorem Device.modGroup_nextId (d : Device) (uid g : Nat) (f : Group → Group) :
    (d.modGroup uid g f).nextId = d.nextId := rfl

@[simp] theorem Device.modSlot_tick (d : Device) (uid g : Nat) (n : Bool) (f : Slot → Slot) :
    (d.modSlot uid g n f).tick = d.tick := rfl

@[simp] theorem Device.modSlot_cyc (d : Device) (uid g : Nat) (n : Bool) (f : Slot → Slot) :
    (d.modSlot uid g n f).cyc = d.cyc := rfl

@[simp] theorem Device.modSlot_powered (d : Device) (uid g : Nat) (n : Bool) (f : Slot → Slot) :
    (d.modSlot uid g n f).powered = d.powered := rfl

@[simp] theorem Device.modSlot_boot (d : Device) (uid g : Nat) (n : Bool) (f : Slot → Slot) :
    (d.modSlot uid g n f).boot = d.boot := rfl

@[simp] theorem Device.modSlot_power (d : Device) (uid g : Nat) (n : Bool) (f : Slot → Slot) :
    (d.modSlot uid g n f).power = d.power := rfl

@[simp] theorem Device.modSlot_powers (d : Device) (uid g : Nat) (n : Bool) (f : Slot → Slot) :
    (d.modSlot uid g n f).powers = d.powers := rfl

@[simp] theorem Device.modSlot_temp (d : Device) (uid g : Nat) (n : Bool) (f : Slot → Slot) :
    (d.modSlot uid g n f).temp = d.temp := rfl

@[simp] theorem Device.modSlot_clk (d : Device) (uid g : Nat) (n : Bool) (f : Slot → Slot) :
    (d.modSlot uid g n f).clk = d.clk := rfl

@[simp] theorem Device.modSlot_throttled (d : Device) (uid g : Nat) (n : Bool) (f : Slot → Slot) :
    (d.modSlot uid g n f).throttled = d.throttled := rfl

@[simp] theorem Device.modSlot_enabled (d : Device) (uid g : Nat) (n : Bool) (f : Slot → Slot) :
    (d.modSlot uid g n f).enabled = d.enabled := rfl

@[simp] theorem Device.modSlot_fenced (d : Device) (uid g : Nat) (n : Bool) (f : Slot → Slot) :
    (d.modSlot uid g n f).fenced = d.fenced := rfl

@[simp] theorem Device.modSlot_arrays (d : Device) (uid g : Nat) (n : Bool) (f : Slot → Slot) :
    (d.modSlot uid g n f).arrays = d.arrays := rfl

@[simp] theorem Device.modSlot_counters (d : Device) (uid g : Nat) (n : Bool) (f : Slot → Slot) :
    (d.modSlot uid g n f).counters = d.counters := rfl

@[simp] theorem Device.modSlot_secBlocks (d : Device) (uid g : Nat) (n : Bool) (f : Slot → Slot) :
    (d.modSlot uid g n f).secBlocks = d.secBlocks := rfl

@[simp] theorem Device.modSlot_secRanges (d : Device) (uid g : Nat) (n : Bool) (f : Slot → Slot) :
    (d.modSlot uid g n f).secRanges = d.secRanges := rfl

@[simp] theorem Device.modSlot_firmware (d : Device) (uid g : Nat) (n : Bool) (f : Slot → Slot) :
    (d.modSlot uid g n f).firmware = d.firmware := rfl

@[simp] theorem Device.modSlot_policy (d : Device) (uid g : Nat) (n : Bool) (f : Slot → Slot) :
    (d.modSlot uid g n f).policy = d.policy := rfl

@[simp] theorem Device.modSlot_repairMap (d : Device) (uid g : Nat) (n : Bool) (f : Slot → Slot) :
    (d.modSlot uid g n f).repairMap = d.repairMap := rfl

@[simp] theorem Device.modSlot_hbm (d : Device) (uid g : Nat) (n : Bool) (f : Slot → Slot) :
    (d.modSlot uid g n f).hbm = d.hbm := rfl

@[simp] theorem Device.modSlot_host (d : Device) (uid g : Nat) (n : Bool) (f : Slot → Slot) :
    (d.modSlot uid g n f).host = d.host := rfl

@[simp] theorem Device.modSlot_peers (d : Device) (uid g : Nat) (n : Bool) (f : Slot → Slot) :
    (d.modSlot uid g n f).peers = d.peers := rfl

@[simp] theorem Device.modSlot_spad (d : Device) (uid g : Nat) (n : Bool) (f : Slot → Slot) :
    (d.modSlot uid g n f).spad = d.spad := rfl

@[simp] theorem Device.modSlot_pointers (d : Device) (uid g : Nat) (n : Bool) (f : Slot → Slot) :
    (d.modSlot uid g n f).pointers = d.pointers := rfl

@[simp] theorem Device.modSlot_gens (d : Device) (uid g : Nat) (n : Bool) (f : Slot → Slot) :
    (d.modSlot uid g n f).gens = d.gens := rfl

@[simp] theorem Device.modSlot_writes (d : Device) (uid g : Nat) (n : Bool) (f : Slot → Slot) :
    (d.modSlot uid g n f).writes = d.writes := rfl

@[simp] theorem Device.modSlot_tlb (d : Device) (uid g : Nat) (n : Bool) (f : Slot → Slot) :
    (d.modSlot uid g n f).tlb = d.tlb := rfl

@[simp] theorem Device.modSlot_packets (d : Device) (uid g : Nat) (n : Bool) (f : Slot → Slot) :
    (d.modSlot uid g n f).packets = d.packets := rfl

@[simp] theorem Device.modSlot_locks (d : Device) (uid g : Nat) (n : Bool) (f : Slot → Slot) :
    (d.modSlot uid g n f).locks = d.locks := rfl

@[simp] theorem Device.modSlot_requests (d : Device) (uid g : Nat) (n : Bool) (f : Slot → Slot) :
    (d.modSlot uid g n f).requests = d.requests := rfl

@[simp] theorem Device.modSlot_matrix (d : Device) (uid g : Nat) (n : Bool) (f : Slot → Slot) :
    (d.modSlot uid g n f).matrix = d.matrix := rfl

@[simp] theorem Device.modSlot_released (d : Device) (uid g : Nat) (n : Bool) (f : Slot → Slot) :
    (d.modSlot uid g n f).released = d.released := rfl

@[simp] theorem Device.modSlot_releasedOps (d : Device) (uid g : Nat) (n : Bool) (f : Slot → Slot) :
    (d.modSlot uid g n f).releasedOps = d.releasedOps := rfl

@[simp] theorem Device.modSlot_accs (d : Device) (uid g : Nat) (n : Bool) (f : Slot → Slot) :
    (d.modSlot uid g n f).accs = d.accs := rfl

@[simp] theorem Device.modSlot_ready (d : Device) (uid g : Nat) (n : Bool) (f : Slot → Slot) :
    (d.modSlot uid g n f).ready = d.ready := rfl

@[simp] theorem Device.modSlot_ring (d : Device) (uid g : Nat) (n : Bool) (f : Slot → Slot) :
    (d.modSlot uid g n f).ring = d.ring := rfl

@[simp] theorem Device.modSlot_msgHead (d : Device) (uid g : Nat) (n : Bool) (f : Slot → Slot) :
    (d.modSlot uid g n f).msgHead = d.msgHead := rfl

@[simp] theorem Device.modSlot_msgTail (d : Device) (uid g : Nat) (n : Bool) (f : Slot → Slot) :
    (d.modSlot uid g n f).msgTail = d.msgTail := rfl

@[simp] theorem Device.modSlot_held (d : Device) (uid g : Nat) (n : Bool) (f : Slot → Slot) :
    (d.modSlot uid g n f).held = d.held := rfl

@[simp] theorem Device.modSlot_outbox (d : Device) (uid g : Nat) (n : Bool) (f : Slot → Slot) :
    (d.modSlot uid g n f).outbox = d.outbox := rfl

@[simp] theorem Device.modSlot_irqs (d : Device) (uid g : Nat) (n : Bool) (f : Slot → Slot) :
    (d.modSlot uid g n f).irqs = d.irqs := rfl

@[simp] theorem Device.modSlot_posts (d : Device) (uid g : Nat) (n : Bool) (f : Slot → Slot) :
    (d.modSlot uid g n f).posts = d.posts := rfl

@[simp] theorem Device.modSlot_lost (d : Device) (uid g : Nat) (n : Bool) (f : Slot → Slot) :
    (d.modSlot uid g n f).lost = d.lost := rfl

@[simp] theorem Device.modSlot_aperture (d : Device) (uid g : Nat) (n : Bool) (f : Slot → Slot) :
    (d.modSlot uid g n f).aperture = d.aperture := rfl

@[simp] theorem Device.modSlot_apData (d : Device) (uid g : Nat) (n : Bool) (f : Slot → Slot) :
    (d.modSlot uid g n f).apData = d.apData := rfl

@[simp] theorem Device.modSlot_inbound (d : Device) (uid g : Nat) (n : Bool) (f : Slot → Slot) :
    (d.modSlot uid g n f).inbound = d.inbound := rfl

@[simp] theorem Device.modSlot_ports (d : Device) (uid g : Nat) (n : Bool) (f : Slot → Slot) :
    (d.modSlot uid g n f).ports = d.ports := rfl

@[simp] theorem Device.modSlot_windows (d : Device) (uid g : Nat) (n : Bool) (f : Slot → Slot) :
    (d.modSlot uid g n f).windows = d.windows := rfl

@[simp] theorem Device.modSlot_spdm (d : Device) (uid g : Nat) (n : Bool) (f : Slot → Slot) :
    (d.modSlot uid g n f).spdm = d.spdm := rfl

@[simp] theorem Device.modSlot_contexts (d : Device) (uid g : Nat) (n : Bool) (f : Slot → Slot) :
    (d.modSlot uid g n f).contexts = d.contexts := rfl

@[simp] theorem Device.modSlot_nextId (d : Device) (uid g : Nat) (n : Bool) (f : Slot → Slot) :
    (d.modSlot uid g n f).nextId = d.nextId := rfl

@[simp] theorem Device.setTrap_tick (d : Device) (v : View) (r : TrapRec × Word) :
    (d.setTrap v r).tick = d.tick := rfl

@[simp] theorem Device.setTrap_cyc (d : Device) (v : View) (r : TrapRec × Word) :
    (d.setTrap v r).cyc = d.cyc := rfl

@[simp] theorem Device.setTrap_powered (d : Device) (v : View) (r : TrapRec × Word) :
    (d.setTrap v r).powered = d.powered := rfl

@[simp] theorem Device.setTrap_boot (d : Device) (v : View) (r : TrapRec × Word) :
    (d.setTrap v r).boot = d.boot := rfl

@[simp] theorem Device.setTrap_power (d : Device) (v : View) (r : TrapRec × Word) :
    (d.setTrap v r).power = d.power := rfl

@[simp] theorem Device.setTrap_powers (d : Device) (v : View) (r : TrapRec × Word) :
    (d.setTrap v r).powers = d.powers := rfl

@[simp] theorem Device.setTrap_temp (d : Device) (v : View) (r : TrapRec × Word) :
    (d.setTrap v r).temp = d.temp := rfl

@[simp] theorem Device.setTrap_clk (d : Device) (v : View) (r : TrapRec × Word) :
    (d.setTrap v r).clk = d.clk := rfl

@[simp] theorem Device.setTrap_throttled (d : Device) (v : View) (r : TrapRec × Word) :
    (d.setTrap v r).throttled = d.throttled := rfl

@[simp] theorem Device.setTrap_enabled (d : Device) (v : View) (r : TrapRec × Word) :
    (d.setTrap v r).enabled = d.enabled := rfl

@[simp] theorem Device.setTrap_fenced (d : Device) (v : View) (r : TrapRec × Word) :
    (d.setTrap v r).fenced = d.fenced := rfl

@[simp] theorem Device.setTrap_arrays (d : Device) (v : View) (r : TrapRec × Word) :
    (d.setTrap v r).arrays = d.arrays := rfl

@[simp] theorem Device.setTrap_counters (d : Device) (v : View) (r : TrapRec × Word) :
    (d.setTrap v r).counters = d.counters := rfl

@[simp] theorem Device.setTrap_secBlocks (d : Device) (v : View) (r : TrapRec × Word) :
    (d.setTrap v r).secBlocks = d.secBlocks := rfl

@[simp] theorem Device.setTrap_secRanges (d : Device) (v : View) (r : TrapRec × Word) :
    (d.setTrap v r).secRanges = d.secRanges := rfl

@[simp] theorem Device.setTrap_firmware (d : Device) (v : View) (r : TrapRec × Word) :
    (d.setTrap v r).firmware = d.firmware := rfl

@[simp] theorem Device.setTrap_policy (d : Device) (v : View) (r : TrapRec × Word) :
    (d.setTrap v r).policy = d.policy := rfl

@[simp] theorem Device.setTrap_repairMap (d : Device) (v : View) (r : TrapRec × Word) :
    (d.setTrap v r).repairMap = d.repairMap := rfl

@[simp] theorem Device.setTrap_hbm (d : Device) (v : View) (r : TrapRec × Word) :
    (d.setTrap v r).hbm = d.hbm := rfl

@[simp] theorem Device.setTrap_host (d : Device) (v : View) (r : TrapRec × Word) :
    (d.setTrap v r).host = d.host := rfl

@[simp] theorem Device.setTrap_peers (d : Device) (v : View) (r : TrapRec × Word) :
    (d.setTrap v r).peers = d.peers := rfl

@[simp] theorem Device.setTrap_spad (d : Device) (v : View) (r : TrapRec × Word) :
    (d.setTrap v r).spad = d.spad := rfl

@[simp] theorem Device.setTrap_pointers (d : Device) (v : View) (r : TrapRec × Word) :
    (d.setTrap v r).pointers = d.pointers := rfl

@[simp] theorem Device.setTrap_gens (d : Device) (v : View) (r : TrapRec × Word) :
    (d.setTrap v r).gens = d.gens := rfl

@[simp] theorem Device.setTrap_writes (d : Device) (v : View) (r : TrapRec × Word) :
    (d.setTrap v r).writes = d.writes := rfl

@[simp] theorem Device.setTrap_tlb (d : Device) (v : View) (r : TrapRec × Word) :
    (d.setTrap v r).tlb = d.tlb := rfl

@[simp] theorem Device.setTrap_packets (d : Device) (v : View) (r : TrapRec × Word) :
    (d.setTrap v r).packets = d.packets := rfl

@[simp] theorem Device.setTrap_locks (d : Device) (v : View) (r : TrapRec × Word) :
    (d.setTrap v r).locks = d.locks := rfl

@[simp] theorem Device.setTrap_requests (d : Device) (v : View) (r : TrapRec × Word) :
    (d.setTrap v r).requests = d.requests := rfl

@[simp] theorem Device.setTrap_matrix (d : Device) (v : View) (r : TrapRec × Word) :
    (d.setTrap v r).matrix = d.matrix := rfl

@[simp] theorem Device.setTrap_released (d : Device) (v : View) (r : TrapRec × Word) :
    (d.setTrap v r).released = d.released := rfl

@[simp] theorem Device.setTrap_releasedOps (d : Device) (v : View) (r : TrapRec × Word) :
    (d.setTrap v r).releasedOps = d.releasedOps := rfl

@[simp] theorem Device.setTrap_accs (d : Device) (v : View) (r : TrapRec × Word) :
    (d.setTrap v r).accs = d.accs := rfl

@[simp] theorem Device.setTrap_ready (d : Device) (v : View) (r : TrapRec × Word) :
    (d.setTrap v r).ready = d.ready := rfl

@[simp] theorem Device.setTrap_ring (d : Device) (v : View) (r : TrapRec × Word) :
    (d.setTrap v r).ring = d.ring := rfl

@[simp] theorem Device.setTrap_msgHead (d : Device) (v : View) (r : TrapRec × Word) :
    (d.setTrap v r).msgHead = d.msgHead := rfl

@[simp] theorem Device.setTrap_msgTail (d : Device) (v : View) (r : TrapRec × Word) :
    (d.setTrap v r).msgTail = d.msgTail := rfl

@[simp] theorem Device.setTrap_held (d : Device) (v : View) (r : TrapRec × Word) :
    (d.setTrap v r).held = d.held := rfl

@[simp] theorem Device.setTrap_outbox (d : Device) (v : View) (r : TrapRec × Word) :
    (d.setTrap v r).outbox = d.outbox := rfl

@[simp] theorem Device.setTrap_irqs (d : Device) (v : View) (r : TrapRec × Word) :
    (d.setTrap v r).irqs = d.irqs := rfl

@[simp] theorem Device.setTrap_posts (d : Device) (v : View) (r : TrapRec × Word) :
    (d.setTrap v r).posts = d.posts := rfl

@[simp] theorem Device.setTrap_lost (d : Device) (v : View) (r : TrapRec × Word) :
    (d.setTrap v r).lost = d.lost := rfl

@[simp] theorem Device.setTrap_aperture (d : Device) (v : View) (r : TrapRec × Word) :
    (d.setTrap v r).aperture = d.aperture := rfl

@[simp] theorem Device.setTrap_apData (d : Device) (v : View) (r : TrapRec × Word) :
    (d.setTrap v r).apData = d.apData := rfl

@[simp] theorem Device.setTrap_inbound (d : Device) (v : View) (r : TrapRec × Word) :
    (d.setTrap v r).inbound = d.inbound := rfl

@[simp] theorem Device.setTrap_ports (d : Device) (v : View) (r : TrapRec × Word) :
    (d.setTrap v r).ports = d.ports := rfl

@[simp] theorem Device.setTrap_windows (d : Device) (v : View) (r : TrapRec × Word) :
    (d.setTrap v r).windows = d.windows := rfl

@[simp] theorem Device.setTrap_spdm (d : Device) (v : View) (r : TrapRec × Word) :
    (d.setTrap v r).spdm = d.spdm := rfl

@[simp] theorem Device.setTrap_contexts (d : Device) (v : View) (r : TrapRec × Word) :
    (d.setTrap v r).contexts = d.contexts := rfl

@[simp] theorem Device.setTrap_nextId (d : Device) (v : View) (r : TrapRec × Word) :
    (d.setTrap v r).nextId = d.nextId := rfl

@[simp] theorem Device.unlock_tick (d : Device) (o : LockOwner) :
    (d.unlock o).tick = d.tick := rfl

@[simp] theorem Device.unlock_cyc (d : Device) (o : LockOwner) :
    (d.unlock o).cyc = d.cyc := rfl

@[simp] theorem Device.unlock_powered (d : Device) (o : LockOwner) :
    (d.unlock o).powered = d.powered := rfl

@[simp] theorem Device.unlock_boot (d : Device) (o : LockOwner) :
    (d.unlock o).boot = d.boot := rfl

@[simp] theorem Device.unlock_power (d : Device) (o : LockOwner) :
    (d.unlock o).power = d.power := rfl

@[simp] theorem Device.unlock_powers (d : Device) (o : LockOwner) :
    (d.unlock o).powers = d.powers := rfl

@[simp] theorem Device.unlock_temp (d : Device) (o : LockOwner) :
    (d.unlock o).temp = d.temp := rfl

@[simp] theorem Device.unlock_clk (d : Device) (o : LockOwner) :
    (d.unlock o).clk = d.clk := rfl

@[simp] theorem Device.unlock_throttled (d : Device) (o : LockOwner) :
    (d.unlock o).throttled = d.throttled := rfl

@[simp] theorem Device.unlock_enabled (d : Device) (o : LockOwner) :
    (d.unlock o).enabled = d.enabled := rfl

@[simp] theorem Device.unlock_fenced (d : Device) (o : LockOwner) :
    (d.unlock o).fenced = d.fenced := rfl

@[simp] theorem Device.unlock_arrays (d : Device) (o : LockOwner) :
    (d.unlock o).arrays = d.arrays := rfl

@[simp] theorem Device.unlock_counters (d : Device) (o : LockOwner) :
    (d.unlock o).counters = d.counters := rfl

@[simp] theorem Device.unlock_secBlocks (d : Device) (o : LockOwner) :
    (d.unlock o).secBlocks = d.secBlocks := rfl

@[simp] theorem Device.unlock_secRanges (d : Device) (o : LockOwner) :
    (d.unlock o).secRanges = d.secRanges := rfl

@[simp] theorem Device.unlock_firmware (d : Device) (o : LockOwner) :
    (d.unlock o).firmware = d.firmware := rfl

@[simp] theorem Device.unlock_policy (d : Device) (o : LockOwner) :
    (d.unlock o).policy = d.policy := rfl

@[simp] theorem Device.unlock_repairMap (d : Device) (o : LockOwner) :
    (d.unlock o).repairMap = d.repairMap := rfl

@[simp] theorem Device.unlock_hbm (d : Device) (o : LockOwner) :
    (d.unlock o).hbm = d.hbm := rfl

@[simp] theorem Device.unlock_host (d : Device) (o : LockOwner) :
    (d.unlock o).host = d.host := rfl

@[simp] theorem Device.unlock_peers (d : Device) (o : LockOwner) :
    (d.unlock o).peers = d.peers := rfl

@[simp] theorem Device.unlock_spad (d : Device) (o : LockOwner) :
    (d.unlock o).spad = d.spad := rfl

@[simp] theorem Device.unlock_pointers (d : Device) (o : LockOwner) :
    (d.unlock o).pointers = d.pointers := rfl

@[simp] theorem Device.unlock_gens (d : Device) (o : LockOwner) :
    (d.unlock o).gens = d.gens := rfl

@[simp] theorem Device.unlock_writes (d : Device) (o : LockOwner) :
    (d.unlock o).writes = d.writes := rfl

@[simp] theorem Device.unlock_tlb (d : Device) (o : LockOwner) :
    (d.unlock o).tlb = d.tlb := rfl

@[simp] theorem Device.unlock_packets (d : Device) (o : LockOwner) :
    (d.unlock o).packets = d.packets := rfl

@[simp] theorem Device.unlock_requests (d : Device) (o : LockOwner) :
    (d.unlock o).requests = d.requests := rfl

@[simp] theorem Device.unlock_matrix (d : Device) (o : LockOwner) :
    (d.unlock o).matrix = d.matrix := rfl

@[simp] theorem Device.unlock_released (d : Device) (o : LockOwner) :
    (d.unlock o).released = d.released := rfl

@[simp] theorem Device.unlock_releasedOps (d : Device) (o : LockOwner) :
    (d.unlock o).releasedOps = d.releasedOps := rfl

@[simp] theorem Device.unlock_accs (d : Device) (o : LockOwner) :
    (d.unlock o).accs = d.accs := rfl

@[simp] theorem Device.unlock_wgs (d : Device) (o : LockOwner) :
    (d.unlock o).wgs = d.wgs := rfl

@[simp] theorem Device.unlock_ready (d : Device) (o : LockOwner) :
    (d.unlock o).ready = d.ready := rfl

@[simp] theorem Device.unlock_ring (d : Device) (o : LockOwner) :
    (d.unlock o).ring = d.ring := rfl

@[simp] theorem Device.unlock_msgHead (d : Device) (o : LockOwner) :
    (d.unlock o).msgHead = d.msgHead := rfl

@[simp] theorem Device.unlock_msgTail (d : Device) (o : LockOwner) :
    (d.unlock o).msgTail = d.msgTail := rfl

@[simp] theorem Device.unlock_held (d : Device) (o : LockOwner) :
    (d.unlock o).held = d.held := rfl

@[simp] theorem Device.unlock_outbox (d : Device) (o : LockOwner) :
    (d.unlock o).outbox = d.outbox := rfl

@[simp] theorem Device.unlock_irqs (d : Device) (o : LockOwner) :
    (d.unlock o).irqs = d.irqs := rfl

@[simp] theorem Device.unlock_posts (d : Device) (o : LockOwner) :
    (d.unlock o).posts = d.posts := rfl

@[simp] theorem Device.unlock_lost (d : Device) (o : LockOwner) :
    (d.unlock o).lost = d.lost := rfl

@[simp] theorem Device.unlock_aperture (d : Device) (o : LockOwner) :
    (d.unlock o).aperture = d.aperture := rfl

@[simp] theorem Device.unlock_apData (d : Device) (o : LockOwner) :
    (d.unlock o).apData = d.apData := rfl

@[simp] theorem Device.unlock_inbound (d : Device) (o : LockOwner) :
    (d.unlock o).inbound = d.inbound := rfl

@[simp] theorem Device.unlock_ports (d : Device) (o : LockOwner) :
    (d.unlock o).ports = d.ports := rfl

@[simp] theorem Device.unlock_windows (d : Device) (o : LockOwner) :
    (d.unlock o).windows = d.windows := rfl

@[simp] theorem Device.unlock_spdm (d : Device) (o : LockOwner) :
    (d.unlock o).spdm = d.spdm := rfl

@[simp] theorem Device.unlock_contexts (d : Device) (o : LockOwner) :
    (d.unlock o).contexts = d.contexts := rfl

@[simp] theorem Device.unlock_nextId (d : Device) (o : LockOwner) :
    (d.unlock o).nextId = d.nextId := rfl

/-! ## Updates of the state -/

@[simp] theorem State.modGroup_issue (s : State) (v : View) (f : Group → Group) :
    (s.modGroup v f).issue = s.issue := rfl

@[simp] theorem State.modGroup_latch (s : State) (v : View) (f : Group → Group) :
    (s.modGroup v f).latch = s.latch := rfl

@[simp] theorem State.modGroup_turn (s : State) (v : View) (f : Group → Group) :
    (s.modGroup v f).turn = s.turn := rfl

@[simp] theorem State.modGroup_inputs (s : State) (v : View) (f : Group → Group) :
    (s.modGroup v f).inputs = s.inputs := rfl

@[simp] theorem State.modGroup_cyc (s : State) (v : View) (f : Group → Group) :
    (s.modGroup v f).dev.cyc = s.dev.cyc := rfl

@[simp] theorem State.modGroup_tick (s : State) (v : View) (f : Group → Group) :
    (s.modGroup v f).dev.tick = s.dev.tick := rfl

@[simp] theorem State.modGroup_contexts (s : State) (v : View) (f : Group → Group) :
    (s.modGroup v f).dev.contexts = s.dev.contexts := rfl

@[simp] theorem State.modGroup_hbm (s : State) (v : View) (f : Group → Group) :
    (s.modGroup v f).dev.hbm = s.dev.hbm := rfl

@[simp] theorem State.modGroup_host (s : State) (v : View) (f : Group → Group) :
    (s.modGroup v f).dev.host = s.dev.host := rfl

@[simp] theorem State.modGroup_writes (s : State) (v : View) (f : Group → Group) :
    (s.modGroup v f).dev.writes = s.dev.writes := rfl

@[simp] theorem State.modGroup_lost (s : State) (v : View) (f : Group → Group) :
    (s.modGroup v f).dev.lost = s.dev.lost := rfl

@[simp] theorem State.modAgent_issue (s : State) (v : View) (f : Agent → Agent) :
    (s.modAgent v f).issue = s.issue := rfl

@[simp] theorem State.modAgent_latch (s : State) (v : View) (f : Agent → Agent) :
    (s.modAgent v f).latch = s.latch := rfl

@[simp] theorem State.modAgent_turn (s : State) (v : View) (f : Agent → Agent) :
    (s.modAgent v f).turn = s.turn := rfl

@[simp] theorem State.modAgent_inputs (s : State) (v : View) (f : Agent → Agent) :
    (s.modAgent v f).inputs = s.inputs := rfl

@[simp] theorem State.modAgent_cyc (s : State) (v : View) (f : Agent → Agent) :
    (s.modAgent v f).dev.cyc = s.dev.cyc := rfl

@[simp] theorem State.modAgent_tick (s : State) (v : View) (f : Agent → Agent) :
    (s.modAgent v f).dev.tick = s.dev.tick := rfl

@[simp] theorem State.modAgent_contexts (s : State) (v : View) (f : Agent → Agent) :
    (s.modAgent v f).dev.contexts = s.dev.contexts := rfl

@[simp] theorem State.modAgent_hbm (s : State) (v : View) (f : Agent → Agent) :
    (s.modAgent v f).dev.hbm = s.dev.hbm := rfl

@[simp] theorem State.modAgent_host (s : State) (v : View) (f : Agent → Agent) :
    (s.modAgent v f).dev.host = s.dev.host := rfl

@[simp] theorem State.modAgent_writes (s : State) (v : View) (f : Agent → Agent) :
    (s.modAgent v f).dev.writes = s.dev.writes := rfl

@[simp] theorem State.modAgent_lost (s : State) (v : View) (f : Agent → Agent) :
    (s.modAgent v f).dev.lost = s.dev.lost := rfl

@[simp] theorem State.modSlot_issue (s : State) (v : View) (f : Slot → Slot) :
    (s.modSlot v f).issue = s.issue := rfl

@[simp] theorem State.modSlot_latch (s : State) (v : View) (f : Slot → Slot) :
    (s.modSlot v f).latch = s.latch := rfl

@[simp] theorem State.modSlot_turn (s : State) (v : View) (f : Slot → Slot) :
    (s.modSlot v f).turn = s.turn := rfl

@[simp] theorem State.modSlot_inputs (s : State) (v : View) (f : Slot → Slot) :
    (s.modSlot v f).inputs = s.inputs := rfl

@[simp] theorem State.modSlot_cyc (s : State) (v : View) (f : Slot → Slot) :
    (s.modSlot v f).dev.cyc = s.dev.cyc := rfl

@[simp] theorem State.modSlot_tick (s : State) (v : View) (f : Slot → Slot) :
    (s.modSlot v f).dev.tick = s.dev.tick := rfl

@[simp] theorem State.modSlot_contexts (s : State) (v : View) (f : Slot → Slot) :
    (s.modSlot v f).dev.contexts = s.dev.contexts := rfl

@[simp] theorem State.modSlot_hbm (s : State) (v : View) (f : Slot → Slot) :
    (s.modSlot v f).dev.hbm = s.dev.hbm := rfl

@[simp] theorem State.modSlot_host (s : State) (v : View) (f : Slot → Slot) :
    (s.modSlot v f).dev.host = s.dev.host := rfl

@[simp] theorem State.modSlot_writes (s : State) (v : View) (f : Slot → Slot) :
    (s.modSlot v f).dev.writes = s.dev.writes := rfl

@[simp] theorem State.modSlot_lost (s : State) (v : View) (f : Slot → Slot) :
    (s.modSlot v f).dev.lost = s.dev.lost := rfl

@[simp] theorem State.setMask_issue (s : State) (v : View) (k : BitVec 3) (m : Word) :
    (s.setMask v k m).issue = s.issue := rfl

@[simp] theorem State.setMask_latch (s : State) (v : View) (k : BitVec 3) (m : Word) :
    (s.setMask v k m).latch = s.latch := rfl

@[simp] theorem State.setMask_turn (s : State) (v : View) (k : BitVec 3) (m : Word) :
    (s.setMask v k m).turn = s.turn := rfl

@[simp] theorem State.setMask_inputs (s : State) (v : View) (k : BitVec 3) (m : Word) :
    (s.setMask v k m).inputs = s.inputs := rfl

@[simp] theorem State.setMask_cyc (s : State) (v : View) (k : BitVec 3) (m : Word) :
    (s.setMask v k m).dev.cyc = s.dev.cyc := rfl

@[simp] theorem State.setMask_tick (s : State) (v : View) (k : BitVec 3) (m : Word) :
    (s.setMask v k m).dev.tick = s.dev.tick := rfl

@[simp] theorem State.setMask_contexts (s : State) (v : View) (k : BitVec 3) (m : Word) :
    (s.setMask v k m).dev.contexts = s.dev.contexts := rfl

@[simp] theorem State.setMask_hbm (s : State) (v : View) (k : BitVec 3) (m : Word) :
    (s.setMask v k m).dev.hbm = s.dev.hbm := rfl

@[simp] theorem State.setMask_host (s : State) (v : View) (k : BitVec 3) (m : Word) :
    (s.setMask v k m).dev.host = s.dev.host := rfl

@[simp] theorem State.setMask_writes (s : State) (v : View) (k : BitVec 3) (m : Word) :
    (s.setMask v k m).dev.writes = s.dev.writes := rfl

@[simp] theorem State.setMask_lost (s : State) (v : View) (k : BitVec 3) (m : Word) :
    (s.setMask v k m).dev.lost = s.dev.lost := rfl

@[simp] theorem State.setMaskLanes_issue (s : State) (v : View) (k : BitVec 3) (lanes m : Word) :
    (s.setMaskLanes v k lanes m).issue = s.issue := rfl

@[simp] theorem State.setMaskLanes_latch (s : State) (v : View) (k : BitVec 3) (lanes m : Word) :
    (s.setMaskLanes v k lanes m).latch = s.latch := rfl

@[simp] theorem State.setMaskLanes_turn (s : State) (v : View) (k : BitVec 3) (lanes m : Word) :
    (s.setMaskLanes v k lanes m).turn = s.turn := rfl

@[simp] theorem State.setMaskLanes_inputs (s : State) (v : View) (k : BitVec 3) (lanes m : Word) :
    (s.setMaskLanes v k lanes m).inputs = s.inputs := rfl

@[simp] theorem State.setMaskLanes_cyc (s : State) (v : View) (k : BitVec 3) (lanes m : Word) :
    (s.setMaskLanes v k lanes m).dev.cyc = s.dev.cyc := rfl

@[simp] theorem State.setMaskLanes_tick (s : State) (v : View) (k : BitVec 3) (lanes m : Word) :
    (s.setMaskLanes v k lanes m).dev.tick = s.dev.tick := rfl

@[simp] theorem State.setMaskLanes_contexts (s : State) (v : View) (k : BitVec 3) (lanes m : Word) :
    (s.setMaskLanes v k lanes m).dev.contexts = s.dev.contexts := rfl

@[simp] theorem State.setMaskLanes_hbm (s : State) (v : View) (k : BitVec 3) (lanes m : Word) :
    (s.setMaskLanes v k lanes m).dev.hbm = s.dev.hbm := rfl

@[simp] theorem State.setMaskLanes_host (s : State) (v : View) (k : BitVec 3) (lanes m : Word) :
    (s.setMaskLanes v k lanes m).dev.host = s.dev.host := rfl

@[simp] theorem State.setMaskLanes_writes (s : State) (v : View) (k : BitVec 3) (lanes m : Word) :
    (s.setMaskLanes v k lanes m).dev.writes = s.dev.writes := rfl

@[simp] theorem State.setMaskLanes_lost (s : State) (v : View) (k : BitVec 3) (lanes m : Word) :
    (s.setMaskLanes v k lanes m).dev.lost = s.dev.lost := rfl

@[simp] theorem State.raise_issue (s : State) (v : View) (flags : Nat) :
    (s.raise v flags).issue = s.issue := rfl

@[simp] theorem State.raise_latch (s : State) (v : View) (flags : Nat) :
    (s.raise v flags).latch = s.latch := rfl

@[simp] theorem State.raise_turn (s : State) (v : View) (flags : Nat) :
    (s.raise v flags).turn = s.turn := rfl

@[simp] theorem State.raise_inputs (s : State) (v : View) (flags : Nat) :
    (s.raise v flags).inputs = s.inputs := rfl

@[simp] theorem State.raise_cyc (s : State) (v : View) (flags : Nat) :
    (s.raise v flags).dev.cyc = s.dev.cyc := rfl

@[simp] theorem State.raise_tick (s : State) (v : View) (flags : Nat) :
    (s.raise v flags).dev.tick = s.dev.tick := rfl

@[simp] theorem State.raise_wgs (s : State) (v : View) (flags : Nat) :
    (s.raise v flags).dev.wgs = s.dev.wgs := rfl

@[simp] theorem State.raise_hbm (s : State) (v : View) (flags : Nat) :
    (s.raise v flags).dev.hbm = s.dev.hbm := rfl

@[simp] theorem State.raise_host (s : State) (v : View) (flags : Nat) :
    (s.raise v flags).dev.host = s.dev.host := rfl

@[simp] theorem State.raise_writes (s : State) (v : View) (flags : Nat) :
    (s.raise v flags).dev.writes = s.dev.writes := rfl

@[simp] theorem State.raise_lost (s : State) (v : View) (flags : Nat) :
    (s.raise v flags).dev.lost = s.dev.lost := rfl

@[simp] theorem State.write_issue (s : State) (v : View) (slice w : Nat) (vals : List Nat) (lanes : Word) (tag : OpTag) :
    (s.write v slice w vals lanes tag).issue = s.issue := by
  unfold State.write; split <;> rfl

@[simp] theorem State.write_latch (s : State) (v : View) (slice w : Nat) (vals : List Nat) (lanes : Word) (tag : OpTag) :
    (s.write v slice w vals lanes tag).latch = s.latch := by
  unfold State.write; split <;> rfl

@[simp] theorem State.write_turn (s : State) (v : View) (slice w : Nat) (vals : List Nat) (lanes : Word) (tag : OpTag) :
    (s.write v slice w vals lanes tag).turn = s.turn := by
  unfold State.write; split <;> rfl

@[simp] theorem State.write_inputs (s : State) (v : View) (slice w : Nat) (vals : List Nat) (lanes : Word) (tag : OpTag) :
    (s.write v slice w vals lanes tag).inputs = s.inputs := by
  unfold State.write; split <;> rfl

end Sys2Proof.Machine
end

