-- ==== Sys2Proof/Laws/Run.lean ====
section
/-! SUPPORT. Running an instruction word: `exec` of a word is `runWord` of its meaning; when its checks pass and its effect
succeeds it answers that effect, when a check traps it answers the trap; and what the shapes of meanings do. -/

namespace Sys2Proof.Machine

open Sys2Proof

/-- An instruction word runs its meaning. -/
theorem exec_eq_runWord {i : Instr} {m : Meaning} (h : meaningOf i = some m) (s : State) : exec i s = runWord i m s := by
  cases i <;> simp only [meaningOf, Option.some.injEq, reduceCtorEq] at h <;> subst h <;> rfl

/-! ## Checks -/

theorem Check.seq_ok {l : List Check} (h : ∀ c ∈ l, c = .ok) : Check.seq l = .ok := by
  induction l with
  | nil => rfl
  | cons c t ih =>
    have hc := h c (by simp)
    subst hc
    exact ih (fun c hc => h c (by simp [hc]))

theorem Check.seq_append (l₁ l₂ : List Check) (h : Check.seq l₁ = .ok) : Check.seq (l₁ ++ l₂) = Check.seq l₂ := by
  induction l₁ with
  | nil => rfl
  | cons c t ih =>
    cases c with
    | ok => exact ih h
    | trap t => simp [Check.seq] at h
    | wait => simp [Check.seq] at h

/-- The first check of a list that does not pass decides. -/
theorem Check.seq_first {l : List Check} {c : Check} (h : Check.seq l = c) (hc : c ≠ .ok) (r : List Check) :
    Check.seq (l ++ r) = c := by
  induction l with
  | nil => exact absurd h.symm hc
  | cons a t ih =>
    cases a with
    | ok => exact ih h
    | trap t => exact h
    | wait => exact h

theorem Meaning.checkIllegal_ok {m : Meaning} {i : Instr} {v : View} (hwf : i.wf = true) (hm : m.illegal v = false) :
    m.checkIllegal i v = .ok := by
  simp [Meaning.checkIllegal, hwf, hm]

theorem Meaning.checkSrange_ok {m : Meaning} {v : View} (h : ∀ p ∈ m.spans ++ m.cellSpans v, p.1 + p.2 ≤ v.grp.budget) :
    m.checkSrange v = .ok := by
  have : (m.spans ++ m.cellSpans v).find? (fun p => decide (v.grp.budget < p.1 + p.2)) = none := by
    rw [List.find?_eq_none]
    intro p hp
    have := h p hp
    simp; omega
  simp [Meaning.checkSrange, this]

/-- An instruction that reaches no unit has no arrival to wait for. -/
theorem View.arrivalCheck_nil (v : View) (d : Device) (earlier : List Arrival) : v.arrivalCheck d earlier [] = .ok := rfl

/-- The checks of an instruction pass when its words are well formed, its operands lie in the budget, its own checks pass in
every group in which it acts, and its arrivals need not wait (04 R84, R371). -/
theorem Meaning.check_ok {m : Meaning} {i : Instr} {vs : List View} {d : Device} (hwf : i.wf = true)
    (hill : ∀ v ∈ vs, m.illegal v = false) (hb : ∀ v ∈ vs, ∀ p ∈ m.spans ++ m.cellSpans v, p.1 + p.2 ≤ v.grp.budget)
    (hrest : ∀ v ∈ m.acts i vs, m.checkRest i v (Instr.lanes i v) = .ok)
    (harr : ∀ v, vs.head? = some v → v.arrivalCheck d [] (m.arrives vs) = .ok) : m.check i vs d = .ok := by
  apply Check.seq_ok
  intro c hc
  simp only [List.mem_append, List.mem_map, List.mem_singleton] at hc
  rcases hc with (⟨v, hv, rfl⟩ | ⟨v, hv, rfl⟩) | rfl
  · exact checkIllegal_ok hwf (hill v hv)
  · exact checkSrange_ok (hb v hv)
  · apply Check.seq_ok
    intro c hc
    simp only [List.mem_append, List.mem_map, Option.mem_toList] at hc
    rcases hc with ⟨v, hv, rfl⟩ | ⟨v, hv, rfl⟩
    · exact hrest v hv
    · exact harr v hv

/-- The remaining checks pass when the words' own pass and, where the instruction acts, those of the operands. -/
theorem Meaning.checkRest_ok {m : Meaning} {i : Instr} {v : View} {act : Word} (hw : m.words v = .ok)
    (ho : (m.always = true ∨ act ≠ 0) → m.operands v act = .ok) : m.checkRest i v act = .ok := by
  unfold Meaning.checkRest
  rw [hw]
  by_cases h : (m.always || decide (act ≠ 0)) = true
  · have h2 : m.always = true ∨ act ≠ 0 := by simpa using h
    simp only [h, if_true, ho h2]
  · simp only [h]; rfl

/-! ## Running -/

theorem actingView_mem {i : Instr} {vs : List View} {v : View} (h : actingView i vs = some v) : v ∈ vs := by
  unfold actingView at h
  split at h
  · rename_i hf; injection h with h; subst h; exact List.mem_of_find?_eq_some hf
  · exact List.mem_of_mem_head? h

theorem Meaning.acts_mem {m : Meaning} {i : Instr} {vs : List View} {v : View} (h : v ∈ m.acts i vs) : v ∈ vs := by
  unfold Meaning.acts at h
  split at h
  · exact actingView_mem (by simpa using h)
  · exact h

/-- No cell that an instruction reads is lost where none of its groups' cells is (21 R333). -/
theorem Meaning.lostCell_none {m : Meaning} {i : Instr} {vs : List View} {d : Device}
    (h : ∀ v ∈ vs, ∀ k, StoredPlace.cell v.wg.uid v.g k ∉ d.lost) : m.lostCell i vs d = none := by
  unfold Meaning.lostCell
  split
  · rfl
  · have one : (m.acts i vs).findSome? (fun v =>
        if m.always || decide (Instr.lanes i v ≠ 0) then
          ((m.cellsRead v (Instr.lanes i v)).find? (fun k => d.lost.contains (StoredPlace.cell v.wg.uid v.g k))).map
            (fun k => d.lostFault (StoredPlace.cell v.wg.uid v.g k) (spillSlot v.ctx v.grp k))
        else none) = none := by
      rw [List.findSome?_eq_none_iff]
      intro v hv
      simpa using fun _ k _ => h v (acts_mem hv) k
    simp only [one]
    split
    · rw [List.findSome?_eq_none_iff]
      intro v hv
      simpa using fun _ _ _ k _ => h v hv k
    · rfl

/-- So nothing that an instruction is about to read is lost. -/
theorem Meaning.readsLost_none {m : Meaning} {i : Instr} {vs : List View} {d : Device}
    (h : ∀ v ∈ vs, ∀ k, StoredPlace.cell v.wg.uid v.g k ∉ d.lost) : m.readsLost i vs d = none := by
  unfold Meaning.readsLost
  rw [lostCell_none h, lostCell_none h]
  split <;> simp

/-- The group in which an instruction acts that acts once is the active one of `activeOnce`. -/
theorem actives_acting (i : Instr) (vs : List View) : actives i (actingView i vs).toList = activeOnce i vs := by
  unfold activeOnce actives actingView
  rw [← List.head?_filter]
  cases h : vs.filter (fun v => decide (Instr.lanes i v ≠ 0)) with
  | cons v l =>
    have hv : v ∈ vs.filter (fun v => decide (Instr.lanes i v ≠ 0)) := by rw [h]; exact List.mem_cons_self
    have := (List.mem_filter.mp hv).2
    simp_all
  | nil =>
    simp only [List.head?_nil, List.take_nil]
    cases vs with
    | nil => rfl
    | cons v l =>
      have := (List.filter_eq_nil_iff.mp h) v (by simp)
      simp_all

/-- An instruction that records no arrivals has its effect alone. -/
theorem Meaning.run_eq {m : Meaning} {i : Instr} {vs : List View} {s : State} (hr : m.records = false) :
    m.run i vs s = runEffects m.effect i m.always (m.acts i vs) s := by
  unfold Meaning.run Meaning.recordArrivals
  rw [hr]

/-- With every check passed, a word answers its effect. -/
theorem runWord_next {s : State} {iss : Issue} {vs : List View} {i : Instr} {m : Meaning} (hI : Issuing s iss vs)
    (hc : m.check i vs s.dev = .ok) {t : State} (hr : m.run i vs s = .ok t) : runWord i m s = .next t := by
  obtain ⟨h1, h2, h3, h4⟩ := hI
  cases vs with
  | nil => exact absurd rfl h3
  | cons v rest => simp [runWord, h1, h2, Meaning.readsLost_none h4, hc, hr]

/-- An effect that ends in a context fault undoes the chain and takes the fault (17 R300). -/
theorem runWord_fault {s : State} {iss : Issue} {v : View} {rest : List View} {i : Instr} {m : Meaning}
    (hI : Issuing s iss (v :: rest)) (hc : m.check i (v :: rest) s.dev = .ok) {f : CtxFault}
    (hr : m.run i (v :: rest) s = .error f) :
    runWord i m s = .next { s.back iss with dev := (s.back iss).dev.contextFault v.c f } := by
  obtain ⟨h1, h2, h3, h4⟩ := hI
  simp [runWord, h1, h2, Meaning.readsLost_none h4, hc, hr]

/-- A check that traps takes the trap (04 R84; 17 R298). -/
theorem runWord_trap {s : State} {iss : Issue} {vs : List View} {i : Instr} {m : Meaning} (hI : Issuing s iss vs)
    {t : Trap} (hc : m.check i vs s.dev = .trap t) : runWord i m s = .next (s.trap iss i t) := by
  obtain ⟨h1, h2, h3, h4⟩ := hI
  cases vs with
  | nil => exact absurd rfl h3
  | cons v rest => simp [runWord, h1, h2, Meaning.readsLost_none h4, hc]

/-- A check that is not ready leaves the chain unissued (06 R148). -/
theorem runWord_wait {s : State} {iss : Issue} {vs : List View} {i : Instr} {m : Meaning} (hI : Issuing s iss vs)
    (hc : m.check i vs s.dev = .wait) : runWord i m s = .next (s.back iss) := by
  obtain ⟨h1, h2, h3, h4⟩ := hI
  cases vs with
  | nil => exact absurd rfl h3
  | cons v rest => simp [runWord, h1, h2, Meaning.readsLost_none h4, hc]

/-- Effects one after another on the groups with an active lane, none of which fails while `K` holds. -/
theorem runEffects_each {i : Instr} {f : View → Word → State → Except CtxFault State} {P : View → State → State → Prop}
    (K : State → Prop) (vs : List View)
    (hf : ∀ v ∈ vs, Instr.lanes i v ≠ 0 → ∀ s, K s → ∃ r, f v (Instr.lanes i v) s = .ok r ∧ P v s r ∧ K r)
    (s : State) (hK : K s) : ∃ t, runEffects f i false vs s = .ok t ∧ Each P (actives i vs) s t ∧ K t := by
  induction vs generalizing s with
  | nil => exact ⟨s, rfl, rfl, hK⟩
  | cons v l ih =>
    have hl := ih (fun u hu => hf u (List.mem_cons_of_mem _ hu))
    rw [runEffects, actives, List.filter_cons]
    by_cases h : Instr.lanes i v ≠ 0
    · obtain ⟨r, h1, h2, h3⟩ := hf v (by simp) h s hK
      obtain ⟨t, h4, h5, h6⟩ := hl r h3
      refine ⟨t, ?_, ?_, h6⟩
      · rw [if_pos (by simpa using h), h1]; exact h4
      · rw [if_pos (by simpa using h)]; exact ⟨r, h2, h5⟩
    · obtain ⟨t, h4, h5, h6⟩ := hl s hK
      refine ⟨t, ?_, ?_, h6⟩
      · rw [if_neg (by simpa using h)]; exact h4
      · rw [if_neg (by simpa using h)]; exact h5

/-- A word whose checks pass and whose effect on each group never fails completes, one effect after another. -/
theorem runWord_each {s : State} {iss : Issue} {vs : List View} {i : Instr} {m : Meaning} {P : View → State → State → Prop}
    (K : State → Prop) (hI : Issuing s iss vs) (hc : m.check i vs s.dev = .ok) (hr : m.records = false) (ho : m.once = false)
    (ha : m.always = false)
    (hf : ∀ v ∈ vs, Instr.lanes i v ≠ 0 → ∀ s, K s → ∃ r, m.effect v (Instr.lanes i v) s = .ok r ∧ P v s r ∧ K r)
    (hK : K s) : ∃ t, runWord i m s = .next t ∧ Each P (actives i vs) s t := by
  obtain ⟨t, h1, h2, _⟩ := runEffects_each K vs hf s hK
  refine ⟨t, runWord_next hI hc ?_, h2⟩
  rw [Meaning.run_eq hr, ha, show m.acts i vs = vs by simp [Meaning.acts, ho]]
  exact h1

/-- The same for an instruction that acts once for both hardware groups of a pair. -/
theorem runWord_once {s : State} {iss : Issue} {vs : List View} {i : Instr} {m : Meaning} {P : View → State → State → Prop}
    (K : State → Prop) (hI : Issuing s iss vs) (hc : m.check i vs s.dev = .ok) (hr : m.records = false) (ho : m.once = true)
    (ha : m.always = false)
    (hf : ∀ v ∈ vs, Instr.lanes i v ≠ 0 → ∀ s, K s → ∃ r, m.effect v (Instr.lanes i v) s = .ok r ∧ P v s r ∧ K r)
    (hK : K s) : ∃ t, runWord i m s = .next t ∧ Each P (activeOnce i vs) s t := by
  obtain ⟨t, h1, h2, _⟩ := runEffects_each (i := i) (f := m.effect) (P := P) K (actingView i vs).toList
    (fun v hv => hf v (actingView_mem (by simpa using hv))) s hK
  refine ⟨t, runWord_next hI hc ?_, actives_acting i vs ▸ h2⟩
  rw [Meaning.run_eq hr, ha, show m.acts i vs = (actingView i vs).toList by simp [Meaning.acts, ho]]
  exact h1

/-! ## Register results -/

theorem State.write_of_latch {s : State} (h : s.latch.isSome = true) (v : View) (d w : Nat) (val : Nat → Nat) (lanes : Word)
    (tag : OpTag) : s.write v d w (valuesOf lanes val) lanes tag = s.queue (v.pendingWrite d w val lanes tag) := by
  simp only [State.write, h, if_true]; rfl

/-- A write of an instruction that issues alone changes the cells of its group, and makes good those it writes whole. -/
theorem State.write_of_alone {s : State} (h : s.latch = none) (v : View) (d w : Nat) (vals : List Nat) (lanes : Word)
    (tag : OpTag) : ∃ good : Nat → Bool, s.write v d w vals lanes tag =
      (s.modGroup v (fun g => { g with cells := (g.write s.dev.tick d w vals lanes tag).cells })).mend v good ∧
      ∀ k, good k = true → 4 * d ≤ 32 * k ∧ 32 * k + 32 ≤ 4 * d + w := by
  unfold State.write Device.writeGroup
  rw [if_neg (by simp [h])]
  by_cases he : s.dev.lost.isEmpty = true
  · refine ⟨fun _ => false, ?_, fun _ hk => absurd hk (by simp)⟩
    have hn : s.dev.lost = [] := by simpa using he
    have hm : ∀ (r : State), r.dev.lost = [] → r.mend v (fun _ => false) = r := by
      intro r hr
      simp only [State.mend, hr, List.filter_nil]
      rw [← hr]
    rw [if_pos he, hm _ (by simpa [State.modGroup] using hn)]
    rfl
  · rw [if_neg he]
    exact ⟨_, rfl, fun k hk => cellPart_whole.mp (by simpa using (Bool.and_eq_true_iff.mp hk).2)⟩

/-- A register write with a tag that fits has the effect `WroteOne` (01 R21, R22, R26). -/
theorem write_wroteOne (s : State) (v : View) (lanes : View → Word) (d w : Nat) (val : View → Nat → Nat) (tag : View → OpTag)
    (hw : 0 < w) (h4 : w % 4 = 0) (ht : (tag v).Fits (lanes v) w (val v)) :
    WroteOne lanes d w val tag v s (s.write v d w (valuesOf (lanes v) (val v)) (lanes v) (tag v)) := by
  refine ⟨ht, fun hl => ?_, fun hl => State.write_of_latch hl v d w (val v) (lanes v) (tag v)⟩
  obtain ⟨good, h1, h2⟩ := State.write_of_alone hl v d w (valuesOf (lanes v) (val v)) (lanes v) (tag v)
  exact ⟨_, good, h1, h2, fun g hg => write_readsBack g _ _ _ _ _ _ hw h4 ht hg⟩

/-- An instruction that writes one value per active lane and does nothing else completes, with that effect (01 R21). -/
theorem lanewise_next {s : State} {iss : Issue} {vs : List View} {i : Instr} (srcs : List (Nat × Nat)) (d w : Nat)
    (f : View → Nat → Nat) (tag : View → OpTag) (hI : Issuing s iss vs) (hwf : i.wf = true)
    (hb : InBudget vs (srcs ++ [(d, w / 4)])) (hw : 0 < w) (h4 : w % 4 = 0)
    (ht : ∀ v ∈ vs, (tag v).Fits (Instr.lanes i v) w (f v)) :
    ∃ t, runWord i (Meaning.lanewise srcs d w f tag) s = .next t ∧
      Each (WroteOne (Instr.lanes i) d w f tag) (actives i vs) s t := by
  refine runWord_each (fun _ => True) hI
    (Meaning.check_ok hwf (fun _ _ => rfl) (fun v hv p hp => hb v hv p (by simpa [Meaning.lanewise, span] using hp))
      (fun v _ => Meaning.checkRest_ok rfl (fun _ => rfl)) (fun _ _ => rfl)) rfl rfl rfl ?_ trivial
  intro v hv _ s _
  exact ⟨_, rfl, write_wroteOne s v _ d w f tag hw h4 (ht v hv), trivial⟩

end Sys2Proof.Machine
end

