-- ==== Sys2Proof/Laws/Seq.lean ====
section
/-! SUPPORT. The lane masks of the sequencer (06 R136 to R138): which lanes of a mask stand at some blocks, what is left of a mask,
and that lanes which have parked at a join are not there to park at it again. -/

namespace Sys2Proof.Machine

open Sys2Proof Sys2Proof.Claims

/-- A mask without some lanes holds the lanes of the mask that are not among them. -/
@[simp] theorem testBit_without (m x i : Nat) : (without m x).testBit i = (m.testBit i && !x.testBit i) := by
  show (m - (m &&& x)).testBit i = _
  induction i generalizing m x with
  | zero =>
    have h : (m &&& x) % 2 = m % 2 * (x % 2) := by
      have := Nat.and_mod_two_pow (a := m) (b := x) (n := 1)
      rcases Nat.mod_two_eq_zero_or_one m with h | h <;> rcases Nat.mod_two_eq_zero_or_one x with g | g <;>
        simp_all
    have hle : m &&& x ≤ m := Nat.and_le_left
    simp only [Nat.testBit_zero]
    rcases Nat.mod_two_eq_zero_or_one m with h1 | h1 <;> rcases Nat.mod_two_eq_zero_or_one x with g | g <;>
      simp only [h1, g, Nat.zero_mul, Nat.mul_zero, Nat.one_mul] at h ⊢ <;>
      (have : (m - (m &&& x)) % 2 = (m % 2 + 2 - (m &&& x) % 2) % 2 := by omega) <;> simp [this, h, h1]
  | succ i ih =>
    have hle : m &&& x ≤ m := Nat.and_le_left
    have hd : (m &&& x) / 2 = (m / 2) &&& (x / 2) := Nat.and_div_two
    have h : (m &&& x) % 2 ≤ m % 2 := by
      have := Nat.and_mod_two_pow (a := m) (b := x) (n := 1)
      simp only [Nat.pow_one] at this
      rw [this]
      exact Nat.and_le_left
    have e : (m - (m &&& x)) / 2 = m / 2 - (m / 2 &&& x / 2) := by omega
    rw [Nat.testBit_succ, Nat.testBit_succ, Nat.testBit_succ, e]
    exact ih (m / 2) (x / 2)

/-- A sum of powers of two at distinct places has the bits at those places. -/
theorem testBit_sumBits (p : Nat → Bool) (n i : Nat) (m : Nat) :
    (((List.range n).filter (bitN m)).foldl (fun acc j => if p j then acc + 2 ^ j else acc) 0).testBit i =
      (decide (i < n) && m.testBit i && p i) := by
  have key : ∀ n, ((List.range n).filter (bitN m)).foldl (fun acc j => if p j then acc + 2 ^ j else acc) 0 < 2 ^ n ∧
      ∀ i, (((List.range n).filter (bitN m)).foldl (fun acc j => if p j then acc + 2 ^ j else acc) 0).testBit i =
        (decide (i < n) && m.testBit i && p i) := by
    intro n
    induction n with
    | zero => simp
    | succ n ih =>
      obtain ⟨hlt, ih⟩ := ih
      rw [List.range_succ, List.filter_append, List.foldl_append]
      set a := ((List.range n).filter (bitN m)).foldl (fun acc j => if p j then acc + 2 ^ j else acc) 0 with ha
      by_cases hm : m.testBit n = true
      · by_cases hp : p n = true
        · have e : List.foldl (fun acc j => if p j = true then acc + 2 ^ j else acc) a (List.filter (bitN m) [n]) = 2 ^ n + a := by
            simp [List.filter, bitN_eq, hm, hp, Nat.add_comm]
          rw [e]
          refine ⟨by rw [Nat.pow_succ]; omega, fun i => ?_⟩
          by_cases hi : i = n
          · subst hi
            rw [Nat.testBit_two_pow_add_eq, ih]
            simp [hm, hp]
          · by_cases hlt' : i < n
            · rw [Nat.testBit_two_pow_add_gt hlt', ih]
              simp [hlt', Nat.lt_succ_of_lt hlt']
            · have : (2 ^ n + a).testBit i = false := by
                apply Nat.testBit_eq_false_of_lt
                calc 2 ^ n + a < 2 ^ (n + 1) := by rw [Nat.pow_succ]; omega
                  _ ≤ 2 ^ i := Nat.pow_le_pow_right (by decide) (by omega)
              rw [this]
              have : ¬ i < n + 1 := by omega
              simp [this]
        · have e : List.foldl (fun acc j => if p j = true then acc + 2 ^ j else acc) a (List.filter (bitN m) [n]) = a := by
            simp [List.filter, bitN_eq, hm, hp]
          rw [e]
          refine ⟨by rw [Nat.pow_succ]; omega, fun i => ?_⟩
          rw [ih]
          by_cases hi : i = n
          · subst hi; simp [hp]
          · have : (i < n + 1) = (i < n) := by simp; omega
            simp [this]
      · have e : List.foldl (fun acc j => if p j = true then acc + 2 ^ j else acc) a (List.filter (bitN m) [n]) = a := by
          simp [List.filter, bitN_eq, hm]
        rw [e]
        refine ⟨by rw [Nat.pow_succ]; omega, fun i => ?_⟩
        rw [ih]
        by_cases hi : i = n
        · subst hi; simp [hm]
        · have : (i < n + 1) = (i < n) := by simp; omega
          simp [this]
  exact (key n).2 i

/-- The lanes of a mask whose block is in a list. -/
@[simp] theorem testBit_inBlocks (q : Seq) (m : Nat) (bs : List (BitVec 12)) (i : Nat) :
    (q.inBlocks m bs).testBit i = (decide (i < q.lanes) && m.testBit i && bs.contains (q.lbr.getD i 0)) :=
  testBit_sumBits (fun i => bs.contains (q.lbr.getD i 0)) q.lanes i m

/-- Lanes that have left a mask for their block are not in it any more. -/
theorem inBlocks_without (q : Seq) (m : Nat) (bs : List (BitVec 12)) : q.inBlocks (without m (q.inBlocks m bs)) bs = 0 := by
  apply Nat.eq_of_testBit_eq
  intro i
  simp only [testBit_inBlocks, testBit_without, Nat.zero_testBit]
  cases decide (i < q.lanes) <;> cases m.testBit i <;> cases bs.contains (q.lbr.getD i 0) <;> rfl

/-- Parking twice at one join parks nothing the second time. -/
theorem atJoin_without (q : Seq) (m : Nat) (j : Option (BitVec 12)) : atJoin q (without m (atJoin q m j)) j = 0 := by
  cases j with
  | none => rfl
  | some j => exact inBlocks_without q m [j]

end Sys2Proof.Machine
end

