-- ==== Sys2Proof/Laws/Tags.lean ====
section
/-! SUPPORT. The tags of operands and results (01 R25 to R27): what a U or an A tag says of the lanes, and that the tags which the
rules give the results of the lane-wise operations fit the values written. -/

namespace Sys2Proof.Machine

open Sys2Proof

/-! ## What a tag says of the lanes -/

theorem Cell.lane_of_tag_u {c : Cell} (h : c.tag = .u) (i j : Nat) : c.lane i = c.lane j := by
  cases c <;> simp_all [Cell.tag, Cell.lane]

theorem Cell.lane_of_code_zero {c : Cell} (h : c.code = 0) (i j : Nat) : c.lane i = c.lane j := by
  cases c <;> simp_all [Cell.code, Cell.lane]

theorem Cell.lane_of_tag_a {c : Cell} {b st : Word} (h : c.tag = .a b st) (i : Nat) :
    c.lane i = b + BitVec.ofNat 32 (i * st.toNat) := by
  cases c <;> simp_all [Cell.tag, Cell.lane]

/-- An operand marked U reads the same in every lane (01 R25; 04 R95). -/
theorem sliceRead_of_isU {cells : List StoredCell} {s w : Nat} (h : isU cells s w = true) (i j : Nat) :
    sliceRead cells i s w = sliceRead cells j s w := by
  apply Nat.eq_of_testBit_eq
  intro q
  rw [testBit_sliceRead, testBit_sliceRead]
  by_cases hq : q < w
  · have hcell : (cellAt cells ((4 * s + q) / 32)).lane i = (cellAt cells ((4 * s + q) / 32)).lane j := by
      have h' : operandTag cells s w = .u := by simpa [isU] using h
      unfold operandTag at h'
      split at h'
      · rename_i ha
        have ha' : s % 8 = 0 ∧ w = 32 := by simpa using ha
        have hk : (4 * s + q) / 32 = s / 8 := by omega
        rw [hk]; exact Cell.lane_of_tag_u h' i j
      · split at h'
        · rename_i hall
          have hmem : (4 * s + q) / 32 ∈ touched s w := by
            rw [mem_touched _ _ _ (by omega)]; omega
          have := (List.all_eq_true.mp hall) _ hmem
          exact Cell.lane_of_code_zero (by simpa using this) i j
        · exact absurd h' (by simp)
    simp [regBit, hcell]
  · simp [hq]

/-- A whole cell reads the word of its lane. -/
theorem sliceRead_cell (cells : List StoredCell) (s : Nat) (h : s % 8 = 0) (i : Nat) :
    sliceRead cells i s 32 = ((cellAt cells (s / 8)).lane i).toNat := by
  apply Nat.eq_of_testBit_eq
  intro q
  rw [testBit_sliceRead, regBit]
  by_cases hq : q < 32
  · have h1 : (4 * s + q) / 32 = s / 8 := by omega
    have h2 : (4 * s + q) % 32 = q := by omega
    simp [hq, h1, h2]
  · have : ((cellAt cells (s / 8)).lane i).toNat < 2 ^ q :=
      Nat.lt_of_lt_of_le (BitVec.isLt _) (Nat.pow_le_pow_right (by omega) (by omega))
    simp [hq, Nat.testBit_lt_two_pow this]

/-- An operand with tag A reads base + i * stride (01 R25). -/
theorem sliceRead_of_tag_a {cells : List StoredCell} {s : Nat} {b st : Word} (h : operandTag cells s 32 = .a b st)
    (i : Nat) : BitVec.ofNat 32 (sliceRead cells i s 32) = b + BitVec.ofNat 32 (i * st.toNat) := by
  unfold operandTag at h
  split at h
  · rename_i ha
    have ha' : s % 8 = 0 := by simpa using ha
    rw [sliceRead_cell _ _ ha', Cell.lane_of_tag_a h, BitVec.ofNat_toNat, BitVec.setWidth_eq]
  · split at h <;> exact absurd h (by simp)

theorem View.read_of_isU {v : View} {s w : Nat} (h : v.isU s w = true) (i j : Nat) : v.read i s w = v.read j s w :=
  sliceRead_of_isU h i j

theorem View.read_of_tag_u {v : View} {s : Nat} (h : v.tag s 32 = .u) (i j : Nat) : v.read i s 32 = v.read j s 32 :=
  sliceRead_of_isU (by unfold Machine.isU; rw [show operandTag v.grp.cells s 32 = .u from h]; rfl) i j

theorem View.read_of_tag_a {v : View} {s : Nat} {b st : Word} (h : v.tag s 32 = .a b st) (i : Nat) :
    BitVec.ofNat 32 (v.read i s 32) = b + BitVec.ofNat 32 (i * st.toNat) := sliceRead_of_tag_a h i

theorem Cell.lane_of_operandTag {cells : List StoredCell} {s w : Nat} {b st : Word} (h : operandTag cells s w = .a b st) :
    s % 8 = 0 ∧ w = 32 := by
  unfold operandTag at h
  split at h
  · rename_i ha; simpa using ha
  · split at h <;> exact absurd h (by simp)

/-- The word of an affine source (01 R20, R25): only a whole cell is affine, and it needs no extension. -/
theorem View.word_of_tag_a {v : View} {a : Source} {b st : Word} (h : v.tag a.slice a.width = .a b st) (i : Nat) :
    v.word i a = b + BitVec.ofNat 32 (i * st.toNat) := by
  have hw := (Cell.lane_of_operandTag h).2
  unfold View.word
  rw [hw] at h ⊢
  rw [← View.read_of_tag_a h i]
  have hlt : v.read i a.slice 32 < 2 ^ 32 := sliceRead_lt _ _ _ _
  apply BitVec.eq_of_toNat_eq
  rw [BitVec.toNat_ofInt, BitVec.toNat_ofNat]
  have hlow : lowN (v.read i a.slice 32) 32 = v.read i a.slice 32 := Nat.mod_eq_of_lt hlt
  unfold extI
  rw [hlow]
  split <;> omega

theorem View.word_of_isU {v : View} {a : Source} (h : v.isU a.slice a.width = true) (i j : Nat) : v.word i a = v.word j a := by
  unfold View.word
  rw [View.read_of_isU h i j]

/-! ## Tags of results -/

theorem fits_u {lanes : Word} {w : Nat} {val : Nat → Nat} (h : ∀ i j, val i = val j) : OpTag.Fits .u lanes w val :=
  fun i j _ _ _ _ => h i j

/-- A stated tag with a note on the sources fits where the tag itself does. -/
theorem fits_noting {t : OpTag} {src : Bool} {lanes : Word} {w : Nat} {val : Nat → Nat} (ht : t.Fits lanes w val) :
    (t.noting src).Fits lanes w val := by
  cases t <;> cases src <;> exact ht

/-- The tag of an operation that no rule of R27 admits fits where the sources being U makes the values equal (01 Table 01-3). -/
theorem fits_excluded {src : Bool} {lanes : Word} {w : Nat} {val : Nat → Nat} (hs : src = true → ∀ i j, val i = val j) :
    (OpTag.excluded src).Fits lanes w val := by
  cases src
  · trivial
  · exact fits_u (w := w) (hs rfl)

/-- The tag U from U sources fits a value that depends on the sources' values alone (01 R27). -/
theorem fits_uniformTag {v : View} {srcs : List (Nat × Nat)} {lanes : Word} {w : Nat} {val : Nat → Nat}
    (h : (∀ p ∈ srcs, ∀ i j, v.read i p.1 p.2 = v.read j p.1 p.2) → ∀ i j, val i = val j) :
    (v.uniformTag srcs).Fits lanes w val := by
  unfold View.uniformTag
  split
  · rename_i hall
    exact fits_u (h (fun p hp i j => View.read_of_isU (List.all_eq_true.mp hall p hp) i j))
  · trivial

theorem ofNat_mul_toNat (i : Nat) (q : Word) : BitVec.ofNat 32 (i * q.toNat) = BitVec.ofNat 32 i * q := by
  rw [BitVec.ofNat_mul]; simp

/-- The affine rules (01 R27): the tag of the operation fits values of width 32 that are the operation on the words read. -/
theorem fits_affine {k : Affine} {a b : OpTag} {va vb : Word} {lanes : Word} {val : Nat → Nat}
    {ra rb : Nat → Word} (ha : ∀ p q, a = .a p q → ∀ i, ra i = p + BitVec.ofNat 32 (i * q.toNat))
    (hb : ∀ p q, b = .a p q → ∀ i, rb i = p + BitVec.ofNat 32 (i * q.toNat))
    (ua : a = .u → ∀ i, ra i = va) (ub : b = .u → ∀ i, rb i = vb)
    (hv : ∀ i, BitVec.ofNat 32 (val i) = match k with
      | .add => ra i + rb i
      | .sub => ra i - rb i
      | .mul => ra i * rb i
      | .shl => ra i <<< (rb i).toNat
      | .none => BitVec.ofNat 32 (val i)) :
    (k.tag a b va vb).Fits lanes 32 val := by
  unfold Affine.tag
  split
  case h_7 => trivial
  all_goals
    refine ⟨fun _ i _ _ => ?_, fun _ => rfl⟩
    rw [hv i]
    simp only
  · rw [ha _ _ rfl, ub rfl]; ring
  · rw [hb _ _ rfl, ua rfl]; ring
  · rw [ha _ _ rfl, ub rfl]; ring
  · rw [ha _ _ rfl, ub rfl, ofNat_mul_toNat, ofNat_mul_toNat]; ring
  · rw [hb _ _ rfl, ua rfl, ofNat_mul_toNat, ofNat_mul_toNat]; ring
  · rw [ha _ _ rfl, ub rfl, ofNat_mul_toNat, ofNat_mul_toNat]
    simp only [BitVec.shiftLeft_eq_mul_twoPow]; ring

/-- An operand's tag U is the mark U. -/
theorem View.isU_of_tag {v : View} {s w : Nat} (h : v.tag s w = .u) : v.isU s w = true := by
  unfold View.isU Machine.isU; rw [show operandTag v.grp.cells s w = .u from h]; rfl

/-- The tag of a lane-wise integer operation fits a value that depends on the sources' values alone (01 R27). -/
theorem fits_laneTag {v : View} {sat : Bool} {wd : Nat} {srcs : List (Nat × Nat)} {lanes : Word} {w : Nat} {val : Nat → Nat}
    (h : (∀ p ∈ srcs, ∀ i j, v.read i p.1 p.2 = v.read j p.1 p.2) → ∀ i j, val i = val j) :
    (v.laneTag sat wd srcs).Fits lanes w val := by
  unfold View.laneTag
  split
  · refine fits_excluded (fun hu => h (fun p hp i j => ?_))
    have hall : srcs.all (fun p => v.isU p.1 p.2) = true := by
      by_contra hc
      rw [View.uniformTag, if_neg hc] at hu
      exact absurd hu (by decide)
    exact View.read_of_isU (List.all_eq_true.mp hall p hp) i j
  · exact fits_uniformTag h

/-- The tag of a two-source integer operation fits (01 R27); where the affine rules apply the destination has width 32. -/
theorem fits_tagTwo {v : View} {k : Affine} {sat : Bool} {a b : Source} {more : List (Nat × Nat)} {lanes : Word}
    {w : Nat} {val : Nat → Nat}
    (hu : (∀ p ∈ a.at :: b.at :: more, ∀ i j, v.read i p.1 p.2 = v.read j p.1 p.2) → ∀ i j, val i = val j)
    (hv : sat = false → w = 32 → a.width ≤ 32 → b.width ≤ 32 → more = [] → ∀ i, BitVec.ofNat 32 (val i) = match k with
      | .add => v.word i a + v.word i b
      | .sub => v.word i a - v.word i b
      | .mul => v.word i a * v.word i b
      | .shl => v.word i a <<< (v.word i b).toNat
      | .none => BitVec.ofNat 32 (val i)) :
    (v.tagTwo k sat w a b more).Fits lanes w val := by
  simp only [View.tagTwo]
  split
  · exact fits_laneTag hu
  · rename_i h
    simp only [excluded, Bool.or_eq_true, Bool.and_eq_true, decide_eq_true_eq, not_or, not_and, List.any_eq_true, not_exists,
      Bool.not_eq_true, not_not, Bool.not_eq_false', List.isEmpty_iff] at h
    obtain ⟨⟨⟨-, hs, hw⟩, h32⟩, hm⟩ := h
    subst h32
    have hle (p : Nat × Nat) (hp : p ∈ a.at :: b.at :: more) : p.2 ≤ 32 := Nat.le_of_not_lt (hw rfl p hp)
    exact fits_affine (ra := fun i => v.word i a) (rb := fun i => v.word i b) (fun p q hp i => View.word_of_tag_a hp i)
      (fun p q hp i => View.word_of_tag_a hp i) (fun h i => View.word_of_isU (View.isU_of_tag h) i 0)
      (fun h i => View.word_of_isU (View.isU_of_tag h) i 0)
      (hv hs rfl (hle a.at (by simp)) (hle b.at (by simp)) hm)

/-- The tag of an operation on a source and an immediate fits (01 R27). -/
theorem fits_tagImm {v : View} {k : Affine} {a : Source} {imm : Word} {lanes : Word} {w : Nat} {val : Nat → Nat}
    (hu : (∀ i j, v.read i a.slice a.width = v.read j a.slice a.width) → ∀ i j, val i = val j)
    (hv : w = 32 → a.width ≤ 32 → ∀ i, BitVec.ofNat 32 (val i) = match k with
      | .add => v.word i a + imm
      | .sub => v.word i a - imm
      | .mul => v.word i a * imm
      | .shl => v.word i a <<< imm.toNat
      | .none => BitVec.ofNat 32 (val i)) :
    (v.tagImm k w a imm).Fits lanes w val := by
  simp only [View.tagImm]
  split
  · exact fits_laneTag (fun h => hu (h a.at (by simp)))
  · rename_i h
    simp only [excluded, Bool.or_eq_true, Bool.and_eq_true, decide_eq_true_eq, not_or, not_and, List.any_eq_true, not_exists,
      not_not, Bool.false_eq_true, false_or] at h
    obtain ⟨⟨hnu, hw⟩, h32⟩ := h
    subst h32
    exact fits_affine (ra := fun i => v.word i a) (rb := fun _ => imm) (fun p q hp i => View.word_of_tag_a hp i)
      (fun p q hp i => absurd hp (by simp)) (fun h => absurd (View.isU_of_tag h) (by simpa using hnu)) (fun _ _ => rfl)
      (hv rfl (Nat.le_of_not_lt (hw rfl a.at (by simp))))

end Sys2Proof.Machine
end

