-- ==== Sys2Proof/Laws/Values.lean ====
section
/-! SUPPORT. What the integer helpers compute, in the terms of the entries (05 R100 to R107): the bits of a result, the shifts
without a limit on their amount, bit fields, and the counts. -/

namespace Sys2Proof.Machine

open Sys2Proof

theorem ofBits_succ (n : Nat) (f : Nat → Bool) : ofBits (n + 1) f = ofBits n f + if f n then 2 ^ n else 0 := by
  simp [ofBits, List.range_succ]

theorem ofBits_lt (n : Nat) (f : Nat → Bool) : ofBits n f < 2 ^ n := by
  induction n with
  | zero => simp [ofBits]
  | succ n ih => rw [ofBits_succ, Nat.pow_succ]; split <;> omega

theorem testBit_ofBits (n : Nat) (f : Nat → Bool) (j : Nat) : (ofBits n f).testBit j = (decide (j < n) && f j) := by
  induction n with
  | zero => simp [ofBits]
  | succ n ih =>
    have h := ofBits_lt n f
    rw [ofBits_succ]
    have e : ofBits n f + (if f n then 2 ^ n else 0) = 2 ^ n * (if f n then 1 else 0) + ofBits n f := by split <;> omega
    rw [e, Nat.testBit_two_pow_mul_add _ h, ih]
    by_cases h1 : j < n
    · have : j < n + 1 := by omega
      simp [h1, this]
    · by_cases h2 : j = n
      · subst h2; cases hf : f j <;> simp
      · have h3 : ¬ j < n + 1 := by omega
        have h4 : j - n ≠ 0 := by omega
        simp only [h1, h3, decide_false, Bool.false_and, if_false]
        split
        · exact Nat.testBit_lt_two_pow (Nat.one_lt_two_pow h4)
        · simp

theorem testBit_lowI (v : Int) (n j : Nat) : (lowI v n).testBit j = (decide (j < n) && intBit v j) := by
  unfold lowI intBit
  have hn : (0 : Int) < (2 ^ n : Nat) := by exact_mod_cast Nat.two_pow_pos n
  have hr0 := Int.emod_nonneg v (Int.ne_of_gt hn)
  have hr1 := Int.emod_lt_of_pos v hn
  have hd := Int.mul_ediv_add_emod v (2 ^ n : Nat)
  generalize hR : v % (2 ^ n : Nat) = r at *
  generalize v / (2 ^ n : Nat) = q at *
  obtain ⟨m, rfl⟩ := Int.eq_ofNat_of_zero_le hr0
  have hm : m < 2 ^ n := by exact_mod_cast hr1
  rw [Int.toNat_natCast]
  by_cases hj : j < n
  · simp only [hj, decide_true, Bool.true_and]
    have hj0 : (0 : Int) < (2 ^ j : Nat) := by exact_mod_cast Nat.two_pow_pos j
    have e1 : (2 ^ n : Nat) = 2 ^ j * (2 * 2 ^ (n - j - 1)) := by
      rw [← Nat.pow_succ', ← Nat.pow_add]; congr 1; omega
    have e2 : v / (2 ^ j : Nat) = 2 * (2 ^ (n - j - 1) : Nat) * q + (m : Int) / (2 ^ j : Nat) := by
      rw [← hd, e1]
      push_cast
      rw [mul_assoc (2 ^ j : Int), Int.add_comm, Int.add_mul_ediv_left _ _ (by positivity), Int.add_comm]
    rw [e2, Nat.testBit_eq_decide_div_mod_eq]
    have e3 : (2 * (2 ^ (n - j - 1) : Nat) * q + (m : Int) / (2 ^ j : Nat)) % 2 = ((m / 2 ^ j % 2 : Nat) : Int) := by
      rw [mul_assoc, Int.add_comm, Int.add_mul_emod_self_left]; push_cast; rfl
    rw [e3]
    rcases Nat.mod_two_eq_zero_or_one (m / 2 ^ j) with h | h <;> simp [h]
  · simp only [hj, decide_false, Bool.false_and]
    exact Nat.testBit_lt_two_pow (Nat.lt_of_lt_of_le hm (Nat.pow_le_pow_right (by omega) (by omega)))

theorem testBit_land' (a b j : Nat) : (Nat.land a b).testBit j = (a.testBit j && b.testBit j) := Nat.testBit_and a b j
theorem testBit_lor' (a b j : Nat) : (Nat.lor a b).testBit j = (a.testBit j || b.testBit j) := Nat.testBit_or a b j
theorem testBit_xor' (a b j : Nat) : (Nat.xor a b).testBit j = (a.testBit j != b.testBit j) := Nat.testBit_xor a b j

/-! ## Spec lemmas of the integer helpers (05 R101 to R106) -/

theorem intBit_natCast (n j : Nat) : intBit (n : Int) j = n.testBit j := by
  unfold intBit
  rw [Nat.testBit_eq_decide_div_mod_eq]
  have : ((n : Int) / (2 ^ j : Nat) % 2) = ((n / 2 ^ j % 2 : Nat) : Int) := by push_cast; rfl
  rw [this]
  rcases Nat.mod_two_eq_zero_or_one (n / 2 ^ j) with h | h <;> simp [h]

theorem intBit_not (v : Int) (j : Nat) : intBit (-v - 1) j = !intBit v j := by
  unfold intBit
  have hm : (0 : Int) < (2 ^ j : Nat) := by exact_mod_cast Nat.two_pow_pos j
  generalize ((2 ^ j : Nat) : Int) = m at *
  have h1 : (-v - 1) / m = -(v / m) - 1 := by
    have hr0 := Int.emod_nonneg v (Int.ne_of_gt hm)
    have hr1 := Int.emod_lt_of_pos v hm
    have hd := Int.mul_ediv_add_emod v m
    have e : -v - 1 = (m - 1 - v % m) + m * (-(v / m) - 1) := by
      have : m * (-(v / m) - 1) = -(m * (v / m)) - m := by ring
      omega
    rw [e, Int.add_mul_ediv_left _ _ (Int.ne_of_gt hm), Int.ediv_eq_zero_of_lt (by omega) (by omega)]; ring
  rw [h1]
  have : v / m % 2 = 0 ∨ v / m % 2 = 1 := by omega
  rcases this with h | h
  · have h2 : (-(v / m) - 1) % 2 = 1 := by omega
    simp [h, h2]
  · have h2 : (-(v / m) - 1) % 2 = 0 := by omega
    simp [h, h2]

theorem lowN_lt (v w : Nat) : lowN v w < 2 ^ w := Nat.mod_lt _ (Nat.two_pow_pos _)

theorem lowI_lt (v : Int) (w : Nat) : lowI v w < 2 ^ w := by
  unfold lowI
  have hn : (0 : Int) < (2 ^ w : Nat) := by exact_mod_cast Nat.two_pow_pos w
  have h0 := Int.emod_nonneg v (Int.ne_of_gt hn)
  have h1 := Int.emod_lt_of_pos v hn
  omega

/-- A bitwise operation on the two's complement, bit by bit (05 R101). -/
theorem bitwise_value (op : Nat → Nat → Nat) (f : Bool → Bool → Bool)
    (h : ∀ a b j, b < 2 ^ 128 → j < 128 → (op a b).testBit j = f (a.testBit j) (b.testBit j)) (p q : Int) (w : Nat)
    (hw : w ≤ 128) :
    lowN (op (lowI p 128) (lowI q 128)) w = ofBits w (fun j => f (intBit p j) (intBit q j)) := by
  apply Nat.eq_of_testBit_eq
  intro j
  rw [testBit_lowN, testBit_ofBits]
  by_cases hj : j < w
  · have h1 : j < 128 := by omega
    simp [hj, h _ _ _ (lowI_lt q 128) h1, testBit_lowI, h1]
  · simp [hj]

theorem testBit_andn (a b j : Nat) (hb : b < 2 ^ 128) (hj : j < 128) :
    (Nat.land a (2 ^ 128 - 1 - b)).testBit j = (a.testBit j && !b.testBit j) := by
  have h : 2 ^ 128 - 1 - b = 2 ^ 128 - (b + 1) := by omega
  have hl := Nat.testBit_land a (2 ^ 128 - 1 - b) j
  rw [h] at hl ⊢
  exact hl.trans (by rw [Nat.testBit_two_pow_sub_succ hb]; simp [hj])

/-- SHL without a limit on the amount (05 R102). -/
theorem shiftLeft_value (a n w : Nat) (sat : Bool) (hw : w ≤ 128) :
    shiftLeft a n w sat = if sat = true ∧ 2 ^ w ≤ a * 2 ^ n then 2 ^ w - 1 else a * 2 ^ n % 2 ^ w := by
  unfold shiftLeft lowN
  by_cases hn : n ≤ 256
  · rw [Nat.min_eq_left hn]; simp
  · rw [Nat.min_eq_right (by omega)]
    have hp : ∀ k, w ≤ k → a * 2 ^ k % 2 ^ w = 0 := by
      intro k hk
      apply Nat.mod_eq_zero_of_dvd
      exact Dvd.dvd.mul_left (Nat.pow_dvd_pow 2 hk) a
    have hle : ∀ k, w ≤ k → (2 ^ w ≤ a * 2 ^ k ↔ a ≠ 0) := by
      intro k hk
      constructor
      · rintro h rfl; have := Nat.two_pow_pos w; omega
      · intro h
        exact Nat.le_trans (Nat.pow_le_pow_right (by omega) hk) (Nat.le_mul_of_pos_left _ (by omega))
    have i1 := hle 256 (by omega)
    have i2 := hle n (by omega)
    simp only [Bool.and_eq_true, decide_eq_true_eq, hp 256 (by omega), hp n (by omega), i1, i2]

theorem extI_bound (v w : Nat) (s : Bool) (hw : w ≤ 128) :
    -(2 ^ 128 : Int) ≤ extI v w s ∧ extI v w s < (2 ^ 128 : Int) := by
  have h := lowN_lt v w
  have h1 : 2 ^ w ≤ 2 ^ 128 := Nat.pow_le_pow_right (by omega) hw
  unfold extI
  generalize lowN v w = x at *
  generalize 2 ^ w = m at *
  split <;> omega

/-- SHR without a limit on the amount (05 R102). -/
theorem shiftRight_value (a : Int) (n w : Nat) (h : -(2 ^ 128 : Int) ≤ a ∧ a < (2 ^ 128 : Int)) :
    shiftRight a n w = lowI (a / (2 ^ n : Nat)) w := by
  unfold shiftRight
  congr 1
  by_cases hn : n ≤ 256
  · rw [Nat.min_eq_left hn]
  · rw [Nat.min_eq_right (by omega)]
    have hb : ∀ k, 256 ≤ k → a / ((2 ^ k : Nat) : Int) = if a < 0 then -1 else 0 := by
      intro k hk
      have h1 : 2 ^ 256 ≤ 2 ^ k := Nat.pow_le_pow_right (by omega) hk
      have h2 : (2 : Nat) ^ 128 ≤ 2 ^ 256 := Nat.pow_le_pow_right (by omega) (by omega)
      generalize 2 ^ k = m at *
      split
      · have e : a = (a + m) + m * (-1) := by ring
        rw [e, Int.add_mul_ediv_left _ _ (by omega), Int.ediv_eq_zero_of_lt (by omega) (by omega)]; rfl
      · exact Int.ediv_eq_zero_of_lt (by omega) (by omega)
    rw [hb 256 (by omega), hb n (by omega)]

/-- BFE (05 R103). -/
theorem extractField_value (a p l w : Nat) (x : Bool) :
    extractField a p l w x =
      lowI (if x = true ∧ 0 < l ∧ 2 ^ (l - 1) ≤ a / 2 ^ p % 2 ^ l then ((a / 2 ^ p % 2 ^ l : Nat) : Int) - (2 ^ l : Nat)
        else ((a / 2 ^ p % 2 ^ l : Nat) : Int)) w := by
  unfold extractField extI bitsN lowN
  by_cases hl : l = 0
  · subst hl; simp [lowI, Nat.mod_one]
  · rw [if_neg hl, Nat.mod_mod]
    have : 0 < l := by omega
    simp only [Bool.and_eq_true, decide_eq_true_eq, this, true_and]

/-- BFI (05 R103). -/
theorem insertField_value (old a p l w : Nat) (ho : old < 2 ^ w) :
    insertField old a p l w =
      ofBits w (fun j => if p ≤ j ∧ j < p + l then a.testBit (j - p) else old.testBit j) := by
  apply Nat.eq_of_testBit_eq
  intro j
  rw [testBit_ofBits]
  unfold insertField
  have hz : ¬ j < w → old.testBit j = false := fun h =>
    Nat.testBit_lt_two_pow (Nat.lt_of_lt_of_le ho (Nat.pow_le_pow_right (by omega) (by omega)))
  split
  · by_cases hj : j < w
    · have : ¬ (p ≤ j ∧ j < p + l) := by omega
      simp [hj, this]
    · simp [hj, hz hj]
  · rw [testBit_putBitsN]
    by_cases hj : j < w
    · have : (p ≤ j ∧ j < p + min l (w - p)) ↔ (p ≤ j ∧ j < p + l) := by omega
      simp [hj, this]
    · have : ¬ (p ≤ j ∧ j < p + min l (w - p)) := by omega
      simp [hj, this, hz hj]

/-- POPC counts the 1 bits (05 Table 05-6). -/
theorem popcountN_value (v w : Nat) : popcountN v w = (List.range w).countP (fun j => v.testBit j) := by
  induction w with
  | zero => rfl
  | succ w ih => rw [popcountN, ih, List.range_succ, List.countP_append, bitN_eq]; simp [List.countP_cons]

/-- CLZ counts the leading 0 bits (05 Table 05-6). -/
theorem clzN_value (v w : Nat) (h : v < 2 ^ w) : clzN v w = if v = 0 then w else w - 1 - Nat.log2 v := by
  induction w with
  | zero => have : v = 0 := by omega
            simp [clzN, this]
  | succ w ih =>
    rw [clzN, bitN_eq]
    by_cases hb : v.testBit w = true
    · have hge : 2 ^ w ≤ v := Nat.ge_two_pow_of_testBit hb
      have hne : v ≠ 0 := by have := Nat.two_pow_pos w; omega
      have hlog : Nat.log2 v = w := (Nat.log2_eq_iff hne).mpr ⟨hge, h⟩
      simp [hb, hne, hlog]
    · have hlt : v < 2 ^ w := by
        by_contra hc
        apply hb
        rw [Nat.testBit_eq_decide_div_mod_eq]
        have : v / 2 ^ w = 1 := by
          have h1 : v / 2 ^ w < 2 := by rw [Nat.div_lt_iff_lt_mul (Nat.two_pow_pos _), Nat.mul_comm, ← Nat.pow_succ]; exact h
          have h2 : 1 ≤ v / 2 ^ w := by rw [Nat.le_div_iff_mul_le (Nat.two_pow_pos _)]; omega
          omega
        simp [this]
      rw [if_neg hb, ih hlt]
      by_cases h0 : v = 0
      · simp [h0]; omega
      · have : Nat.log2 v < w := (Nat.log2_lt h0).mpr hlt
        simp [h0]; omega

/-- BREV reverses the bits (05 Table 05-6). -/
theorem brevN_value (v w : Nat) : brevN v w w = ofBits w (fun j => v.testBit (w - 1 - j)) := by
  have key : ∀ n, n ≤ w → ∀ j, (brevN v w n).testBit j = (decide (w - n ≤ j ∧ j < w) && v.testBit (w - 1 - j)) ∧
      brevN v w n % 2 ^ (w - n) = 0 ∧ brevN v w n < 2 ^ w := by
    intro n
    induction n with
    | zero => intro hn j
              refine ⟨?_, by simp [brevN], by simp [brevN]⟩
              simp [brevN]
    | succ n ih =>
      intro hn j
      obtain ⟨h1, h2, h3⟩ := ih (by omega) j
      have hw : w - n = (w - 1 - n) + 1 := by omega
      obtain ⟨q, hq⟩ : ∃ q, brevN v w n = 2 ^ (w - n) * q := ⟨_, (Nat.mul_div_cancel' (Nat.dvd_of_mod_eq_zero h2)).symm⟩
      have hlt : (if bitN v n then 2 ^ (w - 1 - n) else 0) < 2 ^ (w - n) := by
        rw [hw, Nat.pow_succ]; have := Nat.two_pow_pos (w - 1 - n); split <;> omega
      refine ⟨?_, ?_, ?_⟩
      · rw [brevN, hq, Nat.testBit_two_pow_mul_add _ hlt]
        rw [hq] at h1
        by_cases hj : j < w - n
        · simp only [hj, if_true]
          by_cases he : j = w - 1 - n
          · have e1 : w - (n + 1) ≤ j ∧ j < w := by omega
            have e2 : w - 1 - j = n := by omega
            rw [bitN_eq, e2]
            subst he
            cases hb : v.testBit n <;> simp [e1, Nat.testBit_two_pow_self]
          · have e1 : ¬ (w - (n + 1) ≤ j ∧ j < w) := by omega
            simp only [e1, decide_false, Bool.false_and]
            split
            · rw [Nat.testBit_two_pow]; simp; omega
            · simp
        · simp only [hj, if_false]
          have h4 : (2 ^ (w - n) * q).testBit j = q.testBit (j - (w - n)) := by
            have := Nat.testBit_two_pow_mul_add q (i := w - n) (b := 0) (Nat.two_pow_pos _) j
            simpa [hj] using this
          rw [← h4, h1]
          have e1 : w - n ≤ j := by omega
          have e2 : w - (n + 1) ≤ j := by omega
          simp [e1, e2]
      · have e : w - (n + 1) = w - 1 - n := by omega
        rw [brevN, hq, hw, Nat.pow_succ, e]
        rw [Nat.mul_assoc, Nat.mul_add_mod]
        split <;> simp
      · rw [brevN]
        have hbound : brevN v w n + 2 ^ (w - n) ≤ 2 ^ w := by
          have e3 : 2 ^ w = 2 ^ (w - n) * 2 ^ n := by rw [← Nat.pow_add]; congr 1; omega
          rw [hq, e3] at h3
          have : q < 2 ^ n := Nat.lt_of_mul_lt_mul_left h3
          rw [hq, e3]
          calc 2 ^ (w - n) * q + 2 ^ (w - n) = 2 ^ (w - n) * (q + 1) := by ring
            _ ≤ _ := Nat.mul_le_mul_left _ this
        omega
  apply Nat.eq_of_testBit_eq
  intro j
  rw [testBit_ofBits, (key w (Nat.le_refl _) j).1]
  simp

/-- TAG gathers the codes of its cells (05 R107). -/
theorem tagCodes_value (cells : List StoredCell) (c n : Nat) :
    tagCodes cells c n = ((List.range n).map (fun j => (cellAt cells (c + j)).code * 4 ^ j)).sum := by
  induction n generalizing c with
  | zero => rfl
  | succ n ih =>
    rw [tagCodes, ih, List.range_succ_eq_map, List.map_cons, List.sum_cons, List.map_map, ← List.sum_map_mul_left]
    simp only [Nat.add_zero, Nat.pow_zero, Nat.mul_one]
    congr 1
    apply congrArg
    apply List.map_congr_left
    intro j _
    simp only [Function.comp, Nat.pow_succ]
    rw [show c + 1 + j = c + (j + 1) by omega]; ring

end Sys2Proof.Machine
end

