-- ==== Sys2Proof/Tests/Slice0.lean ====
section
/-! SUPPORT. Tests: every family's words decoded, ill-formed terms refused, single steps with results taken from the
spec, and the witnesses: for each statement with hypotheses, a concrete state and operands that meet them. -/

namespace Sys2Proof.Tests
open Sys2Proof Sys2Proof.Machine Sys2Proof.Claims

/-! ## Decoding -/

/-- A header with no extension word and no chain bit. -/
def h0 : Hdr := { chain := false, ext := none }

/-- A header with an extension word. -/
def hx (e : Ext) : Hdr := { chain := false, ext := some e }

/-- The instruction some words decode to when nothing of them is left over and nothing is rejected. -/
def decoded (ws : List Word) : Option Instr :=
  match decodeItem 0 ws with
  | some it => if it.reject.isNone && it.len == ws.length then it.instr else none
  | none => none

/-- Words of the integer instructions: bit by bit from 04 Tables 04-1, 04-2, 04-6 to 04-12; those with a line of assembly
stand in that file of the spec. -/
def integerWords : List (List Word × Instr) :=
  [ ([0x03500820], .iadd h0 5 32 8 16 false)
  , ([0x05508821], .isub h0 5 33 8 16 true)
  , ([0x07510820], .imul h0 5 34 8 16 false)
  , ([0x09518821], .imulh h0 5 35 8 16 true)
  , ([0x0B520820], .imad h0 5 36 8 16 false)
  , ([0x0D528821], .imin h0 5 37 8 16 true)
  , ([0x0F530820], .imax h0 5 38 8 16 false)
  , ([0x11538821], .isad h0 5 39 8 16 true)
  , ([0x134C0820], .and h0 5 24 8 16)
  , ([0x154C0820], .or h0 5 24 8 16)
  , ([0x174C0820], .xor h0 5 24 8 16)
  , ([0x194C0820], .andn h0 5 24 8 16)
  , ([0x1B4C0820], .shl h0 5 24 8 16)
  , ([0x1D4C0821], .shr h0 5 24 8 16 true)
  , ([0x1F4C0820], .rotl h0 5 24 8 16)
  , ([0x214C0821], .bfe h0 5 24 8 16 true)
  , ([0x234C0820], .bfi h0 5 24 8 16)
  , ([0x249C28A0], .sel h0 2 56 40 80)  -- 14, SEL c7, c5, c10, k2
  , ([0x27510820], .icmp h0 5 2 2 8 16)  -- 05, ICMP.lt k2, c1, c2
  , ([0x294C0800], .iabs h0 5 24 8)
  , ([0x294C0802], .ineg h0 5 24 8)
  , ([0x294C0804], .not h0 5 24 8)
  , ([0x294C0806], .popc h0 5 24 8)
  , ([0x294C0808], .clz h0 5 24 8)
  , ([0x294C080A], .brev h0 5 24 8)
  , ([0x294C080C], .mov h0 5 24 8)
  , ([0x294C080E], .tag h0 5 24 8)
  , ([0x294C0080], .rdsp h0 5 24 0)  -- 05, RDSP c3, %lane
  , ([0x294008DC], .wrsp h0 5 8 14)
  , ([0x2B4400FD], .iaddi h0 5 8 0 0xFD)  -- 05, IADDI c1, c0, #-3
  , ([0x2D4C0805], .shli h0 5 24 8 5)
  , ([0x2F4C0885], .shri h0 5 24 8 true 5)
  , ([0x314C087F], .andi h0 5 24 8 0x7F)
  , ([0x33588809], .icmpi h0 5 3 1 8 9)
  , ([0x34400028], .movi h0 16 40)  -- 05, MOVI c2, #40
  , ([0x36401234], .movhi h0 16 0x1234)  -- 05, MOVHI c2, #0x1234
  , ([0x7F800000, 0x34001380], .movi (hx { Ext.zero with dh := 3 }) 0 0x1380)  -- 13, MOVI c48, #0x1380
  , ([0x6A000000], .nop false)  -- 04, NOP
  ]

theorem test_decode_integer :
    integerWords.map (fun p => decoded p.1) =
      integerWords.map (fun p => some p.2) := by rfl

/-- Words of the float instructions: bit by bit from 04 Tables 04-1, 04-2, 04-6 to 04-12; those with a line of assembly
stand in that file of the spec. -/
def floatWords : List (List Word × Instr) :=
  [ ([0x38CC1880], .fadd h0 3 24 24 64)  -- 14, FADD.t16 n24.16, n24.16, n64.16
  , ([0x3A0C0820], .fsub h0 0 24 8 16)
  , ([0x3C0C0820], .fmul h0 0 24 8 16)
  , ([0x3E040020], .ffma h0 0 8 0 16)  -- 14, FFMA.f32 c1, c0, c2
  , ([0x400C0820], .fmin h0 0 24 8 16)
  , ([0x420C0820], .fmax h0 0 24 8 16)
  , ([0x44105030], .fcmp h0 0 2 0 80 24)  -- 14, FCMP.f32.eq k2, c10, c3
  , ([0x460C0800], .fabs h0 0 24 8)
  , ([0x460C0802], .fneg h0 0 24 8)
  , ([0x460C0804], .frnd h0 0 24 8)
  , ([0x460C0820], .rcp h0 0 24 8)
  , ([0x46040822], .rsqrt h0 0 8 8)  -- 14, RSQRT.f32 c1, c1
  , ([0x460C0824], .sqrt h0 0 24 8)
  , ([0x460C0826], .exp2 h0 0 24 8)
  , ([0x460C0828], .log2 h0 0 24 8)
  , ([0x460C082A], .sin h0 0 24 8)
  , ([0x460C082C], .cos h0 0 24 8)
  , ([0x460C082E], .tanh h0 0 24 8)
  , ([0x48D41800], .cvt h0 3 40 24 0 0)  -- 14, CVT.f32.t16 c5, n24.16
  , ([0x4A004860], .cvq h0 0 0 72 6 0)  -- 14, CVQ.e4m3.f32 n0.8, c9
  , ([0x4C003002], .cbld h0 48 true)  -- 05, CBLD cb1, [c6]
  , ([0x4CD0080C], .cbx h0 3 32 8 2)
  ]

theorem test_decode_float :
    floatWords.map (fun p => decoded p.1) =
      floatWords.map (fun p => some p.2) := by rfl

/-- Words of the exchange instructions: bit by bit from 04 Tables 04-1, 04-2, 04-6 to 04-12; those with a line of assembly
stand in that file of the spec. -/
def exchangeWords : List (List Word × Instr) :=
  [ ([0x4F500820], .shfl h0 5 32 8 16)
  , ([0x4F500821], .shflp h0 5 32 8 16)  -- 05, SHFLP c4, c1, c2
  , ([0x51500801], .shflx h0 5 32 8 1)  -- 05, SHFLX c4, c1, #1
  , ([0x53418800], .voteAny h0 5 3 8)
  , ([0x53418802], .voteAll h0 5 3 8)
  , ([0x53418804], .voteBal h0 5 3 8)
  , ([0x53500823], .reduInt h0 5 32 8 1 true)
  , ([0x522C4030], .reduFloat h0 0 88 64 0)  -- 14, REDU.FADD.f32 c11, c8
  , ([0x5350084A], .scanInt h0 5 32 8 5 false)
  , ([0x52100852], .scanFloat h0 0 32 8 1)
  , ([0x53480866], .nzscan h0 5 16 8 3)  -- 05, NZSCAN c2, k3, c1
  , ([0x53500070], .seg h0 5 32)
  ]

theorem test_decode_exchange :
    exchangeWords.map (fun p => decoded p.1) =
      exchangeWords.map (fun p => some p.2) := by rfl

/-- Words of the memory instructions: bit by bit from 04 Tables 04-1, 04-2, 04-6 to 04-12; those with a line of assembly
stand in that file of the spec. -/
def memoryWords : List (List Word × Instr) :=
  [ ([0x55503002], .lds h0 5 32 48 2)  -- 09, LDS c4, [c6 + #8]
  , ([0x57483001], .sts h0 5 16 48 1)  -- 09, STS [c6 + #4], c2
  , ([0x584418FF], .ldx h0 1 8 24 0xFF)  -- 09, LDX n8.8, [c3 + #-1]
  , ([0x5B503002], .stx h0 5 32 48 2)
  , ([0x5D540802], .ldk h0 5 40 8 2)  -- 09, LDK c5, [c1 + #8]
  , ([0x5D540882], .stk h0 5 40 8 2)  -- 09, STK [c1 + #8], c5
  , ([0x5E020C03], .atomS h0 0 16 48 3)  -- 09, ATOM.S.ADD c2, [c6], c3
  , ([0x60920C03], .atomX h0 9 16 48 3)  -- 09, ATOM.X.CAS c2, [c6], c3
  , ([0x61800C03], .red h0 8 48 3)  -- 09, RED.FADD [c6], c3
  , ([0x68300208], .tmap h0 8 8)  -- 09, TMAP c1, c8
  ]

theorem test_decode_memory :
    memoryWords.map (fun p => decoded p.1) =
      memoryWords.map (fun p => some p.2) := by rfl

/-- Words of the barrier instructions: bit by bit from 04 Tables 04-1, 04-2, 04-6 to 04-12; those with a line of assembly
stand in that file of the spec. -/
def barrierWords : List (List Word × Instr) :=
  [ ([0x6400180A], .barinit h0 96 10)  -- 12, BARINIT [c10], c12
  , ([0x6412000A], .bararr h0 16 10)
  , ([0x6422000A], .barwait h0 16 10)
  , ([0x643A000D], .bararrw h0 80 13)  -- 14, BARARRW c10, [c13]
  , ([0x64404000], .fence h0 2)
  , ([0x6450000A], .fetchw h0 10)
  , ([0x6462060A], .sleepuntil h0 16 24 10)
  , ([0x647B000A], .cwait h0 88 10)  -- 12, CWAIT [c10], c11
  ]

theorem test_decode_barrier :
    barrierWords.map (fun p => decoded p.1) =
      barrierWords.map (fun p => some p.2) := by rfl

/-- Words of the engine instructions: bit by bit from 04 Tables 04-1, 04-2, 04-6 to 04-12; those with a line of assembly
stand in that file of the spec. -/
def engineWords : List (List Word × Instr) :=
  [ ([0x62080004, 0x7CE00098], .copy h0 64 0 4 { skind := 1, dkind := 3, bq := 0, boff := 0x98 })  -- 12, COPY.main.sh n64.64, c0, c4, [#0x4C0]
  , ([0x62180008, 0x7CF10098], .copyt h0 64 0 8 4 { skind := 1, dkind := 3, bq := 1, boff := 0x98 })
  , ([0x7E200000, 0x66000020, 0x7C020000], .mma (hx { Ext.zero with ah := 1 }) 0 0 32 0 true)  -- 12, MMA.z acc0, n0, n128, c32
  , ([0x66101020, 0x7C140000], .mmap h0 0 64 32 5 false)
  , ([0x66201018, 0x7C00E000], .mmagA h0 64 24 0 28)  -- 10, MMAG.A
  , ([0x7E800000, 0x66300000, 0x7C002000], .mmagK (hx { Ext.zero with dh := 1 }) 0 0 0 false 4)  -- 13, MMAG.K acc0, n128, c0, c4
  , ([0x66420006], .mbatch h0 16 6)  -- 10, MBATCH c2, [c6]
  , ([0x66500400], .mwait h0 16)  -- 10, MWAIT c2
  , ([0x6684014C], .tld h0 32 5 12)
  , ([0x6694014C], .tst h0 32 5 12)
  , ([0x66C4014C], .tldP h0 32 5 12)
  , ([0x66D4014C], .tstP h0 32 5 12)
  , ([0x66F4014C], .tstsP h0 32 5 12)
  , ([0x66A00000], .tzero h0 0)  -- 13, TZERO acc0
  , ([0x66E00140], .tzeroP h0 5)
  , ([0x66BC000D], .tsts h0 96 0 13)  -- 12, TSTS [c12], acc0, c13
  , ([0x68041000, 0x7DFE1234], .route h0 32 64 { km1 := 7, dm1 := 15, bq := 2, boff := 0x1234 })
  , ([0x68130800], .xslot h0 24 32)  -- 10, XSLOT c3, c4
  , ([0x68200600], .xrel h0 24)  -- 10, XREL c3
  ]

theorem test_decode_engine :
    engineWords.map (fun p => decoded p.1) =
      engineWords.map (fun p => some p.2) := by rfl

/-- Words of the sequencer instructions: bit by bit from 04 Tables 04-1, 04-2, 04-6 to 04-12; those with a line of assembly
stand in that file of the spec. -/
def sequencerWords : List (List Word × Instr) :=
  [ ([0x6A200002], .span h0 2)  -- 07, SPAN B2
  , ([0x6A400000], .next h0)  -- 07, NEXT
  , ([0x6A600007], .jmp h0 7)
  , ([0x6A960007], .br h0 5 true 7)
  , ([0x6AA60000], .brx h0 24)
  , ([0x6AC00007], .call h0 7)
  , ([0x6AE00000], .ret h0)
  , ([0x6B000000], .exit h0)  -- 12, EXIT
  , ([0x6B200005], .elect h0 5)  -- 07, ELECT k5
  , ([0x6B40076C], .sleep h0 1900)  -- 07, SLEEP #1900
  , ([0x6B600000], .yield h0)  -- 07, YIELD
  , ([0x6C053000], .kand h0 1 2 3)
  , ([0x6C253000], .kor h0 1 2 3)
  , ([0x6C453000], .kxor h0 1 2 3)
  , ([0x6C650000], .knot h0 1 2)
  , ([0x6C850000], .kmovMask h0 1 2)
  , ([0x6C8C07C0], .kmovFromCell h0 3 120)  -- 13, KMOV k3, c15
  , ([0x6C8108C0], .kmovToSlices h0 2 24)
  , ([0x6CA100C0], .kpop h0 2 24)
  ]

theorem test_decode_sequencer :
    sequencerWords.map (fun p => decoded p.1) =
      sequencerWords.map (fun p => some p.2) := by rfl

/-- Words of the system instructions: bit by bit from 04 Tables 04-1, 04-2, 04-6 to 04-12; those with a line of assembly
stand in that file of the spec. -/
def systemWords : List (List Word × Instr) :=
  [ ([0x6E000005], .gate h0 5)  -- 07, GATE #5
  , ([0x6E200000], .gret h0)  -- 07, GRET
  , ([0x6E40002A], .trap h0 42)  -- 18, TRAP #42
  , ([0x6E600000], .tret h0)  -- 18, TRET
  , ([0x70030021], .csrr h0 24 0x21)
  , ([0x70100602], .csrw h0 24 2)
  , ([0x70200000], .mark h0)
  , ([0x70330800], .logw h0 24 32)
  , ([0x70401001], .brk h0 4097)
  , ([0x70500000], .icinv h0)
  , ([0x70600600], .tlbinv h0 24)
  , ([0x70600001], .tlbinvAll h0)
  , ([0x7070000A], .qpost h0 10)
  ]

theorem test_decode_system :
    systemWords.map (fun p => decoded p.1) =
      systemWords.map (fun p => some p.2) := by rfl

set_option Elab.async false

/-! ## A small machine for the tests and the witnesses -/

/-- A device with one placed group of 32 lanes: every register cell holds U 0, mask k0 every lane, and the chain at its
second packet is under a SPAN of block 0. -/
def base : Device := (State.placed State.reset [0x6A000000]).dev

/-- The issue of that group's chain. -/
def issue0 : Issue :=
  { wg := 0, g := 0, slot := false, addr := 12, next := 16, index := 0, offset := 0, flips := false, fired := [] }

/-- The state in which that chain is in issue. -/
def on (d : Device) : State := { dev := d, issue := some issue0, latch := none, turn := .partition 0 0, inputs := [] }

/-- What the issuing group's instructions read. -/
def see (d : Device) : View := (viewsOf d issue0).headD default

theorem head_of_one {l : List View} {e : View} (h : l.length = 1) : l = [l.headD e] := by
  obtain ⟨v, rfl⟩ := List.length_eq_one_iff.mp h
  rw [List.headD_cons]

theorem not_lost {d : Device} (h : d.lost.isEmpty = true) (p : StoredPlace) : p ∉ d.lost := by
  rw [List.isEmpty_iff.mp h]
  exact List.not_mem_nil

theorem on_issuing (d : Device) (h : (viewsOf d issue0).length = 1) (l : d.lost.isEmpty = true := by decide +kernel) :
    Issuing (on d) issue0 [see d] where
  issue := rfl
  views := head_of_one h
  acts := List.cons_ne_nil _ _
  intact := fun _ _ _ => not_lost (d := (on d).dev) l _

theorem lostIn_none {d : Device} (h : d.lost.isEmpty = true) (sp : Space) (a n : Nat) : d.lostIn sp a n = none := by
  simp [Device.lostIn, List.isEmpty_iff.mp h]

theorem intact_of {d : Device} (h : d.lost.isEmpty = true) (act : Word) (n : Nat) (place : Nat → Option Place) :
    IntactAt d act n place := fun _ _ _ p _ => lostIn_none h p.space p.addr n

theorem lostOf_none {d : Device} (h : d.lost.isEmpty = true) (ps : List (Place × Nat)) : d.lostOf ps = none := by
  simp [Device.lostOf, h]

theorem see_head {d : Device} {v : View} (h : v ∈ [see d]) : v = see d := by simpa using h

theorem once_head {d : Device} {i : Instr} {v : View} (h : v ∈ activeOnce i [see d]) : v = see d :=
  see_head (List.mem_of_mem_filter (List.mem_of_mem_take h))

/-- The group changed. -/
def grp (d : Device) (f : Group → Group) : Device := d.modGroup 0 0 f

/-- Some cells of the group set. -/
def cells (d : Device) (l : List (Nat × Cell)) : Device :=
  grp d (fun g => { g with
    cells := l.foldl (fun cs p => setAt cs p.1 { cell := p.2, evicted := false, used := 0 }) g.cells })

/-- The issuing slot changed. -/
def slot (d : Device) (f : Slot → Slot) : Device := grp d (fun g => { g with slot0 := g.slot0.map f })

/-- The agent changed. -/
def agent (d : Device) (f : Agent → Agent) : Device := grp d (fun g => { g with agent0 := f g.agent0 })

/-- The context changed. -/
def ctx (d : Device) (f : Context → Context) : Device := d.modCtx 0 f

/-- The kernel changed. -/
def kern (d : Device) (f : Kernel → Kernel) : Device :=
  ctx d (fun c => { c with lockets := c.lockets.map (fun l => { l with kernels := l.kernels.map f }) })

/-- A library kernel of one block behind gate entry `i`. -/
def withGate (d : Device) (i : Nat) : Device :=
  ctx d (fun c => { c with
    lockets := c.lockets ++ [{ handle := 2, dbg := false, image := [], kernels := [placedKernel []], graphs := [] }]
    gates := [(i, BitVec.ofNat 64 (2 ^ 63 + 2 * 2 ^ 40))] })

theorem passes_of {v : View} {act : Word} {n align : Nat} {ea : Nat → Nat} {place : Nat → Option Place}
    {hit : RangeLock → Bool}
    (h : (List.range 32).all (fun j => !hasLane act j || (ea j % align == 0 &&
      match place j with | some p => !v.dev.meetsLock p n v.grp.core hit | none => false)) = true) :
    Passes v act n align ea place hit := by
  intro j hj ha
  have := List.all_eq_true.mp h j (List.mem_range.mpr hj)
  rw [ha] at this
  cases hp : place j with
  | none => rw [hp] at this; simp at this
  | some p => rw [hp] at this; simpa using this

theorem clear_of {h : Hdr} {b : BitVec 6} {v : View} {hit : ObjRef → RangeLock → Bool}
    (ok : (v.isU (8 * b.toNat) 32 && objectAddr h b v % 8 == 0 &&
      match v.object (objectAddr h b v) with
      | some o => !v.dev.meetsLock { space := o.space, addr := o.off } 8 v.grp.core (hit o)
      | none => false) = true) : ObjectClear h b v hit := by
  unfold ObjectClear
  cases ho : v.object (objectAddr h b v) with
  | none => rw [ho] at ok; simp at ok
  | some o => rw [ho] at ok; simpa [and_assoc] using ok

theorem object_of {d : Device} {h : Hdr} {b : BitVec 6} {v : View} {hit : ObjRef → RangeLock → Bool}
    (ok : (v.isU (8 * b.toNat) 32 && objectAddr h b v % 8 == 0 &&
      match v.object (objectAddr h b v) with
      | some o => !v.dev.meetsLock { space := o.space, addr := o.off } 8 v.grp.core (hit o)
      | none => false) = true) (l : d.lost.isEmpty = true := by decide +kernel) : ObjectOk d h b v hit :=
  ⟨clear_of ok, fun o _ => lostIn_none l o.space o.off 8⟩

theorem budget_of {d : Device} {l : List (Nat × Nat)}
    (h : l.all (fun p => decide (p.1 + p.2 ≤ (see d).grp.budget)) = true) : InBudget [see d] l := by
  intro v hv p hp
  rw [see_head hv]
  exact of_decide_eq_true (List.all_eq_true.mp h p hp)

theorem okFalse_of {α : Type} {e : Except α Bool} (h : (match e with | .ok b => !b | .error _ => false) = true) :
    e = .ok false := by
  cases e with
  | ok b => cases b with
    | false => rfl
    | true => exact absurd h (by simp)
  | error _ => exact absurd h (by simp)

theorem ok_of {α β : Type} {e : Except α β} (h : (match e with | .ok _ => true | .error _ => false) = true) :
    ∃ d, e = .ok d := by
  cases e with
  | ok d => exact ⟨d, rfl⟩
  | error _ => exact absurd h (by simp)

theorem some_of {α : Type} {o : Option α} (h : o.isSome = true) : ∃ x, o = some x := Option.isSome_iff_exists.mp h

theorem base_one : (viewsOf base issue0).length = 1 := by decide +kernel

theorem base_issuing : Issuing (on base) issue0 [see base] := on_issuing base base_one

/-! ## Ill-formed terms, refused: one term for each check of `WellFormed` -/

/-- An extension word that sets one thing. -/
def hz (f : Ext → Ext) : Hdr := hx (f Ext.zero)

/-- A header with the chain bit. -/
def hc : Hdr := { chain := true, ext := none }

/-- Every term of the list is refused. -/
def refused (l : List Instr) : Bool := l.all (fun i => !i.wf)

/-- 04 Table 04-2: a field without its enable, and bh on formats E and Q. -/
theorem test_refuses_ext :
    refused [ .mov (hz fun e => { e with aw := 1 }) 5 8 16, .iadd (hz fun e => { e with sb := true }) 5 8 16 24 false
            , .mov (hz fun e => { e with pk := 1 }) 5 8 16, .mov (hz fun e => { e with pn := true }) 5 8 16
            , .jmp (hz fun e => { e with bh := 1 }) 0, .bararr (hz fun e => { e with bh := 1 }) 8 1 ] = true := by decide

/-- 05 Table 05-1 and 04 R85, R87: widths, the override, unused fields and .sat of the integer words. -/
theorem test_refuses_integer :
    refused [ .iadd h0 7 8 16 24 false, .iadd (hz fun e => { e with wo := true, aw := 7 }) 5 8 16 24 false
            , .imin (hz fun e => { e with ix := 1 }) 5 8 16 24 false, .iadd (hz fun e => { e with ix := 2 }) 5 8 16 24 false
            , .bfe h0 0 8 16 24 false, .bfi h0 7 8 16 24
            , .sel (hz fun e => { e with wo := true, aw := 5, bw := 3 }) 1 8 16 24
            , .icmp h0 5 1 10 8 16, .icmp (hz fun e => { e with dh := 1 }) 5 1 0 8 16
            , .iabs h0 7 8 16, .mov (hz fun e => { e with bh := 1 }) 5 8 16
            , .tag h0 2 8 16, .rdsp h0 5 8 18, .wrsp h0 5 8 18
            , .shli (hz fun e => { e with ix := 1 }) 5 8 16 1, .icmpi h0 5 1 10 8 0
            , .movi (hz fun e => { e with ah := 1 }) 8 0
            , .movhi (hz fun e => { e with wo := true, aw := 3 }) 8 0 ] = true := by decide

/-- 05 R111 to R116 and 04 Table 04-8: types, classes, formats and roundings. -/
theorem test_refuses_float :
    refused [ .fadd h0 5 8 16 24, .fadd (hz fun e => { e with wo := true, aw := 3 }) 0 8 16 24
            , .fadd (hz fun e => { e with wo := true, sa := true }) 0 8 16 24, .fcmp h0 0 1 8 8 16
            , .fcmp (hz fun e => { e with wo := true, aw := 3, bw := 0 }) 0 1 0 8 16
            , .rcp (hz fun e => { e with wo := true, aw := 4 }) 0 8 16
            , .cvt h0 8 8 16 0 0, .cvt h0 0 8 16 8 0, .cvt h0 0 8 16 1 5, .cvq h0 0 8 16 0 0 ] = true := by decide

/-- 05 R117 to R126: the codebook, shuffle, vote, reduction, rank and segment words. -/
theorem test_refuses_cross :
    refused [ .cbld (hz fun e => { e with dh := 1 }) 8 false, .cbx h0 2 8 16 0
            , .shfl (hz fun e => { e with wo := true, aw := 3 }) 5 8 16 24, .shflx (hz fun e => { e with ix := 1 }) 5 8 16 0
            , .voteAny (hz fun e => { e with dh := 1 }) 5 1 8, .reduInt h0 5 8 16 6 false, .reduInt h0 5 8 16 0 true
            , .reduFloat h0 5 8 16 0, .reduFloat h0 0 8 16 3, .scanInt h0 7 8 16 0 false, .nzscan h0 0 8 16 1
            , .seg (hz fun e => { e with ah := 1 }) 5 8 ] = true := by decide

/-- 04 Table 04-9 and 09 R192, R195: orders, scopes, widths and operations of the memory words. -/
theorem test_refuses_memory :
    refused [ .lds h0 2 8 16 0, .lds (hz fun e => { e with ix := 0x10 }) 5 8 16 0, .sts (hz fun e => { e with ix := 8 }) 5 8 16 0
            , .ldx (hz fun e => { e with ix := 1 }) 5 8 16 0, .ldx (hz fun e => { e with ix := 0x0D }) 5 8 16 0
            , .ldk h0 0 8 16 0, .stk (hz fun e => { e with ix := 8 }) 5 8 16 0
            , .atomS h0 13 8 16 1, .atomS (hz fun e => { e with wo := true, aw := 5 }) 0 8 16 1
            , .atomX (hz fun e => { e with wo := true, aw := 6 }) 10 8 16 1
            , .red h0 11 8 1, .red (hz fun e => { e with dh := 1 }) 0 8 1 ] = true := by decide

/-- 04 R87 and 04 R83: formats E and Q take no override and no ix, waits no chain, and some no predicate. -/
theorem test_refuses_engine :
    refused [ .copy (hz fun e => { e with ix := 1 }) 8 16 1 default, .tmap (hz fun e => { e with dh := 1 }) 8 1
            , .bararr (hz fun e => { e with ah := 1 }) 8 1, .barwait hc 8 1, .fence h0 5
            , .fetchw (hz fun e => { e with ah := 1 }) 1, .sleepuntil hc 8 16 1
            , .mma (hz fun e => { e with ix := 1 }) 8 16 1 0 false
            , .mmagA (hz fun e => { e with dh := 1 }) 8 1 0 1, .mmagK (hz fun e => { e with ah := 1 }) 8 1 0 false 1
            , .mwait hc 8, .tld (hz fun e => { e with ah := 1 }) 8 0 1
            , .tzero (hz fun e => { e with dh := 1 }) 0 ] = true := by decide

theorem test_refuses_sequencer :
    refused [ .span hc 0, .jmp (hz fun e => { e with ah := 1 }) 0, .brx (hz fun e => { e with dh := 1 }) 8
            , .next (hz fun e => { e with pe := true }), .next hc, .kand (hz fun e => { e with pe := true }) 1 2 3
            , .kpop (hz fun e => { e with dh := 1 }) 1 8, .csrr (hz fun e => { e with ah := 1 }) 8 0
            , .csrw (hz fun e => { e with pe := true }) 8 2, .logw (hz fun e => { e with pe := true }) 8 16
            , .mark (hz fun e => { e with dh := 1 }), .brk hc 1 ] = true := by decide

/-- 04 R371: the checks that the entries make on the fields of their words. -/
theorem test_refuses_entry :
    refused [ .shl (hz fun e => { e with wo := true, aw := 5, bw := 5, sa := true }) 5 8 16 24
            , .shri (hz fun e => { e with wo := true, aw := 5, sa := true }) 5 8 16 false 1
            , .iabs (hz fun e => { e with wo := true, aw := 5 }) 5 8 16
            , .tag h0 5 8 12, .wrsp h0 5 8 0x00, .cvt h0 0 8 16 3 2, .cvt h0 9 8 16 10 1
            , .copy h0 12 16 1 default, .tsts h0 12 0 1, .kmovFromCell h0 1 12
            , .csrr h0 8 0x28, .csrw h0 8 0x00 ] = true := by decide

/-- 04 R88: the TAIL of COPYT and of ROUTE. -/
theorem test_refuses_tail :
    refused [ .copyt h0 8 16 1 0 default, .copyt h0 8 16 1 5 default
            , .route h0 8 16 { km1 := 3, dm1 := 2, bq := 0, boff := 0 } ] = true := by decide

/-! ## Witnesses: the register families -/

/-- WordChecksFirst: width code 7 is reserved, GRET at user privilege, and an operand past the slice budget. -/
theorem witness_WordChecksFirst :
    Issuing (on base) issue0 [see base] ∧
      (∃ m, meaningOf (.iadd h0 7 0 0 0 false) = some m) ∧ (Instr.iadd h0 7 0 0 0 false).wf = false ∧
      (∃ m, meaningOf (.gret h0) = some m ∧ (Instr.gret h0).wf = true ∧ m.illegal (see base) = true) ∧
      (∃ m, meaningOf (.iadd (hx { Ext.zero with dh := 3 }) 5 127 0 0 false) = some m ∧
        (Instr.iadd (hx { Ext.zero with dh := 3 }) 5 127 0 0 false).wf = true ∧ m.illegal (see base) = false ∧
        ¬ InBudget [see base] m.spans) := by
  refine ⟨base_issuing, ⟨_, rfl⟩, by decide, ⟨_, rfl, by decide, by decide +kernel⟩, _, rfl, by decide, by decide +kernel, ?_⟩
  unfold InBudget
  decide +kernel

/-- NopWord: an item before a NOP in its packet. -/
theorem witness_NopWord :
    Issuing (on base) issue0 [see base] ∧ (0x6A000000 : Word).isNop = true ∧ (0x6A000001 : Word).isNop = true ∧
      (0x6A000001 : Word).field 0 21 ≠ 0 ∧ (0x7E000000 : Word).major = 0x3F ∧
      (∃ it ∈ chainItems [0x7E000000, 0x6A000000, 0x6A000000] 0 3, it.failing.isSome = true) ∧
      (∃ it ∈ chainItems [0xEA000000, 0x6A000000, 0x6A000000] 0 3, it.instr = some (.nop true) ∧ it.start + it.len < 3) ∧
      (∃ it ∈ chainItems [0xEA000000, 0xEA000000, 0x6A000000] 0 3,
        it.instr = some (.nop false) ∧ it.chain = false ∧ it.start + it.len = 3) :=
  ⟨base_issuing, by decide, by decide, by decide, by decide, by decide +kernel, by decide +kernel, by decide +kernel⟩

/-- IntegerResults: IADD at the last slices of the budget, SHFL and SHFLP. -/
theorem witness_IntegerResults :
    Issuing (on base) issue0 [see base] ∧
      (∃ op, integerResult (.iadd (hx { Ext.zero with dh := 3 }) 5 120 8 16 false) = some op ∧
        (Instr.iadd (hx { Ext.zero with dh := 3 }) 5 120 8 16 false).wf = true ∧
        InBudget [see base] (op.srcs ++ [(op.d, op.w / 4)])) ∧
      (∃ op, exchangeResult (.shfl h0 5 0 8 16) = some op ∧ (Instr.shfl h0 5 0 8 16).wf = true ∧
        InBudget [see base] (op.srcs ++ [(op.d, op.w / 4)])) ∧
      (Instr.shflp h0 5 0 8 16).wf = true ∧
      InBudget [see base] [(h0.a 8, widthOf 5 / 4), (h0.b 16, h0.widthB 5 / 4), (h0.d 0, widthOf 5 / 4)] :=
  ⟨base_issuing, ⟨_, rfl, by decide, budget_of (by decide +kernel)⟩, ⟨_, rfl, by decide, budget_of (by decide +kernel)⟩,
    by decide, budget_of (by decide +kernel)⟩

/-- CompareAndVote: ICMP, VOTE.ANY, VOTE.BAL and NZSCAN. -/
theorem witness_CompareAndVote :
    Issuing (on base) issue0 [see base] ∧
      (∃ srcs k f, compareResult (.icmp h0 5 2 2 8 16) = some (srcs, k, f) ∧ (Instr.icmp h0 5 2 2 8 16).wf = true ∧
        InBudget [see base] srcs) ∧
      (∃ srcs k f, voteResult (.voteAny h0 5 1 8) = some (srcs, k, f) ∧ (Instr.voteAny h0 5 1 8).wf = true ∧
        InBudget [see base] srcs) ∧
      ((Instr.voteBal h0 5 1 8).wf = true ∧ InBudget [see base] [(h0.a 8, widthOf 5 / 4)]) ∧
      (Instr.nzscan h0 5 0 8 1).wf = true ∧ InBudget [see base] [(h0.a 8, widthOf 5 / 4), (h0.d 0, 2 * (widthOf 5 / 4))] :=
  ⟨base_issuing, ⟨_, _, _, rfl, by decide, budget_of (by decide +kernel)⟩,
    ⟨_, _, _, rfl, by decide, budget_of (by decide +kernel)⟩, ⟨by decide, budget_of (by decide +kernel)⟩,
    by decide, budget_of (by decide +kernel)⟩

/-- FloatResults: FADD.f32 and RSQRT.f32. -/
theorem witness_FloatResults :
    Issuing (on base) issue0 [see base] ∧
      (∃ op, floatResult (.fadd h0 0 0 8 16) = some op ∧ (Instr.fadd h0 0 0 8 16).wf = true ∧
        InBudget [see base] (op.srcs ++ [(op.d, op.w / 4)])) ∧
      (∃ op, floatResult (.rsqrt h0 0 0 8) = some op ∧ (Instr.rsqrt h0 0 0 8).wf = true ∧
        InBudget [see base] (op.srcs ++ [(op.d, op.w / 4)])) :=
  ⟨base_issuing, ⟨_, rfl, by decide, budget_of (by decide +kernel)⟩, _, rfl, by decide, budget_of (by decide +kernel)⟩

/-- A device whose cell 1 holds U 4095, the greatest %link, and cell 2 U 32, the longest segment. -/
def specials : Device := cells base [(1, .u 4095), (2, .u 32)]

/-- SpecialWrites: the greatest values of %link and %seg. -/
theorem witness_SpecialWrites :
    Issuing (on specials) issue0 [see specials] ∧
      (Instr.wrsp h0 5 8 0x02).wf = true ∧ InBudget [see specials] [(h0.a 8, widthOf 5 / 4)] ∧
      (∀ v ∈ activeOnce (.wrsp h0 5 8 0x02) [see specials],
        specialInRange v (0x02 : BitVec 5).toNat (v.readLowest (v.active h0) (h0.a 8) (widthOf 5))) ∧
      (Instr.wrsp h0 5 16 0x0A).wf = true ∧
      (∀ v ∈ actives (.wrsp h0 5 16 0x0A) [see specials],
        specialInRange v (0x0A : BitVec 5).toNat (v.readLowest (v.active h0) (h0.a 16) (widthOf 5))) ∧
      activeOnce (.wrsp h0 5 8 0x02) [see specials] ≠ [] := by
  refine ⟨on_issuing _ (by decide +kernel), by decide, budget_of (by decide +kernel), ?_, by decide, ?_, by decide +kernel⟩
  · intro v hv
    rw [once_head hv]
    show _ < _
    decide +kernel
  · intro v hv
    rw [see_head (List.mem_of_mem_filter hv)]
    refine ⟨?_, ?_⟩
    · decide +kernel
    · decide +kernel

/-! ## Witnesses: memory -/

/-- Lane i's address 65408 + 4i, in cell 1: the last word of the shared memory in lane 31. -/
def addressed : Device := cells base [(1, .a 65408 4)]

theorem addressed_issuing : Issuing (on addressed) issue0 [see addressed] := on_issuing _ (by decide +kernel)

/-- The same with a scratchpad region of the context. -/
def inSpad : Device :=
  ctx addressed (fun c => { c with regions :=
    [{ kind := 3, sub := 0, sec := false, r := true, w := true, size := 65536, base := 0, phys := 0, handle := none, bytes := [] }] })

/-- LoadsAndStores: LDS and STS to the end of the shared memory, LDX and STX to the end of a scratchpad region, and CBLD. -/
theorem witness_LoadsAndStores :
    Issuing (on addressed) issue0 [see addressed] ∧
      (∃ x, loadOf (.lds h0 5 16 8 0) = some x ∧ (Instr.lds h0 5 16 8 0).wf = true ∧ InBudget [see addressed] x.spans ∧
        ∀ v ∈ actives (.lds h0 5 16 8 0) [see addressed],
          Passes v (Instr.lanes (.lds h0 5 16 8 0) v) x.n x.n (x.ea v) (x.from v) hitsLoad ∧
            IntactAt v.dev (Instr.lanes (.lds h0 5 16 8 0) v) x.n (x.from v)) ∧
      (∃ x, storeOf (.sts h0 5 16 8 0) = some x ∧ (Instr.sts h0 5 16 8 0).wf = true ∧ InBudget [see addressed] x.spans ∧
        ∀ v ∈ actives (.sts h0 5 16 8 0) [see addressed],
          Passes v (Instr.lanes (.sts h0 5 16 8 0) v) x.n x.n (x.ea v) (x.into v) hitsStore) ∧
      actives (.lds h0 5 16 8 0) [see addressed] ≠ [] ∧ actives (.sts h0 5 16 8 0) [see addressed] ≠ [] := by
  refine ⟨addressed_issuing, ⟨_, rfl, by decide, budget_of (by decide +kernel), ?_⟩,
    ⟨_, rfl, by decide, budget_of (by decide +kernel), ?_⟩, by decide +kernel, by decide +kernel⟩
  · intro v hv
    rw [see_head (List.mem_of_mem_filter hv)]
    exact ⟨passes_of (by decide +kernel), intact_of (by decide +kernel) _ _ _⟩
  · intro v hv
    rw [see_head (List.mem_of_mem_filter hv)]
    exact passes_of (by decide +kernel)

theorem witness_LoadsAndStores_spad :
    Issuing (on inSpad) issue0 [see inSpad] ∧
      (∃ x, loadOf (.ldx h0 5 16 8 0) = some x ∧ (Instr.ldx h0 5 16 8 0).wf = true ∧ InBudget [see inSpad] x.spans ∧
        ∀ v ∈ actives (.ldx h0 5 16 8 0) [see inSpad],
          Passes v (Instr.lanes (.ldx h0 5 16 8 0) v) x.n x.n (x.ea v) (x.from v) hitsLoad ∧
            IntactAt v.dev (Instr.lanes (.ldx h0 5 16 8 0) v) x.n (x.from v)) ∧
      (∃ x, storeOf (.stx h0 5 16 8 0) = some x ∧ (Instr.stx h0 5 16 8 0).wf = true ∧ InBudget [see inSpad] x.spans ∧
        ∀ v ∈ actives (.stx h0 5 16 8 0) [see inSpad],
          Passes v (Instr.lanes (.stx h0 5 16 8 0) v) x.n x.n (x.ea v) (x.into v) hitsStore) := by
  refine ⟨on_issuing _ (by decide +kernel), ⟨_, rfl, by decide, budget_of (by decide +kernel), ?_⟩,
    ⟨_, rfl, by decide, budget_of (by decide +kernel), ?_⟩⟩
  · intro v hv
    rw [see_head (List.mem_of_mem_filter hv)]
    exact ⟨passes_of (by decide +kernel), intact_of (by decide +kernel) _ _ _⟩
  · intro v hv
    rw [see_head (List.mem_of_mem_filter hv)]
    exact passes_of (by decide +kernel)

theorem witness_LoadsAndStores_codebook :
    Issuing (on base) issue0 [see base] ∧ (Instr.cbld h0 8 false).wf = true ∧ InBudget [see base] [(h0.a 8, 8)] ∧
      activeOnce (.cbld h0 8 false) [see base] ≠ [] ∧
      ∀ v ∈ activeOnce (.cbld h0 8 false) [see base],
        v.isU (h0.a 8) 32 = true ∧ v.readLowest (v.active h0) (h0.a 8) 32 % 32 = 0 ∧
          ∃ p, v.shared (v.readLowest (v.active h0) (h0.a 8) 32) 32 = some p ∧
            v.dev.meetsLock p 32 v.grp.core hitsLoad = false ∧ v.dev.lostIn p.space p.addr 32 = none := by
  refine ⟨base_issuing, by decide, budget_of (by decide +kernel), by decide +kernel, ?_⟩
  intro v hv
  rw [once_head hv]
  exact ⟨by decide +kernel, by decide +kernel, _, rfl, by decide +kernel, lostIn_none (by decide +kernel) _ _ _⟩

/-- Page tables at 0x200000 that map the page at 0x100000 to the HBM page at 0 (17 R290, Table 17-2). -/
def pageTables : Memory :=
  [(0x200000, 1), (0x200002, 0x40), (0x400000, 1), (0x400001, 0x10), (0x400002, 0x40), (0x401000, 1), (0x401001, 0x20),
   (0x401002, 0x40), (0x402080, 0x0F)]

/-- A device with spill areas at 0x100000 in a page that the translation unit of die 0 holds. -/
def spill (d : Device) : Device :=
  { ctx d (fun c => { c with root := 0x200000, regions :=
      [{ kind := 4, sub := 0, sec := false, r := true, w := true, size := 65536, base := 0x100000, phys := 0, handle := none,
         bytes := [] }] }) with
    hbm := pageTables, tlb := [{ die := 0, ctx := 0, page := 16, leaf := 0x0F, shift := 16 }] }

/-- The small machine with its spill areas. -/
def spilled : Device := spill base

theorem spilled_walk (a : Nat) (h : a / 65536 = 16) :
    walkFrom spilled a (spilled.ctx 0).root.toNat true walkLevels = .ok (15, 16) := by
  have h3 : bitsN a 39 18 = 0 := by simp only [bitsN]; omega
  have h2 : bitsN a 30 9 = 0 := by simp only [bitsN]; omega
  have h1 : bitsN a 21 9 = 0 := by simp only [bitsN]; omega
  have h0 : bitsN a 16 5 = 16 := by simp only [bitsN]; omega
  simp only [walkLevels, walkFrom, h3, h2, h1, h0]
  decide +kernel

theorem spilled_translate (a : Nat) (w : Bool) (h : a / 65536 = 16) :
    spilled.translate 0 0 a w = .ok ({ dev := 0, addr := a % 65536 }, spilled) := by
  have ht : spilled.tlb = [{ die := 0, ctx := 0, page := 16, leaf := 0x0F, shift := 16 }] := rfl
  have hs : (spilled.ctx 0).sec = false := by decide +kernel
  have hl : ∀ w, useLeaf spilled false (15 : BitVec 64).toNat 16 a w = .ok { dev := 0, addr := a % 65536 } := by
    intro w
    have hb : bitN 15 (if w = true then 3 else 2) = true := by cases w <;> decide
    have hw : (bitN 15 4 != false) = false := by decide
    have hz : bitsN 15 56 7 = 0 ∧ bitsN 15 8 48 = 0 := by decide
    simp [useLeaf, hb, hw, hz]
  unfold Device.translate
  simp only [ht, h, spilled_walk a h, hs]
  show (if (true || _) = true then Except.map (·, spilled) (useLeaf spilled false (15 : BitVec 64).toNat 16 a w) else _) = _
  rw [hl]
  rfl

theorem spilled_issuing : Issuing (on spilled) issue0 [see spilled] := on_issuing _ (by decide +kernel)

/-- StackAccess: the first word of every lane's stack. -/
theorem witness_StackAccess :
    Issuing (on spilled) issue0 [see spilled] ∧ (Instr.ldk h0 5 16 8 0).wf = true ∧ (Instr.stk h0 5 16 8 0).wf = true ∧
      InBudget [see spilled] [(h0.a 8, 8), (h0.d 16, widthOf 5 / 4)] ∧
      (∀ v ∈ [see spilled], StackFits h0 5 8 0 v (v.active h0)) ∧
      (∀ v ∈ [see spilled], ∀ j, j < 32 → hasLane (v.active h0) j = true → ∀ k, k < widthOf 5 / 8 →
        Claims.Cached spilled v false (stackByte v j (stackOffset h0 5 8 0 v j + k))
          { dev := 0, addr := stackByte v j (stackOffset h0 5 8 0 v j + k) % 65536 }) ∧
      (∀ v ∈ [see spilled], ∀ x ∈ stackPlaces h0 5 8 0 v, spilled.lostIn (.phys 0) (x.2.addr % 65536) 1 = none) ∧
      (∀ v ∈ [see spilled], ∀ j, j < 32 → hasLane (v.active h0) j = true → ∀ x ∈ stackCells h0 5 16 8 0 v j,
        Claims.Cached spilled v true x.1 { dev := 0, addr := x.1 % 65536 }) := by
  have die : dieOf (see spilled).grp.core = 0 ∧ (see spilled).c = 0 := by decide +kernel
  have page : ∀ j < 32, ∀ k < 4, stackByte (see spilled) j (stackOffset h0 5 8 0 (see spilled) j + k) / 65536 = 16 := by
    decide +kernel
  refine ⟨spilled_issuing, by decide, by decide, budget_of (by decide +kernel), ?_, ?_,
    fun _ _ _ _ => lostIn_none (by decide +kernel) _ _ _, ?_⟩
  · intro v hv
    rw [see_head hv]
    unfold StackFits
    decide +kernel
  · intro v hv j hj _ k hk
    rw [see_head hv]
    unfold Claims.Cached
    rw [die.1, die.2]
    exact spilled_translate _ _ (page j hj k hk)
  · intro v hv j hj _ x hx
    rw [see_head hv] at hx ⊢
    obtain ⟨k, hk, rfl⟩ := List.mem_map.mp hx
    unfold Claims.Cached
    rw [die.1, die.2]
    exact spilled_translate _ _ (page j hj k (List.mem_range.mp hk))

/-- A device whose cell 1 holds an address that is misaligned, cell 2 one past the shared memory, cell 3 one that a write
lock covers, with that lock. -/
def failingPlaces : Device :=
  { cells base [(1, .u 2), (2, .u 65536), (3, .u 64)] with
    locks := [{ core := 0, space := .shared 0 0, lo := 64, hi := 95, kind := .write, owner := .request 9 }] }

/-- AccessTrapsInOrder: each of the three traps, of a load and of a store. -/
theorem witness_AccessTrapsInOrder :
    Issuing (on failingPlaces) issue0 [see failingPlaces] ∧
      (∃ x, loadOf (.lds h0 5 32 8 0) = some x ∧ (Instr.lds h0 5 32 8 0).wf = true ∧ InBudget [see failingPlaces] x.spans ∧
        failing (Instr.lanes (.lds h0 5 32 8 0) (see failingPlaces)) (fun j => decide (x.ea (see failingPlaces) j % x.n ≠ 0)) ≠ 0) ∧
      (∃ x, storeOf (.sts h0 5 32 16 0) = some x ∧ (Instr.sts h0 5 32 16 0).wf = true ∧ InBudget [see failingPlaces] x.spans ∧
        failing (Instr.lanes (.sts h0 5 32 16 0) (see failingPlaces)) (fun j => decide (x.ea (see failingPlaces) j % x.n ≠ 0)) = 0 ∧
        failing (Instr.lanes (.sts h0 5 32 16 0) (see failingPlaces)) (fun j => (x.into (see failingPlaces) j).isNone) ≠ 0) ∧
      (∃ x, loadOf (.lds h0 5 32 24 0) = some x ∧ (Instr.lds h0 5 32 24 0).wf = true ∧ InBudget [see failingPlaces] x.spans ∧
        failing (Instr.lanes (.lds h0 5 32 24 0) (see failingPlaces)) (fun j => decide (x.ea (see failingPlaces) j % x.n ≠ 0)) = 0 ∧
        failing (Instr.lanes (.lds h0 5 32 24 0) (see failingPlaces)) (fun j => (x.from (see failingPlaces) j).isNone) = 0 ∧
        failing (Instr.lanes (.lds h0 5 32 24 0) (see failingPlaces)) (fun j =>
          match x.from (see failingPlaces) j with
          | some p => (see failingPlaces).dev.meetsLock p x.n (see failingPlaces).grp.core hitsLoad
          | none => false) ≠ 0) :=
  ⟨on_issuing _ (by decide +kernel), ⟨_, rfl, by decide, budget_of (by decide +kernel), by decide +kernel⟩,
    ⟨_, rfl, by decide, budget_of (by decide +kernel), by decide +kernel, by decide +kernel⟩,
    _, rfl, by decide, budget_of (by decide +kernel), by decide +kernel, by decide +kernel, by decide +kernel⟩

/-- AtomicsInLaneOrder: an integer ATOM.S and a float RED outside ordered reduction. -/
theorem witness_AtomicsInLaneOrder :
    Issuing (on inSpad) issue0 [see inSpad] ∧
      (∃ x, atomicOf (.atomS h0 0 16 8 3) = some x ∧ (Instr.atomS h0 0 16 8 3).wf = true ∧ InBudget [see inSpad] x.spans ∧
        ∀ v ∈ [see inSpad], Quiet inSpad v ∧ (x.reads = true ∨ x.o = 10 → x.float = true → v.ctx.ordr = false) ∧
          Passes v (Instr.lanes (.atomS h0 0 16 8 3) v) (x.w / 8) (x.w / 8) (fun j => v.read j x.a 32 % 2 ^ 32) (x.place v)
            hitsStore ∧ IntactAt inSpad (Instr.lanes (.atomS h0 0 16 8 3) v) (x.w / 8) (x.place v)) ∧
      (∃ x, atomicOf (.red h0 8 8 3) = some x ∧ (Instr.red h0 8 8 3).wf = true ∧ InBudget [see inSpad] x.spans ∧
        ∀ v ∈ [see inSpad], Quiet inSpad v ∧ (x.reads = true ∨ x.o = 10 → x.float = true → v.ctx.ordr = false) ∧
          Passes v (Instr.lanes (.red h0 8 8 3) v) (x.w / 8) (x.w / 8) (fun j => v.read j x.a 32 % 2 ^ 32) (x.place v)
            hitsStore ∧ IntactAt inSpad (Instr.lanes (.red h0 8 8 3) v) (x.w / 8) (x.place v)) := by
  refine ⟨on_issuing _ (by decide +kernel), ⟨_, rfl, by decide, budget_of (by decide +kernel), ?_⟩,
    ⟨_, rfl, by decide, budget_of (by decide +kernel), ?_⟩⟩ <;>
  · intro v hv
    rw [see_head hv]
    exact ⟨⟨by decide +kernel, by decide +kernel⟩, fun _ _ => by decide +kernel, passes_of (by decide +kernel),
      intact_of (by decide +kernel) _ _ _⟩

/-- The scratchpad device under ordered reduction. -/
def ordered : Device := ctx inSpad (fun c => { c with ordr := true })

/-- OrderedReduction: a float ATOM.X and RED.FADD. -/
theorem witness_OrderedReduction :
    Issuing (on ordered) issue0 [see ordered] ∧ (see ordered).ctx.ordr = true ∧ (see ordered).active h0 ≠ 0 ∧
      (∃ x, atomicOf (.atomX h0 10 16 8 3) = some x ∧ (Instr.atomX h0 10 16 8 3).wf = true ∧ x.float = true ∧ x.reads = true) ∧
      (∃ x, atomicOf (.red h0 8 8 3) = some x ∧ (Instr.red h0 8 8 3).wf = true ∧ InBudget [see ordered] x.spans ∧
        Passes (see ordered) ((see ordered).active h0) 4 4 (fun j => (see ordered).read j x.a 32 % 2 ^ 32) (x.place (see ordered))
          hitsStore ∧ IntactAt ordered ((see ordered).active h0) 4 (x.place (see ordered))) ∧ List.Perm [1, 2] [2, 1] :=
  ⟨on_issuing _ (by decide +kernel), by decide +kernel, by decide +kernel, ⟨_, rfl, by decide, by decide, by decide⟩,
    ⟨_, rfl, by decide, budget_of (by decide +kernel), passes_of (by decide +kernel), intact_of (by decide +kernel) _ _ _⟩,
    .swap 2 1 []⟩

/-! ## Witnesses: the sequencer -/

/-- MasksSleepYield. -/
theorem witness_MasksSleepYield :
    Issuing (on base) issue0 [see base] ∧
      (∃ k f, maskResult (.elect h0 7) = some (k, f) ∧ (Instr.elect h0 7).wf = true) ∧
      ((Instr.kmovFromCell h0 7 8).wf = true ∧ InBudget [see base] [(h0.a 8, 8)] ∧
        ∀ v ∈ [see base], v.isU (h0.a 8) 32 = true) ∧
      (∃ d val, maskToSlices (.kpop h0 0 8) = some (d, val) ∧ (Instr.kpop h0 0 8).wf = true ∧ InBudget [see base] [(d, 8)]) ∧
      (Instr.sleep h0 0x1FFFFF).wf = true ∧ (Instr.sleep h0 0).wf = true ∧ (Instr.yield h0).wf = true :=
  ⟨base_issuing, ⟨_, _, rfl, by decide⟩,
    ⟨by decide, budget_of (by decide +kernel), fun v hv => by rw [see_head hv]; decide +kernel⟩,
    ⟨_, _, rfl, by decide, budget_of (by decide +kernel)⟩, by decide, by decide, by decide⟩

/-- SpanAndTerminators: SPAN of the state's block and JMP to the last block of the kernel; SPAN and JMP past it. -/
theorem witness_SpanAndTerminators :
    Issuing (on base) issue0 [see base] ∧
      ((Instr.span h0 0).wf = true ∧ ∀ v ∈ [see base],
        isBlock v (0 : BitVec 12).toNat ∧ ∃ r, v.auto.states[v.slot.state.toNat]? = some r ∧ (0 : BitVec 12) ∈ r.set) ∧
      (∃ x, terminatorOf (.jmp h0 0) = some x ∧ (Instr.jmp h0 0).wf = true ∧ InBudget [see base] x.srcs ∧
        ∀ v ∈ [see base], x.ok v) ∧
      (∃ x, terminatorOf (.brx h0 8) = some x ∧ (Instr.brx h0 8).wf = true ∧ InBudget [see base] x.srcs ∧
        ∀ v ∈ [see base], x.ok v) ∧
      ((Instr.span h0 1).wf = true ∧ ¬ isBlock (see base) (1 : BitVec 12).toNat) ∧
      (∃ x, terminatorOf (.jmp h0 1) = some x ∧ (Instr.jmp h0 1).wf = true ∧ InBudget [see base] x.srcs ∧ ¬ x.ok (see base)) := by
  refine ⟨base_issuing, ⟨by decide, ?_⟩, ⟨_, rfl, by decide, budget_of (by decide +kernel), ?_⟩,
    ⟨_, rfl, by decide, budget_of (by decide +kernel), ?_⟩, ⟨by decide, ?_⟩, _, rfl, by decide, budget_of (by decide +kernel), ?_⟩
  · intro v hv
    rw [see_head hv]
    exact ⟨by unfold isBlock; decide +kernel, _, rfl, by decide +kernel⟩
  · intro v hv
    rw [see_head hv]
    show _ < _
    decide +kernel
  · intro v hv
    rw [see_head hv]
    show ∀ j, j < 32 → _ → _ < _
    decide +kernel
  · unfold isBlock
    decide +kernel
  · show ¬ _ < _
    decide +kernel

/-- NextTakesState: every lane in block 0, whose one-block state the automaton holds. -/
theorem witness_NextTakesState :
    (Instr.next h0).wf = true ∧ Issuing (on base) issue0 [see base] ∧ (on base).latch = none ∧
      ∃ sl, (seqOf [see base]).slot issue0.slot = some sl ∧
        without sl.mask (seqOf [see base]).exited ≠ 0 ∧ sl.base.join = none ∧
        ∃ r, (see base).auto.states[sl.base.state.toNat]? = some r ∧
          r.direct ((seqOf [see base]).setOf (without sl.mask (seqOf [see base]).exited)) = some (some 0) :=
  ⟨by decide, base_issuing, rfl, _, rfl, by decide +kernel, by decide +kernel, _, rfl, by decide +kernel⟩

/-- Every lane exited. -/
def exited : Device := grp base (fun g => { g with exited := 0xFFFFFFFF })

/-- Lanes 0 to 15 in block 0 and the others in block 1, in a kernel whose automaton has a state for each alone. -/
def apart : Device :=
  kern (grp base (fun g => { g with lbr := (List.range 32).map (fun j => if j < 16 then 0 else 1) })) (fun k => { k with
    blocks := [{ join := false, fall := 0, single := 0 }, { join := false, fall := 0, single := 1 }]
    states := [{ code := [], join := none, cands := [0, 1], set := [0], succ := [(1, 0), (2, 1)] },
               { code := [], join := none, cands := [0, 1], set := [1], succ := [(1, 0), (2, 1)] }] })

/-- NextRetiresAndSplits. -/
theorem witness_NextRetiresAndSplits :
    (Instr.next h0).wf = true ∧
      (Issuing (on exited) issue0 [see exited] ∧ (see exited).library = false ∧ (see exited).agent.depth = 0 ∧
        ((see exited).grp.slot (!issue0.slot)).isNone = true ∧ (see exited).grp.agent0.depth = 0 ∧
        (see exited).grp.agent1.depth = 0 ∧
        (see exited).slot.mask &&& ~~~((see exited).grp.exited &&& (see exited).frameLanes) = 0) ∧
      (Issuing (on apart) issue0 [see apart] ∧ (see apart).kern.wmode ≠ 0 ∧
        ((see apart).grp.slot (!issue0.slot)).isNone = true ∧ (see apart).slot.join = none ∧
        ∃ r, (see apart).auto.states[(see apart).slot.state.toNat]? = some r ∧ r.join = none ∧
          (seqOf [see apart]).setOf (without (see apart).slot.mask.toNat (seqOf [see apart]).exited) = 0 :: 1 :: [] ∧
          r.direct (0 :: 1 :: []) = some none ∧ (see apart).auto.lookup (0 :: 1 :: []) = none ∧
          (see apart).auto.lookup ((seqOf [see apart]).setOf (without
            (without (see apart).slot.mask.toNat (seqOf [see apart]).exited)
            ((seqOf [see apart]).inBlocks (without (see apart).slot.mask.toNat (seqOf [see apart]).exited) [0]))) = some 1) :=
  ⟨by decide,
    ⟨on_issuing _ (by decide +kernel), by decide +kernel, by decide +kernel, by decide +kernel, by decide +kernel,
      by decide +kernel, by decide +kernel⟩,
    on_issuing _ (by decide +kernel), by decide +kernel, by decide +kernel, by decide +kernel, _, rfl, by decide +kernel,
    by decide +kernel, by decide +kernel, by decide +kernel, by decide +kernel⟩

/-! ## Witnesses: gates and traps -/

/-- A machine whose gate entries 0 and 3 lead to a library. -/
def gated : Device :=
  ctx (withGate spilled 3) (fun c => { c with gates := c.gates ++ [(0, BitVec.ofNat 64 (2 ^ 63 + 2 * 2 ^ 40))] })

theorem gated_issuing : Issuing (on gated) issue0 [see gated] := on_issuing _ (by decide +kernel)

/-- The same in width mode 64: a paired group whose lower hardware group issues. -/
def pairedUp : Device :=
  kern ({ gated with wgs := gated.wgs.map (fun w => { w with
    groups := w.groups.map (fun g => { g with pair := some false }) ++
      w.groups.map (fun g => { g with index := 1, rslot := 1, pair := some true }) }) })
    (fun k => { k with wmode := 2 })

/-- The two hardware groups of the pair. -/
def pairViews : List View := viewsOf pairedUp issue0

theorem pairedUp_issuing : Issuing (on pairedUp) issue0 pairViews :=
  ⟨rfl, rfl, fun h => absurd (congrArg List.length h) (by decide +kernel),
    fun _ _ _ => not_lost (d := (on pairedUp).dev) (by decide +kernel) _⟩

/-- GateEntersOrTraps: GATE #3 of a group and of a pair; GATE #0 and GATE #4, which no entry serves. -/
theorem witness_GateEntersOrTraps :
    (Instr.gate h0 3).wf = true ∧ (3 : BitVec 8) ≠ 0 ∧
      (Issuing (on gated) issue0 [see gated] ∧
        (∀ u ∈ [see gated], u.library = false ∧ (u.gateEntry (3 : BitVec 8).toNat).isSome = true ∧
          u.agent.depth + 7 ≤ u.kern.dstack) ∧
        actives (.gate h0 3) [see gated] ≠ [] ∧ ((see gated).gateEntry (3 : BitVec 8).toNat).isSome = true ∧
        ∃ d, (on gated).dev.mainWrite (dieOf (see gated).grp.core) (see gated).c ((see gated).entryAddr (see gated).agent.depth)
          ((see gated).frame issue0.next).bytes = .ok d) ∧
      (pairViews.length = 2 ∧ (∀ u ∈ pairViews, u.library = false ∧ (u.gateEntry (3 : BitVec 8).toNat).isSome = true ∧
          u.agent.depth + 7 ≤ u.kern.dstack) ∧ actives (.gate h0 3) pairViews ≠ []) ∧
      (Issuing (on gated) issue0 [see gated] ∧ (Instr.gate h0 4).wf = true ∧ (see gated).gateEntry (4 : BitVec 8).toNat = none) := by
  refine ⟨by decide, by decide, ⟨gated_issuing, ?_, by decide +kernel, by decide +kernel, ok_of (by decide +kernel)⟩,
    ⟨by decide +kernel, by decide +kernel, by decide +kernel⟩, gated_issuing, by decide, by decide +kernel⟩
  intro u hu
  rw [see_head hu]
  decide +kernel

/-- The machine in its library: the group entered at depth 0, with its frame of zeros in memory. -/
def inLibrary : Device :=
  agent spilled (fun a => { a with library := some { handle := 1, kernel := 0, lanes := 0xFFFFFFFF, depth := 0, frame := [] }
                                   depth := 7, trap := { a.trap with cause := 0x0C, resume := 12 } })

/-- The same after a DSTACK trap. -/
def afterDstack : Device := agent inLibrary (fun a => { a with trap := { a.trap with cause := 0x09 } })

/-- ReturnsRestoreFrame: GRET and TRET of a merged library; GRET at user privilege; TRET after DSTACK. -/
theorem witness_ReturnsRestoreFrame :
    (Instr.gret h0).wf = true ∧ (Instr.tret h0).wf = true ∧
      (Issuing (on inLibrary) issue0 [see inLibrary] ∧ (on inLibrary).latch = none ∧ (see inLibrary).library = true ∧
        View.unmerged [see inLibrary] = false ∧ (see inLibrary).agent.trap.cause ≠ 0x09 ∧
        chainBoundary ((see inLibrary).kern.code (see inLibrary).agent.trap.state) (see inLibrary).agent.trap.resume.toNat = true ∧
        ∃ r : List (BitVec 8) × Device, (on inLibrary).dev.mainRead (dieOf (see inLibrary).grp.core) (see inLibrary).c
          ((see inLibrary).entryAddr ((see inLibrary).agent.depth - 7)) 224 = .ok r ∧ (SeqRec.ofBytes r.1 false).isSome = true) ∧
      (Issuing (on spilled) issue0 [see spilled] ∧ (see spilled).library = false) ∧
      (Issuing (on afterDstack) issue0 [see afterDstack] ∧ (see afterDstack).library = true ∧
        View.unmerged [see afterDstack] = false ∧ (see afterDstack).agent.trap.cause = 0x09) := by
  refine ⟨by decide, by decide, ⟨on_issuing _ (by decide +kernel), rfl, by decide +kernel, by decide +kernel, by decide +kernel,
    by decide +kernel, ?_⟩, ⟨spilled_issuing, by decide +kernel⟩, on_issuing _ (by decide +kernel), by decide +kernel,
    by decide +kernel, by decide +kernel⟩
  have h : (match (on inLibrary).dev.mainRead (dieOf (see inLibrary).grp.core) (see inLibrary).c
      ((see inLibrary).entryAddr ((see inLibrary).agent.depth - 7)) 224 with
      | .ok r => (SeqRec.ofBytes r.1 false).isSome | .error _ => false) = true := by decide +kernel
  revert h
  cases (on inLibrary).dev.mainRead (dieOf (see inLibrary).grp.core) (see inLibrary).c
      ((see inLibrary).entryAddr ((see inLibrary).agent.depth - 7)) 224 with
  | ok r => exact fun h => ⟨r, rfl, h⟩
  | error _ => exact fun h => absurd h (by simp)

/-- TrapAndBreakpoint. -/
theorem witness_TrapAndBreakpoint :
    Issuing (on base) issue0 [see base] ∧ (Instr.trap h0 0xFFFF).wf = true ∧ (Instr.brk h0 0x1FFF).wf = true :=
  ⟨base_issuing, by decide, by decide⟩

/-- The trap of the witnesses: TRAP's. -/
def softTrap : Trap := { cause := 0x0C, detail := 5, lanes := none }

/-- TrapEntersLibrary: a group, and a pair. -/
theorem witness_TrapEntersLibrary :
    ((see gated).library = false ∧ (see gated).agent.depth + 7 ≤ (see gated).kern.dstack ∧
      ((see gated).gateEntry 0).isSome = true ∧
      ∃ d1, (gated.modGroup (see gated).wg.uid (see gated).g
        (withTrap (see gated) (trapOf (see gated) softTrap 0 ((see gated).active h0) issue0.next false))).mainWrite
          (dieOf (see gated).grp.core) (see gated).c ((see gated).entryAddr (see gated).agent.depth)
          ((see gated).frame issue0.next).bytes = .ok d1) ∧
    (∃ v u, pairViews = [v, u] ∧ v.library = false ∧ v.agent.depth + 7 ≤ v.kern.dstack ∧ (v.gateEntry 0).isSome = true ∧
      u.ctx = v.ctx) := by
  refine ⟨⟨by decide +kernel, by decide +kernel, by decide +kernel, ok_of (by decide +kernel)⟩, ?_⟩
  have h : (match pairViews with
      | [v, u] => !v.library && decide (v.agent.depth + 7 ≤ v.kern.dstack) && (v.gateEntry 0).isSome && decide (u.ctx = v.ctx)
      | _ => false) = true := by decide +kernel
  revert h
  cases pairViews with
  | nil => simp
  | cons v l =>
    cases l with
    | nil => simp
    | cons u l =>
      cases l with
      | nil => exact fun h => ⟨v, u, rfl, by simpa [and_assoc] using h⟩
      | cons _ _ => simp

/-- UndeliveredTrapEnds: a trap in a library, one with no room, and one with no entry 0; an active context. -/
theorem witness_UndeliveredTrapEnds :
    (see inLibrary).library = true ∧
      (see (kern gated (fun k => { k with dstack := 6 }))).kern.dstack < (see (kern gated (fun k => { k with dstack := 6 }))).agent.depth + 7 ∧
      (see base).gateEntry 0 = none ∧ (base.ctx 0).state = .active ∧
      ((ctx base (fun c => { c with state := .stopped })).ctx 0).state = .stopped :=
  ⟨by decide +kernel, by decide +kernel, by decide +kernel, by decide +kernel, by decide +kernel⟩

/-! ## Witnesses: the system family -/

/-- A library with a placement log of two records, the first of them not drained, and cell 1 holding 1. -/
def logging : Device :=
  cells (ctx inLibrary (fun c => { c with
    regions := c.regions ++ [{ kind := 7, sub := 0, sec := false, r := true, w := true, size := 64, base := 0x100000, phys := 0,
                               handle := none, bytes := [] }]
    logP := { c.logP with head := 1 } })) [(1, .u 1)]

/-- SystemRegisters: CSRR; CSRW of the resume field, of the placement log's tail up to its head, and of a log's tail without a
region; CSRW at user privilege. -/
theorem witness_SystemRegisters :
    Issuing (on logging) issue0 [see logging] ∧ (Instr.csrr h0 8 0x2E).wf = false ∧
      (Instr.csrr h0 8 0x00).wf = true ∧ InBudget [see logging] [(h0.d 8, 8)] ∧
      (Instr.csrw h0 8 0x02).wf = true ∧ (Instr.csrw h0 8 0x21).wf = true ∧ (Instr.csrw h0 16 0x23).wf = true ∧
      InBudget [see logging] [(h0.a 8, 8)] ∧ (∀ v ∈ [see logging], v.library = true) ∧
      (∀ v ∈ activeOnce (.csrw h0 8 0x21) [see logging], (v.ctx.region 7 0).isNone = false ∧
        (BitVec.ofNat 32 (v.readLowest (v.active h0) (h0.a 8) 32) - (v.ctx.log 0).tail).toNat ≤
          ((v.ctx.log 0).head - (v.ctx.log 0).tail).toNat) ∧
      (∀ v ∈ activeOnce (.csrw h0 16 0x23) [see logging], (v.ctx.region 7 1).isNone = true ∧
        BitVec.ofNat 32 (v.readLowest (v.active h0) (h0.a 16) 32) = 0) ∧
      Issuing (on base) issue0 [see base] ∧ (see base).library = false := by
  refine ⟨on_issuing _ (by decide +kernel), by decide, by decide, budget_of (by decide +kernel), by decide, by decide, by decide,
    budget_of (by decide +kernel), ?_, ?_, ?_, base_issuing, by decide +kernel⟩ <;>
  · intro v hv
    rw [see_head hv]
    decide +kernel

/-- A machine with a trace region. -/
def tracing : Device :=
  ctx spilled (fun c => { c with regions := c.regions ++
    [{ kind := 7, sub := 3, sec := false, r := true, w := true, size := 64, base := 0x100000, phys := 0, handle := none,
       bytes := [] }] })

/-- A launch record of one workgroup of 32 threads of the small machine's kernel, in cells 0 to 15. -/
def posting : Device :=
  cells base [(0, .u 1), (1, .u 0x00010000), (2, .u 1), (3, .u 1), (4, .u 1), (5, .u 1), (6, .u 32), (11, .u 77)]

/-- LogsAndPosts. -/
theorem witness_LogsAndPosts :
    (Instr.mark h0).wf = true ∧ (Instr.logw h0 8 16).wf = true ∧ (Instr.qpost h0 0).wf = true ∧
      (Issuing (on base) issue0 [see base] ∧ (∀ v ∈ [see base], v.ctx.logs 3 = false) ∧
        InBudget [see base] [(h0.a 16, 16), (h0.d 8, 16)] ∧
        ∀ v ∈ [see base], Quiet base v) ∧
      (Issuing (on tracing) issue0 [see tracing] ∧ ∀ v ∈ [see tracing], v.ctx.logs 3 = true ∧ v.ctx.logFull 3 false 1 = false) ∧
      (Issuing (on posting) issue0 [see posting] ∧ InBudget [see posting] [(8 * (0 : BitVec 6).toNat, 128)] ∧
        (see posting).active h0 ≠ 0 ∧ Quiet posting (see posting) ∧ (see posting).grp.pair ≠ some true ∧
        (∀ j, j < 16 → (see posting).isU (8 * (0 : BitVec 6).toNat + 8 * j) 32 = true) ∧
        ∃ r, launchOf (natToBytes ((see posting).readLowest ((see posting).active h0) (8 * (0 : BitVec 6).toNat) 512) 64) = some r ∧
          (see posting).dev.postOk (see posting).c r = true) := by
  refine ⟨by decide, by decide, by decide, ⟨base_issuing, ?_, budget_of (by decide +kernel), ?_⟩, ⟨on_issuing _ (by decide +kernel), ?_⟩,
    on_issuing _ (by decide +kernel), budget_of (by decide +kernel), by decide +kernel, ?_, by decide +kernel, by decide +kernel, ?_⟩
  · intro v hv
    rw [see_head hv]
    decide +kernel
  · intro v hv
    rw [see_head hv]
    unfold Quiet
    decide +kernel
  · intro v hv
    rw [see_head hv]
    decide +kernel
  · unfold Quiet
    decide +kernel
  · have h : (match launchOf (natToBytes ((see posting).readLowest ((see posting).active h0) (8 * (0 : BitVec 6).toNat) 512) 64) with
        | some r => (see posting).dev.postOk (see posting).c r
        | none => false) = true := by decide +kernel
    revert h
    cases launchOf (natToBytes ((see posting).readLowest ((see posting).active h0) (8 * (0 : BitVec 6).toNat) 512) 64) with
    | some r => exact fun h => ⟨r, rfl, h⟩
    | none => exact fun h => absurd h (by simp)

/-- Invalidations: TLBINV of the highest address, whose upper cell holds 0x01FFFFFF. -/
def invalidating : Device := cells inLibrary [(1, .u 0xFFFFFFFF), (2, .u 0x01FFFFFF)]

theorem witness_Invalidations :
    Issuing (on invalidating) issue0 [see invalidating] ∧ (Instr.icinv h0).wf = true ∧ (Instr.tlbinv h0 8).wf = true ∧
      (Instr.tlbinvAll h0).wf = true ∧ InBudget [see invalidating] [(h0.a 8, 16)] ∧
      (∀ v ∈ [see invalidating], v.library = true) ∧
      (∀ v ∈ activeOnce (.tlbinv h0 8) [see invalidating], v.readLowest (v.active h0) (h0.a 8) 64 < 2 ^ 57) ∧
      Issuing (on base) issue0 [see base] ∧ (see base).library = false := by
  refine ⟨on_issuing _ (by decide +kernel), by decide, by decide, by decide, budget_of (by decide +kernel), ?_, ?_, base_issuing,
    by decide +kernel⟩ <;>
  · intro v hv
    rw [see_head hv]
    decide +kernel

/-! ## Witnesses: barriers and waits -/

/-- The object at offset 0 of the shared memory. -/
def object0 : ObjRef := { wg := 0, q := 0, off := 0 }

/-- A machine whose object at offset 0 expects 3 arrivals, has 1, and is in phase 1 of the last generation. -/
def arriving : Device :=
  base.putNum (.shared 0 0) 0 8 (3 + 2 ^ 16 + 2 ^ 32 + (2 ^ 31 - 1) * 2 ^ 33)

/-- ArrivalFlipsPhase: an arrival below the count, and the one that reaches it, at the last generation. -/
theorem witness_ArrivalFlipsPhase :
    (arriving.wg object0.wg).isSome = true ∧
      ObjectIs ((arriving.settle object0.space object0.off 8 false).objectValue object0) 3 1 true (2 ^ 31 - 1) ∧ 1 + 1 < 3 ∧
      ((arriving.arrive object0 none).wg object0.wg).isSome = true ∧
      ObjectIs (((arriving.arrive object0 none).settle object0.space object0.off 8 false).objectValue object0) 3 2 true
        (2 ^ 31 - 1) ∧ ¬ 2 + 1 < 3 :=
  ⟨by decide +kernel, ⟨by decide +kernel, by decide +kernel, by decide +kernel, by decide +kernel⟩, by decide, by decide +kernel,
    ⟨by decide +kernel, by decide +kernel, by decide +kernel, by decide +kernel⟩, by decide⟩

/-- Cell 1 holds the greatest count and cell 2 the last object of the shared memory. -/
def counting : Device := cells base [(1, .u 65535), (2, .u 65528)]

theorem counting_issuing : Issuing (on counting) issue0 [see counting] := on_issuing _ (by decide +kernel)

/-- BarrierInitAndArrive. -/
theorem witness_BarrierInitAndArrive :
    Issuing (on counting) issue0 [see counting] ∧ (Instr.barinit h0 8 2).wf = true ∧
      InBudget [see counting] [(h0.a 8, 8), (8 * (2 : BitVec 6).toNat, 8)] ∧ activeOnce (.barinit h0 8 2) [see counting] ≠ [] ∧
      (∀ v ∈ activeOnce (.barinit h0 8 2) [see counting], v.isU (h0.a 8) 32 = true ∧
        1 ≤ v.readLowest (v.active h0) (h0.a 8) 32 ∧ v.readLowest (v.active h0) (h0.a 8) 32 < 2 ^ 16 ∧
        ObjectOk counting h0 2 v (fun _ => hitsBarrier) ∧ ∀ o, v.object (objectAddr h0 2 v) = some o → v.barriersFull o = false) ∧
      (Instr.bararr h0 24 2).wf = true ∧ (Instr.bararrw h0 24 2).wf = true ∧
      InBudget [see counting] [(8 * (2 : BitVec 6).toNat, 8), (h0.d 24, 8)] ∧
      ∀ v ∈ [see counting], Quiet counting v ∧ ObjectOk counting h0 2 v (fun _ => hitsBarrier) := by
  have ok : ObjectOk counting h0 2 (see counting) (fun _ => hitsBarrier) := object_of (by decide +kernel)
  refine ⟨counting_issuing, by decide, budget_of (by decide +kernel), by decide +kernel, ?_, by decide, by decide,
    budget_of (by decide +kernel), ?_⟩
  · intro v hv
    rw [once_head hv]
    refine ⟨by decide +kernel, by decide +kernel, by decide +kernel, ok, ?_⟩
    have h : ((see counting).object (objectAddr h0 2 (see counting))).all (fun o => !(see counting).barriersFull o) = true := by
      decide +kernel
    intro o ho
    rw [ho] at h
    simpa using h
  · intro v hv
    rw [see_head hv]
    exact ⟨⟨by decide +kernel, by decide +kernel⟩, ok⟩

/-- A machine at CYC 5 whose cell 1 holds a deadline of 5, cell 5 one of 6. -/
def deadlines : Device := { cells counting [(3, .u 5), (4, .u 0), (5, .u 6)] with cyc := 5 }

/-- BarrierAndPromiseWaits: a wait; SLEEPUNTIL before its deadline, at it with a token of the object's phase and with one of
the other phase. -/
theorem witness_BarrierAndPromiseWaits :
    Issuing (on deadlines) issue0 [see deadlines] ∧ (Instr.barwait h0 32 2).wf = true ∧ (Instr.cwait h0 32 2).wf = true ∧
      InBudget [see deadlines] [(8 * (2 : BitVec 6).toNat, 8), (h0.d 32, 8)] ∧
      (∀ v ∈ [see deadlines], ObjectOk deadlines h0 2 v v.hitsWait) ∧
      (Instr.sleepuntil h0 32 24 2).wf = true ∧ InBudget [see deadlines] [(h0.a 24, 16), (8 * (2 : BitVec 6).toNat, 8), (h0.d 32, 8)] ∧
      (see deadlines).active h0 ≠ 0 ∧ Quiet deadlines (see deadlines) ∧ ObjectOk deadlines h0 2 (see deadlines) (see deadlines).hitsWait ∧
      ((see deadlines).object (objectAddr h0 2 (see deadlines))).isSome = true ∧
      (see deadlines).dev.cyc.toNat < (see deadlines).readLowest ((see deadlines).active h0) (h0.a 40) 64 ∧
      ¬ (see deadlines).dev.cyc.toNat < (see deadlines).readLowest ((see deadlines).active h0) (h0.a 24) 64 ∧
      (see deadlines).dev.phase { object0 with off := 65528 } =
        ((see deadlines).readLowest ((see deadlines).active h0) (h0.d 32) 32).testBit 0 ∧
      (see deadlines).dev.phase { object0 with off := 65528 } ≠
        ((see deadlines).readLowest ((see deadlines).active h0) (h0.d 24) 32).testBit 0 := by
  have ok : ObjectOk deadlines h0 2 (see deadlines) (see deadlines).hitsWait := object_of (by decide +kernel)
  refine ⟨on_issuing _ (by decide +kernel), by decide, by decide, budget_of (by decide +kernel), ?_, by decide,
    budget_of (by decide +kernel), by decide +kernel, ⟨by decide +kernel, by decide +kernel⟩, ok, by decide +kernel,
    by decide +kernel, by decide +kernel, by decide +kernel, by decide +kernel⟩
  intro v hv
  rw [see_head hv]
  exact ok

/-- The slot that issues in the small machine. -/
def ref0 : SlotRef := { wg := 0, g := 0, slot := false }

/-- The machine with that slot in a wait until CYC 5, at CYC 5. -/
def waiting (w : Wait) : Device := { slot base (fun x => { x with wait := w, wake := 5, resume := 16 }) with cyc := 5 }

/-- What a slot waits in, of the slots that run. -/
def waitOf (d : Device) : Option Wait := (d.slotOf ref0).map (fun x => x.2.2.wait)

/-- A copy request of 8 f32 elements between dense runs of the scratchpad whose last element has committed. -/
def copy0 : Request :=
  { id := 7, ctx := 0, wg := 0, tag := 1, ordinal := 0, group := 0, agent := false, core := 0, die := 0, bar := 0, promise := 0,
    cells := [0x8000], work := .copy (.dense 1 0 0 8) (.dense 1 256 0 8) .plain, done := 8, fails := 0, fired := [], seq := 0,
    status := .queued, leaves := [] }

/-- The machine with one request. -/
def requesting (r : Request) : Device := { base with requests := [r] }

/-- WakesAndHeldArrivals: a slot asleep, in a wait on an object, on a batch, and until a deadline; a unit with a held arrival. -/
theorem witness_WakesAndHeldArrivals :
    waitOf (waiting .sleep) = some .sleep ∧ waitOf (waiting (.bar 0 true)) = some (.bar 0 true) ∧
      waitOf (waiting (.matrix 0)) = some (.matrix 0) ∧ waitOf (waiting (.until 0 true)) = some (.until 0 true) ∧
      (∃ k, ((waiting (.bar 0 true)).ctx 0).kernel 1 0 = some k ∧
        objectAt (placedWorkgroup 0) k.shared 0 (0 : Word).toNat = some object0) ∧
      (waiting (.bar 0 true)).phase object0 ≠ true ∧ ((Agent.start 32).batchDone 0) = true ∧
      (∃ v, viewOf (waiting (.until 0 true)) issue0 0 = some v ∧ Quiet (waiting (.until 0 true)) v ∧ v.object (0 : Word).toNat = some object0) ∧
      (base.ctx 1).state ≠ .active ∧ (base.ctx 0).state = .active ∧ base.heldAt 0 0 = [] ∧ base.batchesAt 0 0 = [] ∧
      (requesting copy0).heldAt 0 0 = [copy0] ∧ (requesting copy0).request copy0.id = some copy0 ∧
      ((requesting copy0).retireRequest copy0).batchesAt 0 0 = [] :=
  ⟨by decide +kernel, by decide +kernel, by decide +kernel, by decide +kernel, ⟨_, rfl, by decide +kernel⟩, by decide +kernel,
    by decide +kernel, ⟨_, rfl, ⟨by decide +kernel, by decide +kernel⟩, by decide +kernel⟩, by decide +kernel, by decide +kernel,
    by decide +kernel, by decide +kernel, by decide +kernel, by decide +kernel, by decide +kernel⟩

/-! ## Witnesses: the register store and the clock -/

/-- The machine with cell 1 evicted; its spill slot holds zeros, which is U 0. -/
def evicted : Device :=
  grp spilled (fun g => { g with cells := setAt g.cells 1 { cell := .u 9, evicted := true, used := 0 } })

/-- The same with a spill slot that names no form. -/
def malformed : Device := { evicted with hbm := Memory.put evicted.hbm 132 7 }

/-- What a refill reads. -/
def slotBytes (d : Device) : Except CtxFault (List (BitVec 8) × Device) :=
  d.mainRead 0 0 ((d.ctx 0).spillBase 0 + 132 * 1) 132

/-- Whether a refill reads a slot that is well formed, or none. -/
def slotForm (d : Device) : Option Bool :=
  match slotBytes d with
  | .ok r => some (Cell.ofSlot r.1).isSome
  | .error _ => none

/-- A cell of the machine's group, when the group is of workgroup 0, context 0, core 0 and the first spill area. -/
def cellOf (d : Device) (k : Nat) : Option StoredCell :=
  match d.wg 0 with
  | some w => (match w.groups[0]? with
    | some g => if w.uid = 0 ∧ w.ctx = 0 ∧ g.core = 0 ∧ g.spill = 0 then g.cells[k]? else none
    | none => none)
  | none => none

/-- SpillAndRefill: a resident cell, an evicted one with a well-formed slot, and one with a malformed slot. -/
theorem witness_SpillAndRefill :
    (cellOf evicted 0).map StoredCell.evicted = some false ∧ (cellOf evicted 1).map StoredCell.evicted = some true ∧
      slotForm evicted = some true ∧ (cellOf malformed 1).map StoredCell.evicted = some true ∧ slotForm malformed = some false := by
  decide +kernel

/-- A write of the last slices of the budget. -/
def write0 : RegWrite :=
  { wg := 0, g := 0, gen := 0, slice := 504, width := 32, vals := List.replicate 32 5, lanes := 0xFFFFFFFF, tag := .u }

/-- The machine with that write outstanding, of the generation `n`. -/
def writing (n : BitVec 4) : Device := { base with writes := [{ write0 with gen := n }] }

/-- WritesAndIdleClock: a write of the slot's generation and one of another; a partition with no ready chain. -/
theorem witness_WritesAndIdleClock :
    (∃ w g, (writing 0).wg 0 = some w ∧ w.groups[0]? = some g ∧ w.gone = false ∧
      write0.gen = tableGet 0 (writing 0).gens (slotKey g.core g.part g.rslot) ∧
      (1 : BitVec 4) ≠ tableGet 0 (writing 1).gens (slotKey g.core g.part g.rslot) ∧
      write0.slice + write0.width / 4 ≤ g.budget) ∧
      write0.tag.Fits write0.lanes write0.width (laneVal write0.vals) ∧ base.pick 0 5 = none :=
  ⟨⟨_, _, rfl, rfl, rfl, by decide +kernel, by decide +kernel, by decide +kernel⟩, by
    show ∀ i j, i < 32 → j < 32 → _ → _ → _
    have h : ∀ i < 32, laneVal write0.vals i = 5 := by decide +kernel
    intro i j hi hj _ _
    rw [h i hi, h j hj], by decide +kernel⟩

/-! ## Witnesses: copies and routing -/

/-- Whether ranges are aligned and lie in their spaces. -/
def reachOk (v : View) (rs : List Reach) : Bool :=
  rs.all (fun r => r.addr % r.align == 0 &&
    match r.range with
    | some b => (v.range r.space r.write b).isSome
    | none => (r.space != 0 || decide (r.addr < 2 ^ 57)) && ((r.space != 1 || decide (r.addr < 2 ^ 29)) &&
        (r.space == 0 || r.space == 1 || (v.shared r.addr 0).isSome)))

theorem ranges_of {v : View} {rs : List Reach} {ps : List (Place × Nat × Bool)} {bar : Nat} {meet : Bool → Bool → Bool}
    (reach : reachOk v rs = true)
    (object : (v.object bar).isSome = true)
    (apart : ps.Pairwise (fun p q => meet p.2.2 q.2.2 = true → placesOverlap p.1 p.2.1 q.1 q.2.1 = false))
    (room : v.dev.roomFor (requestLocks v.dev v.grp.core 0 ps) = true) : RangesOk v rs ps bar meet := by
  have h := List.all_eq_true.mp reach
  refine ⟨?_, ?_, ?_, object, apart, room⟩
  · intro r hr
    have := h r hr
    simp only [Bool.and_eq_true, beq_iff_eq] at this
    exact this.1
  · intro r hr b hb
    have := h r hr
    rw [hb] at this
    simp only [Bool.and_eq_true] at this
    exact this.2
  · intro r hr hn
    have := h r hr
    rw [hn] at this
    simp only [Bool.and_eq_true, Bool.or_eq_true, bne_iff_ne, beq_iff_eq, decide_eq_true_eq, or_assoc] at this
    obtain ⟨-, h0, h1, h2⟩ := this
    exact ⟨fun h => h0.resolve_left (fun k => k h), fun h => h1.resolve_left (fun k => k h),
      fun a b => (h2.resolve_left a).resolve_left b⟩

/-- A scratchpad window of 64 KiB. -/
def windowed : Device :=
  ctx base (fun c => { c with regions :=
    [{ kind := 3, sub := 0, sec := false, r := true, w := true, size := 65536, base := 0, phys := 0, handle := none, bytes := [] }] })

/-- Dense descriptors of `n` f32 elements in cells 1 to 8: from scratchpad address `a` to 256 bytes on. -/
def copying (a n : Word) : Device :=
  cells windowed [(2, .u a), (4, .u n), (6, .u (a + 256)), (8, .u n)]

/-- The TAIL of those copies: dense scratchpad endpoints and the object at offset 0. -/
def copyTail : CopyTail := { skind := 2, dkind := 2, bq := 0, boff := 0 }

/-- The copy of the witnesses. -/
def copyI : Instr := .copy h0 72 8 5 copyTail

/-- What that copy reads. -/
def copyParse (d : Device) : Option (Endpoint × Endpoint × Transform) :=
  (see d).parseCopy ((see d).copyWords ((see d).active h0) (h0.a 8) 5 0 copyTail) 0 copyTail

/-- Its ranges. -/
def copyRanges (d : Device) : List Reach :=
  match copyParse d with | some p => copyReaches p.1 p.2.1 p.2.2 | none => []

/-- The places of those that it moves. -/
def copyPlaces (d : Device) : List (Place × Nat × Bool) :=
  if ((copyRanges d).take 2).any (fun r => r.range.isNone) then [] else (see d).reachPlaces (copyRanges d)

/-- A dense copy of no element out of main memory, from the address 2^57 on. -/
def copyHigh : Device := cells windowed [(3, .u 0x02000000), (6, .u 256)]

/-- The TAIL of that copy. -/
def highTail : CopyTail := { copyTail with skind := 1 }

/-- Its ranges. -/
def highRanges : List Reach :=
  match (see copyHigh).parseCopy ((see copyHigh).copyWords ((see copyHigh).active h0) (h0.a 8) 5 0 highTail) 0 highTail with
  | some p => copyReaches p.1 p.2.1 p.2.2
  | none => []

/-- A range of a copy that is out of its space. -/
def outOfSpace (v : View) (r : Reach) : Bool :=
  match r.range with
  | none => decide (r.space = 0 ∧ 2 ^ 57 ≤ r.addr ∨ r.space = 1 ∧ 2 ^ 29 ≤ r.addr ∨
      r.space ≠ 0 ∧ r.space ≠ 1 ∧ (v.shared r.addr 0).isNone)
  | some b => (v.range r.space r.write b).isNone

theorem copying_ok (n : Word) (h : reachOk (see (copying 0 n)) (copyRanges (copying 0 n)) = true)
    (o : ((see (copying 0 n)).object 0).isSome = true)
    (a : (copyPlaces (copying 0 n)).Pairwise (fun p q =>
      (p.2.2 != q.2.2) = true → placesOverlap p.1 p.2.1 q.1 q.2.1 = false))
    (r : (see (copying 0 n)).dev.roomFor (requestLocks (see (copying 0 n)).dev (see (copying 0 n)).grp.core 0
      (copyPlaces (copying 0 n))) = true) :
    RangesOk (see (copying 0 n)) (copyRanges (copying 0 n)) (copyPlaces (copying 0 n)) 0 (fun w1 w2 => w1 != w2) :=
  ranges_of h o a r

/-- CopiesIssue: a copy of 8 elements, one of none, one with a source cell that is not U, one that is misaligned, one past its
window, and one whose empty source lies at 2^57 of main memory. -/
theorem witness_CopiesIssue :
    copyOf copyI = some (h0, 72, 8, 5, 0, copyTail) ∧ copyI.wf = true ∧
      Issuing (on (copying 0 8)) issue0 [see (copying 0 8)] ∧
      InBudget [see (copying 0 8)] [(h0.a 8, 8 * sourceCells 0 copyTail), (8 * (5 : BitVec 6).toNat, 8 * descriptorCells copyTail.dkind),
        (h0.d 72, 16)] ∧
      (see (copying 0 8)).cellsU (h0.a 8) (sourceCells 0 copyTail) = true ∧
      (see (copying 0 8)).cellsU (8 * (5 : BitVec 6).toNat) (descriptorCells copyTail.dkind) = true ∧
      (copyParse (copying 0 8)).isSome = true ∧
      RangesOk (see (copying 0 8)) (copyRanges (copying 0 8)) (copyPlaces (copying 0 8)) 0 (fun w1 w2 => w1 != w2) ∧
      (see (copying 0 8)).engineCheck (namedEngine
        ((see (copying 0 8)).copyWords ((see (copying 0 8)).active h0) (h0.a 8) 5 0 copyTail).src) = .ok ∧
      (¬ isEmptyCopy (copyRanges (copying 0 8)) ∧ CopyRoom (copying 0 8) 0 0) ∧
      (isEmptyCopy (copyRanges (copying 0 0)) ∧ Quiet (copying 0 0) (see (copying 0 0)) ∧ (see (copying 0 0)).ctx.logs 2 = false ∧
        (see (copying 0 0)).active h0 ≠ 0 ∧
        RangesOk (see (copying 0 0)) (copyRanges (copying 0 0)) (copyPlaces (copying 0 0)) 0 (fun w1 w2 => w1 != w2) ∧
        ∀ o, (see (copying 0 0)).object 0 = some o → (copying 0 0).lostIn o.space o.off 8 = none) ∧
      (see (cells (copying 0 8) [(1, .g (List.replicate 32 0))])).cellsU (h0.a 8) (sourceCells 0 copyTail) = false ∧
      ((copyParse (copying 2 8)).isSome = true ∧
        ((copyRanges (copying 2 8)).filter (fun r => decide (r.addr % r.align ≠ 0))).length = 2) ∧
      ((copyParse (copying 65504 8)).isSome = true ∧ (∀ r ∈ copyRanges (copying 65504 8), r.addr % r.align = 0) ∧
        ((copyRanges (copying 65504 8)).filter (outOfSpace (see (copying 65504 8)))).length = 1) ∧
      ((∀ r ∈ highRanges, r.addr % r.align = 0) ∧ (highRanges.filter (outOfSpace (see copyHigh))).length = 1) := by
  refine ⟨rfl, by decide, on_issuing _ (by decide +kernel), budget_of (by decide +kernel), by decide +kernel, by decide +kernel,
    by decide +kernel, copying_ok 8 (by decide +kernel) (by decide +kernel) (by decide +kernel) (by decide +kernel), by decide +kernel,
    ⟨?_, ?_⟩, ⟨?_, ⟨by decide +kernel, by decide +kernel⟩, by decide +kernel, by decide +kernel,
      copying_ok 0 (by decide +kernel) (by decide +kernel) (by decide +kernel) (by decide +kernel),
      fun o _ => lostIn_none (by decide +kernel) _ _ _⟩, by decide +kernel,
    by decide +kernel, by decide +kernel, by decide +kernel⟩
  · unfold isEmptyCopy
    decide +kernel
  · unfold CopyRoom
    decide +kernel
  · unfold isEmptyCopy
    decide +kernel

/-- A tensor map of 8 tokens of 4 f32 scores in the scratchpad. -/
def map0 : BitVec 1024 :=
  BitVec.ofNat 1024 (2 * 2 ^ 64 + 2 ^ 72 + 4 * 2 ^ 96 + 8 * 2 ^ 128 + 16 * 2 ^ 320 + 2 ^ 704 + 2 ^ 720)

/-- The cells of that map, as TMAP reads them: cell 1 names entry 255, and the map is in cells 8 to 39. -/
def mapping : Device :=
  cells base ((1, .u 255) :: (List.range 32).map (fun j => (8 + j, .u (map0.extractLsb' (32 * j) 32))))

/-- TensorMapWrite: the last entry; a map that names entry 256. -/
theorem witness_TensorMapWrite :
    Issuing (on mapping) issue0 [see mapping] ∧ (Instr.tmap h0 8 8).wf = true ∧
      InBudget [see mapping] [(h0.a 8, 8), (8 * (8 : BitVec 6).toNat, 256)] ∧ (see mapping).active h0 ≠ 0 ∧
      (∀ v ∈ activeOnce (.tmap h0 8 8) [see mapping],
        (v.isU (h0.a 8) 32 = true ∧ v.cellsU (8 * (8 : BitVec 6).toNat) 32 = true) ∧ v.readLowest (v.active h0) (h0.a 8) 32 < 256 ∧
          tmOk (BitVec.ofNat 1024 (v.readLowest (v.active h0) (8 * (8 : BitVec 6).toNat) 1024)) = true) ∧
      256 ≤ (see (cells mapping [(1, .u 256)])).readLowest ((see (cells mapping [(1, .u 256)])).active h0) (h0.a 8) 32 := by
  refine ⟨on_issuing _ (by decide +kernel), by decide, budget_of (by decide +kernel), by decide +kernel, ?_, by decide +kernel⟩
  intro v hv
  rw [once_head hv]
  decide +kernel

/-- A copy out of main memory that nothing maps. -/
def unmapped0 : Request := { copy0 with work := .copy (.dense 0 0 0 8) (.dense 1 256 0 8) .plain, done := 0 }

/-- CopiesRun: a burst; a burst whose source is not mapped; a copy with an element left, and one that is done. -/
theorem witness_CopiesRun :
    let r : Request := { copy0 with done := 0 }
    (requesting r).request 7 = some r ∧ r.work = .copy (.dense 1 0 0 8) (.dense 1 256 0 8) .plain ∧
      ((requesting r).wg r.wg).isSome = true ∧ (requesting r).canServe r = true ∧ ((requesting r).ctx r.ctx).replay = false ∧
      (requesting r).accs = [] ∧ (requesting r).lost = [] ∧ fmtBits (0 : BitVec 4).toNat % 8 = 0 ∧ r.done < 8 ∧
      ((requesting unmapped0).request 7 = some unmapped0 ∧ (requesting unmapped0).canServe unmapped0 = true ∧
        (requesting unmapped0).heldByLog unmapped0 = .ok false ∧
        (match (requesting unmapped0).wg 0 with
         | some w => (match Burst.moves { dev := requesting unmapped0, reads := [], writes := [] } unmapped0 w (.dense 0 0 0 8)
             (.dense 1 256 0 8) .plain (List.range 8) with | .error f => f == .walk (1, 0) | .ok _ => false)
         | none => false) = true) ∧
      ((requesting copy0).request 7 = some copy0 ∧ copy0.work = .copy (.dense 1 0 0 8) (.dense 1 256 0 8) .plain ∧
        8 ≤ copy0.done ∧ (requesting copy0).canServe copy0 = true ∧ ((requesting copy0).ctx 0).logs 1 = false ∧
        ((requesting copy0).ctx 0).logs 2 = false ∧ (requesting copy0).lost = []) :=
  ⟨by decide +kernel, rfl, by decide +kernel, by decide +kernel, by decide +kernel, by decide +kernel, by decide +kernel, by decide,
    by decide, ⟨by decide +kernel, by decide +kernel, okFalse_of (by decide +kernel), by decide +kernel⟩, by decide +kernel⟩

/-- The route descriptor in cells 1 to 5: map 0, lists, weights and histogram in the scratchpad, capacity 16. -/
def routing : Device :=
  cells (ctx windowed (fun c => { c with tmaps := [(0, map0)] }))
    [(1, .u 0x200), (2, .u 16), (3, .u 1024), (4, .u 2048), (5, .u 4096)]

/-- Its cells. -/
def routeCells : List Word := [0x200, 16, 1024, 2048, 4096]

/-- Its ranges. -/
def routeRanges : List Reach := match parseRoute map0 routeCells with | some q => q.reaches | none => []

/-- The pass of two experts per token. -/
def route0 : Request := { copy0 with work := .route map0 routeCells 2 4, done := 0 }

/-- Routing: ROUTE, and a pass. -/
theorem witness_Routing :
    let i : Instr := .route h0 72 8 { km1 := 1, dm1 := 3, bq := 0, boff := 0 }
    i.wf = true ∧ Issuing (on routing) issue0 [see routing] ∧ InBudget [see routing] [(h0.a 8, 40), (h0.d 72, 16)] ∧
      (see routing).cellsU (h0.a 8) 5 = true ∧
      (List.range 5).map (fun j => BitVec.ofNat 32 ((see routing).readLowest ((see routing).active h0) (h0.a 8 + 8 * j) 32)) = routeCells ∧
      (see routing).ctx.tmap ((routeCells.getD 0 0).toNat % 2 ^ 8) = map0 ∧ (parseRoute map0 routeCells).isSome = true ∧
      RangesOk (see routing) routeRanges ((see routing).reachPlaces routeRanges) 0 (fun _ _ => true) ∧ CopyRoom routing 0 0 ∧
      (requesting route0).accs = [] ∧ (requesting route0).lost = [] ∧
      (requesting route0).request 7 = some route0 ∧ (requesting route0).canServe route0 = true ∧ route0.done = 0 ∧
      ((parseRoute map0 routeCells).map RouteDesc.space = some 1) ∧
      (match (requesting route0).wg 0 with
       | some w => (match Burst.scores { dev := requesting route0, reads := [], writes := [] } route0 w (routeScores map0)
           (List.range (routeExperts map0 * routeTokens map0)) with | .ok _ => true | .error _ => false)
       | none => false) = true := by
  refine ⟨by decide, on_issuing _ (by decide +kernel), budget_of (by decide +kernel), by decide +kernel, by decide +kernel,
    by decide +kernel, by decide +kernel, ranges_of (by decide +kernel) (by decide +kernel) (by decide +kernel) (by decide +kernel),
    ?_, by decide +kernel, by decide +kernel, by decide +kernel, by decide +kernel, by decide +kernel, by decide +kernel, by decide +kernel⟩
  unfold CopyRoom
  decide +kernel

/-- A slot table of two slots on die 0, one of them pinned once with expert 0 of layer 0. -/
def slotted : Device :=
  ctx base (fun c => { c with
    regions := [{ kind := 9, sub := 0, sec := false, r := true, w := true, size := 32, base := 0, phys := 0, handle := none,
                  bytes := [] }]
    experts := [(0, [{ valid := true, layer := 0, expert := 0, pins := 1 }])] })

/-- ExpertSlots. -/
theorem witness_ExpertSlots :
    Issuing (on slotted) issue0 [see slotted] ∧ (Instr.xslot h0 16 8).wf = true ∧ (Instr.xrel h0 8).wf = true ∧
      InBudget [see slotted] [(h0.a 8, 8), (h0.d 16, 8)] ∧ (see slotted).isU (h0.a 8) 32 = true ∧ Quiet slotted (see slotted) ∧
      (see slotted).active h0 ≠ 0 ∧
      ∃ l, (see slotted).ctx.slots (dieOf (see slotted).grp.core).toNat = some l ∧ (∀ x ∈ l, x.pins ≠ 0xFFFF) ∧
        ∃ x, l[(see slotted).readLowest ((see slotted).active h0) (h0.a 8) 32]? = some x ∧ x.valid = true ∧ x.pins ≠ 0 := by
  refine ⟨on_issuing _ (by decide +kernel), by decide, by decide, budget_of (by decide +kernel), by decide +kernel,
    ⟨by decide +kernel, by decide +kernel⟩, by decide +kernel, [{ valid := true, layer := 0, expert := 0, pins := 1 }, ExpertSlot.free],
    by decide +kernel, by decide +kernel, { valid := true, layer := 0, expert := 0, pins := 1 }, by decide +kernel, rfl, by decide⟩

/-! ## Witnesses: the matrix engine -/

/-- A format block of f16 elements in cells 50 to 53. -/
def formatted : Device := cells base [(50, .u 1), (52, .u 1)]

/-- MatrixIssue: MMA on the last tile of the kernel, and on the tile past it. -/
theorem witness_MatrixIssue :
    Issuing (on formatted) issue0 [see formatted] ∧
      (∃ m spans, matrixOf (.mma (hx { Ext.zero with dh := 1, ah := 2 }) 0 0 50 3 true) = some (m, spans) ∧
      (Instr.mma (hx { Ext.zero with dh := 1, ah := 2 }) 0 0 50 3 true).wf = true ∧ InBudget [see formatted] spans ∧
      TileOk (see formatted) m.tile (m.sub == 1) ∧
      (see formatted).matCheck m (Instr.lanes (.mma (hx { Ext.zero with dh := 1, ah := 2 }) 0 0 50 3 true) (see formatted)) = .ok ∧
      (((see formatted).matPlan m (Instr.lanes (.mma (hx { Ext.zero with dh := 1, ah := 2 }) 0 0 50 3 true) (see formatted))).isSome = true) ∧
      MatrixRoom formatted (see formatted).grp.core 0 ∧
      ∀ p, (see formatted).matPlan m (Instr.lanes (.mma (hx { Ext.zero with dh := 1, ah := 2 }) 0 0 50 3 true) (see formatted)) = some p →
        formatted.lostOf ((see formatted).matReads m p) = none) ∧
      (∃ m spans, matrixOf (.mma (hx { Ext.zero with dh := 1, ah := 2 }) 0 0 50 4 true) = some (m, spans) ∧
        (Instr.mma (hx { Ext.zero with dh := 1, ah := 2 }) 0 0 50 4 true).wf = true ∧ InBudget [see formatted] spans ∧
        ¬ TileOk (see formatted) m.tile (m.sub == 1)) := by
  refine ⟨on_issuing _ (by decide +kernel), ⟨_, _, rfl, by decide, budget_of (by decide +kernel), ?_, by decide +kernel, by decide +kernel, ?_,
      fun _ _ => lostOf_none (by decide +kernel) _⟩,
    _, _, rfl, by decide, budget_of (by decide +kernel), ?_⟩
  · unfold TileOk
    decide +kernel
  · unfold MatrixRoom
    decide +kernel
  · unfold TileOk
    decide +kernel

/-- An MMA of zeros on tile 3 in the queue of core 0. -/
def op0 : MatOp :=
  { id := 7, ctx := 0, wg := 0, tag := 1, ordinal := 0, group := 0, agent := false, core := 0, batch := 1, sub := 0, tile := 3,
    z := true, fblock := [1, 0, 1, 0], gcells := [], afrag := List.replicate 32 0, bfrag := List.replicate 32 0, bfrag2 := [],
    cbA := [], cbB := [], sa := [], sb := [], gather := none, failCols := [], fired := [], inRing := false }

/-- The machine with some matrix operations. -/
def queueing (l : List MatOp) : Device := { base with matrix := l }

/-- MatrixExecutes: an empty queue, an operation of the array, and one behind a pair operation. -/
theorem witness_MatrixExecutes :
    base.matrixHead 0 = none ∧ (queueing [op0]).matrixHead 0 = some op0 ∧
      (parseFormats op0.fblock).isSome = true ∧ op0.sub = 0 ∧ op0.gather = none ∧ (queueing [op0]).slaved 0 = false ∧
      ((queueing [op0]).ctx op0.ctx).state = .active ∧
      (tableGet { columns := [], reduced := false } (queueing [op0]).arrays 0).reduced = false ∧
      ((queueing [op0]).wg op0.wg).any (fun w => (((queueing [op0]).ctx w.ctx).kernel w.handle w.kernel).isSome) = true ∧
      (queueing [{ op0 with sub := 1 }, { op0 with core := 1 }]).matrixHead 1 = some { op0 with core := 1 } ∧
      (queueing [{ op0 with sub := 1 }, { op0 with core := 1 }]).slaved 1 = true := by
  decide +kernel

/-- A closed batch without an object, and one with. -/
def batch0 (obj : Option Word) : Batch := { number := 1, obj := obj, told := false }

/-- The machine whose agent has closed one batch. -/
def batching (obj : Option Word) (l : List MatOp) : Device :=
  agent (queueing l) (fun a => { a with batch := 1, closed := [batch0 obj] })

/-- The closed batches of the agent. -/
def closedOf (d : Device) : Option (List Batch) := ((d.wg 0).bind (fun w => w.groups[0]?)).map (fun g => (g.agent false).closed)

/-- Batches: MBATCH with and without an object; a batch with an operation left, without, and without but with an object; MWAIT
of the last closed batch, and of the next one. -/
theorem witness_Batches :
    Issuing (on base) issue0 [see base] ∧ (Instr.mbatch h0 8 0).wf = true ∧ (Instr.mbatch h0 8 2).wf = true ∧
      InBudget [see base] [(h0.d 8, 8)] ∧ InBudget [see base] [(h0.d 8, 8), (8 * (2 : BitVec 6).toNat, 8)] ∧
      (∀ v ∈ activeOnce (.mbatch h0 8 2) [see base], ObjectClear h0 2 v (fun _ => hitsBarrier)) ∧ base.lost = [] ∧
      closedOf (batching none [op0]) = some [batch0 none] ∧ closedOf (batching (some 8) []) = some [batch0 (some 8)] ∧
      (batching none [op0]).matrix.any (fun op => op.wg == 0 && op.group == 0 && op.agent == false && op.batch == 1) = true ∧
      (batching none []).matrix = [] ∧ ((batching none []).ctx 0).replay = false ∧ ((batching none []).ctx 0).logs 1 = false ∧
      objectAt (placedWorkgroup 0) 65536 0 8 = some { object0 with off := 8 } ∧
      (Instr.mwait h0 8).wf = true ∧ InBudget [see base] [(h0.a 8, 8)] ∧ (see base).isU (h0.a 8) 32 = true ∧
      ((see base).agent.batch - BitVec.ofNat 32 ((see base).readLowest ((see base).active h0) (h0.a 8) 32)).toNat < 2 ^ 31 ∧
      ¬ ((see specials).agent.batch -
        BitVec.ofNat 32 ((see specials).readLowest ((see specials).active h0) (h0.a 8) 32)).toNat < 2 ^ 31 := by
  refine ⟨base_issuing, by decide, by decide, budget_of (by decide +kernel), budget_of (by decide +kernel), ?_, by decide +kernel,
    by decide +kernel, by decide +kernel, by decide +kernel, by decide +kernel, by decide +kernel, by decide +kernel,
    by decide +kernel, by decide, budget_of (by decide +kernel), by decide +kernel, by decide +kernel, by decide +kernel⟩
  intro v hv
  rw [once_head hv]
  exact clear_of (by decide +kernel)

/-- Control cells: cell 1 moves 4 f32 columns from column 28 on, cell 2 stores rows of 16 bytes. -/
def moving : Device := cells base [(1, .u 0x009C), (2, .u 0x0010009C)]

/-- The first of them as read. -/
def control0 : TileControl := { rstride := 0, efmt := 0, ncol := 4, col0 := 28 }

/-- TileMoves. -/
theorem witness_TileMoves :
    (∃ h d t b p s, tileMoveOf (.tld h0 32 3 1) = some (h, d, t, b, p, s)) ∧ (Instr.tld h0 32 3 1).wf = true ∧
      (Instr.tst h0 32 3 1).wf = true ∧ (Instr.tzero h0 3).wf = true ∧ (Instr.tsts h0 32 3 2).wf = true ∧
      Issuing (on moving) issue0 [see moving] ∧
      InBudget [see moving] [(8 * (1 : BitVec 6).toNat, 8), (h0.d 32, control0.ncol * fmtBits control0.efmt / 4)] ∧
      InBudget [see moving] [(h0.d 32, 8), (8 * (2 : BitVec 6).toNat, 8)] ∧ TileOk (see moving) 3 false ∧
      TileFree (see moving) 3 ∧ (see moving).isU (8 * (1 : BitVec 6).toNat) 32 = true ∧
      (see moving).control ((see moving).active h0) 1 false = some control0 ∧ (see moving).isU (h0.d 32) 32 = true ∧
      (see moving).isU (8 * (2 : BitVec 6).toNat) 32 = true ∧
      ∃ c p, (see moving).control ((see moving).active h0) 2 true = some c ∧
        (see moving).readLowest ((see moving).active h0) (h0.d 32) 32 % (fmtBits c.efmt / 8) = 0 ∧
        (see moving).shared ((see moving).readLowest ((see moving).active h0) (h0.d 32) 32)
          (31 * c.rstride + c.ncol * fmtBits c.efmt / 8) = some p ∧
        (see moving).dev.meetsLock p (31 * c.rstride + c.ncol * fmtBits c.efmt / 8) (see moving).grp.core hitsStore = false := by
  refine ⟨⟨_, _, _, _, _, _, rfl⟩, by decide, by decide, by decide, by decide, on_issuing _ (by decide +kernel),
    budget_of (by decide +kernel), budget_of (by decide +kernel), ?_, ?_, by decide +kernel, by decide +kernel, by decide +kernel,
    by decide +kernel, { rstride := 16, efmt := 0, ncol := 4, col0 := 28 }, { space := .shared 0 0, addr := 0 }, by decide +kernel,
    by decide +kernel, by decide +kernel, by decide +kernel⟩
  · unfold TileOk
    decide +kernel
  · unfold TileFree
    decide +kernel

/-! ## Witnesses: launches, the distributor and host commands -/

/-- A launch of one workgroup of 32 threads of the small machine's kernel, with tag 5. -/
def launch0 : Launch :=
  { record := { queue := 0, prio := 2, op := 1, handle := 1, kernel := 0, ext := [1, 1, 1, 1], threads := 32, preds := [0, 0, 0, 0],
                tag := 5 },
    state := .waiting, taken := 0, order := 0, graph := none, patch := none, inRing := false, ringAt := 0, readyAt := 0 }

/-- A launch behind it in its queue. -/
def launch1 : Launch := { launch0 with record := { launch0.record with tag := 6 }, order := 1 }

/-- A patch operation of another queue on the small machine's Locket. -/
def patch0 : Launch :=
  { launch0 with record := { launch0.record with op := 2, queue := 1, tag := 0 }, order := 2, patch := some (0, [1, 2, 3, 4]) }

/-- The machine with some launches and its core enabled. -/
def launching (l : List Launch) : Device :=
  { ctx base (fun c => { c with launches := l, nextOrder := 3 }) with boot := { step := 15, halt := false, found := none }, enabled := [0, 1] }

/-- Whether the turn of an operation has come. -/
def turnNow (x : Context) (l : Launch) : Bool :=
  x.launches.all (fun e => decide (e.state ≠ .complete → e.record.queue = l.record.queue → l.order ≤ e.order)) &&
    l.record.preds.all (fun p => p == 0 || x.launches.all (fun e => decide (e.record.tag = p → e.state = .complete)))

theorem turnNow_iff (x : Context) (l : Launch) : turnNow x l = true ↔ TurnCome x l := by
  simp only [turnNow, TurnCome, Bool.and_eq_true, List.all_eq_true, decide_eq_true_eq, Bool.or_eq_true, beq_iff_eq]

/-- LaunchesBecomeReadyAndComplete: a launch whose turn has come and one behind it; a running launch with a workgroup, and one
with none; a patch operation. -/
theorem witness_LaunchesBecomeReadyAndComplete :
    ((launching [launch0, launch1]).ctx 0).launch 5 = some launch0 ∧ ((launching [launch0, launch1]).ctx 0).launch 6 = some launch1 ∧
      ((launching [launch0, launch1]).ctx 0).state = .active ∧ TurnCome ((launching [launch0, launch1]).ctx 0) launch0 ∧
      ¬ TurnCome ((launching [launch0, launch1]).ctx 0) launch1 ∧ (launching [launch0, launch1]).ringLength 0 2 = 0 ∧
      ((launching [launch0, launch1]).ready.getD 2 []).length < 128 ∧ (launching [launch0, launch1]).ready.length = 4 ∧
      ((launching [{ launch0 with state := .running, record := { launch0.record with tag := 1 } }]).ctx 0).launch 1 =
        some { launch0 with state := .running, record := { launch0.record with tag := 1 } } ∧
      (launching []).wgs.any (fun w => w.ctx == 0 && w.tag == 1) = true ∧
      ((launching [{ launch0 with state := .running }]).ctx 0).launch 5 = some { launch0 with state := .running } ∧
      (launching []).wgs.any (fun w => w.ctx == 0 && w.tag == 5) = false ∧
      ((launching [patch0]).ctx 0).launches.find? (fun l => l.live && l.record.op == 2 && l.order == 2) = some patch0 ∧
      (((launching [patch0]).ctx 0).locket patch0.record.handle).isSome = true ∧ TurnCome ((launching [patch0]).ctx 0) patch0 := by
  simp only [← turnNow_iff]
  decide +kernel

/-- The machine that serves a ready launch, with spill areas. -/
def serving : Device :=
  let d := launching [{ launch0 with state := .ready }]
  { ctx d (fun c => { c with regions :=
      [{ kind := 4, sub := 0, sec := false, r := true, w := true, size := 2 ^ 20, base := 0x100000, phys := 0, handle := none,
         bytes := [] }] }) with ready := [[], [], [(0, 5)], []] }

/-- Placement: nothing ready; and a ready launch that fits. -/
theorem witness_Placement :
    (launching []).served = none ∧ serving.served = some (0, 5) ∧ (serving.ctx 0).replay = false ∧ (serving.ctx 0).logs 0 = false ∧
      (serving.ctx 0).launch 5 = some { launch0 with state := .ready } ∧
      (∃ k, (serving.ctx 0).kernel 1 0 = some k ∧ (serving.bestPlace k (serving.ctx 0).sec 32).isSome = true ∧
        k.hwCount 32 ≤ (serving.freeAreas 0).length) ∧
      (serving.ctx 0).state = .active ∧ serving.contexts.length = 1 :=
  ⟨by decide +kernel, by decide +kernel, by decide +kernel, by decide +kernel, by decide +kernel,
    ⟨_, rfl, by decide +kernel, by decide +kernel⟩, by decide +kernel, by decide +kernel⟩

/-- A FETCHW whose object is at offset 0. -/
def fetch0 : Request := { copy0 with tag := 5, work := .fetch 0, done := 0 }

/-- The machine with that request and a launch. -/
def fetching (n : Nat) : Device := { launching [{ launch0 with state := .ready, taken := n }] with requests := [fetch0] }

/-- FenceFetchAndRings: FENCE and FETCHW; a request at the head of a ring, and none; a FETCHW with workgroups left, and none. -/
theorem witness_FenceFetchAndRings :
    Issuing (on base) issue0 [see base] ∧ (Instr.fence h0 1).wf = true ∧ (Instr.fetchw h0 1).wf = true ∧
      InBudget [see base] [(8 * (1 : BitVec 6).toNat, 8)] ∧ (see base).active h0 ≠ 0 ∧ (see base).isU (8 * (1 : BitVec 6).toNat) 32 = true ∧
      objectAddr h0 1 (see base) % 32 = 0 ∧ (see base).shared (objectAddr h0 1 (see base)) 32 = some { space := .shared 0 0, addr := 0 } ∧
      (see base).dev.meetsLock { space := .shared 0 0, addr := 0 } 32 (see base).grp.core
        (fun l => decide (l.kind ≠ .barrier ∨ l.lo ≠ 0)) = false ∧ (see base).ctx.logs 0 = false ∧ base.lockCount 0 < 64 ∧
      (requesting { copy0 with status := .ring }).copyRingHead 0 = some { copy0 with status := .ring } ∧
      base.copyRingHead 0 = none ∧ base.matrixRingHead 0 = none ∧ base.launchRingHead 0 = none ∧
      (fetching 0).request 7 = some fetch0 ∧ ((fetching 0).ctx 0).serving = true ∧
      ((fetching 0).ctx 0).launch 5 = some { launch0 with state := .ready, taken := 0 } ∧
      objectAt (placedWorkgroup 0) 65536 0 0 = some object0 ∧ ((fetching 0).ctx 0).logs 0 = false ∧ 0 < launch0.record.total ∧
      ((fetching 1).ctx 0).launch 5 = some { launch0 with state := .ready, taken := 1 } ∧ ¬ 1 < launch0.record.total := by
  refine ⟨base_issuing, by decide, by decide, budget_of (by decide +kernel), ?_⟩
  decide +kernel

/-- The machine with a command in the mailbox of context 0. -/
def commanding (d : Device) (b : List (BitVec 8)) : Device :=
  ctx d (fun c => { c with mailbox := { c.mailbox with cmd := takePad 0 b 64 } })

/-- A command's bytes. -/
def commandBytes (b : List (BitVec 8)) : List (BitVec 8) := takePad 0 b 64

theorem commanded_of {d : Device} {b : List (BitVec 8)} {code : Nat}
    (h : (decide (d.boot.step = 15 ∧ d.boot.halt = false) && (d.ctx 0).mailbox.running.isNone &&
      decide (takePad 0 (d.ctx 0).mailbox.cmd 64 = b) && leAt b 0 1 == code && leAt b 2 2 == 0 && unusedZero code b &&
      decide ((d.ctx 0).state ≠ .free)) = true) : Commanded d 0 b code := by
  simp only [Bool.and_eq_true, decide_eq_true_eq, beq_iff_eq, Option.isNone_iff_eq_none] at h
  obtain ⟨⟨⟨⟨⟨⟨h1, h2⟩, h3⟩, h4⟩, h5⟩, h6⟩, h7⟩ := h
  exact ⟨h1, h2, h3, h4, ⟨h5, h6⟩, h7⟩

/-- MailboxRules: a doorbell before the boot has ended, of a free context, with a reserved byte, and while a command runs. -/
theorem witness_MailboxRules :
    commandOf (.stop 1) (Device.reset.ctx 1).mailbox.cmd = some (1, 4) ∧ Device.reset.booted = false ∧ base.booted = true ∧
      ((commanding base [4]).ctx 0).mailbox.running = none ∧ leAt ((commanding base [4]).ctx 0).mailbox.cmd 0 1 = 4 ∧
      leAt (commandBytes [4, 0, 1]) 2 2 ≠ 0 ∧ unusedZero 4 (commandBytes [4, 0, 0, 0, 0, 1]) = false ∧
      (base.ctx 1).state = .free ∧ leAt (commandBytes [4]) 2 2 = 0 ∧ unusedZero 4 (commandBytes [4]) = true ∧
      ((accepted (commanding base [4]) 0 (commandBytes [4])).ctx 0).mailbox.running = some (commandBytes [4]) := by
  decide +kernel

/-- A Locket image of 852 bytes: one kernel of one state (SPAN B0, EXIT, NEXT), and one graph of one launch of 32 threads. -/
def image0 : List (BitVec 8) :=
  (([0x03000000, 852, 0x00010001, 0, 0x40, 0x44, 0, 0, 0, 0, 0, 0, 0, 0, 0, 0] ++          -- the header (Table 16-1)
    [0xA0, 1, 1, 0, 1, 1, 1, 1, 32, 0, 0, 0, 0, 1, 0, 0, 0, 0] ++ List.replicate 6 0 ++   -- kernel and graph tables
    [0x03000060, 1, 0x00400080, 0, 0, 0, 0, 0, 0, 0, 0, 0x00010000, 1, 0x348, 0x100, 0x120, 0x140, 0x340, 0x344, 0, 0, 12, 0, 0] ++
    [0x1000, 0, 0, 0, 0, 0, 0, 0] ++                                                      -- the block table (06 Table 06-1)
    [0, 1, 0, 0, 0, 0, 0, 0] ++ List.replicate 128 0 ++ [0, 0] ++                         -- the state, its map, no set, its list
    [0x6A200000, 0x6B000000, 0x6A400000] : List Nat)).flatMap (fun n => natToBytes n 4)

/-- A context that holds a spill region and a save area and no Locket. -/
def loadable : Device :=
  ctx base (fun c => { c with
    lockets := []
    regions := [4, 10].map (fun k => { kind := k, sub := 0, sec := false, r := true, w := true, size := 2 ^ 26, base := 2 ^ 30 * k.toNat,
                                       phys := 0, handle := none, bytes := [] }) })

/-- The LOAD of that image from host address 64. -/
def loadBytes : List (BitVec 8) := commandBytes ([1, 0, 0, 0, 0, 0, 0, 0, 64, 0, 0, 0, 0, 0, 0, 0] ++ natToBytes 852 4)

/-- The device in which it runs. -/
def loadingDevice : Device := accepted (commanding loadable loadBytes) 0 loadBytes

theorem choose_some {free : List Nat} {n : Nat} {test : Nat → Bool} (h : (searchFrom test n 0).isSome = true) :
    ∃ x, choose free n test = some x := by
  unfold choose
  split
  · exact ⟨_, rfl⟩
  · exact some_of h

theorem fresh_some : ∃ h, loadingDevice.freshHandle 0 = some h := choose_some (by decide +kernel)

theorem load_some {d : Device} {c : BitVec 6} {img : List (BitVec 8)} {h : Nat} (hf : d.freshHandle c = some h)
    (hn : (headerOf img).nr = 0) (hr : relocsOf img = [])
    (hp : ((graphPlaces img (headerOf img).gtab (headerOf img).ng).getD []).all (fun p => decide (64 ≤ p.1)) = true)
    (h4 : (d.ctx c).regions.any (fun r => r.kind.toNat == 4) = true)
    (h10 : (d.ctx c).regions.any (fun r => r.kind.toNat == 10) = true) : ∃ e, d.loadImage c img = some (e, h) := by
  have hz : (headerOf (d.locketOf img h).image).nr = 0 := by
    simp only [Device.locketOf, hr, List.foldl_nil, headerOf_withHandle img h hp, hn]
  simp [Device.loadImage, hf, planOf, hz, Context.addedRegions, h4, h10, Device.placeRegions, fixedRegions]

/-- The Locket of that image under handle 1, debuggable. -/
def locket0 : Locket :=
  { handle := 1, dbg := true, image := withHandle image0 1, kernels := kernelsOf (withHandle image0 1), graphs := [] }

/-- The machine that holds it, and a tensor map. -/
def graphed : Device := ctx base (fun c => { c with tmaps := [(0, map0)], lockets := [locket0] })

/-- PATCH of its one packet with the same words. -/
def patchBytes : List (BitVec 8) :=
  commandBytes ([3, 0, 0, 0, 1, 0, 0, 0, 0x48, 3, 0, 0, 12, 0, 0, 0] ++
    [0x6A200000, 0x6B000000, 0x6A400000].flatMap (fun n => natToBytes n 4))

/-- LoadUnloadPatch: LOAD of zeros, which fails a check, and of an image that passes them; UNLOAD of a handle that names nothing,
of a Locket with a live launch, and of one with none; PATCH of a Locket that is debuggable, and of one that is not. -/
theorem witness_LoadUnloadPatch :
    Commanded (commanding base [1]) 0 (commandBytes [1]) 1 ∧ leAt (commandBytes [1]) 8 8 % 64 = 0 ∧
      leAt (commandBytes [1]) 8 8 + leAt (commandBytes [1]) 16 4 ≤ 2 ^ 64 ∧
      ((accepted (commanding base [1]) 0 (commandBytes [1])).failedCheck 0 []).isSome = true ∧
      Commanded (commanding loadable loadBytes) 0 loadBytes 1 ∧ leAt loadBytes 8 8 % 64 = 0 ∧
      loadingDevice.failedCheck 0 image0 = none ∧ (∃ e h, loadingDevice.loadImage 0 image0 = some (e, h)) ∧
      Commanded (commanding base [6, 0, 0, 0, 9]) 0 (commandBytes [6, 0, 0, 0, 9]) 6 ∧
      Commanded (commanding (launching [launch0]) [6, 0, 0, 0, 1]) 0 (commandBytes [6, 0, 0, 0, 1]) 6 ∧
      (∃ l ∈ ((launching [launch0]).ctx 0).lockets, l.handle = 1) ∧ ((launching [launch0]).ctx 0).saved = [] ∧
      launch0.record.handle = 1 ∧ launch0.state ≠ .complete ∧
      Commanded (commanding base [3, 0, 0, 0, 1]) 0 (commandBytes [3, 0, 0, 0, 1]) 3 ∧
      (((commanding base [3, 0, 0, 0, 1]).ctx 0).locket 1).map Locket.dbg = some false := by
  obtain ⟨h, hf⟩ := fresh_some
  obtain ⟨e, he⟩ := load_some (img := image0) hf (by decide +kernel) (by decide +kernel) (by decide +kernel) (by decide +kernel)
    (by decide +kernel)
  exact ⟨commanded_of (by decide +kernel), by decide +kernel, by decide +kernel, by decide +kernel, commanded_of (by decide +kernel),
    by decide +kernel, by decide +kernel, ⟨e, h, he⟩, commanded_of (by decide +kernel),
    commanded_of (by decide +kernel), by decide +kernel, by decide +kernel, rfl, by decide, commanded_of (by decide +kernel),
    by decide +kernel⟩

theorem witness_LoadUnloadPatch_patch :
    Commanded (commanding graphed patchBytes) 0 patchBytes 3 ∧
      ((commanding graphed patchBytes).ctx 0).locket (BitVec.ofNat 16 (leAt patchBytes 4 2)) = some locket0 ∧
      0 < leAt patchBytes 12 2 ∧ leAt patchBytes 12 2 ≤ 48 ∧ leAt patchBytes 8 4 + leAt patchBytes 12 2 ≤ locket0.image.length ∧
      patchWhole locket0.image (leAt patchBytes 8 4) 12 = true ∧
      kernelsPass (overwrite locket0.image (leAt patchBytes 8 4) (slicePad 0 patchBytes 16 12)) = true ∧
      ordrOk ((commanding graphed patchBytes).ctx 0)
        (kernelsOf (overwrite locket0.image (leAt patchBytes 8 4) (slicePad 0 patchBytes 16 12))) = true ∧
      ((commanding graphed patchBytes).ctx 0).pendingPatches < 16 :=
  ⟨commanded_of (by decide +kernel), by decide +kernel, by decide +kernel, by decide +kernel, by decide +kernel, by decide +kernel,
    by decide +kernel, by decide +kernel, by decide +kernel⟩

/-- START of its graph at priority 3 with one argument: map 0 rebased to 0x100. -/
def startBytes : List (BitVec 8) :=
  commandBytes [2, 0, 0, 0, 1, 0, 0, 0, 3, 1, 0, 0, 0, 0, 0, 0, 0, 0, 0, 0, 0, 1]

/-- The records of the graph. -/
def graph0 : List LaunchRec :=
  [{ queue := 0, prio := 0, op := 1, handle := 1, kernel := 0, ext := [1, 1, 1, 1], threads := 32, preds := [0, 0, 0, 0], tag := 0x10001 }]

/-- StartEntersGraph: a lawful START, and one whose argument names a map that is not there. -/
theorem witness_StartEntersGraph :
    Commanded (commanding graphed startBytes) 0 startBytes 2 ∧
      (((commanding graphed startBytes).ctx 0).locket (BitVec.ofNat 16 (leAt startBytes 4 2))).bind (fun l => l.graph (leAt startBytes 6 2)) =
        some graph0 ∧
      leAt startBytes 8 1 ≤ 3 ∧ leAt startBytes 9 1 ≤ 3 ∧ ((commanding graphed startBytes).ctx 0).argOk (0, 0x100) = true ∧
      (∀ r ∈ graph0, (commanding graphed startBytes).recordOk 0 r = true) ∧
      ((commanding base startBytes).ctx 0).argOk (0, 0x100) = false :=
  ⟨commanded_of (by decide +kernel), by decide +kernel, by decide +kernel, by decide +kernel, by decide +kernel, by decide +kernel,
    by decide +kernel⟩

/-- The machine with a save area in the page that die 0 translates, in some state. -/
def saving (st : CtxState) (stopping : Bool) : Device :=
  ctx (kern (grp spilled (fun g => { g with cells := g.cells.take 1 })) (fun k => { k with shared := 8, tiles := 0 })) (fun c => { c with
    state := st, stopping := stopping
    regions := c.regions ++ [{ kind := 10, sub := 0, sec := false, r := true, w := true, size := 60000, base := 0x100000, phys := 0,
                               handle := none, bytes := [] }] })

/-- Whether a save's pieces can be written to its area. -/
def saves (d : Device) : Bool :=
  match d.refillAll (d.groupsOf 0) with
  | .ok e => (match (e.ctx 0).saveArea with
    | some r => (match d.writePieces 0 r.base (d.savePieces 0) with | .ok _ => true | .error _ => false)
    | none => false)
  | .error _ => false

/-- The machine without a placed workgroup, stopped: nothing to restore. -/
def stoppedEmpty : Device := { saving .stopped false with wgs := [] }

/-- StopAndResume: STOP in each case, the save of a drained context, one that has not drained, and RESUME. -/
theorem witness_StopAndResume :
    Commanded (commanding (saving .stopped false) [4]) 0 (commandBytes [4]) 4 ∧
      Commanded (commanding (saving .active false) [4]) 0 (commandBytes [4]) 4 ∧ (saving .active false).saveFits 0 = true ∧
      Commanded (commanding base [4]) 0 (commandBytes [4]) 4 ∧ (commanding base [4]).saveFits 0 = false ∧
      (saving .active true).drained 0 = true ∧ saves (saving .active true) = true ∧
      ({ saving .active true with matrix := [op0] } : Device).drained 0 = false ∧
      Commanded (commanding base [5]) 0 (commandBytes [5]) 5 ∧ (base.ctx 0).state = .active ∧ (base.ctx 0).stopping = false ∧
      Commanded (commanding stoppedEmpty [5]) 0 (commandBytes [5]) 5 ∧
      (match (accepted (commanding stoppedEmpty [5]) 0 (commandBytes [5])).restore 0 with
       | .done e => (e.ctx 0).replay == false | .wait => false | .fail _ => false) = true :=
  ⟨commanded_of (by decide +kernel), commanded_of (by decide +kernel), by decide +kernel, commanded_of (by decide +kernel),
    by decide +kernel, by decide +kernel, by decide +kernel, by decide +kernel, commanded_of (by decide +kernel), by decide +kernel,
    by decide +kernel, commanded_of (by decide +kernel), by decide +kernel⟩

/-- Queries: each item, at a boundary of its range. -/
theorem witness_Queries :
    Commanded (commanding base [7, 0, 0, 0, 0x83, 0xF7, 0, 1]) 0 (commandBytes [7, 0, 0, 0, 0x83, 0xF7, 0, 1]) 7 ∧
      isBlock21 0xF783 ∧ ¬ isBlock21 0xF784 ∧
      Commanded (commanding base [7, 0, 0, 0, 64, 0, 0, 2]) 0 (commandBytes [7, 0, 0, 0, 64, 0, 0, 2]) 7 ∧
      Commanded (commanding base [7, 0, 0, 0, 65, 0, 0, 2]) 0 (commandBytes [7, 0, 0, 0, 65, 0, 0, 2]) 7 ∧
      Commanded (commanding base [7, 0, 0, 0, 63, 0, 0, 3, 255]) 0 (commandBytes [7, 0, 0, 0, 63, 0, 0, 3, 255]) 7 ∧
      Commanded (commanding base [7, 0, 0, 0, 10, 0, 0, 4]) 0 (commandBytes [7, 0, 0, 0, 10, 0, 0, 4]) 7 ∧
      Commanded (commanding base [7, 0, 0, 0, 0, 0, 0, 5]) 0 (commandBytes [7, 0, 0, 0, 0, 0, 0, 5]) 7 ∧
      leAt (commandBytes [7, 0, 0, 0, 65, 0, 0, 2]) 4 4 = 0x02000041 := by
  refine ⟨commanded_of (by decide +kernel), ?_, ?_, commanded_of (by decide +kernel), commanded_of (by decide +kernel),
    commanded_of (by decide +kernel), commanded_of (by decide +kernel), commanded_of (by decide +kernel), by decide +kernel⟩ <;>
  · unfold isBlock21
    decide

/-! ## Witnesses: contexts, the window and the debugger -/

/-- ContextLifecycle. -/
theorem witness_ContextLifecycle :
    base.booted = true ∧ (base.ctx 63).state = .free ∧ (base.ctx 0).state ≠ .free ∧ (base.ctx 0).state = .active ∧
      (saving .stopped false).booted = true ∧ ((saving .stopped false).ctx 0).state = .stopped ∧
      ((saving .ended false).ctx 0).state = .ended := by
  decide +kernel

/-- WindowWrites: the states of a gate entry's context, a log's tail moved to its head and past it, lcr off and on, the message
tail at the head and past it, and a secure range that an access through the aperture meets. -/
theorem witness_WindowWrites :
    base.booted = true ∧ Device.reset.booted = false ∧ (base.ctx 63).state = .free ∧ (base.ctx 0).state = .active ∧
      ((logging.ctx 0).region 7 0).isSome = true ∧
      ((1 : Word) - ((logging.ctx 0).log 0).tail).toNat ≤ (((logging.ctx 0).log 0).head - ((logging.ctx 0).log 0).tail).toNat ∧
      ¬ ((2 : Word) - ((logging.ctx 0).log 0).tail).toNat ≤ (((logging.ctx 0).log 0).head - ((logging.ctx 0).log 0).tail).toNat ∧
      (base.ctx 0).dbgBlock.lcr = false ∧ ((ctx base (fun c => c.setLcr true false)).ctx 0).dbgBlock.lcr = true ∧
      ((0 : Word) - base.msgTail).toNat ≤ (base.msgHead - base.msgTail).toNat ∧
      ¬ ((1 : Word) - base.msgTail).toNat ≤ (base.msgHead - base.msgTail).toNat ∧ base.held = [] ∧ base.accs = [] ∧
      ({ base with secRanges := [(16, 4)] } : Device).secRanges ≠ [] := by
  decide +kernel

/-- The machine whose debug block names its workgroup, which stands as `st` says. -/
def debugging (st : BitVec 2) (area : Nat) : Device :=
  let d := ctx base (fun c => { c with dbgBlock := { c.dbgBlock with wtag := 1, word := 0, paddr := BitVec.ofNat 64 area } })
  { d with wgs := d.wgs.map (fun w => { w with stopped := { w.stopped with st := st, cause := if st = 1 then 2 else 0 } }) }

/-- Its workgroup. -/
def target (st : BitVec 2) : Workgroup :=
  { placedWorkgroup 0 with stopped := { DebugStop.running with st := st, cause := if st = 1 then 2 else 0 } }

theorem targeted_of {d : Device} {cmd : BitVec 4} {w : Workgroup}
    (h : (decide (d.boot.step = 15 ∧ d.boot.halt = false) &&
      d.wgs.all (fun x => !(x.ctx == 0 && !x.gone && x.stopped.st == 1 && x.stopped.cause == 1)) &&
      decide ((d.wgs.filter (fun x => x.ctx == 0 && !x.gone)).find? (fun x =>
        x.tag == (d.ctx 0).dbgBlock.wtag && x.ordinal == (d.ctx 0).dbgBlock.word) = some w)) = true) : Targeted d 0 cmd w := by
  simp only [Bool.and_eq_true, decide_eq_true_eq] at h
  obtain ⟨⟨h1, h2⟩, h3⟩ := h
  refine ⟨h1, ?_, h3⟩
  intro x hx hc hg hs
  have := List.all_eq_true.mp h2 x hx
  simp [hc, hg, hs] at this

/-- DebugCommands: a target that runs, that is stopping and that is stopped; a port access to a mask and to the last word of the
shared memory. -/
theorem witness_DebugCommands :
    Targeted (debugging 0 0) 0 1 (target 0) ∧ (target 0).stopped.st = 0 ∧ Targeted (debugging 2 0) 0 2 (target 2) ∧
      (target 2).stopped.st = 2 ∧ (target 2).stopped.brkAt = none ∧
      (∃ k, ((debugging 2 0).ctx (target 2).ctx).kernel (target 2).handle (target 2).kernel = some k ∧
        objectAt (target 2) k.shared (target 2).core ((debugging 2 0).ctx 0).dbgBlock.sobj.toNat = some object0) ∧
      ((debugging 1 0).wgs.filter (fun x => x.ctx == 0 && !x.gone)).find? (fun x => x.stopped.st == 1) = some (target 1) ∧
      (debugging 1 0).writes = [] ∧ (debugging 2 0).wg (target 2).uid = some (target 2) ∧
      Targeted (debugging 2 (2 * 2 ^ 60 + 7 * 2 ^ 7)) 0 4 (target 2) ∧
      ((debugging 2 (2 * 2 ^ 60 + 7 * 2 ^ 7)).ctx 0).dbgBlock.paddr.toNat / 2 ^ 60 = 2 ∧
      ((target 2).groups[0]?).map Group.retired = some false ∧
      Targeted (debugging 2 65528) 0 4 (target 2) ∧ ((debugging 2 65528).ctx 0).dbgBlock.paddr.toNat / 2 ^ 60 = 0 ∧
      sharedPlace (target 2) 65536 (target 2).core 65528 8 = some { space := .shared 0 0, addr := 65528 } ∧
      (debugging 2 65528).meetsLock { space := .shared 0 0, addr := 65528 } 8 (target 2).core hitsStore = false :=
  ⟨targeted_of (by decide +kernel), by decide, targeted_of (by decide +kernel), by decide, by decide, ⟨_, rfl, by decide +kernel⟩,
    by decide +kernel, by decide +kernel, by decide +kernel, targeted_of (by decide +kernel), by decide +kernel, by decide +kernel,
    targeted_of (by decide +kernel), by decide +kernel, by decide +kernel, by decide +kernel⟩

/-! ## Witnesses: the outside world and the steps -/

/-- SpdmAnswers, PeerPorts: a device before and after the boot; a port down and up; a window that admits a read of 16 bytes, and
a write that none admits. -/
theorem witness_PeerPorts :
    Device.reset.booted = false ∧ base.booted = true ∧ (base.ctx 63).state = .free ∧ base.ports.getLsbD 16 = false ∧
      ({ base with ports := 0x10000 } : Device).ports.getLsbD 16 = true ∧
      (base.inboundWindow 16 false true 0 16).isNone = true := by
  decide +kernel

/-- The machine with a copy under way that has failed `n` times. -/
def failed (n : Nat) : Device := requesting { copy0 with done := 0, fails := n }

/-- FaultsAndFences: a burst that fails for the first and for the third time; block identifiers at the ends of their ranges; a
core that is fenced and one that is not. -/
theorem witness_FaultsAndFences :
    (failed 0).request 7 = some { copy0 with done := 0, fails := 0 } ∧ (failed 0).inService { copy0 with done := 0, fails := 0 } = true ∧
      (failed 2).request 7 = some { copy0 with done := 0, fails := 2 } ∧ (failed 2).inService { copy0 with done := 0, fails := 2 } = true ∧
      isBlock21 0xF783 ∧ isBlock21 0xA1000 ∧ isBlock21 0x3F700 ∧ 0x3F700 / 2 ^ 16 ≤ 3 ∧
      (0xF7 : BitVec 8) ∈ ({ base with fenced := [0xF7] } : Device).fenced ∧ (0xF7 : BitVec 8) ∉ base.fenced ∧ base.booted = true := by
  refine ⟨by decide +kernel, by decide +kernel, by decide +kernel, by decide +kernel, ?_, ?_, ?_, by decide, by decide +kernel,
    by decide +kernel, by decide +kernel⟩ <;>
  · unfold isBlock21
    decide

/-- ResetPowerAndWorlds: a block in use and one that is not; a range that a translation maps and one that nothing does. -/
theorem witness_ResetPowerAndWorlds :
    base.clk.length = 4 ∧ isBlock21 0 ∧ base.blockBusy 0 = true ∧ isBlock21 0x4C700 ∧ base.blockBusy 0x4C700 = false ∧
      spilled.rangeBusy 0 16 = true ∧ spilled.rangeBusy 0x100000000 16 = false := by
  refine ⟨by decide +kernel, ?_, by decide +kernel, ?_, by decide +kernel, by decide +kernel, by decide +kernel⟩ <;>
  · unfold isBlock21
    decide

/-- What a partition picks when the next chain is one instruction: the chain is ready, of one item that is well formed, and the
state in which it begins. -/
def issuesOne (s : State) : Bool :=
  let d := s.dev.refillWaiting 0 0
  match d.pick 0 0 with
  | some (_, r) =>
    decide (r.answer = .issue) &&
      (match r.items with
       | [it] => it.reject.isNone && (match it.instr with | some i => i.wf | none => false) &&
          (match Device.reach r.items r.views (match r.views with | v :: _ => d.cachePacket v | [] => d) with
           | .ok _ => true | .error _ => false)
       | _ => false)
  | none => false

/-- StepRunsDecoded: a placed IADD at its partition's turn, a device event at its turn, and an input of the host. -/
theorem witness_StepRunsDecoded :
    State.reset.dev.powered = true ∧ (State.reset.placed [0x03500820]).turn = .partition 0 0 ∧
      (State.reset.placed [0x03500820]).dev.powered = true ∧ issuesOne (State.reset.placed [0x03500820]) = true ∧
      isDeviceEvent .placement = true ∧ isInput (.load 0) = true := by
  decide +kernel

/-- StepKeepsSettled: the state right after reset, and the step that issues a placed instruction. -/
theorem witness_StepKeepsSettled :
    State.reset.Settled ∧ (match step (State.reset.placed [0x03500820]) with
      | .next t => t.issue.isNone && t.latch.isNone | _ => false) = true :=
  ⟨⟨rfl, rfl⟩, by decide +kernel⟩

/-- MemoryReadsBack: two memories in canonical form. -/
theorem witness_MemoryReadsBack : Memory.wf [(0, 1), (5, 2)] = true ∧ Memory.wf [] = true := by decide

/-- EncodeRoundTrip: an instruction with an EXT, and one with a TAIL. -/
theorem witness_EncodeRoundTrip :
    (Instr.iadd (hx { Ext.zero with dh := 3 }) 5 120 8 16 true).isWord = true ∧
      (Instr.iadd (hx { Ext.zero with dh := 3 }) 5 120 8 16 true).wf = true ∧ copyI.isWord = true ∧ copyI.wf = true := by
  decide

/-! ## Witnesses: the divergence stack -/

theorem pushed_of {v : View} {e : Word → StackEntry} {lanes : Nat} {q : Seq} {d : Device}
    (h : (decide (q.depth < v.kern.dstack) &&
      match d.mainWrite (dieOf v.grp.core) v.c (v.entryAddr q.depth) (e (BitVec.ofNat 32 lanes)).bytes with
      | .ok _ => true
      | .error _ => false) = true) : ∃ q' d', Pushed v e lanes q d q' d' := by
  unfold Pushed
  cases hm : d.mainWrite (dieOf v.grp.core) v.c (v.entryAddr q.depth) (e (BitVec.ofNat 32 lanes)).bytes with
  | ok d' =>
    rw [hm] at h
    exact ⟨_, d', by simpa using h, rfl, rfl⟩
  | error _ => rw [hm] at h; simp at h

theorem top_of {v : View} {q : Seq} {d : Device} {e : Word → StackEntry} {low : Word}
    (h : (match d.mainRead (dieOf v.grp.core) v.c (v.entryAddr (q.depth - 1)) 32 with
      | .ok r => decide (StackEntry.ofBytes r.1 = some (e low))
      | .error _ => false) = true) :
    ∃ d', TopEntry v q d e (low.toNat + (q.high.getD (q.depth - 1) 0).toNat * 2 ^ 32) d' := by
  unfold TopEntry
  cases hm : d.mainRead (dieOf v.grp.core) v.c (v.entryAddr (q.depth - 1)) 32 with
  | ok r =>
    rw [hm] at h
    exact ⟨r.2, r.1, low, rfl, of_decide_eq_true h, rfl⟩
  | error _ => rw [hm] at h; simp at h

/-- Lanes 0 to 15 in block 0, 16 to 23 in block 1 and the others in block 2, in a kernel that has a state for each block alone,
with a declared join or none in each. -/
def diverging (join : Option (BitVec 12)) : Device :=
  kern (grp spilled (fun g => { g with
    lbr := (List.range 32).map (fun j => if j < 16 then 0 else if j < 24 then 1 else 2) })) (fun k => { k with
    blocks := [0, 1, 2].map (fun b => { join := false, fall := 0, single := b })
    states := [0, 1, 2].map (fun b => { code := [], join := join, cands := [0, 1, 2], set := [b], succ := [(1, 0), (2, 1), (4, 2)] }) })

/-- The same with a second slot in use, that of lanes 24 to 31. -/
def divergingBoth : Device :=
  grp (slot (diverging none) (fun s => { s with mask := 0x00FFFFFF })) (fun g => { g with
    slot1 := g.slot0.map (fun s => { s with state := 2, mask := 0xFF000000 }) })

/-- The same with no room on the stack. -/
def divergingFull : Device := kern (diverging (some 1)) (fun k => { k with dstack := 0 })

/-- The issuing slot as the sequencer sees it. -/
def seqSlot (d : Device) : SeqSlot := ((seqOf [see d]).slot issue0.slot).getD default

/-- The lanes that NEXT is left with. -/
def leftOver (d : Device) : Nat :=
  without (without (seqSlot d).mask (seqOf [see d]).exited)
    (atJoin (seqOf [see d]) (without (seqSlot d).mask (seqOf [see d]).exited) (seqSlot d).base.join)

/-- The record of the issuing slot's state. -/
def stateOf (d : Device) : StateRec := ((see d).auto.states[(seqSlot d).base.state.toNat]?).getD default

/-- Whether NEXT meets a set that the automaton does not map. -/
def isUnmapped (d : Device) : Bool :=
  decide ((seqOf [see d]).slot issue0.slot = some (seqSlot d)) &&
    decide ((see d).auto.states[(seqSlot d).base.state.toNat]? = some (stateOf d)) && decide (leftOver d ≠ 0) &&
    decide ((stateOf d).direct ((seqOf [see d]).setOf (leftOver d)) = some none ∨
      (stateOf d).direct ((seqOf [see d]).setOf (leftOver d)) = none) &&
    decide ((see d).auto.lookup ((seqOf [see d]).setOf (leftOver d)) = none)

theorem unmapped_of {d : Device} (h : isUnmapped d = true) :
    Unmapped (see d) issue0 (seqOf [see d]) (seqSlot d) (stateOf d) (leftOver d) := by
  simp only [isUnmapped, Bool.and_eq_true, decide_eq_true_eq] at h
  obtain ⟨⟨⟨⟨h1, h2⟩, h3⟩, h4⟩, h5⟩ := h
  exact ⟨h1, h2, rfl, h3, h4, h5⟩

/-- The lanes of a device's group in some blocks. -/
def inBlocks (d : Device) (m : Nat) (bs : List (BitVec 12)) : Nat := (seqOf [see d]).inBlocks m bs

/-- NextRetiresAndSplits: a declared join, a second slot in use, three blocks of which two slots take two, and a full stack. -/
theorem witness_NextRetiresAndSplits_push :
    (Instr.next h0).wf = true ∧
      (Issuing (on (diverging (some 2))) issue0 [see (diverging (some 2))] ∧
        Unmapped (see (diverging (some 2))) issue0 (seqOf [see (diverging (some 2))]) (seqSlot (diverging (some 2)))
          (stateOf (diverging (some 2))) (leftOver (diverging (some 2))) ∧
        (stateOf (diverging (some 2))).join = some 2 ∧ (seqSlot (diverging (some 2))).base.join ≠ some 2) ∧
      (Issuing (on divergingBoth) issue0 [see divergingBoth] ∧
        Unmapped (see divergingBoth) issue0 (seqOf [see divergingBoth]) (seqSlot divergingBoth) (stateOf divergingBoth)
          (leftOver divergingBoth) ∧ (stateOf divergingBoth).join = none ∧
        (seqOf [see divergingBoth]).setOf (leftOver divergingBoth) = 0 :: 1 :: [] ∧
        ((seqOf [see divergingBoth]).slot (!issue0.slot)).isSome = true ∧
        ∃ q' d', Pushed (see divergingBoth) (StackEntry.work none) (inBlocks divergingBoth (leftOver divergingBoth) [1])
          (seqOf [see divergingBoth]) divergingBoth q' d') ∧
      (Issuing (on (diverging none)) issue0 [see (diverging none)] ∧
        Unmapped (see (diverging none)) issue0 (seqOf [see (diverging none)]) (seqSlot (diverging none)) (stateOf (diverging none))
          (leftOver (diverging none)) ∧ (stateOf (diverging none)).join = none ∧
        (seqOf [see (diverging none)]).setOf (leftOver (diverging none)) = 0 :: 1 :: [2] ∧
        (seqOf [see (diverging none)]).own = none ∧ ((seqOf [see (diverging none)]).slot (!issue0.slot)).isNone = true ∧
        (see (diverging none)).auto.lookup [1, 2] = none ∧
        ∃ q' d', Pushed (see (diverging none)) (StackEntry.work none) (inBlocks (diverging none) (leftOver (diverging none)) [2])
          (seqOf [see (diverging none)]) (diverging none) q' d') ∧
      (Issuing (on divergingFull) issue0 [see divergingFull] ∧
        Unmapped (see divergingFull) issue0 (seqOf [see divergingFull]) (seqSlot divergingFull) (stateOf divergingFull)
          (leftOver divergingFull) ∧ (see divergingFull).kern.dstack ≤ (see divergingFull).agent.depth ∧
        (stateOf divergingFull).join = some 1 ∧ (seqSlot divergingFull).base.join ≠ some 1) :=
  ⟨by decide,
    ⟨on_issuing _ (by decide +kernel), unmapped_of (by decide +kernel), by decide +kernel, by decide +kernel⟩,
    ⟨on_issuing _ (by decide +kernel), unmapped_of (by decide +kernel), by decide +kernel, by decide +kernel, by decide +kernel,
      pushed_of (by decide +kernel)⟩,
    ⟨on_issuing _ (by decide +kernel), unmapped_of (by decide +kernel), by decide +kernel, by decide +kernel, by decide +kernel,
      by decide +kernel, by decide +kernel, pushed_of (by decide +kernel)⟩,
    ⟨on_issuing _ (by decide +kernel), unmapped_of (by decide +kernel), by decide +kernel, by decide +kernel, by decide +kernel⟩⟩

/-- NextRetiresAndSplits: the push of the merge entry of the declared join, and the lanes that are left under it. -/
theorem witness_NextRetiresAndSplits_merge :
    (∃ q' d', Pushed (see (diverging (some 2))) (StackEntry.merge 2 none) (leftOver (diverging (some 2)))
      (seqOf [see (diverging (some 2))]) (diverging (some 2)) q' d') ∧
      (let d := grp (diverging (some 2)) (fun g => { g with lbr := (List.range 32).map (fun j => if j < 16 then 0 else 2) })
       isUnmapped d = true ∧ without (leftOver d) (atJoin (seqOf [see d]) (leftOver d) (some 2)) ≠ 0 ∧
        (see d).auto.lookup ((seqOf [see d]).setOf (without (leftOver d) (atJoin (seqOf [see d]) (leftOver d) (some 2)))) = some 0) :=
  ⟨pushed_of (by decide +kernel), by decide +kernel⟩

/-- A group all of whose slot's lanes have exited, the others in block 0, with some entries on its stack. -/
def popping (l : List StackEntry) : Device :=
  let d := agent (slot (grp (diverging none) (fun g => { g with lbr := List.replicate 32 0, exited := 0xFFFF0000, parked := 0xFF }))
    (fun s => { s with mask := 0xFFFF0000 })) (fun a => { a with depth := l.length })
  { d with hbm := Memory.putBytes d.hbm ((see d).entryAddr 0 % 65536) (l.flatMap StackEntry.bytes) }

/-- Whether NEXT leaves the slot of a group without lanes and the other is empty. -/
def isEmptied (d : Device) : Bool :=
  decide ((seqOf [see d]).slot issue0.slot = some (seqSlot d)) && ((seqOf [see d]).slot (!issue0.slot)).isNone &&
    decide (leftOver d = 0)

theorem emptied_of {d : Device} (h : isEmptied d = true) : Emptied issue0 (seqOf [see d]) (seqSlot d) := by
  simp only [isEmptied, Bool.and_eq_true, decide_eq_true_eq] at h
  exact ⟨h.1.1, fun _ => h.1.2, h.2⟩

/-- The sequencer of a group without its top entry. -/
def popped1 (d : Device) : Seq := popped (seqOf [see d])

/-- NextRetiresAndSplits: a work entry alone, two work entries under one join, a work entry above a merge entry, and a merge
entry. -/
theorem witness_NextRetiresAndSplits_pop :
    (let d := popping [.work none 0xFF00]
     Issuing (on d) issue0 [see d] ∧ Emptied issue0 (seqOf [see d]) (seqSlot d) ∧ (see d).agent.library = none ∧
      (seqOf [see d]).depth = 0 + 1 ∧ (∃ d', TopEntry (see d) (seqOf [see d]) d (StackEntry.work none) 0xFF00 d') ∧
      (see d).auto.lookup ((seqOf [see d]).setOf 0xFF00) = some 0) ∧
      (let d := popping [.work none 0x0F00, .work none 0xF000]
       isEmptied d = true ∧ (seqOf [see d]).own = none ∧ 0 + 1 < (seqOf [see d]).depth ∧
        (∃ d', TopEntry (see d) (seqOf [see d]) d (StackEntry.work none) 0xF000 d') ∧
        (∃ d', TopEntry (see d) (popped1 d) d (StackEntry.work none) 0x0F00 d') ∧
        (see d).auto.lookup ((seqOf [see d]).setOf 0x0F00) = some 0) ∧
      (let d := popping [.merge 1 none 0xF0, .work (some 1) 0xF000]
       isEmptied d = true ∧ (∃ d', TopEntry (see d) (seqOf [see d]) d (StackEntry.work (some 1)) 0xF000 d') ∧
        (∃ d', TopEntry (see d) (popped1 d) d (StackEntry.merge 1 none) 0xF0 d')) ∧
      (let d := popping [.merge 1 none 0xF0]
       isEmptied d = true ∧ (∃ d', TopEntry (see d) (seqOf [see d]) d (StackEntry.merge 1 none) 0xF0 d') ∧
        Nat.land ((parkedAt (seqOf [see d]) (without (seqSlot d).mask (seqOf [see d]).exited) (seqSlot d).base.join).setSlot false none).parked
          0xF0 ≠ 0) :=
  ⟨⟨on_issuing _ (by decide +kernel), emptied_of (by decide +kernel), by decide +kernel, by decide +kernel,
      top_of (low := 0xFF00) (by decide +kernel), by decide +kernel⟩,
    ⟨by decide +kernel, by decide +kernel, by decide +kernel, top_of (low := 0xF000) (by decide +kernel),
      top_of (low := 0x0F00) (by decide +kernel), by decide +kernel⟩,
    ⟨by decide +kernel, top_of (low := 0xF000) (by decide +kernel), top_of (low := 0xF0) (by decide +kernel)⟩,
    ⟨by decide +kernel, top_of (low := 0xF0) (by decide +kernel), by decide +kernel⟩⟩

/-! ## Witnesses: further cases -/

/-- Whether a value is a number that is not zero. -/
def isNonzero (v : Val) : Bool := match v with | .num _ k _ => k != 0 | _ => false

/-- FloatResults: special operands, and special functions of other numbers, SIN inside its domain and beyond it. -/
theorem witness_FloatResults_special :
    isType 0 = true ∧
      (SpecialRow (typeFmt 0) .rcp (.num true 0 0) (.inf true) 2 ∧ SpecialRow (typeFmt 0) .sqrt (.num true 1 0) (.nan false) 1 ∧
        SpecialRow (typeFmt 3) .log2 (.nan false) (.nan false) 0) ∧
      ((∀ y fl, ¬ SpecialRow (typeFmt 0) .rcp (.num false 3 (-1)) y fl) ∧ isNonzero (fnValue .rcp false 3 (-1)) = true) ∧
      ((∀ y fl, ¬ SpecialRow (typeFmt 0) .sin (.num false 1 0) y fl) ∧ isNonzero (fnValue .sin false 1 0) = true) ∧
      (∀ y fl, ¬ SpecialRow (typeFmt 0) .sin (.num false 1 21) y fl) ∧ isNonzero (fnValue .sin false 1 21) = true ∧
      2 ^ 20 < |ratio (.num false 1 21)| := by
  refine ⟨by decide, ⟨.rcpZero _ _, .sqrtNeg _ _ (by decide), .ofNan _ false⟩, ⟨nofun, by decide +kernel⟩,
    ⟨nofun, by decide +kernel⟩, nofun, by decide +kernel, ?_⟩
  norm_num [ratio]

/-- FloatResults: operands of a minimum, and of a change of sign, in a type. -/
theorem witness_FloatResults_exact :
    isType 3 = true ∧ (typeFmt 3).isTapered = (typeFmt 4).isTapered ∧
      (∀ v ∈ [(typeFmt 3).value 0x7FFF, (typeFmt 3).value 1], ∃ t x, isType t = true ∧
        (typeFmt t).isTapered = (typeFmt 3).isTapered ∧ v = (typeFmt t).value x) ∧ 0x7FFF < 2 ^ (typeFmt 3).width := by
  refine ⟨by decide, by decide, ?_, by decide⟩
  intro v hv
  simp only [List.mem_cons, List.not_mem_nil, or_false] at hv
  obtain rfl | rfl := hv
  · exact ⟨3, _, by decide, rfl, rfl⟩
  · exact ⟨3, _, by decide, rfl, rfl⟩

/-- A context that has ended in this CYC with a fault of code 0x83. -/
def endedNow : Device := ctx base (fun c => { c with state := .ended, fcause := 0x83, fcyc := base.cyc })

/-- UndeliveredTrapEnds: a second fault of the CYC, of a lower and of a higher code. -/
theorem witness_UndeliveredTrapEnds_again :
    (endedNow.ctx 0).state = .ended ∧ (endedNow.ctx 0).faultedAt endedNow.cyc = true ∧
      (endedNow.ctx 0).yields { code := 0x82, detail := 0, addr := 0 } = true ∧
      (endedNow.ctx 0).yields { code := 0x84, detail := 0, addr := 0 } = false := by
  decide +kernel

/-- A trace log of two records, both not drained. -/
def traceFull : Device := ctx tracing (fun c => { c with logT := { c.logT with head := 2 } })

/-- LogsAndPosts: MARK with its log full. -/
theorem witness_LogsAndPosts_full :
    Issuing (on traceFull) issue0 [see traceFull] ∧ (Instr.mark h0).wf = true ∧ (see traceFull).active h0 ≠ 0 ∧
      (see traceFull).ctx.logs 3 = true ∧ (see traceFull).ctx.logFull 3 false 1 = true :=
  ⟨on_issuing _ (by decide +kernel), by decide, by decide +kernel, by decide +kernel, by decide +kernel⟩

/-- A group in a library whose frame lies in no page that is mapped. -/
def frameUnmapped : Device :=
  agent base (fun a => { a with library := some { handle := 1, kernel := 0, lanes := 0xFFFFFFFF, depth := 0, frame := [] }
                                depth := 7 })

/-- The machine in its library, its frame that of a library. -/
def frameBad : Device :=
  { inLibrary with hbm := Memory.put inLibrary.hbm (((see inLibrary).entryAddr 0) % 65536 + 58) 2 }

/-- Whether the frame of a group can be read, and is one of a caller at user privilege. -/
def frameForm (d : Device) : Option Bool :=
  match (on d).dev.mainRead (dieOf (see d).grp.core) (see d).c ((see d).entryAddr ((see d).agent.depth - 7)) 224 with
  | .ok r => some (match SeqRec.ofBytes r.1 false with | some x => x.lib.isNone | none => false)
  | .error _ => none

/-- ReturnsRestoreFrame: GRET of a frame that cannot be read, and of one that is malformed. -/
theorem witness_ReturnsRestoreFrame_faults :
    Issuing (on frameUnmapped) issue0 [see frameUnmapped] ∧ (see frameUnmapped).library = true ∧
      View.unmerged [see frameUnmapped] = false ∧ frameForm frameUnmapped = none ∧
      Issuing (on frameBad) issue0 [see frameBad] ∧ (see frameBad).library = true ∧ View.unmerged [see frameBad] = false ∧
      frameForm frameBad = some false ∧ frameForm inLibrary = some true :=
  ⟨on_issuing _ (by decide +kernel), by decide +kernel, by decide +kernel, by decide +kernel, on_issuing _ (by decide +kernel),
    by decide +kernel, by decide +kernel, by decide +kernel, by decide +kernel⟩


/-- ReturnsRestoreFrame: the frame is one of a caller whose waits can be read, in a group that is no upper one of a pair. -/
theorem witness_ReturnsRestoreFrame_readable :
    (see inLibrary).grp.pair ≠ some true ∧
      ∃ (b : List (BitVec 8)) (d : Device) (r : SeqRec), (on inLibrary).dev.mainRead (dieOf (see inLibrary).grp.core) (see inLibrary).c
        ((see inLibrary).entryAddr ((see inLibrary).agent.depth - 7)) 224 = .ok (b, d) ∧ SeqRec.ofBytes b false = some r ∧
        r.lib = none ∧ WaitsReadable (on inLibrary).dev (see inLibrary) r := by
  refine ⟨by decide +kernel, ?_⟩
  have h : frameForm inLibrary = some true := by decide +kernel
  unfold frameForm at h
  split at h
  · next p hp =>
    cases hr : SeqRec.ofBytes p.1 false with
    | none => rw [hr] at h; simp at h
    | some r =>
      rw [hr] at h
      exact ⟨p.1, p.2, r, hp, hr, by simpa using h, .inr ⟨by decide +kernel, by decide +kernel⟩⟩
  · exact absurd h (by simp)

/-- A machine whose object at offset 0 is lost. -/
def objectGone (w : Wait) : Device := { waiting w with lost := [.shared 0 0 7] }

/-- WakesAndHeldArrivals: a wait on an object that is lost, and one until a deadline of an object that is not. -/
theorem witness_WakesAndHeldArrivals_lost :
    waitOf (objectGone (.bar 0 true)) = some (.bar 0 true) ∧
      ((objectGone (.bar 0 true)).lostIn object0.space object0.off 8).isSome = true ∧
      (waiting (.bar 0 true)).lostIn object0.space object0.off 8 = none ∧
      (∃ v, viewOf (objectGone (.until 0 true)) issue0 0 = some v ∧ Quiet (objectGone (.until 0 true)) v ∧
        v.object (0 : Word).toNat = some object0 ∧ 5 ≤ (objectGone (.until 0 true)).cyc.toNat) ∧
      (waiting (.until 0 false)).phase object0 = false ∧ (waiting (.until 0 true)).phase object0 ≠ true :=
  ⟨by decide +kernel, by decide +kernel, by decide +kernel,
    ⟨_, rfl, ⟨by decide +kernel, by decide +kernel⟩, by decide +kernel, by decide +kernel⟩, by decide +kernel, by decide +kernel⟩

/-- A group of 600 cells whose lanes differ, more than its partition's store holds. -/
def overfull : Device :=
  grp spilled (fun g => { g with
    cells := List.replicate 600
      { cell := .g ((List.range 32).map (fun i => BitVec.ofNat 32 (0x1234567 * i * i))), evicted := false, used := 0 } })

/-- SpillAndRefill: a store that holds its cells, and one that does not. -/
theorem witness_SpillAndRefill_store :
    ((base.residentCells 0 0).map (fun c => c.size)).sum ≤ 65536 ∧ 512 < (overfull.residentCells 0 0).length ∧
      65536 < ((overfull.residentCells 0 0).map (fun c => c.size)).sum ∧ (firstEvicted (base.residentCells 0 0)).isSome = true := by
  decide +kernel

/-- The machine with 64 parked requests and one that is not mapped. -/
def manyParked : Device :=
  { base with requests := unmapped0 :: (List.range 64).map (fun n => { unmapped0 with id := 8 + n, status := .parked 0 }) }

/-- CopiesRun: 64 requests parked. -/
theorem witness_CopiesRun_parked :
    manyParked.request 7 = some unmapped0 ∧ manyParked.canServe unmapped0 = true ∧
      64 ≤ (manyParked.requests.filter (fun x => x.ctx == (0 : BitVec 6) && x.isParked)).length ∧
      ∀ h, copy0.status ≠ .retired h :=
  ⟨by decide +kernel, by decide +kernel, by decide +kernel, nofun⟩

/-- StartEntersGraph: records of one tag, and of different ones. -/
theorem witness_StartEntersGraph_tags :
    (graph0.map LaunchRec.tag).Nodup ∧ ¬ ((graph0 ++ graph0).map LaunchRec.tag).Nodup := by
  decide

/-- Routing: the lists, the weights and the histogram of the pass lie apart. -/
theorem witness_Routing_apart :
    (match parseRoute map0 routeCells with
     | some q =>
       let slots := q.cap * routeExperts map0
       let apart (a n b k : Nat) : Bool := decide (a + n ≤ b ∨ b + k ≤ a)
       apart q.lists (2 * slots) q.weights (4 * slots) && apart q.lists (2 * slots) q.hist (4 * (routeExperts map0 + 1)) &&
         apart q.weights (4 * slots) q.hist (4 * (routeExperts map0 + 1))
     | none => false) = true := by
  decide +kernel

/-- Whether an operation can run, and has a form. -/
def runsNow (op : MatOp) : Bool :=
  match (queueing [op]).wg op.wg with
  | some w =>
    match ((queueing [op]).ctx w.ctx).kernel w.handle w.kernel, parseFormats op.fblock with
    | some k, some (_, fb) =>
      !(queueing [op]).slaved op.core && decide (((queueing [op]).ctx op.ctx).state = .active) &&
        (op.lost (queueing [op]) { wg := op.wg, q := quadIndex w.core op.core, follower := false } (op.rowReads w k.shared fb)).isNone
    | _, _ => false
  | none => false

theorem runs_of {op : MatOp} (h : runsNow op = true) : ∃ w k fa fb, MatrixRuns (queueing [op]) op w k fa fb := by
  unfold runsNow at h
  split at h
  · next w hw =>
    split at h
    · next k _ _ hk hf =>
      simp only [Bool.and_eq_true, Bool.not_eq_true', decide_eq_true_eq, Option.isNone_iff_eq_none] at h
      exact ⟨w, k, _, _, hw, hk, hf, h.1.1, h.1.2, h.2⟩
    · exact absurd h (by simp)
  · exact absurd h (by simp)

/-- Gather data of two rows of shared memory, the first and the last of a tile. -/
def gather0 : Gather := { rbase := 0, rstride := 64, list := [0, 0xFFFF, 31], weights := some [1, 2, 3], rowbase := 0 }

/-- A pair operation on the same tile. -/
def opPair : MatOp := { op0 with sub := 1, bfrag2 := List.replicate 32 0 }

/-- An MMAG.A on the same tile. -/
def opGatherA : MatOp := { op0 with sub := 2, z := false, afrag := [], gather := some gather0 }

/-- An MMAG.K on the same tile. -/
def opGatherK : MatOp := { op0 with sub := 3, bfrag := [], gather := some { gather0 with list := [0, 1], weights := none } }

/-- MatrixExecutes: an operation of each form that runs. -/
theorem witness_MatrixExecutes_forms :
    ((∃ w k fa fb, MatrixRuns (queueing [op0]) op0 w k fa fb) ∧ MatrixForm op0) ∧
      ((∃ w k fa fb, MatrixRuns (queueing [opPair]) opPair w k fa fb) ∧ MatrixForm opPair) ∧
      ((∃ w k fa fb, MatrixRuns (queueing [opGatherA]) opGatherA w k fa fb) ∧ MatrixForm opGatherA) ∧
      (∃ w k fa fb, MatrixRuns (queueing [opGatherK]) opGatherK w k fa fb) ∧ MatrixForm opGatherK := by
  refine ⟨⟨runs_of (by decide +kernel), ?_⟩, ⟨runs_of (by decide +kernel), ?_⟩, ⟨runs_of (by decide +kernel), ?_⟩,
    runs_of (by decide +kernel), ?_⟩
  · simp [MatrixForm, op0]
  · simp [MatrixForm, opPair, op0]
  · simp [MatrixForm, opGatherA, gather0]
  · simp [MatrixForm, opGatherK]

/-- MatrixExecutes: factors, and their product. -/
theorem witness_MatrixExecutes_terms :
    Product [.num false 3 1] (.num false 3 1) ∧ Product [.inf true] (.inf true) ∧
      Product [.inf true, .num false 0 0] (.nan false) := by
  unfold Product
  norm_num [Val.isNan, Val.isZero, Val.isInf, Val.neg, isFinite]

/-- TileMoves: the data of the move lie in the budget, and no element of the tile is lost. -/
theorem witness_TileMoves_intact :
    (∀ v ∈ [see moving], InBudget [v] (v.controlSpan h0 32 1)) ∧
      TileIntact moving ((see moving).tileSide false) 3 (hasLane ((see moving).active h0)) (fun n => decide (28 ≤ n ∧ n < 32)) ∧
      TileIntact moving ((see moving).tileSide false) 3 (fun _ => true) (fun n => decide (28 ≤ n ∧ n < 32)) ∧
      ((on moving).dev.wg (see moving).wg.uid).isSome = true := by
  refine ⟨?_, ?_, ?_, by decide +kernel⟩
  · intro v hv
    rw [see_head hv]
    unfold InBudget
    decide +kernel
  · unfold TileIntact
    decide +kernel
  · unfold TileIntact
    decide +kernel

/-- A launch in the ring of its context. -/
def ringed (p : Launch) : Launch := { p with state := .ready, inRing := true }

/-- The machine with two launches in the ring, the later one of the lower queue, and no ring region. -/
def ringing : Device :=
  launching [ringed { launch1 with record := { launch1.record with queue := 1 } }, ringed launch0]

/-- FenceFetchAndRings: a launch at the head of its ring, whose list has a free place and whose record can be read. -/
theorem witness_FenceFetchAndRings_ring :
    (ringing.ctx 0).ringHead = some (ringed launch0) ∧ ringing.launchRingHead 2 = some (0, ringed launch0) ∧
      (ringing.ready.getD 2 []).length < 128 ∧
      (∃ d, ringing.ringRead 0 0 2 = .ok d) ∧
      (∃ d, (requesting { copy0 with status := .ring }).ringRead 0 0 1 = .ok d) ∧
      ((requesting { copy0 with status := .ring }).requests.filter (fun x => x.inQueue 0)).length < 256 ∧
      (fetching 0).objectLost object0 = none :=
  ⟨by decide +kernel, by decide +kernel, by decide +kernel, ok_of (by decide +kernel), ok_of (by decide +kernel),
    by decide +kernel, by decide +kernel⟩

/-- A stopped context whose one workgroup is saved, with a launch in state `st` of its tag. -/
def stoppedSaved (st : LaunchState) : Device :=
  let d := launching [{ launch0 with state := st, record := { launch0.record with tag := 1 } }]
  { ctx d (fun c => { c with state := .stopped, saved := d.wgs }) with wgs := [] }

/-- LoadUnloadPatch: UNLOAD of a Locket with saved workgroups and no launch but theirs, forced and not, and of one with another
launch. -/
theorem witness_LoadUnloadPatch_saved :
    (let d := stoppedSaved .running
     Commanded (commanding d [6, 0, 0, 0, 1]) 0 (commandBytes [6, 0, 0, 0, 1]) 6 ∧
      Commanded (commanding d [6, 0, 0, 0, 1, 0, 1]) 0 (commandBytes [6, 0, 0, 0, 1, 0, 1]) 6 ∧
      leAt (commandBytes [6, 0, 0, 0, 1, 0, 1]) 6 1 = 1 ∧ (d.ctx 0).state = .stopped ∧
      (∃ w ∈ (d.ctx 0).saved, w.handle = 1) ∧ d.posts = [] ∧
      ∀ l ∈ (d.ctx 0).launches, l.record.handle = 1 → ∃ w ∈ (d.ctx 0).saved, w.handle = 1 ∧ w.tag = l.record.tag) ∧
      (let d := ctx (stoppedSaved .running) (fun c => { c with launches := c.launches ++ [launch0] })
       Commanded (commanding d [6, 0, 0, 0, 1, 0, 1]) 0 (commandBytes [6, 0, 0, 0, 1, 0, 1]) 6 ∧
        ∃ l ∈ (d.ctx 0).launches, l.record.handle = 1 ∧ l.state ≠ .complete ∧
          ∀ w ∈ (d.ctx 0).saved, w.tag ≠ l.record.tag) :=
  ⟨⟨commanded_of (by decide +kernel), commanded_of (by decide +kernel), by decide +kernel, by decide +kernel, by decide +kernel,
      by decide +kernel, by decide +kernel⟩,
    commanded_of (by decide +kernel), by decide +kernel⟩

/-- Whether a drained context is saved: its cells are read back, its accumulators written, and then the pieces of its save. -/
def savedWhole (d : Device) : Bool :=
  match d.refillAll (d.groupsOf 0) with
  | .ok e => (match e.writeAccumulators 0 with
    | .ok a => (match (a.ctx 0).saveArea with
      | some r => (match a.writePieces 0 r.base (a.savePieces 0) with | .ok _ => true | .error _ => false)
      | none => false)
    | .error _ => false)
  | .error _ => false

/-- StopAndResume: the whole of a save; a STOP that runs in a context that has ended. -/
theorem witness_StopAndResume_save :
    savedWhole (saving .active true) = true ∧ (saving .active true).drained 0 = true ∧
      ((accepted (saving .ended false) 0 (commandBytes [4])).ctx 0).state = .ended ∧
      RunsCommand (accepted (saving .ended false) 0 (commandBytes [4])) 0 (commandBytes [4]) 4 ∧
      RunsCommand (accepted (saving .ended false) 0 (commandBytes [5])) 0 (commandBytes [5]) 5 := by
  refine ⟨by decide +kernel, by decide +kernel, by decide +kernel, ?_, ?_⟩ <;>
  · unfold RunsCommand
    decide +kernel

/-- StopAndResume: a drained context none of whose saved places is lost, and one of which one is. -/
theorem witness_StopAndResume_lost :
    (saving .active true).lost = [] ∧ ({ saving .active true with lost := [.spad 0, .shared 0 0 7] } : Device).drained 0 = true ∧
      ({ saving .active true with lost := [.spad 0, .shared 0 0 7] } : Device).lost.find?
        (({ saving .active true with lost := [.spad 0, .shared 0 0 7] } : Device).savedPlace 0) = some (.shared 0 0 7) := by
  decide +kernel

/-- The kernel of the small machine. -/
def kernel0 : Kernel := placedKernel [0x6A000000]

/-- A workgroup with a barrier lock on the last object of its shared memory. -/
def locked0 : Workgroup := { placedWorkgroup 0 with bars := [{ addr := 65528, groups := 1, engines := 0 }] }

/-- StopAndResume: a hardware group and a workgroup that their records have room for. -/
theorem witness_StopAndResume_records :
    (∀ g ∈ locked0.groups, Recordable kernel0 g) ∧ RecordableWorkgroup kernel0 locked0 ∧
      ∀ b ∈ locked0.bars, (objectAt (locked0.moveTo base 0 []) kernel0.shared 0 b.addr.toNat).isSome = true := by
  have h : ∀ g ∈ locked0.groups, Recordable kernel0 g := by
    intro g hg
    simp only [locked0, placedWorkgroup, List.mem_singleton] at hg
    subst hg
    exact ⟨by decide, by decide, by decide, nofun, by decide, nofun⟩
  exact ⟨h, ⟨fun g hg _ => h g hg, by decide, by decide, by decide +kernel, by decide, by decide, by decide⟩, by decide +kernel⟩

/-- A copy with the cells of its issue. -/
def issued0 : Request := { copy0 with cells := [0, 0, 0, 8, 0, 256, 0, 8], done := 3 }

/-- A routing pass with the cells of its issue. -/
def routed0 : Request := { copy0 with cells := routeCells, work := .route map0 routeCells 2 0, done := 0 }

/-- StopAndResume: a copy and a routing pass as their issue left them. -/
theorem witness_StopAndResume_requests :
    IssuedWork issued0 ∧ IssuedWork routed0 ∧ issued0.isRetired = false ∧ indexOfWg base.wgs issued0.wg < 2 ^ 16 ∧
      base.wg issued0.wg = some (placedWorkgroup 0) ∧ base.kernelOf (placedWorkgroup 0) = some kernel0 ∧
      issued0.bar.toNat % 8 = 0 ∧ objectAt (placedWorkgroup 0) kernel0.shared 0 issued0.bar.toNat = some object0 := by
  refine ⟨.copy (base.ctx 0) 2 2 0 [0, 0, 0, 8] [] [0, 256, 0, 8] (.dense 1 0 0 8) (.dense 1 256 0 8) .plain rfl
      ⟨by decide, by decide, by decide⟩ (by decide +kernel) (by decide +kernel) rfl (by decide) ?_ rfl ⟨by decide, by decide⟩,
    .route map0 2 0 (by decide) (by decide +kernel) rfl, by decide, by decide +kernel, by decide +kernel, by decide +kernel,
    by decide, by decide +kernel⟩
  intro y hy hb
  simp only [List.mem_cons, List.not_mem_nil, or_false] at hy
  obtain rfl | rfl := hy <;> exact absurd hb (by decide)

/-- A stopped target whose BRK stopped it: its chain at address 0 is one BRK. -/
def atBrk : Device :=
  let d := ctx (State.placed State.reset [0x70401001]).dev (fun c => { c with dbgBlock := { c.dbgBlock with wtag := 1, word := 0 } })
  { d with wgs := d.wgs.map (fun w => { w with stopped := { DebugStop.running with st := 2, why := 2, brkAt := some (0, false) } }) }

/-- Its workgroup. -/
def brkTarget : Workgroup := (atBrk.wg 0).getD default

/-- DebugCommands: CONT past a BRK, STEP of a stopped target, and a target that stops with a write outstanding. -/
theorem witness_DebugCommands_more :
    Targeted atBrk 0 2 brkTarget ∧ brkTarget.stopped.st = 2 ∧ brkTarget.stopped.brkAt = some (0, false) ∧
      ((withDebug atBrk 0 (fun b => { b with cmd := 2 })).issueAt brkTarget 0 false).isSome = true ∧
      Targeted (debugging 2 0) 0 3 (target 2) ∧ ((debugging 2 0).ctx 0).dbgBlock.sobj.toNat % 8 = 0 ∧
      (∃ x ∈ ({ debugging 1 0 with writes := [write0] } : Device).writes, x.wg = (target 1).uid) ∧
      (debugging 2 65528).lostIn (.shared 0 0) 65528 8 = none ∧
      (debugging 2 65528).meetsLock { space := .shared 0 0, addr := 65528 } 8 (target 2).core hitsLoad = false ∧
      Targeted (debugging 0 0) 0 4 (target 0) ∧ (debugging 2 0).lostIn object0.space object0.off 8 = none :=
  ⟨targeted_of (by decide +kernel), by decide +kernel, by decide +kernel, by decide +kernel, targeted_of (by decide +kernel),
    by decide +kernel, by decide +kernel, by decide +kernel, by decide +kernel, targeted_of (by decide +kernel), by decide +kernel⟩

/-- PeerPorts: a machine with a port up, no accumulator and nothing lost. -/
theorem witness_PeerPorts_up :
    let d : Device := { base with ports := 0x10002 }
    d.ports.getLsbD 1 = true ∧ d.ports.getLsbD 16 = true ∧ d.ports.getLsbD 2 = false ∧ d.accs = [] ∧ d.lost = [] := by
  decide +kernel

/-- The machine whose cell 1 is lost. -/
def lostCell1 : Device := { base with lost := [.cell 0 0 1] }

/-- FaultsAndFences: what a fault strikes; a single-bit error; failures in a column; lost state, and a read of it; and a core with
work. -/
theorem witness_FaultsAndFences_more :
    Struck (failed 0) { copy0 with done := 0, fails := 0 } (.burst 7) ((failed 0).requestBlock { copy0 with done := 0, fails := 0 }) ∧
      Struck (failed 0) { copy0 with done := 0, fails := 0 } (.crossing 7 0xA1000) 0xA1000 ∧
      (isBlock21 0x8C200 ∧ 0x8C200 / 2 ^ 16 ∈ [1, 2, 3, 7, 8]) ∧
      ((queueing [op0]).executing 0 = some op0 ∧ ((queueing [op0]).ctx 0).state = .active ∧
        (queueing [op0]).inServiceCol 0 127 = true ∧ op0.failCols.length < 2) ∧
      (let op := { op0 with failCols := [127, 127] }
       (queueing [op]).executing 0 = some op ∧ (127 : Word) = BitVec.ofNat 32 (blockId 0 0 + (127 : BitVec 8).toNat) ∧
        (tableGet { columns := [], reduced := false } (queueing [op]).arrays 0).columns.length < 4 ∧ (queueing [op]).boot.step = 15) ∧
      (base.owned (.cell 0 0 1) = true ∧ StoredPlace.cell 0 0 1 ∉ base.lost) ∧
      (∃ m, meaningOf (.iadd h0 5 24 8 16 false) = some m ∧ (on lostCell1).issue = some issue0 ∧
        ∃ v, viewsOf lostCell1 issue0 = v :: [] ∧ m.check (.iadd h0 5 24 8 16 false) (v :: []) lostCell1 = .ok ∧
          (m.lostCell (.iadd h0 5 24 8 16 false) (v :: []) lostCell1).isSome = true) ∧
      base.workOn 0 0 = true ∧ base.workOn 1 0 = false ∧ (base.ctx 0).state = .active := by
  refine ⟨.burst _ _ _ rfl, .crossing _ ?_ (Or.inr (Or.inr rfl)), ⟨?_, by decide⟩, by decide +kernel, by decide +kernel,
    ⟨by decide +kernel, by decide +kernel⟩, ⟨_, rfl, rfl, see lostCell1, head_of_one (by decide +kernel), by decide +kernel,
      by decide +kernel⟩, by decide +kernel, by decide +kernel, by decide +kernel⟩ <;>
  · unfold isBlock21
    decide

/-- FaultsAndFences: a request that is in flight, and one whose context ended in this CYC; an operation that executes, and one
that did; the blocks of a queue, of a log's writer and of the link registers; a lost cell among the operands. -/
theorem witness_FaultsAndFences_late :
    InFlight (failed 2) { copy0 with done := 0, fails := 2 } ∧
      InFlight { base with released := [{ copy0 with done := 0 }] } { copy0 with done := 0 } ∧
      Executes (queueing [op0]) 0 op0 ∧ Executes { base with releasedOps := [op0] } 0 op0 ∧
      (isBlock21 0x40000 ∧ 0x40000 / 2 ^ 16 ∈ [1, 2, 3, 4, 5, 7, 8]) ∧ (isBlock21 0 ∧ 0 / 2 ^ 16 = 0 ∧ 0 % 256 = 0) ∧
      0xA1000 / 2 ^ 16 ∈ [6, 9, 10, 11] ∧
      (∃ m, meaningOf (.iadd h0 5 24 8 16 false) = some m ∧ (on lostCell1).issue = some issue0 ∧
        (Instr.iadd h0 5 24 8 16 false).wf = true ∧
        ∃ v, viewsOf ((on lostCell1).latch.getD (on lostCell1).dev) issue0 = v :: [] ∧ m.illegal v = false ∧
          (∀ p ∈ m.spans ++ m.cellSpans v, p.1 + p.2 ≤ v.grp.budget) ∧
          (m.lostCell (.iadd h0 5 24 8 16 false) (v :: []) (on lostCell1).dev).isSome = true) := by
  refine ⟨.inl (by decide +kernel), .inr (by decide +kernel), .inr (by decide +kernel), .inl (by decide +kernel),
    ⟨?_, by decide⟩, ⟨?_, by decide, by decide⟩, by decide,
    ⟨_, rfl, rfl, by decide, see lostCell1, head_of_one (by decide +kernel), by decide +kernel, by decide +kernel, by decide +kernel⟩⟩ <;>
  · unfold isBlock21
    decide

/-- What a boot finds when nothing is amiss. -/
def bootFine : BootInputs :=
  { firmware := 1, policy := 2, repairMap := 3, firmwareOk := true, policyOk := true, secureBlocks := [], secureRanges := [],
    stacksOk := List.replicate 12 true, repairOk := true, fenced := [], remapped := [], selfTestFailed := [] }

/-- A device at boot step 1 with what its steps find. -/
def booting (b : BootInputs) : Device := { Device.reset with boot := { step := 1, halt := false, found := some b } }

/-- A device whose package power, or the junction of die 3, is above its limit. -/
def hot : Device := { base with power := 3400001, temp := [0, 0, 0, 1681] }

/-- ResetPowerAndWorlds: a boot that nothing stops, one that step 6 stops, and the two conditions of a throttle. -/
theorem witness_ResetPowerAndWorlds_boot :
    (booting bootFine).boot = { step := 1, halt := false, found := some bootFine } ∧ bootHalt bootFine = none ∧
      bootHalt { bootFine with selfTestFailed := (List.range 9).map (BitVec.ofNat 8) } = some 6 ∧
      (booting bootFine).powered = true ∧ (booting bootFine).cyc.toNat < 4000000000 ∧
      hot.clk.length = 4 ∧ (3400000 < hot.power.toNat ∨ 105 * 16 < (hot.temp.getD 3 0).toNat) ∧
      ¬ (3400000 < base.power.toNat ∨ 105 * 16 < (base.temp.getD 3 0).toNat) := by
  decide +kernel

/-- SmallStepsComplete: no write, a write of a group that is resident, and a partition with a ready chain and one without. -/
theorem witness_SmallStepsComplete :
    Issuing (on base) issue0 [see base] ∧ base.writes = [] ∧
      (∃ x rest w g, (writing 0).writes = x :: rest ∧ (writing 0).lost = [] ∧ (writing 0).wg x.wg = some w ∧
        w.groups[x.g]? = some g ∧ w.gone = false ∧ x.gen = tableGet 0 (writing 0).gens (slotKey g.core g.part g.rslot)) ∧
      base.pick 0 5 = none ∧ ((State.placed State.reset [0x03500820]).dev.pick 0 0).isSome = true :=
  ⟨base_issuing, by decide +kernel, ⟨_, _, _, _, rfl, by decide +kernel, rfl, rfl, rfl, by decide +kernel⟩, by decide +kernel,
    by decide +kernel⟩

/-! ## Single steps on the small machine; every expected value computed by hand from the cited rule -/

/-- The device after one instruction of the group whose device is `d`. -/
def after (i : Instr) (d : Device) : Option Device :=
  match exec i (on d) with
  | .next t => some t.dev
  | .fault _ => none
  | .refused _ => none

/-- What lane `j` reads at slice `sl`, `w` bits wide, after one instruction. -/
def lane (i : Instr) (d : Device) (j sl w : Nat) : Option Nat := (after i d).map (fun e => (see e).read j sl w)

/-- Mask `k` after one instruction. -/
def maskOf (i : Instr) (d : Device) (k : BitVec 3) : Option Word := (after i d).map (fun e => (see e).mask k)

/-- Cells 1 and 2 hold one value in every lane. -/
def two12 (a b : Word) : Device := cells base [(1, .u a), (2, .u b)]

/-- 05 R99: IADD keeps the low 32 bits. -/
theorem test_iadd_wraps : lane (.iadd h0 5 24 8 16 false) (two12 0xFFFFFFFF 3) 31 24 32 = some 2 := by decide +kernel

/-- 05 R100: ISUB.sat without x clamps to 0. -/
theorem test_isub_saturates :
    lane (.isub (hz fun e => { e with ix := 1 }) 5 24 8 16 false) (two12 1 2) 0 24 32 = some 0 := by decide +kernel

/-- 05 R99, R17: an affine source, and a destination that is a source: lane 7 of 5 + 3i less 3. -/
theorem test_iaddi_affine : lane (.iaddi h0 5 8 8 0xFD) (cells base [(1, .a 5 3)]) 7 8 32 = some 23 := by decide +kernel

/-- 05 R99: IMULH of -1 and -1, signed and unsigned. -/
theorem test_imulh :
    lane (.imulh h0 5 24 8 16 true) (two12 0xFFFFFFFF 0xFFFFFFFF) 0 24 32 = some 0 ∧
      lane (.imulh h0 5 24 8 16 false) (two12 0xFFFFFFFF 0xFFFFFFFF) 0 24 32 = some 0xFFFFFFFE := by decide +kernel

/-- 05 R99: IMAD adds its destination. -/
theorem test_imad : lane (.imad h0 5 8 8 16 false) (two12 7 5) 0 8 32 = some 42 := by decide +kernel

/-- 05 R102: a shift by the whole width, and the arithmetic shift. -/
theorem test_shifts :
    lane (.shl h0 5 24 8 16) (two12 1 32) 0 24 32 = some 0 ∧
      lane (.shr h0 5 24 8 16 true) (two12 0xFFFFFFF8 40) 0 24 32 = some 0xFFFFFFFF := by decide +kernel

/-- 05 R102: ROTL by one more than the width. -/
theorem test_rotl : lane (.rotl h0 5 24 8 16) (two12 0x80000001 33) 0 24 32 = some 3 := by decide +kernel

/-- 05 R103: a signed field of 4 bits at bit 8. -/
theorem test_bfe : lane (.bfe h0 5 24 8 16 true) (two12 0x00000900 0x0408) 0 24 32 = some 0xFFFFFFF9 := by decide +kernel

/-- 05 R106: counts of a word. -/
theorem test_counts :
    lane (.popc h0 5 24 8) (two12 0xF0 0) 0 24 32 = some 4 ∧ lane (.clz h0 5 24 8) (two12 0 0) 0 24 32 = some 32 := by
  decide +kernel

/-- 05 R110, R12: MOVHI writes the high half and leaves the low half. -/
theorem test_movhi : lane (.movhi h0 8 0x1234) (two12 0xAAAA5678 0) 0 8 32 = some 0x12345678 := by decide +kernel

/-- 05 R105: signed less-than in lanes 0 and 1 of an affine -1 + i against 0. -/
theorem test_icmp : maskOf (.icmp h0 5 2 2 8 16) (cells base [(1, .a 0xFFFFFFFF 1)]) 2 = some 1 := by decide +kernel

/-- 02 R57, R58: 1 + 2 in f32, and 1 + 2^-24, a tie that rounds to even. -/
theorem test_fadd :
    lane (.fadd h0 0 24 8 16) (two12 0x3F800000 0x40000000) 0 24 32 = some 0x40400000 ∧
      lane (.fadd h0 0 24 8 16) (two12 0x3F800000 0x33800000) 0 24 32 = some 0x3F800000 := by decide +kernel

/-- 02: a product and an addend rounded once: (1 + 2^-12)^2 - 1. -/
theorem test_ffma :
    lane (.ffma h0 0 24 8 16) (cells base [(1, .u 0x3F800800), (2, .u 0x3F800800), (3, .u 0xBF800000)]) 0 24 32
      = some 0x3A000400 := by decide +kernel

/-- 05 R116: 1.5 from f32 to f16. -/
theorem test_cvt : lane (.cvt h0 0 24 8 1 0) (two12 0x3FC00000 0) 0 24 16 = some 0x3E00 := by decide +kernel

/-- 05 R121: lane 4 receives the value of lane 5. -/
theorem test_shflx : lane (.shflx h0 5 24 8 1) (cells base [(1, .a 0 1)]) 4 24 32 = some 5 := by decide +kernel

/-- 05 R123, R124: the sum of lanes 0 to 31, and the scan at lane 3. -/
theorem test_redu_scan :
    lane (.reduInt h0 5 24 8 0 false) (cells base [(1, .a 0 1)]) 9 24 32 = some 496 ∧
      lane (.scanInt h0 5 24 8 0 false) (cells base [(1, .a 1 1)]) 3 24 32 = some 10 := by decide +kernel

/-- 05 R108 and 01 Table 01-8: %lane. -/
theorem test_rdsp_lane : lane (.rdsp h0 5 24 0) base 19 24 32 = some 19 := by decide +kernel

/-- 09 R193: a word stored at 4 in lane 1 lies there low byte first. -/
theorem test_sts_byte_order :
    ((after (.sts h0 5 16 8 0) (cells base [(1, .a 0 4), (2, .u 0x11223344)])).map
      (fun d => (d.settle (.shared 0 0) 4 4 false).num (.shared 0 0) 4 1)) = some 0x44 := by decide +kernel

/-- 09 R193: the immediate counts in the access's size: the halfword at 2 and the byte at 3. -/
theorem test_lds_byte :
    lane (.lds h0 3 24 8 1) ((cells base [(1, .u 0)]).putNum (.shared 0 0) 0 4 0x11223344) 0 24 16 = some 0x1122 ∧
      lane (.lds h0 1 24 8 3) ((cells base [(1, .u 0)]).putNum (.shared 0 0) 0 4 0x11223344) 0 24 8 = some 0x11 := by
  decide +kernel

/-- 09 R196: each lane adds 1 to one word in lane order: lane 5 sees 5 and the word ends at 32. -/
theorem test_atom_add :
    lane (.atomS h0 0 24 8 2) (two12 0 1) 5 24 32 = some 5 ∧
      ((after (.atomS h0 0 24 8 2) (two12 0 1)).map (fun d => (d.settle (.shared 0 0) 0 4 false).num (.shared 0 0) 0 4))
        = some 32 := by decide +kernel

/-- 07 R162: ELECT sets the lowest active lane alone. -/
theorem test_elect : maskOf (.elect h0 5) base 5 = some 1 := by decide +kernel

/-- 07 R166: KPOP counts the lanes of k0. -/
theorem test_kpop : lane (.kpop h0 0 8) base 0 8 32 = some 32 := by decide +kernel

/-- 07 R159: EXIT marks every lane. -/
theorem test_exit : (after (.exit h0) base).map (fun d => (see d).grp.exited) = some 0xFFFFFFFF := by decide +kernel

/-- 09 R206: the arrival that reaches the count flips the phase and empties the count. -/
theorem test_bararr_flips :
    ((after (.bararr h0 24 2) ((two12 0 0).putNum (.shared 0 0) 0 8 (1 + 2 ^ 33))).map
      (fun d => ((d.settle object0.space object0.off 8 false).objectValue object0).testBit 32)) = some true := by
  decide +kernel

/-- 18 R310: TRAP enters the library with its code as detail. -/
theorem test_trap_enters :
    (after (.trap h0 42) gated).map (fun d => ((see d).agent.trap.cause, (see d).agent.trap.detail, (see d).library))
      = some (0x0C, 42, true) := by decide +kernel

/-- 07 R163: SLEEP of no clocks writes a time that has passed, and its slot stays awake. -/
theorem test_sleep_zero :
    (after (.sleep h0 0) { base with cyc := 7 }).map (fun d => ((see d).slot.wake, (see d).slot.wait)) = some (7, .awake) := by
  decide +kernel

/-- 01 R27: an affine source and a uniform one of 16 bits under the override give A at operation width 32. -/
theorem test_iadd_affine_narrow :
    (after (.iadd (hz fun e => { e with wo := true, aw := 5, bw := 3 }) 5 24 8 16 false) (cells base [(1, .a 5 3), (2, .u 4)])).map
      (fun d => (see d).tag 24 32) = some (.a 9 3) := by decide +kernel

/-- 01 R27: .sat is none of the cases that give U: the result of uniform sources is G. -/
theorem test_isub_sat_tag :
    (after (.isub (hz fun e => { e with ix := 1 }) 5 24 8 16 false) (two12 5 2)).map (fun d => (see d).tag 24 32) = some .g := by
  decide +kernel

/-- 16 R281: a pair arrives once: of two arrivals expected one is counted. -/
theorem test_pair_arrives_once :
    ((after (.bararr h0 24 2) (pairedUp.putNum (.shared 0 0) 0 8 2)).map
      (fun d => ((d.settle object0.space object0.off 8 false).objectValue object0) / 2 ^ 16 % 2 ^ 16)) = some 1 := by
  decide +kernel

/-- 02 R47, 05 R116: a NaN of e4m3 converted to an integer gives 0 and raises nothing. -/
theorem test_cvt_nan8 :
    (after (.cvt h0 6 24 8 9 0) (two12 0x7F 0)).map (fun d => ((see d).read 0 24 32, (see d).ctx.fflags)) = some (0, 0) := by
  decide +kernel

/-- 07 R163: SLEEP sets the wake time. -/
theorem test_sleep : (after (.sleep h0 19) base).map (fun d => (see d).slot.wake) = some 19 := by decide +kernel

end Sys2Proof.Tests
end

section
/-! SUPPORT. What the steps beside the chains leave (01 R36; 04 R80; 06 R149): NOP, the completion of a register write, and the
clock of an idle partition. -/

namespace Sys2Proof.Machine

open Sys2Proof Sys2Proof.Claims

/-! ## NOP (04 R80) -/

/-- An effect that leaves every state as it is leaves it so on every group. -/
theorem runEffects_id (i : Instr) (always : Bool) (vs : List View) (s : State) :
    runEffects (fun _ _ s => .ok s) i always vs s = .ok s := by
  induction vs with
  | nil => rfl
  | cons v l ih => simp only [runEffects, ih, ite_self]

theorem exec_nop {s : State} {iss : Issue} {vs : List View} (c : Bool) (hI : Issuing s iss vs) : exec (.nop c) s = .next s := by
  rw [exec_eq_runWord (m := meaningNop c) rfl]
  refine runWord_next hI (Meaning.check_ok (by cases c <;> rfl) (fun _ _ => rfl) (fun v _ p hp => ?_)
    (fun v _ => Meaning.checkRest_ok rfl (fun _ => rfl)) (fun _ _ => rfl)) ?_
  · simp [meaningNop] at hp
  · exact (Meaning.run_eq rfl).trans (runEffects_id ..)

/-! ## The completion of a register write (01 R36) -/

theorem exec_registerWriteback (s : State) : exec .registerWriteback s = .next { s with dev := s.dev.writeback } := rfl

theorem exec_registerWriteback_none {s : State} (h : s.dev.writes = []) : exec .registerWriteback s = .next s := by
  rw [exec_registerWriteback, Device.writeback, h]

section Writeback

variable {d : Device} {x : RegWrite} {rest : List RegWrite} {w : Workgroup} {g : Group}
  (hx : d.writes = x :: rest) (hw : d.wg x.wg = some w) (hg : w.groups[x.g]? = some g)

include hx hw hg

/-- The oldest write lands when its group is resident and its slot still of the write's generation. -/
theorem Device.writeback_lands (hgone : w.gone = false)
    (hgen : x.gen = tableGet 0 d.gens (slotKey g.core g.part g.rslot)) :
    d.writeback = { d with writes := rest }.writeGroup x.wg x.g x.slice x.width x.vals x.lanes x.tag := by
  simp only [Device.writeback, hx, hw, hg]
  rw [if_pos (by simp [hgone, hgen])]

/-- It is dropped when the slot has another generation. -/
theorem Device.writeback_drops (hgen : x.gen ≠ tableGet 0 d.gens (slotKey g.core g.part g.rslot)) :
    d.writeback = { d with writes := rest } := by
  simp only [Device.writeback, hx, hw, hg]
  rw [if_neg (by simpa using fun _ => hgen)]

end Writeback

/-- With nothing lost a register write changes its group alone. -/
theorem Device.writeGroup_of_intact {d : Device} (h : d.lost = []) (uid g slice w : Nat) (vals : List Nat) (lanes : Word)
    (tag : OpTag) : d.writeGroup uid g slice w vals lanes tag =
      d.modGroup uid g (fun y => y.write d.tick slice w vals lanes tag) := by
  simp [Device.writeGroup, h]

/-! ## The clock of a partition (06 R149) -/

theorem exec_partitionClock_idle {s : State} {core : BitVec 8} {part : BitVec 5} (h : s.dev.pick core part = none) :
    exec (.partitionClock core part) s = .next { s with dev := (s.dev.idleLanes core part).unmark core part none } := by
  simp [exec, execPartitionClock, h, Device.idleClock]

theorem exec_partitionClock_ready {s : State} {core : BitVec 8} {part : BitVec 5} (h : (s.dev.pick core part).isSome = true) :
    exec (.partitionClock core part) s = .next s := by
  simp [exec, execPartitionClock, h]

/-- Settles O60: NOP, the register write and the clock each by their lemma. -/
theorem smallStepsComplete : Obligations.SmallStepsComplete := by
  refine ⟨fun c _ _ _ hI => exec_nop c hI, fun _ h => exec_registerWriteback_none h, ?_,
    fun _ _ _ h => exec_partitionClock_idle h, fun _ _ _ h => exec_partitionClock_ready h⟩
  intro s x rest w g hx hlost hw hg hgone hgen
  rw [exec_registerWriteback, Device.writeback_lands hx hw hg hgone hgen,
    Device.writeGroup_of_intact (d := { s.dev with writes := rest }) hlost]

end Sys2Proof.Machine
end

section
/-! SUPPORT. What a partition's step issues (04 R79, R81, R84; 06 R142, R148, R149): the chain that is picked is the decoding of
the words at its slot, and one that issues holds no failing word. -/

namespace Sys2Proof

/-! ## Decoded items -/

/-- A main word whose item is not rejected names an instruction. -/
theorem decodeFrom_named (start main : Nat) (ext : Option Ext) (w : Word) (rest : List Word)
    (h : (decodeFrom start main ext w rest).reject = none) : (decodeFrom start main ext w rest).instr.isSome = true := by
  simp only [decodeFrom] at h ⊢
  split_ifs at h ⊢
  · rfl
  · cases rest with
    | nil => cases h
    | cons t rest =>
      simp only at h ⊢
      by_cases ht : t.major = 0x3E
      · rw [if_pos ht] at h ⊢
        cases hd : decodeTailed { chain := w.flag 31, ext := ext } w t with
        | none => simp [hd] at h
        | some i => rfl
      · rw [if_neg ht] at h
        cases h
  · cases hd : decodeMain { chain := w.flag 31, ext := ext } w with
    | none => simp [hd] at h
    | some i => rfl

/-- So does an item of a packet that is not rejected. -/
theorem decodeItem_named {off : Nat} {ws : List Word} {it : Item} (h : decodeItem off ws = some it) (hr : it.reject = none) :
    it.instr.isSome = true := by
  cases ws with
  | nil => cases h
  | cons w rest =>
    simp only [decodeItem] at h
    by_cases hext : w.major = 0x3F
    · rw [if_pos hext] at h
      cases rest with
      | nil => cases h; cases hr
      | cons m rest =>
        simp only at h
        split_ifs at h
        · cases h; cases hr
        · cases h; cases hr
        · cases h; cases hr
        · cases h; exact decodeFrom_named _ _ _ _ _ hr
    · rw [if_neg hext] at h
      split_ifs at h
      · cases h; cases hr
      · cases h; exact decodeFrom_named _ _ _ _ _ hr

/-- An item without a failing word is not rejected, and its instruction is well formed. -/
theorem Item.failing_none {it : Item} (h : it.failing = none) :
    it.reject = none ∧ ∀ i, it.instr = some i → i.wf = true := by
  unfold Item.failing at h
  cases hr : it.reject with
  | some r => rw [hr] at h; simp only at h; split at h <;> simp at *
  | none =>
    refine ⟨rfl, fun i hi => ?_⟩
    rw [hr, hi] at h
    simp only [Bool.not_eq_true'] at h
    unfold Instr.wf
    split_ifs at h with h1 h2 h3
    simp_all

end Sys2Proof

namespace Sys2Proof.Machine

open Sys2Proof

/-- Each item of a chain is the decoding of the packet's words from some offset on. -/
theorem mem_chainItems {ws : List Word} {off n : Nat} {it : Item} (h : it ∈ chainItems ws off n) :
    ∃ o, decodeItem o (ws.drop o) = some it := by
  induction n generalizing off with
  | zero => simp [chainItems] at h
  | succ n ih =>
    unfold chainItems at h
    cases hd : decodeItem off (ws.drop off) with
    | none => simp [hd] at h
    | some x =>
      simp only [hd] at h
      split at h
      · rcases List.mem_cons.mp h with rfl | h
        · exact ⟨off, hd⟩
        · exact ih h
      · exact ⟨off, by rw [List.mem_singleton.mp h, hd]⟩

/-! ## The checks of a chain that issues -/

theorem lowestWord_none {l : List (Nat × Nat)} (h : lowestWord l = none) : l = [] := by
  cases l with
  | nil => rfl
  | cons p t =>
    unfold lowestWord at h
    split at h
    · split at h <;> simp at h
    · simp at h

/-- A chain without failing words has no item with one. -/
theorem failing_of_failingWords {vs : List View} {count : Nat} {earlier items : List Item}
    (h : failingWords vs count earlier items = []) : ∀ it ∈ items, it.failing = none := by
  induction items generalizing earlier with
  | nil => simp
  | cons x rest ih =>
    simp only [failingWords, List.append_eq_nil_iff, List.map_eq_nil_iff, ownFailing] at h
    intro it hit
    rcases List.mem_cons.mp hit with rfl | hit
    · cases hf : it.failing with
      | none => rfl
      | some f => simp [hf] at h
    · exact ih h.2 it hit

theorem chainAdmits_ne_issue (vs : List View) (items : List Item) : chainAdmits vs items ≠ .issue := by
  unfold chainAdmits
  repeat' split
  all_goals simp

/-- A chain that its checks let issue has no failing word (04 R84). -/
theorem failingWords_of_issue {vs : List View} {items : List Item} (h : chainCheck vs items = .issue) :
    failingWords vs items.length [] items = [] := by
  unfold chainCheck at h
  cases hw : lowestWord (failingWords vs items.length [] items) with
  | none => exact lowestWord_none hw
  | some p => simp [hw] at h

/-! ## The chain that is picked -/

theorem nearest_mem {p : Nat} {l : List (Nat × Ready)} {q : Nat × Ready} (h : nearest p l = some q) : q ∈ l := by
  induction l with
  | nil => simp [nearest] at h
  | cons a t ih =>
    unfold nearest at h
    cases hn : nearest p t with
    | none => simp_all
    | some b =>
      simp only [hn] at h
      split at h
      · cases h; exact List.mem_cons_of_mem _ (ih hn)
      · cases h; exact List.mem_cons_self

/-- A picked chain is one that a resident group may issue. -/
theorem Device.pick_groupReady {d : Device} {core : BitVec 8} {part : BitVec 5} {rslot : Nat} {r : Ready}
    (h : d.pick core part = some (rslot, r)) : ∃ w g, d.groupReady w g = some r := by
  have hm := nearest_mem h
  obtain ⟨x, hx, hxr⟩ := List.mem_map.mp hm
  have hready : x ∈ d.readyGroups core part := by
    split at hx
    · exact hx
    · exact List.mem_of_mem_filter hx
  obtain ⟨y, -, hy⟩ := List.mem_filterMap.mp hready
  split at hy
  · split at hy
    · simp at hy
    · obtain ⟨r', hr', rfl⟩ := Option.map_eq_some_iff.mp hy
      cases hxr
      exact ⟨_, _, hr'⟩
  · simp at hy

/-- The chain of a group is that of one of its slots, but for the flip of the alternation bit. -/
theorem Device.groupReady_slotReady {d : Device} {w : Workgroup} {g : Nat} {r : Ready} (h : d.groupReady w g = some r) :
    ∃ n q, d.slotReady w g n = some q ∧ r.items = q.items ∧ r.views = q.views ∧ r.answer = q.answer := by
  unfold groupReady at h
  cases h0 : d.slotReady w g false with
  | none =>
    cases h1 : d.slotReady w g true with
    | none => simp [h0, h1] at h
    | some q => simp only [h0, h1, Option.some.injEq] at h; subst h; exact ⟨true, q, h1, rfl, rfl, rfl⟩
  | some p =>
    cases h1 : d.slotReady w g true with
    | none => simp only [h0, h1, Option.some.injEq] at h; subst h; exact ⟨false, p, h0, rfl, rfl, rfl⟩
    | some q =>
      simp only [h0, h1, Option.some.injEq] at h
      subst h
      split_ifs
      · exact ⟨true, q, h1, rfl, rfl, rfl⟩
      · exact ⟨false, p, h0, rfl, rfl, rfl⟩

/-- A ready slot has the chain that it issues next, on the views at it, with the answer of their checks. -/
theorem Device.slotReady_issueAt {d : Device} {w : Workgroup} {g : Nat} {n : Bool} {q : Ready} (h : d.slotReady w g n = some q) :
    ∃ iss v, d.issueAt w g n = some (iss, v, q.items) ∧ q.views = viewsAt d iss ∧
      (q.answer = chainAdmits q.views q.items ∨ q.answer = chainCheck q.views q.items) := by
  unfold slotReady at h
  cases hi : d.issueAt w g n with
  | none => simp [hi] at h
  | some p =>
    obtain ⟨iss, v, items⟩ := p
    simp only [hi] at h
    split at h
    · simp at h
    · split at h
      · simp at h
      · simp only [Option.some.injEq] at h
        subst h
        refine ⟨iss, v, rfl, rfl, ?_⟩
        dsimp only
        split
        · exact .inl rfl
        · exact .inr rfl

theorem View.atAddr_iss (v : View) (iss : Issue) (a : Word) : { v.atAddr a with iss := iss } = { v with iss := iss }.atAddr a := rfl

/-- Passing NOPs moves the slot's address alone. -/
theorem View.pastNops_atAddr {v u : View} {n : Nat} (h : v.pastNops n = some u) : u = v.atAddr u.slot.addr := by
  induction n generalizing v with
  | zero => simp [pastNops] at h
  | succ n ih =>
    unfold pastNops at h
    split at h
    · simp at h
    · split at h
      · exact (ih h).trans rfl
      · cases h; rfl

theorem View.atWork_atAddr (v : View) : v.atWork = v.atAddr v.atWork.slot.addr := by
  unfold atWork
  cases h : v.pastNops ((v.auto.code v.slot.state).length + 1) with
  | none => rfl
  | some u => exact pastNops_atAddr h

/-- A view depends on the workgroup and the slot that an issue names, and holds the issue. -/
theorem viewOf_issue {d : Device} {iss iss' : Issue} (hw : iss'.wg = iss.wg) (hs : iss'.slot = iss.slot) (g : Nat) :
    viewOf d iss' g = (viewOf d iss g).map (fun v => { v with iss := iss' }) := by
  unfold viewOf
  rw [hw]
  cases d.wg iss.wg with
  | none => rfl
  | some w =>
    simp only
    cases w.groups[g]? with
    | none => rfl
    | some grp => simp only [hs]; split <;> rfl

theorem viewsOf_head? (d : Device) (iss : Issue) : (viewsOf d iss).head? = viewOf d iss iss.g := by
  unfold viewsOf
  split
  · simp_all
  · split
    · split <;> simp_all
    · simp_all

/-- The chain of a slot is the decoding of the packet of the view that issues it. -/
theorem Device.issueAt_chain {d : Device} {w : Workgroup} {g : Nat} {n : Bool} {iss : Issue} {v : View} {items : List Item}
    (h : d.issueAt w g n = some (iss, v, items)) : items = v.chain ∧ ∀ u, (viewsAt d iss).head? = some u → u = v := by
  unfold issueAt at h
  generalize hstart : Issue.start w.uid g n 0 = start at h
  cases hv : viewOf d start g with
  | none => simp only [hv] at h; cases h
  | some v0 =>
    simp only [hv, Option.some.injEq, Prod.mk.injEq] at h
    obtain ⟨hiss, hview, rfl⟩ := h
    refine ⟨by rw [← hview]; rfl, fun u hu => ?_⟩
    have hg : iss.g = g := by rw [← hiss, ← hstart]; rfl
    rw [viewsAt, List.head?_map, viewsOf_head?, hg,
      viewOf_issue (iss := start) (by rw [← hiss]) (by rw [← hiss]), hv] at hu
    simp only [Option.map_some, Option.some.injEq] at hu
    rw [← hu, ← hview, hiss, v0.atWork_atAddr]
    subst hiss
    rfl

/-- What is known of a picked chain that issues: it is the chain at its views' slot, and no word of it fails. -/
theorem Device.pick_issue {d : Device} {core : BitVec 8} {part : BitVec 5} {rslot : Nat} {r : Ready}
    (h : d.pick core part = some (rslot, r)) (ha : r.answer = .issue) :
    (∀ v, r.views.head? = some v → r.items = v.chain) ∧ ∀ it ∈ r.items, it.reject = none ∧ ∃ i, it.instr = some i ∧ i.wf = true := by
  obtain ⟨w, g, hg⟩ := pick_groupReady h
  obtain ⟨n, q, hq, hitems, hviews, hanswer⟩ := groupReady_slotReady hg
  obtain ⟨iss, v, hi, hvs, hcheck⟩ := slotReady_issueAt hq
  obtain ⟨hchain, hhead⟩ := issueAt_chain hi
  rw [hitems, hviews]
  rw [hanswer] at ha
  refine ⟨fun u hu => (hhead u (hvs ▸ hu)).symm ▸ hchain, fun it hit => ?_⟩
  have hpass : chainCheck q.views q.items = .issue :=
    hcheck.elim (fun h => absurd (h.symm.trans ha) (chainAdmits_ne_issue _ _)) (fun h => h.symm.trans ha)
  obtain ⟨hr, hwf⟩ := Item.failing_none (failing_of_failingWords (failingWords_of_issue hpass) it hit)
  obtain ⟨o, ho⟩ := mem_chainItems (hchain ▸ hit)
  obtain ⟨i, hi⟩ := Option.isSome_iff_exists.mp (decodeItem_named ho hr)
  exact ⟨hr, i, hi, hwf i hi⟩

/-! ## The step -/

theorem step_of_powered {s : State} (h : s.dev.powered = true) : step s = stepped State.after s.move := by
  rw [step, State.canMove, h]
  rfl

theorem State.move_partition {s : State} {core : BitVec 8} {part : BitVec 5} (h : s.turn = .partition core part) :
    s.move = s.partition core part := by
  rw [State.move, h]

theorem State.partition_picked {s : State} {core : BitVec 8} {part : BitVec 5} {rslot : Nat} {r : Ready}
    (h : (s.dev.refillWaiting core part).pick core part = some (rslot, r)) :
    s.partition core part = { s with dev := s.dev.refillWaiting core part }.issueChain core part rslot r := by
  simp only [State.partition, h]

theorem State.partition_idle {s : State} {core : BitVec 8} {part : BitVec 5}
    (h : (s.dev.refillWaiting core part).pick core part = none) :
    s.partition core part = exec (.partitionClock core part) { s with dev := s.dev.refillWaiting core part } := by
  simp only [State.partition, h]

/-- A chain of one instruction that issues is that instruction's `exec`, finished. -/
theorem State.issueChain_one {s : State} {core : BitVec 8} {part : BitVec 5} {rslot : Nat} {r : Ready} {it : Item} {i : Instr}
    {d : Device} (ha : r.answer = .issue) (hit : r.items = [it]) (hi : it.instr = some i)
    (hd : Device.reach r.items r.views (match r.views with | v :: _ => s.dev.cachePacket v | [] => s.dev) = .ok d) :
    s.issueChain core part rslot r =
      stepped (fun t => t.finish core part rslot r ((s.dev.readyGroups core part).length == 1)) (exec i (s.begin r d)) := by
  have hrun : runChain r.items (s.begin r d) = exec i (s.begin r d) := by rw [hit, runChain, hi]
  simp only [issueChain, ha]
  erw [hd]
  simp only [hrun]
  rfl

theorem stepped_stepped (f g : State → State) (o : Host.Outcome State Fault Refusal) :
    stepped f (stepped g o) = stepped (fun t => f (g t)) o := by
  cases o <;> rfl

/-- Settles O5: the step of each kind of turn, and what is known of a picked chain. -/
theorem stepRunsDecoded : Obligations.StepRunsDecoded := by
  intro s hp
  refine ⟨fun core part ht => ⟨fun hidle => ?_, fun rslot r hpick ha => ?_⟩, fun i ht hi => ?_, fun i rest ht hin hi => ?_⟩
  · rw [step_of_powered hp, State.move_partition ht, State.partition_idle hidle]
  · obtain ⟨hchain, hwf⟩ := Device.pick_issue hpick ha
    refine ⟨hchain, hwf, fun it i d hit hi hd => ?_⟩
    rw [step_of_powered hp, State.move_partition ht, State.partition_picked hpick, State.issueChain_one ha hit hi hd,
      stepped_stepped]
  · simp only [step_of_powered hp, State.move, ht, hi, if_true]
  · simp only [step_of_powered hp, State.move, ht, hin, hi, if_true]

end Sys2Proof.Machine
end

section
/-! SUPPORT. Concrete states for the refutations: the placed program of `State.placed` (log entry 28) with two hardware groups, the
halves of a pair, whose chain is in issue; and the three statements that fail there. -/

namespace Sys2Proof.Machine

open Sys2Proof Sys2Proof.Claims

/-! ## A pair in issue -/

/-- Resident cells that hold some values, each the same in every lane. -/
def uniformCells (l : List Word) : List StoredCell := l.map (fun x => { cell := .u x, evicted := false, used := 0 })

/-- A half of a pair as a placement leaves it, with uniform cells of some values for its budget. -/
def pairHalf (upper : Bool) (cells : List Word) : Group :=
  let n := if upper then 1 else 0
  { Group.start n 0 n 0 0 0xFFFFFFFF 0 0 (some placedSlot) none 32 0 (some upper) with cells := uniformCells cells }

/-- The issue of the pair's chain. -/
def pairIssue : Issue :=
  { wg := 0, g := 0, slot := false, addr := 12, next := 16, index := 0, offset := 0, flips := false, fired := [] }

/-- The state in which a chain of a pair is in issue, whose kernel has some width mode and whose halves some cells. -/
def pairIssuing (wmode : BitVec 2) (lower upper : List Word) : State :=
  let placed := (State.reset.placed []).dev
  let locket : Locket :=
    { handle := 1, dbg := false, image := [], kernels := [{ placedKernel [] with wmode := wmode }], graphs := [] }
  let wg : Workgroup := { placedWorkgroup 0 with groups := [pairHalf false lower, pairHalf true upper] }
  { dev := { placed.setCtx 0 { placed.ctx 0 with lockets := [locket] } with wgs := [wg] }
    issue := some pairIssue, latch := none, turn := .partition 0 0, inputs := [] }

/-- The views of the pair in issue. -/
def pairViews (wmode : BitVec 2) (lower upper : List Word) : List View := viewsOf (pairIssuing wmode lower upper).dev pairIssue

theorem pairIssuing_issuing {wmode : BitVec 2} {lower upper : List Word} (h : (pairViews wmode lower upper).length = 2) :
    Issuing (pairIssuing wmode lower upper) pairIssue (pairViews wmode lower upper) where
  issue := rfl
  views := rfl
  acts := by
    intro hnil
    rw [hnil] at h
    cases h
  intact := fun _ _ _ => List.not_mem_nil

/-- A word without an EXT. -/
def plainHdr : Hdr := { chain := false, ext := none }

/-! ## What is seen of an outcome -/

/-- The next state of an outcome. -/
def nextState (o : Host.Outcome State Fault Refusal) : Option State :=
  match o with
  | .next t => some t
  | .fault _ => none
  | .refused _ => none

/-- A part of the issuing workgroup's group after an outcome. -/
def seenAfter {α : Type} (g : Nat) (f : Group → α) (o : Host.Outcome State Fault Refusal) : Option α :=
  (nextState o).bind (fun t => (groupAt t.dev 0 g).map f)

/-- What `Each` says of an effect that is a function. -/
theorem eq_foldl_of_each {f : View → State → State} {vs : List View} {s t : State} (h : Each (fun v s t => t = f v s) vs s t) :
    t = vs.foldl (fun s v => f v s) s := by
  induction vs generalizing s with
  | nil => exact h
  | cons v l ih =>
    obtain ⟨r, rfl, h⟩ := h
    exact ih h

/-- The effect happened on each of the groups, in some states. -/
theorem happened_of_each {P : View → State → State → Prop} {vs : List View} {s t : State} (h : Each P vs s t) {v : View}
    (hv : v ∈ vs) : ∃ r r', P v r r' := by
  induction vs generalizing s with
  | nil => cases hv
  | cons u l ih =>
    obtain ⟨r, hu, h⟩ := h
    rcases List.mem_cons.mp hv with rfl | hv
    · exact ⟨s, r, hu⟩
    · exact ih h hv

/-! ## O12: WRSP of %seg in a pair of mode 64 -/

/-- WRSP of %seg from slice 0, at width 32. -/
def writesSeg : Instr := .wrsp plainHdr 5 0 0x0A

/-- Refutes O12: in a pair of mode 64 whose halves both write 16 to %seg, the upper half's %seg is its own and becomes 16, while
the statement has both writes fall on the agent of the lower hardware group (`State.modAgent` acts at `View.home`), so that the
upper half would keep its 32. -/
theorem not_specialWrites : ¬ Obligations.SpecialWrites := by
  intro h
  have hI : Issuing (pairIssuing 2 [16] [16]) pairIssue (pairViews 2 [16] [16]) := pairIssuing_issuing (by decide +kernel)
  have hbudget : InBudget (pairViews 2 [16] [16]) [(plainHdr.a 0, widthOf 5 / 4)] := by unfold InBudget; decide +kernel
  have hacts : actives writesSeg (pairViews 2 [16] [16]) = pairViews 2 [16] [16] := by
    rw [actives, List.filter_eq_self]
    decide +kernel
  have hvalue : ∀ v ∈ pairViews 2 [16] [16], v.readLowest (v.active plainHdr) (plainHdr.a 0) (widthOf 5) = 16 := by
    decide +kernel
  obtain ⟨t, ht, heach⟩ := (h plainHdr 5 0 0x0A (by decide) _ pairIssue _ hI hbudget).2 rfl (by
    intro v hv
    change specialInRange v 0x0A (v.readLowest (v.active plainHdr) (plainHdr.a 0) (widthOf 5))
    rw [hvalue v (hacts ▸ hv)]
    exact ⟨by decide, fun _ => by decide⟩)
  have hmodel : seenAfter 1 (fun g => g.agent0.seg) (exec writesSeg (pairIssuing 2 [16] [16])) = some 16 := by decide +kernel
  have hclaim : seenAfter 1 (fun g => g.agent0.seg) (.next ((pairViews 2 [16] [16]).foldl (fun s v =>
      putSpecial s v 0x0A (v.readLowest (v.active plainHdr) (plainHdr.a 0) (widthOf 5)) (v.active plainHdr))
      (pairIssuing 2 [16] [16]))) = some 32 := by decide +kernel
  have hfold := eq_foldl_of_each (f := fun v s =>
    putSpecial s v 0x0A (v.readLowest (v.active plainHdr) (plainHdr.a 0) (widthOf 5)) (v.active plainHdr)) heach
  change exec writesSeg _ = _ at ht
  change t = (actives writesSeg _).foldl _ _ at hfold
  rw [hacts] at hfold
  rw [ht, hfold, hclaim] at hmodel
  exact absurd hmodel (by decide)

/-! ## O9: RDSP of %wid.f0 in a pair of width mode 16 -/

/-- RDSP of %wid.f0 to slice 0, at width 32. -/
def readsLaneField : Instr := .rdsp plainHdr 5 0 0x04

/-- The values that the entry gives for it. -/
def laneFieldResult : LaneOp :=
  { srcs := [], d := plainHdr.d 0, w := widthOf 5, val := fun v j => low (specialValue v 4 j) (widthOf 5),
    tag := fun v => specialTag v 4 }

/-- Refutes O9: the statement asks for nothing but a group in issue, so also of the upper hardware group of a pair in a kernel of
width mode 16. There %wid.f0 counts lanes modulo 16, but its tag is A(32, 1): the tag does not fit the values. -/
theorem not_integerResults : ¬ Obligations.IntegerResults := by
  intro h
  have hI : Issuing (pairIssuing 0 [0] [0]) pairIssue (pairViews 0 [0] [0]) := pairIssuing_issuing (by decide +kernel)
  obtain ⟨-, hexchange, -⟩ := h
  obtain ⟨t, -, heach⟩ := hexchange readsLaneField laneFieldResult rfl (by decide) _ pairIssue _ hI (by
    unfold InBudget; decide +kernel)
  obtain ⟨v, hv, hlane, htag, hvalue⟩ : ∃ v ∈ actives readsLaneField (pairViews 0 [0] [0]),
      hasLane (Instr.lanes readsLaneField v) 0 = true ∧ specialTag v 4 = .a 32 1 ∧ low (specialValue v 4 0) (widthOf 5) = 0 := by
    decide +kernel
  obtain ⟨r, r', hfits, -⟩ := happened_of_each heach hv
  change (specialTag v 4).Fits _ _ _ at hfits
  rw [htag] at hfits
  obtain ⟨haffine, -⟩ := hfits
  have hfirst := haffine rfl 0 (by decide) hlane
  change BitVec.ofNat 32 (low (specialValue v 4 0) (widthOf 5)) = _ at hfirst
  rw [hvalue] at hfirst
  exact absurd hfirst (by decide)

/-! ## O4: SRANGE in a pair with two budgets -/

/-- TLD of tile 0 to slice 0 by the control cell 1. -/
def loadsTile : Instr := .tld plainHdr 0 0 1

/-- Refutes O4: of a pair the lower half holds the control cell 1, which asks for 256 slices and so leaves its budget of 16; of
the words' own spans, which is cell 1 alone, only the upper half's budget of 8 is left. The machine traps at the lower half first,
with the 256 slices of the control cell as the detail, and not with those of cell 1. -/
theorem not_wordChecksFirst : ¬ Obligations.WordChecksFirst := by
  intro h
  have hI : Issuing (pairIssuing 2 [0, 1024] [0]) pairIssue (pairViews 2 [0, 1024] [0]) :=
    pairIssuing_issuing (by decide +kernel)
  obtain ⟨-, -, hrange⟩ := h loadsTile (meaningTld plainHdr 0 0 1) rfl _ pairIssue _ hI
  obtain ⟨v, -, p, hp, -, ht⟩ := hrange (by decide) (fun _ _ => rfl) (by unfold InBudget; decide +kernel)
  have hspan : p = (8, 8) := by
    change p ∈ [(8, 8)] at hp
    exact List.mem_singleton.mp hp
  have hmodel : seenAfter 0 (fun g => g.agent0.trap.detail) (exec loadsTile (pairIssuing 2 [0, 1024] [0])) =
      some (BitVec.ofNat 64 (256 * 2 ^ 32)) := by decide +kernel
  have hclaim : seenAfter 0 (fun g => g.agent0.trap.detail) (.next ((pairIssuing 2 [0, 1024] [0]).trap pairIssue loadsTile
      { cause := 0x02, detail := 8 + 8 * 2 ^ 32, lanes := none })) = some (BitVec.ofNat 64 (8 + 8 * 2 ^ 32)) := by
    decide +kernel
  rw [ht, hspan, hclaim] at hmodel
  exact absurd hmodel (by decide)

end Sys2Proof.Machine
end

section
/-! SUPPORT. A cell's spill slot (01 R33): little-endian fields of the slot's bytes, and the cell that they give back. -/

namespace Sys2Proof.Machine

open Sys2Proof Sys2Proof.Claims

/-! ## Little-endian fields of a list of bytes -/

theorem natToBytes_length (v n : Nat) : (natToBytes v n).length = n := by
  induction n generalizing v with
  | zero => rfl
  | succ n ih => rw [natToBytes, List.length_cons, ih]

theorem bytesToNat_natToBytes (v n : Nat) : bytesToNat (natToBytes v n) = v % 256 ^ n := by
  induction n generalizing v with
  | zero => simp [natToBytes, bytesToNat, Nat.mod_one]
  | succ n ih =>
    rw [natToBytes, bytesToNat, ih, BitVec.toNat_ofNat, pow_succ' 256 n]
    exact (Nat.mod_mul ..).symm

theorem takePad_length {α : Type} (d : α) (l : List α) (n : Nat) : (takePad d l n).length = n := by
  simp [takePad]

theorem getD_takePad {α : Type} (d : α) (l : List α) {n i : Nat} (h : i < n) : (takePad d l n).getD i d = l.getD i d := by
  simp [takePad, List.getD_eq_getElem?_getD, h]

/-- A list fills itself up. -/
theorem takePad_append {α : Type} (d : α) (l t : List α) : takePad d (l ++ t) l.length = l := by
  refine List.ext_getElem (takePad_length ..) (fun i h1 h2 => ?_)
  simp [takePad, List.getD_eq_getElem?_getD, List.getElem?_append_left h2, h2]

/-- Filling up behind a range does not change what the range reads. -/
theorem slicePad_takePad {α : Type} (d : α) (l : List α) {off n m : Nat} (h : off + n ≤ m) :
    slicePad d (takePad d l m) off n = slicePad d l off n := by
  refine List.map_congr_left (fun i hi => ?_)
  have hi : i < n := List.mem_range.mp hi
  have key := getD_takePad d l (show off + i < m by omega)
  simpa [List.getD_eq_getElem?_getD] using key

theorem leAt_takePad (l : List (BitVec 8)) {off n m : Nat} (h : off + n ≤ m) : leAt (takePad 0 l m) off n = leAt l off n := by
  rw [leAt, slicePad_takePad 0 l h, leAt]

/-- A number's bytes read back where they stand. -/
theorem leAt_natToBytes {l t : List (BitVec 8)} {off n v : Nat} (h : l.drop off = natToBytes v n ++ t) :
    leAt l off n = v % 256 ^ n := by
  have hpad := takePad_append (0 : BitVec 8) (natToBytes v n) t
  rw [natToBytes_length] at hpad
  rw [leAt, slicePad, h, hpad, bytesToNat_natToBytes]

/-- Of equally long pieces the first `i` end where the others begin. -/
theorem drop_flatten_map {α β : Type} (f : α → List β) {k : Nat} (hf : ∀ a, (f a).length = k) (l : List α) (i : Nat) :
    ((l.map f).flatten).drop (k * i) = ((l.drop i).map f).flatten := by
  induction l generalizing i with
  | nil => simp
  | cons a l ih =>
    cases i with
    | zero => simp
    | succ i =>
      have hdrop : (f a).length + k * i = k * (i + 1) := by rw [hf a]; ring
      rw [List.map_cons, List.flatten_cons, ← hdrop, List.drop_length_add_append, ih, List.drop_succ_cons]

/-- The bytes of a spill slot: its format, its fields, and zeros behind them. -/
def spillBytes (format k : Nat) (fields : List Word) : List (BitVec 8) :=
  takePad 0 (natToBytes format 4 ++ (fields.map (fun v => natToBytes v.toNat k)).flatten) 132

theorem leAt_spillBytes_format (format k : Nat) (fields : List Word) : leAt (spillBytes format k fields) 0 4 = format % 256 ^ 4 := by
  rw [spillBytes, leAt_takePad _ (by decide)]
  exact leAt_natToBytes List.drop_zero

theorem leAt_spillBytes_field (format : Nat) {k i : Nat} {fields : List Word} (hi : i < fields.length) (hk : 4 + k * i + k ≤ 132) :
    leAt (spillBytes format k fields) (4 + k * i) k = (fields.getD i 0).toNat % 256 ^ k := by
  rw [spillBytes, leAt_takePad _ hk]
  refine leAt_natToBytes (t := ((fields.drop (i + 1)).map (fun v => natToBytes v.toNat k)).flatten) ?_
  rw [← List.drop_drop, List.drop_left' (natToBytes_length format 4),
    drop_flatten_map _ (fun v : Word => natToBytes_length v.toNat k), List.drop_eq_getElem_cons hi, List.map_cons,
    List.flatten_cons, List.getD_eq_getElem _ _ hi]

/-! ## The cell that a slot gives back -/

theorem extI_mod (v n : Nat) (b : Bool) : extI (v % 2 ^ n) n b = extI v n b := by
  have hlow : lowN (v % 2 ^ n) n = lowN v n := Nat.mod_mod ..
  rw [extI, hlow, extI]

/-- A word that is the sign extension of its low bits comes back from them. -/
theorem signExtend_of_fits {v : Word} {n : Nat} (h : fitsSigned v n = true) : BitVec.ofInt 32 (extI (v.toNat % 2 ^ n) n true) = v := by
  rw [extI_mod, of_decide_eq_true h, BitVec.ofInt_toInt]

/-- The lanes of a cell. -/
def Cell.words (c : Cell) : List Word := allLanes.map c.lane

theorem Cell.words_length (c : Cell) : c.words.length = 32 := by simp [words, allLanes]

theorem Cell.words_getD (c : Cell) {j : Nat} (h : j < 32) : c.words.getD j 0 = c.lane j := by
  simp [words, allLanes, List.getD_eq_getElem?_getD, h]

theorem Cell.lane_of_allLanes (f : Nat → Word) {j : Nat} (h : j < 32) : (Cell.g (allLanes.map f)).lane j = f j := by
  simp [Cell.lane, allLanes, List.getD_eq_getElem?_getD, h]

theorem Cell.slot_u (v : Word) : (Cell.u v).slot = spillBytes 0 4 [v] := by
  simp [slot, spillBytes]

theorem Cell.slot_a (b s : Word) : (Cell.a b s).slot = spillBytes 1 4 [b, s] := by
  simp [slot, spillBytes]

/-- A G cell spills in the first of the formats of 8, 16 and 32 bits that holds its lanes. -/
theorem Cell.slot_g (l : List Word) : (Cell.g l).slot =
    if (Cell.g l).words.all (fitsSigned · 8) then spillBytes 2 1 (Cell.g l).words
    else if (Cell.g l).words.all (fitsSigned · 16) then spillBytes 3 2 (Cell.g l).words
    else spillBytes 4 4 (Cell.g l).words := rfl

/-- A field of a lane in a slot of lanes. -/
theorem Cell.leAt_spillBytes_lane (c : Cell) (format : Nat) {k i : Nat} (hk : k ≤ 4) (hi : i < 32) :
    leAt (spillBytes format k c.words) (4 + k * i) k = (c.lane i).toNat % 256 ^ k := by
  have hroom : k * i + k ≤ 4 * 32 := calc
    k * i + k = k * (i + 1) := by ring
    _ ≤ 4 * 32 := Nat.mul_le_mul hk (by omega)
  rw [leAt_spillBytes_field format (by rw [words_length]; exact hi) (by omega), words_getD c hi]

theorem ofNat_toNat_mod (v : Word) : BitVec.ofNat 32 (v.toNat % 4294967296) = v := by
  rw [Nat.mod_eq_of_lt v.isLt, BitVec.ofNat_toNat, BitVec.setWidth_eq]

theorem Cell.ofSlot_u (v : Word) : Cell.ofSlot (Cell.u v).slot = some (.u v) := by
  have hfield := leAt_spillBytes_field 0 (k := 4) (i := 0) (fields := [v]) (by simp) (by decide)
  simp only [slot_u, ofSlot, leAt_spillBytes_format]
  simp at hfield
  simp [hfield, ofNat_toNat_mod]

theorem Cell.ofSlot_a (b s : Word) : Cell.ofSlot (Cell.a b s).slot = some (.a b s) := by
  have hbase := leAt_spillBytes_field 1 (k := 4) (i := 0) (fields := [b, s]) (by simp) (by decide)
  have hstride := leAt_spillBytes_field 1 (k := 4) (i := 1) (fields := [b, s]) (by simp) (by decide)
  simp only [slot_a, ofSlot, leAt_spillBytes_format]
  simp at hbase hstride
  simp [hbase, hstride, ofNat_toNat_mod]

theorem Cell.ofSlot_bytes {b : List (BitVec 8)} (h : leAt b 0 4 = 2) :
    Cell.ofSlot b = some (.g (allLanes.map (fun i => BitVec.ofInt 32 (extI (leAt b (4 + i) 1) 8 true)))) := by
  simp only [ofSlot, h]

theorem Cell.ofSlot_halves {b : List (BitVec 8)} (h : leAt b 0 4 = 3) :
    Cell.ofSlot b = some (.g (allLanes.map (fun i => BitVec.ofInt 32 (extI (leAt b (4 + 2 * i) 2) 16 true)))) := by
  simp only [ofSlot, h]

theorem Cell.ofSlot_words {b : List (BitVec 8)} (h : leAt b 0 4 = 4) :
    Cell.ofSlot b = some (.g (allLanes.map (fun i => BitVec.ofNat 32 (leAt b (4 + 4 * i) 4)))) := by
  simp only [ofSlot, h]

/-- A slot read back: the spilled cell's tag and lanes. -/
def Cell.ReadBack (c : Cell) (b : List (BitVec 8)) : Prop :=
  ∃ c', Cell.ofSlot b = some c' ∧ c'.code = c.code ∧ ∀ j, j < 32 → c'.lane j = c.lane j

theorem Cell.readBack_bytes (c : Cell) (hc : c.code = 2) (h : ∀ j, j < 32 → fitsSigned (c.lane j) 8 = true) :
    c.ReadBack (spillBytes 2 1 c.words) := by
  refine ⟨_, ofSlot_bytes (leAt_spillBytes_format ..), hc.symm, fun j hj => ?_⟩
  rw [lane_of_allLanes _ hj]
  have hfield := c.leAt_spillBytes_lane 2 (k := 1) (by decide) hj
  rw [Nat.one_mul] at hfield
  rw [hfield]
  exact signExtend_of_fits (h j hj)

theorem Cell.readBack_halves (c : Cell) (hc : c.code = 2) (h : ∀ j, j < 32 → fitsSigned (c.lane j) 16 = true) :
    c.ReadBack (spillBytes 3 2 c.words) := by
  refine ⟨_, ofSlot_halves (leAt_spillBytes_format ..), hc.symm, fun j hj => ?_⟩
  rw [lane_of_allLanes _ hj, c.leAt_spillBytes_lane 3 (by decide) hj]
  exact signExtend_of_fits (h j hj)

theorem Cell.readBack_words (c : Cell) (hc : c.code = 2) : c.ReadBack (spillBytes 4 4 c.words) := by
  refine ⟨_, ofSlot_words (leAt_spillBytes_format ..), hc.symm, fun j hj => ?_⟩
  rw [lane_of_allLanes _ hj, c.leAt_spillBytes_lane 4 (by decide) hj]
  exact ofNat_toNat_mod _

theorem Cell.all_words {c : Cell} {p : Word → Bool} (h : c.words.all p = true) : ∀ j, j < 32 → p (c.lane j) = true := by
  intro j hj
  exact List.all_eq_true.mp h _ (List.mem_map.mpr ⟨j, by simpa [allLanes] using hj, rfl⟩)

/-- A cell read back from its spill slot has the tag and the lanes that were spilled (01 R33). -/
theorem Cell.slot_readBack (c : Cell) : c.ReadBack c.slot := by
  cases c with
  | u v => exact ⟨_, ofSlot_u v, rfl, fun _ _ => rfl⟩
  | a b s => exact ⟨_, ofSlot_a b s, rfl, fun _ _ => rfl⟩
  | g l =>
    rw [slot_g]
    split_ifs with h8 h16
    · exact readBack_bytes _ rfl (all_words h8)
    · exact readBack_halves _ rfl (all_words h16)
    · exact readBack_words _ rfl

end Sys2Proof.Machine
end

section
/-! SUPPORT. Workgroups and groups as they are looked up, and what reads of main memory leave of them. -/

namespace Sys2Proof.Machine

open Sys2Proof Sys2Proof.Claims

/-! ## A group changed, looked up -/

theorem Device.wg_uid {d : Device} {uid : Nat} {w : Workgroup} (h : d.wg uid = some w) : w.uid = uid := by
  simpa using List.find?_some h

/-- A workgroup changed is found under its number as long as it keeps it; every other one is as it was. -/
theorem Device.wg_modWg (d : Device) (uid : Nat) {f : Workgroup → Workgroup} (hf : ∀ w, (f w).uid = w.uid) (u : Nat) :
    (d.modWg uid f).wg u = if u = uid then (d.wg u).map f else d.wg u := by
  unfold wg modWg
  induction d.wgs with
  | nil => simp
  | cons w l ih =>
    have huid : (if w.uid == uid then f w else w).uid = w.uid := by
      split_ifs
      · exact hf w
      · rfl
    rw [List.map_cons]
    by_cases hu : w.uid = u
    · rw [List.find?_cons_of_pos (by simpa using huid.trans hu), List.find?_cons_of_pos (by simp [hu]), hu]
      simp [apply_ite some]
    · rw [List.find?_cons_of_neg (by simpa using fun h => hu (huid.symm.trans h)), List.find?_cons_of_neg (by simpa using hu)]
      exact ih

theorem Device.wg_modGroup (d : Device) (uid g : Nat) (f : Group → Group) (u : Nat) :
    (d.modGroup uid g f).wg u =
      if u = uid then (d.wg u).map (fun w => { w with groups := modAt w.groups g f }) else d.wg u :=
  d.wg_modWg uid (f := fun w => { w with groups := modAt w.groups g f }) (fun _ => rfl) u

theorem groupAt_eq_some {d : Device} {uid g : Nat} {w : Workgroup} {x : Group} (hw : d.wg uid = some w)
    (hx : w.groups[g]? = some x) : groupAt d uid g = some x := by
  rw [groupAt, hw, ← hx]

theorem groupAt_modGroup (d : Device) (uid g : Nat) (f : Group → Group) (u h : Nat) :
    groupAt (d.modGroup uid g f) u h = if u = uid ∧ h = g then (groupAt d u h).map f else groupAt d u h := by
  rw [groupAt, groupAt, d.wg_modGroup uid g f u]
  by_cases hu : u = uid
  · cases d.wg u with
    | none => simp
    | some w => simp [hu, modAt_getElem?]
  · simp [hu]

/-! ## What a read of main memory leaves -/

theorem Device.wg_congr {d e : Device} (h : d.wgs = e.wgs) (u : Nat) : d.wg u = e.wg u := by rw [wg, wg, h]

theorem groupAt_congr {d e : Device} (h : d.wgs = e.wgs) (u g : Nat) : groupAt d u g = groupAt e u g := by
  rw [groupAt, groupAt, Device.wg_congr h]

theorem Device.putNum_phys_wgs (d : Device) (dev a n v : Nat) : (d.putNum (.phys dev) a n v).wgs = d.wgs := by
  simp only [putNum, modSpace]
  split_ifs
  · rfl
  · rfl
  · rfl

theorem Device.settle_phys_wgs (d : Device) (dev a n : Nat) (store : Bool) : (d.settle (.phys dev) a n store).wgs = d.wgs := by
  have hstep : ∀ (hit : List Accumulator) (e : Device), (∀ x ∈ hit, x.space = .phys dev) →
      (hit.foldl (fun d x => if store && decide (a ≤ x.addr) && decide (x.addr + x.bytes ≤ a + n) then d
        else d.putNum x.space x.addr x.bytes x.value) e).wgs = e.wgs := by
    intro hit
    induction hit with
    | nil => exact fun _ _ => rfl
    | cons x l ih =>
      intro e h
      rw [List.foldl_cons, ih _ (fun y hy => h y (List.mem_cons_of_mem _ hy)), h x List.mem_cons_self]
      split_ifs
      · rfl
      · exact putNum_phys_wgs ..
  refine hstep _ d (fun x hx => ?_)
  have hmeets := (List.mem_filter.mp hx).2
  simp only [Accumulator.meets, Bool.and_eq_true, beq_iff_eq] at hmeets
  exact hmeets.1.1

theorem Device.settlePieces_wgs (d : Device) (store : Bool) (l : List (Phys × Nat)) : (d.settlePieces store l).wgs = d.wgs := by
  unfold settlePieces
  induction l generalizing d with
  | nil => rfl
  | cons p l ih => rw [List.foldl_cons, ih, settle_phys_wgs]

/-- What maps to a result is one. -/
theorem ok_of_map_ok {ε α β : Type} {f : α → β} {x : Except ε α} {b : β} (h : x.map f = .ok b) : ∃ a, x = .ok a ∧ f a = b := by
  cases x with
  | error e => cases h
  | ok a => exact ⟨a, rfl, Except.ok.inj h⟩

theorem ok_of_bind_ok {ε α β : Type} {f : α → Except ε β} {x : Except ε α} {b : β} (h : x.bind f = .ok b) :
    ∃ a, x = .ok a ∧ f a = .ok b := by
  cases x with
  | error e => cases h
  | ok a => exact ⟨a, rfl, h⟩

/-- A translation changes the translations cached, at most. -/
theorem Device.translate_wgs {d e : Device} {die : BitVec 2} {c : BitVec 6} {va : Nat} {write : Bool} {held : List Cached}
    {p : Phys} (h : d.translate die c va write held = .ok (p, e)) : e.wgs = d.wgs := by
  simp only [translate] at h
  have hused : ∀ x : Except Nat Phys, x.map (·, d) = .ok (p, e) → e.wgs = d.wgs := by
    intro x hx
    obtain ⟨a, -, ha⟩ := ok_of_map_ok hx
    cases ha
    rfl
  have hwalk : ∀ (x : Except Nat (Nat × Nat)) (use : Nat → Nat → Except Nat Phys) (leaf : Nat → Nat → Cached),
      (x.bind fun (l, n) => (use l n).map (·, d.cacheLeaf (leaf l n))) = .ok (p, e) → e.wgs = d.wgs := by
    intro x use leaf hx
    obtain ⟨a, -, ha⟩ := ok_of_bind_ok hx
    obtain ⟨b, -, hb⟩ := ok_of_map_ok ha
    cases hb
    rfl
  split at h
  · exact hused _ h
  · split_ifs at h
    · exact hused _ h
    · exact hwalk _ (fun l n => useLeaf d (d.ctx c).sec l n va write) (fun l n =>
        { die := die, ctx := c, page := va / 65536, leaf := BitVec.ofNat 64 l, shift := n }) h
  · exact hwalk _ (fun l n => useLeaf d (d.ctx c).sec l n va write) (fun l n =>
      { die := die, ctx := c, page := va / 65536, leaf := BitVec.ofNat 64 l, shift := n }) h

theorem Device.pieces_wgs {die : BitVec 2} {c : BitVec 6} {write : Bool} {l : List (Nat × Nat)} {d e : Device}
    {ps : List (Phys × Nat)} (h : Device.pieces die c write l d = .ok (ps, e)) : e.wgs = d.wgs := by
  induction l generalizing d ps with
  | nil => cases h; rfl
  | cons x l ih =>
    unfold pieces at h
    cases ht : d.translate die c x.1 write with
    | error k => simp [ht] at h
    | ok r =>
      obtain ⟨p, d1⟩ := r
      simp only [ht] at h
      cases hr : Device.pieces die c write l d1 with
      | error f => simp [hr] at h
      | ok q =>
        simp only [hr, Except.ok.injEq, Prod.mk.injEq] at h
        obtain ⟨-, rfl⟩ := h
        rw [ih hr, translate_wgs ht]

theorem Device.mainRead_wgs {d e : Device} {die : BitVec 2} {c : BitVec 6} {va n : Nat} {b : List (BitVec 8)}
    (h : d.mainRead die c va n = .ok (b, e)) : e.wgs = d.wgs := by
  unfold mainRead at h
  cases hp : Device.pieces die c false (pagePieces va n (n / 65536 + 2)) d with
  | error f => simp [hp] at h
  | ok r =>
    simp only [hp] at h
    split at h
    · cases h
    · cases h
      rw [settlePieces_wgs, pieces_wgs hp]

/-! ## Refills and evictions (01 R30, R33) -/

/-- A change of a group's cells leaves it in its partition. -/
theorem Device.evictFor_modGroup {d : Device} {w : Workgroup} {g : Nat} {grp : Group} {f : Group → Group}
    (hg : w.groups[g]? = some grp) (hw : d.wg w.uid = some w) (hcore : (f grp).core = grp.core) (hpart : (f grp).part = grp.part) :
    (d.modGroup w.uid g f).evictFor w.uid g = (d.modGroup w.uid g f).evict grp.core grp.part 768 := by
  rw [evictFor, d.wg_modGroup w.uid g f w.uid, hw]
  simp [modAt_getElem?, hg, hcore, hpart]

section Refill

variable {s : State} {w : Workgroup} {g k : Nat} {grp : Group} {c : StoredCell}
  (hw : s.dev.wg w.uid = some w) (hg : w.groups[g]? = some grp) (hc : grp.cells[k]? = some c)

include hw hg

theorem Device.evictFor_group : s.dev.evictFor w.uid g = s.dev.evict grp.core grp.part 768 := by
  simp only [evictFor, hw, hg]

include hc

/-- A resident cell stays as it is. -/
theorem exec_cellRefill_resident (h : c.evicted = false) :
    exec (.cellRefill w.uid g k) s = .next { s with dev := s.dev.evict grp.core grp.part 768 } := by
  have hrefill : s.dev.refill w.uid g k = .ok s.dev := by
    simp only [Device.refill, hw, hg, hc, h]
    rfl
  change execCellRefill w.uid g k s = _
  rw [execCellRefill, hrefill]
  simp only [Device.evictFor_group hw hg]

section Evicted

variable {b : List (BitVec 8)} {d : Device} (h : c.evicted = true)
  (hread : s.dev.mainRead (dieOf grp.core) w.ctx ((s.dev.ctx w.ctx).spillBase grp.spill + 132 * k) 132 = .ok (b, d))

include h hread

/-- A slot that is well formed comes back, and what the store has no room for leaves. -/
theorem exec_cellRefill_refilled {x : Cell} (hx : Cell.ofSlot b = some x) :
    exec (.cellRefill w.uid g k) s = .next { s with dev := (d.modGroup w.uid g (fun y =>
      { y with cells := setAt y.cells k { cell := x, evicted := false, used := s.dev.tick } })).evict grp.core grp.part 768 } := by
  have hrefill : s.dev.refill w.uid g k = .ok (d.modGroup w.uid g (fun y =>
      { y with cells := setAt y.cells k { cell := x, evicted := false, used := s.dev.tick } })) := by
    simp only [Device.refill, hw, hg, hc, h, spillSlot, hread, hx]
    rfl
  change execCellRefill w.uid g k s = _
  rw [execCellRefill, hrefill]
  simp only
  rw [Device.evictFor_modGroup hg (w := w) ((Device.wg_congr (Device.mainRead_wgs hread) _).trans hw) rfl rfl]

/-- A malformed slot is INTEGRITY. -/
theorem exec_cellRefill_malformed (hx : Cell.ofSlot b = none) :
    exec (.cellRefill w.uid g k) s = .next { s with
      dev := s.dev.contextFault w.ctx (integrityFault grp.core ((s.dev.ctx w.ctx).spillBase grp.spill + 132 * k)) } := by
  have hrefill : s.dev.refill w.uid g k =
      .error (w.ctx, integrityFault grp.core ((s.dev.ctx w.ctx).spillBase grp.spill + 132 * k)) := by
    simp only [Device.refill, hw, hg, hc, h, spillSlot, hread, hx]
    rfl
  change execCellRefill w.uid g k s = _
  rw [execCellRefill, hrefill]

end Evicted
end Refill

/-! ## The order of evictions -/

/-- That a cell is not evicted after another: less recently accessed, or of the lower slot, or the lower cell. -/
def Resident.NotAfter (r q : Resident) : Prop :=
  r.used < q.used ∨ (r.used = q.used ∧ (r.rslot < q.rslot ∨ (r.rslot = q.rslot ∧ r.cell ≤ q.cell)))

theorem Resident.notAfter_refl (r : Resident) : r.NotAfter r := by simp [NotAfter]

theorem Resident.notAfter_trans {a b c : Resident} (h : a.NotAfter b) (h' : b.NotAfter c) : a.NotAfter c := by
  unfold NotAfter at *
  omega

theorem Resident.notAfter_of_before {a b : Resident} (h : a.before b = true) : a.NotAfter b := by
  unfold before at h
  unfold NotAfter
  split_ifs at h
  all_goals
    have h := of_decide_eq_true h
    omega

theorem Resident.notAfter_of_not_before {a b : Resident} (h : a.before b = false) : b.NotAfter a := by
  unfold before at h
  unfold NotAfter
  split_ifs at h
  all_goals
    have h := of_decide_eq_false h
    omega

theorem firstEvicted_ne_none {l : List Resident} (h : l ≠ []) : ∃ r, firstEvicted l = some r := by
  cases l with
  | nil => exact absurd rfl h
  | cons a t =>
    cases ht : firstEvicted t with
    | none => exact ⟨a, by rw [firstEvicted, ht]⟩
    | some b => exact ⟨if b.before a then b else a, by rw [firstEvicted, ht, apply_ite some]⟩

theorem firstEvicted_least {l : List Resident} {r : Resident} (h : firstEvicted l = some r) :
    r ∈ l ∧ ∀ q ∈ l, r.NotAfter q := by
  induction l generalizing r with
  | nil => cases h
  | cons a t ih =>
    cases ht : firstEvicted t with
    | none =>
      have hnil : t = [] := by
        by_contra hne
        obtain ⟨b, hb⟩ := firstEvicted_ne_none hne
        rw [ht] at hb
        cases hb
      rw [firstEvicted, ht] at h
      cases h
      simp [hnil, Resident.notAfter_refl]
    | some b =>
      obtain ⟨hmem, hleast⟩ := ih ht
      simp only [firstEvicted, ht] at h
      split_ifs at h with hb
      · cases h
        refine ⟨List.mem_cons_of_mem _ hmem, fun q hq => ?_⟩
        rcases List.mem_cons.mp hq with rfl | hq
        · exact Resident.notAfter_of_before hb
        · exact hleast q hq
      · cases h
        refine ⟨List.mem_cons_self, fun q hq => ?_⟩
        rcases List.mem_cons.mp hq with rfl | hq
        · exact Resident.notAfter_refl _
        · exact Resident.notAfter_trans (Resident.notAfter_of_not_before (by simpa using hb)) (hleast q hq)

/-! ## Evictions while the store does not hold the rest -/

theorem foldl_add_eq_sum (l : List Nat) : l.foldl (· + ·) 0 = l.sum := (List.sum_eq_foldl ..).symm

theorem Device.evict_of_fits {d : Device} {core : BitVec 8} {part : BitVec 5} (n : Nat)
    (h : ((d.residentCells core part).map (fun c => c.size)).sum ≤ 65536) : d.evict core part n = d := by
  cases n with
  | zero => rfl
  | succ n =>
    rw [evict]
    simp [foldl_add_eq_sum, h]

/-- A store that does not hold its cells loses the one evicted first. -/
theorem Device.evict_of_full {d : Device} {core : BitVec 8} {part : BitVec 5} (n : Nat)
    (hmany : 512 < (d.residentCells core part).length)
    (hfull : 65536 < ((d.residentCells core part).map (fun c => c.size)).sum) :
    ∃ r, firstEvicted (d.residentCells core part) = some r ∧
      d.evict core part (n + 1) = match d.evictCell r with
        | .ok e => e.evict core part n
        | .error (c, f) => d.contextFault c f := by
  obtain ⟨r, hr⟩ := firstEvicted_ne_none (l := d.residentCells core part) (fun h => by simp [h] at hmany)
  refine ⟨r, hr, ?_⟩
  rw [evict]
  simp only [foldl_add_eq_sum, hr]
  exact if_neg (by simp [hmany, hfull])

/-- Settles O34: the slot's round trip, the refill by the cell's and the slot's state, and the order of evictions. -/
theorem spillAndRefill : Obligations.SpillAndRefill :=
  ⟨Cell.slot_readBack, fun _ _ _ _ _ _ hw hg hc => ⟨exec_cellRefill_resident hw hg hc, fun h _ _ hread =>
    ⟨fun _ hx => exec_cellRefill_refilled hw hg hc h hread hx, exec_cellRefill_malformed hw hg hc h hread⟩⟩,
    fun _ _ h => firstEvicted_least h, fun _ _ _ n => ⟨Device.evict_of_fits n, Device.evict_of_full n⟩⟩

end Sys2Proof.Machine
end

section
/-! SUPPORT. What a completed register write and an idle clock leave (01 R36; 06 R149; 22 R340, R341; 07 R164). -/

namespace Sys2Proof.Machine

open Sys2Proof Sys2Proof.Claims

/-! ## A write's values -/

/-- A cell written in the lanes of a mask takes its values from those lanes alone. -/
theorem Cell.general_congr (c : Cell) {lanes : Word} {f f' : Nat → Word}
    (h : ∀ i, i < 32 → hasLane lanes i = true → f i = f' i) : c.general lanes f = c.general lanes f' := by
  refine congrArg Cell.g (List.map_congr_left (fun i hi => ?_))
  have hi : i < 32 := List.mem_range.mp hi
  split_ifs with hl
  · exact h i hi hl
  · rfl

theorem Cell.whole_congr (c : Cell) (tag : OpTag) {lanes : Word} {f f' : Nat → Word}
    (h : ∀ i, i < 32 → hasLane lanes i = true → f i = f' i) (hl : lanes ≠ 0) : c.whole tag lanes f = c.whole tag lanes f' := by
  obtain ⟨l, hlow, hl32, hmem⟩ := lowestLane_spec hl
  have hfirst : f ((lowestLane lanes).getD 0) = f' ((lowestLane lanes).getD 0) := by
    rw [hlow]
    exact h l hl32 hmem
  cases tag <;> simp only [whole, hfirst, c.general_congr h]

theorem laneVal_valuesOf {lanes : Word} {i : Nat} (f : Nat → Nat) (hi : i < 32) (hl : hasLane lanes i = true) :
    laneVal (valuesOf lanes f) i = f i := by
  rw [valuesOf, laneVal_valuesOf_aux _ hi, if_pos hl]

theorem writeCell_valuesOf (c : Cell) (k s w : Nat) (vals : List Nat) {lanes : Word} (full : Bool) (tag : OpTag)
    (hl : lanes ≠ 0) :
    writeCell c k s w vals lanes full tag = writeCell c k s w (valuesOf lanes (laneVal vals)) lanes full tag := by
  obtain ⟨l, hlow, hl32, hmem⟩ := lowestLane_spec hl
  have hlanes : ∀ i, i < 32 → hasLane lanes i = true →
      mergedWord (c.lane i) k s w (laneVal vals i) =
        mergedWord (c.lane i) k s w (laneVal (valuesOf lanes (laneVal vals)) i) := by
    intro i hi h
    rw [laneVal_valuesOf _ hi h]
  have hfirst : laneVal vals ((lowestLane lanes).getD 0) =
      laneVal (valuesOf lanes (laneVal vals)) ((lowestLane lanes).getD 0) := by
    rw [hlow]
    exact (laneVal_valuesOf _ hl32 hmem).symm
  rw [writeCell_eq, writeCell_eq, c.whole_congr _ hlanes hl, c.general_congr hlanes, hfirst]

/-- A write depends on the values of its lanes alone. -/
theorem Group.write_valuesOf (g : Group) (now s w : Nat) (vals : List Nat) (lanes : Word) (tag : OpTag) :
    g.write now s w vals lanes tag = g.write now s w (valuesOf lanes (laneVal vals)) lanes tag := by
  unfold Group.write writeCells
  by_cases hl : lanes = 0
  · simp only [hl, if_true]
  · simp only [if_neg hl, writeCell_valuesOf _ _ s w vals _ tag hl]

theorem Group.write_eq (g : Group) (now s w : Nat) (vals : List Nat) (lanes : Word) (tag : OpTag) :
    g.write now s w vals lanes tag = { g with cells := (g.write now s w vals lanes tag).cells } := rfl

/-! ## The oldest write lands -/

theorem Device.writeGroup_wgs (d : Device) (uid g slice w : Nat) (vals : List Nat) (lanes : Word) (tag : OpTag) :
    (d.writeGroup uid g slice w vals lanes tag).wgs = (d.modGroup uid g (fun y => y.write d.tick slice w vals lanes tag)).wgs := by
  unfold writeGroup
  split_ifs
  · rfl
  · rfl

theorem Device.writeGroup_writes (d : Device) (uid g slice w : Nat) (vals : List Nat) (lanes : Word) (tag : OpTag) :
    (d.writeGroup uid g slice w vals lanes tag).writes = d.writes := by
  unfold writeGroup
  split_ifs
  · rfl
  · rfl

/-- The group that the oldest write lands in reads it back. -/
theorem exec_registerWriteback_lands {s : State} {x : RegWrite} {rest : List RegWrite} {w : Workgroup} {g : Group}
    (hx : s.dev.writes = x :: rest) (hw : s.dev.wg x.wg = some w) (hg : w.groups[x.g]? = some g) (hgone : w.gone = false)
    (hgen : x.gen = tableGet 0 s.dev.gens (slotKey g.core g.part g.rslot)) (h0 : 0 < x.width) (h4 : x.width % 4 = 0)
    (hroom : x.slice + x.width / 4 ≤ g.budget) (hfits : x.tag.Fits x.lanes x.width (laneVal x.vals)) :
    ∃ t y, exec .registerWriteback s = .next t ∧ groupAt t.dev x.wg x.g = some y ∧
      ReadsBack g y.cells x.lanes x.slice x.width (laneVal x.vals) x.tag ∧ y = { g with cells := y.cells } ∧
      t.dev.writes = rest := by
  refine ⟨_, g.write s.dev.tick x.slice x.width x.vals x.lanes x.tag, exec_registerWriteback s, ?_, ?_, Group.write_eq .., ?_⟩
  · rw [Device.writeback_lands hx hw hg hgone hgen, groupAt_congr (Device.writeGroup_wgs ..), groupAt_modGroup,
      if_pos ⟨rfl, rfl⟩, groupAt_eq_some (d := { s.dev with writes := rest }) hw hg]
    rfl
  · rw [Group.write_valuesOf]
    exact write_readsBack g s.dev.tick x.slice x.width (laneVal x.vals) x.lanes x.tag h0 h4 hfits hroom
  · rw [Device.writeback_lands hx hw hg hgone hgen, Device.writeGroup_writes]

/-! ## Tables -/

theorem tableGet_tableSet {α : Type} (d : α) (t : Table α) (n j : Nat) (v : α) :
    tableGet d (tableSet t n v) j = if j = n then v else tableGet d t j := by
  induction t with
  | nil => simp [tableSet, tableGet, eq_comm]
  | cons p t ih =>
    obtain ⟨k, w⟩ := p
    by_cases hk : k = n
    · simp only [tableSet, if_pos hk, tableGet]
      grind
    · by_cases hn : n < k
      · simp only [tableSet, if_neg hk, if_pos hn, tableGet]
        grind
      · simp only [tableSet, if_neg hk, if_neg hn, tableGet, ih]
        grind

theorem Device.ctx_modCtx (d : Device) (c : BitVec 6) (f : Context → Context) (k : BitVec 6) :
    (d.modCtx c f).ctx k = if k = c then f (d.ctx k) else d.ctx k := by
  have hkey : k.toNat = c.toNat ↔ k = c := BitVec.toNat_inj
  unfold modCtx setCtx ctx
  simp only [tableGet_tableSet, hkey]
  split_ifs with h
  · rw [h]
  · rfl

/-! ## The wait counters (22 R341) -/

/-- Wait counters counted: what every context's counters have more, where the host has set lcr. -/
structure WaitsAdded (d e : Device) (n : BitVec 6 → Nat → Nat) : Prop where
  only : e = { d with contexts := e.contexts }
  ctx : ∀ c, e.ctx c = { d.ctx c with waitCounts := (e.ctx c).waitCounts }
  size : ∀ c, (d.ctx c).waitCounts.length = 3 → (e.ctx c).waitCounts.length = 3
  counts : ∀ c k, (d.ctx c).waitCounts.length = 3 → k < 3 → (e.ctx c).waitCounts.getD k 0 =
    (d.ctx c).waitCounts.getD k 0 + if (d.ctx c).dbgBlock.lcr then BitVec.ofNat 64 (n c k) else 0

theorem WaitsAdded.refl (d : Device) {n : BitVec 6 → Nat → Nat}
    (h : ∀ c k, k < 3 → (d.ctx c).dbgBlock.lcr = true → n c k = 0) : WaitsAdded d d n where
  only := rfl
  ctx := fun _ => rfl
  size := fun _ h => h
  counts := by
    intro c k _ hk
    split_ifs with hlcr
    · rw [h c k hk hlcr]
      exact (BitVec.add_zero _).symm
    · exact (BitVec.add_zero _).symm

theorem WaitsAdded.trans {d e f : Device} {m n : BitVec 6 → Nat → Nat} (h : WaitsAdded d e m) (h' : WaitsAdded e f n) :
    WaitsAdded d f (fun c k => m c k + n c k) where
  only := by rw [h'.only, h.only]
  ctx := by
    intro c
    rw [h'.ctx, h.ctx]
  size := fun c hc => h'.size c (h.size c hc)
  counts := by
    intro c k hc hk
    have hlcr : (e.ctx c).dbgBlock.lcr = (d.ctx c).dbgBlock.lcr := by rw [h.ctx]
    rw [h'.counts c k (h.size c hc) hk, h.counts c k hc hk, hlcr, BitVec.add_assoc]
    split_ifs
    · rw [BitVec.ofNat_add]
    · rfl

theorem WaitsAdded.congr {d e : Device} {m n : BitVec 6 → Nat → Nat} (h : WaitsAdded d e m) (hmn : ∀ c k, m c k = n c k) :
    WaitsAdded d e n := by
  have hfun : m = n := funext fun c => funext fun k => hmn c k
  exact hfun ▸ h

theorem WaitsAdded.wgs {d e : Device} {n : BitVec 6 → Nat → Nat} (h : WaitsAdded d e n) : e.wgs = d.wgs := by rw [h.only]

/-- The lanes that a group of some slots adds to a wait counter. -/
def sleepers (k : Nat) (slots : List (Option Slot)) (present : Word) : Nat :=
  let occupied := slots.filterMap id
  if (occupied.head?.bind (fun s => s.wait.counter)) = some k ∧ (∀ s ∈ occupied, s.wait ≠ .awake) then
    (List.range 32).countP (hasLane present)
  else 0

theorem laneCount_eq (m : Word) : laneCount m = (List.range 32).countP (hasLane m) := by
  rw [laneCount, lanesOf, allLanes, List.countP_eq_length_filter]

theorem sleepers_eq (k : Nat) (slots : List (Option Slot)) (present : Word) :
    sleepers k slots present =
      if (slots.filterMap id).head?.bind (fun s => s.wait.counter) = some k ∧ (∀ s ∈ slots.filterMap id, s.wait ≠ .awake) then
        laneCount present
      else 0 := by
  rw [laneCount_eq]
  rfl

/-- One counter of a context counted. -/
theorem WaitsAdded.modCtx (d : Device) (c : BitVec 6) (i n : Nat) (hlcr : (d.ctx c).dbgBlock.lcr = true) :
    WaitsAdded d (d.modCtx c (fun x => { x with waitCounts := modAt x.waitCounts i (· + BitVec.ofNat 64 n) }))
      (fun b k => if b = c ∧ k = i then n else 0) where
  only := rfl
  ctx := by
    intro b
    rw [Device.ctx_modCtx]
    split_ifs
    · rfl
    · rfl
  size := by
    intro b hb
    rw [Device.ctx_modCtx]
    split_ifs
    · rw [modAt_length, hb]
    · exact hb
  counts := by
    intro b k hb hk
    rw [Device.ctx_modCtx]
    by_cases hbc : b = c
    · have hin : k < (d.ctx b).waitCounts.length := by omega
      subst hbc
      simp only [if_true, List.getD_eq_getElem?_getD, modAt_getElem?, hlcr, List.getElem?_eq_getElem hin]
      by_cases hki : k = i
      · simp [hki]
      · simp [hki]
    · simp [hbc]

/-- A group counts by its first occupied slot's wait, when all of them sleep. -/
theorem Device.countAsleep_eq (d : Device) (c : BitVec 6) (slots : List (Option Slot)) (present : Word) :
    d.countAsleep c slots present =
      match (slots.filterMap id).head?.bind (fun s => s.wait.counter) with
      | some i =>
        if (d.ctx c).dbgBlock.lcr && (slots.filterMap id).all (fun s => s.wait != .awake) then
          d.modCtx c (fun x => { x with waitCounts := modAt x.waitCounts i (· + BitVec.ofNat 64 (laneCount present)) })
        else d
      | none => d := by
  unfold countAsleep
  cases slots.filterMap id with
  | nil => rfl
  | cons s rest => rfl

theorem WaitsAdded.countAsleep (d : Device) (c : BitVec 6) (slots : List (Option Slot)) (present : Word) :
    WaitsAdded d (d.countAsleep c slots present) (fun b k => if b = c then sleepers k slots present else 0) := by
  have hall : (slots.filterMap id).all (fun s => s.wait != .awake) = true ↔ ∀ u ∈ slots.filterMap id, u.wait ≠ .awake := by
    simp only [List.all_eq_true, bne_iff_ne]
  rw [d.countAsleep_eq]
  simp only [sleepers_eq]
  cases hs : (slots.filterMap id).head?.bind (fun s => s.wait.counter) with
  | none => exact .refl d (fun b k _ _ => by simp only [reduceCtorEq, false_and, if_false, ite_self])
  | some i =>
    simp only [Option.some.injEq]
    split_ifs with h
    · obtain ⟨hlcr, hasleep⟩ := (Bool.and_eq_true _ _).mp h
      refine (WaitsAdded.modCtx d c i (laneCount present) hlcr).congr (fun b k => ?_)
      simp only [ite_and, eq_comm (a := k), and_iff_left (hall.mp hasleep)]
    · refine .refl d (fun b k _ hlcr => ?_)
      split_ifs with hb hk
      · rw [hb] at hlcr
        exact absurd ((Bool.and_eq_true _ _).mpr ⟨hlcr, hall.mpr hk.2⟩) h
      · rfl
      · rfl

theorem Device.halfOf_congr {d e : Device} {n : BitVec 6 → Nat → Nat} (h : WaitsAdded d e n) (w : Workgroup) (slot : Bool) :
    e.halfOf w slot = d.halfOf w slot := by
  unfold halfOf
  rw [h.ctx]
  rfl

/-- What one resident hardware group counts at a clock. -/
def Device.countResident (d : Device) (x : Workgroup × Nat × Nat) : Device :=
  match x.1.groups[x.2.1]? with
  | some g =>
    if g.pair = some true then
      match x.1.groups[x.2.1 - 1]? with
      | some low => d.countAsleep x.1.ctx [low.slot0, low.slot1] g.present
      | none => d
    else if d.halfOf x.1 true then
      (d.countAsleep x.1.ctx [g.slot0] (g.present &&& 0x0000FFFF)).countAsleep x.1.ctx [g.slot1] (g.present &&& 0xFFFF0000)
    else d.countAsleep x.1.ctx [g.slot0, g.slot1] g.present
  | none => d

theorem Device.countWaits_eq (d : Device) (core : BitVec 8) (part : BitVec 5) :
    d.countWaits core part = (d.residents core part).foldl countResident d := rfl

theorem asleepLanes_eq (d : Device) (k : Nat) (x : Workgroup × Nat × Nat) :
    asleepLanes d k x =
      match x.1.groups[x.2.1]? with
      | none => 0
      | some g =>
        if g.pair = some true then
          match x.1.groups[x.2.1 - 1]? with
          | some low => sleepers k [low.slot0, low.slot1] g.present
          | none => 0
        else if d.halfOf x.1 true then
          sleepers k [g.slot0] (g.present &&& 0x0000FFFF) + sleepers k [g.slot1] (g.present &&& 0xFFFF0000)
        else sleepers k [g.slot0, g.slot1] g.present := rfl

theorem WaitsAdded.countResident (d : Device) (x : Workgroup × Nat × Nat) :
    WaitsAdded d (d.countResident x) (fun c k => if c = x.1.ctx then asleepLanes d k x else 0) := by
  simp only [asleepLanes_eq]
  unfold Device.countResident
  cases x.1.groups[x.2.1]? with
  | none => exact .refl d (fun _ _ _ _ => ite_self _)
  | some g =>
    simp only
    split_ifs
    · cases x.1.groups[x.2.1 - 1]? with
      | none => exact .refl d (fun _ _ _ _ => ite_self _)
      | some low => exact .countAsleep ..
    · refine ((WaitsAdded.countAsleep ..).trans (.countAsleep ..)).congr (fun c k => ?_)
      split_ifs
      · rfl
      · rfl
    · exact .countAsleep ..

/-- The lanes that some resident hardware groups add to the counters of the contexts. -/
def addedLanes (d : Device) (l : List (Workgroup × Nat × Nat)) (c : BitVec 6) (k : Nat) : Nat :=
  ((l.filter (fun x => x.1.ctx == c)).map (asleepLanes d k)).sum

theorem addedLanes_cons (d : Device) (x : Workgroup × Nat × Nat) (l : List (Workgroup × Nat × Nat)) (c : BitVec 6) (k : Nat) :
    addedLanes d (x :: l) c k = (if c = x.1.ctx then asleepLanes d k x else 0) + addedLanes d l c k := by
  unfold addedLanes
  by_cases h : x.1.ctx = c
  · rw [List.filter_cons_of_pos (by simpa using h), List.map_cons, List.sum_cons, if_pos h.symm]
  · rw [List.filter_cons_of_neg (by simpa using h), if_neg (Ne.symm h), Nat.zero_add]

theorem WaitsAdded.asleepLanes_eq {d e : Device} {m : BitVec 6 → Nat → Nat} (h : WaitsAdded d e m) (k : Nat)
    (x : Workgroup × Nat × Nat) : asleepLanes e k x = asleepLanes d k x := by
  rw [Machine.asleepLanes_eq, Machine.asleepLanes_eq, Device.halfOf_congr h]

theorem WaitsAdded.countResidents (d : Device) (l : List (Workgroup × Nat × Nat)) :
    WaitsAdded d (l.foldl Device.countResident d) (addedLanes d l) := by
  induction l generalizing d with
  | nil => exact .refl d (fun _ _ _ _ => rfl)
  | cons x l ih =>
    have hx := WaitsAdded.countResident d x
    have hsame : ∀ c k, addedLanes (d.countResident x) l c k = addedLanes d l c k := by
      intro c k
      simp only [addedLanes, funext (hx.asleepLanes_eq k)]
    refine (hx.trans (ih (d.countResident x))).congr (fun c k => ?_)
    rw [hsame, addedLanes_cons]

/-- A clock of a partition counts the lanes that sleep there. -/
theorem WaitsAdded.countWaits (d : Device) (core : BitVec 8) (part : BitVec 5) :
    WaitsAdded d (d.countWaits core part) (addedLanes d (d.residents core part)) := by
  rw [Device.countWaits_eq]
  exact .countResidents d _

/-! ## The idle lanes (22 R340) -/

/-- The device with the idle lanes of a clock counted. -/
def Device.countIdle (d : Device) (core : BitVec 8) (part : BitVec 5) : Device :=
  match d.idleContext core part with
  | some c => if (d.ctx c).dbgBlock.lcr then d.modCtx c (fun x => x.countLanes 64 [0, 0, 0, 0, 32]) else d
  | none => d

theorem Device.idleLanes_eq (d : Device) (core : BitVec 8) (part : BitVec 5) :
    d.idleLanes core part = (d.countIdle core part).countWaits core part := rfl

theorem Device.countIdle_only (d : Device) (core : BitVec 8) (part : BitVec 5) :
    d.countIdle core part = { d with contexts := (d.countIdle core part).contexts } := by
  unfold countIdle
  cases d.idleContext core part with
  | none => rfl
  | some c =>
    simp only
    split_ifs
    · rfl
    · rfl

theorem Device.countIdle_ctx (d : Device) (core : BitVec 8) (part : BitVec 5) (c : BitVec 6) :
    (d.countIdle core part).ctx c =
      if d.idleContext core part = some c ∧ (d.ctx c).dbgBlock.lcr = true then (d.ctx c).countLanes 64 [0, 0, 0, 0, 32]
      else d.ctx c := by
  unfold countIdle
  cases d.idleContext core part with
  | none => simp
  | some b =>
    simp only [Option.some.injEq]
    by_cases hlcr : (d.ctx b).dbgBlock.lcr = true
    · rw [if_pos hlcr, ctx_modCtx]
      by_cases hb : b = c
      · subst hb
        rw [if_pos rfl, if_pos ⟨rfl, hlcr⟩]
      · rw [if_neg (Ne.symm hb), if_neg (fun h => hb h.1)]
    · rw [if_neg hlcr, if_neg (fun h : b = c ∧ (d.ctx c).dbgBlock.lcr = true => hlcr (h.1.symm ▸ h.2))]

theorem Context.countLanes_idle (x : Context) : IdleCounted true x (x.countLanes 64 [0, 0, 0, 0, 32]) := by
  unfold IdleCounted Context.countLanes
  simp only [if_true, tableGet_tableSet]
  refine ⟨?_, fun j hj => by rw [if_neg hj]⟩
  congr 1

theorem Device.countIdle_counted (d : Device) (core : BitVec 8) (part : BitVec 5) (c : BitVec 6) :
    IdleCounted (decide (d.idleContext core part = some c) && (d.ctx c).dbgBlock.lcr) (d.ctx c)
      ((d.countIdle core part).ctx c) := by
  rw [countIdle_ctx]
  by_cases h : d.idleContext core part = some c ∧ (d.ctx c).dbgBlock.lcr = true
  · rw [if_pos h, h.1, h.2]
    simpa using (d.ctx c).countLanes_idle
  · rw [if_neg h]
    have hno : (decide (d.idleContext core part = some c) && (d.ctx c).dbgBlock.lcr) = false := by simpa using h
    rw [hno]
    rfl

/-- The parts of a context that counting idle lanes leaves. -/
theorem Device.countIdle_bins (d : Device) (core : BitVec 8) (part : BitVec 5) (c : BitVec 6) :
    (d.countIdle core part).ctx c = { d.ctx c with bins := ((d.countIdle core part).ctx c).bins } := by
  rw [countIdle_ctx]
  split_ifs
  · rfl
  · rfl

/-! ## The YIELD marks (07 R164) -/

/-- Some YIELD marks cleared. -/
structure MarksCleared (d e : Device) : Prop where
  only : e = { d with wgs := e.wgs }
  wg : ∀ uid, e.wg uid = (d.wg uid).map (fun w => { w with groups := (e.wg uid).elim [] Workgroup.groups })
  group : ∀ uid g y, groupAt e uid g = some y → ∃ x, groupAt d uid g = some x ∧ y = { x with yielded := y.yielded } ∧
    (x.yielded = false → y.yielded = false)

theorem MarksCleared.refl (d : Device) : MarksCleared d d where
  only := rfl
  wg := by
    intro uid
    cases d.wg uid with
    | none => rfl
    | some w => rfl
  group := fun _ _ y hy => ⟨y, hy, rfl, id⟩

theorem MarksCleared.trans {d e f : Device} (h : MarksCleared d e) (h' : MarksCleared e f) : MarksCleared d f where
  only := by rw [h'.only, h.only]
  wg := by
    intro uid
    rw [h'.wg uid, h.wg uid]
    cases d.wg uid with
    | none => rfl
    | some w => rfl
  group := by
    intro uid g y hy
    obtain ⟨x, hx, hyx, hfalse⟩ := h'.group uid g y hy
    obtain ⟨z, hz, hxz, hfalse'⟩ := h.group uid g x hx
    refine ⟨z, hz, ?_, fun hf => hfalse (hfalse' hf)⟩
    rw [hyx, hxz]

/-- One group's mark cleared. -/
def Device.clearMark (d : Device) (x : Workgroup × Nat × Nat) : Device :=
  d.modGroup x.1.uid x.2.1 (fun g => { g with yielded := false })

theorem Device.groupAt_clearMark {d : Device} {x : Workgroup × Nat × Nat} {y : Group}
    (h : groupAt (d.clearMark x) x.1.uid x.2.1 = some y) : y.yielded = false := by
  rw [clearMark, groupAt_modGroup, if_pos ⟨rfl, rfl⟩] at h
  obtain ⟨z, -, rfl⟩ := Option.map_eq_some_iff.mp h
  rfl

theorem MarksCleared.clearMark (d : Device) (x : Workgroup × Nat × Nat) : MarksCleared d (d.clearMark x) where
  only := rfl
  wg := by
    intro uid
    rw [Device.clearMark, d.wg_modGroup]
    cases d.wg uid with
    | none => simp
    | some w => split_ifs <;> rfl
  group := by
    intro uid g y hy
    rw [Device.clearMark, groupAt_modGroup] at hy
    split_ifs at hy
    · obtain ⟨z, hz, rfl⟩ := Option.map_eq_some_iff.mp hy
      exact ⟨z, hz, rfl, fun _ => rfl⟩
    · exact ⟨y, hy, rfl, id⟩

theorem Device.unmark_eq (d : Device) (core : BitVec 8) (part : BitVec 5) :
    d.unmark core part none = (d.residents core part).foldl clearMark d := rfl

theorem MarksCleared.clearMarks (d : Device) (l : List (Workgroup × Nat × Nat)) :
    MarksCleared d (l.foldl Device.clearMark d) ∧
      ∀ x ∈ l, ∀ y, groupAt (l.foldl Device.clearMark d) x.1.uid x.2.1 = some y → y.yielded = false := by
  induction l generalizing d with
  | nil => exact ⟨.refl d, by simp⟩
  | cons x l ih =>
    obtain ⟨hrest, hclear⟩ := ih (d.clearMark x)
    refine ⟨(MarksCleared.clearMark d x).trans hrest, fun z hz y hy => ?_⟩
    rcases List.mem_cons.mp hz with rfl | hz
    · obtain ⟨u, hu, -, hfalse⟩ := hrest.group _ _ y hy
      exact hfalse (Device.groupAt_clearMark hu)
    · exact hclear z hz y hy

/-! ## The idle clock -/

theorem Device.residents_congr {d e : Device} (h : d.wgs = e.wgs) (core : BitVec 8) (part : BitVec 5) :
    d.residents core part = e.residents core part := by
  rw [residents, residents, h]

/-- Contexts counted twice and then workgroups changed: nothing else is. -/
theorem Device.only_contexts_wgs {a b c e : Device} (hb : b = { a with contexts := b.contexts })
    (hc : c = { b with contexts := c.contexts }) (he : e = { c with wgs := e.wgs }) :
    e = { a with wgs := e.wgs, contexts := e.contexts } := by
  rw [he, hc, hb]

/-- What the clock of a partition with no ready chain leaves: the counts of its idle lanes and of its waits, and no mark. -/
theorem Device.idleClock_leaves (d : Device) (core : BitVec 8) (part : BitVec 5) :
    WaitsAdded (d.countIdle core part) (d.idleLanes core part)
        (addedLanes (d.countIdle core part) (d.residents core part)) ∧
      MarksCleared (d.idleLanes core part) ((d.idleLanes core part).unmark core part none) ∧
      ∀ x ∈ d.residents core part, ∀ y,
        groupAt ((d.idleLanes core part).unmark core part none) x.1.uid x.2.1 = some y → y.yielded = false := by
  have hwaits := WaitsAdded.countWaits (d.countIdle core part) core part
  have hidle : (d.countIdle core part).residents core part = d.residents core part :=
    residents_congr (by rw [d.countIdle_only core part]) core part
  have hlanes : (d.idleLanes core part).residents core part = d.residents core part := by
    rw [idleLanes_eq, residents_congr hwaits.wgs, hidle]
  obtain ⟨hmarks, hclear⟩ := MarksCleared.clearMarks (d.idleLanes core part) (d.residents core part)
  rw [unmark_eq, hlanes]
  rw [hidle] at hwaits
  exact ⟨hwaits, hmarks, hclear⟩

/-- Settles O35: the oldest write by its generation, and the idle clock by its counts and marks. -/
theorem writesAndIdleClock : Obligations.WritesAndIdleClock := by
  refine ⟨fun s x rest w g hx hw hg => ⟨fun hgone hgen h0 h4 hroom hfits =>
    exec_registerWriteback_lands hx hw hg hgone hgen h0 h4 hroom hfits, fun hgen => ?_⟩, fun s core part hpick => ?_⟩
  · rw [exec_registerWriteback, Device.writeback_drops hx hw hg hgen]
  · obtain ⟨hwaits, hmarks, hclear⟩ := s.dev.idleClock_leaves core part
    refine ⟨_, exec_partitionClock_idle hpick, ?_⟩
    generalize (s.dev.idleLanes core part).unmark core part none = d at hmarks hclear ⊢
    generalize s.dev.idleLanes core part = e at hwaits hmarks
    have hidle := s.dev.countIdle_only core part
    have hbins := s.dev.countIdle_bins core part
    have hcounted := s.dev.countIdle_counted core part
    generalize s.dev.countIdle core part = a at hwaits hidle hbins hcounted
    have hwgs : e.wgs = s.dev.wgs := by rw [hwaits.wgs, hidle]
    have hctx : ∀ c, d.ctx c = e.ctx c := fun c => by rw [Device.ctx, Device.ctx, hmarks.only]
    refine ⟨Device.only_contexts_wgs hidle hwaits.only hmarks.only, fun uid => ?_, fun uid g y hy => ?_, hclear, fun c => ?_,
      fun c => ?_, fun c k hc hk => ?_⟩
    · rw [← Device.wg_congr hwgs]
      exact hmarks.wg uid
    · obtain ⟨x, hx, hyx, -⟩ := hmarks.group uid g y hy
      exact ⟨x, (groupAt_congr hwgs uid g).symm.trans hx, hyx⟩
    · rw [hctx, hwaits.ctx, hbins]
    · rw [hctx, hwaits.ctx]
      have hc := hcounted c
      unfold IdleCounted at hc ⊢
      exact hc
    · have hold : (a.ctx c).waitCounts = (s.dev.ctx c).waitCounts ∧ (a.ctx c).dbgBlock = (s.dev.ctx c).dbgBlock := by
        rw [hbins]
        exact ⟨rfl, rfl⟩
      have hlanes : ∀ x, asleepLanes a k x = asleepLanes s.dev k x := by
        intro x
        rw [asleepLanes_eq, asleepLanes_eq]
        unfold Device.halfOf
        rw [hbins]
        rfl
      obtain ⟨hcounts, hblock⟩ := hold
      rw [hctx, hwaits.counts c k (hcounts ▸ hc) hk, hcounts, hblock, addedLanes, funext hlanes]

end Sys2Proof.Machine
end

section
/-! SUPPORT. Magnitudes as rational numbers, and the rounding of a magnitude on a grid of codes (02 R42, R57). -/

namespace Sys2Proof.Machine

open Sys2Proof Sys2Proof.Claims

/-! ## Magnitudes -/

/-- The magnitude m * 2^e. -/
def mag (m : Nat) (e : Int) : ℚ := m * 2 ^ e

/-- The sign as a factor. -/
def sgn (n : Bool) : ℚ := if n then -1 else 1

theorem ratio_num (n : Bool) (m : Nat) (e : Int) : ratio (.num n m e) = sgn n * mag m e := mul_assoc ..

theorem mag_nonneg (m : Nat) (e : Int) : 0 ≤ mag m e := by unfold mag; positivity

theorem mag_pos {m : Nat} (h : m ≠ 0) (e : Int) : 0 < mag m e := by
  have hm : 0 < m := Nat.pos_of_ne_zero h
  unfold mag
  positivity

theorem mag_zero (e : Int) : mag 0 e = 0 := by simp [mag]

theorem abs_sgn (n : Bool) : |sgn n| = 1 := by cases n <;> simp [sgn]

theorem sgn_mul_self (n : Bool) : sgn n * sgn n = 1 := by cases n <;> simp [sgn]

theorem abs_sgn_mul (n : Bool) {x : ℚ} (h : 0 ≤ x) : |sgn n * x| = x := by rw [abs_mul, abs_sgn, one_mul, abs_of_nonneg h]

theorem abs_ratio_num (n : Bool) (m : Nat) (e : Int) : |ratio (.num n m e)| = mag m e := by
  rw [ratio_num, abs_sgn_mul n (mag_nonneg m e)]

theorem scaleUp_cast {m : Nat} {k : Int} (h : 0 ≤ k) : (scaleUp m k : ℚ) = mag m k := by
  obtain ⟨n, rfl⟩ := Int.eq_ofNat_of_zero_le h
  simp [scaleUp, mag]

/-- A magnitude in units of 2^x. -/
theorem mag_eq_units (m : Nat) {e x : Int} (h : x ≤ e) : mag m e = scaleUp m (e - x) * 2 ^ x := by
  rw [scaleUp_cast (by omega), mag, mag, mul_assoc, ← zpow_add₀ two_ne_zero]
  congr 2
  omega

theorem cmpMag_lt {m m' : Nat} {e e' : Int} : cmpMag m e m' e' = .lt ↔ mag m e < mag m' e' := by
  rw [cmpMag, compare_lt_iff_lt, mag_eq_units m (min_le_left e e'), mag_eq_units m' (min_le_right e e'),
    mul_lt_mul_iff_of_pos_right (by positivity), Nat.cast_lt]

theorem cmpMag_gt {m m' : Nat} {e e' : Int} : cmpMag m e m' e' = .gt ↔ mag m' e' < mag m e := by
  rw [cmpMag, compare_gt_iff_gt, mag_eq_units m (min_le_left e e'), mag_eq_units m' (min_le_right e e'),
    mul_lt_mul_iff_of_pos_right (by positivity), Nat.cast_lt]

theorem cmpMag_eq {m m' : Nat} {e e' : Int} : cmpMag m e m' e' = .eq ↔ mag m e = mag m' e' := by
  rw [cmpMag, compare_eq_iff_eq, mag_eq_units m (min_le_left e e'), mag_eq_units m' (min_le_right e e'),
    mul_left_inj' (by positivity), Nat.cast_inj]

/-! ## Rounding up -/

/-- Whether a magnitude from `a` on and below `b` rounds to `b`, in a mode and with a sign; `odd` says whether a tie goes there. -/
def RoundsUp (r : Rounding) (neg : Bool) (a b x : ℚ) (odd : Prop) : Prop :=
  match r with
  | .rne => a + b < 2 * x ∨ (2 * x = a + b ∧ odd)
  | .rz => False
  | .ru => neg = false ∧ x ≠ a
  | .rd => neg = true ∧ x ≠ a

theorem RoundsUp.scale {r : Rounding} {neg : Bool} {a b x : ℚ} {odd : Prop} {u : ℚ} (hu : 0 < u) :
    RoundsUp r neg (a * u) (b * u) (x * u) odd ↔ RoundsUp r neg a b x odd := by
  cases r with
  | rne =>
    simp only [RoundsUp, ← add_mul, ← mul_assoc, mul_lt_mul_iff_of_pos_right hu, mul_left_inj' hu.ne']
  | rz => rfl
  | ru => simp only [RoundsUp, ne_eq, mul_left_inj' hu.ne']
  | rd => simp only [RoundsUp, ne_eq, mul_left_inj' hu.ne']

/-- A magnitude on the grid stays. -/
theorem RoundsUp.not_of_eq {r : Rounding} {neg : Bool} {a b : ℚ} {odd : Prop} (h : a < b) : ¬ RoundsUp r neg a b a odd := by
  cases r with
  | rne =>
    rintro (h' | ⟨h', -⟩)
    · linarith
    · linarith
  | rz => exact id
  | ru => exact fun h' => h'.2 rfl
  | rd => exact fun h' => h'.2 rfl

/-- m / 2^s rounded: the quotient, or the integer after it. -/
theorem roundShift_eq (r : Rounding) (neg : Bool) (m s : Nat) :
    ∃ up : Bool, (up = true ↔ RoundsUp r neg (m / 2 ^ s : ℕ) ((m / 2 ^ s : ℕ) + 1) (m / 2 ^ s) (m / 2 ^ s % 2 = 1)) ∧
      roundShift r neg m s = m / 2 ^ s + up.toNat := by
  have hpos : (0 : ℚ) < 2 ^ s := by positivity
  have hsplit : (m : ℚ) / 2 ^ s = (m / 2 ^ s : ℕ) + (m % 2 ^ s : ℕ) / 2 ^ s := by
    rw [div_eq_iff hpos.ne', add_mul, div_mul_cancel₀ _ hpos.ne', mul_comm]
    exact_mod_cast (Nat.div_add_mod m (2 ^ s)).symm
  have hexact : (m : ℚ) / 2 ^ s ≠ (m / 2 ^ s : ℕ) ↔ m % 2 ^ s ≠ 0 := by
    rw [hsplit, ne_eq, add_eq_left, div_eq_zero_iff, or_iff_left hpos.ne', Nat.cast_eq_zero]
  have habove : ((m / 2 ^ s : ℕ) : ℚ) + ((m / 2 ^ s : ℕ) + 1) < 2 * (m / 2 ^ s) ↔ 2 ^ s < 2 * (m % 2 ^ s) := by
    rw [hsplit, ← Nat.cast_lt (α := ℚ)]
    push_cast
    rw [show ((m / 2 ^ s : ℕ) : ℚ) + ((m / 2 ^ s : ℕ) + 1) = 2 * (m / 2 ^ s : ℕ) + 1 by ring, mul_add, add_lt_add_iff_left,
      ← mul_div_assoc, lt_div_iff₀ hpos, one_mul]
  have htie : 2 * ((m : ℚ) / 2 ^ s) = ((m / 2 ^ s : ℕ) : ℚ) + ((m / 2 ^ s : ℕ) + 1) ↔ 2 * (m % 2 ^ s) = 2 ^ s := by
    rw [hsplit, ← Nat.cast_inj (R := ℚ)]
    push_cast
    rw [show ((m / 2 ^ s : ℕ) : ℚ) + ((m / 2 ^ s : ℕ) + 1) = 2 * (m / 2 ^ s : ℕ) + 1 by ring, mul_add, add_right_inj,
      ← mul_div_assoc, div_eq_iff hpos.ne', one_mul]
  have hshift : 2 * (m % 2 ^ s) = 2 ^ s → 0 < s := by
    intro h
    rcases Nat.eq_zero_or_pos s with rfl | hs
    · simp [Nat.mod_one] at h
    · exact hs
  have hadd : ∀ up : Bool, (if up then m / 2 ^ s + 1 else m / 2 ^ s) = m / 2 ^ s + up.toNat := by
    intro up
    cases up <;> rfl
  unfold roundShift
  refine ⟨_, ?_, hadd _⟩
  cases r with
  | rne =>
    simp only [RoundsUp, habove, htie, Bool.or_eq_true, Bool.and_eq_true, decide_eq_true_eq, beq_iff_eq]
    exact or_congr_right ⟨fun h => h.1, fun h => ⟨h, hshift h.1⟩⟩
  | rz => simp [RoundsUp]
  | ru => simp only [RoundsUp, hexact, Bool.and_eq_true, Bool.not_eq_true', decide_eq_true_eq]
  | rd => simp only [RoundsUp, hexact, Bool.and_eq_true, decide_eq_true_eq]

/-! ## Rounding on a grid -/

/-- A code is what a magnitude rounds to on a grid of magnitudes: that of the value at or below it, or the next one. -/
def OnGrid (g : ℕ → ℚ) (r : Rounding) (neg : Bool) (x : ℚ) (c : ℕ) : Prop :=
  ∃ (lo : ℕ) (up : Bool), g lo ≤ x ∧ x < g (lo + 1) ∧ (up = true ↔ RoundsUp r neg (g lo) (g (lo + 1)) x (lo % 2 = 1)) ∧
    c = lo + up.toNat

section Grid

variable {g : ℕ → ℚ} (hg : StrictMono g) {r : Rounding} {neg : Bool} {x : ℚ} {c : ℕ}

include hg

/-- On the grid between two neighbours there is nothing. -/
theorem grid_le_or_ge (lo j : ℕ) : g j ≤ g lo ∨ g (lo + 1) ≤ g j := by
  rcases Nat.lt_or_ge lo j with hj | hj
  · exact .inr (hg.monotone hj)
  · exact .inl (hg.monotone hj)

/-- To nearest: no value of the grid is nearer, and where one is as near the code is even. -/
theorem OnGrid.nearest (h : OnGrid g .rne neg x c) (j : ℕ) :
    |g c - x| ≤ |g j - x| ∧ (|g c - x| = |g j - x| → g j ≠ g c → c % 2 = 0) := by
  obtain ⟨lo, up, hlo, hhi, hup, rfl⟩ := h
  have hbetween := grid_le_or_ge hg lo j
  cases up with
  | false =>
    have hdown : ¬ (g lo + g (lo + 1) < 2 * x ∨ 2 * x = g lo + g (lo + 1) ∧ lo % 2 = 1) := fun h => by
      simpa using hup.mpr h
    push Not at hdown
    obtain ⟨hnear, heven⟩ := hdown
    rw [Bool.toNat_false, Nat.add_zero, abs_of_nonpos (by linarith)]
    rcases hbetween with hj | hj
    · rw [abs_of_nonpos (by linarith)]
      exact ⟨by linarith, fun heq hne => absurd (by linarith) hne⟩
    · rw [abs_of_pos (by linarith)]
      exact ⟨by linarith, fun heq _ => by have := heven (by linarith); omega⟩
  | true =>
    have hnear : g lo + g (lo + 1) ≤ 2 * x ∧ (2 * x = g lo + g (lo + 1) → lo % 2 = 1) := by
      rcases hup.mp rfl with h | ⟨h, hodd⟩
      · exact ⟨h.le, fun h' => by linarith⟩
      · exact ⟨h.ge, fun _ => hodd⟩
    rw [Bool.toNat_true, abs_of_pos (by linarith)]
    rcases hbetween with hj | hj
    · rw [abs_of_nonpos (by linarith)]
      exact ⟨by linarith, fun heq _ => by have := hnear.2 (by linarith); omega⟩
    · rw [abs_of_pos (by linarith)]
      exact ⟨by linarith, fun heq hne => absurd (by linarith) hne⟩

/-- Toward zero: the greatest value of the grid at or below. -/
theorem OnGrid.down (h : OnGrid g r neg x c) (hdown : ∀ a b odd, ¬ RoundsUp r neg a b x odd) :
    g c ≤ x ∧ ∀ j, g j ≤ x → g j ≤ g c := by
  obtain ⟨lo, up, hlo, hhi, hup, rfl⟩ := h
  have hno : up = false := by simpa using fun h => hdown _ _ _ (hup.mp h)
  rw [hno, Bool.toNat_false, Nat.add_zero]
  exact ⟨hlo, fun j hj => (grid_le_or_ge hg lo j).resolve_right (by linarith)⟩

/-- Away from zero: the least value of the grid at or above. -/
theorem OnGrid.up (h : OnGrid g r neg x c) (hup : ∀ a b odd, RoundsUp r neg a b x odd ↔ x ≠ a) :
    x ≤ g c ∧ ∀ j, x ≤ g j → g c ≤ g j := by
  obtain ⟨lo, up, hlo, hhi, hup', rfl⟩ := h
  rw [hup] at hup'
  cases up with
  | false =>
    have heq : x = g lo := by simpa using hup'
    rw [Bool.toNat_false, Nat.add_zero]
    exact ⟨heq.le, fun j hj => heq ▸ hj⟩
  | true =>
    have hne : x ≠ g lo := hup'.mp rfl
    rw [Bool.toNat_true]
    refine ⟨hhi.le, fun j hj => (grid_le_or_ge hg lo j).resolve_left (fun hle => hne ?_)⟩
    linarith

/-- A value of the grid is what it rounds to, and only an exact result equals its number. -/
theorem OnGrid.eq_iff (h : OnGrid g r neg x c) : g c = x ↔ ∃ j, g j = x := by
  refine ⟨fun h' => ⟨c, h'⟩, fun ⟨j, hj⟩ => ?_⟩
  obtain ⟨lo, up, hlo, hhi, hup, rfl⟩ := h
  have hx : g lo = x := by
    rcases grid_le_or_ge hg lo j with h | h
    · linarith
    · linarith
  have hno : up = false := by
    have := RoundsUp.not_of_eq (r := r) (neg := neg) (odd := lo % 2 = 1) (hg lo.lt_succ_self)
    rw [hx] at this hup
    simpa using fun h => this (hup.mp h)
  rw [hno, Bool.toNat_false, Nat.add_zero, hx]

/-- A magnitude below a value of the grid does not round beyond it, and one at or above it does not round below. -/
theorem OnGrid.le_of_le (h : OnGrid g r neg x c) {j : ℕ} (hx : x ≤ g j) : c ≤ j := by
  obtain ⟨lo, up, hlo, hhi, hup, rfl⟩ := h
  rcases hx.lt_or_eq with hx | rfl
  · have : lo < j := hg.lt_iff_lt.mp (hlo.trans_lt hx)
    have : up.toNat ≤ 1 := Bool.toNat_le up
    omega
  · have heq : lo = j := by
      have h1 : lo ≤ j := hg.le_iff_le.mp hlo
      have h2 : j < lo + 1 := hg.lt_iff_lt.mp hhi
      omega
    subst heq
    have hno : up = false := by simpa using fun h => RoundsUp.not_of_eq (hg lo.lt_succ_self) (hup.mp h)
    rw [hno]
    exact Nat.le_refl _

theorem OnGrid.le_of_ge (h : OnGrid g r neg x c) {j : ℕ} (hx : g j ≤ x) : j ≤ c := by
  obtain ⟨lo, up, hlo, hhi, hup, rfl⟩ := h
  have : j < lo + 1 := hg.lt_iff_lt.mp (hx.trans_lt hhi)
  omega

end Grid

end Sys2Proof.Machine
end

section
/-! SUPPORT. The binary formats (02 R42, R47): the magnitudes of their codes in order, and what they round a magnitude to. -/

namespace Sys2Proof.Machine

open Sys2Proof Sys2Proof.Claims

/-! ## The magnitudes of the codes -/

/-- The magnitude of a magnitude code: its exponent field with no upper end. -/
def Binary.grid (b : Binary) (c : ℕ) : ℚ :=
  if c < 2 ^ b.fb then mag c (1 - b.bias - b.fb)
  else mag (2 ^ b.fb + c % 2 ^ b.fb) ((c / 2 ^ b.fb : ℕ) - b.bias - b.fb)

/-- A code as an exponent step and a significand, which may be that of the next binade's first value. -/
theorem Binary.grid_step (b : Binary) {j k : ℕ} (hk : k ≤ 2 ^ (b.fb + 1)) (h : j = 0 ∨ 2 ^ b.fb ≤ k) :
    b.grid (j * 2 ^ b.fb + k) = mag k (j + 1 - b.bias - b.fb) := by
  have hpos : 0 < 2 ^ b.fb := Nat.two_pow_pos _
  have hpow : 2 ^ (b.fb + 1) = 2 * 2 ^ b.fb := by rw [pow_succ, mul_comm]
  unfold grid
  by_cases hsub : j * 2 ^ b.fb + k < 2 ^ b.fb
  · have hj : j = 0 := by
      rcases h with h | h
      · exact h
      · omega
    rw [if_pos hsub, hj]
    simp
  · rw [if_neg hsub]
    rcases hk.lt_or_eq with hlt | heq
    · have hk' : 2 ^ b.fb ≤ k := by
        rcases h with h | h
        · subst h; omega
        · exact h
      obtain ⟨f, rfl⟩ := Nat.exists_eq_add_of_le hk'
      have hf : f < 2 ^ b.fb := by omega
      have hdiv : (j * 2 ^ b.fb + (2 ^ b.fb + f)) / 2 ^ b.fb = j + 1 := by
        rw [show j * 2 ^ b.fb + (2 ^ b.fb + f) = f + (j + 1) * 2 ^ b.fb by ring, Nat.add_mul_div_right _ _ hpos,
          Nat.div_eq_of_lt hf, Nat.zero_add]
      have hmod : (j * 2 ^ b.fb + (2 ^ b.fb + f)) % 2 ^ b.fb = f := by
        rw [show j * 2 ^ b.fb + (2 ^ b.fb + f) = f + (j + 1) * 2 ^ b.fb by ring, Nat.add_mul_mod_self_right,
          Nat.mod_eq_of_lt hf]
      rw [hdiv, hmod]
      push_cast
      rfl
    · have hcode : j * 2 ^ b.fb + k = (j + 2) * 2 ^ b.fb := by rw [heq, hpow]; ring
      rw [hcode, Nat.mul_div_cancel _ hpos, Nat.mul_mod_left, heq, Nat.add_zero]
      unfold mag
      push_cast
      rw [pow_succ, mul_assoc, show ((j : ℤ) + 2 - b.bias - b.fb) = 1 + (j + 1 - b.bias - b.fb) by ring,
        zpow_add₀ two_ne_zero, zpow_one]

/-- Every code is one of them. -/
theorem Binary.exists_step (b : Binary) (c : ℕ) :
    ∃ j k, c = j * 2 ^ b.fb + k ∧ k < 2 ^ (b.fb + 1) ∧ (j = 0 ∨ 2 ^ b.fb ≤ k) := by
  have hpos : 0 < 2 ^ b.fb := Nat.two_pow_pos _
  have hpow : 2 ^ (b.fb + 1) = 2 * 2 ^ b.fb := by rw [pow_succ, mul_comm]
  by_cases h : c < 2 ^ b.fb
  · exact ⟨0, c, by omega, by omega, .inl rfl⟩
  · have hdiv : 1 ≤ c / 2 ^ b.fb := (Nat.one_le_div_iff hpos).mpr (by omega)
    have hmod : c % 2 ^ b.fb < 2 ^ b.fb := Nat.mod_lt _ hpos
    refine ⟨c / 2 ^ b.fb - 1, 2 ^ b.fb + c % 2 ^ b.fb, ?_, by omega, .inr (by omega)⟩
    have := Nat.div_add_mod' c (2 ^ b.fb)
    obtain ⟨q, hq⟩ := Nat.exists_eq_add_of_le hdiv
    rw [hq, Nat.add_mul, Nat.one_mul] at this
    rw [hq, Nat.add_sub_cancel_left]
    omega

theorem mag_lt_mag {m m' : ℕ} (h : m < m') (e : ℤ) : mag m e < mag m' e := by
  unfold mag
  have : (m : ℚ) < m' := by exact_mod_cast h
  have : (0 : ℚ) < 2 ^ e := by positivity
  nlinarith

theorem Binary.grid_strictMono (b : Binary) : StrictMono b.grid := by
  refine strictMono_nat_of_lt_succ (fun c => ?_)
  obtain ⟨j, k, rfl, hk, h⟩ := b.exists_step c
  rw [Nat.add_assoc, b.grid_step hk.le h, b.grid_step hk (h.imp_right (by omega))]
  exact mag_lt_mag k.lt_succ_self _

theorem Binary.grid_zero (b : Binary) : b.grid 0 = 0 := by
  rw [grid, if_pos (Nat.two_pow_pos _), mag_zero]

theorem Binary.grid_nonneg (b : Binary) (c : ℕ) : 0 ≤ b.grid c := b.grid_zero ▸ b.grid_strictMono.monotone (Nat.zero_le c)

/-! ## Rounding -/

/-- The exponent of the unit that a magnitude is rounded in. -/
def Binary.unitExp (b : Binary) (m : Nat) (e : Int) : Int := max ((Nat.log2 m : Int) + e - b.fb) (1 - b.bias - b.fb)

/-- A magnitude rounded to units of 2^q. -/
def roundUnits (r : Rounding) (neg : Bool) (m : Nat) (e q : Int) : Nat :=
  if q - e ≤ 0 then scaleUp m (-(q - e)) else roundShift r neg m (q - e).toNat

/-- The magnitude code that a magnitude is rounded to, before an overflow. -/
def Binary.roundCode (b : Binary) (r : Rounding) (neg : Bool) (m : Nat) (e : Int) : Nat :=
  ((b.unitExp m e + b.fb + b.bias) * (2 ^ b.fb : Nat) + (roundUnits r neg m e (b.unitExp m e) : Int) - (2 ^ b.fb : Nat)).toNat

theorem Binary.round_eq (b : Binary) (r : Rounding) (neg : Bool) (m : Nat) (e : Int) :
    b.round r neg m e =
      if b.overCode ≤ b.roundCode r neg m e then b.overflow r neg
      else (b.signBit neg + b.roundCode r neg m e,
        if decide (b.unitExp m e - e ≤ 0) || decide (m % 2 ^ (b.unitExp m e - e).toNat = 0) then 0
        else if b.tiny r neg m e then flagUF + flagNX else flagNX) := rfl

/-- A magnitude rounded to units: the whole units in it, or one more. -/
theorem roundUnits_eq (r : Rounding) (neg : Bool) (m : Nat) (e q : Int) :
    ∃ (k : ℕ) (up : Bool), mag k q ≤ mag m e ∧ mag m e < mag (k + 1) q ∧
      (up = true ↔ RoundsUp r neg (mag k q) (mag (k + 1) q) (mag m e) (k % 2 = 1)) ∧ roundUnits r neg m e q = k + up.toNat := by
  have hq : (0 : ℚ) < 2 ^ q := by positivity
  by_cases h : q - e ≤ 0
  · have heq : mag (scaleUp m (-(q - e))) q = mag m e := by
      rw [mag_eq_units m (show q ≤ e by omega), mag, neg_sub]
    refine ⟨scaleUp m (-(q - e)), false, heq.le, heq ▸ mag_lt_mag (Nat.lt_succ_self _) q, ?_, ?_⟩
    · rw [← heq]
      simpa using RoundsUp.not_of_eq (mag_lt_mag (Nat.lt_succ_self _) q)
    · rw [roundUnits, if_pos h, Bool.toNat_false, Nat.add_zero]
  · obtain ⟨s, hs⟩ := Int.eq_ofNat_of_zero_le (show 0 ≤ q - e by omega)
    have hmag : mag m e = (m : ℚ) / 2 ^ s * 2 ^ q := by
      rw [mag, show q = e + s by omega, zpow_add₀ two_ne_zero, zpow_natCast]
      field_simp
    obtain ⟨up, hup, hround⟩ := roundShift_eq r neg m s
    have hpos : (0 : ℚ) < 2 ^ s := by positivity
    have hlo : ((m / 2 ^ s : ℕ) : ℚ) ≤ m / 2 ^ s := by
      rw [le_div_iff₀ hpos]
      exact_mod_cast Nat.div_mul_le_self m (2 ^ s)
    have hhi : (m : ℚ) / 2 ^ s < (m / 2 ^ s : ℕ) + 1 := by
      rw [div_lt_iff₀ hpos, mul_comm]
      exact_mod_cast Nat.lt_mul_div_succ m (Nat.two_pow_pos s)
    refine ⟨m / 2 ^ s, up, ?_, ?_, ?_, ?_⟩
    · rw [hmag, mag]
      exact mul_le_mul_of_nonneg_right hlo hq.le
    · rw [hmag, mag]
      push_cast
      exact mul_lt_mul_of_pos_right hhi hq
    · rw [hup, hmag, mag, mag, ← RoundsUp.scale hq]
      push_cast
      rfl
    · rw [roundUnits, if_neg h, hs, Int.toNat_natCast, hround]

/-- The order of a magnitude: the exponent of the power of two at or below it. -/
theorem two_zpow_log2_le {m : Nat} (h : m ≠ 0) (e : Int) : (2 : ℚ) ^ ((Nat.log2 m : Int) + e) ≤ mag m e := by
  rw [zpow_add₀ two_ne_zero, zpow_natCast]
  exact mul_le_mul_of_nonneg_right (by exact_mod_cast Nat.log2_self_le h) (by positivity)

theorem mag_lt_two_zpow (m : Nat) (e : Int) : mag m e < (2 : ℚ) ^ ((Nat.log2 m : Int) + e + 1) := by
  rw [show (Nat.log2 m : Int) + e + 1 = ((Nat.log2 m + 1 : ℕ) : Int) + e by push_cast; ring, zpow_add₀ two_ne_zero, zpow_natCast]
  exact mul_lt_mul_of_pos_right (by exact_mod_cast Nat.lt_log2_self) (by positivity)

/-- Whole units of a magnitude. -/
theorem units_lt_of_mag_lt {k n : ℕ} {q : ℤ} {x : ℚ} (hk : mag k q ≤ x) (hx : x < 2 ^ (n + q)) : k < 2 ^ n := by
  have h := hk.trans_lt hx
  rw [mag, zpow_add₀ two_ne_zero, zpow_natCast] at h
  exact_mod_cast lt_of_mul_lt_mul_right h (by positivity)

theorem le_units_of_le_mag {k n : ℕ} {q : ℤ} {x : ℚ} (hk : x < mag (k + 1) q) (hx : 2 ^ (n + q) ≤ x) : 2 ^ n ≤ k := by
  have h := hx.trans_lt hk
  rw [mag, zpow_add₀ two_ne_zero, zpow_natCast] at h
  have := lt_of_mul_lt_mul_right h (by positivity)
  exact Nat.lt_succ_iff.mp (by exact_mod_cast this)

/-- What a magnitude of a binary format is rounded in: whole units below twice the hidden bit, and not below it unless the exponent
is at its lower end. -/
theorem Binary.units_range (b : Binary) {m : Nat} (hm : m ≠ 0) (e : Int) {k : ℕ} (hlo : mag k (b.unitExp m e) ≤ mag m e)
    (hhi : mag m e < mag (k + 1) (b.unitExp m e)) :
    k < 2 ^ (b.fb + 1) ∧ (b.unitExp m e = 1 - b.bias - b.fb ∨ 2 ^ b.fb ≤ k) := by
  constructor
  · refine units_lt_of_mag_lt hlo ((mag_lt_two_zpow m e).trans_le (zpow_le_zpow_right₀ one_le_two ?_))
    have : (Nat.log2 m : Int) + e - b.fb ≤ b.unitExp m e := le_max_left ..
    push_cast
    omega
  · rcases max_choice ((Nat.log2 m : Int) + e - b.fb) (1 - b.bias - b.fb) with h | h
    · right
      have hq : b.unitExp m e = (Nat.log2 m : Int) + e - b.fb := h
      refine le_units_of_le_mag hhi ((two_zpow_log2_le hm e).trans_eq' ?_)
      congr 1
      omega
    · exact .inl h

/-- The code that a magnitude is rounded to, as an exponent step and a significand: the whole units in the magnitude, or one
more. -/
theorem Binary.roundCode_step (b : Binary) (r : Rounding) (neg : Bool) {m : Nat} (hm : m ≠ 0) (e : Int) :
    ∃ (j k : ℕ) (up : Bool), b.unitExp m e = j + 1 - b.bias - b.fb ∧ k < 2 ^ (b.fb + 1) ∧ (j = 0 ∨ 2 ^ b.fb ≤ k) ∧
      mag k (b.unitExp m e) ≤ mag m e ∧ mag m e < mag (k + 1) (b.unitExp m e) ∧
      (up = true ↔ RoundsUp r neg (mag k (b.unitExp m e)) (mag (k + 1) (b.unitExp m e)) (mag m e) (k % 2 = 1)) ∧
      roundUnits r neg m e (b.unitExp m e) = k + up.toNat ∧ b.roundCode r neg m e = j * 2 ^ b.fb + (k + up.toNat) := by
  obtain ⟨k, up, hlo, hhi, hup, hround⟩ := roundUnits_eq r neg m e (b.unitExp m e)
  obtain ⟨hk, hrange⟩ := b.units_range hm e hlo hhi
  have hq : 1 - b.bias - b.fb ≤ b.unitExp m e := le_max_right ..
  obtain ⟨j, hj⟩ := Int.eq_ofNat_of_zero_le (show 0 ≤ b.unitExp m e + b.fb + b.bias - 1 by omega)
  refine ⟨j, k, up, by omega, hk, hrange.imp_left (by omega), hlo, hhi, hup, hround, ?_⟩
  rw [roundCode, hround, show b.unitExp m e + b.fb + b.bias = (j : ℤ) + 1 by omega]
  have : ((j : ℤ) + 1) * (2 ^ b.fb : ℕ) + ((k + up.toNat : ℕ) : ℤ) - (2 ^ b.fb : ℕ) =
      (j * 2 ^ b.fb + (k + up.toNat) : ℕ) := by
    push_cast
    ring
  rw [this, Int.toNat_natCast]

/-- A nonzero magnitude is rounded on the grid of the codes. -/
theorem Binary.roundCode_onGrid (b : Binary) (hfb : 1 ≤ b.fb) (r : Rounding) (neg : Bool) {m : Nat} (hm : m ≠ 0) (e : Int) :
    OnGrid b.grid r neg (mag m e) (b.roundCode r neg m e) := by
  obtain ⟨j, k, up, hexp, hk, hstep, hlo, hhi, hup, -, hcode⟩ := b.roundCode_step r neg hm e
  have hgrid := b.grid_step hk.le hstep
  have hnext := b.grid_step (j := j) (k := k + 1) hk (hstep.imp_right (by omega))
  have hparity : (j * 2 ^ b.fb + k) % 2 = k % 2 := by
    obtain ⟨n, hn⟩ := Nat.exists_eq_add_of_le hfb
    rw [hn, Nat.add_comm 1 n, pow_succ, ← Nat.mul_assoc]
    omega
  rw [hexp] at hlo hhi hup
  rw [hcode, ← Nat.add_assoc]
  refine ⟨j * 2 ^ b.fb + k, up, ?_, ?_, ?_, rfl⟩
  · rw [hgrid]
    exact hlo
  · rw [Nat.add_assoc, hnext]
    exact hhi
  · rw [hup, Nat.add_assoc, hgrid, hnext, hparity]

/-- The magnitude of that code, an overflow or not. -/
theorem Binary.grid_roundCode (b : Binary) (r : Rounding) (neg : Bool) {m : Nat} (hm : m ≠ 0) (e : Int) :
    b.grid (b.roundCode r neg m e) = mag (roundUnits r neg m e (b.unitExp m e)) (b.unitExp m e) := by
  obtain ⟨j, k, up, hexp, hk, hstep, -, -, -, hround, hcode⟩ := b.roundCode_step r neg hm e
  have hone : up.toNat ≤ 1 := Bool.toNat_le up
  rw [hcode, b.grid_step (by omega) (hstep.imp_right (by omega)), hround, ← hexp]

end Sys2Proof.Machine
end

section
/-! SUPPORT. The values of the codes of a binary format (02 R42, R47, Table 02-2). -/

namespace Sys2Proof.Machine

open Sys2Proof Sys2Proof.Claims

/-! ## The fields of a code -/

theorem Binary.sign_field (b : Binary) (n : Bool) {c : ℕ} (h : c < 2 ^ (b.eb + b.fb)) :
    bitN (b.signBit n + c) (b.eb + b.fb) = n := by
  unfold bitN signBit
  cases n with
  | false => simp [Nat.div_eq_of_lt h]
  | true => simp [Nat.add_div_left, Nat.div_eq_of_lt h]

theorem Binary.exponent_field (b : Binary) (n : Bool) {c : ℕ} (h : c < 2 ^ (b.eb + b.fb)) :
    bitsN (b.signBit n + c) b.fb b.eb = c / 2 ^ b.fb := by
  have hc : c / 2 ^ b.fb < 2 ^ b.eb := Nat.div_lt_of_lt_mul (by rw [← pow_add, Nat.add_comm]; exact h)
  have hs : b.signBit n = (if n then 1 else 0) * 2 ^ b.eb * 2 ^ b.fb := by
    cases n <;> simp [signBit, pow_add]
  rw [bitsN, hs, Nat.add_comm, Nat.add_mul_div_right _ _ (Nat.two_pow_pos _), Nat.add_mul_mod_self_right, Nat.mod_eq_of_lt hc]

theorem Binary.fraction_field (b : Binary) (n : Bool) (c : ℕ) : bitsN (b.signBit n + c) 0 b.fb = c % 2 ^ b.fb := by
  have hs : b.signBit n = (if n then 1 else 0) * 2 ^ b.eb * 2 ^ b.fb := by
    cases n <;> simp [signBit, pow_add]
  rw [bitsN, pow_zero, Nat.div_one, hs, Nat.add_comm, Nat.add_mul_mod_self_right]

/-- Every code is a sign and a magnitude code. -/
theorem Binary.exists_sign (b : Binary) {k : ℕ} (h : k < 2 ^ b.width) :
    ∃ n c, c < 2 ^ (b.eb + b.fb) ∧ k = b.signBit n + c := by
  have hw : 2 ^ b.width = 2 * 2 ^ (b.eb + b.fb) := by rw [width, Nat.add_assoc, pow_add, pow_one]
  by_cases hk : k < 2 ^ (b.eb + b.fb)
  · exact ⟨false, k, hk, by simp [signBit]⟩
  · exact ⟨true, k - 2 ^ (b.eb + b.fb), by omega, by simp only [signBit, if_true]; omega⟩

theorem Binary.sign_add_lt (b : Binary) (n : Bool) {c : ℕ} (h : c < 2 ^ (b.eb + b.fb)) : b.signBit n + c < 2 ^ b.width := by
  have hw : 2 ^ b.width = 2 * 2 ^ (b.eb + b.fb) := by rw [width, Nat.add_assoc, pow_add, pow_one]
  cases n <;> simp only [signBit, if_true] <;> simp <;> omega

/-! ## Values -/

/-- What a binary format's codes are: below the overflow a number each, in the order of the grid; none from there on. -/
structure Binary.Codes (b : Binary) : Prop where
  fraction : 1 ≤ b.fb
  normal : 2 ^ b.fb < b.overCode
  inside : b.overCode ≤ 2 ^ (b.eb + b.fb)
  finite : ∀ n c, c < b.overCode → ∃ m e, (FloatFmt.bin b).value (b.signBit n + c) = .num n m e ∧ mag m e = b.grid c
  others : ∀ n c, b.overCode ≤ c → c < 2 ^ (b.eb + b.fb) → isFinite ((FloatFmt.bin b).value (b.signBit n + c)) = false
  greatest : greatest b = b.grid (b.overCode - 1)

/-- The formats with IEEE's exponent codes (02 R42, R47). -/
structure Binary.Ieee (b : Binary) : Prop where
  fraction : 1 ≤ b.fb
  exponent : 2 ≤ b.eb
  overflows : b.overCode = (2 ^ b.eb - 1) * 2 ^ b.fb
  inf : b.infCode = b.overCode
  bias : (2 ^ b.eb : ℤ) = 2 * b.bias + 2
  other : b ≠ fmtE4M3

theorem Binary.ieee_f32 : fmtF32.Ieee := ⟨by decide, by decide, rfl, rfl, rfl, by decide⟩
theorem Binary.ieee_f16 : fmtF16.Ieee := ⟨by decide, by decide, rfl, rfl, rfl, by decide⟩
theorem Binary.ieee_bf16 : fmtBF16.Ieee := ⟨by decide, by decide, rfl, rfl, rfl, by decide⟩
theorem Binary.ieee_e5m2 : fmtE5M2.Ieee := ⟨by decide, by decide, rfl, rfl, rfl, by decide⟩

section Ieee

variable {b : Binary} (h : b.Ieee)

include h

/-- The value of a code of such a format, by its fields. -/
theorem Binary.Ieee.value_eq (n : Bool) {c : ℕ} (hc : c < 2 ^ (b.eb + b.fb)) :
    ((FloatFmt.bin b).value (b.signBit n + c) =
      if c / 2 ^ b.fb = 2 ^ b.eb - 1 then
        if c % 2 ^ b.fb = 0 then .inf n else .nan (!bitN (b.signBit n + c) (b.fb - 1) && !decide (b = fmtE5M2))
      else if c / 2 ^ b.fb = 0 then .num n (c % 2 ^ b.fb) (1 - b.bias - b.fb)
      else .num n (2 ^ b.fb + c % 2 ^ b.fb) ((c / 2 ^ b.fb : ℕ) - b.bias - b.fb)) := by
  simp only [FloatFmt.value, if_neg h.other, Binary.value, b.sign_field n hc, b.exponent_field n hc, b.fraction_field n c]
  split_ifs <;> rfl

theorem Binary.Ieee.exponent_lt {c : ℕ} : c < b.overCode ↔ c / 2 ^ b.fb < 2 ^ b.eb - 1 := by
  rw [h.overflows, Nat.div_lt_iff_lt_mul (Nat.two_pow_pos _)]

theorem Binary.Ieee.two_lt : 2 ≤ 2 ^ b.eb - 1 := by
  have : 2 ^ 2 ≤ 2 ^ b.eb := Nat.pow_le_pow_right (by decide) h.exponent
  omega

theorem Binary.Ieee.inside : b.overCode + 2 ^ b.fb = 2 ^ (b.eb + b.fb) := by
  have := Nat.one_le_two_pow (n := b.eb)
  rw [h.overflows, pow_add, Nat.sub_mul, Nat.one_mul, Nat.sub_add_cancel]
  exact Nat.le_mul_of_pos_left _ this

theorem Binary.Ieee.inside_lt : b.overCode < 2 ^ (b.eb + b.fb) := by
  have := h.inside
  have := Nat.two_pow_pos b.fb
  omega

theorem Binary.Ieee.value_inf (n : Bool) : (FloatFmt.bin b).value (b.signBit n + b.infCode) = .inf n := by
  rw [h.inf, h.value_eq n h.inside_lt, h.overflows, Nat.mul_div_cancel _ (Nat.two_pow_pos _), if_pos rfl, Nat.mul_mod_left, if_pos rfl]

/-- The greatest finite magnitude, and the one that would follow it. -/
theorem Binary.Ieee.grid_over : b.grid b.overCode = 2 ^ (b.fb + 1) * 2 ^ (b.bias - b.fb) ∧
    b.grid (b.overCode - 1) = (2 ^ (b.fb + 1) - 1) * 2 ^ (b.bias - b.fb) := by
  have hpow : 2 ^ (b.fb + 1) = 2 * 2 ^ b.fb := by rw [pow_succ, mul_comm]
  have hpos := Nat.two_pow_pos b.fb
  obtain ⟨j, hj⟩ := Nat.exists_eq_add_of_le h.two_lt
  have hover : b.overCode = j * 2 ^ b.fb + 2 ^ (b.fb + 1) := by rw [h.overflows, hj, hpow]; ring
  have hexp : ((j : ℤ) + 1 - b.bias - b.fb) = b.bias - b.fb := by
    have hb := h.bias
    have : ((2 ^ b.eb : ℕ) : ℤ) = 3 + j := by
      have := Nat.one_le_two_pow (n := b.eb)
      omega
    push_cast at this
    omega
  constructor
  · rw [hover, b.grid_step le_rfl (.inr (by omega)), hexp, mag]
    push_cast
    rfl
  · rw [hover, Nat.add_sub_assoc (by omega), b.grid_step (by omega) (.inr (by omega)), hexp, mag, Nat.cast_sub (by omega)]
    push_cast
    rfl

theorem Binary.Ieee.codes : b.Codes where
  fraction := h.fraction
  normal := by
    have h2 := h.two_lt
    have hpos := Nat.two_pow_pos b.fb
    rw [h.overflows]
    nlinarith
  inside := h.inside_lt.le
  finite := by
    intro n c hc
    have hexp := h.exponent_lt.mp hc
    rw [h.value_eq n (hc.trans h.inside_lt), if_neg hexp.ne]
    by_cases hsub : c / 2 ^ b.fb = 0
    · have hlt : c < 2 ^ b.fb := (Nat.div_eq_zero_iff_lt (Nat.two_pow_pos _)).mp hsub
      rw [if_pos hsub, Nat.mod_eq_of_lt hlt]
      exact ⟨_, _, rfl, by rw [grid, if_pos hlt]⟩
    · have hge : ¬ c < 2 ^ b.fb := fun hlt => hsub (Nat.div_eq_of_lt hlt)
      rw [if_neg hsub]
      exact ⟨_, _, rfl, by rw [grid, if_neg hge]⟩
  others := by
    intro n c hover hc
    have hlast : c / 2 ^ b.fb = 2 ^ b.eb - 1 := by
      have hlt : c / 2 ^ b.fb < 2 ^ b.eb := Nat.div_lt_of_lt_mul (by rw [← pow_add, Nat.add_comm]; exact hc)
      have hnot : ¬ c / 2 ^ b.fb < 2 ^ b.eb - 1 := fun hlt => absurd (h.exponent_lt.mpr hlt) (by omega)
      omega
    rw [h.value_eq n hc, if_pos hlast]
    split_ifs
    · rfl
    · rfl
  greatest := by
    rw [Claims.greatest, if_neg h.other, h.grid_over.2]

end Ieee

/-- The value of an e4m3 code, by its fields. -/
theorem Binary.value_e4m3 (n : Bool) {c : ℕ} (hc : c < 128) :
    (FloatFmt.bin fmtE4M3).value (fmtE4M3.signBit n + c) =
      if c = 0x7F then .nan false else if c / 8 = 0 then .num n (c % 8) (-9) else .num n (8 + c % 8) ((c / 8 : ℕ) - 10) := by
  have hc' : c < 2 ^ (fmtE4M3.eb + fmtE4M3.fb) := hc
  have hsign : bitN (fmtE4M3.signBit n + c) 7 = n := fmtE4M3.sign_field n hc'
  have hexp : bitsN (fmtE4M3.signBit n + c) 3 4 = c / 8 := fmtE4M3.exponent_field n hc'
  have hfrac : bitsN (fmtE4M3.signBit n + c) 0 3 = c % 8 := fmtE4M3.fraction_field n c
  have hall : bitsN (fmtE4M3.signBit n + c) 0 7 = c := by
    have hs : fmtE4M3.signBit n = 128 ∨ fmtE4M3.signBit n = 0 := by cases n <;> simp [signBit, fmtE4M3]
    simp only [bitsN]
    omega
  simp only [FloatFmt.value, if_pos, hsign, hexp, hfrac, hall]

/-- e4m3's codes (02 R47): all but the last magnitude are numbers. -/
theorem Binary.codes_e4m3 : fmtE4M3.Codes where
  fraction := by decide
  normal := by decide
  inside := by decide
  finite := by
    intro n c hc
    have hc : c < 127 := hc
    rw [value_e4m3 n (by omega), if_neg (by omega)]
    by_cases hsub : c / 8 = 0
    · have hlt : c < 2 ^ fmtE4M3.fb := show c < 8 by omega
      have hmod : c % 8 = c := Nat.mod_eq_of_lt hlt
      rw [if_pos hsub, hmod]
      exact ⟨_, _, rfl, by rw [grid, if_pos hlt]; rfl⟩
    · have hge : ¬ c < 2 ^ fmtE4M3.fb := show ¬ c < 8 by omega
      rw [if_neg hsub]
      refine ⟨_, _, rfl, ?_⟩
      rw [grid, if_neg hge]
      congr 1
      change ((c / 8 : ℕ) : ℤ) - 10 = (c / 8 : ℕ) - 7 - 3
      omega
  others := by
    intro n c hover hc
    have hover : 127 ≤ c := hover
    have hc : c < 128 := hc
    rw [value_e4m3 n hc, if_pos (by omega)]
    rfl
  greatest := by
    have hstep : fmtE4M3.grid 126 = mag 14 (14 + 1 - 7 - 3) := fmtE4M3.grid_step (j := 14) (k := 14) (by decide) (by decide)
    rw [Claims.greatest, if_pos rfl]
    change 448 = fmtE4M3.grid 126
    rw [hstep]
    norm_num [mag]

end Sys2Proof.Machine
end

section
/-! SUPPORT. The rounding of a number to a binary format (02 R42): its value, its sign and its flags. -/

namespace Sys2Proof.Machine

open Sys2Proof Sys2Proof.Claims

/-! ## Signed values -/

section Codes

variable {b : Binary} (h : b.Codes)

include h

theorem Binary.Codes.isFinite_code (n : Bool) {c : ℕ} (hc : c < b.overCode) :
    isFinite ((FloatFmt.bin b).value (b.signBit n + c)) = true := by
  obtain ⟨m, e, hv, -⟩ := h.finite n c hc
  rw [hv]
  rfl

theorem Binary.Codes.ratio_code (n : Bool) {c : ℕ} (hc : c < b.overCode) :
    ratio ((FloatFmt.bin b).value (b.signBit n + c)) = sgn n * b.grid c := by
  obtain ⟨m, e, hv, hm⟩ := h.finite n c hc
  rw [hv, ratio_num, hm]

theorem Binary.Codes.neg_code (n : Bool) {c : ℕ} (hc : c < b.overCode) :
    ((FloatFmt.bin b).value (b.signBit n + c)).neg = n := by
  obtain ⟨m, e, hv, -⟩ := h.finite n c hc
  rw [hv]
  rfl

/-- What holds of every finite code holds of every sign and magnitude code. -/
theorem Binary.Codes.each {P : ℚ → Prop} (hP : ∀ n c, c < b.overCode → P (sgn n * b.grid c)) :
    ∀ k, k < 2 ^ (FloatFmt.bin b).width → isFinite ((FloatFmt.bin b).value k) = true → P (ratio ((FloatFmt.bin b).value k)) := by
  intro k hk hfin
  obtain ⟨n, c, hc, rfl⟩ := b.exists_sign hk
  by_cases hover : c < b.overCode
  · rw [h.ratio_code n hover]
    exact hP n c hover
  · rw [h.others n c (by omega) hc] at hfin
    cases hfin

theorem Binary.Codes.code_lt (n : Bool) {c : ℕ} (hc : c < b.overCode) : b.signBit n + c < 2 ^ (FloatFmt.bin b).width :=
  b.sign_add_lt n (hc.trans_le h.inside)

theorem Binary.Codes.parity (n : Bool) (c : ℕ) : (b.signBit n + c) % 2 = c % 2 := by
  obtain ⟨f, hf⟩ := Nat.exists_eq_add_of_le h.fraction
  have : 2 ^ (b.eb + b.fb) = 2 * 2 ^ (b.eb + f) := by rw [hf]; ring
  cases n
  · simp [signBit]
  · simp only [signBit, if_true]
    omega

end Codes

/-- The sign of a product with a sign. -/
theorem abs_sgn_sub (n : Bool) (a x : ℚ) : |sgn n * a - sgn n * x| = |a - x| := by
  rw [← mul_sub, abs_mul, abs_sgn, one_mul]

/-- To nearest, with signs: the grid's nearest value is nearest among its values of both signs. -/
theorem OnGrid.nearest_signed {g : ℕ → ℚ} (hg : StrictMono g) (h0 : g 0 = 0) {n : Bool} {x : ℚ} (hx : 0 < x) {c : ℕ}
    (h : OnGrid g .rne n x c) (n' : Bool) (j : ℕ) :
    |sgn n * g c - sgn n * x| ≤ |sgn n' * g j - sgn n * x| ∧
      (|sgn n * g c - sgn n * x| = |sgn n' * g j - sgn n * x| → sgn n' * g j ≠ sgn n * g c → c % 2 = 0) := by
  have hj : 0 ≤ g j := h0 ▸ hg.monotone (Nat.zero_le j)
  rw [abs_sgn_sub]
  have hsame : |g c - x| ≤ |sgn n * g j - sgn n * x| ∧
      (|g c - x| = |sgn n * g j - sgn n * x| → sgn n * g j ≠ sgn n * g c → c % 2 = 0) := by
    obtain ⟨hle, htie⟩ := h.nearest hg j
    rw [abs_sgn_sub]
    exact ⟨hle, fun heq hne => htie heq (fun hgc => hne (by rw [hgc]))⟩
  by_cases hn : n' = n
  · rw [hn]
    exact hsame
  · have hfar : |sgn n' * g j - sgn n * x| = g j + x := by
      have hsgn : sgn n' = -sgn n := by cases n <;> cases n' <;> simp_all [sgn]
      rw [hsgn, show -sgn n * g j - sgn n * x = -(sgn n * (g j + x)) by ring, abs_neg, abs_sgn_mul n (by linarith)]
    have hzero := (h.nearest hg 0).1
    rw [h0, zero_sub, abs_neg, abs_of_pos hx] at hzero
    rcases hj.lt_or_eq with hpos | hgj
    · exact ⟨by linarith, fun heq => by linarith⟩
    · rw [← hgj, mul_zero, ← mul_zero (sgn n), hgj]
      exact hsame

/-! ## Overflow -/

/-- Whether an overflow in a mode, of a number of a sign, is away from zero. -/
def Rounding.away (r : Rounding) (n : Bool) : Bool :=
  match r with
  | .rne => true
  | .rz => false
  | .ru => !n
  | .rd => n

theorem Binary.overflow_eq (b : Binary) (r : Rounding) (n : Bool) :
    b.overflow r n = (b.signBit n + (if r.away n then b.infCode else b.overCode - 1), 4 + 16) := by
  cases r <;> rfl

theorem RoundsUp.not_of_not_away {r : Rounding} {n : Bool} (h : r.away n = false) (a b x : ℚ) (odd : Prop) :
    ¬ RoundsUp r n a b x odd := by
  cases r with
  | rne => cases h
  | rz => exact id
  | ru => exact fun hup => by simp [Rounding.away, hup.1] at h
  | rd => exact fun hup => by simp [Rounding.away, hup.1] at h

theorem RoundsUp.iff_of_away {r : Rounding} {n : Bool} (hr : r ≠ .rne) (h : r.away n = true) (a b x : ℚ) (odd : Prop) :
    RoundsUp r n a b x odd ↔ x ≠ a := by
  cases r with
  | rne => exact absurd rfl hr
  | rz => cases h
  | ru => exact and_iff_right (by simpa [Rounding.away] using h)
  | rd => exact and_iff_right h

/-- The result code of a rounding. -/
theorem Binary.round_fst (b : Binary) (r : Rounding) (n : Bool) (m : Nat) (e : Int) :
    (b.round r n m e).1 = b.signBit n +
      if b.overCode ≤ b.roundCode r n m e then (if r.away n then b.infCode else b.overCode - 1) else b.roundCode r n m e := by
  rw [b.round_eq]
  by_cases hover : b.overCode ≤ b.roundCode r n m e
  · rw [if_pos hover, if_pos hover, b.overflow_eq]
  · rw [if_neg hover, if_neg hover]

section Round

variable {b : Binary} {r : Rounding} {n : Bool} {x : ℚ} {c : ℕ} (hc : OnGrid b.grid r n x c)

include hc

/-- Toward zero, an overflow included: the greatest finite magnitude at or below. -/
theorem OnGrid.toward (haway : r.away n = false) :
    b.grid (if b.overCode ≤ c then b.overCode - 1 else c) ≤ x ∧
      ∀ j, j < b.overCode → b.grid j ≤ x → b.grid j ≤ b.grid (if b.overCode ≤ c then b.overCode - 1 else c) := by
  obtain ⟨hle, hmost⟩ := hc.down b.grid_strictMono (RoundsUp.not_of_not_away haway · · x ·)
  have hmono := b.grid_strictMono.monotone
  split_ifs with hover
  · exact ⟨(hmono (by omega)).trans hle, fun j hj _ => hmono (by omega)⟩
  · exact ⟨hle, fun j _ hj => hmost j hj⟩

/-- An overflow lies beyond every finite value. -/
theorem OnGrid.lt_of_over (hover : b.overCode ≤ c) (j : ℕ) (hj : j < b.overCode) : b.grid j < x := by
  by_contra hle
  have := hc.le_of_le b.grid_strictMono (not_lt.mp hle)
  omega

end Round

section Ieee

variable {b : Binary} (h : b.Ieee)

include h

/-- To nearest a number overflows from half a unit above the greatest finite value on. -/
theorem Binary.Ieee.over_iff {n : Bool} {x : ℚ} {c : ℕ} (hc : OnGrid b.grid .rne n x c) :
    b.overCode ≤ c ↔ overflowFrom b ≤ x := by
  have hcodes := h.codes
  have hnormal := hcodes.normal
  have hpos := Nat.two_pow_pos b.fb
  obtain ⟨hover, hlast⟩ := h.grid_over
  have hmid : 2 * overflowFrom b = b.grid (b.overCode - 1) + b.grid b.overCode := by
    have hexp : (2 : ℚ) ^ (b.bias - b.fb) = 2 * 2 ^ (b.bias - b.fb - 1) := by
      rw [show b.bias - b.fb = 1 + (b.bias - b.fb - 1) by ring, zpow_add₀ two_ne_zero, zpow_one]
      ring_nf
    rw [hover, hlast, overflowFrom, hexp]
    ring
  have hodd : (b.overCode - 1) % 2 = 1 := by
    obtain ⟨f, hf⟩ := Nat.exists_eq_add_of_le h.fraction
    have : b.overCode = 2 * ((2 ^ b.eb - 1) * 2 ^ f) := by rw [h.overflows, hf]; ring
    omega
  have hlt : b.grid (b.overCode - 1) < b.grid b.overCode := b.grid_strictMono (by omega)
  constructor
  · intro hle
    by_contra hx
    have hle' := hc.le_of_ge b.grid_strictMono (j := 0)
    obtain ⟨lo, up, hlo, hhi, hup, rfl⟩ := hc
    have hlow : lo < b.overCode := b.grid_strictMono.lt_iff_lt.mp (by linarith)
    have hone : up.toNat ≤ 1 := Bool.toNat_le up
    have heq : lo = b.overCode - 1 := by omega
    have hupt : up = true := by
      cases up with
      | false => simp at hle; omega
      | true => rfl
    rw [heq, Nat.sub_add_cancel (by omega)] at hup
    rcases hup.mp hupt with hnear | ⟨htie, -⟩
    · linarith
    · linarith
  · intro hx
    by_cases hge : b.grid b.overCode ≤ x
    · exact hc.le_of_ge b.grid_strictMono hge
    · obtain ⟨lo, up, hlo, hhi, hup, rfl⟩ := hc
      have heq : lo = b.overCode - 1 := by
        have h1 : lo < b.overCode := b.grid_strictMono.lt_iff_lt.mp (by linarith)
        have h2 : b.overCode - 1 < lo + 1 := b.grid_strictMono.lt_iff_lt.mp (by linarith)
        omega
      subst heq
      rw [Nat.sub_add_cancel (by omega)] at hup
      have hupt : up = true := by
        rw [hup]
        rcases hx.lt_or_eq with hx | hx
        · exact .inl (by linarith)
        · exact .inr ⟨by linarith, hodd⟩
      rw [hupt, Bool.toNat_true]
      omega

theorem Binary.Ieee.code_lt_inf (n : Bool) : b.signBit n + b.infCode < 2 ^ (FloatFmt.bin b).width :=
  b.sign_add_lt n (h.inf ▸ h.inside_lt)

end Ieee

theorem sgn_mul_neg_iff {n : Bool} {x : ℚ} (hx : 0 < x) : sgn n * x < 0 ↔ n = true := by
  cases n <;> simp [sgn, hx, hx.le]

section RoundsTo

variable {b : Binary} (h : b.Ieee) {n : Bool} {x : ℚ} (hx : 0 < x) {c : ℕ}

include h hx

theorem Binary.Ieee.roundsTo_rne (hc : OnGrid b.grid .rne n x c) :
    RoundsTo (.bin b) .rne (sgn n * x) (b.signBit n + if b.overCode ≤ c then b.infCode else c) := by
  have hiff := h.over_iff hc
  by_cases hover : b.overCode ≤ c
  · rw [if_pos hover]
    refine ⟨h.code_lt_inf n, ?_⟩
    dsimp only
    rw [if_neg (by rw [abs_sgn_mul n hx.le]; exact not_lt.mpr (hiff.mp hover)), h.value_inf n]
    congr 1
    simp [sgn_mul_neg_iff hx]
  · rw [if_neg hover]
    have hlt : c < b.overCode := not_le.mp hover
    refine ⟨h.codes.code_lt n hlt, ?_⟩
    dsimp only
    rw [if_pos (by rw [abs_sgn_mul n hx.le]; exact not_le.mp (fun hle => hover (hiff.mpr hle)))]
    refine ⟨h.codes.isFinite_code n hlt, ?_⟩
    rw [h.codes.ratio_code n hlt, h.codes.parity n c]
    exact h.codes.each (P := fun z => |sgn n * b.grid c - sgn n * x| ≤ |z - sgn n * x| ∧
      (|sgn n * b.grid c - sgn n * x| = |z - sgn n * x| → z ≠ sgn n * b.grid c → c % 2 = 0))
      (fun n' j _ => hc.nearest_signed b.grid_strictMono b.grid_zero hx n' j)

/-- Toward zero, in each of the three modes. -/
theorem Binary.Ieee.roundsTo_toward {r : Rounding} (hc : OnGrid b.grid r n x c) (haway : r.away n = false) :
    RoundsTo (.bin b) r (sgn n * x) (b.signBit n + if b.overCode ≤ c then b.overCode - 1 else c) := by
  obtain ⟨hle, hmost⟩ := hc.toward haway
  have hlt : (if b.overCode ≤ c then b.overCode - 1 else c) < b.overCode := by
    have hnormal := h.codes.normal
    have hpos := Nat.two_pow_pos b.fb
    split_ifs
    · omega
    · omega
  generalize (if b.overCode ≤ c then b.overCode - 1 else c) = d at hle hmost hlt ⊢
  have hd := b.grid_nonneg d
  have hfin := h.codes.isFinite_code n hlt
  have hy := h.codes.ratio_code n hlt
  refine ⟨h.codes.code_lt n hlt, ?_⟩
  cases r with
  | rne => cases haway
  | rz =>
    dsimp only
    rw [hy, abs_sgn_mul n hd, abs_sgn_mul n hx.le]
    refine ⟨hfin, ?_, hle, h.codes.each (P := fun z => |z| ≤ x → |z| ≤ b.grid d) (fun n' j hj hz => ?_)⟩
    · rw [show sgn n * x * (sgn n * b.grid d) = sgn n * sgn n * (x * b.grid d) by ring, sgn_mul_self, one_mul]
      positivity
    · rw [abs_sgn_mul n' (b.grid_nonneg j)] at hz ⊢
      exact hmost j hj hz
  | ru =>
    obtain rfl : n = true := by simpa [Rounding.away] using haway
    dsimp only
    rw [if_pos hfin, hy]
    refine ⟨by simpa [sgn] using hle, h.codes.each (P := fun z => sgn true * x ≤ z → sgn true * b.grid d ≤ z)
      (fun n' j hj hz => ?_)⟩
    have hj0 := b.grid_nonneg j
    cases n' with
    | false =>
      simp only [sgn, if_true, Bool.false_eq_true, if_false]
      linarith
    | true =>
      have := hmost j hj (by simpa [sgn] using hz)
      simpa [sgn] using this
  | rd =>
    obtain rfl : n = false := by simpa [Rounding.away] using haway
    dsimp only
    rw [if_pos hfin, hy]
    refine ⟨by simpa [sgn] using hle, h.codes.each (P := fun z => z ≤ sgn false * x → z ≤ sgn false * b.grid d)
      (fun n' j hj hz => ?_)⟩
    have hj0 := b.grid_nonneg j
    cases n' with
    | false =>
      have := hmost j hj (by simpa [sgn] using hz)
      simpa [sgn] using this
    | true =>
      simp only [sgn, if_true, Bool.false_eq_true, if_false]
      linarith

/-- Away from zero, in the two directed modes. -/
theorem Binary.Ieee.roundsTo_away {r : Rounding} (hr : r ≠ .rne) (hc : OnGrid b.grid r n x c) (haway : r.away n = true) :
    RoundsTo (.bin b) r (sgn n * x) (b.signBit n + if b.overCode ≤ c then b.infCode else c) := by
  obtain ⟨hle, hleast⟩ := hc.up b.grid_strictMono (RoundsUp.iff_of_away hr haway · · x ·)
  by_cases hover : b.overCode ≤ c
  · have hbeyond := hc.lt_of_over hover
    rw [if_pos hover]
    refine ⟨h.code_lt_inf n, ?_⟩
    have hnot : isFinite ((FloatFmt.bin b).value (b.signBit n + b.infCode)) = false := by
      rw [h.value_inf n]
      rfl
    cases r with
    | rne => exact absurd rfl hr
    | rz => cases haway
    | ru =>
      obtain rfl : n = false := by simpa [Rounding.away] using haway
      dsimp only
      rw [hnot, if_neg Bool.false_ne_true]
      refine ⟨h.value_inf false, h.codes.each (P := fun z => z < sgn false * x) (fun n' j hj => ?_)⟩
      have := hbeyond j hj
      have hj0 := b.grid_nonneg j
      cases n' <;> simp only [sgn, if_true, Bool.false_eq_true, if_false] <;> linarith
    | rd =>
      obtain rfl : n = true := haway
      dsimp only
      rw [hnot, if_neg Bool.false_ne_true]
      refine ⟨h.value_inf true, h.codes.each (P := fun z => sgn true * x < z) (fun n' j hj => ?_)⟩
      have := hbeyond j hj
      have hj0 := b.grid_nonneg j
      cases n' <;> simp only [sgn, if_true, Bool.false_eq_true, if_false] <;> linarith
  · rw [if_neg hover]
    have hlt : c < b.overCode := not_le.mp hover
    have hfin := h.codes.isFinite_code n hlt
    have hy := h.codes.ratio_code n hlt
    refine ⟨h.codes.code_lt n hlt, ?_⟩
    cases r with
    | rne => exact absurd rfl hr
    | rz => cases haway
    | ru =>
      obtain rfl : n = false := by simpa [Rounding.away] using haway
      dsimp only
      rw [if_pos hfin, hy]
      refine ⟨by simpa [sgn] using hle, h.codes.each (P := fun z => sgn false * x ≤ z → sgn false * b.grid c ≤ z)
        (fun n' j hj hz => ?_)⟩
      have hj0 := b.grid_nonneg j
      cases n' with
      | false =>
        have := hleast j (by simpa [sgn] using hz)
        simpa [sgn] using this
      | true =>
        simp only [sgn, if_true, Bool.false_eq_true, if_false] at hz
        linarith
    | rd =>
      obtain rfl : n = true := haway
      dsimp only
      rw [if_pos hfin, hy]
      refine ⟨by simpa [sgn] using hle, h.codes.each (P := fun z => z ≤ sgn true * x → z ≤ sgn true * b.grid c)
        (fun n' j hj hz => ?_)⟩
      have hj0 := b.grid_nonneg j
      cases n' with
      | false =>
        simp only [sgn, if_true, Bool.false_eq_true, if_false] at hz
        linarith
      | true =>
        have := hleast j (by simpa [sgn] using hz)
        simpa [sgn] using this

end RoundsTo

/-- A nonzero number is rounded to a code of its sign (02 R42). -/
theorem Binary.Ieee.roundsTo {b : Binary} (h : b.Ieee) (r : Rounding) (n : Bool) {m : Nat} (hm : m ≠ 0) (e : Int) :
    RoundsTo (.bin b) r (sgn n * mag m e) (b.round r n m e).1 := by
  have hon := b.roundCode_onGrid h.fraction r n hm e
  rw [b.round_fst]
  by_cases haway : r.away n = true
  · rw [if_pos haway]
    by_cases hr : r = .rne
    · subst hr
      exact h.roundsTo_rne (mag_pos hm e) hon
    · exact h.roundsTo_away (mag_pos hm e) hr hon haway
  · rw [if_neg haway]
    exact h.roundsTo_toward (mag_pos hm e) hon (by simpa using haway)

end Sys2Proof.Machine
end

section
/-! SUPPORT. The flags of a rounding to a binary format (02 R42, Table 02-3), and rounding to integers (02 Table 02-11). -/

namespace Sys2Proof.Machine

open Sys2Proof Sys2Proof.Claims

/-! ## Rounding to an integer -/

theorem sgn_mul_natCast (n : Bool) (k : ℕ) : sgn n * k = ((signed n k : ℤ) : ℚ) := by
  cases n <;> simp [sgn, signed]

section RoundQ

variable {k : ℕ} {y : ℚ} (hlo : (k : ℚ) ≤ y) (hhi : y < k + 1)

include hlo hhi

theorem floor_of_between : ⌊y⌋ = (k : ℤ) := by
  rw [Int.floor_eq_iff]
  push_cast
  exact ⟨hlo, hhi⟩

theorem ceil_of_between (hne : y ≠ k) : ⌈y⌉ = (k : ℤ) + 1 := by
  rw [Int.ceil_eq_iff]
  push_cast
  exact ⟨by linarith [hlo.lt_of_ne' hne], hhi.le⟩

/-- A positive number to nearest. -/
theorem roundQ_rne_pos {up : Bool} (hup : up = true ↔ RoundsUp .rne false k (k + 1) y (k % 2 = 1)) :
    roundQ .rne y = k + up.toNat := by
  have heven : (k : ℤ) % 2 = 0 ↔ ¬ k % 2 = 1 := by omega
  simp only [roundQ, floor_of_between hlo hhi, Int.cast_natCast, heven]
  simp only [RoundsUp] at hup
  cases up with
  | false =>
    simp only [Bool.false_eq_true, false_iff, not_or, not_and, not_lt] at hup
    rw [if_pos]
    · simp
    · rcases hup.1.lt_or_eq with h | h
      · exact .inl (by linarith)
      · exact .inr ⟨by linarith, hup.2 h⟩
  | true =>
    simp only [true_iff] at hup
    rw [if_neg]
    · simp
    · rintro (h | ⟨h, heven⟩)
      · rcases hup with h' | ⟨h', -⟩ <;> linarith
      · rcases hup with h' | ⟨-, hodd⟩
        · linarith
        · exact heven hodd

/-- A negative number to nearest. -/
theorem roundQ_rne_neg {up : Bool} (hup : up = true ↔ RoundsUp .rne true k (k + 1) y (k % 2 = 1)) :
    roundQ .rne (-y) = -(k + up.toNat : ℤ) := by
  by_cases hk : y = k
  · have hno : up = false := by
      rw [hk] at hup
      simpa using fun h => RoundsUp.not_of_eq (by linarith) (hup.mp h)
    have hfloor : ⌊-y⌋ = -(k : ℤ) := by rw [hk, Int.floor_neg, Int.ceil_natCast]
    simp only [roundQ, hfloor, hno]
    rw [if_pos (.inl (by rw [hk]; push_cast; linarith))]
    simp
  · have hfloor : ⌊-y⌋ = -(k : ℤ) - 1 := by rw [Int.floor_neg, ceil_of_between hlo hhi hk]; ring
    have heven : (-(k : ℤ) - 1) % 2 = 0 ↔ k % 2 = 1 := by omega
    simp only [roundQ, hfloor, heven]
    simp only [RoundsUp] at hup
    push_cast
    cases up with
    | false =>
      simp only [Bool.false_eq_true, false_iff, not_or, not_and, not_lt] at hup
      rw [if_neg]
      · simp
      · rintro (h | ⟨h, hodd⟩)
        · linarith [hup.1]
        · exact hup.2 (by linarith) hodd
    | true =>
      simp only [true_iff] at hup
      rw [if_pos]
      · simp; ring
      · rcases hup with h | ⟨h, hodd⟩
        · exact .inl (by linarith)
        · exact .inr ⟨by linarith, hodd⟩

/-- A number between two integers is rounded to one of them by the same rule as a magnitude. -/
theorem roundQ_eq {r : Rounding} {n : Bool} {up : Bool} (hup : up = true ↔ RoundsUp r n k (k + 1) y (k % 2 = 1)) :
    roundQ r (sgn n * y) = signed n (k + up.toNat) := by
  have hk0 : (0 : ℚ) ≤ k := Nat.cast_nonneg k
  have hfloor := floor_of_between hlo hhi
  have hceil : ⌈y⌉ = (k : ℤ) + (decide (y ≠ k)).toNat := by
    by_cases h : y = k
    · simp [h]
    · simp [h, ceil_of_between hlo hhi h]
  have hupd : ∀ p : Prop, (up = true ↔ p ∧ y ≠ k) → p → up = decide (y ≠ k) := by
    intro p h hp
    rw [Bool.eq_iff_iff, h, decide_eq_true_eq]
    exact and_iff_right hp
  cases r with
  | rne =>
    cases n with
    | false => simpa [sgn, signed] using roundQ_rne_pos hlo hhi hup
    | true => simpa [sgn, signed] using roundQ_rne_neg hlo hhi hup
  | rz =>
    have hno : up = false := by simpa [RoundsUp] using hup
    cases n with
    | false => simp [roundQ, sgn, signed, hfloor, hno, hk0.trans hlo]
    | true =>
      rcases (hk0.trans hlo).lt_or_eq with hy | hy
      · simp [roundQ, sgn, signed, hfloor, hno, hy, Int.ceil_neg]
      · have hk : k = 0 := by exact_mod_cast le_antisymm (hy ▸ hlo) hk0
        simp [roundQ, sgn, signed, ← hy, hno, hk]
  | ru =>
    cases n with
    | false => simp [roundQ, sgn, signed, hceil, hupd _ hup rfl]
    | true =>
      have hno : up = false := by simpa [RoundsUp] using hup
      simp [roundQ, sgn, signed, hfloor, hno, Int.ceil_neg]
  | rd =>
    cases n with
    | false =>
      have hno : up = false := by simpa [RoundsUp] using hup
      simp [roundQ, sgn, signed, hfloor, hno]
    | true => simp [roundQ, sgn, signed, Int.floor_neg, hceil, hupd _ hup rfl]

end RoundQ

/-- A number rounded to an integer is its magnitude rounded in whole units. -/
theorem roundQ_units (r : Rounding) (n : Bool) (m : Nat) (e q : Int) :
    roundQ r (sgn n * mag m e / 2 ^ q) = signed n (roundUnits r n m e q) := by
  have hq : (0 : ℚ) < 2 ^ q := by positivity
  obtain ⟨k, up, hlo, hhi, hup, hround⟩ := roundUnits_eq r n m e q
  have hone : ∀ j : ℕ, mag j q = j * 2 ^ q := fun _ => rfl
  have hx : mag m e = mag m e / 2 ^ q * 2 ^ q := (div_mul_cancel₀ _ hq.ne').symm
  rw [hround, mul_div_assoc]
  refine roundQ_eq ?_ ?_ ?_
  · rw [le_div_iff₀ hq]
    exact hlo
  · rw [div_lt_iff₀ hq]
    exact_mod_cast hhi
  · rw [hup, hone, hone, hx, RoundsUp.scale hq, div_mul_cancel₀ _ hq.ne']
    push_cast
    rfl

/-! ## The precision of a format -/

/-- The order of a number. -/
theorem log_mag {m : Nat} (hm : m ≠ 0) (e : Int) : Int.log 2 (mag m e) = (Nat.log2 m : Int) + e := by
  have hx := mag_pos hm e
  apply le_antisymm
  · have h := (Int.lt_zpow_iff_log_lt (by decide : 1 < 2) hx).mp (by exact_mod_cast mag_lt_two_zpow m e)
    omega
  · exact (Int.zpow_le_iff_le_log (by decide : 1 < 2) hx).mp (by exact_mod_cast two_zpow_log2_le hm e)

/-- The exponent that a number is rounded to precision at, with a lower limit or without. -/
def orderFrom (low : Option ℤ) (top : ℤ) : ℤ :=
  match low with
  | some l => max top l
  | none => top

/-- A number rounded to a format's precision is its magnitude rounded in units. -/
theorem atPrecision_eq (b : Binary) (r : Rounding) (low : Option ℤ) (n : Bool) {m : Nat} (hm : m ≠ 0) (e : Int) :
    atPrecision b r low (sgn n * mag m e) =
      sgn n * mag (roundUnits r n m e (orderFrom low (Nat.log2 m + e) - b.fb)) (orderFrom low (Nat.log2 m + e) - b.fb) := by
  have hlog : Int.log 2 |sgn n * mag m e| = (Nat.log2 m : Int) + e := by rw [abs_sgn_mul n (mag_nonneg m e), log_mag hm]
  have hat : ∀ x : ℚ, atPrecision b r low x =
      roundQ r (x / 2 ^ (orderFrom low (Int.log 2 |x|) - b.fb)) * 2 ^ (orderFrom low (Int.log 2 |x|) - b.fb) := by
    intro x
    cases low
    · rfl
    · rfl
  rw [hat, hlog, roundQ_units, ← sgn_mul_natCast, mul_assoc]
  rfl

theorem Binary.unitExp_eq (b : Binary) (m : Nat) (e : Int) :
    b.unitExp m e = orderFrom (some (1 - b.bias)) (Nat.log2 m + e) - b.fb := by
  simp only [unitExp, orderFrom]
  omega

/-- Rounding in units is exact for whole units. -/
theorem roundUnits_exact (r : Rounding) (n : Bool) (m : Nat) (e q : Int) :
    mag (roundUnits r n m e q) q = mag m e ↔ (decide (q - e ≤ 0) || decide (m % 2 ^ (q - e).toNat = 0)) = true := by
  simp only [Bool.or_eq_true, decide_eq_true_eq]
  by_cases h : q - e ≤ 0
  · rw [roundUnits, if_pos h]
    simp only [h, true_or, iff_true]
    rw [mag_eq_units m (show q ≤ e by omega), mag, neg_sub]
  · simp only [h, false_or]
    obtain ⟨s, hs⟩ := Int.eq_ofNat_of_zero_le (show 0 ≤ q - e by omega)
    have hpos : (0 : ℚ) < 2 ^ e := by positivity
    have hunit : ∀ k : ℕ, mag k q = (k * 2 ^ s : ℕ) * 2 ^ e := by
      intro k
      rw [mag, show q = s + e by omega, zpow_add₀ two_ne_zero, zpow_natCast]
      push_cast
      ring
    rw [roundUnits, if_neg h, hs, Int.toNat_natCast, hunit, mag, mul_left_inj' hpos.ne', Nat.cast_inj]
    constructor
    · intro heq
      rw [← heq, Nat.mul_mod_left]
    · intro hmod
      obtain ⟨up, hup, hround⟩ := roundShift_eq r n m s
      have hexact : (m : ℚ) / 2 ^ s = (m / 2 ^ s : ℕ) := by
        rw [Nat.cast_div (Nat.dvd_of_mod_eq_zero hmod) (by positivity)]
        push_cast
        rfl
      have hno : up = false := by
        rw [hexact] at hup
        simpa using fun h => RoundsUp.not_of_eq (by linarith) (hup.mp h)
      rw [hround, hno, Bool.toNat_false, Nat.add_zero, Nat.div_mul_cancel (Nat.dvd_of_mod_eq_zero hmod)]

/-! ## Flags -/

/-- Whether a result is exact, as the machine sees it. -/
def Binary.exactUnits (b : Binary) (m : Nat) (e : Int) : Bool :=
  decide (b.unitExp m e - e ≤ 0) || decide (m % 2 ^ (b.unitExp m e - e).toNat = 0)

theorem Binary.exactUnits_iff (b : Binary) (r : Rounding) (n : Bool) {m : Nat} (hm : m ≠ 0) (e : Int) :
    b.exactUnits m e = true ↔ b.grid (b.roundCode r n m e) = mag m e := by
  rw [b.grid_roundCode r n hm, roundUnits_exact]
  rfl

/-- The flags of a rounding that does not overflow. -/
def Binary.fitFlags (b : Binary) (r : Rounding) (n : Bool) (m : Nat) (e : Int) : Nat :=
  if b.exactUnits m e then 0 else if b.tiny r n m e then 8 + 16 else 16

theorem Binary.round_snd (b : Binary) (r : Rounding) (n : Bool) (m : Nat) (e : Int) :
    (b.round r n m e).2 = if b.overCode ≤ b.roundCode r n m e then 4 + 16 else b.fitFlags r n m e := by
  rw [b.round_eq]
  by_cases hover : b.overCode ≤ b.roundCode r n m e
  · rw [if_pos hover, if_pos hover, b.overflow_eq]
  · rw [if_neg hover, if_neg hover]
    rfl

/-- The magnitude rounded to precision with no limit on its exponent. -/
def Binary.unlimited (b : Binary) (r : Rounding) (n : Bool) (m : Nat) (e : Int) : ℚ :=
  mag (roundUnits r n m e ((Nat.log2 m : Int) + e - b.fb)) ((Nat.log2 m : Int) + e - b.fb)

theorem Binary.abs_atPrecision_none (b : Binary) (r : Rounding) (n : Bool) {m : Nat} (hm : m ≠ 0) (e : Int) :
    |atPrecision b r none (sgn n * mag m e)| = b.unlimited r n m e := by
  rw [atPrecision_eq b r none n hm e, abs_sgn_mul n (mag_nonneg ..)]
  rfl

/-- The smallest normal magnitude. -/
theorem Binary.grid_normal (b : Binary) : b.grid (2 ^ b.fb) = 2 ^ (1 - b.bias) := by
  have h := b.grid_step (j := 0) (k := 2 ^ b.fb) (Nat.pow_le_pow_right (by decide) (by omega)) (.inl rfl)
  rw [Nat.zero_mul, Nat.zero_add] at h
  rw [h, mag]
  push_cast
  rw [← zpow_natCast, ← zpow_add₀ two_ne_zero]
  congr 1
  omega

section Codes

variable {b : Binary} (h : b.Codes) (r : Rounding) (n : Bool) {m : Nat} (hm : m ≠ 0) (e : Int)

include h hm

/-- For a number of normal order the limit on the exponent does not matter. -/
theorem Binary.Codes.normal_order (htop : 1 - b.bias ≤ (Nat.log2 m : Int) + e) :
    b.unlimited r n m e = b.grid (b.roundCode r n m e) ∧ 2 ^ (1 - b.bias) ≤ b.unlimited r n m e ∧ b.tiny r n m e = false := by
  have hq : b.unitExp m e = (Nat.log2 m : Int) + e - b.fb := max_eq_left (by omega)
  have hgrid : b.unlimited r n m e = b.grid (b.roundCode r n m e) := by rw [b.grid_roundCode r n hm, hq, unlimited]
  have hcode : 2 ^ b.fb ≤ b.roundCode r n m e := by
    refine (b.roundCode_onGrid h.fraction r n hm e).le_of_ge b.grid_strictMono ?_
    rw [b.grid_normal]
    exact (zpow_le_zpow_right₀ one_le_two htop).trans (two_zpow_log2_le hm e)
  refine ⟨hgrid, ?_, ?_⟩
  · rw [hgrid, ← b.grid_normal]
    exact b.grid_strictMono.monotone hcode
  · simp only [tiny]
    rw [if_pos htop]

/-- A number below normal order does not overflow, and is tiny unless its precision takes it up to the smallest normal magnitude. -/
theorem Binary.Codes.below_normal (htop : (Nat.log2 m : Int) + e < 1 - b.bias) :
    b.unlimited r n m e ≤ b.grid (2 ^ b.fb) ∧ b.roundCode r n m e ≤ 2 ^ b.fb ∧
      (b.tiny r n m e = true ↔ b.unlimited r n m e < 2 ^ (1 - b.bias)) := by
  have hstep : (2 : ℚ) ^ ((Nat.log2 m : Int) + e + 1) ≤ 2 ^ (1 - b.bias) := zpow_le_zpow_right₀ one_le_two (by omega)
  have hfull : ∀ k : ℕ, k = 2 ^ (b.fb + 1) → mag k ((Nat.log2 m : Int) + e - b.fb) = 2 ^ ((Nat.log2 m : Int) + e + 1) := by
    rintro k rfl
    rw [mag]
    push_cast
    rw [← zpow_natCast, ← zpow_add₀ two_ne_zero]
    congr 1
    push_cast
    omega
  have hunits : roundUnits r n m e ((Nat.log2 m : Int) + e - b.fb) ≤ 2 ^ (b.fb + 1) := by
    obtain ⟨k, up, hlo, -, -, hround⟩ := roundUnits_eq r n m e ((Nat.log2 m : Int) + e - b.fb)
    have hk : k < 2 ^ (b.fb + 1) := by
      refine units_lt_of_mag_lt hlo ((mag_lt_two_zpow m e).trans_eq ?_)
      congr 1
      push_cast
      omega
    have hone : up.toNat ≤ 1 := Bool.toNat_le up
    omega
  have htiny : b.tiny r n m e =
      !(decide (roundUnits r n m e ((Nat.log2 m : Int) + e - b.fb) = 2 ^ (b.fb + 1)) &&
        decide ((Nat.log2 m : Int) + e + 1 = 1 - b.bias)) := by
    simp only [tiny]
    rw [if_neg (by omega)]
    rfl
  have hx : mag m e ≤ b.grid (2 ^ b.fb) := by
    rw [b.grid_normal]
    exact (mag_lt_two_zpow m e).le.trans hstep
  refine ⟨?_, (b.roundCode_onGrid h.fraction r n hm e).le_of_le b.grid_strictMono hx, ?_⟩
  · rw [b.grid_normal, unlimited]
    rcases hunits.lt_or_eq with hlt | heq
    · exact (mag_lt_mag hlt _).le.trans ((hfull _ rfl).trans_le hstep)
    · exact (hfull _ heq).trans_le hstep
  · rw [htiny, unlimited, Bool.not_eq_true', Bool.and_eq_false_iff, decide_eq_false_iff_not, decide_eq_false_iff_not]
    rcases hunits.lt_or_eq with hlt | heq
    · exact iff_of_true (.inl hlt.ne) ((mag_lt_mag hlt _).trans_le ((hfull _ rfl).trans_le hstep))
    · rw [hfull _ heq, zpow_lt_zpow_iff_right₀ one_lt_two]
      constructor
      · rintro (hne | hne)
        · exact absurd heq hne
        · omega
      · exact fun hlt => .inr hlt.ne

/-- A number overflows when it exceeds the greatest finite value at precision. -/
theorem Binary.Codes.over_iff_unlimited :
    Claims.greatest b < b.unlimited r n m e ↔ b.overCode ≤ b.roundCode r n m e := by
  have hnormal := h.normal
  have hpos := Nat.two_pow_pos b.fb
  rw [h.greatest]
  by_cases htop : 1 - b.bias ≤ (Nat.log2 m : Int) + e
  · rw [(h.normal_order r n hm e htop).1, b.grid_strictMono.lt_iff_lt]
    omega
  · obtain ⟨hle, hcode, -⟩ := h.below_normal r n hm e (by omega)
    refine iff_of_false (not_lt.mpr (hle.trans (b.grid_strictMono.monotone (by omega)))) (by omega)

/-- It is tiny when it stays below the smallest normal value there. -/
theorem Binary.Codes.tiny_iff_unlimited : b.unlimited r n m e < 2 ^ (1 - b.bias) ↔ b.tiny r n m e = true := by
  by_cases htop : 1 - b.bias ≤ (Nat.log2 m : Int) + e
  · obtain ⟨-, hge, htiny⟩ := h.normal_order r n hm e htop
    rw [htiny]
    exact iff_of_false (not_lt.mpr hge) (by decide)
  · exact (h.below_normal r n hm e (by omega)).2.2.symm

/-- The flags of a code that a nonzero number is rounded to without an overflow. -/
theorem Binary.Codes.roundingFlags_fits (hfit : b.roundCode r n m e < b.overCode) :
    roundingFlags (.bin b) r (sgn n * mag m e) (b.signBit n + b.roundCode r n m e) = b.fitFlags r n m e := by
  have hbig := h.over_iff_unlimited r n hm e
  have hsmall := h.tiny_iff_unlimited r n hm e
  have hexact : sgn n * b.grid (b.roundCode r n m e) = sgn n * mag m e ↔ b.exactUnits m e = true := by
    rw [b.exactUnits_iff r n hm, mul_right_inj' (by cases n <;> simp [sgn])]
  simp only [roundingFlags, h.isFinite_code n hfit, h.ratio_code n hfit, true_and, hexact, b.abs_atPrecision_none r n hm e, hbig,
    hsmall, fitFlags]
  simp only [not_le.mpr hfit, decide_false, Bool.false_eq_true, if_false, decide_eq_true_eq, Nat.add_zero]
  split_ifs
  · rfl
  · rfl
  · rfl

end Codes

/-- The flags of an overflow. -/
theorem Binary.Ieee.roundingFlags_over {b : Binary} (h : b.Ieee) (r : Rounding) (n : Bool) {m : Nat} (hm : m ≠ 0) (e : Int)
    (hover : b.overCode ≤ b.roundCode r n m e) :
    roundingFlags (.bin b) r (sgn n * mag m e) (b.round r n m e).1 = 4 + 16 := by
  have hcodes := h.codes
  have hbig := hcodes.over_iff_unlimited r n hm e
  have hsmall := hcodes.tiny_iff_unlimited r n hm e
  have hbeyond := (b.roundCode_onGrid h.fraction r n hm e).lt_of_over hover
  have hnormal := hcodes.normal
  have hpos := Nat.two_pow_pos b.fb
  have hnot : ¬ (isFinite ((FloatFmt.bin b).value (b.round r n m e).1) = true ∧
      ratio ((FloatFmt.bin b).value (b.round r n m e).1) = sgn n * mag m e) := by
    rw [b.round_fst, if_pos hover]
    split_ifs
    · rw [h.value_inf n]
      exact fun hfin => Bool.false_ne_true hfin.1
    · have hlast : b.overCode - 1 < b.overCode := by omega
      rw [hcodes.ratio_code n hlast, mul_right_inj' (by cases n <;> simp [sgn])]
      exact fun heq => (hbeyond _ hlast).ne heq.2
  have hnormalOrder : ¬ b.tiny r n m e = true := by
    by_cases htop : 1 - b.bias ≤ (Nat.log2 m : Int) + e
    · rw [(hcodes.normal_order r n hm e htop).2.2]
      decide
    · have := (hcodes.below_normal r n hm e (by omega)).2.1
      omega
  simp only [roundingFlags, if_neg hnot, b.abs_atPrecision_none r n hm e, hbig, hsmall]
  simp [hover, hnormalOrder]

/-- A nonzero number rounded to a binary format raises the flags of Table 02-3. -/
theorem Binary.Ieee.round_flags {b : Binary} (h : b.Ieee) (r : Rounding) (n : Bool) {m : Nat} (hm : m ≠ 0) (e : Int) :
    (b.round r n m e).2 = roundingFlags (.bin b) r (sgn n * mag m e) (b.round r n m e).1 := by
  by_cases hover : b.overCode ≤ b.roundCode r n m e
  · rw [h.roundingFlags_over r n hm e hover, b.round_snd, if_pos hover]
  · rw [b.round_snd, if_neg hover, b.round_fst, if_neg hover, h.codes.roundingFlags_fits r n hm e (not_le.mp hover)]

/-- It has the number's sign. -/
theorem Binary.Ieee.round_neg {b : Binary} (h : b.Ieee) (r : Rounding) (n : Bool) (m : Nat) (e : Int) :
    ((FloatFmt.bin b).value (b.round r n m e).1).neg = n := by
  have hnormal := h.codes.normal
  have hpos := Nat.two_pow_pos b.fb
  rw [b.round_fst]
  split_ifs with hover haway
  · rw [h.value_inf n]
    rfl
  · exact h.codes.neg_code n (by omega)
  · exact h.codes.neg_code n (not_le.mp hover)

end Sys2Proof.Machine
end

section
/-! SUPPORT. The tapered formats (02 R53 to R55): the magnitudes of their codes in order. -/

namespace Sys2Proof.Machine

open Sys2Proof Sys2Proof.Claims

/-! ## Runs of bits -/

theorem bitN_of_lt {x pos : ℕ} (h : x < 2 ^ (pos + 1)) : bitN x pos = decide (2 ^ pos ≤ x) := by
  have hpos := Nat.two_pow_pos pos
  rw [pow_succ] at h
  unfold bitN
  by_cases hx : 2 ^ pos ≤ x
  · have hdiv : x / 2 ^ pos = 1 := Nat.div_eq_of_lt_le (by omega) (by omega)
    simp [hdiv, hx]
  · rw [Nat.div_eq_of_lt (by omega)]
    simp [hx]

/-- A run of zeros ends where the number's highest bit stands, or at its cap. -/
theorem runLength_zeros {pos fuel x : ℕ} (hx : x < 2 ^ (pos + 1)) :
    runLength x false pos fuel ≤ fuel ∧ x < 2 ^ (pos + 1 - runLength x false pos fuel) ∧
      (runLength x false pos fuel < fuel → runLength x false pos fuel ≤ pos → 2 ^ (pos - runLength x false pos fuel) ≤ x) := by
  induction fuel generalizing pos with
  | zero => exact ⟨le_rfl, hx, fun h => absurd h (by simp)⟩
  | succ fuel ih =>
    rw [runLength, bitN_of_lt hx]
    by_cases hbit : 2 ^ pos ≤ x
    · simp only [hbit, decide_true, Bool.true_beq, Bool.false_eq_true, if_false]
      exact ⟨Nat.zero_le _, hx, fun _ _ => hbit⟩
    · simp only [hbit, decide_false, beq_self_eq_true, if_true]
      cases pos with
      | zero =>
        simp only [if_true]
        exact ⟨by omega, by simpa using hbit, fun _ h => absurd h (by decide)⟩
      | succ pos =>
        obtain ⟨hle, hlt, hge⟩ := ih (pos := pos) (not_le.mp hbit)
        rw [if_neg (Nat.succ_ne_zero pos), Nat.add_sub_cancel]
        refine ⟨by omega, ?_, fun h1 h2 => ?_⟩
        · rw [show pos + 1 + 1 - (1 + runLength x false pos fuel) = pos + 1 - runLength x false pos fuel by omega]
          exact hlt
        · rw [show pos + 1 - (1 + runLength x false pos fuel) = pos - runLength x false pos fuel by omega]
          exact hge (by omega) (by omega)

/-- A run looks at no bit above its first. -/
theorem runLength_mod (x : ℕ) (b : Bool) (pos fuel : ℕ) {p : ℕ} (h : pos < p) :
    runLength (x % 2 ^ p) b pos fuel = runLength x b pos fuel := by
  induction fuel generalizing pos with
  | zero => rfl
  | succ fuel ih =>
    have hbit : bitN (x % 2 ^ p) pos = bitN x pos := by rw [bitN_eq, bitN_eq, Nat.testBit_mod_two_pow]; simp [h]
    rw [runLength, runLength, hbit, ih (pos - 1) (by omega)]

/-- A run of ones is a run of zeros of the complement. -/
theorem runLength_ones {pos fuel x : ℕ} (hx : x < 2 ^ (pos + 1)) :
    runLength x true pos fuel = runLength (2 ^ (pos + 1) - 1 - x) false pos fuel := by
  induction fuel generalizing pos x with
  | zero => rfl
  | succ fuel ih =>
    have hpos := Nat.two_pow_pos pos
    have hpow : 2 ^ (pos + 1) = 2 * 2 ^ pos := by rw [pow_succ, mul_comm]
    rw [runLength, runLength, bitN_of_lt hx, bitN_of_lt (show 2 ^ (pos + 1) - 1 - x < 2 ^ (pos + 1) by omega)]
    by_cases hbit : 2 ^ pos ≤ x
    · have hcomp : ¬ 2 ^ pos ≤ 2 ^ (pos + 1) - 1 - x := by omega
      simp only [hbit, hcomp, decide_true, decide_false, beq_self_eq_true, if_true]
      cases pos with
      | zero => rfl
      | succ pos =>
        have hmod : x % 2 ^ (pos + 1) = x - 2 ^ (pos + 1) := by
          rw [Nat.mod_eq_sub_mod hbit, Nat.mod_eq_of_lt (by omega)]
        rw [if_neg (Nat.succ_ne_zero pos), if_neg (Nat.succ_ne_zero pos), Nat.add_sub_cancel,
          ← runLength_mod x true pos fuel (Nat.lt_succ_self pos), ih (Nat.mod_lt _ (Nat.two_pow_pos _)), hmod,
          show 2 ^ (pos + 1) - 1 - (x - 2 ^ (pos + 1)) = 2 ^ (pos + 1 + 1) - 1 - x by omega]
    · have hcomp : 2 ^ pos ≤ 2 ^ (pos + 1) - 1 - x := by omega
      simp [hbit, hcomp]

/-! ## Regimes -/

/-- What the shape of a tapered format gives: the cap leaves room for the exponent bits. -/
structure Tapered.Shape (t : Tapered) : Prop where
  cap_pos : 1 ≤ t.cap
  room : t.cap + t.es + 1 ≤ t.n

theorem Tapered.shape_t8 : fmtT8.Shape := ⟨by decide, by decide⟩
theorem Tapered.shape_t16 : fmtT16.Shape := ⟨by decide, by decide⟩
theorem Tapered.shape_t32 : fmtT32.Shape := ⟨by decide, by decide⟩

/-- Whether a positive code is one or more. -/
def Tapered.high (t : Tapered) (c : ℕ) : Bool := bitN c (t.n - 2)

/-- The length of a code's run. -/
def Tapered.run (t : Tapered) (c : ℕ) : ℕ := runLength c (t.high c) (t.n - 2) t.cap

/-- The bits below a run of a length and its terminating bit. -/
def Tapered.leftOf (t : Tapered) (r : ℕ) : ℕ := (t.n - 1 - r) - (if r < t.cap then 1 else 0)

/-- The regime of a code. -/
def Tapered.regime (t : Tapered) (c : ℕ) : ℤ := if t.high c then (t.run c : ℤ) - 1 else -(t.run c : ℤ)

/-- A code of the lower half with the same run: the code, or its complement. -/
def Tapered.folded (t : Tapered) (c : ℕ) : ℕ := if t.high c then 2 ^ (t.n - 1) - 1 - c else c

section Shape

variable {t : Tapered} (h : t.Shape)

include h

/-- The run of a code as that of zeros. -/
theorem Tapered.Shape.run_folded {c : ℕ} (hc : c < 2 ^ (t.n - 1)) :
    1 ≤ t.run c ∧ t.run c ≤ t.cap ∧ t.folded c < 2 ^ (t.n - 1 - t.run c) ∧
      (t.run c < t.cap → 2 ^ (t.n - 2 - t.run c) ≤ t.folded c) := by
  have hroom := h.room
  have hcap := h.cap_pos
  have hn : t.n - 1 = t.n - 2 + 1 := by omega
  rw [hn] at hc ⊢
  have hpos := Nat.two_pow_pos (t.n - 2)
  have hpow : 2 ^ (t.n - 2 + 1) = 2 * 2 ^ (t.n - 2) := by rw [pow_succ, mul_comm]
  have hhigh : t.high c = decide (2 ^ (t.n - 2) ≤ c) := bitN_of_lt hc
  have hrun : t.run c = runLength (t.folded c) false (t.n - 2) t.cap := by
    cases hb : t.high c with
    | false => simp only [run, folded, hb, Bool.false_eq_true, if_false]
    | true => simp only [run, folded, hb, if_true, runLength_ones hc, hn]
  have hfold : t.folded c < 2 ^ (t.n - 2) := by
    unfold folded
    rw [hhigh, hn]
    by_cases hge : 2 ^ (t.n - 2) ≤ c
    · simp only [hge, decide_true, if_true]
      omega
    · simp only [hge, decide_false, Bool.false_eq_true, if_false]
      omega
  obtain ⟨hle, hlt, hge⟩ := runLength_zeros (fuel := t.cap) (show t.folded c < 2 ^ (t.n - 2 + 1) by omega)
  rw [← hrun] at hle hlt hge
  refine ⟨?_, hle, hlt, fun hr => hge hr (by omega)⟩
  by_contra hzero
  have hr : t.run c = 0 := by omega
  have := hge (by omega) (by omega)
  rw [hr, Nat.sub_zero] at this
  omega

/-- The bits left below a run hold the exponent bits. -/
theorem Tapered.Shape.es_le_left {r : ℕ} (hr : r ≤ t.cap) : t.es ≤ t.leftOf r := by
  have hroom := h.room
  unfold leftOf
  split_ifs <;> omega

/-- Above the bits left, a folded code has its run's terminating bit alone. -/
theorem Tapered.Shape.folded_div {c : ℕ} (hc : c < 2 ^ (t.n - 1)) :
    t.folded c / 2 ^ t.leftOf (t.run c) = if t.run c < t.cap then 1 else 0 := by
  obtain ⟨hone, hcap, hlt, hge⟩ := h.run_folded hc
  have hroom := h.room
  unfold leftOf
  split_ifs with hr
  · have hexp : t.n - 1 - t.run c - 1 = t.n - 2 - t.run c := by omega
    have hsucc : t.n - 1 - t.run c = t.n - 2 - t.run c + 1 := by omega
    rw [hexp]
    rw [hsucc, pow_succ] at hlt
    have := hge hr
    exact Nat.div_eq_of_lt_le (by omega) (by omega)
  · rw [Nat.sub_zero]
    exact Nat.div_eq_of_lt hlt

/-- Above the bits left, a code is as its run and its half say. -/
theorem Tapered.Shape.code_div {c : ℕ} (hc : c < 2 ^ (t.n - 1)) :
    c / 2 ^ t.leftOf (t.run c) =
      if t.high c then 2 ^ (t.n - 1 - t.leftOf (t.run c)) - 1 - (if t.run c < t.cap then 1 else 0)
      else (if t.run c < t.cap then 1 else 0) := by
  have hdiv := h.folded_div hc
  have hcap := (h.run_folded hc).2.1
  have hroom := h.room
  have hleft : t.leftOf (t.run c) ≤ t.n - 1 := by
    unfold leftOf
    omega
  cases hb : t.high c with
  | false => simpa only [folded, hb, Bool.false_eq_true, if_false] using hdiv
  | true =>
    obtain ⟨d, hd⟩ := Nat.exists_eq_add_of_le hleft
    rw [hd] at hc
    have hq : c / 2 ^ t.leftOf (t.run c) < 2 ^ d := Nat.div_lt_of_lt_mul (by rwa [← pow_add])
    have hcomp := Nat.mul_sub_div c (2 ^ t.leftOf (t.run c)) (2 ^ d) (by rwa [← pow_add])
    simp only [folded, hb, if_true, hd, Nat.sub_sub, Nat.add_comm 1 c, pow_add] at hdiv
    rw [hcomp] at hdiv
    simp only [if_true, hd, Nat.add_sub_cancel_left, ← hdiv]
    generalize c / 2 ^ t.leftOf (t.run c) = q at hq ⊢
    omega

/-- The regime does not fall from a code to a greater one. -/
theorem Tapered.Shape.regime_mono {c c' : ℕ} (hlt : c < c') (hc' : c' < 2 ^ (t.n - 1)) : t.regime c ≤ t.regime c' := by
  have hc := hlt.trans hc'
  obtain ⟨hone, hcap, hfold, hge⟩ := h.run_folded hc
  obtain ⟨hone', hcap', hfold', hge'⟩ := h.run_folded hc'
  have hroom := h.room
  have hn : t.n - 1 = t.n - 2 + 1 := by omega
  have hhigh : ∀ {x}, x < 2 ^ (t.n - 1) → t.high x = decide (2 ^ (t.n - 2) ≤ x) := fun hx => bitN_of_lt (hn ▸ hx)
  have hruns : ∀ {r r' y y' : ℕ}, r' ≤ t.cap → y ≤ y' → (r < t.cap → 2 ^ (t.n - 2 - r) ≤ y) → y' < 2 ^ (t.n - 1 - r') →
      r' ≤ r := by
    intro r r' y y' hr hy hlow hup
    by_contra hrr
    have hexp := (Nat.pow_lt_pow_iff_right (by decide : 1 < 2)).mp ((hlow (by omega)).trans_lt (hy.trans_lt hup))
    omega
  unfold regime
  cases hb : t.high c with
  | false =>
    cases hb' : t.high c' with
    | false =>
      simp only [folded, hb, hb', Bool.false_eq_true, if_false] at hge hfold'
      have := hruns hcap' hlt.le hge hfold'
      simp only [Bool.false_eq_true, if_false]
      omega
    | true =>
      simp only [Bool.false_eq_true, if_false, if_true]
      omega
  | true =>
    have hb' : t.high c' = true := by
      rw [hhigh hc', decide_eq_true_eq]
      rw [hhigh hc, decide_eq_true_eq] at hb
      omega
    simp only [folded, hb, hb', if_true] at hge' hfold
    have := hruns hcap (by omega) hge' hfold
    simp only [hb', if_true]
    omega

/-- Codes of one regime have the same run, and agree above the bits left below it. -/
theorem Tapered.Shape.same_regime {c c' : ℕ} (hc : c < 2 ^ (t.n - 1)) (hc' : c' < 2 ^ (t.n - 1)) (hr : t.regime c = t.regime c') :
    t.run c = t.run c' ∧ c / 2 ^ t.leftOf (t.run c) = c' / 2 ^ t.leftOf (t.run c) := by
  have hone := (h.run_folded hc).1
  have hone' := (h.run_folded hc').1
  have hboth : t.high c = t.high c' ∧ t.run c = t.run c' := by
    unfold regime at hr
    cases hb : t.high c <;> cases hb' : t.high c' <;> simp only [hb, hb', Bool.false_eq_true, if_false, if_true] at hr
    · exact ⟨rfl, by omega⟩
    · omega
    · omega
    · exact ⟨rfl, by omega⟩
  obtain ⟨hhigh, hrun⟩ := hboth
  refine ⟨hrun, ?_⟩
  rw [h.code_div hc, hhigh, hrun, h.code_div hc']

/-! ## Magnitudes in order -/

/-- The codes of one regime are in a row like those of a binary format with as many fraction bits: the fields of that format. -/
def Tapered.row (t : Tapered) (c : ℕ) : Binary :=
  { eb := 0, fb := t.leftOf (t.run c) - t.es, bias := 1 - t.regime c * (2 ^ t.es : ℕ), overCode := 0, infCode := 0, nanCode := 0 }

/-- The place of a code in its regime. -/
def Tapered.place (t : Tapered) (c : ℕ) : ℕ := c % 2 ^ t.leftOf (t.run c)

/-- The magnitude of a positive code, 0 for the code 0. -/
def Tapered.codeMag (t : Tapered) (c : ℕ) : ℚ := if c = 0 then 0 else mag (t.magnitude c).1 (t.magnitude c).2

omit h in
/-- The fields of a positive code. -/
theorem Tapered.magnitude_eq {c : ℕ} (hes : t.es ≤ t.leftOf (t.run c)) :
    t.magnitude c = (2 ^ (t.row c).fb + c % 2 ^ (t.row c).fb,
      t.regime c * (2 ^ t.es : ℕ) + (c / 2 ^ (t.row c).fb % 2 ^ t.es : ℕ) - (t.row c).fb) := by
  have hmag : t.magnitude c = (2 ^ (t.row c).fb + bitsN c 0 (t.row c).fb,
      t.regime c * (2 ^ t.es : ℕ) + (if t.es ≤ t.leftOf (t.run c) then bitsN c (t.row c).fb t.es
        else bitsN c 0 (t.leftOf (t.run c)) * 2 ^ (t.es - t.leftOf (t.run c)) : ℕ) - (t.row c).fb) := rfl
  rw [hmag, if_pos hes, bitsN, bitsN, pow_zero, Nat.div_one]

theorem Tapered.Shape.codeMag_row {c : ℕ} (hc : c < 2 ^ (t.n - 1)) (hc0 : c ≠ 0) :
    t.codeMag c = (t.row c).grid (t.place c + 2 ^ (t.row c).fb) := by
  have hes := h.es_le_left (h.run_folded hc).2.1
  have hpos := Nat.two_pow_pos (t.row c).fb
  have hplace : t.place c = c % (2 ^ (t.row c).fb * 2 ^ t.es) := by
    rw [place, row, ← pow_add, Nat.sub_add_cancel hes]
  rw [codeMag, if_neg hc0, Binary.grid, if_neg (by omega), Nat.add_div_right _ hpos, Nat.add_mod_right,
    magnitude_eq hes, hplace, Nat.mod_mul_right_mod, Nat.mod_mul_right_div_self]
  congr 1
  push_cast
  have hbias : (t.row c).bias = 1 - t.regime c * (2 ^ t.es : ℕ) := rfl
  rw [hbias]
  push_cast
  ring

/-- A regime's magnitudes lie between two powers of two. -/
theorem Tapered.Shape.codeMag_regime {c : ℕ} (hc : c < 2 ^ (t.n - 1)) (hc0 : c ≠ 0) :
    (2 : ℚ) ^ (t.regime c * (2 ^ t.es : ℕ)) ≤ t.codeMag c ∧ t.codeMag c < 2 ^ ((t.regime c + 1) * (2 ^ t.es : ℕ)) := by
  have hes := h.es_le_left (h.run_folded hc).2.1
  have hbias : (t.row c).bias = 1 - t.regime c * (2 ^ t.es : ℕ) := rfl
  have hmono := (t.row c).grid_strictMono
  have hplace : t.place c < 2 ^ (t.row c).fb * 2 ^ t.es := by
    rw [← pow_add, row, Nat.sub_add_cancel hes]
    exact Nat.mod_lt _ (Nat.two_pow_pos _)
  rw [h.codeMag_row hc hc0]
  constructor
  · have hlow := (t.row c).grid_normal
    rw [hbias, sub_sub_cancel] at hlow
    rw [← hlow]
    exact hmono.monotone (Nat.le_add_left ..)
  · have hhigh := (t.row c).grid_step (j := 2 ^ t.es) (k := 2 ^ (t.row c).fb)
      (Nat.pow_le_pow_right (by decide) (Nat.le_succ _)) (.inr le_rfl)
    refine (hmono (show t.place c + 2 ^ (t.row c).fb < 2 ^ t.es * 2 ^ (t.row c).fb + 2 ^ (t.row c).fb by
      rw [Nat.mul_comm (2 ^ t.es)]; omega)).trans_eq ?_
    rw [hhigh, mag]
    push_cast
    rw [← zpow_natCast, ← zpow_add₀ two_ne_zero, hbias]
    congr 1
    push_cast
    ring

/-- The magnitudes of the positive codes rise. -/
theorem Tapered.Shape.codeMag_lt {c c' : ℕ} (hlt : c < c') (hc' : c' < 2 ^ (t.n - 1)) : t.codeMag c < t.codeMag c' := by
  have hc := hlt.trans hc'
  have hc0' : c' ≠ 0 := by omega
  by_cases hc0 : c = 0
  · rw [hc0, codeMag, if_pos rfl]
    exact (by positivity : (0 : ℚ) < 2 ^ (t.regime c' * (2 ^ t.es : ℕ))).trans_le (h.codeMag_regime hc' hc0').1
  · rcases (h.regime_mono hlt hc').lt_or_eq with hr | hr
    · refine (h.codeMag_regime hc hc0).2.trans_le (le_trans ?_ (h.codeMag_regime hc' hc0').1)
      exact zpow_le_zpow_right₀ one_le_two (Int.mul_le_mul_of_nonneg_right hr (by positivity))
    · obtain ⟨hrun, hdiv⟩ := h.same_regime hc hc' hr
      have hrow : t.row c = t.row c' := by rw [row, row, hrun, hr]
      rw [h.codeMag_row hc hc0, h.codeMag_row hc' hc0', hrow]
      refine (t.row c').grid_strictMono ?_
      have h1 := Nat.div_add_mod c (2 ^ t.leftOf (t.run c))
      have h2 := Nat.div_add_mod c' (2 ^ t.leftOf (t.run c))
      rw [place, place, ← hrun]
      rw [hdiv] at h1
      omega

end Shape

end Sys2Proof.Machine
end

section
/-! SUPPORT. The rounding of a number to a tapered format (02 R57): its code and its flags. -/

namespace Sys2Proof.Machine

open Sys2Proof Sys2Proof.Claims

/-! ## The values of the codes -/

/-- The code of a sign and a magnitude code. -/
def Tapered.signCode (t : Tapered) (n : Bool) (c : ℕ) : ℕ := if n then 2 ^ t.n - c else c

section Shape

variable {t : Tapered} (h : t.Shape)

include h

theorem Tapered.Shape.two_pow : 2 ^ t.n = 2 * 2 ^ (t.n - 1) ∧ 2 ≤ 2 ^ (t.n - 1) := by
  have hroom := h.room
  have hcap := h.cap_pos
  obtain ⟨k, hk⟩ := Nat.exists_eq_add_of_le (show 2 ≤ t.n by omega)
  have hn : t.n - 1 = k + 1 := by omega
  have hpos := Nat.two_pow_pos k
  rw [hn, hk, show 2 + k = k + 1 + 1 by omega, pow_succ 2 (k + 1), pow_succ 2 k]
  omega

theorem Tapered.Shape.signCode_lt (n : Bool) {c : ℕ} (hc : c < 2 ^ (t.n - 1)) (hc0 : c ≠ 0) : t.signCode n c < 2 ^ t.n := by
  have := h.two_pow
  unfold signCode
  split_ifs <;> omega

theorem Tapered.Shape.parity (n : Bool) {c : ℕ} (hc : c < 2 ^ (t.n - 1)) : t.signCode n c % 2 = c % 2 := by
  have := h.two_pow
  unfold signCode
  split_ifs <;> omega

/-- A nonzero code is the number of its sign and magnitude. -/
theorem Tapered.Shape.value_signCode (n : Bool) {c : ℕ} (hc : c < 2 ^ (t.n - 1)) (hc0 : c ≠ 0) :
    (FloatFmt.tap t).value (t.signCode n c) = .num n (t.magnitude c).1 (t.magnitude c).2 := by
  obtain ⟨hpow, htwo⟩ := h.two_pow
  have hroom := h.room
  have hlow : lowN (t.signCode n c) t.n = t.signCode n c := Nat.mod_eq_of_lt (h.signCode_lt n hc hc0)
  have hsign : bitN (t.signCode n c) (t.n - 1) = n := by
    have hn : t.n = t.n - 1 + 1 := by omega
    rw [bitN_of_lt (hn ▸ h.signCode_lt n hc hc0)]
    cases n
    · simp only [signCode, Bool.false_eq_true, if_false, decide_eq_false_iff_not]
      omega
    · simp only [signCode, if_true, decide_eq_true_eq]
      omega
  have hnar : t.nar = 2 ^ (t.n - 1) := rfl
  have hback : (if n = true then 2 ^ t.n - t.signCode n c else t.signCode n c) = c := by
    cases n
    · rfl
    · simp only [signCode, if_true]
      omega
  simp only [FloatFmt.value, value, hlow, hsign, hback]
  rw [if_neg, if_neg]
  · unfold signCode
    split_ifs <;> omega
  · unfold signCode
    split_ifs <;> omega

theorem Tapered.Shape.ratio_signCode (n : Bool) {c : ℕ} (hc : c < 2 ^ (t.n - 1)) (hc0 : c ≠ 0) :
    isFinite ((FloatFmt.tap t).value (t.signCode n c)) = true ∧
      ratio ((FloatFmt.tap t).value (t.signCode n c)) = sgn n * t.codeMag c := by
  rw [h.value_signCode n hc hc0]
  exact ⟨rfl, by rw [ratio_num, codeMag, if_neg hc0]⟩

/-- What holds of 0 and of every sign and magnitude code holds of every code that is a number. -/
theorem Tapered.Shape.each {P : ℚ → Prop} (h0 : P 0) (hP : ∀ n c, c < 2 ^ (t.n - 1) → c ≠ 0 → P (sgn n * t.codeMag c)) :
    ∀ k, k < 2 ^ (FloatFmt.tap t).width → isFinite ((FloatFmt.tap t).value k) = true → P (ratio ((FloatFmt.tap t).value k)) := by
  obtain ⟨hpow, htwo⟩ := h.two_pow
  intro k hk hfin
  have hk : k < 2 ^ t.n := hk
  rcases Nat.lt_trichotomy k (2 ^ (t.n - 1)) with hlt | heq | hgt
  · by_cases hk0 : k = 0
    · have hzero : (FloatFmt.tap t).value 0 = .num false 0 0 := by
        simp [FloatFmt.value, value, lowN]
      rw [hk0, hzero]
      simpa [ratio] using h0
    · rw [show k = t.signCode false k by rfl, (h.ratio_signCode false hlt hk0).2]
      exact hP false k hlt hk0
  · have hnar : (FloatFmt.tap t).value k = .nan false := by
      have hlow : lowN k t.n = k := Nat.mod_eq_of_lt hk
      simp only [FloatFmt.value, value, hlow]
      rw [if_neg (by omega), if_pos (show k = t.nar from heq)]
    rw [hnar] at hfin
    cases hfin
  · have hcode : k = t.signCode true (2 ^ t.n - k) := by
      simp only [signCode, if_true]
      omega
    rw [hcode, (h.ratio_signCode true (by omega) (by omega)).2]
    exact hP true _ (by omega) (by omega)

/-! ## The grid -/

omit h in
/-- The greatest magnitude code. -/
def Tapered.top (t : Tapered) : ℕ := 2 ^ (t.n - 1) - 1

omit h in
/-- The magnitudes of the codes in order, continued beyond the greatest. -/
def Tapered.grid (t : Tapered) (c : ℕ) : ℚ := if c ≤ t.top then t.codeMag c else t.codeMag t.top + ((c - t.top : ℕ) : ℚ)

theorem Tapered.Shape.le_top {c : ℕ} : c ≤ t.top ↔ c < 2 ^ (t.n - 1) := by
  have := h.two_pow
  unfold top
  omega

omit h in
theorem Tapered.grid_of_le {c : ℕ} (hc : c ≤ t.top) : t.grid c = t.codeMag c := if_pos hc

theorem Tapered.Shape.grid_strictMono : StrictMono t.grid := by
  refine strictMono_nat_of_lt_succ (fun c => ?_)
  by_cases hc : c + 1 ≤ t.top
  · rw [grid_of_le (by omega), grid_of_le hc]
    exact h.codeMag_lt c.lt_succ_self (h.le_top.mp hc)
  · by_cases hc' : c ≤ t.top
    · have heq : c = t.top := by omega
      rw [grid_of_le hc', grid, if_neg hc, heq]
      simp
    · rw [grid, grid, if_neg hc, if_neg hc', show c + 1 - t.top = c - t.top + 1 by omega]
      push_cast
      linarith

omit h in
theorem Tapered.grid_zero : t.grid 0 = 0 := by rw [grid_of_le (Nat.zero_le _), codeMag, if_pos rfl]

theorem Tapered.Shape.codeMag_pos {c : ℕ} (hc : c ≤ t.top) (hc0 : c ≠ 0) : 0 < t.codeMag c := by
  rw [← grid_of_le hc, ← t.grid_zero]
  exact h.grid_strictMono (by omega)

theorem Tapered.Shape.one_le_top : 1 ≤ t.top := by
  have := h.two_pow
  unfold top
  omega

/-! ## The search for a code -/

omit h in
theorem Tapered.below_iff {c m : ℕ} {e : ℤ} (hc : c ≠ 0) : t.below c m e = true ↔ t.codeMag c ≤ mag m e := by
  rw [codeMag, if_neg hc, ← not_lt, ← cmpMag_gt]
  simp [below]

/-- The search ends at the code at or below a magnitude. -/
theorem Tapered.Shape.floorCode_spec {m : ℕ} {e : ℤ} {i c : ℕ} (hroom : c + 2 ^ i ≤ 2 ^ (t.n - 1)) (hlo : t.grid c ≤ mag m e)
    (hhi : mag m e < t.grid (c + 2 ^ i)) :
    t.grid (t.floorCode m e i c) ≤ mag m e ∧ mag m e < t.grid (t.floorCode m e i c + 1) := by
  induction i generalizing c with
  | zero => exact ⟨hlo, hhi⟩
  | succ i ih =>
    have hpos := Nat.two_pow_pos i
    have hpow : 2 ^ (i + 1) = 2 ^ i + 2 ^ i := by rw [pow_succ, mul_two]
    have hbelow := t.below_iff (c := c + 2 ^ i) (m := m) (e := e) (by omega)
    rw [← grid_of_le (h.le_top.mpr (by omega))] at hbelow
    rw [floorCode]
    by_cases hb : t.below (c + 2 ^ i) m e = true
    · rw [hb, if_pos rfl]
      exact ih (by omega) (hbelow.mp hb) (by rwa [Nat.add_assoc, ← hpow])
    · rw [Bool.not_eq_true] at hb
      simp only [hb, Bool.false_eq_true, if_false]
      refine ih (by omega) hlo (not_le.mp (fun hle => ?_))
      rw [hbelow.mpr hle] at hb
      cases hb

end Shape

end Sys2Proof.Machine
end

section
/-! SUPPORT. The code that a number rounds to in a tapered format, and its flags (02 R57). -/

namespace Sys2Proof.Machine

open Sys2Proof Sys2Proof.Claims

/-! ## The choice between two neighbours -/

/-- The choice between two neighbouring codes, each magnitude in units of 2^x, is the rounding to nearest. -/
theorem nearer_roundsUp {a b m : ℕ × ℤ} {x : ℤ} (ha : x ≤ a.2) (hb : x ≤ b.2) (hm : x ≤ m.2) (n : Bool) (c : ℕ) :
    ∃ up : Bool, (up = true ↔ RoundsUp .rne n (mag a.1 a.2) (mag b.1 b.2) (mag m.1 m.2) (c % 2 = 1)) ∧
      (if 2 * scaleUp m.1 (m.2 - x) < scaleUp a.1 (a.2 - x) + scaleUp b.1 (b.2 - x) then c
        else if scaleUp a.1 (a.2 - x) + scaleUp b.1 (b.2 - x) < 2 * scaleUp m.1 (m.2 - x) then c + 1
        else if c % 2 = 0 then c else c + 1) = c + up.toNat := by
  have hsum : mag a.1 a.2 + mag b.1 b.2 = (scaleUp a.1 (a.2 - x) + scaleUp b.1 (b.2 - x) : ℕ) * (2 : ℚ) ^ x := by
    rw [mag_eq_units _ ha, mag_eq_units _ hb]
    push_cast
    ring
  have htwo : 2 * mag m.1 m.2 = (2 * scaleUp m.1 (m.2 - x) : ℕ) * (2 : ℚ) ^ x := by
    rw [mag_eq_units _ hm]
    push_cast
    ring
  have hpos : (0 : ℚ) < 2 ^ x := by positivity
  classical
  refine ⟨decide (RoundsUp .rne n (mag a.1 a.2) (mag b.1 b.2) (mag m.1 m.2) (c % 2 = 1)), decide_eq_true_iff, ?_⟩
  simp only [RoundsUp, hsum, htwo, mul_lt_mul_iff_of_pos_right hpos, mul_left_inj' hpos.ne', Nat.cast_lt, Nat.cast_inj]
  split_ifs with hlow hhigh heven
  · rw [decide_eq_false (by omega), Bool.toNat_false, Nat.add_zero]
  · rw [decide_eq_true (by omega), Bool.toNat_true]
  · rw [decide_eq_false (by omega), Bool.toNat_false, Nat.add_zero]
  · rw [decide_eq_true (by omega), Bool.toNat_true]

section Shape

variable {t : Tapered} (h : t.Shape)

include h

/-! ## The cases of a rounding -/

omit h in
theorem Tapered.codeMag_eq {c : ℕ} (hc0 : c ≠ 0) : t.codeMag c = mag (t.magnitude c).1 (t.magnitude c).2 := if_neg hc0

/-- A magnitude between the least and the greatest rounds to nearest, and is exact where it is that of a code. -/
theorem Tapered.Shape.round_inside (n : Bool) {m : ℕ} {e : ℤ} (hlo : t.codeMag 1 ≤ mag m e) (hhi : mag m e ≤ t.codeMag t.top) :
    ∃ c, OnGrid t.grid .rne n (mag m e) c ∧ 1 ≤ c ∧ c ≤ t.top ∧
      t.round n m e = (t.signCode n c, if t.codeMag c = mag m e then 0 else 16) := by
  have hone := h.one_le_top
  have htop : t.top + 1 = 2 ^ (t.n - 1) := by
    have := h.two_pow
    unfold top
    omega
  obtain ⟨hfloor, hnext⟩ := h.floorCode_spec (m := m) (e := e) (i := t.n - 1) (c := 0) (by omega)
    (by rw [grid_zero]; exact mag_nonneg m e)
    (by rw [Nat.zero_add, ← htop]
        exact (hhi.trans_eq (grid_of_le le_rfl).symm).trans_lt (h.grid_strictMono (Nat.lt_succ_self _)))
  set c := t.floorCode m e (t.n - 1) 0 with hcdef
  have hc1 : 1 ≤ c := by
    have : 1 < c + 1 := h.grid_strictMono.lt_iff_lt.mp ((grid_of_le hone).trans_le hlo |>.trans_lt hnext)
    omega
  have hctop : c ≤ t.top := h.grid_strictMono.le_iff_le.mp (hfloor.trans (hhi.trans_eq (grid_of_le le_rfl).symm))
  have hcmag : t.grid c = mag (t.magnitude c).1 (t.magnitude c).2 := by rw [grid_of_le hctop, t.codeMag_eq (by omega)]
  have hlow : cmpMag m e (t.magnitude 1).1 (t.magnitude 1).2 ≠ .lt := by
    rw [ne_eq, cmpMag_lt, ← t.codeMag_eq one_ne_zero, not_lt]
    exact hlo
  have hhigh : cmpMag m e (t.magnitude (2 ^ (t.n - 1) - 1)).1 (t.magnitude (2 ^ (t.n - 1) - 1)).2 ≠ .gt := by
    rw [ne_eq, cmpMag_gt, ← t.codeMag_eq (show 2 ^ (t.n - 1) - 1 ≠ 0 by omega), not_lt]
    exact hhi
  simp only [round, beq_iff_eq, if_neg hlow, if_neg hhigh, ← hcdef]
  by_cases heq : cmpMag m e (t.magnitude c).1 (t.magnitude c).2 = .eq
  · have hmag : t.grid c = mag m e := by rw [hcmag, ← cmpMag_eq.mp heq]
    refine ⟨c, ⟨c, false, hfloor, hnext, ?_, rfl⟩, hc1, hctop, ?_⟩
    · rw [← hmag]
      exact iff_of_false Bool.false_ne_true (RoundsUp.not_of_eq (h.grid_strictMono c.lt_succ_self))
    · rw [if_pos heq, if_pos (show t.codeMag c = mag m e by rw [← grid_of_le hctop, hmag])]
      rfl
  · have hne : t.grid c ≠ mag m e := by
      rw [hcmag]
      exact fun hmag => heq (cmpMag_eq.mpr hmag.symm)
    have hclt : c < t.top := by
      refine lt_of_le_of_ne hctop (fun hct => hne (le_antisymm hfloor ?_))
      rw [hct, grid_of_le le_rfl]
      exact hhi
    have hnmag : t.grid (c + 1) = mag (t.magnitude (c + 1)).1 (t.magnitude (c + 1)).2 := by
      rw [grid_of_le (by omega), t.codeMag_eq (by omega)]
    obtain ⟨up, hup, hchoice⟩ := nearer_roundsUp (a := t.magnitude c) (b := t.magnitude (c + 1)) (m := (m, e))
      (x := min e (min (t.magnitude c).2 (t.magnitude (c + 1)).2)) (by omega) (by omega) (min_le_left _ _) n c
    rw [← hcmag, ← hnmag] at hup
    have hgrid : OnGrid t.grid .rne n (mag m e) (c + up.toNat) := ⟨c, up, hfloor, hnext, hup, rfl⟩
    have htoNat := Bool.toNat_le up
    refine ⟨c + up.toNat, hgrid, by omega, by omega, ?_⟩
    have hinexact : t.codeMag (c + up.toNat) ≠ mag m e := by
      rw [← grid_of_le (by omega)]
      cases up
      · exact hne
      · exact hnext.ne'
    rw [if_neg heq, hchoice, if_neg hinexact]
    rfl

omit h in
theorem Tapered.round_low (n : Bool) {m : ℕ} {e : ℤ} (hlo : mag m e < t.codeMag 1) : t.round n m e = (t.signCode n 1, 24) := by
  rw [t.codeMag_eq one_ne_zero, ← cmpMag_lt] at hlo
  simp only [round, hlo]
  rfl

theorem Tapered.Shape.round_high (n : Bool) {m : ℕ} {e : ℤ} (hhi : t.codeMag t.top < mag m e) :
    t.round n m e = (t.signCode n t.top, 20) := by
  have hone := h.one_le_top
  have hlow : cmpMag m e (t.magnitude 1).1 (t.magnitude 1).2 ≠ .lt := by
    rw [ne_eq, cmpMag_lt, ← t.codeMag_eq one_ne_zero, not_lt, ← grid_of_le hone]
    exact (h.grid_strictMono.monotone hone).trans ((grid_of_le le_rfl).trans_le hhi.le)
  rw [t.codeMag_eq (by omega), ← cmpMag_gt] at hhi
  simp only [round, beq_iff_eq, if_neg hlow]
  exact if_pos hhi

/-! ## The code -/

/-- The nearest code among those of both signs, where it is nearest among the magnitudes. -/
theorem Tapered.Shape.nearest_clamped (n : Bool) {x : ℚ} (hx : 0 < x) {c : ℕ}
    (hclamp : ∀ j, j ≤ t.top → j ≠ 0 → j ≠ c → |t.codeMag c - x| < |t.codeMag j - x|) (hnear : |t.codeMag c - x| < t.codeMag 1 + x)
    (n' : Bool) {j : ℕ} (hj : j ≤ t.top) (hj0 : j ≠ 0) :
    |sgn n * t.codeMag c - sgn n * x| ≤ |sgn n' * t.codeMag j - sgn n * x| ∧
      (|sgn n * t.codeMag c - sgn n * x| = |sgn n' * t.codeMag j - sgn n * x| → sgn n' * t.codeMag j ≠ sgn n * t.codeMag c →
        c % 2 = 0) := by
  rw [abs_sgn_sub]
  by_cases hn : n' = n
  · rw [hn, abs_sgn_sub]
    by_cases hjc : j = c
    · rw [hjc]
      exact ⟨le_rfl, fun _ hne => absurd rfl hne⟩
    · have hlt := hclamp j hj hj0 hjc
      exact ⟨hlt.le, fun heq => absurd heq hlt.ne⟩
  · have hsgn : sgn n' = -sgn n := by cases n <;> cases n' <;> simp_all [sgn]
    have hpos := h.codeMag_pos hj hj0
    have hone : t.codeMag 1 ≤ t.codeMag j := by
      rw [← grid_of_le h.one_le_top, ← grid_of_le hj]
      exact h.grid_strictMono.monotone (by omega)
    rw [hsgn, show -sgn n * t.codeMag j - sgn n * x = -(sgn n * (t.codeMag j + x)) by ring, abs_neg, abs_sgn_mul n (by linarith)]
    exact ⟨by linarith, fun heq => by linarith⟩

/-- The code of a rounding is the nearest nonzero one, and where another is as near it is even. -/
theorem Tapered.Shape.roundsTo_signCode (r : Rounding) (n : Bool) {x : ℚ} (hx : 0 < x) {c : ℕ} (hc : c ≤ t.top) (hc0 : c ≠ 0)
    (hnearest : ∀ n' j, j ≤ t.top → j ≠ 0 → |sgn n * t.codeMag c - sgn n * x| ≤ |sgn n' * t.codeMag j - sgn n * x| ∧
      (|sgn n * t.codeMag c - sgn n * x| = |sgn n' * t.codeMag j - sgn n * x| → sgn n' * t.codeMag j ≠ sgn n * t.codeMag c →
        c % 2 = 0)) :
    RoundsTo (.tap t) r (sgn n * x) (t.signCode n c) := by
  have hlt := h.le_top.mp hc
  obtain ⟨hfin, hratio⟩ := h.ratio_signCode n hlt hc0
  have hsgn : sgn n ≠ 0 := by cases n <;> simp [sgn]
  refine ⟨h.signCode_lt n hlt hc0, hfin, fun hzero => absurd hzero (mul_ne_zero hsgn hx.ne'), fun _ => ⟨?_, ?_⟩⟩
  · rw [hratio]
    exact mul_ne_zero hsgn (h.codeMag_pos hc hc0).ne'
  · rw [hratio]
    refine h.each (P := fun z => z ≠ 0 → |sgn n * t.codeMag c - sgn n * x| ≤ |z - sgn n * x| ∧
      (|sgn n * t.codeMag c - sgn n * x| = |z - sgn n * x| → z ≠ sgn n * t.codeMag c → t.signCode n c % 2 = 0))
      (fun h0 => absurd rfl h0) (fun n' j hj hj0 _ => ?_)
    rw [h.parity n hlt]
    exact hnearest n' j (h.le_top.mpr hj) hj0

/-- The rounding of a number to a tapered format (02 R57). -/
theorem Tapered.Shape.roundsTo (r : Rounding) (n : Bool) {m : ℕ} (hm : m ≠ 0) (e : ℤ) :
    RoundsTo (.tap t) r (sgn n * mag m e) (t.round n m e).1 := by
  have hx := mag_pos hm e
  have hone := h.one_le_top
  have hpos := h.codeMag_pos hone one_ne_zero
  have hmono {i j : ℕ} (hij : i < j) (hj : j ≤ t.top) : t.codeMag i < t.codeMag j := h.codeMag_lt hij (h.le_top.mp hj)
  rcases lt_or_ge (mag m e) (t.codeMag 1) with hlo | hlo
  · rw [t.round_low n hlo]
    refine h.roundsTo_signCode r n hx hone one_ne_zero (fun n' j hj hj0 => h.nearest_clamped n hx ?_ ?_ n' hj hj0)
    · intro j hj hj0 hj1
      have := hmono (show 1 < j by omega) hj
      rw [abs_of_pos (by linarith), abs_of_pos (by linarith)]
      linarith
    · rw [abs_of_pos (by linarith)]
      linarith
  rcases lt_or_ge (t.codeMag t.top) (mag m e) with hhi | hhi
  · rw [h.round_high n hhi]
    refine h.roundsTo_signCode r n hx le_rfl (by omega) (fun n' j hj hj0 => h.nearest_clamped n hx ?_ ?_ n' hj hj0)
    · intro j hj hj0 hjt
      have := hmono (show j < t.top by omega) le_rfl
      rw [abs_of_neg (by linarith), abs_of_neg (by linarith)]
      linarith
    · have := h.codeMag_pos (c := t.top) le_rfl (by omega)
      rw [abs_of_neg (by linarith)]
      linarith
  · obtain ⟨c, hgrid, hc1, hctop, hround⟩ := h.round_inside n hlo hhi
    rw [hround]
    refine h.roundsTo_signCode r n hx hctop (by omega) (fun n' j hj hj0 => ?_)
    have := hgrid.nearest_signed h.grid_strictMono t.grid_zero hx n' j
    rwa [grid_of_le hctop, grid_of_le hj] at this

/-! ## The flags -/

theorem Tapered.Shape.ratio_value {c : ℕ} (hc : c ≤ t.top) (hc0 : c ≠ 0) : ratio (t.value c) = t.codeMag c := by
  have := (h.ratio_signCode false (h.le_top.mp hc) hc0).2
  rwa [sgn, if_neg Bool.false_ne_true, one_mul] at this

/-- The flags of a rounding to a tapered format (02 R57, Table 02-3). -/
theorem Tapered.Shape.round_flags (r : Rounding) (n : Bool) (m : ℕ) (e : ℤ) :
    (t.round n m e).2 = roundingFlags (.tap t) r (sgn n * mag m e) (t.round n m e).1 := by
  have hone := h.one_le_top
  have hmono : t.codeMag 1 ≤ t.codeMag t.top := by
    rw [← grid_of_le hone, ← grid_of_le le_rfl]
    exact h.grid_strictMono.monotone hone
  have hsgn : sgn n ≠ 0 := by cases n <;> simp [sgn]
  have hexact {c : ℕ} (hc : c ≤ t.top) (hc0 : c ≠ 0) :
      (isFinite ((FloatFmt.tap t).value (t.signCode n c)) = true ∧ ratio ((FloatFmt.tap t).value (t.signCode n c)) = sgn n * mag m e) ↔
        t.codeMag c = mag m e := by
    obtain ⟨hfin, hratio⟩ := h.ratio_signCode n (h.le_top.mp hc) hc0
    rw [hratio, and_iff_right hfin, mul_right_inj' hsgn]
  simp only [roundingFlags, h.ratio_value hone one_ne_zero, show 2 ^ (t.n - 1) - 1 = t.top from rfl,
    h.ratio_value le_rfl (show t.top ≠ 0 by omega), abs_sgn_mul n (mag_nonneg m e), decide_eq_true_eq]
  rcases lt_or_ge (mag m e) (t.codeMag 1) with hlo | hlo
  · rw [t.round_low n hlo, if_neg (by rw [hexact hone one_ne_zero]; exact hlo.ne'), if_neg (by linarith), if_pos hlo]
  rcases lt_or_ge (t.codeMag t.top) (mag m e) with hhi | hhi
  · rw [h.round_high n hhi, if_neg (by rw [hexact le_rfl (by omega)]; exact hhi.ne), if_pos hhi, if_neg (by linarith)]
  · obtain ⟨c, hgrid, hc1, hctop, hround⟩ := h.round_inside n hlo hhi
    rw [hround, if_neg (not_lt.mpr hhi), if_neg (not_lt.mpr hlo)]
    simp only [hexact hctop (show c ≠ 0 by omega)]

end Shape

end Sys2Proof.Machine
end

section
/-! SUPPORT. The rounding that ends a floating operation (02 R42, R57, Table 02-3), for every destination type. -/

namespace Sys2Proof.Machine

open Sys2Proof Sys2Proof.Claims

/-- A format that operations round to, with its code: a binary one with IEEE's exponent codes, or a tapered one. -/
inductive RoundedFmt : FloatFmt → ℕ → Prop where
  | bin (b : Binary) (code : ℕ) (h : b.Ieee) (nan : b.nanCode = canonicalNan code) : RoundedFmt (.bin b) code
  | tap (t : Tapered) (code : ℕ) (h : t.Shape) (nan : t.nar = canonicalNan code) : RoundedFmt (.tap t) code

theorem roundedFmt_of_code {code : ℕ} {f : FloatFmt} (hcode : code < 6) (hf : floatFmt code = some f) : RoundedFmt f code := by
  have hcases : code = 0 ∨ code = 1 ∨ code = 2 ∨ code = 3 ∨ code = 4 ∨ code = 5 := by omega
  rcases hcases with rfl | rfl | rfl | rfl | rfl | rfl
  · cases hf
    exact .bin _ _ Binary.ieee_f32 rfl
  · cases hf
    exact .bin _ _ Binary.ieee_f16 rfl
  · cases hf
    exact .bin _ _ Binary.ieee_bf16 rfl
  · cases hf
    exact .tap _ _ Tapered.shape_t16 rfl
  · cases hf
    exact .tap _ _ Tapered.shape_t32 rfl
  · cases hf
    exact .tap _ _ Tapered.shape_t8 rfl

theorem floatFmt_of_isType {w : BitVec 3} (hw : isType w = true) : w.toNat < 6 ∧ floatFmt w.toNat = some (typeFmt w) := by
  revert w
  decide

theorem roundedFmt_of_isType {w : BitVec 3} (hw : isType w = true) : RoundedFmt (typeFmt w) w.toNat :=
  roundedFmt_of_code (floatFmt_of_isType hw).1 (floatFmt_of_isType hw).2

/-! ## Zero -/

theorem Tapered.value_zero (t : Tapered) : t.value 0 = .num false 0 0 := by simp [value, lowN]

/-- A zero keeps its sign and is exact. -/
theorem Binary.Ieee.value_signBit {b : Binary} (h : b.Ieee) (n : Bool) :
    b.signBit n < 2 ^ (FloatFmt.bin b).width ∧ isFinite ((FloatFmt.bin b).value (b.signBit n)) = true ∧
      ratio ((FloatFmt.bin b).value (b.signBit n)) = 0 ∧ ((FloatFmt.bin b).value (b.signBit n)).neg = n := by
  have hpos : 0 < b.overCode := (Nat.two_pow_pos _).trans h.codes.normal
  have hlt := h.codes.code_lt n hpos
  have hfin := h.codes.isFinite_code n hpos
  have hratio := h.codes.ratio_code n hpos
  have hneg := h.codes.neg_code n hpos
  rw [Nat.add_zero] at hlt hfin hratio hneg
  rw [b.grid_zero, mul_zero] at hratio
  exact ⟨hlt, hfin, hratio, hneg⟩

theorem overflowFrom_pos (b : Binary) : 0 < overflowFrom b := by
  have : (1 : ℚ) < 2 ^ (b.fb + 2) := one_lt_pow₀ one_lt_two (by omega)
  unfold overflowFrom
  exact mul_pos (by linarith) (by positivity)

/-- Zero rounds to a code of zero. -/
theorem Binary.Ieee.roundsTo_zero {b : Binary} (h : b.Ieee) (r : Rounding) (n : Bool) : RoundsTo (.bin b) r 0 (b.signBit n) := by
  obtain ⟨hlt, hfin, hratio, -⟩ := h.value_signBit n
  refine ⟨hlt, ?_⟩
  cases r with
  | rne =>
    simp only [abs_zero, if_pos (overflowFrom_pos b), hratio, sub_self, sub_zero]
    exact ⟨hfin, fun k _ _ => ⟨abs_nonneg _, fun heq hne => absurd (abs_eq_zero.mp heq.symm) hne⟩⟩
  | rz =>
    simp only [hratio, abs_zero]
    exact ⟨hfin, by norm_num, le_rfl, fun _ _ _ hz => hz⟩
  | ru =>
    simp only [hratio, if_pos hfin]
    exact ⟨le_rfl, fun _ _ _ hz => hz⟩
  | rd =>
    simp only [hratio, if_pos hfin]
    exact ⟨le_rfl, fun _ _ _ hz => hz⟩

theorem Tapered.roundsTo_zero (t : Tapered) (r : Rounding) : RoundsTo (.tap t) r 0 0 := by
  refine ⟨Nat.two_pow_pos _, ?_, fun _ => rfl, fun hne => absurd rfl hne⟩
  show isFinite (t.value 0) = true
  rw [t.value_zero]
  rfl

theorem ratio_num_zero (n : Bool) (e : ℤ) : ratio (.num n 0 e) = 0 := by rw [ratio_num, mag_zero, mul_zero]

theorem roundingFlags_exact {f : FloatFmt} {r : Rounding} {x : ℚ} {c : ℕ} (hfin : isFinite (f.value c) = true)
    (hratio : ratio (f.value c) = x) : roundingFlags f r x c = 0 := if_pos ⟨hfin, hratio⟩

/-! ## Every number -/

/-- A number rounds to a code, with exactly the flags of its rounding and the number's sign. -/
theorem RoundedFmt.encode_num {f : FloatFmt} {code : ℕ} (h : RoundedFmt f code) (r : Rounding) (n : Bool) (m : ℕ) (e : ℤ) :
    RoundsTo f r (ratio (.num n m e)) (f.encode r (.num n m e)).1 ∧
      (f.encode r (.num n m e)).2 = roundingFlags f r (ratio (.num n m e)) (f.encode r (.num n m e)).1 ∧
      (f.isTapered = false → (f.value (f.encode r (.num n m e)).1).neg = n) := by
  by_cases hm : m = 0
  · subst hm
    rw [ratio_num_zero]
    cases h with
    | bin b code h nan =>
      obtain ⟨hlt, hfin, hratio, hneg⟩ := h.value_signBit n
      exact ⟨h.roundsTo_zero r n, (roundingFlags_exact hfin hratio).symm, fun _ => hneg⟩
    | tap t code h nan =>
      refine ⟨t.roundsTo_zero r, (roundingFlags_exact ?_ ?_).symm, fun htap => by cases htap⟩
      · show isFinite (t.value 0) = true
        rw [t.value_zero]
        rfl
      · show ratio (t.value 0) = 0
        rw [t.value_zero, ratio_num_zero]
  · rw [ratio_num]
    cases h with
    | bin b code h nan =>
      have hencode : (FloatFmt.bin b).encode r (.num n m e) = b.round r n m e := if_neg hm
      rw [hencode]
      exact ⟨h.roundsTo r n hm e, h.round_flags r n hm e, fun _ => h.round_neg r n m e⟩
    | tap t code h nan =>
      have hencode : (FloatFmt.tap t).encode r (.num n m e) = t.round n m e := if_neg hm
      rw [hencode]
      exact ⟨h.roundsTo r n hm e, h.round_flags r n m e, fun htap => by cases htap⟩

theorem RoundedFmt.nan_eq {f : FloatFmt} {code : ℕ} (h : RoundedFmt f code) : f.nan = canonicalNan code := by
  cases h with
  | bin b code h nan => exact nan
  | tap t code h nan => exact nan

/-- A NaN ends as the canonical one, or NaR. -/
theorem RoundedFmt.finish_nan {f : FloatFmt} {code : ℕ} (h : RoundedFmt f code) (r : Rounding) (s : Bool) (nv : ℕ) :
    finish f r (.nan s, nv) = (canonicalNan code, nv ||| if s then 1 else 0) := by
  rw [← h.nan_eq]
  cases f <;> rfl

/-- An infinity ends as its own, and in a tapered format as NaR. -/
theorem RoundedFmt.finish_inf {f : FloatFmt} {code : ℕ} (h : RoundedFmt f code) (r : Rounding) (n : Bool) (nv : ℕ) :
    if f.isTapered then finish f r (.inf n, nv) = (canonicalNan code, nv ||| 1)
    else (finish f r (.inf n, nv)).1 < 2 ^ f.width ∧ f.value (finish f r (.inf n, nv)).1 = .inf n ∧
      (finish f r (.inf n, nv)).2 = nv := by
  cases h with
  | bin b code h nan => exact ⟨h.code_lt_inf n, h.value_inf n, Nat.or_zero nv⟩
  | tap t code h nan =>
    rw [← nan]
    rfl

/-- The rounding that ends an operation (02 R42, R57, Table 02-3). -/
theorem finish_rounds {code : ℕ} {f : FloatFmt} (r : Rounding) (nv : ℕ) (hcode : code < 6) (hf : floatFmt code = some f) :
    (∀ (n : Bool) (m : Nat) (e : Int),
       let x := ratio (.num n m e)
       let p := finish f r (.num n m e, nv)
       RoundsTo f r x p.1 ∧ p.2 = nv ||| roundingFlags f r x p.1 ∧ (f.isTapered = false → (f.value p.1).neg = n)) ∧
     (∀ (s : Bool), finish f r (.nan s, nv) = (canonicalNan code, nv ||| if s then 1 else 0)) ∧
     (∀ (n : Bool),
       let p := finish f r (.inf n, nv)
       if f.isTapered then p = (canonicalNan code, nv ||| 1) else p.1 < 2 ^ f.width ∧ f.value p.1 = .inf n ∧ p.2 = nv) := by
  have h := roundedFmt_of_code hcode hf
  refine ⟨fun n m e => ?_, fun s => h.finish_nan r s nv, fun n => h.finish_inf r n nv⟩
  obtain ⟨hrounds, hflags, hneg⟩ := h.encode_num r n m e
  exact ⟨hrounds, congrArg (nv ||| ·) hflags, hneg⟩

end Sys2Proof.Machine
end

section
/-! SUPPORT. The exact operations (05 R112; 02 R58): sums and products as rational numbers. -/

namespace Sys2Proof.Machine

open Sys2Proof Sys2Proof.Claims

/-! ## Sums -/

/-- A number in units of 2^x. -/
theorem ratio_units (n : Bool) {m : ℕ} {e x : ℤ} (h : m ≠ 0 → x ≤ e) :
    ratio (.num n m e) = (signed n (scaleUp m (e - x)) : ℚ) * 2 ^ x := by
  rw [ratio_num, ← sgn_mul_natCast, mul_assoc]
  by_cases hm : m = 0
  · simp [hm, mag_zero, scaleUp]
  · rw [mag_eq_units m (h hm)]

/-- The least exponent, as the fold goes on. -/
def leastExp (acc : ℤ) (v : Val) : ℤ :=
  match v with
  | .num _ m e => if m = 0 then acc else min acc e
  | _ => acc

theorem leastExp_le (acc : ℤ) (v : Val) : leastExp acc v ≤ acc := by
  unfold leastExp
  split
  · split_ifs
    · exact le_rfl
    · exact min_le_left _ _
  · exact le_rfl

theorem foldl_leastExp_le (l : List Val) (acc : ℤ) : l.foldl leastExp acc ≤ acc := by
  induction l generalizing acc with
  | nil => exact le_rfl
  | cons v l ih => exact (ih _).trans (leastExp_le acc v)

theorem foldl_leastExp_le_exp {l : List Val} {n : Bool} {m : ℕ} {e : ℤ} (hmem : .num n m e ∈ l) (hm : m ≠ 0) (acc : ℤ) :
    l.foldl leastExp acc ≤ e := by
  induction l generalizing acc with
  | nil => cases hmem
  | cons v l ih =>
    rcases List.mem_cons.mp hmem with rfl | hmem
    · refine (foldl_leastExp_le l _).trans ?_
      rw [leastExp, if_neg hm]
      exact min_le_right _ _
    · exact ih hmem _

/-- The sum in units, as the fold goes on. -/
def addUnits (e : ℤ) (acc : ℤ) (v : Val) : ℤ :=
  match v with
  | .num n m x => acc + signed n (scaleUp m (x - e))
  | _ => acc

theorem sumExact_eq (l : List Val) (e : ℤ) : sumExact l e = l.foldl (addUnits e) 0 := rfl

/-- The sum of numbers, in units of 2^e. -/
theorem foldl_addUnits {l : List Val} {e : ℤ} (hfin : ∀ v ∈ l, isFinite v = true)
    (he : ∀ n m x, .num n m x ∈ l → m ≠ 0 → e ≤ x) (acc : ℤ) :
    ((l.foldl (addUnits e) acc : ℤ) : ℚ) * 2 ^ e = acc * 2 ^ e + (l.map ratio).sum := by
  induction l generalizing acc with
  | nil => simp
  | cons v l ih =>
    have hv := hfin v (by simp)
    cases v with
    | num n m x =>
      rw [List.foldl_cons, ih (fun u hu => hfin u (by simp [hu])) (fun n' m' x' hmem => he n' m' x' (by simp [hmem])),
        List.map_cons, List.sum_cons, ratio_units n (he n m x (by simp)), addUnits]
      push_cast
      ring
    | inf n => cases hv
    | nan s => cases hv

/-- The exact sum of numbers. -/
theorem sumExact_minExp {l : List Val} (hfin : ∀ v ∈ l, isFinite v = true) :
    ((sumExact l (minExp l) : ℤ) : ℚ) * 2 ^ minExp l = (l.map ratio).sum := by
  have hexp (n : Bool) (m : ℕ) (x : ℤ) (hmem : .num n m x ∈ l) (hm : m ≠ 0) : minExp l ≤ x := foldl_leastExp_le_exp hmem hm 0
  rw [sumExact_eq, foldl_addUnits hfin hexp, Int.cast_zero, zero_mul, zero_add]

/-! ## The operands of a sum -/

theorem any_isNan {l : List Val} : l.any Val.isNan = true ↔ ∃ v ∈ l, v.isNan = true := List.any_eq_true

theorem isSig_iff {v : Val} : v.isSig = true ↔ v = .nan true := by
  cases v with
  | nan s => simp [Val.isSig]
  | inf n => simp [Val.isSig]
  | num n m e => simp [Val.isSig]

/-- NV of a signalling NaN among some operands. -/
theorem flag_any_isSig (l : List Val) : (if l.any Val.isSig then flagNV else 0) = invalid (∃ v ∈ l, v = .nan true) := by
  have : l.any Val.isSig = true ↔ ∃ v ∈ l, v = .nan true := by simp only [List.any_eq_true, isSig_iff]
  unfold invalid
  simp only [this]
  rfl

theorem isInf_and_neg {v : Val} : (v.isInf && v.neg) = true ↔ v = .inf true := by
  cases v <;> simp [Val.isInf, Val.neg]

theorem isInf_and_not_neg {v : Val} : (v.isInf && !v.neg) = true ↔ v = .inf false := by
  cases v <;> simp [Val.isInf, Val.neg]

theorem any_minus {l : List Val} : l.any (fun v => v.isInf && v.neg) = true ↔ Val.inf true ∈ l := by
  simp only [List.any_eq_true, isInf_and_neg, exists_eq_right]

theorem any_plus {l : List Val} : l.any (fun v => v.isInf && !v.neg) = true ↔ Val.inf false ∈ l := by
  simp only [List.any_eq_true, isInf_and_not_neg, exists_eq_right]

theorem any_isInf {l : List Val} : l.any Val.isInf = true ↔ Val.inf true ∈ l ∨ Val.inf false ∈ l := by
  rw [List.any_eq_true]
  constructor
  · rintro ⟨v, hv, hinf⟩
    cases v with
    | inf n => cases n
               · exact .inr hv
               · exact .inl hv
    | num n m e => cases hinf
    | nan s => cases hinf
  · rintro (h | h)
    · exact ⟨_, h, rfl⟩
    · exact ⟨_, h, rfl⟩

theorem ratio_sum_value (s : ℤ) (e : ℤ) : ratio (.num (decide (s < 0)) s.natAbs e) = s * 2 ^ e := by
  rw [ratio_num, mag, ← mul_assoc, sgn_mul_natCast]
  congr 2
  unfold signed
  by_cases hs : s < 0
  · rw [decide_eq_true hs, if_pos rfl]
    omega
  · rw [decide_eq_false hs, if_neg Bool.false_ne_true]
    omega

theorem all_zero_neg {l : List Val} : l.all (fun v => v.isZero && v.neg) = true ↔ ∀ v ∈ l, v.isZero = true ∧ v.neg = true := by
  simp only [List.all_eq_true, Bool.and_eq_true]

theorem all_zero_pos {l : List Val} : l.all (fun v => v.isZero && !v.neg) = true ↔ ∀ v ∈ l, v.isZero = true ∧ v.neg = false := by
  simp only [List.all_eq_true, Bool.and_eq_true, Bool.not_eq_true']

/-- The exact sum is that of 05 R112. -/
theorem addExact_sumOf (r : Rounding) (l : List Val) : SumOf r l (addExact r l) := by
  unfold SumOf addExact
  simp only [flag_any_isSig, any_isNan, Bool.and_eq_true, any_minus, any_plus, any_isInf]
  by_cases hnan : ∃ v ∈ l, v.isNan = true
  · rw [if_pos hnan, if_pos hnan]
  rw [if_neg hnan, if_neg hnan]
  by_cases hboth : Val.inf true ∈ l ∧ Val.inf false ∈ l
  · rw [if_pos hboth, if_pos hboth]
    rfl
  rw [if_neg hboth, if_neg hboth]
  by_cases hminus : Val.inf true ∈ l
  · rw [if_pos hminus, if_pos (.inl hminus), any_minus.mpr hminus]
  rw [if_neg hminus]
  by_cases hplus : Val.inf false ∈ l
  · have hno : l.any (fun v => v.isInf && v.neg) = false := by rwa [← Bool.not_eq_true, any_minus]
    rw [if_pos hplus, if_pos (.inr hplus), hno]
  rw [if_neg hplus, if_neg (not_or.mpr ⟨hminus, hplus⟩)]
  have hfin : ∀ v ∈ l, isFinite v = true := by
    intro v hv
    cases v with
    | num n m e => rfl
    | nan s => exact absurd ⟨_, hv, rfl⟩ hnan
    | inf n => cases n
               · exact absurd hv hplus
               · exact absurd hv hminus
  have hsum := sumExact_minExp hfin
  by_cases hs : sumExact l (minExp l) = 0
  · rw [hs, Int.cast_zero, zero_mul] at hsum
    simp only [hs, if_true, all_zero_neg, all_zero_pos, ← hsum]
    split_ifs
    · exact ⟨rfl, rfl, ratio_num_zero _ _, fun _ => rfl⟩
    · exact ⟨rfl, rfl, ratio_num_zero _ _, fun _ => rfl⟩
    · exact ⟨rfl, rfl, ratio_num_zero _ _, fun _ => rfl⟩
  · rw [if_neg hs]
    refine ⟨rfl, rfl, (ratio_sum_value _ _).trans hsum, fun hzero => absurd hzero ?_⟩
    rw [← hsum]
    exact mul_ne_zero (Int.cast_ne_zero.mpr hs) (by positivity)

/-! ## Products and signs -/

/-- The exact product is that of 05 R112. -/
theorem mulExact_productOf (x y : Val) : ProductOf x y (mulExact x y) := by
  cases x with
  | nan s =>
    rw [ProductOf, if_pos (.inl rfl)]
    cases y <;> simp [mulExact, invalid, Val.isSig, flagNV]
  | inf n =>
    cases y with
    | nan s => simp [ProductOf, mulExact, invalid, Val.isNan, flagNV]
    | inf k => simp [ProductOf, mulExact, Val.isNan, Val.isInf, Val.isZero, Val.neg]
    | num k m e =>
      by_cases hm : m = 0
      · simp [ProductOf, mulExact, Val.isNan, Val.isInf, Val.isZero, hm, flagNV]
      · simp [ProductOf, mulExact, Val.isNan, Val.isInf, Val.isZero, Val.neg, hm]
  | num n m e =>
    cases y with
    | nan s => simp [ProductOf, mulExact, invalid, Val.isNan, flagNV]
    | inf k =>
      by_cases hm : m = 0
      · simp [ProductOf, mulExact, Val.isNan, Val.isInf, Val.isZero, hm, flagNV]
      · simp [ProductOf, mulExact, Val.isNan, Val.isInf, Val.isZero, Val.neg, hm]
    | num k m' e' =>
      have hratio : ratio (.num (n != k) (m * m') (e + e')) = ratio (.num n m e) * ratio (.num k m' e') := by
        have hsgn : sgn (n != k) = sgn n * sgn k := by cases n <;> cases k <;> simp [sgn]
        rw [ratio_num, ratio_num, ratio_num, hsgn, mag, mag, mag, zpow_add₀ two_ne_zero]
        push_cast
        ring
      simp [ProductOf, mulExact, Val.isNan, Val.isInf, isFinite, hratio, Val.neg]

/-- A value with its sign flipped. -/
theorem negate_spec (v : Val) : v.negate.isNan = v.isNan ∧ v.negate.isSig = v.isSig ∧ v.negate.isInf = v.isInf ∧
    ratio v.negate = -ratio v ∧ (v.isNan = false → v.negate.neg = !v.neg) := by
  cases v with
  | nan s => exact ⟨rfl, rfl, rfl, by simp [ratio, Val.negate], fun h => by cases h⟩
  | inf n => exact ⟨rfl, rfl, rfl, by simp [ratio, Val.negate], fun _ => rfl⟩
  | num n m e =>
    have hsgn : sgn (!n) = -sgn n := by cases n <;> simp [sgn]
    exact ⟨rfl, rfl, rfl, by rw [Val.negate, ratio_num, ratio_num, hsgn, neg_mul], fun _ => rfl⟩

end Sys2Proof.Machine
end

section
/-! SUPPORT. The least and the greatest of some operands (05 R113; 02 R59), rounded into a type. -/

namespace Sys2Proof.Machine

open Sys2Proof Sys2Proof.Claims

/-! ## The order of values -/

/-- The place of a number in the order of values: by its value, then minus zero before plus zero. -/
def Val.place (v : Val) : ℚ ×ₗ Bool := toLex (ratio v, !v.neg)

/-- The place of a value that is no NaN, the infinities at both ends. -/
def Val.key (v : Val) : WithBot (WithTop (ℚ ×ₗ Bool)) :=
  match v with
  | .inf true => ⊥
  | .inf false => ((⊤ : WithTop (ℚ ×ₗ Bool)) : WithBot (WithTop (ℚ ×ₗ Bool)))
  | v => ((v.place : WithTop (ℚ ×ₗ Bool)) : WithBot (WithTop (ℚ ×ₗ Bool)))

theorem key_num (n : Bool) (m : ℕ) (e : ℤ) :
    (Val.num n m e).key = (((Val.num n m e).place : WithTop (ℚ ×ₗ Bool)) : WithBot (WithTop (ℚ ×ₗ Bool))) := rfl

theorem place_le_iff {x y : Val} : x.place ≤ y.place ↔ ratio x < ratio y ∨ ratio x = ratio y ∧ (x.neg = true ∨ y.neg = false) := by
  rw [Val.place, Val.place, Prod.Lex.toLex_le_toLex]
  cases x.neg <;> cases y.neg <;> simp

theorem place_lt_iff {x y : Val} : x.place < y.place ↔ ratio x < ratio y ∨ ratio x = ratio y ∧ x.neg = true ∧ y.neg = false := by
  rw [Val.place, Val.place, Prod.Lex.toLex_lt_toLex]
  cases x.neg <;> cases y.neg <;> simp

theorem atMost_iff {x y : Val} (hx : x.isNan = false) (hy : y.isNan = false) : AtMost x y ↔ x.key ≤ y.key := by
  cases x with
  | nan s => cases hx
  | inf n =>
    cases n with
    | true => exact iff_of_true trivial bot_le
    | false =>
      cases y with
      | nan s => cases hy
      | inf k =>
        cases k with
        | true => exact iff_of_false id (by simp [Val.key])
        | false => exact iff_of_true trivial le_rfl
      | num k m e => exact iff_of_false id (by simp [Val.key])
  | num n m e =>
    cases y with
    | nan s => cases hy
    | inf k =>
      cases k with
      | true => exact iff_of_false id (by simp [Val.key])
      | false => exact iff_of_true trivial (by simp [Val.key])
    | num k m' e' =>
      rw [key_num, key_num, WithBot.coe_le_coe, WithTop.coe_le_coe, place_le_iff]
      rfl

theorem cmpVal_num_lt {n k : Bool} {m m' : ℕ} {e e' : ℤ} :
    cmpVal (.num n m e) (.num k m' e') = .lt ↔ ratio (.num n m e) < ratio (.num k m' e') := by
  rw [cmpVal, compare_lt_iff_lt, ratio_units n (fun _ => min_le_left e e'), ratio_units k (fun _ => min_le_right e e'),
    mul_lt_mul_iff_of_pos_right (by positivity), Int.cast_lt]

theorem cmpVal_num_eq {n k : Bool} {m m' : ℕ} {e e' : ℤ} :
    cmpVal (.num n m e) (.num k m' e') = .eq ↔ ratio (.num n m e) = ratio (.num k m' e') := by
  rw [cmpVal, compare_eq_iff_eq, ratio_units n (fun _ => min_le_left e e'), ratio_units k (fun _ => min_le_right e e'),
    mul_left_inj' (by positivity), Int.cast_inj]

theorem numberBelow_iff {x y : Val} (hx : x.isNan = false) (hy : y.isNan = false) :
    numberBelow x y = true ↔ x.key < y.key := by
  cases x with
  | nan s => cases hx
  | inf n =>
    cases y with
    | nan s => cases hy
    | inf k => cases n <;> cases k <;> simp [numberBelow, cmpVal, Val.key, Val.neg]
    | num k m e => cases n <;> simp [numberBelow, cmpVal, Val.key]
  | num n m e =>
    cases y with
    | nan s => cases hy
    | inf k =>
      cases k with
      | true => simp [numberBelow, cmpVal, Val.key]
      | false => exact iff_of_true rfl (WithBot.coe_lt_coe.mpr (WithTop.coe_lt_top _))
    | num k m' e' =>
      rw [key_num, key_num, WithBot.coe_lt_coe, WithTop.coe_lt_coe, place_lt_iff, ← cmpVal_num_lt, ← cmpVal_num_eq, numberBelow]
      cases cmpVal (.num n m e) (.num k m' e') <;> simp

/-- A value whose zero has no sign: those of the tapered formats. -/
def Unsigned (v : Val) : Prop := isFinite v = true → v.neg = decide (ratio v < 0)

theorem cmpVal_lt_iff {x y : Val} (hx : isFinite x = true) (hy : isFinite y = true) (ux : Unsigned x) (uy : Unsigned y) :
    cmpVal x y = .lt ↔ x.key < y.key := by
  cases x with
  | nan s => cases hx
  | inf n => cases hx
  | num n m e =>
    cases y with
    | nan s => cases hy
    | inf k => cases hy
    | num k m' e' =>
      rw [key_num, key_num, WithBot.coe_lt_coe, WithTop.coe_lt_coe, place_lt_iff, cmpVal_num_lt]
      refine (or_iff_left ?_).symm
      rintro ⟨heq, hn, hk⟩
      have hneg := ux hx
      rw [heq, ← uy hy, hn, hk] at hneg
      cases hneg

/-! ## The extreme of two and of many -/

/-- A value comes before another in the direction asked for. -/
def Ordered (greatest : Bool) (x y : Val) : Prop := if greatest then AtMost y x else AtMost x y

theorem Ordered.trans {g : Bool} {x y z : Val} (hx : x.isNan = false) (hy : y.isNan = false) (hz : z.isNan = false)
    (h : Ordered g x y) (h' : Ordered g y z) : Ordered g x z := by
  cases g with
  | true => exact (atMost_iff hz hx).mpr (((atMost_iff hz hy).mp h').trans ((atMost_iff hy hx).mp h))
  | false => exact (atMost_iff hx hz).mpr (((atMost_iff hx hy).mp h).trans ((atMost_iff hy hz).mp h'))

theorem Ordered.refl {g : Bool} {x : Val} (hx : x.isNan = false) : Ordered g x x := by
  cases g <;> exact (atMost_iff hx hx).mpr le_rfl

/-- The choice of one of two values by their order. -/
theorem ordered_choice {g below : Bool} {x y : Val} (hx : x.isNan = false) (hy : y.isNan = false)
    (h : below = true ↔ x.key < y.key) :
    ((if below != g then x else y) = x ∧ Ordered g x y) ∨ ((if below != g then x else y) = y ∧ Ordered g y x) := by
  have hle : below = true → x.key ≤ y.key := fun hb => (h.mp hb).le
  have hge : below = false → y.key ≤ x.key := fun hb => not_lt.mp (fun hlt => by simp [h.mpr hlt] at hb)
  cases below with
  | true =>
    cases g with
    | true => exact .inr ⟨rfl, (atMost_iff hx hy).mpr (hle rfl)⟩
    | false => exact .inl ⟨rfl, (atMost_iff hx hy).mpr (hle rfl)⟩
  | false =>
    cases g with
    | true => exact .inl ⟨rfl, (atMost_iff hy hx).mpr (hge rfl)⟩
    | false => exact .inr ⟨rfl, (atMost_iff hy hx).mpr (hge rfl)⟩

/-- A value is an extreme of some operands: one of them that is a number or an infinity, at none of which it comes behind. -/
structure IsExtreme (g : Bool) (l : List Val) (z : Val) : Prop where
  mem : z ∈ l
  proper : z.isNan = false
  first : ∀ y ∈ l, y.isNan = false → Ordered g z y

theorem IsExtreme.singleton {g : Bool} {v : Val} (hv : v.isNan = false) : IsExtreme g [v] v :=
  ⟨by simp, hv, fun y hy _ => by rw [List.mem_singleton.mp hy]; exact .refl hv⟩

/-- One more operand: a NaN changes nothing. -/
theorem IsExtreme.append_nan {g : Bool} {l : List Val} {z u : Val} (h : IsExtreme g l z) (hu : u.isNan = true) :
    IsExtreme g (l ++ [u]) z := by
  refine ⟨by simp [h.mem], h.proper, fun y hy hyn => ?_⟩
  rcases List.mem_append.mp hy with hy | hy
  · exact h.first y hy hyn
  · rw [List.mem_singleton.mp hy, hu] at hyn
    cases hyn

/-- One more operand, after NaNs alone. -/
theorem IsExtreme.of_nans {g : Bool} {l : List Val} {u : Val} (h : ∀ y ∈ l, y.isNan = true) (hu : u.isNan = false) :
    IsExtreme g (l ++ [u]) u := by
  refine ⟨by simp, hu, fun y hy hyn => ?_⟩
  rcases List.mem_append.mp hy with hy | hy
  · rw [h y hy] at hyn
    cases hyn
  · rw [List.mem_singleton.mp hy]
    exact .refl hu

/-- One more operand that is no NaN: the extreme of it and of the extreme before. -/
theorem IsExtreme.append {g below : Bool} {l : List Val} {z u : Val} (h : IsExtreme g l z) (hu : u.isNan = false)
    (hb : below = true ↔ z.key < u.key) : IsExtreme g (l ++ [u]) (if below != g then z else u) := by
  rcases ordered_choice (g := g) h.proper hu hb with ⟨heq, hord⟩ | ⟨heq, hord⟩
  · rw [heq]
    refine ⟨by simp [h.mem], h.proper, fun y hy hyn => ?_⟩
    rcases List.mem_append.mp hy with hy | hy
    · exact h.first y hy hyn
    · rw [List.mem_singleton.mp hy]
      exact hord
  · rw [heq]
    refine ⟨by simp, hu, fun y hy hyn => ?_⟩
    rcases List.mem_append.mp hy with hy | hy
    · exact hord.trans hu h.proper hyn (h.first y hy hyn)
    · rw [List.mem_singleton.mp hy]
      exact .refl hu

/-! ## Binary types: a NaN gives way -/

/-- The extreme of some operands of a binary type: a NaN where all are, and then the canonical one for its rounding. -/
def BinaryExtreme (g : Bool) (l : List Val) (z : Val) : Prop :=
  ((∀ y ∈ l, y.isNan = true) ∧ z.isNan = true ∧ (z = .nan true → z ∈ l)) ∨ IsExtreme g l z

theorem BinaryExtreme.singleton (g : Bool) (v : Val) : BinaryExtreme g [v] v := by
  cases hv : v.isNan with
  | true => exact .inl ⟨fun y hy => by rwa [List.mem_singleton.mp hy], hv, fun _ => by simp⟩
  | false => exact .inr (.singleton hv)

theorem BinaryExtreme.append {g : Bool} {l : List Val} {z u : Val} (h : BinaryExtreme g l z) :
    BinaryExtreme g (l ++ [u]) (minMaxNumber g z u).1 := by
  unfold minMaxNumber
  rcases h with ⟨hall, hz, -⟩ | h
  · cases hu : u.isNan with
    | true =>
      rw [if_pos hz, if_pos rfl]
      refine .inl ⟨fun y hy => ?_, rfl, fun h => by cases h⟩
      rcases List.mem_append.mp hy with hy | hy
      · exact hall y hy
      · rwa [List.mem_singleton.mp hy]
    | false =>
      rw [if_pos hz, if_neg Bool.false_ne_true]
      exact .inr (.of_nans hall hu)
  · rw [if_neg (by simp [h.proper])]
    cases hu : u.isNan with
    | true => exact .inr (h.append_nan hu)
    | false => exact .inr (h.append hu (numberBelow_iff h.proper hu))

theorem binaryExtreme_foldl (g : Bool) (t : List Val) {l : List Val} {z : Val} (h : BinaryExtreme g l z) :
    BinaryExtreme g (l ++ t) (t.foldl (fun acc u => (minMaxNumber g acc u).1) z) := by
  induction t generalizing l z with
  | nil => rwa [List.append_nil]
  | cons u t ih =>
    have := ih (h.append (u := u))
    rwa [List.append_assoc] at this

/-! ## Tapered types: NaR lies below every real -/

/-- The extreme of some operands of a tapered type. -/
def TaperedExtreme (g : Bool) (l : List Val) (z : Val) : Prop :=
  if (if g then ∀ y ∈ l, y.isNan = true else ∃ y ∈ l, y.isNan = true) then z.isNan = true
  else IsExtreme g l z

/-- A value of a tapered type: NaR, or a number whose zero has no sign. -/
def TaperedVal (v : Val) : Prop := v.isInf = false ∧ Unsigned v

theorem TaperedVal.isFinite {v : Val} (h : TaperedVal v) (hn : v.isNan = false) : isFinite v = true := by
  cases v with
  | nan s => cases hn
  | inf n => cases h.1
  | num n m e => rfl

theorem TaperedExtreme.singleton (g : Bool) (v : Val) : TaperedExtreme g [v] v := by
  unfold TaperedExtreme
  cases hv : v.isNan with
  | true => cases g <;> simp [hv]
  | false =>
    cases g
    · simpa [hv] using IsExtreme.singleton hv
    · simpa [hv] using IsExtreme.singleton hv

/-- The greater of two operands of a tapered type, after some others. -/
theorem taperedGreatest_append {l : List Val} {z u : Val} (h : TaperedExtreme true l z) (hz : TaperedVal z) (hu : TaperedVal u) :
    TaperedExtreme true (l ++ [u]) (minMaxTapered true z u) := by
  unfold TaperedExtreme at h ⊢
  simp only [if_true] at h ⊢
  unfold minMaxTapered
  by_cases hall : ∀ y ∈ l, y.isNan = true
  · rw [if_pos hall] at h
    rw [if_pos h, if_pos rfl]
    cases hun : u.isNan with
    | true => rw [if_pos]
              intro y hy
              rcases List.mem_append.mp hy with hy | hy
              · exact hall y hy
              · rwa [List.mem_singleton.mp hy]
    | false =>
      rw [if_neg (fun hall' => by simp [hall' u (by simp)] at hun)]
      exact .of_nans hall hun
  · rw [if_neg hall] at h
    rw [if_neg (fun hall' => hall (fun y hy => hall' y (by simp [hy]))), if_neg (by simp [h.proper])]
    cases hun : u.isNan with
    | true => exact h.append_nan hun
    | false =>
      refine h.append hun ?_
      rw [beq_iff_eq, cmpVal_lt_iff (hz.isFinite h.proper) (hu.isFinite hun) hz.2 hu.2]

/-- The lesser of two operands of a tapered type, after some others. -/
theorem taperedLeast_append {l : List Val} {z u : Val} (h : TaperedExtreme false l z) (hz : TaperedVal z) (hu : TaperedVal u) :
    TaperedExtreme false (l ++ [u]) (minMaxTapered false z u) := by
  unfold TaperedExtreme at h ⊢
  simp only [Bool.false_eq_true, if_false] at h ⊢
  unfold minMaxTapered
  by_cases hsome : ∃ y ∈ l, y.isNan = true
  · rw [if_pos hsome] at h
    obtain ⟨y, hy, hyn⟩ := hsome
    have hsome' : ∃ y ∈ l ++ [u], y.isNan = true := ⟨y, by simp [hy], hyn⟩
    rw [if_pos hsome', if_pos h]
    exact h
  · rw [if_neg hsome] at h
    have hzn : ¬ z.isNan = true := by simp [h.proper]
    cases hun : u.isNan with
    | true =>
      have hsome' : ∃ y ∈ l ++ [u], y.isNan = true := ⟨u, by simp, hun⟩
      rw [if_pos hsome', if_neg hzn]
      exact hun
    | false =>
      have hnone : ¬ ∃ y ∈ l ++ [u], y.isNan = true := by
        rintro ⟨y, hy, hyn⟩
        rcases List.mem_append.mp hy with hy | hy
        · exact hsome ⟨y, hy, hyn⟩
        · rw [List.mem_singleton.mp hy, hun] at hyn
          cases hyn
      rw [if_neg hnone, if_neg hzn]
      refine h.append hun ?_
      rw [beq_iff_eq, cmpVal_lt_iff (hz.isFinite h.proper) (hu.isFinite hun) hz.2 hu.2]

theorem TaperedExtreme.append {g : Bool} {l : List Val} {z u : Val} (h : TaperedExtreme g l z) (hz : TaperedVal z)
    (hu : TaperedVal u) : TaperedExtreme g (l ++ [u]) (minMaxTapered g z u) := by
  cases g
  · exact taperedLeast_append h hz hu
  · exact taperedGreatest_append h hz hu

theorem TaperedVal.minMax {z u : Val} (g : Bool) (hz : TaperedVal z) (hu : TaperedVal u) : TaperedVal (minMaxTapered g z u) := by
  unfold minMaxTapered
  split_ifs <;> assumption

theorem taperedExtreme_foldl (g : Bool) {t : List Val} (ht : ∀ v ∈ t, TaperedVal v) {l : List Val} {z : Val}
    (h : TaperedExtreme g l z) (hz : TaperedVal z) : TaperedExtreme g (l ++ t) (t.foldl (minMaxTapered g) z) := by
  induction t generalizing l z with
  | nil => rwa [List.append_nil]
  | cons u t ih =>
    have hu := ht u (by simp)
    have := ih (fun v hv => ht v (by simp [hv])) (h.append hz hu) (hz.minMax g hu)
    rwa [List.append_assoc] at this

theorem decide_ratio_neg (n : Bool) {m : ℕ} (hm : m ≠ 0) (e : ℤ) : decide (ratio (.num n m e) < 0) = n := by
  rw [ratio_num, decide_eq_decide.mpr (sgn_mul_neg_iff (mag_pos hm e))]
  cases n <;> rfl

theorem Tapered.magnitude_ne_zero (t : Tapered) (x : ℕ) : (t.magnitude x).1 ≠ 0 := by
  have : 0 < (t.magnitude x).1 := Nat.add_pos_left (Nat.two_pow_pos _) _
  omega

/-- The codes of a tapered type have such values. -/
theorem taperedVal_value (t : Tapered) (x : ℕ) : TaperedVal ((FloatFmt.tap t).value x) := by
  show TaperedVal (t.value x)
  simp only [Tapered.value]
  split_ifs with hzero hnar
  · exact ⟨rfl, fun _ => by simp [Val.neg, ratio]⟩
  · exact ⟨rfl, fun h => by cases h⟩
  all_goals exact ⟨rfl, fun _ => (decide_ratio_neg _ (t.magnitude_ne_zero _) _).symm⟩

/-! ## The results -/

/-- The rounded extreme of a binary type. -/
theorem BinaryExtreme.result {b : Binary} {g : Bool} {l : List Val} {z : Val} (hz : BinaryExtreme g l z) (r : Rounding)
    {nv : ℕ} (hnv : nv = invalid (∃ v ∈ l, v = .nan true)) :
    ExtremeResult (.bin b) r g l (((FloatFmt.bin b).encode r z).1, nv ||| ((FloatFmt.bin b).encode r z).2) := by
  subst hnv
  rcases hz with ⟨hall, hnan, hmem⟩ | hz
  · refine ⟨.nan false, ?_, ?_⟩
    · show if ∀ y ∈ l, y.isNan = true then _ else _
      rw [if_pos hall]
    · cases z with
      | num n m e => cases hnan
      | inf n => cases hnan
      | nan s =>
        cases s with
        | false => rfl
        | true =>
          have hone : invalid (∃ v ∈ l, v = .nan true) = 1 := if_pos ⟨_, hmem rfl, rfl⟩
          show _ = finish (.bin b) r (.nan false, _)
          rw [hone]
          simp [finish, FloatFmt.encode, Binary.encode, flagNV]
  · refine ⟨z, ?_, rfl⟩
    show if ∀ y ∈ l, y.isNan = true then _ else _
    rw [if_neg (fun hall => by have := hall z hz.mem; rw [hz.proper] at this; cases this)]
    exact ⟨hz.mem, hz.proper, hz.first⟩

/-- The rounded extreme of a tapered type. -/
theorem TaperedExtreme.result {t : Tapered} {g : Bool} {l : List Val} {z : Val} (hz : TaperedExtreme g l z) (r : Rounding) :
    ExtremeResult (.tap t) r g l (((FloatFmt.tap t).encode r z).1, 0) := by
  refine ⟨z, ?_, if_pos (c := (FloatFmt.tap t).isTapered = true) rfl ▸ ⟨rfl, rfl⟩⟩
  unfold TaperedExtreme at hz
  show if (if g = true then ∀ y ∈ l, y.isNan = true else ∃ y ∈ l, y.isNan = true) then _ else _
  by_cases hcond : if g = true then ∀ y ∈ l, y.isNan = true else ∃ y ∈ l, y.isNan = true
  · rw [if_pos hcond] at hz ⊢
    exact hz
  · rw [if_neg hcond] at hz ⊢
    exact ⟨hz.mem, hz.proper, hz.first⟩

theorem minMaxNumber_flags (g : Bool) (u v : Val) : (minMaxNumber g u v).2 = invalid (∃ w ∈ [u, v], w = .nan true) := by
  have hflags : (minMaxNumber g u v).2 = if [u, v].any Val.isSig then flagNV else 0 := by
    simp only [List.any_cons, List.any_nil, Bool.or_false]
    unfold minMaxNumber
    split_ifs <;> rfl
  rw [hflags, flag_any_isSig]

/-- FMIN and FMAX give the rounded extreme of their operands. -/
theorem fminmax_extreme {f : FloatFmt} {code : ℕ} (h : RoundedFmt f code) (r : Rounding) (g : Bool) {u v : Val}
    (htap : f.isTapered = true → TaperedVal u ∧ TaperedVal v) : ExtremeResult f r g [u, v] (fminmax g f r u v) := by
  cases h with
  | bin b code h nan =>
    exact ((BinaryExtreme.singleton g u).append (u := v)).result r (minMaxNumber_flags g u v)
  | tap t code h nan =>
    obtain ⟨hu, hv⟩ := htap rfl
    exact ((TaperedExtreme.singleton g u).append hu hv).result r

/-- So do the reductions, of any number of operands. -/
theorem reduFloat_extreme {f : FloatFmt} {code : ℕ} (h : RoundedFmt f code) (r : Rounding) (g : Bool) {l : List Val}
    (hl : l ≠ []) (htap : f.isTapered = true → ∀ v ∈ l, TaperedVal v) :
    ExtremeResult f r g l (reduFloat (if g then 2 else 1) f r l) := by
  obtain ⟨v, t, rfl⟩ := List.exists_cons_of_ne_nil hl
  cases h with
  | bin b code h nan =>
    have hz := (binaryExtreme_foldl g t (BinaryExtreme.singleton g v)).result (b := b) r (flag_any_isSig _)
    cases g <;> exact hz
  | tap t' code h nan =>
    have hmem := htap rfl
    have hz := (taperedExtreme_foldl g (t := t) (fun u hu => hmem u (by simp [hu])) (TaperedExtreme.singleton g v)
      (hmem v (by simp))).result (t := t') r
    cases g <;> exact hz

end Sys2Proof.Machine
end

section
/-! SUPPORT. Conversions to the 8-bit formats and to integers, and the operations on the sign and the integral part (02 Table 02-11,
R48, R60; 05 R115, R116). -/

namespace Sys2Proof.Machine

open Sys2Proof Sys2Proof.Claims

/-! ## Integers -/

theorem roundToInt_eq (r : Rounding) (n : Bool) (m : ℕ) (e : ℤ) : roundToInt r n m e = roundUnits r n m e 0 := by
  simp [roundToInt, roundUnits]

/-- A number rounded to an integer. -/
theorem roundQ_ratio (r : Rounding) (n : Bool) (m : ℕ) (e : ℤ) :
    roundQ r (ratio (.num n m e)) = signed n (roundToInt r n m e) := by
  rw [roundToInt_eq, ← roundQ_units, zpow_zero, div_one, ratio_num]

theorem ratio_roundToInt (r : Rounding) (n : Bool) (m : ℕ) (e : ℤ) :
    ratio (.num n (roundToInt r n m e) 0) = roundQ r (ratio (.num n m e)) := by
  rw [roundQ_ratio, ← sgn_mul_natCast, ratio_num, mag, zpow_zero, mul_one]

/-- An integer is what it rounds to. -/
theorem isInteger_iff (r : Rounding) (n : Bool) (m : ℕ) (e : ℤ) :
    isInteger m e = true ↔ (roundQ r (ratio (.num n m e)) : ℚ) = ratio (.num n m e) := by
  have hsgn : sgn n ≠ 0 := by cases n <;> simp [sgn]
  rw [← ratio_roundToInt, ratio_num, ratio_num, mul_right_inj' hsgn, roundToInt_eq, roundUnits_exact]
  simp [isInteger]

/-- An integer as a value. -/
theorem ratio_int (i : ℤ) : ratio (.num (decide (i < 0)) i.natAbs 0) = i := by rw [ratio_sum_value, zpow_zero, mul_one]

/-- A value in an integer format (02 Table 02-11). -/
theorem toIntFmt_toInt (r : Rounding) (code : ℕ) (quiet : Bool) (v : Val) :
    ToInt r code quiet v (if quiet && v.isNan then (0, 0) else toIntFmt r code v) := by
  have hlo : (intRange code).1 = if fmtSigned code then -((2 ^ (fmtBits code - 1) : ℕ) : ℤ) else 0 := by
    unfold intRange
    split_ifs <;> simp
  have hhi : (intRange code).2 =
      if fmtSigned code then ((2 ^ (fmtBits code - 1) : ℕ) : ℤ) - 1 else ((2 ^ fmtBits code : ℕ) : ℤ) - 1 := by
    unfold intRange
    split_ifs <;> simp
  cases v with
  | nan s => cases quiet <;> rfl
  | inf n =>
    rw [show (Val.inf n).isNan = false from rfl, Bool.and_false, if_neg Bool.false_ne_true]
    simp only [ToInt, toIntFmt, hlo, hhi]
    rfl
  | num n m e =>
    rw [show (Val.num n m e).isNan = false from rfl, Bool.and_false, if_neg Bool.false_ne_true]
    simp only [ToInt, toIntFmt, ← roundQ_ratio, hlo, hhi, ← isInteger_iff]
    rfl

/-! ## The 8-bit formats -/

/-- e4m3 (code 6) or e5m2 (code 7), with its codes. -/
structure OcpFmt (b : Binary) (code : ℕ) : Prop where
  codes : b.Codes
  fmt : b = if code = 6 then fmtE4M3 else fmtE5M2
  width : b.width = 8
  sign : ∀ n, b.signBit n = if n then 0x80 else 0
  most : b.overCode - 1 = if code = 6 then 0x7E else 0x7B
  beyond : b.infCode = if code = 6 then 0x7F else 0x7C
  nan : b.nanCode = canonicalNan code

theorem ocpFmt_e4m3 : OcpFmt fmtE4M3 6 := ⟨Binary.codes_e4m3, rfl, rfl, fun n => by cases n <;> rfl, rfl, rfl, rfl⟩

theorem ocpFmt_e5m2 : OcpFmt fmtE5M2 7 :=
  ⟨Binary.ieee_e5m2.codes, rfl, rfl, fun n => by cases n <;> rfl, rfl, rfl, rfl⟩

theorem sgn_mul_pos_iff {n : Bool} {x : ℚ} (hx : 0 < x) : 0 < sgn n * x ↔ n = false := by
  cases n <;> simp [sgn, hx, hx.le]

theorem Binary.fitFlags_no_overflow (b : Binary) (r : Rounding) (n : Bool) (m : ℕ) (e : ℤ) : bitN (b.fitFlags r n m e) 2 = false := by
  unfold fitFlags
  split_ifs <;> rfl

/-- A number that fits keeps its value at the format's precision, its sign, and the flags of its rounding. -/
theorem Binary.Codes.fits {b : Binary} (h : b.Codes) (r : Rounding) (n : Bool) {m : ℕ} (hm : m ≠ 0) (e : ℤ)
    (hfit : b.roundCode r n m e < b.overCode) :
    ratio ((FloatFmt.bin b).value (b.signBit n + b.roundCode r n m e)) =
      atPrecision b r (some (1 - b.bias)) (sgn n * mag m e) := by
  rw [h.ratio_code n hfit, b.grid_roundCode r n hm, atPrecision_eq b r _ n hm, ← b.unitExp_eq]

/-- A value in an 8-bit format, saturating or not (02 R48). -/
theorem toOcp_toOcp {b : Binary} {code : ℕ} (h : OcpFmt b code) (hcode : code = 6 ∨ code = 7) (r : Rounding) (sat : Bool) (v : Val) :
    ToOcp r sat code v (toOcp r sat b v) := by
  obtain ⟨hcodes, hfmt, hwidth, hsign, hmost, hbeyond, hnan⟩ := h
  unfold ToOcp
  rw [← hfmt]
  cases v with
  | nan s =>
    show (_, _) = _
    rw [hnan]
    cases s <;> rfl
  | inf n =>
    simp only [toOcp, Val.neg, hsign]
    rcases hcode with rfl | rfl
    · rw [hfmt]
      cases sat <;> rfl
    · rw [hfmt]
      rfl
  | num n m e =>
    by_cases hm : m = 0
    · have hpos : 0 < b.overCode := (Nat.two_pow_pos _).trans hcodes.normal
      have hfin := hcodes.isFinite_code n hpos
      have hratio := hcodes.ratio_code n hpos
      have hneg := hcodes.neg_code n hpos
      have hlt := hcodes.code_lt n hpos
      rw [b.grid_zero, mul_zero] at hratio
      rw [Nat.add_zero] at hfin hratio hneg hlt
      simp only [hm, toOcp, ratio_num_zero, ne_eq, not_true_eq_false, false_and, if_false, if_true]
      exact ⟨hfin, hwidth ▸ hlt, hneg, hratio, (roundingFlags_exact hfin hratio).symm⟩
    · have hx : ratio (.num n m e) ≠ 0 := by
        rw [ratio_num]
        exact mul_ne_zero (by cases n <;> simp [sgn]) (mag_pos hm e).ne'
      have hover := hcodes.over_iff_unlimited r n hm e
      rw [← b.abs_atPrecision_none r n hm e, ← ratio_num] at hover
      simp only [toOcp, if_neg hm, ← hsign, hover, hx, ne_eq, not_false_eq_true, true_and, if_false]
      by_cases hbig : b.overCode ≤ b.roundCode r n m e
      · have hround : b.round r n m e = (b.signBit n + if r.away n then b.infCode else b.overCode - 1, 4 + 16) := by
          rw [b.round_eq, if_pos hbig, b.overflow_eq]
        rw [if_pos hbig, hround, ← hmost, ← hbeyond]
        cases sat with
        | true =>
          have hbit : bitN (4 + 16) 2 = true := by decide
          rw [if_neg (c := true = false ∧ _) (fun h => by cases h.1)]
          simp only [Bool.true_and, hbit, if_true]
          rfl
        | false =>
          rw [Bool.false_and, if_neg Bool.false_ne_true]
          have hpos := sgn_mul_pos_iff (n := n) (mag_pos hm e)
          have hneg := sgn_mul_neg_iff (n := n) (mag_pos hm e)
          cases n <;> cases r <;> simp [Rounding.away, ratio_num, hpos, hneg, Val.neg]
      · have hfit := not_le.mp hbig
        have hround : b.round r n m e = (b.signBit n + b.roundCode r n m e, b.fitFlags r n m e) :=
          Prod.ext (by rw [b.round_fst, if_neg hbig]) (by rw [b.round_snd, if_neg hbig])
        rw [if_neg hbig, hround, if_neg (by simp [b.fitFlags_no_overflow])]
        refine ⟨hcodes.isFinite_code n hfit, hwidth ▸ hcodes.code_lt n hfit, hcodes.neg_code n hfit, ?_, ?_⟩
        · rw [hcodes.fits r n hm e hfit, ratio_num]
        · rw [ratio_num]
          exact (hcodes.roundingFlags_fits r n hm e hfit).symm

/-! ## Conversions -/

/-- A float format of a code: one that operations round to, or an 8-bit one. -/
theorem floatFmt_cases {code : ℕ} {f : FloatFmt} (hf : floatFmt code = some f) :
    (f.isOcp = false ∧ RoundedFmt f code) ∨ ∃ b, f = .bin b ∧ f.isOcp = true ∧ OcpFmt b code ∧ (code = 6 ∨ code = 7) := by
  have hcode : code < 8 := by
    by_contra hge
    obtain ⟨k, rfl⟩ := Nat.exists_eq_add_of_le (not_lt.mp hge)
    rw [Nat.add_comm] at hf
    cases hf
  have hcases : code = 0 ∨ code = 1 ∨ code = 2 ∨ code = 3 ∨ code = 4 ∨ code = 5 ∨ code = 6 ∨ code = 7 := by omega
  have hrounded (hlt : code < 6) : RoundedFmt f code := roundedFmt_of_code hlt hf
  rcases hcases with rfl | rfl | rfl | rfl | rfl | rfl | rfl | rfl
  case inr.inr.inr.inr.inr.inr.inl =>
    cases hf
    exact .inr ⟨_, rfl, rfl, ocpFmt_e4m3, .inl rfl⟩
  case inr.inr.inr.inr.inr.inr.inr =>
    cases hf
    exact .inr ⟨_, rfl, rfl, ocpFmt_e5m2, .inr rfl⟩
  all_goals
    cases hf
    exact .inl ⟨rfl, hrounded (by decide)⟩

theorem finish_zero_flags (g : FloatFmt) (r : Rounding) (v : Val) : finish g r (v, 0) = g.encode r v :=
  Prod.ext rfl (Nat.zero_or _)

/-- A value in a float format. -/
def toFloat (r : Rounding) (sat : Bool) (g : FloatFmt) (v : Val) : Rounded :=
  match g with
  | .bin b => if g.isOcp then toOcp r sat b v else b.encode r v
  | .tap t => t.encode v

theorem toFloat_spec {df : ℕ} {g : FloatFmt} (hg : floatFmt df = some g) (r : Rounding) (sat : Bool) (v : Val) :
    if g.isOcp then ToOcp r sat df v (toFloat r sat g v) else toFloat r sat g v = finish g r (v, 0) := by
  rcases floatFmt_cases hg with ⟨hocp, -⟩ | ⟨b, rfl, hocp, hfmt, hcode⟩
  · rw [hocp, if_neg Bool.false_ne_true, finish_zero_flags]
    cases g with
    | bin b => simp only [toFloat, hocp]; rfl
    | tap t => rfl
  · simp only [toFloat, hocp, if_true]
    exact toOcp_toOcp hfmt hcode r sat v

theorem floatFmt_nan {code : ℕ} {f : FloatFmt} (hf : floatFmt code = some f) : f.nan = canonicalNan code := by
  rcases floatFmt_cases hf with ⟨-, h⟩ | ⟨b, rfl, -, h, -⟩
  · exact h.nan_eq
  · exact h.nan

/-- A conversion (02 Table 02-11). -/
theorem convert_converted (r : Rounding) (sat : Bool) (sf df x : ℕ) : Converted r sat sf df x (convert r sat sf df x) := by
  unfold Converted convert
  rcases hsf : floatFmt sf with _ | f
  · rcases hdf : floatFmt df with _ | g
    · exact rfl
    · refine ⟨_, rfl, ratio_int _, rfl, ?_⟩
      exact toFloat_spec hdf r sat _
  · rcases hdf : floatFmt df with _ | g
    · exact toIntFmt_toInt r df f.isOcp (f.value x)
    · simp only
      by_cases heq : sf = df
      · subst heq
        rw [if_pos rfl, ← floatFmt_nan hsf]
        simp only [decide_true, Bool.true_and, if_true]
        cases f with
        | tap t => rfl
        | bin b =>
          generalize (FloatFmt.bin b).value x = v
          cases v with
          | nan s => rfl
          | inf n => rfl
          | num n m e => rfl
      · rw [if_neg heq]
        simp only [heq, decide_false, Bool.false_and, Bool.false_eq_true, if_false]
        exact toFloat_spec hdf r sat _

/-! ## Signs and integral parts -/

/-- FABS or FNEG of one type (05 R115; 02 R43, R58). -/
theorem fsign_same (negate : Bool) {f : FloatFmt} {code : ℕ} (h : RoundedFmt f code) (r : Rounding) {x : ℕ} (hx : x < 2 ^ f.width) :
    SignChanged negate code code f f r x (fsign negate code code f f r x) := by
  unfold SignChanged fsign
  rw [if_pos rfl, if_pos rfl]
  cases h with
  | bin b code h nan =>
    have hw : b.width - 1 = b.eb + b.fb := by
      unfold Binary.width
      omega
    have hx' : x < 2 ^ (b.eb + b.fb + 1) := by
      have : b.width = b.eb + b.fb + 1 := by
        unfold Binary.width
        omega
      rw [← this]
      exact hx
    have hbit := bitN_of_lt hx'
    simp only [hw, hbit, Binary.signBit, bitsN, pow_zero, Nat.div_one]
    cases negate
    · simp
    · simp
  | tap t code h nan =>
    obtain ⟨hpow, htwo⟩ := h.two_pow
    have hroom := h.room
    have hx' : x < 2 ^ t.n := hx
    have hbit : bitN x (t.n - 1) = decide (2 ^ (t.n - 1) ≤ x) := bitN_of_lt (by rwa [Nat.sub_add_cancel (by omega)])
    simp only [hbit, lowN, Nat.mod_eq_of_lt hx', Bool.or_eq_true, decide_eq_true_eq]

/-- FABS or FNEG. -/
theorem fsign_signChanged (negate : Bool) {st dt : ℕ} {f g : FloatFmt} (hf : RoundedFmt f st) (hg : RoundedFmt g dt)
    (hsame : st = dt → f = g) (r : Rounding) {x : ℕ} (hx : x < 2 ^ f.width) :
    SignChanged negate st dt f g r x (fsign negate st dt f g r x) := by
  by_cases heq : st = dt
  · have hfg := hsame heq
    subst heq hfg
    exact fsign_same negate hf r hx
  · unfold SignChanged fsign
    rw [if_neg heq, if_neg heq, ← hg.nan_eq]
    generalize f.value x = v
    have habs (w : Val) : |ratio w.negate| = |ratio w| := by rw [(negate_spec w).2.2.2.1, abs_neg]
    cases v with
    | nan s => rfl
    | inf n =>
      refine ⟨_, ⟨?_, ?_⟩, ?_, ?_, (finish_zero_flags g r _).symm⟩
      · cases negate <;> cases n <;> rfl
      · cases negate <;> cases n <;> rfl
      · cases negate <;> cases n <;> rfl
      · cases negate <;> cases n <;> rfl
    | num n m e =>
      refine ⟨_, ⟨?_, ?_⟩, ?_, ?_, (finish_zero_flags g r _).symm⟩
      · cases negate <;> cases n <;> rfl
      · cases negate <;> cases n <;> rfl
      · cases negate <;> cases n <;> rfl
      · split_ifs
        · exact habs _
        · exact habs _
        · rfl

/-- FRND (05 R115; 02 R58). -/
theorem fround_roundedToInteger {g : FloatFmt} {code : ℕ} (hg : RoundedFmt g code) (r : Rounding) (v : Val) :
    RoundedToInteger code g r v (fround g r v) := by
  unfold RoundedToInteger fround
  rw [← hg.nan_eq]
  cases v with
  | nan s => rfl
  | inf n => exact (finish_zero_flags g r _).symm
  | num n m e =>
    refine ⟨.num n (roundToInt r n m e) 0, rfl, ratio_roundToInt r n m e, rfl, Prod.ext rfl ?_⟩
    have hint := isInteger_iff r n m e
    cases htap : g.isTapered with
    | true => simp [finish]
    | false =>
      cases hi : isInteger m e with
      | true => simp [finish, hi, hint.mp hi]
      | false =>
        have hne : ¬ (roundQ r (ratio (.num n m e)) : ℚ) = ratio (.num n m e) := by
          rw [← hint, hi]
          decide
        simp [finish, hi, hne, flagNX, Nat.lor_comm]

end Sys2Proof.Machine
end

section
/-! SUPPORT. Numbers that a type holds (02 R42, R54): a rounding keeps them, none leaves -1 to 1, and powers of two among them have
small exponents. -/

namespace Sys2Proof.Machine

open Sys2Proof Sys2Proof.Claims

/-! ## Codes beyond the width -/

theorem bitsN_mod (x : ℕ) {lo n w : ℕ} (h : lo + n ≤ w) : bitsN (x % 2 ^ w) lo n = bitsN x lo n := by
  obtain ⟨k, rfl⟩ := Nat.exists_eq_add_of_le h
  rw [bitsN, bitsN, Nat.add_assoc, pow_add, Nat.mod_mul_right_div_self, pow_add, Nat.mod_mul_right_mod]

theorem bitN_mod (x : ℕ) {i w : ℕ} (h : i < w) : bitN (x % 2 ^ w) i = bitN x i := by
  have := bitsN_mod x (show i + 1 ≤ w from h)
  simp only [bitsN, pow_one] at this
  rw [bitN, bitN, this]

/-- Only the bits of the width make a code. -/
theorem RoundedFmt.value_mod {f : FloatFmt} {code : ℕ} (h : RoundedFmt f code) (c : ℕ) : f.value (c % 2 ^ f.width) = f.value c := by
  cases h with
  | bin b code h nan =>
    have hw : (FloatFmt.bin b).width = 1 + b.eb + b.fb := rfl
    have hfb := h.fraction
    simp only [FloatFmt.value, if_neg h.other, Binary.value, hw]
    rw [bitN_mod c (by omega), bitN_mod c (by omega), bitsN_mod c (by omega), bitsN_mod c (by omega)]
  | tap t code h nan =>
    show t.value (c % 2 ^ t.n) = t.value c
    rw [Tapered.value, Tapered.value, show lowN (c % 2 ^ t.n) t.n = lowN c t.n from Nat.mod_mod c _]

/-! ## Numbers that a type holds -/

/-- A type holds a number. -/
def Holds (f : FloatFmt) (x : ℚ) : Prop := ∃ c, isFinite (f.value c) = true ∧ ratio (f.value c) = x

theorem RoundedFmt.holds_iff {f : FloatFmt} {code : ℕ} (h : RoundedFmt f code) {x : ℚ} :
    Holds f x ↔ ∃ c, c < 2 ^ f.width ∧ isFinite (f.value c) = true ∧ ratio (f.value c) = x := by
  constructor
  · rintro ⟨c, hfin, hratio⟩
    rw [← h.value_mod c] at hfin hratio
    exact ⟨_, Nat.mod_lt _ (Nat.two_pow_pos _), hfin, hratio⟩
  · rintro ⟨c, -, hfin, hratio⟩
    exact ⟨c, hfin, hratio⟩

/-- A code's magnitude is one of the grid. -/
theorem Binary.Codes.holds_grid {b : Binary} (h : b.Codes) {x : ℚ} {c : ℕ} (hc : c < 2 ^ (FloatFmt.bin b).width)
    (hfin : isFinite ((FloatFmt.bin b).value c) = true) (hratio : ratio ((FloatFmt.bin b).value c) = x) :
    ∃ j, j < b.overCode ∧ |x| = b.grid j := by
  subst hratio
  refine h.each (P := fun x => ∃ j, j < b.overCode ∧ |x| = b.grid j) (fun n j hj => ⟨j, hj, ?_⟩) c hc hfin
  exact abs_sgn_mul n (b.grid_nonneg j)

/-- A rounding keeps the numbers that the type holds. -/
theorem RoundedFmt.encode_exact {f : FloatFmt} {code : ℕ} (h : RoundedFmt f code) (r : Rounding) {n : Bool} {m : ℕ} {e : ℤ}
    (hx : Holds f (ratio (.num n m e))) :
    isFinite (f.value (f.encode r (.num n m e)).1) = true ∧
      ratio (f.value (f.encode r (.num n m e)).1) = ratio (.num n m e) := by
  obtain ⟨c, hc, hfin, hratio⟩ := h.holds_iff.mp hx
  by_cases hm : m = 0
  · subst hm
    rw [ratio_num_zero]
    cases h with
    | bin b code h nan =>
      obtain ⟨-, hfin, hratio, -⟩ := h.value_signBit n
      exact ⟨hfin, hratio⟩
    | tap t code h nan =>
      show isFinite (t.value 0) = true ∧ ratio (t.value 0) = 0
      rw [t.value_zero, ratio_num_zero]
      exact ⟨rfl, rfl⟩
  · cases h with
    | bin b code h nan =>
      have hencode : (FloatFmt.bin b).encode r (.num n m e) = b.round r n m e := if_neg hm
      obtain ⟨j, hj, hgrid⟩ := h.codes.holds_grid hc hfin hratio
      rw [abs_ratio_num] at hgrid
      have hon := b.roundCode_onGrid h.fraction r n hm e
      have hexact := (hon.eq_iff b.grid_strictMono).mpr ⟨j, hgrid.symm⟩
      have hfit : b.roundCode r n m e < b.overCode := by
        rwa [b.grid_strictMono.injective (hexact.trans hgrid)]
      rw [hencode, b.round_fst, if_neg (not_le.mpr hfit)]
      exact ⟨h.codes.isFinite_code n hfit, by rw [h.codes.ratio_code n hfit, hexact, ratio_num]⟩
    | tap t code h nan =>
      have hencode : (FloatFmt.tap t).encode r (.num n m e) = t.round n m e := if_neg hm
      have hne : ratio (.num n m e) ≠ 0 := by
        rw [← abs_pos, abs_ratio_num]
        exact mag_pos hm e
      obtain ⟨-, hfin', -, hnear⟩ := h.roundsTo r n hm e
      rw [← ratio_num] at hnear
      have hle := ((hnear hne).2 c hc hfin (hratio ▸ hne)).1
      rw [hratio, sub_self, abs_zero, abs_nonpos_iff, sub_eq_zero] at hle
      rw [hencode]
      exact ⟨hfin', hle⟩

/-! ## One -/

/-- The code of one in each type. -/
def oneCode (w : BitVec 3) : ℕ := [0x3F800000, 0x3C00, 0x3F80, 0x4000, 0x40000000].getD w.toNat 0

/-- The code of minus one. -/
def minusOneCode (w : BitVec 3) : ℕ := [0xBF800000, 0xBC00, 0xBF80, 0xC000, 0xC0000000].getD w.toNat 0

theorem value_oneCode (w : BitVec 3) (hw : isType w = true) :
    (typeFmt w).value (oneCode w) = .num false (2 ^ [23, 10, 7, 12, 27].getD w.toNat 0) (-([23, 10, 7, 12, 27].getD w.toNat 0 : ℕ)) ∧
      (typeFmt w).value (minusOneCode w) =
        .num true (2 ^ [23, 10, 7, 12, 27].getD w.toNat 0) (-([23, 10, 7, 12, 27].getD w.toNat 0 : ℕ)) := by
  revert w
  decide

theorem holds_one {w : BitVec 3} (hw : isType w = true) (n : Bool) : Holds (typeFmt w) (sgn n) := by
  obtain ⟨hone, hminus⟩ := value_oneCode w hw
  have hmag (k : ℕ) : mag (2 ^ k) (-(k : ℤ)) = 1 := by
    rw [mag, zpow_neg, zpow_natCast]
    push_cast
    exact mul_inv_cancel₀ (by positivity)
  cases n with
  | false => exact ⟨oneCode w, by rw [hone]; rfl, by rw [hone, ratio_num, hmag, mul_one]⟩
  | true => exact ⟨minusOneCode w, by rw [hminus]; rfl, by rw [hminus, ratio_num, hmag, mul_one]⟩

theorem ratio_of_not_finite {v : Val} (h : isFinite v = false) : ratio v = 0 := by
  cases v with
  | num n m e => cases h
  | inf n => rfl
  | nan s => rfl

theorem abs_le_one_of_nearest {x y : ℚ} (hx : |x| ≤ 1) (h1 : |y - x| ≤ |1 - x|) (h2 : |y - x| ≤ |-1 - x|) : |y| ≤ 1 := by
  obtain ⟨hlo, hhi⟩ := abs_le.mp hx
  rw [abs_of_nonneg (show 0 ≤ 1 - x by linarith)] at h1
  rw [abs_of_nonpos (show -1 - x ≤ 0 by linarith)] at h2
  rw [abs_le] at h1 h2 ⊢
  obtain ⟨-, h1⟩ := h1
  obtain ⟨h2, -⟩ := h2
  exact ⟨by linarith, by linarith⟩

/-- A number from -1 to 1 rounds to one from -1 to 1. -/
theorem roundsTo_abs_le_one {w : BitVec 3} (hw : isType w = true) {r : Rounding} {x : ℚ} {c : ℕ} (h : RoundsTo (typeFmt w) r x c)
    (hx : |x| ≤ 1) : |ratio ((typeFmt w).value c)| ≤ 1 := by
  obtain ⟨k, hk, hkfin, hkone⟩ := (roundedFmt_of_isType hw).holds_iff.mp (holds_one hw false)
  obtain ⟨l, hl, hlfin, hlone⟩ := (roundedFmt_of_isType hw).holds_iff.mp (holds_one hw true)
  rw [sgn, if_neg Bool.false_ne_true] at hkone
  rw [sgn, if_pos rfl] at hlone
  obtain ⟨hlo, hhi⟩ := abs_le.mp hx
  cases hfin : isFinite ((typeFmt w).value c) with
  | false => simp [ratio_of_not_finite hfin]
  | true =>
    obtain ⟨-, h⟩ := h
    generalize hf : typeFmt w = f at *
    cases f with
    | tap t =>
      obtain ⟨-, hzero, hnear⟩ := h
      by_cases hx0 : x = 0
      · rw [hzero hx0]
        show |ratio (t.value 0)| ≤ 1
        rw [t.value_zero, ratio_num_zero, abs_zero]
        exact zero_le_one
      · have h1 := ((hnear hx0).2 k hk hkfin (by rw [hkone]; exact one_ne_zero)).1
        have h2 := ((hnear hx0).2 l hl hlfin (by rw [hlone]; norm_num)).1
        rw [hkone] at h1
        rw [hlone] at h2
        exact abs_le_one_of_nearest hx h1 h2
    | bin b =>
      cases r with
      | rne =>
        simp only at h
        split_ifs at h with hover
        · have h1 := (h.2 k hk hkfin).1
          have h2 := (h.2 l hl hlfin).1
          rw [hkone] at h1
          rw [hlone] at h2
          exact abs_le_one_of_nearest hx h1 h2
        · rw [h] at hfin
          cases hfin
      | rz => exact h.2.2.1.trans hx
      | ru =>
        simp only [if_pos hfin] at h
        have h1 := h.2 k hk hkfin (by rw [hkone]; exact hhi)
        rw [hkone] at h1
        exact abs_le.mpr ⟨hlo.trans h.1, h1⟩
      | rd =>
        simp only [if_pos hfin] at h
        have h1 := h.2 l hl hlfin (by rw [hlone]; exact hlo)
        rw [hlone] at h1
        exact abs_le.mpr ⟨h1, h.1.trans hhi⟩

/-! ## Powers of two -/

/-- The numbers that a type holds lie between 2^-200 and 2^200. -/
def SmallRange (f : FloatFmt) : Prop := ∀ x, Holds f x → x ≠ 0 → (2 : ℚ) ^ (-200 : ℤ) ≤ |x| ∧ |x| ≤ 2 ^ (200 : ℤ)

theorem Binary.Ieee.smallRange {b : Binary} (h : b.Ieee) {code : ℕ} (hf : RoundedFmt (.bin b) code) (hsmall : b.bias + b.fb ≤ 199)
    (hbias : b.bias ≤ 199) : SmallRange (.bin b) := by
  intro x hx hx0
  obtain ⟨c, hc, hfin, hratio⟩ := hf.holds_iff.mp hx
  obtain ⟨j, hj, hgrid⟩ := h.codes.holds_grid hc hfin hratio
  have hj0 : j ≠ 0 := by
    rintro rfl
    rw [b.grid_zero, abs_eq_zero] at hgrid
    exact hx0 hgrid
  have hone : b.grid 1 = 2 ^ (1 - b.bias - b.fb) := by
    have hlt : 1 < 2 ^ b.fb := Nat.one_lt_two_pow (by have := h.fraction; omega)
    rw [Binary.grid, if_pos hlt, mag, Nat.cast_one, one_mul]
  have hover : b.grid b.overCode = 2 ^ (b.bias + 1) := by
    rw [h.grid_over.1, ← zpow_natCast, ← zpow_add₀ two_ne_zero]
    congr 1
    push_cast
    ring
  rw [hgrid]
  constructor
  · calc (2 : ℚ) ^ (-200 : ℤ) ≤ 2 ^ (1 - b.bias - b.fb) := zpow_le_zpow_right₀ one_le_two (by omega)
      _ = b.grid 1 := hone.symm
      _ ≤ b.grid j := b.grid_strictMono.monotone (by omega)
  · calc b.grid j ≤ b.grid b.overCode := b.grid_strictMono.monotone hj.le
      _ = 2 ^ (b.bias + 1) := hover
      _ ≤ 2 ^ (200 : ℤ) := zpow_le_zpow_right₀ one_le_two (by omega)

theorem Tapered.Shape.smallRange {t : Tapered} (h : t.Shape) {code : ℕ} (hf : RoundedFmt (.tap t) code)
    (hlo : (2 : ℚ) ^ (-200 : ℤ) ≤ t.codeMag 1) (hhi : t.codeMag t.top ≤ 2 ^ (200 : ℤ)) : SmallRange (.tap t) := by
  intro x hx hx0
  obtain ⟨c, hc, hfin, hratio⟩ := hf.holds_iff.mp hx
  subst hratio
  refine h.each (P := fun x => x ≠ 0 → (2 : ℚ) ^ (-200 : ℤ) ≤ |x| ∧ |x| ≤ 2 ^ (200 : ℤ)) (fun h0 => absurd rfl h0)
    (fun n j hj hj0 _ => ?_) c hc hfin hx0
  have hjtop := h.le_top.mpr hj
  rw [abs_sgn_mul n (h.codeMag_pos hjtop hj0).le, ← grid_of_le hjtop]
  constructor
  · exact hlo.trans ((grid_of_le h.one_le_top).symm.trans_le (h.grid_strictMono.monotone (by omega)))
  · exact (h.grid_strictMono.monotone hjtop).trans ((grid_of_le le_rfl).trans_le hhi)

theorem isType_cases (w : BitVec 3) (hw : isType w = true) : w = 0 ∨ w = 1 ∨ w = 2 ∨ w = 3 ∨ w = 4 := by
  revert w
  decide

theorem smallRange_of_isType {w : BitVec 3} (hw : isType w = true) : SmallRange (typeFmt w) := by
  have hf := roundedFmt_of_isType hw
  rcases isType_cases w hw with rfl | rfl | rfl | rfl | rfl
  · exact Binary.ieee_f32.smallRange hf (by decide) (by decide)
  · exact Binary.ieee_f16.smallRange hf (by decide) (by decide)
  · exact Binary.ieee_bf16.smallRange hf (by decide) (by decide)
  · have hone : fmtT16.codeMag 1 = mag 5 (-26) := rfl
    have htop : fmtT16.codeMag fmtT16.top = mag 7 21 := rfl
    refine Tapered.shape_t16.smallRange hf ?_ ?_
    · rw [hone, mag]
      norm_num
    · rw [htop, mag]
      norm_num
  · have hone : fmtT32.codeMag 1 = mag 33 (-101) := rfl
    have htop : fmtT32.codeMag fmtT32.top = mag 63 90 := rfl
    refine Tapered.shape_t32.smallRange hf ?_ ?_
    · rw [hone, mag]
      norm_num
    · rw [htop, mag]
      norm_num

/-- The powers of two that a type holds have exponents of at most 200. -/
theorem exponent_of_holds {w : BitVec 3} (hw : isType w = true) {k : ℤ} (h : Holds (typeFmt w) (2 ^ k)) : -200 ≤ k ∧ k ≤ 200 := by
  have hpos : (0 : ℚ) < 2 ^ k := by positivity
  obtain ⟨hlo, hhi⟩ := smallRange_of_isType hw _ h hpos.ne'
  rw [abs_of_pos hpos] at hlo hhi
  exact ⟨(zpow_le_zpow_iff_right₀ one_lt_two).mp hlo, (zpow_le_zpow_iff_right₀ one_lt_two).mp hhi⟩

end Sys2Proof.Machine
end

section
/-! SUPPORT. The steps from a function's value to a result inside its bound (02 R61): a value moved by parts of an ulp, the limit to
-1 and 1, and the distance of two values. -/

namespace Sys2Proof.Machine

open Sys2Proof Sys2Proof.Claims

/-! ## Distances -/

theorem ratio_sub_units (n n' : Bool) {m m' : ℕ} {e e' x : ℤ} (h : x ≤ e) (h' : x ≤ e') :
    ratio (.num n m e) - ratio (.num n' m' e') =
      ((signed n (scaleUp m (e - x)) - signed n' (scaleUp m' (e' - x)) : ℤ) : ℚ) * 2 ^ x := by
  rw [ratio_units n (fun _ => h), ratio_units n' (fun _ => h')]
  push_cast
  ring

/-- Two values lie within some units when both are numbers and their distance is at most so many units. -/
theorem withinUlps_iff {n : Bool} {m : ℕ} {e : ℤ} {v : Val} {b : ℕ} {u : ℤ} :
    withinUlps v (.num n m e) b u = true ↔ isFinite v = true ∧ |ratio v - ratio (.num n m e)| ≤ b * 2 ^ u := by
  cases v with
  | nan s => exact iff_of_false Bool.false_ne_true (fun h => by cases h.1)
  | inf k => exact iff_of_false Bool.false_ne_true (fun h => by cases h.1)
  | num k m' e' =>
    have hx : min u (min e' e) ≤ e' := (min_le_right _ _).trans (min_le_left _ _)
    have hx' : min u (min e' e) ≤ e := (min_le_right _ _).trans (min_le_right _ _)
    have hpos : (0 : ℚ) < 2 ^ min u (min e' e) := by positivity
    have hunit : (2 : ℚ) ^ u = (scaleUp 1 (u - min u (min e' e)) : ℕ) * 2 ^ min u (min e' e) := by
      rw [← mag_eq_units 1 (min_le_left u _), mag, Nat.cast_one, one_mul]
    rw [and_iff_right (show isFinite (Val.num k m' e') = true from rfl), ratio_sub_units k n hx hx', hunit, abs_mul, abs_of_pos hpos,
      ← mul_assoc, mul_le_mul_iff_left₀ hpos, ← Int.cast_abs, Int.abs_eq_natAbs]
    simp only [withinUlps, decide_eq_true_eq]
    exact_mod_cast Iff.rfl

/-- The same where both are given the other way round. -/
theorem withinUlps_num_iff {n : Bool} {m : ℕ} {e : ℤ} {v : Val} {b : ℕ} {u : ℤ} :
    withinUlps (.num n m e) v b u = true ↔ isFinite v = true ∧ |ratio (.num n m e) - ratio v| ≤ b * 2 ^ u := by
  cases v with
  | nan s => exact iff_of_false Bool.false_ne_true (fun h => by cases h.1)
  | inf k => exact iff_of_false Bool.false_ne_true (fun h => by cases h.1)
  | num k m' e' => rw [withinUlps_iff, and_iff_right (show isFinite (Val.num n m e) = true from rfl),
      and_iff_right (show isFinite (Val.num k m' e') = true from rfl)]

/-! ## Moves -/

/-- A moved value. -/
theorem nudge_num (n : Bool) (m : ℕ) (e d u : ℤ) :
    ∃ n' m' e', nudge (.num n m e) d u = .num n' m' e' ∧ ratio (.num n' m' e') = ratio (.num n m e) + d * 2 ^ u := by
  refine ⟨_, _, _, rfl, ?_⟩
  have hunit : (2 : ℚ) ^ u = (2 ^ (u - min e u).toNat : ℕ) * 2 ^ min e u := by
    have := mag_eq_units 1 (min_le_right e u)
    rwa [mag, Nat.cast_one, one_mul, scaleUp, Nat.one_mul] at this
  rw [ratio_units n (fun _ => min_le_left e u), hunit]
  set s : ℤ := signed n (scaleUp m (e - min e u)) + d * (2 ^ (u - min e u).toNat : ℕ) with hs
  have hsum : (signed n (scaleUp m (e - min e u)) : ℚ) * 2 ^ min e u + d * ((2 ^ (u - min e u).toNat : ℕ) * 2 ^ min e u) =
      s * 2 ^ min e u := by
    rw [hs]
    push_cast
    ring
  rw [hsum]
  by_cases h0 : s = 0
  · simp [h0, ratio_num_zero]
  · rw [if_neg h0, ratio_sum_value]

/-- The limit to -1 and 1 of a number. -/
theorem clampOne_num (n : Bool) (m : ℕ) (e : ℤ) :
    ∃ n' m' e', clampOne (.num n m e) = .num n' m' e' ∧ |ratio (.num n' m' e')| ≤ 1 ∧
      ∀ a : ℚ, |a| ≤ 1 → |ratio (.num n' m' e') - a| ≤ |ratio (.num n m e) - a| := by
  have hone : mag 1 0 = 1 := by simp [mag]
  rw [show clampOne (.num n m e) = if (cmpMag m e 1 0 == .gt) = true then .num n 1 0 else .num n m e from rfl]
  simp only [beq_iff_eq]
  by_cases h : cmpMag m e 1 0 = .gt
  · rw [if_pos h]
    have hgt := cmpMag_gt.mp h
    rw [hone] at hgt
    refine ⟨n, 1, 0, rfl, by rw [abs_ratio_num, hone], fun a ha => ?_⟩
    obtain ⟨hlo, hhi⟩ := abs_le.mp ha
    rw [ratio_num, ratio_num, hone]
    cases n with
    | false =>
      rw [sgn, if_neg Bool.false_ne_true, one_mul, one_mul, abs_of_nonneg (by linarith), abs_of_nonneg (by linarith)]
      linarith
    | true =>
      rw [sgn, if_pos rfl, abs_of_nonpos (by linarith), abs_of_nonpos (by linarith)]
      linarith
  · rw [if_neg h]
    have hle := not_lt.mp (fun hlt => h (cmpMag_gt.mpr hlt))
    rw [hone] at hle
    exact ⟨n, m, e, rfl, by rw [abs_ratio_num]; exact hle, fun _ _ => le_rfl⟩

/-! ## TANH stays within one -/

theorem fixOne_pos : 0 < fixOne := by
  unfold fixOne
  positivity

theorem fixMul_nonneg {a b : ℤ} (ha : 0 ≤ a) (hb : 0 ≤ b) : 0 ≤ fixMul a b :=
  Int.ediv_nonneg (mul_nonneg ha hb) fixOne_pos.le

theorem foldl_add_nonneg {f : ℕ → ℤ} (hf : ∀ k, 0 ≤ f k) (l : List ℕ) {acc : ℤ} (hacc : 0 ≤ acc) :
    0 ≤ l.foldl (fun acc k => acc + f k) acc := by
  induction l generalizing acc with
  | nil => exact hacc
  | cons k l ih => exact ih (add_nonneg hacc (hf k))

theorem fixLn2_nonneg : 0 ≤ fixLn2 :=
  foldl_add_nonneg (f := fun k => fixOne / (((k + 1) * 2 ^ (k + 1) : Nat) : Int))
    (fun _ => Int.ediv_nonneg fixOne_pos.le (Int.natCast_nonneg _)) _ le_rfl

theorem expTail_nonneg {r : ℤ} (hr : 0 ≤ r) (n k : ℕ) {t : ℤ} (ht : 0 ≤ t) : 0 ≤ expTail r n k t := by
  induction n generalizing k t with
  | zero => exact le_rfl
  | succ n ih => exact add_nonneg ht (ih (k + 1) (Int.ediv_nonneg (fixMul_nonneg ht hr) (by positivity)))

theorem fixExp_nonneg {r : ℤ} (hr : 0 ≤ r) : 0 ≤ fixExp r := expTail_nonneg hr 120 0 fixOne_pos.le

/-- The fixed-point quotient (e - 1) / (e + 1) lies from -1 to 1. -/
theorem natAbs_tanh_le {one ex : ℤ} (hone : 0 < one) (hex : 0 ≤ ex) : (((ex - one) * one / (ex + one)).natAbs : ℤ) ≤ one := by
  have hpos : 0 < ex + one := by omega
  have hlo : -one ≤ (ex - one) * one / (ex + one) := by
    rw [Int.le_ediv_iff_mul_le hpos]
    nlinarith
  have hhi : (ex - one) * one / (ex + one) ≤ one := by
    refine Int.ediv_le_of_le_mul hpos ?_
    nlinarith
  omega

theorem abs_ratio_ofFix_le {v : ℤ} (h : (v.natAbs : ℤ) ≤ fixOne) : |ratio (ofFix v 0)| ≤ 1 := by
  have hle : (v.natAbs : ℚ) ≤ 2 ^ prec := by
    have : (v.natAbs : ℤ) ≤ ((2 ^ prec : ℕ) : ℤ) := h
    exact_mod_cast this
  have hexp : (2 : ℚ) ^ (0 - (prec : ℤ)) = (2 ^ prec)⁻¹ := by rw [zero_sub, zpow_neg, zpow_natCast]
  rw [ofFix, abs_ratio_num, mag, hexp]
  exact mul_inv_le_one_of_le₀ hle (by positivity)

/-- The value of TANH lies from -1 to 1. -/
theorem abs_tanh_le (n : Bool) (m : ℕ) (e : ℤ) : |ratio (fnValue .tanh n m e)| ≤ 1 := by
  have hneg (v : ℤ) (hv : (v.natAbs : ℤ) ≤ fixOne) : |ratio (ofFix (if n then -v else v) 0)| ≤ 1 := by
    refine abs_ratio_ofFix_le ?_
    cases n
    · exact hv
    · rwa [if_pos rfl, Int.natAbs_neg]
  have hone := fixOne_pos
  simp only [fnValue]
  by_cases hbig : (Nat.log2 m : ℤ) + e ≥ 8
  · rw [if_pos hbig]
    have := hneg (fixOne - 1) (by omega)
    rwa [neg_sub] at this
  · rw [if_neg hbig]
    refine hneg _ (natAbs_tanh_le hone (mul_nonneg (fixExp_nonneg (fixMul_nonneg ?_ fixLn2_nonneg)) (by positivity)))
    rw [sub_nonneg]
    exact Int.ediv_mul_le _ hone.ne'

end Sys2Proof.Machine
end

section
/-! SUPPORT. The special operands of the special functions (02 R62, Table 02-13): the machine's results are those of the table, at
the table's operands alone. -/

namespace Sys2Proof.Machine

open Sys2Proof Sys2Proof.Claims
open Sys2Proof.Config (Fn)

/-! ## Results that are fixed -/

/-- Outside EXP2 the fixed results are those of the table. -/
theorem fnFixed_of_ne {fn : Fn} (hfn : fn ≠ .exp2) (f : FloatFmt) (v : Val) : fnFixed fn f v = fnSpecial fn v := by
  unfold fnFixed
  rcases fnSpecial fn v with _ | ⟨w, fl⟩
  · rfl
  · cases w with
    | nan s => rfl
    | inf n => rfl
    | num n m e => simp [hfn]

/-- A result of EXP2 is fixed where the type holds it. -/
theorem fnFixed_exp2 {f : FloatFmt} {code : ℕ} (h : RoundedFmt f code) {v : Val} {n : Bool} {m fl : ℕ} {e : ℤ}
    (hv : fnSpecial .exp2 v = some (.num n m e, fl)) :
    fnFixed .exp2 f v = some (.num n m e, fl) ∧ Holds f (ratio (.num n m e)) ∨
      fnFixed .exp2 f v = none ∧ ¬ Holds f (ratio (.num n m e)) := by
  have hwithin : withinUlps (.num n m e) (f.value (finish f .rne (.num n m e, 0)).1) 0 0 = true ↔ Holds f (ratio (.num n m e)) := by
    rw [withinUlps_num_iff, Nat.cast_zero, zero_mul, abs_nonpos_iff, sub_eq_zero]
    constructor
    · rintro ⟨hfin, hratio⟩
      exact ⟨_, hfin, hratio.symm⟩
    · intro hholds
      obtain ⟨hfin, hratio⟩ := h.encode_exact .rne hholds
      exact ⟨hfin, hratio.symm⟩
  unfold fnFixed
  rw [hv]
  by_cases hholds : Holds f (ratio (.num n m e))
  · exact .inl ⟨by simp [hwithin.mpr hholds], hholds⟩
  · refine .inr ⟨?_, hholds⟩
    have hno : withinUlps (.num n m e) (f.value (finish f .rne (.num n m e, 0)).1) 0 0 = false := by
      rwa [← Bool.not_eq_true, hwithin]
    simp [hno]

/-! ## EXP2 of an integer -/

theorem roundQ_int (k : ℤ) : roundQ .rz (k : ℚ) = k := by simp [roundQ]

/-- The integer that a number is. -/
theorem signed_roundToInt {n : Bool} {m : ℕ} {e : ℤ} {k : ℤ} (hk : ratio (.num n m e) = k) :
    signed n (roundToInt .rz false m e) = k := by
  have hround := roundQ_ratio .rz n m e
  rw [hk, roundQ_int] at hround
  rw [hround, roundToInt_eq, roundToInt_eq]
  rfl

theorem isInteger_of_ratio {n : Bool} {m : ℕ} {e : ℤ} {k : ℤ} (hk : ratio (.num n m e) = k) : isInteger m e = true := by
  rw [isInteger_iff .rz n, hk, roundQ_int]

/-- A nonzero integer is the number of its sign and magnitude. -/
theorem ratio_of_isInteger (n : Bool) {m : ℕ} {e : ℤ} (h : isInteger m e = true) :
    ratio (.num n m e) = (signed n (roundToInt .rz false m e) : ℤ) := by
  rw [isInteger_iff .rz n] at h
  rw [signed_roundToInt h.symm, h]

/-- An integer below 2^13 has an order below 13. -/
theorem order_lt_of_small {n : Bool} {m : ℕ} (hm : m ≠ 0) {e : ℤ} {k : ℤ} (hk : ratio (.num n m e) = k) (hlo : -200 ≤ k)
    (hhi : k ≤ 200) : (Nat.log2 m : ℤ) + e < 13 := by
  have hmag : mag m e = |(k : ℚ)| := by rw [← hk, abs_ratio_num]
  have hlt : mag m e < 2 ^ (13 : ℤ) := by
    rw [hmag, ← Int.cast_abs]
    have : |k| ≤ 200 := abs_le.mpr ⟨hlo, hhi⟩
    calc ((|k| : ℤ) : ℚ) ≤ (200 : ℤ) := Int.cast_le.mpr this
      _ < 2 ^ (13 : ℤ) := by norm_num
  exact (zpow_lt_zpow_iff_right₀ one_lt_two).mp ((two_zpow_log2_le hm e).trans_lt hlt)

theorem ratio_power (k : ℤ) : ratio (.num false 1 k) = 2 ^ k := by simp [ratio]

/-- EXP2 of an integer, as the machine sees it. -/
theorem fnSpecial_exp2 {n : Bool} {m : ℕ} (hm : m ≠ 0) (e : ℤ) :
    fnSpecial .exp2 (.num n m e) = if isInteger m e && decide ((Nat.log2 m : ℤ) + e < 13) then
      some (.num false 1 (signed n (roundToInt .rz false m e)), 0) else none := by
  simp only [fnSpecial, if_neg hm]

theorem fnFixed_exp2_row {w : BitVec 3} (hw : isType w = true) {n : Bool} {m : ℕ} {e k : ℤ} (hk : ratio (.num n m e) = k)
    (hholds : Holds (typeFmt w) (2 ^ k)) : fnFixed .exp2 (typeFmt w) (.num n m e) = some (.num false 1 k, 0) := by
  have hspecial : fnSpecial .exp2 (.num n m e) = some (.num false 1 k, 0) := by
    by_cases hm : m = 0
    · subst hm
      rw [ratio_num_zero] at hk
      have hk0 : k = 0 := by exact_mod_cast hk.symm
      rw [hk0]
      rfl
    · obtain ⟨hlo, hhi⟩ := exponent_of_holds hw hholds
      rw [fnSpecial_exp2 hm, isInteger_of_ratio hk, decide_eq_true (order_lt_of_small hm hk hlo hhi), signed_roundToInt hk]
      rfl
  rcases fnFixed_exp2 (roundedFmt_of_isType hw) hspecial with ⟨hfixed, -⟩ | ⟨-, hnot⟩
  · exact hfixed
  · rw [ratio_power] at hnot
    exact absurd hholds hnot

/-! ## The table -/

theorem RoundedFmt.holds_zero {f : FloatFmt} {code : ℕ} (h : RoundedFmt f code) : Holds f 0 := by
  cases h with
  | bin b code h nan =>
    obtain ⟨-, hfin, hratio, -⟩ := h.value_signBit false
    exact ⟨_, hfin, hratio⟩
  | tap t code h nan =>
    refine ⟨0, ?_, ?_⟩
    · show isFinite (t.value 0) = true
      rw [t.value_zero]
      rfl
    · show ratio (t.value 0) = 0
      rw [t.value_zero, ratio_num_zero]

theorem log2_one {m : ℕ} {e : ℤ} (hone : ratio (.num false m e) = 1) : m ≠ 0 ∧ cmpMag m e 1 0 = .eq := by
  have hmag : mag m e = 1 := by
    rw [← abs_ratio_num false, hone, abs_one]
  refine ⟨?_, cmpMag_eq.mpr (by rw [hmag]; simp [mag])⟩
  rintro rfl
  rw [mag_zero] at hmag
  exact zero_ne_one hmag

/-- At the operands of the table the results are the table's. -/
theorem fnFixed_of_row {w : BitVec 3} (hw : isType w = true) {fn : Fn} {v z : Val} {fl : ℕ}
    (h : SpecialRow (typeFmt w) fn v z fl) : fnFixed fn (typeFmt w) v = some (z, fl) := by
  have hf := roundedFmt_of_isType hw
  by_cases hfn : fn = .exp2
  · subst hfn
    cases h with
    | exp2Exact n m e k c int fits exact => exact fnFixed_exp2_row hw int ⟨c, fits, exact⟩
    | exp2Minus =>
      rcases fnFixed_exp2 hf (show fnSpecial .exp2 (.inf true) = some (.num false 0 0, 0) from rfl) with ⟨hfixed, -⟩ | ⟨-, hnot⟩
      · exact hfixed
      · rw [ratio_num_zero] at hnot
        exact absurd hf.holds_zero hnot
    | exp2Inf => rfl
    | ofNan fn s => rfl
  · rw [fnFixed_of_ne hfn]
    cases h with
    | exp2Exact n m e k c int fits exact => exact absurd rfl hfn
    | log2One m e hone =>
      obtain ⟨hm, hcmp⟩ := log2_one hone
      simp [fnSpecial, hm, hcmp]
    | rsqrtNeg m e hm => simp [fnSpecial, hm, flagNV]
    | sqrtNeg m e hm => simp [fnSpecial, hm, flagNV]
    | log2Neg m e hm => simp [fnSpecial, hm, flagNV]
    | _ => rfl

/-- The table's results at numbers stand at the operands of the table alone. -/
theorem specialRow_of_fnSpecial {f : FloatFmt} {fn : Fn} (hfn : fn ≠ .exp2) {n : Bool} {m : ℕ} {e : ℤ} {z : Val} {fl : ℕ}
    (h : fnSpecial fn (.num n m e) = some (z, fl)) : SpecialRow f fn (.num n m e) z fl := by
  by_cases hm : m = 0
  · subst hm
    cases fn with
    | exp2 => exact absurd rfl hfn
    | rcp => cases h; exact .rcpZero n e
    | rsqrt => cases h; exact .rsqrtZero n e
    | sqrt => cases h; exact .sqrtZero n e
    | log2 => cases h; exact .log2Zero n e
    | sin => cases h; exact .sinZero n e
    | cos => cases h; exact .cosZero n e
    | tanh => cases h; exact .tanhZero n e
  · simp only [fnSpecial, if_neg hm] at h
    cases fn with
    | exp2 => exact absurd rfl hfn
    | rcp => cases h
    | sin => cases h
    | cos => cases h
    | tanh => cases h
    | rsqrt =>
      cases n with
      | true => cases h; exact .rsqrtNeg m e hm
      | false => cases h
    | sqrt =>
      cases n with
      | true => cases h; exact .sqrtNeg m e hm
      | false => cases h
    | log2 =>
      cases n with
      | true => cases h; exact .log2Neg m e hm
      | false =>
        simp only [Bool.false_eq_true, if_false, beq_iff_eq] at h
        split_ifs at h with hone
        cases h
        refine .log2One m e ?_
        rw [ratio_num, cmpMag_eq.mp hone]
        simp [sgn, mag]

/-- So do those of EXP2 that the type holds. -/
theorem specialRow_of_exp2 {f : FloatFmt} {code : ℕ} (hf : RoundedFmt f code) {n : Bool} {m : ℕ} {e : ℤ} {z : Val} {fl : ℕ}
    (h : fnFixed .exp2 f (.num n m e) = some (z, fl)) : SpecialRow f .exp2 (.num n m e) z fl := by
  have hrow {k : ℤ} (hk : ratio (.num n m e) = k) (hspecial : fnSpecial .exp2 (.num n m e) = some (.num false 1 k, 0)) :
      SpecialRow f .exp2 (.num n m e) z fl := by
    rcases fnFixed_exp2 hf hspecial with ⟨hfixed, c, hfin, hratio⟩ | ⟨hfixed, -⟩
    · rw [hfixed] at h
      cases h
      exact .exp2Exact n m e k c hk hfin (by rw [hratio, ratio_power])
    · rw [hfixed] at h
      cases h
  by_cases hm : m = 0
  · subst hm
    exact hrow (k := 0) (by rw [ratio_num_zero, Int.cast_zero]) rfl
  · have hspecial := fnSpecial_exp2 (n := n) hm e
    by_cases hint : (isInteger m e && decide ((Nat.log2 m : ℤ) + e < 13)) = true
    · rw [if_pos hint] at hspecial
      rw [Bool.and_eq_true] at hint
      exact hrow (ratio_of_isInteger n hint.1) hspecial
    · rw [if_neg hint] at hspecial
      unfold fnFixed at h
      rw [hspecial] at h
      cases h

/-- At every other number no result is fixed. -/
theorem fnFixed_none {f : FloatFmt} {code : ℕ} (hf : RoundedFmt f code) {fn : Fn} {n : Bool} {m : ℕ} {e : ℤ}
    (hno : ∀ y fl, ¬ SpecialRow f fn (.num n m e) y fl) : fnFixed fn f (.num n m e) = none := by
  by_contra hsome
  obtain ⟨⟨z, fl⟩, h⟩ := Option.ne_none_iff_exists'.mp hsome
  by_cases hfn : fn = .exp2
  · subst hfn
    exact hno z fl (specialRow_of_exp2 hf h)
  · rw [fnFixed_of_ne hfn] at h
    exact hno z fl (specialRow_of_fnSpecial hfn h)

/-- A special operand gives the result and the flags of the table (02 R62). -/
theorem specialFn_row {w : BitVec 3} (hw : isType w = true) {fn : Fn} (st : BitVec 3) (mode : BitVec 2) (x : Word) {v z : Val} {fl : ℕ}
    (h : SpecialRow (typeFmt w) fn v z fl) :
    specialFn fn st w mode x (typeFmt w) v =
      if (typeFmt w).isTapered = true ∧ isFinite z = false then (canonicalNan w.toNat, fl)
      else finish (typeFmt w) (Rounding.ofCode mode.toNat) (z, fl) := by
  have hnum : (z.isInf || z.isNan) = !isFinite z := by cases z <;> rfl
  unfold specialFn
  rw [fnFixed_of_row hw h, ← (roundedFmt_of_isType hw).nan_eq]
  simp only [hnum, Bool.and_eq_true, Bool.not_eq_true']

end Sys2Proof.Machine
end

section
/-! SUPPORT. The special functions at their other operands (02 R61, Table 02-12): the result lies within the function's bound, or is
the rounding of a number that does. -/

namespace Sys2Proof.Machine

open Sys2Proof Sys2Proof.Claims
open Sys2Proof.Config (Fn)

/-! ## The ulp of a value -/

/-- The exponent of the ulp of a value in a type's bounds. -/
def ulpExp (f : FloatFmt) (k : ℕ) (z : ℤ) : ℤ := (if f.isTapered then (Nat.log2 k : ℤ) + z else max ((Nat.log2 k : ℤ) + z) (-126)) - 23

theorem ulpOf_eq (f : FloatFmt) (q : Bool) {k : ℕ} (hk : k ≠ 0) (z : ℤ) :
    ulpOf (!f.isTapered) (ratio (.num q k z)) = 2 ^ ulpExp f k z := by
  rw [ulpOf, abs_ratio_num, log_mag hk, ulpExp]
  cases f.isTapered <;> rfl

/-! ## The value inside the bound -/

/-- The value that a result is taken from: the function's value moved inside its bound, and for TANH limited to -1 and 1. -/
def movedValue (fn : Fn) (a : Val) (d u : ℤ) : Val :=
  if fn = .tanh then clampOne (nudge a (d * fnBound fn) (u - 31)) else nudge a (d * fnBound fn) (u - 31)

/-- It lies inside the bound. -/
theorem movedValue_near (fn : Fn) (q : Bool) (k : ℕ) (z : ℤ) (d : BitVec 32) (u : ℤ)
    (htanh : fn = .tanh → |ratio (.num q k z)| ≤ 1) :
    ∃ n m e, movedValue fn (.num q k z) d.toInt u = .num n m e ∧
      |ratio (.num n m e) - ratio (.num q k z)| ≤ fnBound fn * 2 ^ u ∧ (fn = .tanh → |ratio (.num n m e)| ≤ 1) := by
  obtain ⟨n, m, e, hnudge, hratio⟩ := nudge_num q k z (d.toInt * fnBound fn) (u - 31)
  have hd : |(d.toInt : ℚ)| ≤ 2 ^ (31 : ℤ) := by
    have hlo := BitVec.le_toInt d
    have hhi := BitVec.toInt_lt (x := d)
    norm_num at hlo hhi ⊢
    rw [abs_le]
    constructor
    · exact_mod_cast hlo
    · exact_mod_cast hhi.le
  have hnear : |ratio (.num n m e) - ratio (.num q k z)| ≤ fnBound fn * 2 ^ u := by
    rw [hratio, add_sub_cancel_left, zpow_sub₀ two_ne_zero, Int.cast_mul, Int.cast_natCast, abs_mul, abs_mul, Nat.abs_cast, abs_of_pos (show (0 : ℚ) < 2 ^ u / 2 ^ (31 : ℤ) by positivity)]
    calc |(d.toInt : ℚ)| * fnBound fn * (2 ^ u / 2 ^ (31 : ℤ))
        ≤ 2 ^ (31 : ℤ) * fnBound fn * (2 ^ u / 2 ^ (31 : ℤ)) := by gcongr
      _ = fnBound fn * 2 ^ u := by
        field_simp
  unfold movedValue
  by_cases hfn : fn = .tanh
  · obtain ⟨n', m', e', hclamp, hle, hcloser⟩ := clampOne_num n m e
    rw [if_pos hfn, hnudge, hclamp]
    exact ⟨n', m', e', rfl, (hcloser _ (htanh hfn)).trans hnear, fun _ => hle⟩
  · rw [if_neg hfn, hnudge]
    exact ⟨n, m, e, rfl, hnear, fun h => absurd h hfn⟩

/-! ## Flags -/

theorem roundingFlags_mod (f : FloatFmt) (r : Rounding) (x : ℚ) (c : ℕ) : roundingFlags f r x c % 4 = 0 := by
  simp only [roundingFlags]
  split_ifs <;> rfl

theorem RoundedFmt.encode_flags_mod {f : FloatFmt} {code : ℕ} (h : RoundedFmt f code) (r : Rounding) (n : Bool) (m : ℕ) (e : ℤ) :
    (f.encode r (.num n m e)).2 % 4 = 0 := by
  rw [(h.encode_num r n m e).2.1, roundingFlags_mod]

/-- The flags of an inexact result are NX, and UF. -/
theorem inexactFlags_cases (f : FloatFmt) (c : ℕ) : inexactFlags f c = 16 ∨ inexactFlags f c = 24 := by
  cases f with
  | bin b =>
    simp only [inexactFlags]
    split_ifs
    · exact .inr rfl
    · exact .inl rfl
  | tap t => exact .inl rfl

theorem lor_mod_four {a b : ℕ} (ha : a % 4 = 0) (hb : b % 4 = 0) : (a ||| b) % 4 = 0 := by
  rw [show 4 = 2 ^ 2 from rfl, Nat.or_mod_two_pow, ha, hb]
  rfl

/-! ## One rounding -/

/-- A result rounded once, inexact unless it is the function's value itself. -/
def roundedOnce (f : FloatFmt) (r : Rounding) (exactAt : Val → Bool) (y : Val) : Rounded :=
  let z := finish f r (y, 0)
  (z.1, if exactAt (f.value z.1) then 0 else z.2 ||| inexactFlags f z.1)

theorem roundedOnce_spec {f : FloatFmt} {code : ℕ} (h : RoundedFmt f code) (r : Rounding) (exactAt : Val → Bool) (n : Bool) (m : ℕ)
    (e : ℤ) : RoundsTo f r (ratio (.num n m e)) (roundedOnce f r exactAt (.num n m e)).1 ∧
      (roundedOnce f r exactAt (.num n m e)).2 % 4 = 0 := by
  refine ⟨(h.encode_num r n m e).1, ?_⟩
  simp only [roundedOnce, finish_zero_flags]
  split_ifs
  · rfl
  · refine lor_mod_four (h.encode_flags_mod r n m e) ?_
    rcases inexactFlags_cases f (f.encode r (.num n m e)).1 with heq | heq <;> rw [heq]

/-! ## Results outside the domain -/

/-- A result outside the domain is a number from -1 to 1. -/
theorem wildResult_spec {f : FloatFmt} {code : ℕ} (h : RoundedFmt f code) (c : ℕ) :
    isFinite (f.value (wildResult f c).1) = true ∧ |ratio (f.value (wildResult f c).1)| ≤ 1 ∧ (wildResult f c).2 % 4 = 0 := by
  have hflags : (wildResult f c).2 % 4 = 0 := by
    rcases inexactFlags_cases f (wildResult f c).1 with heq | heq
    · exact (congrArg (· % 4) heq).trans rfl
    · exact (congrArg (· % 4) heq).trans rfl
  have hzero : isFinite (f.value 0) = true ∧ |ratio (f.value 0)| ≤ 1 := by
    cases h with
    | bin b code h nan =>
      obtain ⟨-, hfin, hratio, -⟩ := h.value_signBit false
      exact ⟨hfin, by rw [show (0 : ℕ) = b.signBit false from rfl, hratio, abs_zero]; exact zero_le_one⟩
    | tap t code h nan =>
      show isFinite (t.value 0) = true ∧ |ratio (t.value 0)| ≤ 1
      rw [t.value_zero, ratio_num_zero, abs_zero]
      exact ⟨rfl, zero_le_one⟩
  rw [← and_assoc]
  refine ⟨?_, hflags⟩
  simp only [wildResult]
  cases hv : f.value (lowN c f.width) with
  | nan s => simpa using hzero
  | inf n => simpa using hzero
  | num n m e =>
    by_cases hgt : cmpMag m e 1 0 = .gt
    · simpa [hgt] using hzero
    · have hle := not_lt.mp (fun hlt => hgt (cmpMag_gt.mpr hlt))
      simp only [bne_iff_ne, ne_eq, hgt, not_false_eq_true, if_true, hv, abs_ratio_num]
      exact ⟨rfl, hle.trans_eq (by simp [mag])⟩

/-! ## Results in f32 -/

/-- A result in f32: an overflow of the function's value, else an f32 number inside the bound. -/
def boundedF32 (r : Rounding) (exactAt : Val → Bool) (a y : Val) (b : ℕ) (u : ℤ) : Rounded :=
  let rounded := fmtF32.encode r a
  if bitN rounded.2 2 then rounded
  else
    let p := fmtF32.value (fmtF32.encode .rne y).1
    let res := if withinUlps p a b u then p else fmtF32.value rounded.1
    let bits := (fmtF32.encode .rne res).1
    (bits, if exactAt res then 0 else inexactFlags (.bin fmtF32) bits)

theorem value_f32 (c : ℕ) : fmtF32.value c = (FloatFmt.bin fmtF32).value c := by
  have hother : fmtF32 ≠ fmtE5M2 := by decide
  simp only [FloatFmt.value, if_neg Binary.ieee_f32.other, hother, decide_false, Bool.not_false, Bool.and_true]
  cases fmtF32.value c <;> rfl

theorem roundedFmt_f32 : RoundedFmt (.bin fmtF32) 0 := .bin _ _ Binary.ieee_f32 rfl

/-- A number that does not overflow rounds to one at most a unit away. -/
theorem Binary.Codes.round_error {b : Binary} (h : b.Codes) (r : Rounding) (n : Bool) {m : ℕ} (hm : m ≠ 0) (e : ℤ)
    (hfit : b.roundCode r n m e < b.overCode) :
    |ratio ((FloatFmt.bin b).value (b.signBit n + b.roundCode r n m e)) - ratio (.num n m e)| ≤ 2 ^ b.unitExp m e := by
  obtain ⟨k, up, hlo, hhi, -, hround⟩ := roundUnits_eq r n m e (b.unitExp m e)
  have hunit (j : ℕ) : mag (j + 1) (b.unitExp m e) = mag j (b.unitExp m e) + 2 ^ b.unitExp m e := by
    simp only [mag]
    push_cast
    ring
  have hpos : (0 : ℚ) < 2 ^ b.unitExp m e := by positivity
  rw [h.ratio_code n hfit, ratio_num, abs_sgn_sub, b.grid_roundCode r n hm, hround]
  rw [hunit] at hhi
  cases up with
  | false =>
    rw [Bool.toNat_false, Nat.add_zero, abs_of_nonpos (by linarith)]
    linarith
  | true =>
    rw [Bool.toNat_true, hunit, abs_of_nonneg (by linarith)]
    linarith

/-- The rounding of a number to f32, without an overflow: a number at most an ulp away. -/
theorem encode_f32_near (r : Rounding) (q : Bool) {k : ℕ} (hk : k ≠ 0) (z : ℤ)
    (hfit : bitN (fmtF32.encode r (.num q k z)).2 2 = false) :
    isFinite (fmtF32.value (fmtF32.encode r (.num q k z)).1) = true ∧
      |ratio (fmtF32.value (fmtF32.encode r (.num q k z)).1) - ratio (.num q k z)| ≤ 2 ^ ulpExp (.bin fmtF32) k z := by
  have hencode : fmtF32.encode r (.num q k z) = fmtF32.round r q k z := if_neg hk
  rw [hencode, fmtF32.round_snd] at hfit
  have hin : ¬ fmtF32.overCode ≤ fmtF32.roundCode r q k z := by
    intro hover
    rw [if_pos hover] at hfit
    cases hfit
  have hcodes := Binary.ieee_f32.codes
  have hunit : fmtF32.unitExp k z = ulpExp (.bin fmtF32) k z := by
    show max ((Nat.log2 k : ℤ) + z - 23) (1 - 127 - 23) = max ((Nat.log2 k : ℤ) + z) (-126) - 23
    omega
  rw [hencode, value_f32, fmtF32.round_fst, if_neg hin, ← hunit]
  exact ⟨hcodes.isFinite_code q (not_le.mp hin), hcodes.round_error r q hk z (not_le.mp hin)⟩

/-- A code's number encodes as a code of the same number. -/
theorem encode_f32_value {v : Val} {c : ℕ} (hv : v = fmtF32.value c) (hfin : isFinite v = true) :
    isFinite ((FloatFmt.bin fmtF32).value (fmtF32.encode .rne v).1) = true ∧
      ratio ((FloatFmt.bin fmtF32).value (fmtF32.encode .rne v).1) = ratio v := by
  cases v with
  | nan s => cases hfin
  | inf n => cases hfin
  | num n m e =>
    rw [value_f32] at hv
    exact roundedFmt_f32.encode_exact .rne ⟨c, by rw [← hv]; rfl, by rw [← hv]⟩

/-- The result in f32: inside the bound, or where it overflows the rounding of the function's value. -/
theorem boundedF32_spec {f : FloatFmt} (hf : f = .bin fmtF32) (r : Rounding) (exactAt : Val → Bool) (q : Bool) {k : ℕ} (hk : k ≠ 0)
    (z : ℤ) (n : Bool) (m : ℕ) (e : ℤ) {b : ℕ} (hb : 1 ≤ b) {p : Rounded}
    (hbounded : p = boundedF32 r exactAt (.num q k z) (.num n m e) b (ulpExp f k z)) :
    p.2 % 4 = 0 ∧
      if p.2.testBit 2 = false then
        isFinite (f.value p.1) = true ∧ |ratio (f.value p.1) - ratio (.num q k z)| ≤ b * 2 ^ ulpExp f k z ∧
          (|ratio (.num n m e)| ≤ 1 → |ratio (.num q k z)| ≤ 1 → |ratio (f.value p.1)| ≤ 1)
      else RoundsTo f r (ratio (.num q k z)) p.1 := by
  subst hf
  have hrounds := (roundedFmt_f32.encode_num r q k z).1
  by_cases hover : bitN (fmtF32.encode r (.num q k z)).2 2 = true
  · have hp : p = fmtF32.encode r (.num q k z) := hbounded.trans (if_pos hover)
    rw [hp, ← bitN_eq, hover, if_neg (by decide)]
    exact ⟨roundedFmt_f32.encode_flags_mod r q k z, hrounds⟩
  · have hfit : bitN (fmtF32.encode r (.num q k z)).2 2 = false := by rwa [Bool.not_eq_true] at hover
    obtain ⟨hfin, hnear⟩ := encode_f32_near r q hk z hfit
    set c := if withinUlps (fmtF32.value (fmtF32.encode .rne (.num n m e)).1) (.num q k z) b (ulpExp (.bin fmtF32) k z)
      then (fmtF32.encode .rne (.num n m e)).1 else (fmtF32.encode r (.num q k z)).1 with hc
    have hres : (if withinUlps (fmtF32.value (fmtF32.encode .rne (.num n m e)).1) (.num q k z) b (ulpExp (.bin fmtF32) k z)
        then fmtF32.value (fmtF32.encode .rne (.num n m e)).1 else fmtF32.value (fmtF32.encode r (.num q k z)).1) =
        fmtF32.value c := by
      rw [hc]
      split_ifs <;> rfl
    have hp : p = ((fmtF32.encode .rne (fmtF32.value c)).1,
        if exactAt (fmtF32.value c) then 0 else inexactFlags (.bin fmtF32) (fmtF32.encode .rne (fmtF32.value c)).1) := by
      rw [hbounded]
      simp only [boundedF32, hover, Bool.false_eq_true, if_false, hres]
    have hgood : isFinite (fmtF32.value c) = true ∧ |ratio (fmtF32.value c) - ratio (.num q k z)| ≤ b * 2 ^ ulpExp (.bin fmtF32) k z ∧
        (|ratio (.num n m e)| ≤ 1 → |ratio (.num q k z)| ≤ 1 → |ratio (fmtF32.value c)| ≤ 1) := by
      by_cases hwithin : withinUlps (fmtF32.value (fmtF32.encode .rne (.num n m e)).1) (.num q k z) b (ulpExp (.bin fmtF32) k z) = true
      · rw [hc, if_pos hwithin]
        obtain ⟨hfin, hdist⟩ := withinUlps_iff.mp hwithin
        refine ⟨hfin, hdist, fun hone _ => ?_⟩
        rw [value_f32]
        exact roundsTo_abs_le_one (w := 0) rfl (r := .rne) (roundedFmt_f32.encode_num .rne n m e).1 hone
      · rw [hc, if_neg hwithin]
        refine ⟨hfin, hnear.trans (le_mul_of_one_le_left (by positivity) (by exact_mod_cast hb)), fun _ hone => ?_⟩
        rw [value_f32]
        exact roundsTo_abs_le_one (w := 0) rfl hrounds hone
    obtain ⟨hgfin, hgnear, hgone⟩ := hgood
    obtain ⟨hbits, hratio⟩ := encode_f32_value rfl hgfin
    have hflags : p.2 = 0 ∨ p.2 = 16 ∨ p.2 = 24 := by
      rw [hp]
      cases exactAt (fmtF32.value c)
      · exact .inr (inexactFlags_cases (.bin fmtF32) (fmtF32.encode .rne (fmtF32.value c)).1)
      · exact .inl rfl
    refine ⟨by rcases hflags with h | h | h <;> rw [h], ?_⟩
    rw [if_pos (by rcases hflags with h | h | h <;> rw [h] <;> rfl), hp, hratio]
    exact ⟨hbits, hgnear, hgone⟩

/-! ## Every function -/

theorem one_le_fnBound {fn : Fn} (hfn : fn ≠ .sqrt) : 1 ≤ fnBound fn := by
  cases fn with
  | sqrt => exact absurd rfl hfn
  | _ => decide

/-- A special function at a number whose result is not fixed, by its steps. -/
theorem specialFn_num {f : FloatFmt} {fn : Fn} {n : Bool} {m : ℕ} {e : ℤ} (hfixed : fnFixed fn f (.num n m e) = none) {q : Bool} {k : ℕ}
    {z : ℤ} (hvalue : fnValue fn n m e = .num q k z) (st dt : BitVec 3) (mode : BitVec 2) (x : Word) :
    ∃ (d : BitVec 32) (c : ℕ), specialFn fn st dt mode x f (.num n m e) =
      if fn = .sqrt then finish f (Rounding.ofCode mode.toNat) (.num q k z, 0)
      else if ((fn = .sin || fn = .cos) && cmpMag m e 1 20 == .gt) = true then wildResult f c
      else if f = .bin fmtF32 then
        boundedF32 (Rounding.ofCode mode.toNat) (fnExactAt fn n m e) (.num q k z) (movedValue fn (.num q k z) d.toInt (ulpExp f k z))
          (fnBound fn) (ulpExp f k z)
      else roundedOnce f (Rounding.ofCode mode.toNat) (fnExactAt fn n m e) (movedValue fn (.num q k z) d.toInt (ulpExp f k z)) := by
  refine ⟨Config.sfuDelta fn st dt (if f.isTapered then 0 else mode) x,
    (Config.sfuWild fn st dt (if f.isTapered then 0 else mode) x).toNat, ?_⟩
  unfold specialFn
  rw [hfixed]
  simp only [hvalue]
  by_cases hf : f = .bin fmtF32
  · subst hf
    rfl
  · simp only [if_neg hf]
    rfl

theorem cmpMag_domain {n : Bool} {m : ℕ} {e : ℤ} : cmpMag m e 1 20 = .gt ↔ 2 ^ 20 < |ratio (.num n m e)| := by
  rw [cmpMag_gt, abs_ratio_num, show mag 1 20 = 2 ^ 20 by norm_num [mag]]

/-- At every other number the result is one that the bound allows (02 R61, Table 02-12). -/
theorem specialFn_bound {w : BitVec 3} (hw : isType w = true) (fn : Fn) (st : BitVec 3) (mode : BitVec 2) (x : Word) (n : Bool) (m : ℕ)
    (e : ℤ) (q : Bool) (k : ℕ) (z : ℤ) (hno : ∀ y fl, ¬ SpecialRow (typeFmt w) fn (.num n m e) y fl)
    (hvalue : fnValue fn n m e = .num q k z) (hk : k ≠ 0) :
    let f := typeFmt w
    let a := ratio (.num q k z)
    let p := specialFn fn st w mode x f (.num n m e)
    p.2 % 4 = 0 ∧
      if (fn = .sin ∨ fn = .cos) ∧ 2 ^ 20 < |ratio (.num n m e)| then
        isFinite (f.value p.1) = true ∧ |ratio (f.value p.1)| ≤ 1
      else if f = .bin fmtF32 ∧ fn ≠ .sqrt ∧ p.2.testBit 2 = false then
        isFinite (f.value p.1) = true ∧ |ratio (f.value p.1) - a| ≤ fnBound fn * ulpOf true a ∧
          (fn = .tanh → |ratio (f.value p.1)| ≤ 1)
      else ∃ y, |y - a| ≤ fnBound fn * ulpOf (!f.isTapered) a ∧ RoundsTo f (Rounding.ofCode mode.toNat) y p.1 ∧
        (fn = .tanh → |ratio (f.value p.1)| ≤ 1) := by
  intro f a p
  have hf := roundedFmt_of_isType hw
  have htanh : fn = .tanh → |ratio (.num q k z)| ≤ 1 := by
    rintro rfl
    rw [← hvalue]
    exact abs_tanh_le n m e
  obtain ⟨d, c, hp⟩ := specialFn_num (fnFixed_none hf hno) hvalue st w mode x
  change p = _ at hp
  rw [ulpOf_eq f q hk z]
  by_cases hsqrt : fn = .sqrt
  · rw [if_pos hsqrt, finish_zero_flags] at hp
    rw [hp, if_neg (by rw [hsqrt]; simp), if_neg (fun h => h.2.1 hsqrt)]
    refine ⟨hf.encode_flags_mod _ q k z, a, ?_, (hf.encode_num _ q k z).1, fun h => by rw [hsqrt] at h; cases h⟩
    rw [sub_self, abs_zero]
    positivity
  rw [if_neg hsqrt] at hp
  by_cases hwild : (fn = .sin ∨ fn = .cos) ∧ 2 ^ 20 < |ratio (.num n m e)|
  · rw [if_pos (by simpa [← cmpMag_domain] using hwild)] at hp
    obtain ⟨hfin, hone, hflags⟩ := wildResult_spec hf c
    rw [hp, if_pos hwild]
    exact ⟨hflags, hfin, hone⟩
  rw [if_neg (by simpa [← cmpMag_domain] using hwild)] at hp
  rw [if_neg hwild]
  obtain ⟨n', m', e', hmoved, hnear, hle⟩ := movedValue_near fn q k z d (ulpExp f k z) htanh
  rw [hmoved] at hp
  by_cases hf32 : f = .bin fmtF32
  · have hkind : f.isTapered = false := by rw [hf32]; rfl
    have hulp : ulpOf true a = 2 ^ ulpExp f k z := by
      rw [← ulpOf_eq f q hk z, hkind]
      rfl
    rw [if_pos hf32] at hp
    obtain ⟨hflags, hspec⟩ := boundedF32_spec hf32 _ _ q hk z n' m' e' (one_le_fnBound hsqrt) hp
    refine ⟨hflags, ?_⟩
    rw [hulp]
    by_cases hbit : p.2.testBit 2 = false
    · rw [if_pos ⟨hf32, hsqrt, hbit⟩]
      rw [if_pos hbit] at hspec
      obtain ⟨hfin, hdist, hone⟩ := hspec
      exact ⟨hfin, hdist, fun h => hone (hle h) (htanh h)⟩
    · rw [if_neg (fun h => hbit h.2.2)]
      rw [if_neg hbit] at hspec
      refine ⟨a, ?_, hspec, fun h => roundsTo_abs_le_one hw hspec (htanh h)⟩
      rw [sub_self, abs_zero]
      positivity
  · rw [if_neg hf32] at hp
    obtain ⟨hrounds, hflags⟩ := roundedOnce_spec hf (Rounding.ofCode mode.toNat) (fnExactAt fn n m e) n' m' e'
    rw [hp, if_neg (fun h => hf32 h.1)]
    exact ⟨hflags, _, hnear, hrounds, fun h => roundsTo_abs_le_one hw hrounds (hle h)⟩

end Sys2Proof.Machine
end

section
/-! SUPPORT. The floating instructions run (05 R111 to R116, R123, R124): each writes the values of its entry and raises the flags
of its active lanes. -/

namespace Sys2Proof.Machine

open Sys2Proof Sys2Proof.Claims

/-! ## The effect of a floating instruction -/

/-- A meaning reads and writes the slices of a floating entry, checks nothing beside, and has its values and flags as its effect. -/
structure FloatRuns (op : FloatOp) (i : Instr) (m : Meaning) : Prop where
  plain : ∃ dests reads effect, m = { spans := op.srcs ++ [(op.d, op.w / 4)], dests := dests, reads := reads, effect := effect }
  effect : ∀ v s, m.effect v (Instr.lanes i v) s =
    .ok ((s.write v op.d op.w (valuesOf (Instr.lanes i v) (fun j => (op.val v j).1)) (Instr.lanes i v) (op.tag v)).raise v
      (flagsOf (Instr.lanes i v) (fun j => (op.val v j).2)))

/-- The values of the active lanes, of a list of results. -/
theorem map_fst_active (act : Word) (f : ℕ → Rounded) :
    (allLanes.map (fun j => if hasLane act j then f j else (0, 0))).map Prod.fst = valuesOf act (fun j => (f j).1) := by
  rw [List.map_map, valuesOf]
  refine List.map_congr_left (fun j _ => ?_)
  rw [Function.comp_apply, apply_ite Prod.fst]

/-- The flags of the active lanes, of a list of results. -/
theorem foldl_lor_active (act : Word) (f : ℕ → Rounded) :
    (allLanes.map (fun j => if hasLane act j then f j else (0, 0))).foldl (fun acc r => Nat.lor acc r.2) 0 =
      flagsOf act (fun j => (f j).2) := by
  rw [List.foldl_map, flagsOf]
  show (List.range 32).foldl _ 0 = _
  congr 1
  funext acc j
  rw [apply_ite Prod.snd]
  rfl

/-- A word whose meaning is that of a floating entry completes with the entry's values and flags. -/
theorem FloatRuns.completes {op : FloatOp} {i : Instr} {m : Meaning} (hm : FloatRuns op i m) (hexec : meaningOf i = some m)
    {s : State} {iss : Issue} {vs : List View} (hI : Issuing s iss vs) (hwf : i.wf = true)
    (hb : InBudget vs (op.srcs ++ [(op.d, op.w / 4)])) (hw : 0 < op.w) (h4 : op.w % 4 = 0)
    (ht : ∀ v, (op.tag v).Fits (Instr.lanes i v) op.w (fun j => (op.val v j).1)) :
    Completes i s vs (WroteFloat (Instr.lanes i) op.d op.w op.val op.tag) := by
  obtain ⟨⟨dests, reads, effect, hplain⟩, heffect⟩ := hm
  unfold Completes
  rw [exec_eq_runWord hexec]
  subst hplain
  refine runWord_each (fun _ => True) hI
    (Meaning.check_ok hwf (fun _ _ => rfl) (fun v hv p hp => hb v hv p (by simpa using hp))
      (fun v _ => Meaning.checkRest_ok rfl (fun _ => rfl)) (fun _ _ => rfl)) rfl rfl rfl ?_ trivial
  intro v _ _ s _
  exact ⟨_, heffect v s, ⟨_, write_wroteOne s v _ op.d op.w (fun v j => (op.val v j).1) op.tag hw h4 (ht v), rfl⟩, trivial⟩

/-- The common shape of a floating meaning runs as its entry. -/
theorem runsAs_floating (i : Instr) (op : FloatOp) (reads : List (Nat × Nat)) :
    FloatRuns op i { Meaning.floating op.srcs op.d op.w op.val op.tag with reads := reads } :=
  ⟨⟨_, _, _, rfl⟩, fun v s => by
    show Except.ok (State.raise (State.write s v _ _ (List.map Prod.fst (List.map _ _)) _ _) v (List.foldl _ 0 (List.map _ _))) = _
    rw [map_fst_active, foldl_lor_active]⟩

/-! ## The lanes that a reduction combines -/

theorem combineLanes_eq_combined (scan : Bool) (v : View) (act : Word) (i : ℕ) :
    combineLanes scan v.seg act i = combined scan v act i := by
  unfold combineLanes segLanes combined lanesOf
  cases scan
  · rw [if_neg Bool.false_ne_true, List.filter_filter]
    refine List.filter_congr (fun j _ => ?_)
    simp [segBase, base, View.seg, Bool.and_comm]
  · rw [if_pos rfl, List.filter_filter, List.filter_filter]
    refine List.filter_congr (fun j _ => ?_)
    simp [segBase, base, View.seg, Bool.and_comm, Bool.and_assoc]

theorem noting_eq_statedTag (t : OpTag) (src : Bool) : t.noting src = statedTag t src := by cases t <;> rfl

theorem combineTag_redu (v : View) (s w : ℕ) : combineTag false v (v.isU s w) = Claims.reduTag s w v := by
  have hseg : v.seg = 32 ↔ v.agent.seg = 32 := by
    rw [View.seg, ← BitVec.toNat_inj]
    rfl
  unfold combineTag Claims.reduTag
  rw [noting_eq_statedTag]
  simp [hseg]

theorem combineTag_scan (v : View) (src : Bool) : combineTag true v src = .g := rfl

/-- A floating reduction or scan runs as its entry. -/
theorem runsAs_combine (scan : Bool) (i : Instr) (h : Hdr) (w : BitVec 3) (d a : BitVec 7) (o : BitVec 2) (tag : View → OpTag)
    (htag : ∀ v, combineTag scan v (v.isU (h.a a) (typeWidth w)) = tag v) :
    FloatRuns
      { srcs := [(h.a a, typeWidth w / 4)], d := h.d d, w := typeWidth w,
        val := fun v j => reduFloat o.toNat (typeFmt w) v.rounding (floatOperands scan h w a v (Instr.lanes i v) j), tag := tag }
      i (combineFloat scan h w d a o) := by
  refine ⟨⟨_, _, _, rfl⟩, fun v s => ?_⟩
  show Except.ok (State.raise (State.write s v _ _ (List.map Prod.fst (List.map _ _)) _ _) v (List.foldl _ 0 (List.map _ _))) = _
  rw [map_fst_active, foldl_lor_active, htag]
  simp only [combineLanes_eq_combined]
  rfl

/-! ## The entries -/

/-- What a floating instruction's meaning is, and that its entry's tag fits its values. -/
structure FloatEntry (i : Instr) (op : FloatOp) : Prop where
  runs : ∃ m, meaningOf i = some m ∧ FloatRuns op i m
  width : 0 < op.w ∧ op.w % 4 = 0
  fits : ∀ v, (op.tag v).Fits (Instr.lanes i v) op.w (fun j => (op.val v j).1)

theorem typeWidth_pos (w : BitVec 3) : 0 < typeWidth w ∧ typeWidth w % 4 = 0 := by
  revert w
  decide

theorem fmtBits_pos (c : BitVec 4) : 0 < fmtBits c.toNat ∧ fmtBits c.toNat % 4 = 0 := by
  revert c
  decide

/-- The tag of a lane-wise entry fits values that depend on the sources alone. -/
theorem fits_claimedLaneTag {v : View} {srcs : List (ℕ × ℕ)} {lanes : Word} {w : ℕ} {val : ℕ → ℕ}
    (h : (∀ p ∈ srcs, ∀ i j, v.read i p.1 p.2 = v.read j p.1 p.2) → ∀ i j, val i = val j) :
    (Claims.laneTag srcs v).Fits lanes w val := fits_uniformTag h

/-- An instruction of three operands. -/
theorem floatEntry_float3 {i : Instr} {h : Hdr} {w : BitVec 3} {d a b : BitVec 7} {g : FOp}
    {f : FloatFmt → Rounding → Val → Val → Val → Rounded} (hm : meaningOf i = some (Machine.float3 g h w d a b))
    (hg : g ≠ .fma) (hf : ∀ fmt r x y z, f fmt r x y z = g.eval fmt r x y z) (hz : ∀ fmt r x y z z', f fmt r x y z = f fmt r x y z') :
    FloatEntry i (Claims.float3 h w d a b f) := by
  refine ⟨⟨_, hm, ?_⟩, typeWidth_pos w, fun v => fits_claimedLaneTag (fun hread j k => ?_)⟩
  · have hop : f = fun fmt r x y z => g.eval fmt r x y z := by
      funext fmt r x y z
      exact hf fmt r x y z
    subst hop
    cases g with
    | fma => exact absurd rfl hg
    | _ => exact runsAs_floating i (Claims.float3 h w d a b _) []
  · have ha := hread (h.a a, typeWidth (h.typeA w)) (by simp [bothFloat]) j k
    have hb := hread (h.b b, typeWidth (h.typeB w)) (by simp [bothFloat]) j k
    simp only [Claims.float3, valA, valB, ha, hb]
    rw [hz]

theorem floatEntry_ffma (h : Hdr) (w : BitVec 3) (d a b : BitVec 7) :
    ∃ op, floatResult (.ffma h w d a b) = some op ∧ FloatEntry (.ffma h w d a b) op := by
  refine ⟨_, rfl, ⟨_, rfl, runsAs_floating _ _ [span (h.d d) (typeWidth w)]⟩, typeWidth_pos w,
    fun v => fits_claimedLaneTag (fun hread j k => ?_)⟩
  have ha := hread (h.a a, typeWidth (h.typeA w)) (by simp [bothFloat]) j k
  have hb := hread (h.b b, typeWidth (h.typeB w)) (by simp [bothFloat]) j k
  have hd := hread (h.d d, typeWidth w) (by simp) j k
  simp only [Claims.float3, valA, valB, ha, hb, hd]

/-- An instruction of one operand, which depends on the operand's bits. -/
theorem floatEntry_float2 {i : Instr} {h : Hdr} {w : BitVec 3} {d a : BitVec 7} {f : View → ℕ → Rounded}
    (hm : meaningOf i = some (Machine.float2 h w d a f)) : FloatEntry i (Claims.float2 h w d a f) := by
  refine ⟨⟨_, hm, runsAs_floating i (Claims.float2 h w d a f) []⟩, typeWidth_pos w,
    fun v => fits_claimedLaneTag (fun hread j k => ?_)⟩
  have ha := hread (h.a a, typeWidth (h.typeA w)) (by simp) j k
  simp only [Claims.float2, ha]

/-- A conversion. -/
theorem floatEntry_convert {i : Instr} {sat : Bool} {h : Hdr} {sf df : BitVec 4} {d a : BitVec 7} {r : BitVec 3}
    (hm : meaningOf i = some (convert2 sat h sf d a df r)) :
    FloatEntry i
      { srcs := [(h.a a, fmtBits sf.toNat / 4)], d := h.d d, w := fmtBits df.toNat,
        val := fun v j => convert (v.convertRounding r) sat sf.toNat df.toNat (v.read j (h.a a) (fmtBits sf.toNat)),
        tag := Claims.laneTag [(h.a a, fmtBits sf.toNat)] } := by
  refine ⟨⟨_, hm, runsAs_floating i _ []⟩, fmtBits_pos df, fun v => fits_claimedLaneTag (fun hread j k => ?_)⟩
  have ha := hread (h.a a, fmtBits sf.toNat) (by simp) j k
  simp only [ha]

/-- The lanes of one segment of 32 combine the same operands. -/
theorem combined_of_seg32 {v : View} (hseg : v.agent.seg = 32) (act : Word) {j k : ℕ} (hj : j < 32) (hk : k < 32) :
    combined false v act j = combined false v act k := by
  have hbase (i : ℕ) (hi : i < 32) : base v i = 0 := by
    rw [base, hseg, show (32 : BitVec 32).toNat = 32 from rfl, Nat.mod_eq_of_lt hi, Nat.sub_self]
  unfold combined
  rw [hbase j hj, hbase k hk]
  simp

theorem floatEntry_reduFloat (h : Hdr) (w : BitVec 3) (d a : BitVec 7) (o : BitVec 2) :
    ∃ op, floatResult (.reduFloat h w d a o) = some op ∧ FloatEntry (.reduFloat h w d a o) op := by
  refine ⟨_, rfl, ⟨_, rfl, runsAs_combine false _ h w d a o _ (fun v => combineTag_redu v _ _)⟩, typeWidth_pos w, fun v => ?_⟩
  show (Claims.reduTag (h.a a) (typeWidth w) v).Fits _ _ _
  by_cases hseg : v.agent.seg = 32
  · rw [Claims.reduTag, if_pos hseg, ← noting_eq_statedTag]
    refine fits_noting (fun j k hj hk _ _ => ?_)
    simp only [floatOperands]
    rw [combined_of_seg32 hseg _ hj hk]
  · rw [Claims.reduTag, if_neg hseg]
    trivial

theorem floatEntry_scanFloat (h : Hdr) (w : BitVec 3) (d a : BitVec 7) (o : BitVec 2) :
    ∃ op, floatResult (.scanFloat h w d a o) = some op ∧ FloatEntry (.scanFloat h w d a o) op :=
  ⟨_, rfl, ⟨_, rfl, runsAs_combine true _ h w d a o _ (fun v => combineTag_scan v _)⟩, typeWidth_pos w, fun _ => trivial⟩

/-- Every floating entry is what its instruction does. -/
theorem floatEntry {i : Instr} {op : FloatOp} (hop : floatResult i = some op) : FloatEntry i op := by
  cases i
  case fadd h w d a b =>
    cases hop
    exact floatEntry_float3 (g := .add) rfl (by decide) (fun _ _ _ _ _ => rfl) (fun _ _ _ _ _ _ => rfl)
  case fsub h w d a b =>
    cases hop
    exact floatEntry_float3 (g := .sub) rfl (by decide) (fun _ _ _ _ _ => rfl) (fun _ _ _ _ _ _ => rfl)
  case fmul h w d a b =>
    cases hop
    exact floatEntry_float3 (g := .mul) rfl (by decide) (fun _ _ _ _ _ => rfl) (fun _ _ _ _ _ _ => rfl)
  case fmin h w d a b =>
    cases hop
    exact floatEntry_float3 (g := .min) rfl (by decide) (fun _ _ _ _ _ => rfl) (fun _ _ _ _ _ _ => rfl)
  case fmax h w d a b =>
    cases hop
    exact floatEntry_float3 (g := .max) rfl (by decide) (fun _ _ _ _ _ => rfl) (fun _ _ _ _ _ _ => rfl)
  case ffma h w d a b =>
    obtain ⟨_, heq, hentry⟩ := floatEntry_ffma h w d a b
    cases heq.symm.trans hop
    exact hentry
  case reduFloat h w d a o =>
    obtain ⟨_, heq, hentry⟩ := floatEntry_reduFloat h w d a o
    cases heq.symm.trans hop
    exact hentry
  case scanFloat h w d a o =>
    obtain ⟨_, heq, hentry⟩ := floatEntry_scanFloat h w d a o
    cases heq.symm.trans hop
    exact hentry
  case cvt h sf d a df r =>
    cases hop
    exact floatEntry_convert rfl
  case cvq h sf d a df r =>
    cases hop
    exact floatEntry_convert rfl
  case fabs | fneg | frnd | rcp | rsqrt | sqrt | exp2 | log2 | sin | cos | tanh =>
    cases hop
    exact floatEntry_float2 rfl
  all_goals cases hop

/-- A floating instruction completes with the values, the tag and the flags of its entry. -/
theorem floatResult_completes {i : Instr} {op : FloatOp} (h : floatResult i = some op) (hwf : i.wf = true) {s : State}
    {iss : Issue} {vs : List View} (hI : Issuing s iss vs) (hb : InBudget vs (op.srcs ++ [(op.d, op.w / 4)])) :
    Completes i s vs (WroteFloat (Instr.lanes i) op.d op.w op.val op.tag) := by
  obtain ⟨⟨m, hm, hruns⟩, ⟨hpos, hfour⟩, hfits⟩ := floatEntry h
  exact hruns.completes hm hI hwf hb hpos hfour hfits

end Sys2Proof.Machine
end

section
/-! PROOF of O11: the floating instructions complete with one rounding of the exact result, their flags and tags, and the special
functions keep their bounds (05 R111 to R116, R123, R124; 02 R42, R57, R61, R62). -/

namespace Sys2Proof.Machine

open Sys2Proof Sys2Proof.Claims

/-- The values of a tapered type, read in any tapered type. -/
theorem taperedVal_of_type {t w : BitVec 3} (htap : (typeFmt t).isTapered = (typeFmt w).isTapered)
    (hw : (typeFmt w).isTapered = true) (x : ℕ) : TaperedVal ((typeFmt t).value x) := by
  rw [hw] at htap
  generalize typeFmt t = f at htap
  cases f with
  | bin b => cases htap
  | tap t => exact taperedVal_value t x

/-- The extremes and the sums of operands of one kind of type. -/
theorem extremes_of_type {w : BitVec 3} (r : Rounding) {l : List Val} (hw : isType w = true)
    (hl : ∀ v ∈ l, ∃ t x, isType t = true ∧ (typeFmt t).isTapered = (typeFmt w).isTapered ∧ v = (typeFmt t).value x) :
    (∀ u v isMax, l = [u, v] → ExtremeResult (typeFmt w) r isMax l (fminmax isMax (typeFmt w) r u v)) ∧
      (∃ p, SumOf r l p ∧ reduFloat 0 (typeFmt w) r l = finish (typeFmt w) r p) ∧
      (l ≠ [] → ∀ isMax, ExtremeResult (typeFmt w) r isMax l (reduFloat (if isMax then 2 else 1) (typeFmt w) r l)) := by
  have hf := roundedFmt_of_isType hw
  have htap (h : (typeFmt w).isTapered = true) : ∀ v ∈ l, TaperedVal v := by
    intro v hv
    obtain ⟨t, x, -, hkind, rfl⟩ := hl v hv
    exact taperedVal_of_type hkind h x
  refine ⟨?_, ⟨addExact r l, addExact_sumOf r l, rfl⟩, fun hne isMax => reduFloat_extreme hf r isMax hne htap⟩
  rintro u v isMax rfl
  exact fminmax_extreme hf r isMax (fun h => ⟨htap h u (by simp), htap h v (by simp)⟩)

/-- FABS and FNEG between types. -/
theorem signChanged_of_type (negate : Bool) {st dt : BitVec 3} (r : Rounding) {x : ℕ} (hst : isType st = true) (hdt : isType dt = true)
    (hx : x < 2 ^ (typeFmt st).width) :
    SignChanged negate st.toNat dt.toNat (typeFmt st) (typeFmt dt) r x
      (fsign negate st.toNat dt.toNat (typeFmt st) (typeFmt dt) r x) :=
  fsign_signChanged negate (roundedFmt_of_isType hst) (roundedFmt_of_isType hdt) (fun h => by rw [BitVec.toNat_inj.mp h]) r hx

/-- Settles O11: completion by the meaning of each entry, roundings on the grid of each type's codes, and the special functions by
the value that the result is taken from, which lies inside the bound. -/
theorem floatResults : Obligations.FloatResults := by
  unfold Obligations.FloatResults
  refine ⟨?_, ⟨fun w hw => floatFmt_of_isType hw, ?_⟩, ⟨?_, ?_, negate_spec, ?_⟩, ⟨?_, ?_, ?_⟩, ?_⟩
  · intro i op hop hwf s iss vs hI hb
    exact floatResult_completes hop hwf hI hb
  · intro code f r nv hcode hf
    exact finish_rounds r nv hcode hf
  · exact addExact_sumOf
  · exact mulExact_productOf
  · intro w r l hw hl
    exact extremes_of_type r hw hl
  · intro r sat sf df x _ _ _ _ _
    exact convert_converted r sat sf df x
  · intro negate st dt r x hst hdt _ hx
    exact signChanged_of_type negate r hst hdt hx
  · intro dt r v hdt
    exact fround_roundedToInteger (roundedFmt_of_isType hdt) r v
  · intro fn st dt mode x hdt
    refine ⟨fun v z fl hrow => specialFn_row hdt st mode x hrow, ?_⟩
    intro n m e q k z hno hvalue hk
    exact specialFn_bound hdt fn st mode x n m e q k z hno hvalue hk

end Sys2Proof.Machine
end

section
/-! PROOF of O8: memory reads back what was written, and memories in canonical form that read alike are the same (02 R39). -/

namespace Sys2Proof.Machine

open Sys2Proof

/-! ## Bytes after a write of several bytes -/

/-- Bytes written leave every byte outside their range. -/
theorem Memory.byte_putBytes_outside {m : Memory} {a b : Nat} {bs : List (BitVec 8)} (h : b < a ∨ a + bs.length ≤ b) :
    Memory.byte (Memory.putBytes m a bs) b = Memory.byte m b := by
  induction bs generalizing m a with
  | nil => rfl
  | cons c t ih =>
    rw [List.length_cons] at h
    have hb : b ≠ a := by omega
    rw [Memory.putBytes, ih (by omega), Memory.byte_put, if_neg hb]

/-- Bytes written read back. -/
theorem Memory.bytes_putBytes (m : Memory) (a : Nat) (bs : List (BitVec 8)) :
    Memory.bytes (Memory.putBytes m a bs) a bs.length = bs := by
  induction bs generalizing m a with
  | nil => rfl
  | cons c t ih =>
    have hfirst : Memory.byte (Memory.putBytes (Memory.put m a c) (a + 1) t) a = c := by
      rw [Memory.byte_putBytes_outside (.inl a.lt_succ_self), Memory.byte_put, if_pos rfl]
    rw [List.length_cons, Memory.putBytes, Memory.bytes, hfirst, ih]

/-- A number written reads back, cut to the bytes written. -/
theorem Memory.num_putNum (m : Memory) (a n v : Nat) : Memory.num (Memory.putNum m a n v) a n = v % 256 ^ n := by
  have hback := Memory.bytes_putBytes m a (natToBytes v n)
  rw [natToBytes_length] at hback
  rw [Memory.num, Memory.putNum, hback, bytesToNat_natToBytes]

/-- A number written leaves every byte outside its range. -/
theorem Memory.byte_putNum_outside (m : Memory) {a b n : Nat} (v : Nat) (h : b < a ∨ a + n ≤ b) :
    Memory.byte (Memory.putNum m a n v) b = Memory.byte m b :=
  Memory.byte_putBytes_outside (by rwa [natToBytes_length])

/-! ## Memories in canonical form are determined by their bytes -/

theorem Memory.wfFrom_cons {lo k : Nat} {v : BitVec 8} {t : Memory} :
    Memory.wfFrom lo ((k, v) :: t) = true ↔ lo ≤ k ∧ v ≠ Memory.unlisted ∧ Memory.wfFrom (k + 1) t = true := by
  simp only [Memory.wfFrom, Bool.and_eq_true, decide_eq_true_eq, and_assoc]

theorem Memory.byte_cons_self (k : Nat) (v : BitVec 8) (t : Memory) : Memory.byte ((k, v) :: t) k = v := if_pos rfl

theorem Memory.byte_cons_ne {k a : Nat} (v : BitVec 8) (t : Memory) (h : k ≠ a) :
    Memory.byte ((k, v) :: t) a = Memory.byte t a := if_neg h

/-- A memory in canonical form lists nothing below its bound. -/
theorem Memory.byte_of_lt {lo a : Nat} {m : Memory} (hm : Memory.wfFrom lo m = true) (ha : a < lo) :
    Memory.byte m a = Memory.unlisted := by
  induction m generalizing lo with
  | nil => rfl
  | cons c t ih =>
    obtain ⟨k, v⟩ := c
    obtain ⟨hk, -, ht⟩ := Memory.wfFrom_cons.mp hm
    rw [Memory.byte_cons_ne v t (by omega), ih ht (by omega)]

/-- No memory in canonical form begins above an address that another one, which reads alike, begins with. -/
theorem Memory.first_le {lo lo' k k' : Nat} {v v' : BitVec 8} {t t' : Memory} (hm : Memory.wfFrom lo ((k, v) :: t) = true)
    (hm' : Memory.wfFrom lo' ((k', v') :: t') = true)
    (h : ∀ a, Memory.byte ((k, v) :: t) a = Memory.byte ((k', v') :: t') a) : k' ≤ k := by
  obtain ⟨-, hv, -⟩ := Memory.wfFrom_cons.mp hm
  obtain ⟨-, hv', ht'⟩ := Memory.wfFrom_cons.mp hm'
  by_contra hlt
  have hfrom : Memory.wfFrom k' ((k', v') :: t') = true := Memory.wfFrom_cons.mpr ⟨le_rfl, hv', ht'⟩
  refine hv ?_
  calc v = Memory.byte ((k, v) :: t) k := (Memory.byte_cons_self k v t).symm
    _ = Memory.byte ((k', v') :: t') k := h k
    _ = Memory.unlisted := Memory.byte_of_lt hfrom (by omega)

/-- A memory in canonical form in which every byte reads as an unlisted one lists nothing. -/
theorem Memory.eq_nil_of_unlisted {lo : Nat} {m : Memory} (hm : Memory.wfFrom lo m = true)
    (h : ∀ a, Memory.byte m a = Memory.unlisted) : m = [] := by
  cases m with
  | nil => rfl
  | cons c t =>
    obtain ⟨k, v⟩ := c
    obtain ⟨-, hv, -⟩ := Memory.wfFrom_cons.mp hm
    exact absurd ((Memory.byte_cons_self k v t).symm.trans (h k)) hv

/-- Two memories in canonical form that read alike are the same. -/
theorem Memory.ext_of_wfFrom {lo lo' : Nat} {m m' : Memory} (hm : Memory.wfFrom lo m = true)
    (hm' : Memory.wfFrom lo' m' = true) (h : ∀ a, Memory.byte m a = Memory.byte m' a) : m = m' := by
  induction m generalizing lo lo' m' with
  | nil => exact (Memory.eq_nil_of_unlisted hm' (fun a => (h a).symm)).symm
  | cons c t ih =>
    cases m' with
    | nil => exact Memory.eq_nil_of_unlisted hm h
    | cons c' t' =>
      obtain ⟨k, v⟩ := c
      obtain ⟨k', v'⟩ := c'
      obtain rfl : k = k' := le_antisymm (Memory.first_le hm' hm (fun a => (h a).symm)) (Memory.first_le hm hm' h)
      have hv : v = v' := by rw [← Memory.byte_cons_self k v t, h k, Memory.byte_cons_self]
      obtain ⟨-, -, ht⟩ := Memory.wfFrom_cons.mp hm
      obtain ⟨-, -, ht'⟩ := Memory.wfFrom_cons.mp hm'
      have htail : t = t' := by
        refine ih ht ht' (fun a => ?_)
        by_cases hka : k = a
        · rw [Memory.byte_of_lt ht (by omega), Memory.byte_of_lt ht' (by omega)]
        · rw [← Memory.byte_cons_ne v t hka, h a, Memory.byte_cons_ne v' t' hka]
      rw [hv, htail]

/-- Settles O8: the number written and its frame by induction on its bytes, and the two memories by induction on their entries. -/
theorem memoryReadsBack : Obligations.MemoryReadsBack := by
  unfold Obligations.MemoryReadsBack
  refine ⟨fun m a n v => ⟨Memory.num_putNum m a n v, fun b hb => Memory.byte_putNum_outside m v hb⟩, ?_⟩
  intro m₁ m₂ hwf₁ hwf₂ h
  exact Memory.ext_of_wfFrom hwf₁ hwf₂ h

end Sys2Proof.Machine
end

section
/-! SUPPORT. The terms of the matrix array (03 R69, R70, R72): exact products of any number of factors, as rational numbers. -/

namespace Sys2Proof.Machine

open Sys2Proof Sys2Proof.Claims

/-! ## The three kinds of product -/

/-- Whether the product of some factors is a NaN: one of them is, or a zero stands beside an infinity. -/
def NanProduct (fs : List Val) : Prop :=
  (∃ x ∈ fs, x.isNan = true) ∨ (∃ x ∈ fs, x.isZero = true) ∧ ∃ x ∈ fs, x.isInf = true

/-- The sign of a product: minus for an odd number of minus signs. -/
def productSign (fs : List Val) : Bool := (fs.filter (fun x => x.neg)).length % 2 == 1

theorem productSign_append (xs ys : List Val) : productSign (xs ++ ys) = (productSign xs != productSign ys) := by
  have hparity (m n : ℕ) : ((m + n) % 2 == 1) = ((m % 2 == 1) != (n % 2 == 1)) := by
    rcases Nat.mod_two_eq_zero_or_one m with hm | hm
    · rcases Nat.mod_two_eq_zero_or_one n with hn | hn <;> simp [Nat.add_mod, hm, hn]
    · rcases Nat.mod_two_eq_zero_or_one n with hn | hn <;> simp [Nat.add_mod, hm, hn]
  rw [productSign, List.filter_append, List.length_append, hparity]
  rfl

theorem product_iff_of_nan {fs : List Val} {p : Val} (h : NanProduct fs) : Product fs p ↔ p.isNan = true := iff_of_eq (if_pos h)

theorem product_iff_of_inf {fs : List Val} {p : Val} (hnan : ¬ NanProduct fs) (hinf : ∃ x ∈ fs, x.isInf = true) :
    Product fs p ↔ p = .inf (productSign fs) := (iff_of_eq (if_neg hnan)).trans (iff_of_eq (if_pos hinf))

theorem product_iff_of_no_inf {fs : List Val} {p : Val} (hnan : ¬ NanProduct fs) (hinf : ¬ ∃ x ∈ fs, x.isInf = true) :
    Product fs p ↔ isFinite p = true ∧ ratio p = (fs.map ratio).prod ∧ p.neg = productSign fs :=
  (iff_of_eq (if_neg hnan)).trans (iff_of_eq (if_neg hinf))

theorem isFinite_iff {v : Val} : isFinite v = true ↔ v.isNan = false ∧ v.isInf = false := by
  cases v <;> simp [isFinite, Val.isNan, Val.isInf]

theorem product_of_finite {fs : List Val} {m : ℕ} {e : ℤ} (hfin : ∀ x ∈ fs, isFinite x = true)
    (hratio : ratio (.num (productSign fs) m e) = (fs.map ratio).prod) : Product fs (.num (productSign fs) m e) := by
  have hnan : ¬ ∃ x ∈ fs, x.isNan = true := fun ⟨x, hx, h⟩ => by simp [isFinite_iff.mp (hfin x hx)] at h
  have hinf : ¬ ∃ x ∈ fs, x.isInf = true := fun ⟨x, hx, h⟩ => by simp [isFinite_iff.mp (hfin x hx)] at h
  rw [product_iff_of_no_inf (fun h => h.elim hnan (fun h => hinf h.2)) hinf]
  exact ⟨rfl, hratio, rfl⟩

theorem ratio_eq_zero_iff {v : Val} (h : isFinite v = true) : ratio v = 0 ↔ v.isZero = true := by
  cases v with
  | num n m e =>
    have he : (2 : ℚ) ^ e ≠ 0 := by positivity
    cases n <;> simp [ratio, Val.isZero, he]
  | inf n => cases h
  | nan s => cases h

/-- What a product is: a NaN, an infinity of factors none of which is zero, or a number, zero when a factor is. -/
theorem product_cases {fs : List Val} {p : Val} (h : Product fs p) :
    (NanProduct fs ∧ ∃ s, p = .nan s) ∨
    (¬ NanProduct fs ∧ (∃ x ∈ fs, x.isInf = true) ∧ p = .inf (productSign fs)) ∨
    ((∀ x ∈ fs, isFinite x = true) ∧ ∃ m e, p = .num (productSign fs) m e ∧ ratio p = (fs.map ratio).prod ∧
      (m = 0 ↔ ∃ x ∈ fs, x.isZero = true)) := by
  by_cases hnan : NanProduct fs
  · rw [product_iff_of_nan hnan] at h
    cases p with
    | nan s => exact .inl ⟨hnan, s, rfl⟩
    | inf n => cases h
    | num n m e => cases h
  by_cases hinf : ∃ x ∈ fs, x.isInf = true
  · exact .inr (.inl ⟨hnan, hinf, (product_iff_of_inf hnan hinf).mp h⟩)
  obtain ⟨hp, hratio, hneg⟩ := (product_iff_of_no_inf hnan hinf).mp h
  have hfin : ∀ x ∈ fs, isFinite x = true := fun x hx => isFinite_iff.mpr
    ⟨Bool.eq_false_iff.mpr fun h => hnan (.inl ⟨x, hx, h⟩), Bool.eq_false_iff.mpr fun h => hinf ⟨x, hx, h⟩⟩
  cases p with
  | nan s => cases hp
  | inf n => cases hp
  | num n m e =>
    obtain rfl : n = productSign fs := hneg
    refine .inr (.inr ⟨hfin, m, e, rfl, hratio, ?_⟩)
    have hzero : m = 0 ↔ ratio (.num (productSign fs) m e) = 0 := by rw [ratio_eq_zero_iff rfl]; simp [Val.isZero]
    rw [hzero, hratio, List.prod_eq_zero_iff, List.mem_map]
    exact exists_congr fun x => and_congr_right fun hx => ratio_eq_zero_iff (hfin x hx)

/-! ## Products of products -/

theorem mulExact_nan_left (s : Bool) (y : Val) : (mulExact (.nan s) y).1 = .nan false := by cases y <;> rfl

theorem mulExact_nan_right (x : Val) (s : Bool) : (mulExact x (.nan s)).1 = .nan false := by cases x <;> rfl

theorem mulExact_inf_num (n k : Bool) (m : ℕ) (e : ℤ) :
    (mulExact (.inf n) (.num k m e)).1 = if m = 0 then .nan false else .inf (n != k) := by
  by_cases hm : m = 0 <;> simp [mulExact, Val.isZero, Val.neg, hm]

theorem mulExact_num_inf (n k : Bool) (m : ℕ) (e : ℤ) :
    (mulExact (.num n m e) (.inf k)).1 = if m = 0 then .nan false else .inf (n != k) := by
  by_cases hm : m = 0 <;> simp [mulExact, Val.isZero, Val.neg, hm]

theorem ratio_mulExact_num (n k : Bool) (m m' : ℕ) (e e' : ℤ) :
    ratio (.num (n != k) (m * m') (e + e')) = ratio (.num n m e) * ratio (.num k m' e') := by
  have h := mulExact_productOf (.num n m e) (.num k m' e')
  simp only [ProductOf, Val.isNan, Val.isInf, Bool.false_eq_true, or_self, false_and, and_false, if_false] at h
  exact h.2.2.1

theorem exists_mem_append {α : Type} {P : α → Prop} {xs ys : List α} :
    (∃ x ∈ xs ++ ys, P x) ↔ (∃ x ∈ xs, P x) ∨ ∃ y ∈ ys, P y := by
  simp only [List.mem_append, or_and_right, exists_or]

theorem nanProduct_append {xs ys : List Val} : NanProduct (xs ++ ys) ↔ NanProduct xs ∨ NanProduct ys ∨
    (∃ x ∈ xs, x.isZero = true) ∧ (∃ y ∈ ys, y.isInf = true) ∨ (∃ x ∈ xs, x.isInf = true) ∧ ∃ y ∈ ys, y.isZero = true := by
  have hdistribute (A B Z W I J : Prop) :
      ((A ∨ B) ∨ (Z ∨ W) ∧ (I ∨ J)) ↔ (A ∨ Z ∧ I) ∨ (B ∨ W ∧ J) ∨ Z ∧ J ∨ I ∧ W := by tauto
  simp only [NanProduct, exists_mem_append]
  exact hdistribute ..

/-- The order of the factors does not matter. -/
theorem product_perm {fs gs : List Val} {p : Val} (h : fs.Perm gs) (hp : Product fs p) : Product gs p := by
  have hex (P : Val → Prop) : (∃ x ∈ gs, P x) ↔ ∃ x ∈ fs, P x := by simp only [h.mem_iff]
  have hsign : (gs.filter (fun x => x.neg)).length = (fs.filter (fun x => x.neg)).length := (h.filter _).length_eq.symm
  have hprod : (gs.map ratio).prod = (fs.map ratio).prod := (h.map ratio).prod_eq.symm
  unfold Product at hp ⊢
  simpa only [hex, hsign, hprod] using hp

/-- Infinities among the factors of one product, and numbers alone in the other: a NaN when one of them is zero, and else an
infinity. -/
theorem product_inf_append {xs ys : List Val} (hnan : ¬ NanProduct xs) (hinf : ∃ x ∈ xs, x.isInf = true)
    (hfin : ∀ y ∈ ys, isFinite y = true) {m : ℕ} (hm : m = 0 ↔ ∃ y ∈ ys, y.isZero = true) :
    Product (xs ++ ys) (if m = 0 then .nan false else .inf (productSign xs != productSign ys)) := by
  have hno : ¬ NanProduct ys ∧ ¬ ∃ y ∈ ys, y.isInf = true := by
    refine ⟨?_, fun ⟨y, hy, h⟩ => by simp [isFinite_iff.mp (hfin y hy)] at h⟩
    rintro (⟨y, hy, h⟩ | ⟨-, y, hy, h⟩) <;> simp [isFinite_iff.mp (hfin y hy)] at h
  by_cases hzero : m = 0
  · rw [if_pos hzero, product_iff_of_nan (nanProduct_append.mpr (.inr (.inr (.inr ⟨hinf, hm.mp hzero⟩))))]
    rfl
  · rw [if_neg hzero, ← productSign_append]
    refine (product_iff_of_inf ?_ (exists_mem_append.mpr (.inl hinf))).mpr rfl
    rw [nanProduct_append, ← hm]
    simp only [hnan, hno, hzero, and_false, or_self, not_false_eq_true]

/-- The factors of one product put behind those of another: the exact product of the two. -/
theorem product_append {xs ys : List Val} {x y : Val} (hx : Product xs x) (hy : Product ys y) :
    Product (xs ++ ys) (mulExact x y).1 := by
  rcases product_cases hx with ⟨hnan, s, rfl⟩ | ⟨hnx, hinfx, rfl⟩ | ⟨hfinx, m, e, rfl, hrx, hzx⟩
  · rw [mulExact_nan_left, product_iff_of_nan (nanProduct_append.mpr (.inl hnan))]
    rfl
  · rcases product_cases hy with ⟨hnan, s, rfl⟩ | ⟨hny, hinfy, rfl⟩ | ⟨hfiny, m, e, rfl, hry, hzy⟩
    · rw [mulExact_nan_right, product_iff_of_nan (nanProduct_append.mpr (.inr (.inl hnan)))]
      rfl
    · refine (product_iff_of_inf ?_ (exists_mem_append.mpr (.inl hinfx))).mpr ?_
      · have hzx : ¬ ∃ x ∈ xs, x.isZero = true := fun h => hnx (.inr ⟨h, hinfx⟩)
        have hzy : ¬ ∃ y ∈ ys, y.isZero = true := fun h => hny (.inr ⟨h, hinfy⟩)
        rw [nanProduct_append]
        simp only [hnx, hny, hzx, hzy, false_and, and_false, or_self, not_false_eq_true]
      · rw [productSign_append]
        rfl
    · rw [mulExact_inf_num]
      exact product_inf_append hnx hinfx hfiny hzy
  · rcases product_cases hy with ⟨hnan, s, rfl⟩ | ⟨hny, hinfy, rfl⟩ | ⟨hfiny, m', e', rfl, hry, hzy⟩
    · rw [mulExact_nan_right, product_iff_of_nan (nanProduct_append.mpr (.inr (.inl hnan)))]
      rfl
    · rw [mulExact_num_inf, bne_comm]
      exact product_perm List.perm_append_comm (product_inf_append hny hinfy hfinx hzx)
    · show Product _ (.num (productSign xs != productSign ys) (m * m') (e + e'))
      have hratio := ratio_mulExact_num (productSign xs) (productSign ys) m m' e e'
      rw [← productSign_append] at hratio ⊢
      refine product_of_finite (fun v hv => (List.mem_append.mp hv).elim (hfinx v) (hfiny v)) ?_
      rw [hratio, hrx, hry, List.map_append, List.prod_append]

/-! ## Factors multiplied in order -/

theorem product_nil : Product [] (.num false 1 0) := product_of_finite (fs := []) (by simp) (by simp [productSign, ratio])

theorem product_singleton (v : Val) : Product [v] v := by
  have hsign : productSign [v] = v.neg := by cases h : v.neg <;> simp [productSign, h]
  cases v with
  | nan s => exact (product_iff_of_nan (.inl ⟨_, List.mem_singleton_self _, rfl⟩)).mpr rfl
  | inf n =>
    refine (product_iff_of_inf ?_ ⟨_, List.mem_singleton_self _, rfl⟩).mpr (by rw [hsign]; rfl)
    simp [NanProduct, Val.isNan, Val.isZero]
  | num n m e =>
    rw [show (Val.num n m e).neg = n from rfl] at hsign
    nth_rw 2 [← hsign]
    exact product_of_finite (by simp [isFinite]) (by rw [hsign]; simp)

/-- The exact product of some factors is their product. -/
theorem product_prodExact (fs : List Val) : Product fs (prodExact fs) := by
  have hfold : ∀ (xs ys : List Val) (x : Val), Product xs x →
      Product (xs ++ ys) (ys.foldl (fun a b => (mulExact a b).1) x) := by
    intro xs ys
    induction ys generalizing xs with
    | nil => exact fun x hx => by rwa [List.append_nil]
    | cons y ys ih =>
      intro x hx
      have := ih (xs ++ [y]) _ (product_append hx (product_singleton y))
      rwa [List.append_assoc, List.singleton_append] at this
  exact hfold [] fs _ product_nil

/-! ## The factors of a packed row (03 R69, R70) -/

theorem MatFormat.factors_length (f : MatFormat) (book : List (BitVec 16)) (packed n : ℕ) (scales : List ℕ) :
    (f.factors book packed n scales).length = n := by rw [factors, List.length_map, List.length_range]

/-- An element, its block scale and the tensor scale, in whatever order, make one factor of a row. -/
theorem MatFormat.product_factors (f : MatFormat) (book : List (BitVec 16)) (packed n : ℕ) (scales : List ℕ) (k : ℕ)
    (h : k < (f.factors book packed n scales).length) :
    Product (factorsAt f book packed scales k) ((f.factors book packed n scales)[k]'h) := by
  simp only [factors, List.getElem_map, List.getElem_range, factorsAt, block, bitsN]
  by_cases hb : f.blen = 0
  · rw [if_pos hb, if_pos hb]
    exact product_prodExact _
  · rw [if_neg hb, if_neg hb, if_neg hb]
    exact product_perm (.cons _ (.swap ..)) (product_prodExact _)

end Sys2Proof.Machine
end

section
/-! SUPPORT. The sums of the matrix array (03 R71, R75): an alignment group, the groups in order, and the bound of reduced-array
mode, as rational numbers. -/

namespace Sys2Proof.Machine

open Sys2Proof Sys2Proof.Claims

/-! ## The greatest exponent of a group -/

/-- floor(log2 |v|) of a nonzero number. -/
def Val.exponent (v : Val) : Option ℤ :=
  match v with
  | .num _ m e => if m = 0 then none else some ((Nat.log2 m : ℤ) + e)
  | _ => none

/-- The greatest exponent, as the fold goes on. -/
def raised (acc : Option ℤ) (v : Val) : Option ℤ :=
  match v with
  | .num _ m e =>
    if m = 0 then acc
    else
      let x : ℤ := (Nat.log2 m : ℤ) + e
      some (match acc with | some y => max x y | none => x)
  | _ => acc

theorem raised_of_none {v : Val} (h : v.exponent = none) (acc : Option ℤ) : raised acc v = acc := by
  cases v with
  | num n m e => by_cases hm : m = 0 <;> simp_all [Val.exponent, raised]
  | inf n => rfl
  | nan s => rfl

theorem raised_of_some {v : Val} {x : ℤ} (h : v.exponent = some x) (acc : Option ℤ) :
    raised acc v = some (acc.elim x (fun y => max y x)) := by
  cases v with
  | num n m e =>
    by_cases hm : m = 0
    · simp [Val.exponent, hm] at h
    · simp only [Val.exponent, if_neg hm, Option.some.injEq] at h
      subst h
      cases acc with
      | none => simp [raised, hm]
      | some y => simp [raised, hm, max_comm]
  | inf n => cases h
  | nan s => cases h

theorem foldl_raised (l : List Val) (acc : Option ℤ) : l.foldl raised acc = (acc.toList ++ l.filterMap Val.exponent).max? := by
  induction l generalizing acc with
  | nil => cases acc <;> rfl
  | cons v l ih =>
    rw [List.foldl_cons, ih]
    cases hv : v.exponent with
    | none => rw [raised_of_none hv, List.filterMap_cons_none hv]
    | some x =>
      rw [raised_of_some hv, List.filterMap_cons_some hv]
      cases acc <;> rfl

theorem topExponent_eq (l : List Val) : topExponent l = (l.filterMap Val.exponent).max? := foldl_raised l none

theorem exponent_eq_none_iff {v : Val} (h : isFinite v = true) : v.exponent = none ↔ v.isZero = true := by
  cases v with
  | num n m e => by_cases hm : m = 0 <;> simp [Val.exponent, Val.isZero, hm]
  | inf n => cases h
  | nan s => cases h

theorem two_zpow_exponent {v : Val} {x : ℤ} (h : v.exponent = some x) : (2 : ℚ) ^ x ≤ |ratio v| ∧ |ratio v| < 2 ^ (x + 1) := by
  cases v with
  | num n m e =>
    by_cases hm : m = 0
    · simp [Val.exponent, hm] at h
    · simp only [Val.exponent, if_neg hm, Option.some.injEq] at h
      rw [abs_ratio_num, ← h]
      exact ⟨two_zpow_log2_le hm e, mag_lt_two_zpow m e⟩
  | inf n => cases h
  | nan s => cases h

theorem ratio_of_exponent_none {v : Val} (h : v.exponent = none) : ratio v = 0 := by
  cases v with
  | num n m e =>
    exact (ratio_eq_zero_iff rfl).mpr ((exponent_eq_none_iff rfl).mp h)
  | inf n => rfl
  | nan s => rfl

/-- The group's exponent: no magnitude reaches the next power of two, and one reaches its own. -/
theorem topExponent_some {l : List Val} {top : ℤ} (h : topExponent l = some top) :
    (∀ v ∈ l, |ratio v| < 2 ^ (top + 1)) ∧ ∃ v ∈ l, 2 ^ top ≤ |ratio v| := by
  rw [topExponent_eq, List.max?_eq_some_iff] at h
  obtain ⟨hmem, hle⟩ := h
  obtain ⟨v, hv, hx⟩ := List.mem_filterMap.mp hmem
  refine ⟨fun u hu => ?_, v, hv, (two_zpow_exponent hx).1⟩
  cases ho : u.exponent with
  | none =>
    rw [ratio_of_exponent_none ho, abs_zero]
    positivity
  | some x =>
    have hxtop := hle x (List.mem_filterMap.mpr ⟨u, hu, ho⟩)
    exact (two_zpow_exponent ho).2.trans_le (zpow_le_zpow_right₀ one_le_two (by omega))

theorem topExponent_none {l : List Val} (hfin : ∀ v ∈ l, isFinite v = true) :
    topExponent l = none ↔ ∀ v ∈ l, v.isZero = true := by
  rw [topExponent_eq, List.max?_eq_none_iff, List.filterMap_eq_nil_iff]
  exact forall₂_congr fun v hv => exponent_eq_none_iff (hfin v hv)

/-! ## One group -/

/-- A term in units of 2^q, truncated toward zero. -/
theorem truncated_eq (q : ℤ) (v : Val) : truncated q v = roundQ .rz (ratio v / 2 ^ q) := by
  cases v with
  | num n m e =>
    rw [ratio_num, roundQ_units]
    simp only [truncated, roundUnits, sub_nonpos, neg_sub, scaleUp, roundShift, Bool.false_eq_true, if_false]
  | inf n => simp [truncated, ratio, roundQ]
  | nan s => simp [truncated, ratio, roundQ]

/-- The terms of a group, truncated, sum to a whole number of units. -/
theorem sum_truncated (q : ℤ) (l : List Val) :
    (((l.map (truncated q)).foldl (· + ·) 0 : ℤ) : ℚ) * 2 ^ q =
      (l.map (fun v => (roundQ .rz (ratio v / 2 ^ q) : ℚ) * 2 ^ q)).sum := by
  rw [← List.sum_eq_foldl, Int.cast_list_sum, List.map_map, ← List.sum_map_mul_right]
  simp only [Function.comp_apply, truncated_eq]

/-- Without NaNs and infinities there are numbers alone. -/
theorem finite_of_plain {l : List Val} (hnan : ¬ ∃ v ∈ l, v.isNan = true) (hminus : Val.inf true ∉ l)
    (hplus : Val.inf false ∉ l) : ∀ v ∈ l, isFinite v = true := by
  intro v hv
  cases v with
  | num n m e => rfl
  | nan s => exact absurd ⟨_, hv, rfl⟩ hnan
  | inf n =>
    cases n with
    | false => exact absurd hv hplus
    | true => exact absurd hv hminus

/-- A number that rounds to -0 rounds to +0 too. -/
theorem roundsTo_plusZero {x : ℚ} (h : RoundsTo (.bin fmtF32) .rne x 0x80000000) : RoundsTo (.bin fmtF32) .rne x 0 := by
  obtain ⟨-, hfin, hratio, -⟩ := Binary.ieee_f32.value_signBit true
  obtain ⟨hlt, hfin', hratio', -⟩ := Binary.ieee_f32.value_signBit false
  simp only [Binary.signBit, fmtF32, if_true, Bool.false_eq_true, if_false, Nat.reduceAdd, Nat.reducePow]
    at hfin hratio hlt hfin' hratio'
  obtain ⟨-, h⟩ := h
  refine ⟨hlt, ?_⟩
  simp only [fmtF32] at h ⊢
  split_ifs at h ⊢ with hx
  · obtain ⟨-, hnear⟩ := h
    rw [hratio] at hnear
    rw [hratio']
    exact ⟨hfin', hnear⟩
  · rw [h] at hfin
    cases hfin

/-- The sum of a group of numbers with the exponent `top`, rounded. -/
def roundedGroup (ts : List Val) (top : ℤ) : ℕ :=
  let s := (ts.map (truncated (top - 40))).foldl (· + ·) 0
  let x := ((FloatFmt.bin fmtF32).encode .rne (.num (decide (s < 0)) s.natAbs (top - 40))).1
  if s = 0 || x = 0x80000000 then 0 else x

theorem roundedGroup_roundsTo (ts : List Val) (top : ℤ) :
    RoundsTo (.bin fmtF32) .rne (ts.map (fun t => (roundQ .rz (ratio t / 2 ^ (top - 40)) : ℚ) * 2 ^ (top - 40))).sum
      (roundedGroup ts top) ∧ roundedGroup ts top ≠ 0x80000000 := by
  rw [← sum_truncated]
  unfold roundedGroup
  generalize (ts.map (truncated (top - 40))).foldl (· + ·) 0 = s
  have hrounds := (roundedFmt_f32.encode_num .rne (decide (s < 0)) s.natAbs (top - 40)).1
  rw [ratio_sum_value] at hrounds
  by_cases hs : s = 0
  · simp only [hs, decide_true, Bool.true_or, if_true, Int.cast_zero, zero_mul]
    exact ⟨Binary.ieee_f32.roundsTo_zero .rne false, by decide⟩
  by_cases hx : ((FloatFmt.bin fmtF32).encode .rne (.num (decide (s < 0)) s.natAbs (top - 40))).1 = 0x80000000
  · rw [hx] at hrounds
    simp only [hx, decide_true, Bool.or_true, if_true]
    exact ⟨roundsTo_plusZero hrounds, by decide⟩
  · simp only [hs, hx, decide_false, Bool.or_self, Bool.false_eq_true, if_false]
    exact ⟨hrounds, hx⟩

/-- An alignment group sums to what 03 R71 says. -/
theorem groupSum_dotGroup (acc : ℕ) (ps : List Val) : GroupSum acc ps (dotGroup acc ps) := by
  unfold GroupSum dotGroup f32Value
  simp only [any_isNan, Bool.and_eq_true, any_minus, any_plus, any_isInf]
  generalize (FloatFmt.bin fmtF32).value acc :: ps = ts
  by_cases hnan : ∃ v ∈ ts, v.isNan = true
  · rw [if_pos hnan, if_pos hnan]
    rfl
  by_cases hboth : Val.inf true ∈ ts ∧ Val.inf false ∈ ts
  · rw [if_neg hnan, if_neg hnan, if_pos hboth, if_pos hboth]
    rfl
  by_cases hminus : Val.inf true ∈ ts
  · rw [if_neg hnan, if_neg hnan, if_neg hboth, if_neg hboth, if_pos hminus, if_pos (.inl hminus), any_minus.mpr hminus]
    rfl
  by_cases hplus : Val.inf false ∈ ts
  · have hno : ts.any (fun v => v.isInf && v.neg) = false := by rwa [← Bool.not_eq_true, any_minus]
    rw [if_neg hnan, if_neg hnan, if_neg hboth, if_neg hboth, if_neg hminus, if_pos hplus, if_pos (.inr hplus), hno]
    rfl
  rw [if_neg hnan, if_neg hnan, if_neg hboth, if_neg hboth, if_neg hminus, if_neg hplus, if_neg (not_or.mpr ⟨hminus, hplus⟩)]
  have hfin := finite_of_plain hnan hminus hplus
  cases htop : topExponent ts with
  | none =>
    rw [if_pos ((topExponent_none hfin).mp htop)]
    simp only [List.all_eq_true]
  | some top =>
    have hzero : ¬ ∀ v ∈ ts, v.isZero = true := fun h => by simp [(topExponent_none hfin).mpr h] at htop
    obtain ⟨hlt, hge⟩ := topExponent_some htop
    rw [if_neg hzero]
    exact ⟨top, hlt, hge, roundedGroup_roundsTo ts top⟩

/-! ## The groups in order -/

theorem dotOf_dotGroups {g : ℕ} (hg : 0 < g) (n acc : ℕ) (ps : List Val) (hn : ps.length ≤ n) :
    DotOf g acc ps (dotGroups g n acc ps) := by
  induction n generalizing acc ps with
  | zero =>
    obtain rfl : ps = [] := List.length_eq_zero_iff.mp (by omega)
    exact .done acc
  | succ n ih =>
    unfold dotGroups
    cases ps with
    | nil => exact .done acc
    | cons p ps =>
      refine .group acc (p :: ps) _ _ (by simp) (groupSum_dotGroup acc _) (ih _ _ ?_)
      rw [List.length_drop]
      omega

/-- The procedure dot is that of 03 R71. -/
theorem dotOf_dot {g : ℕ} (hg : 0 < g) (acc : ℕ) (ps : List Val) : DotOf g acc ps (dot g acc ps) :=
  dotOf_dotGroups hg _ acc ps le_rfl

/-! ## Reduced-array mode -/

/-- Numbers with no exponent below `e` sum to a whole number of units of 2^e. -/
theorem sumExact_units {l : List Val} {e : ℤ} (hfin : ∀ v ∈ l, isFinite v = true)
    (he : ∀ n m x, .num n m x ∈ l → m ≠ 0 → e ≤ x) : ((sumExact l e : ℤ) : ℚ) * 2 ^ e = (l.map ratio).sum := by
  rw [sumExact_eq, foldl_addUnits hfin he, Int.cast_zero, zero_mul, zero_add]

/-- The magnitudes of such numbers, in the same units. -/
theorem magnitudes_units {l : List Val} {e : ℤ} (hfin : ∀ v ∈ l, isFinite v = true)
    (he : ∀ n m x, .num n m x ∈ l → m ≠ 0 → e ≤ x) :
    (((l.map (fun v => (sumExact [v] e).natAbs)).foldl (· + ·) 0 : ℕ) : ℚ) * 2 ^ e = (l.map (fun v => |ratio v|)).sum := by
  rw [← List.sum_eq_foldl, Nat.cast_list_sum, List.map_map, ← List.sum_map_mul_right]
  congr 1
  refine List.map_congr_left fun v hv => ?_
  have hone : ((sumExact [v] e : ℤ) : ℚ) * 2 ^ e = ratio v := by
    rw [sumExact_units (by simpa using hfin v hv) (fun n m x hmem => he n m x (by simp_all))]
    simp
  have hpos : (0 : ℚ) < 2 ^ e := by positivity
  rw [← hone, abs_mul, abs_of_pos hpos, Function.comp_apply, Nat.cast_natAbs, Int.cast_abs]

theorem minExp_le {l : List Val} {n : Bool} {m : ℕ} {e : ℤ} (hmem : .num n m e ∈ l) (hm : m ≠ 0) : minExp l ≤ e :=
  foldl_leastExp_le_exp hmem hm 0

theorem minExp_nonpos (l : List Val) : minExp l ≤ 0 := foldl_leastExp_le l 0

theorem overflowFrom_f32 : overflowFrom fmtF32 = 2 ^ 128 - 2 ^ 103 := by
  norm_num [overflowFrom, fmtF32]

/-- A proposed sum that is let through keeps the bound of 03 R75. -/
theorem reducedOk_bound {g acc x : ℕ} {ps : List Val} (hfin : ∀ t ∈ f32Value acc :: ps, isFinite t = true)
    (hok : reducedOk g acc ps x = true) :
    if isFinite (f32Value x) then
      |ratio (f32Value x) - ((f32Value acc :: ps).map ratio).sum| ≤
        (((ps.length + g - 1) / g : ℕ) + 1) * (2 ^ 23)⁻¹ * ((f32Value acc :: ps).map (fun t => |ratio t|)).sum
    else (f32Value x).isInf = true ∧ overflowFrom fmtF32 ≤ ((f32Value acc :: ps).map (fun t => |ratio t|)).sum := by
  have hunfold (c : ℕ) : (FloatFmt.bin fmtF32).value c = f32Value c := rfl
  unfold reducedOk at hok
  simp only [hunfold] at hok
  generalize f32Value acc :: ps = ts at hfin hok ⊢
  have hnonpos := minExp_nonpos (f32Value x :: ts)
  have hmags := magnitudes_units (e := minExp (f32Value x :: ts)) hfin
    (fun n m y hmem hm => minExp_le (List.mem_cons_of_mem _ hmem) hm)
  have hsum := sumExact_units (e := minExp (f32Value x :: ts)) hfin
    (fun n m y hmem hm => minExp_le (List.mem_cons_of_mem _ hmem) hm)
  have hout (h : isFinite (f32Value x) = true) := sumExact_units (l := [f32Value x]) (e := minExp (f32Value x :: ts))
    (by simpa using h) (fun n m y hmem hm => minExp_le (List.mem_cons.mpr (.inl (List.mem_singleton.mp hmem))) hm)
  generalize minExp (f32Value x :: ts) = e at hok hnonpos hmags hsum hout
  generalize (ts.map (fun v => (sumExact [v] e).natAbs)).foldl (· + ·) 0 = mags at hok hmags
  have hunit : (0 : ℚ) < 2 ^ e := by positivity
  cases hv : f32Value x with
  | nan s => simp [hv] at hok
  | inf n =>
    simp only [hv, decide_eq_true_eq] at hok
    refine ⟨rfl, ?_⟩
    have hone : (2 : ℚ) ^ (-e).toNat * 2 ^ e = 1 := by
      rw [← zpow_natCast, Int.toNat_of_nonneg (by omega), ← zpow_add₀ two_ne_zero, neg_add_cancel, zpow_zero]
    rw [← hmags, overflowFrom_f32]
    calc (2 ^ 128 - 2 ^ 103 : ℚ) = ((2 ^ 128 - 2 ^ 103 : ℕ) * 2 ^ (-e).toNat : ℚ) * 2 ^ e := by
          rw [mul_assoc, hone]; norm_num
      _ ≤ mags * 2 ^ e := mul_le_mul_of_nonneg_right (by exact_mod_cast hok) hunit.le
  | num n m y =>
    have hout := hout (by rw [hv]; rfl)
    simp only [hv, decide_eq_true_eq] at hok hout
    show |ratio (.num n m y) - (ts.map ratio).sum| ≤ _
    simp only [List.map_cons, List.map_nil, List.sum_singleton] at hout
    have hcast : |((sumExact [.num n m y] e - sumExact ts e : ℤ) : ℚ)| * 2 ^ 23 ≤ (((ps.length + g - 1) / g : ℕ) + 1) * mags := by
      rw [← Int.cast_abs, ← Nat.cast_natAbs]
      exact_mod_cast hok
    rw [← hmags, ← hsum, ← hout, ← sub_mul, ← Int.cast_sub, abs_mul, abs_of_pos hunit]
    calc _ = |((sumExact [.num n m y] e - sumExact ts e : ℤ) : ℚ)| * 2 ^ 23 * ((2 ^ 23)⁻¹ * 2 ^ e) := by ring
      _ ≤ (((ps.length + g - 1) / g : ℕ) + 1) * mags * ((2 ^ 23)⁻¹ * 2 ^ e) := mul_le_mul_of_nonneg_right hcast (by positivity)
      _ = _ := by ring

/-- A sum of an array in reduced-array mode is one that 03 R75 admits. -/
theorem reducedDot_dotReduced {g : ℕ} (hg : 0 < g) (core : BitVec 8) (columns : List (BitVec 8)) (m n acc : ℕ) (ps : List Val) :
    ReducedDot g acc ps (dotReduced core columns m n g acc ps) := by
  have hunfold (c : ℕ) : (FloatFmt.bin fmtF32).value c = f32Value c := rfl
  unfold dotReduced
  simp only [hunfold]
  split_ifs with hany hok
  · exact .inl (dotOf_dot hg acc ps)
  · have hfin : ∀ t ∈ f32Value acc :: ps, isFinite t = true := by
      simpa [isFinite_iff] using hany
    exact .inr ⟨BitVec.isLt _, hfin, reducedOk_bound hfin hok⟩
  · exact .inl (dotOf_dot hg acc ps)

end Sys2Proof.Machine
end

section
/-! SUPPORT. What reads, logs, arrivals and context faults leave of the matrix engine (10 R211, R217): the tiles, and no new
operation or lock. -/

namespace Sys2Proof.Machine

open Sys2Proof Sys2Proof.Claims

/-! ## The frame -/

/-- The memories of a workgroup's tiles. -/
def Workgroup.tileMemories (w : Workgroup) : Vector Memory 4 × Memory := (w.tiles, w.follower)

/-- A device whose matrix engine another one has too: the same tiles, arrays and boot, and no operation or lock beside. -/
structure Device.KeepsEngine (d e : Device) : Prop where
  memories : ∀ uid, (e.wg uid).map Workgroup.tileMemories = (d.wg uid).map Workgroup.tileMemories
  arrays : e.arrays = d.arrays
  boot : e.boot = d.boot
  matrix : ∀ op ∈ e.matrix, op ∈ d.matrix
  locks : ∀ l ∈ e.locks, l ∈ d.locks

namespace Device

theorem KeepsEngine.refl (d : Device) : d.KeepsEngine d := ⟨fun _ => rfl, rfl, rfl, fun _ h => h, fun _ h => h⟩

/-- A change of the engine's frame after another one. -/
theorem KeepsEngine.after {a b c : Device} (h' : b.KeepsEngine c) (h : a.KeepsEngine b) : a.KeepsEngine c where
  memories uid := (h'.memories uid).trans (h.memories uid)
  arrays := h'.arrays.trans h.arrays
  boot := h'.boot.trans h.boot
  matrix op hop := h.matrix op (h'.matrix op hop)
  locks l hl := h.locks l (h'.locks l hl)

theorem KeepsEngine.wg_isSome {d e : Device} (h : d.KeepsEngine e) (uid : ℕ) : (e.wg uid).isSome = (d.wg uid).isSome := by
  rw [← Option.isSome_map (f := Workgroup.tileMemories), h.memories, Option.isSome_map]

theorem KeepsEngine.tiles {d e : Device} (h : d.KeepsEngine e) (side : TileSide) : e.tiles side = d.tiles side := by
  have heq := h.memories side.wg
  unfold Device.tiles
  cases hd : d.wg side.wg with
  | none => simp [hd] at heq; simp [heq]
  | some w =>
    rw [hd] at heq
    obtain ⟨u, hu, hmem⟩ := Option.map_eq_some_iff.mp heq
    obtain ⟨htiles, hfollower⟩ := Prod.mk.inj hmem
    simp [hu, htiles, hfollower]

/-- Changes elsewhere in the device. -/
theorem KeepsEngine.of_eq {d e : Device} (hwgs : e.wgs = d.wgs) (harrays : e.arrays = d.arrays) (hboot : e.boot = d.boot)
    (hmatrix : e.matrix = d.matrix) (hlocks : e.locks = d.locks) : d.KeepsEngine e :=
  ⟨fun uid => by rw [wg_congr hwgs], harrays, hboot, fun _ h => hmatrix ▸ h, fun _ h => hlocks ▸ h⟩

/-- A change repeated for each entry of a list. -/
theorem KeepsEngine.foldl {α : Type} {f : Device → α → Device} (hf : ∀ (d : Device) (x : α), d.KeepsEngine (f d x))
    (l : List α) (d : Device) : d.KeepsEngine (l.foldl f d) := by
  induction l generalizing d with
  | nil => exact .refl d
  | cons x l ih => exact (ih (f d x)).after (hf d x)

/-- Changes of workgroups that leave their tiles. -/
theorem memories_of_map {d e : Device} {f : Workgroup → Workgroup} (hwgs : e.wgs = d.wgs.map f)
    (hf : ∀ w, (f w).uid = w.uid ∧ (f w).tileMemories = w.tileMemories) (uid : ℕ) :
    (e.wg uid).map Workgroup.tileMemories = (d.wg uid).map Workgroup.tileMemories := by
  have huid : ((fun w : Workgroup => w.uid == uid) ∘ f) = fun w => w.uid == uid := by
    funext w
    simp [hf w]
  have hmem : Workgroup.tileMemories ∘ f = Workgroup.tileMemories := funext fun w => (hf w).2
  rw [wg, wg, hwgs, List.find?_map, huid, Option.map_map, hmem]

theorem keepsEngine_modWg (d : Device) (uid : ℕ) {f : Workgroup → Workgroup}
    (hf : ∀ w, (f w).uid = w.uid ∧ (f w).tileMemories = w.tileMemories) : d.KeepsEngine (d.modWg uid f) := by
  refine ⟨memories_of_map rfl (fun w => ?_), rfl, rfl, fun _ h => h, fun _ h => h⟩
  split_ifs
  · exact hf w
  · exact ⟨rfl, rfl⟩

theorem keepsEngine_modGroup (d : Device) (uid g : ℕ) (f : Group → Group) : d.KeepsEngine (d.modGroup uid g f) :=
  d.keepsEngine_modWg uid (fun _ => ⟨rfl, rfl⟩)

theorem keepsEngine_modCtx (d : Device) (c : BitVec 6) (f : Context → Context) : d.KeepsEngine (d.modCtx c f) :=
  .of_eq rfl rfl rfl rfl rfl

/-! ## Memories -/

theorem keepsEngine_putNum (d : Device) (sp : Space) (a n v : ℕ) : d.KeepsEngine (d.putNum sp a n v) := by
  have hlost (e : Device) (l : List StoredPlace) : e.KeepsEngine { e with lost := l } := .of_eq rfl rfl rfl rfl rfl
  refine (hlost _ _).after ?_
  unfold modSpace
  cases sp with
  | shared uid q => exact d.keepsEngine_modWg uid (fun _ => ⟨rfl, rfl⟩)
  | spad => exact .of_eq rfl rfl rfl rfl rfl
  | main c => exact .refl d
  | phys dev =>
    dsimp only
    split_ifs
    · exact .of_eq rfl rfl rfl rfl rfl
    · exact .of_eq rfl rfl rfl rfl rfl
    · exact .of_eq rfl rfl rfl rfl rfl

theorem keepsEngine_settle (d : Device) (sp : Space) (a n : ℕ) (store : Bool) : d.KeepsEngine (d.settle sp a n store) := by
  have haccs (e : Device) (l : List Accumulator) : e.KeepsEngine { e with accs := l } := .of_eq rfl rfl rfl rfl rfl
  unfold settle
  refine (haccs _ _).after (KeepsEngine.foldl (fun e x => ?_) _ d)
  split_ifs
  · exact .refl e
  · exact e.keepsEngine_putNum ..

theorem keepsEngine_settleRanges (d : Device) (ps : List (Place × ℕ)) : d.KeepsEngine (d.settleRanges ps) :=
  KeepsEngine.foldl (fun e _ => e.keepsEngine_settle ..) ps d

theorem keepsEngine_settlePieces (d : Device) (store : Bool) (l : List (Phys × ℕ)) : d.KeepsEngine (d.settlePieces store l) :=
  KeepsEngine.foldl (fun e _ => e.keepsEngine_settle ..) l d

theorem keepsEngine_settleMain (d : Device) (c : BitVec 6) : d.KeepsEngine (d.settleMain c) :=
  KeepsEngine.foldl (fun e _ => e.keepsEngine_settle ..) _ d

theorem keepsEngine_physPut (d : Device) (p : Phys) (b : BitVec 8) : d.KeepsEngine (d.physPut p b) := by
  unfold physPut
  split_ifs
  · exact .of_eq rfl rfl rfl rfl rfl
  · exact .of_eq rfl rfl rfl rfl rfl
  · exact .of_eq rfl rfl rfl rfl rfl

theorem keepsEngine_physPuts (d : Device) (p : Phys) (bytes : List (BitVec 8)) : d.KeepsEngine (d.physPuts p bytes) := by
  induction bytes generalizing d p with
  | nil => exact .refl d
  | cons b t ih => exact (ih _ _).after (keepsEngine_physPut ..)

theorem keepsEngine_putPieces (d : Device) (l : List (Phys × ℕ)) (bytes : List (BitVec 8)) :
    d.KeepsEngine (d.putPieces l bytes) := by
  induction l generalizing d bytes with
  | nil => exact .refl d
  | cons p l ih => exact (ih _ _).after (keepsEngine_physPuts ..)

/-- A translation changes the translations cached, at most. -/
theorem translate_tlb {d e : Device} {die : BitVec 2} {c : BitVec 6} {va : ℕ} {write : Bool} {held : List Cached}
    {p : Phys} (h : d.translate die c va write held = .ok (p, e)) : ∃ tlb, e = { d with tlb := tlb } := by
  simp only [translate] at h
  have hused : ∀ x : Except ℕ Phys, x.map (·, d) = .ok (p, e) → ∃ tlb, e = { d with tlb := tlb } := by
    intro x hx
    obtain ⟨a, -, ha⟩ := ok_of_map_ok hx
    cases ha
    exact ⟨d.tlb, rfl⟩
  have hwalk : ∀ (x : Except ℕ (ℕ × ℕ)) (use : ℕ → ℕ → Except ℕ Phys) (leaf : ℕ → ℕ → Cached),
      (x.bind fun (l, n) => (use l n).map (·, d.cacheLeaf (leaf l n))) = .ok (p, e) → ∃ tlb, e = { d with tlb := tlb } := by
    intro x use leaf hx
    obtain ⟨a, -, ha⟩ := ok_of_bind_ok hx
    obtain ⟨b, -, hb⟩ := ok_of_map_ok ha
    cases hb
    exact ⟨_, rfl⟩
  split at h
  · exact hused _ h
  · split_ifs at h
    · exact hused _ h
    · exact hwalk _ (fun l n => useLeaf d (d.ctx c).sec l n va write) (fun l n =>
        { die := die, ctx := c, page := va / 65536, leaf := BitVec.ofNat 64 l, shift := n }) h
  · exact hwalk _ (fun l n => useLeaf d (d.ctx c).sec l n va write) (fun l n =>
      { die := die, ctx := c, page := va / 65536, leaf := BitVec.ofNat 64 l, shift := n }) h

theorem keepsEngine_translate {d e : Device} {die : BitVec 2} {c : BitVec 6} {va : ℕ} {write : Bool} {held : List Cached}
    {p : Phys} (h : d.translate die c va write held = .ok (p, e)) : d.KeepsEngine e := by
  obtain ⟨tlb, rfl⟩ := translate_tlb h
  exact .of_eq rfl rfl rfl rfl rfl

theorem keepsEngine_pieces {die : BitVec 2} {c : BitVec 6} {write : Bool} {l : List (ℕ × ℕ)} {d e : Device}
    {ps : List (Phys × ℕ)} (h : Device.pieces die c write l d = .ok (ps, e)) : d.KeepsEngine e := by
  induction l generalizing d ps with
  | nil => cases h; exact .refl _
  | cons x l ih =>
    unfold pieces at h
    cases ht : d.translate die c x.1 write with
    | error k => simp [ht] at h
    | ok r =>
      obtain ⟨p, d1⟩ := r
      simp only [ht] at h
      cases hr : Device.pieces die c write l d1 with
      | error f => simp [hr] at h
      | ok q =>
        simp only [hr, Except.ok.injEq, Prod.mk.injEq] at h
        obtain ⟨-, rfl⟩ := h
        exact (ih hr).after (keepsEngine_translate ht)

theorem keepsEngine_mainWrite {d e : Device} {die : BitVec 2} {c : BitVec 6} {va : ℕ} {bytes : List (BitVec 8)}
    (h : d.mainWrite die c va bytes = .ok e) : d.KeepsEngine e := by
  unfold mainWrite at h
  cases hp : Device.pieces die c true (pagePieces va bytes.length (bytes.length / 65536 + 2)) d with
  | error f => simp [hp] at h
  | ok r =>
    simp only [hp, Except.ok.injEq] at h
    rw [← h]
    exact (keepsEngine_putPieces ..).after ((keepsEngine_settlePieces ..).after (keepsEngine_pieces hp))

/-! ## Logs and arrivals -/

theorem keepsEngine_sendMsg (d : Device) (type : BitVec 8) (c : BitVec 6) (code : BitVec 16) (detail : Word) :
    d.KeepsEngine (d.sendMsg type c code detail) := by
  unfold sendMsg
  split_ifs
  · exact .of_eq rfl rfl rfl rfl rfl
  · exact .refl d

theorem keepsEngine_logPut {d e : Device} {die : BitVec 2} {c : BitVec 6} {k : ℕ} {rec : List (BitVec 8)}
    (h : d.logPut die c k rec = .ok e) : d.KeepsEngine e := by
  simp only [logPut] at h
  split at h
  · cases h
    exact .refl d
  · split at h
    · cases h
    · next hw =>
      cases h
      exact (keepsEngine_modCtx ..).after (keepsEngine_mainWrite hw)

theorem keepsEngine_replayEnds (d : Device) (c : BitVec 6) : d.KeepsEngine (d.replayEnds c) := by
  unfold replayEnds
  dsimp only
  generalize hends : List.foldl _ d [0, 1, 2] = e
  have hmarked : d.KeepsEngine e := by
    rw [← hends]
    refine KeepsEngine.foldl (fun e k => ?_) _ d
    split_ifs
    · exact (keepsEngine_sendMsg ..).after (keepsEngine_modCtx ..)
    · exact .refl e
  split_ifs
  · exact (keepsEngine_modCtx ..).after hmarked
  · exact hmarked

theorem keepsEngine_consume (d : Device) (c : BitVec 6) (k n : ℕ) : d.KeepsEngine (d.consume c k n) :=
  (keepsEngine_replayEnds ..).after (keepsEngine_modCtx ..)

theorem keepsEngine_engineRecord {d e : Device} {w : Workgroup} {k : Kernel} {g : ℕ} {o : ObjRef}
    (h : d.engineRecord w k g o = .done e) : d.KeepsEngine e := by
  simp only [engineRecord] at h
  split at h
  · cases h
    exact .refl d
  split_ifs at h
  · split at h
    · cases h
      exact .refl d
    · cases h
      exact (keepsEngine_modGroup ..).after (keepsEngine_consume ..)
    · cases h
    · cases h
    · cases h
  · split at h
    · next hput =>
      cases h
      exact (keepsEngine_modGroup ..).after (keepsEngine_logPut hput)
    · cases h
  · cases h
    exact .refl d

theorem keepsEngine_arrive (d : Device) (o : ObjRef) (by_ : Option ℕ) : d.KeepsEngine (d.arrive o by_) := by
  unfold arrive
  dsimp only
  refine (keepsEngine_modWg _ _ (fun _ => ?_)).after ((keepsEngine_putNum ..).after (keepsEngine_settle ..))
  exact ⟨rfl, rfl⟩

/-! ## Context faults (17 R300) -/

theorem keepsEngine_faultMsg (d : Device) (c : BitVec 6) (f : CtxFault) (instead : Bool) :
    d.KeepsEngine (d.faultMsg c f instead) := by
  unfold faultMsg
  refine (keepsEngine_sendMsg ..).after ?_
  split_ifs
  · exact .of_eq rfl rfl rfl rfl rfl
  · exact .refl d

theorem keepsEngine_setCtx (d : Device) (c : BitVec 6) (x : Context) : d.KeepsEngine (d.setCtx c x) :=
  .of_eq rfl rfl rfl rfl rfl

/-- What a context holds goes, but its workgroups keep their tiles. -/
theorem keepsEngine_releaseAll (d : Device) (c : BitVec 6) : d.KeepsEngine (d.releaseAll c) := by
  unfold releaseAll
  refine KeepsEngine.after (b := d.settleMain c) ⟨memories_of_map rfl (fun w => ?_), rfl, rfl,
    fun _ h => List.mem_of_mem_filter h, fun _ h => List.mem_of_mem_filter h⟩ (keepsEngine_settleMain ..)
  split_ifs
  · exact ⟨rfl, rfl⟩
  · exact ⟨rfl, rfl⟩

theorem keepsEngine_endContext (d : Device) (c : BitVec 6) (f : CtxFault) : d.KeepsEngine (d.endContext c f) := by
  unfold endContext
  dsimp only
  split
  · exact .refl d
  · split_ifs
    · exact (keepsEngine_faultMsg ..).after (keepsEngine_setCtx ..)
    · exact .refl d
  · exact (keepsEngine_faultMsg ..).after ((keepsEngine_setCtx ..).after (keepsEngine_releaseAll ..))

theorem keepsEngine_stopContext (d : Device) (c : BitVec 6) (f : CtxFault) : d.KeepsEngine (d.stopContext c f) := by
  unfold stopContext
  dsimp only
  split_ifs
  · exact .refl d
  · exact keepsEngine_setCtx ..
  · exact keepsEngine_endContext ..
  · exact (keepsEngine_faultMsg ..).after (keepsEngine_setCtx ..)

theorem keepsEngine_contextFault (d : Device) (c : BitVec 6) (f : CtxFault) : d.KeepsEngine (d.contextFault c f) := by
  unfold contextFault
  split_ifs
  · exact keepsEngine_endContext ..
  · exact keepsEngine_stopContext ..

/-! ## Counters and watchpoints (22 R343, R344) -/

theorem keepsEngine_beginStop (d : Device) (uid : ℕ) (cause : BitVec 4) : d.KeepsEngine (d.beginStop uid cause) := by
  unfold beginStop
  split
  · exact .refl d
  · dsimp only
    split_ifs
    · exact (keepsEngine_modCtx ..).after (keepsEngine_modWg _ _ (fun _ => ⟨rfl, rfl⟩))
    · exact d.keepsEngine_modWg uid (fun _ => ⟨rfl, rfl⟩)
    · exact .refl d

theorem keepsEngine_watchHits (d : Device) (c : BitVec 6) (uid : ℕ) (fired : List ℕ) :
    d.KeepsEngine (d.watchHits c uid fired) := by
  unfold watchHits
  dsimp only
  split_ifs
  · exact .refl d
  · split
    · split_ifs
      · exact (keepsEngine_modCtx ..).after ((keepsEngine_beginStop ..).after (keepsEngine_modCtx ..))
      · exact (keepsEngine_beginStop ..).after (keepsEngine_modCtx ..)
    · exact (keepsEngine_beginStop ..).after (keepsEngine_modCtx ..)
  · exact keepsEngine_modCtx ..

theorem keepsEngine_matrixRead (d : Device) (op : MatOp) (ps : List (Place × ℕ)) : d.KeepsEngine (d.matrixRead op ps).1 := by
  unfold matrixRead countEngine
  dsimp only
  exact (keepsEngine_modCtx ..).after (keepsEngine_watchHits ..)

/-! ## Batches (10 R218) -/

theorem keepsEngine_retireBatches (d : Device) (uid g : ℕ) (half : Bool) (n : ℕ) :
    d.KeepsEngine (d.retireBatches uid g half n) := by
  induction n generalizing d with
  | zero => exact .refl d
  | succ n ih =>
    unfold retireBatches
    split
    · exact .refl d
    split
    · split
      · exact .refl d
      dsimp only
      split
      · exact .refl d
      split
      · exact (ih _).after (keepsEngine_modGroup ..)
      split
      · exact (ih _).after (keepsEngine_modGroup ..)
      split
      · exact keepsEngine_contextFault ..
      split
      · next hrecord =>
        exact (ih _).after ((keepsEngine_arrive ..).after ((keepsEngine_modGroup ..).after (keepsEngine_engineRecord hrecord)))
      · split_ifs
        · exact .refl d
        · exact (keepsEngine_sendMsg ..).after (keepsEngine_modGroup ..)
      · exact .refl d
      · exact keepsEngine_contextFault ..
    · exact .refl d

theorem keepsEngine_batches (d : Device) (uid g : ℕ) (half : Bool) : d.KeepsEngine (d.batches uid g half) := by
  unfold batches
  split
  · split
    · exact keepsEngine_retireBatches ..
    · exact .refl d
  · exact .refl d

end Device
end Sys2Proof.Machine
end

section
/-! SUPPORT. The elements of the tiles (10 R211; 03 R77): what a write of one, of a row and of a whole tile leaves, and the
tiles of each side of a workgroup. -/

namespace Sys2Proof.Machine

open Sys2Proof Sys2Proof.Claims

/-! ## Elements written -/

theorem Memory.bytes_congr {m m' : Memory} {a n : ℕ} (h : ∀ b, a ≤ b → b < a + n → Memory.byte m b = Memory.byte m' b) :
    Memory.bytes m a n = Memory.bytes m' a n := by
  induction n generalizing a with
  | zero => rfl
  | succ n ih => rw [Memory.bytes, Memory.bytes, h a le_rfl (by omega), ih (fun b hb hlt => h b (by omega) (by omega))]

theorem Memory.num_putNum_apart (m : Memory) {a b n k : ℕ} (v : ℕ) (h : b + k ≤ a ∨ a + n ≤ b) :
    Memory.num (Memory.putNum m a n v) b k = Memory.num m b k :=
  congrArg bytesToNat (Memory.bytes_congr fun _ _ _ => Memory.byte_putNum_outside m v (by omega))

/-- An element written reads back in 32 bits, and no other one changes. -/
theorem tileGet_tilePut (mem : Memory) {t m n t' m' n' : ℕ} (x : ℕ) (hm : m < 32) (hn : n < 32) (hm' : m' < 32) (hn' : n' < 32) :
    tileGet (tilePut mem t m n x) t' m' n' = if t' = t ∧ m' = m ∧ n' = n then x % 2 ^ 32 else tileGet mem t' m' n' := by
  split_ifs with h
  · obtain ⟨rfl, rfl, rfl⟩ := h
    exact Memory.num_putNum mem _ 4 x
  · refine Memory.num_putNum_apart mem x ?_
    unfold tileByte
    omega

/-- Of writes at the keys of a list, each of which the element at `key` takes where it is its own, the element has its value. -/
theorem foldl_writes {P : Prop} [Decidable P] {step : Memory → ℕ → Memory} {get : Memory → ℕ} {key val : ℕ} (l : List ℕ)
    (hstep : ∀ acc, ∀ k ∈ l, get (step acc k) = if P ∧ key = k then val else get acc) (mem : Memory) :
    get (l.foldl step mem) = if P ∧ key ∈ l then val else get mem := by
  induction l generalizing mem with
  | nil => simp
  | cons k l ih =>
    rw [List.foldl_cons, ih (fun acc j hj => hstep acc j (List.mem_cons_of_mem _ hj)), hstep mem k List.mem_cons_self]
    by_cases hp : P
    · by_cases hin : key ∈ l
      · simp [hp, hin]
      · simp [hp, hin]
    · simp [hp]

theorem lt_of_mem_allLanes {i : ℕ} (h : i ∈ allLanes) : i < 32 := List.mem_range.mp h

theorem mem_allLanes {i : ℕ} (h : i < 32) : i ∈ allLanes := List.mem_range.mpr h

/-- A row written. -/
theorem tileGet_row (mem : Memory) {t m t' m' n' : ℕ} (f : ℕ → ℕ) (hm : m < 32) (hm' : m' < 32) (hn' : n' < 32) :
    tileGet (allLanes.foldl (fun acc n => tilePut acc t m n (f n)) mem) t' m' n' =
      if t' = t ∧ m' = m then f n' % 2 ^ 32 else tileGet mem t' m' n' := by
  rw [foldl_writes (P := t' = t ∧ m' = m) (get := (tileGet · t' m' n')) (key := n') (val := f n' % 2 ^ 32) allLanes ?_ mem]
  · simp only [mem_allLanes hn', and_true]
  · intro acc n hn
    rw [tileGet_tilePut acc _ hm (lt_of_mem_allLanes hn) hm' hn']
    by_cases hk : n' = n
    · simp [hk]
    · simp [hk]

/-- A whole tile computed from its incoming elements and the terms of each. -/
theorem tileGet_runTile (mem : Memory) {t t' m n : ℕ} (z : Bool) (rows cols : List (List Val))
    (f : ℕ → ℕ → ℕ → List Val → ℕ) (hm : m < 32) (hn : n < 32) :
    tileGet (runTile mem t z rows cols f) t' m n =
      if t' = t then f m n (if z then 0 else tileGet mem t m n) (termsOf (rows.getD m []) (cols.getD n [])) % 2 ^ 32
      else tileGet mem t' m n := by
  rw [runTile, foldl_writes (P := t' = t) (get := (tileGet · t' m n)) (key := m) (val := f m n (if z then 0 else tileGet mem t m n)
    (termsOf (rows.getD m []) (cols.getD n [])) % 2 ^ 32) allLanes ?_ mem]
  · simp only [mem_allLanes hm, and_true]
  · intro acc k hk
    rw [tileGet_row acc _ (lt_of_mem_allLanes hk) hm hn]
    by_cases hmk : m = k
    · simp [hmk]
    · simp [hmk]

/-! ## The sides of a workgroup -/

theorem perCore_modCore {α : Type} (v : Vector α 4) (q p : ℕ) (f : α → α) :
    perCore (modCore v q f) p = if p % 4 = q % 4 then f (perCore v q) else perCore v p := by
  unfold perCore modCore
  simp only [Vector.get_eq_getElem, Fin.ofNat, Vector.getElem_set]
  by_cases h : p % 4 = q % 4
  · rw [if_pos h, if_pos h.symm]
    rfl
  · rw [if_neg h, if_neg (fun h' => h h'.symm)]

theorem Device.tiles_of_sameSide (d : Device) {x y : TileSide} (h : sameSide x y = true) : d.tiles x = d.tiles y := by
  simp only [sameSide, Bool.and_eq_true, beq_iff_eq, Bool.or_eq_true] at h
  obtain ⟨⟨hwg, hfollower⟩, hq⟩ := h
  unfold tiles
  rw [hwg, hfollower]
  cases d.wg y.wg with
  | none => rfl
  | some w =>
    by_cases hf : y.follower = true
    · simp [hf]
    · have hq : x.q % 4 = y.q % 4 := hq.resolve_left (by rwa [hfollower])
      simp [hf, perCore, Fin.ofNat, hq]

/-- A workgroup with the memory of a side's tiles changed. -/
def TileSide.changed (side : TileSide) (f : Memory → Memory) (w : Workgroup) : Workgroup :=
  if side.follower then { w with follower := f w.follower } else { w with tiles := modCore w.tiles side.q f }

theorem TileSide.changed_uid (side : TileSide) (f : Memory → Memory) (w : Workgroup) : (side.changed f w).uid = w.uid := by
  unfold changed
  split_ifs
  · rfl
  · rfl

theorem Device.wg_modTiles (d : Device) (side : TileSide) (good : ℕ → Bool) (f : Memory → Memory) (u : ℕ) :
    (d.modTiles side good f).wg u = if u = side.wg then (d.wg u).map (side.changed f) else d.wg u :=
  (wg_congr rfl u).trans (d.wg_modWg side.wg (side.changed_uid f) u)

/-- The tiles of a side changed are those of every side that names them, and the others stay. -/
theorem Device.tiles_modTiles (d : Device) {side : TileSide} (hw : (d.wg side.wg).isSome = true) (good : ℕ → Bool)
    (f : Memory → Memory) (x : TileSide) :
    (d.modTiles side good f).tiles x = if sameSide x side = true then f (d.tiles side) else d.tiles x := by
  unfold tiles
  rw [wg_modTiles]
  by_cases hwg : x.wg = side.wg
  · obtain ⟨w, hw⟩ := Option.isSome_iff_exists.mp hw
    rw [if_pos hwg, hwg, hw]
    cases hside : side.follower <;> cases hx : x.follower
    · simp [TileSide.changed, sameSide, hwg, hside, hx, perCore_modCore]
    · simp [TileSide.changed, sameSide, hside, hx]
    · simp [TileSide.changed, sameSide, hside, hx]
    · simp [TileSide.changed, sameSide, hwg, hside, hx]
  · simp [sameSide, hwg]

end Sys2Proof.Machine
end

section
/-! SUPPORT. What the array leaves in its tiles (10 R217; 03 R65, R74, R76): the results of each form, computed on the device as
its reads have settled it. -/

namespace Sys2Proof.Machine

open Sys2Proof Sys2Proof.Claims

/-! ## The array -/

theorem Device.arrayDot_eq (d : Device) (core : BitVec 8) (m n g acc : ℕ) (ps : List Val) :
    d.arrayDot core m n g acc ps = arraySum d core g m n acc ps := by
  simp only [arrayDot, arraySum, Bool.or_eq_true, bne_iff_ne, or_comm]

theorem arraySum_congr {d e : Device} (h : d.KeepsEngine e) (core : BitVec 8) (g m n acc : ℕ) (ps : List Val) :
    arraySum e core g m n acc ps = arraySum d core g m n acc ps := by
  simp only [arraySum, h.arrays, h.boot]

theorem tileElement_congr {d e : Device} (h : d.KeepsEngine e) (side : TileSide) (t m n : ℕ) :
    tileElement e side t m n = tileElement d side t m n := congrArg (tileGet · t m n) (h.tiles side)

/-- The forms of an operation, by its code and its gather data. -/
theorem matrixForm_cases {op : MatOp} (h : MatrixForm op) :
    (op.sub = 0 ∧ op.gather = none) ∨ (op.sub = 1 ∧ op.gather = none) ∨
    (op.sub = 2 ∧ ∃ g, op.gather = some g ∧ ∀ x ∈ g.list, x ≠ 0xFFFF → g.rowbase ≤ x.toNat ∧ x.toNat < g.rowbase + 32) ∨
    (op.sub = 3 ∧ ∃ g, op.gather = some g) := by
  have hsub {k : ℕ} (hk : op.sub.toNat = k) : op.sub = BitVec.ofNat 5 k := by rw [← hk, BitVec.ofNat_toNat, BitVec.setWidth_eq]
  unfold MatrixForm at h
  split at h
  · next hs hg => exact .inl ⟨hsub hs, hg⟩
  · next hs hg => exact .inr (.inl ⟨hsub hs, hg⟩)
  · next g hs hg => exact .inr (.inr (.inl ⟨hsub hs, g, hg, h⟩))
  · next g hs hg => exact .inr (.inr (.inr ⟨hsub hs, g, hg⟩))
  · cases h

/-- The follower's half, which a pair operation writes too (03 R76). -/
def MatOp.followerSide (op : MatOp) (w : Workgroup) : TileSide := { op.side w with follower := true }

section Forms

variable {d e : Device} {op : MatOp} {w : Workgroup} {k : Kernel} {fa fb : MatFormat}

/-- The tile of a side changed to its results, and in a pair operation that of the follower's half. -/
theorem tilesAfter_of (huid : w.uid = op.wg) {mem mem' : Memory}
    (htiles : ∀ x, e.tiles x = if sameSide x (op.side w) = true then mem
      else if op.sub = 1 ∧ sameSide x (op.followerSide w) = true then mem' else d.tiles x)
    (hown : ∀ t m n, m < 32 → n < 32 → tileGet mem t m n =
      if t = op.tile then tileResult d op w k fa fb (op.side w) false m n else tileElement d (op.side w) t m n)
    (hother : op.sub = 1 → ∀ t m n, m < 32 → n < 32 → tileGet mem' t m n =
      if t = op.tile then tileResult d op w k fa fb (op.followerSide w) true m n
      else tileElement d (op.followerSide w) t m n) :
    TilesAfter d e op w k fa fb := by
  have hside : { wg := op.wg, q := quadIndex w.core op.core, follower := false } = op.side w := by rw [MatOp.side, huid]
  have hfollower : { wg := op.wg, q := quadIndex w.core op.core, follower := true } = op.followerSide w := by
    rw [MatOp.followerSide, MatOp.side, huid]
  simp only [TilesAfter, hside, hfollower]
  intro x t m n hm hn
  have hsame {y : TileSide} (h : sameSide x y = true) : tileElement d y t m n = tileElement d x t m n :=
    congrArg (tileGet · t m n) (d.tiles_of_sameSide h).symm
  rw [tileElement, htiles x]
  by_cases hx : sameSide x (op.side w) = true
  · rw [if_pos hx, hown t m n hm hn]
    by_cases ht : t = op.tile
    · rw [if_pos ht, if_pos ⟨ht, hx⟩]
    · simp only [ht, false_and, if_false, hsame hx]
  simp only [hx, and_false, if_false, Bool.false_eq_true]
  by_cases hp : op.sub = 1 ∧ sameSide x (op.followerSide w) = true
  · rw [if_pos hp, hother hp.1 t m n hm hn]
    by_cases ht : t = op.tile
    · rw [if_pos ht, if_pos ⟨ht, hp⟩]
    · simp only [ht, false_and, if_false, hsame hp.2]
  · rw [if_neg hp, if_neg (fun h => hp h.2)]
    rfl

/-! ## MMA and MMAP (03 R65, R76) -/

/-- A side's tiles after an operation of some columns on a core's array. -/
def productTiles (e : Device) (op : MatOp) (fa : MatFormat) (core : BitVec 8) (cols : List (List Val)) (mem : Memory) : Memory :=
  runTile mem op.tile op.z (op.rowsOf fa op.afrag fa.k 0 op.sa) cols (fun m n => e.arrayDot core m n fa.g)

/-- The products of the rows of A and the columns of B. -/
theorem tileGet_productTiles (hk : d.KeepsEngine e) (hgather : op.gather = none) (hsub : op.sub = 0 ∨ op.sub = 1)
    (side : TileSide) {t m n : ℕ} (hm : m < 32) (hn : n < 32) :
    tileGet (productTiles e op fa op.core (op.rowsOf fb op.bfrag fb.k 0 op.sb) (e.tiles side)) t m n =
      if t = op.tile then tileResult d op w k fa fb side false m n else tileElement d side t m n := by
  rw [productTiles, tileGet_runTile _ _ _ _ _ hm hn, e.arrayDot_eq, arraySum_congr hk, hk.tiles]
  rcases hsub with hsub | hsub <;> simp only [tileResult, hsub, hgather] <;> rfl

/-- The follower's columns, on the follower's array. -/
theorem tileGet_productTiles_follower (hk : d.KeepsEngine e) (hgather : op.gather = none) (hsub : op.sub = 1) (side : TileSide)
    {t m n : ℕ} (hm : m < 32) (hn : n < 32) :
    tileGet (productTiles e op fa (op.core + 1) (op.rowsOf fb op.bfrag2 fb.k 32 op.sb) (e.tiles side)) t m n =
      if t = op.tile then tileResult d op w k fa fb side true m n else tileElement d side t m n := by
  rw [productTiles, tileGet_runTile _ _ _ _ _ hm hn, e.arrayDot_eq, arraySum_congr hk, hk.tiles]
  simp only [tileResult, hsub, hgather]
  rfl

theorem tilesAfter_mma (hk : d.KeepsEngine e) (hw : (e.wg w.uid).isSome = true) (huid : w.uid = op.wg) (hsub : op.sub = 0)
    (hgather : op.gather = none) : TilesAfter d (e.runMatrix op w k fa fb) op w k fa fb := by
  have hrun : e.runMatrix op w k fa fb = e.modTiles (op.side w) op.writes
      (fun _ => productTiles e op fa op.core (op.rowsOf fb op.bfrag fb.k 0 op.sb) (e.tiles (op.side w))) := by
    simp only [Device.runMatrix, hsub, hgather]
    rfl
  refine tilesAfter_of huid (mem' := []) (fun x => ?_)
    (fun t m n hm hn => tileGet_productTiles hk hgather (.inl hsub) (op.side w) hm hn) (fun h => by simp [hsub] at h)
  rw [hrun, e.tiles_modTiles hw]
  simp [hsub, hk.tiles]

theorem tilesAfter_mmap (hk : d.KeepsEngine e) (hw : (e.wg w.uid).isSome = true) (huid : w.uid = op.wg) (hsub : op.sub = 1)
    (hgather : op.gather = none) : TilesAfter d (e.runMatrix op w k fa fb) op w k fa fb := by
  have hrun : e.runMatrix op w k fa fb = (e.modTiles (op.side w) op.writes
      (fun _ => productTiles e op fa op.core (op.rowsOf fb op.bfrag fb.k 0 op.sb) (e.tiles (op.side w)))).modTiles
        (op.followerSide w) op.writes (productTiles e op fa (op.core + 1) (op.rowsOf fb op.bfrag2 fb.k 32 op.sb)) := by
    simp only [Device.runMatrix, hsub, hgather]
    rfl
  refine tilesAfter_of huid (fun x => ?_)
    (fun t m n hm hn => tileGet_productTiles hk hgather (.inr hsub) (op.side w) hm hn)
    (fun _ t m n hm hn => tileGet_productTiles_follower hk hgather hsub (op.followerSide w) hm hn)
  have hapart : sameSide (op.followerSide w) (op.side w) = false := by simp [sameSide, MatOp.followerSide, MatOp.side]
  rw [hrun, Device.tiles_modTiles, e.tiles_modTiles hw, e.tiles_modTiles hw, hapart]
  · by_cases hx : sameSide x (op.side w) = true
    · have hno : sameSide x (op.followerSide w) = false := by
        simp only [sameSide, MatOp.followerSide, MatOp.side, Bool.and_eq_true, beq_iff_eq] at hx ⊢
        simp [hx.1.2]
      simp [hx, hno]
    · simp [hx, hsub, hk.tiles]
  · rw [Device.wg_modTiles]
    split_ifs
    · rwa [Option.isSome_map]
    · exact hw

/-! ## MMAG.K (03 R74) -/

theorem tileResult_mmagK (hsub : op.sub = 3) {g : Gather} (hgather : op.gather = some g) (side : TileSide) (m n : ℕ) :
    tileResult d op w k fa fb side false m n = if g.list.length = 0 then tileElement d side op.tile m n
      else arraySum d op.core fa.g m n (if op.z then 0 else tileElement d side op.tile m n)
        (termsOf ((op.rowsOf fa op.afrag g.list.length 0 []).getD m []) (g.list.map (fun x => (fb.factors (op.book fb)
          ((d.settleRanges (op.rowReads w k.shared fb)).rowBits (op.rowPlace w k.shared g x.toNat (4 * fb.bits))) 32 []).getD n
            (.num false 0 0)))) % 2 ^ 32 := by
  simp only [tileResult, hsub, hgather]
  rfl

/-- The columns of B as the gathered rows give them. -/
def gatheredColumns (e : Device) (op : MatOp) (w : Workgroup) (k : Kernel) (fb : MatFormat) (g : Gather) : List (List Val) :=
  allLanes.map (fun j => (g.list.map (fun x => fb.factors (op.book fb)
    (e.rowBits (op.rowPlace w k.shared g x.toNat (4 * fb.bits))) 32 [])).map (fun r => r.getD j (.num false 0 0)))

theorem gatheredColumns_getD (e : Device) (op : MatOp) (w : Workgroup) (k : Kernel) (fb : MatFormat) (g : Gather) {n : ℕ}
    (hn : n < 32) : (gatheredColumns e op w k fb g).getD n [] = g.list.map (fun x => (fb.factors (op.book fb)
      (e.rowBits (op.rowPlace w k.shared g x.toNat (4 * fb.bits))) 32 []).getD n (.num false 0 0)) := by
  simp [gatheredColumns, allLanes, hn]

/-- The tile after MMAG.K; without a list it stays. -/
def gatherKTiles (e : Device) (op : MatOp) (w : Workgroup) (k : Kernel) (fa fb : MatFormat) (g : Gather) : Memory :=
  if g.list.length = 0 then e.tiles (op.side w)
  else runTile (e.tiles (op.side w)) op.tile op.z (op.rowsOf fa op.afrag g.list.length 0 []) (gatheredColumns e op w k fb g)
    (fun m n => e.arrayDot op.core m n fa.g)

theorem tileGet_gatherKTiles (hk : d.KeepsEngine e) (he : e = d.settleRanges (op.rowReads w k.shared fb)) (hsub : op.sub = 3)
    {g : Gather} (hgather : op.gather = some g) {t m n : ℕ} (hm : m < 32) (hn : n < 32) :
    tileGet (gatherKTiles e op w k fa fb g) t m n =
      if t = op.tile then tileResult d op w k fa fb (op.side w) false m n else tileElement d (op.side w) t m n := by
  rw [tileResult_mmagK hsub hgather, gatherKTiles, ← he]
  by_cases hlist : g.list.length = 0
  · rw [if_pos hlist, if_pos hlist, hk.tiles]
    split_ifs with ht
    · rw [ht]
      rfl
    · rfl
  · rw [if_neg hlist, if_neg hlist, tileGet_runTile _ _ _ _ _ hm hn, e.arrayDot_eq, arraySum_congr hk, hk.tiles,
      gatheredColumns_getD e op w k fb g hn]
    rfl

theorem tilesAfter_mmagK (hk : d.KeepsEngine e) (he : e = d.settleRanges (op.rowReads w k.shared fb))
    (hw : (e.wg w.uid).isSome = true) (huid : w.uid = op.wg) (hsub : op.sub = 3) {g : Gather} (hgather : op.gather = some g) :
    TilesAfter d (e.runMatrix op w k fa fb) op w k fa fb := by
  refine tilesAfter_of huid (mem' := []) (fun x => ?_) (fun t m n hm hn => tileGet_gatherKTiles hk he hsub hgather hm hn)
    (fun h => by simp [hsub] at h)
  have hrun : e.runMatrix op w k fa fb = if g.list.length = 0 then e
      else e.modTiles (op.side w) op.writes (fun _ => runTile (e.tiles (op.side w)) op.tile op.z
        (op.rowsOf fa op.afrag g.list.length 0 []) (gatheredColumns e op w k fb g) (fun m n => e.arrayDot op.core m n fa.g)) := by
    simp only [Device.runMatrix, hsub, hgather]
    rfl
  rw [hrun, gatherKTiles]
  by_cases hlist : g.list.length = 0
  · rw [if_pos hlist, if_pos hlist]
    split_ifs with hx hp
    · exact e.tiles_of_sameSide hx
    · simp [hsub] at hp
    · exact hk.tiles x
  · rw [if_neg hlist, if_neg hlist, e.tiles_modTiles hw]
    simp [hsub, hk.tiles]

/-! ## MMAG.A (10 R217) -/

/-- What one entry of the list leaves of an element of row `m` and column `n`. -/
def gatherStep (d e : Device) (op : MatOp) (w : Workgroup) (k : Kernel) (fa fb : MatFormat) (g : Gather) (m n acc pos : ℕ) : ℕ :=
  let x := (g.list.getD pos 0).toNat
  let weight : Val := match g.weights with | some ws => f32Value (ws.getD pos 0).toNat | none => .num false 1 0
  let row := fa.factors (op.book fa) (e.rowBits (op.rowPlace w k.shared g x 64)) fa.k
    ((slicePad 0 op.sa (pos * fa.scales) fa.scales).map BitVec.toNat)
  if x ≠ 0xFFFF ∧ x = g.rowbase + m then
    arraySum d op.core fa.g m n acc
      (termsOf (row.map (fun y => (mulExact weight y).1)) ((op.rowsOf fb op.bfrag fb.k 0 op.sb).getD n [])) % 2 ^ 32
  else acc

theorem tileResult_mmagA (hsub : op.sub = 2) {g : Gather} (hgather : op.gather = some g) (side : TileSide) (m n : ℕ) :
    tileResult d op w k fa fb side false m n = (List.range g.list.length).foldl
      (gatherStep d (d.settleRanges (op.rowReads w k.shared fb)) op w k fa fb g m n) (tileElement d side op.tile m n) := by
  simp only [tileResult, hsub, hgather]
  rfl

/-- An entry changes the row that it targets, and no other element. -/
theorem tileGet_gatherEntry (hk : d.KeepsEngine e) {g : Gather}
    (hform : ∀ x ∈ g.list, x ≠ 0xFFFF → g.rowbase ≤ x.toNat ∧ x.toNat < g.rowbase + 32) (mem : Memory) {pos : ℕ}
    (hpos : pos < g.list.length) {t m n : ℕ} (hm : m < 32) (hn : n < 32) :
    tileGet (e.gatherEntry op w k.shared fa g (op.rowsOf fb op.bfrag fb.k 0 op.sb) mem pos) t m n =
      if t = op.tile then gatherStep d e op w k fa fb g m n (tileGet mem t m n) pos else tileGet mem t m n := by
  unfold Device.gatherEntry gatherStep
  dsimp only
  generalize hx : (g.list.getD pos 0).toNat = x
  by_cases hskip : x = 0xFFFF
  · simp [hskip]
  have hmem : g.list.getD pos 0 ∈ g.list := by
    rw [List.getD_eq_getElem _ _ hpos]
    exact List.getElem_mem hpos
  have hrow := hform _ hmem (fun h => hskip (by rw [← hx, h]; rfl))
  rw [hx] at hrow
  rw [if_neg hskip, tileGet_row _ _ (by omega) hm hn, e.arrayDot_eq, arraySum_congr hk]
  by_cases ht : t = op.tile
  · by_cases hmx : x = g.rowbase + m
    · have hsame : x - g.rowbase = m := by omega
      rw [if_pos ⟨ht, hsame.symm⟩, if_pos ht, if_pos ⟨hskip, hmx⟩, hsame, ht]
      rfl
    · rw [if_neg (by omega), if_pos ht, if_neg (fun h => hmx h.2)]
  · rw [if_neg (fun h => ht h.1), if_neg ht]

/-- The entries in list order, each on the result of the one before. -/
theorem tileGet_gatherEntries (hk : d.KeepsEngine e) {g : Gather}
    (hform : ∀ x ∈ g.list, x ≠ 0xFFFF → g.rowbase ≤ x.toNat ∧ x.toNat < g.rowbase + 32) {l : List ℕ}
    (hl : ∀ pos ∈ l, pos < g.list.length) (mem : Memory) {t m n : ℕ} (hm : m < 32) (hn : n < 32) :
    tileGet (l.foldl (e.gatherEntry op w k.shared fa g (op.rowsOf fb op.bfrag fb.k 0 op.sb)) mem) t m n =
      if t = op.tile then l.foldl (gatherStep d e op w k fa fb g m n) (tileGet mem t m n) else tileGet mem t m n := by
  induction l generalizing mem with
  | nil => simp
  | cons pos l ih =>
    rw [List.foldl_cons, ih (fun q hq => hl q (List.mem_cons_of_mem _ hq)),
      tileGet_gatherEntry hk hform mem (hl pos List.mem_cons_self) hm hn, List.foldl_cons]
    split_ifs
    · rfl
    · rfl

theorem tilesAfter_mmagA (hk : d.KeepsEngine e) (he : e = d.settleRanges (op.rowReads w k.shared fb))
    (hw : (e.wg w.uid).isSome = true) (huid : w.uid = op.wg) (hsub : op.sub = 2) {g : Gather} (hgather : op.gather = some g)
    (hform : ∀ x ∈ g.list, x ≠ 0xFFFF → g.rowbase ≤ x.toNat ∧ x.toNat < g.rowbase + 32) :
    TilesAfter d (e.runMatrix op w k fa fb) op w k fa fb := by
  have hrun : e.runMatrix op w k fa fb = e.modTiles (op.side w) op.writes (fun _ => (List.range g.list.length).foldl
      (e.gatherEntry op w k.shared fa g (op.rowsOf fb op.bfrag fb.k 0 op.sb)) (e.tiles (op.side w))) := by
    simp only [Device.runMatrix, hsub, hgather]
    rfl
  refine tilesAfter_of huid (mem := (List.range g.list.length).foldl (e.gatherEntry op w k.shared fa g
    (op.rowsOf fb op.bfrag fb.k 0 op.sb)) (e.tiles (op.side w))) (mem' := []) (fun x => ?_) (fun t m n hm hn => ?_)
    (fun h => by simp [hsub] at h)
  · rw [hrun, e.tiles_modTiles hw]
    simp [hsub, hk.tiles]
  · rw [tileGet_gatherEntries hk hform (fun pos hpos => List.mem_range.mp hpos) _ hm hn,
      tileResult_mmagA hsub hgather, ← he, hk.tiles]
    split_ifs with ht
    · rw [ht]
      rfl
    · rfl

/-- The tiles after an operation of any form. -/
theorem tilesAfter_runMatrix (hform : MatrixForm op) (hw : d.wg op.wg = some w) :
    TilesAfter d ((d.settleRanges (op.rowReads w k.shared fb)).runMatrix op w k fa fb) op w k fa fb := by
  have hk := d.keepsEngine_settleRanges (op.rowReads w k.shared fb)
  have huid := Device.wg_uid hw
  have hsome : ((d.settleRanges (op.rowReads w k.shared fb)).wg w.uid).isSome = true := by
    rw [hk.wg_isSome, huid, hw]
    rfl
  rcases matrixForm_cases hform with ⟨hsub, hg⟩ | ⟨hsub, hg⟩ | ⟨hsub, g, hg, hrows⟩ | ⟨hsub, g, hg⟩
  · exact tilesAfter_mma hk hsome huid hsub hg
  · exact tilesAfter_mmap hk hsome huid hsub hg
  · exact tilesAfter_mmagA hk rfl hsome huid hsub hg hrows
  · exact tilesAfter_mmagK hk rfl hsome huid hsub hg

end Forms

end Sys2Proof.Machine
end

section
/-! PROOF of O42: factors and terms are exact products, dot sums in alignment groups, and the head of a matrix queue leaves the
results of its form in its tiles (03 R65, R69 to R76; 10 R212, R217). -/

namespace Sys2Proof.Machine

open Sys2Proof Sys2Proof.Claims

/-! ## The head of a queue -/

theorem Device.matrixHead_core {d : Device} {core : BitVec 8} {op : MatOp} (h : d.matrixHead core = some op) :
    op.core = core := by
  have := List.find?_some h
  simp only [Bool.and_eq_true, beq_iff_eq] at this
  exact this.1

section Head

variable {s : State} {core : BitVec 8} {op : MatOp}

theorem exec_matrixExecute_empty (h : s.dev.matrixHead core = none) : exec (.matrixExecute core) s = .next s := by
  show execMatrixExecute core s = .next s
  rw [execMatrixExecute, h]

theorem exec_matrixExecute_waits (h : s.dev.matrixHead core = some op)
    (hwait : s.dev.slaved core = true ∨ (s.dev.ctx op.ctx).state ≠ .active) : exec (.matrixExecute core) s = .next s := by
  show execMatrixExecute core s = .next s
  rw [execMatrixExecute, h]
  exact if_pos (by simpa using hwait)

theorem exec_matrixExecute_runs (h : s.dev.matrixHead core = some op) (hfree : s.dev.slaved core = false)
    (hactive : (s.dev.ctx op.ctx).state = .active) :
    exec (.matrixExecute core) s = .next { s with dev := s.dev.retireMatrix op } := by
  show execMatrixExecute core s = _
  rw [execMatrixExecute, h]
  exact if_neg (by simp [hfree, hactive])

end Head

/-! ## Its execution -/

section Retires

variable {d : Device} {op : MatOp} {w : Workgroup} {k : Kernel} {fa fb : MatFormat}

/-- An operation dropped from its queue with its locks, before its batches retire. -/
def Device.dropMatrix (d : Device) (op : MatOp) : Device :=
  { d with matrix := d.matrix.filter (fun x => x.id != op.id) }.unlock (.matrix op.id)

theorem Device.keepsEngine_dropMatrix (d : Device) (op : MatOp) : d.KeepsEngine (d.dropMatrix op) :=
  ⟨fun _ => rfl, rfl, rfl, fun _ h => List.mem_of_mem_filter h, fun _ h => List.mem_of_mem_filter h⟩

theorem Device.retireMatrix_eq (hruns : MatrixRuns d op w k fa fb) :
    d.retireMatrix op = (((((d.settleRanges (op.rowReads w k.shared fb)).runMatrix op w k fa fb).matrixRead op
      (op.rowReads w k.shared fb)).1).dropMatrix op).batches op.wg op.group op.agent := by
  have hlost : op.lost d (op.side w) (op.rowReads w k.shared fb) = none := by
    rw [MatOp.side, Device.wg_uid hruns.group]
    exact hruns.intact
  simp only [retireMatrix, hruns.group, hruns.kernel, hruns.formats, hlost]
  rfl

/-- An operation that runs leaves its results in its tiles, its queue and its locks. -/
theorem retireMatrix_spec (hruns : MatrixRuns d op w k fa fb) (hform : MatrixForm op) :
    TilesAfter d (d.retireMatrix op) op w k fa fb ∧ (∀ x ∈ (d.retireMatrix op).matrix, x.id ≠ op.id) ∧
      ∀ l ∈ (d.retireMatrix op).locks, l.owner ≠ .matrix op.id := by
  have htiles : TilesAfter d ((d.settleRanges (op.rowReads w k.shared fb)).runMatrix op w k fa fb) op w k fa fb :=
    tilesAfter_runMatrix hform hruns.group
  rw [Device.retireMatrix_eq hruns]
  generalize (d.settleRanges (op.rowReads w k.shared fb)).runMatrix op w k fa fb = e at htiles ⊢
  generalize hread : (e.matrixRead op (op.rowReads w k.shared fb)).1 = r
  have hkeepRead : e.KeepsEngine r := hread ▸ e.keepsEngine_matrixRead op _
  have hbatches := (r.dropMatrix op).keepsEngine_batches op.wg op.group op.agent
  have hkeep := hbatches.after ((r.keepsEngine_dropMatrix op).after hkeepRead)
  refine ⟨fun x t m n hm hn => ?_, fun x hx => ?_, fun l hl => ?_⟩
  · rw [tileElement_congr hkeep]
    exact htiles x t m n hm hn
  · simpa using (List.mem_filter.mp (hbatches.matrix x hx)).2
  · simpa using (List.mem_filter.mp (hbatches.locks l hl)).2

end Retires

/-- Settles O42: products by their three kinds, sums group by group, and the head's tiles form by form, which nothing that
follows its execution touches. -/
theorem matrixExecutes : Obligations.MatrixExecutes := by
  unfold Obligations.MatrixExecutes
  refine ⟨fun g acc ps hg _ => ⟨dotOf_dot hg acc ps, fun core columns m n => reducedDot_dotReduced hg core columns m n acc ps⟩,
    fun f book packed n scales => ⟨f.factors_length book packed n scales, f.product_factors book packed n scales⟩,
    fun xs ys x y hx hy => product_append hx hy, ?_⟩
  intro s core
  refine ⟨exec_matrixExecute_empty, fun op hhead => ⟨exec_matrixExecute_waits hhead, fun w k fa fb hruns hform => ?_⟩⟩
  have hfree : s.dev.slaved core = false := Device.matrixHead_core hhead ▸ hruns.free
  exact ⟨_, exec_matrixExecute_runs hhead hfree hruns.active, retireMatrix_spec hruns hform⟩

end Sys2Proof.Machine
end

section
/-! SUPPORT. What encoded words hold (04 Tables 04-1, 04-7, 04-8, 04-12): the fields of each format together, fields that lie within a
format's field, and the fields of the tails (09 Table 09-5; 10 Tables 10-2, 10-7). -/

namespace Sys2Proof

/-! ## Fields within a field -/

/-- A field that lies within another is read from that one's number. -/
theorem Word.field_within {w : Word} {lo n x : Nat} (h : w.field lo n = BitVec.ofNat n x) {lo' m : Nat} (hlo : lo ≤ lo')
    (hm : lo' + m ≤ lo + n) : w.field lo' m = BitVec.ofNat m (x / 2 ^ (lo' - lo)) := by
  have hx : w.toNat / 2 ^ lo % 2 ^ n = x % 2 ^ n := by simpa [Word.field] using congrArg BitVec.toNat h
  apply Word.field_eq
  have hwithin : lo' - lo + m ≤ n := by omega
  calc w.toNat / 2 ^ lo' % 2 ^ m
      = Machine.bitsN (w.toNat / 2 ^ lo) (lo' - lo) m := by
        rw [Machine.bitsN, Nat.div_div_eq_div_mul, ← pow_add, Nat.add_sub_cancel' hlo]
    _ = Machine.bitsN (x % 2 ^ n) (lo' - lo) m := by rw [← Machine.bitsN_mod _ hwithin, hx]
    _ = x / 2 ^ (lo' - lo) % 2 ^ m := Machine.bitsN_mod x hwithin

theorem Word.flag_eq_field (w : Word) (i : Nat) : w.flag i = (w.field i 1 == 1) := by
  rw [Bool.eq_iff_iff, Word.flag, beq_iff_eq, beq_iff_eq, ← BitVec.toNat_inj]
  simp [Word.field]

/-- A bit of a word is read from a field's number. -/
theorem Word.flag_within {w : Word} {lo n x : Nat} (h : w.field lo n = BitVec.ofNat n x) {i : Nat} (hlo : lo ≤ i)
    (hi : i + 1 ≤ lo + n) : w.flag i = decide (x / 2 ^ (i - lo) % 2 = 1) := by
  rw [Word.flag_eq_field, Word.field_within h hlo hi, Bool.eq_iff_iff, beq_iff_eq, decide_eq_true_iff, ← BitVec.toNat_inj]
  simp

theorem Word.major_of_field {w : Word} {x : Nat} (h : w.field 25 6 = BitVec.ofNat 6 x) (hx : x < 64) : w.major = x := by
  rw [Word.major, h, BitVec.toNat_ofNat, Nat.mod_eq_of_lt hx]

/-! ## The formats -/

section Formats

variable (c : Bool) (major sub minor i operand : Nat) (w : BitVec 3) (d a b : BitVec 7) (e : BitVec 6) (x : Bool)
  {lo n : Nat}

theorem packA3_fields (hm : major < 64) :
    (packA3 c major w d a b x).flag 31 = c ∧ (packA3 c major w d a b x).major = major ∧
      (packA3 c major w d a b x).field 22 3 = w ∧ (packA3 c major w d a b x).field 15 7 = d ∧
      (packA3 c major w d a b x).field 8 7 = a ∧ (packA3 c major w d a b x).field 1 7 = b ∧
      (packA3 c major w d a b x).flag 0 = x :=
  ⟨packA3_chain _ _ _ _ _ _ _ hm, Word.major_of_field (packA3_major ..) hm, packA3_w .., packA3_d .., packA3_a .., packA3_b ..,
    packA3_x ..⟩

theorem packA2_fields (hm : major < 64) (hn : minor < 128) :
    (packA2 c major w d a minor x).flag 31 = c ∧ (packA2 c major w d a minor x).major = major ∧
      (packA2 c major w d a minor x).field 22 3 = w ∧ (packA2 c major w d a minor x).field 15 7 = d ∧
      (packA2 c major w d a minor x).field 8 7 = a ∧ (packA2 c major w d a minor x).flag 0 = x :=
  ⟨packA2_chain _ _ _ _ _ _ _ hm hn, Word.major_of_field (packA2_major _ _ _ _ _ _ _ hn) hm, packA2_w _ _ _ _ _ _ _ hn,
    packA2_d _ _ _ _ _ _ _ hn, packA2_a _ _ _ _ _ _ _ hn, packA2_x ..⟩

theorem packAI_fields (hm : major < 64) (hi : i < 256) :
    (packAI c major w d a i).flag 31 = c ∧ (packAI c major w d a i).major = major ∧
      (packAI c major w d a i).field 22 3 = w ∧ (packAI c major w d a i).field 15 7 = d ∧
      (packAI c major w d a i).field 8 7 = a :=
  ⟨packAI_chain _ _ _ _ _ _ hm hi, Word.major_of_field (packAI_major _ _ _ _ _ _ hi) hm, packAI_w _ _ _ _ _ _ hi,
    packAI_d _ _ _ _ _ _ hi, packAI_a _ _ _ _ _ _ hi⟩

theorem packI_fields (hm : major < 64) (hi : i < 2 ^ 18) :
    (packI c major d i).flag 31 = c ∧ (packI c major d i).major = major ∧ (packI c major d i).field 18 7 = d :=
  ⟨packI_chain _ _ _ _ hm hi, Word.major_of_field (packI_major _ _ _ _ hi) hm, packI_d _ _ _ _ hi⟩

theorem packQ_fields (hm : major < 64) (hs : sub < 16) (ho : operand < 2 ^ 21) :
    (packQ c major sub operand).flag 31 = c ∧ (packQ c major sub operand).major = major ∧
      (packQ c major sub operand).field 21 4 = BitVec.ofNat 4 sub :=
  ⟨packQ_chain _ _ _ _ hm hs ho, Word.major_of_field (packQ_major _ _ _ _ hs ho) hm, packQ_sub _ _ _ _ ho⟩

theorem packE_fields (hm : major < 64) (hs : sub < 32) :
    (packE c major sub d a e).flag 31 = c ∧ (packE c major sub d a e).major = major ∧
      (packE c major sub d a e).field 20 5 = BitVec.ofNat 5 sub ∧ (packE c major sub d a e).field 13 7 = d ∧
      (packE c major sub d a e).field 6 7 = a ∧ (packE c major sub d a e).field 0 6 = e :=
  ⟨packE_chain _ _ _ _ _ _ hm hs, Word.major_of_field (packE_major _ _ _ _ _ _ hs) hm, packE_sub .., packE_d .., packE_a ..,
    packE_b ..⟩

/-! ### Within a format's fields -/

theorem packA2_within_minor (hlo : 1 ≤ lo) (hn : lo + n ≤ 8) :
    (packA2 c major w d a minor x).field lo n = BitVec.ofNat n (minor / 2 ^ (lo - 1)) :=
  Word.field_within (packA2_minor ..) hlo hn

theorem packAI_within_i (hn : lo + n ≤ 8) : (packAI c major w d a i).field lo n = BitVec.ofNat n (i / 2 ^ lo) :=
  Word.field_within (packAI_i ..) (Nat.zero_le lo) (by omega)

theorem packAI_flag_i (hi : lo < 8) : (packAI c major w d a i).flag lo = decide (i / 2 ^ lo % 2 = 1) :=
  Word.flag_within (packAI_i ..) (Nat.zero_le lo) (by omega)

theorem packI_within_i (hn : lo + n ≤ 18) : (packI c major d i).field lo n = BitVec.ofNat n (i / 2 ^ lo) :=
  Word.field_within (packI_i ..) (Nat.zero_le lo) (by omega)

theorem packQ_within_operand (hn : lo + n ≤ 21) :
    (packQ c major sub operand).field lo n = BitVec.ofNat n (operand / 2 ^ lo) :=
  Word.field_within (packQ_operand ..) (Nat.zero_le lo) (by omega)

theorem packQ_flag_operand (hi : lo < 21) : (packQ c major sub operand).flag lo = decide (operand / 2 ^ lo % 2 = 1) :=
  Word.flag_within (packQ_operand ..) (Nat.zero_le lo) (by omega)

theorem packE_within_sub (hlo : 20 ≤ lo) (hn : lo + n ≤ 25) :
    (packE c major sub d a e).field lo n = BitVec.ofNat n (sub / 2 ^ (lo - 20)) :=
  Word.field_within (packE_sub ..) hlo hn

theorem packE_flag_sub (hlo : 20 ≤ lo) (hi : lo < 25) :
    (packE c major sub d a e).flag lo = decide (sub / 2 ^ (lo - 20) % 2 = 1) :=
  Word.flag_within (packE_sub ..) hlo hi

theorem packE_within_d (hlo : 13 ≤ lo) (hn : lo + n ≤ 20) :
    (packE c major sub d a e).field lo n = BitVec.ofNat n (d.toNat / 2 ^ (lo - 13)) :=
  Word.field_within (by rw [packE_d, BitVec.ofNat_toNat, BitVec.setWidth_eq]) hlo hn

/-- The 13 bits of fields a and b together, which hold BRK's number (18 Table 18-2). -/
theorem packE_low (k : BitVec 13) :
    (packE c major sub d (BitVec.ofNat 7 (k.toNat / 64)) (k.setWidth 6)).field 0 13 = k := by
  apply BitVec.eq_of_toNat_eq
  simp only [Word.field, packE, BitVec.toNat_ofNat, BitVec.toNat_setWidth]
  omega

/-- Where d holds a mask and a condition (04 R91), each reads back. -/
theorem packA3_condition (k : BitVec 3) (q : BitVec 4) :
    (packA3 c major w (BitVec.ofNat 7 (k.toNat * 16 + q.toNat)) a b x).field 19 3 = k ∧
      (packA3 c major w (BitVec.ofNat 7 (k.toNat * 16 + q.toNat)) a b x).field 15 4 = q := by
  constructor <;>
  · rw [Word.field_within (packA3_d ..) (by omega) (by omega)]
    bv_omega

theorem packAI_condition (k : BitVec 3) (q : BitVec 4) (hi : i < 256) :
    (packAI c major w (BitVec.ofNat 7 (k.toNat * 16 + q.toNat)) a i).field 19 3 = k ∧
      (packAI c major w (BitVec.ofNat 7 (k.toNat * 16 + q.toNat)) a i).field 15 4 = q := by
  constructor <;>
  · rw [Word.field_within (packAI_d _ _ _ _ _ _ hi) (by omega) (by omega)]
    bv_omega

/-- Where d holds a mask alone, as in the votes, its other bits are zero. -/
theorem packA2_mask (k : BitVec 3) (hn : minor < 128) :
    (packA2 c major w (k.setWidth 7) a minor x).field 18 4 = 0 ∧ (packA2 c major w (k.setWidth 7) a minor x).field 15 3 = k := by
  have hd : (packA2 c major w (k.setWidth 7) a minor x).field 15 7 = BitVec.ofNat 7 k.toNat := by
    rw [packA2_d _ _ _ _ _ _ _ hn, BitVec.ofNat_toNat]
  constructor <;>
  · rw [Word.field_within hd (by omega) (by omega)]
    bv_omega

/-- The fields of the mask instructions' words (04 Table 04-12; 07 Table 07-5). -/
theorem packQ_maskOperand (hm : major < 64) (hs : sub < 16) (d a b : BitVec 3) {mode : Nat} (hmode : mode < 4) (s : BitVec 7) :
    (packQ c major sub (maskOperand d a b mode s)).flag 31 = c ∧ (packQ c major sub (maskOperand d a b mode s)).major = major ∧
      (packQ c major sub (maskOperand d a b mode s)).field 21 4 = BitVec.ofNat 4 sub ∧
      (packQ c major sub (maskOperand d a b mode s)).field 18 3 = d ∧
      (packQ c major sub (maskOperand d a b mode s)).field 15 3 = a ∧
      (packQ c major sub (maskOperand d a b mode s)).field 12 3 = b ∧
      (packQ c major sub (maskOperand d a b mode s)).field 10 2 = BitVec.ofNat 2 mode ∧
      (packQ c major sub (maskOperand d a b mode s)).field 3 7 = s ∧
      (packQ c major sub (maskOperand d a b mode s)).field 0 3 = 0 ∧
      (packQ c major sub (maskOperand d a b mode s)).field 0 12 = BitVec.ofNat 12 (mode * 2 ^ 10 + s.toNat * 2 ^ 3) := by
  have hlt : maskOperand d a b mode s < 2 ^ 21 := by
    unfold maskOperand
    omega
  obtain ⟨hchain, hmajor, hsub⟩ := packQ_fields c major sub _ hm hs hlt
  refine ⟨hchain, hmajor, hsub, ?_⟩
  unfold maskOperand
  refine ⟨?_, ?_, ?_, ?_, ?_, ?_, ?_⟩ <;>
  · rw [packQ_within_operand _ _ _ _ (by omega)]
    bv_omega

end Formats

/-! ## The tails -/

theorem CopyTail.pack_fields (t : CopyTail) (xf : BitVec 3) :
    Word.major (t.pack xf) = 0x3E ∧ Word.flag (t.pack xf) 31 = false ∧ Word.field (t.pack xf) 18 3 = xf ∧
      CopyTail.mk (Word.field (t.pack xf) 23 2) (Word.field (t.pack xf) 21 2) (Word.field (t.pack xf) 16 2)
        (Word.field (t.pack xf) 0 16) = t := by
  obtain ⟨skind, dkind, bq, boff⟩ := t
  refine ⟨?_, ?_, ?_, ?_⟩
  · simp only [Word.major, Word.field, CopyTail.pack, BitVec.toNat_ofNat]
    omega
  · rw [Word.flag, CopyTail.pack, BitVec.toNat_ofNat, beq_eq_false_iff_ne]
    omega
  · apply BitVec.eq_of_toNat_eq
    simp only [Word.field, CopyTail.pack, BitVec.toNat_ofNat]
    omega
  · rw [CopyTail.mk.injEq]
    refine ⟨?_, ?_, ?_, ?_⟩ <;>
    · apply BitVec.eq_of_toNat_eq
      simp only [Word.field, CopyTail.pack, BitVec.toNat_ofNat]
      omega

theorem RouteTail.pack_fields (t : RouteTail) :
    Word.major t.pack = 0x3E ∧ Word.flag t.pack 31 = false ∧
      RouteTail.mk (Word.field t.pack 22 3) (Word.field t.pack 18 4) (Word.field t.pack 16 2) (Word.field t.pack 0 16) = t := by
  obtain ⟨km1, dm1, bq, boff⟩ := t
  refine ⟨?_, ?_, ?_⟩
  · simp only [Word.major, Word.field, RouteTail.pack, BitVec.toNat_ofNat]
    omega
  · rw [Word.flag, RouteTail.pack, BitVec.toNat_ofNat, beq_eq_false_iff_ne]
    omega
  · rw [RouteTail.mk.injEq]
    refine ⟨?_, ?_, ?_, ?_⟩ <;>
    · apply BitVec.eq_of_toNat_eq
      simp only [Word.field, RouteTail.pack, BitVec.toNat_ofNat]
      omega

theorem packMatrixTail_fields (t : BitVec 7) (z : Bool) (cg : BitVec 6) :
    (packMatrixTail t z cg).major = 0x3E ∧ (packMatrixTail t z cg).flag 31 = false ∧ (packMatrixTail t z cg).field 18 7 = t ∧
      (packMatrixTail t z cg).flag 17 = z ∧ (packMatrixTail t z cg).field 11 6 = cg ∧ (packMatrixTail t z cg).field 0 11 = 0 := by
  have hz := bit_lt z
  refine ⟨?_, ?_, ?_, ?_, ?_, ?_⟩
  · simp only [Word.major, Word.field, packMatrixTail, BitVec.toNat_ofNat]
    omega
  · rw [Word.flag, packMatrixTail, BitVec.toNat_ofNat, beq_eq_false_iff_ne]
    omega
  · apply BitVec.eq_of_toNat_eq
    simp only [Word.field, packMatrixTail, BitVec.toNat_ofNat]
    omega
  · apply Word.flag_eq
    simp only [packMatrixTail, BitVec.toNat_ofNat]
    omega
  · apply BitVec.eq_of_toNat_eq
    simp only [Word.field, packMatrixTail, BitVec.toNat_ofNat]
    omega
  · apply BitVec.eq_of_toNat_eq
    simp only [Word.field, packMatrixTail, BitVec.toNat_ofNat, BitVec.ofNat_eq_ofNat]
    omega

end Sys2Proof
end

section
/-! SUPPORT. The decoder reads back the main word of every instruction without a tail (04 Tables 04-6 to 04-12), pipe by pipe
(04 Table 04-5). -/

namespace Sys2Proof

/-! ## Small fields -/

theorem cases_two_bits (o : BitVec 2) : o = 0 ∨ o = 1 ∨ o = 2 ∨ o = 3 := by
  revert o
  decide

theorem cases_three_bits (o : BitVec 3) : o = 0 ∨ o = 1 ∨ o = 2 ∨ o = 3 ∨ o = 4 ∨ o = 5 ∨ o = 6 ∨ o = 7 := by
  revert o
  decide

/-- The high bit of a format code, which a conversion's word holds apart (04 Table 04-8). -/
theorem bit_high (f : BitVec 4) : bit (decide (8 ≤ f.toNat)) = f.toNat / 8 := by
  by_cases hf : 8 ≤ f.toNat
  · rw [decide_eq_true hf, bit, if_pos rfl]
    omega
  · rw [decide_eq_false hf, bit, if_neg Bool.false_ne_true]
    omega

/-! ## Main words -/

/-- A main word with a header's chain bit reads, under that header, as an instruction that takes no tail. -/
def Word.ReadsAs (w : Word) (h : Hdr) (i : Instr) : Prop := w.flag 31 = h.chain ∧ decodeMain h w = some i

theorem mainWord_readsAs_alu {i : Instr} {h : Hdr} (hp : i.pipe = some .alu) (hh : i.hdr = some h) :
    Word.ReadsAs i.mainWord h i := by
  unfold Word.ReadsAs
  cases i with
  | iadd h' w d a b x | isub h' w d a b x | imul h' w d a b x | imulh h' w d a b x | imad h' w d a b x | imin h' w d a b x
  | imax h' w d a b x | isad h' w d a b x | shr h' w d a b x | bfe h' w d a b x =>
    cases hh
    simp [Instr.mainWord, decodeMain, decodeA3, packA3_fields]
  | and h' w d a b | or h' w d a b | xor h' w d a b | andn h' w d a b | shl h' w d a b | rotl h' w d a b | bfi h' w d a b
  | sel h' w d a b | fadd h' w d a b | fsub h' w d a b | fmul h' w d a b | ffma h' w d a b | fmin h' w d a b | fmax h' w d a b =>
    cases hh
    simp [Instr.mainWord, decodeMain, decodeA3, packA3_fields, onlyIf]
  | icmp h' w k q a b | fcmp h' w k q a b =>
    cases hh
    simp [Instr.mainWord, decodeMain, decodeA3, packA3_fields, packA3_condition, onlyIf]
  | iabs h' w d a | ineg h' w d a | not h' w d a | popc h' w d a | clz h' w d a | brev h' w d a | mov h' w d a | tag h' w d a =>
    cases hh
    simp [Instr.mainWord, decodeMain, decodeUnary, packA2_fields, packA2_within_minor]
  | fabs h' w d a | fneg h' w d a | frnd h' w d a | rcp h' w d a | rsqrt h' w d a | sqrt h' w d a | exp2 h' w d a
  | log2 h' w d a | sin h' w d a | cos h' w d a | tanh h' w d a =>
    cases hh
    simp [Instr.mainWord, decodeMain, decodeFloatUnary, packA2_fields, packA2_within_minor]
  | rdsp h' w d n | wrsp h' w a n =>
    cases hh
    simp (disch := omega) [Instr.mainWord, decodeMain, decodeUnary, packA2_fields, packA2_within_minor, onlyIf]
    bv_omega
  | cvt h' sf d a df r | cvq h' sf d a df r =>
    cases hh
    simp (disch := omega) [Instr.mainWord, decodeMain, decodeConvert, packA2_fields, packA2_within_minor, bit_high]
    bv_omega
  | cbx h' w d a s =>
    cases hh
    rcases cases_two_bits s with rfl | rfl | rfl | rfl <;>
    simp [Instr.mainWord, decodeMain, decodeCodebook, packA2_fields, packA2_within_minor]
  | iaddi h' w d a i | andi h' w d a i =>
    cases hh
    simp (disch := omega) [Instr.mainWord, decodeMain, decodeAI, packAI_fields, packAI_i]
  | shli h' w d a i =>
    cases hh
    simp (disch := omega) [Instr.mainWord, decodeMain, decodeAI, packAI_fields, packAI_within_i, packAI_flag_i, onlyIf]
    omega
  | shri h' w d a x i =>
    cases hh
    cases x <;>
    · simp (disch := omega) [Instr.mainWord, decodeMain, decodeAI, packAI_fields, packAI_within_i, packAI_flag_i, bit]
      bv_omega
  | icmpi h' w k q a i =>
    cases hh
    simp (disch := omega) [Instr.mainWord, decodeMain, decodeAI, packAI_fields, packAI_i, packAI_condition]
  | movi h' d i =>
    cases hh
    simp (disch := omega) [Instr.mainWord, decodeMain, packI_fields, packI_i]
  | movhi h' d i =>
    cases hh
    simp (disch := omega) [Instr.mainWord, decodeMain, packI_fields, packI_within_i, onlyIf]
    bv_omega
  | _ => cases hp

theorem mainWord_readsAs_lx {i : Instr} {h : Hdr} (hp : i.pipe = some .lx) (hh : i.hdr = some h) :
    Word.ReadsAs i.mainWord h i := by
  unfold Word.ReadsAs
  cases i with
  | cbld h' a n =>
    cases hh
    cases n <;> simp [Instr.mainWord, decodeMain, decodeCodebook, packA2_fields, packA2_within_minor, onlyIf, bit]
  | shfl h' w d a b | shflp h' w d a b =>
    cases hh
    simp [Instr.mainWord, decodeMain, decodeA3, packA3_fields]
  | voteAny h' w k a | voteAll h' w k a | voteBal h' w k a =>
    cases hh
    simp [Instr.mainWord, decodeMain, decodeExchange, packA2_fields, packA2_within_minor, packA2_mask, onlyIf]
  | reduInt h' w d a o x | scanInt h' w d a o x =>
    cases hh
    rcases cases_three_bits o with rfl | rfl | rfl | rfl | rfl | rfl | rfl | rfl <;>
    simp [Instr.mainWord, decodeMain, decodeExchange, packA2_fields, packA2_within_minor]
  | nzscan h' w d a k =>
    cases hh
    rcases cases_three_bits k with rfl | rfl | rfl | rfl | rfl | rfl | rfl | rfl <;>
    simp [Instr.mainWord, decodeMain, decodeExchange, packA2_fields, packA2_within_minor, onlyIf]
  | reduFloat h' w d a o | scanFloat h' w d a o =>
    cases hh
    rcases cases_two_bits o with rfl | rfl | rfl | rfl <;>
    simp [Instr.mainWord, decodeMain, decodeExchange, packA2_fields, packA2_within_minor, onlyIf]
  | seg h' w d =>
    cases hh
    simp [Instr.mainWord, decodeMain, decodeExchange, packA2_fields, packA2_within_minor, onlyIf]
  | shflx h' w d a m =>
    cases hh
    simp (disch := omega) [Instr.mainWord, decodeMain, decodeAI, packAI_fields, packAI_within_i, onlyIf]
    bv_omega
  | lds h' w d a i | sts h' w d a i | ldx h' w d a i | stx h' w d a i =>
    cases hh
    simp (disch := omega) [Instr.mainWord, decodeMain, decodeAI, packAI_fields, packAI_i]
  | ldk h' w d a i =>
    cases hh
    have hi : i.toNat / 128 = 0 := by omega
    simp (disch := omega) [Instr.mainWord, decodeMain, decodeAI, packAI_fields, packAI_within_i, packAI_flag_i, hi]
  | stk h' w d a i =>
    cases hh
    have hi : i.toNat / 128 = 0 := by omega
    simp (disch := omega) [Instr.mainWord, decodeMain, decodeAI, packAI_fields, packAI_within_i, packAI_flag_i, hi]
    bv_omega
  | atomS h' o d a b =>
    cases hh
    simp (disch := omega) [Instr.mainWord, decodeMain, decodeAtomic, packE_fields]
  | atomX h' o d a b =>
    cases hh
    have ho : o.toNat / 16 = 0 := by omega
    simp (disch := omega) [Instr.mainWord, decodeMain, decodeAtomic, packE_fields, packE_within_sub, packE_flag_sub, ho]
  | red h' o a b =>
    cases hh
    have ho : o.toNat / 16 = 0 := by omega
    simp (disch := omega) [Instr.mainWord, decodeMain, decodeAtomic, packE_fields, packE_within_sub, packE_flag_sub,
      onlyIf, ho]
    bv_omega
  | _ => cases hp

theorem mainWord_readsAs_eng {i : Instr} {h : Hdr} (hp : i.pipe = some .eng) (ht : i.tailWord = none) (hh : i.hdr = some h) :
    Word.ReadsAs i.mainWord h i := by
  unfold Word.ReadsAs
  cases i with
  | barinit h' a b | bararr h' d b | barwait h' d b | bararrw h' d b | cwait h' d b | fetchw h' b | sleepuntil h' d a b =>
    cases hh
    simp [Instr.mainWord, decodeMain, decodeBarrier, packE_fields, onlyIf]
  | fence h' s =>
    cases hh
    simp [Instr.mainWord, decodeMain, decodeBarrier, packE_fields, packE_within_d, onlyIf]
    bv_omega
  | mbatch h' d b | mwait h' a | tld h' d t b | tst h' d t b | tzero h' t | tsts h' d t b | tldP h' d t b | tstP h' d t b
  | tzeroP h' t | tstsP h' d t b | xslot h' d a | xrel h' a | tmap h' a b =>
    cases hh
    simp [Instr.mainWord, decodeMain, decodeEngine, packE_fields, onlyIf]
  | copy h' d a b t | copyt h' d a b xf t | mma h' d a b t z | mmap h' d a b t z | mmagA h' a b t cg | mmagK h' d b t z cg
  | route h' d a t => cases ht
  | _ => cases hp

theorem mainWord_readsAs_seq {i : Instr} {h : Hdr} (hp : i.pipe = some .seq) (hh : i.hdr = some h) :
    Word.ReadsAs i.mainWord h i := by
  unfold Word.ReadsAs
  cases i with
  | mark h' | logw h' d a | icinv h' | qpost h' b | csrr h' d n | csrw h' a n | tlbinv h' a | tlbinvAll h' =>
    cases hh
    simp [Instr.mainWord, decodeMain, decodeSystem, packE_fields, onlyIf]
  | brk h' k =>
    cases hh
    simp [Instr.mainWord, decodeMain, decodeSystem, packE_fields, packE_low, onlyIf]
  | next h' | ret h' | exit h' | yield h' =>
    cases hh
    simp [Instr.mainWord, decodeMain, decodeSequencer, packQ_fields, packQ_operand, onlyIf]
  | sleep h' d =>
    cases hh
    simp (disch := omega) [Instr.mainWord, decodeMain, decodeSequencer, packQ_fields, packQ_operand]
  | span h' b | jmp h' b | call h' b | brx h' b | elect h' b =>
    cases hh
    simp (disch := omega) [Instr.mainWord, decodeMain, decodeSequencer, packQ_fields, packQ_within_operand, onlyIf]
    bv_omega
  | br h' k n b =>
    cases hh
    cases n <;>
    · simp (disch := omega) [Instr.mainWord, decodeMain, decodeSequencer, packQ_fields, packQ_within_operand,
        packQ_flag_operand, onlyIf, bit]
      bv_omega
  | kand h' d a b | kor h' d a b | kxor h' d a b | knot h' d a | kmovMask h' d a | kmovFromCell h' d s | kmovToSlices h' a s
  | kpop h' a s =>
    cases hh
    simp [Instr.mainWord, decodeMain, decodeMask, packQ_maskOperand, onlyIf]
  | gret h' | tret h' =>
    cases hh
    simp [Instr.mainWord, decodeMain, decodeGate, packQ_fields, packQ_operand, onlyIf]
  | gate h' b | trap h' b =>
    cases hh
    simp (disch := omega) [Instr.mainWord, decodeMain, decodeGate, packQ_fields, packQ_within_operand, onlyIf]
    bv_omega
  | _ => cases hp

/-- Only NOP and the events take no pipe, and they have no header. -/
theorem Instr.hdr_eq_none {i : Instr} (hp : i.pipe = none) : i.hdr = none := by
  cases i <;> simp_all [Instr.hdr, Instr.pipe]

/-- Every instruction without a tail is read back from its main word. -/
theorem mainWord_readsAs {i : Instr} {h : Hdr} (hh : i.hdr = some h) (ht : i.tailWord = none) : Word.ReadsAs i.mainWord h i := by
  cases hp : i.pipe with
  | none => simp [Instr.hdr_eq_none hp] at hh
  | some p =>
    cases p with
    | alu => exact mainWord_readsAs_alu hp hh
    | lx => exact mainWord_readsAs_lx hp hh
    | eng => exact mainWord_readsAs_eng hp ht hh
    | seq => exact mainWord_readsAs_seq hp hh

end Sys2Proof
end

section
/-! PROOF of O2: the words that encode an instruction decode to it, its EXT, main word and TAIL taken together (04 R79, R85, R88). -/

namespace Sys2Proof

/-! ## Main words that name an instruction -/

theorem Word.tailed_iff {w : Word} : w.tailed = true ↔
    w.major = 0x31 ∧ (w.field 20 5).toNat < 2 ∨ w.major = 0x33 ∧ (w.field 20 5).toNat < 4 ∨
      w.major = 0x34 ∧ (w.field 20 5).toNat = 0 := by
  simp only [Word.tailed, Bool.or_eq_true, Bool.and_eq_true, beq_iff_eq, decide_eq_true_iff, or_assoc]

/-- The main words that `decodeMain` reads are no NOPs, take no tail, and are no EXT and no TAIL. -/
theorem decodeMain_eq_some {h : Hdr} {w : Word} {i : Instr} (hd : decodeMain h w = some i) :
    w.isNop = false ∧ w.tailed = false ∧ w.major ≠ 0x3E ∧ w.major ≠ 0x3F := by
  refine ⟨?_, ?_, ?_, ?_⟩
  · by_contra hnop
    obtain ⟨hm, hsub⟩ : w.major = 0x35 ∧ w.field 21 4 = 0 := by simpa [Word.isNop] using hnop
    simp [decodeMain, decodeSequencer, hm, hsub] at hd
  · by_contra htail
    rcases Word.tailed_iff.mp (Bool.eq_true_of_not_eq_false htail) with ⟨hm, -⟩ | ⟨hm, hsub⟩ | ⟨hm, hsub⟩
    · simp [decodeMain, hm] at hd
    · interval_cases hs : (w.field 20 5).toNat <;> simp [decodeMain, decodeEngine, hm, hs] at hd
    · simp [decodeMain, decodeEngine, hm, hsub] at hd
  · intro hm
    simp [decodeMain, hm] at hd
  · intro hm
    simp [decodeMain, hm] at hd

/-- Main words marked tail are no NOPs, EXTs or TAILs either. -/
theorem Word.plain_of_tailed {w : Word} (h : w.tailed = true) : w.isNop = false ∧ w.major ≠ 0x3E ∧ w.major ≠ 0x3F := by
  rcases Word.tailed_iff.mp h with ⟨hm, -⟩ | ⟨hm, -⟩ | ⟨hm, -⟩ <;> simp [Word.isNop, hm]

/-! ## Main words with a tail -/

/-- A main word and its TAIL read as an instruction. -/
structure Word.ReadsWithTail (w t : Word) (h : Hdr) (i : Instr) : Prop where
  chain : w.flag 31 = h.chain
  tailed : w.tailed = true
  tail : t.major = 0x3E
  zero : tailZero w t = true
  reads : decodeTailed h w t = some i

theorem mainWord_readsWithTail {i : Instr} {h : Hdr} {t : Word} (hh : i.hdr = some h) (ht : i.tailWord = some t) :
    Word.ReadsWithTail i.mainWord t h i := by
  cases i with
  | copy h' d a b t' | copyt h' d a b xf t' =>
    cases hh
    obtain rfl := Option.some.inj ht
    constructor <;> simp [Instr.mainWord, Word.tailed, tailZero, decodeTailed, packE_fields, CopyTail.pack_fields]
  | mma h' d a b t' z | mmap h' d a b t' z | mmagA h' a b t' cg | mmagK h' d b t' z cg =>
    cases hh
    obtain rfl := Option.some.inj ht
    constructor <;> simp [Instr.mainWord, Word.tailed, tailZero, decodeTailed, packE_fields, packMatrixTail_fields, onlyIf]
  | route h' d a t' =>
    cases hh
    obtain rfl := Option.some.inj ht
    constructor <;> simp [Instr.mainWord, Word.tailed, tailZero, decodeTailed, packE_fields, RouteTail.pack_fields, onlyIf]
  | _ => cases ht

/-! ## Items -/

theorem decodeFrom_of_readsAs {w : Word} {h : Hdr} {i : Instr} (hw : w.ReadsAs h i) (start main : Nat) (rest : List Word) :
    decodeFrom start main h.ext w rest =
      { start := start, main := main, len := main - start + 1, chain := h.chain, instr := some i, reject := none } := by
  obtain ⟨hchain, hd⟩ := hw
  obtain ⟨hnop, htail, -, -⟩ := decodeMain_eq_some hd
  simp [decodeFrom, hchain, hnop, htail, hd]

theorem decodeFrom_of_readsWithTail {w t : Word} {h : Hdr} {i : Instr} (hw : w.ReadsWithTail t h i) (start main : Nat)
    (rest : List Word) : decodeFrom start main h.ext w (t :: rest) =
      { start := start, main := main, len := main - start + 2, chain := h.chain, instr := some i, reject := none } := by
  simp [decodeFrom, hw.chain, (Word.plain_of_tailed hw.tailed).1, hw.tailed, hw.tail, hw.reads, hw.zero]

/-- What the words of an instruction with a header decode to, from the main word on. -/
theorem decodeFrom_mainWord {i : Instr} {h : Hdr} (hh : i.hdr = some h) (start main : Nat) (rest : List Word) :
    decodeFrom start main h.ext i.mainWord (i.tailWord.toList ++ rest) =
      { start := start, main := main, len := main - start + 1 + i.tailWord.toList.length, chain := h.chain, instr := some i,
        reject := none } := by
  cases ht : i.tailWord with
  | none => simpa using decodeFrom_of_readsAs (mainWord_readsAs hh ht) start main rest
  | some t => simpa using decodeFrom_of_readsWithTail (mainWord_readsWithTail hh ht) start main rest

/-- A main word of an instruction with a header is no NOP, no TAIL and no EXT. -/
theorem mainWord_plain {i : Instr} {h : Hdr} (hh : i.hdr = some h) :
    i.mainWord.isNop = false ∧ i.mainWord.major ≠ 0x3E ∧ i.mainWord.major ≠ 0x3F := by
  cases ht : i.tailWord with
  | none =>
    obtain ⟨hnop, -, h3E, h3F⟩ := decodeMain_eq_some (mainWord_readsAs hh ht).2
    exact ⟨hnop, h3E, h3F⟩
  | some t => exact Word.plain_of_tailed (mainWord_readsWithTail hh ht).tailed

theorem decodeItem_of_main {w : Word} (hE : w.major ≠ 0x3E) (hF : w.major ≠ 0x3F) (off : Nat) (rest : List Word) :
    decodeItem off (w :: rest) = some (decodeFrom off off none w rest) := by
  simp [decodeItem, hE, hF]

theorem decodeItem_of_ext (e : Ext) {w : Word} (hnop : w.isNop = false) (hE : w.major ≠ 0x3E) (hF : w.major ≠ 0x3F) (off : Nat)
    {rest : List Word} (hi : (decodeFrom off (off + 1) (some e) w rest).instr.isNone = false) :
    decodeItem off (e.pack :: w :: rest) = some (decodeFrom off (off + 1) (some e) w rest) := by
  obtain ⟨hread, hmajor, hflag⟩ := e.read_pack
  simp [decodeItem, hread, hmajor, hflag, hnop, hE, hF, hi]

/-! ## The words of an instruction -/

theorem encode_eq (i : Instr) :
    encode i = ((i.hdr.bind Hdr.ext).map Ext.pack).toList ++ i.mainWord :: i.tailWord.toList := by
  unfold encode
  cases i.hdr with
  | none => cases i.tailWord <;> simp
  | some h => cases hx : h.ext <;> cases i.tailWord <;> simp [hx]

/-- The words of an instruction with a header decode to it, with its words and its chain bit. -/
theorem decodeItem_encode {i : Instr} {h : Hdr} (hh : i.hdr = some h) (off : Nat) (rest : List Word) :
    decodeItem off (encode i ++ rest) =
      some { start := off, main := off + (if h.ext.isSome then 1 else 0), len := (encode i).length, chain := h.chain,
             instr := some i, reject := none } := by
  obtain ⟨hnop, hE, hF⟩ := mainWord_plain hh
  have hmain := decodeFrom_mainWord hh off
  rw [encode_eq, hh]
  cases hx : h.ext with
  | none =>
    rw [hx] at hmain
    simp [hx, decodeItem_of_main hE hF, hmain, Nat.add_comm]
  | some e =>
    rw [hx] at hmain
    simp [hx, decodeItem_of_ext e hnop hE hF, hmain, Nat.add_comm]
    omega

theorem decodeItem_nop (off : Nat) (c : Bool) (rest : List Word) :
    decodeItem off (packQ c 0x35 0 0 :: rest) =
      some { start := off, main := off, len := 1, chain := c, instr := some (.nop c), reject := none } := by
  rw [decodeItem_of_main] <;> simp [decodeFrom, Word.isNop, packQ_fields, packQ_operand]

theorem Instr.chain_of_hdr {i : Instr} {h : Hdr} (hh : i.hdr = some h) : i.chain = h.chain := by
  cases i with
  | nop c => cases hh
  | _ => simp only [Instr.chain, hh]

/-- NOP is the one instruction word without a header (04 R80). -/
theorem Instr.eq_nop {i : Instr} (hword : i.isWord = true) (hh : i.hdr = none) : ∃ c, i = .nop c := by
  cases i with
  | nop c => exact ⟨c, rfl⟩
  | _ => simp_all [Instr.hdr, Instr.isWord]

/-- Settles O2: NOP, and the instructions with a header, whose words need not be well formed to be read back. -/
theorem encodeRoundTrip : Obligations.EncodeRoundTrip := by
  unfold Obligations.EncodeRoundTrip
  intro i hword _ off rest
  cases hh : i.hdr with
  | none =>
    obtain ⟨c, rfl⟩ := Instr.eq_nop hword hh
    exact ⟨_, decodeItem_nop off c rest, rfl, rfl, rfl, rfl, rfl⟩
  | some h => exact ⟨_, decodeItem_encode hh off rest, rfl, rfl, rfl, rfl, (Instr.chain_of_hdr hh).symm⟩

end Sys2Proof
end

section
/-! PROOF of O6: between steps no chain is in issue (04 R84). An event changes the device alone, and a partition's clock that runs a
chain's instructions ends the chain. -/

namespace Sys2Proof.Machine

open Sys2Proof Sys2Proof.Claims

/-! ## Events -/

/-- An outcome that changes nothing but the device. -/
def OnlyDevice (s : State) (o : Host.Outcome State Fault Refusal) : Prop := ∃ d, o = .next { s with dev := d }

theorem onlyDevice_ite {s : State} {p : Prop} [Decidable p] {d e : Device} :
    OnlyDevice s (if p then .next { s with dev := d } else .next { s with dev := e }) := by
  split <;> exact ⟨_, rfl⟩

theorem onlyDevice_hostCommand (c : BitVec 6) (here : Device → Bool) (s : State) : OnlyDevice s (hostCommand c here s) :=
  onlyDevice_ite

theorem onlyDevice_spdm (s : State) (early : Bool) (a : SpdmAnswer) : OnlyDevice s (s.spdm early a) := onlyDevice_ite

/-- Every event but a reset and the loss of power changes the device alone. -/
theorem onlyDevice_event {i : Instr} (hevent : i.isWord = false) (hreset : ∀ b, i ≠ .reset b) (hoff : i ≠ .powerRemove) (s : State) :
    OnlyDevice s (exec i s) := by
  cases i with
  | registerWriteback | placement | ringRefill q | stopComplete c | transientFault t | uncorrectableError t => exact ⟨_, rfl⟩
  | contextCreate c | contextDestroy c | registerWrite o z v | lcrEnable c | logTailWrite c k v | stopwg c | cont c | step c
  | portRead c | portWrite c | messageTailWrite v | peerInboundAccess p a | peerPortDown p | peerPortUp p | coreFence b
  | arrivalAdmit c u | throttle die lower | partitionClock core part => exact onlyDevice_ite
  | load c | start c | patch c | stop c | resume c | unload c | query c | queryRegion c | queryErrorCounters c
  | queryLaneCycleBin c | querySleepCounter c | querySetBin c =>
    simp only [exec, execLoad, execStart, execPatch, execStop, execResume, execUnload, execQuery, execQueryRegion,
      execQueryErrorCounters, execQueryLaneCycleBin, execQuerySleepCounter, execQuerySetBin]
    exact onlyDevice_hostCommand c _ s
  | getVersion | getCapabilities | negotiateAlgorithms | getDigests | getCertificate | challenge n | getMeasurements n
  | unsupportedRequest n =>
    simp only [exec, execGetVersion, execGetCapabilities, execNegotiateAlgorithms, execGetDigests, execGetCertificate, execChallenge,
      execGetMeasurements, execUnsupportedRequest]
    exact onlyDevice_spdm s _ _
  -- Each of the others looks up what it acts on; whatever it finds, only the device changes.
  | sleepExpire r | sleepuntilDeadline r | waitWake r | cellRefill w g k | copyBurstCommit r | copyRetire r | matrixExecute c
  | routePassRetire r | fetchwHandover r | launchReady c t | launchComplete c t | patchApply c n | hostApertureAccess o a
  | workgroupHalt c | worldAssignmentChange t sec =>
    simp only [exec, execSleepExpire, execSleepuntilDeadline, execWaitWake, execCellRefill, execCopyBurstCommit, execCopyRetire,
      execMatrixExecute, execRoutePassRetire, execFetchwHandover, execLaunchReady, execLaunchComplete, execPatchApply,
      execHostApertureAccess, execWorkgroupHalt, execWorldAssignmentChange]
    repeat' split
    all_goals exact ⟨_, rfl⟩
  | reset b => exact absurd rfl (hreset b)
  | powerRemove => exact absurd rfl hoff
  | _ => cases hevent

/-! ## Outcomes between steps -/

/-- An outcome that is no next state in which a chain is in issue. -/
def Settles (o : Host.Outcome State Fault Refusal) : Prop := ∀ t, o = .next t → t.Settled

theorem settles_next {t : State} (h : t.Settled) : Settles (.next t) := by
  rintro _ ⟨⟩
  exact h

theorem settles_fault (f : Fault) : Settles (.fault f) := by
  intro t h
  cases h

theorem settles_refused (r : Refusal) : Settles (.refused r) := by
  intro t h
  cases h

theorem Settles.ite {p : Prop} [Decidable p] {o q : Host.Outcome State Fault Refusal} (ho : Settles o) (hq : Settles q) :
    Settles (if p then o else q) := by
  split
  · exact ho
  · exact hq

theorem State.Settled.withDev {s : State} (h : s.Settled) (d : Device) : State.Settled { s with dev := d } := h

theorem State.Settled.withInputs {s : State} (h : s.Settled) (l : List Instr) : State.Settled { s with inputs := l } := h

theorem State.Settled.after {s : State} (h : s.Settled) : s.after.Settled := h

theorem OnlyDevice.settles {s : State} {o : Host.Outcome State Fault Refusal} (ho : OnlyDevice s o) (h : s.Settled) : Settles o := by
  obtain ⟨d, rfl⟩ := ho
  exact settles_next (h.withDev d)

theorem settles_event {i : Instr} (hevent : i.isWord = false) {s : State} (h : s.Settled) : Settles (exec i s) := by
  by_cases hreset : ∃ b, i = .reset b
  · obtain ⟨b, rfl⟩ := hreset
    exact settles_next ⟨rfl, rfl⟩
  · by_cases hoff : i = .powerRemove
    · subst hoff
      exact settles_next ⟨rfl, rfl⟩
    · exact (onlyDevice_event hevent (not_exists.mp hreset) hoff s).settles h

/-! ## A partition's clock -/

theorem State.finish_settled (s : State) (core : BitVec 8) (part : BitVec 5) (rslot : Nat) (r : Ready) (lone : Bool) :
    (s.finish core part rslot r lone).Settled := by
  unfold finish
  split <;> exact ⟨rfl, rfl⟩

section Partition

variable {s : State} (core : BitVec 8) (part : BitVec 5) (rslot : Nat) (r : Ready) (lone : Bool)

theorem settles_restOfChain (d : Device) : Settles (s.restOfChain core part rslot r lone d) := by
  simp only [State.restOfChain]
  split
  · split <;> exact settles_next (State.finish_settled ..)
  · exact settles_fault _
  · exact settles_refused _

theorem settles_admitChain (h : s.Settled) (next : Option (Nat × Arrival)) (d0 d : Device) :
    Settles (s.admitChain core part rslot r lone next d0 d) := by
  simp only [State.admitChain]
  split
  · exact settles_next (h.withDev _)
  · exact (settles_next (h.withDev _)).ite (settles_restOfChain core part rslot r lone _)
  · exact settles_next h

theorem settles_issueChain (h : s.Settled) : Settles (s.issueChain core part rslot r) := by
  simp only [State.issueChain]
  cases r.answer with
  | wait => exact settles_next h
  | lost f => cases r.views <;> exact settles_next (h.withDev _)
  | trap t n => exact settles_next (h.withDev _)
  | issue =>
    simp only
    split
    · exact settles_next (h.withDev _)
    · split
      · exact settles_next (State.finish_settled ..)
      · exact settles_fault _
      · exact settles_refused _
  | takes next =>
    simp only
    split
    · exact settles_next (h.withDev _)
    · exact settles_admitChain core part rslot r _ h next _ _

theorem settles_partition (h : s.Settled) : Settles (s.partition core part) := by
  simp only [State.partition]
  split
  · exact settles_issueChain core part _ _ (h.withDev _)
  · exact settles_event rfl (h.withDev _)

end Partition

/-! ## The step -/

theorem isWord_of_isInput {i : Instr} (h : isInput i = true) : i.isWord = false := by
  simp [isInput] at h
  exact h.1

theorem isWord_of_isDeviceEvent {i : Instr} (h : isDeviceEvent i = true) : i.isWord = false := by
  cases i with
  | sleepExpire r | sleepuntilDeadline r | waitWake r | registerWriteback | cellRefill w g k | ringRefill q | copyBurstCommit r
  | copyRetire r | matrixExecute c | routePassRetire r | fetchwHandover r | launchReady c t | placement | launchComplete c t
  | patchApply c n | stopComplete c | workgroupHalt c | arrivalAdmit c u => rfl
  | _ => cases h

theorem settles_move {s : State} (h : s.Settled) : Settles s.move := by
  unfold State.move
  cases s.turn with
  | host =>
    cases s.inputs with
    | nil => exact settles_next h
    | cons i rest =>
      simp only
      split
      next hi => exact settles_event (isWord_of_isInput hi) (h.withInputs rest)
      next => exact settles_next (h.withInputs rest)
  | partition core part => exact settles_partition core part h
  | clock => exact settles_next (h.withDev s.dev.clock)
  | event i =>
    simp only
    split
    next hi => exact settles_event (isWord_of_isDeviceEvent hi) h
    next => exact settles_next h

/-- Settles O6: whoever moves, no chain is left in issue. -/
theorem stepKeepsSettled : Obligations.StepKeepsSettled := by
  intro s t hs hstep
  have hmove := settles_move hs
  unfold step at hstep
  split at hstep
  · split at hstep
    next u hu =>
      cases hstep
      exact (hmove u hu).after
    · cases hstep
    · cases hstep
  · cases hstep

end Sys2Proof.Machine
end

section
/-! PROOF of O1 and O3: words written out decode to their instructions (04 Tables 04-1, 04-2, 04-6 to 04-12), and NOP takes no operand,
EXT, tail or pipe, stands anywhere in a chain that ends in its packet, and changes nothing (04 R80, R81). -/

namespace Sys2Proof

/-! ## The words of NOP -/

theorem Word.isNop_iff {w : Word} : w.isNop = true ↔ w.major = 0x35 ∧ w.field 21 4 = 0 := by
  simp [Word.isNop]

theorem decodeItem_nop_operand {w : Word} (h : w.isNop = true) (hop : w.field 0 21 ≠ 0) (off : Nat) (rest : List Word) :
    decodeItem off (w :: rest) =
      some { start := off, main := off, len := 1, chain := w.flag 31, instr := none, reject := some (off, .reserved) } := by
  obtain ⟨hm, -⟩ := Word.isNop_iff.mp h
  rw [decodeItem_of_main (by rw [hm]; decide) (by rw [hm]; decide)]
  have hoperand : (w.field 0 21 == 0) = false := beq_false_of_ne hop
  simp only [decodeFrom, h, hoperand, if_true]
  simp

theorem decodeItem_ext_nop {e w : Word} (he : e.major = 0x3F) (h : w.isNop = true) (off : Nat) (rest : List Word) :
    decodeItem off (e :: w :: rest) =
      some { start := off, main := off, len := 1, chain := false, instr := none, reject := some (off, .extAlone) } := by
  simp [decodeItem, he, h]

end Sys2Proof

namespace Sys2Proof.Machine

open Sys2Proof Sys2Proof.Claims

/-! ## NOP in a chain -/

theorem failingWords_ne_nil {vs : List View} {count : Nat} {earlier items : List Item} {it : Item} (hit : it ∈ items)
    (h : it.failing.isSome = true) : failingWords vs count earlier items ≠ [] := by
  intro hnil
  rw [failing_of_failingWords hnil it hit] at h
  cases h

/-- A chain with an item that fails by its own words raises ILLEGAL (04 R370). -/
theorem chainCheck_of_failing {vs : List View} {items : List Item} {it : Item} (hit : it ∈ items) (h : it.failing.isSome = true) :
    ∃ t n, chainCheck vs items = .trap t n ∧ t.cause = 0x01 := by
  unfold chainCheck
  cases hw : lowestWord (failingWords vs items.length [] items) with
  | none => exact absurd (lowestWord_none hw) (failingWords_ne_nil hit h)
  | some p => exact ⟨_, _, rfl, rfl⟩

/-- NOP writes nothing that another instruction of its chain could write too (01 R23). -/
theorem clash_nop (m : Meaning) (c : Bool) (v : View) : m.clash (meaningNop c) v = false := by
  simp [Meaning.clash, Meaning.written, meaningNop]

/-- NOP fails in a chain only where its chain bit leads past the packet's end (04 R81). -/
theorem chainFails_nop {it : Item} {c : Bool} (hi : it.instr = some (.nop c)) (earlier : List Item) (count : Nat) (vs : List View) :
    chainFails it earlier count vs = (it.chain && decide (3 ≤ it.start + it.len)) := by
  have halone : itemAlone it = false := by rw [itemAlone, hi]; rfl
  have hpipe : itemPipe it = none := by rw [itemPipe, hi]; rfl
  have hmeaning : itemMeaning it = some (meaningNop c) := by rw [itemMeaning, hi]; rfl
  simp only [chainFails, halone, hpipe, hmeaning]
  rw [List.any_eq_false.mpr]
  · simp
  · intro e _
    cases itemMeaning e <;> simp [clash_nop]

/-- Settles O3: its words by the decoder, its place by the checks of a chain, its effect by `exec_nop`. -/
theorem nopWord : Obligations.NopWord := by
  unfold Obligations.NopWord
  refine ⟨fun off rest => ⟨decodeItem_nop off false rest, decodeItem_nop off true rest⟩,
    fun w hw off rest => ⟨fun hop => ⟨_, decodeItem_nop_operand hw hop off rest, rfl, rfl⟩,
      fun e he => ⟨_, decodeItem_ext_nop he hw off rest, rfl, rfl⟩⟩,
    fun vs items ⟨it, hit, h⟩ => chainCheck_of_failing hit h, fun c => ⟨rfl, rfl, fun it earlier count vs hi hc => ?_⟩,
    fun c s iss vs hI => exec_nop c hI⟩
  rw [chainFails_nop hi, hc]
  cases c <;> simp

/-! ## Words written out -/

/-- Settles O1: the decoder evaluated on each of the words. -/
theorem wordsDecode : Obligations.WordsDecode := by
  unfold Obligations.WordsDecode
  decide

end Sys2Proof.Machine
end

section
/-! SUPPORT. The memories of the device byte by byte (02 R39; 08 R171, R172): what a space reads after it has changed, after a number
has been written, and after the accumulators that an access reaches have settled (09 R197). -/

namespace Sys2Proof.Machine

open Sys2Proof Sys2Proof.Claims

/-! ## Numbers and nibbles, bit by bit -/

/-- A number written stands little-endian in its bytes, and every other byte is as it was. -/
theorem Memory.getLsbD_byte_putNum (m : Memory) (a n v b : ℕ) {k : ℕ} (hk : k < 8) :
    (Memory.byte (Memory.putNum m a n v) b).getLsbD k =
      if a ≤ b ∧ b < a + n then v.testBit (8 * b + k - 8 * a) else (Memory.byte m b).getLsbD k := by
  induction n generalizing m a v with
  | zero => rw [if_neg (by omega)]; rfl
  | succ n ih =>
    rw [show Memory.putNum m a (n + 1) v = Memory.putNum (Memory.put m a (BitVec.ofNat 8 v)) (a + 1) n (v / 2 ^ 8) from rfl, ih,
      Memory.byte_put, Nat.testBit_div_two_pow]
    by_cases hrest : a + 1 ≤ b ∧ b < a + 1 + n
    · rw [if_pos hrest, if_pos (by omega)]
      congr 1
      omega
    · rw [if_neg hrest]
      by_cases hb : b = a
      · subst hb
        rw [if_pos rfl, if_pos (by omega), Nat.add_sub_cancel_left, BitVec.getLsbD_ofNat]
        simp [hk]
      · rw [if_neg hb, if_neg (by omega)]

/-- A nibble written stands in its byte, and the other nibble and every other byte are as they were (08 R174). -/
theorem Memory.getLsbD_byte_putNibble (m : Memory) (a : ℕ) (hi : Bool) (v b : ℕ) {k : ℕ} (hk : k < 8) :
    (Memory.byte (Memory.putNibble m a hi v) b).getLsbD k =
      if b = a ∧ (if hi then 4 else 0) ≤ k ∧ k < (if hi then 4 else 0) + 4 then v.testBit (k - if hi then 4 else 0)
      else (Memory.byte m b).getLsbD k := by
  rw [Memory.putNibble, Memory.byte_put]
  by_cases hb : b = a
  · subst hb
    rw [if_pos rfl, BitVec.getLsbD_ofNat, testBit_putBitsN]
    simp [hk, BitVec.getLsbD]
  · rw [if_neg hb, if_neg (fun h => hb h.1)]

/-- A number read is little-endian: bit `k` lies in the byte `k / 8` beyond its address. -/
theorem Device.testBit_num (d : Device) (sp : Space) (a n k : ℕ) :
    (d.num sp a n).testBit k = (decide (k < 8 * n) && (d.byteAt sp (a + k / 8)).getLsbD (k % 8)) := by
  induction n generalizing a k with
  | zero => simp [num]
  | succ n ih =>
    rw [num, Nat.add_comm, Nat.testBit_two_pow_mul_add (i := 8) _ (d.byteAt sp a).isLt, ih]
    by_cases hk : k < 8
    · rw [if_pos hk, Nat.div_eq_of_lt hk, Nat.mod_eq_of_lt hk, decide_eq_true (by omega : k < 8 * (n + 1))]
      rfl
    · rw [if_neg hk, show a + 1 + (k - 8) / 8 = a + k / 8 by omega, show (k - 8) % 8 = k % 8 by omega]
      congr 1
      exact decide_eq_decide.mpr (by omega)

/-! ## Spaces -/

/-- The memory of a space: a segment, the scratchpad, or a physical memory; a virtual address has none of its own. -/
def Device.memoryOf (d : Device) (sp : Space) : Memory :=
  match sp with
  | .shared uid q => d.segment uid q
  | .spad => d.spad
  | .main _ => []
  | .phys dev => if dev = 0 then d.hbm else if dev = 1 then d.host else tableGet [] d.peers (dev - 1)

/-- Whether a space has a memory: a segment has one as long as its workgroup is placed. -/
def Device.Holds (d : Device) (sp : Space) : Prop :=
  match sp with
  | .shared uid _ => (d.wg uid).isSome = true
  | .main _ => False
  | _ => True

theorem Device.byteAt_eq (d : Device) (sp : Space) (a : ℕ) : d.byteAt sp a = Memory.byte (d.memoryOf sp) a := by
  cases sp with
  | phys dev =>
    simp only [byteAt, physByte, memoryOf]
    split_ifs <;> rfl
  | _ => rfl

@[simp] theorem Device.byteAt_withLost (d : Device) (l : List StoredPlace) (sp : Space) (a : ℕ) :
    ({ d with lost := l } : Device).byteAt sp a = d.byteAt sp a := by
  cases sp <;> rfl

@[simp] theorem Device.byteAt_withAccs (d : Device) (l : List Accumulator) (sp : Space) (a : ℕ) :
    ({ d with accs := l } : Device).byteAt sp a = d.byteAt sp a := by
  cases sp <;> rfl

/-- A segment's memory after a change of a segment. -/
theorem Device.segment_modSpace (d : Device) (uid : ℕ) (q : BitVec 2) (a : ℕ) (f : Memory → ℕ → Memory) (u : ℕ) (r : BitVec 2) :
    (d.modSpace (.shared uid q) a f).segment u r =
      if (u = uid ∧ r = q) ∧ (d.wg uid).isSome = true then f (d.segment uid q) a else d.segment u r := by
  unfold segment modSpace
  rw [d.wg_modWg uid (f := fun w => { w with shared := modCore w.shared q.toNat (fun m => f m a) }) (fun _ => rfl) u]
  by_cases hu : u = uid
  · subst hu
    have hq : (r.toNat % 4 = q.toNat % 4) = (r = q) := by
      rw [Nat.mod_eq_of_lt r.isLt, Nat.mod_eq_of_lt q.isLt, BitVec.toNat_inj]
    cases d.wg u with
    | none => simp
    | some w => simp [perCore_modCore, hq]
  · simp [hu]

/-- A space changed has its memory changed, where it has one. -/
theorem Device.memoryOf_modSpace_self {d : Device} {sp : Space} (h : d.Holds sp) (a : ℕ) (f : Memory → ℕ → Memory) :
    (d.modSpace sp a f).memoryOf sp = f (d.memoryOf sp) a := by
  cases sp with
  | shared uid q => exact (d.segment_modSpace uid q a f uid q).trans (if_pos ⟨⟨rfl, rfl⟩, h⟩)
  | spad => rfl
  | main c => exact h.elim
  | phys dev =>
    simp only [modSpace, memoryOf]
    split_ifs
    · rfl
    · rfl
    · exact (tableGet_tableSet ..).trans (if_pos rfl)

/-- A space without a memory stays without one. -/
theorem Device.memoryOf_modSpace_none {d : Device} {sp : Space} (h : ¬ d.Holds sp) (a : ℕ) (f : Memory → ℕ → Memory) :
    (d.modSpace sp a f).memoryOf sp = d.memoryOf sp := by
  cases sp with
  | shared uid q => exact (d.segment_modSpace uid q a f uid q).trans (if_neg (fun hin => h hin.2))
  | main c => rfl
  | _ => exact absurd trivial h

/-- Every other space's memory is as it was. -/
theorem Device.memoryOf_modSpace_other (d : Device) {sp sp' : Space} (h : sp' ≠ sp) (a : ℕ) (f : Memory → ℕ → Memory) :
    (d.modSpace sp a f).memoryOf sp' = d.memoryOf sp' := by
  cases sp with
  | shared uid q =>
    cases sp' with
    | shared u r => exact (d.segment_modSpace uid q a f u r).trans (if_neg (fun ⟨⟨hu, hr⟩, _⟩ => h (by rw [hu, hr])))
    | _ => rfl
  | spad =>
    cases sp' with
    | spad => exact absurd rfl h
    | _ => rfl
  | main c => rfl
  | phys dev =>
    cases sp' with
    | phys dev' =>
      have hdev : dev' ≠ dev := fun heq => h (by rw [heq])
      by_cases h0 : dev = 0
      · simp [modSpace, memoryOf, h0, h0 ▸ hdev]
      · by_cases h1 : dev = 1
        · simp [modSpace, memoryOf, h1, h1 ▸ hdev]
        · have hkey : dev' ≠ 0 → dev' ≠ 1 → dev' - 1 ≠ dev - 1 := by omega
          simp +contextual [modSpace, memoryOf, h0, h1, tableGet_tableSet, hkey]
    | _ =>
      simp only [modSpace]
      split_ifs <;> rfl

/-- A byte of a space after the space, or another one, has changed. -/
theorem Device.byteAt_modSpace {d : Device} {sp : Space} (h : d.Holds sp) (a : ℕ) (f : Memory → ℕ → Memory) (sp' : Space) (b : ℕ) :
    (d.modSpace sp a f).byteAt sp' b = if sp' = sp then Memory.byte (f (d.memoryOf sp) a) b else d.byteAt sp' b := by
  rw [byteAt_eq]
  by_cases hsp : sp' = sp
  · rw [if_pos hsp, hsp, memoryOf_modSpace_self h]
  · rw [if_neg hsp, memoryOf_modSpace_other d hsp, byteAt_eq]

/-- A number written to a space stands little-endian in its bytes, and every other byte is as it was. -/
theorem Device.getLsbD_byteAt_putNum {d : Device} {sp : Space} (h : d.Holds sp) (a n v : ℕ) (sp' : Space) (b : ℕ) {k : ℕ}
    (hk : k < 8) :
    ((d.putNum sp a n v).byteAt sp' b).getLsbD k =
      if sp' = sp ∧ a ≤ b ∧ b < a + n then v.testBit (8 * b + k - 8 * a) else (d.byteAt sp' b).getLsbD k := by
  rw [putNum, byteAt_withLost, byteAt_modSpace h]
  by_cases hsp : sp' = sp
  · subst hsp
    rw [if_pos rfl, Memory.getLsbD_byte_putNum _ a n v b hk, byteAt_eq]
    simp only [true_and]
  · rw [if_neg hsp, if_neg (fun hin => hsp hin.1)]

/-- A number written leaves every byte outside its range, whether or not the space has a memory. -/
theorem Device.byteAt_putNum_outside (d : Device) (sp : Space) {a n b : ℕ} (v : ℕ) (sp' : Space)
    (h : sp' = sp → b < a ∨ a + n ≤ b) :
    (d.putNum sp a n v).byteAt sp' b = d.byteAt sp' b := by
  by_cases hsp : sp' = sp
  · by_cases hd : d.Holds sp
    · refine BitVec.eq_of_getLsbD_eq (fun k hk => ?_)
      have hout := h hsp
      rw [getLsbD_byteAt_putNum hd a n v sp' b hk, if_neg (by omega)]
    · rw [putNum, byteAt_withLost, byteAt_eq, hsp, memoryOf_modSpace_none hd, byteAt_eq]
  · rw [putNum, byteAt_withLost, byteAt_eq, memoryOf_modSpace_other d hsp, byteAt_eq]

/-! ## Accumulators settled (09 R197) -/

theorem Accumulator.meets_iff {x : Accumulator} {sp : Space} {a n : ℕ} :
    x.meets sp a n = true ↔ x.space = sp ∧ x.addr < a + n ∧ a < x.addr + x.bytes := by
  simp [meets, and_assoc]

/-- What misses some bytes misses each of them. -/
theorem Accumulator.meets_byte {x : Accumulator} {sp : Space} {a n b : ℕ} (h : x.meets sp a n = false) (hlo : a ≤ b) (hhi : b < a + n) :
    x.meets sp b 1 = false := by
  rw [Bool.eq_false_iff, Ne, meets_iff] at h ⊢
  rintro ⟨hsp, hbelow, habove⟩
  exact h ⟨hsp, by omega, by omega⟩

/-- No accumulator is left over the bytes of an access, and none is new. -/
theorem Device.mem_accs_settle {d : Device} {sp : Space} {a n : ℕ} {store : Bool} {x : Accumulator} :
    x ∈ (d.settle sp a n store).accs ↔ x ∈ d.accs ∧ x.meets sp a n = false := by
  rw [settle, List.mem_filter, Bool.not_eq_true']

/-- Settling writes the words of accumulators, and no other byte. -/
theorem Device.byteAt_settle (d : Device) (sp : Space) (a n : ℕ) (store : Bool) {sp' : Space} {b : ℕ}
    (h : ∀ x ∈ d.accs, x.meets sp' b 1 = false) : (d.settle sp a n store).byteAt sp' b = d.byteAt sp' b := by
  rw [settle, byteAt_withAccs]
  refine List.foldlRecOn _ _ (motive := fun e : Device => e.byteAt sp' b = d.byteAt sp' b) rfl (fun e he x hx => ?_)
  split_ifs
  · exact he
  · rw [← he]
    refine byteAt_putNum_outside e x.space _ sp' (fun hsp => ?_)
    have hmiss := h x (List.mem_of_mem_filter hx)
    rw [Bool.eq_false_iff, Ne, Accumulator.meets_iff] at hmiss
    by_contra hin
    exact hmiss ⟨hsp.symm, by omega, by omega⟩

theorem Device.holds_congr {d e : Device} (h : ∀ uid, (e.wg uid).isSome = (d.wg uid).isSome) (sp : Space) :
    e.Holds sp ↔ d.Holds sp := by
  cases sp with
  | shared uid q => rw [Holds, Holds, h]
  | _ => rfl

theorem Device.holds_settle (d : Device) (sp : Space) (a n : ℕ) (store : Bool) (sp' : Space) :
    (d.settle sp a n store).Holds sp' ↔ d.Holds sp' :=
  holds_congr (d.keepsEngine_settle sp a n store).wg_isSome sp'

/-! ## The spaces of threads (08 R171, R172) -/

/-- The spaces that threads address (08 Table 08-1). -/
def Space.ofThreads (sp : Space) : Bool :=
  match sp with
  | .shared _ _ | .spad => true
  | .main _ | .phys _ => false

/-- A place that a thread addresses lies in its workgroup's segments or in the scratchpad. -/
theorem View.place_space {v : View} {sp : ThreadSpace} {reads writes : Bool} {n addr : ℕ} {p : Place}
    (h : v.place sp reads writes n addr = some p) : p.space = .spad ∨ ∃ q, p.space = .shared v.wg.uid q := by
  unfold View.place at h
  cases sp with
  | shared =>
    simp only [View.shared, sharedPlace, Option.ite_none_left_eq_some, Option.some.injEq] at h
    exact .inr ⟨_, by rw [← h.2]⟩
  | spad =>
    simp only [Option.ite_none_right_eq_some, Option.some.injEq] at h
    exact .inl (by rw [← h.2])

end Sys2Proof.Machine
end

section
/-! SUPPORT. Words that check their operands and nothing beside, and words that act once for both hardware groups of a pair (04 R371;
16 R281). -/

namespace Sys2Proof.Machine

open Sys2Proof Sys2Proof.Claims

/-! ## Checks -/

theorem maskOf_none {p : ℕ → Bool} (h : ∀ j, j < 32 → p j = false) : maskOf p = 0 := by
  have hfold : allLanes.foldl (fun acc j => if p j then acc + 2 ^ j else acc) 0 = allLanes.foldl (fun acc _ => acc) 0 := by
    refine List.foldl_ext _ _ _ (fun acc j hj => ?_)
    rw [h j (lt_of_mem_allLanes hj)]
    rfl
  rw [maskOf, hfold]
  rfl

/-- A check of the lanes passes when no active lane fails it. -/
theorem lanesCheck_ok {cause : ℕ} {act : Word} {bad : ℕ → Bool} {detail : ℕ → ℕ}
    (h : ∀ j, j < 32 → hasLane act j = true → bad j = false) : Check.lanes cause act bad detail = .ok := by
  have hnone : maskOf (fun j => hasLane act j && bad j) = 0 := by
    refine maskOf_none (fun j hj => ?_)
    cases ha : hasLane act j with
    | false => rfl
    | true => exact h j hj ha
  rw [Check.lanes, hnone]
  rfl

/-- A meaning that checks its words' form, its spans, and the operands of the groups in which it has an active lane, and nothing
else. -/
structure ChecksOperands (m : Meaning) : Prop where
  illegal : m.illegal = fun _ => false
  cellSpans : m.cellSpans = fun _ => []
  words : m.words = fun _ => .ok
  always : m.always = false
  arrives : m.arrives = fun _ => []

/-- Its checks pass where those of its operands do. -/
theorem ChecksOperands.check_ok {m : Meaning} (hm : ChecksOperands m) {i : Instr} (hwf : i.wf = true) {vs : List View} (d : Device)
    (hb : InBudget vs m.spans) (hop : ∀ v ∈ m.acts i vs, Instr.lanes i v ≠ 0 → m.operands v (Instr.lanes i v) = .ok) :
    m.check i vs d = .ok := by
  refine Meaning.check_ok hwf (fun v _ => by rw [hm.illegal]) (fun v hv p hp => hb v hv p ?_)
    (fun v hv => Meaning.checkRest_ok (by rw [hm.words]) (fun hact => hop v hv ?_)) (fun v _ => by rw [hm.arrives]; rfl)
  · simpa [hm.cellSpans] using hp
  · exact hact.resolve_left (by simp [hm.always])

theorem mem_actives {i : Instr} {vs : List View} {v : View} (hv : v ∈ vs) (hact : Instr.lanes i v ≠ 0) : v ∈ actives i vs :=
  List.mem_filter.mpr ⟨hv, decide_eq_true hact⟩

/-- The group in which an instruction acts that acts once, where that group has an active lane. -/
theorem mem_activeOnce {i : Instr} {m : Meaning} (honce : m.once = true) {vs : List View} {v : View} (hv : v ∈ m.acts i vs)
    (hact : Instr.lanes i v ≠ 0) : v ∈ activeOnce i vs := by
  rw [Meaning.acts, if_pos honce] at hv
  exact actives_acting i vs ▸ mem_actives hv hact

/-! ## Effects -/

/-- A word that acts once completes when its effect succeeds in the one group in which it acts. -/
theorem runWord_activeOnce {s : State} {iss : Issue} {vs : List View} {i : Instr} {m : Meaning} {P : View → State → State → Prop}
    (hI : Issuing s iss vs) (hc : m.check i vs s.dev = .ok) (hr : m.records = false) (ho : m.once = true) (ha : m.always = false)
    (hf : ∀ v ∈ activeOnce i vs, ∀ s, ∃ r, m.effect v (Instr.lanes i v) s = .ok r ∧ P v s r) :
    ∃ t, runWord i m s = .next t ∧ Each P (activeOnce i vs) s t := by
  have hacts : m.acts i vs = (actingView i vs).toList := by rw [Meaning.acts, if_pos ho]
  obtain ⟨t, hrun, heach, -⟩ := runEffects_each (i := i) (f := m.effect) (P := P) (fun _ => True) (m.acts i vs)
    (fun v hv hact s _ => by
      obtain ⟨r, heffect, hP⟩ := hf v (mem_activeOnce ho hv hact) s
      exact ⟨r, heffect, hP, trivial⟩) s trivial
  refine ⟨t, runWord_next hI hc ?_, ?_⟩
  · rw [Meaning.run_eq hr, ha, hrun]
  · rw [← actives_acting, ← hacts]
    exact heach

/-- An effect that is a function, on some groups one after another. -/
theorem each_foldl (f : View → State → State) (vs : List View) (s : State) :
    Each (fun v s t => t = f v s) vs s (vs.foldl (fun s v => f v s) s) := by
  induction vs generalizing s with
  | nil => rfl
  | cons v l ih => exact ⟨_, rfl, ih _⟩

end Sys2Proof.Machine
end

section
/-! SUPPORT. What thread accesses do to the device (08 R174; 09 R193): the memories that they change and no others, and the bits
that a store, and the stores of a group's lanes in order, leave. -/

namespace Sys2Proof.Claims

open Sys2Proof Sys2Proof.Machine

/-! ## The frame -/

theorem SameButMemory.refl (d : Device) : SameButMemory d d :=
  ⟨Workgroup.shared, d.spad, d.accs, d.lost, fun _ h => h, by simp⟩

theorem SameButMemory.trans {d e f : Device} (h : SameButMemory d e) (h' : SameButMemory e f) : SameButMemory d f := by
  obtain ⟨m, spad, accs, lost, hlost, rfl⟩ := h
  obtain ⟨m', spad', accs', lost', hlost', rfl⟩ := h'
  refine ⟨fun w => m' { w with shared := m w }, spad', accs', lost', fun p hp => hlost p (hlost' p hp), ?_⟩
  simp only [List.map_map, Function.comp_def]

theorem SameButMemory.withLost (d : Device) {l : List StoredPlace} (h : ∀ p ∈ l, p ∈ d.lost) : SameButMemory d { d with lost := l } :=
  ⟨Workgroup.shared, d.spad, d.accs, l, h, by simp⟩

theorem SameButMemory.withAccs (d : Device) (l : List Accumulator) : SameButMemory d { d with accs := l } :=
  ⟨Workgroup.shared, d.spad, l, d.lost, fun _ h => h, by simp⟩

theorem SameButMemory.modSpace (d : Device) {sp : Space} (h : sp.ofThreads = true) (a : ℕ) (f : Memory → ℕ → Memory) :
    SameButMemory d (d.modSpace sp a f) := by
  cases sp with
  | shared uid q =>
    refine ⟨fun w => if w.uid == uid then modCore w.shared q.toNat (fun m => f m a) else w.shared, d.spad, d.accs, d.lost,
      fun _ hp => hp, ?_⟩
    simp only [Device.modSpace, Device.modWg]
    congr 2
    funext w
    split_ifs <;> rfl
  | spad => exact ⟨Workgroup.shared, f d.spad a, d.accs, d.lost, fun _ hp => hp, by simp [Device.modSpace]⟩
  | _ => cases h

theorem SameButMemory.putNum (d : Device) {sp : Space} (h : sp.ofThreads = true) (a n v : ℕ) : SameButMemory d (d.putNum sp a n v) := by
  refine (SameButMemory.modSpace d h a (fun m x => Memory.putNum m x n v)).trans ?_
  have hlost : (d.modSpace sp a (fun m x => Memory.putNum m x n v)).lost = d.lost := by
    cases sp with
    | shared uid q => rfl
    | spad => rfl
    | _ => cases h
  exact SameButMemory.withLost _ (fun p hp => hlost ▸ List.mem_of_mem_filter hp)

theorem SameButMemory.settle (d : Device) {sp : Space} (h : sp.ofThreads = true) (a n : ℕ) (store : Bool) :
    SameButMemory d (d.settle sp a n store) := by
  refine SameButMemory.trans (List.foldlRecOn _ _ (motive := SameButMemory d) (.refl d) (fun e he x hx => ?_)) (.withAccs ..)
  have hspace : x.space = sp := (Accumulator.meets_iff.mp ((List.mem_filter.mp hx).2)).1
  split_ifs
  · exact he
  · exact he.trans (SameButMemory.putNum e (hspace ▸ h) _ _ _)

theorem SameButMemory.wg_isSome {d e : Device} (h : SameButMemory d e) (uid : ℕ) : (e.wg uid).isSome = (d.wg uid).isSome := by
  obtain ⟨m, spad, accs, lost, -, rfl⟩ := h
  simp [Device.wg, List.find?_map]

/-! ## One store -/

/-- The first bit of an access of `w` bits in its first byte. -/
def firstBit (w : ℕ) (hi : Bool) : ℕ := if w = 4 ∧ hi then 4 else 0

theorem getLsbD_byteAt_modNibble {d : Device} {sp : Space} (h : d.Holds sp) (a : ℕ) (hi : Bool) (v : ℕ) (sp' : Space) (b : ℕ) {k : ℕ}
    (hk : k < 8) :
    ((d.modSpace sp a (fun m x => Memory.putNibble m x hi v)).byteAt sp' b).getLsbD k =
      if sp' = sp ∧ 8 * a + firstBit 4 hi ≤ 8 * b + k ∧ 8 * b + k < 8 * a + firstBit 4 hi + 4 then
        v.testBit (8 * b + k - (8 * a + firstBit 4 hi))
      else (d.byteAt sp' b).getLsbD k := by
  rw [Device.byteAt_modSpace h]
  by_cases hsp : sp' = sp
  · subst hsp
    have hfirst : (if hi then 4 else 0) = firstBit 4 hi := by simp [firstBit]
    have hfour : firstBit 4 hi ≤ 4 := by unfold firstBit; split_ifs <;> omega
    rw [if_pos rfl, Memory.getLsbD_byte_putNibble _ a hi v b hk, Device.byteAt_eq, hfirst]
    by_cases hin : b = a ∧ firstBit 4 hi ≤ k ∧ k < firstBit 4 hi + 4
    · obtain ⟨rfl, hlo, hhi⟩ := hin
      rw [if_pos ⟨rfl, hlo, hhi⟩, if_pos ⟨rfl, by omega, by omega⟩]
      congr 1
      omega
    · rw [if_neg hin, if_neg (by omega)]
  · rw [if_neg hsp, if_neg (fun hin => hsp hin.1)]

/-- The widths of an access: a nibble, or whole bytes (09 R193). -/
def AccessWidth (w : ℕ) : Prop := w = 4 ∨ w % 8 = 0

/-- A store puts its bits at its place, and every other bit is as the accumulators settled (08 R174; 09 R197). -/
theorem getLsbD_byteAt_store {d : Device} {p : Place} (h : d.Holds p.space) {w : ℕ} (hw : AccessWidth w) (hi : Bool) (v : ℕ) (sp : Space)
    (b : ℕ) {k : ℕ} (hk : k < 8) :
    ((d.store p w hi v).byteAt sp b).getLsbD k =
      if sp = p.space ∧ 8 * p.addr + firstBit w hi ≤ 8 * b + k ∧ 8 * b + k < 8 * p.addr + firstBit w hi + w then
        v.testBit (8 * b + k - (8 * p.addr + firstBit w hi))
      else ((d.settle p.space p.addr (accessBytes w) (w != 4)).byteAt sp b).getLsbD k := by
  have hsettled := (d.holds_settle p.space p.addr (accessBytes w) (w != 4) p.space).mpr h
  by_cases h4 : w = 4
  · subst h4
    exact getLsbD_byteAt_modNibble hsettled p.addr hi v sp b hk
  · have h8 : w % 8 = 0 := hw.resolve_left h4
    have hfirst : firstBit w hi = 0 := if_neg (fun hin => h4 hin.1)
    rw [hfirst]
    simp only [Device.store, if_neg h4]
    rw [Device.getLsbD_byteAt_putNum hsettled p.addr (w / 8) v sp b hk]
    by_cases hin : sp = p.space ∧ p.addr ≤ b ∧ b < p.addr + w / 8
    · obtain ⟨hsp, hlo, hhi⟩ := hin
      rw [if_pos ⟨hsp, hlo, hhi⟩, if_pos ⟨hsp, by omega, by omega⟩, Nat.add_zero]
    · rw [if_neg hin, if_neg (fun hin' => hin ⟨hin'.1, by omega, by omega⟩)]

/-- A store changes memories of threads only. -/
theorem SameButMemory.store (d : Device) {p : Place} (h : p.space.ofThreads = true) (w : ℕ) (hi : Bool) (v : ℕ) :
    SameButMemory d (d.store p w hi v) := by
  refine (SameButMemory.settle d h p.addr (accessBytes w) (w != 4)).trans ?_
  unfold Device.store
  dsimp only
  split_ifs
  · exact SameButMemory.modSpace _ h ..
  · exact SameButMemory.putNum _ h ..

/-- A store leaves no accumulator over its bytes, and makes none. -/
theorem mem_accs_store {d : Device} {p : Place} {w : ℕ} {hi : Bool} {v : ℕ} {x : Accumulator} :
    x ∈ (d.store p w hi v).accs ↔ x ∈ d.accs ∧ x.meets p.space p.addr (accessBytes w) = false := by
  have hmod (e : Device) (sp : Space) (a : ℕ) (f : Memory → ℕ → Memory) : (e.modSpace sp a f).accs = e.accs := by
    cases sp with
    | phys dev =>
      unfold Device.modSpace
      dsimp only
      split_ifs <;> rfl
    | _ => rfl
  have hput (e : Device) (sp : Space) (a n y : ℕ) : (e.putNum sp a n y).accs = e.accs := hmod ..
  rw [← Device.mem_accs_settle (store := w != 4)]
  unfold Device.store
  dsimp only
  split_ifs
  · rw [hmod]
  · rw [hput]

/-! ## The stores of a group's lanes -/

/-- A lane's store. -/
def Access.storeLane (x : Access) (v : View) (d : Device) (j : ℕ) : Device :=
  match x.into v j with
  | some p => d.store p x.w x.hi (v.read j x.d x.w)
  | none => d

theorem Access.bit_eq (x : Access) : x.bit = firstBit x.w x.hi := rfl

/-- The stores of the active lanes are the lanes' stores in increasing order. -/
theorem Access.foldl_placesOf (x : Access) (v : View) (act : Word) (d : Device) :
    (placesOf act (x.into v)).foldl (fun e p => e.store p.2 x.w x.hi (v.read p.1 x.d x.w)) d =
      (lanesOf act).foldl (x.storeLane v) d := by
  rw [placesOf, List.foldl_filterMap]
  congr 1
  funext e j
  unfold storeLane
  cases x.into v j <;> rfl

theorem Access.into_ofThreads {x : Access} {v : View} {j : ℕ} {p : Place} (h : x.into v j = some p) : p.space.ofThreads = true := by
  obtain hsp | ⟨q, hsp⟩ := View.place_space h
  · rw [hsp]; rfl
  · rw [hsp]; rfl

theorem Access.into_holds {x : Access} {v : View} {j : ℕ} {p : Place} (h : x.into v j = some p) {d : Device}
    (hd : (d.wg v.wg.uid).isSome = true) : d.Holds p.space := by
  obtain hsp | ⟨q, hsp⟩ := View.place_space h
  · rw [hsp]; trivial
  · rw [hsp]; exact hd

theorem Access.covers_iff {x : Access} {v : View} {j : ℕ} {p : Place} (h : x.into v j = some p) {sp : Space} {a k : ℕ} :
    x.covers v j sp a k = true ↔
      sp = p.space ∧ 8 * p.addr + firstBit x.w x.hi ≤ 8 * a + k ∧ 8 * a + k < 8 * p.addr + firstBit x.w x.hi + x.w := by
  simp only [covers, h, Bool.and_eq_true, beq_iff_eq, decide_eq_true_eq, and_assoc, eq_comm (a := sp)]
  rfl

theorem Access.covers_none {x : Access} {v : View} {j : ℕ} (h : x.into v j = none) (sp : Space) (a k : ℕ) :
    x.covers v j sp a k = false := by
  simp only [covers, h]

/-- A bit that a store covers lies in the bytes that its check and its accumulators know it by. -/
theorem firstBit_bytes {w : ℕ} (hw : AccessWidth w) {hi : Bool} {a b k : ℕ} (hk : k < 8) (hlo : 8 * a + firstBit w hi ≤ 8 * b + k)
    (hhi : 8 * b + k < 8 * a + firstBit w hi + w) : a ≤ b ∧ b < a + accessBytes w := by
  unfold firstBit at hlo hhi
  unfold accessBytes
  rcases hw with rfl | hw
  · split_ifs at * <;> omega
  · split_ifs at * <;> omega

/-- What the stores of some lanes, one after another, leave of a device: a covered bit holds the last such lane's, no accumulator
stands over it any more, and what no lane covers and no accumulator stands for is as it was. -/
structure Access.StoredBy (x : Access) (v : View) (l : List ℕ) (d e : Device) : Prop where
  frame : SameButMemory d e
  accs : ∀ q ∈ e.accs, q ∈ d.accs
  clear : ∀ sp a k, k < 8 → (∃ j ∈ l, x.covers v j sp a k = true) → ∀ q ∈ e.accs, q.meets sp a 1 = false
  bits : (d.wg v.wg.uid).isSome = true → ∀ sp a k, k < 8 →
    match (l.filter (fun j => x.covers v j sp a k)).getLast? with
    | some j => (e.byteAt sp a).getLsbD k = x.stored v j a k
    | none => (∀ q ∈ d.accs, q.meets sp a 1 = false) → (e.byteAt sp a).getLsbD k = (d.byteAt sp a).getLsbD k

theorem Access.StoredBy.nil (x : Access) (v : View) (d : Device) : x.StoredBy v [] d d where
  frame := .refl d
  accs _ h := h
  clear := by simp
  bits := by simp

/-- A lane without a place stores nothing. -/
theorem Access.StoredBy.append_none {x : Access} {v : View} {l : List ℕ} {d e : Device} (h : x.StoredBy v l d e) {j : ℕ}
    (hj : x.into v j = none) : x.StoredBy v (l ++ [j]) d e where
  frame := h.frame
  accs := h.accs
  clear sp a k hk := by
    rintro ⟨i, hi, hcov⟩
    rcases List.mem_append.mp hi with hi | hi
    · exact h.clear sp a k hk ⟨i, hi, hcov⟩
    · rw [List.mem_singleton.mp hi, covers_none hj] at hcov
      cases hcov
  bits hd sp a k hk := by
    have hlast : (l ++ [j]).filter (fun j => x.covers v j sp a k) = l.filter (fun j => x.covers v j sp a k) := by
      simp [covers_none hj]
    rw [hlast]
    exact h.bits hd sp a k hk

/-- One more lane stores over what the lanes before it have left. -/
theorem Access.StoredBy.append_some {x : Access} {v : View} (hw : AccessWidth x.w) {l : List ℕ} {d e : Device} (h : x.StoredBy v l d e)
    {j : ℕ} {p : Place} (hj : x.into v j = some p) :
    x.StoredBy v (l ++ [j]) d (e.store p x.w x.hi (v.read j x.d x.w)) where
  frame := h.frame.trans (.store e (into_ofThreads hj) ..)
  accs q hq := h.accs q (mem_accs_store.mp hq).1
  clear sp a k hk := by
    rintro ⟨i, hi, hcov⟩ q hq
    obtain ⟨hq, hmiss⟩ := mem_accs_store.mp hq
    rcases List.mem_append.mp hi with hi | hi
    · exact h.clear sp a k hk ⟨i, hi, hcov⟩ q hq
    · rw [List.mem_singleton.mp hi] at hcov
      obtain ⟨rfl, hlo, hhi⟩ := (covers_iff hj).mp hcov
      obtain ⟨hle, hlt⟩ := firstBit_bytes hw hk hlo hhi
      exact Accumulator.meets_byte hmiss hle hlt
  bits hd sp a k hk := by
    have hstored := getLsbD_byteAt_store (into_holds hj ((h.frame.wg_isSome v.wg.uid).trans hd)) hw x.hi (v.read j x.d x.w) sp a hk
    have hbits := h.bits hd sp a k hk
    by_cases hcov : x.covers v j sp a k = true
    · rw [if_pos ((covers_iff hj).mp hcov)] at hstored
      simp [hcov, stored, hj, bit_eq, hstored]
    · rw [if_neg (fun hin => hcov ((covers_iff hj).mpr hin))] at hstored
      have hlanes : (l ++ [j]).filter (fun j => x.covers v j sp a k) = l.filter (fun j => x.covers v j sp a k) := by simp [hcov]
      rw [hlanes, hstored]
      cases hlast : (l.filter (fun j => x.covers v j sp a k)).getLast? with
      | some i =>
        rw [hlast] at hbits
        have hi := List.mem_filter.mp (List.mem_of_getLast? hlast)
        rw [Device.byteAt_settle _ _ _ _ _ (h.clear sp a k hk ⟨i, hi⟩)]
        exact hbits
      | none =>
        rw [hlast] at hbits
        intro hacc
        rw [Device.byteAt_settle _ _ _ _ _ (fun q hq => hacc q (h.accs q hq))]
        exact hbits hacc

/-- The stores of the active lanes leave each bit as its writer, the highest lane that covers it, says (09 R193). -/
theorem Access.StoredBy.storedBits {x : Access} {v : View} {act : Word} {d e : Device} (h : x.StoredBy v (lanesOf act) d e)
    (hd : (d.wg v.wg.uid).isSome = true) : StoredBits x v act d e := by
  intro sp a k hk
  have hlanes : x.writer v act sp a k = ((lanesOf act).filter (fun j => x.covers v j sp a k)).getLast? := by
    rw [writer, lanesOf, List.filter_filter]
    simp only [Bool.and_comm]
    rfl
  rw [hlanes]
  exact h.bits hd sp a k hk

/-- The stores of some lanes, one after another. -/
theorem Access.storedBy_foldl {x : Access} (hw : AccessWidth x.w) (v : View) (l : List ℕ) (d : Device) :
    x.StoredBy v l d (l.foldl (x.storeLane v) d) := by
  induction l using List.reverseRecOn with
  | nil => exact .nil x v d
  | append_singleton l j ih =>
    rw [List.foldl_append]
    simp only [List.foldl_cons, List.foldl_nil, storeLane]
    cases hj : x.into v j with
    | none => exact ih.append_none hj
    | some p => exact ih.append_some hw hj

end Sys2Proof.Claims
end

section
/-! SUPPORT. LDS, LDX, STS and STX in the terms of their entries (08 R174; 09 R193): their checks, the values that the lanes load, and
what they leave. -/

namespace Sys2Proof.Claims

open Sys2Proof Sys2Proof.Machine

/-! ## The checks of an access -/

/-- ALIGN, BOUND and LOCK pass when every active lane's access does (08 R174). -/
theorem Passes.accessCheck {v : View} {act : Word} {n align : ℕ} {ea : ℕ → ℕ} {place : ℕ → Option Place} {hit : RangeLock → Bool}
    (h : Passes v act n align ea place hit) : v.accessCheck act n align ea place hit = .ok := by
  refine Check.seq_ok (fun c hc => ?_)
  simp only [List.mem_cons, List.not_mem_nil, or_false] at hc
  rcases hc with rfl | rfl | rfl
  · exact lanesCheck_ok (fun j hj ha => by simp [(h j hj ha).1])
  · refine lanesCheck_ok (fun j hj ha => ?_)
    obtain ⟨-, p, hp, -⟩ := h j hj ha
    rw [hp]
    rfl
  · refine lanesCheck_ok (fun j hj ha => ?_)
    obtain ⟨-, p, hp, hfree⟩ := h j hj ha
    rw [hp]
    exact hfree

/-- No lane reads a byte that an error has lost. -/
theorem IntactAt.lostAt {d : Device} {act : Word} {n : ℕ} {place : ℕ → Option Place} (h : IntactAt d act n place) :
    d.lostAt (placesOf act place) n = none := by
  unfold Device.lostAt
  split_ifs
  · rfl
  · rw [List.findSome?_eq_none_iff]
    intro q hq
    obtain ⟨j, hj, hplace⟩ := List.mem_filterMap.mp hq
    obtain ⟨p, hp, rfl⟩ := Option.map_eq_some_iff.mp hplace
    obtain ⟨hlane, hact⟩ := List.mem_filter.mp hj
    exact h j (lt_of_mem_allLanes hlane) hact p hp

/-! ## The terms of an entry -/

theorem extI_byte (i : BitVec 8) : extI i.toNat 8 true = i.toInt := by
  revert i
  decide

theorem accessOf_off (sp : ThreadSpace) (h : Hdr) (w : BitVec 3) (d a : BitVec 7) (i : BitVec 8) :
    accessOffset (widthOf w) i = (accessOf sp h w d a i).off := by
  rw [accessOffset, extI_byte]
  rfl

theorem accessOf_hi (sp : ThreadSpace) (h : Hdr) (w : BitVec 3) (d a : BitVec 7) (i : BitVec 8) :
    (i.toNat % 2 == 1) = (accessOf sp h w d a i).hi := by
  show _ = i.getLsbD 0
  rw [BitVec.getLsbD, Nat.testBit_zero]
  rfl

/-- The widths that the words of an access allow: a nibble or whole bytes, none of them empty. -/
theorem accessWidth_of_memOk {h : Hdr} {w : BitVec 3} {k : AccessKind} (hwf : h.memOk w k = true) :
    AccessWidth (widthOf w) ∧ 0 < widthOf w ∧ widthOf w % 4 = 0 := by
  have hin : inWidths cellWidths w = true := by
    simp only [Hdr.memOk, Hdr.fixed2, Bool.and_eq_true] at hwf
    obtain ⟨⟨⟨⟨hin, -⟩, -⟩, -⟩, -⟩ := hwf
    exact hin
  unfold AccessWidth
  clear hwf
  revert w
  decide

/-- The bits that a load takes from a place (08 R174; 02 R39). -/
theorem Access.load_eq_ofBits (x : Access) (hw : AccessWidth x.w) (d : Device) (p : Place) :
    d.load p x.w x.hi = ofBits x.w (x.bitAt d p) := by
  refine Nat.eq_of_testBit_eq (fun k => ?_)
  rw [testBit_ofBits, Device.load, Access.bitAt, Access.bit]
  by_cases h4 : x.w = 4
  · have hbit : (if x.w = 4 ∧ x.hi then 4 else 0) = if x.hi then 4 else 0 := by simp [h4]
    rw [if_pos h4, testBit_bitsN, hbit, h4]
    by_cases hk : k < 4
    · have hin : (if x.hi then 4 else 0) + k < 8 := by split_ifs <;> omega
      rw [Nat.div_eq_of_lt hin, Nat.mod_eq_of_lt hin]
      rfl
    · simp [hk]
  · have h8 : 8 * (x.w / 8) = x.w := by have := hw.resolve_left h4; omega
    rw [if_neg h4, if_neg (fun h => h4 h.1), Device.testBit_num, h8, Nat.zero_add]

/-- A load from a U address loads one value: every lane has the one place (01 R27). -/
theorem Access.value_of_isU {x : Access} {act : View → Word} {v : View} (h : v.isU x.a 32 = true) (i j : ℕ) :
    x.value act v i = x.value act v j := by
  have hea : x.ea v i = x.ea v j := by rw [ea, ea, View.read_of_isU h i j]
  have hfrom : x.from v i = x.from v j := by rw [Access.from, Access.from, hea]
  rw [value, value, hfrom]

/-! ## The meanings of loads and stores -/

/-- A load in the terms of its entry. -/
def Access.loading (x : Access) : Meaning :=
  { spans := x.spans
    dests := [(x.d, x.w / 4)]
    operands := fun v act => v.accessCheck act x.n x.n (x.ea v) (x.from v) hitsLoad
    effect := fun v act s =>
      let ps := placesOf act (x.from v)
      match v.dev.lostAt ps x.n with
      | some f => .error f
      | none => .ok ((State.accessed { s with dev := s.dev.settleAll ps x.n } v ps x.n true false).write v x.d x.w
        (valuesOf act (x.value (fun _ => act) v)) act (if v.isU x.a 32 then .u else .g)) }

/-- A store in the terms of its entry. -/
def Access.storing (x : Access) : Meaning :=
  { spans := x.spans
    operands := fun v act => v.accessCheck act x.n x.n (x.ea v) (x.into v) hitsStore
    effect := fun v act s =>
      .ok (State.accessed { s with dev := (lanesOf act).foldl (x.storeLane v) s.dev } v (placesOf act (x.into v)) x.n false true) }

/-- The value that a lane loads, as the machine reads it. -/
theorem Access.value_eq_load {x : Access} (hw : AccessWidth x.w) (act : View → Word) (v : View) :
    x.value act v = fun j =>
      match x.from v j with
      | some p => (v.dev.settleAll (placesOf (act v) (x.from v)) x.n).load p x.w x.hi
      | none => 0 := by
  funext j
  rw [value]
  cases x.from v j with
  | none => rfl
  | some p => exact (x.load_eq_ofBits hw _ p).symm

/-- A load of the machine is its entry's. -/
theorem loadFrom_eq (sp : ThreadSpace) (h : Hdr) (w : BitVec 3) (d a : BitVec 7) (i : BitVec 8) (hw : AccessWidth (widthOf w)) :
    loadFrom sp h w d a i = (accessOf sp h w d a i).loading := by
  rw [loadFrom, accessOf_off sp h w d a i, accessOf_hi sp h w d a i, Access.loading]
  simp only [Access.value_eq_load (x := accessOf sp h w d a i) hw]
  rfl

/-- A store of the machine is its entry's. -/
theorem storeTo_eq (sp : ThreadSpace) (h : Hdr) (w : BitVec 3) (d a : BitVec 7) (i : BitVec 8) :
    storeTo sp h w d a i = (accessOf sp h w d a i).storing := by
  rw [storeTo, accessOf_off sp h w d a i, accessOf_hi sp h w d a i, Access.storing]
  simp only [← Access.foldl_placesOf]
  rfl

theorem formOk_of_wf {i : Instr} (h : i.wf = true) : i.formOk = true := by
  simp only [Instr.wf, Bool.and_eq_true] at h
  obtain ⟨⟨⟨-, hform⟩, -⟩, -⟩ := h
  exact hform

/-- What a load's words allow, and its meaning. -/
theorem loadOf_spec {i : Instr} {x : Access} (h : loadOf i = some x) (hwf : i.wf = true) :
    (AccessWidth x.w ∧ 0 < x.w ∧ x.w % 4 = 0) ∧ meaningOf i = some x.loading := by
  have hform := formOk_of_wf hwf
  cases i with
  | lds hd w d a k =>
    cases h
    have hw := accessWidth_of_memOk (h := hd) (w := w) (k := .load) hform
    exact ⟨hw, congrArg some (loadFrom_eq .shared hd w d a k hw.1)⟩
  | ldx hd w d a k =>
    cases h
    have hw := accessWidth_of_memOk (h := hd) (w := w) (k := .load) hform
    exact ⟨hw, congrArg some (loadFrom_eq .spad hd w d a k hw.1)⟩
  | _ => cases h

theorem storeOf_spec {i : Instr} {x : Access} (h : storeOf i = some x) (hwf : i.wf = true) :
    AccessWidth x.w ∧ meaningOf i = some x.storing := by
  have hform := formOk_of_wf hwf
  cases i with
  | sts hd w d a k =>
    cases h
    exact ⟨(accessWidth_of_memOk (h := hd) (w := w) (k := .store) hform).1, congrArg some (storeTo_eq .shared hd w d a k)⟩
  | stx hd w d a k =>
    cases h
    exact ⟨(accessWidth_of_memOk (h := hd) (w := w) (k := .store) hform).1, congrArg some (storeTo_eq .spad hd w d a k)⟩
  | _ => cases h

/-! ## Loads and stores complete -/

/-- A load completes with its entry's values (09 R193). -/
theorem load_completes {i : Instr} {x : Access} (h : loadOf i = some x) (hwf : i.wf = true) {s : State} {iss : Issue} {vs : List View}
    (hI : Issuing s iss vs) (hb : InBudget vs x.spans)
    (hpass : ∀ v ∈ actives i vs, Passes v (Instr.lanes i v) x.n x.n (x.ea v) (x.from v) hitsLoad ∧
      IntactAt v.dev (Instr.lanes i v) x.n (x.from v)) : Completes i s vs (Loaded x (Instr.lanes i)) := by
  obtain ⟨⟨hw, hpos, hfour⟩, hm⟩ := loadOf_spec h hwf
  have hcheck : x.loading.check i vs s.dev = .ok := by
    refine ChecksOperands.check_ok ⟨rfl, rfl, rfl, rfl, rfl⟩ hwf s.dev hb (fun v hv hact => ?_)
    exact (hpass v (mem_actives hv hact)).1.accessCheck
  unfold Completes
  rw [exec_eq_runWord hm]
  refine runWord_each (fun _ => True) hI hcheck rfl rfl rfl (fun v hv hact s _ => ?_) trivial
  have hlost := (hpass v (mem_actives hv hact)).2.lostAt
  refine ⟨_, ?_, ⟨_, rfl, write_wroteOne _ v (Instr.lanes i) x.d x.w (x.value (Instr.lanes i)) _ hpos hfour ?_⟩, trivial⟩
  · simp only [Access.loading, hlost]
    rfl
  · split_ifs with hu
    · exact fits_u (Access.value_of_isU hu)
    · trivial

/-- A store completes with its entry's bits (09 R193). -/
theorem store_completes {i : Instr} {x : Access} (h : storeOf i = some x) (hwf : i.wf = true) {s : State} {iss : Issue} {vs : List View}
    (hI : Issuing s iss vs) (hb : InBudget vs x.spans)
    (hpass : ∀ v ∈ actives i vs, Passes v (Instr.lanes i v) x.n x.n (x.ea v) (x.into v) hitsStore) :
    Completes i s vs (StoredTo x (Instr.lanes i)) := by
  obtain ⟨hw, hm⟩ := storeOf_spec h hwf
  have hcheck : x.storing.check i vs s.dev = .ok := by
    refine ChecksOperands.check_ok ⟨rfl, rfl, rfl, rfl, rfl⟩ hwf s.dev hb (fun v hv hact => ?_)
    exact (hpass v (mem_actives hv hact)).accessCheck
  unfold Completes
  rw [exec_eq_runWord hm]
  refine runWord_each (fun _ => True) hI hcheck rfl rfl rfl (fun v _ _ s _ => ?_) trivial
  have hstored := Access.storedBy_foldl hw v (lanesOf (Instr.lanes i v)) s.dev
  exact ⟨_, rfl, ⟨_, rfl, hstored.frame, hstored.storedBits⟩, trivial⟩

end Sys2Proof.Claims
end

section
/-! PROOF of O13: loads, stores and CBLD complete, and change nothing but what they name (09 R193; 08 R174; 05 R117). -/

namespace Sys2Proof.Machine

open Sys2Proof Sys2Proof.Claims

/-! ## CBLD (05 R117) -/

/-- What CBLD asks of its one address: U, a multiple of 32, in bounds, clear of write locks and not lost. -/
def CodebookReady (h : Hdr) (a : BitVec 7) (v : View) : Prop :=
  v.isU (h.a a) 32 = true ∧ v.readLowest (v.active h) (h.a a) 32 % 32 = 0 ∧
    ∃ p, v.shared (v.readLowest (v.active h) (h.a a) 32) 32 = some p ∧ v.dev.meetsLock p 32 v.grp.core hitsLoad = false ∧
      v.dev.lostIn p.space p.addr 32 = none

/-- CBLD's checks pass at such an address. -/
theorem CodebookReady.operands {h : Hdr} {a : BitVec 7} {v : View} (hready : CodebookReady h a v) (n : Bool) :
    (meaningCbld h a n).operands v (v.active h) = .ok := by
  obtain ⟨hu, halign, p, hp, hfree, -⟩ := hready
  refine Check.seq_ok (fun c hc => ?_)
  simp only [List.mem_cons, List.not_mem_nil, or_false] at hc
  rcases hc with rfl | rfl | rfl
  · rw [hu]
    rfl
  · exact if_pos halign
  · simp [hp, hfree]

/-- The sixteen entries at a place, each of two bytes (05 R117). -/
def bookAt (d : Device) (p : Place) : List (BitVec 16) :=
  (List.range 16).map (fun k =>
    BitVec.ofNat 16 ((d.byteAt p.space (p.addr + 2 * k)).toNat + 256 * (d.byteAt p.space (p.addr + (2 * k + 1))).toNat))

theorem bookAt_eq_num (d : Device) (p : Place) :
    (List.range 16).map (fun k => BitVec.ofNat 16 (d.num p.space (p.addr + 2 * k) 2)) = bookAt d p := by
  refine List.map_congr_left (fun k _ => ?_)
  simp [Device.num, Nat.add_assoc]

/-- The group with cb0 or cb1 new. -/
def withBook (n : Bool) (book : List (BitVec 16)) (g : Group) : Group := if n then { g with cb1 := book } else { g with cb0 := book }

/-- CBLD's effect: the traffic of 32 bytes, then the book of each hardware group (05 R117; 16 R281). -/
theorem CodebookReady.effect {h : Hdr} {a : BitVec 7} {v : View} (hready : CodebookReady h a v) (n : Bool) {p : Place}
    (hp : v.shared (v.readLowest (v.active h) (h.a a) 32) 32 = some p) (s : State) :
    (meaningCbld h a n).effect v (v.active h) s =
      .ok (v.halves.foldl (fun s u => s.modGroup u (withBook n (bookAt (v.dev.settleAll [(0, p)] 32) p)))
        (State.accessed { s with dev := s.dev.settleAll [(0, p)] 32 } v [(0, p)] 32 true false)) := by
  obtain ⟨-, -, q, hq, -, hlost⟩ := hready
  obtain rfl : p = q := Option.some.inj (hp.symm.trans hq)
  have hnone : v.dev.lostAt [(0, p)] 32 = none := by simp [Device.lostAt, hlost]
  rw [← bookAt_eq_num]
  simp only [meaningCbld, hp, hnone]
  rfl

/-- CBLD completes: it reads its address once, and gives the book to each hardware group (05 R117; 16 R281). -/
theorem cbld_completes {h : Hdr} {a : BitVec 7} {n : Bool} (hwf : (Instr.cbld h a n).wf = true) {s : State} {iss : Issue}
    {vs : List View} (hI : Issuing s iss vs) (hb : InBudget vs [(h.a a, 8)])
    (hready : ∀ v ∈ activeOnce (.cbld h a n) vs, CodebookReady h a v) :
    CompletesOnce (.cbld h a n) s vs (fun v s t => ∀ p, v.shared (v.readLowest (v.active h) (h.a a) 32) 32 = some p →
      Each (fun u s t => t = s.modGroup u (withBook n (bookAt (v.dev.settleAll [(0, p)] 32) p))) v.halves
        (State.accessed { s with dev := s.dev.settleAll [(0, p)] 32 } v [(0, p)] 32 true false) t) := by
  have hcheck : (meaningCbld h a n).check (.cbld h a n) vs s.dev = .ok := by
    refine ChecksOperands.check_ok ⟨rfl, rfl, rfl, rfl, rfl⟩ hwf s.dev hb (fun v hv hact => ?_)
    exact (hready v (mem_activeOnce rfl hv hact)).operands n
  unfold CompletesOnce
  rw [exec_eq_runWord (m := meaningCbld h a n) rfl]
  refine runWord_activeOnce hI hcheck rfl rfl rfl (fun v hv s => ?_)
  obtain ⟨-, -, q, hq, -, -⟩ := hready v hv
  refine ⟨_, (hready v hv).effect n hq s, fun p hp => ?_⟩
  obtain rfl : q = p := Option.some.inj (hq.symm.trans hp)
  exact each_foldl _ v.halves _

/-- Settles O13: the loads and stores by their entries' meanings, the stores' bits by induction on the lanes, CBLD by its one
address. -/
theorem loadsAndStores : Obligations.LoadsAndStores := by
  unfold Obligations.LoadsAndStores
  refine ⟨?_, ?_, ?_⟩
  · intro i x hx hwf s iss vs hI hb hpass
    exact load_completes hx hwf hI hb hpass
  · intro i x hx hwf s iss vs hI hb hpass
    exact store_completes hx hwf hI hb hpass
  · intro h a n hwf s iss vs hI hb addr hready
    exact cbld_completes hwf hI hb hready

end Sys2Proof.Machine
end

section
/-! SUPPORT. Words that act whatever the active lanes (07 R156, R157), and words that a check of one group stops (04 R84, R371). -/

namespace Sys2Proof.Machine

open Sys2Proof Sys2Proof.Claims

/-! ## Words that act whatever the active lanes -/

/-- Effects one after another on every group, none of which fails. -/
theorem runEffects_all {i : Instr} {f : View → Word → State → Except CtxFault State} {P : View → State → State → Prop}
    (vs : List View) (hf : ∀ v ∈ vs, ∀ s, ∃ r, f v (Instr.lanes i v) s = .ok r ∧ P v s r) (s : State) :
    ∃ t, runEffects f i true vs s = .ok t ∧ Each P vs s t := by
  induction vs generalizing s with
  | nil => exact ⟨s, rfl, rfl⟩
  | cons v l ih =>
    obtain ⟨r, heffect, hP⟩ := hf v List.mem_cons_self s
    obtain ⟨t, hrun, heach⟩ := ih (fun u hu => hf u (List.mem_cons_of_mem _ hu)) r
    exact ⟨t, by simp only [runEffects, Bool.true_or, if_true, heffect, hrun], r, hP, heach⟩

/-- A word that acts whatever the active lanes completes on every group when its checks pass and no effect fails. -/
theorem runWord_all {s : State} {iss : Issue} {vs : List View} {i : Instr} {m : Meaning} {P : View → State → State → Prop}
    (hI : Issuing s iss vs) (hc : m.check i vs s.dev = .ok) (hr : m.records = false) (ho : m.once = false) (ha : m.always = true)
    (hf : ∀ v ∈ vs, ∀ s, ∃ r, m.effect v (Instr.lanes i v) s = .ok r ∧ P v s r) :
    ∃ t, runWord i m s = .next t ∧ Each P vs s t := by
  obtain ⟨t, hrun, heach⟩ := runEffects_all (i := i) (f := m.effect) (P := P) vs hf s
  refine ⟨t, runWord_next hI hc ?_, heach⟩
  rw [Meaning.run_eq hr, ha, Meaning.acts, if_neg (by simp [ho]), hrun]

/-! ## Checks that stop one group -/

theorem Check.fail_ne_ok (cause detail : Nat) : Check.fail cause detail ≠ .ok := by simp [Check.fail]

theorem Check.need_true {b : Bool} (h : b = true) : Check.need b = .ok := if_pos h

theorem Check.need_false {b : Bool} (h : b = false) : Check.need b = .illegal := by rw [Check.need, h]; rfl

theorem actingView_single (i : Instr) (v : View) : actingView i [v] = some v := by
  rw [actingView]
  cases h : [v].find? (fun v => decide (Instr.lanes i v ≠ 0)) with
  | none => rfl
  | some u => rw [List.mem_singleton.mp (List.mem_of_find?_eq_some h)]

/-- One group is what its instruction acts in, once or not. -/
theorem Meaning.acts_single (m : Meaning) (i : Instr) (v : View) : m.acts i [v] = [v] := by
  rw [acts, actingView_single]
  split_ifs <;> rfl

variable {m : Meaning} {i : Instr} {v : View} {d : Device}

/-- An ILLEGAL that the words decide comes first. -/
theorem Meaning.check_illegal (hwf : i.wf = true) (hill : m.illegal v = true) :
    m.check i [v] d = .fail causeIllegal (Instr.extLen i) := by
  have hfirst : m.checkIllegal i v = .fail causeIllegal (Instr.extLen i) := by simp [checkIllegal, hwf, hill]
  rw [check, List.append_assoc]
  refine Check.seq_first ?_ (Check.fail_ne_ok _ _) _
  rw [List.map_singleton, hfirst]
  rfl

/-- A check of the last ones stops the group when its words and its operands' spans pass. -/
theorem Meaning.check_rest (hwf : i.wf = true) (hill : m.illegal v = false)
    (hb : ∀ p ∈ m.spans ++ m.cellSpans v, p.1 + p.2 ≤ v.grp.budget) {c : Check}
    (hc : m.checkRest i v (Instr.lanes i v) = c) (hne : c ≠ .ok) : m.check i [v] d = c := by
  have hfirst : Check.seq ([v].map (m.checkIllegal i) ++ [v].map m.checkSrange) = .ok := by
    rw [List.map_singleton, List.map_singleton, checkIllegal_ok hwf hill, checkSrange_ok hb]
    rfl
  have hacts : m.checkActs i [v] d [] = c := by
    rw [checkActs, acts_single]
    refine Check.seq_first ?_ hne _
    rw [List.map_singleton, hc]
    cases c with
    | ok => exact absurd rfl hne
    | trap t => rfl
    | wait => rfl
  rw [check, Check.seq_append _ _ hfirst, hacts]
  cases c with
  | ok => exact absurd rfl hne
  | trap t => rfl
  | wait => rfl

/-- An ILLEGAL of the operands names the main word. -/
theorem Meaning.checkRest_illegal {act : Word} (hw : m.words v = .ok) (ho : m.operands v act = .illegal)
    (hact : m.always = true ∨ act ≠ 0) : m.checkRest i v act = .fail causeIllegal (Instr.extLen i) := by
  have hruns : (m.always || decide (act ≠ 0)) = true := by simpa using hact
  simp only [checkRest, hw, hruns, if_true, ho]
  rfl

end Sys2Proof.Machine
end

section
/-! PROOF of O19: SPAN and the terminators move their lanes to blocks of the kernel, or are ILLEGAL (07 R155, R157 to R159). -/

namespace Sys2Proof.Machine

open Sys2Proof Sys2Proof.Claims

/-! ## SPAN (07 R155, R157) -/

theorem meaningSpan_illegal_iff (h : Hdr) (k : BitVec 12) (v : View) : (meaningSpan h k).illegal v = false ↔
    isBlock v k.toNat ∧ ∃ r, v.auto.states[v.slot.state.toNat]? = some r ∧ k ∈ r.set := by
  cases hr : v.auto.states[v.slot.state.toNat]? with
  | none => simp [meaningSpan, hr]
  | some r => simp [meaningSpan, hr, isBlock]

/-- SPAN of a block of the state's set completes in every group. -/
theorem span_completes {h : Hdr} {k : BitVec 12} (hwf : (Instr.span h k).wf = true) {s : State} {iss : Issue} {vs : List View}
    (hI : Issuing s iss vs)
    (hblock : ∀ v ∈ vs, isBlock v k.toNat ∧ ∃ r, v.auto.states[v.slot.state.toNat]? = some r ∧ k ∈ r.set) :
    CompletesAll (.span h k) s vs (fun v s t => t = s.modSlot v (fun sl => { sl with
      span := some { block := k, pred := if h.e.pe then some (h.e.pk, h.e.pn) else none }, afterTerm := false })) := by
  have hcheck : (meaningSpan h k).check (.span h k) vs s.dev = .ok :=
    Meaning.check_ok hwf (fun v hv => (meaningSpan_illegal_iff h k v).mpr (hblock v hv))
      (fun _ _ p hp => absurd hp (by simp [meaningSpan])) (fun _ _ => Meaning.checkRest_ok rfl (fun _ => rfl)) (fun _ _ => rfl)
  unfold CompletesAll
  rw [exec_eq_runWord (m := meaningSpan h k) rfl]
  exact runWord_all hI hcheck rfl rfl rfl (fun v _ s => ⟨_, rfl, rfl⟩)

/-- SPAN of any other block is ILLEGAL. -/
theorem span_illegal {h : Hdr} {k : BitVec 12} (hwf : (Instr.span h k).wf = true) {s : State} {iss : Issue} {v : View}
    (hI : Issuing s iss [v])
    (hblock : ¬ isBlock v k.toNat ∨ ∀ r, v.auto.states[v.slot.state.toNat]? = some r → k ∉ r.set) :
    exec (.span h k) s =
      .next (s.trap iss (.span h k) { cause := causeIllegal, detail := Instr.extLen (.span h k), lanes := none }) := by
  have hill : (meaningSpan h k).illegal v = true := by
    rw [← Bool.not_eq_false, meaningSpan_illegal_iff]
    rintro ⟨hk, r, hr, hmem⟩
    rcases hblock with hno | hno
    · exact hno hk
    · exact hno r hr hmem
  rw [exec_eq_runWord (m := meaningSpan h k) rfl]
  exact runWord_trap hI (Meaning.check_illegal hwf hill)

/-! ## The terminators (07 Table 07-2) -/

theorem View.noBlock_iff (v : View) (b : BitVec 12) : v.noBlock b = false ↔ isBlock v b.toNat := by
  simp [noBlock, isBlock]

theorem View.targetsOk_eq_ok_iff (v : View) (act : Word) (f : Nat → Nat) :
    v.targetsOk act f = .ok ↔ ∀ j, j < 32 → hasLane act j = true → isBlock v (f j) := by
  have hall : (lanesOf act).all (fun i => decide (f i < v.auto.blocks.length)) = true ↔
      ∀ j, j < 32 → hasLane act j = true → isBlock v (f j) := by
    rw [List.all_eq_true]
    simp [lanesOf, allLanes, isBlock]
  rw [← hall, targetsOk]
  cases (lanesOf act).all (fun i => decide (f i < v.auto.blocks.length)) <;> simp [Check.need, Check.illegal, Check.fail]

/-- The meaning of a terminator says what its row of Table 07-2 says: it acts whatever the active lanes, an ILLEGAL by its words
or by its operands is its one check beside the spans, and its effect is the branch. -/
structure BranchesAs (i : Instr) (x : Terminator) (m : Meaning) : Prop where
  meaning : meaningOf i = some m
  spans : ∀ v, m.spans ++ m.cellSpans v = x.srcs
  words : m.words = fun _ => .ok
  always : m.always = true
  once : m.once = false
  arrives : m.arrives = fun _ => []
  records : m.records = false
  ok_iff : ∀ v, x.ok v ↔ m.illegal v = false ∧ m.operands v (Instr.lanes i v) = .ok
  operands : ∀ v, m.operands v (Instr.lanes i v) = .ok ∨ m.operands v (Instr.lanes i v) = .illegal
  effect : ∀ v s, ∃ t, m.effect v (Instr.lanes i v) s = .ok t ∧ Branched x (Instr.lanes i) v s t

theorem Check.need_cases (b : Bool) : Check.need b = .ok ∨ Check.need b = .illegal := by
  cases b with
  | false => exact .inr rfl
  | true => exact .inl rfl

/-- Each row of Table 07-2 is the meaning of its instruction. -/
theorem terminatorOf_branchesAs {i : Instr} {x : Terminator} (h : terminatorOf i = some x) : ∃ m, BranchesAs i x m := by
  cases i <;> simp only [terminatorOf, Option.some.injEq, reduceCtorEq] at h <;> subst h
  case jmp h b =>
    exact ⟨_, rfl, fun _ => rfl, rfl, rfl, rfl, rfl, rfl,
      fun v => (v.noBlock_iff b).symm.trans (iff_self_and.mpr fun _ => rfl), fun _ => .inl rfl, fun _ _ => ⟨_, rfl, rfl⟩⟩
  case br h k n b =>
    refine ⟨_, rfl, fun _ => rfl, rfl, rfl, rfl, rfl, rfl,
      fun v => (v.noBlock_iff b).symm.trans (iff_self_and.mpr fun _ => rfl), fun _ => .inl rfl, fun v s => ⟨_, rfl, ?_⟩⟩
    have hside : ∀ j, (hasLane (v.mask k) j != n) = (decide (hasLane (v.mask k) j = !n)) := fun j => by
      cases hasLane (v.mask k) j <;> cases n <;> rfl
    simp only [Branched, hside, decide_eq_true_eq]
    rfl
  case brx h c =>
    exact ⟨_, rfl, fun _ => rfl, rfl, rfl, rfl, rfl, rfl,
      fun v => (v.targetsOk_eq_ok_iff _ _).symm.trans (iff_and_self.mpr fun _ => rfl), fun _ => Check.need_cases _, fun _ _ => ⟨_, rfl, rfl⟩⟩
  case call h b =>
    exact ⟨_, rfl, fun _ => rfl, rfl, rfl, rfl, rfl, rfl,
      fun v => (v.noBlock_iff b).symm.trans (iff_self_and.mpr fun _ => rfl), fun _ => .inl rfl, fun _ _ => ⟨_, rfl, rfl⟩⟩
  case ret h =>
    exact ⟨_, rfl, fun _ => rfl, rfl, rfl, rfl, rfl, rfl,
      fun v => (v.targetsOk_eq_ok_iff _ _).symm.trans (iff_and_self.mpr fun _ => rfl), fun _ => Check.need_cases _, fun _ _ => ⟨_, rfl, rfl⟩⟩
  case exit h =>
    exact ⟨_, rfl, fun _ => rfl, rfl, rfl, rfl, rfl, rfl,
      fun v => iff_self_and.mpr fun _ => rfl, fun _ => .inl rfl, fun _ _ => ⟨_, rfl, rfl⟩⟩

/-- A terminator whose targets are blocks completes in every group. -/
theorem BranchesAs.completes {i : Instr} {x : Terminator} {m : Meaning} (hm : BranchesAs i x m) (hwf : i.wf = true) {s : State}
    {iss : Issue} {vs : List View} (hI : Issuing s iss vs) (hb : InBudget vs x.srcs) (hok : ∀ v ∈ vs, x.ok v) :
    CompletesAll i s vs (Branched x (Instr.lanes i)) := by
  have hcheck : m.check i vs s.dev = .ok := by
    refine Meaning.check_ok hwf (fun v hv => ((hm.ok_iff v).mp (hok v hv)).1) (fun v hv p hp => hb v hv p ?_)
      (fun v hv => Meaning.checkRest_ok (by rw [hm.words]) (fun _ => ((hm.ok_iff v).mp (hok v (Meaning.acts_mem hv))).2))
      (fun v _ => by rw [hm.arrives]; rfl)
    rwa [hm.spans v] at hp
  unfold CompletesAll
  rw [exec_eq_runWord hm.meaning]
  exact runWord_all hI hcheck hm.records hm.once hm.always (fun v _ s => hm.effect v s)

/-- One to another block is ILLEGAL. -/
theorem BranchesAs.illegal {i : Instr} {x : Terminator} {m : Meaning} (hm : BranchesAs i x m) (hwf : i.wf = true) {s : State}
    {iss : Issue} {v : View} (hI : Issuing s iss [v]) (hb : InBudget [v] x.srcs) (hno : ¬ x.ok v) :
    exec i s = .next (s.trap iss i { cause := causeIllegal, detail := Instr.extLen i, lanes := none }) := by
  rw [exec_eq_runWord hm.meaning]
  refine runWord_trap hI ?_
  cases hill : m.illegal v with
  | true => exact Meaning.check_illegal hwf hill
  | false =>
    have hoperands : m.operands v (Instr.lanes i v) = .illegal :=
      (hm.operands v).resolve_left (fun hok => hno ((hm.ok_iff v).mpr ⟨hill, hok⟩))
    refine Meaning.check_rest hwf hill (fun p hp => hb v List.mem_cons_self p ?_)
      (Meaning.checkRest_illegal (by rw [hm.words]) hoperands (.inl hm.always)) (Check.fail_ne_ok _ _)
    rwa [hm.spans v] at hp

/-- Settles O19: SPAN by its block and the state's set, the terminators by their rows of Table 07-2. -/
theorem spanAndTerminators : Obligations.SpanAndTerminators := by
  unfold Obligations.SpanAndTerminators
  refine ⟨⟨?_, ?_⟩, ?_, ?_⟩
  · intro h k hwf s iss vs hI hblock
    exact span_completes hwf hI hblock
  · intro i x hx hwf s iss vs hI hb hok
    obtain ⟨m, hm⟩ := terminatorOf_branchesAs hx
    exact hm.completes hwf hI hb hok
  · intro h k hwf s iss v hI hblock
    exact span_illegal hwf hI hblock
  · intro i x hx hwf s iss v hI hb hno
    obtain ⟨m, hm⟩ := terminatorOf_branchesAs hx
    exact hm.illegal hwf hI hb hno

end Sys2Proof.Machine
end

section
/-! SUPPORT. The groups that a chain acts on, as they stand in the device (06 R128; 16 R280, R281), and words that act once for the
groups of a pair whatever the active lanes. -/

namespace Sys2Proof.Machine

open Sys2Proof Sys2Proof.Claims

/-! ## What a view shows -/

/-- A view shows a group of a device, its slot, its agent and its kernels. -/
structure Shows (d : Device) (iss : Issue) (g : Nat) (v : View) : Prop where
  dev_eq : v.dev = d
  iss_eq : v.iss = iss
  g_eq : v.g = g
  wg_at : d.wg iss.wg = some v.wg
  grp_at : v.wg.groups[g]? = some v.grp
  slot_at : v.grp.slot iss.slot = some v.slot
  half_eq : v.half = (v.kern.mode16 && iss.slot)
  agent_eq : v.agent = v.wg.agentOf v.grp g v.half
  ctx_eq : v.ctx = d.ctx v.wg.ctx
  kern_at : v.ctx.kernel v.wg.handle v.wg.kernel = some v.kern
  auto_eq : v.auto = match v.agent.library with
    | some l => (v.ctx.kernel l.handle l.kernel).getD v.kern
    | none => v.kern

theorem viewOf_shows {d : Device} {iss : Issue} {g : Nat} {v : View} (h : viewOf d iss g = some v) : Shows d iss g v := by
  unfold viewOf at h
  cases hw : d.wg iss.wg with
  | none => simp [hw] at h
  | some w =>
    cases hg : w.groups[g]? with
    | none => simp [hw, hg] at h
    | some grp =>
      cases hk : (d.ctx w.ctx).kernel w.handle w.kernel with
      | none => simp [hw, hg, hk] at h
      | some k =>
        cases hs : grp.slot iss.slot with
        | none => simp [hw, hg, hk, hs] at h
        | some sl =>
          simp only [hw, hg, hk, hs, Option.some.injEq] at h
          subst h
          exact ⟨rfl, rfl, rfl, hw, hg, hs, rfl, rfl, rfl, hk, rfl⟩

theorem mem_viewsOf_shows {d : Device} {iss : Issue} {v : View} (h : v ∈ viewsOf d iss) : Shows d iss v.g v := by
  have hof : ∃ g, viewOf d iss g = some v := by
    unfold viewsOf at h
    cases hv : viewOf d iss iss.g with
    | none => simp [hv] at h
    | some v0 =>
      simp only [hv] at h
      split at h
      · cases hu : viewOf d iss (iss.g + 1) with
        | none =>
          simp only [hu, List.mem_singleton] at h
          exact ⟨_, h ▸ hv⟩
        | some u =>
          simp only [hu, List.mem_cons, List.not_mem_nil, or_false] at h
          rcases h with rfl | rfl
          · exact ⟨_, hv⟩
          · exact ⟨_, hu⟩
      · rw [List.mem_singleton] at h
        exact ⟨_, h ▸ hv⟩
  obtain ⟨g, hg⟩ := hof
  have hshows := viewOf_shows hg
  rwa [← hshows.g_eq] at hshows

namespace Shows

variable {d : Device} {iss : Issue} {g : Nat} {v : View} (h : Shows d iss g v)

include h

theorem wg_uid : d.wg v.wg.uid = some v.wg := by rw [Device.wg_uid h.wg_at, h.wg_at]

theorem groupAt : groupAt d v.wg.uid v.g = some v.grp := groupAt_eq_some h.wg_uid (h.g_eq ▸ h.grp_at)

theorem slot_iss : v.grp.slot v.iss.slot = some v.slot := h.iss_eq ▸ h.slot_at

/-- In width mode 16 the slot that issues is that of the half. -/
theorem half_of_mode16 (hmode : v.kern.mode16 = true) : v.half = iss.slot := by rw [h.half_eq, hmode, Bool.true_and]

theorem half_of_wide (hmode : v.kern.mode16 = false) : v.half = false := by rw [h.half_eq, hmode, Bool.false_and]

/-- A group that is no upper one of a pair keeps its agent itself. -/
theorem agent_of_home (hpair : v.grp.pair ≠ some true) : v.agent = v.grp.agent v.half := by
  rw [h.agent_eq, Workgroup.agentOf, if_neg hpair]

end Shows

/-- A chain of one instruction acts on groups of the device as it stands. -/
theorem Issuing.viewsOf_dev {s : State} {iss : Issue} {vs : List View} (hI : Issuing s iss vs) (hl : s.latch = none) :
    viewsOf s.dev iss = vs := by
  have hviews := hI.views
  rwa [hl, Option.getD_none] at hviews

/-- A chain acts on groups of the device that its instructions read. -/
theorem Issuing.shows {s : State} {iss : Issue} {vs : List View} (hI : Issuing s iss vs) {v : View} (hv : v ∈ vs) :
    Shows (s.latch.getD s.dev) iss v.g v := mem_viewsOf_shows (hI.views ▸ hv)

theorem Issuing.shows_dev {s : State} {iss : Issue} {vs : List View} (hI : Issuing s iss vs) (hl : s.latch = none) {v : View}
    (hv : v ∈ vs) : Shows s.dev iss v.g v := mem_viewsOf_shows (hI.viewsOf_dev hl ▸ hv)

theorem Issuing.viewsOf_view {s : State} {iss : Issue} {vs : List View} (hI : Issuing s iss vs) {v : View} (hv : v ∈ vs) :
    viewsOf v.dev v.iss = vs := by
  rw [(hI.shows hv).dev_eq, (hI.shows hv).iss_eq, hI.views]

/-! ## Words that act once whatever the active lanes -/

/-- Some group of those that issue is the one that acts for them (16 R281). -/
theorem exists_actingView (i : Instr) (v : View) (rest : List View) : ∃ u ∈ v :: rest, actingView i (v :: rest) = some u := by
  cases h : actingView i (v :: rest) with
  | none =>
    rw [actingView] at h
    cases hf : (v :: rest).find? (fun v => decide (Instr.lanes i v ≠ 0)) with
    | none => rw [hf] at h; cases h
    | some u => rw [hf] at h; cases h
  | some u => exact ⟨u, actingView_mem h, rfl⟩

/-- The effect of a word that acts once is that of the group that acts, where it has an active lane or the word needs none. -/
theorem Meaning.run_acting {m : Meaning} {i : Instr} {vs : List View} {u : View} (hr : m.records = false) (ho : m.once = true)
    (hu : actingView i vs = some u) (ha : m.always = true ∨ Instr.lanes i u ≠ 0) (s : State) :
    m.run i vs s = m.effect u (Instr.lanes i u) s := by
  have hruns : (m.always || decide (Instr.lanes i u ≠ 0)) = true := by simpa using ha
  rw [run_eq hr, acts, if_pos ho, hu, Option.toList_some]
  simp only [runEffects, hruns, if_true]
  cases m.effect u (Instr.lanes i u) s <;> rfl

/-- A list of checks in which all that come before a check pass, and those after it too, answers that check. -/
theorem Check.seq_single {c : Check} {l : List Check} (hl : ∀ b ∈ l, b = .ok) : Check.seq (c :: l) = c := by
  cases c with
  | ok => exact Check.seq_ok (fun b hb => (List.mem_cons.mp hb).elim id (hl b))
  | trap t => rfl
  | wait => rfl

/-- The checks of a word that acts once, and checks neither spans nor its own words, are those of the group that acts. -/
theorem Meaning.check_acting {m : Meaning} {i : Instr} {vs : List View} {u : View} (hwf : i.wf = true)
    (hill : ∀ v ∈ vs, m.illegal v = false) (hspans : m.spans = []) (hcell : m.cellSpans = fun _ => []) (ho : m.once = true)
    (harr : m.arrives = fun _ => []) (hu : actingView i vs = some u) (d : Device) :
    m.check i vs d = m.checkRest i u (Instr.lanes i u) := by
  have hfirst : Check.seq (vs.map (m.checkIllegal i) ++ vs.map m.checkSrange) = .ok := by
    refine Check.seq_ok (fun c hc => ?_)
    simp only [List.mem_append, List.mem_map] at hc
    rcases hc with ⟨v, hv, rfl⟩ | ⟨v, -, rfl⟩
    · exact checkIllegal_ok hwf (hill v hv)
    · exact checkSrange_ok (by simp [hspans, hcell])
  rw [check, Check.seq_append _ _ hfirst, Check.seq_single (by simp), checkActs, acts, if_pos ho, hu, Option.toList_some,
    List.map_singleton, List.singleton_append, harr]
  refine Check.seq_single (fun c hc => ?_)
  obtain ⟨v, -, rfl⟩ := List.mem_map.mp hc
  rfl

end Sys2Proof.Machine
end

section
/-! SUPPORT. The sequencer as NEXT sees it (06 R136 to R141): the lanes that park, the state that holds the others, and the split
of a set that no state holds. -/

namespace Sys2Proof.Machine

open Sys2Proof Sys2Proof.Claims

/-! ## Parking -/

theorem without_zero (m : Nat) : without m 0 = m := by simp [without]

theorem parkedAt_of_none (q : Seq) (m : Nat) {j : Option (BitVec 12)} (h : atJoin q m j = 0) : parkedAt q m j = q := by
  rw [parkedAt, h, show Nat.lor q.parked 0 = q.parked from Nat.or_zero _]

theorem Seq.park_eq (q : Seq) (m : Nat) (j : Option (BitVec 12)) :
    q.park m j = (parkedAt q m j, without m (atJoin q m j)) := by
  cases j with
  | none => rw [parkedAt_of_none q m rfl, show atJoin q m none = 0 from rfl, without_zero]; rfl
  | some j => rfl

@[simp] theorem setSlot_slot (q : Seq) (n : Bool) (x : Option SeqSlot) : (q.setSlot n x).slot n = x := by cases n <;> rfl

@[simp] theorem setSlot_slot_not (q : Seq) (n : Bool) (x : Option SeqSlot) : (q.setSlot n x).slot (!n) = q.slot (!n) := by
  cases n <;> rfl

@[simp] theorem setSlot_own (q : Seq) (n : Bool) (x : Option SeqSlot) : (q.setSlot n x).own = q.own := by cases n <;> rfl

@[simp] theorem setSlot_depth (q : Seq) (n : Bool) (x : Option SeqSlot) : (q.setSlot n x).depth = q.depth := by cases n <;> rfl

@[simp] theorem setSlot_high (q : Seq) (n : Bool) (x : Option SeqSlot) : (q.setSlot n x).high = q.high := by cases n <;> rfl

@[simp] theorem setSlot_parked (q : Seq) (n : Bool) (x : Option SeqSlot) : (q.setSlot n x).parked = q.parked := by cases n <;> rfl

@[simp] theorem setSlot_retired (q : Seq) (n : Bool) (x : Option SeqSlot) : (q.setSlot n x).retired = q.retired := by
  cases n <;> rfl

/-- A sequencer whose own slot, if it has one, is `n`, is idle when that slot and, without an own one, the other are empty. -/
theorem Seq.idle_iff {q : Seq} {n : Bool} (hown : q.own = none ∨ q.own = some n) :
    q.idle = true ↔ q.slot n = none ∧ (q.own = none → q.slot (!n) = none) := by
  rcases hown with h | h
  · cases n <;> simp [idle, h, slot, and_comm]
  · simp [idle, h]

/-! ## The state of a set (06 R132, R137) -/

/-- The state that the slot's state gives for a set: that of its map where every block is a candidate, else what the automaton
holds. -/
def successor (v : View) (sl : SeqSlot) (blocks : List (BitVec 12)) : Option (BitVec 12) :=
  match (match v.auto.states[sl.base.state.toNat]? with | some r => r.direct blocks | none => none) with
  | some r => r
  | none => v.auto.lookup blocks

variable {v : View} {n : Bool} {floor : Option Nat} {q : Seq} {d : Device} {sl : SeqSlot} {m : Nat}

theorem successor_of_record {r : StateRec} (hr : v.auto.states[sl.base.state.toNat]? = some r) (blocks : List (BitVec 12)) :
    successor v sl blocks = match r.direct blocks with
      | some a => a
      | none => v.auto.lookup blocks := by
  rw [successor, hr]

/-- The lanes of a slot that have not exited. -/
def live (q : Seq) (sl : SeqSlot) : Nat := without sl.mask q.exited

/-- The lanes of a slot that stay after those at its join have parked. -/
def staying (q : Seq) (sl : SeqSlot) : Nat := without (live q sl) (atJoin q (live q sl) sl.base.join)

/-- The sequencer after the lanes of a slot that stand at its join have parked. -/
def joined (q : Seq) (sl : SeqSlot) : Seq := parkedAt q (live q sl) sl.base.join

/-- NEXT acts on the stack when its slots are left empty (06 R141). -/
def acted (v : View) (floor : Option Nat) : Except SeqFail (Seq × Device) → Except SeqFail (Seq × Device)
  | .error e => .error e
  | .ok (q, d) => Seq.act v floor (q.depth + 1) q d

/-- NEXT of an occupied slot: emptied, in the state that holds the lanes left, or split. -/
theorem Seq.next_eq (hslot : q.slot n = some sl) (floor : Option Nat) (d : Device) : Seq.next v n floor q d =
    if staying q sl = 0 then acted v floor (.ok ((joined q sl).setSlot n none, d))
    else match successor v sl (q.setOf (staying q sl)) with
      | some st => .ok ((joined q sl).setSlot n (taking st (staying q sl) sl.base.join), d)
      | none => acted v floor (Seq.split v n sl (staying q sl) (joined q sl) d) := by
  simp only [next, hslot, park_eq]
  rfl

end Sys2Proof.Machine
end

section
/-! PROOF of O20: NEXT takes the state that holds the lanes left and parks those at the join (06 R137). What NEXT answers, once its
sequencer is known (07 R160). -/

namespace Sys2Proof.Machine

open Sys2Proof Sys2Proof.Claims

/-- The depth of the stack below which lies the frame of the group's library, when it is in one. -/
def frameFloor (v : View) : Option Nat := v.agent.library.map (fun l => l.depth + 7)

/-- The device after NEXT has left a sequencer: written back to its groups, which retire where it says so. -/
def settled (vs : List View) (q : Seq) (d : Device) : Device :=
  if q.retired then vs.foldl (fun d u => d.retireGroup u.wg.uid u.g) (d.putSeq vs q) else d.putSeq vs q

section Next

variable {h : Hdr} {s : State} {iss : Issue} {v : View} {rest : List View} (hwf : (Instr.next h).wf = true)
  (hI : Issuing s iss (v :: rest)) (hl : s.latch = none)

include hI hl

theorem runNext_eq : runNext (v :: rest) s.dev =
    match Seq.next v iss.slot (frameFloor v) (seqOf (v :: rest)) s.dev with
    | .error e => .error e
    | .ok (q, d) => .ok (settled (v :: rest) q d) := by
  rw [runNext, (hI.shows_dev hl List.mem_cons_self).iss_eq]
  rfl

include hwf

/-- NEXT completes with the sequencer that its rules leave. -/
theorem exec_next {q : Seq} {d : Device} (hq : Seq.next v iss.slot (frameFloor v) (seqOf (v :: rest)) s.dev = .ok (q, d)) :
    exec (.next h) s = .next { s with dev := settled (v :: rest) q d } := by
  obtain ⟨u, hu, hacts⟩ := exists_actingView (.next h) v rest
  have hrun : runNext (viewsOf u.dev u.iss) u.dev = .ok (settled (v :: rest) q d) := by
    rw [hI.viewsOf_view hu, (hI.shows_dev hl hu).dev_eq, runNext_eq hI hl, hq]
  rw [exec_eq_runWord (m := meaningNext h) rfl]
  refine runWord_next hI ?_ ?_
  · rw [Meaning.check_acting hwf (fun _ _ => rfl) rfl rfl rfl rfl hacts]
    refine Meaning.checkRest_ok rfl (fun _ => ?_)
    simp only [meaningNext, hrun]
  · rw [Meaning.run_acting rfl rfl hacts (.inl rfl)]
    rw [(hI.shows_dev hl hu).dev_eq] at hrun
    simp only [meaningNext, (hI.shows_dev hl hu).dev_eq, hrun]

/-- The same where no group retires. -/
theorem exec_next_putSeq {q : Seq} {d : Device}
    (hq : Seq.next v iss.slot (frameFloor v) (seqOf (v :: rest)) s.dev = .ok (q, d)) (hretired : q.retired = false) :
    exec (.next h) s = .next { s with dev := d.putSeq (v :: rest) q } := by
  rw [exec_next hwf hI hl hq, settled, if_neg (by simp [hretired])]

/-- NEXT of a group whose stack is full traps. -/
theorem exec_next_dstack {depth : Nat}
    (hq : Seq.next v iss.slot (frameFloor v) (seqOf (v :: rest)) s.dev = .error (.check (.fail causeDstack depth))) :
    exec (.next h) s = .next (s.trap iss (.next h) { cause := causeDstack, detail := depth, lanes := none }) := by
  obtain ⟨u, hu, hacts⟩ := exists_actingView (.next h) v rest
  have hrun : runNext (viewsOf u.dev u.iss) u.dev = .error (.check (.fail causeDstack depth)) := by
    rw [hI.viewsOf_view hu, (hI.shows_dev hl hu).dev_eq, runNext_eq hI hl, hq]
  rw [exec_eq_runWord (m := meaningNext h) rfl]
  refine runWord_trap hI ?_
  rw [Meaning.check_acting hwf (fun _ _ => rfl) rfl rfl rfl rfl hacts]
  have hop : (meaningNext h).operands u (Instr.lanes (.next h) u) = .fail causeDstack depth := by
    simp only [meaningNext, hrun]
  simp only [Meaning.checkRest, hop, show (meaningNext h).words u = .ok from rfl, show (meaningNext h).always = true from rfl,
    Bool.true_or, if_true]
  rfl

end Next

theorem seqOf_retired (vs : List View) : (seqOf vs).retired = false := by cases vs <;> rfl

theorem joined_retired (q : Seq) (sl : SeqSlot) : (joined q sl).retired = q.retired := rfl

/-- Settles O20: NEXT's rule for a set that a state holds, with no lane retired. -/
theorem nextTakesState : Obligations.NextTakesState := by
  unfold Obligations.NextTakesState
  intro h hwf s iss vs hI hl v hv q sl hslot live joinedLanes rest q1 r st hr hne hst
  obtain ⟨vs', rfl⟩ : ∃ l, vs = v :: l := by
    cases vs with
    | nil => cases hv
    | cons u l => exact ⟨l, by rw [Option.some.inj hv]⟩
  refine exec_next_putSeq hwf hI hl ?_ ((setSlot_retired _ _ _).trans (seqOf_retired _))
  have hleft : staying q sl ≠ 0 := hne
  have hsucc : successor v sl (q.setOf (staying q sl)) = some st := by
    rw [successor_of_record hr]
    change (match r.direct (q.setOf (staying q sl)) with
      | some a => a = some st
      | none => v.auto.lookup (q.setOf (staying q sl)) = some st) at hst
    cases hd : r.direct (q.setOf (staying q sl)) with
    | none => simpa only [hd] using hst
    | some a => simpa only [hd] using hst
  rw [Seq.next_eq hslot, if_neg hleft, hsucc]
  rfl

end Sys2Proof.Machine
end

section
/-! SUPPORT. The rules of NEXT for a set that no state holds and for slots left empty (06 R138 to R141): pushes, pops, the lanes dealt
out, and what the stack gives back. -/

namespace Sys2Proof.Machine

open Sys2Proof Sys2Proof.Claims

variable {v : View} {n : Bool} {floor : Option Nat} {q q' : Seq} {d d' : Device} {sl : SeqSlot} {m : Nat}
  {j : Option (BitVec 12)} {e : Word → StackEntry}

/-! ## The divergence stack (06 R139, R140) -/

theorem Seq.push_of_pushed (h : Pushed v e m q d q' d') : Seq.push v e m q d = .ok (q', d') := by
  obtain ⟨hroom, hwrite, rfl⟩ := h
  simp only [push, if_neg (Nat.not_le.mpr hroom), hwrite]

section Pushed

variable (h : Pushed v e m q d q' d')

include h

/-- A push leaves the lanes, the blocks and the slots of the sequencer. -/
theorem own_of_pushed : q'.own = q.own := by obtain ⟨-, -, rfl⟩ := h; rfl

theorem slot_of_pushed (n : Bool) : q'.slot n = q.slot n := by obtain ⟨-, -, rfl⟩ := h; cases n <;> rfl

theorem retired_of_pushed : q'.retired = q.retired := by obtain ⟨-, -, rfl⟩ := h; rfl

theorem setOf_of_pushed (k : Nat) : q'.setOf k = q.setOf k := by obtain ⟨-, -, rfl⟩ := h; rfl

theorem atJoin_of_pushed (k : Nat) (j : Option (BitVec 12)) : atJoin q' k j = atJoin q k j := by obtain ⟨-, -, rfl⟩ := h; rfl

end Pushed

theorem Seq.push_full (h : v.kern.dstack ≤ q.depth) : Seq.push v e m q d = .error (.check (.fail causeDstack q.depth)) := if_pos h

/-- An entry names its lanes. -/
theorem Seq.top_of_topEntry (h : TopEntry v q d e m d')
    (he : ∀ low, (match e low with | .work _ m => m.toNat | .merge _ _ m => m.toNat) = low.toNat) :
    ∃ low, Seq.top v q d = .ok (e low, m, d') := by
  obtain ⟨b, low, hread, hbytes, rfl⟩ := h
  refine ⟨low, ?_⟩
  simp only [top, hread, hbytes, ← he low] <;> rfl

/-! ## The lanes of a set dealt out (06 R138) -/

theorem Seq.resolve_eq (v : View) (n : Bool) (m : Nat) (j : Option (BitVec 12)) (q : Seq) (d : Device) : Seq.resolve v n m j q d =
    if without m (atJoin q m j) = 0 then .ok ((parkedAt q m j).setSlot n none, d)
    else match v.auto.lookup (q.setOf (without m (atJoin q m j))) with
      | some st => .ok ((parkedAt q m j).setSlot n (taking st (without m (atJoin q m j)) j), d)
      | none => Seq.deal v n (without m (atJoin q m j)) j (parkedAt q m j) d := by
  simp only [resolve, park_eq]
  rfl

/-- Lanes whose set a state holds take it. -/
theorem Seq.resolve_held (hleft : without m (atJoin q m j) ≠ 0) {st : BitVec 12}
    (hst : v.auto.lookup (q.setOf (without m (atJoin q m j))) = some st) :
    Seq.resolve v n m j q d = .ok ((parkedAt q m j).setSlot n (taking st (without m (atJoin q m j)) j), d) := by
  rw [resolve_eq, if_neg hleft, hst]

/-- Lanes of which none is at the join, and whose set no state holds, are dealt out. -/
theorem Seq.resolve_unheld (hjoin : atJoin q m j = 0) (hm : m ≠ 0) (hno : v.auto.lookup (q.setOf m) = none) :
    Seq.resolve v n m j q d = Seq.deal v n m j q d := by
  rw [resolve_eq, parkedAt_of_none q m hjoin, hjoin, without_zero, if_neg hm, hno]

section Deal

variable {b₁ b₂ : BitVec 12} {bs : List (BitVec 12)} (hset : q.setOf m = b₁ :: b₂ :: bs)

include hset

/-- With no second slot to give, the lanes but the lowest block's are pushed. -/
theorem Seq.deal_shared (hbusy : q.own.isSome = true ∨ (q.slot (!n)).isSome = true) :
    Seq.deal v n m j q d = Seq.push v (StackEntry.work j) (without m (q.inBlocks m [b₁]))
      (q.setSlot n (taking (v.auto.single b₁) (q.inBlocks m [b₁]) j)) d := by
  have hother : (q.own.isNone && (q.slot (!n)).isNone) = false := by
    rcases hbusy with h | h
    · rw [Option.isNone_eq_false_iff.mpr h, Bool.false_and]
    · rw [Option.isNone_eq_false_iff.mpr h, Bool.and_false]
  simp only [deal, hset, hother, Bool.false_eq_true, if_false]
  rfl

/-- With both slots to give, the lowest block's lanes take slot 0 and the others slot 1, when a state holds their set. -/
theorem Seq.deal_both (hown : q.own = none) (hother : (q.slot (!n)).isNone = true) {st : BitVec 12}
    (hst : v.auto.lookup (q.setOf (without m (q.inBlocks m [b₁]))) = some st) :
    Seq.deal v n m j q d = .ok ({ q with
      slot0 := taking (v.auto.single b₁) (q.inBlocks m [b₁]) j
      slot1 := taking st (without m (q.inBlocks m [b₁])) j
      alt := false }, d) := by
  have hfree : (q.own.isNone && (q.slot (!n)).isNone) = true := by rw [hown, hother]; rfl
  simp only [deal, hset, hfree, if_true, hst]
  rfl

/-- Else slot 1 takes the second block's, and the lanes beyond are pushed. -/
theorem Seq.deal_both_push (hown : q.own = none) (hother : (q.slot (!n)).isNone = true)
    (hno : v.auto.lookup (q.setOf (without m (q.inBlocks m [b₁]))) = none) {others : Nat} (hothers : others = without m (q.inBlocks m [b₁])) :
    Seq.deal v n m j q d = Seq.push v (StackEntry.work j) (without others (q.inBlocks others [b₂]))
      { q with
        slot0 := taking (v.auto.single b₁) (q.inBlocks m [b₁]) j
        slot1 := taking (v.auto.single b₂) (q.inBlocks others [b₂]) j
        alt := false } d := by
  have hfree : (q.own.isNone && (q.slot (!n)).isNone) = true := by rw [hown, hother]; rfl
  subst hothers
  simp only [deal, hset, hfree, if_true, hno]
  rfl

end Deal

section Split

variable {r : StateRec} (hr : v.auto.states[sl.base.state.toNat]? = some r)

include hr

/-- A declared join that is not the slot's is pushed with its lanes, which go on under it. -/
theorem Seq.split_declared {b : BitVec 12} (hb : r.join = some b) (hne : sl.base.join ≠ some b) :
    Seq.split v n sl m q d = match Seq.push v (StackEntry.merge b sl.base.join) m q d with
      | .error e => .error e
      | .ok (q', d') => Seq.resolve v n m (some b) q' d' := by
  simp only [split, hr, hb, if_neg hne] <;> rfl

/-- With no new join the lanes go on under the slot's. -/
theorem Seq.split_plain (hplain : r.join = none ∨ r.join = sl.base.join) :
    Seq.split v n sl m q d = Seq.resolve v n m sl.base.join q d := by
  cases hb : r.join with
  | none => simp only [split, hr, hb]
  | some b =>
    have hsame : sl.base.join = some b := (hplain.resolve_left (by simp [hb])).symm.trans hb
    simp only [split, hr, hb, hsame, if_true]

end Split

/-! ## Both slots empty (06 R141) -/

/-- A sequencer whose slot holds lanes is not idle. -/
theorem idle_of_slot (hown : q.own = none ∨ q.own = some n) (hslot : (q.slot n).isSome = true) : q.idle = false := by
  rw [← Bool.not_eq_true, Seq.idle_iff hown]
  rintro ⟨hnone, -⟩
  rw [hnone] at hslot
  cases hslot

theorem Seq.act_busy (h : q.idle = false) (k : Nat) : Seq.act v floor k q d = .ok (q, d) := by
  cases k with
  | zero => rfl
  | succ k => simp only [act, h, Bool.not_false, if_true]

theorem acted_busy (h : q.idle = false) : acted v floor (.ok (q, d)) = .ok (q, d) := Seq.act_busy h _

section Idle

variable (hidle : q.idle = true) (hfloor : floor ≠ some q.depth)

include hidle hfloor

/-- With nothing on the stack the group retires. -/
theorem acted_retires (hdepth : q.depth = 0) : acted v floor (.ok (q, d)) = .ok ({ q with retired := true }, d) := by
  simp only [acted, Seq.act, hidle, Bool.not_true, Bool.false_eq_true, if_false, if_neg hfloor, if_pos hdepth]

/-- A work entry's lanes are resolved into the slot, and the entry below it may go to the other. -/
theorem acted_work (hdepth : q.depth ≠ 0) (htop : TopEntry v q d (StackEntry.work j) m d') {q₂ : Seq} {d₂ : Device}
    (hres : Seq.resolve v (q.own.getD false) m j (popped q) d' = .ok (q₂, d₂)) (hbusy : q₂.idle = false) :
    acted v floor (.ok (q, d)) = Seq.popSecond v j (floor.getD 0) q₂ d₂ := by
  obtain ⟨low, htop⟩ := Seq.top_of_topEntry htop (fun _ => rfl)
  have hpop : Seq.resolve v (q.own.getD false) m j q.pop d' = .ok (q₂, d₂) := hres
  simp only [acted, Seq.act, hidle, Bool.not_true, Bool.false_eq_true, if_false, if_neg hfloor, if_neg hdepth, htop, hpop, hbusy]

/-- A merge entry gives the slot the state of its join with the lanes parked there. -/
theorem acted_merge (hdepth : q.depth ≠ 0) {b : BitVec 12} {o : Option (BitVec 12)}
    (htop : TopEntry v q d (StackEntry.merge b o) m d') (hback : Nat.land q.parked m ≠ 0) :
    acted v floor (.ok (q, d)) = .ok (Seq.setSlot { popped q with parked := without q.parked (Nat.land q.parked m) }
      (q.own.getD false) (taking (v.auto.single b) (Nat.land q.parked m) o), d') := by
  obtain ⟨low, htop⟩ := Seq.top_of_topEntry htop (fun _ => rfl)
  simp only [acted, Seq.act, hidle, Bool.not_true, Bool.false_eq_true, if_false, if_neg hfloor, if_neg hdepth, htop, if_neg hback]
  rfl

end Idle

/-- No second entry is popped for an own slot, or where none is above the frame. -/
theorem Seq.popSecond_none {k : Nat} (h : q.own.isSome = true ∨ q.depth ≤ k) : Seq.popSecond v j k q d = .ok (q, d) := by
  refine if_pos ?_
  rcases h with h | h
  · rw [h]; rfl
  · rw [decide_eq_true h, Bool.or_true]

section PopSecond

variable {k : Nat} (hown : q.own = none) (hslot : q.slot1 = none) (hdepth : k < q.depth)

include hown hslot hdepth

theorem Seq.popSecond_eq : Seq.popSecond v j k q d =
    match Seq.top v q d with
    | .error e => .error e
    | .ok (.work i _, mask, d') =>
      if i = j then Seq.resolve v true mask j { q.pop with alt := false } d' else .ok (q, d')
    | .ok (.merge _ _ _, _, d') => .ok (q, d') := by
  have hgo : (q.own.isSome || q.slot1.isSome || decide (q.depth ≤ k)) = false := by
    rw [hown, hslot, decide_eq_false (Nat.not_le.mpr hdepth)]; rfl
  rw [popSecond, if_neg (by rw [hgo]; decide)] <;> rfl

theorem Seq.popSecond_other {i : Option (BitVec 12)} (htop : TopEntry v q d (StackEntry.work i) m d') (hne : i ≠ j) :
    Seq.popSecond v j k q d = .ok (q, d') := by
  obtain ⟨low, htop⟩ := Seq.top_of_topEntry htop (fun _ => rfl)
  simp only [popSecond_eq hown hslot hdepth, htop, if_neg hne]

theorem Seq.popSecond_merge {b : BitVec 12} {o : Option (BitVec 12)} (htop : TopEntry v q d (StackEntry.merge b o) m d') :
    Seq.popSecond v j k q d = .ok (q, d') := by
  obtain ⟨low, htop⟩ := Seq.top_of_topEntry htop (fun _ => rfl)
  simp only [popSecond_eq hown hslot hdepth, htop]

theorem Seq.popSecond_same (htop : TopEntry v q d (StackEntry.work j) m d') :
    Seq.popSecond v j k q d = Seq.resolve v true m j { popped q with alt := false } d' := by
  obtain ⟨low, htop⟩ := Seq.top_of_topEntry htop (fun _ => rfl)
  simp only [popSecond_eq hown hslot hdepth, htop, if_true]
  rfl

end PopSecond

/-! ## Sets that no state holds (06 R138 to R140) -/

section Unmapped

variable {iss : Issue} {r : StateRec} {lanes : Nat} (hU : Unmapped v iss q sl r lanes)

include hU

/-- NEXT of such a set goes on to the split. -/
theorem next_of_unmapped (floor : Option Nat) (d : Device) :
    Seq.next v iss.slot floor q d = acted v floor (Seq.split v iss.slot sl lanes (joined q sl) d) := by
  have hstay : staying q sl = lanes := hU.left.symm
  have hsucc : successor v sl (q.setOf lanes) = none := by
    rw [successor_of_record hU.record]
    rcases hU.direct with hd | hd
    · rw [hd]
    · rw [hd]; exact hU.unheld
  rw [Seq.next_eq hU.slot, hstay, if_neg hU.some_, hsucc]

/-- The lanes left are not at the slot's join again. -/
theorem atJoin_of_unmapped : atJoin q lanes sl.base.join = 0 := hU.left ▸ atJoin_without q _ _

/-- Under the slot's own join they are dealt out. -/
theorem split_of_unmapped (hplain : r.join = none ∨ r.join = sl.base.join) (d : Device) :
    Seq.split v iss.slot sl lanes (joined q sl) d = Seq.deal v iss.slot lanes sl.base.join (joined q sl) d := by
  rw [Seq.split_plain hU.record hplain]
  have hjoin : atJoin (joined q sl) lanes sl.base.join = 0 := (atJoin_of_unmapped hU : atJoin q lanes sl.base.join = 0)
  exact Seq.resolve_unheld hjoin hU.some_ hU.unheld

/-- A declared join is pushed, and the lanes left go on under it (06 R138, R139). -/
theorem next_pushes_merge (hown : q.own = none ∨ q.own = some iss.slot) {b st : BitVec 12} (hb : r.join = some b)
    (hne : sl.base.join ≠ some b) (hpushed : Pushed v (StackEntry.merge b sl.base.join) lanes (joined q sl) d q' d')
    (hleft : without lanes (atJoin q lanes (some b)) ≠ 0)
    (hst : v.auto.lookup (q.setOf (without lanes (atJoin q lanes (some b)))) = some st) :
    Seq.next v iss.slot floor q d = .ok ((parkedAt q' lanes (some b)).setSlot iss.slot
      (taking st (without lanes (atJoin q lanes (some b))) (some b)), d') := by
  have hjoin : atJoin q' lanes (some b) = atJoin q lanes (some b) := atJoin_of_pushed hpushed lanes (some b)
  have hsets : q'.setOf (without lanes (atJoin q lanes (some b))) = q.setOf (without lanes (atJoin q lanes (some b))) :=
    setOf_of_pushed hpushed _
  have hresolve : Seq.resolve v iss.slot lanes (some b) q' d' = .ok ((parkedAt q' lanes (some b)).setSlot iss.slot
      (taking st (without lanes (atJoin q lanes (some b))) (some b)), d') := by
    rw [← hjoin] at hleft hst hsets ⊢
    exact Seq.resolve_held hleft (hsets ▸ hst)
  rw [next_of_unmapped hU, Seq.split_declared hU.record hb hne, Seq.push_of_pushed hpushed]
  simp only [hresolve]
  refine acted_busy (idle_of_slot (n := iss.slot) ?_ (by rw [setSlot_slot]; rfl))
  rw [setSlot_own, show (parkedAt q' lanes (some b)).own = q'.own from rfl, own_of_pushed hpushed]
  exact hown

variable {b₁ b₂ : BitVec 12} {bs : List (BitVec 12)} (hplain : r.join = none ∨ r.join = sl.base.join)
  (hset : q.setOf lanes = b₁ :: b₂ :: bs)

include hplain hset

/-- A slot with no second slot to give pushes the lanes but the lowest block's (06 R138). -/
theorem next_deals_shared (hbusy : q.own.isSome = true ∨ (q.slot (!iss.slot)).isSome = true) (floor : Option Nat) (d : Device) :
    Seq.next v iss.slot floor q d = acted v floor (Seq.push v (StackEntry.work sl.base.join) (without lanes (q.inBlocks lanes [b₁]))
      ((joined q sl).setSlot iss.slot (taking (v.auto.single b₁) (q.inBlocks lanes [b₁]) sl.base.join)) d) := by
  rw [next_of_unmapped hU, split_of_unmapped hU hplain]
  exact congrArg (acted v floor) (Seq.deal_shared (q := joined q sl) hset hbusy)

theorem next_pushes_work (hown : q.own = none ∨ q.own = some iss.slot)
    (hbusy : q.own.isSome = true ∨ (q.slot (!iss.slot)).isSome = true)
    (hpushed : Pushed v (StackEntry.work sl.base.join) (without lanes (q.inBlocks lanes [b₁]))
      ((joined q sl).setSlot iss.slot (taking (v.auto.single b₁) (q.inBlocks lanes [b₁]) sl.base.join)) d q' d') :
    Seq.next v iss.slot floor q d = .ok (q', d') := by
  rw [next_deals_shared hU hplain hset hbusy, Seq.push_of_pushed hpushed]
  refine acted_busy (idle_of_slot (n := iss.slot) ?_ ?_)
  · rw [own_of_pushed hpushed, setSlot_own]
    exact hown
  · rw [slot_of_pushed hpushed, setSlot_slot]
    rfl

variable (hown : q.own = none) (hother : (q.slot (!iss.slot)).isNone = true)

include hown hother

/-- A group with its other slot empty gives the lowest block's lanes slot 0 and the others slot 1 (06 R138). -/
theorem next_deals_both {st : BitVec 12} (hst : v.auto.lookup (q.setOf (without lanes (q.inBlocks lanes [b₁]))) = some st) :
    Seq.next v iss.slot floor q d = .ok ({ joined q sl with
      slot0 := taking (v.auto.single b₁) (q.inBlocks lanes [b₁]) sl.base.join
      slot1 := taking st (without lanes (q.inBlocks lanes [b₁])) sl.base.join
      alt := false }, d) := by
  rw [next_of_unmapped hU, split_of_unmapped hU hplain]
  refine (congrArg (acted v floor) (Seq.deal_both (q := joined q sl) hset hown hother hst)).trans ?_
  exact acted_busy (idle_of_slot (n := false) (.inl hown) rfl)

/-- With an unmapped remainder the lanes of all blocks but the two lowest are pushed (06 R138). -/
theorem next_pushes_remainder {others : Nat} (hothers : others = without lanes (q.inBlocks lanes [b₁]))
    (hno : v.auto.lookup (q.setOf others) = none)
    (hpushed : Pushed v (StackEntry.work sl.base.join) (without others (q.inBlocks others [b₂]))
      { joined q sl with
        slot0 := taking (v.auto.single b₁) (q.inBlocks lanes [b₁]) sl.base.join
        slot1 := taking (v.auto.single b₂) (q.inBlocks others [b₂]) sl.base.join
        alt := false } d q' d') :
    Seq.next v iss.slot floor q d = .ok (q', d') := by
  rw [next_of_unmapped hU, split_of_unmapped hU hplain]
  refine (congrArg (acted v floor)
    ((Seq.deal_both_push (q := joined q sl) hset hown hother (hothers ▸ hno) hothers).trans (Seq.push_of_pushed hpushed))).trans ?_
  refine acted_busy (idle_of_slot (n := false) (.inl ((own_of_pushed hpushed).trans hown)) ?_)
  rw [slot_of_pushed hpushed]
  rfl

end Unmapped

/-! ## The stack popped (06 R139, R141) -/

/-- The sequencer of a slot that NEXT has emptied. -/
def emptied (iss : Issue) (q : Seq) (sl : SeqSlot) : Seq := (joined q sl).setSlot iss.slot none

theorem emptied_own (iss : Issue) (q : Seq) (sl : SeqSlot) : (emptied iss q sl).own = q.own := setSlot_own _ _ _

theorem emptied_depth (iss : Issue) (q : Seq) (sl : SeqSlot) : (emptied iss q sl).depth = q.depth := setSlot_depth _ _ _

theorem emptied_high (iss : Issue) (q : Seq) (sl : SeqSlot) : (emptied iss q sl).high = q.high := setSlot_high _ _ _

theorem emptied_retired (iss : Issue) (q : Seq) (sl : SeqSlot) : (emptied iss q sl).retired = q.retired := setSlot_retired _ _ _

theorem emptied_setOf (iss : Issue) (q : Seq) (sl : SeqSlot) (m : Nat) : (emptied iss q sl).setOf m = q.setOf m := by
  rw [emptied]; cases iss.slot <;> rfl

theorem emptied_atJoin (iss : Issue) (q : Seq) (sl : SeqSlot) (m : Nat) (j : Option (BitVec 12)) :
    atJoin (emptied iss q sl) m j = atJoin q m j := by
  rw [emptied]; cases iss.slot <;> rfl

/-- The top entry is that of the stack, whatever stands in the slots. -/
theorem topEntry_congr (h : TopEntry v q d e m d') (hdepth : q'.depth = q.depth) (hhigh : q'.high = q.high) : TopEntry v q' d e m d' := by
  rw [TopEntry, hdepth, hhigh]
  exact h

theorem own_eq_or (q : Seq) : q.own = none ∨ q.own = some (q.own.getD false) := by cases q.own <;> simp

/-- The sequencer after a work entry has been popped into its slot. -/
def workPopped (iss : Issue) (q : Seq) (sl : SeqSlot) (m : Nat) (j : Option (BitVec 12)) (st : BitVec 12) : Seq :=
  (parkedAt (popped (emptied iss q sl)) m j).setSlot (q.own.getD false) (taking st (without m (atJoin q m j)) j)

section WorkPopped

variable (iss : Issue) (q : Seq) (sl : SeqSlot) (m : Nat) (j : Option (BitVec 12)) (st : BitVec 12)

theorem workPopped_own : (workPopped iss q sl m j st).own = q.own := by
  rw [workPopped, setSlot_own]
  exact emptied_own iss q sl

theorem workPopped_depth : (workPopped iss q sl m j st).depth = q.depth - 1 := by
  rw [workPopped, setSlot_depth]
  exact congrArg (· - 1) (emptied_depth iss q sl)

theorem workPopped_high : (workPopped iss q sl m j st).high = q.high.take (q.depth - 1) := by
  rw [workPopped, setSlot_high]
  show (emptied iss q sl).high.take ((emptied iss q sl).depth - 1) = _
  rw [emptied_depth, emptied_high]

theorem workPopped_retired : (workPopped iss q sl m j st).retired = q.retired := by
  rw [workPopped, setSlot_retired]
  exact emptied_retired iss q sl

theorem workPopped_setOf (k : Nat) : (workPopped iss q sl m j st).setOf k = q.setOf k := by
  rw [← emptied_setOf iss q sl k, workPopped]
  cases q.own.getD false <;> rfl

theorem workPopped_atJoin (k : Nat) : atJoin (workPopped iss q sl m j st) k j = atJoin q k j := by
  rw [← emptied_atJoin iss q sl k j, workPopped]
  cases q.own.getD false <;> rfl

end WorkPopped

section Emptied

variable {iss : Issue} (hE : Emptied iss q sl)

include hE

/-- NEXT that leaves its slot empty acts on the stack. -/
theorem next_of_emptied (floor : Option Nat) (d : Device) :
    Seq.next v iss.slot floor q d = acted v floor (.ok ((joined q sl).setSlot iss.slot none, d)) := by
  rw [Seq.next_eq hE.slot, if_pos (show staying q sl = 0 from hE.left)]

theorem idle_of_emptied (hown : q.own = none ∨ q.own = some iss.slot) : ((joined q sl).setSlot iss.slot none).idle = true := by
  rw [Seq.idle_iff (n := iss.slot) (by rw [setSlot_own]; exact hown)]
  refine ⟨setSlot_slot _ _ _, fun hnone => ?_⟩
  rw [setSlot_own] at hnone
  rw [setSlot_slot_not]
  exact Option.isNone_iff_eq_none.mp (hE.other (Option.isNone_iff_eq_none.mpr hnone))

section Pops

variable (hown : q.own = none ∨ q.own = some iss.slot) (hfloor : floor.getD 0 < q.depth)

include hown hfloor

/-- The lanes of a work entry that a state holds go to the slot. -/
theorem next_pops_work (htop : TopEntry v q d (StackEntry.work j) m d') {st : BitVec 12} (hleft : without m (atJoin q m j) ≠ 0)
    (hst : v.auto.lookup (q.setOf (without m (atJoin q m j))) = some st) :
    Seq.next v iss.slot floor q d = Seq.popSecond v j (floor.getD 0) (workPopped iss q sl m j st) d' := by
  have hat : atJoin (popped (emptied iss q sl)) m j = atJoin q m j := emptied_atJoin iss q sl m j
  have hsets : (popped (emptied iss q sl)).setOf (without m (atJoin q m j)) = q.setOf (without m (atJoin q m j)) :=
    emptied_setOf iss q sl _
  have hresolve : Seq.resolve v ((emptied iss q sl).own.getD false) m j (popped (emptied iss q sl)) d' =
      .ok (workPopped iss q sl m j st, d') := by
    rw [emptied_own, workPopped]
    rw [← hat] at hleft hst hsets ⊢
    exact Seq.resolve_held hleft (hsets ▸ hst)
  have htop : TopEntry v (emptied iss q sl) d (StackEntry.work j) m d' :=
    topEntry_congr htop (emptied_depth iss q sl) (setSlot_high _ _ _)
  rw [next_of_emptied hE]
  refine acted_work (idle_of_emptied hE hown) ?_ (fun h0 => ?_) htop hresolve ?_
  · intro heq
    rw [heq, setSlot_depth] at hfloor
    exact absurd hfloor (lt_irrefl _)
  · rw [setSlot_depth] at h0
    have : q.depth = 0 := h0
    omega
  · refine idle_of_slot (n := q.own.getD false) ?_ (by rw [workPopped, setSlot_slot]; rfl)
    rw [workPopped_own]
    exact own_eq_or q

/-- A merge entry gives the slot the state of its join with the lanes parked there. -/
theorem next_pops_merge {b : BitVec 12} {o : Option (BitVec 12)} (htop : TopEntry v q d (StackEntry.merge b o) m d')
    (hback : Nat.land (emptied iss q sl).parked m ≠ 0) :
    Seq.next v iss.slot floor q d = .ok (Seq.setSlot
      { popped (emptied iss q sl) with parked := without (emptied iss q sl).parked (Nat.land (emptied iss q sl).parked m) }
      (q.own.getD false) (taking (v.auto.single b) (Nat.land (emptied iss q sl).parked m) o), d') := by
  have htop : TopEntry v (emptied iss q sl) d (StackEntry.merge b o) m d' :=
    topEntry_congr htop (emptied_depth iss q sl) (setSlot_high _ _ _)
  rw [next_of_emptied hE]
  refine (acted_merge (idle_of_emptied hE hown) ?_ (fun h0 => ?_) htop hback).trans ?_
  · intro heq
    rw [heq, setSlot_depth] at hfloor
    exact absurd hfloor (lt_irrefl _)
  · rw [setSlot_depth] at h0
    have : q.depth = 0 := h0
    omega
  · rw [show ((joined q sl).setSlot iss.slot none).own = q.own from emptied_own iss q sl]
    rfl

end Pops

/-- Of a group with no slot of its own, slot 1 is empty after NEXT has emptied both. -/
theorem emptied_slot1 (hown : q.own = none) : (emptied iss q sl).slot1 = none :=
  ((Seq.idle_iff (q := emptied iss q sl) (n := false) (.inl ((emptied_own iss q sl).trans hown))).mp
    (idle_of_emptied hE (.inl hown))).2 ((emptied_own iss q sl).trans hown)

theorem workPopped_slot1 (hown : q.own = none) (m : Nat) (j : Option (BitVec 12)) (st : BitVec 12) :
    (workPopped iss q sl m j st).slot1 = none := by
  rw [workPopped, hown]
  exact emptied_slot1 hE hown

end Emptied

end Sys2Proof.Machine
end

section
/-! PROOF of O21: NEXT retires a finished group, splits a set that no state holds, and pushes and pops the divergence stack
(06 R138 to R141). -/

namespace Sys2Proof.Machine

open Sys2Proof Sys2Proof.Claims

/-! ## The sequencer of a chain's groups -/

theorem seqOf_own {d : Device} {iss : Issue} {v : View} (h : Shows d iss v.g v) (rest : List View) :
    (seqOf (v :: rest)).own = none ∨ (seqOf (v :: rest)).own = some iss.slot := by
  cases hmode : v.kern.mode16 with
  | false => exact .inl (by simp [seqOf, hmode])
  | true => exact .inr (by simp [seqOf, hmode, h.half_of_mode16 hmode])

theorem seqOf_depth (v : View) (rest : List View) : (seqOf (v :: rest)).depth = v.agent.depth := rfl

theorem joinMasks_zero (a : Word) : joinMasks a 0 = a.toNat := by simp [joinMasks]

/-- A group alone: its slots are those of its sequencer, but that of the other half. -/
theorem seqOf_slot (v : View) (n : Bool) : (seqOf [v]).slot n =
    if v.kern.mode16 && n != v.half then none
    else (v.grp.slot n).map (fun s => { base := s, mask := s.mask.toNat, moved := s.moved.toNat }) := by
  cases n <;> simp only [Seq.slot, seqOf, Bool.false_eq_true, if_false, if_true, joinMasks_zero]

theorem seqOf_slot_iss {d : Device} {iss : Issue} {v : View} (h : Shows d iss v.g v) :
    (seqOf [v]).slot iss.slot = some { base := v.slot, mask := v.slot.mask.toNat, moved := v.slot.moved.toNat } := by
  have hown : (v.kern.mode16 && iss.slot != v.half) = false := by
    rw [h.half_eq]
    cases v.kern.mode16 <;> cases iss.slot <;> rfl
  rw [seqOf_slot, hown, h.slot_at]
  rfl

theorem seqOf_slot_other {v : View} {n : Bool} (h : (v.grp.slot n).isNone = true) : (seqOf [v]).slot n = none := by
  rw [seqOf_slot, Option.isNone_iff_eq_none.mp h, Option.map_none, ite_self]

/-! ## The group that a sequencer is written back to -/

theorem groupAt_putSeq_single {d e : Device} {iss : Issue} {v : View} (h : Shows d iss v.g v) (hwgs : e.wgs = d.wgs) (q : Seq) :
    groupAt (e.putSeq [v] q) v.wg.uid v.g = some (v.grp.withSeq q 0 v.half v.frameLanes) := by
  rw [Device.putSeq, groupAt_modGroup, if_pos ⟨rfl, rfl⟩, groupAt_congr hwgs, h.groupAt]
  rfl

@[simp] theorem setSlot_cells (g : Group) (n : Bool) (s : Option Slot) : (g.setSlot n s).cells = g.cells := by cases n <;> rfl

@[simp] theorem modAgent_cells (g : Group) (n : Bool) (f : Agent → Agent) : (g.modAgent n f).cells = g.cells := by cases n <;> rfl

@[simp] theorem withSeq_cells (g : Group) (q : Seq) (base : Nat) (half : Bool) (lanes : Word) :
    (g.withSeq q base half lanes).cells = g.cells := by
  rw [Group.withSeq, modAgent_cells]
  cases q.own with
  | none => rfl
  | some n => exact setSlot_cells _ _ _

theorem Device.lastExit_wgs (d : Device) (uid : Nat) : (d.lastExit uid).wgs = d.wgs := by
  rw [lastExit]
  cases d.wg uid with
  | none => rfl
  | some w => simp only; split <;> rfl

theorem groupAt_retireGroup (d : Device) (uid g : Nat) : groupAt (d.retireGroup uid g) uid g =
    (groupAt d uid g).map (fun x => if x.finished then { x with retired := true } else x) := by
  rw [Device.retireGroup, groupAt_congr (Device.lastExit_wgs _ _), groupAt_modGroup, if_pos ⟨rfl, rfl⟩]

/-! ## Retirement (06 R141) -/

/-- Lanes that have all exited leave nothing in a slot. -/
theorem without_eq_zero {a b : Nat} (h : ∀ i, a.testBit i = true → b.testBit i = true) : without a b = 0 := by
  refine Nat.eq_of_testBit_eq (fun i => ?_)
  rw [testBit_without, Nat.zero_testBit]
  cases ha : a.testBit i with
  | false => rfl
  | true => rw [h i ha]; rfl

/-- A group written back with its own slot empty, and its other slot empty before, has finished when its stacks are empty. -/
theorem withSeq_finished {d : Device} {iss : Issue} {v : View} (h : Shows d iss v.g v) (hother : (v.grp.slot (!iss.slot)).isNone = true)
    (h0 : v.grp.agent0.depth = 0) (h1 : v.grp.agent1.depth = 0) {q : Seq} (hown : q.own = if v.kern.mode16 then some v.half else none)
    (hslot : q.slot iss.slot = none) (hqother : q.slot (!iss.slot) = none) (hdepth : q.depth = 0) :
    let g := v.grp.withSeq q 0 v.half v.frameLanes
    g.slot0 = none ∧ g.slot1 = none ∧ g.agent0.depth = 0 ∧ g.agent1.depth = 0 := by
  rw [Option.isNone_iff_eq_none] at hother
  cases hmode : v.kern.mode16 with
  | false =>
    rw [hmode] at hown
    have hslots : q.slot0 = none ∧ q.slot1 = none := by
      cases hi : iss.slot with
      | false => rw [hi] at hslot hqother; exact ⟨hslot, hqother⟩
      | true => rw [hi] at hslot hqother; exact ⟨hqother, hslot⟩
    simp [Group.withSeq, hown, h.half_of_wide hmode, Group.modAgent, hslots.1, hslots.2, hdepth, h1]
  | true =>
    rw [hmode, if_pos rfl, h.half_of_mode16 hmode] at hown
    rw [h.half_of_mode16 hmode]
    cases hi : iss.slot with
    | false =>
      rw [hi] at hown hslot hother
      have hslot1 : v.grp.slot1 = none := hother
      simp [Group.withSeq, hown, hslot, Group.setSlot, Group.modAgent, hslot1, hdepth, h1]
    | true =>
      rw [hi] at hown hslot hother
      have hslot0 : v.grp.slot0 = none := hother
      simp [Group.withSeq, hown, hslot, Group.setSlot, Group.modAgent, hslot0, hdepth, h0]

/-- NEXT retires a group whose lanes have exited (06 R141). -/
theorem next_retires {h : Hdr} (hwf : (Instr.next h).wf = true) {s : State} {iss : Issue} {v : View} (hI : Issuing s iss [v])
    (hl : s.latch = none) (hlib : v.library = false) (hdepth : v.agent.depth = 0) (hother : (v.grp.slot (!iss.slot)).isNone = true)
    (h0 : v.grp.agent0.depth = 0) (h1 : v.grp.agent1.depth = 0)
    (hexited : v.slot.mask &&& ~~~(v.grp.exited &&& v.frameLanes) = 0) :
    ∃ t, exec (.next h) s = .next t ∧
      ∃ g, groupAt t.dev v.wg.uid v.g = some g ∧ g.retired = true ∧ g.slot0 = none ∧ g.slot1 = none ∧ g.cells = v.grp.cells := by
  have hshows := hI.shows_dev hl (List.mem_singleton_self v)
  have hslot := seqOf_slot_iss hshows
  set sl : SeqSlot := { base := v.slot, mask := v.slot.mask.toNat, moved := v.slot.moved.toNat }
  have hlive : live (seqOf [v]) sl = 0 := by
    refine without_eq_zero (fun i hi => ?_)
    have hbit := congrArg (fun x => x.getLsbD i) hexited
    have hi32 : i < 32 := by
      by_contra hge
      rw [show sl.mask.testBit i = v.slot.mask.getLsbD i from rfl, BitVec.getLsbD_of_ge _ _ (by omega)] at hi
      cases hi
    have hmask : v.slot.mask.getLsbD i = true := hi
    rw [show (seqOf [v]).exited = (v.grp.exited &&& v.frameLanes).toNat from joinMasks_zero _]
    simp only [BitVec.getLsbD_and, BitVec.getLsbD_not, hmask, hi32, decide_true, Bool.true_and] at hbit
    simpa [BitVec.testBit_toNat] using hbit
  have hstay : staying (seqOf [v]) sl = 0 := by rw [staying, hlive]; exact without_eq_zero (by simp)
  have hfloor : frameFloor v = none := by
    rw [frameFloor, Option.map_eq_none_iff]
    simpa [View.library] using hlib
  set q := (joined (seqOf [v]) sl).setSlot iss.slot none with hq
  have hidle : q.idle = true := by
    rw [Seq.idle_iff (n := iss.slot) (by rw [hq, setSlot_own]; exact seqOf_own hshows [])]
    refine ⟨setSlot_slot _ _ _, fun _ => ?_⟩
    rw [hq, setSlot_slot_not]
    exact seqOf_slot_other hother
  have hqdepth : q.depth = 0 := by rw [hq, setSlot_depth]; exact hdepth
  have hnext : Seq.next v iss.slot (frameFloor v) (seqOf [v]) s.dev = .ok ({ q with retired := true }, s.dev) := by
    rw [Seq.next_eq hslot, if_pos hstay]
    exact acted_retires hidle (by rw [hfloor]; exact (Option.some_ne_none _).symm) hqdepth
  obtain ⟨hs0, hs1, ha0, ha1⟩ := withSeq_finished hshows hother h0 h1 (q := { q with retired := true })
    (by rw [hq]; exact setSlot_own _ _ _) (by rw [hq]; exact setSlot_slot _ _ _)
    (by rw [hq]; exact (setSlot_slot_not _ _ _).trans (seqOf_slot_other hother)) hqdepth
  set g := v.grp.withSeq { q with retired := true } 0 v.half v.frameLanes with hg
  have hfinished : g.finished = true := by rw [Group.finished, hs0, hs1, ha0, ha1]; rfl
  refine ⟨_, exec_next hwf hI hl hnext, { g with retired := true }, ?_, rfl, hs0, hs1, withSeq_cells _ _ _ _ _⟩
  rw [settled, if_pos rfl, List.foldl_cons, List.foldl_nil, groupAt_retireGroup, groupAt_putSeq_single hshows rfl, ← hg,
    Option.map_some, if_pos hfinished]

/-! ## Splits and pushes (06 R138 to R140) -/

/-- A group of width mode 32 or 64 written back with both of its slots given. -/
theorem withSeq_of_wide {v : View} {q : Seq} (hown : q.own = none) (hhalf : v.half = false) :
    let g := v.grp.withSeq q 0 v.half v.frameLanes
    g.slot0 = q.slot0.map (fun s => s.share 0) ∧ g.slot1 = q.slot1.map (fun s => s.share 0) ∧ g.alt = q.alt ∧
      g.agent v.half = { v.grp.agent v.half with depth := q.depth } := by
  simp [Group.withSeq, hown, hhalf, Group.modAgent, Group.agent]

theorem slotParts_share (st : BitVec 12) (lanes : Nat) (j : Option (BitVec 12)) :
    slotParts ((taking st lanes j).map (fun s => s.share 0)) = some (st, 0, BitVec.ofNat 32 lanes, 0, j, 0) := by
  simp [slotParts, taking, SeqSlot.share]

/-- NEXT splits a set between the two slots of a group (06 R138). -/
theorem next_splits_slots {h : Hdr} (hwf : (Instr.next h).wf = true) {s : State} {iss : Issue} {v : View} (hI : Issuing s iss [v])
    (hl : s.latch = none) (hmode : v.kern.wmode ≠ 0) (hother : (v.grp.slot (!iss.slot)).isNone = true) (hpair : v.grp.pair ≠ some true)
    {q : Seq} (hq : q = seqOf [v]) {sl : SeqSlot} {r : StateRec} {b₁ b₂ : BitVec 12} {bs : List (BitVec 12)} {st : BitVec 12}
    {lanes : Nat} (hU : Unmapped v iss q sl r lanes) (hjoin : sl.base.join = none) (hrjoin : r.join = none)
    (hset : q.setOf lanes = b₁ :: b₂ :: bs)
    (hst : v.auto.lookup (q.setOf (without lanes (q.inBlocks lanes [b₁]))) = some st) :
    ∃ t, exec (.next h) s = .next t ∧
      ∃ g, groupAt t.dev v.wg.uid v.g = some g ∧
        slotParts g.slot0 = some (v.auto.single b₁, 0, BitVec.ofNat 32 (q.inBlocks lanes [b₁]), 0, none, 0) ∧
        slotParts g.slot1 = some (st, 0, BitVec.ofNat 32 (without lanes (q.inBlocks lanes [b₁])), 0, none, 0) ∧
        g.alt = false ∧ g.agent v.half = v.agent ∧ g.cells = v.grp.cells := by
  have hshows := hI.shows_dev hl (List.mem_singleton_self v)
  have hwide : v.kern.mode16 = false := by simpa [Kernel.mode16] using hmode
  have hhalf := hshows.half_of_wide hwide
  have hown : q.own = none := by rw [hq]; simp [seqOf, hwide]
  have hdepth : q.depth = v.agent.depth := by rw [hq, seqOf_depth]
  have hnext := next_deals_both (floor := frameFloor v) (d := s.dev) hU (.inl hrjoin) hset hown
    (by rw [hq, seqOf_slot_other hother]; rfl) hst
  rw [hjoin] at hnext
  rw [hq] at hnext hown hdepth ⊢
  refine ⟨_, exec_next_putSeq hwf hI hl hnext (seqOf_retired _), _, groupAt_putSeq_single hshows rfl _, ?_⟩
  obtain ⟨h0, h1, halt, hagent⟩ := withSeq_of_wide (v := v) (q := { joined (seqOf [v]) sl with
    slot0 := taking (v.auto.single b₁) ((seqOf [v]).inBlocks lanes [b₁]) none
    slot1 := taking st (without lanes ((seqOf [v]).inBlocks lanes [b₁])) none
    alt := false }) hown hhalf
  rw [h0, h1, halt, hagent, slotParts_share, slotParts_share, ← hshows.agent_of_home hpair]
  exact ⟨rfl, rfl, rfl, rfl, withSeq_cells _ _ _ _ _⟩

/-! ## A full stack (06 R140) -/

theorem insertBlock_ne_nil (b : BitVec 12) (l : List (BitVec 12)) : insertBlock b l ≠ [] := by
  cases l with
  | nil => simp [insertBlock]
  | cons c t => rw [insertBlock]; split_ifs <;> simp

theorem blockSet_eq_nil {l : List (BitVec 12)} (h : blockSet l = []) : l = [] := by
  rcases List.eq_nil_or_concat l with rfl | ⟨t, b, rfl⟩
  · rfl
  · rw [blockSet, List.concat_eq_append, List.foldl_append] at h
    exact absurd h (insertBlock_ne_nil b _)

/-- Lanes of a sequencer whose set no state holds stand at two blocks at least. -/
theorem two_blocks_of_unheld {v : View} {q : Seq} {m : Nat} (hm : m ≠ 0) (hbound : ∀ i, m.testBit i = true → i < q.lanes)
    (hno : v.auto.lookup (q.setOf m) = none) : ∃ b₁ b₂ bs, q.setOf m = b₁ :: b₂ :: bs := by
  match hset : q.setOf m with
  | [] =>
    obtain ⟨i, hi⟩ := Nat.exists_testBit_of_ne_zero hm
    have hmem : i ∈ q.lanesIn m := List.mem_filter.mpr ⟨List.mem_range.mpr (hbound i hi), by rw [bitN_eq, hi]⟩
    rw [List.map_eq_nil_iff.mp (blockSet_eq_nil hset)] at hmem
    cases hmem
  | [b] => rw [hset] at hno; cases hno
  | b₁ :: b₂ :: bs => exact ⟨b₁, b₂, bs, rfl⟩

/-- NEXT that has to push on a full stack raises DSTACK with its depth. -/
theorem next_full {h : Hdr} (hwf : (Instr.next h).wf = true) {s : State} {iss : Issue} {v : View} (hI : Issuing s iss [v])
    (hl : s.latch = none) {q : Seq} (hq : q = seqOf [v]) {sl : SeqSlot} {r : StateRec} {lanes : Nat} (hU : Unmapped v iss q sl r lanes)
    (hfull : v.kern.dstack ≤ v.agent.depth)
    (hpushes : (∃ j, r.join = some j ∧ sl.base.join ≠ some j) ∨
      (r.join = none ∧ (q.own.isSome = true ∨ (q.slot (!iss.slot)).isSome = true))) :
    exec (.next h) s = .next (s.trap iss (.next h) { cause := 0x09, detail := v.agent.depth, lanes := none }) := by
  have hshows := hI.shows_dev hl (List.mem_singleton_self v)
  refine exec_next_dstack hwf hI hl ?_
  rw [← hq]
  have hdepth : (joined q sl).depth = v.agent.depth := by rw [show (joined q sl).depth = q.depth from rfl, hq, seqOf_depth]
  rcases hpushes with ⟨b, hb, hne⟩ | ⟨hnone, hbusy⟩
  · rw [next_of_unmapped hU, Seq.split_declared hU.record hb hne, Seq.push_full (by rw [hdepth]; exact hfull), hdepth]
    rfl
  · have hslot : q.slot iss.slot = some { base := v.slot, mask := v.slot.mask.toNat, moved := v.slot.moved.toNat } := by
      rw [hq, seqOf_slot_iss hshows]
    have hmask : sl.mask = v.slot.mask.toNat := by rw [← Option.some.inj (hslot.symm.trans hU.slot)]
    have hbound : ∀ i, lanes.testBit i = true → i < q.lanes := by
      intro i hi
      rw [hU.left, testBit_without, testBit_without, hmask, Bool.and_eq_true, Bool.and_eq_true] at hi
      have h32 : q.lanes = 32 := by rw [hq]; rfl
      rw [h32]
      by_contra hge
      rw [BitVec.testBit_toNat, BitVec.getLsbD_of_ge _ _ (by omega)] at hi
      exact absurd hi.1.1 (by decide)
    obtain ⟨b₁, b₂, bs, hset⟩ := two_blocks_of_unheld hU.some_ hbound hU.unheld
    have hdepth' : Seq.depth ((joined q sl).setSlot iss.slot
        (taking (v.auto.single b₁) (q.inBlocks lanes [b₁]) sl.base.join)) = v.agent.depth := by rw [setSlot_depth, hdepth]
    rw [next_deals_shared hU (.inl hnone) hset hbusy, Seq.push_full (by rw [hdepth']; exact hfull), hdepth']
    rfl

/-! ## Pops (06 R139, R141) -/

theorem frameFloor_getD (v : View) : (frameFloor v).getD 0 = match v.agent.library with | some l => l.depth + 7 | none => 0 := by
  rw [frameFloor]
  cases v.agent.library <;> rfl

section Rules

variable {h : Hdr} {s : State} {iss : Issue} {v : View} {rest : List View} (hwf : (Instr.next h).wf = true)
  (hI : Issuing s iss (v :: rest)) (hl : s.latch = none) {q : Seq} (hq : q = seqOf (v :: rest)) {sl : SeqSlot}

include hq

theorem retired_of_seqOf : q.retired = false := hq ▸ seqOf_retired _

include hI hl

theorem own_of_seqOf : q.own = none ∨ q.own = some iss.slot := hq ▸ seqOf_own (hI.shows_dev hl List.mem_cons_self) rest

include hwf

theorem exec_next_of {q' : Seq} {d : Device} (hnext : Seq.next v iss.slot (frameFloor v) q s.dev = .ok (q', d))
    (hretired : q'.retired = false) : exec (.next h) s = .next { s with dev := d.putSeq (v :: rest) q' } :=
  exec_next_putSeq hwf hI hl (hq ▸ hnext) hretired

section Pushes

variable {r : StateRec} {lanes : Nat} (hU : Unmapped v iss q sl r lanes)

include hU

theorem exec_next_pushes_merge {j st : BitVec 12} {q1 : Seq} {d : Device} (hj : r.join = some j) (hne : sl.base.join ≠ some j)
    (hpushed : Pushed v (StackEntry.merge j sl.base.join) lanes (joined q sl) s.dev q1 d)
    (hleft : without lanes (atJoin q lanes (some j)) ≠ 0)
    (hst : v.auto.lookup (q.setOf (without lanes (atJoin q lanes (some j)))) = some st) :
    exec (.next h) s = .next { s with dev := d.putSeq (v :: rest) ((parkedAt q1 lanes (some j)).setSlot iss.slot
      (taking st (without lanes (atJoin q lanes (some j))) (some j))) } := by
  refine exec_next_of hwf hI hl hq (next_pushes_merge hU (own_of_seqOf hI hl hq) hj hne hpushed hleft hst) ?_
  rw [setSlot_retired]
  have hretired := retired_of_seqOf hq
  exact (retired_of_pushed hpushed).trans hretired

variable {b₁ b₂ : BitVec 12} {bs : List (BitVec 12)} (hplain : r.join = none ∨ r.join = sl.base.join)
  (hset : q.setOf lanes = b₁ :: b₂ :: bs) {q1 : Seq} {d : Device}

include hplain hset

theorem exec_next_pushes_work (hbusy : q.own.isSome = true ∨ (q.slot (!iss.slot)).isSome = true)
    (hpushed : Pushed v (StackEntry.work sl.base.join) (without lanes (q.inBlocks lanes [b₁]))
      ((joined q sl).setSlot iss.slot (taking (v.auto.single b₁) (q.inBlocks lanes [b₁]) sl.base.join)) s.dev q1 d) :
    exec (.next h) s = .next { s with dev := d.putSeq (v :: rest) q1 } := by
  refine exec_next_of hwf hI hl hq (next_pushes_work hU hplain hset (own_of_seqOf hI hl hq) hbusy hpushed) ?_
  have hretired := retired_of_seqOf hq
  rw [retired_of_pushed hpushed, setSlot_retired]
  exact hretired

theorem exec_next_pushes_remainder (hown : q.own = none) (hother : (q.slot (!iss.slot)).isNone = true) {others : Nat}
    (hothers : others = without lanes (q.inBlocks lanes [b₁])) (hno : v.auto.lookup (q.setOf others) = none)
    (hpushed : Pushed v (StackEntry.work sl.base.join) (without others (q.inBlocks others [b₂]))
      { joined q sl with
        slot0 := taking (v.auto.single b₁) (q.inBlocks lanes [b₁]) sl.base.join
        slot1 := taking (v.auto.single b₂) (q.inBlocks others [b₂]) sl.base.join
        alt := false } s.dev q1 d) :
    exec (.next h) s = .next { s with dev := d.putSeq (v :: rest) q1 } := by
  have hretired := retired_of_seqOf hq
  exact exec_next_of hwf hI hl hq (next_pushes_remainder hU hplain hset hown hother hothers hno hpushed)
    ((retired_of_pushed hpushed).trans hretired)

end Pushes

section Pops

variable (hE : Emptied iss q sl) (hfloor : (frameFloor v).getD 0 < q.depth) {d : Device} {lanes : Nat}

include hE hfloor

theorem exec_next_pops_merge {j : BitVec 12} {o : Option (BitVec 12)} (htop : TopEntry v q s.dev (StackEntry.merge j o) lanes d)
    (hback : Nat.land (emptied iss q sl).parked lanes ≠ 0) :
    exec (.next h) s = .next { s with dev := d.putSeq (v :: rest) (Seq.setSlot
      { popped (emptied iss q sl) with parked := without (emptied iss q sl).parked (Nat.land (emptied iss q sl).parked lanes) }
      (q.own.getD false) (taking (v.auto.single j) (Nat.land (emptied iss q sl).parked lanes) o)) } := by
  refine exec_next_of hwf hI hl hq (next_pops_merge hE (own_of_seqOf hI hl hq) hfloor htop hback) ?_
  rw [setSlot_retired]
  exact (emptied_retired iss q sl).trans (retired_of_seqOf hq)

variable {j : Option (BitVec 12)} {st : BitVec 12} (htop : TopEntry v q s.dev (StackEntry.work j) lanes d)
  (hleft : without lanes (atJoin q lanes j) ≠ 0) (hst : v.auto.lookup (q.setOf (without lanes (atJoin q lanes j))) = some st)

include htop hleft hst

/-- NEXT gives a work entry's lanes to the slot, and no other entry is looked at. -/
theorem exec_next_pops_work (hone : q.own.isSome = true ∨ q.depth = (frameFloor v).getD 0 + 1) :
    exec (.next h) s = .next { s with dev := d.putSeq (v :: rest) (workPopped iss q sl lanes j st) } := by
  refine exec_next_of hwf hI hl hq ((next_pops_work hE (own_of_seqOf hI hl hq) hfloor htop hleft hst).trans
    (Seq.popSecond_none ?_)) ((workPopped_retired iss q sl lanes j st).trans (retired_of_seqOf hq))
  rw [workPopped_own, workPopped_depth]
  exact hone.imp id (by omega)

variable (hown : q.own = none) (hmore : (frameFloor v).getD 0 + 1 < q.depth)

include hown hmore

/-- An entry below it that is no work entry under the same join stays. -/
theorem exec_next_pops_one {k o : Option (BitVec 12)} {b : BitVec 12} {w : Nat} {d2 : Device}
    (hsecond : (TopEntry v (popped q) d (StackEntry.work k) w d2 ∧ k ≠ j) ∨ TopEntry v (popped q) d (StackEntry.merge b o) w d2) :
    exec (.next h) s = .next { s with dev := d2.putSeq (v :: rest) (workPopped iss q sl lanes j st) } := by
  refine exec_next_of hwf hI hl hq ((next_pops_work hE (.inl hown) hfloor htop hleft hst).trans ?_)
    ((workPopped_retired iss q sl lanes j st).trans (retired_of_seqOf hq))
  have hnone := (workPopped_own iss q sl lanes j st).trans hown
  have hslot1 := workPopped_slot1 hE hown lanes j st
  have hdepth : (frameFloor v).getD 0 < (workPopped iss q sl lanes j st).depth := by rw [workPopped_depth]; omega
  rcases hsecond with ⟨htop2, hne⟩ | htop2
  · exact Seq.popSecond_other hnone hslot1 hdepth (topEntry_congr htop2 (workPopped_depth ..) (workPopped_high ..)) hne
  · exact Seq.popSecond_merge hnone hslot1 hdepth (topEntry_congr htop2 (workPopped_depth ..) (workPopped_high ..))

/-- A second work entry under the same join goes to slot 1. -/
theorem exec_next_pops_two {w : Nat} {d2 : Device} {st2 : BitVec 12} (htop2 : TopEntry v (popped q) d (StackEntry.work j) w d2)
    (hleft2 : without w (atJoin q w j) ≠ 0) (hst2 : v.auto.lookup (q.setOf (without w (atJoin q w j))) = some st2) :
    exec (.next h) s = .next { s with dev := d2.putSeq (v :: rest) ({ parkedAt (popped (workPopped iss q sl lanes j st)) w j with
      slot1 := taking st2 (without w (atJoin q w j)) j, alt := false }) } := by
  refine exec_next_of hwf hI hl hq ((next_pops_work hE (.inl hown) hfloor htop hleft hst).trans ?_)
    ((workPopped_retired iss q sl lanes j st).trans (retired_of_seqOf hq))
  have hdepth : (frameFloor v).getD 0 < (workPopped iss q sl lanes j st).depth := by rw [workPopped_depth]; omega
  rw [Seq.popSecond_same ((workPopped_own iss q sl lanes j st).trans hown) (workPopped_slot1 hE hown lanes j st) hdepth
    (topEntry_congr htop2 (workPopped_depth ..) (workPopped_high ..))]
  have hjoin := workPopped_atJoin iss q sl lanes j st w
  have hsets := workPopped_setOf iss q sl lanes j st (without w (atJoin q w j))
  rw [← hjoin] at hleft2 hst2 hsets ⊢
  exact Seq.resolve_held (q := { popped (workPopped iss q sl lanes j st) with alt := false }) hleft2 (hsets ▸ hst2)

end Pops

end Rules

/-- A set of blocks is that of some lanes. -/
theorem ne_zero_of_setOf {q : Seq} {m : Nat} {b : BitVec 12} {bs : List (BitVec 12)} (h : q.setOf m = b :: bs) : m ≠ 0 := by
  rintro rfl
  have hnone : q.lanesIn 0 = [] := by simp [Seq.lanesIn, List.filter_eq_nil_iff, bitN_eq]
  rw [Seq.setOf, hnone] at h
  cases h

/-- Settles O21: retirement, the split, the pushes, the full stack and the pops each by their rule. -/
theorem nextRetiresAndSplits : Obligations.NextRetiresAndSplits := by
  unfold Obligations.NextRetiresAndSplits
  refine ⟨?_, ?_, ⟨?_, ?_⟩, ?_⟩
  · intro h hwf s iss v hI hl hlib hdepth hother h0 h1 hexited
    exact next_retires hwf hI hl hlib hdepth hother h0 h1 hexited
  · intro h hwf s iss v hI hl hmode hother hpair r b₁ b₂ bs st q lanes hr hrjoin hjoin hset hdirect hno hst
    have hslot := seqOf_slot_iss (hI.shows_dev hl (List.mem_singleton_self v))
    have hU : Unmapped v iss q { base := v.slot, mask := v.slot.mask.toNat, moved := v.slot.moved.toNat } r lanes :=
      { slot := hslot
        record := hr
        left := by rw [show v.slot.join = none from hjoin]; exact (without_zero _).symm
        some_ := ne_zero_of_setOf hset
        direct := hset ▸ hdirect
        unheld := hset ▸ hno }
    exact next_splits_slots hwf hI hl hmode hother hpair rfl hU hjoin hrjoin hset hst
  · intro h hwf s iss v rest hI hl q sl r lanes hU q0
    refine ⟨?_, ?_⟩
    · intro j st q1 d hj hne hpushed left hleft hst
      exact exec_next_pushes_merge hwf hI hl rfl hU hj hne hpushed hleft hst
    · intro hplain b₁ b₂ bs hset first others
      refine ⟨?_, ?_⟩
      · intro q1 d hbusy hpushed
        exact exec_next_pushes_work hwf hI hl rfl hU hplain hset hbusy hpushed
      · intro q1 d hnone hother hno second hpushed
        exact exec_next_pushes_remainder hwf hI hl rfl hU hplain hset hnone hother rfl hno hpushed
  · intro h hwf s iss v hI hl q sl r lanes hU hfull hpushes
    exact next_full hwf hI hl rfl hU hfull hpushes
  · intro h hwf s iss v rest hI hl q slot floor sl d lanes hE hfloor q0
    have hbelow : floor = (frameFloor v).getD 0 := (frameFloor_getD v).symm
    rw [hbelow] at hfloor ⊢
    refine ⟨?_, ?_⟩
    · intro j st htop left hleft hst q1
      refine ⟨fun hone => exec_next_pops_work hwf hI hl rfl hE hfloor htop hleft hst hone, fun hnone hmore => ⟨?_, ?_⟩⟩
      · intro k o b w d2 hsecond
        exact exec_next_pops_one hwf hI hl rfl hE hfloor htop hleft hst hnone hmore hsecond
      · intro w d2 st2 htop2 left2 hleft2 hst2
        exact exec_next_pops_two hwf hI hl rfl hE hfloor htop hleft hst hnone hmore htop2 hleft2 hst2
    · intro j o htop back hback q1
      exact exec_next_pops_merge hwf hI hl rfl hE hfloor htop hback

end Sys2Proof.Machine
end

section
/-! PROOF of O22: GATE enters a library through a valid entry, and raises GATE otherwise (07 R167; 06 R145). -/

namespace Sys2Proof.Machine

open Sys2Proof Sys2Proof.Claims

/-- The group in which a word acts that acts once has an active lane, where any has. -/
theorem lanes_of_actives {i : Instr} {vs : List View} {u : View} (hact : actives i vs ≠ []) (hu : actingView i vs = some u) :
    Instr.lanes i u ≠ 0 := by
  have hone := actives_acting i vs
  rw [hu, Option.toList_some, activeOnce] at hone
  intro hzero
  rw [actives, List.filter_cons_of_neg (by simp [hzero]), List.filter_nil] at hone
  exact hact ((List.take_eq_nil_iff.mp hone.symm).resolve_left one_ne_zero)

/-- The groups of a chain are of one workgroup, and of one context. -/
theorem Shows.same_wg {d : Device} {iss : Issue} {g g' : Nat} {v u : View} (hv : Shows d iss g v) (hu : Shows d iss g' u) :
    u.wg = v.wg := Option.some.inj (hu.wg_at.symm.trans hv.wg_at)

theorem Shows.same_ctx {d : Device} {iss : Issue} {g g' : Nat} {v u : View} (hv : Shows d iss g v) (hu : Shows d iss g' u) :
    u.ctx = v.ctx := by rw [hu.ctx_eq, hv.ctx_eq, hv.same_wg hu]

/-- A group enters a library at the entry block of its context (06 R145). -/
theorem enter_eq_entered (g : Group) {v u : View} (hctx : u.ctx = v.ctx) (e : BitVec 16 × Nat × BitVec 12) (lanes : Word)
    (upper : List (BitVec 8)) :
    g.enter u.kern.mode16 u.half e.2.2 (entryBlock v e) lanes
      { handle := e.1, kernel := e.2.1, lanes := lanes, depth := u.agent.depth, frame := upper } = entered u e lanes upper g := by
  have hblock : entryBlock u e = entryBlock v e := by rw [entryBlock, hctx]; rfl
  rw [entered, hblock]
  by_cases hmode : u.kern.wmode = 0
  · have hmode16 : u.kern.mode16 = true := by simpa [Kernel.mode16] using hmode
    rw [if_pos hmode]
    cases hhalf : u.half <;> simp [Group.enter, hmode16, Group.setSlot, Group.modAgent, Slot.start, allLanes]
  · have hmode16 : u.kern.mode16 = false := by simpa [Kernel.mode16] using hmode
    rw [if_neg hmode]
    cases hhalf : u.half <;> simp [Group.enter, hmode16, Group.modAgent, Slot.start, allLanes]

/-- The groups of a chain enter a library when the frame can be written (07 R167). -/
theorem enterLibrary_eq {d d' e : Device} {iss : Issue} {v : View} {rest : List View}
    (hshows : ∀ u ∈ v :: rest, Shows e iss u.g u) (entry : BitVec 16 × Nat × BitVec 12) (resume : Word) (lanes : View → Word)
    (hwrite : d.mainWrite (dieOf v.grp.core) v.c (v.entryAddr v.agent.depth) (v.frame resume).bytes = .ok d') :
    enterLibrary d (v :: rest) entry resume lanes = .ok ((v :: rest).foldl (fun d u =>
      d.modGroup u.wg.uid u.g (entered u entry (lanes u) (upperFrame rest resume))) d') := by
  simp only [enterLibrary, hwrite]
  refine congrArg Except.ok (List.foldl_ext _ _ _ (fun a u hu => ?_))
  refine congrArg (a.modGroup u.wg.uid u.g) (funext fun g => ?_)
  exact enter_eq_entered g ((hshows v List.mem_cons_self).same_ctx (hshows u hu)) entry (lanes u) (upperFrame rest resume)

/-- GATE through a valid entry enters the library with room for the frame. -/
theorem gate_enters {h : Hdr} {i : BitVec 8} (hwf : (Instr.gate h i).wf = true) {s : State} {iss : Issue} {v : View}
    {rest : List View} (hI : Issuing s iss (v :: rest)) (hi : i ≠ 0) {e : BitVec 16 × Nat × BitVec 12} {d : Device}
    (hvs : ∀ u ∈ v :: rest, u.library = false ∧ u.gateEntry i.toNat = some e ∧ u.agent.depth + 7 ≤ u.kern.dstack)
    (hact : actives (.gate h i) (v :: rest) ≠ [])
    (hwrite : s.dev.mainWrite (dieOf v.grp.core) v.c (v.entryAddr v.agent.depth) (v.frame iss.next).bytes = .ok d) :
    exec (.gate h i) s = .next { s with dev := (v :: rest).foldl (fun d u =>
      d.modGroup u.wg.uid u.g (entered u e (u.active h) (upperFrame rest iss.next))) d } := by
  obtain ⟨u, hu, hacts⟩ := exists_actingView (.gate h i) v rest
  obtain ⟨huser, hentry, hroom⟩ := hvs u hu
  have henter := enterLibrary_eq (fun u hu => hI.shows hu) e iss.next (fun u => u.active h) hwrite
  rw [exec_eq_runWord (m := meaningGate h i) rfl]
  refine runWord_next hI ?_ ?_
  · rw [Meaning.check_acting hwf (fun _ _ => rfl) rfl rfl rfl rfl hacts]
    refine Meaning.checkRest_ok ?_ (fun _ => if_neg (Nat.not_lt.mpr hroom))
    exact if_neg (by rw [huser, decide_eq_false hi, hentry]; exact Bool.false_ne_true)
  · rw [Meaning.run_acting rfl rfl hacts (.inr (lanes_of_actives hact hacts))]
    have hviews := hI.viewsOf_view hu
    rw [(hI.shows hu).iss_eq] at hviews
    simp only [meaningGate, hentry, (hI.shows hu).iss_eq, hviews, henter]

/-- GATE through entry 0, through no valid entry, or from a library traps. -/
theorem gate_traps {h : Hdr} {i : BitVec 8} (hwf : (Instr.gate h i).wf = true) {s : State} {iss : Issue} {v : View}
    (hI : Issuing s iss [v]) (hno : i = 0 ∨ v.library = true ∨ v.gateEntry i.toNat = none) :
    exec (.gate h i) s = .next (s.trap iss (.gate h i) { cause := causeGate, detail := i.toNat, lanes := none }) := by
  have hwords : (meaningGate h i).words v = .fail causeGate i.toNat := by
    refine if_pos ?_
    rcases hno with rfl | hlib | hentry
    · simp
    · simp [hlib]
    · simp [hentry]
  have hrest : (meaningGate h i).checkRest (.gate h i) v (Instr.lanes (.gate h i) v) = .fail causeGate i.toNat := by
    rw [Meaning.checkRest, hwords]
    rfl
  rw [exec_eq_runWord (m := meaningGate h i) rfl]
  exact runWord_trap hI (Meaning.check_rest hwf rfl (fun p hp => absurd hp (by simp [meaningGate])) hrest (Check.fail_ne_ok _ _))

/-- Settles O22: GATE by the gate table, the frame's room and its write. -/
theorem gateEntersOrTraps : Obligations.GateEntersOrTraps := by
  unfold Obligations.GateEntersOrTraps
  refine ⟨?_, ?_⟩
  · intro h i hwf s iss v rest hI hi e d hvs hact hwrite
    exact gate_enters hwf hI hi hvs hact hwrite
  · intro h i hwf s iss v hI hno
    exact gate_traps hwf hI hno

end Sys2Proof.Machine
end

section
/-! PROOF that O23 fails (07 R169; 06 R150; 16 R281): a GRET in the lower half of a pair whose upper half has no slot to issue in. -/

namespace Sys2Proof.Machine

open Sys2Proof Sys2Proof.Claims

/-! ## A pair whose library returns -/

/-- BARWAIT of the object in cell 0 and the token in slice 0. -/
def waitsObject : Instr := .barwait plainHdr 0 0

/-- The frame of the caller: slot 0 empty, and slot 1 without lanes in the wait of the chain at its second packet. -/
def waitingFrame : SeqRec :=
  { slot0 := none, slot1 := some { placedSlot with mask := 0, wait := .bar 0 false }, wait0 := false, wait1 := true, parked := 0,
    exited := 0, depth := 0, depth1 := 0, alt := false, lib := none, lbr := [], link := [] }

/-- The memory of the context: tables that map page 1 to the physical page 0, where they and the frame stand, and no other. -/
def framedMemory : Memory :=
  Memory.putBytes (Memory.putNum (Memory.putNum [] 0 8 1) 8 8 0x0F) 8448 waitingFrame.bytes

/-- The context: its kernel's code is the BARWAIT, its spill areas begin in page 1, and its tables at physical 0. -/
def returningContext : Context :=
  { (State.reset.placed []).dev.ctx 0 with
    root := 0
    regions := [{ kind := 4, sub := 0, sec := false, r := true, w := true, size := 0x20000, base := 0x10000, phys := 0, handle := none,
                  bytes := [] }]
    lockets := [{ handle := 1, dbg := false, image := [], kernels := [{ placedKernel (encode waitsObject) with wmode := 2 }],
                  graphs := [] }] }

/-- The lower half: in a library entered at depth 0, in slot 0, with its cells resident. -/
def returningLower : Group :=
  { pairHalf false [0] with
    agent0 := { Agent.start 32 with
      library := some { handle := 1, kernel := 0, lanes := 0xFFFFFFFF, depth := 0, frame := [] }
      depth := 7 } }

/-- The upper half: in slot 1 alone, its cell evicted to a spill area that no table maps. -/
def evictedUpper : Group :=
  { pairHalf true [] with
    cells := [{ cell := .u 0, evicted := true, used := 0 }], slot0 := none, slot1 := some placedSlot, spill := 6 }

/-- The state in which the lower half issues alone: its partner has no lanes in slot 0. -/
def returning : State :=
  { dev := { ((State.reset.placed []).dev.setCtx 0 returningContext) with
      hbm := framedMemory
      wgs := [{ placedWorkgroup 0 with groups := [returningLower, evictedUpper] }] }
    issue := some pairIssue, latch := none, turn := .partition 0 0, inputs := [] }

/-- What its instructions read. -/
def returningView : View := (viewsOf returning.dev pairIssue).headD default

theorem returning_views : viewsOf returning.dev pairIssue = [returningView] := by
  obtain ⟨v, hv⟩ := List.length_eq_one_iff.mp (show (viewsOf returning.dev pairIssue).length = 1 by decide +kernel)
  rw [returningView, hv, List.headD_cons]

theorem returning_issuing : Issuing returning pairIssue [returningView] where
  issue := rfl
  views := returning_views
  acts := List.cons_ne_nil _ _
  intact := fun _ _ _ => List.not_mem_nil

/-- The frame's record, where it can be read. -/
def returningFrame : Option SeqRec :=
  match returning.dev.mainRead (dieOf returningView.grp.core) returningView.c
    (returningView.entryAddr (returningView.agent.depth - 7)) 224 with
  | .ok (b, _) => SeqRec.ofBytes b false
  | .error _ => none

/-- The frame is there, and is one of a caller. -/
theorem returning_frame : ∃ (b : List (BitVec 8)) (d : Device) (r : SeqRec),
    returning.dev.mainRead (dieOf returningView.grp.core) returningView.c
      (returningView.entryAddr (returningView.agent.depth - 7)) 224 = .ok (b, d) ∧ SeqRec.ofBytes b false = some r ∧ r.lib = none := by
  have hframe : returningFrame.map SeqRec.lib = some none := by decide +kernel
  unfold returningFrame at hframe
  cases hread : returning.dev.mainRead (dieOf returningView.grp.core) returningView.c
    (returningView.entryAddr (returningView.agent.depth - 7)) 224 with
  | error f => rw [hread] at hframe; cases hframe
  | ok p =>
    rw [hread] at hframe
    obtain ⟨r, hr, hlib⟩ := Option.map_eq_some_iff.mp hframe
    exact ⟨p.1, p.2, r, rfl, hr, hlib⟩

/-- Refutes O23: the frame that GRET restores has slot 1 in a wait, whose chain in a pair acts for both halves. The statement asks
that the cells of the issuing group be resident, but here the lanes that the wait reads are those of the upper half, which has none
in the slot that issues and so is no group of the chain; its cell is evicted, and the refill faults. The machine stops the context
and leaves the group in its library, where the statement has it return. -/
theorem not_returnsRestoreFrame : ¬ Obligations.ReturnsRestoreFrame := by
  intro h
  obtain ⟨⟨hreturns, -⟩, -⟩ := h
  obtain ⟨b, d, r, hread, hr, hlib⟩ := returning_frame
  obtain ⟨t, g, ht, hg, hrestored⟩ := hreturns plainHdr (by decide) returning pairIssue returningView returning_issuing rfl
    (by decide +kernel) (by decide +kernel) (by decide +kernel) b d r hread hr hlib (.inr ⟨by decide +kernel, rfl⟩)
  have hmodel : seenAfter 0 (fun g => g.agent0.library.isSome) (exec (.gret plainHdr) returning) = some true := by decide +kernel
  have hclaim : g.agent0.library = none := by
    have hagent := hrestored.agent
    rw [show returningView.half = false by decide +kernel] at hagent
    exact congrArg Agent.library hagent
  have hwhere : returningView.wg.uid = 0 ∧ returningView.g = 0 := by decide +kernel
  rw [hwhere.1, hwhere.2] at hg
  rw [ht, seenAfter, nextState, Option.bind_some, hg, Option.map_some, hclaim] at hmodel
  exact absurd hmodel (by decide)

end Sys2Proof.Machine
end

section
/-! PROOF O33. The events that wake a slot, one rule per wait, and the admission of held arrivals as two folds. -/

namespace Sys2Proof.Machine

open Sys2Proof Sys2Proof.Claims

/-! ## The slot that wakes -/

theorem Device.slotOf_eq_some {d : Device} {r : SlotRef} {w : Workgroup} {g : Group} {x : Slot}
    (h : d.slotOf r = some (w, g, x)) : d.wg r.wg = some w ∧ w.groups[r.g]? = some g ∧ g.slot r.slot = some x := by
  unfold slotOf at h
  cases hw : d.wg r.wg with
  | none => simp [hw] at h
  | some w' =>
    cases hg : w'.groups[r.g]? with
    | none => simp [hw, hg] at h
    | some g' =>
      cases hs : g'.slot r.slot with
      | none => simp [hw, hg, hs] at h
      | some x' =>
        simp only [hw, hg, hs, Option.ite_none_right_eq_some, Option.some.injEq, Prod.mk.injEq] at h
        obtain ⟨-, rfl, rfl, rfl⟩ := h
        exact ⟨rfl, hg, hs⟩

theorem groupAt_modSlot_modGroup {d : Device} {uid g : Nat} {x : Group} (h : groupAt d uid g = some x) (a : Group → Group)
    (n : Bool) (f : Slot → Slot) :
    groupAt ((d.modGroup uid g a).modSlot uid g n f) uid g = some ((a x).setSlot n (((a x).slot n).map f)) := by
  rw [Device.modSlot, groupAt_modGroup, groupAt_modGroup, h]
  simp

@[simp] theorem Group.modAgent_slot (g : Group) (half n : Bool) (f : Agent → Agent) : (g.modAgent half f).slot n = g.slot n := by
  cases half <;> cases n <;> rfl

theorem Group.setSlot_slot (g : Group) (n : Bool) (s : Option Slot) : (g.setSlot n s).slot n = s := by cases n <;> rfl

section
variable {s : State} {r : SlotRef} {w : Workgroup} {g : Group} {x : Slot} (h : s.dev.slotOf r = some (w, g, x))
include h

/-! ## SLEEP, BARWAIT, CWAIT and MWAIT -/

theorem exec_sleepExpire_sleeper (hx : x.wait = .sleep) :
    exec (.sleepExpire r) s = .next (if x.wake.toNat ≤ s.dev.cyc.toNat then
      { s with dev := s.dev.modSlot r.wg r.g r.slot (fun y => { y with wait := .awake, wake := 0 }) } else s) := by
  simp only [exec, execSleepExpire, h, hx]
  by_cases hc : x.wake.toNat ≤ s.dev.cyc.toNat <;> simp [hc]

theorem exec_waitWake_lost {f : CtxFault} (hf : s.dev.waitLost w g x.wait = some f) :
    exec (.waitWake r) s = .next { s with dev := s.dev.contextFault w.ctx f } := by
  simp only [exec, execWaitWake, h, hf]

theorem exec_waitWake_kept (hf : s.dev.waitLost w g x.wait = none) :
    exec (.waitWake r) s =
      .next (if s.dev.waitOver w g r.slot x.wait then { s with dev := s.dev.returnWait w r.g r.slot x.wait } else s) := by
  simp only [exec, execWaitWake, h, hf]
  split <;> rfl

variable {k : Kernel} (hk : (s.dev.ctx w.ctx).kernel w.handle w.kernel = some k)
include hk

theorem returnWait_of_slotOf (slot : Bool) (y : Wait) : s.dev.returnWait w r.g slot y =
    (s.dev.modGroup r.wg r.g (fun x => x.modAgent (k.mode16 && slot)
      (fun a => if y.counted then { a with phases := a.phases + 1 } else a))).modSlot r.wg r.g slot Slot.goOn := by
  obtain ⟨hw, -, -⟩ := Device.slotOf_eq_some h
  simp only [Device.returnWait, Device.halfOf, hk, Device.wg_uid hw]

theorem groupAt_returnWait (y : Wait) : ∃ half f,
    groupAt (s.dev.returnWait w r.g r.slot y) r.wg r.g = some ((g.modAgent half f).setSlot r.slot (some x.goOn)) := by
  obtain ⟨hw, hg, hs⟩ := Device.slotOf_eq_some h
  rw [returnWait_of_slotOf h hk, groupAt_modSlot_modGroup (groupAt_eq_some hw hg), Group.modAgent_slot, hs]
  exact ⟨_, _, rfl⟩

/-- A wait on an object: INTEGRITY when an error has lost it, else its return when its phase has changed (09 R207; 21 R333). -/
theorem exec_waitWake_object {obj : Word} {tok : Bool} {o : ObjRef} (hx : x.wait = .bar obj tok ∨ x.wait = .copy obj tok)
    (ho : objectAt w k.shared g.core obj.toNat = some o) :
    exec (.waitWake r) s = .next (match s.dev.lostIn o.space o.off 8 with
      | some f => { s with dev := s.dev.contextFault w.ctx f }
      | none => if s.dev.phase o ≠ tok then
          { s with dev := (s.dev.modGroup r.wg r.g (fun y => y.modAgent (k.mode16 && r.slot)
            (fun a => { a with phases := a.phases + 1 }))).modSlot r.wg r.g r.slot Slot.goOn } else s) := by
  have hlost : s.dev.waitLost w g x.wait = s.dev.lostIn o.space o.off 8 := by
    rcases hx with hx | hx <;> simp only [hx, Device.waitLost, hk, ho, Device.objectLost]
  have hover : s.dev.waitOver w g r.slot x.wait = (s.dev.phase o != tok) := by
    rcases hx with hx | hx <;> simp only [hx, Device.waitOver, hk, ho]
  have hcount : x.wait.counted = true := by rcases hx with hx | hx <;> rw [hx] <;> rfl
  cases hl : s.dev.lostIn o.space o.off 8 with
  | some f => exact exec_waitWake_lost h (hlost.trans hl)
  | none =>
    rw [exec_waitWake_kept h (hlost.trans hl), hover, returnWait_of_slotOf h hk, hcount]
    simp only [bne_iff_ne, if_true]

/-- MWAIT returns when the batch that it waits for has retired (10 R219). -/
theorem exec_waitWake_matrix {n : Word} (hx : x.wait = .matrix n)
    (hdone : (g.agent (k.mode16 && r.slot)).batchDone n = true) :
    ∃ t y, exec (.waitWake r) s = .next t ∧ groupAt t.dev r.wg r.g = some y ∧
      slotParts (y.slot r.slot) = slotParts (some { x with wake := 0, addr := x.resume }) ∧ y.cells = g.cells := by
  have hlost : s.dev.waitLost w g x.wait = none := by rw [hx]; rfl
  have hover : s.dev.waitOver w g r.slot x.wait = true := by simpa only [hx, Device.waitOver, hk] using hdone
  obtain ⟨half, f, hat⟩ := groupAt_returnWait h hk x.wait
  refine ⟨_, _, by rw [exec_waitWake_kept h hlost, if_pos hover], hat, ?_, ?_⟩
  · rw [Group.setSlot_slot]
    rfl
  · rw [setSlot_cells, modAgent_cells]

end

/-! ## SLEEPUNTIL -/

/-- With no log and no replay, the phase check of a SLEEPUNTIL passes when the object has left the phase, and raises PROMISE
when it has not (08 R182). -/
theorem View.untilEnd_quiet {d : Device} {v : View} (hq : Quiet d v) (hc : v.ctx = d.ctx v.c) (o : ObjRef) (tok : Bool) :
    v.untilEnd d o tok = if d.phase o ≠ tok then
      .pass (d.modGroup v.wg.uid v.home (fun y => y.modAgent v.half (fun a => { a with phases := a.phases + 1 })))
    else .trap causePromise d := by
  obtain ⟨hreplay, hlogs⟩ := hq
  have harr (n : Nat) : v.arrival d 7 unitDist n = .ok d := by simp [View.arrival, hreplay, hlogs]
  by_cases hp : d.phase o = tok <;> simp [View.untilEnd, hc, hreplay, hlogs, harr, hp]

section
variable {s : State} {r : SlotRef} {w : Workgroup} {g : Group} {x : Slot} (h : s.dev.slotOf r = some (w, g, x))
  {obj : Word} {tok : Bool} (hx : x.wait = .until obj tok)
include h hx

theorem exec_sleepuntilDeadline_early (hc : s.dev.cyc.toNat < x.wake.toNat) : exec (.sleepuntilDeadline r) s = .next s := by
  simp only [exec, execSleepuntilDeadline, h, hx, if_pos hc]

variable {v : View} {o : ObjRef}
  (hv : viewOf s.dev { Issue.start r.wg (g.home r.g) r.slot x.addr with next := x.resume } r.g = some v)
  (ho : v.object obj.toNat = some o) (hc : x.wake.toNat ≤ s.dev.cyc.toNat)
include hv ho hc

theorem exec_sleepuntilDeadline_lost {f : CtxFault} (hf : s.dev.lostIn o.space o.off 8 = some f) :
    exec (.sleepuntilDeadline r) s = .next { s with dev := s.dev.contextFault v.c f } := by
  simp only [exec, execSleepuntilDeadline, h, hx, if_neg (not_lt.mpr hc), hv, ho, Device.objectLost, hf]

variable (hf : s.dev.lostIn o.space o.off 8 = none) (hq : Quiet s.dev v)
include hf hq

theorem exec_sleepuntilDeadline_left (hp : s.dev.phase o ≠ tok) : exec (.sleepuntilDeadline r) s =
    .next { s with dev := (s.dev.modGroup r.wg (g.home r.g) (fun y => y.modAgent v.half
      (fun a => { a with phases := a.phases + 1 }))).modSlot r.wg r.g r.slot Slot.goOn } := by
  have hS := viewOf_shows hv
  obtain ⟨hw, hg, -⟩ := Device.slotOf_eq_some h
  have hwg : v.wg = w := Option.some.inj (hS.wg_at.symm.trans hw)
  have hgrp : v.grp = g := by
    have hgrp := hS.grp_at
    rw [hwg, hg] at hgrp
    exact (Option.some.inj hgrp).symm
  have hend := View.untilEnd_quiet hq hS.ctx_eq o tok
  rw [if_pos hp, View.home, hS.g_eq, hgrp, hwg, Device.wg_uid hw] at hend
  simp only [exec, execSleepuntilDeadline, h, hx, if_neg (not_lt.mpr hc), hv, ho, Device.objectLost, hf, hend]

theorem exec_sleepuntilDeadline_promise (hp : s.dev.phase o = tok) :
    let d := s.dev.modSlot r.wg r.g r.slot (fun y => { y with wait := .awake, wake := 0 })
    let iss : Issue := { Issue.start r.wg (g.home r.g) r.slot x.addr with next := x.resume }
    let t : Trap := { cause := causePromise, detail := x.wake.toNat, lanes := none }
    exec (.sleepuntilDeadline r) s = .next { s with dev := takeTrap d (viewsAt d iss) t 0 (fun u => u.waitLanes) } := by
  have hend := View.untilEnd_quiet hq (viewOf_shows hv).ctx_eq o tok
  rw [if_neg (not_not.mpr hp)] at hend
  simp only [exec, execSleepuntilDeadline, h, hx, if_neg (not_lt.mpr hc), hv, ho, Device.objectLost, hf, hend]
  rw [untilTrap, if_pos rfl]

end

/-! ## Held arrivals -/

theorem retireInOrder_foldl (l : List Request) (d : Device) :
    RetireInOrder l d (l.foldl (fun d r => match d.request r.id with | some x => d.retireRequest x | none => d) d) := by
  induction l generalizing d with
  | nil => rfl
  | cons r l ih =>
    simp only [RetireInOrder, List.foldl_cons]
    cases d.request r.id with
    | some x => exact ih (d.retireRequest x)
    | none => exact ih d

theorem batchesInOrder_foldl (l : List (Nat × Nat × Bool)) (d : Device) :
    BatchesInOrder l d (l.foldl (fun d p => d.batches p.1 p.2.1 p.2.2) d) := by
  induction l generalizing d with
  | nil => rfl
  | cons p l ih => exact ih _

theorem Request.isFetch_eq_false_iff (r : Request) : r.isFetch = false ↔ ∀ o, r.work ≠ .fetch o := by
  cases hw : r.work <;> simp [isFetch, hw]

theorem Device.mem_heldAt (d : Device) (c : BitVec 6) (unit : BitVec 10) (r : Request) : r ∈ d.heldAt c unit ↔
    r ∈ d.requests ∧ r.ctx = c ∧ (∀ o, r.work ≠ .fetch o) ∧ d.canServe r = true ∧ r.total ≤ r.done ∧
      d.objectIn r.wg r.bar r.core unit = true := by
  rw [heldAt, List.mem_filter, ← Request.isFetch_eq_false_iff]
  simp only [Bool.and_eq_true, beq_iff_eq, Bool.not_eq_true', decide_eq_true_eq, and_assoc]

theorem exec_arrivalAdmit_inactive {s : State} {c : BitVec 6} (h : (s.dev.ctx c).state ≠ .active) (unit : BitVec 10) :
    exec (.arrivalAdmit c unit) s = .next s := by
  simp [exec, execArrivalAdmit, h]

theorem exec_arrivalAdmit_active {s : State} {c : BitVec 6} (h : (s.dev.ctx c).state = .active) (unit : BitVec 10) :
    ∃ d e, RetireInOrder (s.dev.heldAt c unit) s.dev d ∧ BatchesInOrder (d.batchesAt c unit) d e ∧
      exec (.arrivalAdmit c unit) s = .next { s with dev := e } := by
  refine ⟨_, _, retireInOrder_foldl _ _, batchesInOrder_foldl _ _, ?_⟩
  rw [exec, execArrivalAdmit, h, if_pos (beq_self_eq_true _)] <;> rfl

/-- Settles O33: each wait has its rule above, and the admission is the two folds. -/
theorem wakesAndHeldArrivals : Obligations.WakesAndHeldArrivals := by
  unfold Obligations.WakesAndHeldArrivals
  refine ⟨fun s r w g x h => ⟨exec_sleepExpire_sleeper h, fun k hk obj tok o hx ho => exec_waitWake_object h hk hx ho,
    fun k hk n hx hdone => exec_waitWake_matrix h hk hx hdone, fun obj tok v o hx hv ho hq =>
      ⟨exec_sleepuntilDeadline_early h hx, fun f hc hf => exec_sleepuntilDeadline_lost h hx hv ho hc hf,
        fun hc hf hp => exec_sleepuntilDeadline_left h hx hv ho hc hf hq hp,
        fun hc hf hp => exec_sleepuntilDeadline_promise h hx hv ho hc hf hq hp⟩⟩,
    fun s c unit => ⟨fun h => exec_arrivalAdmit_inactive h unit, fun h => exec_arrivalAdmit_active h unit,
      s.dev.mem_heldAt c unit⟩⟩

end Sys2Proof.Machine
end

section
/-! PROOF O46. The place that PLACEMENT chooses (15 R262 to R264), and the workgroup that it puts there. -/

namespace Sys2Proof.Machine

open Sys2Proof Sys2Proof.Claims

/-! ## Masks of lanes -/

/-- The lanes below `n` that satisfy `p`, as a number. -/
def lanesBelow (p : Nat → Bool) (n : Nat) : Nat := (List.range n).foldl (fun acc i => if p i then acc + 2 ^ i else acc) 0

theorem lanesBelow_succ (p : Nat → Bool) (n : Nat) :
    lanesBelow p (n + 1) = if p n then 2 ^ n + lanesBelow p n else lanesBelow p n := by
  rw [lanesBelow, List.range_succ, List.foldl_append, ← lanesBelow, Nat.add_comm (2 ^ n)]
  rfl

theorem lanesBelow_lt (p : Nat → Bool) (n : Nat) : lanesBelow p n < 2 ^ n := by
  induction n with
  | zero => exact Nat.one_pos
  | succ n ih =>
    rw [lanesBelow_succ, Nat.pow_succ]
    split <;> omega

theorem testBit_lanesBelow (p : Nat → Bool) (n i : Nat) : (lanesBelow p n).testBit i = (decide (i < n) && p i) := by
  induction n with
  | zero => simp [lanesBelow]
  | succ n ih =>
    rcases Nat.lt_trichotomy i n with h | rfl | h
    · rw [lanesBelow_succ, decide_eq_true (show i < n + 1 by omega)]
      rw [decide_eq_true h] at ih
      split
      · rw [Nat.testBit_two_pow_add_gt h, ih]
      · exact ih
    · have hlow : (lanesBelow p i).testBit i = false := Nat.testBit_lt_two_pow (lanesBelow_lt p i)
      rw [lanesBelow_succ, decide_eq_true (Nat.lt_succ_self i), Bool.true_and]
      cases p i with
      | true => rw [if_pos rfl, Nat.testBit_two_pow_add_eq, hlow]; rfl
      | false => rw [if_neg Bool.false_ne_true, hlow]
    · rw [decide_eq_false (show ¬ i < n + 1 by omega), Bool.false_and]
      exact Nat.testBit_lt_two_pow ((lanesBelow_lt p (n + 1)).trans_le (Nat.pow_le_pow_right (by decide) h))

theorem hasLane_maskOf (p : Nat → Bool) {i : Nat} (hi : i < 32) : hasLane (maskOf p) i = p i := by
  have hnum : maskOf p = BitVec.ofNat 32 (lanesBelow p 32) := rfl
  rw [hasLane_eq, hnum, BitVec.getLsbD_ofNat, testBit_lanesBelow, decide_eq_true hi, Bool.true_and, Bool.true_and]

/-! ## The best place (15 R264) -/

/-- The choice of the least loaded place of a list among those where something fits, the first of them. -/
def Leads {α : Type} (fit : BitVec 8 → Option α) (load : BitVec 8 → Nat) (l : List (BitVec 8)) : Option (BitVec 8 × α) → Prop
  | none => ∀ q ∈ l, fit q = none
  | some (o, x) => fit o = some x ∧ ∃ before after, l = before ++ o :: after ∧
      (∀ q ∈ before, (fit q).isSome = true → load o < load q) ∧ ∀ q ∈ after, (fit q).isSome = true → load o ≤ load q

/-- A choice with one more place looked at. -/
def lead {α : Type} (fit : BitVec 8 → Option α) (load : BitVec 8 → Nat) (best : Option (BitVec 8 × α)) (o : BitVec 8) :
    Option (BitVec 8 × α) :=
  match fit o with
  | none => best
  | some x =>
    match best with
    | none => some (o, x)
    | some b => if load o < load b.1 then some (o, x) else best

theorem Leads.concat {α : Type} {fit : BitVec 8 → Option α} {load : BitVec 8 → Nat} {l : List (BitVec 8)}
    {best : Option (BitVec 8 × α)} (h : Leads fit load l best) (o : BitVec 8) :
    Leads fit load (l ++ [o]) (lead fit load best o) := by
  cases hfit : fit o with
  | none =>
    simp only [lead, hfit]
    cases best with
    | none => simpa [Leads, hfit, or_imp, forall_and] using h
    | some b =>
      obtain ⟨hb, before, after, rfl, hbefore, hafter⟩ := h
      refine ⟨hb, before, after ++ [o], by simp, hbefore, fun q hq hs => ?_⟩
      rcases List.mem_append.mp hq with hq | hq
      · exact hafter q hq hs
      · rw [List.mem_singleton.mp hq, hfit] at hs
        cases hs
  | some x =>
    simp only [lead, hfit]
    cases best with
    | none =>
      refine ⟨hfit, l, [], rfl, fun q hq hs => ?_, by simp⟩
      rw [h q hq] at hs
      cases hs
    | some b =>
      obtain ⟨hb, before, after, rfl, hbefore, hafter⟩ := h
      dsimp only
      split
      next hlt =>
        refine ⟨hfit, _, [], rfl, fun q hq hs => ?_, by simp⟩
        rcases List.mem_append.mp hq with hq | hq
        · exact hlt.trans (hbefore q hq hs)
        · rcases List.mem_cons.mp hq with rfl | hq
          · exact hlt
          · exact hlt.trans_le (hafter q hq hs)
      next hle =>
        refine ⟨hb, before, after ++ [o], by simp, hbefore, fun q hq hs => ?_⟩
        rcases List.mem_append.mp hq with hq | hq
        · exact hafter q hq hs
        · rw [List.mem_singleton.mp hq]
          exact not_lt.mp hle

theorem leads_foldl {α : Type} (fit : BitVec 8 → Option α) (load : BitVec 8 → Nat) (l : List (BitVec 8)) :
    Leads fit load l (l.foldl (lead fit load) none) := by
  induction l using List.reverseRecOn with
  | nil => exact fun q hq => absurd hq List.not_mem_nil
  | append_singleton l o ih =>
    rw [List.foldl_append]
    exact ih.concat o

theorem bestPlace_eq (d : Device) (k : Kernel) (sec : Bool) (threads : Nat) : d.bestPlace k sec threads =
    (placeOrigins k.quad).foldl (lead (d.fitAt k sec threads) (residents d k)) none := by
  unfold Device.bestPlace
  dsimp only
  congr 1
  funext best o
  cases hfit : d.fitAt k sec threads o with
  | none => simp only [lead, hfit]
  | some l => cases best <;> simp only [lead, hfit, residents, List.sum_eq_foldl]

theorem bestPlace_leads (d : Device) (k : Kernel) (sec : Bool) (threads : Nat) :
    Leads (d.fitAt k sec threads) (residents d k) (placeOrigins k.quad) (d.bestPlace k sec threads) := by
  rw [bestPlace_eq]
  exact leads_foldl _ _ _

theorem coreHolds_of_segmentFits {d : Device} {k : Kernel} {sec : Bool} {core : BitVec 8}
    (h : d.segmentFits k sec core = true) : CoreHolds d k sec core := by
  simp only [Device.segmentFits, Bool.and_eq_true, decide_eq_true_eq] at h
  obtain ⟨⟨⟨⟨⟨hlive, hworld⟩, hshared⟩, htiles⟩, hlocks⟩, -⟩ := h
  simp only [Device.coreLive, Bool.and_eq_true, Bool.not_eq_true', List.contains_eq_mem, decide_eq_true_eq,
    decide_eq_false_iff_not] at hlive
  simp only [Device.coreWorld, List.contains_eq_mem, beq_iff_eq] at hworld
  exact ⟨hlive.1, hlive.2, by rw [← hworld, decide_eq_true_eq], hshared, htiles, hlocks⟩

theorem coreHolds_of_fitAt {d : Device} {k : Kernel} {sec : Bool} {threads : Nat} {o : BitVec 8} {ps : List Placing}
    (h : d.fitAt k sec threads o = some ps) : ∀ core ∈ placeCores k.quad o, CoreHolds d k sec core := by
  intro core hcore
  by_cases hall : (placeCores k.quad o).all (d.segmentFits k sec) = true
  · exact coreHolds_of_segmentFits (List.all_eq_true.mp hall core hcore)
  · simp [Device.fitAt, hall] at h

/-! ## The placed workgroup (06 R127 to R134) -/

theorem placingOf_fst (ps : List Placing) (j : Nat) : (placingOf ps j).1 = j := by
  unfold placingOf
  cases h : ps.find? (fun p => p.1 == j) with
  | none => rfl
  | some p => simpa using List.find?_some h

/-- The thread of a present lane is one of the launch's (06 R128; 15 R263; 16 R280). -/
theorem hasLane_presentLanes (k : Kernel) (threads j : Nat) {i : Nat} (hi : i < 32) :
    hasLane (k.presentLanes threads j) i = decide (threadOf k j i < threads) := by
  rw [Kernel.presentLanes, hasLane_maskOf _ hi]
  congr 2
  have hhalf : (if decide (16 ≤ i) = true then 1 else 0) = i / 16 := by
    by_cases h : 16 ≤ i <;> simp [h] <;> omega
  cases hm : k.mode16 with
  | false =>
    have hw : k.wmode ≠ 0 := by simpa [Kernel.mode16] using hm
    have hthread : threadOf k j i = 32 * j + i := if_neg (fun h => hw h.1)
    rw [hthread]
    rfl
  | true =>
    have hw : k.wmode = 0 := by simpa [Kernel.mode16] using hm
    cases hq : k.quad with
    | false =>
      simp only [Kernel.indexAt, hm, hq, threadOf, Bool.not_true, Bool.false_eq_true, if_false, if_true, and_false, hhalf]
      omega
    | true =>
      have h4 : (if decide (16 ≤ i) = true then 4 else 0) = 4 * (i / 16) := by rw [← hhalf]; split <;> rfl
      simp only [Kernel.indexAt, hm, hq, threadOf, hw, Bool.not_true, Bool.false_eq_true, if_false, if_true, and_self, h4]

section
variable (d : Device) (c : BitVec 6) (k : Kernel) (r : LaunchRec) (n : Nat) (o : BitVec 8) (ps : List Placing) (areas : List Nat)

theorem newWorkgroup_length : (d.newWorkgroup c k r n o ps areas).groups.length = k.hwCount r.threads := by
  simp [Device.newWorkgroup]

theorem newWorkgroup_group {j : Nat} {g : Group} (h : (d.newWorkgroup c k r n o ps areas).groups[j]? = some g) :
    g.index = j ∧ g.present = k.presentLanes r.threads j := by
  simp only [Device.newWorkgroup, List.getElem?_map, Option.map_eq_some_iff, List.getElem?_eq_some_iff,
    List.getElem_range] at h
  obtain ⟨_, ⟨-, rfl⟩, rfl⟩ := h
  exact ⟨placingOf_fst ps j, congrArg (k.presentLanes r.threads) (placingOf_fst ps j)⟩

end

/-! ## The ordinal taken -/

theorem Context.launch_modLaunch {x : Context} {tag : Word} {l : Launch} (h : x.launch tag = some l) {f : Launch → Launch}
    (hlive : ∀ y, y.live = true → (f y).live = true) (hrec : ∀ y, (f y).record = y.record) :
    (x.modLaunch tag f).launch tag = some (f l) := by
  have hsame (y : Launch) : ((fun l => l.live && l.record.op == 1 && l.record.tag == tag) ∘ fun l =>
      if l.live && l.record.op == 1 && l.record.tag == tag then f l else l) y =
      (y.live && y.record.op == 1 && y.record.tag == tag) := by
    simp only [Function.comp_apply]
    split
    next hy =>
      simp only [Bool.and_eq_true] at hy
      simp only [hlive y hy.1.1, hrec, hy.1.1]
    next => rfl
  have hl := List.find?_some h
  simp only [Context.launch, Context.modLaunch, List.find?_map, funext hsame]
  rw [← Context.launch, h]
  simp only [Option.map_some, hl, if_true]

theorem Context.launch_tag {x : Context} {tag : Word} {l : Launch} (h : x.launch tag = some l) : l.record.tag = tag := by
  have hl := List.find?_some h
  simp only [Bool.and_eq_true, beq_iff_eq] at hl
  exact hl.2

/-- A launch with one more ordinal taken. -/
def ordinalTaken (l y : Launch) : Launch :=
  let full := decide (l.record.total ≤ l.taken + 1)
  { y with taken := y.taken + 1, state := if full then .running else y.state, inRing := y.inRing && !full }

theorem ordinalTaken_live (l : Launch) {y : Launch} (h : y.live = true) : (ordinalTaken l y).live = true := by
  simp only [ordinalTaken, Launch.live]
  split
  · rfl
  · exact h

theorem takeOrdinal_wgs (d : Device) (c : BitVec 6) (l : Launch) : (d.takeOrdinal c l).wgs = d.wgs := by
  simp only [Device.takeOrdinal]
  split <;> rfl

theorem ctx_takeOrdinal (d : Device) (c : BitVec 6) (l : Launch) :
    (d.takeOrdinal c l).ctx c = (d.ctx c).modLaunch l.record.tag (ordinalTaken l) := by
  have hcontexts : (d.takeOrdinal c l).contexts =
      (d.modCtx c (fun x => x.modLaunch l.record.tag (ordinalTaken l))).contexts := by
    unfold Device.takeOrdinal ordinalTaken
    dsimp only
    generalize decide (l.record.total ≤ l.taken + 1) = full
    cases full <;> rfl
  calc (d.takeOrdinal c l).ctx c = (d.modCtx c (fun x => x.modLaunch l.record.tag (ordinalTaken l))).ctx c :=
        congrArg (tableGet Context.free · c.toNat) hcontexts
    _ = _ := by rw [Device.ctx_modCtx, if_pos rfl]

theorem launch_takeOrdinal {d : Device} {c : BitVec 6} {l : Launch} {tag : Word} (h : (d.ctx c).launch tag = some l) :
    (((d.takeOrdinal c l).ctx c).launch tag).map Launch.taken = some (l.taken + 1) := by
  rw [ctx_takeOrdinal, Context.launch_tag h,
    Context.launch_modLaunch h (fun _ => ordinalTaken_live l) (fun _ => rfl)]
  rfl

/-! ## One decision -/

/-- With no RESUME running, PLACEMENT makes its one decision at once (17 R303). -/
theorem resumes_of_none {d : Device} (h : ∀ c, ¬ ((d.ctx c).state = .stopped ∧ (d.ctx c).mailbox.command = 5)) :
    d.resumes = d := by
  refine List.foldl_fixed' (fun n => ?_) _
  refine if_neg ?_
  simpa using h (BitVec.ofNat 6 n)

theorem exec_placement {s : State} (h : ∀ c, ¬ ((s.dev.ctx c).state = .stopped ∧ (s.dev.ctx c).mailbox.command = 5)) :
    exec .placement s = .next { s with dev := s.dev.place } := by
  rw [exec, execPlacement, resumes_of_none h]

/-- The decision for a launch that fits, with no log and no replay. -/
theorem place_of_served {d : Device} {c : BitVec 6} {tag : Word} {l : Launch} {k : Kernel} {o : BitVec 8} {ps : List Placing}
    (hserved : d.served = some (c, tag)) (hreplay : (d.ctx c).replay = false) (hlogs : (d.ctx c).logs 0 = false)
    (hl : (d.ctx c).launch tag = some l) (hk : (d.ctx c).kernel l.record.handle l.record.kernel = some k)
    (hbest : d.bestPlace k (d.ctx c).sec l.record.threads = some (o, ps))
    (hareas : k.hwCount l.record.threads ≤ (d.freeAreas c).length) :
    let w := d.newWorkgroup c k l.record l.taken o ps (d.freeAreas c)
    d.place = ((d.addWorkgroup w).takeOrdinal c l).evictWg w := by
  have hnext : d.nextDecision c = none := by simp [Device.nextDecision, hreplay]
  have hheld : d.decisionHeld c = false := by simp [Device.decisionHeld, hlogs]
  have hlog (rec : List (BitVec 8)) : d.logDecision c rec = .ok d := by simp [Device.logDecision, hnext, hlogs]
  simp only [Device.place, hserved, hnext, Device.placeNext, hl, hk, hheld, Bool.false_eq_true, if_false, Device.choosePlace,
    hbest, not_lt.mpr hareas, hlog]

/-- Settles O46: the choice is the first least loaded place of those that fit, and the workgroup put there is the new one. -/
theorem placement : Obligations.Placement := by
  unfold Obligations.Placement
  refine ⟨fun d k sec threads o ps hbest => ?_, fun s hresume => ⟨fun hserved => ?_,
    fun c tag l k o ps hserved hreplay hlogs hl hk hbest hareas => ?_⟩⟩
  · have hleads := bestPlace_leads d k sec threads
    rw [hbest] at hleads
    exact ⟨hleads.1, coreHolds_of_fitAt hleads.1, hleads.2⟩
  · rw [exec_placement hresume, Device.place, hserved]
  · refine ⟨(s.dev.addWorkgroup _).takeOrdinal c l, s.dev.newWorkgroup c k l.record l.taken o ps (s.dev.freeAreas c),
      by rw [exec_placement hresume, place_of_served hserved hreplay hlogs hl hk hbest hareas]; rfl,
      takeOrdinal_wgs _ c l, rfl, Context.launch_tag hl, rfl, rfl, rfl, newWorkgroup_length .., fun j g hg => ?_,
      launch_takeOrdinal hl⟩
    obtain ⟨hindex, hpresent⟩ := newWorkgroup_group _ _ _ _ _ _ _ _ hg
    exact ⟨hindex, fun i hi => by rw [hpresent, hasLane_presentLanes k _ j hi]⟩

end Sys2Proof.Machine
end

section
/-! SUPPORT. FENCE and FETCHW (09 R209, R210), and the queues that rings refill (08 R191; 15 R260). -/

namespace Sys2Proof.Machine

open Sys2Proof Sys2Proof.Claims

/-! ## FENCE and FETCHW -/

/-- Effects that change nothing leave the state as it is, whatever groups they act on. -/
theorem runEffects_unchanged {i : Instr} {always : Bool} (vs : List View) (s : State) :
    runEffects (fun _ _ s => .ok s) i always vs s = .ok s := by
  induction vs with
  | nil => rfl
  | cons v l ih =>
    simp only [runEffects]
    split <;> exact ih

theorem exec_fence_completes {h : Hdr} {sc : BitVec 3} (hwf : (Instr.fence h sc).wf = true) {s : State} {iss : Issue}
    {vs : List View} (hI : Issuing s iss vs) : exec (.fence h sc) s = .next s := by
  have hcheck : (meaningFence h sc).check (.fence h sc) vs s.dev = .ok :=
    Meaning.check_ok hwf (fun _ _ => rfl) (fun _ _ p hp => absurd hp (by simp [meaningFence]))
      (fun _ _ => Meaning.checkRest_ok rfl (fun _ => rfl)) (fun _ _ => rfl)
  rw [exec_eq_runWord (m := meaningFence h sc) rfl]
  refine runWord_next hI hcheck ?_
  rw [Meaning.run_eq rfl]
  exact runEffects_unchanged _ _

/-- The locks that a FETCHW meets are all but the barrier lock of its own object (09 R210). -/
theorem hitsMailbox_eq (off : Nat) : hitsMailbox off = fun l => decide (l.kind ≠ .barrier ∨ l.lo ≠ off) := by
  funext l
  simp only [hitsMailbox]
  by_cases hk : l.kind = .barrier <;> by_cases ho : l.lo = off <;> simp [hk, ho]

/-- A table with a free entry has room for one lock. -/
theorem roomFor_single {d : Device} {l : RangeLock} (h : d.lockCount l.core < 64) : d.roomFor [l] = true := by
  simp only [Device.roomFor, List.all_cons, List.all_nil, Bool.and_true, decide_eq_true_eq, List.filter_cons, beq_self_eq_true,
    if_true, List.filter_nil, List.length_singleton]
  exact h

section
variable {h : Hdr} {b : BitVec 6} {s : State} {iss : Issue} {v : View} {p : Place} (hI : Issuing s iss [v])
  (hbudget : InBudget [v] [(8 * b.toNat, 8)]) (hact : v.active h ≠ 0) (hu : v.isU (8 * b.toNat) 32 = true)
  (halign : objectAddr h b v % 32 = 0) (hp : v.shared (objectAddr h b v) 32 = some p)
  (hfree : v.dev.meetsLock p 32 v.grp.core (fun l => decide (l.kind ≠ .barrier ∨ l.lo ≠ p.addr)) = false)
  (hlog : v.ctx.logs 0 = true → v.ctx.logFull 0 false 1 = false)
  (hroom : v.dev.lockCount (v.dev.lockCore p.space v.grp.core) < 64)

include hu halign hp hfree hlog hroom in
/-- The checks of a FETCHW's mailbox pass. -/
theorem fetchw_operands : (meaningFetchw h b).operands v (v.active h) = .ok := by
  have hlocks : v.dev.meetsLock p 32 v.grp.core (hitsMailbox p.addr) = false := by rw [hitsMailbox_eq, hfree]
  have hfull : (v.ctx.logs 0 && v.ctx.logFull 0 false 1) = false := by
    cases hlogs : v.ctx.logs 0 with
    | false => rfl
    | true => exact hlog hlogs
  have hfits : v.dev.roomFor [mailboxLock v.dev v.grp.core p 0] = true := roomFor_single hroom
  refine Check.seq_ok (fun c hc => ?_)
  simp only [List.mem_cons, List.not_mem_nil, or_false] at hc
  rcases hc with rfl | rfl | rfl
  · exact Check.need_true hu
  · exact if_pos halign
  · change (match v.shared (objectAddr h b v) 32 with
      | none => _
      | some p => if v.dev.meetsLock p 32 v.grp.core (hitsMailbox p.addr) then _ else _) = _
    rw [hp]
    simp only [hlocks, hfull, hfits, Bool.false_eq_true, if_false, if_true]

include hI hbudget hact hu halign hp hfree hlog hroom in
theorem exec_fetchw_completes (hwf : (Instr.fetchw h b).wf = true) :
    exec (.fetchw h b) s = .next { s with dev := { s.dev with
      nextId := s.dev.nextId + 1
      locks := s.dev.locks ++ [mailboxLock s.dev v.grp.core p s.dev.nextId]
      requests := s.dev.requests ++ [v.fetchRequest s.dev.nextId (BitVec.ofNat 32 (objectAddr h b v))] } } := by
  have hcheck : (meaningFetchw h b).check (.fetchw h b) [v] s.dev = .ok := by
    refine Meaning.check_ok hwf (fun _ _ => rfl) hbudget (fun u hu' => ?_) (fun _ _ => rfl)
    rw [List.mem_singleton.mp (Meaning.acts_mem hu')]
    exact Meaning.checkRest_ok rfl (fun _ => fetchw_operands hu halign hp hfree hlog hroom)
  rw [exec_eq_runWord (m := meaningFetchw h b) rfl]
  refine runWord_next hI hcheck ?_
  have hrun := Meaning.run_acting (m := meaningFetchw h b) (i := .fetchw h b) rfl rfl (actingView_single _ v) (.inr hact) s
  rw [hrun]
  change (match v.shared (objectAddr h b v) 32 with | none => _ | some p => _) = _
  rw [hp]
  rfl

end

/-! ## Rings (08 R191; 15 R260) -/

/-- Ring order: by the CYC in which a launch became ready, then by queue, then by place. -/
theorem Launch.ringBefore_iff (l m : Launch) : l.ringBefore m = true ↔ l.readyAt < m.readyAt ∨ l.readyAt = m.readyAt ∧
    (l.record.queue < m.record.queue ∨ l.record.queue = m.record.queue ∧ l.ringAt < m.ringAt) := by
  simp only [ringBefore]
  split_ifs with h1 h2 <;> rw [decide_eq_true_eq] <;> omega

/-- No launch stands before the first in ring order. -/
theorem ringFirst_spec {ls : List Launch} {l : Launch} (h : ringFirst ls = some l) :
    l ∈ ls ∧ ∀ m ∈ ls, ¬ m.ringBefore l = true := by
  induction ls generalizing l with
  | nil => cases h
  | cons a t ih =>
    have hself (x : Launch) : ¬ x.ringBefore x = true := by
      rw [Launch.ringBefore_iff]
      omega
    cases hf : ringFirst t with
    | none =>
      have ht : t = [] := by
        cases t with
        | nil => rfl
        | cons b u =>
          simp only [ringFirst] at hf
          split at hf
          · split at hf <;> cases hf
          · cases hf
      subst ht
      cases h
      simpa using hself a
    | some m =>
      obtain ⟨hmem, hleast⟩ := ih hf
      simp only [ringFirst, hf] at h
      split at h
      next hbefore =>
        cases h
        refine ⟨List.mem_cons_of_mem _ hmem, fun x hx => ?_⟩
        rcases List.mem_cons.mp hx with rfl | hx
        · rw [Launch.ringBefore_iff] at hbefore ⊢
          omega
        · exact hleast x hx
      next hafter =>
        cases h
        refine ⟨List.mem_cons_self, fun x hx => ?_⟩
        rcases List.mem_cons.mp hx with rfl | hx
        · exact hself x
        · have hx := hleast x hx
          rw [Launch.ringBefore_iff] at hx hafter ⊢
          omega

theorem Context.ringHead_spec {x : Context} {l : Launch} (h : x.ringHead = some l) :
    l ∈ x.launches ∧ l.live = true ∧ l.inRing = true ∧
     ∀ m ∈ x.launches, m.live = true → m.inRing = true → l.readyAt < m.readyAt ∨ l.readyAt = m.readyAt ∧
       (l.record.queue < m.record.queue ∨ l.record.queue = m.record.queue ∧ l.ringAt ≤ m.ringAt) := by
  obtain ⟨hmem, hleast⟩ := ringFirst_spec h
  simp only [List.mem_filter, Bool.and_eq_true] at hmem hleast
  obtain ⟨hin, hlive, hring⟩ := hmem
  refine ⟨hin, hlive, hring, fun m hm hmlive hmring => ?_⟩
  have hm := hleast m ⟨hm, hmlive, hmring⟩
  rw [Launch.ringBefore_iff] at hm
  omega

theorem exec_ringRefill_copy {s : State} {die : BitVec 2} {r : Request} (hr : s.dev.copyRingHead die = some r)
    (hroom : (s.dev.requests.filter (fun x => x.inQueue die)).length < 256) {d : Device}
    (hd : s.dev.ringRead die r.ctx 1 = .ok d) :
    exec (.ringRefill (.copy die)) s = .next { s with dev := d.modRequest r.id (fun x => { x with status := .queued }) } := by
  simp only [exec, execRingRefill, Device.refillQueue, hr, if_neg (not_le.mpr hroom), hd]

theorem exec_ringRefill_launch {s : State} {prio : BitVec 2} {c : BitVec 6} {l : Launch}
    (hl : s.dev.launchRingHead prio = some (c, l)) (hroom : (s.dev.ready.getD prio.toNat []).length < 128) {d : Device}
    (hd : s.dev.ringRead 0 c 2 = .ok d) :
    ∃ t, exec (.ringRefill (.launch prio)) s = .next t ∧
      t.dev.ready = modAt d.ready prio.toNat (fun r => r ++ [(c, l.record.tag)]) ∧
      (t.dev.ctx c).launches = (d.ctx c).launches.map (fun y =>
        if y.record.tag = l.record.tag ∧ y.state ≠ .complete then { y with inRing := false } else y) := by
  refine ⟨_, by simp only [exec, execRingRefill, Device.refillQueue, hl, if_neg (not_le.mpr hroom), hd]; rfl, rfl, ?_⟩
  have hctx := congrArg Context.launches (Device.ctx_modCtx d c (fun x => { x with launches := x.launches.map (fun y =>
    if y.record.tag == l.record.tag && y.live then { y with inRing := false } else y) }) c)
  rw [if_pos rfl] at hctx
  refine hctx.trans (List.map_congr_left (fun y _ => ?_))
  simp only [Launch.live, Bool.and_eq_true, beq_iff_eq, bne_iff_ne]

/-- A queue with no ring head to serve, or without room, stays as it is. -/
theorem exec_ringRefill_idle {s : State} {q : RingRef}
    (hq : match q with
      | .matrix core => s.dev.matrixRingHead core = none ∨
          64 ≤ (s.dev.matrix.filter (fun x => x.core == core && !x.inRing)).length
      | .copy die => s.dev.copyRingHead die = none ∨ 256 ≤ (s.dev.requests.filter (fun x => x.inQueue die)).length
      | .launch prio => s.dev.launchRingHead prio = none ∨ 128 ≤ (s.dev.ready.getD prio.toNat []).length) :
    exec (.ringRefill q) s = .next s := by
  have hkeeps : s.dev.refillQueue q = s.dev := by
    cases q with
    | matrix core =>
      simp only [Device.refillQueue]
      split
      · rfl
      next m hm => rw [if_pos (hq.resolve_left (by rw [hm]; exact Option.some_ne_none m))]
    | copy die =>
      simp only [Device.refillQueue]
      split
      · rfl
      next r hr => rw [if_pos (hq.resolve_left (by rw [hr]; exact Option.some_ne_none r))]
    | launch prio =>
      simp only [Device.refillQueue]
      split
      · rfl
      next c l hl => rw [if_pos (hq.resolve_left (by rw [hl]; exact Option.some_ne_none _))]
  rw [exec, execRingRefill, hkeeps]

end Sys2Proof.Machine
end

section
/-! SUPPORT. Numbers read back from a space (08 R171), and what a change of a memory leaves of the contexts. -/

namespace Sys2Proof.Machine

open Sys2Proof Sys2Proof.Claims

/-! ## Numbers read back -/

theorem num_congr {d e : Device} {sp : Space} {a n : Nat} (h : ∀ b, a ≤ b → b < a + n → e.byteAt sp b = d.byteAt sp b) :
    e.num sp a n = d.num sp a n := by
  refine Nat.eq_of_testBit_eq (fun k => ?_)
  rw [Device.testBit_num, Device.testBit_num]
  by_cases hk : k < 8 * n
  · rw [h _ (Nat.le_add_right _ _) (by omega)]
  · rw [decide_eq_false hk, Bool.false_and, Bool.false_and]

theorem num_putNum_same {d : Device} {sp : Space} (h : d.Holds sp) (a n v : Nat) :
    (d.putNum sp a n v).num sp a n = v % 2 ^ (8 * n) := by
  refine Nat.eq_of_testBit_eq (fun k => ?_)
  rw [Device.testBit_num, Nat.testBit_mod_two_pow]
  by_cases hk : k < 8 * n
  · rw [Device.getLsbD_byteAt_putNum h a n v sp _ (Nat.mod_lt k (by decide)),
      if_pos ⟨rfl, Nat.le_add_right _ _, by omega⟩]
    congr 2
    omega
  · rw [decide_eq_false hk, Bool.false_and, Bool.false_and]

theorem num_putNum_apart (d : Device) (sp : Space) {a n b m : Nat} (v : Nat) (h : b + m ≤ a ∨ a + n ≤ b) :
    (d.putNum sp a n v).num sp b m = d.num sp b m :=
  num_congr (fun c hlo hhi => Device.byteAt_putNum_outside d sp v sp (fun _ => by omega))

theorem holds_putNum {d : Device} {sp : Space} (h : d.Holds sp) (sp' : Space) (a n v : Nat) : (d.putNum sp' a n v).Holds sp :=
  (Device.holds_congr (d.keepsEngine_putNum sp' a n v).wg_isSome sp).mpr h

/-! ## Contexts -/

theorem modSpace_contexts (d : Device) (sp : Space) (a : Nat) (f : Memory → Nat → Memory) :
    (d.modSpace sp a f).contexts = d.contexts := by
  cases sp with
  | phys n =>
    simp only [Device.modSpace]
    split_ifs <;> rfl
  | _ => rfl

theorem putNum_contexts (d : Device) (sp : Space) (a n v : Nat) : (d.putNum sp a n v).contexts = d.contexts :=
  modSpace_contexts d sp a _

theorem settle_contexts (d : Device) (sp : Space) (a n : Nat) (store : Bool) : (d.settle sp a n store).contexts = d.contexts := by
  refine List.foldlRecOn (motive := fun e : Device => e.contexts = d.contexts) _ _ rfl (fun e he x _ => ?_)
  split_ifs
  · exact he
  · exact (putNum_contexts ..).trans he

theorem arrive_contexts (d : Device) (o : ObjRef) (by_ : Option Nat) : (d.arrive o by_).contexts = d.contexts :=
  (putNum_contexts ..).trans (settle_contexts ..)

theorem ctx_congr {d e : Device} (h : e.contexts = d.contexts) (c : BitVec 6) : e.ctx c = d.ctx c := by
  rw [Device.ctx, h, Device.ctx]

end Sys2Proof.Machine
end

section
/-! PROOF O47. What a FETCHW is handed, and the statement from the rules (09 R209, R210; 06 R152, R153; 08 R191). -/

namespace Sys2Proof.Machine

open Sys2Proof Sys2Proof.Claims

/-! ## The mailbox -/

/-- The device in which an object's mailbox holds what a FETCHW is handed. -/
def mailboxWritten (d : Device) (o : ObjRef) (h : Handover) : Device :=
  ((((d.settle o.space (o.off + 8) 24 true).putNum o.space (o.off + 8) 8 h.coord.toNat).putNum o.space (o.off + 16) 4
    h.status).putNum o.space (o.off + 20) 4 h.field).putNum o.space (o.off + 24) 8 0

/-- A device without the lock and the request of a FETCHW. -/
def fetchGone (d : Device) (id : Nat) : Device := (d.unlock (.request id)).dropRequest id

theorem byteAt_fetchGone (d : Device) (id : Nat) (sp : Space) (a : Nat) : (fetchGone d id).byteAt sp a = d.byteAt sp a := by
  cases sp <;> rfl

theorem fetchGone_contexts (d : Device) (id : Nat) : (fetchGone d id).contexts = d.contexts := rfl

theorem fetchGone_requests (d : Device) (id : Nat) : ∀ x ∈ (fetchGone d id).requests, x.id ≠ id := by
  intro x hx
  simpa using (List.mem_filter.mp hx).2

theorem fetchGone_locks (d : Device) (id : Nat) : ∀ x ∈ (fetchGone d id).locks, x.owner ≠ .request id := by
  intro x hx
  simpa using (List.mem_filter.mp hx).2

/-- The device that a FETCHW leaves, before the arrival. -/
def mailboxFilled (d : Device) (o : ObjRef) (id : Nat) (h : Handover) : Device := fetchGone (mailboxWritten d o h) id

theorem handOver_eq {d : Device} {w : Workgroup} {k : Kernel} {r : Request} {o : ObjRef}
    (ho : objectAt w k.shared r.core r.bar.toNat = some o) (hl : d.objectLost o = none) (h : Handover) :
    d.handOver w k r h = (mailboxFilled d o r.id h).arrive o none := by
  simp only [Device.handOver, ho, hl]
  rfl

section
variable {d : Device} {o : ObjRef} (hd : d.Holds o.space) (id : Nat) (h : Handover)

/-- The lock and the request take no byte with them. -/
theorem num_mailboxFilled (a n : Nat) : (mailboxFilled d o id h).num o.space a n = (mailboxWritten d o h).num o.space a n :=
  num_congr (fun b _ _ => byteAt_fetchGone _ id o.space b)

include hd

theorem mailboxFilled_coord : (mailboxFilled d o id h).num o.space (o.off + 8) 8 = h.coord.toNat := by
  rw [num_mailboxFilled, mailboxWritten, num_putNum_apart _ _ _ (by omega), num_putNum_apart _ _ _ (by omega), num_putNum_apart _ _ _ (by omega),
    num_putNum_same ((d.holds_settle ..).mpr hd)]
  exact Nat.mod_eq_of_lt h.coord.isLt

theorem mailboxFilled_status : (mailboxFilled d o id h).num o.space (o.off + 16) 4 = h.status % 2 ^ 32 := by
  rw [num_mailboxFilled, mailboxWritten, num_putNum_apart _ _ _ (by omega), num_putNum_apart _ _ _ (by omega),
    num_putNum_same (holds_putNum ((d.holds_settle ..).mpr hd) ..)]

theorem mailboxFilled_field : (mailboxFilled d o id h).num o.space (o.off + 20) 4 = h.field % 2 ^ 32 := by
  rw [num_mailboxFilled, mailboxWritten, num_putNum_apart _ _ _ (by omega),
    num_putNum_same (holds_putNum (holds_putNum ((d.holds_settle ..).mpr hd) ..) ..)]

theorem mailboxFilled_rest : (mailboxFilled d o id h).num o.space (o.off + 24) 8 = 0 := by
  rw [num_mailboxFilled, mailboxWritten, num_putNum_same (holds_putNum (holds_putNum (holds_putNum ((d.holds_settle ..).mpr hd) ..) ..) ..)]
  exact Nat.zero_mod _

end

theorem mailboxFilled_contexts (d : Device) (o : ObjRef) (id : Nat) (h : Handover) :
    (mailboxFilled d o id h).contexts = d.contexts := by
  rw [mailboxFilled, fetchGone_contexts, mailboxWritten, putNum_contexts, putNum_contexts, putNum_contexts, putNum_contexts,
    settle_contexts]

/-! ## The handover -/

/-- The device with the ordinal taken that a handover takes, if one is left. -/
def ordinalDone (d : Device) (c : BitVec 6) (l : Launch) : Device :=
  if l.taken < l.record.total then d.takeOrdinal c l else d

theorem ordinalDone_wgs (d : Device) (c : BitVec 6) (l : Launch) : (ordinalDone d c l).wgs = d.wgs := by
  unfold ordinalDone
  split_ifs
  · exact takeOrdinal_wgs ..
  · rfl

theorem takeOrdinal_lost (d : Device) (c : BitVec 6) (l : Launch) : (d.takeOrdinal c l).lost = d.lost := by
  simp only [Device.takeOrdinal]
  split <;> rfl

theorem objectLost_ordinalDone {d : Device} {o : ObjRef} (h : d.objectLost o = none) (c : BitVec 6) (l : Launch) :
    (ordinalDone d c l).objectLost o = none := by
  have hlost : (ordinalDone d c l).lost = d.lost := by
    unfold ordinalDone
    split_ifs
    · exact takeOrdinal_lost ..
    · rfl
  unfold Device.objectLost Device.lostIn at h ⊢
  rw [hlost]
  cases hf : d.lost.find? (fun p => storedWithin p o.space o.off 8) with
  | none => rfl
  | some p => simp [hf] at h

theorem taken_ordinalDone {d : Device} {c : BitVec 6} {l : Launch} {tag : Word} (h : (d.ctx c).launch tag = some l) :
    (((ordinalDone d c l).ctx c).launch tag).map Launch.taken =
      some (if l.taken < l.record.total then l.taken + 1 else l.taken) := by
  unfold ordinalDone
  split_ifs
  · exact launch_takeOrdinal h
  · rw [h]
    rfl

/-- An object lies in a segment of its workgroup. -/
theorem objectAt_wg {w : Workgroup} {segment : Nat} {core : BitVec 8} {addr : Nat} {o : ObjRef}
    (h : objectAt w segment core addr = some o) : o.wg = w.uid := by
  unfold objectAt at h
  cases hp : sharedPlace w segment core addr 8 with
  | none => simp [hp] at h
  | some p =>
    simp only [sharedPlace, Option.ite_none_left_eq_some, Option.some.injEq] at hp
    obtain ⟨-, rfl⟩ := hp
    simp only [sharedPlace] at h
    split_ifs at h
    cases h
    rfl

section
variable {s : State} {id : Nat} {r : Request} {a : Word} {w : Workgroup} {k : Kernel} {l : Launch} {o : ObjRef}
  (hr : s.dev.request id = some r) (hwork : r.work = .fetch a) (hserving : (s.dev.ctx r.ctx).serving = true)
  (hw : s.dev.wg r.wg = some w) (hk : (s.dev.ctx w.ctx).kernel w.handle w.kernel = some k)
  (hl : (s.dev.ctx r.ctx).launch r.tag = some l) (ho : objectAt w k.shared r.core r.bar.toNat = some o)
  (hlost : s.dev.objectLost o = none) (hreplay : (s.dev.ctx r.ctx).replay = false) (hlogs : (s.dev.ctx r.ctx).logs 0 = false)

include hr hwork hserving hw hk hl ho hlost hreplay hlogs in
/-- A FETCHW of an active context is served at once where no log is kept: the launch's next ordinal is taken, if one is left,
the mailbox filled, and the object counts one arrival. -/
theorem exec_fetchwHandover_serves : exec (.fetchwHandover id) s = .next { s with
    dev := (mailboxFilled (ordinalDone s.dev r.ctx l) o id (handoverOf k l)).arrive o none } := by
  have hid : r.id = id := by simpa using List.find?_some hr
  have hfetch : r.isFetch = true := by rw [Request.isFetch, hwork]
  have hkernel : s.dev.kernelOf w = some k := hk
  have hnext : s.dev.nextDecision r.ctx = none := by simp [Device.nextDecision, hreplay]
  have hheld : s.dev.decisionHeld r.ctx = false := by simp [Device.decisionHeld, hlogs]
  have hturn : s.dev.fetchTurn r (handoverOf k l) = true := by simp [Device.fetchTurn, hnext]
  have hlog (rec : List (BitVec 8)) : s.dev.logDecision r.ctx rec = .ok s.dev := by simp [Device.logDecision, hnext, hlogs]
  have htaken : (if (handoverOf k l).kind = 1 then s.dev.takeOrdinal r.ctx l else s.dev) = ordinalDone s.dev r.ctx l := by
    unfold ordinalDone handoverOf
    by_cases hleft : l.taken < l.record.total <;> simp [hleft]
  have hserve : s.dev.serveFetch r = (ordinalDone s.dev r.ctx l).handOver w k r (handoverOf k l) := by
    simp only [Device.serveFetch, hw, hkernel, hl, hheld, hturn, hlog, htaken, Bool.not_true, Bool.or_self, Bool.false_eq_true,
      if_false]
  simp only [exec, execFetchwHandover, hr, hfetch, hserving, Bool.and_self, if_true, hserve]
  rw [handOver_eq ho (objectLost_ordinalDone hlost r.ctx l), hid]

include hr hwork hserving hw hk hl ho hlost hreplay hlogs in
theorem fetchwHandover_fills :
    let left := decide (l.taken < l.record.total)
    ∃ t e, exec (.fetchwHandover id) s = .next t ∧ t = { s with dev := Device.arrive e o none } ∧
      e.num o.space (o.off + 8) 8 = (if left then (k.coordAt l.record l.taken).toNat else 0) ∧
      e.num o.space (o.off + 16) 4 = (if left then 0 else 1) ∧
      e.num o.space (o.off + 20) 4 = (if left then l.taken % 2 ^ 32 else 2 ^ 32 - 1) ∧
      e.num o.space (o.off + 24) 8 = 0 ∧ (∀ x ∈ e.requests, x.id ≠ id) ∧ (∀ x ∈ e.locks, x.owner ≠ .request id) ∧
      ((t.dev.ctx r.ctx).launch r.tag).map Launch.taken = some (if left then l.taken + 1 else l.taken) := by
  have hheld : (ordinalDone s.dev r.ctx l).Holds o.space := by
    change ((ordinalDone s.dev r.ctx l).wg o.wg).isSome = true
    rw [Device.wg, ordinalDone_wgs, objectAt_wg ho, ← Device.wg, Device.wg_uid hw, hw]
    rfl
  refine ⟨_, mailboxFilled (ordinalDone s.dev r.ctx l) o id (handoverOf k l),
    exec_fetchwHandover_serves hr hwork hserving hw hk hl ho hlost hreplay hlogs, rfl,
    (mailboxFilled_coord hheld id _).trans ?_, (mailboxFilled_status hheld id _).trans ?_,
    (mailboxFilled_field hheld id _).trans ?_, mailboxFilled_rest hheld id _, fetchGone_requests _ id,
    fetchGone_locks _ id, ?_⟩
  · by_cases hleft : l.taken < l.record.total <;> simp [handoverOf, hleft]
  · by_cases hleft : l.taken < l.record.total <;> simp [handoverOf, hleft]
  · by_cases hleft : l.taken < l.record.total <;> simp [handoverOf, hleft]
  · rw [ctx_congr ((arrive_contexts ..).trans (mailboxFilled_contexts ..)), taken_ordinalDone hl]
    simp only [decide_eq_true_eq]

end

/-- Settles O47: FENCE, FETCHW, each ring and the handover have their rules above. -/
theorem fenceFetchAndRings : Obligations.FenceFetchAndRings := by
  unfold Obligations.FenceFetchAndRings
  refine ⟨⟨fun h sc hwf s iss vs hI => exec_fence_completes hwf hI, ?_⟩,
    fun s die r hr hroom d hd => exec_ringRefill_copy hr hroom hd, fun x l h => Context.ringHead_spec h,
    fun s prio c l hl hroom d hd => exec_ringRefill_launch hl hroom hd, fun s q hq => exec_ringRefill_idle hq,
    fun s id r a w k l o hr hwork hserving hw hk hl ho hlost hreplay hlogs =>
      fetchwHandover_fills hr hwork hserving hw hk hl ho hlost hreplay hlogs⟩
  intro h b hwf s iss v p hI hl hbudget hact hu halign hp hfree hlog lock hroom
  have hdev : v.dev = s.dev := (hI.shows_dev hl List.mem_cons_self).dev_eq
  exact exec_fetchw_completes hI hbudget hact hu halign hp hfree hlog (hdev ▸ hroom) hwf

end Sys2Proof.Machine
end

section
/-! SUPPORT. The lanes of a mask (07 R162, R165), and words that act whatever the active lanes and check no more than their operands
(07 R156; 16 R281). -/

namespace Sys2Proof.Machine

open Sys2Proof Sys2Proof.Claims

/-! ## Masks lane by lane -/

@[simp] theorem hasLane_or (m n : Word) (i : Nat) : hasLane (m ||| n) i = (hasLane m i || hasLane n i) := by
  rw [hasLane_eq, hasLane_eq, hasLane_eq, BitVec.getLsbD_or]

@[simp] theorem hasLane_xor (m n : Word) (i : Nat) : hasLane (m ^^^ n) i = (hasLane m i != hasLane n i) := by
  rw [hasLane_eq, hasLane_eq, hasLane_eq, BitVec.getLsbD_xor]

theorem hasLane_not (m : Word) {i : Nat} (hi : i < 32) : hasLane (~~~m) i = !hasLane m i := by
  rw [hasLane_eq, hasLane_eq, BitVec.getLsbD_not, decide_eq_true hi, Bool.true_and]

theorem hasLane_ofNat (n : Nat) {i : Nat} (hi : i < 32) : hasLane (BitVec.ofNat 32 n) i = n.testBit i := by
  rw [hasLane_eq, BitVec.getLsbD_ofNat, decide_eq_true hi, Bool.true_and]

/-- A mask is that of the lanes it holds. -/
theorem eq_maskOf {m : Word} {p : Nat → Bool} (h : ∀ i, i < 32 → hasLane m i = p i) : m = maskOf p := by
  refine BitVec.eq_of_getLsbD_eq (fun i hi => ?_)
  rw [← hasLane_eq, ← hasLane_eq, hasLane_maskOf p hi, h i hi]

/-- The lowest lane of a mask is the one below which the mask holds none. -/
theorem lowestLane_eq_some_iff {m : Word} {i : Nat} :
    lowestLane m = some i ↔ hasLane m i = true ∧ i < 32 ∧ ∀ j < i, hasLane m j = false := by
  rw [lowestLane, lanesOf, List.head?_filter, allLanes, List.find?_range_eq_some]
  simp

theorem lowestLane_eq_none_iff {m : Word} : lowestLane m = none ↔ ∀ i < 32, hasLane m i = false := by
  rw [lowestLane, lanesOf, List.head?_filter, allLanes, List.find?_range_eq_none]
  simp

/-- The mask of the lowest lane holds a lane of the mask that has none below it. -/
theorem lowestLane_maskOf (m : Word) : (match lowestLane m with | some i => BitVec.ofNat 32 (2 ^ i) | none => 0) =
    maskOf (fun j => hasLane m j && (List.range j).all (fun n => !hasLane m n)) := by
  refine eq_maskOf (fun j hj => ?_)
  have hlowest : (hasLane m j && (List.range j).all (fun n => !hasLane m n)) = decide (lowestLane m = some j) := by
    rw [Bool.eq_iff_iff, decide_eq_true_iff, lowestLane_eq_some_iff]
    simp [hj]
  rw [hlowest]
  cases hl : lowestLane m with
  | none => simp [hasLane_eq]
  | some i =>
    change hasLane (BitVec.ofNat 32 (2 ^ i)) j = decide (some i = some j)
    rw [hasLane_ofNat _ hj, Nat.testBit_two_pow]
    simp

/-! ## Words that act whatever the active lanes -/

/-- The meaning of an instruction that acts whatever the active lanes, and checks its words' form, its spans and its operands. -/
structure ActsAlways (i : Instr) (m : Meaning) : Prop where
  meaning : meaningOf i = some m
  illegal : m.illegal = fun _ => false
  cellSpans : m.cellSpans = fun _ => []
  words : m.words = fun _ => .ok
  always : m.always = true
  arrives : m.arrives = fun _ => []
  records : m.records = false

/-- The group in which an instruction acts that acts once is the first of those with an active lane, and then of all. -/
theorem take_actives_append (i : Instr) (vs : List View) : (actives i vs ++ vs).take 1 = (actingView i vs).toList := by
  rw [actingView, ← List.head?_filter, ← actives]
  cases actives i vs with
  | nil => cases vs <;> rfl
  | cons u l => rfl

section

variable {i : Instr} {m : Meaning} (hm : ActsAlways i m) (hwf : i.wf = true) {s : State} {iss : Issue} {vs : List View}
  (hI : Issuing s iss vs) (hb : InBudget vs m.spans) (hop : ∀ v ∈ vs, m.operands v (Instr.lanes i v) = .ok)
  {P : View → State → State → Prop} (hf : ∀ v s, ∃ t, m.effect v (Instr.lanes i v) s = .ok t ∧ P v s t)

include hm hwf hI hb hop hf

/-- It has its effect on every group in which it acts. -/
theorem ActsAlways.exec_each : ∃ t, exec i s = .next t ∧ Each P (m.acts i vs) s t := by
  have hcheck : m.check i vs s.dev = .ok := by
    refine Meaning.check_ok hwf (fun v _ => by rw [hm.illegal]) (fun v hv p hp => hb v hv p ?_)
      (fun v hv => Meaning.checkRest_ok (by rw [hm.words]) (fun _ => hop v (Meaning.acts_mem hv)))
      (fun v _ => by rw [hm.arrives]; rfl)
    simpa [hm.cellSpans] using hp
  obtain ⟨t, hrun, heach⟩ := runEffects_all (i := i) (m.acts i vs) (fun v _ => hf v) s
  refine ⟨t, ?_, heach⟩
  rw [exec_eq_runWord hm.meaning]
  exact runWord_next hI hcheck (by rw [Meaning.run_eq hm.records, hm.always, hrun])

theorem ActsAlways.completesAll (ho : m.once = false) : CompletesAll i s vs P := by
  have heach := hm.exec_each hwf hI hb hop hf
  rwa [Meaning.acts, if_neg (by simp [ho])] at heach

theorem ActsAlways.completesActing (ho : m.once = true) : CompletesActing i s vs P := by
  have heach := hm.exec_each hwf hI hb hop hf
  rwa [Meaning.acts, if_pos ho, ← take_actives_append] at heach

end

end Sys2Proof.Machine
end

section
/-! PROOF of O18: the mask instructions write whole masks, SLEEP and YIELD mark the slot and the group (07 R162 to R166). -/

namespace Sys2Proof.Machine

open Sys2Proof Sys2Proof.Claims

/-! ## Masks written whole (07 R162, R165, R166) -/

/-- The meaning of an instruction that writes one mask whole, with its lanes given one by one. -/
structure WritesMask (i : Instr) (k : BitVec 3) (f : View → Nat → Bool) (m : Meaning) : Prop extends ActsAlways i m where
  once : m.once = false
  effect : ∀ v s, m.effect v (Instr.lanes i v) s = .ok (s.setMask v k (maskOf (f v)))

theorem WritesMask.completes {i : Instr} {k : BitVec 3} {f : View → Nat → Bool} {m : Meaning} (hm : WritesMask i k f m)
    (hwf : i.wf = true) {s : State} {iss : Issue} {vs : List View} (hI : Issuing s iss vs) (hb : InBudget vs m.spans)
    (hop : ∀ v ∈ vs, m.operands v (Instr.lanes i v) = .ok) : CompletesAll i s vs (WroteWholeMask k f) :=
  hm.completesAll hwf hI hb hop (fun v s => ⟨_, hm.effect v s, rfl⟩) hm.once

/-- A mask computed from masks (`maskOp`), lane by lane. -/
theorem writesMask_maskOp {i : Instr} {k : BitVec 3} {f : View → Nat → Bool} {g : View → Word}
    (hmeaning : meaningOf i = some (maskOp k g)) (hg : ∀ v j, j < 32 → hasLane (g v) j = f v j) :
    WritesMask i k f (maskOp k g) :=
  ⟨⟨hmeaning, rfl, rfl, rfl, rfl, rfl, rfl⟩, rfl, fun v s => by rw [← eq_maskOf (hg v)]; rfl⟩

theorem writesMask_elect (h : Hdr) (k : BitVec 3) :
    WritesMask (.elect h k) k
      (fun v j => hasLane (v.active h) j && (List.range j).all (fun n => !hasLane (v.active h) n)) (meaningElect h k) :=
  ⟨⟨rfl, rfl, rfl, rfl, rfl, rfl, rfl⟩, rfl, fun v s => by rw [← lowestLane_maskOf]; rfl⟩

theorem writesMask_kmovFromCell (h : Hdr) (d : BitVec 3) (c : BitVec 7) :
    WritesMask (.kmovFromCell h d c) d (fun v j => (v.read 0 (h.a c) 32).testBit j) (meaningKmovFromCell h d c) :=
  ⟨⟨rfl, rfl, rfl, rfl, rfl, rfl, rfl⟩, rfl, fun v s => by rw [← eq_maskOf (fun _ => hasLane_ofNat (v.read 0 (h.a c) 32))]; rfl⟩

/-- Each instruction that writes a mask from masks or from the active lanes reads no slices and has no other check. -/
theorem maskResult_writesMask {i : Instr} {k : BitVec 3} {f : View → Nat → Bool} (h : maskResult i = some (k, f)) :
    ∃ m, WritesMask i k f m ∧ m.spans = [] ∧ m.operands = fun _ _ => .ok := by
  cases i <;> simp only [maskResult, Option.some.injEq, Prod.mk.injEq, reduceCtorEq] at h <;> obtain ⟨rfl, rfl⟩ := h
  case elect h k => exact ⟨_, writesMask_elect h k, rfl, rfl⟩
  case kand h d a b => exact ⟨_, writesMask_maskOp rfl (fun _ _ _ => hasLane_and ..), rfl, rfl⟩
  case kor h d a b => exact ⟨_, writesMask_maskOp rfl (fun _ _ _ => hasLane_or ..), rfl, rfl⟩
  case kxor h d a b => exact ⟨_, writesMask_maskOp rfl (fun _ _ _ => hasLane_xor ..), rfl, rfl⟩
  case knot h d a => exact ⟨_, writesMask_maskOp rfl (fun _ _ hj => hasLane_not _ hj), rfl, rfl⟩
  case kmovMask h d a => exact ⟨_, writesMask_maskOp rfl (fun _ _ _ => rfl), rfl, rfl⟩

/-! ## Masks given to slices (07 R166) -/

/-- KMOV and KPOP give their lanes the value that `maskToSlices` names. -/
theorem maskToSlices_meaning {i : Instr} {d : Nat} {val : View → Nat} (h : maskToSlices i = some (d, val)) :
    meaningOf i = some (maskValue d val) := by
  cases i <;> simp only [maskToSlices, Option.some.injEq, Prod.mk.injEq, reduceCtorEq] at h <;> obtain ⟨rfl, rfl⟩ := h
  case kmovToSlices h a c => rfl
  case kpop h a c =>
    have hcount : ∀ v : View, (List.range 32).countP (fun j => hasLane (v.mask a) j) = popcountN (v.mask a).toNat 32 := by
      intro v
      rw [popcountN_value]
      exact List.countP_congr (fun j _ => by rw [hasLane_eq, BitVec.getLsbD])
    simp only [hcount]
    rfl

theorem maskToSlices_completes {i : Instr} {d : Nat} {val : View → Nat} (h : maskToSlices i = some (d, val)) (hwf : i.wf = true)
    {s : State} {iss : Issue} {vs : List View} (hI : Issuing s iss vs) (hb : InBudget vs [(d, 8)]) :
    CompletesAll i s vs (WroteOne (Instr.lanes i) d 32 (fun v _ => val v) (fun _ => .u)) := by
  have hm : ActsAlways i (maskValue d val) := ⟨maskToSlices_meaning h, rfl, rfl, rfl, rfl, rfl, rfl⟩
  refine hm.completesAll hwf hI hb (fun _ _ => rfl) (fun v s => ⟨_, rfl, ?_⟩) rfl
  exact write_wroteOne s v _ d 32 (fun v _ => val v) (fun _ => .u) (by decide) (by decide) (fun _ _ _ _ _ _ => rfl)

/-! ## SLEEP and YIELD (07 R163, R164) -/

theorem sleep_actsAlways (h : Hdr) (d : BitVec 21) : ActsAlways (.sleep h d) (meaningSleep h d) :=
  ⟨rfl, rfl, rfl, rfl, rfl, rfl, rfl⟩

theorem yield_actsAlways (h : Hdr) : ActsAlways (.yield h) (meaningYield h) := ⟨rfl, rfl, rfl, rfl, rfl, rfl, rfl⟩

theorem inBudget_nil (vs : List View) : InBudget vs [] := fun _ _ _ hp => absurd hp List.not_mem_nil

/-- Settles O18: the masks lane by lane, and SLEEP and YIELD once for the groups that issue. The YIELD mark is the hardware group's
also in width mode 16, which is the model's choice (log entry 87). -/
theorem masksSleepYield : Obligations.MasksSleepYield := by
  unfold Obligations.MasksSleepYield
  refine ⟨⟨?_, ?_, ?_⟩, ?_, ?_⟩
  · intro i k f hi hwf s iss vs hI
    obtain ⟨m, hm, hspans, hoperands⟩ := maskResult_writesMask hi
    exact hm.completes hwf hI (hspans ▸ inBudget_nil vs) (fun _ _ => by rw [hoperands])
  · intro h d c hwf s iss vs hI hb hu
    exact (writesMask_kmovFromCell h d c).completes hwf hI hb (fun v hv => Check.need_true (hu v hv))
  · intro i d val hi hwf s iss vs hI hb
    exact maskToSlices_completes hi hwf hI hb
  · intro h d hwf s iss vs hI
    exact (sleep_actsAlways h d).completesActing hwf hI (inBudget_nil vs) (fun _ _ => rfl) (fun _ _ => ⟨_, rfl, rfl⟩) rfl
  · intro h hwf s iss vs hI
    exact (yield_actsAlways h).completesActing hwf hI (inBudget_nil vs) (fun _ _ => rfl) (fun _ _ => ⟨_, rfl, rfl⟩) rfl

end Sys2Proof.Machine
end

section
/-! SUPPORT. Words that act once for both hardware groups of a pair, run in the state at hand (16 R281), and the arrivals of a group
where none is logged or replayed (22 R350, R353). -/

namespace Sys2Proof.Machine

open Sys2Proof Sys2Proof.Claims

/-! ## Checks of the operands that stop one group -/

section
variable {m : Meaning} {i : Instr} {s : State} {iss : Issue} {v : View} (hm : meaningOf i = some m) (hops : ChecksOperands m)
  (hwf : i.wf = true) (hI : Issuing s iss [v]) (hb : InBudget [v] m.spans) (hact : Instr.lanes i v ≠ 0)
include hm hops hwf hI hb hact

/-- A check of the operands that answers a trap other than ILLEGAL raises that trap. -/
theorem exec_trap_of_operands {t : Trap} (hop : m.operands v (Instr.lanes i v) = .trap t) (hcause : t.cause ≠ causeIllegal) :
    exec i s = .next (s.trap iss i t) := by
  have hrest : m.checkRest i v (Instr.lanes i v) = .trap t := by
    have hruns : (m.always || decide (Instr.lanes i v ≠ 0)) = true := by rw [decide_eq_true hact, Bool.or_true]
    simp only [Meaning.checkRest, hops.words, hruns, if_true, hop, if_neg hcause]
  rw [exec_eq_runWord hm]
  refine runWord_trap hI (Meaning.check_rest hwf (by rw [hops.illegal]) (fun p hp => ?_) hrest (by simp))
  exact hb v List.mem_cons_self p (by simpa [hops.cellSpans] using hp)

/-- An ILLEGAL of the operands names the main word. -/
theorem exec_illegal_of_operands (hop : m.operands v (Instr.lanes i v) = .illegal) :
    exec i s = .next (s.trap iss i { cause := causeIllegal, detail := Instr.extLen i, lanes := none }) := by
  rw [exec_eq_runWord hm]
  refine runWord_trap hI (Meaning.check_rest hwf (by rw [hops.illegal]) (fun p hp => ?_)
    (Meaning.checkRest_illegal (by rw [hops.words]) hop (.inr hact)) (Check.fail_ne_ok _ _))
  exact hb v List.mem_cons_self p (by simpa [hops.cellSpans] using hp)

end

/-! ## Words that act once -/

/-- A word that acts once completes when its effect in the state at hand succeeds in the one group in which it acts. -/
theorem completesOnce_of_effect {i : Instr} {m : Meaning} (hm : meaningOf i = some m) {s : State} {iss : Issue} {vs : List View}
    (hI : Issuing s iss vs) (hc : m.check i vs s.dev = .ok) (hr : m.recordArrivals vs s = .ok s) (ho : m.once = true)
    (ha : m.always = false) {P : View → State → State → Prop}
    (hf : ∀ v ∈ activeOnce i vs, ∃ t, m.effect v (Instr.lanes i v) s = .ok t ∧ P v s t) : CompletesOnce i s vs P := by
  have hrun : m.run i vs s = runEffects m.effect i false (actingView i vs).toList s := by
    rw [Meaning.run, hr, Meaning.acts, if_pos ho, ha]
  unfold CompletesOnce
  rw [exec_eq_runWord hm]
  rw [← actives_acting] at hf ⊢
  cases hacting : actingView i vs with
  | none =>
    rw [hacting] at hrun
    exact ⟨s, runWord_next hI hc hrun, rfl⟩
  | some u =>
    rw [hacting] at hrun hf
    cases hact : decide (Instr.lanes i u ≠ 0) with
    | false =>
      have hidle : actives i [u] = [] := by simp only [actives, List.filter_cons, hact, List.filter_nil]; rfl
      rw [Option.toList_some, hidle]
      refine ⟨s, runWord_next hI hc (hrun.trans ?_), rfl⟩
      simp only [Option.toList_some, runEffects, hact]
      rfl
    | true =>
      have honly : actives i [u] = [u] := by simp only [actives, List.filter_cons, hact, List.filter_nil]; rfl
      rw [Option.toList_some, honly] at hf ⊢
      obtain ⟨t, heffect, hP⟩ := hf u List.mem_cons_self
      refine ⟨t, runWord_next hI hc (hrun.trans ?_), t, hP, rfl⟩
      simp only [Option.toList_some, runEffects, hact, heffect]
      rfl

/-- The value that a word gives once to every active lane stands in each of the groups (16 R281). -/
theorem writeOne_wroteAll (s : State) (v : View) (h : Hdr) (d : Nat) {w : Nat} (x : Nat) (hw : 0 < w) (h4 : w % 4 = 0) :
    WroteAll h d w x v s (s.writeOne v h d w x) := by
  unfold WroteAll State.writeOne
  generalize v.halves = us
  induction us generalizing s with
  | nil => rfl
  | cons u us ih =>
    rw [List.foldl_cons, List.filter_cons]
    by_cases hact : u.active h = 0
    · rw [if_pos hact, if_neg (by simpa using hact)]
      exact ih s
    · rw [if_neg hact, if_pos (decide_eq_true hact)]
      exact ⟨_, write_wroteOne s u (fun u => u.active h) d w (fun _ _ => x) (fun _ => .u) hw h4 (fun _ _ _ _ _ _ => rfl), ih _⟩

/-! ## Arrivals that nothing logs -/

theorem arrivalCheck_quiet {d : Device} {v : View} (hq : Quiet d v) (earlier own : List Arrival) :
    v.arrivalCheck d earlier own = .ok := by
  obtain ⟨hreplay, hlogs⟩ := hq
  simp [View.arrivalCheck, hreplay, hlogs]

theorem arrivals_quiet {d : Device} {v : View} (hq : Quiet d v) (l : List Arrival) : v.arrivals l d = .ok d := by
  obtain ⟨hreplay, hlogs⟩ := hq
  induction l with
  | nil => rfl
  | cons a l ih =>
    have harrival : v.arrival d a.1 a.2 v.dev.cyc.toNat = .ok d := by simp [View.arrival, hreplay, hlogs]
    rw [View.arrivals, harrival]
    exact ih

/-- Where nothing is logged, an instruction's arrivals leave no record. -/
theorem recordArrivals_quiet {m : Meaning} {vs : List View} {s : State} (hq : ∀ v ∈ vs, Quiet s.dev v) :
    m.recordArrivals vs s = .ok s := by
  unfold Meaning.recordArrivals
  split
  · next v rest _ =>
    rw [arrivals_quiet (hq v List.mem_cons_self)]
    rfl
  · rfl

end Sys2Proof.Machine
end

section
/-! PROOF of O15: the checks of a load or a store stop at the first of ALIGN, BOUND and LOCK that a lane fails (08 R174). -/

namespace Sys2Proof.Claims

open Sys2Proof Sys2Proof.Machine

/-- A check of the lanes passes, or it is the memory trap of the lanes that fail. -/
theorem lanesCheck_eq (cause : Nat) (act : Word) (bad : Nat → Bool) (ea : Nat → Nat) :
    Check.lanes cause act bad ea = if failing act bad = 0 then .ok else .trap (memoryTrap cause act bad ea) := by
  unfold Check.lanes memoryTrap
  change (match lowestLane (failing act bad) with | none => _ | some i => _) = _
  by_cases hnone : failing act bad = 0
  · rw [hnone]
    rfl
  · obtain ⟨j, hj, -, -⟩ := lowestLane_spec hnone
    rw [if_neg hnone, hj]
    rfl

/-- No lane of none fails. -/
theorem failing_none (bad : Nat → Bool) : failing 0 bad = 0 := maskOf_none (fun j _ => by simp [hasLane_eq])

theorem ne_zero_of_failing {act : Word} {bad : Nat → Bool} (h : failing act bad ≠ 0) : act ≠ 0 := by
  rintro rfl
  exact h (failing_none bad)

/-- The lanes whose place meets a lock. -/
def lockedAt (v : View) (n : Nat) (place : Nat → Option Place) (hit : RangeLock → Bool) (j : Nat) : Bool :=
  match place j with
  | some p => v.dev.meetsLock p n v.grp.core hit
  | none => false

/-- ALIGN, BOUND and LOCK in this order, each of the lanes that fail it (08 R174). -/
theorem accessCheck_eq (v : View) (act : Word) (n align : Nat) (ea : Nat → Nat) (place : Nat → Option Place) (hit : RangeLock → Bool) :
    v.accessCheck act n align ea place hit =
      if failing act (fun j => decide (ea j % align ≠ 0)) ≠ 0 then
        .trap (memoryTrap causeAlign act (fun j => decide (ea j % align ≠ 0)) ea)
      else if failing act (fun j => (place j).isNone) ≠ 0 then .trap (memoryTrap causeBound act (fun j => (place j).isNone) ea)
      else if failing act (lockedAt v n place hit) ≠ 0 then .trap (memoryTrap causeLock act (lockedAt v n place hit) ea)
      else .ok := by
  rw [View.accessCheck, lanesCheck_eq, lanesCheck_eq]
  change Check.seq [_, _, Check.lanes causeLock act (lockedAt v n place hit) ea] = _
  rw [lanesCheck_eq]
  split_ifs <;> simp_all [Check.seq]

/-- A load's or a store's meaning, with its places and the locks that it meets. -/
theorem access_meaning {i : Instr} {x : Access} {load : Bool} (h : (if load then loadOf i else storeOf i) = some x)
    (hwf : i.wf = true) : ∃ m, meaningOf i = some m ∧ ChecksOperands m ∧ m.spans = x.spans ∧ ∀ v act, m.operands v act =
      v.accessCheck act x.n x.n (x.ea v) (if load then x.from v else x.into v) (if load then hitsLoad else hitsStore) := by
  cases load with
  | true => exact ⟨x.loading, (loadOf_spec h hwf).2, ⟨rfl, rfl, rfl, rfl, rfl⟩, rfl, fun _ _ => rfl⟩
  | false => exact ⟨x.storing, (storeOf_spec h hwf).2, ⟨rfl, rfl, rfl, rfl, rfl⟩, rfl, fun _ _ => rfl⟩

/-- Settles O15: the order of the three checks is that of the access. -/
theorem accessTrapsInOrder : Obligations.AccessTrapsInOrder := by
  unfold Obligations.AccessTrapsInOrder
  intro i x load hx hwf s iss v hI hb act place misaligned outside locked
  obtain ⟨m, hm, hops, hspans, hoperands⟩ := access_meaning hx hwf
  have hcheck := (hoperands v act).trans (accessCheck_eq ..)
  have htraps {t : Trap} (hne : act ≠ 0) (ht : m.operands v act = .trap t) (hcause : t.cause ≠ causeIllegal) :
      exec i s = .next (s.trap iss i t) := exec_trap_of_operands hm hops hwf hI (hspans ▸ hb) hne ht hcause
  split_ifs with halign hbound
  · exact htraps (ne_zero_of_failing halign) (hcheck.trans (if_pos halign)) (show causeAlign ≠ causeIllegal by decide)
  · rw [if_neg halign] at hcheck
    exact htraps (ne_zero_of_failing hbound) (hcheck.trans (if_pos hbound)) (show causeBound ≠ causeIllegal by decide)
  · intro hlock
    rw [if_neg halign, if_neg hbound] at hcheck
    exact htraps (ne_zero_of_failing hlock) (hcheck.trans (if_pos hlock)) (show causeLock ≠ causeIllegal by decide)

end Sys2Proof.Claims
end

section
/-! SUPPORT. Barrier objects in the memories of the device (08 R188, R189): bytes that a change of a workgroup's other fields leaves,
accumulators once settled, and the value of an object after it has been written. -/

namespace Sys2Proof.Machine

open Sys2Proof Sys2Proof.Claims

/-! ## Bytes under changes elsewhere -/

/-- A change of a workgroup that keeps its name and its shared memory leaves every byte. -/
theorem Device.byteAt_modWg (d : Device) (uid : Nat) {f : Workgroup → Workgroup}
    (hf : ∀ w, (f w).uid = w.uid ∧ (f w).shared = w.shared) (sp : Space) (a : Nat) :
    (d.modWg uid f).byteAt sp a = d.byteAt sp a := by
  cases sp with
  | shared u q =>
    have hsegment : (d.modWg uid f).segment u q = d.segment u q := by
      rw [segment, segment, d.wg_modWg uid (fun w => (hf w).1) u]
      by_cases hu : u = uid
      · rw [if_pos hu]
        cases d.wg u with
        | none => rfl
        | some w => simp only [Option.map_some, (hf w).2]
      · rw [if_neg hu]
    simp only [byteAt, hsegment]
  | _ => rfl

@[simp] theorem Device.modSpace_accs (d : Device) (sp : Space) (a : Nat) (f : Memory → Nat → Memory) :
    (d.modSpace sp a f).accs = d.accs := by
  cases sp with
  | phys n =>
    simp only [modSpace]
    split_ifs <;> rfl
  | _ => rfl

@[simp] theorem Device.putNum_accs (d : Device) (sp : Space) (a n v : Nat) : (d.putNum sp a n v).accs = d.accs :=
  d.modSpace_accs sp a _

/-! ## Accumulators settled -/

/-- An access that no accumulator meets settles nothing. -/
theorem Device.settle_of_clear {d : Device} {sp : Space} {a n : Nat} (h : ∀ x ∈ d.accs, x.meets sp a n = false) (store : Bool) :
    d.settle sp a n store = d := by
  have hnone : d.accs.filter (fun x => x.meets sp a n) = [] := List.filter_eq_nil_iff.mpr (fun x hx => by simp [h x hx])
  have hall : d.accs.filter (fun x => !x.meets sp a n) = d.accs := List.filter_eq_self.mpr (fun x hx => by simp [h x hx])
  rw [settle, hnone, hall]
  rfl

/-- No accumulator is left over what has settled. -/
theorem Device.clear_settle (d : Device) (sp : Space) (a n : Nat) (store : Bool) :
    ∀ x ∈ (d.settle sp a n store).accs, x.meets sp a n = false := fun _ hx => (mem_accs_settle.mp hx).2

/-! ## Objects -/

theorem Device.objectValue_of_clear {d : Device} {o : ObjRef} (h : ∀ x ∈ d.accs, x.meets o.space o.off 8 = false) :
    d.objectValue o = d.num o.space o.off 8 := by rw [objectValue, settle_of_clear h]

/-- The value of an object is that of the object settled. -/
theorem Device.objectValue_settle (d : Device) (o : ObjRef) : (d.settle o.space o.off 8 false).objectValue o = d.objectValue o :=
  objectValue_of_clear (d.clear_settle _ _ _ _)

theorem Device.objectValue_lt (d : Device) (o : ObjRef) : d.objectValue o < 2 ^ 64 := by
  refine Nat.lt_pow_two_of_testBit _ (fun k hk => ?_)
  rw [objectValue, testBit_num, decide_eq_false (by omega), Bool.false_and]

/-- The device with an object written whole. -/
def Device.putObject (d : Device) (o : ObjRef) (store : Bool) (x : Nat) : Device :=
  (d.settle o.space o.off 8 store).putNum o.space o.off 8 x

theorem Device.clear_putObject (d : Device) (o : ObjRef) (store : Bool) (x : Nat) :
    ∀ q ∈ (d.putObject o store x).accs, q.meets o.space o.off 8 = false := by
  rw [putObject, putNum_accs]
  exact d.clear_settle _ _ _ _

/-- An object written has the value written, as long as its workgroup is placed. -/
theorem Device.num_putObject {d : Device} {o : ObjRef} (hd : (d.wg o.wg).isSome = true) (store : Bool) (x : Nat) :
    (d.putObject o store x).num o.space o.off 8 = x % 2 ^ 64 :=
  num_putNum_same ((d.holds_settle o.space o.off 8 store o.space).mpr hd) o.off 8 x

theorem Device.objectValue_putObject {d : Device} {o : ObjRef} (hd : (d.wg o.wg).isSome = true) (store : Bool) (x : Nat) :
    (d.putObject o store x).objectValue o = x % 2 ^ 64 := by
  rw [objectValue_of_clear (d.clear_putObject o store x), num_putObject hd]

theorem Device.keepsOtherBytes_putObject (d : Device) (o : ObjRef) (store : Bool) (x : Nat) :
    KeepsOtherBytes o d (d.putObject o store x) := by
  intro sp a hout hacc
  rw [putObject, byteAt_putNum_outside _ _ _ _ (fun hsp => hout.resolve_left (not_not.mpr hsp)), byteAt_settle _ _ _ _ _ hacc]

/-- A change of the arrival records alone. -/
def withBars (f : List BarLock → List BarLock) (w : Workgroup) : Workgroup := { w with bars := f w.bars }

theorem Device.byteAt_withBars (d : Device) (uid : Nat) (f : List BarLock → List BarLock) (sp : Space) (a : Nat) :
    (d.modWg uid (withBars f)).byteAt sp a = d.byteAt sp a :=
  d.byteAt_modWg uid (f := withBars f) (fun _ => ⟨rfl, rfl⟩) sp a

theorem Device.objectValue_withBars {d : Device} {o : ObjRef} (h : ∀ x ∈ d.accs, x.meets o.space o.off 8 = false) (uid : Nat)
    (f : List BarLock → List BarLock) : (d.modWg uid (withBars f)).objectValue o = d.objectValue o := by
  rw [objectValue_of_clear h, objectValue_of_clear (d := d.modWg uid (withBars f)) h]
  exact num_congr (fun b _ _ => d.byteAt_withBars uid f o.space b)

end Sys2Proof.Machine
end

section
/-! PROOF of O30: an arrival writes the object's next value, and a record of who arrived (08 R189; 22 R347). -/

namespace Sys2Proof.Machine

open Sys2Proof Sys2Proof.Claims

/-- An arrival counts, or flips the phase and increments the generation. -/
theorem arriveValue_objectIs {x expected arrived gen : Nat} {phase : Bool} (hx : x < 2 ^ 64)
    (h : ObjectIs x expected arrived phase gen) :
    if arrived + 1 < expected then ObjectIs ((arriveValue x).1 % 2 ^ 64) expected (arrived + 1) phase gen
    else ObjectIs ((arriveValue x).1 % 2 ^ 64) expected 0 (!phase) ((gen + 1) % 2 ^ 31) := by
  obtain ⟨hexpected, harrived, hphase, hgen⟩ := h
  rw [Nat.testBit_eq_decide_div_mod_eq] at hphase
  split_ifs with hlt
  · have hcount : ¬ bitsN x 0 16 ≤ bitsN x 16 16 + 1 := by
      simp only [bitsN]
      omega
    have hvalue : (arriveValue x).1 = putBitsN x 16 16 (arrived + 1) := by
      rw [← harrived]
      simp only [arriveValue, if_neg hcount]
      rfl
    rw [hvalue]
    simp only [putBitsN, lowN, bitsN]
    refine ⟨by omega, by omega, ?_, by omega⟩
    rw [Nat.testBit_eq_decide_div_mod_eq, ← hphase]
    exact decide_eq_decide.mpr (by omega)
  · have hcount : bitsN x 0 16 ≤ bitsN x 16 16 + 1 := by
      simp only [bitsN]
      omega
    have hvalue : (arriveValue x).1 = expected + (if phase then 0 else 2 ^ 32) + (gen + 1) % 2 ^ 31 * 2 ^ 33 := by
      have hbit : bitN x 32 = phase := by rw [bitN_eq, Nat.testBit_eq_decide_div_mod_eq, hphase]
      simp only [arriveValue, if_pos hcount, hbit]
      simp only [bitsN, lowN]
      omega
    rw [hvalue]
    cases phase
    · simp only [Bool.false_eq_true, if_false, Bool.not_false]
      refine ⟨by omega, by omega, ?_, by omega⟩
      rw [Nat.testBit_eq_decide_div_mod_eq]
      exact decide_eq_true (by omega)
    · simp only [if_true, Bool.not_true]
      refine ⟨by omega, by omega, ?_, by omega⟩
      rw [Nat.testBit_eq_decide_div_mod_eq]
      exact decide_eq_false (by omega)

/-- An arrival writes the object and its workgroup's arrival records. -/
theorem Device.arrive_eq (d : Device) (o : ObjRef) (by_ : Option Nat) : ∃ f, d.arrive o by_ =
    (d.putObject o false (arriveValue (d.objectValue o)).1).modWg o.wg (withBars f) := by
  rw [← d.objectValue_settle o]
  exact ⟨_, rfl⟩

/-- Settles O30: the value written is the next one, and the object is all that is written. -/
theorem arrivalFlipsPhase : Obligations.ArrivalFlipsPhase := by
  unfold Obligations.ArrivalFlipsPhase
  intro d o by_ expected arrived gen phase hd hobj
  rw [d.objectValue_settle o] at hobj
  obtain ⟨f, harrive⟩ := d.arrive_eq o by_
  have hvalue : (d.arrive o by_).objectValue o = (arriveValue (d.objectValue o)).1 % 2 ^ 64 := by
    rw [harrive, Device.objectValue_withBars (d.clear_putObject _ _ _), Device.objectValue_putObject hd]
  refine ⟨fun sp a hout hacc => ?_, ?_⟩
  · rw [harrive, Device.byteAt_withBars]
    exact d.keepsOtherBytes_putObject o false _ sp a hout hacc
  · rw [hvalue]
    exact arriveValue_objectIs (d.objectValue_lt o) hobj

end Sys2Proof.Machine
end

section
/-! PROOF of O31 and O32: the barrier instructions by the checks of their object, its value and its phase (08 R182, R185; 09 R205 to
R208). -/

namespace Sys2Proof.Machine

open Sys2Proof Sys2Proof.Claims

/-! ## The object that an instruction names -/

/-- U, ALIGN, BOUND and LOCK pass where the object's checks do (09 R205). -/
theorem objectCheck_ok {h : Hdr} {b : BitVec 6} {v : View} {hit : ObjRef → RangeLock → Bool} (hobj : ObjectClear h b v hit) :
    v.objectCheck (v.active h) b hit = .ok := by
  obtain ⟨hu, halign, o, ho, hfree⟩ := hobj
  refine Check.seq_ok (fun c hc => ?_)
  simp only [List.mem_cons, List.not_mem_nil, or_false] at hc
  rcases hc with rfl | rfl | rfl
  · exact Check.need_true hu
  · exact if_pos halign
  · change (match v.object (objectAddr h b v) with | none => _ | some o => _) = _
    rw [ho]
    exact if_neg (by rw [ObjRef.place, hfree]; simp)

theorem CompletesOnce.imp {i : Instr} {s : State} {vs : List View} {P Q : View → State → State → Prop}
    (h : CompletesOnce i s vs P) (hPQ : ∀ v ∈ activeOnce i vs, ∀ t, P v s t → Q v s t) : CompletesOnce i s vs Q := by
  obtain ⟨t, hexec, heach⟩ := h
  refine ⟨t, hexec, ?_⟩
  unfold activeOnce at hPQ heach ⊢
  cases hact : actives i vs with
  | nil =>
    rw [hact] at heach
    exact heach
  | cons v l =>
    rw [hact] at hPQ heach
    obtain ⟨r, hP, hr⟩ := heach
    exact ⟨r, hPQ v List.mem_cons_self r hP, hr⟩

/-! ## BARINIT (09 R206) -/

/-- What BARINIT asks of its count and its object. -/
def InitReady (h : Hdr) (a : BitVec 7) (b : BitVec 6) (d : Device) (v : View) : Prop :=
  v.isU (h.a a) 32 = true ∧ 1 ≤ v.readLowest (v.active h) (h.a a) 32 ∧ v.readLowest (v.active h) (h.a a) 32 < 2 ^ 16 ∧
    ObjectOk d h b v (fun _ => hitsBarrier) ∧ ∀ o, v.object (objectAddr h b v) = some o → v.barriersFull o = false

theorem InitReady.operands {h : Hdr} {a : BitVec 7} {b : BitVec 6} {d : Device} {v : View} (hready : InitReady h a b d v) :
    (meaningBarinit h a b).operands v (v.active h) = .ok := by
  obtain ⟨hu, hlow, hhigh, ⟨hclear, -⟩, hroom⟩ := hready
  have hcell : v.isU (cellSlice b) 32 = true := hclear.1
  refine Check.seq_ok (fun c hc => ?_)
  simp only [List.mem_cons, List.not_mem_nil, or_false] at hc
  rcases hc with rfl | rfl | rfl | rfl
  · exact Check.need_true (by rw [hu, hcell]; rfl)
  · exact Check.need_true (by rw [decide_eq_true hlow, decide_eq_true hhigh]; rfl)
  · exact objectCheck_ok hclear
  · change (match v.object (objectAddr h b v) with | some o => _ | none => _) = _
    cases ho : v.object (objectAddr h b v) with
    | none => rfl
    | some o => exact if_neg (by rw [hroom o ho]; simp)

/-- A count below 2^16 is an object with that count, no arrival, phase 0 and generation 0 (08 Table 08-7). -/
theorem objectIs_count {n : Nat} (h : n < 2 ^ 16) : ObjectIs (n % 2 ^ 64) n 0 false 0 := by
  refine ⟨by omega, by omega, ?_, by omega⟩
  rw [Nat.testBit_eq_decide_div_mod_eq]
  exact decide_eq_false (by omega)

theorem barinit_completes {h : Hdr} {a : BitVec 7} {b : BitVec 6} (hwf : (Instr.barinit h a b).wf = true) {s : State} {iss : Issue}
    {vs : List View} (hI : Issuing s iss vs) (hb : InBudget vs [(h.a a, 8), (8 * b.toNat, 8)])
    (hready : ∀ v ∈ activeOnce (.barinit h a b) vs, InitReady h a b s.dev v) :
    CompletesOnce (.barinit h a b) s vs (fun v s t => ∀ o, v.object (objectAddr h b v) = some o →
      t = { s with dev := (s.dev.putObject o true (v.readLowest (v.active h) (h.a a) 32)).barrierLock v o }) := by
  have hcheck : (meaningBarinit h a b).check (.barinit h a b) vs s.dev = .ok :=
    ChecksOperands.check_ok ⟨rfl, rfl, rfl, rfl, rfl⟩ hwf s.dev hb
      (fun v hv hact => (hready v (mem_activeOnce rfl hv hact)).operands)
  refine completesOnce_of_effect (m := meaningBarinit h a b) rfl hI hcheck rfl rfl rfl (fun v hv => ?_)
  obtain ⟨-, -, -, ⟨⟨-, -, o, ho, -⟩, -⟩, -⟩ := hready v hv
  refine ⟨{ s with dev := (s.dev.putObject o true (v.readLowest (v.active h) (h.a a) 32)).barrierLock v o }, ?_, fun o' ho' => ?_⟩
  · change (match v.object (objectAddr h b v) with | none => _ | some o => _) = _
    rw [ho]
    rfl
  · rw [Option.some.inj (ho.symm.trans ho')]

/-! ## BARARR and BARARRW (09 R206, R207) -/

/-- The token of an object is its upper half. -/
theorem token_eq (d : Device) (o : ObjRef) : d.token o = d.objectValue o / 2 ^ 32 := by
  have hlt := d.objectValue_lt o
  simp only [Device.token, bitsN]
  omega

/-- A group's arrival completes where the checks of its object pass and nothing is logged, and then has what follows it. -/
theorem groupArrival_completes {i : Instr} {h : Hdr} {d : BitVec 7} {b : BitVec 6} {after : View → ObjRef → Nat → State → State}
    (hm : meaningOf i = some (groupArrival i h d b after)) (hlanes : ∀ v, Instr.lanes i v = v.active h) (hwf : i.wf = true)
    {s : State} {iss : Issue} {vs : List View} (hI : Issuing s iss vs) (hb : InBudget vs [(8 * b.toNat, 8), (h.d d, 8)])
    (hok : ∀ v ∈ vs, Quiet s.dev v ∧ ObjectOk s.dev h b v (fun _ => hitsBarrier)) :
    CompletesOnce i s vs (fun v s t => ∀ o, v.object (objectAddr h b v) = some o → ∃ r, Arrived h d o v s r ∧
      t = after v o ((s.dev.settle o.space o.off 8 false).objectValue o / 2 ^ 32) r) := by
  have hcheck : (groupArrival i h d b after).check i vs s.dev = .ok := by
    refine Meaning.check_ok hwf (fun _ _ => rfl) (fun v hv p hp => hb v hv p ?_)
      (fun v hv => Meaning.checkRest_ok rfl (fun _ => ?_)) (fun v hv => ?_)
    · rwa [groupArrival, List.append_nil] at hp
    · rw [hlanes]
      exact objectCheck_ok (hok v (Meaning.acts_mem hv)).2.1
    · exact arrivalCheck_quiet (hok v (List.mem_of_head? hv)).1 _ _
  refine completesOnce_of_effect hm hI hcheck (recordArrivals_quiet (fun v hv => (hok v hv).1)) rfl rfl (fun v hv => ?_)
  have hmem : v ∈ vs := List.mem_of_mem_filter (List.mem_of_mem_take hv)
  obtain ⟨-, ⟨-, -, o, ho, -⟩, hlost⟩ := hok v hmem
  refine ⟨after v o ((s.dev.settle o.space o.off 8 false).objectValue o / 2 ^ 32) (State.writeOne
    { s with dev := s.dev.arrive o (some v.groupIndex) } v h (h.d d) 32
    ((s.dev.settle o.space o.off 8 false).objectValue o / 2 ^ 32)), ?_, fun o' ho' => ?_⟩
  · rw [hlanes]
    change (match v.object (objectAddr h b v) with | none => _ | some o => _) = _
    rw [ho]
    simp only [Device.objectLost, hlost o ho, token_eq]
  · obtain rfl : o = o' := Option.some.inj (ho.symm.trans ho')
    exact ⟨_, writeOne_wroteAll _ v h (h.d d) _ (by decide) (by decide), rfl⟩

/-! ## Waits (09 R207, R208) -/

/-- A wait goes on or sleeps by the phase of its object. -/
theorem waitOn_waited (s : State) (v : View) (o : ObjRef) (tok : Bool) (w : Wait) : Waited v o tok w s (s.waitOn v o tok w) := by
  unfold Waited State.waitOn
  by_cases hphase : s.dev.phase o = tok <;> simp [hphase, State.countPhase, State.sleepIn]

/-- A wait without a deadline completes where the checks of its object pass. -/
theorem objectWait_completes {i : Instr} {h : Hdr} {d : BitVec 7} {b : BitVec 6} {w : Word → Bool → Wait}
    (hm : meaningOf i = some (objectWait h d b w)) (hlanes : ∀ v, Instr.lanes i v = v.active h) (hwf : i.wf = true)
    {s : State} {iss : Issue} {vs : List View} (hI : Issuing s iss vs) (hb : InBudget vs [(8 * b.toNat, 8), (h.d d, 8)])
    (hok : ∀ v ∈ vs, ObjectOk s.dev h b v v.hitsWait) :
    CompletesOnce i s vs (fun v s t => ∀ o, v.object (objectAddr h b v) = some o →
      Waited v o ((v.readLowest (v.active h) (h.d d) 32).testBit 0)
        (w (BitVec.ofNat 32 (objectAddr h b v)) ((v.readLowest (v.active h) (h.d d) 32).testBit 0)) s t) := by
  have hcheck : (objectWait h d b w).check i vs s.dev = .ok :=
    ChecksOperands.check_ok ⟨rfl, rfl, rfl, rfl, rfl⟩ hwf s.dev hb
      (fun v hv _ => hlanes v ▸ objectCheck_ok (hok v (Meaning.acts_mem hv)).1)
  refine completesOnce_of_effect hm hI hcheck rfl rfl rfl (fun v hv => ?_)
  have hmem : v ∈ vs := List.mem_of_mem_filter (List.mem_of_mem_take hv)
  obtain ⟨⟨-, -, o, ho, -⟩, hlost⟩ := hok v hmem
  have heffect : (objectWait h d b w).effect v (Instr.lanes i v) s =
      .ok (s.waitOn v o ((v.readLowest (v.active h) (h.d d) 32).testBit 0)
        (w (BitVec.ofNat 32 (objectAddr h b v)) ((v.readLowest (v.active h) (h.d d) 32).testBit 0))) := by
    rw [hlanes]
    change (match v.object (objectAddr h b v) with | none => _ | some o => _) = _
    rw [ho]
    simp only [Device.objectLost, hlost o ho, bitN_eq]
    rfl
  refine ⟨_, heffect, fun o' ho' => ?_⟩
  obtain rfl : o = o' := Option.some.inj (ho.symm.trans ho')
  exact waitOn_waited ..

/-! ## SLEEPUNTIL (08 R182) -/

section
variable {h : Hdr} {d a : BitVec 7} {b : BitVec 6} {s : State} {iss : Issue} {v : View} (hI : Issuing s iss [v])
  (hl : s.latch = none) (hq : Quiet s.dev v) (hok : ObjectOk s.dev h b v v.hitsWait)
include hI hl hq hok

theorem sleepuntil_operands : (meaningSleepuntil h d a b).operands v (v.active h) = .ok := by
  have hctx : v.ctx = s.dev.ctx v.c := (hI.shows_dev hl List.mem_cons_self).ctx_eq
  obtain ⟨-, hlogs⟩ := hq
  refine Check.seq_ok (fun c hc => ?_)
  simp only [List.mem_cons, List.not_mem_nil, or_false] at hc
  rcases hc with rfl | rfl
  · exact objectCheck_ok hok.1
  · simp [hctx, hlogs]

/-- SLEEPUNTIL sleeps until its deadline, and checks the phase of a deadline that is reached. -/
theorem sleepuntil_effect {o : ObjRef} (ho : v.object (objectAddr h b v) = some o) :
    (meaningSleepuntil h d a b).effect v (v.active h) s = .ok (
      if v.dev.cyc.toNat < v.readLowest (v.active h) (h.a a) 64 then
        s.sleepIn v (.until (BitVec.ofNat 32 (objectAddr h b v)) ((v.readLowest (v.active h) (h.d d) 32).testBit 0))
          (BitVec.ofNat 64 (v.readLowest (v.active h) (h.a a) 64))
      else if s.dev.phase o ≠ (v.readLowest (v.active h) (h.d d) 32).testBit 0 then s.countPhase v
      else s.trap iss (.sleepuntil h d a b)
        { cause := causePromise, detail := v.readLowest (v.active h) (h.a a) 64, lanes := none }) := by
  have hshows := hI.shows_dev hl List.mem_cons_self
  have hend := View.untilEnd_quiet hq hshows.ctx_eq o ((v.readLowest (v.active h) (h.d d) 32).testBit 0)
  have hs : ({ s with dev := s.dev, latch := none } : State) = s := by rw [← hl]
  change (match v.object (objectAddr h b v) with | none => _ | some o => _) = _
  rw [ho]
  simp only [Device.objectLost, hok.2 o ho, bitN_eq, hend]
  split_ifs with hearly hphase
  · rfl
  · rfl
  · simp only [hs, hshows.iss_eq, untilTrap, if_true]

theorem exec_sleepuntil (hwf : (Instr.sleepuntil h d a b).wf = true)
    (hb : InBudget [v] [(h.a a, 16), (8 * b.toNat, 8), (h.d d, 8)]) (hact : v.active h ≠ 0) {o : ObjRef}
    (ho : v.object (objectAddr h b v) = some o) : exec (.sleepuntil h d a b) s = .next (
      if v.dev.cyc.toNat < v.readLowest (v.active h) (h.a a) 64 then
        s.sleepIn v (.until (BitVec.ofNat 32 (objectAddr h b v)) ((v.readLowest (v.active h) (h.d d) 32).testBit 0))
          (BitVec.ofNat 64 (v.readLowest (v.active h) (h.a a) 64))
      else if s.dev.phase o ≠ (v.readLowest (v.active h) (h.d d) 32).testBit 0 then s.countPhase v
      else s.trap iss (.sleepuntil h d a b)
        { cause := causePromise, detail := v.readLowest (v.active h) (h.a a) 64, lanes := none }) := by
  have hcheck : (meaningSleepuntil h d a b).check (.sleepuntil h d a b) [v] s.dev = .ok := by
    refine ChecksOperands.check_ok ⟨rfl, rfl, rfl, rfl, rfl⟩ hwf s.dev hb (fun u hu _ => ?_)
    rw [List.mem_singleton.mp (Meaning.acts_mem hu)]
    exact sleepuntil_operands hI hl hq hok
  rw [exec_eq_runWord (m := meaningSleepuntil h d a b) rfl]
  refine runWord_next hI hcheck ?_
  have hrun := Meaning.run_acting (m := meaningSleepuntil h d a b) (i := .sleepuntil h d a b) rfl rfl (actingView_single _ v)
    (.inr hact) s
  exact hrun.trans (sleepuntil_effect hI hl hq hok ho)

end

/-! ## The statements -/

/-- Settles O31: BARINIT by its object written, the arrivals by the object's next value, and BARARRW's wait by the phase that its token
holds. -/
theorem barrierInitAndArrive : Obligations.BarrierInitAndArrive := by
  unfold Obligations.BarrierInitAndArrive
  refine ⟨?_, fun h d b s iss vs hI hb hok => ⟨fun hwf => ?_, fun hwf => ?_⟩⟩
  · intro h a b hwf s iss vs hI hb count hready
    refine (barinit_completes hwf hI hb hready).imp (fun v hv t ht o ho => ⟨_, ht o ho, fun hd => ⟨?_, ?_⟩⟩)
    · obtain ⟨-, -, hhigh, -⟩ := hready v hv
      rw [Device.objectValue_putObject (objectAt_wg ho ▸ hd)]
      exact objectIs_count hhigh
    · exact s.dev.keepsOtherBytes_putObject o true _
  · refine (groupArrival_completes rfl (fun _ => rfl) hwf hI hb hok).imp (fun v _ t ht o ho => ?_)
    obtain ⟨r, harrived, rfl⟩ := ht o ho
    exact harrived
  · refine (groupArrival_completes rfl (fun _ => rfl) hwf hI hb hok).imp (fun v _ t ht o ho => ?_)
    obtain ⟨r, harrived, rfl⟩ := ht o ho
    refine ⟨r, harrived, ?_⟩
    have htok : bitN ((s.dev.settle o.space o.off 8 false).objectValue o / 2 ^ 32) 0 =
        ((s.dev.settle o.space o.off 8 false).objectValue o).testBit 32 := by
      rw [bitN_eq, Nat.testBit_div_two_pow]
    simp only [htok]
    exact waitOn_waited ..

/-- Settles O32: the waits by the phase of their object, SLEEPUNTIL by its deadline first. -/
theorem barrierAndPromiseWaits : Obligations.BarrierAndPromiseWaits := by
  unfold Obligations.BarrierAndPromiseWaits
  refine ⟨fun h d b s iss vs hI hb hok => ⟨fun hwf => ?_, fun hwf => ?_⟩, ?_⟩
  · exact objectWait_completes rfl (fun _ => rfl) hwf hI hb hok
  · exact objectWait_completes rfl (fun _ => rfl) hwf hI hb hok
  · intro h d a b hwf s iss v hI hl hb hact hq hok o ho
    have hiss : v.iss = iss := (hI.shows List.mem_cons_self).iss_eq
    have hexec := exec_sleepuntil hI hl hq hok hwf hb hact ho
    rwa [State.sleepIn, hiss] at hexec

end Sys2Proof.Machine
end

section
/-! PROOF of O37: TMAP's contents by the fields of 08 Table 08-3, and its entry by the table's own lemmas (08 R176; 09 R204). -/

namespace Sys2Proof.Machine

open Sys2Proof Sys2Proof.Claims

/-! ## The fields of an entry -/

/-- A field of a vector as a number. -/
theorem bitsN_toNat {w : Nat} (m : BitVec w) (lo n : Nat) : bitsN m.toNat lo n = (m.extractLsb' lo n).toNat := by
  rw [BitVec.extractLsb'_toNat, Nat.shiftRight_eq_div_pow, bitsN]

theorem bitsN_eq_zero {w : Nat} (m : BitVec w) (lo n : Nat) : bitsN m.toNat lo n = 0 ↔ m.extractLsb' lo n = 0 := by
  rw [bitsN_toNat, ← BitVec.toNat_inj, BitVec.ofNat_eq_ofNat, BitVec.toNat_ofNat, Nat.zero_mod]

/-- A field is zero where each of its bits is. -/
theorem extractLsb'_eq_zero {w : Nat} (m : BitVec w) (lo n : Nat) :
    m.extractLsb' lo n = 0 ↔ ∀ j, lo ≤ j → j < lo + n → m.getLsbD j = false := by
  refine ⟨fun h j hlo hhi => ?_, fun h => BitVec.eq_of_getLsbD_eq (fun i hi => ?_)⟩
  · have hbit := congrArg (fun x => BitVec.getLsbD x (j - lo)) h
    simpa [BitVec.getLsbD_extractLsb', show j - lo < n by omega, show lo + (j - lo) = j by omega] using hbit
  · rw [BitVec.getLsbD_extractLsb', h (lo + i) (by omega) (by omega)]
    simp

theorem tmFmt_eq (m : BitVec 1024) : tmFmt m = m.extractLsb' 68 4 :=
  BitVec.eq_of_toNat_eq (by rw [← bitsN_toNat, tmFmt, BitVec.toNat_ofNat, bitsN])

theorem tmSpace_eq (m : BitVec 1024) : tmSpace m = m.extractLsb' 72 2 :=
  BitVec.eq_of_toNat_eq (by rw [← bitsN_toNat, tmSpace, BitVec.toNat_ofNat, bitsN])

/-- The three fields that are zero are the bits that are. -/
theorem tmZero_iff (m : BitVec 1024) :
    (bitsN m.toNat 67 1 = 0 ∧ bitsN m.toNat 74 22 = 0 ∧ bitsN m.toNat 816 208 = 0) ↔
      ∀ j, j = 67 ∨ 74 ≤ j ∧ j < 96 ∨ 816 ≤ j → m.getLsbD j = false := by
  simp only [bitsN_eq_zero, extractLsb'_eq_zero]
  refine ⟨fun ⟨hbit, hlow, hhigh⟩ j hj => ?_, fun h => ⟨fun j _ _ => h j (by omega), fun j _ _ => h j (by omega),
    fun j _ _ => h j (by omega)⟩⟩
  rcases hj with rfl | ⟨hlo, hhi⟩ | hlo
  · exact hbit 67 (by omega) (by omega)
  · exact hlow j hlo (by omega)
  · by_cases hhi : j < 1024
    · exact hhigh j hlo (by omega)
    · exact BitVec.getLsbD_of_ge m j (by omega)

theorem tmDims_iff (m : BitVec 1024) :
    ((List.range 7).all (fun j => if tmRank m ≤ j then tmExt m j = 0 && tmBox m j = 0 else tmExt m j ≠ 0 && tmBox m j ≠ 0)) = true ↔
      ∀ j, j < 7 →
        if (m.extractLsb' 64 3).toNat ≤ j then m.extractLsb' (96 + 32 * j) 32 = 0 ∧ m.extractLsb' (704 + 16 * j) 16 = 0
        else m.extractLsb' (96 + 32 * j) 32 ≠ 0 ∧ m.extractLsb' (704 + 16 * j) 16 ≠ 0 := by
  rw [List.all_eq_true]
  refine forall_congr' (fun j => imp_congr List.mem_range ?_)
  rw [tmRank, bitsN_toNat, tmExt, tmBox]
  split_ifs
  · rw [Bool.and_eq_true, decide_eq_true_eq, decide_eq_true_eq, bitsN_eq_zero, bitsN_eq_zero]
  · rw [Bool.and_eq_true, decide_eq_true_eq, decide_eq_true_eq, ne_eq, ne_eq, bitsN_eq_zero, bitsN_eq_zero]

theorem tmStrides_iff (m : BitVec 1024) :
    ((List.range 6).all (fun j => decide (tmStride m (j + 1) % fmtBytes (tmFmt m) = 0))) = true ↔
      ∀ j, j < 6 → (m.extractLsb' (320 + 64 * j) 64).toNat % fmtBytes (m.extractLsb' 68 4) = 0 := by
  rw [List.all_eq_true]
  refine forall_congr' (fun j => imp_congr List.mem_range ?_)
  rw [decide_eq_true_eq, tmStride, Nat.add_sub_cancel, bitsN_toNat, tmFmt_eq]

theorem tmEven_iff (m : BitVec 1024) :
    (!(fmtBits (tmFmt m).toNat = 4 && tmBox m 0 % 2 = 1)) = true ↔
      (fmtBits (m.extractLsb' 68 4).toNat = 4 → (m.extractLsb' 704 16).toNat % 2 = 0) := by
  rw [tmFmt_eq, tmBox, bitsN_toNat, Bool.not_eq_true', Bool.and_eq_false_imp, decide_eq_true_eq, decide_eq_false_iff_not]
  exact imp_congr Iff.rfl Nat.mod_two_ne_one

/-- The contents that TMAP, the loader and START take are those that keep the rules (08 R176). -/
theorem tmOk_iff (m : BitVec 1024) : tmOk m = true ↔ MapOk m := by
  have hspace : (tmSpace m != 3) = true ↔ m.extractLsb' 72 2 ≠ 3 := by rw [tmSpace_eq, bne_iff_ne]
  have hrank : decide (1 ≤ tmRank m) = true ↔ m.extractLsb' 64 3 ≠ 0 := by
    rw [decide_eq_true_eq, ne_eq, ← bitsN_eq_zero, Nat.one_le_iff_ne_zero, tmRank]
  have hzero (lo n : Nat) : decide (bitsN m.toNat lo n = 0) = true ↔ bitsN m.toNat lo n = 0 := decide_eq_true_iff
  rw [tmOk]
  simp only [Bool.and_eq_true, hzero, hspace, hrank, tmDims_iff, tmStrides_iff, tmEven_iff]
  constructor
  · rintro ⟨⟨⟨⟨⟨⟨⟨hbit, hlow⟩, hhigh⟩, hs⟩, hr⟩, hdims⟩, hstrides⟩, heven⟩
    exact ⟨(tmZero_iff m).mp ⟨hbit, hlow, hhigh⟩, hs, hr, hdims, hstrides, heven⟩
  · rintro ⟨hz, hs, hr, hdims, hstrides, heven⟩
    obtain ⟨hbit, hlow, hhigh⟩ := (tmZero_iff m).mpr hz
    exact ⟨⟨⟨⟨⟨⟨⟨hbit, hlow⟩, hhigh⟩, hs⟩, hr⟩, hdims⟩, hstrides⟩, heven⟩

/-! ## The entry written -/

/-- Leaving out the entries of one number leaves those of the others. -/
theorem tableGet_filter {α : Type} (d : α) (t : Table α) (n k : Nat) :
    tableGet d (t.filter (fun p => p.1 != n)) k = if k = n then d else tableGet d t k := by
  induction t with
  | nil => exact (ite_self d).symm
  | cons p t ih =>
    by_cases hp : p.1 = n
    · rw [List.filter_cons_of_neg (by simp [hp]), ih]
      by_cases hk : k = n
      · rw [if_pos hk, if_pos hk]
      · rw [if_neg hk, if_neg hk, tableGet, if_neg (by rw [hp]; exact Ne.symm hk)]
    · rw [List.filter_cons_of_pos (by simp [hp]), tableGet, ih, tableGet]
      by_cases hk : p.1 = k
      · rw [if_pos hk, if_neg (by rwa [← hk]), if_pos hk]
      · rw [if_neg hk, if_neg hk]

theorem tmap_setTmap (c : Context) (n k : Nat) (m : BitVec 1024) : (c.setTmap n m).tmap k = if k = n then m else c.tmap k := by
  unfold Context.setTmap Context.tmap
  by_cases hzero : m = 0
  · rw [if_pos hzero, tableGet_filter, hzero]
  · rw [if_neg hzero, tableGet_tableSet]

/-! ## TMAP -/

section
variable {h : Hdr} {a : BitVec 7} {b : BitVec 6} {v : View}

/-- What TMAP asks of its operands. -/
def MapReady (h : Hdr) (a : BitVec 7) (b : BitVec 6) (v : View) : Prop :=
  (v.isU (h.a a) 32 = true ∧ v.cellsU (8 * b.toNat) 32 = true) ∧ v.readLowest (v.active h) (h.a a) 32 < 256 ∧
    MapOk (v.mapCells (v.active h) b)

/-- TMAP's operands pass where they are as it asks, and else are ILLEGAL. -/
theorem tmap_operands : (meaningTmap h a b).operands v (v.active h) = .ok ∧ MapReady h a b v ∨
    (meaningTmap h a b).operands v (v.active h) = .illegal ∧ ¬ MapReady h a b v := by
  have hmarked : (v.isU (h.a a) 32 && v.cellsU (cellSlice b) 32) = true ↔
      v.isU (h.a a) 32 = true ∧ v.cellsU (8 * b.toNat) 32 = true := Bool.and_eq_true_iff
  have hkept : (decide (v.readLowest (v.active h) (h.a a) 32 < 256) && tmOk (v.mapCells (v.active h) b)) = true ↔
      v.readLowest (v.active h) (h.a a) 32 < 256 ∧ MapOk (v.mapCells (v.active h) b) := by
    rw [Bool.and_eq_true, decide_eq_true_iff, tmOk_iff]
  unfold MapReady
  rw [← hmarked, ← hkept]
  change (Check.seq [Check.need _, Check.need _] = Check.ok ∧ _) ∨ (Check.seq [Check.need _, Check.need _] = Check.illegal ∧ _)
  generalize (v.isU (h.a a) 32 && v.cellsU (cellSlice b) 32) = p
  generalize (decide (v.readLowest (v.active h) (h.a a) 32 < 256) && tmOk (v.mapCells (v.active h) b)) = q
  revert p q
  decide

end

/-- Settles O37: the contents by their fields, the entry by the table's update, and the instruction by its two checks. -/
theorem tensorMapWrite : Obligations.TensorMapWrite := by
  unfold Obligations.TensorMapWrite
  refine ⟨tmOk_iff, tmap_setTmap, ?_⟩
  intro h a b hwf s iss vs hI hb entry bits marked
  have hops : ChecksOperands (meaningTmap h a b) := ⟨rfl, rfl, rfl, rfl, rfl⟩
  refine ⟨fun hready => ?_, ?_⟩
  · have hcheck : (meaningTmap h a b).check (.tmap h a b) vs s.dev = .ok := by
      refine hops.check_ok hwf s.dev hb (fun v hv hact => ?_)
      obtain ⟨hok, -⟩ | ⟨-, hbad⟩ := tmap_operands (h := h) (a := a) (b := b) (v := v)
      · exact hok
      · exact absurd (hready v (mem_activeOnce rfl hv hact)) hbad
    exact completesOnce_of_effect (m := meaningTmap h a b) rfl hI hcheck rfl rfl rfl (fun v _ => ⟨_, rfl, rfl⟩)
  · rintro v rfl hact hbad
    obtain ⟨-, hready⟩ | ⟨hill, -⟩ := tmap_operands (h := h) (a := a) (b := b) (v := v)
    · obtain ⟨hmarked, hentry, hok⟩ := hready
      rcases hbad with hbad | hbad | hbad
      · exact absurd hmarked hbad
      · exact absurd hentry (by simpa [entry] using hbad)
      · exact absurd hok hbad
    · exact exec_illegal_of_operands (m := meaningTmap h a b) rfl hops hwf hI hb hact hill

end Sys2Proof.Machine
end

section
/-! SUPPORT. What a copy checks at issue (08 R171 to R173, R185; 09 R203): its ranges, its own overlaps and its object, and the first
range that fails. -/

namespace Sys2Proof.Machine

open Sys2Proof Sys2Proof.Claims

/-! ## Lists of checks -/

/-- Checks of the elements of a list answer what the first element that fails does. -/
theorem Check.seq_map_first {α : Type} {bad : α → Bool} {f : α → Check} (hok : ∀ x, bad x = false → f x = .ok)
    (hbad : ∀ x, bad x = true → f x ≠ .ok) {l : List α} {r : α} {rest : List α} (h : l.filter bad = r :: rest) :
    Check.seq (l.map f) = f r := by
  induction l with
  | nil => cases h
  | cons x l ih =>
    cases hx : bad x with
    | false =>
      rw [List.filter_cons_of_neg (by simp [hx])] at h
      rw [List.map_cons, hok x hx]
      exact ih h
    | true =>
      rw [List.filter_cons_of_pos hx] at h
      cases h
      have hne := hbad r hx
      rw [List.map_cons]
      cases hf : f r with
      | ok => exact absurd hf hne
      | trap t => rw [Check.seq]; exact nofun
      | wait => rw [Check.seq]; exact nofun

/-! ## Ranges -/

/-- ALIGN of one range. -/
def alignOf (r : Reach) : Check := if r.addr % r.align = 0 then .ok else .fail causeAlign r.addr

/-- BOUND of one range. -/
def boundOf (v : View) (r : Reach) : Check :=
  match r.range with
  | none => if v.badAddr r then .fail causeBound r.addr else .ok
  | some b => if (v.range r.space r.write b).isSome then .ok else .fail causeBound b.1

theorem reachCheck_eq (v : View) (rs : List Reach) : v.reachCheck rs = Check.seq (rs.map alignOf ++ rs.map (boundOf v)) := rfl

/-- An address that breaks its space's rule whatever it moves (08 R171 to R173). -/
theorem badAddr_eq (v : View) (r : Reach) : v.badAddr r = decide (r.space = 0 ∧ 2 ^ 57 ≤ r.addr ∨ r.space = 1 ∧ 2 ^ 29 ≤ r.addr ∨
    r.space ≠ 0 ∧ r.space ≠ 1 ∧ (v.shared r.addr 0).isNone) := by
  have hcodes : ∀ x : BitVec 2, x = 0 ∨ x = 1 ∨ x = 2 ∨ x = 3 := by decide
  rcases hcodes r.space with h | h | h | h <;> simp only [View.badAddr, h] <;> simp [-Option.isNone_iff_eq_none]

/-- A range outside its space, or with an address that breaks its space's rule. -/
def outsideOf (v : View) (r : Reach) : Bool :=
  match r.range with
  | none => decide (r.space = 0 ∧ 2 ^ 57 ≤ r.addr ∨ r.space = 1 ∧ 2 ^ 29 ≤ r.addr ∨
      r.space ≠ 0 ∧ r.space ≠ 1 ∧ (v.shared r.addr 0).isNone)
  | some b => (v.range r.space r.write b).isNone

/-- The address that BOUND of a range names. -/
def boundAddr (r : Reach) : Nat := match r.range with | none => r.addr | some b => b.1

theorem boundOf_eq (v : View) (r : Reach) : boundOf v r = if outsideOf v r then .fail causeBound (boundAddr r) else .ok := by
  unfold boundOf outsideOf boundAddr
  rw [← badAddr_eq]
  cases r.range with
  | none => rfl
  | some b =>
    cases h : v.range r.space r.write b <;> simp [h]

/-- Ranges that break the alignment of their elements are ALIGN at the first such address. -/
theorem reachCheck_align (v : View) {rs rest : List Reach} {r : Reach}
    (h : rs.filter (fun r => decide (r.addr % r.align ≠ 0)) = r :: rest) : v.reachCheck rs = .fail causeAlign r.addr := by
  have hr : r.addr % r.align ≠ 0 := of_decide_eq_true (List.mem_filter.mp (h ▸ List.mem_cons_self : r ∈ rs.filter _)).2
  have hfirst : Check.seq (rs.map alignOf) = .fail causeAlign r.addr := by
    rw [Check.seq_map_first (f := alignOf) (fun x hx => if_pos (by simpa using hx)) (fun x hx => ?_) h, alignOf, if_neg hr]
    rw [alignOf, if_neg (of_decide_eq_true hx)]
    exact Check.fail_ne_ok _ _
  rw [reachCheck_eq, Check.seq_first hfirst (Check.fail_ne_ok _ _)]

theorem aligned_ok {rs : List Reach} (h : ∀ r ∈ rs, r.addr % r.align = 0) : Check.seq (rs.map alignOf) = .ok := by
  refine Check.seq_ok (fun c hc => ?_)
  obtain ⟨r, hr, rfl⟩ := List.mem_map.mp hc
  exact if_pos (h r hr)

/-- Aligned ranges of which one is outside are BOUND at the first such range. -/
theorem reachCheck_bound {v : View} {rs rest : List Reach} {r : Reach} (hal : ∀ r ∈ rs, r.addr % r.align = 0)
    (h : rs.filter (outsideOf v) = r :: rest) : v.reachCheck rs = .fail causeBound (boundAddr r) := by
  have hr : outsideOf v r = true := (List.mem_filter.mp (h ▸ List.mem_cons_self : r ∈ rs.filter _)).2
  rw [reachCheck_eq, Check.seq_append _ _ (aligned_ok hal),
    Check.seq_map_first (fun x hx => by rw [boundOf_eq, hx]; rfl) (fun x hx => ?_) h, boundOf_eq, if_pos hr]
  rw [boundOf_eq, if_pos hx]
  exact Check.fail_ne_ok _ _

section
variable {v : View} {rs : List Reach} {ps : List (Place × Nat × Bool)} {bar : Nat} {meet : Bool → Bool → Bool}
  (hr : RangesOk v rs ps bar meet)
include hr

/-- Ranges that pass their checks lie inside. -/
theorem outsideOf_rangesOk {r : Reach} (hmem : r ∈ rs) : outsideOf v r = false := by
  unfold outsideOf
  cases hrange : r.range with
  | none =>
    obtain ⟨hmain, hspad, hshared⟩ := hr.low r hmem hrange
    refine decide_eq_false ?_
    rintro (⟨h0, hhigh⟩ | ⟨h1, hhigh⟩ | ⟨h0, h1, hnone⟩)
    · exact absurd (hmain h0) (not_lt.mpr hhigh)
    · exact absurd (hspad h1) (not_lt.mpr hhigh)
    · exact Bool.false_ne_true ((Option.isSome_eq_false_iff.mpr hnone).symm.trans (hshared h0 h1))
  | some b =>
    change (v.range r.space r.write b).isNone = false
    rw [Option.isNone_eq_false_iff]
    exact hr.inside r hmem b hrange

theorem reachCheck_ok : v.reachCheck rs = .ok := by
  rw [reachCheck_eq, Check.seq_append _ _ (aligned_ok hr.aligned)]
  refine Check.seq_ok (fun c hc => ?_)
  obtain ⟨r, hmem, rfl⟩ := List.mem_map.mp hc
  rw [boundOf_eq, outsideOf_rangesOk hr hmem]
  rfl

end

/-- Places that are apart where they must be do not meet their own locks. -/
theorem ownOverlap_ok {meet : Bool → Bool → Bool} {ps : List (Place × Nat × Bool)}
    (h : ps.Pairwise (fun p q => meet p.2.2 q.2.2 = true → placesOverlap p.1 p.2.1 q.1 q.2.1 = false)) : ownOverlap meet ps = .ok := by
  induction ps with
  | nil => rfl
  | cons p t ih =>
    obtain ⟨hfirst, hrest⟩ := List.pairwise_cons.mp h
    have hnone : t.find? (fun q => meet p.2.2 q.2.2 && placesOverlap p.1 p.2.1 q.1 q.2.1) = none := by
      refine List.find?_eq_none.mpr (fun q hq => ?_)
      rw [Bool.and_eq_true, not_and, Bool.not_eq_true]
      exact hfirst q hq
    obtain ⟨p, n, w⟩ := p
    simp only [ownOverlap, hnone]
    exact ih hrest

end Sys2Proof.Machine
end

section
/-! SUPPORT. A request in the copy queue (08 R185, R190), and one that retires at once (08 R181, Table 08-5). -/

namespace Sys2Proof.Machine

open Sys2Proof Sys2Proof.Claims

/-! ## Issue -/

/-- A group with one more request of a view's agent counted. -/
def View.countedGroup (v : View) (g : Group) : Group := g.modAgent v.half (fun a => { a with reqSeq := a.reqSeq + 1 })

/-- The device with one more request of a group counted. -/
def Device.countRequest (d : Device) (v : View) : Device := d.modGroup v.wg.uid v.home v.countedGroup

/-- A request as it is issued: its number, its sequence number, its promise and the elements done. -/
def View.numbered (v : View) (d : Device) (r : Request) (promise : BitVec 64) (done : Nat) : Request :=
  { r with id := d.nextId, promise := promise, seq := nextRequest d v, done := done }

/-- The sequence number of a request, as the group of the view counts them. -/
theorem nextRequest_eq (d : Device) (v : View) : nextRequest d v = match d.wg v.wg.uid with
    | some w => match w.groups[v.home]? with
      | some g => (g.agent v.half).reqSeq
      | none => 0
    | none => 0 := by
  unfold nextRequest groupAt
  cases d.wg v.wg.uid <;> rfl

/-- A change of a group leaves the core whose table holds a lock. -/
theorem lockCore_modGroup (d : Device) (uid g : Nat) (f : Group → Group) (sp : Space) (core : BitVec 8) :
    (d.modGroup uid g f).lockCore sp core = d.lockCore sp core := by
  unfold Device.lockCore
  cases sp with
  | shared u q =>
    simp only [d.wg_modGroup uid g f u]
    by_cases hu : u = uid
    · rw [if_pos hu]
      cases d.wg u <;> rfl
    · rw [if_neg hu]
  | _ => rfl

theorem requestLocks_congr {d e : Device} (h : ∀ sp core, e.lockCore sp core = d.lockCore sp core) (core : BitVec 8) (id : Nat)
    (ps : List (Place × Nat × Bool)) : requestLocks e core id ps = requestLocks d core id ps := by
  simp only [requestLocks, rangeLock, h]

theorem enqueue_room {d : Device} {r : Request} (h : CopyRoom d r.die r.ctx) :
    d.enqueue r = .ok { d with requests := d.requests ++ [r] } := by
  obtain ⟨hring, hqueue⟩ := h
  simp only [Device.enqueue, hring, List.isEmpty_nil, decide_eq_true hqueue, Bool.and_self, if_true]

/-- The device with a request of a group issued: its locks and its number are taken. -/
def Device.issued (d : Device) (v : View) (ps : List (Place × Nat × Bool)) (rs : List Request) : Device :=
  { d.countRequest v with
    nextId := d.nextId + 1
    locks := d.locks ++ requestLocks d v.grp.core d.nextId ps
    requests := d.requests ++ rs }

/-- The promise of a request that moves something. -/
def View.promiseAt (v : View) (tick : Nat) : BitVec 64 := v.dev.cyc + BitVec.ofNat 64 (Config.promiseDelay tick v.iss.index).toNat

/-- A request that moves something takes its locks and the tail of its queue, where the queue has room. -/
theorem issueRequest_queued {s : State} {v : View} {r : Request} (hroom : CopyRoom s.dev r.die r.ctx) (h : Hdr) (slice : Nat)
    (ps : List (Place × Nat × Bool)) : s.issueRequest v h slice r ps false = .ok (State.writeOne
      { s with dev := s.dev.issued v ps [v.numbered s.dev r (v.promiseAt s.dev.tick) 0] } v h slice 64
      (v.promiseAt s.dev.tick).toNat) := by
  have hlocks := requestLocks_congr (lockCore_modGroup s.dev v.wg.uid v.home v.countedGroup) v.grp.core s.dev.nextId ps
  have henqueue : (s.dev.issued v ps []).enqueue (v.numbered s.dev r (v.promiseAt s.dev.tick) 0) =
      .ok (s.dev.issued v ps [v.numbered s.dev r (v.promiseAt s.dev.tick) 0]) := by
    have hreqs : (s.dev.issued v ps []).requests = s.dev.requests := List.append_nil _
    have hroom : CopyRoom (s.dev.issued v ps []) r.die r.ctx := by
      rw [CopyRoom, Device.ringRequests, hreqs]
      exact hroom
    rw [enqueue_room (r := v.numbered s.dev r (v.promiseAt s.dev.tick) 0) hroom, hreqs]
    rfl
  have hissue : s.issueRequest v h slice r ps false =
      match (s.dev.issued v ps []).enqueue (v.numbered s.dev r (v.promiseAt s.dev.tick) 0) with
      | .error f => .error f
      | .ok d => .ok (State.writeOne { s with dev := d } v h slice 64 (v.promiseAt s.dev.tick).toNat) := by
    rw [View.numbered, nextRequest_eq, Device.issued, ← hlocks, List.append_nil]
    unfold State.issueRequest
    simp only [Bool.false_eq_true, if_false]
    rfl
  rw [hissue, henqueue]

/-! ## Retirement -/

theorem lostIn_congr {d e : Device} (hl : e.lost = d.lost) {sp : Space} {a n : Nat} (h : d.lostIn sp a n = none) :
    e.lostIn sp a n = none := by
  unfold Device.lostIn at h ⊢
  rw [hl]
  cases hf : d.lost.find? (fun p => storedWithin p sp a n) with
  | none => rfl
  | some p => simp [hf] at h

/-- The device without a request and without its locks. -/
def Device.dropped (d : Device) (id : Nat) : Device := (d.unlock (.request id)).dropRequest id

section
variable {d : Device} {r : Request} {w : Workgroup} {k : Kernel} {o : ObjRef} (hreplay : (d.ctx r.ctx).replay = false)

include hreplay in
theorem heldByLog_unreplayed : d.heldByLog r = .ok false := by simp [Device.heldByLog, hreplay]

include hreplay in
theorem completionRecord_unlogged (hlog : (d.ctx r.ctx).logs 2 = false) : d.completionRecord r = .done d := by
  simp [Device.completionRecord, hreplay, hlog]

theorem engineRecord_unlogged {g : Nat} (hreplay : (d.ctx w.ctx).replay = false) (hlog : (d.ctx w.ctx).logs 1 = false) :
    d.engineRecord w k g o = .done d := by
  unfold Device.engineRecord
  simp only [hreplay, hlog]
  cases w.groups[(k.agentAt g).1]? <;> rfl

theorem arriveFor_intact (hlost : d.lostIn o.space o.off 8 = none) : d.arriveFor r o = (d.dropRequest r.id).arrive o none := by
  rw [Device.arriveFor, lostIn_congr (e := d.dropRequest r.id) rfl hlost]

/-- A request that no log holds releases its locks, leaves its queue and arrives on its object. -/
theorem retireRequest_unlogged (hw : d.wg r.wg = some w) (hk : (d.ctx r.ctx).kernel w.handle w.kernel = some k)
    (ho : objectAt w k.shared r.core r.bar.toNat = some o) (hreplay : (d.ctx r.ctx).replay = false)
    (hlog : (d.ctx r.ctx).logs 2 = false) (hreplayW : (d.ctx w.ctx).replay = false) (hlogW : (d.ctx w.ctx).logs 1 = false)
    (hlost : d.lostIn o.space o.off 8 = none) (hnew : r.isRetired = false) :
    d.retireRequest r = (d.dropped r.id).arrive o none := by
  have harrive : (d.unlock (.request r.id)).arriveFor r o = (d.dropped r.id).arrive o none :=
    arriveFor_intact (lostIn_congr (e := d.unlock (.request r.id)) rfl hlost)
  have hrecord : (d.unlock (.request r.id)).engineRecord w k r.group o = .done (d.unlock (.request r.id)) :=
    engineRecord_unlogged hreplayW hlogW
  simp only [Device.retireRequest, hw, hk, hnew, Bool.false_eq_true, if_false, ho, heldByLog_unreplayed hreplay,
    completionRecord_unlogged hreplay hlog, Device.arriveRequest, hrecord, harrive, ite_self]

end

/-! ## A request that moves nothing -/

theorem issueRequest_empty (s : State) (v : View) (h : Hdr) (slice : Nat) (r : Request) (ps : List (Place × Nat × Bool)) :
    s.issueRequest v h slice r ps true = .ok (State.writeOne { s with
      dev := (s.dev.issued v [] [v.numbered s.dev r v.dev.cyc r.total]).retireRequest (v.numbered s.dev r v.dev.cyc r.total) }
      v h slice 64 v.dev.cyc.toNat) := by
  have hlocks : s.dev.locks ++ requestLocks s.dev v.grp.core s.dev.nextId [] = s.dev.locks := List.append_nil _
  rw [View.numbered, nextRequest_eq, Device.issued, hlocks]
  unfold State.issueRequest
  simp only [if_true]
  rfl

/-- Issuing a request writes no memory. -/
theorem byteAt_issued (d : Device) (v : View) (ps : List (Place × Nat × Bool)) (rs : List Request) (sp : Space) (a : Nat) :
    (d.issued v ps rs).byteAt sp a = d.byteAt sp a :=
  d.byteAt_modWg v.wg.uid (f := fun w => { w with groups := modAt w.groups v.home v.countedGroup }) (fun _ => ⟨rfl, rfl⟩) sp a

/-- A request issued alone and dropped leaves no other. -/
theorem requests_dropped_issued (d : Device) (v : View) (ps : List (Place × Nat × Bool)) (r : Request) :
    ∀ q ∈ ((d.issued v ps [r]).dropped r.id).requests, q ∈ d.requests := by
  intro q hq
  obtain ⟨hmem, hid⟩ := List.mem_filter.mp hq
  rcases List.mem_append.mp hmem with hmem | hmem
  · exact hmem
  · rw [List.mem_singleton.mp hmem] at hid
    simp at hid

/-- The workgroup of a view with one more request of the group counted. -/
def View.countedWg (v : View) : Workgroup := { v.wg with groups := modAt v.wg.groups v.home v.countedGroup }

theorem wg_issued {d : Device} {v : View} (h : d.wg v.wg.uid = some v.wg) (ps : List (Place × Nat × Bool)) (rs : List Request) :
    (d.issued v ps rs).wg v.wg.uid = some v.countedWg := by
  have hmod := d.wg_modGroup v.wg.uid v.home v.countedGroup v.wg.uid
  rw [if_pos rfl, h] at hmod
  exact hmod

theorem lost_issued (d : Device) (v : View) (ps : List (Place × Nat × Bool)) (rs : List Request) : (d.issued v ps rs).lost = d.lost := by
  simp only [Device.issued, Device.countRequest, Device.modGroup, Device.modWg]

/-- A request of the issuing group that moves nothing retires on its object. -/
theorem retireRequest_issued {d : Device} {v : View} {iss : Issue} {g : Nat} (hshows : Shows d iss g v) (hq : Quiet d v)
    (hlog : v.ctx.logs 2 = false) {bar : Nat} (hbar : bar < 2 ^ 32) {o : ObjRef} (ho : v.object bar = some o)
    (hlost : d.lostIn o.space o.off 8 = none) (cells : List Word) (work : Work) (promise : BitVec 64) (done : Nat) :
    let r := v.numbered d (v.newRequest bar cells work) promise done
    (d.issued v [] [r]).retireRequest r = ((d.issued v [] [r]).dropped r.id).arrive o none := by
  intro r
  obtain ⟨hreplay, hlogA⟩ := hq
  have hkern := hshows.kern_at
  rw [hshows.ctx_eq] at hkern hlog
  have hobj : objectAt v.wg v.kern.shared v.grp.core (BitVec.ofNat 32 bar).toNat = some o := by
    rw [BitVec.toNat_ofNat, Nat.mod_eq_of_lt hbar]
    exact ho
  have hkept : (d.issued v [] [r]).lostIn o.space o.off 8 = none := lostIn_congr (lost_issued d v [] [r]) hlost
  exact retireRequest_unlogged (d := d.issued v [] [r]) (r := r) (w := v.countedWg) (wg_issued hshows.wg_uid [] [r]) hkern hobj
    hreplay hlog hreplay hlogA hkept rfl

end Sys2Proof.Machine
end

section
/-! PROOF of O36: COPY and COPYT by the checks of their operands in order, and their request by its locks and its place in the queue
(09 R200 to R203; 08 R181, R185, R190). -/

namespace Sys2Proof.Machine

open Sys2Proof Sys2Proof.Claims

/-! ## The meaning of a copy -/

theorem copyOf_meaning {i : Instr} {h : Hdr} {d a : BitVec 7} {b : BitVec 6} {xf : Nat} {t : CopyTail}
    (hi : copyOf i = some (h, d, a, b, xf, t)) : meaningOf i = some (copyIssue h d a b xf t) ∧ ∀ v, Instr.lanes i v = v.active h := by
  unfold copyOf at hi
  split at hi
  · cases hi
    exact ⟨rfl, fun _ => rfl⟩
  · cases hi
    exact ⟨rfl, fun _ => rfl⟩
  · cases hi

/-- A copy moves nothing where its source or its destination has no element in range. -/
theorem movesNothing_eq (src dst : Endpoint) (x : Transform) :
    movesNothing src dst = ((copyReaches src dst x).take 2).any (fun r => r.range.isNone) := by
  change _ = (src.range.isNone || (dst.range.isNone || false))
  rw [Bool.or_false, movesNothing]

theorem isEmptyCopy_iff (src dst : Endpoint) (x : Transform) :
    isEmptyCopy (copyReaches src dst x) ↔ movesNothing src dst = true := by
  simp only [isEmptyCopy, movesNothing_eq src dst x, List.any_eq_true, Option.isNone_iff_eq_none]

/-- The places of a copy's ranges: none of one that moves nothing. -/
def copyPlaces (v : View) (src dst : Endpoint) (x : Transform) : List (Place × Nat × Bool) :=
  if movesNothing src dst then [] else v.reachPlaces (copyReaches src dst x)

section
variable {h : Hdr} {d a : BitVec 7} {b : BitVec 6} {xf : Nat} {t : CopyTail} {v : View} {act : Word} {src dst : Endpoint}
  {x : Transform}

theorem copyIssue_checksOperands : ChecksOperands (copyIssue h d a b xf t) := ⟨rfl, rfl, rfl, rfl, rfl⟩

theorem copyIssue_spans : (copyIssue h d a b xf t).spans =
    [(h.a a, 8 * sourceCells xf t), (8 * b.toNat, 8 * descriptorCells t.dkind), (h.d d, 16)] := by
  have hslices (n : Nat) : 32 * n / 4 = 8 * n := by omega
  change [(h.a a, 32 * sourceCells xf t / 4), (8 * b.toNat, 32 * descriptorCells t.dkind / 4), (h.d d, 64 / 4)] = _
  rw [hslices, hslices]

theorem copyIssue_unmarked
    (hmarked : (v.cellsU (h.a a) (sourceCells xf t) && v.cellsU (8 * b.toNat) (descriptorCells t.dkind)) = false) :
    (copyIssue h d a b xf t).operands v act = .illegal := by
  change (if !(v.cellsU (h.a a) (sourceCells xf t) && v.cellsU (8 * b.toNat) (descriptorCells t.dkind)) then _ else _) = _
  rw [hmarked]
  rfl

variable (hmarked : (v.cellsU (h.a a) (sourceCells xf t) && v.cellsU (8 * b.toNat) (descriptorCells t.dkind)) = true)
include hmarked

theorem copyIssue_unparsed (hparse : v.parseCopy (v.copyWords act (h.a a) b xf t) xf t = none) :
    (copyIssue h d a b xf t).operands v act = .illegal := by
  change (if !(v.cellsU (h.a a) (sourceCells xf t) && v.cellsU (8 * b.toNat) (descriptorCells t.dkind)) then _ else _) = _
  rw [hmarked]
  simp only [hparse]
  rfl

variable (hparse : v.parseCopy (v.copyWords act (h.a a) b xf t) xf t = some (src, dst, x))
include hparse

/-- The checks of a copy whose cells are marked U and whose descriptors keep the rules, in the order of 09 R203. -/
theorem copyIssue_operands : (copyIssue h d a b xf t).operands v act = Check.seq
    [v.reachCheck (copyReaches src dst x), v.engineCheck (namedEngine (v.copyWords act (h.a a) b xf t).src), v.tailCheck t.bq t.boff,
      ownOverlap (fun w1 w2 => w1 != w2) (copyPlaces v src dst x), v.lockRoom (copyPlaces v src dst x)] := by
  change (if !(v.cellsU (h.a a) (sourceCells xf t) && v.cellsU (8 * b.toNat) (descriptorCells t.dkind)) then _ else _) = _
  rw [hmarked]
  simp only [hparse]
  rfl

theorem copyIssue_ok
    (hr : RangesOk v (copyReaches src dst x) (copyPlaces v src dst x) (tailObject t.bq t.boff) (fun w1 w2 => w1 != w2))
    (he : v.engineCheck (namedEngine (v.copyWords act (h.a a) b xf t).src) = .ok) : (copyIssue h d a b xf t).operands v act = .ok := by
  rw [copyIssue_operands hmarked hparse]
  refine Check.seq_ok (fun c hc => ?_)
  simp only [List.mem_cons, List.not_mem_nil, or_false] at hc
  rcases hc with rfl | rfl | rfl | rfl | rfl
  · exact reachCheck_ok hr
  · exact he
  · exact if_pos hr.object
  · exact ownOverlap_ok hr.apart
  · exact if_pos hr.room

/-- A range that fails is the first check of a copy. -/
theorem copyIssue_reach {cause detail : Nat} (hreach : v.reachCheck (copyReaches src dst x) = .fail cause detail) :
    (copyIssue h d a b xf t).operands v act = .fail cause detail := by
  rw [copyIssue_operands hmarked hparse, hreach]
  rfl

omit hmarked

theorem copyIssue_effect (s : State) : (copyIssue h d a b xf t).effect v act s =
    s.issueRequest v h (h.d d) (v.newRequest (tailObject t.bq t.boff) ((v.copyWords act (h.a a) b xf t).src ++
      (v.copyWords act (h.a a) b xf t).xf ++ (v.copyWords act (h.a a) b xf t).dst) (.copy src dst x))
      (v.reachPlaces (copyReaches src dst x)) (movesNothing src dst) := by
  change (match v.parseCopy (v.copyWords act (h.a a) b xf t) xf t with | none => _ | some (s, e, x) => _) = _
  rw [hparse]

end

theorem tailObject_eq (t : CopyTail) : tailObject t.bq t.boff = t.bq.toNat * 2 ^ 19 + 8 * t.boff.toNat := by
  rw [tailObject, Nat.mul_comm t.boff.toNat]

theorem tailObject_lt (bq : BitVec 2) (boff : BitVec 16) : tailObject bq boff < 2 ^ 32 := by
  have hq := bq.isLt
  have hoff := boff.isLt
  rw [tailObject]
  omega

/-! ## What a copy leaves at issue -/

theorem issueRequest_issued {s : State} {v : View} (hroom : CopyRoom s.dev (dieOf v.grp.core) v.c) (h : Hdr) (slice bar : Nat)
    (cells : View → List Word) (work : View → Work) (rs : View → List Reach) :
    ∃ t, s.issueRequest v h slice (v.newRequest bar (cells v) (work v)) (v.reachPlaces (rs v)) false = .ok t ∧
      Issued h slice bar cells work rs v s t := by
  have hpromise : v.promiseAt s.dev.tick = v.dev.cyc + BitVec.setWidth 64 (Config.promiseDelay s.dev.tick v.iss.index) := by
    rw [View.promiseAt, BitVec.ofNat_toNat]
  refine ⟨_, issueRequest_queued (r := v.newRequest bar (cells v) (work v)) hroom h slice _,
    Config.promiseDelay s.dev.tick v.iss.index, ?_⟩
  rw [hpromise]
  exact writeOne_wroteAll _ v h slice _ (by decide) (by decide)

theorem issueRequest_retired {s : State} {v : View} {iss : Issue} {g : Nat} (hshows : Shows s.dev iss g v) (hq : Quiet s.dev v)
    (hlog : v.ctx.logs 2 = false) {bar : Nat} (hbar : bar < 2 ^ 32) {o : ObjRef} (ho : v.object bar = some o)
    (hlost : s.dev.lostIn o.space o.off 8 = none) (h : Hdr) (slice : Nat) (cells : List Word) (work : Work)
    (ps : List (Place × Nat × Bool)) :
    ∃ t, s.issueRequest v h slice (v.newRequest bar cells work) ps true = .ok t ∧ ∃ e o, v.object bar = some o ∧
      WroteAll h slice 64 v.dev.cyc.toNat v { s with dev := Device.arrive e o none } t ∧
      (∀ sp x, e.byteAt sp x = s.dev.byteAt sp x) ∧ (∀ q ∈ e.requests, q ∈ s.dev.requests) := by
  let r := v.newRequest bar cells work
  let q := v.numbered s.dev r v.dev.cyc r.total
  refine ⟨_, issueRequest_empty s v h slice r ps, (s.dev.issued v [] [q]).dropped q.id, o, ho, ?_, byteAt_issued s.dev v [] [q],
    requests_dropped_issued s.dev v [] q⟩
  rw [retireRequest_issued hshows hq hlog hbar ho hlost]
  exact writeOne_wroteAll _ v h slice _ (by decide) (by decide)

/-- Settles O36: a copy completes where each of its checks passes, and the first check that fails is its trap. -/
theorem copiesIssue : Obligations.CopiesIssue := by
  unfold Obligations.CopiesIssue
  constructor
  · intro i h d a b xf t hi hwf s iss vs hI hb object act words reaches work places hready
    obtain ⟨hm, hlanes⟩ := copyOf_meaning hi
    have hobject : object = tailObject t.bq t.boff := (tailObject_eq t).symm
    have hparsed : ∀ v ∈ activeOnce i vs, ∃ src dst x, v.parseCopy (words v) xf t = some (src, dst, x) ∧
        reaches v = copyReaches src dst x ∧ work v = .copy src dst x := by
      intro v hv
      obtain ⟨-, -, hsome, -, -⟩ := hready v hv
      obtain ⟨⟨src, dst, x⟩, hparse⟩ := Option.isSome_iff_exists.mp hsome
      exact ⟨src, dst, x, hparse, by simp only [reaches, hparse], by simp only [work, hparse]⟩
    have hcheck : (copyIssue h d a b xf t).check i vs s.dev = .ok := by
      refine copyIssue_checksOperands.check_ok hwf s.dev (copyIssue_spans ▸ hb) (fun v hv hact => ?_)
      have hmem := mem_activeOnce rfl hv hact
      obtain ⟨hsrc, hdst, -, hranges, hengine⟩ := hready v hmem
      obtain ⟨src, dst, x, hparse, hreaches, -⟩ := hparsed v hmem
      rw [hlanes]
      refine copyIssue_ok (by rw [hsrc, hdst]; rfl) hparse ?_ hengine
      have hplaces : places v = copyPlaces v src dst x := by
        simp only [places, copyPlaces, hreaches, movesNothing_eq src dst x]
      rwa [hreaches, hplaces, hobject] at hranges
    refine ⟨fun hmoves => ?_, fun hl hquiet hempty => ?_⟩
    · refine completesOnce_of_effect hm hI hcheck rfl rfl rfl (fun v hv => ?_)
      obtain ⟨hsome, hroom⟩ := hmoves v hv
      obtain ⟨src, dst, x, hparse, hreaches, hwork⟩ := hparsed v hv
      rw [hreaches, isEmptyCopy_iff, Bool.not_eq_true] at hsome
      rw [hlanes, copyIssue_effect hparse, hsome, ← hreaches, ← hwork, ← hobject]
      exact issueRequest_issued hroom h (h.d d) object (fun v => (words v).src ++ (words v).xf ++ (words v).dst) work reaches
    · refine completesOnce_of_effect hm hI hcheck rfl rfl rfl (fun v hv => ?_)
      obtain ⟨hnone, hlost⟩ := hempty v hv
      obtain ⟨src, dst, x, hparse, hreaches, -⟩ := hparsed v hv
      obtain ⟨-, -, -, hranges, -⟩ := hready v hv
      obtain ⟨o, ho⟩ := Option.isSome_iff_exists.mp hranges.object
      have hmem : v ∈ vs := List.mem_of_mem_filter (List.mem_of_mem_take hv)
      obtain ⟨hq, hlog⟩ := hquiet v hmem
      rw [hreaches, isEmptyCopy_iff] at hnone
      rw [hlanes, copyIssue_effect hparse, hnone, ← hobject]
      exact issueRequest_retired (hI.shows_dev hl hmem) hq hlog (hobject ▸ tailObject_lt t.bq t.boff) ho (hlost o ho) ..
  · intro i h d a b xf t hi hwf s iss v hI hb hact words marked
    obtain ⟨hm, hlanes⟩ := copyOf_meaning hi
    have hb : InBudget [v] (copyIssue h d a b xf t).spans := copyIssue_spans ▸ hb
    rw [← hlanes] at hact
    have htrap {cause detail : Nat} (hcause : cause ≠ causeIllegal)
        (hop : (copyIssue h d a b xf t).operands v (Instr.lanes i v) = .fail cause detail) :
        exec i s = .next (s.trap iss i { cause := cause, detail := detail, lanes := none }) :=
      exec_trap_of_operands hm copyIssue_checksOperands hwf hI hb hact hop hcause
    refine ⟨fun hbad => exec_illegal_of_operands hm copyIssue_checksOperands hwf hI hb hact ?_, ?_, ?_⟩
    · rw [hlanes]
      cases hmarked : marked with
      | false => exact copyIssue_unmarked hmarked
      | true => exact copyIssue_unparsed hmarked (hbad.resolve_left (by simp [hmarked]))
    · intro src dst x hmarked hparse r rest hfirst
      exact htrap (by decide) (hlanes v ▸ copyIssue_reach hmarked hparse (reachCheck_align v hfirst))
    · intro src dst x hmarked hparse haligned outside r rest hfirst
      exact htrap (by decide) (hlanes v ▸ copyIssue_reach hmarked hparse (reachCheck_bound haligned hfirst))

end Sys2Proof.Machine
end

section
/-! SUPPORT. A burst of a plain copy between dense runs of the scratchpad (08 R178; 21 R328): its elements, the values that it moves,
and what it leaves beside the data. -/

namespace Sys2Proof.Machine

open Sys2Proof Sys2Proof.Claims

/-! ## Requests looked up -/

theorem Device.request_id {d : Device} {id : Nat} {r : Request} (h : d.request id = some r) : r.id = id := by
  simpa using List.find?_some h

/-- A request changed is found under its number as long as it keeps it. -/
theorem Device.request_modRequest (d : Device) (id : Nat) {f : Request → Request} (hf : ∀ r, (f r).id = r.id) :
    (d.modRequest id f).request id = (d.request id).map f := by
  unfold request modRequest
  induction d.requests with
  | nil => rfl
  | cons r l ih =>
    rw [List.map_cons]
    by_cases hid : r.id = id
    · rw [List.find?_cons_of_pos (by simp [hid, hf]), List.find?_cons_of_pos (by simp [hid])]
      simp [hid]
    · rw [List.find?_cons_of_neg (by simp [hid]), List.find?_cons_of_neg (by simp [hid])]
      exact ih

theorem Device.request_congr {d e : Device} (h : e.requests = d.requests) (id : Nat) : e.request id = d.request id := by
  rw [request, h, request]

/-! ## Changes that leave the requests and the scratchpad -/

/-- The requests and the scratchpad stay. -/
def Device.KeepsCopies (d e : Device) : Prop := e.requests = d.requests ∧ e.spad = d.spad

theorem Device.KeepsCopies.trans {a b c : Device} (h : a.KeepsCopies b) (h' : b.KeepsCopies c) : a.KeepsCopies c :=
  ⟨h'.1.trans h.1, h'.2.trans h.2⟩

theorem keepsCopies_beginStop (d : Device) (uid : Nat) (cause : BitVec 4) : d.KeepsCopies (d.beginStop uid cause) := by
  unfold Device.beginStop
  split
  · exact ⟨rfl, rfl⟩
  · dsimp only
    split_ifs <;> exact ⟨rfl, rfl⟩

theorem keepsCopies_watchHits (d : Device) (c : BitVec 6) (uid : Nat) (fired : List Nat) :
    d.KeepsCopies (d.watchHits c uid fired) := by
  have hcount (f : Context → Context) : d.KeepsCopies ((d.modCtx c f).beginStop uid 3) :=
    Device.KeepsCopies.trans (b := d.modCtx c f) ⟨rfl, rfl⟩ (keepsCopies_beginStop _ uid 3)
  unfold Device.watchHits
  dsimp only
  split_ifs
  · exact ⟨rfl, rfl⟩
  · split
    · split_ifs
      · exact hcount _
      · exact hcount _
    · exact hcount _
  · exact ⟨rfl, rfl⟩

/-! ## The elements of a run of the scratchpad -/

theorem settle_of_no_accs {d : Device} (h : d.accs = []) (sp : Space) (a n : Nat) (store : Bool) : d.settle sp a n store = d :=
  Device.settle_of_clear (by simp [h]) store

theorem lostIn_of_no_lost {d : Device} (h : d.lost = []) (sp : Space) (a n : Nat) : d.lostIn sp a n = none := by
  rw [Device.lostIn, h]
  rfl

/-- The bytes of an element of a format that takes whole bytes. -/
theorem fmtBits_whole {f : BitVec 4} (hf : fmtBits f.toNat % 8 = 0) :
    0 < fmtBits f.toNat / 8 ∧ fmtBits f.toNat / 4 = 2 * (fmtBits f.toNat / 8) := by
  have hpos := fmtBits_pos f
  omega

/-- Element `i` of a dense run of the scratchpad from an address on. -/
def runElement (f : BitVec 4) (a i : Nat) : Element :=
  let p : Place := { space := .spad, addr := a + fmtBits f.toNat / 8 * i }
  { place := p, hi := false, seen := watchedAt 1 false p p.addr (max 1 (fmtBits f.toNat / 4 / 2)) }

/-- What a burst writes of element `i`: the value that stands in the source run. -/
def moved (d : Device) (f : BitVec 4) (a b i : Nat) : Element × Nat × Nat × Bool :=
  (runElement f b i, 4 * (fmtBits f.toNat / 4), d.num .spad (a + fmtBits f.toNat / 8 * i) (fmtBits f.toNat / 8), false)

section
variable {d : Device} {f : BitVec 4} {a b n : Nat} (hf : fmtBits f.toNat % 8 = 0)
include hf

theorem element_run (r : Request) (w : Workgroup) (write : Bool) (i : Nat) :
    d.element r w (.dense 1 a f n) write i = .ok (some (runElement f a i), d) := by
  obtain ⟨-, hnibbles⟩ := fmtBits_whole hf
  have hnibble : 2 * a + i * (fmtBits f.toNat / 4) = 2 * (a + fmtBits f.toNat / 8 * i) := by
    rw [hnibbles]
    ring
  have hlow : (2 * (a + fmtBits f.toNat / 8 * i)) % 2 = 0 := Nat.mul_mod_right 2 _
  simp only [Device.element, Endpoint.nibble, hnibble, Device.resolve, Endpoint.space, Nat.mul_div_cancel_left _ Nat.two_pos, hlow]
  rfl

theorem load_run (d : Device) (i : Nat) : d.load (runElement f a i).place (4 * (fmtBits f.toNat / 4)) (runElement f a i).hi =
    d.num .spad (a + fmtBits f.toNat / 8 * i) (fmtBits f.toNat / 8) := by
  obtain ⟨hpos, hnibbles⟩ := fmtBits_whole hf
  rw [Device.load, if_neg (by omega), show 4 * (fmtBits f.toNat / 4) / 8 = fmtBits f.toNat / 8 by omega]
  rfl

variable (haccs : d.accs = []) (hlost : d.lost = [])
include haccs

theorem store_run (i v : Nat) : d.store (runElement f b i).place (4 * (fmtBits f.toNat / 4)) (runElement f b i).hi v =
    d.putNum .spad (b + fmtBits f.toNat / 8 * i) (fmtBits f.toNat / 8) v := by
  obtain ⟨hpos, hnibbles⟩ := fmtBits_whole hf
  rw [Device.store, settle_of_no_accs haccs, if_neg (by omega), show 4 * (fmtBits f.toNat / 4) / 8 = fmtBits f.toNat / 8 by omega]
  rfl

include hlost

/-- One element of a plain copy is read as it stands, and its write is kept for the burst's end. -/
theorem move_run {bu : Burst} (hd : bu.dev = d) (r : Request) (w : Workgroup) (i : Nat) :
    bu.move r w (.dense 1 a f n) (.dense 1 b f n) .plain i =
      .ok { dev := d, reads := (runElement f a i).seen :: bu.reads, writes := bu.writes ++ [moved d f a b i] } := by
  have hread : bu.read r w (.dense 1 a f n) i = .ok (d.num .spad (a + fmtBits f.toNat / 8 * i) (fmtBits f.toNat / 8),
      { bu with dev := d, reads := (runElement f a i).seen :: bu.reads }) := by
    simp only [Burst.read, hd, element_run hf, lostIn_of_no_lost hlost, settle_of_no_accs haccs]
    rw [← load_run hf d i]
    rfl
  simp only [Burst.move, hread, Burst.write, element_run hf]
  rfl

theorem moves_run (r : Request) (w : Workgroup) (l : List Nat) {bu : Burst} (hd : bu.dev = d) :
    ∃ reads, bu.moves r w (.dense 1 a f n) (.dense 1 b f n) .plain l =
      .ok { dev := d, reads := reads, writes := bu.writes ++ l.map (moved d f a b) } := by
  induction l generalizing bu with
  | nil => exact ⟨bu.reads, by rw [Burst.moves, List.map_nil, List.append_nil, ← hd]⟩
  | cons i l ih =>
    obtain ⟨reads, hmoves⟩ := ih (bu := ⟨d, (runElement f a i).seen :: bu.reads, bu.writes ++ [moved d f a b i]⟩) rfl
    refine ⟨reads, ?_⟩
    simp only [Burst.moves, move_run hf haccs hlost hd, hmoves, List.append_assoc, List.singleton_append, List.map_cons]

end

/-! ## The commit -/

/-- A number copied brings its bytes along. -/
theorem byteAt_putNum_num {d e : Device} {sp : Space} (he : e.Holds sp) (sp' : Space) (x y n j : Nat) (hj : x ≤ j ∧ j < x + n) :
    (e.putNum sp x n (d.num sp' y n)).byteAt sp j = d.byteAt sp' (y + (j - x)) := by
  refine BitVec.eq_of_getLsbD_eq (fun k hk => ?_)
  rw [Device.getLsbD_byteAt_putNum he x n _ sp j hk, if_pos ⟨rfl, hj⟩, Device.testBit_num, decide_eq_true (by omega), Bool.true_and]
  congr 2
  · congr 1
    omega
  · omega

section
variable {d e : Device} {f : BitVec 4} {a b : Nat} {c : BitVec 6} {ordr : Bool} (hf : fmtBits f.toNat % 8 = 0)
  (haccs : e.accs = [])
include hf haccs

/-- The device after the write of one element. -/
theorem commitWrites_cons (i : Nat) (l : List Nat) : commitWrites c ordr f ((i :: l).map (moved d f a b)) e =
    commitWrites c ordr f (l.map (moved d f a b)) (e.putNum .spad (b + fmtBits f.toNat / 8 * i) (fmtBits f.toNat / 8)
      (d.num .spad (a + fmtBits f.toNat / 8 * i) (fmtBits f.toNat / 8))) := by
  rw [← store_run hf haccs]
  rfl

/-- A commit of plain writes leaves no accumulator, and every request. -/
theorem commitWrites_kept (l : List Nat) : (commitWrites c ordr f (l.map (moved d f a b)) e).accs = [] ∧
    (commitWrites c ordr f (l.map (moved d f a b)) e).requests = e.requests := by
  induction l generalizing e with
  | nil => exact ⟨haccs, rfl⟩
  | cons i l ih =>
    rw [commitWrites_cons hf haccs]
    exact ih (by rw [Device.putNum_accs, haccs])

/-- The writes of a burst commit whole: each byte of a destination element takes the source byte as it stood. -/
theorem byteAt_commitWrites (l : List Nat) (j : Nat) : (commitWrites c ordr f (l.map (moved d f a b)) e).byteAt .spad j =
      if ∃ i ∈ l, b + fmtBits f.toNat / 8 * i ≤ j ∧ j < b + fmtBits f.toNat / 8 * (i + 1) then d.byteAt .spad (a + (j - b))
      else e.byteAt .spad j := by
  induction l generalizing e with
  | nil => simp [commitWrites]
  | cons i l ih =>
    rw [commitWrites_cons hf haccs, ih (by rw [Device.putNum_accs, haccs])]
    have hend : b + fmtBits f.toNat / 8 * (i + 1) = b + fmtBits f.toNat / 8 * i + fmtBits f.toNat / 8 := by ring
    simp only [List.exists_mem_cons_iff, hend]
    by_cases hin : b + fmtBits f.toNat / 8 * i ≤ j ∧ j < b + fmtBits f.toNat / 8 * i + fmtBits f.toNat / 8
    · have hbyte := byteAt_putNum_num (d := d) (e := e) (sp := .spad) trivial .spad _ (a + fmtBits f.toNat / 8 * i) _ j hin
      rw [show a + fmtBits f.toNat / 8 * i + (j - (b + fmtBits f.toNat / 8 * i)) = a + (j - b) by omega] at hbyte
      simp only [hbyte, ite_self, hin, and_self, true_or, if_true]
    · rw [Device.byteAt_putNum_outside _ _ _ _ (fun _ => by omega)]
      simp only [hin, false_or]

end

end Sys2Proof.Machine
end

section
/-! PROOF of O38: a burst by the bytes that it commits and by its fault, and a retirement without records (21 R328; 17 R294;
08 R178, R179). -/

namespace Sys2Proof.Machine

open Sys2Proof Sys2Proof.Claims

/-! ## A burst that commits -/

/-- The elements of a burst that start at a multiple of their width cover one range. -/
theorem exists_element_iff {width : Nat} (hpos : 0 < width) (b k m j : Nat) :
    (∃ i ∈ (List.range m).map (k + ·), b + width * i ≤ j ∧ j < b + width * (i + 1)) ↔
      b + width * k ≤ j ∧ j < b + width * (k + m) := by
  simp only [List.mem_map, List.mem_range, exists_exists_and_eq_and]
  constructor
  · rintro ⟨q, hq, hlo, hhi⟩
    have hfirst : width * k ≤ width * (k + q) := Nat.mul_le_mul_left _ (by omega)
    have hlast : width * (k + q + 1) ≤ width * (k + m) := Nat.mul_le_mul_left _ (by omega)
    omega
  · rintro ⟨hlo, hhi⟩
    have hk : k ≤ (j - b) / width := (Nat.le_div_iff_mul_le hpos).mpr (by rw [Nat.mul_comm]; omega)
    have hm : (j - b) / width < k + m := (Nat.div_lt_iff_lt_mul hpos).mpr (by rw [Nat.mul_comm]; omega)
    refine ⟨(j - b) / width - k, by omega, ?_⟩
    have hle := Nat.mul_div_le (j - b) width
    have hlt := Nat.lt_mul_div_succ (j - b) hpos
    rw [show k + ((j - b) / width - k) = (j - b) / width by omega]
    omega

/-- A burst of whole-byte elements is 512 bytes of them. -/
theorem perBurst_run {f : BitVec 4} (hf : fmtBits f.toNat % 8 = 0) (b n : Nat) :
    (Endpoint.dense 1 b f n).perBurst = 512 / (fmtBits f.toNat / 8) := by
  obtain ⟨hpos, hnibbles⟩ := fmtBits_whole hf
  change 4096 / (4 * max 1 (fmtBits f.toNat / 4)) = _
  rw [hnibbles, max_eq_right (by omega), show 4 * (2 * (fmtBits f.toNat / 8)) = 8 * (fmtBits f.toNat / 8) by ring,
    show 4096 = 8 * 512 from rfl, Nat.mul_div_mul_left _ _ (by decide)]

/-- The reduction area holds no accumulator at all. -/
theorem reductionFits_of_no_accs {d : Device} (h : d.accs = []) (c : BitVec 6) : d.reductionFits c = true := by
  have hnone : d.reductions c = [] := by rw [Device.reductions, h, List.filter_nil]
  rw [Device.reductionFits, hnone]
  cases (d.ctx c).region 6 0 with
  | none => rfl
  | some r => exact decide_eq_true (Nat.zero_le _)

/-- The watchpoints that a request fires for the first time. -/
def newlyFired (d : Device) (r : Request) (reads writes : List Watched) : List Nat :=
  (List.range 4).filter (fun k => !r.fired.contains k &&
    ((d.firedBy r.ctx reads false).contains k || (d.firedBy r.ctx writes true).contains k))

theorem accounted_eq (d : Device) (r : Request) (reads writes : List Watched) (bytes : Nat) :
    d.accounted r reads writes bytes = ((d.modRequest r.id (fun x =>
      { x with fired := x.fired ++ newlyFired d r reads writes })).watchHits r.ctx r.wg (newlyFired d r reads writes)).countEngine
        r.ctx bytes := rfl

/-- What a burst leaves beside its data keeps the scratchpad, and of its request all but the watchpoints fired. -/
theorem accounted_kept (d : Device) (r : Request) (reads writes : List Watched) (bytes : Nat) :
    (d.accounted r reads writes bytes).request r.id =
        (d.request r.id).map (fun x => { x with fired := x.fired ++ newlyFired d r reads writes }) ∧
      (d.accounted r reads writes bytes).spad = d.spad := by
  rw [accounted_eq]
  obtain ⟨hreqs, hspad⟩ := keepsCopies_watchHits (d.modRequest r.id (fun x =>
    { x with fired := x.fired ++ newlyFired d r reads writes })) r.ctx r.wg (newlyFired d r reads writes)
  refine ⟨?_, hspad⟩
  rw [← d.request_modRequest r.id (f := fun x => { x with fired := x.fired ++ newlyFired d r reads writes }) (fun _ => rfl)]
  exact Device.request_congr hreqs r.id

/-- A burst whose elements are all reached, and whose writes the reduction area has room for, commits its writes and counts its
elements. -/
theorem burst_commits {d e : Device} {r : Request} {w : Workgroup} {src dst : Endpoint} {xf : Transform} {bu : Burst} {count : Nat}
    (hcount : min dst.perBurst (dst.count - r.done) = count)
    (hmoves : Burst.moves { dev := d, reads := [], writes := [] } r w src dst xf ((List.range count).map (r.done + ·)) = .ok bu)
    (he : commitWrites r.ctx (d.ctx r.ctx).ordr dst.efmt bu.writes bu.dev = e) (hfits : e.reductionFits r.ctx = true) :
    ((d.burst r w src dst xf).request r.id).map Request.done = (e.request r.id).map (fun _ => r.done + count) ∧
      (d.burst r w src dst xf).spad = e.spad := by
  have hburst : d.burst r w src dst xf = (e.accounted r bu.reads (bu.writes.map (fun x => x.1.seen))
      ((bu.writes.map (fun x => x.2.1)).foldl (· + ·) 0 / 8)).modRequest r.id
        (fun x => { x with done := r.done + count, fails := 0 }) := by
    simp only [Device.burst, hcount, hmoves, he, hfits, Bool.not_true, Bool.false_eq_true, if_false]
  obtain ⟨hrequest, hspad⟩ := accounted_kept e r bu.reads (bu.writes.map (fun x => x.1.seen))
    ((bu.writes.map (fun x => x.2.1)).foldl (· + ·) 0 / 8)
  rw [hburst]
  refine ⟨?_, hspad⟩
  rw [Device.request_modRequest _ r.id (f := fun x => { x with done := r.done + count, fails := 0 }) (fun _ => rfl), hrequest,
    Option.map_map, Option.map_map]
  rfl

section
variable {d : Device} {f : BitVec 4} {a b n : Nat} {r : Request} (hf : fmtBits f.toNat % 8 = 0) (haccs : d.accs = [])
  (hlost : d.lost = []) (hr : d.request r.id = some r)
include hf haccs hlost hr

/-- A burst of a plain copy between runs of the scratchpad counts its elements and moves their bytes. -/
theorem burst_run (w : Workgroup) :
    let count := min (512 / (fmtBits f.toNat / 8)) (n - r.done)
    let e := d.burst r w (.dense 1 a f n) (.dense 1 b f n) .plain
    (e.request r.id).map Request.done = some (r.done + count) ∧ ∀ j, e.byteAt .spad j =
      if b + fmtBits f.toNat / 8 * r.done ≤ j ∧ j < b + fmtBits f.toNat / 8 * (r.done + count) then d.byteAt .spad (a + (j - b))
      else d.byteAt .spad j := by
  intro count e
  obtain ⟨reads, hmoves⟩ := moves_run (d := d) (a := a) (b := b) (n := n) hf haccs hlost r w ((List.range count).map (r.done + ·))
    (bu := ⟨d, [], []⟩) rfl
  obtain ⟨hnone, hreqs⟩ := commitWrites_kept (d := d) (a := a) (b := b) (c := r.ctx) (ordr := (d.ctx r.ctx).ordr) hf haccs
    ((List.range count).map (r.done + ·))
  obtain ⟨hdone, hspad⟩ := burst_commits (by rw [perBurst_run hf]; rfl) hmoves rfl (reductionFits_of_no_accs hnone r.ctx)
  refine ⟨hdone.trans (congrArg (Option.map (fun _ => r.done + count)) ((Device.request_congr hreqs r.id).trans hr)), fun j => ?_⟩
  have hbyte := byteAt_commitWrites (d := d) (a := a) (b := b) (c := r.ctx) (ordr := (d.ctx r.ctx).ordr) hf haccs
    ((List.range count).map (r.done + ·)) j
  simp only [exists_element_iff (fmtBits_whole hf).1] at hbyte
  rw [← hbyte]
  exact congrArg (fun m => Memory.byte m j) hspad

end

/-! ## A burst that meets a translation fault -/

/-- The note of a translation fault in the control block. -/
theorem noteTranslation_copyFault (x : Context) (die : BitVec 2) {kind : Nat} (hkind : kind < 0xFF) (va : Nat) :
    x.noteTranslation (copyFault die (kind, va)) =
      { x with taddr := BitVec.ofNat 64 va, tdie := die, tkind := BitVec.ofNat 8 kind } := by
  have hlost : TransFault.isLost (kind, va) = false := decide_eq_false (by simp only; omega)
  have hnote : decide (kind ≠ 0xFF) = true := decide_eq_true (by omega)
  simp only [copyFault, hlost, Bool.false_eq_true, if_false, Context.noteTranslation, hnote, decide_true, Bool.and_self, if_true]

/-- The device with a request parked, the fault noted and the host told. -/
def parkedOn (d : Device) (r : Request) (kind va : Nat) : Device :=
  ((d.modRequest r.id (fun x => { x with status := .parked (BitVec.ofNat 8 kind) })).modCtx r.ctx (fun x => { x with
    taddr := BitVec.ofNat 64 va, tdie := r.die, tkind := BitVec.ofNat 8 kind })).sendMsg 3 r.ctx (BitVec.ofNat 16 kind)
      (BitVec.ofNat 32 r.die.toNat)

theorem park_eq (d : Device) (r : Request) {kind : Nat} (hkind : kind < 0xFF) (va : Nat) : d.park r (kind, va) =
    if 64 ≤ (d.requests.filter (fun x => x.ctx == r.ctx && x.isParked)).length then
      (parkedOn d r kind va).contextFault r.ctx { code := causeCopyfault, detail := 0xFF, addr := va }
    else parkedOn d r kind va := by
  simp only [Device.park, noteTranslation_copyFault _ r.die hkind va]
  rfl

/-- A burst parks its request on a translation fault that is not of a lost table entry. -/
theorem burst_parks {d : Device} {r : Request} {w : Workgroup} {src dst : Endpoint} {xf : Transform} {kind va : Nat}
    (hkind : kind < 0xFF)
    (hmoves : Burst.moves { dev := d, reads := [], writes := [] } r w src dst xf
      ((List.range (min dst.perBurst (dst.count - r.done))).map (r.done + ·)) = .error (.walk (kind, va))) :
    d.burst r w src dst xf = d.park r (kind, va) := by
  have hlost : TransFault.isLost (kind, va) = false := decide_eq_false (by simp only; omega)
  simp only [Device.burst, hmoves, Device.engineFault, hlost, Bool.false_eq_true, if_false]

/-! ## The instructions -/

section
variable {s : State} {id : Nat} {r : Request} {src dst : Endpoint} {xf : Transform} (hr : s.dev.request id = some r)
  (hwork : r.work = .copy src dst xf)
include hr hwork

theorem exec_copyBurstCommit {w : Workgroup} (hw : s.dev.wg r.wg = some w) (hserve : s.dev.canServe r = true)
    (hheld : s.dev.heldByLog r = .ok false) (hleft : r.done < dst.count) :
    exec (.copyBurstCommit id) s = .next { s with dev := s.dev.burst r w src dst xf } := by
  simp only [exec, execCopyBurstCommit, hr, hwork, hw, hserve, hheld, decide_eq_true hleft, Bool.and_self, if_true]

theorem exec_copyRetire_unfinished (hleft : r.done < dst.count) : exec (.copyRetire id) s = .next s := by
  simp only [exec, execCopyRetire, hr, hwork, decide_eq_false (not_le.mpr hleft), Bool.and_false, Bool.false_eq_true, if_false]

theorem exec_copyRetire_finished (hserve : s.dev.canServe r = true) (hdone : dst.count ≤ r.done) :
    exec (.copyRetire id) s = .next { s with dev := s.dev.retireRequest r } := by
  simp only [exec, execCopyRetire, hr, hwork, hserve, decide_eq_true hdone, Bool.and_self, if_true]

end

/-- A request that waits for no record of its arrival has not retired yet. -/
theorem isRetired_false {r : Request} (h : ∀ held, r.status ≠ .retired held) : r.isRetired = false := by
  unfold Request.isRetired
  cases hs : r.status with
  | retired held => exact absurd hs (h held)
  | _ => rfl

/-- A request dropped with its locks. -/
theorem dropped_eq (d : Device) (id : Nat) : d.dropped id = { d with
    locks := d.locks.filter (fun l => decide (l.owner ≠ LockOwner.request id))
    requests := d.requests.filter (fun x => decide (x.id ≠ id)) } := by
  have hlocks : (fun l : RangeLock => l.owner != LockOwner.request id) = fun l => decide (l.owner ≠ LockOwner.request id) :=
    funext (fun l => by rw [Bool.eq_iff_iff, bne_iff_ne, decide_eq_true_iff])
  have hrequests : (fun x : Request => x.id != id) = fun x => decide (x.id ≠ id) :=
    funext (fun x => by rw [Bool.eq_iff_iff, bne_iff_ne, decide_eq_true_iff])
  rw [← hlocks, ← hrequests]
  rfl

/-- Settles O38: a burst by its elements in order, a fault by the parked request, and a retirement that no log holds. -/
theorem copiesRun : Obligations.CopiesRun := by
  unfold Obligations.CopiesRun
  refine ⟨⟨?_, ?_⟩, ?_⟩
  · intro s id a b n f r hr hwork hwg hserve hreplay haccs hlost hf hleft width count
    obtain ⟨w, hw⟩ := Option.isSome_iff_exists.mp hwg
    obtain rfl := Device.request_id hr
    exact ⟨_, exec_copyBurstCommit hr hwork hw hserve (heldByLog_unreplayed hreplay) hleft, burst_run hf haccs hlost hr w⟩
  · intro s id r w src dst xf kind va hr hwork hw hserve hheld hleft hkind hmoves held parked told e
    obtain rfl := Device.request_id hr
    have hexec := exec_copyBurstCommit hr hwork hw hserve hheld hleft
    rw [burst_parks hkind hmoves, park_eq s.dev r hkind va] at hexec
    exact ⟨fun hroom => hexec.trans (by rw [if_neg (not_le.mpr hroom)]; rfl), fun hfull => hexec.trans (by rw [if_pos hfull]; rfl)⟩
  · intro s id r src dst xf hr hwork
    refine ⟨exec_copyRetire_unfinished hr hwork, ?_⟩
    intro w k o hw hk ho hserve hreplay hreplayW hlogW hlog hlost hstatus hdone released
    obtain rfl := Device.request_id hr
    rw [exec_copyRetire_finished hr hwork hserve hdone,
      retireRequest_unlogged hw hk ho hreplay hlog hreplayW hlogW hlost (isRetired_false hstatus), dropped_eq]

end Sys2Proof.Machine
end

section
/-! SUPPORT. ATOM.S, ATOM.X and RED in the terms of their entries (09 R195, R196; 04 Table 04-10): the operation that a code names, the
meaning of an atomic and what it leaves of a group, with nothing lost that was not lost before (21 R333). -/

namespace Sys2Proof.Claims

open Sys2Proof Sys2Proof.Machine

/-! ## The operations of Table 04-10 -/

/-- The operation of a code gives the value of its row. -/
theorem eval_ofAtom (o w old x y : Nat) : (AtomicOp.ofAtom o).eval w old x y = newValue o w old x y := by
  unfold AtomicOp.ofAtom newValue
  split
  · rfl
  · rfl
  · exact Nat.min_def ..
  · rfl
  · simp only [AtomicOp.eval, Nat.max_def]
    split_ifs <;> omega
  all_goals rfl

theorem ofRed_eq (o : Nat) : AtomicOp.ofRed o = AtomicOp.ofAtom (if o < 8 then o else o + 2) := by
  unfold AtomicOp.ofRed
  split_ifs <;> rfl

/-- Of the codes beyond those written out, all are FMAX. -/
theorem ofAtom_of_le {o : Nat} (h : 12 ≤ o) : AtomicOp.ofAtom o = .fmax := by
  unfold AtomicOp.ofAtom
  split
  case h_13 => rfl
  all_goals omega

/-- What holds of the operations' codes up to FMAX and of FMAX for every code beyond holds of every code. -/
theorem ofAtom_cases {P : Nat → AtomicOp → Prop} (hcodes : ∀ o < 12, P o (AtomicOp.ofAtom o)) (hbeyond : ∀ o, 12 ≤ o → P o .fmax)
    (o : Nat) : P o (AtomicOp.ofAtom o) := by
  obtain h | h := Nat.lt_or_ge o 12
  · exact hcodes o h
  · rw [ofAtom_of_le h]
    exact hbeyond o h

theorem isFloat_ofAtom (o : Nat) : (AtomicOp.ofAtom o).isFloat = decide (10 ≤ o) :=
  ofAtom_cases (P := fun o op => op.isFloat = decide (10 ≤ o)) (by decide) (fun _ h => (decide_eq_true (by omega)).symm) o

theorem ofAtom_eq_fadd (o : Nat) : (AtomicOp.ofAtom o == .fadd) = decide (o = 10) :=
  ofAtom_cases (P := fun o op => (op == .fadd) = decide (o = 10)) (by decide) (fun _ h => (decide_eq_false (by omega)).symm) o

theorem ofAtom_eq_cas (o : Nat) : AtomicOp.ofAtom o = .cas ↔ o = 9 :=
  ofAtom_cases (P := fun o op => op = .cas ↔ o = 9) (by decide) (fun _ h => by simp; omega) o

/-- The lanes act one after another, each on what the lane before it left. -/
theorem atomicLanes_ofAtom (v : View) (o w b : Nat) (ps : List (Nat × Place)) (d : Device) :
    atomicLanes v (AtomicOp.ofAtom o) w b ps d = atomicsRun v o w b ps d := by
  induction ps generalizing d with
  | nil => rfl
  | cons p ps ih =>
    simp only [atomicLanes, atomicsRun, eval_ofAtom, ih]

/-! ## The meaning of an atomic -/

/-- A lane's address (09 R195). -/
def Atomic.ea (x : Atomic) (v : View) (j : Nat) : Nat := v.read j x.a 32 % 2 ^ 32

/-- What an atomic that accumulates nothing leaves of a state: memory, the traffic, and where it returns them the old values. -/
def Atomic.performed (x : Atomic) (v : View) (act : Word) (s : State) : State :=
  let ps := placesOf act (x.place v)
  let r := atomicsRun v x.o x.w x.b ps s.dev
  let q := State.accessed { s with dev := r.2 } v ps (x.w / 8) x.reads true
  if x.reads then q.write v x.d x.w (valuesOf act (tableGet 0 r.1)) act .g else q

/-- A meaning is that of an atomic: its operands and checks, and its effect where it adds nothing to exact accumulators. -/
structure Atomic.MeantBy (x : Atomic) (m : Meaning) : Prop where
  spans : m.spans ⊆ x.spans
  cellSpans : m.cellSpans = fun _ => []
  words : m.words = fun _ => .ok
  always : m.always = false
  once : m.once = false
  illegal : m.illegal = fun v => x.reads && x.float && v.ctx.ordr
  operands : m.operands = fun v act => v.accessCheck act (x.w / 8) (x.w / 8) (x.ea v) (x.place v) hitsStore
  effect : ∀ (v : View) (act : Word) (s : State), (x.o = 10 → v.ctx.ordr = false) →
    s.dev.lostAt (placesOf act (x.place v)) (x.w / 8) = none → m.effect v act s = .ok (x.performed v act s)

theorem effective_zero (v : View) (a j : Nat) : v.effective a 0 j = v.read j a 32 % 2 ^ 32 := by
  rw [View.effective, Int.add_zero, lowI]
  omega

/-- The data's span: two values for CAS. -/
theorem atomData_ofAtom (o w : Nat) (b : BitVec 6) :
    atomData (AtomicOp.ofAtom o) w b = (8 * b.toNat, if o = 9 then w / 2 else w / 4) := by
  simp only [atomData, ofAtom_eq_cas, span, cellSlice]
  split_ifs <;> simp only [Prod.mk.injEq, true_and]
  omega

/-- ATOM's meaning, by the space and the operation's code. -/
theorem meantBy_atomic3 (sp : ThreadSpace) (h : Hdr) (o : Nat) (d a : BitVec 7) (b : BitVec 6) :
    Atomic.MeantBy ⟨sp, true, o, h, h.d d, h.a a, 8 * b.toNat⟩ (atomic3 sp h (AtomicOp.ofAtom o) d a b) where
  spans := by
    rw [atomic3, atomData_ofAtom]
    exact List.Subset.refl _
  cellSpans := rfl
  words := rfl
  always := rfl
  once := rfl
  illegal := by
    funext v
    exact congrArg (· && v.ctx.ordr) (isFloat_ofAtom o)
  operands := by
    simp only [atomic3, effective_zero]
    rfl
  effect v act s _ hlost := by
    have hintact : s.dev.lostAt (placesOf act (fun j => v.place sp true true (Hdr.atomWidth h / 8) (v.read j (h.a a) 32 % 2 ^ 32)))
        (Hdr.atomWidth h / 8) = none := hlost
    simp only [atomic3, effective_zero, atomicLanes_ofAtom, hintact]
    rfl

/-- What RED.FADD leaves of a device under the ordered-reduction bit: the lanes' operands added to their words' accumulators. -/
def Atomic.reduced (x : Atomic) (v : View) (act : Word) (s : State) : Device :=
  accumulate v.c 0 ((placesOf act (x.place v)).map (fun p => (p.2, v.read p.1 x.b x.w))) s.dev

/-- RED's effect: RED.FADD under the ordered-reduction bit accumulates where the reduction area holds the accumulators, else it is
QUOTA (09 R197, R198); every other RED performs its operation. -/
theorem red_effect {h : Hdr} {o : BitVec 4} {a : BitVec 7} {b : BitVec 6} {x : Atomic} (hx : atomicOf (.red h o a b) = some x) {v : View}
    {act : Word} {s : State} (hlost : s.dev.lostAt (placesOf act (x.place v)) (x.w / 8) = none) :
    (meaningRed h o a b).effect v act s =
      if decide (x.o = 10) && v.ctx.ordr then
        if (x.reduced v act s).reductionFits v.c then
          .ok (State.accessed { s with dev := x.reduced v act s } v (placesOf act (x.place v)) (x.w / 8) false true)
        else .error (v.ctx.quotaFault 6 0)
      else .ok (x.performed v act s) := by
  cases hx
  have hintact : s.dev.lostAt (placesOf act (fun j => v.place .spad false true (Hdr.atomWidth h / 8) (v.read j (h.a a) 32 % 2 ^ 32)))
      (Hdr.atomWidth h / 8) = none := hlost
  simp only [meaningRed, effective_zero, hintact, ofRed_eq, ofAtom_eq_fadd, atomicLanes_ofAtom]
  rfl

/-- RED's meaning, by the operation's code in Table 04-10. -/
theorem meantBy_red (h : Hdr) (o : BitVec 4) (a : BitVec 7) (b : BitVec 6) :
    Atomic.MeantBy ⟨.spad, false, if o.toNat < 8 then o.toNat else o.toNat + 2, h, 0, h.a a, 8 * b.toNat⟩ (meaningRed h o a b) where
  spans := by
    rw [meaningRed, ofRed_eq, atomData_ofAtom]
    exact List.Subset.refl _
  cellSpans := rfl
  words := rfl
  always := rfl
  once := rfl
  illegal := rfl
  operands := by
    simp only [meaningRed, effective_zero]
    rfl
  effect v act s hordr hlost := by
    refine (red_effect rfl hlost).trans (if_neg ?_)
    rw [Bool.and_eq_true, decide_eq_true_iff]
    rintro ⟨ho, hbit⟩
    exact Bool.false_ne_true ((hordr ho).symm.trans hbit)

/-- An atomic of Tables 09-3 and 04-10 has the meaning of its entry. -/
theorem atomicOf_meantBy {i : Instr} {x : Atomic} (h : atomicOf i = some x) : ∃ m, meaningOf i = some m ∧ x.MeantBy m := by
  cases i with
  | atomS hd o d a b =>
    cases h
    exact ⟨_, rfl, meantBy_atomic3 .shared hd o.toNat d a b⟩
  | atomX hd o d a b =>
    cases h
    exact ⟨_, rfl, meantBy_atomic3 .spad hd o.toNat d a b⟩
  | red hd o a b =>
    cases h
    exact ⟨_, rfl, meantBy_red hd o a b⟩
  | _ => cases h

/-- The checks of an atomic pass where those of its lanes do, no float operation that returns a value is under the
ordered-reduction bit, and its arrivals need not wait. -/
theorem Atomic.MeantBy.check_ok {x : Atomic} {m : Meaning} (hm : x.MeantBy m) {i : Instr} (hwf : i.wf = true) {vs : List View}
    {d : Device} (hb : InBudget vs x.spans) (hordr : ∀ v ∈ vs, (x.reads && x.float && v.ctx.ordr) = false)
    (hpass : ∀ v ∈ vs, Passes v (Instr.lanes i v) (x.w / 8) (x.w / 8) (x.ea v) (x.place v) hitsStore)
    (harr : ∀ v, vs.head? = some v → v.arrivalCheck d [] (m.arrives vs) = .ok) : m.check i vs d = .ok := by
  refine Meaning.check_ok hwf (fun v hv => by rw [hm.illegal]; exact hordr v hv) (fun v hv p hp => hb v hv p (hm.spans ?_))
    (fun v hv => Meaning.checkRest_ok (by rw [hm.words]) (fun _ => ?_)) harr
  · simpa [hm.cellSpans] using hp
  · rw [hm.operands]
    exact (hpass v (Meaning.acts_mem hv)).accessCheck

/-! ## What an error has lost stays what it was -/

theorem SameButMemory.lost_subset {d e : Device} (h : SameButMemory d e) : e.lost ⊆ d.lost := by
  obtain ⟨m, spad, accs, lost, hlost, rfl⟩ := h
  exact hlost

/-- The operations of some lanes change memories of threads only. -/
theorem sameButMemory_atomicsRun (v : View) (o w b : Nat) (ps : List (Nat × Place)) (d : Device)
    (hps : ∀ p ∈ ps, p.2.space.ofThreads = true) : SameButMemory d (atomicsRun v o w b ps d).2 := by
  induction ps generalizing d with
  | nil => exact .refl d
  | cons p ps ih =>
    obtain ⟨hp, hrest⟩ := List.forall_mem_cons.mp hps
    exact ((SameButMemory.settle d hp ..).trans (.putNum _ hp ..)).trans (ih _ hrest)

/-- The lanes' places are places of threads. -/
theorem Atomic.place_ofThreads (x : Atomic) (v : View) (act : Word) :
    ∀ p ∈ placesOf act (x.place v), p.2.space.ofThreads = true := by
  intro p hp
  obtain ⟨j, -, hplace⟩ := List.mem_filterMap.mp hp
  obtain ⟨q, hq, rfl⟩ := Option.map_eq_some_iff.mp hplace
  obtain hsp | ⟨k, hsp⟩ := View.place_space hq
  · rw [hsp]; rfl
  · rw [hsp]; rfl

theorem beginStop_lost (d : Device) (uid : Nat) (cause : BitVec 4) : (d.beginStop uid cause).lost = d.lost := by
  unfold Device.beginStop
  split
  · rfl
  · dsimp only
    split_ifs <;> simp

theorem watchHits_lost (d : Device) (c : BitVec 6) (uid : Nat) (fired : List Nat) : (d.watchHits c uid fired).lost = d.lost := by
  unfold Device.watchHits
  dsimp only
  split_ifs
  · rfl
  · split
    · split_ifs <;> simp [beginStop_lost]
    · simp [beginStop_lost]
  · simp

theorem accessed_lost (s : State) (v : View) (ps : List (Nat × Place)) (n : Nat) (reads writes : Bool) :
    (State.accessed s v ps n reads writes).dev.lost = s.dev.lost := by
  simp [State.accessed, Device.countThread, watchHits_lost]

theorem write_lost_subset (s : State) (v : View) (d w : Nat) (vals : List Nat) (lanes : Word) (tag : OpTag) :
    (s.write v d w vals lanes tag).dev.lost ⊆ s.dev.lost := by
  unfold State.write Device.writeGroup
  dsimp only
  split_ifs <;> simp

/-- An atomic loses nothing. -/
theorem Atomic.performed_lost_subset (x : Atomic) (v : View) (act : Word) (s : State) :
    (x.performed v act s).dev.lost ⊆ s.dev.lost := by
  have hrun := (sameButMemory_atomicsRun v x.o x.w x.b _ s.dev (x.place_ofThreads v act)).lost_subset
  unfold performed
  dsimp only
  split_ifs
  · refine List.Subset.trans (write_lost_subset ..) ?_
    rwa [accessed_lost]
  · rwa [accessed_lost]

theorem lostIn_eq_none {d : Device} {sp : Space} {a n : Nat} :
    d.lostIn sp a n = none ↔ ∀ p ∈ d.lost, storedWithin p sp a n = false := by
  unfold Device.lostIn
  cases hfind : d.lost.find? (fun p => storedWithin p sp a n) with
  | none => simpa using List.find?_eq_none.mp hfind
  | some q =>
    have hq := List.mem_of_find?_eq_some hfind
    have hin := List.find?_some hfind
    simpa using ⟨q, hq, hin⟩

/-- Bytes that are intact stay so where nothing more is lost. -/
theorem IntactAt.mono {d e : Device} {act : Word} {n : Nat} {place : Nat → Option Place} (h : IntactAt d act n place)
    (hlost : e.lost ⊆ d.lost) : IntactAt e act n place := fun j hj hact p hp =>
  lostIn_eq_none.mpr (fun q hq => lostIn_eq_none.mp (h j hj hact p hp) q (hlost hq))

end Sys2Proof.Claims
end

section
/-! PROOF of O16: ATOM.S, ATOM.X and RED act lane after lane (09 R195, R196). -/

namespace Sys2Proof.Claims

open Sys2Proof Sys2Proof.Machine

/-- A word whose arrivals leave no record completes when its checks pass and its effect on each group, one after another, never
fails while `K` holds. -/
theorem completes_of_effects {i : Instr} {m : Meaning} (hm : meaningOf i = some m) {s : State} {iss : Issue} {vs : List View}
    (hI : Issuing s iss vs) (hc : m.check i vs s.dev = .ok) (hr : m.recordArrivals vs s = .ok s) (ho : m.once = false)
    (ha : m.always = false) {P : View → State → State → Prop} (K : State → Prop)
    (hf : ∀ v ∈ vs, Instr.lanes i v ≠ 0 → ∀ s, K s → ∃ r, m.effect v (Instr.lanes i v) s = .ok r ∧ P v s r ∧ K r) (hK : K s) :
    Completes i s vs P := by
  obtain ⟨t, hrun, heach, -⟩ := runEffects_each K vs hf s hK
  have hacts : m.acts i vs = vs := if_neg (by rw [ho]; exact Bool.false_ne_true)
  unfold Completes
  rw [exec_eq_runWord hm]
  exact ⟨t, runWord_next hI hc (by rw [Meaning.run, hr, ha, hacts]; exact hrun), heach⟩

theorem Atomic.w_cases (x : Atomic) : x.w = 64 ∨ x.w = 32 := by
  unfold Atomic.w
  split_ifs
  · exact .inl rfl
  · exact .inr rfl

/-- What an atomic leaves is what its entry says. -/
theorem Atomic.performed_spec (x : Atomic) (act : View → Word) (v : View) (s : State) :
    Performed x act v s (x.performed v (act v) s) := by
  have hw := x.w_cases
  unfold Performed performed
  dsimp only
  split_ifs
  · exact write_wroteOne _ v act x.d x.w
      (fun v j => tableGet 0 (atomicsRun v x.o x.w x.b (placesOf (act v) (x.place v)) s.dev).1 j) (fun _ => .g) (by omega) (by omega)
      trivial
  · rfl

/-- Settles O16: the operations by their rows of Table 04-10, the lanes by induction on them, and the groups one after another, none
of which loses a byte that the next one reaches. -/
theorem atomicsInLaneOrder : Obligations.AtomicsInLaneOrder := by
  unfold Obligations.AtomicsInLaneOrder
  intro i x hx hwf s iss vs hI hb hok
  obtain ⟨m, hmeaning, hm⟩ := atomicOf_meantBy hx
  have hquiet : ∀ v ∈ vs, Quiet s.dev v := fun v hv => (hok v hv).1
  have hordr : ∀ v ∈ vs, (x.reads && x.float && v.ctx.ordr) = false := by
    intro v hv
    obtain ⟨-, hfree, -⟩ := hok v hv
    cases hreads : x.reads with
    | false => rfl
    | true =>
      cases hfloat : x.float with
      | false => rfl
      | true => exact hfree (.inl hreads) hfloat
  have hpass : ∀ v ∈ vs, Passes v (Instr.lanes i v) (x.w / 8) (x.w / 8) (x.ea v) (x.place v) hitsStore := by
    intro v hv
    obtain ⟨-, -, hpass, -⟩ := hok v hv
    exact hpass
  have hplain : ∀ v ∈ vs, x.o = 10 → v.ctx.ordr = false := by
    intro v hv ho
    obtain ⟨-, hfree, -⟩ := hok v hv
    exact hfree (.inr ho) (decide_eq_true ho.ge)
  have hcheck : m.check i vs s.dev = .ok := hm.check_ok hwf hb hordr hpass
    (fun v hv => arrivalCheck_quiet (hquiet v (List.mem_of_head? hv)) _ _)
  refine completes_of_effects hmeaning hI hcheck (recordArrivals_quiet hquiet) hm.once hm.always
    (fun r => r.dev.lost ⊆ s.dev.lost) (fun v hv _ r hr => ?_) (List.Subset.refl _)
  obtain ⟨-, -, -, hintact⟩ := hok v hv
  exact ⟨_, hm.effect v _ r (hplain v hv) (hintact.mono hr).lostAt, x.performed_spec (Instr.lanes i) v r,
    List.Subset.trans (x.performed_lost_subset v _ r) hr⟩

end Sys2Proof.Claims
end

section
/-! PROOF of O17: under the ordered-reduction bit a float atomic that returns a value is ILLEGAL, RED.FADD accumulates exactly, and an
accumulator's value does not depend on the order of its operands (09 R197, R198). -/

namespace Sys2Proof.Claims

open Sys2Proof Sys2Proof.Machine

/-! ## Exact accumulators -/

theorem add_fmt (x : Accumulator) (n : Nat) : (x.add n).fmt = x.fmt := by
  unfold Accumulator.add
  split <;> rfl

/-- An accumulator joined by a value: the sum of the numbers, and what has been among the operands. -/
def joinedBy (x : Accumulator) (u : Val) : Accumulator :=
  { x with
    sum := x.sum + (match u with | .num n m e => signed n (scaleUp m (e + 149)) | _ => 0)
    nan := x.nan || u.isNan
    posInf := x.posInf || (u.isInf && !u.neg)
    negInf := x.negInf || (u.isInf && u.neg)
    allNegZero := x.allNegZero && (u.neg && u.isZero) }

theorem add_eq_joinedBy (x : Accumulator) (n : Nat) : x.add n = joinedBy x (x.fmt.value n) := by
  unfold Accumulator.add joinedBy
  cases x.fmt.value n <;> simp [Val.isNan, Val.isInf, Val.isZero, Val.neg, Bool.and_assoc, Bool.beq_eq_decide_eq]

/-- The order of two values does not matter: every field joins them by a sum, an or, or an and. -/
theorem joinedBy_right_comm (x : Accumulator) (u u' : Val) : joinedBy (joinedBy x u) u' = joinedBy (joinedBy x u') u := by
  simp only [joinedBy, Int.add_right_comm x.sum, Bool.or_right_comm x.nan, Bool.or_right_comm x.posInf, Bool.or_right_comm x.negInf,
    Bool.and_right_comm x.allNegZero]

theorem add_right_comm (x : Accumulator) (m n : Nat) : (x.add m).add n = (x.add n).add m := by
  rw [add_eq_joinedBy (x.add m), add_eq_joinedBy (x.add n), add_fmt, add_fmt, add_eq_joinedBy x m, add_eq_joinedBy x n]
  exact joinedBy_right_comm ..

/-! ## RED.FADD under the ordered-reduction bit -/

/-- RED.FADD logs no arrival under the ordered-reduction bit (22 R351). -/
theorem red_arrives_ordered (h : Hdr) (a : BitVec 7) (b : BitVec 6) {v : View} (hordr : v.ctx.ordr = true) :
    (meaningRed h 8 a b).arrives [v] = [] := by
  have hnone : [v].filter (fun v => !(AtomicOp.ofRed (BitVec.toNat (8 : BitVec 4)) == .fadd && v.ctx.ordr)) = [] := by
    rw [List.filter_singleton, hordr]
    rfl
  simp only [meaningRed, hnone]
  rfl

/-- One group's word whose arrivals leave no record has its effect. -/
theorem run_single {m : Meaning} {i : Instr} {v : View} {s : State} (hr : m.recordArrivals [v] s = .ok s)
    (hact : Instr.lanes i v ≠ 0) : m.run i [v] s = m.effect v (Instr.lanes i v) s := by
  have hruns : (m.always || decide (Instr.lanes i v ≠ 0)) = true := by rw [decide_eq_true hact, Bool.or_true]
  rw [Meaning.run, hr, Meaning.acts_single]
  simp only [runEffects, hruns, if_true]
  cases m.effect v (Instr.lanes i v) s <;> rfl

/-- A float RED is of 32 bits (09 R195). -/
theorem red_width {h : Hdr} {a : BitVec 7} {b : BitVec 6} {x : Atomic} (hx : atomicOf (.red h 8 a b) = some x)
    (hwf : (Instr.red h 8 a b).wf = true) : x.w = 32 := by
  have hform := formOk_of_wf hwf
  cases hx
  have hwo : h.e.wo = false := by
    cases hwo : h.e.wo with
    | false => rfl
    | true => simp [Instr.formOk, Hdr.atomOk, hwo] at hform
  simp [Atomic.w, hwo]

/-- A float atomic that returns a value is ILLEGAL under the ordered-reduction bit (09 R197). -/
theorem exec_floatAtomic_ordered {i : Instr} {x : Atomic} (hx : atomicOf i = some x) (hwf : i.wf = true) (hfloat : x.float = true)
    (hreads : x.reads = true) {s : State} {iss : Issue} {v : View} (hI : Issuing s iss [v]) (hordr : v.ctx.ordr = true) :
    exec i s = .next (s.trap iss i { cause := causeIllegal, detail := Instr.extLen i, lanes := none }) := by
  obtain ⟨m, hmeaning, hm⟩ := atomicOf_meantBy hx
  rw [exec_eq_runWord hmeaning]
  exact runWord_trap hI (Meaning.check_illegal hwf (by simp only [hm.illegal, hreads, hfloat, hordr, Bool.and_self]))

/-- RED.FADD under the ordered-reduction bit accumulates, or is QUOTA (09 R197, R198). -/
theorem exec_redFadd_ordered {h : Hdr} {a : BitVec 7} {b : BitVec 6} {x : Atomic} (hx : atomicOf (.red h 8 a b) = some x)
    (hwf : (Instr.red h 8 a b).wf = true) {s : State} {iss : Issue} {v : View} (hI : Issuing s iss [v]) (hb : InBudget [v] x.spans)
    (hordr : v.ctx.ordr = true) (hact : v.active h ≠ 0)
    (hpass : Passes v (v.active h) (x.w / 8) (x.w / 8) (x.ea v) (x.place v) hitsStore)
    (hintact : IntactAt s.dev (v.active h) (x.w / 8) (x.place v)) :
    exec (.red h 8 a b) s = .next (if (x.reduced v (v.active h) s).reductionFits v.c then
      State.accessed { s with dev := x.reduced v (v.active h) s } v (placesOf (v.active h) (x.place v)) (x.w / 8) false true
    else s.faulted iss v.c (v.ctx.quotaFault 6 0)) := by
  have hm : x.MeantBy (meaningRed h 8 a b) := by
    cases hx
    exact meantBy_red h 8 a b
  have harrives := red_arrives_ordered h a b hordr
  obtain ⟨hreads, ho⟩ : x.reads = false ∧ x.o = 10 := by
    cases hx
    exact ⟨rfl, rfl⟩
  have hcheck : (meaningRed h 8 a b).check (.red h 8 a b) [v] s.dev = .ok := by
    refine hm.check_ok hwf hb (fun u _ => by rw [hreads]; rfl) (fun u hu => ?_) (fun u _ => ?_)
    · rw [List.mem_singleton.mp hu]
      exact hpass
    · rw [harrives, View.arrivalCheck_nil]
  have hrecords : (meaningRed h 8 a b).recordArrivals [v] s = .ok s := by
    change (v.arrivals ((meaningRed h 8 a b).arrives [v]) s.dev).map _ = _
    rw [harrives]
    rfl
  have hrun := (run_single (i := .red h 8 a b) hrecords hact).trans (red_effect hx hintact.lostAt)
  rw [if_pos (by rw [ho, hordr]; rfl)] at hrun
  rw [exec_eq_runWord (m := meaningRed h 8 a b) rfl]
  split_ifs with hfits
  · exact runWord_next hI hcheck (hrun.trans (if_pos hfits))
  · exact runWord_fault hI hcheck (hrun.trans (if_neg hfits))

/-- Settles O17: the words' own check, the accumulation within the reduction area, and a sum whose operands commute. -/
theorem orderedReduction : Obligations.OrderedReduction := by
  unfold Obligations.OrderedReduction
  refine ⟨⟨fun i x hx hwf hfloat hreads s iss v hI hordr => exec_floatAtomic_ordered hx hwf hfloat hreads hI hordr, ?_⟩, ?_⟩
  · intro h a b x hx hwf s iss v hI hb hordr hact hpass hintact ps d
    have hw := red_width hx hwf
    have hexec := exec_redFadd_ordered hx hwf hI hb hordr hact (by rw [hw]; exact hpass) (by rw [hw]; exact hintact)
    rw [Atomic.reduced, hw] at hexec
    exact hexec
  · intro x l₁ l₂ hperm
    rw [hperm.foldl_eq' (fun m _ n _ z => add_right_comm z m n)]

end Sys2Proof.Claims
end
